-- ==== Sys2Proof/Word.lean ====
section
/-! DEFINITION. The words of the Tituwa 880 and their plainest readings (spec 00_scope.md R1, R3, R7).
A `Store w` is sparse data of `w`-bit units by number: an unlisted number reads as zero. -/

namespace Sys2Proof

abbrev Byte := BitVec 8
abbrev W16 := BitVec 16
abbrev W32 := BitVec 32
abbrev W64 := BitVec 64
/-- A 57-bit virtual address as a register holds it (R262). -/
abbrev VAddr := BitVec 57
/-- A 128-byte line, byte 0 in bits [7:0] (R1). -/
abbrev Line := BitVec 1024

/-- Sparse units of `w` bits by number. -/
abbrev Store (w : Nat) := List (Nat × BitVec w)
/-- Sparse records by number; an unlisted number holds no record. -/
abbrev Table (α : Type) := List (Nat × α)

/-- Bits [hi:lo] of a natural number (R1, R7). -/
def bits (x hi lo : Nat) : Nat := x / 2 ^ lo % 2 ^ (hi + 1 - lo)
/-- Bit [n] of a natural number. -/
def bit (x n : Nat) : Bool := x / 2 ^ n % 2 == 1
/-- The low `n` bits of `x` read as a two's complement number (R7, S). -/
def signed (n x : Nat) : Int := if x % 2 ^ n < 2 ^ (n - 1) then (x % 2 ^ n : Nat) else (x % 2 ^ n : Nat) - (2 ^ n : Nat)
/-- An integer reduced to `n` bits (R7, Wrap). -/
def wrapNat (n : Nat) (x : Int) : Nat := (x % (2 ^ n : Nat)).toNat
/-- Ceil(a / b). -/
def ceilDiv (a b : Nat) : Nat := (a + b - 1) / b

end Sys2Proof
end

