-- ==== Sys2Proof/Syntax.lean ====
section
/-! DEFINITION. The instructions and the events of the device: one constructor per row of the opcode table
(spec/opcode_table.json). An instruction keeps the fields of its parcels (R92 to R100), pulled out once by
`Sys2Proof.decode`; what a field means, and the trap a bad one raises (R94 to R98, R115), is the machine's. An event
carries which unit it happens at and what came from outside the package; a Headgate command or an SPDM request
carries nothing, since its frame waits in the state (R455, R461). The constructors without fields stand last. -/

namespace Sys2Proof

/-- Parcel 0 of every instruction but the opcode (R92). -/
structure P0 where
  dreg : BitVec 6
  nwb : Bool
  srcA : BitVec 7
  srcB : BitVec 7
  grd : BitVec 3
  deriving DecidableEq, Repr

/-- Class of an ALU function: OPC[31:30] = 00 g, 01 s, 10 v (R107). -/
inductive Cls | g | s | v
  deriving DecidableEq, Repr

/-- Form R: parcel 0, and the immediate when SRCA or SRCB is 127 (R93); zero otherwise. -/
structure ROp where
  p : P0
  imm : W32
  deriving DecidableEq, Repr

/-- Form X (R99). `z` is the must-be-zero field [12:0]. -/
structure XOp where
  p : P0
  srcC : BitVec 7
  rm : BitVec 3
  sat : Bool
  type : BitVec 4
  fn4 : BitVec 4
  z : BitVec 13
  deriving DecidableEq, Repr

/-- Form M (R100). -/
structure MOp where
  p : P0
  scope : BitVec 3
  order : BitVec 2
  cpol : BitVec 3
  wid : BitVec 3
  ofs : BitVec 21
  deriving DecidableEq, Repr

/-- Form K: PARAM of the K parcel (R93); its SUB byte chose the constructor. -/
structure KOp where
  p : P0
  param : BitVec 24
  deriving DecidableEq, Repr

/-- Form P: the parameter parcel (R93). -/
structure POp where
  p : P0
  param : W32
  deriving DecidableEq, Repr

/-- Form W: the 64-bit immediate (R93). -/
structure WOp where
  p : P0
  imm : W64
  deriving DecidableEq, Repr

/-- A place that runs instructions: a block in a core's slot, a core's supervisor context, a system core. -/
inductive CtxId
  | blk (core slot : Nat)
  | sup (core : Nat)
  | sys (n : Nat)
  deriving DecidableEq, Repr

/-- The header of a MSG flit (R445) as a message of it arrives: its sequence number, its ACK, and whether the message
is the last of the flit's body (R446). -/
structure Flit where
  seq : Nat
  ack : Nat
  last : Bool
  deriving DecidableEq, Repr

/-- A message of Corhoeb Link (R446), its OP apart. -/
structure LinkMsg where
  size : Nat
  aop : Nat
  any : Bool
  dbl : Bool
  poison : Bool
  sys : Bool
  src : Nat
  part : Nat
  tag : Nat
  code : Nat
  addr : Nat
  data : List Byte
  deriving DecidableEq, Repr

/-- Who sends a Headgate command (R453, R456): a master, or the resident OS of a partition. -/
inductive Requester
  | pf | bmc | remote
  | os (part : Nat)
  deriving DecidableEq, Repr

/-- A Headgate request frame (R455), its CMD apart: SEQ, the 56 argument bytes, the payload. -/
structure HgReq where
  who : Requester
  seq : W32
  args : List Byte
  payload : List Byte
  deriving DecidableEq, Repr

/-- The instructions (ADD to SEV, UNASSIGNED_OPCODE) and the events of the device. -/
inductive Instr
  | add (c : Cls) (o : ROp)
  | sub (c : Cls) (o : ROp)
  | mul (c : Cls) (o : ROp)
  | mulh (c : Cls) (o : ROp)
  | mulhu (c : Cls) (o : ROp)
  | mad (c : Cls) (o : XOp)
  | div (c : Cls) (o : ROp)
  | divu (c : Cls) (o : ROp)
  | rem (c : Cls) (o : ROp)
  | remu (c : Cls) (o : ROp)
  | neg (c : Cls) (o : ROp)
  | abs (c : Cls) (o : ROp)
  | min (c : Cls) (o : ROp)
  | max (c : Cls) (o : ROp)
  | minu (c : Cls) (o : ROp)
  | maxu (c : Cls) (o : ROp)
  | addsat (c : Cls) (o : ROp)
  | subsat (c : Cls) (o : ROp)
  | and (c : Cls) (o : ROp)
  | or (c : Cls) (o : ROp)
  | xor (c : Cls) (o : ROp)
  | andn (c : Cls) (o : ROp)
  | not (c : Cls) (o : ROp)
  | shl (c : Cls) (o : ROp)
  | shr (c : Cls) (o : ROp)
  | sar (c : Cls) (o : ROp)
  | rol (c : Cls) (o : ROp)
  | clz (c : Cls) (o : ROp)
  | popc (c : Cls) (o : ROp)
  | brev (c : Cls) (o : ROp)
  | bfx (c : Cls) (o : XOp)
  | bfi (c : Cls) (o : XOp)
  | sel (c : Cls) (o : XOp)
  | mov (c : Cls) (o : ROp)
  | cmp (c : Cls) (o : XOp)
  | lea (c : Cls) (o : XOp)
  | plog (c : Cls) (o : XOp)
  | fadd (c : Cls) (o : XOp)
  | fsub (c : Cls) (o : XOp)
  | fmul (c : Cls) (o : XOp)
  | fma (c : Cls) (o : XOp)
  | fmin (c : Cls) (o : XOp)
  | fmax (c : Cls) (o : XOp)
  | fabs (c : Cls) (o : XOp)
  | fneg (c : Cls) (o : XOp)
  | fcmp (c : Cls) (o : XOp)
  | fclass (c : Cls) (o : XOp)
  | fcvt (c : Cls) (o : XOp)
  | icvt (c : Cls) (o : XOp)
  | frcp (c : Cls) (o : XOp)
  | frsq (c : Cls) (o : XOp)
  | fsqrt (c : Cls) (o : XOp)
  | fexp2 (c : Cls) (o : XOp)
  | flog2 (c : Cls) (o : XOp)
  | fsin (c : Cls) (o : XOp)
  | fcos (c : Cls) (o : XOp)
  | ftanh (c : Cls) (o : XOp)
  | movw (o : WOp)
  | ld (o : MOp)
  | st (o : MOp)
  | ldl (o : MOp)
  | stl (o : MOp)
  | ldp (o : MOp)
  | stp (o : MOp)
  | ldg (o : MOp)
  | sts (o : MOp)
  | pref (o : MOp)
  | atom (o : MOp)
  | red (o : MOp)
  | fence (o : MOp)
  | waita (o : MOp)
  | cflush (o : MOp)
  | cpkick (o : KOp)
  | cpwait (o : KOp)
  | cpdrain (o : KOp)
  | bari (o : KOp)
  | bara (o : KOp)
  | barw (o : KOp)
  | barl (o : KOp)
  | ticket (o : ROp)
  | tfetch (o : POp)
  | tfetchM (o : POp)
  | tfetchR (o : POp)
  | trel (o : ROp)
  | cvset (o : KOp)
  | cvsign (o : KOp)
  | mma (o : POp)
  | mmas (o : POp)
  | azero (o : ROp)
  | ald (o : POp)
  | ast (o : POp)
  | drn (o : POp)
  | agset (o : KOp)
  | agget (o : KOp)
  | setvl (o : ROp)
  | shfl (o : ROp)
  | vperm (o : ROp)
  | vred (o : POp)
  | vscan (o : POp)
  | vcmprs (o : ROp)
  | vexpnd (o : ROp)
  | vslide (o : ROp)
  | vid (o : ROp)
  | vbcast (o : ROp)
  | qnt (o : POp)
  | dqnt (o : POp)
  | br (o : POp)
  | jmp (o : POp)
  | call (o : POp)
  | ret (o : ROp)
  | rejoin (o : ROp)
  | exit (o : KOp)
  | yield (o : KOp)
  | wdog (o : KOp)
  | nop (o : ROp)
  | ep (o : POp)
  | hop (o : ROp)
  | trap (o : POp)
  | rett (o : ROp)
  | bkpt (o : ROp)
  | grow (o : KOp)
  | shrink (o : KOp)
  | launch (o : ROp)
  | arm (o : ROp)
  | send (o : ROp)
  | cfg (o : ROp)
  | strm (o : POp)
  | sbar (o : POp)
  | splice (o : ROp)
  | drainf (o : ROp)
  | drainfSlice (o : ROp)
  | fwait (o : POp)
  | mfs (o : KOp)
  | mts (o : KOp)
  | svrunResume (o : KOp)
  | svrunAbort (o : KOp)
  | svrunDeliver (o : KOp)
  | svinit (o : KOp)
  | hostint (o : KOp)
  | ringack (o : KOp)
  | tlbinv (o : KOp)
  | cntr (o : KOp)
  | cntc (o : KOp)
  | ctxsv (o : KOp)
  | ctxld (o : KOp)
  | vfctlQuiesce (o : KOp)
  | vfctlResume (o : KOp)
  | vfctlRdq (o : KOp)
  | vfctlWrq (o : KOp)
  | dirtyrd (o : KOp)
  | halt (o : KOp)
  | wfi (o : KOp)
  | sev (o : KOp)
  | bootImageCheck (got : Option (List Byte × List Byte))
  | blockPlacement (launch core slot : Nat)
  | restorePlacement (part entry core slot : Nat)
  | regroupPoint (core slot : Nat)
  | loadDataReturn (id : Nat)
  | sfuResultReturn (c : CtxId)
  | sealWindowGrant (core slot : Nat)
  | blockRetirement (core slot : Nat)
  | trapDelivery (core slot : Nat)
  | debugHaltStop (core slot : Nat)
  | watchdogExpiry (core slot gang : Nat)
  | placementDeadline (launch : Nat)
  | resumeDeadline (part : Nat)
  | preemption (core slot : Nat)
  | preemptionDeadline (core slot : Nat)
  | drainDeadline (core slot : Nat)
  | growGrant (core slot : Nat)
  | growDeadlock (core : Nat)
  | interruptEntry (c : CtxId)
  | ticketGrant (core slot : Nat)
  | tileFetchPerform (core : Nat)
  | mmaEntryExecute (core slot : Nat)
  | drnRowExecute (core slot : Nat)
  | accRowTransfer (core slot : Nat)
  | culvertChunk (core eng : Nat)
  | pageWalk (id : Nat)
  | suuAtomic (id : Nat)
  | sliceWrite (id : Nat)
  | lineFill (line : Nat)
  | lineSettle (line : Nat)
  | pondEntryError (slice entry : Nat)
  | l2TagError (slice : Nat)
  | l1EccError (core word : Nat)
  | localEccError (core slot word : Nat)
  | streamWindowFill (core slot port : Nat)
  | cellFire (core slot elem : Nat)
  | statefulRelease (core slot elem : Nat)
  | arriveForward (core slot elem : Nat)
  | markerForward (core slot elem : Nat)
  | matrixPortIssue (core slot elem : Nat)
  | streamInputSend (core slot port : Nat)
  | streamOutputWrite (core slot port : Nat)
  | inputPortNop (core slot port : Nat)
  | accountFlush (core : Nat)
  | messageArrival (port : Nat) (dst : BitVec 128) (tag : W64) (payload : List Byte)
  | heldMessageRelease (part entry : Nat)
  | messageDeparture (part : Nat)
  | ringEntryHandout (fn : Nat) (entry : BitVec 128)
  | doorbellWrite (fn : Nat) (val : W32)
  | ringConfigWrite (fn offset : Nat) (val : W64)
  | notifyWrite (fn : Nat) (val : W32)
  | bar0RegisterWrite (fn offset : Nat) (val : W32)
  | bar2Request (fn offset size : Nat) (data : Option (List Byte))
  | functionLevelReset (fn : Nat)
  | neighborSolicitation (port : Nat) (target : BitVec 128)
  | nextHopTimeout (port : Nat) (addr : BitVec 128)
  | rd (port : Nat) (f : Flit) (m : LinkMsg)
  | wr (port : Nat) (f : Flit) (m : LinkMsg)
  | atm (port : Nat) (f : Flit) (m : LinkMsg)
  | rdata (port : Nat) (f : Flit) (m : LinkMsg)
  | wack (port : Nat) (f : Flit) (m : LinkMsg)
  | fail (port : Nat) (f : Flit) (m : LinkMsg)
  | nak (port ack : Nat)
  | ctrl (port ack req resp : Nat) (linkup : Bool)
  | flitCrcFail (port : Nat)
  | corhoebLinkDown (port : Nat)
  | linkRetrain (port : Nat)
  | registerFileEccError (core slot key : Nat)
  | unassignedOpcode (parcel : W32) (second : W32)
  | columnClearingComplete (column : Nat)
  | idle (port ack : Nat)
  | neighborAdvertisement (port : Nat) (addr : BitVec 128) (mac : BitVec 48)
  | hostAccessCompletion (id : Nat) (data : Option (List Byte))
  | ethernetLinkDown (port : Nat)
  | packageReset
  | bootRetry
  | powerCapWindow
  | thermalThrottle
  | thermalReset
  | getnonce
  | claim
  | handover
  | release
  | unfreeze
  | ownerq
  | partset
  | partreset
  | lend
  | reclaim
  | bindvf
  | setaddr
  | peermap
  | sharegrp
  | acctassign
  | cntread
  | cntclear
  | measure
  | bootcfg
  | extend
  | setweight
  | setfloor
  | powercap
  | setewt
  | setdeadlines
  | setpools
  | setquota
  | settwin
  | setumbuf
  | armread
  | armwrite
  | unitrelease
  | resumectx
  | eventpop
  | headgateUnknownCmd
  | getVersion
  | getCapabilities
  | negotiateAlgorithms
  | getDigests
  | getCertificate
  | challenge
  | getMeasurements
  | keyExchange
  | finish
  | endSession
  deriving DecidableEq, Repr

end Sys2Proof
end

