-- ==== Sys2Proof/WellFormed.lean ====
section
/-! DEFINITION. Which terms of `Instr` stand for something: an instruction whose fields its encoding can carry and
that no other constructor spells (R93, R211, R371, R463), an event at a unit the package has (R16, R21, R22). -/

namespace Sys2Proof

/-- An R-form instruction has an immediate only with specifier 127 (R93). -/
def ROp.wf (o : ROp) : Bool := o.imm == 0#32 || o.p.srcA == 127#7 || o.p.srcB == 127#7

/-- NUM of MFS and MTS (R236). -/
def KOp.num (o : KOp) : Nat := bits o.param.toNat 11 0

/-- OP of VFCTL (R463). -/
def KOp.op (o : KOp) : Nat := bits o.param.toNat 23 20

/-- An MTS that no other constructor spells. -/
def KOp.plainMts (o : KOp) : Bool :=
  !(o.num == 0x191 || o.num == 0x115 || o.num == 0x116 ||
    (o.num == 0x185 && (o.p.srcA.toNat == 73 || o.p.srcA.toNat == 74 || o.p.srcA.toNat == 75)))

def okCore (c : Nat) : Bool := c < 192
def okSlot (s : Nat) : Bool := s < 8
def okPart (p : Nat) : Bool := p < 32
/-- A function: VF 0 to 127, or 128 for the PF (R440). -/
def okFn (f : Nat) : Bool := f ≤ 128
/-- A line of package memory (R278). -/
def okLine (l : Nat) : Bool := l < 0xC000_0000
def CtxId.wf : CtxId → Bool
  | .blk c s => okCore c && okSlot s
  | .sup c => okCore c
  | .sys n => n < 8
def Requester.wf : Requester → Bool
  | .os p => okPart p
  | _ => true
/-- A Headgate frame: 56 argument bytes and at most 1,984 of payload (R455). -/
def HgReq.wf (q : HgReq) : Bool := q.who.wf && q.args.length == 56 && q.payload.length ≤ 1984
/-- Sizes are powers of two from 1 to 128, the address aligned (R446). -/
def LinkMsg.wf (m : LinkMsg) : Bool :=
  [1, 2, 4, 8, 16, 32, 64, 128].contains m.size && m.tag < 4096 && m.addr % m.size == 0 && m.addr < 2 ^ 39

/-- Opcode bytes that R107 and R110 leave unassigned, whatever SUB. -/
def unassignedOpc (opc : Nat) : Bool :=
  if opc < 0xC0 then (0x25 ≤ opc % 64 && opc % 64 ≤ 0x27) || (0x34 ≤ opc % 64 && opc % 64 ≤ 0x37) else opc == 0xFE

/-- How many SUB values a group primary assigns (R111, R112); none when the opcode is no group. -/
def groupSize (opc : Nat) : Option Nat :=
  match opc with
  | 0xCF => some 3
  | 0xD0 => some 4
  | 0xD4 => some 2
  | 0xDB => some 2
  | 0xED => some 3
  | 0xF4 => some 2
  | 0xFF => some 12
  | _ => none

/-- An unassigned opcode, or a group primary with an unassigned SUB in its second parcel (R114). -/
def unassignedPair (a b : Nat) : Bool :=
  match groupSize (bits a 31 24) with
  | some n => n ≤ bits b 31 24
  | none => unassignedOpc (bits a 31 24) && b == 0

def Instr.wellFormed : Instr → Bool
  | .add _ o => o.wf
  | .sub _ o => o.wf
  | .mul _ o => o.wf
  | .mulh _ o => o.wf
  | .mulhu _ o => o.wf
  | .mad _ _ => true
  | .div _ o => o.wf
  | .divu _ o => o.wf
  | .rem _ o => o.wf
  | .remu _ o => o.wf
  | .neg _ o => o.wf
  | .abs _ o => o.wf
  | .min _ o => o.wf
  | .max _ o => o.wf
  | .minu _ o => o.wf
  | .maxu _ o => o.wf
  | .addsat _ o => o.wf
  | .subsat _ o => o.wf
  | .and _ o => o.wf
  | .or _ o => o.wf
  | .xor _ o => o.wf
  | .andn _ o => o.wf
  | .not _ o => o.wf
  | .shl _ o => o.wf
  | .shr _ o => o.wf
  | .sar _ o => o.wf
  | .rol _ o => o.wf
  | .clz _ o => o.wf
  | .popc _ o => o.wf
  | .brev _ o => o.wf
  | .bfx _ _ => true
  | .bfi _ _ => true
  | .sel _ _ => true
  | .mov _ o => o.wf
  | .cmp _ _ => true
  | .lea _ _ => true
  | .plog _ _ => true
  | .fadd _ _ => true
  | .fsub _ _ => true
  | .fmul _ _ => true
  | .fma _ _ => true
  | .fmin _ _ => true
  | .fmax _ _ => true
  | .fabs _ _ => true
  | .fneg _ _ => true
  | .fcmp _ _ => true
  | .fclass _ _ => true
  | .fcvt _ _ => true
  | .icvt _ _ => true
  | .frcp _ _ => true
  | .frsq _ _ => true
  | .fsqrt _ _ => true
  | .fexp2 _ _ => true
  | .flog2 _ _ => true
  | .fsin _ _ => true
  | .fcos _ _ => true
  | .ftanh _ _ => true
  | .movw _ => true
  | .ld _ => true
  | .st _ => true
  | .ldl _ => true
  | .stl _ => true
  | .ldp _ => true
  | .stp _ => true
  | .ldg _ => true
  | .sts _ => true
  | .pref _ => true
  | .atom _ => true
  | .red _ => true
  | .fence _ => true
  | .waita _ => true
  | .cflush _ => true
  | .cpkick _ => true
  | .cpwait _ => true
  | .cpdrain _ => true
  | .bari _ => true
  | .bara _ => true
  | .barw _ => true
  | .barl _ => true
  | .ticket o => o.wf
  | .tfetch o => !bit o.param.toNat 28 && !bit o.param.toNat 27
  | .tfetchM o => bit o.param.toNat 28
  | .tfetchR o => !bit o.param.toNat 28 && bit o.param.toNat 27
  | .trel o => o.wf
  | .cvset _ => true
  | .cvsign _ => true
  | .mma _ => true
  | .mmas _ => true
  | .azero o => o.wf
  | .ald _ => true
  | .ast _ => true
  | .drn _ => true
  | .agset _ => true
  | .agget _ => true
  | .setvl o => o.wf
  | .shfl o => o.wf
  | .vperm o => o.wf
  | .vred _ => true
  | .vscan _ => true
  | .vcmprs o => o.wf
  | .vexpnd o => o.wf
  | .vslide o => o.wf
  | .vid o => o.wf
  | .vbcast o => o.wf
  | .qnt _ => true
  | .dqnt _ => true
  | .br _ => true
  | .jmp _ => true
  | .call _ => true
  | .ret o => o.wf
  | .rejoin o => o.wf
  | .exit _ => true
  | .yield _ => true
  | .wdog _ => true
  | .nop o => o.wf
  | .ep _ => true
  | .hop o => o.wf
  | .trap _ => true
  | .rett o => o.wf
  | .bkpt o => o.wf
  | .grow _ => true
  | .shrink _ => true
  | .launch o => o.wf
  | .arm o => o.wf
  | .send o => o.wf
  | .cfg o => o.wf
  | .strm _ => true
  | .sbar _ => true
  | .splice o => o.wf
  | .drainf o => o.wf && o.p.dreg.toNat != 1
  | .drainfSlice o => o.wf && o.p.dreg.toNat == 1
  | .fwait _ => true
  | .mfs _ => true
  | .mts o => o.plainMts
  | .svrunResume o => o.num == 0x185 && o.p.srcA.toNat == 73
  | .svrunAbort o => o.num == 0x185 && o.p.srcA.toNat == 74
  | .svrunDeliver o => o.num == 0x185 && o.p.srcA.toNat == 75
  | .svinit o => o.num == 0x191
  | .hostint o => o.num == 0x115
  | .ringack o => o.num == 0x116
  | .tlbinv _ => true
  | .cntr _ => true
  | .cntc _ => true
  | .ctxsv _ => true
  | .ctxld _ => true
  | .vfctlQuiesce o => !(o.op == 1 || o.op == 2 || o.op == 3)
  | .vfctlResume o => o.op == 1
  | .vfctlRdq o => o.op == 2
  | .vfctlWrq o => o.op == 3
  | .dirtyrd _ => true
  | .halt _ => true
  | .wfi _ => true
  | .sev _ => true
  | .bootImageCheck _ => true
  | .blockPlacement _ core slot => okCore core && okSlot slot
  | .restorePlacement part _ core slot => okPart part && okCore core && okSlot slot
  | .regroupPoint core slot => okCore core && okSlot slot
  | .loadDataReturn _ => true
  | .sfuResultReturn c => c.wf
  | .sealWindowGrant core slot => okCore core && okSlot slot
  | .blockRetirement core slot => okCore core && okSlot slot
  | .trapDelivery core slot => okCore core && okSlot slot
  | .debugHaltStop core slot => okCore core && okSlot slot
  | .watchdogExpiry core slot gang => okCore core && okSlot slot && gang < 32
  | .placementDeadline _ => true
  | .resumeDeadline part => okPart part
  | .preemption core slot => okCore core && okSlot slot
  | .preemptionDeadline core slot => okCore core && okSlot slot
  | .drainDeadline core slot => okCore core && okSlot slot
  | .growGrant core slot => okCore core && okSlot slot
  | .growDeadlock core => okCore core
  | .interruptEntry c => c.wf
  | .ticketGrant core slot => okCore core && okSlot slot
  | .tileFetchPerform core => okCore core
  | .mmaEntryExecute core slot => okCore core && okSlot slot
  | .drnRowExecute core slot => okCore core && okSlot slot
  | .accRowTransfer core slot => okCore core && okSlot slot
  | .culvertChunk core eng => okCore core && eng < 2
  | .pageWalk _ => true
  | .suuAtomic _ => true
  | .sliceWrite _ => true
  | .lineFill line => okLine line
  | .lineSettle line => okLine line
  | .pondEntryError slice entry => slice < 320 && entry < 16384
  | .l2TagError slice => slice < 320
  | .l1EccError core word => core < 200 && okLine (word / 16)
  | .localEccError core slot _ => okCore core && okSlot slot
  | .streamWindowFill core slot port => okCore core && okSlot slot && port < 96
  | .cellFire core slot elem => okCore core && okSlot slot && elem < 486
  | .statefulRelease core slot elem => okCore core && okSlot slot && elem < 486
  | .arriveForward core slot elem => okCore core && okSlot slot && elem < 486
  | .markerForward core slot elem => okCore core && okSlot slot && elem < 486
  | .matrixPortIssue core slot elem => okCore core && okSlot slot && elem < 486
  | .streamInputSend core slot port => okCore core && okSlot slot && port < 96
  | .streamOutputWrite core slot port => okCore core && okSlot slot && port < 96
  | .inputPortNop core slot port => okCore core && okSlot slot && port < 96
  | .accountFlush core => okCore core
  | .messageArrival port _ _ _ => port < 2
  | .heldMessageRelease part _ => okPart part
  | .messageDeparture part => okPart part
  | .ringEntryHandout fn _ => okFn fn
  | .doorbellWrite fn _ => okFn fn
  | .ringConfigWrite fn _ _ => okFn fn
  | .notifyWrite fn _ => okFn fn
  | .bar0RegisterWrite fn _ _ => okFn fn
  | .bar2Request fn _ _ _ => okFn fn
  | .functionLevelReset fn => okFn fn
  | .neighborSolicitation port _ => port < 2
  | .nextHopTimeout port _ => port < 2
  | .rd port _ m => port < 16 && m.wf
  | .wr port _ m => port < 16 && m.wf
  | .atm port _ m => port < 16 && m.wf
  | .rdata port _ m => port < 16 && m.wf
  | .wack port _ m => port < 16 && m.wf
  | .fail port _ m => port < 16 && m.wf
  | .nak port _ => port < 16
  | .ctrl port _ _ _ _ => port < 16
  | .flitCrcFail port => port < 16
  | .corhoebLinkDown port => port < 16
  | .linkRetrain port => port < 16
  | .registerFileEccError core slot _ => core < 200 && slot ≤ 8
  | .unassignedOpcode a b => unassignedPair a.toNat b.toNat
  | .columnClearingComplete column => column < 32
  | .idle port _ => port < 16
  | .neighborAdvertisement port _ _ => port < 2
  | .hostAccessCompletion _ _ => true
  | .ethernetLinkDown port => port < 2
  | .packageReset => true
  | .bootRetry => true
  | .powerCapWindow => true
  | .thermalThrottle => true
  | .thermalReset => true
  | .getnonce => true
  | .claim => true
  | .handover => true
  | .release => true
  | .unfreeze => true
  | .ownerq => true
  | .partset => true
  | .partreset => true
  | .lend => true
  | .reclaim => true
  | .bindvf => true
  | .setaddr => true
  | .peermap => true
  | .sharegrp => true
  | .acctassign => true
  | .cntread => true
  | .cntclear => true
  | .measure => true
  | .bootcfg => true
  | .extend => true
  | .setweight => true
  | .setfloor => true
  | .powercap => true
  | .setewt => true
  | .setdeadlines => true
  | .setpools => true
  | .setquota => true
  | .settwin => true
  | .setumbuf => true
  | .armread => true
  | .armwrite => true
  | .unitrelease => true
  | .resumectx => true
  | .eventpop => true
  | .headgateUnknownCmd => true
  | .getVersion => true
  | .getCapabilities => true
  | .negotiateAlgorithms => true
  | .getDigests => true
  | .getCertificate => true
  | .challenge => true
  | .getMeasurements => true
  | .keyExchange => true
  | .finish => true
  | .endSession => true

end Sys2Proof
end

