-- ==== Sys2Proof/Decode.lean ====
section
/-! DEFINITION. The decoder (spec 04_encoding.md R92 to R100, R107 to R114) and, after it, an encoder from the same
tables. The decoder is total: it refuses only bytes that end before the instruction does, and says so. An opcode the
maps leave unassigned is the instruction UNASSIGNED_OPCODE, which raises ILLEGAL_OPCODE (R114). -/

namespace Sys2Proof

/-- The forms of R93. -/
inductive Form | R | X | M | K | P | W
  deriving DecidableEq, Repr

/-- Why bytes are no instruction. -/
inductive DecodeError
  /-- The bytes end before the instruction does. -/
  | truncated
  deriving DecidableEq, Repr

def Cls.code : Cls → Nat
  | .g => 0
  | .s => 1
  | .v => 2

/-- Class of OPC[31:30] below 3 (R107). -/
def Cls.ofCode (n : Nat) : Cls := if n = 0 then .g else if n = 1 then .s else .v

/-- An ALU function by its 6-bit code (R107); none for an unassigned code. `r` and `x` are the fields of the R and
the X form of the same parcels (R108). -/
def decodeAlu (f : Nat) (c : Cls) (r : ROp) (x : XOp) : Option Instr :=
  match f with
  | 0x00 => some (.add c r)
  | 0x01 => some (.sub c r)
  | 0x02 => some (.mul c r)
  | 0x03 => some (.mulh c r)
  | 0x04 => some (.mulhu c r)
  | 0x05 => some (.mad c x)
  | 0x06 => some (.div c r)
  | 0x07 => some (.divu c r)
  | 0x08 => some (.rem c r)
  | 0x09 => some (.remu c r)
  | 0x0a => some (.neg c r)
  | 0x0b => some (.abs c r)
  | 0x0c => some (.min c r)
  | 0x0d => some (.max c r)
  | 0x0e => some (.minu c r)
  | 0x0f => some (.maxu c r)
  | 0x10 => some (.addsat c r)
  | 0x11 => some (.subsat c r)
  | 0x12 => some (.and c r)
  | 0x13 => some (.or c r)
  | 0x14 => some (.xor c r)
  | 0x15 => some (.andn c r)
  | 0x16 => some (.not c r)
  | 0x17 => some (.shl c r)
  | 0x18 => some (.shr c r)
  | 0x19 => some (.sar c r)
  | 0x1a => some (.rol c r)
  | 0x1b => some (.clz c r)
  | 0x1c => some (.popc c r)
  | 0x1d => some (.brev c r)
  | 0x1e => some (.bfx c x)
  | 0x1f => some (.bfi c x)
  | 0x20 => some (.sel c x)
  | 0x21 => some (.mov c r)
  | 0x22 => some (.cmp c x)
  | 0x23 => some (.lea c x)
  | 0x24 => some (.plog c x)
  | 0x28 => some (.fadd c x)
  | 0x29 => some (.fsub c x)
  | 0x2a => some (.fmul c x)
  | 0x2b => some (.fma c x)
  | 0x2c => some (.fmin c x)
  | 0x2d => some (.fmax c x)
  | 0x2e => some (.fabs c x)
  | 0x2f => some (.fneg c x)
  | 0x30 => some (.fcmp c x)
  | 0x31 => some (.fclass c x)
  | 0x32 => some (.fcvt c x)
  | 0x33 => some (.icvt c x)
  | 0x38 => some (.frcp c x)
  | 0x39 => some (.frsq c x)
  | 0x3a => some (.fsqrt c x)
  | 0x3b => some (.fexp2 c x)
  | 0x3c => some (.flog2 c x)
  | 0x3d => some (.fsin c x)
  | 0x3e => some (.fcos c x)
  | 0x3f => some (.ftanh c x)
  | _ => none

/-- The forms of MTS with a behaviour of their own (R420, R421, R427, R440): a write of SVRUN by the constants 1 to 3,
of SVINIT, HOSTINT or RINGACK. -/
def decodeMts (k : KOp) : Instr :=
  match bits k.param.toNat 11 0 with
  | 0x185 => match k.p.srcA.toNat with
    | 73 => .svrunResume k
    | 74 => .svrunAbort k
    | 75 => .svrunDeliver k
    | _ => .mts k
  | 0x191 => .svinit k
  | 0x115 => .hostint k
  | 0x116 => .ringack k
  | _ => .mts k

/-- VFCTL by its OP field (R463); 4 to 15 stay with `quiesce`, which raises ILLEGAL_OPERAND for them. -/
def decodeVfctl (k : KOp) : Instr :=
  match bits k.param.toNat 23 20 with
  | 1 => .vfctlResume k
  | 2 => .vfctlRdq k
  | 3 => .vfctlWrq k
  | _ => .vfctlQuiesce k

/-- TFETCH by MC and RCV (R211). -/
def decodeTfetch (o : POp) : Instr :=
  if bit o.param.toNat 28 then .tfetchM o else if bit o.param.toNat 27 then .tfetchR o else .tfetch o

/-- DRAINF by MODE in DREG (R371): 1 is the slice form; 2 to 63 stay with `drainf`, which raises ILLEGAL_OPERAND. -/
def decodeDrainf (o : ROp) : Instr :=
  if o.p.dreg.toNat = 1 then .drainfSlice o else .drainf o

/-- A group primary by its SUB byte (R111, R112); none for an unassigned one. -/
def decodeGroup (opc sub : Nat) (k : KOp) : Option Instr :=
  match opc, sub with
  | 0xcf, 0 => some (.cpkick k)
  | 0xcf, 1 => some (.cpwait k)
  | 0xcf, 2 => some (.cpdrain k)
  | 0xd0, 0 => some (.bari k)
  | 0xd0, 1 => some (.bara k)
  | 0xd0, 2 => some (.barw k)
  | 0xd0, 3 => some (.barl k)
  | 0xd4, 0 => some (.cvset k)
  | 0xd4, 1 => some (.cvsign k)
  | 0xdb, 0 => some (.agset k)
  | 0xdb, 1 => some (.agget k)
  | 0xed, 0 => some (.exit k)
  | 0xed, 1 => some (.yield k)
  | 0xed, 2 => some (.wdog k)
  | 0xf4, 0 => some (.grow k)
  | 0xf4, 1 => some (.shrink k)
  | 0xff, 0 => some (.mfs k)
  | 0xff, 1 => some (decodeMts k)
  | 0xff, 2 => some (.tlbinv k)
  | 0xff, 3 => some (.cntr k)
  | 0xff, 4 => some (.cntc k)
  | 0xff, 5 => some (.ctxsv k)
  | 0xff, 6 => some (.ctxld k)
  | 0xff, 7 => some (decodeVfctl k)
  | 0xff, 8 => some (.dirtyrd k)
  | 0xff, 9 => some (.halt k)
  | 0xff, 10 => some (.wfi k)
  | 0xff, 11 => some (.sev k)
  | _, _ => none

/-- A class-11 opcode of form R, M, P or W (R110); none for a group primary or an unassigned code. -/
def decodePrimary (opc : Nat) (r : ROp) (m : MOp) (p : POp) (w : WOp) : Option Instr :=
  match opc with
  | 0xc0 => some (.movw w)
  | 0xc1 => some (.ld m)
  | 0xc2 => some (.st m)
  | 0xc3 => some (.ldl m)
  | 0xc4 => some (.stl m)
  | 0xc5 => some (.ldp m)
  | 0xc6 => some (.stp m)
  | 0xc7 => some (.ldg m)
  | 0xc8 => some (.sts m)
  | 0xc9 => some (.pref m)
  | 0xca => some (.atom m)
  | 0xcb => some (.red m)
  | 0xcc => some (.fence m)
  | 0xcd => some (.waita m)
  | 0xce => some (.cflush m)
  | 0xd1 => some (.ticket r)
  | 0xd2 => some (decodeTfetch p)
  | 0xd3 => some (.trel r)
  | 0xd5 => some (.mma p)
  | 0xd6 => some (.mmas p)
  | 0xd7 => some (.azero r)
  | 0xd8 => some (.ald p)
  | 0xd9 => some (.ast p)
  | 0xda => some (.drn p)
  | 0xdc => some (.setvl r)
  | 0xdd => some (.shfl r)
  | 0xde => some (.vperm r)
  | 0xdf => some (.vred p)
  | 0xe0 => some (.vscan p)
  | 0xe1 => some (.vcmprs r)
  | 0xe2 => some (.vexpnd r)
  | 0xe3 => some (.vslide r)
  | 0xe4 => some (.vid r)
  | 0xe5 => some (.vbcast r)
  | 0xe6 => some (.qnt p)
  | 0xe7 => some (.dqnt p)
  | 0xe8 => some (.br p)
  | 0xe9 => some (.jmp p)
  | 0xea => some (.call p)
  | 0xeb => some (.ret r)
  | 0xec => some (.rejoin r)
  | 0xee => some (.nop r)
  | 0xef => some (.ep p)
  | 0xf0 => some (.hop r)
  | 0xf1 => some (.trap p)
  | 0xf2 => some (.rett r)
  | 0xf3 => some (.bkpt r)
  | 0xf5 => some (.launch r)
  | 0xf6 => some (.arm r)
  | 0xf7 => some (.send r)
  | 0xf8 => some (.cfg r)
  | 0xf9 => some (.strm p)
  | 0xfa => some (.sbar p)
  | 0xfb => some (.splice r)
  | 0xfc => some (decodeDrainf r)
  | 0xfd => some (.fwait p)
  | _ => none

/-- The form of an opcode byte (R93, R107, R108, R110); none when it is unassigned (R114). -/
def formOf (opc : Nat) : Option Form :=
  if opc < 0xC0 then
    if [5, 30, 31, 32, 34, 35, 36, 40, 41, 42, 43, 44, 45, 46, 47, 48, 49, 50, 51, 56, 57, 58, 59, 60, 61, 62, 63].contains (opc % 64) then some .X
    else if [0, 1, 2, 3, 4, 6, 7, 8, 9, 10, 11, 12, 13, 14, 15, 16, 17, 18, 19, 20, 21, 22, 23, 24, 25, 26, 27, 28, 29, 33].contains (opc % 64) then some .R else none
  else if opc = 0xC0 then some .W
  else if [0xcf, 0xd0, 0xd4, 0xdb, 0xed, 0xf4, 0xff].contains opc then some .K
  else if 0xC1 ≤ opc ∧ opc ≤ 0xCE then some .M
  else if [0xd2, 0xd5, 0xd6, 0xd8, 0xd9, 0xda, 0xdf, 0xe0, 0xe6, 0xe7, 0xe8, 0xe9, 0xea, 0xef, 0xf1, 0xf9, 0xfa, 0xfd].contains opc then some .P
  else if opc = 0xFE then none else some .R
/-- FormLength in parcels, from parcel 0 alone (R94). -/
def formLength (p0 : W32) : Nat :=
  match formOf (bits p0.toNat 31 24) with
  | some .R => if p0.extractLsb' 10 7 = 127#7 ∨ p0.extractLsb' 3 7 = 127#7 then 2 else 1
  | some .W => 3
  | some _ => 2
  | none => 1

/-- The fields of parcel 0 (R92). -/
def decodeP0 (a : W32) : P0 :=
  { dreg := a.extractLsb' 18 6, nwb := a.getLsbD 17, srcA := a.extractLsb' 10 7, srcB := a.extractLsb' 3 7,
    grd := a.extractLsb' 0 3 }

def decodeX (a b : W32) : XOp :=
  { p := decodeP0 a, srcC := b.extractLsb' 25 7, rm := b.extractLsb' 22 3, sat := b.getLsbD 21,
    type := b.extractLsb' 17 4, fn4 := b.extractLsb' 13 4, z := b.extractLsb' 0 13 }

def decodeM (a b : W32) : MOp :=
  { p := decodeP0 a, scope := b.extractLsb' 29 3, order := b.extractLsb' 27 2, cpol := b.extractLsb' 24 3,
    wid := b.extractLsb' 21 3, ofs := b.extractLsb' 0 21 }

def decodeK (a b : W32) : KOp := { p := decodeP0 a, param := b.extractLsb' 0 24 }

/-- The immediate parcel of the R form stands only where SRCA or SRCB is 127 (R93). -/
def decodeR (a b : W32) : ROp :=
  { p := decodeP0 a, imm := if a.extractLsb' 10 7 = 127#7 ∨ a.extractLsb' 3 7 = 127#7 then b else 0#32 }

/-- The instruction whose parcels are `a`, `b`, `c`; parcels it does not have are not looked at. -/
def decodeParcels (a b c : W32) : Instr :=
  let opc := bits a.toNat 31 24
  if opc < 0xC0 then
    (decodeAlu (opc % 64) (Cls.ofCode (opc / 64)) (decodeR a b) (decodeX a b)).getD (.unassignedOpcode a 0#32)
  else match formOf opc with
    | some .K => (decodeGroup opc (bits b.toNat 31 24) (decodeK a b)).getD (.unassignedOpcode a b)
    | _ => (decodePrimary opc (decodeR a b) (decodeM a b) { p := decodeP0 a, param := b }
        { p := decodeP0 a, imm := c ++ b }).getD (.unassignedOpcode a 0#32)

/-- The first parcel of bytes, little-endian (R1), and the rest. -/
def takeParcel : List Byte → Option (W32 × List Byte)
  | b0 :: b1 :: b2 :: b3 :: rest => some (b3 ++ b2 ++ b1 ++ b0, rest)
  | _ => none

/-- The instruction at the head of bytes, and the bytes after it. -/
def decode (bs : List Byte) : Except DecodeError (Instr × List Byte) :=
  match takeParcel bs with
  | none => .error .truncated
  | some (a, r1) =>
    match formLength a, takeParcel r1 with
    | 1, _ => .ok (decodeParcels a 0#32 0#32, r1)
    | 2, some (b, r2) => .ok (decodeParcels a b 0#32, r2)
    | 2, none => .error .truncated
    | _, some (b, r2) =>
      match takeParcel r2 with
      | some (c, r3) => .ok (decodeParcels a b c, r3)
      | none => .error .truncated
    | _, none => .error .truncated

/-- The bytes of a parcel, little-endian (R1). -/
def parcelBytes (p : W32) : List Byte :=
  [p.extractLsb' 0 8, p.extractLsb' 8 8, p.extractLsb' 16 8, p.extractLsb' 24 8]

/-- Parcel `j` of an instruction whose bits are `w`, bit 0 the least significant bit of parcel 0. -/
def tableParcel (w j : Nat) : W32 := BitVec.ofNat 32 (w / 2 ^ (32 * j))

/-- What the decoder reads from an instruction whose `nbits` bits are `w`; the bits above are zero. -/
def decodeTableWord (nbits w : Nat) : Option Instr :=
  let v := w % 2 ^ nbits
  match decode (parcelBytes (tableParcel v 0) ++ parcelBytes (tableParcel v 1) ++ parcelBytes (tableParcel v 2)) with
  | .ok (i, _) => some i
  | .error _ => none

/-! ## The encoder -/

/-- Parcel 0 from the opcode byte and its fields (R92). -/
def encP0 (opc : Nat) (p : P0) : W32 :=
  BitVec.ofNat 8 opc ++ p.dreg ++ BitVec.ofBool p.nwb ++ p.srcA ++ p.srcB ++ p.grd

def encR (opc : Nat) (o : ROp) : List W32 :=
  if o.p.srcA = 127#7 ∨ o.p.srcB = 127#7 then [encP0 opc o.p, o.imm] else [encP0 opc o.p]

def encX (opc : Nat) (o : XOp) : List W32 :=
  [encP0 opc o.p, o.srcC ++ o.rm ++ BitVec.ofBool o.sat ++ o.type ++ o.fn4 ++ o.z]

def encM (opc : Nat) (o : MOp) : List W32 := [encP0 opc o.p, o.scope ++ o.order ++ o.cpol ++ o.wid ++ o.ofs]

def encK (opc sub : Nat) (o : KOp) : List W32 := [encP0 opc o.p, BitVec.ofNat 8 sub ++ o.param]

def encP (opc : Nat) (o : POp) : List W32 := [encP0 opc o.p, o.param]

def encW (opc : Nat) (o : WOp) : List W32 := [encP0 opc o.p, o.imm.extractLsb' 0 32, o.imm.extractLsb' 32 32]

def encUnassigned (a b : W32) : List W32 := if formLength a = 2 then [a, b] else [a]

/-- The opcode byte of an instruction (R107, R110 to R112); none for an event. -/
def opcodeOf : Instr → Option Nat
  | .add c _ => some (c.code * 64 + 0x00)
  | .sub c _ => some (c.code * 64 + 0x01)
  | .mul c _ => some (c.code * 64 + 0x02)
  | .mulh c _ => some (c.code * 64 + 0x03)
  | .mulhu c _ => some (c.code * 64 + 0x04)
  | .mad c _ => some (c.code * 64 + 0x05)
  | .div c _ => some (c.code * 64 + 0x06)
  | .divu c _ => some (c.code * 64 + 0x07)
  | .rem c _ => some (c.code * 64 + 0x08)
  | .remu c _ => some (c.code * 64 + 0x09)
  | .neg c _ => some (c.code * 64 + 0x0a)
  | .abs c _ => some (c.code * 64 + 0x0b)
  | .min c _ => some (c.code * 64 + 0x0c)
  | .max c _ => some (c.code * 64 + 0x0d)
  | .minu c _ => some (c.code * 64 + 0x0e)
  | .maxu c _ => some (c.code * 64 + 0x0f)
  | .addsat c _ => some (c.code * 64 + 0x10)
  | .subsat c _ => some (c.code * 64 + 0x11)
  | .and c _ => some (c.code * 64 + 0x12)
  | .or c _ => some (c.code * 64 + 0x13)
  | .xor c _ => some (c.code * 64 + 0x14)
  | .andn c _ => some (c.code * 64 + 0x15)
  | .not c _ => some (c.code * 64 + 0x16)
  | .shl c _ => some (c.code * 64 + 0x17)
  | .shr c _ => some (c.code * 64 + 0x18)
  | .sar c _ => some (c.code * 64 + 0x19)
  | .rol c _ => some (c.code * 64 + 0x1a)
  | .clz c _ => some (c.code * 64 + 0x1b)
  | .popc c _ => some (c.code * 64 + 0x1c)
  | .brev c _ => some (c.code * 64 + 0x1d)
  | .bfx c _ => some (c.code * 64 + 0x1e)
  | .bfi c _ => some (c.code * 64 + 0x1f)
  | .sel c _ => some (c.code * 64 + 0x20)
  | .mov c _ => some (c.code * 64 + 0x21)
  | .cmp c _ => some (c.code * 64 + 0x22)
  | .lea c _ => some (c.code * 64 + 0x23)
  | .plog c _ => some (c.code * 64 + 0x24)
  | .fadd c _ => some (c.code * 64 + 0x28)
  | .fsub c _ => some (c.code * 64 + 0x29)
  | .fmul c _ => some (c.code * 64 + 0x2a)
  | .fma c _ => some (c.code * 64 + 0x2b)
  | .fmin c _ => some (c.code * 64 + 0x2c)
  | .fmax c _ => some (c.code * 64 + 0x2d)
  | .fabs c _ => some (c.code * 64 + 0x2e)
  | .fneg c _ => some (c.code * 64 + 0x2f)
  | .fcmp c _ => some (c.code * 64 + 0x30)
  | .fclass c _ => some (c.code * 64 + 0x31)
  | .fcvt c _ => some (c.code * 64 + 0x32)
  | .icvt c _ => some (c.code * 64 + 0x33)
  | .frcp c _ => some (c.code * 64 + 0x38)
  | .frsq c _ => some (c.code * 64 + 0x39)
  | .fsqrt c _ => some (c.code * 64 + 0x3a)
  | .fexp2 c _ => some (c.code * 64 + 0x3b)
  | .flog2 c _ => some (c.code * 64 + 0x3c)
  | .fsin c _ => some (c.code * 64 + 0x3d)
  | .fcos c _ => some (c.code * 64 + 0x3e)
  | .ftanh c _ => some (c.code * 64 + 0x3f)
  | .movw _ => some 0xc0
  | .ld _ => some 0xc1
  | .st _ => some 0xc2
  | .ldl _ => some 0xc3
  | .stl _ => some 0xc4
  | .ldp _ => some 0xc5
  | .stp _ => some 0xc6
  | .ldg _ => some 0xc7
  | .sts _ => some 0xc8
  | .pref _ => some 0xc9
  | .atom _ => some 0xca
  | .red _ => some 0xcb
  | .fence _ => some 0xcc
  | .waita _ => some 0xcd
  | .cflush _ => some 0xce
  | .cpkick _ => some 0xcf
  | .cpwait _ => some 0xcf
  | .cpdrain _ => some 0xcf
  | .bari _ => some 0xd0
  | .bara _ => some 0xd0
  | .barw _ => some 0xd0
  | .barl _ => some 0xd0
  | .ticket _ => some 0xd1
  | .tfetch _ => some 0xd2
  | .tfetchM _ => some 0xd2
  | .tfetchR _ => some 0xd2
  | .trel _ => some 0xd3
  | .cvset _ => some 0xd4
  | .cvsign _ => some 0xd4
  | .mma _ => some 0xd5
  | .mmas _ => some 0xd6
  | .azero _ => some 0xd7
  | .ald _ => some 0xd8
  | .ast _ => some 0xd9
  | .drn _ => some 0xda
  | .agset _ => some 0xdb
  | .agget _ => some 0xdb
  | .setvl _ => some 0xdc
  | .shfl _ => some 0xdd
  | .vperm _ => some 0xde
  | .vred _ => some 0xdf
  | .vscan _ => some 0xe0
  | .vcmprs _ => some 0xe1
  | .vexpnd _ => some 0xe2
  | .vslide _ => some 0xe3
  | .vid _ => some 0xe4
  | .vbcast _ => some 0xe5
  | .qnt _ => some 0xe6
  | .dqnt _ => some 0xe7
  | .br _ => some 0xe8
  | .jmp _ => some 0xe9
  | .call _ => some 0xea
  | .ret _ => some 0xeb
  | .rejoin _ => some 0xec
  | .exit _ => some 0xed
  | .yield _ => some 0xed
  | .wdog _ => some 0xed
  | .nop _ => some 0xee
  | .ep _ => some 0xef
  | .hop _ => some 0xf0
  | .trap _ => some 0xf1
  | .rett _ => some 0xf2
  | .bkpt _ => some 0xf3
  | .grow _ => some 0xf4
  | .shrink _ => some 0xf4
  | .launch _ => some 0xf5
  | .arm _ => some 0xf6
  | .send _ => some 0xf7
  | .cfg _ => some 0xf8
  | .strm _ => some 0xf9
  | .sbar _ => some 0xfa
  | .splice _ => some 0xfb
  | .drainf _ => some 0xfc
  | .drainfSlice _ => some 0xfc
  | .fwait _ => some 0xfd
  | .mfs _ => some 0xff
  | .mts _ => some 0xff
  | .svrunResume _ => some 0xff
  | .svrunAbort _ => some 0xff
  | .svrunDeliver _ => some 0xff
  | .svinit _ => some 0xff
  | .hostint _ => some 0xff
  | .ringack _ => some 0xff
  | .tlbinv _ => some 0xff
  | .cntr _ => some 0xff
  | .cntc _ => some 0xff
  | .ctxsv _ => some 0xff
  | .ctxld _ => some 0xff
  | .vfctlQuiesce _ => some 0xff
  | .vfctlResume _ => some 0xff
  | .vfctlRdq _ => some 0xff
  | .vfctlWrq _ => some 0xff
  | .dirtyrd _ => some 0xff
  | .halt _ => some 0xff
  | .wfi _ => some 0xff
  | .sev _ => some 0xff
  | .bootImageCheck _ => none
  | .blockPlacement _ _ _ => none
  | .restorePlacement _ _ _ _ => none
  | .regroupPoint _ _ => none
  | .loadDataReturn _ => none
  | .sfuResultReturn _ => none
  | .sealWindowGrant _ _ => none
  | .blockRetirement _ _ => none
  | .trapDelivery _ _ => none
  | .debugHaltStop _ _ => none
  | .watchdogExpiry _ _ _ => none
  | .placementDeadline _ => none
  | .resumeDeadline _ => none
  | .preemption _ _ => none
  | .preemptionDeadline _ _ => none
  | .drainDeadline _ _ => none
  | .growGrant _ _ => none
  | .growDeadlock _ => none
  | .interruptEntry _ => none
  | .ticketGrant _ _ => none
  | .tileFetchPerform _ => none
  | .mmaEntryExecute _ _ => none
  | .drnRowExecute _ _ => none
  | .accRowTransfer _ _ => none
  | .culvertChunk _ _ => none
  | .pageWalk _ => none
  | .suuAtomic _ => none
  | .sliceWrite _ => none
  | .lineFill _ => none
  | .lineSettle _ => none
  | .pondEntryError _ _ => none
  | .l2TagError _ => none
  | .l1EccError _ _ => none
  | .localEccError _ _ _ => none
  | .streamWindowFill _ _ _ => none
  | .cellFire _ _ _ => none
  | .statefulRelease _ _ _ => none
  | .arriveForward _ _ _ => none
  | .markerForward _ _ _ => none
  | .matrixPortIssue _ _ _ => none
  | .streamInputSend _ _ _ => none
  | .streamOutputWrite _ _ _ => none
  | .inputPortNop _ _ _ => none
  | .accountFlush _ => none
  | .messageArrival _ _ _ _ => none
  | .heldMessageRelease _ _ => none
  | .messageDeparture _ => none
  | .ringEntryHandout _ _ => none
  | .doorbellWrite _ _ => none
  | .ringConfigWrite _ _ _ => none
  | .notifyWrite _ _ => none
  | .bar0RegisterWrite _ _ _ => none
  | .bar2Request _ _ _ _ => none
  | .functionLevelReset _ => none
  | .neighborSolicitation _ _ => none
  | .nextHopTimeout _ _ => none
  | .rd _ _ _ => none
  | .wr _ _ _ => none
  | .atm _ _ _ => none
  | .rdata _ _ _ => none
  | .wack _ _ _ => none
  | .fail _ _ _ => none
  | .nak _ _ => none
  | .ctrl _ _ _ _ _ => none
  | .flitCrcFail _ => none
  | .corhoebLinkDown _ => none
  | .linkRetrain _ => none
  | .registerFileEccError _ _ _ => none
  | .unassignedOpcode a _ => some (bits a.toNat 31 24)
  | .columnClearingComplete _ => none
  | .idle _ _ => none
  | .neighborAdvertisement _ _ _ => none
  | .hostAccessCompletion _ _ => none
  | .ethernetLinkDown _ => none
  | .packageReset => none
  | .bootRetry => none
  | .powerCapWindow => none
  | .thermalThrottle => none
  | .thermalReset => none
  | .getnonce => none
  | .claim => none
  | .handover => none
  | .release => none
  | .unfreeze => none
  | .ownerq => none
  | .partset => none
  | .partreset => none
  | .lend => none
  | .reclaim => none
  | .bindvf => none
  | .setaddr => none
  | .peermap => none
  | .sharegrp => none
  | .acctassign => none
  | .cntread => none
  | .cntclear => none
  | .measure => none
  | .bootcfg => none
  | .extend => none
  | .setweight => none
  | .setfloor => none
  | .powercap => none
  | .setewt => none
  | .setdeadlines => none
  | .setpools => none
  | .setquota => none
  | .settwin => none
  | .setumbuf => none
  | .armread => none
  | .armwrite => none
  | .unitrelease => none
  | .resumectx => none
  | .eventpop => none
  | .headgateUnknownCmd => none
  | .getVersion => none
  | .getCapabilities => none
  | .negotiateAlgorithms => none
  | .getDigests => none
  | .getCertificate => none
  | .challenge => none
  | .getMeasurements => none
  | .keyExchange => none
  | .finish => none
  | .endSession => none

/-- The parcels of an instruction (R92 to R100), parcel 0 first; none for an event, which has no encoding. -/
def encode : Instr → Option (List W32)
  | .add c o => some (encR (c.code * 64 + 0x00) o)
  | .sub c o => some (encR (c.code * 64 + 0x01) o)
  | .mul c o => some (encR (c.code * 64 + 0x02) o)
  | .mulh c o => some (encR (c.code * 64 + 0x03) o)
  | .mulhu c o => some (encR (c.code * 64 + 0x04) o)
  | .mad c o => some (encX (c.code * 64 + 0x05) o)
  | .div c o => some (encR (c.code * 64 + 0x06) o)
  | .divu c o => some (encR (c.code * 64 + 0x07) o)
  | .rem c o => some (encR (c.code * 64 + 0x08) o)
  | .remu c o => some (encR (c.code * 64 + 0x09) o)
  | .neg c o => some (encR (c.code * 64 + 0x0a) o)
  | .abs c o => some (encR (c.code * 64 + 0x0b) o)
  | .min c o => some (encR (c.code * 64 + 0x0c) o)
  | .max c o => some (encR (c.code * 64 + 0x0d) o)
  | .minu c o => some (encR (c.code * 64 + 0x0e) o)
  | .maxu c o => some (encR (c.code * 64 + 0x0f) o)
  | .addsat c o => some (encR (c.code * 64 + 0x10) o)
  | .subsat c o => some (encR (c.code * 64 + 0x11) o)
  | .and c o => some (encR (c.code * 64 + 0x12) o)
  | .or c o => some (encR (c.code * 64 + 0x13) o)
  | .xor c o => some (encR (c.code * 64 + 0x14) o)
  | .andn c o => some (encR (c.code * 64 + 0x15) o)
  | .not c o => some (encR (c.code * 64 + 0x16) o)
  | .shl c o => some (encR (c.code * 64 + 0x17) o)
  | .shr c o => some (encR (c.code * 64 + 0x18) o)
  | .sar c o => some (encR (c.code * 64 + 0x19) o)
  | .rol c o => some (encR (c.code * 64 + 0x1a) o)
  | .clz c o => some (encR (c.code * 64 + 0x1b) o)
  | .popc c o => some (encR (c.code * 64 + 0x1c) o)
  | .brev c o => some (encR (c.code * 64 + 0x1d) o)
  | .bfx c o => some (encX (c.code * 64 + 0x1e) o)
  | .bfi c o => some (encX (c.code * 64 + 0x1f) o)
  | .sel c o => some (encX (c.code * 64 + 0x20) o)
  | .mov c o => some (encR (c.code * 64 + 0x21) o)
  | .cmp c o => some (encX (c.code * 64 + 0x22) o)
  | .lea c o => some (encX (c.code * 64 + 0x23) o)
  | .plog c o => some (encX (c.code * 64 + 0x24) o)
  | .fadd c o => some (encX (c.code * 64 + 0x28) o)
  | .fsub c o => some (encX (c.code * 64 + 0x29) o)
  | .fmul c o => some (encX (c.code * 64 + 0x2a) o)
  | .fma c o => some (encX (c.code * 64 + 0x2b) o)
  | .fmin c o => some (encX (c.code * 64 + 0x2c) o)
  | .fmax c o => some (encX (c.code * 64 + 0x2d) o)
  | .fabs c o => some (encX (c.code * 64 + 0x2e) o)
  | .fneg c o => some (encX (c.code * 64 + 0x2f) o)
  | .fcmp c o => some (encX (c.code * 64 + 0x30) o)
  | .fclass c o => some (encX (c.code * 64 + 0x31) o)
  | .fcvt c o => some (encX (c.code * 64 + 0x32) o)
  | .icvt c o => some (encX (c.code * 64 + 0x33) o)
  | .frcp c o => some (encX (c.code * 64 + 0x38) o)
  | .frsq c o => some (encX (c.code * 64 + 0x39) o)
  | .fsqrt c o => some (encX (c.code * 64 + 0x3a) o)
  | .fexp2 c o => some (encX (c.code * 64 + 0x3b) o)
  | .flog2 c o => some (encX (c.code * 64 + 0x3c) o)
  | .fsin c o => some (encX (c.code * 64 + 0x3d) o)
  | .fcos c o => some (encX (c.code * 64 + 0x3e) o)
  | .ftanh c o => some (encX (c.code * 64 + 0x3f) o)
  | .movw o => some (encW 0xc0 o)
  | .ld o => some (encM 0xc1 o)
  | .st o => some (encM 0xc2 o)
  | .ldl o => some (encM 0xc3 o)
  | .stl o => some (encM 0xc4 o)
  | .ldp o => some (encM 0xc5 o)
  | .stp o => some (encM 0xc6 o)
  | .ldg o => some (encM 0xc7 o)
  | .sts o => some (encM 0xc8 o)
  | .pref o => some (encM 0xc9 o)
  | .atom o => some (encM 0xca o)
  | .red o => some (encM 0xcb o)
  | .fence o => some (encM 0xcc o)
  | .waita o => some (encM 0xcd o)
  | .cflush o => some (encM 0xce o)
  | .cpkick o => some (encK 0xcf 0 o)
  | .cpwait o => some (encK 0xcf 1 o)
  | .cpdrain o => some (encK 0xcf 2 o)
  | .bari o => some (encK 0xd0 0 o)
  | .bara o => some (encK 0xd0 1 o)
  | .barw o => some (encK 0xd0 2 o)
  | .barl o => some (encK 0xd0 3 o)
  | .ticket o => some (encR 0xd1 o)
  | .tfetch o => some (encP 0xd2 o)
  | .tfetchM o => some (encP 0xd2 o)
  | .tfetchR o => some (encP 0xd2 o)
  | .trel o => some (encR 0xd3 o)
  | .cvset o => some (encK 0xd4 0 o)
  | .cvsign o => some (encK 0xd4 1 o)
  | .mma o => some (encP 0xd5 o)
  | .mmas o => some (encP 0xd6 o)
  | .azero o => some (encR 0xd7 o)
  | .ald o => some (encP 0xd8 o)
  | .ast o => some (encP 0xd9 o)
  | .drn o => some (encP 0xda o)
  | .agset o => some (encK 0xdb 0 o)
  | .agget o => some (encK 0xdb 1 o)
  | .setvl o => some (encR 0xdc o)
  | .shfl o => some (encR 0xdd o)
  | .vperm o => some (encR 0xde o)
  | .vred o => some (encP 0xdf o)
  | .vscan o => some (encP 0xe0 o)
  | .vcmprs o => some (encR 0xe1 o)
  | .vexpnd o => some (encR 0xe2 o)
  | .vslide o => some (encR 0xe3 o)
  | .vid o => some (encR 0xe4 o)
  | .vbcast o => some (encR 0xe5 o)
  | .qnt o => some (encP 0xe6 o)
  | .dqnt o => some (encP 0xe7 o)
  | .br o => some (encP 0xe8 o)
  | .jmp o => some (encP 0xe9 o)
  | .call o => some (encP 0xea o)
  | .ret o => some (encR 0xeb o)
  | .rejoin o => some (encR 0xec o)
  | .exit o => some (encK 0xed 0 o)
  | .yield o => some (encK 0xed 1 o)
  | .wdog o => some (encK 0xed 2 o)
  | .nop o => some (encR 0xee o)
  | .ep o => some (encP 0xef o)
  | .hop o => some (encR 0xf0 o)
  | .trap o => some (encP 0xf1 o)
  | .rett o => some (encR 0xf2 o)
  | .bkpt o => some (encR 0xf3 o)
  | .grow o => some (encK 0xf4 0 o)
  | .shrink o => some (encK 0xf4 1 o)
  | .launch o => some (encR 0xf5 o)
  | .arm o => some (encR 0xf6 o)
  | .send o => some (encR 0xf7 o)
  | .cfg o => some (encR 0xf8 o)
  | .strm o => some (encP 0xf9 o)
  | .sbar o => some (encP 0xfa o)
  | .splice o => some (encR 0xfb o)
  | .drainf o => some (encR 0xfc o)
  | .drainfSlice o => some (encR 0xfc o)
  | .fwait o => some (encP 0xfd o)
  | .mfs o => some (encK 0xff 0 o)
  | .mts o => some (encK 0xff 1 o)
  | .svrunResume o => some (encK 0xff 1 o)
  | .svrunAbort o => some (encK 0xff 1 o)
  | .svrunDeliver o => some (encK 0xff 1 o)
  | .svinit o => some (encK 0xff 1 o)
  | .hostint o => some (encK 0xff 1 o)
  | .ringack o => some (encK 0xff 1 o)
  | .tlbinv o => some (encK 0xff 2 o)
  | .cntr o => some (encK 0xff 3 o)
  | .cntc o => some (encK 0xff 4 o)
  | .ctxsv o => some (encK 0xff 5 o)
  | .ctxld o => some (encK 0xff 6 o)
  | .vfctlQuiesce o => some (encK 0xff 7 o)
  | .vfctlResume o => some (encK 0xff 7 o)
  | .vfctlRdq o => some (encK 0xff 7 o)
  | .vfctlWrq o => some (encK 0xff 7 o)
  | .dirtyrd o => some (encK 0xff 8 o)
  | .halt o => some (encK 0xff 9 o)
  | .wfi o => some (encK 0xff 10 o)
  | .sev o => some (encK 0xff 11 o)
  | .bootImageCheck _ => none
  | .blockPlacement _ _ _ => none
  | .restorePlacement _ _ _ _ => none
  | .regroupPoint _ _ => none
  | .loadDataReturn _ => none
  | .sfuResultReturn _ => none
  | .sealWindowGrant _ _ => none
  | .blockRetirement _ _ => none
  | .trapDelivery _ _ => none
  | .debugHaltStop _ _ => none
  | .watchdogExpiry _ _ _ => none
  | .placementDeadline _ => none
  | .resumeDeadline _ => none
  | .preemption _ _ => none
  | .preemptionDeadline _ _ => none
  | .drainDeadline _ _ => none
  | .growGrant _ _ => none
  | .growDeadlock _ => none
  | .interruptEntry _ => none
  | .ticketGrant _ _ => none
  | .tileFetchPerform _ => none
  | .mmaEntryExecute _ _ => none
  | .drnRowExecute _ _ => none
  | .accRowTransfer _ _ => none
  | .culvertChunk _ _ => none
  | .pageWalk _ => none
  | .suuAtomic _ => none
  | .sliceWrite _ => none
  | .lineFill _ => none
  | .lineSettle _ => none
  | .pondEntryError _ _ => none
  | .l2TagError _ => none
  | .l1EccError _ _ => none
  | .localEccError _ _ _ => none
  | .streamWindowFill _ _ _ => none
  | .cellFire _ _ _ => none
  | .statefulRelease _ _ _ => none
  | .arriveForward _ _ _ => none
  | .markerForward _ _ _ => none
  | .matrixPortIssue _ _ _ => none
  | .streamInputSend _ _ _ => none
  | .streamOutputWrite _ _ _ => none
  | .inputPortNop _ _ _ => none
  | .accountFlush _ => none
  | .messageArrival _ _ _ _ => none
  | .heldMessageRelease _ _ => none
  | .messageDeparture _ => none
  | .ringEntryHandout _ _ => none
  | .doorbellWrite _ _ => none
  | .ringConfigWrite _ _ _ => none
  | .notifyWrite _ _ => none
  | .bar0RegisterWrite _ _ _ => none
  | .bar2Request _ _ _ _ => none
  | .functionLevelReset _ => none
  | .neighborSolicitation _ _ => none
  | .nextHopTimeout _ _ => none
  | .rd _ _ _ => none
  | .wr _ _ _ => none
  | .atm _ _ _ => none
  | .rdata _ _ _ => none
  | .wack _ _ _ => none
  | .fail _ _ _ => none
  | .nak _ _ => none
  | .ctrl _ _ _ _ _ => none
  | .flitCrcFail _ => none
  | .corhoebLinkDown _ => none
  | .linkRetrain _ => none
  | .registerFileEccError _ _ _ => none
  | .unassignedOpcode a b => some (encUnassigned a b)
  | .columnClearingComplete _ => none
  | .idle _ _ => none
  | .neighborAdvertisement _ _ _ => none
  | .hostAccessCompletion _ _ => none
  | .ethernetLinkDown _ => none
  | .packageReset => none
  | .bootRetry => none
  | .powerCapWindow => none
  | .thermalThrottle => none
  | .thermalReset => none
  | .getnonce => none
  | .claim => none
  | .handover => none
  | .release => none
  | .unfreeze => none
  | .ownerq => none
  | .partset => none
  | .partreset => none
  | .lend => none
  | .reclaim => none
  | .bindvf => none
  | .setaddr => none
  | .peermap => none
  | .sharegrp => none
  | .acctassign => none
  | .cntread => none
  | .cntclear => none
  | .measure => none
  | .bootcfg => none
  | .extend => none
  | .setweight => none
  | .setfloor => none
  | .powercap => none
  | .setewt => none
  | .setdeadlines => none
  | .setpools => none
  | .setquota => none
  | .settwin => none
  | .setumbuf => none
  | .armread => none
  | .armwrite => none
  | .unitrelease => none
  | .resumectx => none
  | .eventpop => none
  | .headgateUnknownCmd => none
  | .getVersion => none
  | .getCapabilities => none
  | .negotiateAlgorithms => none
  | .getDigests => none
  | .getCertificate => none
  | .challenge => none
  | .getMeasurements => none
  | .keyExchange => none
  | .finish => none
  | .endSession => none

/-- The bytes of an instruction. -/
def encodeBytes (i : Instr) : Option (List Byte) := (encode i).map fun ps => ps.flatMap parcelBytes

end Sys2Proof
end

