-- ==== Sys2Proof/Config.lean ====
section
/-! DEFINITION. What the spec leaves to the part or leaves open. Every `opaque` here is a free value: it has no
body, so nothing can be proved of its value (DESIGN CHOICE, safe: notes/assumptions/3.md). Those that are drawn anew each time are applied
to `State.freeCount`. -/

namespace Sys2Proof.Config

/-- Each use of an open 32-bit value: see the log entry that names the use. -/
opaque freeWord : Nat → BitVec 32
/-- Each use of an open 64-bit value. -/
opaque freeDouble : Nat → BitVec 64
/-- A fresh Headgate nonce (R453), 32 bytes. -/
opaque nonce : Nat → BitVec 256
/-- The modulus of the owner key, whose hash is fused (R453). -/
opaque ownerKey : BitVec 4096
/-- The MAC address of Ethernet port 0 (R443). -/
opaque mac0 : BitVec 48
/-- The package's own number on Corhoeb Link (R446, SRC). -/
opaque packageNumber : BitVec 12
/-- The digest with which MEAS0 is extended (R459, R460): the Wellspring ROM. -/
opaque romDigest : BitVec 512
/-- The digest of the fuses and a boot configuration, with which MEAS1 is extended (R459). -/
opaque fuseDigest : List (BitVec 8) → BitVec 512
/-- Where the boot ROM places a resident-OS image, and the entry address of the image (R460 gives neither). -/
opaque imageBase : Nat
opaque imageEntry : List (BitVec 8) → BitVec 57
/-- The partition that the boot gives a system core (R460 gives none). -/
opaque sysPart : Nat → Nat
/-- The response of the SPDM responder, whose bytes SPDM 1.3 and the identity key determine (R461). -/
opaque spdmBody : Nat → List (BitVec 8) → List (BitVec 8)
/-- Bytes read from the host or a peer that the model's agenda does not name. -/
opaque outsideByte : Nat → BitVec 8
/-- The capacity, in units of 0.1 GB/s, of a kind of shared point whose rate the spec does not give (R452). -/
opaque pointCapacity : Nat → Nat

end Sys2Proof.Config
end

