-- ==== Sys2Proof/Machine/State.lean ====
section
/-! DEFINITION. The state of the package: everything the spec gives it, as plain data (INVENTORY.md, `## State`, names
the rule of each field). Sparse tables: a number that is not listed holds the reset value. The last fields of `State`
are the model's own.
Where the spec leaves a point open: notes/assumptions, entries 1, 2, 3, 4, 10, 11, 12, 13, 15, 16, 54. -/

namespace Sys2Proof.Machine

/-! ## Streams: latches, traps, contexts (R101, R116, R418 to R421) -/

/-- What a bypass latch holds (R101, R103): nothing valid, a 32-bit or a 64-bit value, a vector (64-bit elements when
`wide`). -/
inductive LVal
  | bad
  | w32 (v : W32)
  | w64 (v : W64)
  | vec (wide : Bool) (e : Store 64)
  deriving DecidableEq, Repr

/-- A latch: its value, the outstanding result it waits for, the poisoned elements. -/
structure Latch where
  val : LVal := .bad
  pend : Option Nat := none
  poison : List Nat := []
  deriving DecidableEq, Repr

/-- A raised trap (R418, R419). `lanes` are the thread or element indices it names; `blockWide` that every live thread
or the control stream is its entrant; `atEp` that it is reported as in an open region (R76, R77). -/
structure TrapInfo where
  cause : Nat
  addr : Nat := 0
  detail : Nat := 0
  wst : Nat := 0
  lanes : List Nat := []
  gang : Option Nat := none
  site : Option Nat := none
  imprecise : Bool := false
  debug : Bool := false
  blockWide : Bool := false
  atEp : Bool := false
  deriving DecidableEq, Repr

/-- One thread of a threaded block (R116, R246, R420, R423). `wait` is the wait kind of R478; `begun` says that the issue of
the instruction at which it waits is counted (R79). -/
structure Thread where
  pc : VAddr := 0
  live : Bool := false
  handler : Bool := false
  wait : BitVec 4 := 0
  begun : Bool := false
  freeAt : Nat := 0
  issuedAt : Nat := 0
  wdog : W32 := 0
  trapPc : VAddr := 0
  trapAux : W64 := 0
  latches : List Latch := []
  capt : List LVal := []
  rejoin : W64 := 0
  line : Option (List W32) := none
  deriving DecidableEq, Repr

/-- A bundle of threads at one PC (R48 to R51); `yieldAt` is when it issued YIELD (R244). -/
structure Bundle where
  id : Nat
  members : List Nat
  pc : VAddr
  formedAt : Nat := 0
  line : Option (List W32) := none
  yieldAt : Option Nat := none
  deriving DecidableEq, Repr

/-- The interrupt side of a supervisor context or a system core (R420, R431). -/
structure Intr where
  intvec : VAddr := 0
  inten : W16 := 0
  intpend : W16 := 0
  intpc : VAddr := 0
  intcause : W32 := 0
  deriving DecidableEq, Repr

/-- A control context (R116): the stream of a vector or spatial block, supervisor code, or a system core. `halted` and
`event` belong to K and Y (R260); `begun` as in a thread. -/
structure Ctl where
  pc : VAddr := 0
  sregs : Store 64 := []
  spoison : List Nat := []
  preds : Store 256 := []
  latches : List Latch := []
  capt : List LVal := []
  wait : BitVec 4 := 0
  begun : Bool := false
  handler : Bool := false
  done : Bool := false
  halted : Bool := false
  event : Bool := false
  trapPc : VAddr := 0
  trapAux : W64 := 0
  line : Option (List W32) := none
  yieldAt : Option Nat := none
  issuedAt : Nat := 0
  asid : W16 := 0
  part : Nat := 0
  intr : Intr := {}
  deriving DecidableEq, Repr

/-! ## Kernel objects and launches (R33, R58 to R62, R391 to R395) -/

inductive Model | threaded | vector | spatial
  deriving DecidableEq, Repr

/-- A version section as accepted (R391): code bounds and entry are virtual addresses; sites map the address of a
parcel 0 to its site id; `eps` the number of an EP to the addresses just after it. -/
structure VSec where
  code : Nat
  codeBytes : Nat
  entry : VAddr
  sites : List (Nat × Nat)
  eps : List (Nat × VAddr)
  base : Nat
  deriving DecidableEq, Repr

/-- A row of the region table (R62, R392). -/
structure Region where
  sealed : Bool := false
  scope : Nat := 0
  bev : List Nat := [0, 0, 0]
  snap : Nat := 0
  amask : Nat := 0
  tmask : Nat := 0
  span : Nat := 1
  vcnt : Nat := 0
  gbud : Nat := 8
  lwset : List (Nat × Nat) := []
  resume : List W32 := []
  deriving DecidableEq, Repr

/-- A location of the equivalence map (R394). -/
structure Loc where
  lk : Nat
  reg : Nat
  fld : Nat
  base : Nat
  str : Nat
  deriving DecidableEq, Repr

/-- An entry of the equivalence map (R393); `locs` in the order threaded, vector, spatial. -/
structure MapEntry where
  ekind : Nat
  width : Nat
  type : Nat
  len : Nat
  locs : List Loc
  deriving DecidableEq, Repr

/-- A claim set (R120). -/
structure Claim where
  acc : BitVec 8 := 0
  tb : BitVec 8 := 0
  ag : BitVec 4 := 0
  cv : W16 := 0
  q : W16 := 0
  deriving DecidableEq, Repr

/-- An accepted kernel object (R58, R395): known by its address under an ASID. `defv` 1, 2 or 3. -/
structure KObj where
  asid : W16
  addr : Nat
  defv : Nat
  nep : Nat
  vsecs : List (Option VSec)
  regions : List Region
  map : List (List MapEntry)
  promise : Nat
  claim : Claim
  deriving DecidableEq, Repr

/-- The fields of a launch parameter block (R33). -/
structure Lpb where
  kobj : W64
  nblk : W32
  nthr : W16
  vpref : Byte
  mode : Byte
  regb : W16
  prvw : W16
  locb : W32
  colmask : W32
  prio : Byte
  dgc : Byte
  cgb : W16
  acct : W16
  crec : W64
  args : W64
  prvb : W64
  evta : W64
  zeros : Bool
  deriving DecidableEq, Repr

/-- The fault a record reports (R53, R55). -/
structure FaultRec where
  cause : Nat
  blk : Nat := 0xFF_FFFF
  addr : Nat := 0
  ep : Nat := 0xFFFF_FFFF
  site : Nat := 0
  deriving DecidableEq, Repr

/-- An accepted launch (R52, R53, R343): `next` is the lowest block not placed, `low` the lowest not retired (R400).
`groups` records the column each column group chose (R43); `recorded` that the record is written and only the event is
still due (R54), `faultAt` the cycle of the fault it reports (R55); `via` the path it came by and the core, which order
launches accepted in one cycle (R38). -/
structure Launch where
  lpb : Lpb
  obj : Nat
  part : Nat
  asid : W16
  at_ : Nat
  waitSince : Nat
  msga : VAddr := 0
  sysScope : Bool := false
  armed : Option (Nat × Nat) := none
  next : Nat := 0
  low : Nat := 0
  retiredAbove : List Nat := []
  retired : Nat := 0
  energy : Nat := 0
  hops : Nat := 0
  groups : Table Nat := []
  fault : Option FaultRec := none
  status : Option Nat := none
  recorded : Bool := false
  faultAt : Nat := 0
  via : Nat := 0
  deriving DecidableEq, Repr

/-! ## Blocks -/

/-- The system registers held per block (R124, R420, R412). -/
structure BlkRegs where
  bidx : BitVec 24 := 0
  nblk : BitVec 24 := 0
  nthr : BitVec 12 := 0
  argb : VAddr := 0
  msga : VAddr := 0
  acct : BitVec 10 := 0
  hopctl : W32 := 0
  plim : W16 := 0
  pbase : VAddr := 0
  vlen : BitVec 9 := 0
  fstat : W32 := 0
  fen : W32 := 0
  trapvec : VAddr := 0
  trapcause : W32 := 0
  trapaddr : VAddr := 0
  trapsite : W32 := 0
  trapep : W32 := 0
  traplane : W64 := 0
  dbgctl : BitVec 3 := 0
  trcctl : W32 := 0
  trcbase : VAddr := 0
  trcsize : BitVec 20 := 0
  trcptr : BitVec 20 := 0
  deriving DecidableEq, Repr

/-- One staged record (R64, R350): up to 8 aligned bytes of one thread's store, or one reduction. `pa` is the
translation captured at staging (R70), `va` the address it came from, in a page of `page` bytes, `hi` where the second word of a private reduction lies
(R268). -/
structure Staged where
  who : Nat
  seq : Nat
  pa : Nat
  va : Nat
  bytes : List Byte
  red : Option (Nat × Bool × Nat) := none
  poison : Bool := false
  hi : Option Nat := none
  page : Nat := 4096
  deriving DecidableEq, Repr

/-- The destination of a result that returns later: class, bytes, sign extension, register, NWB. -/
structure LoadForm where
  cls : Cls
  wid : Nat
  sext : Bool
  dreg : Nat
  nwb : Bool
  deriving DecidableEq, Repr

/-- A result that returns later (R101, R123): of a load, the SFU (`sfu`), or AGGET. `elts` are the elements with their
bytes (none while they are still outside the package) and poison; `keys` the registers no later instruction has
written, which the result still writes; `acq` that it is an acquire wider than .blk of a host or peer address, which
performs when its data come (R274, R320); `parts` are the pieces of elements that came one by one: element, offset, bytes,
poison. -/
structure Pending where
  id : Nat
  ctx : CtxId
  sfu : Bool := false
  form : LoadForm
  elts : List (Nat × Option (List Byte) × Bool)
  keys : List Nat
  flags : Nat := 0
  acq : Bool := false
  parts : List (Nat × Nat × List Byte × Bool) := []
  deriving DecidableEq, Repr

/-- What a fabric token carries when it is marked (R413). -/
structure TraceRec where
  birth : Nat
  cver : Byte
  rnd : Byte
  nhop : Nat
  hops : List (Nat × Nat × Nat)
  deriving DecidableEq, Repr

/-- A token (R359) and the cycle it reached its input buffer in (R363, R413). -/
structure Token where
  kind : BitVec 3
  rnd : Byte
  pay : W32
  at_ : Nat := 0
  mark : Option TraceRec := none
  deriving DecidableEq, Repr

/-- A stream specification (R366) with its captured predicate, and how far the stream has come (R354): the next position,
the positions taken, whether the EOR of the round it has just completed is still due, whether it starts behind a splice
or a later CFG (R373). Its window (R277): an input stream's lines held, TAIL first (virtual address, bytes, poison); its
HEAD is the line of position `scan`, or of a later one, that is not `headLine`, the line last filled. An output
stream's HEAD is the line `headLine`, of which `out` holds the bytes assembled, by physical address. -/
structure StreamSpec where
  base : Nat
  strd : List Int
  cnt : List Nat
  rlen : Nat
  sgn : Bool
  loc : Bool
  wid : Nat
  output : Bool
  gate : Bool
  pred : BitVec 256
  win : Nat
  rnd0 : Nat
  start : Nat
  pos : Nat
  taken : Nat := 0
  eorDue : Bool := false
  site : Nat := 0
  behindSplice : Bool := false
  afterCfg : Bool := false
  waitPage : Bool := false
  scan : Nat := 0
  headLine : Option Nat := none
  lines : List (Nat × List Byte × Bool) := []
  out : List (Nat × Byte) := []
  deriving DecidableEq, Repr

/-- A stream port of the span (R358, R369): since when it waits on a fill (R359), the DATA tokens it has sent (R412), the
streams that have ended and the positions the last of them took, the round whose EOR last left an output port (R376);
`stopped` by a fabric fault until the rollback
(R370). -/
structure Port where
  active : Option StreamSpec := none
  pending : Option StreamSpec := none
  waitFrom : Option Nat := none
  sent : Nat := 0
  ended : Nat := 0
  last : Nat := 0
  eor : Option Nat := none
  stopped : Bool := false
  deriving DecidableEq, Repr

inductive Fill | empty | filling | awaiting | ready
  deriving DecidableEq, Repr

/-- A tile slot (R205, R206): `rows` byte 0 to 4223 (sideband from 4096), pins (line, Pond entry or none for the zero
entry), poison bits. -/
structure Tile where
  rows : Store 8 := []
  fill : Fill := .empty
  pins : List (Nat × Option Nat) := []
  poison : BitVec 33 := 0
  poisonAddr : Table Nat := []
  deriving DecidableEq, Repr

/-- The snapshot of an EP (R68, R71): `marks` are the poisoned values, by entry and thread (R123), `rangeMarks` the poisoned
words of the ranges, `accMarks` the poisoned accumulator elements; `edits` the values a debugger has written in it, by
entry and thread (R77). -/
structure Snapshot where
  ep : Nat
  values : List (Nat × Store 64)
  live : Store 2048
  ranges : List (Nat × List Byte)
  acc : Store 64
  ag : List (Nat × W64)
  tiles : Table Tile
  fstat : W32
  vlen : BitVec 9
  resume : List (Nat × VAddr)
  ports : Table Port
  marks : List (Nat × Nat) := []
  rangeMarks : List Nat := []
  accMarks : List Nat := []
  edits : List (Nat × Nat × Nat) := []
  deriving DecidableEq, Repr

/-- Who has asked for a drain: DRAINF of the control program or of supervisor code, or a save (R377, R378, R430). -/
inductive Drainer | program | supervisor | save
  deriving DecidableEq, Repr

/-- A drain or slice drain in progress (R377, R378): when it began, the input ports that have sent its marker, whether
its deadline has passed. -/
structure Drain where
  who : Drainer
  slice : Bool
  commands : List (W32 × Nat) := []
  since : Nat
  passed : List Nat := []
  late : Bool := false
  deriving DecidableEq, Repr

/-- The fabric of a span (R354). `fields` is keyed by 64 × element + field code, `bufs` by 4 × element + input, with the
EOR a stateful cell still owes at input 3; `ports` by 16 × position + number. A pending splice has its commands, each
with its site, and the elements that have applied theirs; `later` are the commands of the CFGs that wait for it (R372);
`round` is the round of the EP that the block waits at (R380); `firedAt` the cycle after the last firing (R79). -/
structure Fabric where
  span : Nat := 1
  fields : Store 16 := []
  bufs : Table (List Token) := []
  ports : Table Port := []
  cver : Byte := 0
  splice : Option (List (W32 × Nat) × List Nat) := none
  later : List (W32 × Nat) := []
  drain : Option Drain := none
  sites : Table Nat := []
  round : Nat := 0
  firedAt : Nat := 0
  fwait : Option (Nat × Nat) := none
  deriving DecidableEq, Repr

/-- Charges of a block not yet flushed and its energy (R407 to R410). -/
structure Charges where
  partials : Store 64 := []
  energy : W64 := 0
  total : W64 := 0
  deriving DecidableEq, Repr

/-- Where a resident block stands (R422 to R430). -/
inductive Phase
  | running
  /-- Stopping for supervisor code: the SVEVT event its stop will set (0 TRAP, 1 PREEMPT, 3 DUMP), the trap to report,
  its entrants. -/
  | stopping (event : Nat) (t : TrapInfo) (ents : List Nat)
  /-- Stopped for supervisor code. -/
  | stopped (event : Nat) (t : TrapInfo) (ents : List Nat)
  /-- Placed for restore, waiting for CTXLD (R430). -/
  | restore
  /-- Finished; retirement of R52 pending. -/
  | finished
  deriving DecidableEq, Repr

/-- What is wanted of a block: the pre-emption request and when it was made, the page it is swapped out for (R388, R428);
`epRest` that it stopped at its EP before the Sluice decision (R68, R77); `saveAtEp` that its save is one at an EP. -/
structure Wanted where
  preempt : Bool := false
  since : Nat := 0
  swapPage : Option (Nat × Nat) := none
  epRest : Bool := false
  saveAtEp : Bool := false
  deriving DecidableEq, Repr

/-- The execution side of a block: its streams. `ticketAsk` are the streams of an instruction that has asked for the
block's ticket for itself (R305, R335, R350), and whether it is granted. `placed` is how many entries the control stream's
instruction at an address has placed in the matrix queue while it waits there for room (R209). -/
structure Exec where
  model : Model := .threaded
  threads : List Thread := []
  ctl : Ctl := {}
  bundles : List Bundle := []
  nextBundle : Nat := 0
  limits : List (BitVec 20) := []
  grow : Option (Bool × Nat) := none
  ticketAsk : Option (List Nat × Bool) := none
  placed : List (VAddr × Nat) := []
  sealedWait : Option Nat := none
  deriving DecidableEq, Repr

/-- The storage side of a block. `rows` is keyed by 64 × thread + N in the threaded model and 256 × N + element in the
vector model; `preds` by N, bit t. Poison is the list of marked keys. -/
structure BlkMem where
  budget : Nat := 8
  rowBytes : Nat := 0
  vcount : Nat := 0
  rows : Store 32 := []
  rowPoison : List Nat := []
  preds : Store 2048 := []
  loc : Store 8 := []
  locPoison : List Nat := []
  locb : Nat := 0
  snapBytes : Nat := 0
  snap : Option Snapshot := none
  deriving DecidableEq, Repr

/-- An instruction that only one copy of a twinned block performs (R462): its operands, the result it waits for, what
the result was. -/
structure Shared where
  ops : List Nat
  pend : Option Nat
  vals : Option (List (Nat × List Byte × Bool))
  deriving DecidableEq, Repr

/-- The sealed region and staging side of a block. -/
structure Stage where
  window : List Staged := []
  hasWindow : Bool := false
  deferred : List (Nat × Nat) := []
  regionPins : List (Nat × Nat) := []
  bkpt : List Nat := []
  staged : List Staged := []
  seq : Nat := 0
  tk : Nat := 0
  gw : Option Nat := none
  loads : Nat := 0
  shared : Option Shared := none
  deriving DecidableEq, Repr

/-! ## Cores -/

/-- A convergence register (R205): signatures by member thread, none for an abstention. -/
structure Cv where
  gangs : W32 := 0
  signs : Table (Option W32) := []
  desc : Option (Bool × W32 × Nat) := none
  deriving DecidableEq, Repr

/-- What a matrix-queue entry does (R209). -/
inductive MqOp
  | mma (split : Bool) (p1 fw : W32)
  | drn (p1 : W32) (addr row : Nat)
  | ald (slot addr row : Nat)
  | ast (slot addr row : Nat)
  | azero (dreg : Nat)
  | agset (k thr ref : Nat)
  | agget (k id dreg : Nat)
  | trel (k : Nat)
  deriving DecidableEq, Repr

/-- An entry of the matrix queue. -/
structure Mq where
  slot : Nat
  who : Nat
  site : Nat
  op : MqOp
  port : Option Nat := none
  deriving DecidableEq, Repr

/-- A queued tile fetch (R212): virtual and physical addresses of the lines of the rows and of the scale line, slot,
targets; `mqBefore` is how many of the block's matrix-queue entries were placed before it, `started` that the unit has
taken its slot to FILLING, `priorPins` the lines the slot had pinned till then; `id` its number among the accesses (R215). -/
structure TileFetch where
  slot : Nat
  who : Nat
  k : Nat
  lines : List (Nat × Nat)
  scale : Option (Nat × Nat)
  mask : Option (BitVec 6)
  prior : Fill
  mqBefore : Nat
  started : Bool := false
  priorPins : List Nat := []
  id : Nat := 0
  pages : List Nat := []
  deriving DecidableEq, Repr

/-- A copy request record (R309), how far it has come, and who kicked it: the site, the thread, `sup` supervisor code. -/
structure CpRec where
  sloc : Bool
  src : Nat
  dloc : Bool
  dst : Nat
  rowb : Nat
  sstr : Int
  dstr : Int
  nrow : Nat
  bbar : Nat
  row : Nat := 0
  ofs : Nat := 0
  site : Nat := 0
  who : Nat := 0
  sup : Bool := false
  deriving DecidableEq, Repr

/-- A list in a Culvert request queue (R347), with the kicking thread, or `sup` that supervisor code kicked it (R493);
every access of the kicking stream numbered below `after` performs before the list starts (R327). -/
structure CpList where
  slot : Nat
  who : Nat
  sup : Bool := false
  recs : List CpRec
  after : Nat := 0
  waitPage : Bool := false
  deriving DecidableEq, Repr

/-- What the device keeps of a saved block that its save area does not hold: the position of its core, SIZE and the
allotted area, queue entries and the results of their AGGETs, the threads that kicked the copies; and of each further
core of the span, by its place in it, accumulators, agreement registers and tiles. -/
structure Kept where
  pos : Nat := 0
  size : Nat := 0
  pool : Nat := 0
  mq : List (Nat × Mq) := []
  pend : List Pending := []
  copies : List (Nat × Bool) := []
  cvs : Table Cv := []
  acc : Store 64 := []
  accPoison : List Nat := []
  ag : Store 64 := []
  tiles : Table Tile := []
  deriving DecidableEq, Repr

/-- A resident block. -/
structure Block where
  launch : Nat
  obj : Nat
  part : Nat
  asid : W16
  prio : Nat
  vpref : Byte
  det : Nat
  coop : Bool
  claim : Claim
  regs : BlkRegs
  exec : Exec
  mem : BlkMem
  stage : Stage := {}
  region : Nat := 0
  sinceHop : Nat := 0
  phase : Phase := .running
  want : Wanted := {}
  traps : List TrapInfo := []
  meters : List Nat := []
  charges : Charges := {}
  placedAt : Nat := 0
  lastEp : Nat := 0
  issuedAt : Nat := 0
  svarg : VAddr := 0
  twin : Option (Nat × Nat) := none
  fromResume : Option Nat := none
  fab : Fabric := {}
  kept : Kept := {}
  deriving DecidableEq, Repr

/-- A monitor-table entry (R399); `woken` that its line has been written and the waiter has still to read again (R328). -/
structure Monitor where
  line : Nat
  pa : Nat
  wide : Bool
  exp : W64
  owner : CtxId
  who : Nat
  dreg : Nat
  nwb : Bool
  pd : Nat
  scope : Nat
  order : Nat
  next : VAddr := 0
  woken : Bool := false
  deriving DecidableEq, Repr

inductive L1State | clean | owned | priv
  deriving DecidableEq, Repr

/-- A valid frame of the line cache (R270, R271); an absent frame is INVALID. -/
structure L1Frame where
  line : Nat
  state : L1State
  data : Line
  dirty : List Nat := []
  poison : List Nat := []
  stream : Bool := false
  used : Nat := 0
  owner : Option Nat := none
  deriving DecidableEq, Repr

/-- A TLB entry (R381, R386): the page's size and base, frame, rights, whether the fill set D. -/
structure TlbEntry where
  asid : W16
  part : Nat
  base : Nat
  size : Nat
  frame : Nat
  rd : Bool
  wr : Bool
  ex : Bool
  dirty : Bool
  deriving DecidableEq, Repr

/-- A core of a compute die (R15 to R19). `supTraps` are the imprecise traps that wait for its supervisor code (R311,
R493). -/
structure Core where
  fabricOf : Option (Nat × Nat) := none
  reserved : Option (Nat × Nat) := none
  slots : Table Block := []
  sup : Ctl := { halted := true }
  supTraps : List TrapInfo := []
  svtgt : BitVec 3 := 0
  svevt : W32 := 0
  acc : Store 64 := []
  accPoison : List Nat := []
  ag : Store 64 := []
  tiles : Table Tile := []
  cvs : Table Cv := []
  mq : List Mq := []
  tfq : List TileFetch := []
  culvert : Table (List CpList) := []
  monitors : List Monitor := []
  l1 : List L1Frame := []
  tlb : List TlbEntry := []
  quarantined : Bool := false
  gate : Nat := 16
  lastFault : Nat := 0
  deriving DecidableEq, Repr

/-- A system core and its instruction and data caches (R14, R125, R276, R383, R401, R415, R421). -/
structure SysCore where
  ctl : Ctl := { halted := true }
  dtsel : BitVec 7 := 0
  svsel : BitVec 8 := 0
  rplctl : W32 := 0
  rplbase : BitVec 52 := 0
  rplsize : BitVec 24 := 0
  rplptr : BitVec 24 := 0
  retired : W64 := 0
  icache : List L1Frame := []
  dcache : List L1Frame := []
  deriving DecidableEq, Repr

/-! ## Memory side -/

/-- The bytes of package memory as its home slices serve them (R278): addresses rising, no zero byte listed. -/
abbrev Memory := List Host.Cell

/-- The canonical form: strictly rising addresses, no entry equal to what an unlisted address reads as. -/
def Memory.wf : Memory → Bool
  | [] => true
  | [(_, v)] => v != 0
  | (a, v) :: (b, x) :: r => v != 0 && decide (a < b) && Memory.wf ((b, x) :: r)

/-- A valid L2 tag (R280). `ent` none is the zero entry; `filled` is false until LINE_FILL has placed it. -/
structure Tag where
  ent : Option Nat := none
  dirty : Bool := false
  set8 : Bool := false
  own : Option Nat := none
  shv : BitVec 4 := 0
  pcnt : Nat := 0
  dom : Nat := 0
  psn : Bool := false
  used : Nat := 0
  writtenAt : Nat := 0
  deriving DecidableEq, Repr

/-- A Pond entry that is not free (R280). -/
structure Pond where
  data : Line
  refs : Nat
  hold : Nat
  hash : W64
  edom : Nat
  poisoned : Bool := false
  deriving DecidableEq, Repr

/-- An L2 slice: tags by line number, entries, the Pond index (R397). -/
structure Slice where
  tags : Table Tag := []
  pond : Table Pond := []
  index : Table (List (Option Nat)) := []
  stopped : Bool := false
  deriving DecidableEq, Repr

/-- A frame of a die's remote-data cache: a clean copy of a line homed on another die, with its poison (R288). -/
structure RdcFrame where
  line : Nat
  data : Line
  poison : Bool := false
  used : Nat := 0
  deriving DecidableEq, Repr

/-- What an access that has left its stream does when it performs (R302, R324). -/
inductive PathKind
  /-- A store of bytes at a physical address. -/
  | store (bytes : List Byte) (poison : Bool)
  /-- An atomic (old value returned to `pend`) or reduction: AOP, width in bytes, operand, compare value; `more` are the
  operands of reductions merged with it (R304). -/
  | atom (aop wid : Nat) (b cmp : Nat) (any : Bool) (pend : Option Nat) (more : List Nat)
  deriving DecidableEq, Repr

/-- An access on its way to where it performs (R324): in order of issue. `release` is the scope its release orders
before it; `na` that it fills no tag (R299), `acq` that the stream's later accesses wait for it (R320), `hi` where the
second word of a private atomic lies (R268), `page` the bytes of the page it was translated in (R390). -/
structure PathOp where
  id : Nat
  ctx : CtxId
  who : Nat
  core : Option Nat
  asid : W16
  part : Nat
  acct : Option Nat
  pa : Nat
  size : Nat
  va : Nat
  kind : PathKind
  release : Bool := false
  scope : Nat := 0
  sent : Bool := false
  na : Bool := false
  acq : Bool := false
  hi : Option Nat := none
  page : Nat := 4096
  deriving DecidableEq, Repr

/-- A walk wanted (R381, R385): for whom, and the kind 0 read, 1 write, 2 atomic, 3 fetch. -/
structure Walk where
  id : Nat
  ctx : CtxId
  who : Nat
  asid : W16
  part : Nat
  va : Nat
  kind : Nat
  crec : Option Nat := none
  parked : Bool := false
  failed : Option Nat := none
  deriving DecidableEq, Repr

/-- A page request sent and not yet arrived (R388): the region it covers. -/
structure PageReq where
  asid : W16
  part : Nat
  base : Nat
  size : Nat
  deriving DecidableEq, Repr

/-! ## The IOD -/

/-- A PCIe function (R438 to R441). -/
structure Func where
  part : Option Nat := none
  asid : W16 := 0
  ringbase : W64 := 0
  ringsize : W32 := 0
  head : W32 := 0
  doorbell : W32 := 0
  quiesced : Bool := false
  rerr : Bool := false
  handed : Bool := false
  stopped : Bool := false
  dtbase : BitVec 52 := 0
  dtpfn : BitVec 36 := 0
  dtcnt : BitVec 21 := 0
  dten : Bool := false
  deriving DecidableEq, Repr

/-- A message held or to be sent (R339, R341). -/
structure Msg where
  port : Nat
  dst : BitVec 128
  tag : W64
  payload : List Byte
  src : Nat := 0
  asid : W16 := 0
  pay : Nat := 0
  len : Nat := 0
  done : Nat := 0
  acct : Option Nat := none
  deriving DecidableEq, Repr

/-- An event record of a partition's queue (R458), its 48 argument bytes. -/
structure Event where
  kind : Nat
  drops : Nat
  seq : W32
  args : List Byte
  deriving DecidableEq, Repr

/-- A saved block in a resume queue (R344): the area that holds it, the budget it is placed again with (in a GROW wait
the pending one, R346), the page it waits for (R388), the core it may not go back to. `blk` is what the device keeps of
the block besides its save area. -/
structure Saved where
  launch : Nat
  bidx : Nat
  prio : Nat
  at_ : Nat
  area : Nat
  budget : Nat
  grow : Bool
  page : Option (Nat × Nat)
  leftCore : Option Nat
  blk : Block
  deriving DecidableEq, Repr

/-- A pool in package memory and what is allotted from it (R428, R434, R349). -/
structure Pool where
  base : Nat := 0
  size : Nat := 0
  used : List (Nat × Nat) := []
  deriving DecidableEq, Repr

/-- A range of the peer map (R444, R457). -/
structure PeerRange where
  peer : Nat
  part : Nat
  base : Nat
  size : Nat
  deriving DecidableEq, Repr

/-- What a partition holds (R332, R448, R457, R458). -/
structure Partition where
  first : Nat := 0
  count : Nat := 0
  placement : Nat := 1000
  resumeUs : Nat := 1000
  preempt : Nat := 100
  savePool : Pool := {}
  dumpPool : Pool := {}
  staging : Pool := {}
  dumps : Bool := false
  quota : Nat := 128
  twinK : Nat := 3
  weight : Nat := 16
  floors : Table Nat := []
  cap : Option Nat := none
  ip : BitVec 128 := 0
  plen : Nat := 0
  router : BitVec 128 := 0
  resume : List Saved := []
  held : List Msg := []
  sendq : List Msg := []
  events : List Event := []
  seq : W32 := 0
  drops : Nat := 0
  umBase : Nat := 0
  umCount : Nat := 0
  umNext : Nat := 0
  umBusy : List Nat := []
  deriving DecidableEq, Repr

/-- The peer map of a partition, whether its columns are quarantined (R436), the energy in µJ banked in the power window
(R465), the function whose quiesce is in progress and the blocks it has saved (R464). -/
structure PartX where
  peers : List PeerRange := []
  faulted : Bool := false
  window : Nat := 0
  quiesce : Option (Nat × Nat) := none
  deriving DecidableEq, Repr

/-- An armed-launch entry (R398). -/
structure Armed where
  tag : W64
  bufb : Nat
  bufs : Nat
  nslot : Nat
  oneshot : Bool
  arrn : W32
  part : Nat
  asid : W16
  lpb : List Byte
  deriving DecidableEq, Repr

/-- A package column: lending, clearing, faults, the partition that gave it up last (R448, R450, R436). -/
structure Column where
  last : Option Nat := none
  lentTo : Option Nat := none
  reclaiming : Bool := false
  clearing : Bool := false
  faulted : Bool := false
  deriving DecidableEq, Repr

/-- An Ethernet port (R442, R443). -/
structure EthPort where
  up : Bool := false
  neighbours : List (BitVec 128 × BitVec 48) := []
  asked : List (BitVec 128 × Nat) := []
  paused : Bool := false
  deriving DecidableEq, Repr

/-- A Corhoeb Link port (R445 to R447): `nakked` that it discards flits until the one it has named in a NAK. -/
structure LinkPort where
  up : Bool := false
  nakked : Bool := false
  txSeq : Nat := 0
  rxSeq : Nat := 0
  reqCredit : Nat := 0
  respCredit : Nat := 0
  replay : List (Nat × LinkMsg × Nat) := []
  waiting : List (LinkMsg × Nat) := []
  inflight : Table Nat := []
  nakSeq : Option (Nat × Nat) := none
  deriving DecidableEq, Repr

/-- What leaves the package. -/
inductive Out
  | msix (fn vector : Nat)
  | hostWrite (addr : Nat) (bytes : List Byte)
  | hostRead (id addr size : Nat)
  | hostAtom (id addr aop wid b cmp : Nat)
  | bar2 (fn : Nat) (data : Option (List Byte))
  | frame (who : Requester) (status : Nat) (seq : W32) (results payload : List Byte)
  | spdm (bytes : List Byte)
  | datagram (port : Nat) (mac : BitVec 48) (dst : BitVec 128) (tag : W64) (payload : List Byte)
  | solicit (port : Nat) (target : BitVec 128)
  | advertise (port : Nat) (target : BitVec 128)
  | pause (port part : Nat) (on : Bool)
  | link (port kind seq ack : Nat) (op : Nat) (m : Option LinkMsg)
  | credits (port req resp : Nat) (linkup : Bool)
  | get (port : Nat) (config : List Byte)
  deriving DecidableEq, Repr

/-- The boot (R443, R460) and its measurements (R459). -/
structure Boot where
  config : List Byte := []
  next : List Byte := []
  state : Nat := 1
  failures : Nat := 0
  tries : Nat := 0
  retryAt : Option Nat := none
  meas : List (BitVec 512) := []
  deriving DecidableEq, Repr

/-- Headgate and the masters (R453 to R455): the frames that wait, in arrival order, with their CMD. -/
structure Headgate where
  owner : Option Requester := none
  frozen : List Requester := []
  nonces : List (Requester × BitVec 256) := []
  queue : List (Nat × HgReq) := []
  mbx : Store 8 := []
  deriving DecidableEq, Repr

/-- The package cap and the energy in µJ banked in the power window (R465). -/
structure Power where
  cap : Nat := 2400
  window : Nat := 0
  deriving DecidableEq, Repr

/-- The I/O die. -/
structure Iod where
  funcs : Table Func := []
  parts : Table Partition := []
  partx : Table PartX := []
  armed : Table Armed := []
  columns : Table Column := []
  groups : Table (List (Nat × Nat) × W32) := []
  eth : Table EthPort := []
  links : Table LinkPort := []
  routes : Table Nat := []
  headgate : Headgate := {}
  boot : Boot := {}
  spdmIn : List (List Byte) := []
  power : Power := {}
  accts : Table Nat := []
  counters : Store 64 := []
  ewt : Table W32 := []
  asidtb : BitVec 52 := 0
  rrNext : Nat := 0
  deriving DecidableEq, Repr

/-- An access of the package to the host or a peer that has not completed (R437, R447): of a read, where in its element
the piece stands and the bytes that the stream's own stores put over it (R65, R323). -/
structure Outside where
  id : Nat
  path : Option Nat
  pend : Option Nat
  ctx : CtxId
  port : Option Nat
  part : Nat
  pa : Nat
  size : Nat
  elt : Nat := 0
  ofs : Nat := 0
  ownBytes : List (Option Byte) := []
  deriving DecidableEq, Repr

/-! ## The package -/

/-- Which stream of the package issues. -/
inductive Issuer
  | bundle (core slot id : Nat)
  | ctl (core slot : Nat)
  | sup (core : Nat)
  | sys (n : Nat)
  deriving DecidableEq, Repr

/-- What moves next. The model's own: the package's agents run in parallel, and the agenda says in which order the one
deterministic step takes them (DESIGN CHOICE, unsafe: notes/assumptions/2.md). -/
inductive Turn
  /-- A stream enters its next instruction: fetch, decode, execute; a stream that competes for an issue unit, when R49
  chooses it. -/
  | issue (i : Issuer)
  /-- The core's issue unit chooses by R49 and issues. -/
  | lane (core : Nat)
  /-- An event of the device happens. -/
  | event (i : Instr)
  /-- Cycles pass. -/
  | tick (n : Nat)
  /-- A Headgate frame arrives with this CMD. -/
  | frame (cmd : Nat) (q : HgReq)
  /-- An SPDM request arrives. -/
  | spdm (req : List Byte)
  /-- The loader on the system cores is given the object at an address under an ASID (R58). -/
  | accept (asid : W16) (part : Nat) (addr : Nat)
  /-- An Ethernet link comes up. -/
  | ethUp (port : Nat)
  /-- A word of a line becomes uncorrectable in its Dolust channel; the next fill of the line finds it (R26, R279). -/
  | upset (line : Nat)
  /-- Two .any reductions on the path with one AOP and address merge into the first (R304). -/
  | merge (first second : Nat)
  deriving DecidableEq, Repr

/-- A fill wanted of a line without a tag (R282): whether it has been laid to an access yet, and the block and account of
that access (R407). -/
structure LineFill where
  line : Nat
  seen : Bool := false
  who : Option CtxId := none
  acct : Option Nat := none
  deriving DecidableEq, Repr

/-- The whole package. -/
structure State where
  cores : Table Core := []
  sys : Table SysCore := []
  mem : Memory := []
  memPoison : List Nat := []
  slices : Table Slice := []
  rdc : Table (List RdcFrame) := []
  dieTlb : Table (List TlbEntry) := []
  dieAsids : Table (List Nat) := []
  walks : List Walk := []
  pageReqs : List PageReq := []
  path : List PathOp := []
  pending : List Pending := []
  outside : List Outside := []
  fills : List LineFill := []
  objects : List KObj := []
  launches : Table Launch := []
  iod : Iod := {}
  /-- Core clock cycles since package reset (R404). -/
  cycle : Nat := 0
  /-- The model's own: numbers given to what is in flight. -/
  nextId : Nat := 1
  /-- The model's own: lines that the channels have read or written, and fills whose Place found a shared entry; what an
  access adds to them is charged to the block that made it (R407). -/
  moved : Nat := 0
  shares : Nat := 0
  /-- The model's own: the counter the free values of Config are applied to (DESIGN CHOICE, safe: notes/assumptions/3.md). -/
  freeCount : Nat := 0
  /-- The model's own: the turns to come. -/
  agenda : List Turn := []
  /-- The model's own: the stream that issues when the agenda is empty, and for which `exec` acts. -/
  cur : Issuer := .sys 0
  /-- The model's own: what has left the package, oldest first. -/
  outbox : List Out := []
  deriving DecidableEq, Repr

/-- Why a step stops. No run reaches one: every trap, wait and halt of the spec is a next state. -/
inductive Fault
  /-- The current stream does not exist in this state: no block in the slot, no such bundle. Raised by the meanings of
  instructions; safe: the hardware has no stream there to do anything. -/
  | noStream
  deriving DecidableEq, Repr

/-- Why a step has no meaning. -/
inductive Refusal
  /-- An instruction without a meaning yet. Raised by `exec`; safe. -/
  | notModelled (mnemonic : String)
  /-- The bytes at the PC end before the instruction does: raised by no run, since a line is 128 bytes and LineCheck
  refuses an instruction that crosses it (R88); safe. -/
  | undecodable
  deriving DecidableEq, Repr

/-- The package right after package reset (R125, R421): everything at its reset value; no system core runs until the
boot ROM starts it (R460; DESIGN CHOICE, unsafe: notes/assumptions/10.md), meters read as they do before any block. -/
def State.reset : State := { iod := { boot := { meas := List.replicate 8 0#512 } } }

end Sys2Proof.Machine
end

