-- ==== Sys2Proof/Machine/Store.lean ====
section
/-! DEFINITION. Sparse stores and tables: one read and one write each, and bytes to numbers (little-endian, R1). -/

namespace Sys2Proof.Machine

/-- The unit numbered `a`; an unlisted one reads as zero. -/
def Store.get {w : Nat} : Store w → Nat → BitVec w
  | [], _ => 0#w
  | (k, v) :: r, a => if k = a then v else Store.get r a

/-- `(a, v)` before the first greater number. -/
def Store.place {α : Type} : List (Nat × α) → Nat → α → List (Nat × α)
  | [], a, v => [(a, v)]
  | (k, x) :: r, a, v => if a < k then (a, v) :: (k, x) :: r else (k, x) :: Store.place r a v

/-- The store with unit `a` set to `v`: what an unlisted unit reads as is not listed. -/
def Store.set {w : Nat} (m : Store w) (a : Nat) (v : BitVec w) : Store w :=
  let r := m.filter (fun e => e.1 != a)
  if v = 0#w then r else Store.place r a v

/-- Several units, in order. -/
def Store.setAll {w : Nat} (m : Store w) (l : List (Nat × BitVec w)) : Store w :=
  l.foldl (fun m e => Store.set m e.1 e.2) m

/-- Only the units whose number satisfies `p`. -/
def Store.keep {w : Nat} (m : Store w) (p : Nat → Bool) : Store w := m.filter (fun e => p e.1)

/-- The record numbered `k`. -/
def Table.get? {α : Type} : Table α → Nat → Option α
  | [], _ => none
  | (k, v) :: r, a => if k = a then some v else Table.get? r a

def Table.erase {α : Type} (t : Table α) (k : Nat) : Table α := t.filter (fun e => e.1 != k)
def Table.set {α : Type} (t : Table α) (k : Nat) (v : α) : Table α := Store.place (Table.erase t k) k v
def Table.getD {α : Type} (t : Table α) (k : Nat) (d : α) : α := (Table.get? t k).getD d
/-- The record `k`, if there is one, changed by `f`. -/
def Table.modify {α : Type} (t : Table α) (k : Nat) (f : α → α) : Table α :=
  match Table.get? t k with
  | some v => Table.set t k (f v)
  | none => t

/-- Little-endian value of bytes (R1). -/
def bytesVal : List Byte → Nat
  | [] => 0
  | b :: r => b.toNat + 256 * bytesVal r

/-- The low `n` bytes of a number, little-endian (R1). -/
def valBytes : Nat → Nat → List Byte
  | 0, _ => []
  | n + 1, x => BitVec.ofNat 8 x :: valBytes n (x / 256)

/-- The numbers `a`, `a + 1`, … (`n` of them). -/
def upFrom (a : Nat) : Nat → List Nat
  | 0 => []
  | n + 1 => a :: upFrom (a + 1) n

/-- `n` consecutive bytes from `a`. -/
def Store.bytes (m : Store 8) (a n : Nat) : List Byte :=
  let w := m.filter fun e => a ≤ e.1 && e.1 < a + n
  (upFrom a n).map (Store.get w)

/-- Bytes from `a` on as a store lists them: no zero byte. -/
def Store.listed (a : Nat) : List Byte → Store 8
  | [] => []
  | b :: r => if b = 0#8 then Store.listed (a + 1) r else (a, b) :: Store.listed (a + 1) r

/-- Consecutive bytes written from `a`. -/
def Store.setBytes (m : Store 8) (a : Nat) (bs : List Byte) : Store 8 :=
  m.filter (fun e => e.1 < a) ++ Store.listed a bs ++ m.filter fun e => a + bs.length ≤ e.1

/-- Field of `n` bytes at offset `o` of a structure held as bytes. -/
def field (bs : List Byte) (o n : Nat) : Nat := bytesVal ((bs.drop o).take n)

/-- The least element, if any. -/
def leastOf : List Nat → Option Nat
  | [] => none
  | a :: r => match leastOf r with
    | none => some a
    | some b => some (if a ≤ b then a else b)

/-- Sorted by rising key, by insertion; equal keys keep their order. -/
def sortBy {α : Type} (f : α → Nat) (l : List α) : List α :=
  l.foldr (fun x acc => ins x acc) []
where
  /-- `x` before the first element whose key is not below its own. -/
  ins (x : α) : List α → List α
    | [] => [x]
    | y :: r => if f x ≤ f y then x :: y :: r else y :: ins x r

end Sys2Proof.Machine
end

