-- ==== Sys2Proof/Machine/Num.lean ====
section
/-! DEFINITION. The float formats and their exact values (R157 to R160), rounding (R162 to R165), conversions (R167,
R168), and the real functions of the SFU as fixed-point bounds (R197). Everything is exact integer arithmetic; a result
that is not exact is a floor with a sticky mark, far below any rounding boundary.
Where the spec leaves a point open: notes/assumptions, entry 52. -/

namespace Sys2Proof.Machine

/-! ## Flags, in the bit positions of FSTAT (R126, R166) -/

def fInvalid : Nat := 1
def fDivZero : Nat := 2
def fOverflow : Nat := 4
def fUnderflow : Nat := 8
def fInexact : Nat := 16
def fSatq : Nat := 32
def fIdz : Nat := 64

/-! ## Formats -/

/-- A format's fraction bits, bias and width (R157). -/
structure Fmt where
  p : Nat
  bias : Nat
  w : Nat
  deriving DecidableEq, Repr

/-- Codes 0x0 FP32, 0x1 FP16, 0x2 BF16 (R106). -/
def fmtOf (code : Nat) : Fmt := if code = 1 then ⟨10, 15, 16⟩ else if code = 2 then ⟨7, 127, 16⟩ else ⟨23, 127, 32⟩
def Fmt.emax (f : Fmt) : Nat := 2 * f.bias + 1
def Fmt.inf (f : Fmt) (neg : Bool) : Nat := (if neg then 2 ^ (f.w - 1) else 0) + f.emax * 2 ^ f.p
def Fmt.zero (f : Fmt) (neg : Bool) : Nat := if neg then 2 ^ (f.w - 1) else 0
/-- The canonical NaN (R159). -/
def Fmt.nan (f : Fmt) : Nat := f.emax * 2 ^ f.p + 2 ^ (f.p - 1)
def Fmt.largest (f : Fmt) (neg : Bool) : Nat := f.inf neg - 1

/-- The value of a float (R158): `fin neg m e` is (−1)^neg × m × 2^e. -/
inductive FVal
  | nan (signalling : Bool)
  | inf (neg : Bool)
  | fin (neg : Bool) (m : Nat) (e : Int)
  deriving DecidableEq, Repr

/-- Value(x, F) (R158, R187). -/
def Fmt.value (f : Fmt) (x : Nat) : FVal :=
  let neg := bit x (f.w - 1)
  let e := x / 2 ^ f.p % 2 ^ (f.w - 1 - f.p)
  let m := x % 2 ^ f.p
  if e = f.emax then
    if m = 0 then .inf neg else .nan (!bit m (f.p - 1))
  else if e = 0 then .fin neg m (1 - f.bias - f.p)
  else .fin neg (2 ^ f.p + m) (e - f.bias - f.p)

/-- Whether a magnitude floor `n` is rounded up: `half` compares the rest with one half (R162). -/
def roundsUp (rm : Nat) (neg : Bool) (n : Nat) (half : Ordering) (rest : Bool) : Bool :=
  match rm with
  | 0 => match half with
    | .gt => true
    | .eq => n % 2 == 1
    | .lt => false
  | 1 => false
  | 2 => neg && rest
  | _ => !neg && rest

/-- m × 2^e rounded to a multiple of 2^q under RM: the multiple, and whether it differs. `sticky`: the magnitude lies
above m × 2^e by less than one unit of m. -/
def roundAt (rm : Nat) (neg : Bool) (m : Nat) (e : Int) (sticky : Bool) (q : Int) : Nat × Bool :=
  if q ≤ e then (m * 2 ^ (e - q).toNat, sticky)
  else
    let k := (q - e).toNat
    let n := m / 2 ^ k
    let r := m % 2 ^ k
    let half := if r = 2 ^ (k - 1) then (if sticky then .gt else .eq) else if r < 2 ^ (k - 1) then .lt else Ordering.gt
    let rest := r != 0 || sticky
    (if roundsUp rm neg n half rest then n + 1 else n, rest)

/-- Round(x, F, RM) of a nonzero real with its flags (R162 to R164). -/
def Fmt.round (f : Fmt) (rm : Nat) (neg : Bool) (m : Nat) (e : Int) (sticky : Bool := false) : Nat × Nat :=
  let top : Int := e + (Nat.log2 m : Nat)
  let low : Int := 1 - f.bias - f.p
  let q := max (top - f.p) low
  let (n, inexact) := roundAt rm neg m e sticky q
  let bits_ := ((q - low).toNat) * 2 ^ f.p + n
  let sign := f.zero neg
  if bits_ ≥ f.emax * 2 ^ f.p then
    let v := match rm with
      | 0 => f.inf neg
      | 1 => f.largest neg
      | 2 => if neg then f.inf neg else f.largest neg
      | _ => if neg then f.largest neg else f.inf neg
    (v, fOverflow ||| fInexact)
  else
    let (n2, _) := roundAt rm neg m e sticky (top - f.p)
    let tiny := decide (top < 1 - f.bias) && !(top == -f.bias && n2 == 2 ^ (f.p + 1))
    (sign + bits_, (if inexact then fInexact else 0) ||| (if tiny && inexact then fUnderflow else 0))

/-- A finite real rounded; zero keeps its sign (R165). -/
def Fmt.ofFin (f : Fmt) (rm : Nat) (neg : Bool) (m : Nat) (e : Int) : Nat × Nat :=
  if m = 0 then (f.zero neg, 0) else f.round rm neg m e

/-- ConvertFloat (R167, R168). -/
def Fmt.ofValue (f : Fmt) (rm : Nat) : FVal → Nat × Nat
  | .nan s => (f.nan, if s then fInvalid else 0)
  | .inf neg => (f.inf neg, 0)
  | .fin neg m e => f.ofFin rm neg m e

/-- ConvertInt to `w` bits (R168): the two's complement value and flags. -/
def toInt (w rm : Nat) : FVal → Int × Nat
  | .nan _ => (0, fInvalid)
  | .inf neg => (if neg then -(2 ^ (w - 1) : Nat) else (2 ^ (w - 1) : Nat) - 1, fInvalid)
  | .fin neg m e =>
    let (n, inexact) := roundAt rm neg m e false 0
    let v : Int := if neg then -n else n
    let hi : Int := (2 ^ (w - 1) : Nat) - 1
    let lo : Int := -(2 ^ (w - 1) : Nat)
    if v > hi then (hi, fInexact) else if v < lo then (lo, fInexact) else (v, if inexact then fInexact else 0)

/-! ## Exact arithmetic (R190) -/

/-- The sum of two finite values: signed magnitude on the lower exponent. -/
def sumFin (n1 : Bool) (m1 : Nat) (e1 : Int) (n2 : Bool) (m2 : Nat) (e2 : Int) : Int × Int :=
  let e := min e1 e2
  let a : Int := (m1 * 2 ^ (e1 - e).toNat : Nat)
  let b : Int := (m2 * 2 ^ (e2 - e).toNat : Nat)
  ((if n1 then -a else a) + (if n2 then -b else b), e)

/-- x + y as an exact value; an exact zero sum takes its sign from R165. The second part is INVALID of inf − inf. -/
def addVal (rm : Nat) : FVal → FVal → FVal × Nat
  | .nan a, .nan b => (.nan false, if a || b then fInvalid else 0)
  | .nan a, _ => (.nan false, if a then fInvalid else 0)
  | _, .nan b => (.nan false, if b then fInvalid else 0)
  | .inf a, .inf b => if a == b then (.inf a, 0) else (.nan false, fInvalid)
  | .inf a, .fin _ _ _ => (.inf a, 0)
  | .fin _ _ _, .inf b => (.inf b, 0)
  | .fin n1 m1 e1, .fin n2 m2 e2 =>
    if m1 = 0 && m2 = 0 then (.fin (if n1 == n2 then n1 else rm == 2) 0 0, 0) else
    let (v, e) := sumFin n1 m1 e1 n2 m2 e2
    if v = 0 then (.fin (rm == 2) 0 0, 0) else (.fin (decide (v < 0)) v.natAbs e, 0)

def negVal : FVal → FVal
  | .nan s => .nan s
  | .inf n => .inf !n
  | .fin n m e => .fin (!n) m e

def mulVal : FVal → FVal → FVal × Nat
  | .nan a, .nan b => (.nan false, if a || b then fInvalid else 0)
  | .nan a, _ => (.nan false, if a then fInvalid else 0)
  | _, .nan b => (.nan false, if b then fInvalid else 0)
  | .inf a, .inf b => (.inf (a != b), 0)
  | .inf a, .fin b m _ => if m = 0 then (.nan false, fInvalid) else (.inf (a != b), 0)
  | .fin a m _, .inf b => if m = 0 then (.nan false, fInvalid) else (.inf (a != b), 0)
  | .fin a m e, .fin b n g => (.fin (a != b) (m * n) (e + g), 0)

/-- An operation's exact value rounded, with the flags it has already raised. -/
def Fmt.finish (f : Fmt) (rm : Nat) (r : FVal × Nat) : Nat × Nat :=
  let (v, fl) := f.ofValue rm r.1
  (v, fl ||| r.2)

def Fmt.add (f : Fmt) (rm a b : Nat) : Nat × Nat := f.finish rm (addVal rm (f.value a) (f.value b))
def Fmt.sub (f : Fmt) (rm a b : Nat) : Nat × Nat := f.finish rm (addVal rm (f.value a) (negVal (f.value b)))
def Fmt.mul (f : Fmt) (rm a b : Nat) : Nat × Nat := f.finish rm (mulVal (f.value a) (f.value b))
/-- FMA: INVALID of the product stands whatever C is; a signalling C raises it too (R190). -/
def Fmt.fma (f : Fmt) (rm a b c : Nat) : Nat × Nat :=
  let (p, fl) := mulVal (f.value a) (f.value b)
  let (v, fl2) := addVal rm p (f.value c)
  f.finish rm (v, fl ||| fl2)

/-! ## Order and classes (R191 to R194) -/

/-- A finite or infinite value's place in the order of the extended reals. -/
def cmpVal : FVal → FVal → Ordering
  | .inf a, .inf b => if a == b then .eq else if a then .lt else .gt
  | .inf a, _ => if a then .lt else .gt
  | _, .inf b => if b then .gt else .lt
  | .fin n1 m1 e1, .fin n2 m2 e2 =>
    let (v, _) := sumFin n1 m1 e1 (!n2) m2 e2
    if v = 0 then .eq else if v < 0 then .lt else .gt
  | _, _ => .eq

def isNan : FVal → Bool
  | .nan _ => true
  | _ => false
def isSnan : FVal → Bool
  | .nan s => s
  | _ => false
def isNeg : FVal → Bool
  | .nan _ => false
  | .inf n => n
  | .fin n _ _ => n

/-- FMIN and FMAX (R191): −0 below +0; one NaN gives the other operand. -/
def Fmt.minmax (f : Fmt) (max_ : Bool) (a b : Nat) : Nat × Nat :=
  let x := f.value a
  let y := f.value b
  let fl := if isSnan x || isSnan y then fInvalid else 0
  let lo := 2 ^ f.w
  if isNan x && isNan y then (f.nan, fl)
  else if isNan x then (b % lo, fl)
  else if isNan y then (a % lo, fl)
  else
    let le := match cmpVal x y with
      | .lt => true
      | .gt => false
      | .eq => isNeg x || !isNeg y
    (if le == !max_ then a % lo else b % lo, fl)

/-- FCMP (R193): the condition and its flags. -/
def Fmt.compare (f : Fmt) (fn a b : Nat) : Nat × Nat :=
  let x := f.value a
  let y := f.value b
  let un := isNan x || isNan y
  let c := cmpVal x y
  let r : Bool := match fn with
    | 0 => !un && c == .eq
    | 1 => un || c != .eq
    | 2 => !un && c == .lt
    | 3 => !un && c != .gt
    | 4 => !un && c == .gt
    | 5 => !un && c != .lt
    | 6 => un
    | 7 => !un
    | 8 => !un && c == .lt
    | 9 => !un && c != .gt
    | 10 => !un && c == .gt
    | _ => !un && c != .lt
  let signalling := 2 ≤ fn && fn ≤ 5
  (if r then 1 else 0, if un && (signalling || isSnan x || isSnan y) then fInvalid else 0)

/-- The class bit of FCLASS (R194). -/
def Fmt.class_ (f : Fmt) (a : Nat) : Nat :=
  match f.value a with
  | .inf n => if n then 1 else 128
  | .nan s => if s then 256 else 512
  | .fin n m _ =>
    if m = 0 then (if n then 8 else 16)
    else if m < 2 ^ f.p then (if n then 4 else 32)
    else if n then 2 else 64

/-! ## Roots and quotients -/

/-- Floor of the square root, from bit `k` down. -/
def isqrt (n : Nat) : Nat → Nat → Nat
  | 0, r => r
  | k + 1, r => isqrt n k (if (r + 2 ^ k) * (r + 2 ^ k) ≤ n then r + 2 ^ k else r)

/-- √(m × 2^e): 128 result bits at least. -/
def sqrtVal (m : Nat) (e : Int) : Nat × Int × Bool :=
  let odd := e % 2 = 1
  let n := (if odd then 2 * m else m) * 2 ^ 256
  let r := isqrt n 160 0
  (r, (if odd then e - 1 else e) / 2 - 128, r * r != n)

/-- 1 ÷ (m × 2^e). -/
def rcpVal (m : Nat) (e : Int) : Nat × Int × Bool := (2 ^ 192 / m, -e - 192, 2 ^ 192 % m != 0)

/-- 1 ÷ √(m × 2^e). -/
def rsqVal (m : Nat) (e : Int) : Nat × Int × Bool :=
  let odd := e % 2 = 1
  let n := if odd then 2 * m else m
  let q := 2 ^ 320 / n
  let r := isqrt q 161 0
  (r, -((if odd then e - 1 else e) / 2) - 160, r * r * n != 2 ^ 320)

/-! ## Fixed-point series: numbers scaled by 2^800 -/

def scaleBits : Nat := 800
def one_ : Nat := 2 ^ scaleBits

/-- Σ t^(2n+1) / (2n+1), n from `i`: `pw` is t^(2i+1), `t2` is t²; alternating when `alt`. -/
def oddSeries (alt : Bool) (t2 : Nat) : Nat → Nat → Nat → Int
  | 0, _, _ => 0
  | f + 1, i, pw =>
    let term : Int := (pw / (2 * i + 1) : Nat)
    (if alt && i % 2 = 1 then -term else term) + oddSeries alt t2 f (i + 1) (pw * t2 / one_)

/-- Σ ± x^k / k! over k = `i`, `i` + 2, …: `term` is the first; `alt` flips each. -/
def powSeries (alt : Bool) (x2 : Nat) : Nat → Nat → Nat → Bool → Int
  | 0, _, _, _ => 0
  | f + 1, i, term, neg =>
    (if neg then -(term : Int) else term) + powSeries alt x2 f (i + 2) (term * x2 / one_ / ((i + 1) * (i + 2))) (if alt then !neg else neg)

def ln2 : Nat := (2 * oddSeries false (one_ / 9) 260 0 (one_ / 3)).toNat
def halfPi : Nat :=
  ((16 * oddSeries true (one_ / 25) 180 0 (one_ / 5) - 4 * oddSeries true (one_ / 57121) 60 0 (one_ / 239)) / 2).toNat

/-- exp of 0 ≤ t < 1, scaled: even and odd powers. -/
def expFix (t : Nat) : Nat :=
  let t2 := t * t / one_
  (powSeries false t2 90 0 one_ false + powSeries false t2 90 1 t false).toNat

/-- A scaled real as a floor on 2^−640 with a sticky mark: the error of the series lies far below. -/
def coarse (v : Nat) : Nat × Int := (v / 2 ^ 160, -640)

/-- m × 2^e scaled, for e ≥ −800. -/
def fixOf (m : Nat) (e : Int) : Nat := if e ≥ -800 then m * 2 ^ (e + 800).toNat else m / 2 ^ (-(e + 800)).toNat

/-- 2^x for x = ±m × 2^e ≠ 0: (magnitude, exponent, sticky). -/
def exp2Val (neg : Bool) (m : Nat) (e : Int) : Nat × Int × Bool :=
  if e + (Nat.log2 m : Nat) ≥ 12 then (1, if neg then -5000 else 5000, neg)
  else
    let x := fixOf m e
    let i := x / one_
    let f := x % one_
    if f = 0 then (1, if neg then -(i : Int) else i, false)
    else
      -- 2^(−x) = 2^(−i−1) × 2^(1−f)
      let (i, f) : Int × Nat := if neg then (-(i : Int) - 1, one_ - f) else (i, f)
      let (v, q) := coarse (expFix (f * ln2 / one_))
      (v, q + i, true)

/-- log2 of m × 2^e, m > 0: sign, magnitude, exponent, sticky. -/
def log2Val (m : Nat) (e : Int) : Bool × Nat × Int × Bool :=
  let n := Nat.log2 m
  let i : Int := e + (n : Nat)
  if m = 2 ^ n then (decide (i < 0), i.natAbs, 0, false)
  else
    -- y = m / 2^n in (1, 2); ln y = 2 atanh((y − 1) / (y + 1))
    let z := (m - 2 ^ n) * one_ / (m + 2 ^ n)
    let l := (2 * oddSeries false (z * z / one_) 260 0 z).toNat
    let v : Int := i * one_ + (l * one_ / ln2 : Nat)
    let (a, q) := coarse v.natAbs
    (decide (v < 0), a, q, true)

/-- sin and cos of the scaled 0 ≤ r < π/2. -/
def sinFix (r : Nat) : Nat := (powSeries true (r * r / one_) 110 1 r false).toNat
def cosFix (r : Nat) : Nat := (powSeries true (r * r / one_) 110 0 one_ false).toNat

/-- sin (or cos) of ±m × 2^e ≠ 0: sign, magnitude, exponent. -/
def trigVal (cos_ neg : Bool) (m : Nat) (e : Int) : Bool × Nat × Int :=
  let x := fixOf m e
  let n := x / halfPi
  let r := x % halfPi
  let k := if cos_ then (n + 1) % 4 else n % 4
  let v := if k % 2 = 0 then sinFix r else cosFix r
  let (a, q) := coarse v
  ((k ≥ 2) != (neg && !cos_), a, q)

/-- tanh of m × 2^e > 0. -/
def tanhVal (m : Nat) (e : Int) : Nat × Int :=
  if e + (Nat.log2 m : Nat) ≥ 9 then (2 ^ 640 - 1, -640) else
  let x := 2 * fixOf m e
  let y := x * one_ / ln2
  let i := y / one_
  let t := x - i * ln2
  let w := one_ * one_ / expFix t / 2 ^ i
  coarse (min ((one_ - w) * one_ / (one_ + w)) (one_ - 1))

/-! ## The SFU functions (R197) -/

inductive SfuFn | rcp | rsq | sqrt | exp2 | log2 | sin | cos | tanh
  deriving DecidableEq, Repr

/-- The result of an SFU function with its flags. -/
def Fmt.sfu (f : Fmt) (fn : SfuFn) (rm a : Nat) : Nat × Nat :=
  let r := fun (neg : Bool) (v : Nat × Int × Bool) => f.round rm neg v.1 v.2.1 v.2.2
  let one := f.ofFin 0 false 1 0
  let invalid := (f.nan, fInvalid)
  match f.value a with
  | .nan s => (f.nan, if s then fInvalid else 0)
  | .inf n => match fn with
    | .rcp => (f.zero n, 0)
    | .rsq => if n then invalid else (f.zero false, 0)
    | .sqrt => if n then invalid else (f.inf false, 0)
    | .exp2 => (if n then f.zero false else f.inf false, 0)
    | .log2 => if n then invalid else (f.inf false, 0)
    | .sin => invalid
    | .cos => invalid
    | .tanh => f.ofFin 0 n 1 0
  | .fin n m e =>
    if m = 0 then match fn with
      | .rcp => (f.inf n, fDivZero)
      | .rsq => (f.inf n, fDivZero)
      | .sqrt => (f.zero n, 0)
      | .exp2 => one
      | .log2 => (f.inf true, fDivZero)
      | .sin => (f.zero n, 0)
      | .cos => one
      | .tanh => (f.zero n, 0)
    else match fn with
      | .rcp => r n (rcpVal m e)
      | .rsq => if n then invalid else r false (rsqVal m e)
      | .sqrt => if n then invalid else r false (sqrtVal m e)
      | .exp2 => r false (exp2Val n m e)
      | .log2 => if n then invalid else
        let (g, v, q, st) := log2Val m e
        if v = 0 && !st then (f.zero false, 0) else r g (v, q, st)
      | .sin => let (g, v, q) := trigVal false n m e; r g (v, q, true)
      | .cos => let (g, v, q) := trigVal true n m e; r g (v, q, true)
      | .tanh => let (v, q) := tanhVal m e; r n (v, q, true)

end Sys2Proof.Machine
end

