-- ==== Sys2Proof/Machine/Access.lean ====
section
/-! DEFINITION. Where a piece of state is: cores, blocks, streams, registers, partitions. Every read and write of a
register goes through here. -/

namespace Sys2Proof.Machine

/-! ## Units -/

def coreOf (s : State) (c : Nat) : Core := Table.getD s.cores c {}
def setCore (s : State) (c : Nat) (k : Core) : State := { s with cores := Table.set s.cores c k }
def modCore (s : State) (c : Nat) (f : Core → Core) : State := setCore s c (f (coreOf s c))
def sysOf (s : State) (n : Nat) : SysCore := Table.getD s.sys n {}
def modSys (s : State) (n : Nat) (f : SysCore → SysCore) : State := { s with sys := Table.set s.sys n (f (sysOf s n)) }
def blockOf (s : State) (c b : Nat) : Option Block := Table.get? (coreOf s c).slots b
/-- The core a place is on, if any. -/
def coreOfCtx : CtxId → Option Nat
  | .blk c _ => some c
  | .sup c => some c
  | .sys _ => none
/-- The block of a slot, if there is one, changed by `f`. -/
def modBlock (s : State) (c b : Nat) (f : Block → Block) : State :=
  modCore s c fun k => { k with slots := Table.modify k.slots b f }
def dropBlock (s : State) (c b : Nat) : State := modCore s c fun k => { k with slots := Table.erase k.slots b }

/-- The control context of a place: a vector or spatial block's stream, supervisor code, a system core. -/
def ctlOf (s : State) : CtxId → Option Ctl
  | .blk c b => (blockOf s c b).map (·.exec.ctl)
  | .sup c => some (coreOf s c).sup
  | .sys n => some (sysOf s n).ctl
def modCtl (s : State) (id : CtxId) (f : Ctl → Ctl) : State :=
  match id with
  | .blk c b => modBlock s c b fun k => { k with exec := { k.exec with ctl := f k.exec.ctl } }
  | .sup c => modCore s c fun k => { k with sup := f k.sup }
  | .sys n => modSys s n fun k => { k with ctl := f k.ctl }

def threadOf (b : Block) (t : Nat) : Thread := (b.exec.threads[t]?).getD {}
def Block.modExec (b : Block) (f : Exec → Exec) : Block := { b with exec := f b.exec }
def Block.modMem (b : Block) (f : BlkMem → BlkMem) : Block := { b with mem := f b.mem }
def Block.modRegs (b : Block) (f : BlkRegs → BlkRegs) : Block := { b with regs := f b.regs }
def Block.modStage (b : Block) (f : Stage → Stage) : Block := { b with stage := f b.stage }
def Block.modCtl (b : Block) (f : Ctl → Ctl) : Block := { b with exec := { b.exec with ctl := f b.exec.ctl } }
/-- The threads of a list, changed by `f`. -/
def Block.modThreads (b : Block) (ts : List Nat) (f : Nat → Thread → Thread) : Block :=
  b.modExec fun e => { e with threads := e.threads.mapIdx fun i t => if ts.contains i then f i t else t }

def gangsOf (n : Nat) : Nat := ceilDiv n 64
def Block.nthr (b : Block) : Nat := b.regs.nthr.toNat
def Block.liveThreads (b : Block) : List Nat :=
  (List.range b.exec.threads.length).filter fun t => (threadOf b t).live

/-! ## The package (R20, R21, R278) -/

def dieOfCore (c : Nat) : Nat := c / 48
def columnOfCore (c : Nat) : Nat := c / 6
def posOfCore (c : Nat) : Nat := c % 6
/-- LOCID of a core (R20). -/
def locidOfCore (c : Nat) : Nat := c / 48 * 1024 + c / 6 % 8 * 128 + c % 6 * 16
/-- LOCID of a system core (R20). -/
def locidOfSys (n : Nat) : Nat := 2 ^ 31 + n % 8

def partOf (s : State) (p : Nat) : Option Partition := Table.get? s.iod.parts p
def modIod (s : State) (f : Iod → Iod) : State := { s with iod := f s.iod }
def modPart (s : State) (p : Nat) (f : Partition → Partition) : State :=
  modIod s fun i => { i with parts := Table.modify i.parts p f }
def partxOf (s : State) (p : Nat) : PartX := Table.getD s.iod.partx p {}
def modPartx (s : State) (p : Nat) (f : PartX → PartX) : State :=
  modIod s fun i => { i with partx := Table.set i.partx p (f (partxOf s p)) }
def funcOf (s : State) (f : Nat) : Func := Table.getD s.iod.funcs f {}
def modFunc (s : State) (f : Nat) (g : Func → Func) : State :=
  modIod s fun i => { i with funcs := Table.set i.funcs f (g (funcOf s f)) }
def columnOf (s : State) (n : Nat) : Column := Table.getD s.iod.columns n {}
def modColumn (s : State) (n : Nat) (f : Column → Column) : State :=
  modIod s fun i => { i with columns := Table.set i.columns n (f (columnOf s n)) }
def launchOf (s : State) (l : Nat) : Option Launch := Table.get? s.launches l
def modLaunch (s : State) (l : Nat) (f : Launch → Launch) : State :=
  { s with launches := Table.modify s.launches l f }
def emit (s : State) (o : Out) : State := { s with outbox := s.outbox ++ [o] }
def Store.modAdd {w : Nat} (m : Store w) (a n : Nat) : Store w := Store.set m a (Store.get m a + BitVec.ofNat w n)

/-- The partition that owns a column (R448). -/
def ownerOf (s : State) (col : Nat) : Option Nat :=
  (s.iod.parts.find? fun e => e.2.first ≤ col && col < e.2.first + e.2.count).map (·.1)
/-- The partition that runs work on a column: its borrower while lent, else its owner (R450, R493). -/
def holderOf (s : State) (col : Nat) : Option Nat :=
  match (columnOf s col).lentTo with
  | some p => some p
  | none => ownerOf s col

/-- The object a block runs, its version, its region (R60). -/
def objOf (s : State) (b : Block) : Option KObj := s.objects[b.obj]?
def Model.code : Model → Nat
  | .threaded => 1
  | .vector => 2
  | .spatial => 3
def Model.ofCode : Nat → Model
  | 2 => .vector
  | 3 => .spatial
  | _ => .threaded
def KObj.vsec (o : KObj) (m : Model) : Option VSec := ((o.vsecs[m.code - 1]?).getD none)
def KObj.region (o : KObj) (k : Nat) : Region := (o.regions[k]?).getD {}
def regionOf (s : State) (b : Block) : Region :=
  match objOf s b with
  | some o => o.region b.region
  | none => {}
def isSealed (s : State) (b : Block) : Bool := (regionOf s b).sealed
/-- The site id of the instruction at an address, from the running version's site table; 0: no site (R59). -/
def siteOf (s : State) (b : Block) (pc : Nat) : Nat :=
  match (objOf s b).bind (·.vsec b.exec.model) with
  | some v => ((v.sites.find? fun e => e.1 == pc).map (·.2)).getD 0
  | none => 0
/-- Whether an address lies in the running version's section (R63). -/
def inSection (s : State) (b : Block) (pc : Nat) : Bool :=
  match (objOf s b).bind (·.vsec b.exec.model) with
  | some v => v.code ≤ pc && pc < v.code + v.codeBytes
  | none => false

/-! ## Registers (R97, R116 to R119, R123) -/

/-- Marks or clears keys of a poison list. -/
def mark (l : List Nat) (k : Nat) (on : Bool) : List Nat :=
  let r := l.filter (· != k)
  if on then k :: r else r

/-- Key of gN of thread t, and of element e of vN. -/
def gKey (t n : Nat) : Nat := t * 64 + n
def vKey (n e : Nat) : Nat := n * 256 + e

def BlkMem.setRow (m : BlkMem) (k : Nat) (v : W32) (bad : Bool) : BlkMem :=
  { m with rows := Store.set m.rows k v, rowPoison := mark m.rowPoison k bad }
/-- gN of thread t; registers beyond the budget hold nothing (R118). -/
def BlkMem.g (m : BlkMem) (t n : Nat) : W32 := Store.get m.rows (gKey t n)
/-- dN is the pair g(2N):g(2N+1), low half first (R117). -/
def BlkMem.d (m : BlkMem) (t n : Nat) : W64 := m.g t (2 * n + 1) ++ m.g t (2 * n)
def BlkMem.v (m : BlkMem) (n e : Nat) : W32 := Store.get m.rows (vKey n e)
/-- Bit t of pN; p0 reads as true (R109). -/
def BlkMem.p (m : BlkMem) (n t : Nat) : Bool := n == 0 || (Store.get m.preds n).getLsbD t
/-- A write of bit t of pN; p0 is not written (R97). -/
def BlkMem.setP (m : BlkMem) (n t : Nat) (b : Bool) : BlkMem :=
  if n = 0 then m else
    let x := Store.get m.preds n
    { m with preds := Store.set m.preds n (if b then x ||| (1#2048 <<< t) else x &&& ~~~(1#2048 <<< t)) }
def Ctl.s (c : Ctl) (n : Nat) : W64 := Store.get c.sregs n
def Ctl.setS (c : Ctl) (n : Nat) (v : W64) (bad : Bool) : Ctl :=
  { c with sregs := Store.set c.sregs n v, spoison := mark c.spoison n bad }

/-- A fresh number for something in flight. -/
def fresh (s : State) : Nat × State := (s.nextId, { s with nextId := s.nextId + 1 })
/-- The next free 32-bit value (DESIGN CHOICE, safe: notes/assumptions/3.md). -/
def freeWord (s : State) : W32 × State := (Config.freeWord s.freeCount, { s with freeCount := s.freeCount + 1 })
def freeDouble (s : State) : W64 × State := (Config.freeDouble s.freeCount, { s with freeCount := s.freeCount + 1 })

/-- The number of the second-level TLB a place uses: its die's, or the IOD's for a system core. -/
def dieOf : CtxId → Nat
  | .blk c _ => dieOfCore c
  | .sup c => dieOfCore c
  | .sys _ => 4

def TlbEntry.covers (e : TlbEntry) (va : Nat) : Bool := e.base ≤ va && va < e.base + e.size

/-- The TLB entries that a place's accesses are translated by, its own TLB's before its die's (R381). -/
def tlbsOf (s : State) (id : CtxId) : List TlbEntry :=
  (((coreOfCtx id).map fun c => (coreOf s c).tlb).getD []) ++ Table.getD s.dieTlb (dieOf id) []
/-- Bytes of the page that an access of a place is translated in. -/
def pageSize (s : State) (id : CtxId) (asid : W16) (part va : Nat) : Nat :=
  (((tlbsOf s id).find? fun e => e.asid == asid && e.part == part && e.covers va).map (·.size)).getD 4096

/-- The place that stands for the device's own agents on the path: they are no stream. -/
def deviceCtx : CtxId := .sys 8

/-- An access joins the path (R324). -/
def pushPath (s : State) (id : CtxId) (who : Nat) (asid : W16) (part pa size va : Nat) (kind : PathKind)
    (release : Bool) (scope : Nat) (na : Bool := false) (acq : Bool := false) (hi : Option Nat := none) (page : Option Nat := none) : State :=
  let (n, s) := fresh s
  { s with path := s.path ++ [{ id := n, ctx := id, who, core := (coreOfCtx id), asid, part, acct := none, pa, size, va, kind, release, scope, na, acq, hi,
                                 page := page.getD (pageSize s id asid part va) }] }

/-! ## Counting (R404, R407, R409, R410) -/

/-- Reset values of the energy weights (R410). -/
def ewtReset : List Nat := [10240, 5120, 128, 384, 1024, 13, 31, 102, 7680, 15360, 6144, 10240, 512, 512]
def ewtOf (s : State) (i : Nat) : Nat := ((Table.get? s.iod.ewt i).map (·.toNat)).getD ((ewtReset[i]?).getD 0)

/-- A charge to a counter of a block's account and its weighted energy (R407, R410). -/
def chargeBlock (s : State) (c b ctr n units : Nat) : State :=
  modBlock s c b fun k => { k with charges := { k.charges with
    partials := Store.modAdd k.charges.partials ctr n,
    energy := k.charges.energy + BitVec.ofNat 64 units } }
/-- Weighted energy alone. -/
def energyBlock (s : State) (c b entry n : Nat) : State :=
  modBlock s c b fun k => { k with charges := { k.charges with energy := k.charges.energy + BitVec.ofNat 64 (n * ewtOf s entry) } }
def chargeAcct (s : State) (acct ctr n : Nat) : State :=
  modIod s fun i => { i with counters := Store.modAdd i.counters (acct * 16 + ctr) n }
/-- A charge to whoever caused an access: a block, or nobody (R407). -/
def charge (s : State) (id : CtxId) (ctr n units : Nat) : State :=
  match id with
  | .blk c b => chargeBlock s c b ctr n units
  | _ => s
/-- Flume meter `i` of a block, saturating at 2^32 - 1 (R409). -/
def Block.meter (b : Block) (i : Nat) : Nat := (b.meters[i]?).getD 0
def Block.addMeter (b : Block) (i n : Nat) : Block :=
  { b with meters := b.meters.set i (min (b.meter i + n) (2 ^ 32 - 1)) }

/-! ## Events for system cores (R431, R458) -/

/-- INTPEND bit of an event kind (R458). -/
def eventBit (kind : Nat) : Nat := if kind ≤ 4 then kind + 7 else if kind = 5 then 11 else kind + 6

def sysCoresOf (s : State) (p : Nat) : List Nat :=
  (List.range 8).filter fun n => (sysOf s n).ctl.part == p

/-- Bits 8 to 13 of INTPEND follow the partition's queue. -/
def refreshEvents (s : State) (p : Nat) : State :=
  match partOf s p with
  | none => s
  | some q =>
    let on := (List.range 8).foldl (fun (m : W16) k =>
      if k ≥ 1 && q.events.any (fun e => e.kind == k) then m ||| (1#16 <<< eventBit k) else m) 0#16
    (sysCoresOf s p).foldl (fun s n => modSys s n fun y => { y with ctl := { y.ctl with intr :=
      { y.ctl.intr with intpend := y.ctl.intr.intpend &&& 0x00FF#16 ||| on } } }) s

/-- Queues an event record; when 4,096 are held it is dropped and counted (R458). -/
def postEvent (s : State) (p kind : Nat) (args : List Byte) : State :=
  match partOf s p with
  | none => s
  | some q =>
    if q.events.length ≥ 4096 then modPart s p fun q => { q with drops := min (q.drops + 1) 0xFFFF }
    else refreshEvents (modPart s p fun q => { q with
      events := q.events ++ [{ kind, drops := q.drops, seq := q.seq, args := (args ++ List.replicate 48 0#8).take 48 }],
      seq := q.seq + 1, drops := 0 }) p

/-- The MEMERR record (R458): source, physical address, slice, entry, CREC or EVTA, STATUS. -/
def memErrArgs (source pa slice entry crec status : Nat) : List Byte :=
  valBytes 8 pa ++ [BitVec.ofNat 8 source, BitVec.ofNat 8 (slice / 80)] ++ valBytes 2 (slice % 80) ++ valBytes 2 entry ++
    [0#8, 0#8] ++ valBytes 8 crec ++ [BitVec.ofNat 8 status]

end Sys2Proof.Machine
end

