-- ==== Sys2Proof/Machine/Stream.lean ====
section
/-! DEFINITION. How a stream completes an instruction, waits and leaves its bundle (R48 to R51, R101, R102, R104). The
PC of each thread is its own: a member of a bundle whose PC is past the bundle's has completed the instruction and
waits for the others (R51). -/

namespace Sys2Proof.Machine

/-- Captured operands stay with the instruction they were read for while a handler runs (R104). -/
def Thread.ownCapt (t : Thread) : Bool := !t.handler || t.pc == t.trapPc
def Ctl.ownCapt (c : Ctl) : Bool := !c.handler || c.pc == c.trapPc || c.pc == c.intr.intpc

/-- The chain after an instruction issues with this entry (R101, R102). -/
def shiftLatches (old : List Latch) (transparent : Bool) (entry : Latch) : List Latch :=
  if transparent then (entry :: old).take 8 else [entry]

def Thread.complete (t : Thread) (transparent : Bool) (entry : Latch) (next : VAddr) : Thread :=
  { t with pc := next, wait := 0, wdog := 0, capt := if t.ownCapt then [] else t.capt,
           latches := shiftLatches t.latches transparent entry }

/-- Thread `t` of a block completes: its own chain shifts, its PC advances. -/
def Block.completeThread (b : Block) (t : Nat) (transparent : Bool) (entry : Latch) (next : VAddr) : Block :=
  b.modThreads [t] fun _ x => x.complete transparent entry next

/-- A control stream's latches are lost at the end of a line (R102). -/
def Ctl.complete (c : Ctl) (transparent : Bool) (entry : Latch) (next : VAddr) : Ctl :=
  let same := c.pc.toNat / 128 == next.toNat / 128
  { c with pc := next, wait := 0, capt := if c.ownCapt then [] else c.capt, line := if same then c.line else none,
           latches := if same then shiftLatches c.latches transparent entry else [] }

/-- Threads leave their bundles and are free from this cycle, their latches lost (R50); they enter a line anew. -/
def Block.leave (b : Block) (ts : List Nat) (cycle : Nat) : Block :=
  let b := b.modThreads ts fun _ t => { t with freeAt := cycle, latches := [], line := none }
  b.modExec fun e => { e with bundles := (e.bundles.map fun u =>
    { u with members := u.members.filter fun t => !ts.contains t }).filter fun u => !u.members.isEmpty }

/-- Threads leave a bundle keeping the line they stand in: going on within the line is no entry (R88). -/
def Block.leaveInLine (b : Block) (ts : List Nat) (line : Option (List W32)) (cycle : Nat) : Block :=
  (b.leave ts cycle).modThreads ts fun _ t => { t with line := line }

/-- A bundle moves on when every member has completed; at the end of a line its members become free (R50, R87). -/
def Block.settleBundle (b : Block) (id cycle : Nat) : Block :=
  match b.exec.bundles.find? (·.id == id) with
  | none => b
  | some u =>
    let pcs := u.members.map fun t => (threadOf b t).pc
    match pcs with
    | [] => b
    | p :: r =>
      if p == u.pc || !r.all (· == p) then b
      else if p.toNat / 128 == u.pc.toNat / 128 then
        b.modExec fun e => { e with bundles := e.bundles.map fun x => if x.id == id then { x with pc := p } else x }
      else b.leave u.members cycle

/-- Every bundle of the block moves on that can. -/
def Block.settleAll (b : Block) (cycle : Nat) : Block :=
  b.exec.bundles.foldl (fun b u => b.settleBundle u.id cycle) b

/-- Whether a thread is free (R48). -/
def Block.isFree (b : Block) (t : Nat) : Bool :=
  let x := threadOf b t
  x.live && x.wait == 0 && !b.exec.bundles.any (fun u => u.members.contains t)

/-- A stream of a block, thread or control stream, completes an instruction. -/
def Block.completeWho (b : Block) (who : Nat) (transparent : Bool) (entry : Latch) (next : VAddr) (cycle : Nat) : Block :=
  if b.exec.model == .threaded then (b.completeThread who transparent entry next).settleAll cycle
  else b.modCtl fun c => c.complete transparent entry next

/-- The wait kind of a stream (R478). -/
def Block.waitOf (b : Block) (who : Nat) : Nat :=
  if b.exec.model == .threaded then (threadOf b who).wait.toNat else b.exec.ctl.wait.toNat
def Block.pcOf (b : Block) (who : Nat) : VAddr :=
  if b.exec.model == .threaded then (threadOf b who).pc else b.exec.ctl.pc
/-- Sets the wait kind of streams that wait at their instruction. -/
def Block.setWait (b : Block) (ts : List Nat) (k : Nat) : Block :=
  if b.exec.model == .threaded then b.modThreads ts fun _ t => { t with wait := BitVec.ofNat 4 k }
  else b.modCtl fun c => { c with wait := BitVec.ofNat 4 k }
/-- Notes whether the issue of the instruction at which streams wait is counted (R79). -/
def Block.setBegun (b : Block) (ts : List Nat) (v : Bool) : Block :=
  if b.exec.model == .threaded then b.modThreads ts fun _ t => { t with begun := v }
  else b.modCtl fun c => { c with begun := v }
/-- Whether the issue of the instruction at which a stream stands is counted. -/
def Block.begunAt (b : Block) (who : Nat) : Bool :=
  b.waitOf who > 1 || b.waitOf who == 1 && if b.exec.model == .threaded then (threadOf b who).begun else b.exec.ctl.begun

/-- The streams of a block that can still issue. -/
def Block.streams (b : Block) : List Nat :=
  if b.exec.model == .threaded then b.liveThreads else if b.exec.ctl.done then [] else [0]

/-- A 32-bit or 64-bit latch entry. -/
def Latch.ofWord (v : W32) (bad : Bool := false) : Latch := { val := .w32 v, poison := if bad then [0] else [] }
def Latch.ofDouble (v : W64) (bad : Bool := false) : Latch := { val := .w64 v, poison := if bad then [0] else [] }

end Sys2Proof.Machine
end

