-- ==== Sys2Proof/Machine/Slice.lean ====
section
/-! DEFINITION. The home slices: homing (R278), the L2 tags and the Pond (R280 to R288, R396, R397), what a write that
performs does (R284, R289, R308, R402). The bytes every agent reads at a home slice are `State.mem`; tags and Pond
entries change no byte (R290) and are kept for the counts, the pins and the errors that show them.
Where the spec leaves a point open: notes/assumptions, entries 5, 25, 26. -/

namespace Sys2Proof.Machine

/-! ## Physical addresses (R278, R437) -/

def isPackage (pa : Nat) : Bool := pa < 0x60_0000_0000
def isHost (pa : Nat) : Bool := 0x1_0000_0000_0000 ≤ pa && pa < 0x2_0000_0000_0000
def isPeer (pa : Nat) : Bool := 0x8_0000_0000_0000 ≤ pa && pa < 0x10_0000_0000_0000
def columnOfPa (pa : Nat) : Nat := pa / 0x3_0000_0000
/-- (slice of the package, line within the channel) of a package address (R278). -/
def homeOf (pa : Nat) : Nat × Nat :=
  let n := columnOfPa pa
  let l := (pa - n * 0x3_0000_0000) / 128
  let q := (l ^^^ (l / 32) ^^^ (l / 1024)) % 32
  let cline := l / 32
  (n / 8 * 80 + 10 * (n % 8) + 5 * (q / 16) + cline % 5, cline)
def sliceOfLine (line : Nat) : Nat := (homeOf (line * 128)).1
/-- The set of a line in its slice (R280). -/
def setOfLine (line : Nat) : Nat := (homeOf (line * 128)).2 / 5 % 2048
def sliceOf (s : State) (n : Nat) : Slice := Table.getD s.slices n {}
def modSlice (s : State) (n : Nat) (f : Slice → Slice) : State := { s with slices := Table.set s.slices n (f (sliceOf s n)) }
def tagOf (s : State) (line : Nat) : Option Tag := Table.get? (sliceOf s (sliceOfLine line)).tags line
def modTag (s : State) (line : Nat) (f : Tag → Tag) : State :=
  modSlice s (sliceOfLine line) fun k => { k with tags := Table.modify k.tags line f }

/-- The byte that any agent's read at the home slice gives (R273, R289): the owning core's changed byte, else memory's. -/
def byteAt (s : State) (a : Nat) : Byte :=
  let fr := ((tagOf s (a / 128)).bind (·.own)).bind fun c => (coreOf s c).l1.find? fun f => f.line == a / 128 && f.state != .clean
  match fr with
  | some f => if f.dirty.contains (a % 128) then f.data.extractLsb' (8 * (a % 128)) 8 else Store.get s.mem a
  | none => Store.get s.mem a
def bytesAt (s : State) (a n : Nat) : List Byte := (upFrom a n).map (byteAt s)

/-- The 128 bytes of a line as one number, byte 0 lowest. -/
def lineData (s : State) (line : Nat) : Line := BitVec.ofNat 1024 (bytesVal (Store.bytes s.mem (line * 128) 128))
/-- Whether a line is poisoned as its home slice serves it: by its tag, else by the channel's marking (R279, R286). -/
def linePoisoned (s : State) (line : Nat) : Bool :=
  match tagOf s line with
  | some t => t.psn
  | none => s.memPoison.contains line

/-- No die keeps a copy of the line (R288). -/
def dropRdc (s : State) (line : Nat) : State :=
  { s with rdc := s.rdc.map fun e => (e.1, e.2.filter fun f => f.line != line) }

/-- The sharing domain of a line: its column's owner, or 32 + its share group (R281). -/
def domainOf (s : State) (line : Nat) : Nat :=
  match s.iod.groups.find? fun g => g.2.1.any fun r => r.1 ≤ line * 128 && line * 128 < r.1 + r.2 with
  | some g => 32 + g.1
  | none => (ownerOf s (columnOfPa (line * 128))).getD 0

/-! ## Pond (R282, R284, R396, R397) -/

/-- PondHash (R396). -/
def pondHash (d : Line) (dom : Nat) : W64 :=
  let h := (List.range 16).foldl (fun (h : W64) i =>
    ((h ^^^ d.extractLsb' (64 * i) 64) * 0xB5E92C478A13D60B#64).rotateLeft 27) (0x7A3C91E50D2B46F1#64 ^^^ BitVec.ofNat 64 dom)
  let h := h ^^^ (h >>> 29)
  let h := h * 0xE7F35A192D86C4B3#64
  h ^^^ (h >>> 29)

def bucketOf (h : W64) : Nat := h.toNat % 4096
def emptyBucket : List (Option Nat) := [none, none, none, none]

/-- The entry leaves the index (R397). -/
def Slice.unindex (k : Slice) (e : Nat) : Slice :=
  match Table.get? k.pond e with
  | none => k
  | some p =>
    let b := bucketOf p.hash
    match Table.get? k.index b with
    | none => k
    | some l => { k with index := Table.set k.index b (l.map fun x => if x == some e then none else x) }

/-- A fresh entry enters the lowest empty slot of its bucket, or replaces the slot whose entry has the lowest REFS, the
lowest slot on a tie (R397). -/
def Slice.enindex (k : Slice) (e : Nat) (h : W64) : Slice :=
  let b := bucketOf h
  let l := Table.getD k.index b emptyBucket
  let refs := fun (x : Option Nat) => match x with
    | some n => (((Table.get? k.pond n).map (·.refs)).getD 0) + 1
    | none => 0
  let low := l.foldl (fun m x => min m (refs x)) 1000000
  let i := (l.findIdx? fun x => refs x == low).getD 0
  { k with index := Table.set k.index b (l.set i (some e)) }

/-- An entry with no tag and no pin is free (R280). -/
def Slice.freeIf (k : Slice) (e : Nat) : Slice :=
  match Table.get? k.pond e with
  | some p => if p.refs == 0 && p.hold == 0 then { k.unindex e with pond := Table.erase k.pond e } else k
  | none => k

/-- The lowest entry number that is free; none when all 16,384 are used. -/
def Slice.freeEntry (k : Slice) : Option Nat :=
  let used := k.pond.map (·.1)
  (List.range (used.length + 1)).find? fun n => n < 16384 && !used.contains n

/-- Point(tag, e) (R282). -/
def Slice.point (k : Slice) (line : Nat) (e : Option Nat) : Slice :=
  match Table.get? k.tags line with
  | none => k
  | some t =>
    if t.ent == e then k else
    let k := match e with
      | some n => { k with pond := Table.modify k.pond n fun p => { p with refs := p.refs + 1 } }
      | none => k
    let k := { k with tags := Table.set k.tags line { t with ent := e } }
    match t.ent with
    | some o => ({ k with pond := Table.modify k.pond o fun p => { p with refs := p.refs - 1 } } : Slice).freeIf o
    | none => k

/-- The Pond entry that Place finds for data under a domain (R282). -/
def Slice.lookup (k : Slice) (d : Line) (dom : Nat) (h : W64) : Option Nat :=
  (Table.getD k.index (bucketOf h) emptyBucket).findSome? fun x => match x with
    | some e => match Table.get? k.pond e with
      | some p => if p.edom == dom && p.data == d && p.refs < 255 && !p.poisoned then some e else none
      | none => none
    | none => none

/-! ## Waiters of a line (R308, R399) -/

/-- The word of a woken waiter as it now is reaches its registers (R308, R399). CLEAN copies that would be older than the
read go: all of them for an acquire wider than .blk (R274), else that of the line (R323). -/
def wakeNow (s : State) (core : Nat) (m : Monitor) : State :=
  let bad := linePoisoned s m.line
  let v := bytesVal (Store.bytes s.mem m.pa (if m.wide then 8 else 4))
  let s := modCore s core fun k =>
    { k with monitors := k.monitors.filter fun x => x != m
             l1 := k.l1.filter fun f => f.state != .clean || !((m.order % 2 == 1 && m.scope ≥ 1) || f.line == m.line) }
  let entry := if m.wide then Latch.ofDouble (BitVec.ofNat 64 v) bad else Latch.ofWord (BitVec.ofNat 32 v) bad
  match m.owner with
  | .blk c b => modBlock s c b fun k =>
    if k.exec.model == .threaded then
      let k := if m.nwb then k else k.modMem fun x =>
        if m.wide then (x.setRow (gKey m.who (2 * m.dreg)) (BitVec.ofNat 32 v) bad).setRow (gKey m.who (2 * m.dreg + 1)) (BitVec.ofNat 32 (v / 2 ^ 32)) bad
        else x.setRow (gKey m.who m.dreg) (BitVec.ofNat 32 v) bad
      let k := k.modMem fun x => x.setP m.pd m.who false
      k.completeWho m.who false entry m.next s.cycle
    else
      let k := if m.nwb then k else k.modCtl fun c => c.setS m.dreg (BitVec.ofNat 64 v) bad
      let k := if m.pd == 0 then k else k.modMem fun x => { x with preds := Store.set x.preds m.pd 0#2048 }
      k.completeWho 0 false (Latch.ofDouble (BitVec.ofNat 64 v) bad) m.next s.cycle
  | id => modCtl s id fun c =>
    let c := if m.nwb then c else c.setS m.dreg (BitVec.ofNat 64 v) bad
    let c := if m.pd == 0 then c else { c with preds := Store.set c.preds m.pd 0#256 }
    c.complete false (Latch.ofDouble (BitVec.ofNat 64 v) bad) m.next

/-- A waiter wakes. One with remote-scope promotion first promotes (R328): it runs its WAITA again and finds itself woken. -/
def wakeOne (s : State) (core : Nat) (m : Monitor) : State :=
  if m.scope != 5 then wakeNow s core m else
  let s := modCore s core fun k => { k with monitors := k.monitors.map fun x => if x == m then { x with woken := true } else x }
  match m.owner with
  | .blk c b => modBlock s c b fun k => k.setWait [m.who] 1
  | id => modCtl s id fun c => { c with wait := 1 }

/-- Every waiter on the line wakes. -/
def wakeLine (s : State) (line : Nat) : State :=
  s.cores.foldl (fun s e => (e.2.monitors.filter fun m => m.line == line && !m.woken).foldl (fun s m => wakeOne s e.1 m) s) s

/-! ## Recall and eviction (R273, R285, R289) -/

/-- Bits [PFN] of an enabled VF's bitmap for a write to `pa`: the words to OR (R402). -/
def dirtyWords (s : State) (pa : Nat) : List (Nat × Nat) :=
  s.iod.funcs.filterMap fun (_, f) =>
    let i := pa / 65536 - f.dtpfn.toNat
    if f.dten && f.dtpfn.toNat ≤ pa / 65536 && i < f.dtcnt.toNat then
      some (f.dtbase.toNat + 8 * (i / 64), i % 64)
    else none

/-- Whether a recall of the line would write bytes back (R273). -/
def owesBytes (s : State) (line : Nat) (by_ : Option Nat) : Bool :=
  match (tagOf s line).bind (·.own) with
  | none => false
  | some c => by_ != some c && (coreOf s c).l1.any fun f => f.line == line && f.state != .clean && !f.dirty.isEmpty

/-- What a write-back makes of a line (R273, R284, R286): the changed bytes reach the home slice, the tag is written and
poisoned as the frame is; one that covers all 128 bytes clears the poison the line had. It is charged to the block that
held the line (R407). -/
def writeBack (s : State) (c line : Nat) (f : L1Frame) : State :=
  let s := { s with mem := f.dirty.foldl (fun m i => Store.set m (line * 128 + i) (f.data.extractLsb' (8 * i) 8)) s.mem }
  let s := modTag (dropRdc s line) line fun t => { t with
    dirty := true, set8 := true, shv := 0#4, writtenAt := s.cycle,
    psn := (t.psn && f.dirty.length < 128) || !f.poison.isEmpty }
  match f.owner with
  | some sl => chargeBlock s c sl 7 128 (ewtOf s 9)
  | none => s

/-- The owning core gives the line up, its changed bytes written back (R273). -/
def rawRecall (s : State) (line : Nat) (by_ : Option Nat) : State :=
  match (tagOf s line).bind (·.own) with
  | none => s
  | some c =>
    if by_ == some c then s else
    let fr := (coreOf s c).l1.find? fun f => f.line == line && f.state != .clean
    let s := modTag (modCore s c fun k => { k with l1 := k.l1.filter fun f => f.line != line }) line fun t => { t with own := none }
    match fr with
    | some f => if f.dirty.isEmpty then s else writeBack s c line f
    | none => s

/-- A changed line is written whole to its channel with its poison marking (R279, R286). -/
def toChannel (s : State) (line : Nat) : State :=
  match tagOf s line with
  | some t => if t.dirty then { s with memPoison := mark s.memPoison line t.psn, moved := s.moved + 1 } else s
  | none => s

/-- A write-back that no access has asked for performs: the ORs of the dirty bitmaps that track it go out (R402), the
line's waiters wake (R308). -/
def noteWritten (s : State) (line : Nat) : State :=
  wakeLine ((dirtyWords s (line * 128)).foldl (fun s (w, i) =>
    pushPath s deviceCtx 0 0 0 w 8 w (.atom 4 8 (2 ^ i) 0 true none []) false 0) s) line

/-- Eviction of a tag (R285): recall, RDC copies invalidated, REFS decremented; a dirty line goes to its channel. -/
def evictTag (s : State) (line : Nat) : State :=
  let t := rawRecall s line none
  let t := if owesBytes s line none then noteWritten t line else t
  let s := dropRdc (toChannel t line) line
  modSlice s (sliceOfLine line) fun k =>
    match Table.get? k.tags line with
    | none => k
    | some t =>
      let k := k.point line none
      let k := { k with tags := Table.erase k.tags line }
      match t.ent with
      | some e => k.freeIf e
      | none => k

/-- Unpinned lines of a slice, least recently used first. -/
def Slice.victims (k : Slice) (p : Nat → Bool) : List Nat :=
  (sortBy (fun (e : Nat × Tag) => e.2.used) (k.tags.filter fun e => e.2.pcnt == 0 && p e.1)).map (·.1)

/-- A free entry of the line's slice, evicting under R285 if none is free; none when the write must wait. -/
def takeEntry (s : State) (line : Nat) : Option (State × Nat) :=
  let n := sliceOfLine line
  match (sliceOf s n).freeEntry with
  | some e => some (s, e)
  | none =>
    let s := ((sliceOf s n).victims fun l => l != line).foldl (fun s l =>
      if (sliceOf s n).freeEntry.isSome then s else evictTag s l) s
    (sliceOf s n).freeEntry.map fun e => (s, e)

/-- The tag's entry holds the line's bytes alone again after a write (R284): in place when REFS is 1 and HOLD 0, else in
an entry of its own. None: it must wait for an entry. -/
def unshare (s : State) (line : Nat) (psn : Bool) : Option State :=
  let n := sliceOfLine line
  let ent := (tagOf s line).bind (·.ent)
  let alone := match ent.bind fun e => Table.get? (sliceOf s n).pond e with
    | some p => p.refs == 1 && p.hold == 0
    | none => false
  if alone then
    some (modSlice s n fun k => match ent with
      | some e =>
        let k := k.unindex e
        { k with pond := Table.modify k.pond e fun p => { p with data := lineData s line, poisoned := psn } }
      | none => k)
  else (takeEntry s line).map fun (s, e) => modSlice s n fun k =>
    let p : Pond := { data := lineData s line, refs := 0, hold := 0, hash := 0#64, edom := 0, poisoned := psn }
    ({ k with pond := Table.set k.pond e p } : Slice).point line (some e)

/-- A recall (R289): the owner's bytes are written back under R284. None: the write-back must wait for an entry (R285). -/
def recallLine (s : State) (line : Nat) (by_ : Option Nat) : Option State :=
  let t := rawRecall s line by_
  if owesBytes s line by_ then unshare t line (linePoisoned t line) else some t

/-- A package address whose line no agent but core `by_` can reach now: its slice has stopped serving (R286), or the
write-back that a recall would make must wait (R285, R289). -/
def unserved (s : State) (pa : Nat) (by_ : Option Nat := none) : Bool :=
  isPackage pa && ((sliceOf s (sliceOfLine (pa / 128))).stopped || (recallLine s (pa / 128) by_).isNone)

/-- Place(tag, data) at a fill or a settle (R282); the flag says that a shared entry was found. None: it must wait. -/
def placeLine (s : State) (line : Nat) : Option (State × Bool) :=
  match tagOf s line with
  | none => some (s, false)
  | some t =>
    let n := sliceOfLine line
    let d := lineData s line
    if d = 0 then some (modSlice s n fun k => k.point line none, false)
    else
      let h := pondHash d t.dom
      match if t.psn then none else (sliceOf s n).lookup d t.dom h with
      | some e => some (modSlice s n fun k => k.point line (some e), t.ent != some e)
      | none =>
        let own := match t.ent.bind fun e => Table.get? (sliceOf s n).pond e with
          | some p => p.refs == 1
          | none => false
        if own then
          some (modSlice s n fun k => match t.ent with
            | some e =>
              let k := { k with pond := Table.modify (k.unindex e).pond e fun p => { p with data := d, hash := h, edom := t.dom }, index := (k.unindex e).index }
              if t.psn then k else k.enindex e h
            | none => k, false)
        else (takeEntry s line).map fun (s, e) =>
          (modSlice s n fun k =>
            let k := { k with pond := Table.set k.pond e { data := d, refs := 0, hold := 0, hash := h, edom := t.dom, poisoned := t.psn } }
            let k := k.point line (some e)
            if t.psn then k else k.enindex e h, false)

/-- A fill that holds an uncorrectable word is reported (R279). -/
def channelError (s : State) (line : Nat) : State :=
  match ownerOf s (columnOfPa (line * 128)) with
  | some p => postEvent s p 2 (memErrArgs 1 (line * 128) (sliceOfLine line) 0 0 0)
  | none => s

/-- A line gets its tag: a fill from its channel (R282, R285). The second part says whether Place shared an entry, none
in it that the line was already held. None: the fill must wait, since all 12 ways of its set are pinned. -/
def fillLine (s : State) (line : Nat) : Option (State × Option Bool) :=
  match tagOf s line with
  | some _ => some (modTag s line fun t => { t with used := s.cycle }, none)
  | none =>
    let n := sliceOfLine line
    let same := fun l => setOfLine l == setOfLine line
    let full := fun (s : State) => decide (((sliceOf s n).tags.filter fun e => same e.1).length ≥ 12)
    let s := ((sliceOf s n).victims same).foldl (fun s v => if full s then evictTag s v else s) s
    if full s then none else
    let t : Tag := { dom := domainOf s line, psn := s.memPoison.contains line, used := s.cycle }
    let s := modSlice s n fun k => { k with tags := Table.set k.tags line t }
    (placeLine s line).map fun (s, shared) =>
      let s := { s with moved := s.moved + 1, shares := s.shares + if shared then 1 else 0 }
      (if t.psn then channelError s line else s, some shared)

/-! ## Who a channel's traffic is charged to (R407) -/

/-- A charge to a block while it has the account, else to the account (R407). -/
def chargeFill (s : State) (who : Option CtxId) (acct : Option Nat) (ctr n units : Nat) : State :=
  match who, acct with
  | some (.blk c b), some a =>
    if ((blockOf s c b).map fun k => k.regs.acct.toNat == a).getD false then chargeBlock s c b ctr n units else chargeAcct s a ctr n
  | _, some a => chargeAcct s a ctr n
  | _, none => s

/-- What `s` has added to `s0`'s channel traffic is charged, counters 8 and 12 (R407). -/
def chargeMoved (s0 s : State) (who : Option CtxId) (acct : Option Nat) : State :=
  let n := 128 * (s.moved - s0.moved)
  let s := if n = 0 then s else chargeFill s who acct 8 n (n * ewtOf s 10)
  if s.shares = s0.shares then s else chargeFill s who acct 12 (s.shares - s0.shares) 0

/-- The account that a place's accesses are charged to: a block's (R407). -/
def acctOf (s : State) (who : Option CtxId) : Option Nat :=
  match who with
  | some (.blk c b) => (blockOf s c b).map fun k => k.regs.acct.toNat
  | _ => none

/-- After an access of `who`: its channel traffic is charged, and the fills it asked for are laid to it. -/
def blame (s0 s : State) (who : Option CtxId) : State :=
  let acct := acctOf s0 who
  let s := chargeMoved s0 s who acct
  if s.fills.all (·.seen) then s else
  { s with fills := s.fills.map fun f => if f.seen then f else { f with seen := true, who, acct } }

/-! ## Reads and writes that perform at the home slice -/

/-- A write to part of one line performs at its home slice (R284, R286, R288, R289): the owner is recalled, RDC
copies invalidated, the entry un-shared, the bytes written. `na`: a line without a tag is written to its channel and
gets none (R299). None: it must wait for a tag or an entry. -/
def writeHome (s : State) (pa : Nat) (bs : List Byte) (bad : Bool) (by_ : Option Nat) (na : Bool := false) : Option State :=
  let line := pa / 128
  let psn := fun (s : State) => if bad then true else if bs.length == 128 then false else linePoisoned s line
  if (sliceOf s (sliceOfLine line)).stopped then none else
  (recallLine s line by_).bind fun s =>
  if na && (tagOf s line).isNone then
    some { s with mem := Store.setBytes s.mem pa bs, memPoison := mark s.memPoison line (psn s), moved := s.moved + 1 }
  else (fillLine s line).bind fun (s, _) =>
    let bad := psn s
    let s := dropRdc { s with mem := Store.setBytes s.mem pa bs } line
    (unshare s line bad).map fun s =>
      modTag s line fun t => { t with dirty := true, set8 := true, shv := 0#4, psn := bad, used := s.cycle, writtenAt := s.cycle }

/-- The dirty-bitmap ORs of a write (R402). None: one must wait, and the write with it. -/
def orDirty (s : State) (pa : Nat) : Option State :=
  (dirtyWords s pa).foldl (fun r (w, i) => r.bind fun s =>
    writeHome s w (valBytes 8 (bytesVal (bytesAt s w 8) ||| 2 ^ i)) false none) (some s)

/-- A recall as an access makes it: what is written back sets dirty bits and wakes the line's waiters. None: the
write-back must wait. -/
def recallOwner (s : State) (line : Nat) (by_ : Option Nat) : Option State :=
  if owesBytes s line by_ then ((recallLine s line by_).bind fun s => orDirty s (line * 128)).map fun s => wakeLine s line
  else recallLine s line by_

/-- A write that performs: `writeHome`, then the dirty bit (R402) and the waiters of the line (R308). None: it must wait
for a tag or an entry (R285). -/
def performWrite (s : State) (pa : Nat) (bs : List Byte) (bad : Bool) (by_ : Option Nat) (na : Bool := false) : Option State :=
  (((recallOwner s (pa / 128) by_).bind fun s => writeHome s pa bs bad by_ na).bind fun s => orDirty s pa).map fun s =>
    wakeLine s (pa / 128)

/-- Bytes split at line boundaries: (address, bytes). -/
def splitLines : Nat → Nat → List Byte → List (Nat × List Byte)
  | 0, _, _ => []
  | f + 1, pa, bs =>
    if bs.isEmpty then [] else
    let n := 128 - pa % 128
    (pa, bs.take n) :: splitLines f (pa + n) (bs.drop n)

/-- A device write within one line: it performs, or waits on the path for a tag or an entry (R285), behind the device's
earlier writes of the line. -/
def deviceStore (s : State) (pa : Nat) (bs : List Byte) (bad : Bool) : State :=
  let later := pushPath s deviceCtx 0 0 0 pa bs.length pa (.store bs bad) false 0
  if s.path.any fun p => p.ctx == deviceCtx && !p.sent && p.pa / 128 == pa / 128 then later
  else (performWrite s pa bs bad none).getD later

/-- A device write of any length, line by line. -/
def performWrites (s : State) (pa : Nat) (bs : List Byte) (bad : Bool) : State :=
  (splitLines (bs.length / 128 + 2) pa bs).foldl (fun s (a, l) => deviceStore s a l bad) s

/-- A read of part of a line at its home slice by an agent: the owner is recalled; a line without a tag is filled (R282),
but for an access that allocates nothing (`na`, R299). An agent reads only where `unserved` says nothing waits. -/
def readHome (s : State) (pa n : Nat) (by_ : Option Nat) (na : Bool := false) : State × List Byte × Bool :=
  let line := pa / 128
  let (s, bs) := match recallOwner s line by_ with
    | some s => (s, Store.bytes s.mem pa n)
    | none => (s, bytesAt s pa n)
  let s := match tagOf s line with
    | some _ => modTag s line fun t => { t with used := s.cycle }
    | none =>
      if na then { s with moved := s.moved + 1 }
      else if s.fills.any fun f => f.line == line then s else { s with fills := s.fills ++ [({ line } : LineFill)] }
  (s, bs, linePoisoned s line)

/-- A device read of any length within package memory: bytes, and whether one is poisoned. -/
def readHomes (s : State) (pa n : Nat) : State × List Byte × Bool :=
  (splitLines (n / 128 + 2) pa (List.replicate n 0#8)).foldl (fun (s, bs, bad) (a, l) =>
    let (s, b, p) := readHome s a l.length none
    (s, bs ++ b, bad || p)) (s, [], false)

/-- A pin of a line through its tag (R283): the entry held, none for the zero entry. None: the fill must wait (R285). -/
def pinLine (s : State) (line : Nat) : Option (State × Option Nat) :=
  if (sliceOf s (sliceOfLine line)).stopped then none else
  match (recallOwner s line none).bind fun s => fillLine s line with
  | none => none
  | some (s, _) =>
    let e := (tagOf s line).bind (·.ent)
    let s := modTag s line fun t => { t with pcnt := t.pcnt + 1 }
    let s := modSlice s (sliceOfLine line) fun k => match e with
      | some e => { k with pond := Table.modify k.pond e fun p => { p with hold := p.hold + 1 } }
      | none => k
    some (s, e)

/-- A release of a pin (R283). -/
def unpinLine (s : State) (line : Nat) (e : Option Nat) : State :=
  let s := modTag s line fun t => { t with pcnt := t.pcnt - 1 }
  modSlice s (sliceOfLine line) fun k => match e with
    | some e => ({ k with pond := Table.modify k.pond e fun p => { p with hold := p.hold - 1 } } : Slice).freeIf e
    | none => k

/-- A tile slot's pins are released (R216, R283). -/
def releasePins (s : State) (core k : Nat) : State :=
  let t := Table.getD (coreOf s core).tiles k {}
  let s := t.pins.foldl (fun s p => unpinLine s p.1 p.2) s
  modCore s core fun c => { c with tiles := Table.set c.tiles k { t with pins := [] } }

end Sys2Proof.Machine
end

