-- ==== Sys2Proof/Machine/Mem.lean ====
section
/-! DEFINITION. Translation (R382 to R387), the line caches (R270 to R276), the store path (R324), staged records (R64,
R65, R350). Access kinds: 0 read, 1 write, 2 atomic, 3 fetch (R385). Walk statuses: 1 NOMAP, 2 PERM, 3 BAD, 4 ABSENT
(R419); 6 stands for a poisoned table entry, which raises MEMORY_ERROR.
Where the spec leaves a point open: notes/assumptions, entries 5, 6, 55, 68. -/

namespace Sys2Proof.Machine

/-! ## Translation -/

inductive Tr
  | ok (pa : Nat)
  | bad (wst : Nat)
  | miss
  deriving DecidableEq, Repr

/-- Rights of a TLB entry for an access kind; a write needs an entry that a write filled (R386). -/
def TlbEntry.try_ (e : TlbEntry) (va kind : Nat) : Tr :=
  let need := match kind with
    | 0 => e.rd
    | 1 => e.wr
    | 2 => e.rd && e.wr
    | _ => e.ex
  if !need then .bad 2
  else if (kind == 1 || kind == 2) && !e.dirty then .miss
  else .ok (e.frame + (va - e.base))

/-- A TLB lookup, or what a walk that failed for this access said. -/
def lookupTlb (s : State) (id : CtxId) (asid : W16) (part va kind : Nat) : Tr :=
  match (tlbsOf s id).find? fun e => e.asid == asid && e.part == part && e.covers va with
  | some e => e.try_ va kind
  | none => .miss

/-- Translation for a stream's access: the TLBs, then a failed walk of its own (R385). -/
def translate (s : State) (id : CtxId) (asid : W16) (part va kind : Nat) : Tr :=
  match lookupTlb s id asid part va kind with
  | .miss =>
    match s.walks.find? fun w => w.ctx == id && w.asid == asid && w.va / 4096 == va / 4096 && w.kind == kind && w.failed.isSome with
    | some w => .bad (w.failed.getD 0)
    | none => .miss
  | r => r

/-- Asks for a walk, unless the same one is under way or the die has its 256 walks in flight (R381): who needs one asks
again. -/
def askWalk (s : State) (id : CtxId) (who : Nat) (asid : W16) (part va kind : Nat) (crec : Option Nat := none) : State :=
  if s.walks.any fun w => w.ctx == id && w.asid == asid && w.va / 4096 == va / 4096 && w.kind == kind && w.failed.isNone && w.crec == crec then s else
  if (s.walks.filter fun w => w.failed.isNone && !w.parked && dieOf w.ctx == dieOf id).length ≥ 256 then s else
  let (n, s) := fresh s
  { s with walks := s.walks ++ [{ id := n, ctx := id, who, asid, part, va, kind, crec }] }

/-- Failed walks of a place are forgotten once their trap is taken. -/
def forgetWalks (s : State) (id : CtxId) : State :=
  { s with walks := s.walks.filter fun w => !(w.ctx == id && w.failed.isSome) }

/-- What a walk gives (R385): a TLB entry; or a status, with the size of the region an absent entry would map. -/
inductive WalkRes
  | ok (e : TlbEntry) (entryPa : Nat)
  | bad (wst : Nat) (size : Nat)
  deriving DecidableEq, Repr

/-- Bytes one entry at level L maps (R388). -/
def levelSize (l : Nat) : Nat := 4096 * 512 ^ (l - 1)

/-- An aligned 8-byte entry read at its home slice; none outside package memory. -/
def readEntry (s : State) (pa : Nat) : Option (Nat × Bool) :=
  if isPackage pa then some (bytesVal (bytesAt s pa 8), linePoisoned s (pa / 128)) else none

/-- ContGroupOk (R385): the 16 aligned entries of a 64 KiB page. -/
def contGroupOk (s : State) (pa : Nat) : Bool :=
  let base := pa / 128 * 128
  let e := fun i => bytesVal (bytesAt s (base + 8 * i) 8)
  let p0 := bits (e 0) 51 12
  p0 % 16 == 0 && (List.range 16).all fun i =>
    bit (e i) 0 && bit (e i) 7 && bits (e i) 4 1 == bits (e 0) 4 1 && bits (e i) 63 52 == 0 && bits (e i) 51 12 == p0 + i

/-- The walk from level `l` (R385). -/
def walkFrom (s : State) (asid : W16) (part va kind : Nat) : Nat → Nat → WalkRes
  | 0, _ => .bad 3 4096
  | l + 1, t =>
    let lev := l + 1
    let pa := t * 4096 + 8 * (va / 2 ^ (12 + 9 * l) % 512)
    match readEntry s pa with
    | none => .bad 3 4096
    | some (_, true) => .bad 6 4096
    | some (p, false) =>
      if !bit p 0 then .bad (if bit p 8 then 4 else 1) (levelSize lev) else
      let leaf := bit p 4
      let pfn := bits p 51 12
      let zero := bits p 63 52 == 0 && (leaf || bits p 8 1 == 0)
      let rule := if lev == 1 then leaf else if lev ≥ 4 then !leaf
        else !leaf || (!bit p 7 && pfn % 512 ^ l == 0)
      if !zero || !rule then .bad 3 4096 else
      if !leaf then walkFrom s asid part va kind l pfn else
      let cont := lev == 1 && bit p 7
      if cont && !contGroupOk s pa then .bad 3 4096 else
      let rd := bit p 1
      let wr := bit p 2
      let ex := bit p 3
      let need := match kind with
        | 0 => rd
        | 1 => wr
        | 2 => rd && wr
        | _ => ex
      if !need then .bad 2 4096 else
      let size := if cont then 65536 else levelSize lev
      let frame := pfn * 4096 - (if cont then (va / 4096 % 16) * 4096 else 0)
      let at_ := frame + va % size
      if !(isPackage at_ || isHost at_ || isPeer at_) then .bad 3 4096
      else .ok { asid, part, base := va - va % size, size, frame, rd, wr, ex, dirty := kind == 1 || kind == 2 } pa

/-- Walk(asid, VA, kind) (R382, R385). -/
def walk (s : State) (asid : W16) (part va kind : Nat) : WalkRes :=
  let a := s.iod.asidtb.toNat + 16 * asid.toNat
  match readEntry s a, readEntry s (a + 8) with
  | some (e, p), some (w, _) =>
    if p then .bad 6 4096
    else if !bit e 0 || bits w 15 0 != part then .bad 1 4096
    else if bits e 63 52 != 0 || bits e 11 1 != 0 || bits w 63 16 != 0 then .bad 3 4096
    else walkFrom s asid part va kind 5 (bits e 51 12)
  | _, _ => .bad 1 4096

/-- SetAD: an OR at the entry's home slice (R386). None: it must wait, and the access with it (R285). -/
def setAD (s : State) (pa : Nat) (dirty : Bool) : Option State :=
  let old := bytesVal (bytesAt s pa 8)
  performWrite s pa (valBytes 8 (old ||| (if dirty then 0x60 else 0x20))) false none

/-- Installs a translation in the place's TLBs: 64 entries of a core, 4,096 of a die, 16,384 ASIDs of a die (R381, R387). -/
def installTlb (s : State) (id : CtxId) (e : TlbEntry) : State :=
  let put := fun (n : Nat) (l : List TlbEntry) => (e :: l.filter fun x => !(x.asid == e.asid && x.part == e.part && x.base == e.base && x.size == e.size)).take n
  let s := match (coreOfCtx id) with
    | some c => modCore s c fun k => { k with tlb := put 64 k.tlb }
    | none => s
  let d := dieOf id
  let order := e.asid.toNat :: (Table.getD s.dieAsids d []).filter (· != e.asid.toNat)
  let l := put 4096 (Table.getD s.dieTlb d [])
  let l := l.filter fun x => (order.take 16384).contains x.asid.toNat
  { s with dieTlb := Table.set s.dieTlb d l, dieAsids := Table.set s.dieAsids d (order.take 16384) }

/-- A walk by a device agent at once: translation with A and D set, or its status (R385, R386); status 7 that the setting
must wait. -/
def walkNow (s : State) (id : CtxId) (asid : W16) (part va kind : Nat) : State × Except (Nat × Nat) Nat :=
  match walk s asid part va kind with
  | .ok e pa => match setAD s pa (kind == 1 || kind == 2) with
    | some s => (installTlb s id e, .ok (e.frame + (va - e.base)))
    | none => (s, .error (7, 0))
  | .bad w n => (s, .error (w, n))

/-! ## The line caches -/

def framesOf (s : State) : CtxId → List L1Frame
  | .blk c _ => (coreOf s c).l1
  | .sup c => (coreOf s c).l1
  | .sys n => (sysOf s n).dcache
def setFrames (s : State) (id : CtxId) (l : List L1Frame) : State :=
  match id with
  | .blk c _ => modCore s c fun k => { k with l1 := l }
  | .sup c => modCore s c fun k => { k with l1 := l }
  | .sys n => modSys s n fun k => { k with dcache := l }
def frameOf (s : State) (id : CtxId) (line : Nat) : Option L1Frame := (framesOf s id).find? fun f => f.line == line
def modFrame (s : State) (id : CtxId) (line : Nat) (f : L1Frame → L1Frame) : State :=
  setFrames s id ((framesOf s id).map fun x => if x.line == line then f x else x)

/-- Every CLEAN line of the core's cache, or of both of a system core's, becomes INVALID (R274, R276). -/
def dropClean (s : State) (id : CtxId) : State :=
  let s := setFrames s id ((framesOf s id).filter fun f => f.state != .clean)
  match id with
  | .sys n => modSys s n fun y => { y with icache := [] }
  | _ => s

/-- A CLEAN copy of a line goes: the stream has read the line where it is newer (R323). -/
def dropCopy (s : State) (id : CtxId) (line : Nat) : State :=
  setFrames s id ((framesOf s id).filter fun f => f.state != .clean || f.line != line)

/-- Lines of the active stream windows of a core, in ways of every set (R270). -/
def streamWays (b : Block) (core : Nat) : Nat :=
  let lines := b.fab.ports.foldl (fun n e =>
    if e.1 / 16 == posOfCore core then n + ((e.2.active.map (·.win)).getD 0) else n) 0
  min 8 (ceilDiv lines 128)
/-- Ways of a set the line cache holds (R270). -/
def lineWays (s : State) (core : Nat) : Nat :=
  let k := coreOf s core
  let windows := (k.slots.filter fun e => e.2.stage.hasWindow).length
  let streams := ((k.fabricOf.bind fun h => blockOf s h.1 h.2).map fun b => streamWays b core).getD 0
  max 4 (16 - 4 * windows - streams)

/-- A frame leaves the cache: a changed OWNED or PRIV line is written back (R273). None: the write-back must wait. -/
def evictFrame (s : State) (id : CtxId) (f : L1Frame) : Option State :=
  if f.state == .clean then some (setFrames s id ((framesOf s id).filter fun x => x.line != f.line))
  else recallOwner s f.line none

/-- The frames of a set in the order they are evicted: marked .st first, then least recently used (R272). -/
def victimOrder (l : List L1Frame) : List L1Frame :=
  sortBy (fun (f : L1Frame) => f.used + (if f.stream then 0 else 2 ^ 64)) l

/-- A set of the line cache keeps at most `ways` frames besides that of `line` (R270, R272). None: a write-back must wait. -/
def trimSet (s : State) (id : CtxId) (set line ways : Nat) : Option State :=
  let same := (framesOf s id).filter fun f => f.line % 128 == set && f.line != line
  ((victimOrder same).take (same.length - ways)).foldl (fun r f => r.bind fun s => evictFrame s id f) (some s)

def waysOf (s : State) (id : CtxId) : Nat := ((coreOfCtx id).map (lineWays s)).getD 4

/-- A frame enters the cache, evicting from its set what it needs room for. None: a write-back must wait. -/
def insertFrame (s : State) (id : CtxId) (f : L1Frame) : Option State :=
  (trimSet s id (f.line % 128) f.line (waysOf s id - 1)).map fun s =>
    setFrames s id (f :: (framesOf s id).filter fun x => x.line != f.line)

/-- The line cache gives up ways to a window: what no longer fits is evicted first (R270). None: the taking must wait. -/
def giveWays (s : State) (core ways : Nat) : Option State :=
  let id := CtxId.sup core
  (((framesOf s id).map fun f => f.line % 128).eraseDups).foldl (fun r set => r.bind fun s => trimSet s id set (2 ^ 64) ways) (some s)

/-- Bytes of a frame. -/
def L1Frame.bytes (f : L1Frame) (ofs n : Nat) : List Byte := (upFrom ofs n).map fun i => f.data.extractLsb' (8 * i) 8
def lineSet (d : Line) (ofs : Nat) (b : Byte) : Line :=
  (d &&& ~~~((0xFF#1024) <<< (8 * ofs))) ||| ((b.setWidth 1024) <<< (8 * ofs))
def lineSets (d : Line) (ofs : Nat) : List Byte → Line
  | [] => d
  | b :: r => lineSets (lineSet d ofs b) (ofs + 1) r

/-- Bytes written into a frame of the cache; a CLEAN copy keeps no record of them (R272). -/
def L1Frame.write (f : L1Frame) (ofs : Nat) (bs : List Byte) (bad : Bool) (cycle : Nat) : L1Frame :=
  let is := upFrom ofs bs.length
  let clear := f.poison.filter fun i => !is.contains i
  { f with data := lineSets f.data ofs bs, used := cycle,
           dirty := if f.state == .clean then [] else f.dirty ++ is.filter fun i => !f.dirty.contains i,
           poison := if bad then clear ++ is else clear }

/-- The bytes a stream's own accesses still on the path will write over `bs` read at `pa` (R323, R325). -/
def overlay (s : State) (id : CtxId) (pa : Nat) (bs : List Byte) (bad : Bool) : List Byte × Bool :=
  s.path.foldl (fun (bs, bad) p =>
    match p.kind with
    | .store ws q =>
      if p.ctx == id && !p.sent && p.pa < pa + bs.length && pa < p.pa + ws.length then
        (bs.mapIdx fun i b => if p.pa ≤ pa + i && pa + i < p.pa + ws.length then (ws[pa + i - p.pa]?).getD b else b, bad || q)
      else (bs, bad)
    | _ => (bs, bad)) (bs, bad)

/-- Bytes at `pa` with what the core's stores still on the path will make of them. -/
def overlayCore (s : State) (id : CtxId) (pa : Nat) (bs : List Byte) (bad : Bool) : List Byte × Bool :=
  ((s.path.filter fun p => coreOfCtx p.ctx == coreOfCtx id).map (·.ctx)).eraseDups.foldl
    (fun (bs, bad) c => overlay s c pa bs bad) (bs, bad)

/-- A CLEAN copy of the core takes what has been written at the home slice by the core itself (R272, R323); a copy in the
instruction cache goes (R89, R276). -/
def freshen (s : State) (id : CtxId) (pa : Nat) (bs : List Byte) (bad : Bool) : State :=
  let s := match id with
    | .sys n => modSys s n fun y => { y with icache := y.icache.filter fun f => f.line != pa / 128 }
    | _ => s
  match frameOf s id (pa / 128) with
  | some f => if f.state != .clean then s else
      let (bs, bad) := overlayCore s id pa bs bad
      modFrame s id (pa / 128) fun f => f.write (pa % 128) bs bad s.cycle
  | none => s

/-! ## The remote-data caches (R288) -/

/-- A die's copy of a line. -/
def rdcOf (s : State) (die line : Nat) : Option RdcFrame := (Table.getD s.rdc die []).find? fun f => f.line == line

/-- A copy enters a die's cache, 16,384 sets of 16 ways, in place of the least recently used of a full set; the home slice
notes the die. The set of a line is the model's choice (DESIGN CHOICE, safe: notes/assumptions/55.md). -/
def rdcKeep (s : State) (die line : Nat) (data : Line) (poison : Bool) : State :=
  let l := (Table.getD s.rdc die []).filter fun f => f.line != line
  let same := l.filter fun f => f.line % 16384 == line % 16384
  let out := (sortBy (fun (f : RdcFrame) => f.used) same).take (same.length - 15)
  let l := l.filter fun f => !out.contains f
  modTag { s with rdc := Table.set s.rdc die ({ line, data, poison, used := s.cycle } :: l) } line fun t =>
    { t with shv := t.shv ||| (1#4 <<< die) }

/-- A line as a stream's miss gets it: from the die's copy of a line of another die, else from the home slice, of which
the die then keeps a copy (R288); the bytes asked for, the whole line, poison. `na` bypasses the copies. -/
def fetchLine (s : State) (id : CtxId) (pa n : Nat) (na : Bool) : State × List Byte × Line × Bool :=
  let line := pa / 128
  let die := dieOf id
  let remote := !na && (coreOfCtx id).isSome && die != sliceOfLine line / 80
  match (if remote then rdcOf s die line else none) with
  | some f =>
    let s := { s with rdc := Table.modify s.rdc die fun l => l.map fun x => if x.line == line then { x with used := s.cycle } else x }
    (s, (upFrom (pa % 128) n).map fun i => f.data.extractLsb' (8 * i) 8, f.data, f.poison)
  | none =>
    let (s, bs, bad) := readHome s pa n (coreOfCtx id) na
    let s := charge s id 6 128 (ewtOf s 9)
    (if remote then rdcKeep s die line (lineData s line) bad else s, bs, lineData s line, bad)

/-- A read of part of a line of package memory by a stream (R272, R274, R288): `home` bypasses CLEAN copies; the cache
policy `cp` (R100) is 0 to keep a copy, 1 to keep none, 2 to keep one marked first for eviction, 3 to bypass L2's tags and
the RDC too. -/
def loadLine (s : State) (id : CtxId) (pa n : Nat) (home : Bool) (cp : Nat) : State × List Byte × Bool :=
  let line := pa / 128
  let hit := (frameOf s id line).bind fun f => if f.state != .clean || !home then some f else none
  match hit with
  | some f =>
    let s := modFrame s id line fun f => { f with used := s.cycle }
    let (bs, bad) := overlay s id pa (f.bytes (pa % 128) n) ((upFrom (pa % 128) n).any f.poison.contains)
    (s, bs, bad)
  | none =>
    let (s, bs, data, bad) := fetchLine s id pa n (cp == 3)
    let f : L1Frame := { line, state := .clean, data, stream := cp == 2, used := s.cycle,
                         poison := if bad then List.range 128 else [] }
    let f := { f with data := lineSets 0#1024 0 (overlayCore s id (line * 128) (f.bytes 0 128) false).1 }
    let s := if cp == 0 || cp == 2 then (insertFrame s id f).getD s else dropCopy s id line
    let (bs, bad) := overlay s id pa bs bad
    (s, bs, bad)

/-- A code line as a stream enters it (R89): a system core's through its instruction cache, of 128 sets of 4 ways (R276;
DESIGN CHOICE, safe: notes/assumptions/55.md); a compute core's with no copy kept in its line cache. -/
def loadCode (s : State) (id : CtxId) (pa : Nat) : State × List Byte × Bool :=
  match id with
  | .sys n =>
    let line := pa / 128
    match (sysOf s n).icache.find? fun f => f.line == line with
    | some f =>
      let s := modSys s n fun y => { y with icache := y.icache.map fun x => if x.line == line then { x with used := s.cycle } else x }
      (s, overlay s id pa (f.bytes 0 128) (!f.poison.isEmpty))
    | none =>
      let (s, bs, bad) := readHome s pa 128 none
      let f : L1Frame := { line, state := .clean, data := lineData s line, poison := if bad then List.range 128 else [], used := s.cycle }
      let s := modSys s n fun y =>
        let same := y.icache.filter fun x => x.line % 128 == line % 128
        let out := (victimOrder same).take (same.length - 3)
        { y with icache := f :: y.icache.filter fun x => !out.contains x }
      (s, overlay s id pa bs bad)
  | _ => loadLine s id pa 128 false 1

/-- A read of any length, line by line. -/
def loadBytes (s : State) (id : CtxId) (pa n : Nat) (home : Bool) (cp : Nat) : State × List Byte × Bool :=
  (splitLines (n / 128 + 2) pa (List.replicate n 0#8)).foldl (fun (s, bs, bad) (a, l) =>
    let (s, b, p) := loadLine s id a l.length home cp
    (s, bs ++ b, bad || p)) (s, [], false)

/-- Whether the core has accesses to a line still on the path: they perform before the line is owned. -/
def pathBusy (s : State) (core line : Nat) : Bool :=
  s.path.any fun p => p.core == some core && p.pa / 128 == line && !p.sent

/-- The home slice gives a line to a core (R289): the owner recalled, the line filled, no RDC copy left, since an owned
line may be modified where the slice does not see it (R288; DEDUCED, safe: notes/assumptions/68.md). None: a fill or a
write-back must wait. -/
def grantLine (s : State) (core line : Nat) : Option State :=
  if (sliceOf s (sliceOfLine line)).stopped then none else
  ((recallOwner s line (some core)).bind fun s => fillLine s line).map fun (s, _) =>
    modTag (dropRdc s line) line fun t => { t with own := some core, shv := 0#4 }

/-- The line is obtained as OWNED or PRIV by a core (R271, R272). None: it must wait. -/
def ownLine (s : State) (core slot line : Nat) (st : L1State) : Option State :=
  let id := CtxId.blk core slot
  match frameOf s id line with
  | some f =>
    if f.state != .clean then some (modFrame s id line fun f => { f with used := s.cycle })
    else (grantLine s core line).map fun s =>
        let bad := if linePoisoned s line then List.range 128 else []
        modFrame s id line fun f =>
          { f with state := st, data := lineData s line, poison := bad, used := s.cycle, owner := some slot }
  | none => (grantLine s core line).bind fun s =>
      let f : L1Frame := { line, state := st, data := lineData s line, used := s.cycle, owner := some slot,
                           poison := if linePoisoned s line then List.range 128 else [] }
      insertFrame (charge s id 6 128 (ewtOf s 9)) id f

/-- OWNED and PRIV lines of a core are written back and dropped (R273). None: a write-back must wait. -/
def flushFrames (s : State) (l : List L1Frame) : Option State :=
  (l.filter fun f => f.state != .clean).foldl (fun r f => r.bind fun s => recallOwner s f.line none) (some s)
/-- Every OWNED or PRIV line of a block. -/
def flushBlockLines (s : State) (core slot : Nat) : Option State :=
  flushFrames s ((coreOf s core).l1.filter fun f => f.owner == some slot)

/-! ## The store path -/

/-- Whether a fetch that the stream queued before access number `n` has still to pin the line: a later store or atomic of
the stream to it waits (R215, R331 note g). -/
def fetchOwes (s : State) (id : CtxId) (who line n : Nat) : Bool :=
  match id with
  | .blk c sl => (coreOf s c).tfq.any fun f =>
      f.slot == sl && f.id < n && (f.lines ++ f.scale.toList).any (fun l => l.2 / 128 == line) &&
        (f.who == who || (blockOf s c sl).any fun b => b.exec.model != .threaded)
  | _ => false

/-- Whether a fetch that the stream queued before access number `n` has still to pin its lines: a release wider than .blk
waits for it (R331 note h). -/
def fetchBefore (s : State) (id : CtxId) (who n : Nat) : Bool :=
  match id with
  | .blk c sl => (coreOf s c).tfq.any fun f => f.slot == sl && f.id < n && (f.who == who || (blockOf s c sl).any fun b => b.exec.model != .threaded)
  | _ => false

/-- A store of a stream to package memory, a host or a peer address (R272): in an OWNED or PRIV line at once, unless the
core's earlier accesses to the line are still on the path (R323), else written through. -/
def storeBytes (s : State) (id : CtxId) (who : Nat) (asid : W16) (part pa va : Nat) (bs : List Byte) (bad release : Bool)
    (scope : Nat) (na : Bool := false) : State :=
  let line := pa / 128
  let through := fun (s : State) => pushPath s id who asid part pa bs.length va (.store bs bad) release scope na
  let write := modFrame s id line fun f => f.write (pa % 128) bs bad s.cycle
  match frameOf s id line with
  | some f =>
    if f.state == .clean then through write
    else if release || ((coreOfCtx id).map fun c => pathBusy s c line).getD false || fetchOwes s id who line s.nextId then through s
    else write
  | none => through s

/-- An atomic or reduction that may perform in any order among its like (R304). -/
def PathKind.isAny : PathKind → Bool
  | .atom _ _ _ _ any _ _ => any
  | .store _ _ => false

/-- An access of the same stream stands before this one on the path with the same line, and the two keep their order:
they do unless both are .any (R304, R323). -/
def sameLineBefore (s : State) (p : PathOp) : Bool :=
  (s.path.takeWhile fun (q : PathOp) => q.id != p.id).any fun q =>
    q.pa / 128 == p.pa / 128 && q.core == p.core && q.ctx == p.ctx && !q.sent && !(q.kind.isAny && p.kind.isAny)

/-- Whether every earlier access of a place has performed at a scope: on the path none is left, and at .sys no store to a
host or peer address is out, another agent's included, since the place may have seen what followed it (R320, R321, R324). -/
def earlierDone (s : State) (id : CtxId) (scope : Nat) (before : Option Nat := none) : Bool :=
  let l := match before with
    | some n => s.path.takeWhile fun (q : PathOp) => q.id != n
    | none => s.path
  !(l.any fun q => q.ctx == id && (!q.sent || scope == 4)) &&
    !(scope == 4 && s.outside.any fun o => o.path.isSome && (before.map fun n => decide (o.id < n)).getD true)

/-! ## Staged records (R64, R65, R350) -/

/-- The record chunks of a store: at most 8 aligned bytes each. -/
def chunks8 : Nat → Nat → List Byte → List (Nat × List Byte)
  | 0, _, _ => []
  | f + 1, a, bs =>
    if bs.isEmpty then [] else
    let n := 8 - a % 8
    (a, bs.take n) :: chunks8 f (a + n) (bs.drop n)

/-- The bytes a thread's own staged records put over `bs` read at `pa` (R65). -/
def overlayStaged (recs : List Staged) (who pa : Nat) (bs : List Byte) (bad : Bool) : List Byte × Bool :=
  recs.foldl (fun (bs, bad) r =>
    if r.who == who && r.red.isNone && r.pa < pa + bs.length && pa < r.pa + r.bytes.length then
      (bs.mapIdx fun i b => if r.pa ≤ pa + i && pa + i < r.pa + r.bytes.length then (r.bytes[pa + i - r.pa]?).getD b else b, bad || r.poison)
    else (bs, bad)) (bs, bad)

/-- Records in canonical order (R69, R351): ascending thread or element, then program order. -/
def canonical (l : List Staged) : List Staged := sortBy (fun (r : Staged) => r.who * 2 ^ 40 + r.seq) l

/-! ## Local memory (R262, R265 to R267) -/

def BlkMem.loadLoc (m : BlkMem) (a n : Nat) : List Byte × Bool :=
  (Store.bytes m.loc a n, (upFrom a n).any fun i => m.locPoison.contains (i / 4))
/-- A write of local bytes; a word written whole loses its poison (R267). -/
def BlkMem.storeLoc (m : BlkMem) (a : Nat) (bs : List Byte) (bad : Bool) : BlkMem :=
  let words := ((upFrom a bs.length).map (· / 4)).eraseDups
  let whole := words.filter fun w => a ≤ 4 * w && 4 * w + 4 ≤ a + bs.length
  { m with loc := Store.setBytes m.loc a bs,
           locPoison := if bad then words ++ m.locPoison.filter fun w => !words.contains w
             else m.locPoison.filter fun w => !whole.contains w }

/-- Whether local bytes lie in LWSET of the current region (R63). -/
def inLwset (r : Region) (a n : Nat) : Bool := (upFrom a n).all fun i => r.lwset.any fun w => w.1 ≤ i && i < w.1 + w.2

end Sys2Proof.Machine
end

