-- ==== Sys2Proof/Machine/Outside.lean ====
section
/-! DEFINITION. Results that return later (R101, R123), and the ways out of the package: the host and peer windows
(R437, R444 to R447).
Where the spec leaves a point open: notes/assumptions, entry 6. -/

namespace Sys2Proof.Machine

/-! ## Results that return -/

/-- Key of sN, apart from the keys of rows. -/
def sKey (n : Nat) : Nat := 65536 + n

/-- The registers a result writes, by element: row keys for classes g and v, `sKey` for s (R293). -/
def LoadForm.keysOf (f : LoadForm) (e : Nat) : List Nat :=
  if f.nwb then [] else
  match f.cls with
  | .g => if f.wid ≤ 4 then [gKey e f.dreg] else (upFrom (2 * f.dreg) (f.wid / 4)).map (gKey e)
  | .v => if f.wid ≤ 4 then [vKey f.dreg e] else [vKey f.dreg e, vKey (f.dreg + 1) e]
  | .s => if f.wid ≤ 8 then [sKey f.dreg] else [sKey f.dreg, sKey (f.dreg + 1)]

/-- The bytes of a load as a number, extended to its register (R293). -/
def LoadForm.value (f : LoadForm) (bs : List Byte) : Nat :=
  let x := bytesVal bs
  if f.sext then wrapNat 64 (signed (8 * f.wid) x) else x

/-- Later writes to registers take them from every result still to return (R123). -/
def killKeys (s : State) (id : CtxId) (keys : List Nat) : State :=
  { s with pending := s.pending.map fun p =>
      if p.ctx == id then { p with keys := p.keys.filter fun k => !keys.contains k } else p }

/-- Whether a register waits for a result (R101). -/
def keyPending (s : State) (id : CtxId) (k : Nat) : Bool := s.pending.any fun p => p.ctx == id && p.keys.contains k

/-- Words of a value written to the registers still to be written: `keys` are its registers, low first. -/
def putWords (m : BlkMem) (live keys : List Nat) (v : Nat) (bad : Bool) : BlkMem :=
  (keys.mapIdx fun i k => (i, k)).foldl (fun m (i, k) =>
    if live.contains k then m.setRow k (BitVec.ofNat 32 (v / 2 ^ (32 * i))) bad else m) m

/-- The latch value of a returned result of one thread or control stream. -/
def LoadForm.entry (f : LoadForm) (bs : List Byte) (bad : Bool) : Latch :=
  let v := f.value bs
  match f.cls with
  | .g => if f.wid ≤ 4 then Latch.ofWord (BitVec.ofNat 32 v) bad else Latch.ofDouble (BitVec.ofNat 64 v) bad
  | _ => Latch.ofDouble (BitVec.ofNat 64 v) bad

def fillLatches (l : List Latch) (id : Nat) (e : Latch) : List Latch := l.map fun x => if x.pend == some id then e else x

/-- The whole destination vector as a latch entry: what the registers hold, or with NWB the elements written and zero
elsewhere (R101). -/
def vectorEntry (m : BlkMem) (f : LoadForm) (elts : List (Nat × List Byte × Bool)) : Latch :=
  let wide := f.wid == 8
  let vals : Store 64 := if f.nwb then Store.setAll [] (elts.map fun (e, bs, _) => (e, BitVec.ofNat 64 (f.value bs)))
    else Store.setAll [] ((List.range 256).map fun e =>
      (e, if wide then m.v (f.dreg + 1) e ++ m.v f.dreg e else (m.v f.dreg e).setWidth 64))
  let bad := if f.nwb then (elts.filter fun e => e.2.2).map (·.1)
    else (List.range 256).filter fun e => m.rowPoison.contains (vKey f.dreg e)
  { val := .vec wide vals, poison := bad }

/-- A result that the other copy of a twinned block receives too is kept for it (R462). -/
def shareResult (s : State) (p : Pending) (elts : List (Nat × List Byte × Bool)) : State :=
  match p.ctx with
  | .blk c b => match (blockOf s c b).bind (·.stage.shared) with
    | some x => if x.pend == some p.id then
        modBlock s c b fun k => k.modStage fun g => { g with shared := some { x with vals := some elts } } else s
    | none => s
  | _ => s

/-- A result returns to its registers and latches; its flags join FSTAT (R101, R123, R189). -/
def returnResult (s : State) (p : Pending) : State :=
  let s := { s with pending := s.pending.filter fun q => q.id != p.id }
  let elts := p.elts.filterMap fun (e, bs, bad) => bs.map fun b => (e, b, bad)
  let s := shareResult s p elts
  match p.form.cls, p.ctx with
  | .s, id =>
    elts.foldl (fun s (_, bs, bad) =>
      let v := p.form.value bs
      let put := fun (c : Ctl) =>
        let c := (p.form.keysOf 0).mapIdx (fun i k => (i, k)) |>.foldl (fun (c : Ctl) (i, k) =>
          if p.keys.contains k then c.setS (k - sKey 0) (BitVec.ofNat 64 (v / 2 ^ (64 * i))) bad else c) c
        { c with latches := fillLatches c.latches p.id (p.form.entry bs bad) }
      let s := modCtl s id put
      match id with
      | .blk c b => modBlock s c b fun k => k.modRegs fun r => { r with fstat := r.fstat ||| BitVec.ofNat 32 p.flags }
      | _ => s) s
  | .g, .blk c b => modBlock s c b fun k =>
    let k := elts.foldl (fun k (t, bs, bad) =>
      let k := k.modMem fun m => putWords m p.keys (p.form.keysOf t) (p.form.value bs) bad
      k.modThreads [t] fun _ x => { x with latches := fillLatches x.latches p.id (p.form.entry bs bad) }) k
    k.modRegs fun r => { r with fstat := r.fstat ||| BitVec.ofNat 32 p.flags }
  | .v, .blk c b => modBlock s c b fun k =>
    let k := k.modMem fun m => elts.foldl (fun m (e, bs, bad) => putWords m p.keys (p.form.keysOf e) (p.form.value bs) bad) m
    let entry := vectorEntry k.mem p.form elts
    let k := k.modCtl fun c => { c with latches := fillLatches c.latches p.id entry }
    k.modRegs fun r => { r with fstat := r.fstat ||| BitVec.ofNat 32 p.flags }
  | _, _ => s

/-- Whether all bytes of a result are in the package. -/
def Pending.arrived (p : Pending) : Bool := p.elts.all fun e => e.2.1.isSome

/-- Every SFU result of a place returns (R199, DrainSfu). -/
def drainSfu (s : State) (id : CtxId) : State :=
  (s.pending.filter fun p => p.ctx == id && p.sfu).foldl returnResult s

/-! ## Corhoeb Link, sending side (R446, R447) -/

def linkOf (s : State) (p : Nat) : LinkPort := Table.getD s.iod.links p {}
def modLink (s : State) (p : Nat) (f : LinkPort → LinkPort) : State :=
  modIod s fun i => { i with links := Table.set i.links p (f (linkOf s p)) }

/-- Units of a message in a flit body (R446): its header and its data units. -/
def msgUnits (m : LinkMsg) (op : Nat) : Nat :=
  match op with
  | 2 => 1 + ceilDiv m.size 16
  | 3 => 2
  | 4 => 1 + ceilDiv m.size 16
  | _ => 1
def isRequest (op : Nat) : Bool := op ≤ 3

/-- One waiting message leaves if its class has credits, a replay buffer is free and, for a request, a tag (R447). -/
def trySend (s : State) (port : Nat) (w : LinkMsg × Nat) (blocked : Bool × Bool) : State × (Bool × Bool) :=
  let l := linkOf s port
  let (m, op) := w
  let req := isRequest op
  let u := msgUnits m op
  let stuck := if req then blocked.1 else blocked.2
  let room := if req then u ≤ l.reqCredit else u ≤ l.respCredit
  if stuck || !room || !l.up || l.replay.length ≥ 512 then (s, if req then (true, blocked.2) else (blocked.1, true)) else
  let tag := if req then (List.range (l.inflight.length + 1)).find? fun t => t < 4096 && (Table.get? l.inflight t).isNone else some m.tag
  match tag with
  | none => (s, (true, blocked.2))
  | some t =>
    -- the outside number of a request waits in TAG until its own tag is given
    let s := modLink s port fun l => { l with
      txSeq := (l.txSeq + 1) % 65536
      reqCredit := if req then l.reqCredit - u else l.reqCredit
      respCredit := if req then l.respCredit else l.respCredit - u
      replay := l.replay ++ [(l.txSeq, { m with tag := t }, op)]
      waiting := l.waiting.erase w
      inflight := if req then Table.set l.inflight t m.tag else l.inflight }
    (emit s (.link port 1 l.txSeq l.rxSeq op (some { m with tag := t })), blocked)

/-- Everything that can leave a port leaves, in order within each class. -/
def flushLink (s : State) (port : Nat) : State :=
  ((linkOf s port).waiting.foldl (fun (s, bl) w => trySend s port w bl) (s, (false, false))).1

def sendLink (s : State) (port op : Nat) (m : LinkMsg) : State :=
  flushLink (modLink s port fun l => { l with waiting := l.waiting ++ [(m, op)] }) port

/-! ## Accesses through the host and peer windows (R437) -/

/-- The lowest-numbered function bound to a partition; the PF counts as function 128. -/
def boundFunc (s : State) (part : Nat) : Option Nat :=
  leastOf ((s.iod.funcs.filter fun e => e.2.part == some part).map (·.1))

def reportOutside (s : State) (part pa : Nat) : State := postEvent s part 2 (memErrArgs 4 pa 0 0 0 0)

/-- The port an access to a peer address takes, if the peer map and the routes allow it (R444). -/
def peerRoute (s : State) (part pa size : Nat) : Option Nat :=
  let peer := pa / 2 ^ 39 % 4096
  let a := pa % 2 ^ 39
  if (partxOf s part).peers.any fun r => r.peer == peer && r.base ≤ a && a + size ≤ r.base + r.size then
    match Table.get? s.iod.routes peer with
    | some p => if (linkOf s p).up then some p else none
    | none => none
  else none

/-- A write, or an atomic, to a host or peer address leaves the package; a failure drops it and is reported (R437).
`path` is the path number it completes, `pend` the result an atomic returns. -/
def sendOutside (s : State) (ctx : CtxId) (part pa : Nat) (kind : PathKind) (path pend : Option Nat) (elt : Nat := 0) : State :=
  let size := match kind with
    | .store bs _ => bs.length
    | .atom _ w _ _ _ _ _ => w
  let bad := match kind with
    | .store _ b => b
    | _ => false
  let failed := fun (s : State) =>
    let s := reportOutside s part pa
    match pend with
    | none => s
    | some n => { s with pending := s.pending.map fun p => if p.id == n then { p with elts := p.elts.map fun e => (e.1, some ((e.2.1).getD (List.replicate p.form.wid 0#8)), true) } else p }
  let note := fun (s : State) (port : Option Nat) =>
    let (n, s) := fresh s
    (n, { s with outside := s.outside ++ [({ id := n, path, pend, ctx, port, part, pa, size, elt } : Outside)] })
  let s := charge s ctx 9 size (size * ewtOf s 11)
  if isHost pa then
    match boundFunc s part with
    | none => failed s
    | some _ =>
      let (n, s) := note s none
      match kind with
      | .store bs _ => emit s (.hostWrite (pa % 2 ^ 48) bs)
      | .atom aop w b c _ _ _ => emit s (.hostAtom n (pa % 2 ^ 48) aop w b c)
  else
    match peerRoute s part pa size with
    | none => failed s
    | some port =>
      let (n, s) := note s (some port)
      let base : LinkMsg := { size, aop := 0, any := false, dbl := size == 8, poison := bad, sys := true, src := Config.packageNumber.toNat, part, tag := n, code := 0, addr := pa % 2 ^ 39, data := [] }
      match kind with
      | .store bs _ => sendLink s port 2 { base with data := bs }
      | .atom aop w b c any _ _ => sendLink s port 3 { base with aop, any, data := if aop == 7 then valBytes 8 c ++ valBytes 8 b else valBytes 8 b, dbl := w == 8 }

/-- A piece of an element of a result has come. -/
def addPart (s : State) (pend elt ofs : Nat) (bs : List Byte) (bad : Bool) : State :=
  { s with pending := s.pending.map fun p => if p.id == pend then { p with parts := p.parts ++ [(elt, ofs, bs, bad)] } else p }

/-- An element is whole when none of its pieces is still outside the package. -/
def settleElt (s : State) (pend elt : Nat) : State :=
  if s.outside.any fun o => o.pend == some pend && o.elt == elt then s else
  { s with pending := s.pending.map fun p => if p.id == pend then
      let l := sortBy (fun (x : Nat × Nat × List Byte × Bool) => x.2.1) (p.parts.filter fun x => x.1 == elt)
      { p with elts := p.elts.map fun e => if e.1 == elt && e.2.1.isNone then (e.1, some (l.flatMap (·.2.2.1)), l.any (·.2.2.2)) else e
               parts := p.parts.filter fun x => x.1 != elt } else p }

/-- The bytes of a piece with what the stream's own stores put over them. -/
def putOver (own : List (Option Byte)) (bs : List Byte) : List Byte := bs.mapIdx fun i b => (((own[i]?).join).getD b)

/-- A read of a host or peer address for a piece of one element of a result (R437); `ownBytes` are the bytes that the stream's
own stores put over it. -/
def readOutside (s : State) (ctx : CtxId) (part pa size pend elt : Nat) (ofs : Nat := 0) (ownBytes : List (Option Byte) := []) : State :=
  let failed := fun (s : State) => addPart (reportOutside s part pa) pend elt ofs (List.replicate size 0#8) true
  let note := fun (s : State) (port : Option Nat) =>
    let (n, s) := fresh s
    (n, { s with outside := s.outside ++ [({ id := n, path := none, pend := some pend, ctx, port, part, pa, size, elt, ofs, ownBytes } : Outside)] })
  if isHost pa then
    match boundFunc s part with
    | none => failed s
    | some _ => let (n, s) := note s none; emit s (.hostRead n (pa % 2 ^ 48) size)
  else
    match peerRoute s part pa size with
    | none => failed s
    | some port =>
      let (n, s) := note s (some port)
      sendLink s port 1 { size, aop := 0, any := false, dbl := false, poison := false, sys := true, src := Config.packageNumber.toNat, part, tag := n, code := 0, addr := pa % 2 ^ 39, data := [] }

/-- An access outside completes (R437, R447): its data, none for a failure. -/
def outsideDone (s : State) (o : Outside) (data : Option (List Byte)) (bad : Bool) : State :=
  let s := { s with outside := s.outside.filter fun x => x.id != o.id }
  let s := if data.isNone then reportOutside s o.part o.pa else s
  let s := match o.path with
    | some n => { s with path := s.path.filter fun p => p.id != n }
    | none => s
  match o.pend with
  | none => s
  | some n =>
    let s := charge s o.ctx 10 o.size (o.size * ewtOf s 11)
    -- an acquire performs here (R274, R324)
    let s := if s.pending.any fun p => p.id == n && p.acq then dropClean s o.ctx else s
    let bs := putOver o.ownBytes ((data.getD (List.replicate o.size 0#8)).take o.size)
    settleElt (addPart s n o.elt o.ofs bs (data.isNone || bad)) n o.elt

/-- A device write to any physical address, for a partition (R437): package memory at once, else on its way out. -/
def deviceWrite (s : State) (part pa : Nat) (bs : List Byte) : State :=
  if isPackage pa then performWrites s pa bs false
  else (splitLines (bs.length / 128 + 2) pa bs).foldl (fun s (a, l) => sendOutside s (.sys 0) part a (.store l false) none none) s

/-- Asks the system cores for an absent page on behalf of requester `req` of core `core` (R388, R458). -/
def requestPage (s : State) (asid : W16) (part va kind req core size : Nat) : State :=
  let base := va - va % size
  let s := { s with pageReqs := s.pageReqs ++ [{ asid, part, base, size }] }
  postEvent s part 1 (valBytes 8 va ++ valBytes 2 asid.toNat ++ [BitVec.ofNat 8 kind, BitVec.ofNat 8 req] ++ valBytes 2 core)

end Sys2Proof.Machine
end

