-- ==== Sys2Proof/Machine/Path.lean ====
section
/-! DEFINITION. The accesses on the path perform (R302, R304, R324, R491): stores and atomics at their home slice, or on
their way out of the package.
Where the spec leaves a point open: notes/assumptions, entries 5, 56. -/

namespace Sys2Proof.Machine

/-- The new value of an atomic (R302): `w` 32 or 64. -/
def atomF (aop w x b cmp : Nat) : Nat :=
  let f := fmtOf 0
  match aop with
  | 0 => (x + b) % 2 ^ w
  | 1 => if signed w x ≤ signed w b then x else b
  | 2 => if signed w x ≥ signed w b then x else b
  | 3 => x &&& b
  | 4 => x ||| b
  | 5 => x ^^^ b
  | 6 => b
  | 7 => if x = cmp then b else x
  | 8 => if x ≥ b then 0 else x + 1
  | 9 => (f.add 0 x b).1
  | 10 => (f.minmax false x b).1
  | _ => (f.minmax true x b).1

/-- The new value of an atomic, or of reductions merged with it (R304): integers as in any serial order, a .fadd merge
summed exactly with the old value and rounded once (DEDUCED, unsafe: notes/assumptions/56.md). -/
def mergedF (aop w x b cmp : Nat) (more : List Nat) : Nat :=
  if aop == 9 && !more.isEmpty then
    let f := fmtOf 0
    (f.finish 0 ((b :: more).foldl (fun r v => addVal 0 r.1 (f.value v)) (f.value x, 0))).1
  else more.foldl (fun x b => atomF aop w x b cmp) (atomF aop w x b cmp)

/-- The old bytes of an atomic come to its result for one lane (R302). -/
def giveElt (s : State) (pend : Option Nat) (lane : Nat) (bs : List Byte) (bad : Bool) : State :=
  match pend with
  | none => s
  | some n => { s with pending := s.pending.map fun p => if p.id == n then
      { p with elts := p.elts.map fun e => if e.1 == lane then (e.1, some bs, bad) else e } else p }

def dropPath (s : State) (n : Nat) : State := { s with path := s.path.filter fun p => p.id != n }

/-- L2 bytes written at a home slice (R407, R410). -/
def chargeWritten (s : State) (id : CtxId) (n : Nat) : State := charge s id 7 n (n * ewtOf s 9 / 128)

/-- An access of the path performs (R324): at its home slice, or it is accepted on its way outside. It stays as it is
when the slice has no room. -/
def performOp (s : State) (p : PathOp) : State :=
  if !isPackage p.pa then
    let s := { s with path := s.path.map fun q => if q.id == p.id then { q with sent := true } else q }
    let pend := match p.kind with
      | .atom _ _ _ _ _ n _ => n
      | _ => none
    let before := s.outside.length
    let s := sendOutside s p.ctx p.part p.pa p.kind (some p.id) pend p.who
    if s.outside.length == before then dropPath s p.id else s
  else match p.kind with
  | .store bs bad =>
    match performWrite s p.pa bs bad none p.na with
    | some s => chargeWritten (freshen (dropPath s p.id) p.ctx p.pa bs bad) p.ctx bs.length
    | none => s
  | .atom aop wid b cmp _ pend more =>
    -- the words of a private atomic lie apart (R268)
    let n := if p.hi.isSome then 4 else wid
    let places := p.pa :: p.hi.toList
    if places.any (unserved s ·) then s else
    let (t, old, bad) := places.foldl (fun ((t, bs, bad) : State × List Byte × Bool) a =>
      let (t, b, q) := readHome t a n none
      (t, bs ++ b, bad || q)) (s, [], false)
    -- the stream has read the line here: a CLEAN copy of it may be older (R323)
    let done := fun (t : State) =>
      let t := places.foldl (fun t a => dropCopy t p.ctx (a / 128)) (dropPath (giveElt t pend p.who old bad) p.id)
      if p.acq then dropClean t p.ctx else t
    if bad then done t
    else
      -- an OR into a dirty bitmap is no tracked write (R402)
      let write := fun (t : State) (a : Nat) (x : List Byte) =>
        if p.ctx == deviceCtx then writeHome t a x false none else performWrite t a x false none
      let new := valBytes wid (mergedF aop (8 * wid) (bytesVal old) b cmp more)
      match (places.mapIdx fun i a => (i, a)).foldl (fun r (i, a) => r.bind fun t => write t a ((new.drop (n * i)).take n)) (some t) with
      | some t => chargeWritten (done t) p.ctx wid
      | none => s

/-- Whether an access may perform now: no earlier one of its place to the same line, no earlier fetch of its stream that
has still to pin the line (R215), and for a release every earlier one of its place and fetch of its stream (R320, R324, R331). -/
def mayPerform (s : State) (p : PathOp) : Bool :=
  !p.sent && !unserved s p.pa && !sameLineBefore s p && !fetchOwes s p.ctx p.who (p.pa / 128) p.id &&
    (!p.release || (earlierDone s p.ctx p.scope (some p.id) && !fetchBefore s p.ctx p.who p.id))

/-- Every access of a place still on the path performs that may, in order of issue. -/
def drainPath (s : State) (id : CtxId) : State :=
  (s.path.filter fun p => p.ctx == id && !p.sent).foldl (fun s p => if mayPerform s p then performOp s p else s) s

/-- The accesses of a place to certain lines that stand on the path before number `n` perform, as far as they may. -/
def drainLines (s : State) (id : CtxId) (lines : List Nat) (n : Nat) : State :=
  (s.path.filter fun p => p.ctx == id && !p.sent && p.id < n && lines.contains (p.pa / 128)).foldl (fun s p =>
    if mayPerform s p then performOp s p else s) s

/-- Two reductions of .any with one AOP, width and address that are on the path together become one (R304). -/
def mergeOps (s : State) (a b : Nat) : State :=
  match s.path.find? (·.id == a), s.path.find? (·.id == b) with
  | some p, some q => match p.kind, q.kind with
    | .atom aop wid x cmp true none more, .atom aop' wid' y _ true none more' =>
      if a != b && aop == aop' && wid == wid' && p.pa == q.pa && isPackage p.pa && !p.release && !q.release && mayPerform s p && mayPerform s q then
        { s with path := (s.path.filter fun r => r.id != b).map fun r =>
            if r.id == a then { r with kind := .atom aop wid x cmp true none (more ++ y :: more') } else r }
      else s
    | _, _ => s
  | _, _ => s

/-- SLICE_WRITE: a store of the path performs. -/
def execSliceWrite (id : Nat) (s : State) : Host.Outcome State Fault Refusal :=
  .next (match s.path.find? (·.id == id) with
    | some p => match p.kind with
      | .store _ _ => if mayPerform s p then performOp s p else s
      | _ => s
    | none => s)

/-- SUU_ATOMIC: an atomic or reduction of the path performs at its home slice's SUU (R304). -/
def execSuuAtomic (id : Nat) (s : State) : Host.Outcome State Fault Refusal :=
  .next (match s.path.find? (·.id == id) with
    | some p => match p.kind with
      | .atom _ _ _ _ _ _ _ => if mayPerform s p then performOp s p else s
      | _ => s
    | none => s)

end Sys2Proof.Machine
end

