-- ==== Sys2Proof/Machine/Culvert.lean ====
section
/-! DEFINITION. The Culvert engines (spec 12_isa_memory.md R309, R311; 13_ordering.md R327; 14_queues.md R347): one
destination chunk at a time.
Where the spec leaves a point open: notes/assumptions, entry 9. -/

namespace Sys2Proof.Machine

/-- A translation that an engine makes: the TLBs, else a walk at once. -/
def engineTranslate (s : State) (id : CtxId) (asid : W16) (part va kind : Nat) : State × Except (Nat × Nat) Nat :=
  match lookupTlb s id asid part va kind with
  | .ok pa => (s, .ok pa)
  | _ => walkNow s id asid part va kind

/-- Bytes that come from outside the package (R437): free values. -/
def outsideBytes (s : State) (n : Nat) : State × List Byte :=
  ({ s with freeCount := s.freeCount + n }, (upFrom s.freeCount n).map Config.outsideByte)

/-- A device read within package memory, line by line: bytes, each with its poison (R311). -/
def readMarked (s : State) (pa n : Nat) : State × List (Byte × Bool) :=
  (splitLines (n / 128 + 2) pa (List.replicate n 0#8)).foldl (fun (s, r) (a, l) =>
    let (s, bs, bad) := readHome s a l.length none
    (s, r ++ bs.map (·, bad))) (s, [])

/-- A read of global bytes by an engine, page by page: bytes with their poison, or the walk's status at an address; status
7 that it must wait. -/
def engineRead (s : State) (id : CtxId) (asid : W16) (part : Nat) : Nat → Nat → Nat → State × Except (Nat × Nat × Nat) (List (Byte × Bool))
  | 0, _, _ => (s, .ok [])
  | f + 1, va, n =>
    if n = 0 then (s, .ok []) else
    let k := min n (4096 - va % 4096)
    match engineTranslate s id asid part va 0 with
    | (s, .error (w, z)) => (s, .error (w, z, va))
    | (s, .ok pa) =>
      if (upFrom (pa / 128) ((pa + k - 1) / 128 - pa / 128 + 1)).any fun l => unserved s (l * 128) then (s, .error (7, 0, va)) else
      let (s, bs) := if isPackage pa then
          let (s, bs) := readMarked s pa k
          let lines := (pa + k - 1) / 128 - pa / 128 + 1
          (charge s id 6 (128 * lines) (lines * ewtOf s 9), bs)
        else
          let s := if isHost pa then emit s (.hostRead 0 (pa % 2 ^ 48) k) else s
          let (s, bs) := outsideBytes s k
          (charge s id 10 k (k * ewtOf s 11), bs.map (·, false))
      match engineRead s id asid part f (va + k) (n - k) with
      | (s, .ok r) => (s, .ok (bs ++ r))
      | (s, .error e) => (s, .error e)

/-- The lists of an engine. -/
def culvertLists (s : State) (c e : Nat) : List CpList := Table.getD (coreOf s c).culvert e []
def setCulvert (s : State) (c e : Nat) (l : List CpList) : State := modCore s c fun k => { k with culvert := Table.set k.culvert e l }

/-- The head record of an engine ends: its list leaves the queue with its last record (R347). -/
def culvertEnd (s : State) (c e : Nat) : State :=
  setCulvert s c e (match culvertLists s c e with
    | l :: r => if l.recs.length ≤ 1 then r else { l with recs := l.recs.drop 1 } :: r
    | [] => [])
def culvertHead (s : State) (c e : Nat) (f : CpList → CpList) : State :=
  setCulvert s c e (match culvertLists s c e with
    | l :: r => f l :: r
    | [] => [])

/-- A record that meets a fault stops; the kicking thread or stream is told at its next boundary (R311). -/
def culvertFault (s : State) (c e slot : Nat) (r : CpRec) (va kind wst : Nat) : State :=
  let s := culvertEnd s c e
  let t : TrapInfo := { cause := if wst == 6 then 24 else 8, addr := va, detail := if wst == 6 then 0 else kind, wst := if wst == 6 then 0 else wst, lanes := [r.who], site := some r.site, imprecise := true }
  if r.sup then modCore s c fun k => { k with supTraps := k.supTraps ++ [t] }
  else modBlock s c slot fun b => { b with traps := b.traps ++ [t] }

/-- The chunk is written and counted; the record goes on (R311 steps 2 and 3). -/
def culvertDone (s : State) (c e : Nat) (l : CpList) (r : CpRec) (n : Nat) : State :=
  let s := modBlock s c l.slot fun b => b.modMem fun m =>
    m.storeLoc r.bbar (valBytes 8 (wrapNat 64 ((bytesVal (m.loadLoc r.bbar 8).1 : Int) - n))) (m.loadLoc r.bbar 8).2
  let r := if r.ofs + n < r.rowb then { r with ofs := r.ofs + n } else { r with ofs := 0, row := r.row + 1 }
  if r.row ≥ r.nrow then culvertEnd s c e else culvertHead s c e fun l => { l with recs := r :: l.recs.drop 1 }

/-- The engine waits for an absent page (R311, R388). -/
def culvertWait (s : State) (c e : Nat) (b : Block) (va kind size : Nat) : State :=
  requestPage (culvertHead s c e fun l => { l with waitPage := true }) b.asid b.part va kind 1 c size

/-- The stream that kicked a list. -/
def CpList.kicker (l : CpList) (c : Nat) : CtxId := if l.sup then .sup c else .blk c l.slot

/-- Whether an access that the kicking stream made before the kick has still to perform: one on its path, a read outside
the package, a tile fetch (R327, R331). -/
def CpList.owed (l : CpList) (s : State) (c : Nat) : Bool :=
  (s.path.any fun p => p.ctx == l.kicker c && !p.sent && p.id < l.after) ||
    (s.outside.any fun o => o.ctx == l.kicker c && o.pend.isSome && o.id < l.after) ||
    (!l.sup && (coreOf s c).tfq.any fun f => f.slot == l.slot && f.id < l.after)

/-- Runs of bytes of one marking: their offsets, bytes, poison. -/
def markRuns (bs : List (Byte × Bool)) : List (Nat × List Byte × Bool) :=
  (bs.splitBy fun a b => a.2 == b.2).foldl (fun (r : List (Nat × List Byte × Bool) × Nat) l =>
    (r.1 ++ [(r.2, l.map (·.1), (l.head?.map (·.2)).getD false)], r.2 + l.length)) ([], 0) |>.1

/-- One chunk of an engine's first list. -/
def culvertStep (s : State) (c e : Nat) : State :=
  match culvertLists s c e with
  | [] => s
  | l :: _ => match l.recs.head?, blockOf s c l.slot with
    | some r, some b =>
      if l.waitPage then s else
      let id := CtxId.blk c l.slot
      let s := drainPath s (l.kicker c)
      if l.owed s c then s else
      let dst := (r.dst + r.row * r.dstr + r.ofs : Int).toNat
      let src := (r.src + r.row * r.sstr + r.ofs : Int).toNat
      let n := min (r.rowb - r.ofs) (128 - dst % 128)
      let (s, rd) := if r.sloc then (s, .ok ((upFrom src n).map fun a => (Store.get b.mem.loc a, b.mem.locPoison.contains (a / 4))))
        else engineRead s id b.asid b.part 3 src n
      match rd with
      | .error (7, _, _) => s
      | .error (4, size, va) => culvertWait s c e b va 0 size
      | .error (w, _, va) => culvertFault s c e l.slot r va 0 w
      | .ok rd =>
        let bs := rd.map (·.1)
        let bad := rd.any (·.2)
        if r.dloc then culvertDone (modBlock s c l.slot fun b => b.modMem fun m =>
            (markRuns rd).foldl (fun m x => m.storeLoc (dst + x.1) x.2.1 x.2.2) m) c e l r n
        else match engineTranslate s id b.asid b.part dst 1 with
          | (s, .error (7, _)) => s
          | (s, .error (4, size)) => culvertWait s c e b dst 1 size
          | (s, .error (w, _)) => culvertFault s c e l.slot r dst 1 w
          | (s, .ok pa) =>
            if isPackage pa then
              match performWrite s pa bs bad none with
              | some s => culvertDone (chargeWritten (freshen s id pa bs bad) id n) c e l r n
              | none => s
            else culvertDone (sendOutside s id b.part pa (.store bs bad) (some 0) none) c e l r n
    | _, _ => culvertEnd s c e

/-- CULVERT_CHUNK: an engine handles the next chunk of its first list. -/
def execCulvertChunk (core eng : Nat) (s : State) : Host.Outcome State Fault Refusal := .next (culvertStep s core eng)

/-- Chunks a record has left, at most. -/
def CpRec.left (r : CpRec) : Nat := (r.nrow - r.row) * (r.rowb / 128 + 2)

/-- The engine goes on until it holds no list of the slot, or waits for a page. -/
def culvertSettle (c e sl : Nat) : Nat → State → State
  | 0, s => s
  | f + 1, s =>
    if (culvertLists s c e).any fun l => l.slot == sl then
      if ((culvertLists s c e).head?.map (·.waitPage)).getD true then s else culvertSettle c e sl f (culvertStep s c e)
    else s
def culvertFuel (s : State) (c e : Nat) : Nat := ((culvertLists s c e).map fun l => (l.recs.map CpRec.left).sum + 1).sum

end Sys2Proof.Machine
end

