-- ==== Sys2Proof/Machine/Rq8.lean ====
section
/-! DEFINITION. RQ8 codes (spec 07_numbers.md R169 to R175). -/

namespace Sys2Proof.Machine

def encodeRq8 (neg : Bool) (m : Nat) : Nat := (if neg then 128 else 0) + m % 3 * 32 + m % 4 * 8 + m % 5

/-- What a code stands for (R171). -/
inductive Rq8
  | real (neg : Bool) (m : Nat)
  | empty
  | nar
  deriving DecidableEq, Repr

def rq8Of (c : Nat) : Rq8 :=
  let m3 := bits c 6 5
  let m4 := bits c 4 3
  let m5 := bits c 2 0
  if m3 ≤ 2 && m5 ≤ 4 then .real (bit c 7) ((40 * m3 + 45 * m4 + 36 * m5) % 60)
  else if c = 0x60 then .empty else .nar

/-- ToRq8 (R174): the code and its flags. -/
def toRq8 (e : Nat) : FVal → Nat × Nat
  | .nan _ => (0xFF, 0)
  | .inf neg => (encodeRq8 neg 59, fSatq)
  | .fin neg m x =>
    let (n, inexact) := roundAt 0 false m (x + 127 - e) false 0
    if n > 59 then (encodeRq8 neg 59, fSatq) else (encodeRq8 neg n, if inexact then fInexact else 0)

/-- The value of an element under a scale, in a float format (R175). -/
def ofRq8 (f : Fmt) (rm e c : Nat) : Nat × Nat :=
  if e = 255 then (f.nan, 0) else
  match rq8Of c with
  | .real neg m => f.ofFin rm neg m ((e : Int) - 127)
  | .empty => (f.zero false, 0)
  | .nar => (f.nan, 0)

end Sys2Proof.Machine
end

