-- ==== Sys2Proof/Machine/MatUnit.lean ====
section
/-! DEFINITION. What the matrix unit computes (spec 07_numbers.md R177 to R184; 09_isa_matrix.md R206 to R208, R223, R230):
accumulator elements, block sums, drains.
Where the spec leaves a point open: notes/assumptions, entries 27, 62, 63. -/

namespace Sys2Proof.Machine

/-! ## Accumulator elements (R121, R178 to R180) -/

def accKey (j i k : Nat) : Nat := j * 1024 + i * 32 + k
def accVal (v : Nat) : Nat := v % 2 ^ 49
def accCnt (v : Nat) : Nat := v / 2 ^ 49
/-- M of R178. -/
def residueM : Nat := 2 ^ 48 - 2 ^ 16

/-- IsNar (R179). -/
def isNar (t : Nat) : Bool := bits t 15 0 == 0xFFFF || bits t 48 32 > 65536
def narTriple : Nat := 0xFFFF

/-- ResidueAdd (R180); none is a NAR contribution. -/
def residueAdd (t : Nat) (c : Option Int) : Nat :=
  match c with
  | none => narTriple
  | some c =>
    if isNar t then narTriple else
    let add := fun (x m : Nat) => (((x : Int) + c) % (m : Int)).toNat
    add (bits t 15 0) 65535 + 2 ^ 16 * add (bits t 31 16) 65536 + 2 ^ 32 * add (bits t 48 32) 65537

/-- Crt of a triple (R179): X = RB + 65536 y, with y the one residue mod 65535 × 65537 that gives RA and RC. -/
def residueCrt (t : Nat) : Nat :=
  let ra := bits t 15 0
  let rb := bits t 31 16
  let rc := bits t 48 32
  -- mod 65535: 65536 = 1, y = RA − RB; mod 65537: 65536 = −1, y = RB − RC
  let ya := (ra + 65535 * 2 - rb) % 65535
  let yc := (rb + 65537 * 2 - rc) % 65537
  -- y = ya + 65535 z with 65535 = −2 mod 65537; the inverse of −2 is 32768
  let z := ((yc + 65537 * 2 - ya) * 32768) % 65537
  rb + 65536 * (ya + 65535 * z)

/-! ## Agreement registers (R122) -/

def agRef (a : Nat) : Nat := bits a 39 32
def agThr (a : Nat) : Nat := bits a 15 0
def agZcnt (a : Nat) : Nat := bits a 31 16
/-- Flag bits of an agreement register: CSAT, RNDL, RANGE, RATOV. -/
def fCsat : Nat := 2 ^ 40
def fRndl : Nat := 2 ^ 41
def fRange : Nat := 2 ^ 42
def fRatov : Nat := 2 ^ 43

/-! ## Format words and parcel 1 (R207, R208, R222) -/

/-- The agreement pair of a destination: of accJ or saK. -/
def pairOf (split : Bool) (p1 : Nat) : Nat := if split then bits p1 27 25 else bits p1 27 25 / 2
/-- The slots an operation writes. -/
def dstSlots (split : Bool) (p1 : Nat) : List Nat :=
  let d := bits p1 27 25
  if split then [2 * d, 2 * d + 1] else [d]
def mmaTa (p1 : Nat) : Nat := bits p1 24 22
def mmaTb (p1 : Nat) : Nat := bits p1 21 19
def mmaKh (p1 : Nat) : Nat := bits p1 16 16

/-- Valid(w, descriptor) (R208); REF none where the check leaves it out (R365). -/
def formatOk (fw p1 : Nat) (split : Bool) (ref : Option Nat) : Bool :=
  let a := bits fw 3 0
  let row := (a, bits fw 7 4, bits fw 11 8)
  let rows := [(5, 5, 5), (4, 4, 3), (2, 2, 0), (1, 1, 0)]
  let rq := a == 5
  bits fw 31 24 == 0 && rows.contains row && bit fw 15 == split && !(a == 4 && split) &&
    (if rq then bits fw 14 12 ≤ 5 && mmaKh p1 == 0 && (ref.isNone || ref == some (bits fw 23 16))
     else bits fw 14 12 == 0 && bits fw 23 16 == 0)

/-! ## Block sums (R181, R183, R184, R223) -/

/-- A contribution of one K-block to one slot: its value (none: NAR) and whether it counts (R182), with flags of ag. -/
structure Contrib where
  c : Option Int
  counts : Bool
  ag : Nat := 0
  deriving DecidableEq, Repr

/-- Scale (R181): the scaled sum and the flags it sets. -/
def scaleSum (v : Nat) (sh : Int) : Nat × Nat :=
  let (z, fl) := if sh ≥ 0 then (v * 2 ^ sh.toNat, 0)
    else let (n, inexact) := roundAt 0 false v sh false 0
         (n, if inexact then fRndl else 0)
  if z > 2 ^ 32 - 1 then (2 ^ 32 - 1, fl ||| fRange) else (z, fl)

/-- The RQ8 elements of a K-block of a row, widened (R173): none for NAR. -/
def rq8Row (t : Store 8) (row b : Nat) : Nat × List (Option Int) :=
  let e := (Store.get t (4096 + 4 * row + b)).toNat
  (e, (Store.bytes t (128 * row + 32 * b) 32).map fun x =>
    if e == 255 then none else match rq8Of x.toNat with
      | .real neg m => some (if neg then -(m : Int) else m)
      | .empty => some 0
      | .nar => none)

/-- Sums of the positive products and of the magnitudes of the negative ones; none with a NAR operand. -/
def splitSums (a b : List (Option Int)) : Option (Nat × Nat) :=
  (a.zip b).foldl (fun r (x, y) => match r, x, y with
    | some (p, n), some x, some y => let z := x * y; some (if z ≥ 0 then (p + z.toNat, n) else (p, n + (-z).toNat))
    | _, _, _ => none) (some (0, 0))

/-- RQ8 contributions of K-block b to the slots of an operation. A NAR block scales nothing, so it sets neither RNDL nor
RANGE by scaling (DESIGN CHOICE, unsafe: notes/assumptions/63.md). -/
def rq8Contrib (split : Bool) (ref : Nat) (a b : Nat × List (Option Int)) : List Contrib :=
  match splitSums a.2 b.2 with
  | none => List.replicate (if split then 2 else 1) { c := none, counts := true }
  | some (p, n) =>
    let sh : Int := (a.1 : Int) + b.1 - ref
    let (sp, f1) := scaleSum p sh
    let (sn, f2) := scaleSum n sh
    if split then [{ c := some sp, counts := sp != 0, ag := f1 }, { c := some sn, counts := sn != 0, ag := f2 }]
    else [{ c := some ((sp : Int) - sn), counts := sp != 0 || sn != 0, ag := f1 ||| f2 }]

/-- Count (R182): CNT of an element after a K-block, and the flags of ag. -/
def countUp (cnt : Nat) (counts : Bool) : Nat × Nat :=
  if !counts then (cnt, 0) else if cnt ≥ 32767 then (32767, fRange)
  else (cnt + 1, if cnt + 1 == 32767 then fCsat else 0)

/-- An element with its contributions entered, and flags of ag. -/
def rq8Element (v : Nat) (cs : List Contrib) : Nat × Nat :=
  cs.foldl (fun (v, fl) c =>
    let (n, f) := countUp (accCnt v) c.counts
    (n * 2 ^ 49 + residueAdd (accVal v) c.c, fl ||| f ||| c.ag)) (v, 0)

/-- Signed bytes of a row's used half (R206). -/
def int8Row (t : Store 8) (row kh : Nat) : List Int := (Store.bytes t (128 * row + 64 * kh) 64).map fun x => x.toInt

/-- INT8 (R183): the element, flags of ag, flags of FSTAT. A K-block counts when its exact product sum is not zero, as R183
says (DEDUCED, unsafe: notes/assumptions/62.md). -/
def int8Element (v : Nat) (a b : List Int) : Nat × Nat × Nat :=
  let ps := a.zipWith (· * ·) b
  let blockCounts := [ps.take 32, ps.drop 32].map fun l => l.sum != 0
  let (cnt, fl) := blockCounts.foldl (fun (c, fl) on => let (n, f) := countUp c on; (n, fl ||| f)) (accCnt v, 0)
  let sum := signed 32 (accVal v) + ps.sum
  (cnt * 2 ^ 49 + wrapNat 32 sum, fl, if sum > (2 ^ 31 : Nat) - 1 || sum < -(2 ^ 31 : Nat) then fOverflow else 0)

def floatRow (f : Fmt) (t : Store 8) (row kh : Nat) : List FVal :=
  (List.range 32).map fun k => f.value (bytesVal (Store.bytes t (128 * row + 64 * kh + 2 * k) 2))

def isZero : FVal → Bool
  | .fin _ m _ => m == 0
  | _ => false

/-- The exact sum of products. -/
def exactSum (l : List FVal) : FVal := l.foldl (fun s p => (addVal 0 s p).1) (.fin false 0 0)

/-- Products of a group of 8 summed exactly and rounded once to FP32 (R184). -/
def groupSum (l : List FVal) : Nat × Nat := (fmtOf 0).ofValue 0 (exactSum l)

def groupsOf8 (l : List FVal) : List (List FVal) := (List.range 4).map fun g => (l.drop (8 * g)).take 8

/-- BF16 and FP16 (R184, R223; the count as R183 says, DEDUCED, unsafe: notes/assumptions/62.md): the element after the products of one sign, or of both; flags of ag and of FSTAT. -/
def floatElement (v : Nat) (ps : List FVal) (nan : Bool) : Nat × Nat × Nat :=
  let f := fmtOf 0
  let (cnt, ag) := countUp (accCnt v) (nan || !isZero (exactSum ps))
  if nan then (cnt * 2 ^ 49 + f.nan, ag, fInvalid) else
  let (x, fl) := (groupsOf8 ps).foldl (fun (x, fl) g =>
    let (s, f1) := groupSum g
    let (y, f2) := f.add 0 x s
    (y, fl ||| f1 ||| f2)) (v % 2 ^ 32, 0)
  (cnt * 2 ^ 49 + x, ag, fl &&& fOverflow)

def keepSign (neg : Bool) : FVal → FVal
  | .fin n m e => if n == neg then .fin false m e else .fin false 0 0
  | .inf n => if n == neg then .inf false else .fin false 0 0
  | v => v

/-- The elements (i, j) of an operation's slots after it: per slot the element, flags of ag, flags of FSTAT. -/
def mmaElement (split : Bool) (fw p1 ref : Nat) (a b : Store 8) (i j : Nat) (old : List Nat) : List (Nat × Nat × Nat) :=
  let fmt := bits fw 3 0
  let kh := mmaKh p1
  if fmt == 5 then
    let cs := (List.range 4).map fun k => rq8Contrib split ref (rq8Row a i k) (rq8Row b j k)
    old.mapIdx fun h v =>
      let (x, ag) := rq8Element v (cs.filterMap fun l => l[h]?)
      (x, ag, 0)
  else if fmt == 4 then old.map fun v => int8Element v (int8Row a i kh) (int8Row b j kh)
  else
    let f := fmtOf fmt
    let ps := ((floatRow f a i kh).zip (floatRow f b j kh)).map fun (x, y) => (mulVal x y).1
    let nan := ps.any isNan
    if split then old.mapIdx fun h v => floatElement v (ps.map (keepSign (h == 1))) nan
    else old.map fun v => floatElement v ps nan

/-! ## Drains (R230) -/

/-- An accumulator element as a drain reads it. -/
def drnValue (afmt v : Nat) (sign : Bool) : FVal :=
  if afmt == 5 then
    if isNar (accVal v) then .nan false else
    let x := residueCrt (accVal v)
    if sign && 2 * x ≥ residueM then .fin true (residueM - x) 0 else .fin false x 0
  else if afmt == 3 then
    let x := signed 32 v
    .fin (x < 0) x.natAbs 0
  else match (fmtOf 0).value (v % 2 ^ 32) with
    | .nan _ => .nan false
    | y => y

/-- A finite value's signed mantissa and exponent. -/
def finParts : FVal → Int × Int
  | .fin neg m e => (if neg then -(m : Int) else m, e)
  | _ => (0, 0)
def ofParts (m e : Int) : FVal := .fin (m < 0) m.natAbs e

/-- A quotient of finite values rounded once with RNE; zero is +0. -/
def roundRatio (f : Fmt) (p q : Int × Int) : Nat × Nat :=
  if p.1 == 0 then (f.zero false, 0) else
  let m := p.1.natAbs * 2 ^ 640
  let d := q.1.natAbs
  f.round 0 ((p.1 < 0) != (q.1 < 0)) (m / d) (p.2 - q.2 - 640) (m % d != 0)

/-- A value times 2^k rounded once to OFMT with RNE, an exact zero being +0. -/
def drnRound (ofmt : Nat) (k : Int) : FVal → Nat × Nat
  | .fin neg m e => if ofmt == 3 then (wrapNat 32 (if neg then -(m * 2 ^ e.toNat : Nat) else (m * 2 ^ e.toNat : Nat)), 0)
      else if m == 0 then (0, 0) else (fmtOf ofmt).round 0 neg m (e + k)
  | .inf neg => ((fmtOf ofmt).inf neg, 0)
  | .nan _ => ((fmtOf ofmt).nan, 0)

/-- One output of a drain: bits, flags of FSTAT, whether AGREE zeroed it, whether DOM saturated. -/
def drnOutput (mode ofmt : Nat) (k : Int) (thr : Nat) (xs : List FVal) : Nat × Nat × Bool × Bool :=
  let f := fmtOf ofmt
  if xs.any isNan then (f.nan, 0, false, false) else
  match xs with
  | [x] => let (v, fl) := drnRound ofmt k x; (v, fl, false, false)
  | [p, n] =>
    let inf := fun (v : FVal) => match v with
      | .inf _ => true
      | _ => false
    if mode == 1 || mode == 2 then
      let (s, fl) := addVal 0 p (if mode == 1 then negVal n else n)
      let (v, f2) := drnRound ofmt k s
      (v, fl ||| f2, false, false)
    else if inf p || inf n then (f.nan, fInvalid, false, false) else
    let pp := finParts p
    let np := finParts n
    let sum := sumFin (pp.1 < 0) pp.1.natAbs pp.2 (np.1 < 0) np.1.natAbs np.2
    let dif := sumFin (pp.1 < 0) pp.1.natAbs pp.2 (np.1 ≥ 0) np.1.natAbs np.2
    if mode == 3 then
      if sum.1 == 0 then (0, 0, false, false) else
      let least := if dif.1 ≤ 0 then pp else np
      let (v, fl) := roundRatio f (2 * least.1, least.2) sum
      (v, fl, false, false)
    else if mode == 4 then
      if pp.1 == 0 && np.1 == 0 then ((f.ofValue 0 (.fin false 1 0)).1, 0, false, false)
      else if np.1 == 0 then (f.largest (pp.1 < 0), 0, false, true)
      else
        let (v, fl) := roundRatio f pp np
        if fl &&& fOverflow != 0 then (f.largest ((pp.1 < 0) != (np.1 < 0)), fl &&& fInexact, false, true) else (v, fl, false, false)
    else
      if sum.1 == 0 then (0, 0, false, false)
      -- both sums stand on the lower exponent of the two halves
      else if (dif.1.natAbs : Int) * 65536 < thr * sum.1 then (0, 0, true, false)
      else
        let (v, fl) := drnRound ofmt k (ofParts dif.1 dif.2)
        (v, fl, false, false)
  | _ => (0, 0, false, false)

/-- The 32 outputs of a drain row. -/
def drnRow (acc : Store 64) (mode slot afmt ofmt stg row ag : Nat) : List (Nat × Nat × Bool × Bool) :=
  let k : Int := if afmt == 5 then (agRef ag : Int) - 254 - stg else 0
  (List.range 32).map fun j =>
    let el := fun (s : Nat) => (Store.get acc (accKey s row j)).toNat
    let xs := if mode == 0 then [drnValue afmt (el slot) true]
      else [drnValue afmt (el (2 * slot)) false, drnValue afmt (el (2 * slot + 1)) false]
    drnOutput mode ofmt k (agThr ag) xs

end Sys2Proof.Machine
end

