-- ==== Sys2Proof/Machine/Engines.lean ====
section
/-! DEFINITION. The matrix queue and the tile fetch unit of a core (spec 09_isa_matrix.md R205, R209, R212 to R216,
R223, R233, R234, R494), and the completion of everything a block's engines still hold.
Where the spec leaves a point open: notes/assumptions, entries 9, 17, 27, 47, 70. -/

namespace Sys2Proof.Machine

def tileOf (s : State) (c k : Nat) : Tile := Table.getD (coreOf s c).tiles k {}
def modTile (s : State) (c k : Nat) (f : Tile → Tile) : State :=
  modCore s c fun x => { x with tiles := Table.set x.tiles k (f (tileOf s c k)) }
def orAg (s : State) (c k flags : Nat) : State :=
  modCore s c fun x => { x with ag := Store.set x.ag k (Store.get x.ag k ||| BitVec.ofNat 64 flags) }
def orFstat (s : State) (c sl flags : Nat) : State :=
  modBlock s c sl fun b => b.modRegs fun r => { r with fstat := r.fstat ||| BitVec.ofNat 32 flags }

/-! ## Faults found by an engine -/

/-- A fabric fault (R370): every stream of the span stops, every token is discarded; the control program is told at its
next boundary. In a sealed region the streams wait for the rollback, which restarts them (R380). -/
def fabricFault (s : State) (c sl cause addr site wst : Nat) (detail : Nat := 0) : State :=
  match blockOf s c sl with
  | none => s
  | some b =>
    let sealed := isSealed s b
    modBlock s c sl fun b =>
      { b with
        traps := b.traps ++ [{ cause, addr, wst, detail, site := some site, imprecise := true }]
        fab := { b.fab with
          bufs := []
          ports := b.fab.ports.map fun (i, p) =>
            (i, if sealed then { p with stopped := true } else { p with active := none, pending := none, waitFrom := none }) } }

/-- The block an entry of a core's matrix queue belongs to: of an entry of the matrix port, the block that holds the
core's fabric (R17, R365). -/
def mqBlock (s : State) (c : Nat) (e : Mq) : Nat × Nat :=
  if e.port.isSome then ((coreOf s c).fabricOf).getD (c, e.slot) else (c, e.slot)

/-- MEMORY_ERROR found by the matrix unit (R494): imprecise and block-wide; of a spatial block a fabric fault. -/
def matrixPoison (s : State) (c : Nat) (e : Mq) (addr : Nat) : State :=
  match e.port with
  | some _ => fabricFault s (mqBlock s c e).1 (mqBlock s c e).2 24 addr e.site 0
  | none => modBlock s c e.slot fun b =>
      { b with traps := b.traps ++ [{ cause := 24, addr, site := some e.site, imprecise := true, blockWide := true }] }

/-! ## The matrix queue (R209) -/

def MqOp.isTrel : MqOp → Bool
  | .trel _ => true
  | _ => false
/-- Whether an entry reads tile slot k. -/
def MqOp.reads (k : Nat) : MqOp → Bool
  | .mma _ p1 _ => mmaTa p1.toNat == k || mmaTb p1.toNat == k
  | _ => false

def queueLen (s : State) (c : Nat) : Nat := ((coreOf s c).mq.filter fun e => !e.op.isTrel).length
/-- The block's entries, in order. -/
def mqOf (s : State) (c sl : Nat) : List Mq := (coreOf s c).mq.filter fun e => e.slot == sl && !e.op.isTrel

/-- Whether a queued fetch waits for earlier entries of its block that read its slot (R212). -/
def fetchHeld (s : State) (c : Nat) (f : TileFetch) : Bool := ((mqOf s c f.slot).take f.mqBefore).any fun e => e.op.reads f.k

/-- A fetch whose slot's pins have gone (R212). -/
def TileFetch.begin (f : TileFetch) (s : State) (c : Nat) : TileFetch :=
  { f with started := true, priorPins := (tileOf s c f.k).pins.map (·.1) }

/-- The unit starts a fetch: its slot's pins go and it is FILLING (R212); no deferred release is left for it (R67). -/
def startFetch (s : State) (c : Nat) (f : TileFetch) : State :=
  let g := f.begin s c
  let s := modTile (releasePins s c f.k) c f.k fun t => { t with fill := .filling }
  let s := modBlock s c f.slot fun b => b.modStage fun g => { g with deferred := g.deferred.filter fun d => d != (c, f.k) }
  modCore s c fun k => { k with tfq := k.tfq.map fun x => if x == f then g else x }

/-- The unit starts every fetch it can, in queue order (R212), one to a slot at a time: a slot is FILLING before a later
entry of its block reads it, and a second fetch of the slot begins when the first has delivered (DEDUCED, unsafe:
notes/assumptions/70.md). -/
def startFetches (s : State) (c : Nat) : State := go s [] (coreOf s c).tfq
where
  go (s : State) (busy : List Nat) : List TileFetch → State
    | [] => s
    | f :: r =>
      if f.started then go s (f.k :: busy) r
      else if busy.contains f.k || fetchHeld s c f then s
      else go (startFetch s c f) (f.k :: busy) r

/-- The block's first entry leaves the queue. -/
def popMq (s : State) (c sl : Nat) : State :=
  startFetches (modCore s c fun k =>
    { k with mq := drop1 k.mq, tfq := k.tfq.map fun t => if t.slot == sl then { t with mqBefore := t.mqBefore - 1 } else t }) c
where
  /-- The list without the first entry of the slot that counts. -/
  drop1 : List Mq → List Mq
    | [] => []
    | e :: r => if e.slot == sl && !e.op.isTrel then r else e :: drop1 r

/-- A pin release of a slot: at once, or after the commit in a sealed region (R67). -/
def letPinsGo (s : State) (c sl k : Nat) (on : Nat := c) : State :=
  match blockOf s c sl with
  | some b => if isSealed s b then modBlock s c sl fun b => b.modStage fun g => { g with deferred := g.deferred ++ [(on, k)] } else releasePins s on k
  | none => releasePins s on k

/-- The first poisoned row an operand would read, or its sideband for RQ8 (R214): the address of its line. -/
def tilePoison (t : Tile) (rq8 : Bool) : Option Nat :=
  if t.fill == .empty then none else
  ((List.range 33).find? fun r => t.poison.getLsbD r && (r < 32 || rq8)).map fun r => Table.getD t.poisonAddr r 0
def tileRows (t : Tile) : Store 8 := if t.fill == .empty then [] else t.rows

/-- The accumulator keys of a slot's row, or of the whole slot. -/
def accRow (j i : Nat) : List Nat := upFrom (accKey j i 0) 32
def accMarked (s : State) (c : Nat) (ks : List Nat) : Bool := ks.any (coreOf s c).accPoison.contains
def slotMarked (s : State) (c j : Nat) : Bool := (coreOf s c).accPoison.any fun k => k / 1024 == j

/-- Counter and weight of a multiply (R407, R410): counter, weight entry, MACs. -/
def macCharge (fmt : Nat) : Nat × Nat × Nat := if fmt == 5 then (3, 5, 131072) else if fmt == 4 then (4, 6, 65536) else (5, 7, 32768)

/-- An MMA or MMAS at the head (R223). None: a slot is FILLING or AWAITING. -/
def runMma (s : State) (c : Nat) (e : Mq) (split : Bool) (p1 fw : Nat) : Option State :=
  let ta := tileOf s c (mmaTa p1)
  let tb := tileOf s c (mmaTb p1)
  let waits := fun (t : Tile) => t.fill == .filling || t.fill == .awaiting
  if waits ta || waits tb then none else
  let fmt := bits fw 3 0
  let s := popMq s c e.slot
  match tilePoison ta (fmt == 5), tilePoison tb (fmt == 5) with
  | some a, _ => some (matrixPoison s c e a)
  | none, some a => some (matrixPoison s c e a)
  | none, none =>
    let slots := dstSlots split p1
    if slots.any (slotMarked s c) then some (matrixPoison s c e 0) else
    let pair := pairOf split p1
    let k := coreOf s c
    let ref := agRef (Store.get k.ag pair).toNat
    let a := tileRows ta
    let b := tileRows tb
    let out := (List.range 1024).map fun x =>
      (x, mmaElement split fw p1 ref a b (x / 32) (x % 32) (slots.map fun j => (Store.get k.acc (j * 1024 + x)).toNat))
    let acc := slots.mapIdx (fun h j => (h, j)) |>.foldl (fun acc (h, j) =>
      Store.setAll acc (out.map fun (x, vs) => (j * 1024 + x, BitVec.ofNat 64 ((vs[h]?).getD (0, 0, 0)).1))) k.acc
    let ag := orAll' (out.flatMap fun (_, vs) => vs.map (·.2.1))
    let fl := orAll' (out.flatMap fun (_, vs) => vs.map (·.2.2))
    let s := modCore s c fun k => { k with acc }
    let (hc, hs) := mqBlock s c e
    let s := orFstat (orAg s c pair ag) hc hs fl
    let s := if bit p1 18 then letPinsGo s hc hs (mmaTa p1) c else s
    let s := if bit p1 17 then letPinsGo s hc hs (mmaTb p1) c else s
    let (ctr, w, n) := macCharge fmt
    some (chargeBlock s hc hs ctr n (n * ewtOf s w))
where
  orAll' (l : List Nat) : Nat := l.foldl (fun a b => a ||| b) 0

def writeLocal (s : State) (c sl addr : Nat) (bs : List Byte) : State :=
  energyBlock (modBlock s c sl fun b => b.modMem fun m => m.storeLoc addr bs false) c sl 12 (bs.length / 4)

/-- A drain row at the head (R230, R231). -/
def runDrn (s : State) (c : Nat) (e : Mq) (p1 addr row : Nat) : State :=
  let s := popMq s c e.slot
  let mode := bits p1 31 29
  let slot := bits p1 28 26
  let k := coreOf s c
  let pair := if mode == 0 then slot / 2 else slot
  let marked := if mode == 0 then accMarked s c (accRow slot row) else accMarked s c (accRow (2 * slot) row ++ accRow (2 * slot + 1) row)
  if marked then matrixPoison s c e 0 else
  let ag := (Store.get k.ag pair).toNat
  let ofmt := bits p1 21 18
  let outs := drnRow k.acc mode slot (bits p1 25 22) ofmt (bits p1 17 15) row ag
  let z := if ofmt == 0 || ofmt == 3 then 4 else 2
  let s := writeLocal s c e.slot addr (outs.flatMap fun o => valBytes z o.1)
  let zeroed := (outs.filter fun o => o.2.2.1).length
  let zc := min (agZcnt ag + zeroed) 65535
  let ag := ag - agZcnt ag * 65536 + zc * 65536
  let s := modCore s c fun k => { k with ag := Store.set k.ag pair (BitVec.ofNat 64 ag ||| BitVec.ofNat 64 (if outs.any fun o => o.2.2.2 then fRatov else 0)) }
  orFstat s c e.slot (outs.foldl (fun a o => a ||| o.2.1) 0)

/-- An ALD or AST row at the head (R226). -/
def runRow (s : State) (c : Nat) (e : Mq) (slot addr row : Nat) (store : Bool) : State :=
  let s := popMq s c e.slot
  let ks := accRow slot row
  if store then
    if accMarked s c ks then matrixPoison s c e 0
    else writeLocal s c e.slot addr (ks.flatMap fun k => valBytes 8 (Store.get (coreOf s c).acc k).toNat)
  else
    match blockOf s c e.slot with
    | none => s
    | some b =>
      let words := (List.range 32).map fun i => b.mem.loadLoc (addr + 8 * i) 8
      let s := energyBlock s c e.slot 12 64
      modCore s c fun k =>
        { k with acc := Store.setAll k.acc ((ks.zip words).map fun (i, w) => (i, BitVec.ofNat 64 (bytesVal w.1)))
                 accPoison := (ks.zip words).foldl (fun p (i, w) => mark p i w.2) k.accPoison }

/-- AZERO at the head (R225). -/
def runAzero (s : State) (c : Nat) (e : Mq) (dreg : Nat) : State :=
  let s := popMq s c e.slot
  let slots := if dreg < 8 then [dreg] else [2 * (dreg - 8), 2 * (dreg - 8) + 1]
  let pair := if dreg < 8 then dreg / 2 else dreg - 8
  modCore s c fun k =>
    { k with acc := Store.keep k.acc fun i => !slots.contains (i / 1024)
             accPoison := k.accPoison.filter fun i => !slots.contains (i / 1024)
             ag := Store.set k.ag pair (Store.get k.ag pair &&& 0x000000FF0000FFFF#64) }

/-- AGSET at the head (R227). -/
def runAgset (s : State) (c : Nat) (e : Mq) (k thr ref : Nat) : State :=
  modCore (popMq s c e.slot) c fun x =>
    { x with ag := Store.set x.ag k (Store.get x.ag k &&& ~~~(0x000000FF0000FFFF#64) ||| BitVec.ofNat 64 (ref * 2 ^ 32 + thr)) }

/-- AGGET at the head (R227): its result returns. -/
def runAgget (s : State) (c : Nat) (e : Mq) (k id : Nat) : State :=
  let s := popMq s c e.slot
  let v := valBytes 8 (Store.get (coreOf s c).ag k).toNat
  match s.pending.find? (·.id == id) with
  | some p => returnResult s { p with elts := p.elts.map fun x => (x.1, some v, false) }
  | none => s

/-- Tile-slot releases whose readers have read (R216). -/
def runTrels (s : State) (c sl : Nat) : State :=
  let (ready, mq) := go [] (coreOf s c).mq
  let s := ready.foldl (fun s k => releasePins s c k) s
  if ready.isEmpty then s else modCore s c fun x => { x with mq }
where
  /-- Slots named by the TRELs of the block before which no entry reads them, and the queue without those TRELs. -/
  go (before : List Mq) : List Mq → List Nat × List Mq
    | [] => ([], [])
    | e :: r =>
      let go? := match e.op with
        | .trel k => if e.slot == sl && !before.any (fun x => x.slot == sl && x.op.reads k) then some k else none
        | _ => none
      let (ks, q) := go (before ++ [e]) r
      match go? with
      | some k => (k :: ks, q)
      | none => (ks, e :: q)

/-- The block's first entry is executed; none when it must wait or there is none. -/
def runHead (s : State) (c sl : Nat) : Option State :=
  match mqOf s c sl with
  | [] => none
  | e :: _ => match e.op with
    | .mma split p1 fw => (runMma s c e split p1.toNat fw.toNat).map fun s => runTrels s c sl
    | .drn p1 addr row => some (runDrn s c e p1.toNat addr row)
    | .ald j addr row => some (runRow s c e j addr row false)
    | .ast j addr row => some (runRow s c e j addr row true)
    | .azero d => some (runAzero s c e d)
    | .agset k thr ref => some (runAgset s c e k thr ref)
    | .agget k id _ => some (runAgget s c e k id)
    | .trel _ => none

/-- Entries at the head that take no event of their own: AZERO, AGSET, AGGET, and the releases of TREL. -/
def runQuick (s : State) (c sl : Nat) : Nat → State
  | 0 => s
  | f + 1 => match mqOf s c sl with
    | [] => s
    | e :: _ => match e.op with
      | .azero _ => runQuick ((runHead s c sl).getD s) c sl f
      | .agset _ _ _ => runQuick ((runHead s c sl).getD s) c sl f
      | .agget _ _ _ => runQuick ((runHead s c sl).getD s) c sl f
      | _ => s
def settleQuick (s : State) (c sl : Nat) : State := runTrels (runQuick s c sl 17) c sl

/-! ## The tile fetch unit (R212 to R215) -/

/-- The block of a launch that holds tile slot k of a core in its claim set: one of the core's own, or the block whose
fabric the core belongs to (R17, R120). -/
def tileHolder (s : State) (x launch k : Nat) : Option (Nat × Nat) :=
  let holds := fun (b : Block) => b.launch == launch && b.claim.tb.getLsbD k
  match (coreOf s x).slots.find? fun e => holds e.2 with
  | some e => some (x, e.1)
  | none => ((coreOf s x).fabricOf).filter fun h => (blockOf s h.1 h.2).any holds

/-- Cores of the sender's column, other than the sender, that CMASK names and where a block of its launch holds tbK. A
block that is itself being saved holds no target (R213, R234). -/
def fetchTargets (s : State) (c : Nat) (f : TileFetch) (saving : Bool) : List Nat :=
  match f.mask, blockOf s c f.slot with
  | some m, some b => (List.range 6).filterMap fun p =>
      let x := c / 6 * 6 + p
      if x != c && m.getLsbD p && ((tileHolder s x b.launch f.k).bind fun h => blockOf s h.1 h.2).any (fun t => !(saving && t.want.preempt))
      then some x else none
  | _, _ => []

/-- The distinct lines of a fetch, (virtual, physical). -/
def TileFetch.all (f : TileFetch) : List (Nat × Nat) := f.lines ++ f.scale.toList

/-- Whether a slot's pins hold all 12 ways of a line's set (R280): no pin that another slot lets go frees a way for it. -/
def pinsFillSet (pins : List (Nat × Option Nat)) (line : Nat) : Bool :=
  decide (12 ≤ (pins.filter fun p => sliceOfLine p.1 == sliceOfLine line && setOfLine p.1 == setOfLine line).length)

/-- One slot receives the lines: its own pins on each distinct line of package memory (R283), then rows, poison and fill
state. None: a fill must wait (R285). A line whose set this very fetch has filled is read and gets no pin
(DESIGN CHOICE, unsafe: notes/assumptions/47.md). -/
def receiveTile (s : State) (c : Nat) (f : TileFetch) (bytes : Table (List Byte × Bool)) : Option State :=
  let pas := (f.all.map (·.2)).eraseDups.filter isPackage
  let r := pas.foldl (fun (r : Option (State × List (Nat × Option Nat))) pa =>
    r.bind fun (s, ps) =>
      if pinsFillSet ps (pa / 128) then some (s, ps)
      else (pinLine s (pa / 128)).map fun (s, e) => (s, ps ++ [(pa / 128, e)])) (some (s, []))
  r.map fun (s, pins) => modTile s c f.k fun t =>
    let put := fun (t : Tile) (i : Nat) (va pa : Nat) =>
      let (bs, bad) := Table.getD bytes pa (List.replicate 128 0#8, false)
      { t with rows := Store.setBytes t.rows (128 * i) bs
               poison := if bad then t.poison ||| (1#33 <<< i) else t.poison &&& ~~~(1#33 <<< i)
               poisonAddr := if bad then Table.set t.poisonAddr i va else Table.erase t.poisonAddr i }
    let t := f.lines.mapIdx (fun i l => (i, l)) |>.foldl (fun t (i, l) => put t i l.1 l.2) t
    let t := match f.scale with
      | some l => put t 32 l.1 l.2
      | none => t
    { t with pins, fill := .ready }

/-- The lines are read, each once, and delivered to the sender and to `targets`; the fetch leaves the queue. -/
def deliverTile (s : State) (c : Nat) (f : TileFetch) (targets : List Nat) : Option State :=
  let id := CtxId.blk c f.slot
  let pas := (f.all.map (·.2)).eraseDups
  let lines := pas.map (· / 128)
  -- the stream's earlier stores to the lines perform first (R215)
  let s := drainLines s id lines f.id
  if s.path.any (fun p => p.ctx == id && !p.sent && p.id < f.id && lines.contains (p.pa / 128)) || pas.any (unserved s ·) then none else
  let (s, bytes) := pas.foldl (fun ((s, t) : State × Table (List Byte × Bool)) pa =>
    if isPackage pa then
      let (s, bs, bad) := readHome s pa 128 none
      (charge s (.blk c f.slot) 6 128 (ewtOf s 9), Table.set t pa (bs, bad))
    else
      let (s, bs) := outsideBytes s 128
      (charge s (.blk c f.slot) 10 128 (128 * ewtOf s 11), Table.set t pa (bs, false))) (s, [])
  let r := (c :: targets).foldl (fun (r : Option State) x => r.bind fun s => receiveTile s x f bytes) (some s)
  r.map fun s =>
    -- pins taken in a sealed region go if the block rolls back, a receiver's too (R67)
    let launch := ((blockOf s c f.slot).map (·.launch)).getD 0
    let s := (c :: targets).foldl (fun s x => match tileHolder s x launch f.k with
      | some (hc, hs) => modBlock s hc hs fun b => if isSealed s b then b.modStage fun g => { g with regionPins := g.regionPins ++ [(x, f.k)] } else b
      | none => s) s
    startFetches (modCore s c fun k => { k with tfq := k.tfq.erase f }) c

/-- What a fetch does next. -/
inductive FetchRes
  | done (s : State)
  | rendezvous (s : State)
  | waits

/-- A queued fetch performs (R212, R213): it waits for earlier entries that read its slot, then its slot is FILLING, then
for every target to be AWAITING. -/
def runFetch (s : State) (c : Nat) (f : TileFetch) (saving : Bool) : FetchRes :=
  if !f.started && fetchHeld s c f then .waits else
  let (s, f) := if f.started then (s, f) else (startFetch s c f, f.begin s c)
  let ts := fetchTargets s c f saving
  let ready := ts.filter fun x => (tileOf s x f.k).fill == .awaiting
  if ready.length < ts.length && !saving then .rendezvous s
  else match deliverTile s c f ready with
    | some s => .done s
    | none => .waits

/-- The head of a core's tile fetch queue. -/
def fetchStep (s : State) (c : Nat) : State :=
  let s := startFetches s c
  match (coreOf s c).tfq with
  | [] => s
  | f :: _ => match runFetch s c f false with
    | .done s => s
    | .rendezvous s => s
    | .waits => s

/-! ## Completion (R234) -/

/-- A fetch at rendezvous is removed: its slot is as at issue, its pins on the same lines again (R234). -/
def undoFetch (s : State) (c id : Nat) : State :=
  match (coreOf s c).tfq.find? (·.id == id) with
  | none => s
  | some f =>
    let (s, pins) := f.priorPins.foldl (fun (s, ps) l => match pinLine s l with
      | some (s, e) => (s, ps ++ [(l, e)])
      | none => (s, ps)) (s, [])
    let s := modTile s c f.k fun t => { t with fill := f.prior, pins }
    modCore s c fun k => { k with tfq := k.tfq.filter fun x => x.id != id }

/-- Everything the block's matrix queue and tile fetches hold completes, as far as it can; a fetch at rendezvous is
removed and its slot as it was at issue, or at a save delivered to the targets that are AWAITING. -/
def settleTiles (s : State) (c sl : Nat) (saving : Bool) : Nat → State
  | 0 => s
  | f + 1 => match runHead s c sl with
    | some s => settleTiles s c sl saving f
    | none => match (coreOf s c).tfq.find? (·.slot == sl) with
      | none => s
      | some t => match runFetch s c t saving with
        | .done s => settleTiles s c sl saving f
        | .rendezvous s => settleTiles (startFetches (undoFetch s c t.id) c) c sl saving f
        | .waits => s

def tileFuel (s : State) (c : Nat) : Nat := (coreOf s c).mq.length + (coreOf s c).tfq.length + 1

/-- The block's copies, tile fetches and matrix entries complete (R71, R234, R348). -/
def settleEngines (s : State) (c sl : Nat) : State :=
  let s := culvertSettle c 0 sl (culvertFuel s c 0) s
  let s := culvertSettle c 1 sl (culvertFuel s c 1) s
  (spanOf s c sl).foldl (fun s c => runTrels (settleTiles s c sl false (tileFuel s c)) c sl) s
where
  /-- The block's core, and the others of its span in fabric mode. -/
  spanOf (s : State) (c sl : Nat) : List Nat :=
    match blockOf s c sl with
    | some b => if b.exec.model == .spatial then upFrom c b.fab.span else [c]
    | none => [c]

end Sys2Proof.Machine
end

