-- ==== Sys2Proof/Machine/Versions.lean ====
section
/-! DEFINITION. Where a version keeps a mapped value (R74, R394), the EP snapshot and the rollback (R68, R71).
Where the spec leaves a point open: notes/assumptions, entries 28, 69. -/

namespace Sys2Proof.Machine

/-- Bits of a mapped value (R393). -/
def MapEntry.bits_ (e : MapEntry) : Nat := 8 * 2 ^ e.width

/-- Key of field `fld` of element `elem` in `Fabric.fields`. -/
def fabKey (elem fld : Nat) : Nat := elem * 64 + fld
def Fabric.field (f : Fabric) (elem fld : Nat) : Nat := (Store.get f.fields (fabKey elem fld)).toNat
def Fabric.setField (f : Fabric) (elem fld v : Nat) : Fabric :=
  { f with fields := Store.set f.fields (fabKey elem fld) (BitVec.ofNat 16 v) }
/-- K0, K1 and S are two halves (R357). -/
def isHalves (fld : Nat) : Bool := fld == 0x08 || fld == 0x0A || fld == 0x0C
def Fabric.word (f : Fabric) (elem fld : Nat) : Nat :=
  if isHalves fld then f.field elem fld + 65536 * f.field elem (fld + 1) else f.field elem fld
def Fabric.setWord (f : Fabric) (elem fld v : Nat) : Fabric :=
  if isHalves fld then (f.setField elem fld (v % 65536)).setField elem (fld + 1) (v / 65536) else f.setField elem fld v

/-- The location of an entry in a version. -/
def MapEntry.loc (e : MapEntry) (m : Model) : Loc := (e.locs[m.code - 1]?).getD ⟨0, 0, 0, 0, 0⟩

/-- The value a block holds at a location, for thread `t` (any live thread for a uniform value). -/
def readLoc (b : Block) (m : Model) (e : MapEntry) (t : Nat) : Nat :=
  let l := e.loc m
  let w := e.bits_
  let per := e.ekind == 0
  let mask := 2 ^ w
  match l.lk, m with
  | 1, .threaded => (if w == 64 then (b.mem.d t l.reg).toNat else (b.mem.g t l.reg).toNat) % mask
  | 1, .vector =>
    if per then
      let r := l.reg + (if w == 64 then 2 else 1) * (t / 256)
      ((b.mem.v r (t % 256)).toNat + (if w == 64 then 2 ^ 32 * (b.mem.v (r + 1) (t % 256)).toNat else 0)) % mask
    else (b.exec.ctl.s l.reg).toNat % mask
  | 2, _ => bytesVal (Store.bytes b.mem.loc (l.base + (if per then t * l.str else 0)) (w / 8))
  | 3, _ => b.fab.word (l.base + (if per then t else 0)) l.fld % mask
  | _, _ => 0

/-- Whether the value a block holds at a location carries a poison mark (R123). -/
def badLoc (b : Block) (m : Model) (e : MapEntry) (t : Nat) : Bool :=
  let l := e.loc m
  let two := e.bits_ == 64
  let per := e.ekind == 0
  match l.lk, m with
  | 1, .threaded => (if two then [gKey t (2 * l.reg), gKey t (2 * l.reg + 1)] else [gKey t l.reg]).any b.mem.rowPoison.contains
  | 1, .vector =>
    if per then
      let r := l.reg + (if two then 2 else 1) * (t / 256)
      (if two then [vKey r (t % 256), vKey (r + 1) (t % 256)] else [vKey r (t % 256)]).any b.mem.rowPoison.contains
    else b.exec.ctl.spoison.contains l.reg
  | 2, _ => (b.mem.loadLoc (l.base + (if per then t * l.str else 0)) (e.bits_ / 8)).2
  | _, _ => false

/-- A value written at its location with its poison mark; bits of the location wider than the value are cleared (R75). -/
def writeLoc (b : Block) (m : Model) (e : MapEntry) (t v : Nat) (bad : Bool) : Block :=
  let l := e.loc m
  let w := e.bits_
  let per := e.ekind == 0
  match l.lk, m with
  | 1, .threaded => b.modMem fun x =>
    if w == 64 then (x.setRow (gKey t (2 * l.reg)) (BitVec.ofNat 32 v) bad).setRow (gKey t (2 * l.reg + 1)) (BitVec.ofNat 32 (v / 2 ^ 32)) bad
    else x.setRow (gKey t l.reg) (BitVec.ofNat 32 v) bad
  | 1, .vector =>
    if per then b.modMem fun x =>
      let r := l.reg + (if w == 64 then 2 else 1) * (t / 256)
      let x := x.setRow (vKey r (t % 256)) (BitVec.ofNat 32 v) bad
      if w == 64 then x.setRow (vKey (r + 1) (t % 256)) (BitVec.ofNat 32 (v / 2 ^ 32)) bad else x
    else b.modCtl fun c => c.setS l.reg (BitVec.ofNat 64 v) bad
  | 2, _ => b.modMem fun x => x.storeLoc (l.base + (if per then t * l.str else 0)) (valBytes (w / 8) v) bad
  | 3, _ => { b with fab := b.fab.setWord (l.base + (if per then t else 0)) l.fld v }
  | _, _ => b

/-- Liveness of the threads: the threads themselves in the threaded version, elsewhere the location of the liveness
entry (R74, R75). -/
def readLive (b : Block) (m : Model) (e : MapEntry) (t : Nat) : Bool :=
  match m with
  | .threaded => (threadOf b t).live
  | _ =>
    let l := e.loc m
    if l.lk == 4 then b.mem.p l.reg t else (Store.get b.mem.loc (l.base + t / 8)).getLsbD (t % 8)

def writeLive (b : Block) (m : Model) (e : MapEntry) (live : List Bool) : Block :=
  let l := e.loc m
  match l.lk with
  | 4 =>
    let v := BitVec.ofNat 2048 ((live.mapIdx fun i on => if on then 2 ^ i else 0).sum)
    b.modMem fun x => { x with preds := Store.set x.preds l.reg v }
  | 2 => b.modMem fun x => x.storeLoc l.base (valBytes (ceilDiv live.length 8) ((live.mapIdx fun i on => if on then 2 ^ i else 0).sum)) false
  | _ => b

/-- The map entries of EP k (R393). -/
def KObj.entries (o : KObj) (k : Nat) : List MapEntry := if k == 0 then [] else (o.map[k - 1]?).getD []

def accSlot (m : Store 64) (j : Nat) : Store 64 := Store.keep m fun k => k / 1024 == j

/-- The snapshot of the EP that opens region k (R68). -/
def takeSnapshot (s : State) (c : Nat) (b : Block) (k : Nat) : Snapshot :=
  let o := objOf s b
  let r := ((o.map (·.region k)).getD {})
  let es := (o.map (·.entries k)).getD []
  let n := b.nthr
  let first := (leastOf b.liveThreads).getD 0
  let cs := if b.exec.model == .spatial then upFrom c b.fab.span else [c]
  { ep := k
    values := es.mapIdx fun i e =>
      if e.ekind == 0 then (i, Store.setAll [] ((List.range n).map fun t => (t, BitVec.ofNat 64 (readLoc b b.exec.model e t))))
      else if e.ekind == 1 then (i, Store.set [] 0 (BitVec.ofNat 64 (readLoc b b.exec.model e first)))
      else (i, [])
    live := match b.exec.model with
      | .threaded => Store.set [] 0 (BitVec.ofNat 2048 ((b.exec.threads.mapIdx fun i t => if t.live then 2 ^ i else 0).sum))
      | m => match es.find? (·.ekind == 2) with
        | some e => Store.set [] 0 (BitVec.ofNat 2048 (((List.range n).map fun i => if readLive b m e i then 2 ^ i else 0).sum))
        | none => Store.set [] 0 (BitVec.ofNat 2048 (2 ^ n - 1))
    ranges := r.lwset.map fun w => (w.1, Store.bytes b.mem.loc w.1 w.2)
    acc := cs.flatMap fun x => (Store.keep (coreOf s x).acc fun i => bit r.amask (i / 1024)).map fun e => (8192 * (x - c) + e.1, e.2)
    ag := cs.flatMap fun x => ((List.range 4).filter fun i => bit r.amask (2 * i) || bit r.amask (2 * i + 1)).map fun i =>
      (4 * (x - c) + i, Store.get (coreOf s x).ag i)
    tiles := cs.flatMap fun x => ((List.range 8).filter fun i => bit r.tmask i).map fun i => (8 * (x - c) + i, Table.getD (coreOf s x).tiles i {})
    fstat := b.regs.fstat
    vlen := b.regs.vlen
    resume := b.streams.map fun t => (t, b.pcOf t)
    ports := b.fab.ports
    marks := (es.mapIdx fun i e => if e.ekind == 0 then ((List.range n).filter (badLoc b b.exec.model e)).map fun t => (i, t)
      else if e.ekind == 1 && badLoc b b.exec.model e first then [(i, 0)] else []).flatten
    rangeMarks := b.mem.locPoison.filter fun x => r.lwset.any fun w => w.1 < 4 * x + 4 && 4 * x < w.1 + w.2
    accMarks := cs.flatMap fun x => ((coreOf s x).accPoison.filter fun i => bit r.amask (i / 1024)).map fun i => 8192 * (x - c) + i }

/-- The snapshot's values in the current version's locations (R71). -/
def restoreValues (s : State) (b : Block) (n : Snapshot) : Block :=
  let es := (objOf s b).map (·.entries n.ep) |>.getD []
  let m := b.exec.model
  let lives := (List.range b.nthr).map fun t => (Store.get n.live 0).getLsbD t
  let b := es.mapIdx (fun i e => (i, e)) |>.foldl (fun b (i, e) =>
    let vs := ((n.values.find? (·.1 == i)).map (·.2)).getD []
    if e.ekind == 0 then (List.range b.nthr).foldl (fun b t => writeLoc b m e t (Store.get vs t).toNat (n.marks.contains (i, t))) b
    else if e.ekind == 1 then
      (if m == .threaded then List.range b.nthr else [0]).foldl (fun b t => writeLoc b m e t (Store.get vs 0).toNat (n.marks.contains (i, 0))) b
    else if e.ekind == 2 && m != .threaded then writeLive b m e lives else b) b
  if m == .threaded then b.modThreads (List.range b.nthr) fun t x => { x with live := (lives[t]?).getD false } else b

/-! ## The bytes of a snapshot

Its live values in map order, then the ranges of LWSET (R68); the liveness is one bit a thread, a shared-layout range lies
in the local range and takes no bytes of its own (DEDUCED, unsafe: notes/assumptions/69.md). -/

/-- The values of a snapshot for `n` threads: (entry, thread, offset, bytes), and their length. -/
def snapPlaces (es : List MapEntry) (n : Nat) : List (Nat × Nat × Nat × Nat) × Nat :=
  (es.mapIdx fun i e => (i, e)).foldl (fun (l, o) (i, e) =>
    let w := e.bits_ / 8
    match e.ekind with
    | 0 => (l ++ (List.range n).map (fun t => (i, t, o + w * t, w)), o + w * n)
    | 1 => (l ++ [(i, 0, o, w)], o + w)
    | 2 => (l ++ [(i, 0, o, ceilDiv n 8)], o + ceilDiv n 8)
    | _ => (l, o)) ([], 0)

def isLive (es : List MapEntry) (i : Nat) : Bool := (es[i]?.map fun e => e.ekind == 2).getD false
/-- The value of entry `i` and thread `t`. -/
def Snapshot.value (n : Snapshot) (es : List MapEntry) (i t : Nat) : Nat :=
  if isLive es i then (Store.get n.live 0).toNat
  else (Store.get (((n.values.find? (·.1 == i)).map (·.2)).getD []) t).toNat
def Snapshot.setValue (n : Snapshot) (es : List MapEntry) (i t v : Nat) : Snapshot :=
  if isLive es i then { n with live := Store.set n.live 0 (BitVec.ofNat 2048 v) }
  else { n with values := n.values.map fun e => if e.1 == i then (i, Store.set e.2 t (BitVec.ofNat 64 v)) else e }

/-- What the snapshot area of `b` holds. -/
def snapImage (s : State) (b : Block) : List Byte :=
  match b.mem.snap with
  | none => []
  | some n =>
    let es := (objOf s b).map (·.entries n.ep) |>.getD []
    (((snapPlaces es b.nthr).1.flatMap fun (i, t, _, w) => valBytes w (n.value es i t)) ++ n.ranges.flatMap (·.2)).take b.mem.snapBytes
/-- The offsets of the snapshot area that hold poisoned data. -/
def snapMarks (s : State) (b : Block) : List Nat :=
  match b.mem.snap with
  | none => []
  | some n =>
    let es := (objOf s b).map (·.entries n.ep) |>.getD []
    ((snapPlaces es b.nthr).1.filter fun (i, t, _, _) => n.marks.contains (i, t)).map (·.2.2.1)

/-- The snapshot as bytes `x` of its area give it; `edit` notes the values that differ, `marked` tells the poisoned
bytes. -/
def readSnap (s : State) (b : Block) (x : List Byte) (edit : Bool) (marked : Nat → Bool) : Option Snapshot :=
  b.mem.snap.map fun n =>
    let es := (objOf s b).map (·.entries n.ep) |>.getD []
    let (l, len) := snapPlaces es b.nthr
    let n := l.foldl (fun (n : Snapshot) (i, t, o, w) =>
      let v := field x o w
      if x.length < o + w then n else
      let n := if marked o && !isLive es i && !n.marks.contains (i, t) then { n with marks := n.marks ++ [(i, t)] } else n
      if v == n.value es i t then n else
      let n := n.setValue es i t v
      if edit then { n with edits := n.edits ++ [(i, t, v)], marks := n.marks.filter (· != (i, t)) } else n) n
    let (rs, _) := n.ranges.foldl (fun (rs, o) r =>
      let k := r.2.length
      (rs ++ [(r.1, if x.length < o + k then r.2 else (x.drop o).take k)], o + k)) (([] : List (Nat × List Byte)), len)
    { n with ranges := rs }

/-- The 4 bytes at offset `o` of the snapshot area of `b` are poisoned: the values and the local words kept there. -/
def poisonSnap (s : State) (b : Block) (o : Nat) : Option Snapshot :=
  b.mem.snap.map fun n =>
    let es := (objOf s b).map (·.entries n.ep) |>.getD []
    let (l, len) := snapPlaces es b.nthr
    let hit := (l.filter fun (i, _, p, w) => p < o + 4 && o < p + w && !isLive es i).map fun (i, t, _, _) => (i, t)
    let (words, _) := n.ranges.foldl (fun (ws, p) r =>
      let k := r.2.length
      (if p < o + 4 && o < p + k then ws ++ [(r.1 + (o - p)) / 4] else ws, p + k)) (([] : List Nat), len)
    { n with marks := n.marks ++ hit.filter fun x => !n.marks.contains x
             rangeMarks := n.rangeMarks ++ words.filter fun x => !n.rangeMarks.contains x }

/-- The values a debugger has written in the snapshot of an EP reach the running version's locations (R77): a uniform value
in every thread of the threaded version. -/
def applyEdits (s : State) (b : Block) : Block :=
  match b.mem.snap with
  | none => b
  | some n =>
    let es := (objOf s b).map (·.entries n.ep) |>.getD []
    let m := b.exec.model
    let lives := (List.range b.nthr).map fun t => (Store.get n.live 0).getLsbD t
    let b := n.edits.foldl (fun b (i, t, v) => match es[i]? with
      | none => b
      | some e =>
        if e.ekind == 2 then (if m == .threaded then b.modThreads (List.range b.nthr) fun t x => { x with live := (lives[t]?).getD false } else writeLive b m e lives)
        else if e.ekind == 1 && m == .threaded then (List.range b.nthr).foldl (fun b t => writeLoc b m e t v false) b
        else writeLoc b m e t v false) b
    b.modMem fun x => { x with snap := some { n with edits := [] } }

/-- The part of a snapshot's list that belongs to the span's core `i`, with the keys of one core. -/
def ofCore {α : Type} (w i : Nat) (l : List (Nat × α)) : List (Nat × α) := (l.filter fun e => e.1 / w == i).map fun e => (e.1 % w, e.2)

/-- Rollback of a block to the EP that opened its region (R71): no record of the window remains, the snapshot is back,
pins of the region are released, the region's meters are as the EP cleared them (R405), every stream stands just after
the EP. At EP 0 the registers are as placement left them. -/
def rollback (s : State) (c sl : Nat) : State :=
  let s := settleEngines s c sl
  match blockOf s c sl with
  | none => s
  | some b =>
    let s := b.stage.regionPins.foldl (fun s p => releasePins s p.1 p.2) s
    match b.mem.snap with
    | none => s
    | some n =>
      let s := (settleEngines.spanOf s c sl).foldl (fun s x => modCore s x fun k =>
        { k with acc := ((ofCore 8192 (x - c) n.acc).foldl (fun m e => Store.set m e.1 e.2) (Store.keep k.acc fun i => !bit (regionOf s b).amask (i / 1024)))
                 accPoison := (k.accPoison.filter fun i => !bit (regionOf s b).amask (i / 1024)) ++
                   (n.accMarks.filter fun i => i / 8192 == x - c).map (· % 8192)
                 ag := (ofCore 4 (x - c) n.ag).foldl (fun m e => Store.set m e.1 e.2) k.ag
                 tiles := (ofCore 8 (x - c) n.tiles).foldl (fun m e => Table.set m e.1 { e.2 with pins := (Table.getD m e.1 {}).pins }) k.tiles
                 mq := k.mq.filter fun e => e.slot != sl
                 tfq := k.tfq.filter fun e => e.slot != sl }) s
      let s := killKeys s (.blk c sl) ((s.pending.filter fun p => p.ctx == .blk c sl).flatMap (·.keys))
      let s := { s with pending := s.pending.filter fun p => p.ctx != .blk c sl }
      let s := modCore s c fun k => { k with monitors := k.monitors.filter fun m => m.owner != .blk c sl }
      modBlock s c sl fun b =>
        let b := if n.ep == 0 then (b.modMem fun m => { m with rows := [], rowPoison := [], preds := [] }).modCtl fun x =>
          { x with sregs := [], spoison := [] } else b
        let b := { b with meters := b.meters.mapIdx fun i v => if i < 10 then 0 else v }
        let b := restoreValues s b n
        let b := n.ranges.foldl (fun b r => b.modMem fun m => m.storeLoc r.1 r.2 false) b
        let b := b.modMem fun m => { m with locPoison := n.rangeMarks ++ m.locPoison.filter fun w => !n.rangeMarks.contains w }
        let b := b.modRegs fun r => { r with fstat := n.fstat, vlen := n.vlen }
        let b := b.modStage fun g => { g with window := [], deferred := [], regionPins := [], bkpt := [] }
        let pcOf := fun (t : Nat) (p : VAddr) => ((n.resume.find? (·.1 == t)).map (·.2)).getD p
        let b := b.modExec fun e => { e with bundles := [], grow := none, ticketAsk := none, placed := [], sealedWait := none }
        let b := b.modThreads (List.range b.nthr) fun t x =>
          { x with pc := pcOf t x.pc, wait := 0, latches := [], capt := [], line := none, freeAt := s.cycle }
        let b := b.modCtl fun x => { x with pc := pcOf 0 x.pc, wait := 0, latches := [], capt := [], line := none }
        let back := fun (p : Port) =>
          { p with active := p.active.map fun a => { a with lines := [], out := [], headLine := none, scan := a.pos, waitPage := false } }
        { b with traps := [], fab := { b.fab with bufs := [], fwait := none, ports := n.ports.map fun (i, p) => (i, back p) } }

end Sys2Proof.Machine
end

