-- ==== Sys2Proof/Machine/Ops.lean ====
section
/-! DEFINITION. The operations every meaning shares: completion and abort of a launch (R53 to R55), what a block gives
back (R17, R265), save-area sizes (R432), TAKING A TRAP (`deliver`, R422 to R424, R434; `raiseSelf`, R431, R435) and
RETURNING FROM ONE (`returnFrom`, R255).
Where the spec leaves a point open: notes/assumptions, entries 18, 39, 58. -/

namespace Sys2Proof.Machine

/-! ## Pools (R428, R434) -/

/-- The lowest run of free 128-byte granules of a pool that holds `n` bytes (R428). -/
def Pool.alloc (p : Pool) (n : Nat) : Option (Nat × Pool) :=
  let used := sortBy (fun (u : Nat × Nat) => u.1) p.used
  let try_ := used.foldl (fun (r : Nat × Option Nat) u =>
    if r.2.isSome then r else if r.1 + n ≤ u.1 then (r.1, some r.1) else (u.1 + ceilDiv u.2 128 * 128, none)) (p.base, none)
  let at_ := try_.2.getD try_.1
  if at_ + n ≤ p.base + p.size then some (at_, { p with used := (at_, n) :: p.used }) else none
def Pool.give (p : Pool) (a : Nat) : Pool := { p with used := p.used.filter fun u => u.1 != a }

/-! ## Accounts (R408, R410) -/

/-- A block's partial counts go to its account and its whole microjoules to counter 11, its total (R408, R410) and the power
windows (R465). -/
def flushBlock (s : State) (c sl : Nat) : State :=
  match blockOf s c sl with
  | none => s
  | some b =>
    let a := b.regs.acct.toNat
    let s := b.charges.partials.foldl (fun s e => chargeAcct s a e.1 e.2.toNat) s
    let uj := b.charges.energy.toNat / 256000000
    let s := chargeAcct s a 11 uj
    let s := modIod (modPartx s b.part fun x => { x with window := x.window + uj }) fun i =>
      { i with power := { i.power with window := i.power.window + uj } }
    let left : Charges := { partials := [], energy := BitVec.ofNat 64 (b.charges.energy.toNat % 256000000), total := b.charges.total + BitVec.ofNat 64 uj }
    modBlock s c sl fun b => { b with charges := left }

/-! ## Completion of a launch (R53, R54) -/

/-- The 64 bytes of a completion record (R53). -/
def recordBytes (l : Launch) (status : Nat) : List Byte :=
  let f := l.fault.getD { cause := 0 }
  [BitVec.ofNat 8 status, BitVec.ofNat 8 f.cause, 0#8, 0#8] ++ valBytes 4 f.blk ++ valBytes 8 l.retired ++ valBytes 8 l.energy ++
    valBytes 8 f.addr ++ valBytes 4 f.ep ++ valBytes 4 f.site ++ valBytes 8 l.hops ++ List.replicate 16 0#8

/-- The memory error of a record or event write that failed (R54). -/
def recordFailed (s : State) (l : Launch) (event : Bool) (status : Nat) : State :=
  let s := postEvent s l.part 2 (memErrArgs (if event then 3 else 2) 0 0 0 (if event then l.lpb.evta.toNat else l.lpb.crec.toNat) status)
  if l.lpb.acct.toNat ≤ 1023 then chargeAcct s l.lpb.acct.toNat 15 1 else s

/-- What a part of a launch's completion comes to: performed or dropped, or a page it waits for. -/
inductive RecordRes
  | done (s : State)
  | failed (s : State)
  | waits (s : State)

/-- The page of a record or event is walked (R54): an absent one is asked for and waited for, a place that cannot be
reached now is walked again, any other failure drops the write and is reported. -/
def recordPage (s : State) (n : Nat) (l : Launch) (status va kind : Nat) (k : State → Nat → RecordRes) : RecordRes :=
  let again := fun (s : State) => askWalk s (.sys 0) 0 l.asid l.part va kind (some n)
  match walkNow s (.sys 0) l.asid l.part va kind with
  | (s, .error (4, size)) => .waits (again (requestPage s l.asid l.part va 1 4 0xFFFF size))
  | (s, .error (7, _)) => .waits (again s)
  | (s, .error _) => .failed (recordFailed s l (kind == 2) status)
  | (s, .ok pa) => if unserved s pa then .waits (again s) else k s pa

/-- The completion record is written, once every store of the retired blocks to a host or peer address has completed, since
STATUS is a .sys release (R53). -/
def writeRecord (s : State) (n : Nat) (l : Launch) (status : Nat) : RecordRes :=
  if l.retired != 0 && s.outside.any fun o => o.path.isSome then
    .waits (askWalk s (.sys 0) 0 l.asid l.part l.lpb.crec.toNat 1 (some n))
  else recordPage s n l status l.lpb.crec.toNat 1 fun s pa => .done (deviceWrite s l.part pa (recordBytes l status))

/-- The completion event fires: 1 is added at EVTA (R53). -/
def fireEvent (s : State) (n : Nat) (l : Launch) (status : Nat) : RecordRes :=
  if l.lpb.evta = 0 then .done s else
  recordPage s n l status l.lpb.evta.toNat 2 fun s pa =>
    if isPackage pa then
      let (s, bs, bad) := readHomes s pa 8
      if bad then .failed (recordFailed s l true status)
      else .done (performWrites s pa (valBytes 8 (bytesVal bs + 1)) false)
    else .done (sendOutside s (.sys 0) l.part pa (.atom 0 8 1 0 false none []) none none)

/-- A launch completes (R53): its record, then its event, then its queue entry is free; what waits for a page goes on from
there (R54). A record that fails fires no event. -/
def finishLaunch (s : State) (n status : Nat) : State :=
  match launchOf s n with
  | none => s
  | some l =>
    let free := fun (s : State) => { s with launches := Table.erase s.launches n }
    let event := fun (s : State) => match fireEvent s n l status with
      | .done s => free s
      | .failed s => free s
      | .waits s => modLaunch s n fun l => { l with status := some status, recorded := true }
    if l.recorded then event s else
    match writeRecord s n l status with
    | .done s => event s
    | .failed s => free s
    | .waits s => modLaunch s n fun l => { l with status := some status }

/-! ## What a block gives back (R17, R18, R42, R52) -/

/-- The cores of a block: in fabric mode its span. -/
def blockCores (s : State) (c sl : Nat) : List Nat := c :: (s.cores.filter fun e => e.1 != c && e.2.fabricOf == some (c, sl)).map (·.1)
/-- The other cores that a block holds: those reserved for it, those its fabric runs on (R18). -/
def Core.heldFor (k : Core) (c sl : Nat) : Bool := k.reserved == some (c, sl) || k.fabricOf == some (c, sl)

/-- A block leaves its core: its accesses perform, its changed lines are written back (R273), pins, queue entries, monitors,
reservation and fabric mode are given up, and what its claim holds on every core is cleared (R130). None: an access or a
write-back must wait, and the block with it. -/
def releaseBlock (s : State) (c sl : Nat) : Option State :=
  match blockOf s c sl with
  | none => some s
  | some b =>
    let id := CtxId.blk c sl
    let s := drainPath (modCore s c fun k => { k with tfq := k.tfq.filter fun f => f.slot != sl }) id
    if s.path.any fun p => p.ctx == id && !p.sent then none else
    (flushBlockLines s c sl).map fun s =>
    let others := (s.cores.filter fun e => e.1 != c && e.2.heldFor c sl).map (·.1)
    let s := (c :: others).foldl (fun s x => (List.range 8).foldl (fun s k => if b.claim.tb.getLsbD k then releasePins s x k else s) s) s
    let s := flushBlock s c sl
    let s := { s with pending := s.pending.filter fun p => p.ctx != id, walks := s.walks.filter fun w => w.ctx != id }
    let s := others.foldl (fun s x => modCore s x fun k =>
      { k with mq := [], acc := [], accPoison := [], ag := [], tiles := [], reserved := none, fabricOf := none }) s
    modCore s c fun k =>
      { k with slots := Table.erase k.slots sl
               reserved := if k.reserved == some (c, sl) then none else k.reserved
               fabricOf := if k.fabricOf == some (c, sl) then none else k.fabricOf
               mq := k.mq.filter fun e => e.slot != sl
               monitors := k.monitors.filter fun m => m.owner != id
               culvert := k.culvert.map fun e => (e.1, e.2.filter fun x => x.slot != sl)
               acc := Store.keep k.acc fun i => !b.claim.acc.getLsbD (i / 1024)
               accPoison := k.accPoison.filter fun i => !b.claim.acc.getLsbD (i / 1024)
               ag := Store.keep k.ag fun i => !b.claim.ag.getLsbD i
               tiles := k.tiles.filter fun e => !b.claim.tb.getLsbD e.1
               cvs := k.cvs.filter fun e => !b.claim.cv.getLsbD e.1 }

/-- A staging allotment goes back to its partition's area (R349). -/
def freeStaging (s : State) (b : Block) : State :=
  if b.det = 0 then s else modPart s b.part fun p => { p with staging := { p.staging with used := p.staging.used.drop 1 } }

/-- SVEVT's events mirrored in INTPEND bits 0 to 3 (R431). -/
def mirrorSv (k : Core) : Core :=
  let on := (List.range 4).foldl (fun (m : W16) j =>
    if (List.range 8).any fun s => k.svevt.getLsbD (4 * s + j) then m ||| (1#16 <<< j) else m) 0#16
  { k with sup := { k.sup with intr := { k.sup.intr with intpend := (k.sup.intr.intpend &&& 0xFFF0#16) ||| on } } }
/-- Event `j` (0 TRAP, 1 PREEMPT, 2 RESUME, 3 DUMP) of a slot set or cleared (R420, R431). -/
def setSvevt (s : State) (c sl j : Nat) (on : Bool) : State :=
  modCore s c fun k =>
    let m := 1#32 <<< (4 * sl + j)
    mirrorSv { k with svevt := if on then k.svevt ||| m else k.svevt &&& ~~~m }
def clearSvevt (s : State) (c sl : Nat) : State := (List.range 4).foldl (fun s j => setSvevt s c sl j false) s

/-- Determinism of a launch (R33). -/
def Lpb.det (l : Lpb) : Nat := bits l.mode.toNat 2 1

/-- A resident block of an aborted launch is gone, its staged stores discarded (R55); it stands finished as long as a
write-back of its lines must wait (R273). -/
def loseBlock (s : State) (c sl : Nat) : State :=
  match blockOf s c sl with
  | none => s
  | some b => match releaseBlock s c sl with
    | some t =>
      let area := match b.phase with
        | .stopped 1 _ _ => some b.svarg.toNat
        | _ => none
      let t := modPart t b.part fun p => { p with savePool := (area.map p.savePool.give).getD p.savePool }
      clearSvevt (freeStaging t b) c sl
    | none => modBlock s c sl fun b => { b with phase := .finished, stage := { b.stage with staged := [], window := [] } }

/-- The resident blocks of a launch: core, slot, block. -/
def residents (s : State) (n : Nat) : List (Nat × Nat × Block) :=
  s.cores.flatMap fun e => (e.2.slots.filter fun x => x.2.launch == n).map fun x => (e.1, x.1, x.2)

/-- The blocks of a launch from index `low` on stop, resident and saved (R55, R352). -/
def dropBlocks (s : State) (n part low : Nat) : State :=
  let s := (residents s n).foldl (fun s (c, sl, b) => if b.regs.bidx.toNat < low then s else loseBlock s c sl) s
  modPart s part fun p =>
    { p with resume := p.resume.filter fun r => r.launch != n || r.bidx < low
             savePool := (p.resume.filter fun r => r.launch == n && low ≤ r.bidx).foldl (fun q r => q.give r.blk.kept.pool) p.savePool }

/-- An aborted launch of which no block is left completes with FAULT (R55). -/
def settleAbort (s : State) (n : Nat) : State :=
  match launchOf s n with
  | none => s
  | some l =>
    let left := !(residents s n).isEmpty || ((partOf s l.part).any fun p => p.resume.any fun r => r.launch == n)
    if l.fault.isNone || l.status.isSome || left then s else finishLaunch s n 5

/-- The launch aborts (R55): nothing more of it is placed, the block that faulted and those above it stop at once, those
below once the cycle is over, since a fault of theirs in this cycle is the one reported (R55). In an ordered launch those
below go on till they retire or fault themselves, since the record reports the lowest that faults and their grants do not
wait for higher ones (R55, R351, R352; DEDUCED, unsafe: notes/assumptions/58.md). `whole`: all stop at once. -/
def abortLaunch (s : State) (n : Nat) (f : FaultRec) (whole : Bool := false) : State :=
  match launchOf s n with
  | none => s
  | some l =>
    if l.status.isSome then s else
    let first := match l.fault with
      | none => true
      | some g => f.blk < g.blk && (l.lpb.det != 0 || l.faultAt == s.cycle)
    let s := if first then modLaunch s n fun l => { l with fault := some f, faultAt := s.cycle, next := l.lpb.nblk.toNat } else s
    settleAbort (dropBlocks s n l.part (if whole then 0 else f.blk)) n

/-- As cycles pass, what aborts have left is stopped (R55), and a block whose write-back had to wait goes. -/
def endAborts (s : State) : State :=
  let gone := s.cores.flatMap fun e => (e.2.slots.filter fun x => x.2.phase == .finished && (launchOf s x.2.launch).isNone).map fun x => (e.1, x.1)
  let s := gone.foldl (fun s (c, sl) => loseBlock s c sl) s
  s.launches.foldl (fun s (n, l) => match l.fault with
    | some f => if l.status.isSome then s else
        settleAbort (dropBlocks s n l.part (if l.lpb.det == 0 then 0 else f.blk)) n
    | none => s) s

/-! ## Save-area sizes (R432) -/

def popCount (w n : Nat) : Nat := ((List.range n).filter fun i => bit w i).length

/-- The records of the block in the Culvert queues of its core: (engine, record) in list order (R348). -/
def copyRecs (s : State) (c sl : Nat) : List (Nat × CpRec) :=
  [0, 1].flatMap fun e => ((Table.getD (coreOf s c).culvert e []).filter fun l => l.slot == sl).flatMap fun l => l.recs.map fun r => (e, r)

/-- The matrix-queue entries of a block from the first that waits for a slot that is AWAITING (R234). -/
def recordedMq (s : State) (c sl : Nat) : List Mq :=
  let k := coreOf s c
  let waits := fun (e : Mq) => match e.op with
    | .mma _ p1 _ => [bits p1.toNat 24 22, bits p1.toNat 21 19].any fun t => (Table.getD k.tiles t {}).fill == .awaiting
    | _ => false
  (k.mq.filter fun e => e.slot == sl && !e.op.isTrel).dropWhile fun e => !waits e

/-- The recorded entries of a block, each with its core's place in the span. -/
def recordedAll (s : State) (c sl : Nat) : List (Nat × Mq) := (blockCores s c sl).flatMap fun x => (recordedMq s x sl).map fun e => (x - c, e)

/-- Records a drain of the fabric would hold: S of enabled stateful cells, POS of ports not ended (R377). -/
def drainRecords (b : Block) : List (Nat × Nat × Nat) :=
  let cells := (List.range 384).filterMap fun e =>
    if bit (b.fab.field e 1) 0 && bit (b.fab.field e 1) 1 then some (e, 0x0C, b.fab.word e 0x0C) else none
  let ports := b.fab.ports.filterMap fun (i, p) => p.active.map fun a => (384 + i, 0x20, a.pos)
  cells ++ ports

/-- The g budget a block is saved with: in a GROW wait the pending one (R346, R432). -/
def Block.saveBudget (b : Block) : Nat := ((b.exec.grow).map (·.2)).getD b.mem.budget
/-- Bytes of register rows its save area holds. -/
def Block.saveRows (b : Block) : Nat := if b.exec.grow.isSome then gangsOf b.nthr * 256 * b.saveBudget else b.mem.rowBytes

/-- Section lengths of a save area (R432), sections 1 to 15. -/
def saveLens (s : State) (c sl : Nat) (b : Block) (dump : Bool) : List Nat :=
  let n := b.nthr
  let t := b.exec.model == .threaded
  let ncv := popCount b.claim.cv.toNat 16
  let one := fun (on : Bool) (n : Nat) => if on then n else 0
  [256, b.saveRows, 1792, one t (n * 64 + 128), one (!t) 320, one (ncv != 0) (ncv * (16 + 8 * n)),
   8192 * popCount b.claim.acc.toNat 8 + 8 * popCount b.claim.ag.toNat 4,
   4608 * popCount b.claim.tb.toNat 8, b.mem.locb + b.mem.snapBytes,
   8 + 48 * (copyRecs s c sl).length, one (b.det != 0) (8 + 16 * b.stage.staged.length),
   one (b.exec.model == .spatial) (16 * (14 * 64 * b.fab.span + 32 * b.fab.span) + 16 + 16 * (drainRecords b).length),
   128, one dump 128, one ((recordedAll s c sl) != []) (8 + 32 * (recordedAll s c sl).length)]

/-- Offsets of the sections from 0x180, each at a multiple of 128 (0 for an absent one), and the whole size. -/
def saveLayout (lens : List Nat) : List Nat × Nat :=
  lens.foldl (fun (os, a) n => if n == 0 then (os ++ [0], a) else (os ++ [a], ceilDiv (a + n) 128 * 128)) ([], 0x180)
def saveSize (s : State) (c sl : Nat) (b : Block) (dump : Bool) : Nat := (saveLayout (saveLens s c sl b dump)).2


/-! ## Stop places (R105) -/

def isLatchSpec (n : Nat) : Bool := 64 ≤ n && n < 72

/-- Latches an instruction reads, by its parcels. -/
def latchesRead (p0 p1 : W32) : List Nat :=
  let sp := [bits p0.toNat 16 10, bits p0.toNat 9 3] ++ (if formOf (bits p0.toNat 31 24) == some .X then [bits p1.toNat 31 25] else [])
  (sp.filter isLatchSpec).map (· - 64)

/-- Whether an instruction of the line from parcel `j` on reads an entry pushed before it (R105); `n` instructions of
the line have issued since. -/
def readsOlder (ln : List W32) : Nat → Nat → Nat → Bool
  | 0, _, _ => false
  | f + 1, j, n =>
    if j ≥ 32 then false else
    if ((ln.headD 0).getLsbD (j - 2)) = false then readsOlder ln f (j + 1) n else
    let p0 := (ln[j]?).getD 0
    (latchesRead p0 ((ln[j + 1]?).getD 0)).any (fun k => k ≥ n) || readsOlder ln f (j + formLength p0) (n + 1)

/-- Whether a stream at `pc` in a captured line stands at a place where an asynchronous stop may be taken: where nothing
later reads an older entry, or while an instruction that is not latch-transparent waits with its latch operands read. -/
def stopAt (line : Option (List W32)) (pc : VAddr) (wait : Nat) : Bool :=
  match line with
    | none => true
    | some l =>
      let j := pc.toNat / 4 % 32
      let opc := bits ((l[j]?).getD 0).toNat 31 24
      (wait > 1 && opc ≥ 0xC0 && opc != 0xC0) || !readsOlder l 32 j 0

/-- What the latch operands of the instruction a stream waits in hold, as captured operands (R104). -/
def captureAt (line : Option (List W32)) (pc : VAddr) (wait : Nat) (lat : List Latch) (old : List LVal) : List LVal :=
  match line with
  | none => old
  | some l =>
    if !old.isEmpty || wait ≤ 1 then old else
    let j := pc.toNat / 4 % 32
    let p0 := ((l[j]?).getD 0).toNat
    let sp := [bits p0 16 10, bits p0 9 3] ++ (if formOf (bits p0 31 24) == some .X then [bits ((l[j + 1]?).getD 0).toNat 31 25] else [])
    let r := sp.map fun n => if isLatchSpec n then ((lat[n - 64]?).map (·.val)).getD .bad else .bad
    if r.all (· == .bad) then [] else r

/-- The streams of a list keep the latch operands of the instruction they wait in (R104). -/
def Block.captureFor (b : Block) (ts : List Nat) : Block :=
  if b.exec.model == .threaded then
    b.modThreads ts fun t x => if x.ownCapt then
      { x with capt := captureAt ((b.exec.bundles.find? fun u => u.members.contains t).bind (·.line)) x.pc x.wait.toNat x.latches x.capt } else x
  else if ts.isEmpty then b else b.modCtl fun x => if x.ownCapt then { x with capt := captureAt x.line x.pc x.wait.toNat x.latches x.capt } else x

/-- Whether a stream of a block stands at a stop place. -/
def Block.atStop (b : Block) (who : Nat) : Bool :=
  if b.exec.model == .threaded then
    let t := threadOf b who
    match b.exec.bundles.find? fun u => u.members.contains who with
    | some u => stopAt u.line t.pc (if t.wait == 1 && !t.capt.isEmpty then 10 else t.wait.toNat)
    | none => true
  else stopAt b.exec.ctl.line b.exec.ctl.pc (if b.exec.ctl.wait == 1 && !b.exec.ctl.capt.isEmpty then 10 else b.exec.ctl.wait.toNat)

/-! ## Taking a trap (R418 to R424, R431, R434, R435) -/

/-- Class of a cause (R418): U may go to the block's handler. -/
def isUserClass (cause : Nat) : Bool := (8 ≤ cause && cause ≤ 16) || (19 ≤ cause && cause ≤ 23) || cause == 25 || cause == 26

/-- TRAPCAUSE and INTCAUSE (R419). -/
def causeWord (t : TrapInfo) (sup sealed : Bool) (gang : Nat) : W32 :=
  BitVec.ofNat 32 (t.cause + 256 * t.detail + 2 ^ 20 * t.wst + 2 ^ 23 * gang + (if t.imprecise then 2 ^ 28 else 0) +
    (if sealed then 2 ^ 29 else 0) + (if t.debug then 2 ^ 30 else 0) + (if sup then 2 ^ 31 else 0))

/-- The gang TRAPLANE speaks of, and its lanes (R220, R419). -/
def lanesOf (t : TrapInfo) : Nat × W64 :=
  match t.gang, leastOf t.lanes with
  | some g, _ => (g, (t.lanes.filter fun x => x / 64 == g).foldl (fun m x => m ||| (1#64 <<< (x % 64))) 0#64)
  | none, some l => (l / 64, (t.lanes.filter fun x => x / 64 == l / 64).foldl (fun m x => m ||| (1#64 <<< (x % 64))) 0#64)
  | none, none => (0, 0#64)

/-- A core's double fault (R435): it halts and is quarantined, and its blocks are lost; `saving` is the slot being saved. -/
def doubleFaultCore (s : State) (c : Nat) (saving : Option Nat) : State :=
  let part := holderOf s (columnOfCore c)
  let own := (coreOf s c).slots.map fun e => (e.1, e.2)
  -- a spatial block of a lower core whose span takes in this one is resident here too (R18)
  let span := ((coreOf s c).fabricOf.filter fun h => h.1 != c).bind fun h => (blockOf s h.1 h.2).map fun b => (8, b)
  let held := own ++ span.toList
  let s := modCore s c fun k => { k with quarantined := true, sup := { k.sup with halted := true } }
  let lost := (held.filter fun h => saving == some h.1).map (fun h => (h, 28)) ++ (held.filter fun h => saving != some h.1).map (fun h => (h, 29))
  let s := lost.foldl (fun s (h, cause) => abortLaunch s h.2.launch { cause, blk := h.2.regs.bidx.toNat }) s
  match part with
  | some p => postEvent s p 7 ([0#8, 0#8] ++ valBytes 2 c ++ [28#8])
  | none => s

/-- A place's double fault (R435). -/
def doubleFault (s : State) (id : CtxId) (saving : Option Nat) : State :=
  match id with
  | .sup c => doubleFaultCore s c saving
  | .blk c _ => doubleFaultCore s c saving
  | .sys n =>
    let p := (sysOf s n).ctl.part
    postEvent (modSys s n fun y => { y with ctl := { y.ctl with halted := true } }) p 7 ([1#8, 0#8] ++ valBytes 2 n ++ [28#8])

/-- The lowest interrupt a context may take (R431): SELF whatever INTEN holds. -/
def readyInterrupt (c : Ctl) : Option Nat :=
  if c.handler || c.intr.intvec = 0 then none
  else (List.range 16).find? fun i => c.intr.intpend.getLsbD i && (i == 4 || c.intr.inten.getLsbD i)

/-- Appends a replay record of a system core in record mode, before the event takes effect (R415 to R417). In replay
mode the next record must agree, or DIV is set and MODE cleared; the value of a TIME record is returned. -/
def replayLog (s : State) (n kind val addr : Nat) : State × Option Nat :=
  let y := sysOf s n
  let mode := bits y.rplctl.toNat 31 30
  let at_ := y.rplbase.toNat + 32 * y.rplptr.toNat
  if mode == 1 then
    if y.rplptr.toNat ≥ y.rplsize.toNat then (modSys s n fun y => { y with rplctl := y.rplctl ||| (1#32 <<< 28) }, none) else
    let s := performWrites s at_ ([BitVec.ofNat 8 kind] ++ List.replicate 7 0#8 ++ valBytes 8 y.retired.toNat ++ valBytes 8 val ++ valBytes 8 addr) false
    (modSys s n fun y => { y with rplptr := y.rplptr + 1 }, none)
  else if mode == 2 then
    let (s, bs, _) := readHomes s at_ 32
    if field bs 0 1 == kind && field bs 8 8 == y.retired.toNat then
      (modSys s n fun y => { y with rplptr := y.rplptr + 1 }, if kind == 4 then some (field bs 16 8) else none)
    else (modSys s n fun y => { y with rplctl := (y.rplctl &&& 0x3FFFFFFF#32) ||| (1#32 <<< 29) }, none)
  else (s, none)

/-- The monitors of a place's streams are free again (R308). -/
def freeMonitors (s : State) (id : CtxId) (who : List Nat) : State :=
  match coreOfCtx id with
  | some c => modCore s c fun k => { k with monitors := k.monitors.filter fun m => !(m.owner == id && who.contains m.who) }
  | none => s

/-- Interrupt entry (R431): the SFU queue drains, INTPC takes the resume point, the context is in handler state and
stands at INTVEC; for bits 0 to 3 SVTGT names the lowest slot whose SVEVT holds the event. -/
def enterInterrupt (s : State) (id : CtxId) (i : Nat) : State :=
  let s := freeMonitors (drainSfu s id) id [0]
  let s := match id with
    | .sys n => (replayLog s n 3 i 0).1
    | _ => s
  let s := match id with
    | .sup c => if i < 4 then modCore s c fun k =>
        { k with svtgt := BitVec.ofNat 3 (((List.range 8).find? fun sl => k.svevt.getLsbD (4 * sl + i)).getD k.svtgt.toNat) } else s
    | _ => s
  modCtl s id fun c => { c with
    intr := { c.intr with intpc := c.pc }, capt := captureAt c.line c.pc c.wait.toNat c.latches c.capt, handler := true, pc := c.intr.intvec, latches := [], line := none, wait := 0 }

/-- The trap of a K or Y context's own instruction (R431, R435): INTCAUSE holds the report and SELF is taken, or the
context halts as a double fault. `after` is the resume point when it is not the instruction itself (R255). -/
def raiseSelf (s : State) (id : CtxId) (t : TrapInfo) (after : Option VAddr) (saving : Option Nat := none) : State :=
  match ctlOf s id with
  | none => s
  | some c =>
    let s := forgetWalks s id
    if c.handler || c.intr.intvec = 0 then doubleFault s id saving else
    let s := modCtl s id fun c => { c with
      intr := { c.intr with intcause := causeWord t false false 0, intpend := c.intr.intpend ||| 0x10#16 }
      pc := after.getD c.pc, wait := 0 }
    match (ctlOf s id).bind readyInterrupt with
    | some i => enterInterrupt s id i
    | none => s

/-- Whether a block's delivery is busy (R422). -/
def Block.busy (b : Block) : Bool :=
  (if b.exec.model == .threaded then b.exec.threads.any fun t => t.live && t.handler else b.exec.ctl.handler) ||
    match b.phase with
    | .running => false
    | .finished => false
    | _ => true

/-- A block that has stopped for a save takes an area of its partition's save pool, and PREEMPT is set; with no room it
goes on and the request stays pending (R428). -/
def stoppedForSave (s : State) (c sl : Nat) (b : Block) : State :=
  match (partOf s b.part).bind fun p => p.savePool.alloc (saveSize s c sl b false) with
  | some (a, pool) =>
    let s := modPart s b.part fun p => { p with savePool := pool }
    let s := modBlock s c sl fun b => { b with phase := .stopped 1 { cause := 0 } [], svarg := BitVec.ofNat 57 a }
    setSvevt s c sl 1 true
  | none => modBlock s c sl fun b => { b with phase := .running }

/-- Every stream of a block that is stopping stands at a stop place: the block is stopped, what its waiting streams have
read stays with them (R104), the event is set (R424, R428, R434). -/
def settleStop (s : State) (c sl : Nat) : State :=
  match blockOf s c sl with
  | none => s
  | some b => match b.phase with
    | .stopping ev t ents =>
      if b.streams.all b.atStop then
        let s := modBlock s c sl fun b => b.captureFor b.streams
        if ev == 1 then stoppedForSave s c sl b
        else setSvevt (modBlock s c sl fun b => { b with phase := .stopped ev t ents }) c sl ev true
      else s
    | _ => s

/-- The block is to abort (R55): with dumps enabled and room for one it stops for CTXSV.dump first (R434). -/
def abortBlock (s : State) (c sl : Nat) (t : TrapInfo) : State :=
  match blockOf s c sl with
  | none => s
  | some b =>
    let f : FaultRec := { cause := t.cause, blk := b.regs.bidx.toNat, addr := t.addr % 2 ^ 64,
                          ep := b.regs.trapep.toNat, site := b.regs.trapsite.toNat }
    match partOf s b.part with
    | none => abortLaunch s b.launch f
    | some p =>
      if p.dumps && (coreOf s c).sup.intr.inten.getLsbD 3 then
        match p.dumpPool.alloc (saveSize s c sl b true) with
        | some (a, pool) =>
          let s := modPart s b.part fun p => { p with dumpPool := pool }
          let s := modBlock s c sl fun b => { b with phase := .stopping 3 t [], svarg := BitVec.ofNat 57 a }
          settleStop s c sl
        | none => abortLaunch s b.launch f
      else abortLaunch s b.launch f

/-- Deliver(trap) to the streams `ents` of a block (R423). `after` is the resume point of TRAP, BKPT and debugger stops
(R255). The trap is not raised again while the delivery is busy: its streams wait (R422). -/
def deliver (s : State) (c sl : Nat) (t : TrapInfo) (ents : List Nat) (after : Option VAddr) : State :=
  match blockOf s c sl with
  | none => s
  | some b =>
    let inHandler := fun (b : Block) (e : Nat) => if b.exec.model == .threaded then (threadOf b e).handler else b.exec.ctl.handler
    if b.busy && !ents.any (inHandler b) then
      if t.imprecise then s else modBlock s c sl fun b => b.setWait ents 11
    else
    let sealed := isSealed s b && !ents.any (inHandler b) && !t.atEp
    let site := t.site.getD (match ents with
      | e :: _ => siteOf s b (b.pcOf e).toNat
      | [] => 0)
    let s := forgetWalks s (.blk c sl)
    let s := freeMonitors s (.blk c sl) ents
    let s := if sealed then rollback s c sl else s
    let s := drainSfu s (.blk c sl)
    match blockOf s c sl with
    | none => s
    | some b =>
      let ents := if sealed then b.streams else ents.filter fun e => b.exec.model != .threaded || (threadOf b e).live
      -- captured operands serve only a resumption at the same instruction (R104)
      let s := modBlock s c sl fun b => if after.isSome then
          if b.exec.model == .threaded then b.modThreads ents fun _ x => if x.handler then x else { x with capt := [] }
          else b.modCtl fun x => if x.handler then x else { x with capt := [] }
        else b.captureFor ents
      let (gang, lanes) := if sealed || t.blockWide || (b.exec.model != .threaded && t.gang.isNone) then (0, 0#64) else lanesOf t
      let user := isUserClass t.cause && b.regs.trapvec != 0 && !t.debug && !ents.any (inHandler b)
      let sup := !user && (coreOf s c).sup.intr.inten.getLsbD 0
      let s := modBlock s c sl fun b => b.modRegs fun r =>
        { r with trapcause := causeWord t sup sealed gang
                 trapaddr := BitVec.ofNat 57 (if t.cause == 16 then 0 else t.addr)
                 trapsite := BitVec.ofNat 32 site
                 trapep := if sealed then BitVec.ofNat 32 b.region else 0xFFFFFFFF#32
                 traplane := lanes }
      let s := chargeBlock s c sl 15 1 0
      let aux := fun (x : Thread) => if t.cause == 14 then x.rejoin else if t.cause == 15 then x.wdog.setWidth 64 else 0#64
      let cycle := s.cycle
      if user then
        modBlock s c sl fun b =>
          if b.exec.model == .threaded then
            let b := b.modThreads ents fun _ x =>
              { x with trapPc := if sealed then x.pc else after.getD x.pc, trapAux := aux x, handler := true
                       pc := b.regs.trapvec, wait := 0, line := none }
            b.leave ents cycle
          else b.modCtl fun x =>
            { x with trapPc := if sealed then x.pc else after.getD x.pc, trapAux := 0, handler := true
                     pc := b.regs.trapvec, wait := 0, latches := [], line := none }
      else if sup then
        let s := modBlock s c sl fun b =>
          let b := { b with phase := .stopping 0 t ents }
          if b.exec.model == .threaded then
            let b := b.modThreads ents fun _ x =>
              { x with trapPc := if x.handler then x.trapPc else if sealed then x.pc else after.getD x.pc, trapAux := aux x, wait := 0 }
            (b.leave ents cycle).modThreads ents fun _ x => { x with pc := if sealed then x.pc else after.getD x.pc, line := none }
          else b.modCtl fun x =>
            { x with trapPc := if x.handler then x.trapPc else if sealed then x.pc else after.getD x.pc, trapAux := 0, wait := 0, latches := []
                     line := none, pc := if sealed then x.pc else after.getD x.pc }
        settleStop s c sl
      else abortBlock s c sl { t with addr := if t.cause == 16 then 0 else t.addr }

/-- An imprecise trap waits at its block for TRAP_DELIVERY (R311, R370, R494). -/
def postTrap (s : State) (c sl : Nat) (t : TrapInfo) : State :=
  modBlock s c sl fun b => { b with traps := b.traps ++ [t] }

/-! ## Returning from a trap (R255, R431) -/

/-- RETT of threads of a block in handler state: each resumes at its own point, its latches invalid. -/
def returnThreads (s : State) (c sl : Nat) (ts : List Nat) : State :=
  modBlock s c sl fun b =>
    let b := b.modThreads ts fun _ x => { x with pc := x.trapPc, handler := false, wait := 0, wdog := 0, line := none }
    let b := b.leave ts s.cycle
    if b.busy then b else b.modThreads (List.range b.nthr) fun _ x => if x.wait == 11 then { x with wait := 0 } else x

/-- RETT of a control context: a block's stream resumes at TRAPPC, K and Y at INTPC. -/
def returnCtl (s : State) (id : CtxId) : State :=
  modCtl s id fun c =>
    let p := match id with
      | .blk _ _ => c.trapPc
      | _ => c.intr.intpc
    { c with pc := p, handler := false, wait := 0, latches := [], line := none }

end Sys2Proof.Machine
end

