-- ==== Sys2Proof/Machine/Operands.lean ====
section
/-! DEFINITION. How an instruction enters, reads its operands and completes: the context it runs in (R113), the decode
traps in their order (R94 to R98, R115), specifiers and latches (R96 to R104), poison (R123), guards (R109), the PC's
advance (R87), issue counts (R79). Every meaning of an instruction is written over `Cx.start` and `Cx.finish`.
Where the spec leaves a point open: notes/assumptions, entries 7, 8, 49, 67. -/

namespace Sys2Proof.Machine

/-! ## Contexts (R113) -/

/-- T: threaded block, V: vector stream, S: spatial control program, K: supervisor code, Y: system core. -/
inductive Kind | T | V | S | K | Y
  deriving DecidableEq, Repr

/-- The stream that stands at an instruction: its place, the threads of the bundle that have not completed it (or 0 for
a control stream), the instruction's address and line. -/
structure Cx where
  id : CtxId
  kind : Kind
  acts : List Nat
  pc : VAddr
  line : Option (List W32)
  deriving DecidableEq, Repr

/-- Wait kinds whose instruction is tried again; the others end when another stream or unit ends them (R478). -/
def pollable (k : Nat) : Bool := [0, 1, 2, 8, 10, 11].contains k

def Model.kind : Model → Kind
  | .threaded => .T
  | .vector => .V
  | .spatial => .S

/-- The current stream (`State.cur`). -/
def cxOf (s : State) : Option Cx :=
  match s.cur with
  | .bundle c sl n => (blockOf s c sl).bind fun b =>
      if b.exec.model != .threaded then none else (b.exec.bundles.find? (·.id == n)).map fun u =>
      { id := .blk c sl, kind := .T, pc := u.pc, line := u.line,
        acts := sortBy (fun (t : Nat) => t) (u.members.filter fun t =>
          let x := threadOf b t
          x.live && x.pc == u.pc && pollable x.wait.toNat) }
  | .ctl c sl => (blockOf s c sl).bind fun b =>
      if b.exec.model == .threaded then none else some
      { id := .blk c sl, kind := b.exec.model.kind, acts := [0], pc := b.exec.ctl.pc, line := b.exec.ctl.line }
  | .sup c => some { id := .sup c, kind := .K, acts := [0], pc := (coreOf s c).sup.pc, line := (coreOf s c).sup.line }
  | .sys n => some { id := .sys n, kind := .Y, acts := [0], pc := (sysOf s n).ctl.pc, line := (sysOf s n).ctl.line }

/-- A meaning acts for the current stream; there is none only when `cur` names no stream of the state. -/
def withCx (s : State) (f : Cx → State) : Host.Outcome State Fault Refusal :=
  match cxOf s with
  | some cx => .next (f cx)
  | none => .fault .noStream

def Cx.blk (cx : Cx) (s : State) : Option Block :=
  match cx.id with
  | .blk c sl => blockOf s c sl
  | _ => none
def Cx.ctl (cx : Cx) (s : State) : Ctl := (ctlOf s cx.id).getD {}
/-- The block's state changed; nothing for K and Y. -/
def Cx.modBlk (cx : Cx) (s : State) (f : Block → Block) : State :=
  match cx.id with
  | .blk c sl => modBlock s c sl f
  | _ => s
def Cx.mem (cx : Cx) (s : State) : BlkMem := ((cx.blk s).map (·.mem)).getD {}
def Cx.regs (cx : Cx) (s : State) : BlkRegs := ((cx.blk s).map (·.regs)).getD {}
/-- VL, 1 to 256 (R128). -/
def Cx.vl (cx : Cx) (s : State) : Nat := min (cx.regs s).vlen.toNat 256
/-- FEN and with it FSTAT are a block's; K and Y have none of their own (DEDUCED, safe: notes/assumptions/30.md). -/
def Cx.fen (cx : Cx) (s : State) : Nat := (cx.regs s).fen.toNat
def Cx.core (cx : Cx) : Nat := ((coreOfCtx cx.id)).getD 0
def Cx.isT (cx : Cx) : Bool := cx.kind == .T

/-- Bit `i` of pN as this context reads it (R109, R116). -/
def Cx.pbit (cx : Cx) (s : State) (n i : Nat) : Bool :=
  match cx.kind with
  | .K => n == 0 || (Store.get (cx.ctl s).preds n).getLsbD 0
  | .Y => n == 0 || (Store.get (cx.ctl s).preds n).getLsbD 0
  | _ => (cx.mem s).p n i

/-! ## Sources (R96 to R98) -/

/-- Register classes an operand names (R97). -/
inductive RC | g | d | s | v | p
  deriving DecidableEq, Repr

/-- An operand: specifier, class, whether it is 64 bits wide, the float format it is read in. -/
structure Src where
  n : Nat
  rc : RC
  wide : Bool := false
  flt : Option Nat := none
  deriving DecidableEq, Repr

def rcOf : Cls → RC
  | .g => .g
  | .s => .s
  | .v => .v

/-- A register number of a class is in range (R97). -/
def Cx.regOk (cx : Cx) (s : State) (rc : RC) (n : Nat) : Bool :=
  match rc with
  | .g => n < (cx.mem s).budget
  | .d => n < 32 && 2 * n + 1 < (cx.mem s).budget
  | .s => n < 32
  | .v => n < (cx.mem s).vcount
  | .p => n < 8

/-- A specifier is allowed for its operand (R94, R96 to R98, R143). -/
def Cx.srcOk (cx : Cx) (s : State) (imm : Option W32) (x : Src) : Bool :=
  if x.n < 64 then cx.regOk s x.rc x.n
  else if x.rc == .p then false
  else if x.n < 104 then true
  else if x.n < 112 then x.flt.any (· ≤ 2)
  else x.n == 127 && imm.isSome

/-- Half-integers in a float format: `m` halves (R98, R157). -/
def smallFloat (fmt : Nat) (neg : Bool) (m : Nat) : Nat :=
  let (p, bias, w) := if fmt = 1 then (10, 15, 16) else if fmt = 2 then (7, 127, 16) else (23, 127, 32)
  let e := Nat.log2 m
  (if neg then 2 ^ (w - 1) else 0) + (if m = 0 then 0 else (bias + e - 1) * 2 ^ p + (m - 2 ^ e) * 2 ^ (p - e))

/-- The float constants of specifiers 104 to 111, in halves. -/
def floatConsts : List (Bool × Nat) :=
  [(false, 0), (false, 1), (false, 2), (false, 4), (false, 8), (true, 2), (true, 1), (true, 4)]

/-- What reading an operand gives. -/
inductive Rd
  | val (v : Nat) (bad : Bool)
  | inval
  | pend
  deriving DecidableEq, Repr

/-- An operand reads a latch value at an element (R103). -/
def readLVal (x : Src) (lane : Nat) (bad : List Nat) : LVal → Rd
  | .bad => .inval
  | .w32 v => if x.wide then .inval else .val v.toNat (!bad.isEmpty)
  | .w64 v => .val (if x.wide then v.toNat else v.toNat % 2 ^ 32) (!bad.isEmpty)
  | .vec wide e => if x.rc != .v || (x.wide && !wide) then .inval
      else .val ((Store.get e lane).toNat % (if x.wide then 2 ^ 64 else 2 ^ 32)) (bad.contains lane)

/-- A thread's chain and captured operands, or the control stream's (R101, R104). -/
def Cx.chain (cx : Cx) (s : State) (who : Nat) : List Latch × List LVal :=
  if cx.isT then
    let t := ((cx.blk s).map fun b => threadOf b who).getD {}
    (t.latches, if t.ownCapt then t.capt else [])
  else ((cx.ctl s).latches, if (cx.ctl s).ownCapt then (cx.ctl s).capt else [])

/-- Reads operand number `i` for a thread, element or the control stream. -/
def Cx.read (cx : Cx) (s : State) (imm : Option W32) (i lane : Nat) (x : Src) : Rd :=
  let m := cx.mem s
  let rows := fun (ks : List Nat) =>
    if ks.any (keyPending s cx.id) then Rd.pend
    else Rd.val ((ks.mapIdx fun i k => (Store.get m.rows k).toNat * 2 ^ (32 * i)).sum) (ks.any m.rowPoison.contains)
  if x.n < 64 then
    match x.rc with
    | .g => rows [gKey lane x.n]
    | .d => rows [gKey lane (2 * x.n), gKey lane (2 * x.n + 1)]
    | .v => rows (if x.wide then [vKey x.n lane, vKey (x.n + 1) lane] else [vKey x.n lane])
    | .s => if keyPending s cx.id (sKey x.n) then .pend
            else .val (((cx.ctl s).s x.n).toNat % (if x.wide then 2 ^ 64 else 2 ^ 32)) ((cx.ctl s).spoison.contains x.n)
    | .p => .val (if cx.pbit s x.n lane then 1 else 0) false
  else if x.n < 72 then
    let (l, capt) := cx.chain s lane
    match capt[i]? with
    | some v => readLVal x lane [] v
    | none => match l[x.n - 64]? with
      | some e => if e.pend.isSome then .pend else readLVal x lane e.poison e.val
      | none => .inval
  else if x.n < 104 then
    match x.flt with
    | some f => .val (if f ≤ 2 then smallFloat f false (2 * (x.n - 72)) else x.n - 72) false
    | none => .val (x.n - 72) false
  else if x.n < 112 then
    let (neg, m) := (floatConsts[x.n - 104]?).getD (false, 0)
    .val (smallFloat (x.flt.getD 0) neg m) false
  else match imm with
    | some v => .val (if x.wide then wrapNat 64 (signed 32 v.toNat) else v.toNat) false
    | none => .inval

/-! ## Entering an instruction -/

/-- What an instruction's DREG and NWB name (R95, R97). -/
inductive Dst
  | none
  | reg (rc : RC)
  | pred
  | own
  deriving DecidableEq, Repr

/-- What decoding fixes of an instruction: where it is valid, its own field rules, operands, destination, length. -/
structure Dec where
  valid : Kind → Option Nat
  ok : Bool
  p : P0
  len : Nat
  imm : Option W32 := none
  srcs : List Src := []
  dst : Dst := .none
  transparent : Bool := false
  perElem : Bool := false
  payload : Bool := false
  matrix : Bool := false

/-- Valid in the contexts listed, PRIVILEGE in those of the second list, WRONG_MODEL elsewhere (R113). -/
def validIn (ok priv : List Kind) (k : Kind) : Option Nat :=
  if ok.contains k then none else if priv.contains k then some 7 else some 5
def everywhere (_ : Kind) : Option Nat := none

/-- The first decode trap that applies, LATCH_INVALID apart (R115). -/
def Cx.decodeTrap (cx : Cx) (s : State) (d : Dec) : Option Nat :=
  match d.valid cx.kind with
  | some c => some c
  | none =>
    let dreg := d.p.dreg.toNat
    let dstOk := match d.dst with
      | .none => dreg == 0 && !d.p.nwb
      | .reg rc => if d.p.nwb then dreg == 0 else cx.regOk s rc dreg
      | .pred => 1 ≤ dreg && dreg ≤ 7 && !d.p.nwb
      | .own => true
    if d.ok && dstOk && d.srcs.all (cx.srcOk s d.imm) then none else some 2

/-- One lane's operands, read together. -/
inductive LaneRd
  | vals (l : List Nat)
  | inval
  | pend
  | bad
  deriving DecidableEq, Repr

def Cx.readLane (cx : Cx) (s : State) (imm : Option W32) (srcs : List Src) (lane : Nat) : LaneRd :=
  let rs := srcs.mapIdx fun i x => cx.read s imm i lane x
  if rs.any (· == .inval) then .inval
  else if rs.any (· == .pend) then .pend
  else if rs.any fun r => match r with
      | .val _ b => b
      | _ => false then .bad
  else .vals (rs.map fun r => match r with
      | .val v _ => v
      | _ => 0)

/-- The latch operands an instruction read stay with streams that trap or are stopped at it (R104); a poison mark does not
stay with them, so the instruction raises no second MEMORY_ERROR for it (DESIGN CHOICE, unsafe: notes/assumptions/67.md). -/
def Cx.capture (cx : Cx) (s : State) (srcs : List Src) (who : List Nat) : State :=
  let vals := fun (l : List Latch) (old : List LVal) => if !old.isEmpty then old else
    let r := srcs.map fun x => if 64 ≤ x.n && x.n < 72 then ((l[x.n - 64]?).map (·.val)).getD .bad else .bad
    if r.all (· == .bad) then [] else r
  match cx.id with
  | .blk c sl =>
    if cx.isT then modBlock s c sl fun b => b.modThreads who fun _ t => if t.ownCapt then { t with capt := vals t.latches t.capt } else t
    else modCtl s cx.id fun c => if c.ownCapt then { c with capt := vals c.latches c.capt } else c
  | id => modCtl s id fun c => if c.ownCapt then { c with capt := vals c.latches c.capt } else c

/-- Raises a trap at the instruction for those of `who` that still stand at it. -/
def Cx.raise (cx : Cx) (s : State) (srcs : List Src) (t : TrapInfo) (who : List Nat) (after : Option VAddr := none) : State :=
  match cx.id with
  | .blk c sl =>
    let who := if cx.isT then who.filter fun w =>
        match blockOf s c sl with
        | some b => (threadOf b w).live && (threadOf b w).pc == cx.pc
        | none => false
      else who
    if who.isEmpty then s else deliver (cx.capture s srcs who) c sl t who after
  | id => raiseSelf (cx.capture s srcs who) id t after

/-- Streams that still stand at the instruction wait there (R478), with its issue counted or not. -/
def Cx.waitAs (cx : Cx) (s : State) (who : List Nat) (k : Nat) (begun : Bool) : State :=
  match cx.id with
  | .blk c sl => modBlock s c sl fun b =>
      let ts := if cx.isT then who.filter fun t => (threadOf b t).pc == cx.pc else who
      (b.setWait ts k).setBegun ts begun
  | id => modCtl s id fun c => { c with wait := BitVec.ofNat 4 k, begun }

/-- Streams whose instruction has issued wait in it. -/
def Cx.wait (cx : Cx) (s : State) (who : List Nat) (k : Nat) : State := cx.waitAs s who k true

/-- Streams wait for an operand, or for the line itself, before the instruction issues. -/
def Cx.waitOperand (cx : Cx) (s : State) (who : List Nat) : State := cx.waitAs s who 1 false

/-- The next instruction in fall-through order, and whether it lies past the end of a final line (R87). -/
def fallNext (ln : Option (List W32)) (pc : VAddr) (len : Nat) : VAddr × Bool :=
  match ln with
  | none => (pc + BitVec.ofNat 57 (4 * len), false)
  | some l =>
    let j := pc.toNat / 4 % 32 + len
    let p0 := l.headD 0
    if j < 32 && p0.getLsbD (j - 2) then (pc + BitVec.ofNat 57 (4 * len), false)
    else (BitVec.ofNat 57 (pc.toNat / 128 * 128 + 136), bits p0.toNat 31 30 == 3)

def Cx.next (cx : Cx) (d : Dec) : VAddr := (fallNext cx.line cx.pc d.len).1

/-- A system core's retired-instruction count (R404). -/
def Cx.retire (cx : Cx) (s : State) : State :=
  match cx.id with
  | .sys n => modSys s n fun y => { y with retired := y.retired + 1 }
  | _ => s

/-- Streams complete the instruction and go on in fall-through order; past a final line they raise ILLEGAL_TARGET (R87,
R101, R102). -/
def Cx.finish (cx : Cx) (s : State) (d : Dec) (who : List Nat) (entry : Nat → Latch) : State :=
  if who.isEmpty then s else
  let (nx, fin) := fallNext cx.line cx.pc d.len
  if fin then cx.raise s d.srcs { cause := 4, addr := cx.pc.toNat / 128 * 128 + 128 } who else
  let s := cx.retire s
  match cx.id with
  | .blk c sl =>
    if cx.isT then modBlock s c sl fun b =>
      (who.foldl (fun b t => b.completeThread t d.transparent (entry t) nx) b).settleAll s.cycle
    else modCtl s cx.id fun c => c.complete d.transparent (entry 0) nx
  | id => modCtl s id fun c => c.complete d.transparent (entry 0) nx

/-- Issue slots and 64 payload lane-operations of a multiply's issue; only the slots have energy here (R79, R410). -/
def Cx.countMma (cx : Cx) (s : State) (beats n : Nat) : State :=
  match cx.id with
  | .blk c sl => energyBlock (modBlock s c sl fun b => (b.addMeter 0 beats).addMeter 1 (if n = 0 then 0 else 64)) c sl 1 beats
  | _ => s

/-- Issue slots and lane-operations of an issue (R79), with their energy (R410); a spatial block's issue slots are the
cycles in which its cells fire. -/
def Cx.count (cx : Cx) (s : State) (payload : Bool) (beats n : Nat) : State :=
  match cx.id with
  | .blk c sl =>
    let slots := if cx.kind == .S then 0 else beats
    let s := modBlock s c sl fun b => ((b.addMeter 0 slots).addMeter (if payload then 1 else 2) n)
    energyBlock (energyBlock s c sl 1 slots) c sl (if payload then 3 else 2) n
  | _ => s

/-- Beats of an instruction (R49, R146). -/
def Cx.beats (cx : Cx) (s : State) (d : Dec) : Nat := if d.perElem then ceilDiv (cx.vl s) 64 else 1

/-- The lanes an instruction works on: the bundle's threads, the elements below VL, or the stream once (R133). -/
def Cx.lanes (cx : Cx) (s : State) (d : Dec) : List Nat :=
  if cx.isT then cx.acts else if d.perElem then List.range (cx.vl s) else [0]

/-- Whether the streams at the instruction have begun it before and wait in it: its issue is counted. -/
def Cx.begun (cx : Cx) (s : State) : Bool :=
  match cx.id with
  | .blk _ _ => ((cx.blk s).map fun b => cx.acts.any b.begunAt).getD false
  | id => ((ctlOf s id).map fun c => c.wait.toNat > 1 || c.wait == 1 && c.begun).getD false

/-- Enters an instruction (R115): decode traps, operands, poison; then `k` gives its effect for the acting lanes with
their operand values. Streams whose guard is false complete with an invalid entry (R101, R109). In the threaded model
the threads that trap leave and the others go on (R51). -/
def Cx.start (cx : Cx) (s : State) (d : Dec) (k : State → List (Nat × List Nat) → State) : State :=
  match cx.decodeTrap s d with
  | some c => cx.raise s d.srcs { cause := c } cx.acts
  | none =>
    let acting := (cx.lanes s d).filter fun l => cx.pbit s d.p.grd.toNat l
    let rds := acting.map fun l => (l, cx.readLane s d.imm d.srcs l)
    let inval := (rds.filter fun r => r.2 == .inval).map (·.1)
    let bad := (rds.filter fun r => r.2 == .bad).map (·.1)
    let good := rds.filterMap fun r => match r.2 with
      | .vals l => some (r.1, l)
      | _ => none
    let waits := rds.any fun r => r.2 == .pend
    let count := fun (s : State) => if cx.begun s then s
      else if d.matrix then cx.countMma s (cx.beats s d) good.length else cx.count s d.payload (cx.beats s d) good.length
    if cx.isT then
      let trap := fun (s : State) => cx.raise (cx.raise s d.srcs { cause := 6, lanes := inval } inval) d.srcs { cause := 24, lanes := bad } bad
      if waits then trap (cx.waitOperand s (cx.acts.filter fun t => !inval.contains t && !bad.contains t)) else
      let s := cx.finish (count s) d (cx.acts.filter fun t => !acting.contains t) fun _ => {}
      if inval.isEmpty && bad.isEmpty then k s good
      else if (cx.blk s).any fun b => !b.busy && !isSealed s b && (cx.blk (trap s)).isSome then
        -- operand faults are delivered before what the others' effect raises, which waits (R115, R264)
        k (trap s) good
      else trap (k s good)
    else
      if d.srcs.mapIdx (fun i x => 64 ≤ x.n && x.n < 72 && cx.read s d.imm i 0 x == .inval) |>.any (· == true) then
        cx.raise s d.srcs { cause := 6 } [0]
      else if acting.isEmpty && !d.perElem then cx.finish (count s) d [0] fun _ => {}
      else if waits then cx.waitOperand s [0]
      else if !bad.isEmpty then cx.raise s d.srcs { cause := 24 } [0]
      else k (count s) good

/-! ## Streams that another stream or unit releases (R220, R247, R60) -/

/-- Waiting streams of a block complete the instruction of `len` parcels at which they wait, each in its own line; past
a final line they raise ILLEGAL_TARGET (R87). -/
def releaseWaiters (s : State) (c sl : Nat) (ts : List Nat) (len : Nat) : State :=
  ts.foldl (fun s t =>
    match blockOf s c sl with
    | none => s
    | some b =>
      let ln := if b.exec.model == .threaded then (b.exec.bundles.find? fun u => u.members.contains t).bind (·.line) else b.exec.ctl.line
      let (nx, fin) := fallNext ln (b.pcOf t) len
      if fin then deliver s c sl { cause := 4, addr := (b.pcOf t).toNat / 128 * 128 + 128 } [t] none
      else modBlock s c sl fun b => b.completeWho t false {} nx s.cycle) s

/-! ## Writing results -/

/-- Values written to the registers of lanes (R97, R123). -/
def putLanes (m : BlkMem) (f : LoadForm) (rs : List (Nat × Nat)) (bad : Bool) : BlkMem :=
  rs.foldl (fun m (l, v) => (f.keysOf l).mapIdx (fun i k => (i, k)) |>.foldl
    (fun m (i, k) => m.setRow k (BitVec.ofNat 32 (v / 2 ^ (32 * i))) bad) m) m

/-- Results written to the destination registers: the later write stands over results still to return (R123). -/
def Cx.put (cx : Cx) (s : State) (f : LoadForm) (rs : List (Nat × Nat)) (bad : Bool := false) : State :=
  let s := killKeys s cx.id (rs.flatMap fun r => f.keysOf r.1)
  match f.cls with
  | .s => if f.nwb then s else modCtl s cx.id fun c => rs.foldl (fun c r => c.setS f.dreg (BitVec.ofNat 64 r.2) bad) c
  | _ => cx.modBlk s fun b => b.modMem fun m => putLanes m f rs bad

/-- The latch entry after a result of one thread or control stream. -/
def entryOf (cls : Cls) (wide : Bool) (v : Nat) (bad : Bool := false) : Latch :=
  match cls with
  | .g => if wide then Latch.ofDouble (BitVec.ofNat 64 v) bad else Latch.ofWord (BitVec.ofNat 32 v) bad
  | _ => Latch.ofDouble (BitVec.ofNat 64 v) bad

/-- Writes results and completes the lanes that have them: `rs` are lane and value. sN of a position that holds v or s
registers is written N + 32 (R292). -/
def Cx.result (cx : Cx) (s : State) (d : Dec) (cls : Cls) (wide : Bool) (rs : List (Nat × Nat)) : State :=
  let n := d.p.dreg.toNat
  let f : LoadForm := { cls, wid := if wide then 8 else 4, sext := false, dreg := if cls == .s && n ≥ 32 then n - 32 else n, nwb := d.p.nwb }
  let s := cx.put s f rs
  match cls with
  | .v =>
    let m := cx.mem s
    cx.finish s d [0] fun _ => vectorEntry m f (rs.map fun r => (r.1, valBytes f.wid r.2, false))
  | _ => cx.finish s d (rs.map (·.1)) fun t => entryOf cls wide (((rs.find? (·.1 == t)).map (·.2)).getD 0)

/-- The class of the results of a class-11 instruction: g, v or s by context. -/
def Cx.cls (cx : Cx) : Cls :=
  match cx.kind with
  | .T => .g
  | .V => .v
  | _ => .s
/-- g or d in T, s elsewhere. -/
def Cx.scalarCls (cx : Cx) : Cls := if cx.isT then .g else .s
def Cx.rcScalar (cx : Cx) (wide : Bool) : RC := if cx.isT then (if wide then .d else .g) else .s

end Sys2Proof.Machine
end

