-- ==== Sys2Proof/Machine/Fetch.lean ====
section
/-! DEFINITION. Entering a line (R85 to R91), which streams can issue (R48, R49), and the instruction a stream stands
at. Where the spec leaves a point open: notes/assumptions, entries 59, 60. -/

namespace Sys2Proof.Machine

/-! ## Lines (R85, R88) -/

def parcelsOf (bs : List Byte) : List W32 := (List.range 32).map fun j => BitVec.ofNat 32 (field bs (4 * j) 4)

/-- The parcels of a line from `j` on (R88): the first that fails; `cover` is the first parcel not inside an
instruction. -/
def coverCheck (l : List W32) (starts : Nat) : Nat → Nat → Nat → Option Nat
  | 0, _, _ => none
  | f + 1, j, cover =>
    if j ≥ 32 then none else
    let p := (l[j]?).getD 0
    if bit starts (j - 2) then
      if j ≠ cover then some j
      else if j + formLength p > 32 then some j
      else coverCheck l starts f (j + 1) (j + formLength p)
    else if j ≥ cover && p != 0 then some j
    else coverCheck l starts f (j + 1) cover

/-- LineCheck (R88): the failing parcel, none for a pass. -/
def lineCheck (l : List W32) : Option Nat :=
  let a := (l.headD 0).toNat
  let b := ((l[1]?).getD 0).toNat
  let starts := bits a 29 0
  let targets := bits b 29 0
  if bits a 31 30 == 0 || bits b 31 30 != 0 || !bit starts 0 then some 0
  else if targets &&& starts != targets then some 1
  else coverCheck l starts 31 2 2

/-- The ASID and partition a place translates under (R382). -/
def spaceOf (s : State) (id : CtxId) : W16 × Nat :=
  match id with
  | .blk c sl => ((blockOf s c sl).map fun b => (b.asid, b.part)).getD (0, 0)
  | _ => ((ctlOf s id).map fun c => (c.asid, c.part)).getD (0, 0)

/-- What reading a line of code gives (R88, R90). -/
inductive LineRd
  | ok (l : List W32)
  | miss
  | unserved
  | bad (t : TrapInfo)
  deriving DecidableEq, Repr

/-- Reads the line that holds `va` (R89): translation, then the bytes at the home slice with the place's own stores. -/
def readLine (s : State) (id : CtxId) (va : Nat) : State × LineRd :=
  let (asid, part) := spaceOf s id
  let line := va / 128 * 128
  match translate s id asid part line 3 with
  | .miss => (s, .miss)
  | .bad 6 => (s, .bad { cause := 24, addr := line })
  | .bad w => (s, .bad { cause := 8, addr := line, detail := 3, wst := w })
  | .ok pa =>
    if !isPackage pa then (s, .bad { cause := 8, addr := line, detail := 3, wst := 3 }) else
    if unserved s pa then (s, .unserved) else
    let (s, bs, bad) := loadCode s id pa
    if bad then (s, .bad { cause := 24, addr := line }) else (s, .ok (parcelsOf bs))

/-! ## Entry of a stream -/

/-- The captured line of the current stream. -/
def setLine (s : State) (l : Option (List W32)) : State :=
  match s.cur with
  | .bundle c sl n => modBlock s c sl fun b => b.modExec fun e =>
      { e with bundles := e.bundles.map fun u => if u.id == n then { u with line := l } else u }
  | .ctl c sl => modCtl s (.blk c sl) fun k => { k with line := l }
  | .sup c => modCtl s (.sup c) fun k => { k with line := l }
  | .sys n => modCtl s (.sys n) fun k => { k with line := l }

/-- The stream enters its line (R88): in a sealed region no code outside the running version's section (R63); fetch
faults and MEMORY_ERROR, then the line check, at the address of entry. None in the second part: it did not enter. The
order of the section check, what an entry by RETT, hop or restore at no instruction's start raises, and what a handler's
line of another kind than entry raises (R86, R419) are readings (DEDUCED, unsafe: notes/assumptions/59.md). -/
def enterLine (s : State) (cx : Cx) : State × Option (List W32) :=
  let out := match cx.blk s with
    | some b => if isSealed s b && !inSection s b cx.pc.toNat then cx.acts.filter fun t =>
        !(if cx.isT then (threadOf b t).handler else b.exec.ctl.handler) else []
    | none => []
  if !out.isEmpty then (cx.raise s [] { cause := 17, addr := cx.pc.toNat, lanes := if cx.isT then out else [] } out, none) else
  match readLine s cx.id cx.pc.toNat with
  | (s, .miss) =>
    let (asid, part) := spaceOf s cx.id
    (cx.waitOperand (askWalk s cx.id (cx.acts.headD 0) asid part (cx.pc.toNat / 128 * 128) 3) cx.acts, none)
  | (s, .unserved) => (cx.waitOperand s cx.acts, none)
  | (s, .bad t) => (cx.raise s [] t cx.acts, none)
  | (s, .ok l) =>
    let j := cx.pc.toNat / 4 % 32
    let handler := (cx.blk s).any fun b => b.regs.trapvec == cx.pc &&
      (if cx.isT then cx.acts.any fun t => (threadOf b t).handler else b.exec.ctl.handler)
    let fail := match lineCheck l with
      | some k => some k
      | none => if handler && bits (l.headD 0).toNat 31 30 != 2 then some 0 else if j ≥ 2 && (l.headD 0).getLsbD (j - 2) && cx.pc.toNat % 4 == 0 then none else some j
    match fail with
    | some k => (cx.raise s [] { cause := 3, addr := cx.pc.toNat / 128 * 128 + 4 * k } cx.acts, none)
    | none => (setLine s (some l), some l)

/-- The bytes of the current stream's instruction from its captured line, entering the line first if need be. None: the
stream issues nothing now. -/
def fetchBytes (s : State) (cx : Cx) : State × Option (List Byte) :=
  let (s, l) := match cx.line with
    | some l => (s, some l)
    | none => enterLine s cx
  (s, l.map fun l => (l.drop (cx.pc.toNat / 4 % 32)).flatMap fun p => valBytes 4 p.toNat)

/-! ## What can issue (R48, R49, R102) -/

/-- The entrants of an imprecise trap (R311, R370, R494): the threads it names that live, else the lowest live one. -/
def imprecisePlaces (b : Block) (t : TrapInfo) : List Nat :=
  if b.exec.model != .threaded then b.streams
  else if t.blockWide then b.liveThreads
  else match t.lanes.filter fun x => (threadOf b x).live with
    | [] => (leastOf b.liveThreads).toList
    | l => l

/-- An imprecise trap that waits to be delivered holds each of its entrants at the first stop place it comes to (R105,
R494). -/
def Block.held (b : Block) (who : Nat) : Bool :=
  match b.traps with
  | [] => false
  | t :: _ => !b.busy && (imprecisePlaces b t).contains who && b.atStop who

/-- Whether a stream of a block may go on: the block waits for no window (R66) and runs and no trap holds the stream, or it
is stopping and the stream stands at no stop place. -/
def Block.goes (b : Block) (who : Nat) : Bool :=
  b.exec.sealedWait.isNone && match b.phase with
  | .running => !b.held who
  | .stopping _ _ _ => !b.atStop who
  | _ => false

/-- Whether the current stream can issue now. -/
def canIssue (s : State) (cx : Cx) : Bool :=
  match cx.id with
  | .blk _ _ => ((cx.blk s).map fun b =>
      !cx.acts.isEmpty && cx.acts.any b.goes && (cx.isT || (!b.exec.ctl.done && pollable b.exec.ctl.wait.toNat))).getD false
  | .sup c => !(coreOf s c).sup.halted && !(coreOf s c).quarantined && pollable (coreOf s c).sup.wait.toNat
  | .sys n => !(sysOf s n).ctl.halted && pollable (sysOf s n).ctl.wait.toNat

/-- Whether a stream that can issue need not wait for an operand: what R49 calls ready, as far as the state shows it. -/
def readyIssuers (s : State) (c : Nat) : List (Issuer × Nat × Block) :=
  (coreOf s c).slots.flatMap fun (sl, b) =>
    match b.exec.model with
    | .threaded => (b.exec.bundles.filter fun u => u.members.any fun t =>
        let x := threadOf b t
        x.live && x.pc == u.pc && pollable x.wait.toNat && b.goes t).map fun u => (.bundle c sl u.id, sl, b)
    | _ => if !b.exec.ctl.done && pollable b.exec.ctl.wait.toNat && b.goes 0 then [(.ctl c sl, sl, b)] else []

/-- A bundle's live members and the cycle its oldest thread became free. -/
def bundleSize (b : Block) (i : Issuer) : Nat × Nat × Nat :=
  match i with
  | .bundle _ _ n => match b.exec.bundles.find? (·.id == n) with
    | some u => (u.members.length, (u.members.map fun t => (threadOf b t).freeAt).foldl min (2 ^ 64), u.members.foldl min (2 ^ 16))
    | none => (0, 0, 0)
  | _ => (1, 0, 0)

/-- When a promotion clock of an issuer last saw an issue (R49 item 1): the block's, or the oldest of its threads' gangs,
from placement on. -/
def lastIssue (b : Block) (i : Issuer) : Nat :=
  let own := max b.issuedAt b.placedAt
  match i with
  | .bundle _ _ n => match b.exec.bundles.find? (·.id == n) with
    | some u =>
      let gangs := (u.members.map (· / 64)).eraseDups
      let gang := fun (g : Nat) => ((upFrom (64 * g) 64).map fun t => (threadOf b t).issuedAt).foldl max b.placedAt
      min own ((gangs.map gang).foldl min (2 ^ 64))
    | none => own
  | _ => own

/-- Whether some member of a bundle waits for an operand that has not returned (R48, R49). -/
def operandOut (s : State) (id : CtxId) (b : Block) (n : Nat) : Bool :=
  (b.exec.bundles.find? (·.id == n)).any fun u => (u.members.any fun t => (threadOf b t).wait == 1) &&
    (s.pending.any (·.ctx == id) || s.walks.any (·.ctx == id) || s.outside.any (·.ctx == id))

/-- Whether an issuer that has issued YIELD is not yet chosen under R49 step 4: another ready bundle of its block has not
issued since, or, of a control stream, 16 cycles have not passed (R244). -/
def yields (s : State) (l : List (Issuer × Nat × Block)) (e : Issuer × Nat × Block) : Bool :=
  match e.1 with
  | .bundle c sl n =>
    match (e.2.2.exec.bundles.find? (·.id == n)).bind (·.yieldAt) with
    | none => false
    | some y => s.cycle < y + 64 && l.any fun o => match o.1 with
      | .bundle c' sl' n' => c' == c && sl' == sl && n' != n && !operandOut s (.blk c sl) o.2.2 n' &&
          ((o.2.2.exec.bundles.find? (·.id == n')).map fun u => u.members.all fun t => (threadOf o.2.2 t).issuedAt ≤ y).getD false
      | _ => false
  | .ctl _ _ => match e.2.2.exec.ctl.yieldAt with
    | some y => s.cycle < y + 16
    | none => false
  | _ => false

/-- The issuers in the order in which the issue unit considers them (R49): it issues from the first that is ready. Blocks
of one priority placed in one cycle, which the rule does not order, come by slot (DESIGN CHOICE, unsafe:
notes/assumptions/60.md). -/
def issueOrder (s : State) (c : Nat) : List Issuer :=
  let l := readyIssuers s c
  let late := fun (e : Issuer × Nat × Block) => decide (lastIssue e.2.2 e.1 + 64 ≤ s.cycle)
  let big := fun (e : Issuer × Nat × Block) => 2 ^ 16 - (bundleSize e.2.2 e.1).1
  (sortBy (fun e => lastIssue e.2.2 e.1) (sortBy big (l.filter late))).map (·.1) ++
    let l := sortBy (fun e => (bundleSize e.2.2 e.1).2.2) (l.filter fun e => !late e)
    let l := sortBy (fun e => (bundleSize e.2.2 e.1).2.1) l
    let l := sortBy big l
    let yield := fun (ctl : Bool) (e : Issuer × Nat × Block) => if (e.2.2.exec.model != .threaded) == ctl && yields s l e then 1 else 0
    -- a bundle that yielded comes after the others of its block, a control stream after every other block of its priority
    let l := sortBy (yield false) l
    let l := sortBy (fun e => e.2.2.placedAt * 16 + e.2.1) l
    let l := sortBy (yield true) l
    (sortBy (fun e => 255 - e.2.2.prio) l).map (·.1)

/-- The core whose issue unit a stream competes for (R49): a block's of a lane-mode core. -/
def laneOf (s : State) : Issuer → Option Nat
  | .bundle c _ _ | .ctl c _ => if (coreOf s c).fabricOf.isNone then some c else none
  | _ => none
/-- Whether a core has issued in this cycle: it issues one instruction a cycle (R49). -/
def laneUsed (s : State) (c : Nat) : Bool := s.cycle != 0 && (coreOf s c).slots.any fun e => e.2.issuedAt == s.cycle

/-- Whether the current stream has issued from `s0` to `s`: it no longer stands at the instruction, or has begun a wait in
it that is not for an operand. -/
def issued (s0 s : State) (cx : Cx) : Bool :=
  match cx.id with
  | .blk c sl => match blockOf s0 c sl, blockOf s c sl with
    | some a, some b => (if cx.isT then cx.acts else [0]).any fun t =>
        !b.streams.contains t || b.pcOf t != a.pcOf t || b.waitOf t == 0 || (b.waitOf t != 1 && b.waitOf t != a.waitOf t)
    | _, _ => true
  | id => match ctlOf s0 id, ctlOf s id with
    | some a, some b => b.halted || b.pc != a.pc || b.wait == 0 || (b.wait != 1 && b.wait != a.wait)
    | _, _ => true

/-- The issue is noted for R49, and the watchdog counts of the threads restart (R246). -/
def noteIssue (s0 s : State) (cx : Cx) : State :=
  if !issued s0 s cx then s else
  cx.modBlk s fun b => (({ b with issuedAt := s.cycle } : Block).modThreads (if cx.isT then cx.acts else []) fun _ t =>
    { t with issuedAt := s.cycle, wdog := 0 })

/-- The debugger's single step (R425): the streams that issued stop after their instruction, at a stop place; in a sealed
region the stop lands at the EP (R77). -/
def stepStop (s : State) (cx : Cx) (c sl : Nat) : State :=
  match blockOf s c sl with
  | none => s
  | some b =>
    let moved := cx.acts.filter fun t => b.pcOf t != cx.pc && b.streams.contains t && b.atStop t
    if b.regs.dbgctl.getLsbD 0 && b.regs.dbgctl.getLsbD 1 && b.phase == .running && !isSealed s b && !moved.isEmpty then
      deliver s c sl { cause := 25, debug := true } moved none
    else s

/-- After a stream issued in `s0`: its channel traffic is charged (R407); a stopping block whose streams all stand at stop
places has stopped (R424). -/
def afterIssue (s0 s : State) (cx : Cx) : State :=
  let s := noteIssue s0 (blame s0 s (some cx.id)) cx
  match cx.id with
  | .blk c sl => settleStop (stepStop s cx c sl) c sl
  | _ => s

end Sys2Proof.Machine
end

