-- ==== Sys2Proof/Machine/Addr.lean ====
section
/-! DEFINITION. Addresses and their checks: the spaces and faults of R262 to R264, windows (R294), private addresses
(R268, R297), the operand classes of memory instructions (R292, R293), translation of every access before any effect. -/

namespace Sys2Proof.Machine

/-! ## Faults of addresses -/

/-- A failed check of one lane: `rank` orders the causes of R264. -/
structure AFault where
  rank : Nat
  cause : Nat
  addr : Int
  detail : Nat := 0
  wst : Nat := 0
  deriving DecidableEq, Repr

def alignFault (ea : Int) (wid kind : Nat) : Option AFault :=
  if ea % wid != 0 then some { rank := 0, cause := 9, addr := ea, detail := kind } else none
/-- Outside 0 to 2^57 − 1 (R262). -/
def globalFault (ea : Int) (n kind : Nat) : Option AFault :=
  if ea < 0 || ea + n > (2 ^ 57 : Nat) then some { rank := 1, cause := 8, addr := ea, detail := kind, wst := 5 } else none
/-- Outside the block's local bytes (R262, R266). -/
def localFault (locb : Nat) (ea : Int) (n : Nat) : Option AFault :=
  if ea < 0 || ea + n > locb then some { rank := 1, cause := 11, addr := ea } else none
/-- The last word of a private access at or beyond PLIM, or no such thread (R268, R297). -/
def privateFault (plim nthr t : Nat) (ea : Int) (n : Nat) : Option AFault :=
  if ea < 0 || (ea + n + 3) / 4 > plim || t ≥ nthr then some { rank := 1, cause := 10, addr := ea } else none
/-- A local write outside LWSET in a sealed region (R63). -/
def lwsetFault (sealed : Bool) (r : Region) (ea : Int) (n : Nat) : Option AFault :=
  if sealed && !inLwset r ea.toNat n then some { rank := 2, cause := 17, addr := ea } else none

/-- The first of several checks that fails. -/
def firstFault (l : List (Option AFault)) : Option AFault := (l.filterMap fun x => x).head?

/-- One trap for the lanes that fail (R264): the first cause any fails, its lanes, the lowest address. In the threaded
model a thread that fails only a later cause waits. -/
def Cx.raiseFaults (cx : Cx) (s : State) (d : Dec) (fs : List (Nat × AFault)) : State :=
  match leastOf (fs.map (·.2.rank)) with
  | none => s
  | some r =>
    let now := fs.filter fun f => f.2.rank == r
    let first := ((now.map (·.2)).head?).getD { rank := 0, cause := 0, addr := 0 }
    let now := now.filter fun f => f.2.cause == first.cause
    let low := now.foldl (fun (m : AFault) f => if f.2.addr < m.addr then f.2 else m) first
    let lanes := now.map (·.1)
    let later := (fs.filter fun f => !lanes.contains f.1).map (·.1)
    let s := if cx.isT && !later.isEmpty then cx.wait s later 11 else s
    cx.raise s d.srcs { cause := low.cause, addr := wrapNat 64 low.addr, detail := low.detail, wst := low.wst,
                        lanes := if cx.isT then lanes else [] } (if cx.isT then lanes else [0])

/-! ## Where an instruction acts -/

/-- The block whose local memory a context reaches: its own, or the one SVTGT names (R493). -/
def Cx.localSite (cx : Cx) (s : State) : Option (Nat × Nat) :=
  match cx.id with
  | .blk c sl => some (c, sl)
  | .sup c =>
    let t := (coreOf s c).svtgt.toNat
    if (blockOf s c t).isSome then some (c, t) else none
  | .sys _ => none
def Cx.localBlk (cx : Cx) (s : State) : Option Block := (cx.localSite s).bind fun x => blockOf s x.1 x.2
def Cx.modLocal (cx : Cx) (s : State) (f : Block → Block) : State :=
  match cx.localSite s with
  | some (c, sl) => modBlock s c sl f
  | none => s

/-- Whether the stream is subject to the rules of a sealed region: its block stands in one and it is not in handler
state (DEDUCED, unsafe: notes/assumptions/31.md). -/
def Cx.sealed (cx : Cx) (s : State) : Bool :=
  match cx.blk s with
  | some b => isSealed s b && !(if cx.isT then cx.acts.any fun t => (threadOf b t).handler else b.exec.ctl.handler)
  | none => false
def Cx.region (cx : Cx) (s : State) : Region := ((cx.blk s).map (regionOf s)).getD {}
/-- Determinism of the block's launch (R343, R350). -/
def Cx.det (cx : Cx) (s : State) : Nat := ((cx.blk s).map (·.det)).getD 0

/-- Base of the argument window (R294, R303). -/
def Cx.window (cx : Cx) (s : State) : Option Nat := (cx.localBlk s).map fun b => b.regs.argb.toNat / 2 ^ 32 * 2 ^ 32

/-- A global address from a base operand (R294): a 32-bit operand of the threaded model, or a v operand, names a byte of
the window; a 64-bit entry or operand stands for itself. -/
def Cx.globalEa (cx : Cx) (s : State) (imm : Option W32) (i lane : Nat) (x : Src) (ofs : Int) (v : Nat) : Int :=
  if x.wide then (v : Int) + ofs
  else match (if 64 ≤ x.n && x.n < 72 then cx.read s imm i lane { x with wide := true } else .inval) with
    | .val u _ => (u : Int) + ofs
    | _ => (((cx.window s).getD 0) + v : Nat) + ofs

/-! ## Operand classes (R292, R293) -/

/-- The class of a "v or s" operand in the vector model; the context's own class elsewhere. -/
def Cx.dataCls (cx : Cx) (s : State) (n : Nat) : Cls :=
  match cx.kind with
  | .T => .g
  | .V =>
    if n < 32 then .v else if n < 64 then .s
    else if n < 72 then
      match (cx.chain s 0).2, ((cx.chain s 0).1[n - 64]?) with
      | [], some e => match e.pend with
        | some k => match s.pending.find? (·.id == k) with
          | some p => p.form.cls
          | none => .s
        | none => match e.val with
          | .vec _ _ => .v
          | _ => .s
      | c, _ => if c.any fun v => match v with
          | .vec _ _ => true
          | _ => false then .v else .s
    else .s
  | _ => .s

/-- A register number in the class it names: sN of the vector model is written N + 32. -/
def Cx.dataNum (cx : Cx) (n : Nat) : Nat := if cx.kind == .V && 32 ≤ n && n < 64 then n - 32 else n

/-- Operands of a data value of `wid` bytes: one, or a pair for 16 bytes and for the 64-bit compare and swap. None: the
register numbers are not allowed. `flt` is the float format it is read in (R98). -/
def Cx.dataSrcs (cx : Cx) (s : State) (n wid : Nat) (flt : Option Nat := none) : Option (List Src) :=
  let c := cx.dataCls s n
  let m := cx.dataNum n
  let step := if c == .v then 2 else 1
  let rc : RC := if c == .v then .v else if cx.isT then (if wid ≤ 4 then .g else .d) else .s
  let one := fun (k : Nat) => ({ n := k, rc, wide := wid > 4, flt } : Src)
  let pair := wid == 16
  let fits := fun (k : Nat) => n ≥ 64 || c != .v || wid ≤ 4 || k + 1 < (cx.mem s).vcount
  if !fits m || (pair && n < 64 && c != .v && m % 2 == 1) || (pair && n < 64 && !fits (m + step)) then none
  else some (if pair && n < 64 then [one m, one (m + step)] else [one m])

/-- Whether a destination register of `wid` bytes is allowed (R293). -/
def Cx.destOk (cx : Cx) (s : State) (p : P0) (wid : Nat) : Bool :=
  let n := p.dreg.toNat
  if p.nwb then n == 0 else
  let m := cx.dataNum n
  match cx.dataCls s n with
  | .g => if wid ≤ 4 then cx.regOk s .g n else if wid ≤ 8 then cx.regOk s .d n
      else n % 2 == 0 && cx.regOk s .d n && cx.regOk s .d (n + 1)
  | .s => m < 32 && (wid ≤ 8 || m % 2 == 0)
  | .v => wid ≤ 8 && cx.regOk s .v n && (wid ≤ 4 || cx.regOk s .v (n + 1))

/-- The form of a result of `wid` bytes. -/
def Cx.formOf (cx : Cx) (s : State) (p : P0) (wid : Nat) (sext : Bool) : LoadForm :=
  { cls := cx.dataCls s p.dreg.toNat, wid, sext, dreg := cx.dataNum p.dreg.toNat, nwb := p.nwb }

/-- A data value from its operands, low half first. -/
def dataVal (l : List Nat) : Nat := aOf l + 2 ^ 64 * bOf l
where
  aOf (l : List Nat) : Nat := (l[0]?).getD 0
  bOf (l : List Nat) : Nat := (l[1]?).getD 0

/-! ## Accesses -/

inductive Space | glob | loc | prv
  deriving DecidableEq, Repr

/-- An access of a lane: its space, effective address, width, data. `t` is its thread in private memory. -/
structure Acc where
  sp : Space
  lane : Nat
  ea : Int
  t : Nat := 0
  data : List Nat := []
  deriving DecidableEq, Repr

/-- A piece of an access in one place: virtual and physical address, offset in the value, bytes. -/
structure Piece where
  va : Nat
  pa : Nat
  ofs : Nat
  n : Nat
  deriving DecidableEq, Repr

/-- The virtual pieces of an access: (address, offset, bytes) (R268). -/
def pieces (b : BlkRegs) (a : Acc) (wid : Nat) : List (Nat × Nat × Nat) :=
  let p := a.ea.toNat
  match a.sp with
  | .prv =>
    let at_ := fun (w : Nat) => b.pbase.toNat + (w * b.nthr.toNat + a.t) * 4
    if wid < 4 then [(at_ (p / 4) + p % 4, 0, wid)]
    else (List.range (wid / 4)).map fun i => (at_ (p / 4 + i), 4 * i, 4)
  | _ => [(p, 0, wid)]

/-- What translating an access gives. -/
inductive AccTr
  | ok (l : List Piece)
  | bad (f : AFault)
  | miss (va : Nat)
  deriving DecidableEq, Repr

/-- Every piece of an access translated (R385); `kind` 0 read, 1 write, 2 atomic. -/
def Cx.translateAcc (cx : Cx) (s : State) (wid kind : Nat) (a : Acc) : AccTr :=
  if a.sp == .loc then .ok [{ va := a.ea.toNat, pa := a.ea.toNat, ofs := 0, n := wid }] else
  let (asid, part) := spaceOf s cx.id
  (pieces (cx.regs s) a wid).foldl (fun r (va, ofs, n) =>
    match r with
    | .ok l => match translate s cx.id asid part va kind with
      | .ok pa => .ok (l ++ [{ va, pa, ofs, n }])
      | .bad w => .bad { rank := 3, cause := if w == 6 then 24 else 8, addr := if a.sp == .prv then a.ea else va,
                         detail := if w == 6 then 0 else kind, wst := if w == 6 then 0 else w }
      | .miss => .miss va
    | r => r) (.ok [])

/-- The checks of an access before translation (R262 to R264). `write` in a sealed region stays in LWSET. -/
def Cx.checkAcc (cx : Cx) (s : State) (wid kind : Nat) (a : Acc) : Option AFault :=
  let b := (cx.localBlk s).map (·.mem.locb)
  let r := cx.regs s
  let range := match a.sp with
    | .glob => globalFault a.ea wid kind
    | .loc => localFault (b.getD 0) a.ea wid
    | .prv => privateFault r.plim.toNat r.nthr.toNat a.t a.ea wid
  firstFault [alignFault a.ea wid kind, range,
    if a.sp == .loc && kind != 0 then lwsetFault (cx.sealed s) (cx.region s) a.ea wid else none]

/-- Whether a read of the place outside the package, or an acquiring atomic of it, is still out: its later accesses wait
for it, those of local memory too (R320). -/
def outsideRead (s : State) (id : CtxId) : Bool :=
  (s.outside.any fun o => o.ctx == id && o.pend.isSome) || s.path.any fun p => p.ctx == id && p.acq

/-- Whether a drain, AST or ALD row that a stream has placed in the matrix queue still owes these local bytes, or for a
write still reads them (R226, R231): the stream's access waits. -/
def Cx.rowOwed (cx : Cx) (s : State) (wid kind : Nat) (a : Acc) : Bool :=
  match cx.id with
  | .blk c sl => a.sp == .loc && (mqOf s c sl).any fun e =>
      let laps := fun (x n : Nat) => (x : Int) < a.ea + wid && a.ea < (x + n : Nat)
      (!cx.isT || e.who == a.lane) && match e.op with
        | .drn p1 x _ => laps x (if bits p1.toNat 21 18 == 0 || bits p1.toNat 21 18 == 3 then 128 else 64)
        | .ast _ x _ => laps x 256
        | .ald _ x _ => kind != 0 && laps x 256
        | _ => false
  | _ => false

/-- The accesses of an instruction: every check, then every translation, before any effect (R264); `k` acts for those
that pass, once every slice named serves (R286). In the threaded model the failing threads leave and the others go on. A
translation fault is raised when every walk of the instruction has ended, so that it names all that fail. -/
def Cx.access (cx : Cx) (s : State) (d : Dec) (wid kind : Nat) (accs : List Acc)
    (k : State → List (Acc × List Piece) → State) : State :=
  if (!accs.isEmpty && outsideRead s cx.id) || accs.any (cx.rowOwed s wid kind) then cx.wait s cx.acts 1 else
  let rs : List (Acc × AccTr) := accs.map fun a => (a, match cx.checkAcc s wid kind a with
    | some f => AccTr.bad f
    | none => cx.translateAcc s wid kind a)
  let faults := rs.filterMap fun r => match r.2 with
    | .bad f => some (r.1.lane, f)
    | _ => none
  let good := rs.filterMap fun r => match r.2 with
    | .ok l => some (r.1, l)
    | _ => none
  let misses := rs.filterMap fun r => match r.2 with
    | .miss va => some (r.1.lane, va)
    | _ => none
  let faults := if misses.isEmpty then faults else faults.filter fun f => f.2.rank < 3
  if !faults.isEmpty && !cx.isT then cx.raiseFaults s d faults
  else if good.any fun g => g.1.sp != .loc && g.2.any fun q => unserved s q.pa (coreOfCtx cx.id) then cx.wait s cx.acts 1
  else
    let (asid, part) := spaceOf s cx.id
    let s := if misses.isEmpty then k s good
      else misses.foldl (fun s m => askWalk s cx.id m.1 asid part m.2 kind)
        (cx.wait s (if cx.isT then cx.acts.filter fun t => !faults.any fun f => f.1 == t else [0]) 1)
    if faults.isEmpty then s else cx.raiseFaults s d faults

end Sys2Proof.Machine
end

