-- ==== Sys2Proof/Machine/Flags.lean ====
section
/-! DEFINITION. FSTAT and FEN (R126, R166, R189, R134), predicates (R141 to R143), and the shared course of an ALU
function (R132 to R134, R189, R198). Flag masks have the bit positions of FSTAT. -/

namespace Sys2Proof.Machine

/-- Flags joined. -/
def orAll (l : List Nat) : Nat := l.foldl (fun a b => a ||| b) 0

def Cx.orFlags (cx : Cx) (s : State) (flags : Nat) : State :=
  cx.modBlk s fun b => b.modRegs fun r => { r with fstat := r.fstat ||| BitVec.ofNat 32 (flags % 128) }

/-- The enabled conditions among flags; SATQ never traps (R126). -/
def enabled (fen flags : Nat) : Nat := flags &&& fen &&& 0x5F

/-- The trap of enabled conditions: INT_DIVZERO for IDZ, FP for the others (R126, R419). -/
def flagTrap (e : Nat) (lanes : List Nat) : TrapInfo :=
  if bit e 6 then { cause := 19, lanes } else { cause := 20, detail := e, lanes }

/-- Results with their flags: `rs` are lane, value, flags; `k` completes the lanes it is given. In the threaded model
the lanes that meet an enabled condition trap and the others complete; elsewhere the instruction traps whole and nothing
is written (R126, R134, R189). -/
def Cx.flagged (cx : Cx) (s : State) (d : Dec) (rs : List (Nat × Nat × Nat)) (k : State → List (Nat × Nat) → State) : State :=
  let fen := cx.fen s
  let bad := rs.filter fun r => enabled fen r.2.2 != 0
  let good := rs.filter fun r => enabled fen r.2.2 == 0
  let e := orAll (bad.map fun r => enabled fen r.2.2)
  if cx.isT then
    let s := k (cx.orFlags s (orAll (good.map (·.2.2)))) (good.map fun r => (r.1, r.2.1))
    if bad.isEmpty then s else cx.raise s d.srcs (flagTrap e (bad.map (·.1))) (bad.map (·.1))
  else if bad.isEmpty then k (cx.orFlags s (orAll (rs.map (·.2.2)))) (rs.map fun r => (r.1, r.2.1))
  else cx.raise s d.srcs (flagTrap e []) [0]

/-- All 256 bits of a mask. -/
def allMask : BitVec 2048 := BitVec.ofNat 2048 (2 ^ 256 - 1)

/-- A condition written to a predicate, by class and context (R142). -/
def Cx.putPred (cx : Cx) (s : State) (cls : Cls) (n : Nat) (rs : List (Nat × Bool)) : State :=
  match cls with
  | .s => match cx.id with
    | .blk _ _ => cx.modBlk s fun b => b.modMem fun m => rs.foldl (fun m r =>
        { m with preds := Store.set m.preds n (if r.2 then allMask else 0) }) m
    | id => modCtl s id fun c => rs.foldl (fun c r => { c with preds := Store.set c.preds n (if r.2 then 1 else 0) }) c
  | _ => cx.modBlk s fun b => b.modMem fun m => rs.foldl (fun m r => m.setP n r.1 r.2) m

/-! ## ALU functions -/

/-- A function of the ALU table: its decoding, its class, and its result (value, flags) from the operands. -/
structure Alu where
  d : Dec
  cls : Cls
  sfu : Bool := false
  f : List Nat → Nat × Nat

/-- Where a class is valid (R113); an SFU function not on a system core. -/
def clsValid (cls : Cls) (sfu : Bool) : Kind → Option Nat :=
  match cls with
  | .g => validIn [.T] []
  | .s => if sfu then validIn [.V, .S, .K] [] else validIn [.V, .S, .K, .Y] []
  | .v => validIn [.V] []

/-- Lane results of the SFU that a context awaits (R198). -/
def sfuQueued (s : State) (id : CtxId) : Nat := ((s.pending.filter fun p => p.ctx == id && p.sfu).map fun p => p.elts.length).sum

/-- SFU results enter the context's queue: their registers and latches await SFU_RESULT_RETURN (R198). -/
def Cx.sfuQueue (cx : Cx) (s : State) (d : Dec) (cls : Cls) (rs : List (Nat × Nat × Nat)) : State :=
  if sfuQueued s cx.id + rs.length > 512 then cx.wait s cx.acts 10 else
  let wid := if cls == .s then 8 else 4
  let f : LoadForm := { cls, wid, sext := false, dreg := d.p.dreg.toNat, nwb := d.p.nwb }
  let keys := rs.flatMap fun r => f.keysOf r.1
  let s := killKeys s cx.id keys
  let (n, s) := fresh s
  let p : Pending := { id := n, ctx := cx.id, sfu := true, form := f, keys, flags := orAll (rs.map (·.2.2)),
                       elts := rs.map fun r => (r.1, some (valBytes wid r.2.1), false) }
  let s := { s with pending := s.pending ++ [p] }
  let s := match cx.id with
    | .blk c sl => energyBlock s c sl 4 rs.length
    | _ => s
  cx.finish s d (if cls == .v then [0] else rs.map (·.1)) fun _ => { val := .bad, pend := some n }

/-- The course of an ALU function with a register destination (R133, R134, R189, R198): with a trap of FEN [4:0]
enabled an SFU function completes with its results. -/
def Cx.alu (cx : Cx) (s : State) (a : Alu) : State :=
  cx.start s a.d fun s rs =>
    let rs := rs.map fun r => (r.1, a.f r.2)
    if a.sfu && cx.fen s % 32 == 0 then cx.sfuQueue s a.d a.cls rs
    else cx.flagged s a.d rs fun s rs => cx.result s a.d a.cls (a.cls == .s) rs

/-- The course of a comparison: the result is a predicate, the latch entry invalid (R108, R141, R142, R193). -/
def Cx.aluPred (cx : Cx) (s : State) (a : Alu) : State :=
  cx.start s a.d fun s rs =>
    cx.flagged s a.d (rs.map fun r => (r.1, a.f r.2)) fun s rs =>
      let s := cx.putPred s a.cls a.d.p.dreg.toNat (rs.map fun r => (r.1, r.2 != 0))
      cx.finish s a.d (if a.cls == .v then [0] else rs.map (·.1)) fun _ => {}

/-! ## Forms of the ALU table (R93, R94, R99, R108) -/

/-- The operands of an R-form function and the rules of its specifiers: one immediate at most. -/
def rAlu (o : ROp) (cls : Cls) (two : Bool) (f : List Nat → Nat × Nat) (payload : Bool := false) : Alu :=
  let a := o.p.srcA.toNat
  let b := o.p.srcB.toNat
  let wide := cls == .s
  let x : Src := { n := a, rc := (rcOf cls), wide }
  let y : Src := { n := b, rc := (rcOf cls), wide }
  { cls, f
    d := { valid := clsValid cls false, p := o.p, len := if a == 127 || b == 127 then 2 else 1,
           ok := !(a == 127 && b == 127) && (two || b == 0), imm := if a == 127 || b == 127 then some o.imm else none,
           srcs := if two then [x, y] else [x], dst := .reg (rcOf cls), transparent := true, perElem := cls == .v, payload } }

/-- An X-form function with `n` sources read as floats of `flt`, or as integers: `ok` are its rules on RM, SAT, TYPE
and FN4. -/
def xAlu (o : XOp) (cls : Cls) (n : Nat) (flt : Option Nat) (ok : Bool) (f : List Nat → Nat × Nat)
    (payload sfu : Bool := false) (dst : Dst := .reg (rcOf cls)) : Alu :=
  let a := o.p.srcA.toNat
  let b := o.p.srcB.toNat
  let c := o.srcC.toNat
  let src := fun (k : Nat) => ({ n := k, rc := (rcOf cls), wide := cls == .s && flt.isNone, flt } : Src)
  { cls, f, sfu
    d := { valid := clsValid cls sfu, p := o.p, len := 2, dst, transparent := true, perElem := cls == .v, payload,
           ok := ok && o.z == 0 && (n ≥ 2 || b == 0) && (n ≥ 3 || c == 0) && a != 127 && b != 127 && c != 127,
           srcs := ([a, b, c].take n).map src } }

end Sys2Proof.Machine
end

