-- ==== Sys2Proof/Machine/IntAlu.lean ====
section
/-! DEFINITION. The integer, logic, select, move, address and predicate functions (spec 06_isa_scalar.md R132 to R143)
and MOVW (R145). Operands are numbers below 2^W. -/

namespace Sys2Proof.Machine

/-- W of a class (R132). -/
def widthOf (cls : Cls) : Nat := if cls == .s then 64 else 32
/-- SatS (R132). -/
def satS (w : Nat) (y : Int) : Nat := wrapNat w (min (max y (-(2 ^ (w - 1) : Nat))) ((2 ^ (w - 1) : Nat) - 1))
def aOf (l : List Nat) : Nat := (l[0]?).getD 0
def bOf (l : List Nat) : Nat := (l[1]?).getD 0
def cOf (l : List Nat) : Nat := (l[2]?).getD 0
def noFlags (f : List Nat → Nat) (l : List Nat) : Nat × Nat := (f l, 0)

/-! ## The functions -/

def addF (w : Nat) (l : List Nat) : Nat := (aOf l + bOf l) % 2 ^ w
def subF (w : Nat) (l : List Nat) : Nat := wrapNat w ((aOf l : Int) - bOf l)
def mulF (w : Nat) (l : List Nat) : Nat := aOf l * bOf l % 2 ^ w
def mulhF (w : Nat) (l : List Nat) : Nat := wrapNat w (signed w (aOf l) * signed w (bOf l) / (2 ^ w : Nat))
def mulhuF (w : Nat) (l : List Nat) : Nat := aOf l * bOf l / 2 ^ w
def madF (w : Nat) (sat : Bool) (l : List Nat) : Nat :=
  if sat then satS w (signed w (aOf l) * signed w (bOf l) + signed w (cOf l)) else (aOf l * bOf l + cOf l) % 2 ^ w
def negF (w : Nat) (l : List Nat) : Nat := wrapNat w (-signed w (aOf l))
def absF (w : Nat) (l : List Nat) : Nat := (signed w (aOf l)).natAbs % 2 ^ w
def minF (w : Nat) (l : List Nat) : Nat := if signed w (aOf l) ≤ signed w (bOf l) then aOf l else bOf l
def maxF (w : Nat) (l : List Nat) : Nat := if signed w (aOf l) ≥ signed w (bOf l) then aOf l else bOf l
def minuF (l : List Nat) : Nat := if aOf l ≤ bOf l then aOf l else bOf l
def maxuF (l : List Nat) : Nat := if aOf l ≥ bOf l then aOf l else bOf l
def addsatF (w : Nat) (l : List Nat) : Nat := satS w (signed w (aOf l) + signed w (bOf l))
def subsatF (w : Nat) (l : List Nat) : Nat := satS w (signed w (aOf l) - signed w (bOf l))

/-- DivFamily (R137): division by zero gives all ones and the condition IDZ. -/
def divF (w : Nat) (f : Nat → Nat → Nat) (l : List Nat) : Nat × Nat :=
  if bOf l = 0 then (2 ^ w - 1, fIdz) else (f (aOf l) (bOf l), 0)
def divS (w a b : Nat) : Nat := wrapNat w ((signed w a).tdiv (signed w b))
def remS (w a b : Nat) : Nat := wrapNat w (signed w a - (signed w a).tdiv (signed w b) * signed w b)

def andF (l : List Nat) : Nat := aOf l &&& bOf l
def orF (l : List Nat) : Nat := aOf l ||| bOf l
def xorF (l : List Nat) : Nat := aOf l ^^^ bOf l
def notN (w a : Nat) : Nat := 2 ^ w - 1 - a % 2 ^ w
def andnF (w : Nat) (l : List Nat) : Nat := aOf l &&& notN w (bOf l)
def notF (w : Nat) (l : List Nat) : Nat := notN w (aOf l)
def shlF (w : Nat) (l : List Nat) : Nat := if bOf l ≥ w then 0 else aOf l * 2 ^ bOf l % 2 ^ w
def shrF (w : Nat) (l : List Nat) : Nat := if bOf l ≥ w then 0 else aOf l / 2 ^ bOf l
def sarF (w : Nat) (l : List Nat) : Nat := wrapNat w (signed w (aOf l) / (2 ^ min (bOf l) (w - 1) : Nat))
def rolF (w : Nat) (l : List Nat) : Nat := aOf l * 2 ^ (bOf l % w) % 2 ^ w ||| aOf l / 2 ^ (w - bOf l % w)
def clzF (w : Nat) (l : List Nat) : Nat := if aOf l = 0 then w else w - 1 - Nat.log2 (aOf l)
def popcF (w : Nat) (l : List Nat) : Nat := popCount (aOf l) w
def brevF (w : Nat) (l : List Nat) : Nat := ((List.range w).map fun i => if bit (aOf l) (w - 1 - i) then 2 ^ i else 0).sum
/-- BFX (R139). -/
def bfxF (w : Nat) (l : List Nat) : Nat :=
  if cOf l = 0 || bOf l ≥ w then 0 else aOf l / 2 ^ bOf l % 2 ^ min (cOf l) (w - bOf l)
/-- BFI (R139). -/
def bfiF (w : Nat) (l : List Nat) : Nat :=
  let pos := bits (cOf l) 7 0
  let len := bits (cOf l) 15 8
  if len = 0 || pos ≥ w then aOf l else
    let m := (2 ^ min len (w - pos) - 1) * 2 ^ pos
    (aOf l &&& notN w m) ||| (bOf l * 2 ^ pos &&& m)
def selF (l : List Nat) : Nat := if cOf l ≠ 0 then aOf l else bOf l
def leaF (w : Nat) (l : List Nat) : Nat := (aOf l + bOf l * 2 ^ (cOf l % 8)) % 2 ^ w
/-- The conditions of CMP (R141). -/
def cmpF (w fn : Nat) (l : List Nat) : Nat :=
  let a := aOf l
  let b := bOf l
  let r := match fn with
    | 0 => decide (a = b)
    | 1 => decide (a ≠ b)
    | 2 => decide (signed w a < signed w b)
    | 3 => decide (signed w a ≤ signed w b)
    | 4 => decide (signed w a > signed w b)
    | 5 => decide (signed w a ≥ signed w b)
    | 6 => decide (a < b)
    | 7 => decide (a ≤ b)
    | 8 => decide (a > b)
    | 9 => decide (a ≥ b)
    | 10 => decide (a &&& b ≠ 0)
    | _ => decide (a &&& b = 0)
  if r then 1 else 0

/-- The X-parcel rules of these functions (R135): no SRCC or FN4 but where used, RM and TYPE zero, SAT in MAD alone. -/
def xIntOk (o : XOp) (sat fn : Bool) : Bool :=
  o.rm == 0 && o.type == 0 && (sat || !o.sat) && (fn || o.fn4 == 0)

/-! ## The instructions -/

def execAdd (c : Cls) (o : ROp) (s : State) : Host.Outcome State Fault Refusal :=
  withCx s fun cx => cx.alu s (rAlu o c true (noFlags (addF (widthOf c))))
def execSub (c : Cls) (o : ROp) (s : State) : Host.Outcome State Fault Refusal :=
  withCx s fun cx => cx.alu s (rAlu o c true (noFlags (subF (widthOf c))))
def execMul (c : Cls) (o : ROp) (s : State) : Host.Outcome State Fault Refusal :=
  withCx s fun cx => cx.alu s (rAlu o c true (noFlags (mulF (widthOf c))) true)
def execMulh (c : Cls) (o : ROp) (s : State) : Host.Outcome State Fault Refusal :=
  withCx s fun cx => cx.alu s (rAlu o c true (noFlags (mulhF (widthOf c))) true)
def execMulhu (c : Cls) (o : ROp) (s : State) : Host.Outcome State Fault Refusal :=
  withCx s fun cx => cx.alu s (rAlu o c true (noFlags (mulhuF (widthOf c))) true)
def execMad (c : Cls) (o : XOp) (s : State) : Host.Outcome State Fault Refusal :=
  withCx s fun cx => cx.alu s (xAlu o c 3 none (xIntOk o true false) (noFlags (madF (widthOf c) o.sat)) true)
def execDiv (c : Cls) (o : ROp) (s : State) : Host.Outcome State Fault Refusal :=
  withCx s fun cx => cx.alu s (rAlu o c true (divF (widthOf c) (divS (widthOf c))))
def execDivu (c : Cls) (o : ROp) (s : State) : Host.Outcome State Fault Refusal :=
  withCx s fun cx => cx.alu s (rAlu o c true (divF (widthOf c) (fun a b => a / b)))
def execRem (c : Cls) (o : ROp) (s : State) : Host.Outcome State Fault Refusal :=
  withCx s fun cx => cx.alu s (rAlu o c true (divF (widthOf c) (remS (widthOf c))))
def execRemu (c : Cls) (o : ROp) (s : State) : Host.Outcome State Fault Refusal :=
  withCx s fun cx => cx.alu s (rAlu o c true (divF (widthOf c) (fun a b => a % b)))
def execNeg (c : Cls) (o : ROp) (s : State) : Host.Outcome State Fault Refusal :=
  withCx s fun cx => cx.alu s (rAlu o c false (noFlags (negF (widthOf c))))
def execAbs (c : Cls) (o : ROp) (s : State) : Host.Outcome State Fault Refusal :=
  withCx s fun cx => cx.alu s (rAlu o c false (noFlags (absF (widthOf c))))
def execMin (c : Cls) (o : ROp) (s : State) : Host.Outcome State Fault Refusal :=
  withCx s fun cx => cx.alu s (rAlu o c true (noFlags (minF (widthOf c))))
def execMax (c : Cls) (o : ROp) (s : State) : Host.Outcome State Fault Refusal :=
  withCx s fun cx => cx.alu s (rAlu o c true (noFlags (maxF (widthOf c))))
def execMinu (c : Cls) (o : ROp) (s : State) : Host.Outcome State Fault Refusal :=
  withCx s fun cx => cx.alu s (rAlu o c true (noFlags (minuF)))
def execMaxu (c : Cls) (o : ROp) (s : State) : Host.Outcome State Fault Refusal :=
  withCx s fun cx => cx.alu s (rAlu o c true (noFlags (maxuF)))
def execAddsat (c : Cls) (o : ROp) (s : State) : Host.Outcome State Fault Refusal :=
  withCx s fun cx => cx.alu s (rAlu o c true (noFlags (addsatF (widthOf c))) true)
def execSubsat (c : Cls) (o : ROp) (s : State) : Host.Outcome State Fault Refusal :=
  withCx s fun cx => cx.alu s (rAlu o c true (noFlags (subsatF (widthOf c))) true)
def execAnd (c : Cls) (o : ROp) (s : State) : Host.Outcome State Fault Refusal :=
  withCx s fun cx => cx.alu s (rAlu o c true (noFlags (andF)))
def execOr (c : Cls) (o : ROp) (s : State) : Host.Outcome State Fault Refusal :=
  withCx s fun cx => cx.alu s (rAlu o c true (noFlags (orF)))
def execXor (c : Cls) (o : ROp) (s : State) : Host.Outcome State Fault Refusal :=
  withCx s fun cx => cx.alu s (rAlu o c true (noFlags (xorF)))
def execAndn (c : Cls) (o : ROp) (s : State) : Host.Outcome State Fault Refusal :=
  withCx s fun cx => cx.alu s (rAlu o c true (noFlags (andnF (widthOf c))))
def execNot (c : Cls) (o : ROp) (s : State) : Host.Outcome State Fault Refusal :=
  withCx s fun cx => cx.alu s (rAlu o c false (noFlags (notF (widthOf c))))
def execShl (c : Cls) (o : ROp) (s : State) : Host.Outcome State Fault Refusal :=
  withCx s fun cx => cx.alu s (rAlu o c true (noFlags (shlF (widthOf c))))
def execShr (c : Cls) (o : ROp) (s : State) : Host.Outcome State Fault Refusal :=
  withCx s fun cx => cx.alu s (rAlu o c true (noFlags (shrF (widthOf c))))
def execSar (c : Cls) (o : ROp) (s : State) : Host.Outcome State Fault Refusal :=
  withCx s fun cx => cx.alu s (rAlu o c true (noFlags (sarF (widthOf c))))
def execRol (c : Cls) (o : ROp) (s : State) : Host.Outcome State Fault Refusal :=
  withCx s fun cx => cx.alu s (rAlu o c true (noFlags (rolF (widthOf c))))
def execClz (c : Cls) (o : ROp) (s : State) : Host.Outcome State Fault Refusal :=
  withCx s fun cx => cx.alu s (rAlu o c false (noFlags (clzF (widthOf c))))
def execPopc (c : Cls) (o : ROp) (s : State) : Host.Outcome State Fault Refusal :=
  withCx s fun cx => cx.alu s (rAlu o c false (noFlags (popcF (widthOf c))))
def execBrev (c : Cls) (o : ROp) (s : State) : Host.Outcome State Fault Refusal :=
  withCx s fun cx => cx.alu s (rAlu o c false (noFlags (brevF (widthOf c))))
def execBfx (c : Cls) (o : XOp) (s : State) : Host.Outcome State Fault Refusal :=
  withCx s fun cx => cx.alu s (xAlu o c 3 none (xIntOk o false false) (noFlags (bfxF (widthOf c))))
def execBfi (c : Cls) (o : XOp) (s : State) : Host.Outcome State Fault Refusal :=
  withCx s fun cx => cx.alu s (xAlu o c 3 none (xIntOk o false false) (noFlags (bfiF (widthOf c))))
def execSel (c : Cls) (o : XOp) (s : State) : Host.Outcome State Fault Refusal :=
  withCx s fun cx => cx.alu s (xAlu o c 3 none (xIntOk o false false) (noFlags (selF)))
def execMov (c : Cls) (o : ROp) (s : State) : Host.Outcome State Fault Refusal :=
  withCx s fun cx => cx.alu s (rAlu o c false (noFlags (aOf)))
def execCmp (c : Cls) (o : XOp) (s : State) : Host.Outcome State Fault Refusal :=
  withCx s fun cx => cx.aluPred s (xAlu o c 2 none (xIntOk o false true && o.fn4.toNat ≤ 11)
    (noFlags (cmpF (widthOf c) o.fn4.toNat)) false false .pred)
def execLea (c : Cls) (o : XOp) (s : State) : Host.Outcome State Fault Refusal :=
  withCx s fun cx => cx.alu s (xAlu o c 3 none (xIntOk o false false) (noFlags (leaF (widthOf c))))

/-- The truth table F of PLOG at a pair of bits (R143). -/
def plogBit (f : Nat) (a b : Bool) : Bool := bit f ((if a then 2 else 0) + (if b then 1 else 0))

/-- PLOG (R143): per thread, per acting element, over all 256 positions for the s class of a block, or once. -/
def execPlog (c : Cls) (o : XOp) (s : State) : Host.Outcome State Fault Refusal :=
  withCx s fun cx =>
    let a := o.p.srcA.toNat
    let b := o.p.srcB.toNat
    let d : Dec := { valid := clsValid c false, p := o.p, len := 2, dst := .pred, transparent := true, perElem := c == .v,
                     ok := xIntOk o false true && o.z == 0 && o.srcC == 0 && a < 8 && b < 8 }
    cx.start s d fun s rs =>
      let n := o.p.dreg.toNat
      let at_ := fun (s : State) (i : Nat) => plogBit o.fn4.toNat (cx.pbit s a i) (cx.pbit s b i)
      let vals := rs.map fun r => (r.1, at_ s r.1)
      let s := match c, cx.id with
        | .s, .blk _ _ => cx.modBlk s fun k => k.modMem fun m =>
            let w := ((List.range 256).map fun i => if at_ s i then 2 ^ i else 0).sum
            { m with preds := Store.set m.preds n (BitVec.ofNat 2048 w) }
        | _, _ => cx.putPred s c n vals
      cx.finish s d (if c == .v then [0] else rs.map (·.1)) fun _ => {}

/-- MOVW (R145): dN in the threaded model, sN elsewhere. -/
def execMovw (o : WOp) (s : State) : Host.Outcome State Fault Refusal :=
  withCx s fun cx =>
    let d : Dec := { valid := everywhere, p := o.p, len := 3, ok := o.p.srcA == 0 && o.p.srcB == 0,
                     dst := .reg (cx.rcScalar true), transparent := true }
    cx.start s d fun s rs => cx.result s d cx.scalarCls true (rs.map fun r => (r.1, o.imm.toNat))

end Sys2Proof.Machine
end

