-- ==== Sys2Proof/Machine/MemInstr.lean ====
section
/-! DEFINITION. Loads, stores, PREF and CFLUSH (spec 12_isa_memory.md R291 to R301; R272 to R274, R324, R328). A load
reads when it issues and its result returns with LOAD_DATA_RETURN; a store joins the path and performs with SLICE_WRITE.
Where the spec leaves a point open: notes/assumptions, entries 5, 6, 8. -/

namespace Sys2Proof.Machine

/-! ## Fields (R100, R295) -/

def widBytes (w : Nat) : Nat :=
  match w with
  | 0 => 1
  | 1 => 2
  | 2 => 4
  | 3 => 8
  | 4 => 16
  | 5 => 1
  | _ => 2
def mWid (o : MOp) : Nat := widBytes o.wid.toNat
def mSext (o : MOp) : Bool := o.wid.toNat ≥ 5
def mAcq (o : MOp) : Bool := o.order.getLsbD 0
def mRel (o : MOp) : Bool := o.order.getLsbD 1
/-- Wider than .blk. -/
def mWide (o : MOp) : Bool := o.scope != 0

/-- The combinations every M form obeys (R100): no reserved code, .dev.rem only with an acquire. -/
def mOk (o : MOp) : Bool :=
  o.scope.toNat ≤ 5 && o.cpol.toNat ≤ 3 && o.wid.toNat ≤ 6 && (o.scope.toNat != 5 || mAcq o) &&
    o.p.srcA.toNat != 127 && o.p.srcB.toNat != 127

/-- The rows of R295 for loads and stores. -/
def loadOk (o : MOp) (sp : Space) : Bool :=
  mOk o && o.p.srcB == 0 && !mRel o && match sp with
    | .glob => true
    | .loc => o.scope == 0 && o.cpol == 0
    | .prv => o.scope == 0 && o.order == 0 && o.cpol == 0
def storeOk (o : MOp) (sp : Space) : Bool :=
  mOk o && o.wid.toNat ≤ 4 && !mAcq o && o.scope.toNat != 5 && match sp with
    | .glob => true
    | .loc => o.scope == 0 && o.cpol == 0
    | .prv => o.scope == 0 && o.order == 0 && o.cpol == 0

/-! ## The plan of an access (R292 to R297) -/

/-- How a load or store reads its operands: its decoding, its base, the class of its data; `strided` that each element's
address is the operand's and its own offset (R296). -/
structure MemPlan where
  d : Dec
  base : Src
  cls : Cls
  strided : Bool := false

/-- `far` for LDG and STS, whose base is 64 bits wide; `vbase` when the vector model allows a v base. -/
def Cx.memPlan (cx : Cx) (s : State) (o : MOp) (valid : Kind → Option Nat) (ok : Bool) (sp : Space) (far vbase store : Bool) : MemPlan :=
  let dn := if store then o.p.srcB.toNat else o.p.dreg.toNat
  let cls := cx.dataCls s dn
  let a := o.p.srcA.toNat
  let acls : Cls := if cx.kind == .V && (vbase || far) then (if far && a < 64 then .v else cx.dataCls s a) else cx.scalarCls
  let base : Src := match acls with
    | .g => { n := a, rc := if far then .d else .g, wide := far }
    | .s => { n := if vbase then cx.dataNum a else a, rc := .s, wide := true }
    | .v => { n := a, rc := .v, wide := far }
  let mixed := cx.kind == .V && cls != .v && acls == .v
  let data := if store then cx.dataSrcs s dn (mWid o) else some []
  let base := if mixed && a ≥ 64 then { base with rc := .s, wide := true } else base
  let d : Dec := { valid, p := o.p, len := 2, srcs := base :: data.getD [], perElem := cls == .v,
                   ok := ok && data.isSome && !(store && cls == .v && mWid o == 16) && !(mixed && a < 64) && (store || cx.destOk s o.p (mWid o)) &&
                     (!(far && acls == .v && a < 64) || a + 1 < (cx.mem s).vcount) && (sp != .loc || (cx.localSite s).isSome),
                   dst := if store then .none else .own }
  { d, base, cls, strided := cls == .v && base.rc == .s && sp != .prv && !far }

/-- The accesses of the acting lanes (R294, R296, R297). -/
def Cx.memAccs (cx : Cx) (s : State) (o : MOp) (sp : Space) (m : MemPlan) (rs : List (Nat × List Nat)) : List Acc :=
  let strips := cx.kind == .V && sp == .prv
  let ofs := if strips then signed 18 o.ofs.toNat else signed 21 o.ofs.toNat
  let k := if strips then bits o.ofs.toNat 20 18 else 0
  rs.map fun r =>
    let v := aOf r.2
    let ea : Int := if sp == .glob then cx.globalEa s none 0 r.1 m.base ofs v else (v : Int) + ofs
    let step : Int := if m.strided then r.1 * mWid o else 0
    { sp, lane := r.1, ea := ea + step, t := r.1 + 256 * k, data := r.2.drop 1 }

/-! ## Loads -/

/-- Remote-scope promotion (R328): every core that runs a block of the partition performs its stores and atomics at .dev,
where those in lines it owns have performed (R324). None: one must wait. -/
def promote (s : State) (part : Nat) : Option State :=
  s.cores.foldl (fun r (c, k) =>
    if k.slots.any fun e => e.2.part == part then r.bind fun s =>
      let ids := CtxId.sup c :: k.slots.map fun e => .blk c e.1
      let s := ids.foldl drainPath s
      if s.path.any fun p => ids.contains p.ctx && !p.sent then none else some s
    else r) (some s)

/-- What an acquire at .col or wider does before the accesses after it (R274, R324). None: the promotion must wait. -/
def Cx.acquire (cx : Cx) (s : State) (scope : Nat) : Option State :=
  if scope == 0 then some s
  else (if scope == 5 then promote s (spaceOf s cx.id).2 else some s).map fun s => dropClean s cx.id

/-- A line is held by the core after its earlier accesses to it (R271, R323). None: it must wait. -/
def Cx.hold (cx : Cx) (s : State) (c slot line : Nat) (st : L1State) : Option State :=
  let s := if pathBusy s c line then drainPath s cx.id else s
  if pathBusy s c line then none else ownLine s c slot line st

/-- A private line is held PRIV by the block (R271). None: it must wait. -/
def Cx.holdPriv (cx : Cx) (s : State) (sp : Space) (pa : Nat) : Option State :=
  match sp, cx.id with
  | .prv, .blk c sl => if isPackage pa then cx.hold s c sl (pa / 128) .priv else some s
  | _, _ => some s

/-- The bytes of a thread's own staged records over `bs` read at `pa` (R65, R350). -/
def Cx.ownStaged (cx : Cx) (s : State) (lane pa : Nat) (bs : List Byte) (bad : Bool) : List Byte × Bool :=
  let st := ((cx.blk s).map (·.stage)).getD {}
  let (bs, bad) := overlayStaged st.staged lane pa bs bad
  overlayStaged st.window lane pa bs bad

/-- Of `n` bytes at an address outside the package, those that the thread's own stores still in the package give (R65,
R323). -/
def Cx.ownOver (cx : Cx) (s : State) (lane pa n : Nat) : List (Option Byte) :=
  let put := fun (x : Byte) =>
    let (bs, bad) := overlay s cx.id pa (List.replicate n x) false
    (cx.ownStaged s lane pa bs bad).1
  ((put 0#8).zip (put 0xFF#8)).map fun (a, b) => if a == b then some a else none

/-- Whether an atomic of the stream to the line is still on the path: a load of the line comes after it (R323); one with
.any need not perform first (R304). -/
def Cx.atomOwed (cx : Cx) (s : State) (line : Nat) : Bool :=
  s.path.any fun p => p.ctx == cx.id && !p.sent && (p.pa :: p.hi.toList).any (· / 128 == line) && (match p.kind with
    | .atom _ _ _ _ any _ _ => !any
    | .store _ _ => false)

/-- Whether an atomic that the stream put on the path from number `n` on has still to perform or leave the package. -/
def Cx.atomUnsent (cx : Cx) (s : State) (n : Nat) : Bool :=
  s.path.any fun p => p.ctx == cx.id && !p.sent && n ≤ p.id && (match p.kind with
    | .atom _ _ _ _ _ _ _ => true
    | .store _ _ => false)

/-- Before a release at .blk the place's earlier atomics perform; its other accesses have already done so there (R324,
R331). None: it must wait. -/
def Cx.ownRelease (cx : Cx) (s : State) : Option State :=
  let s := if cx.atomUnsent s 0 then drainPath s cx.id else s
  if cx.atomUnsent s 0 then none else some s

/-- One piece of a load: bytes, poison; none in the bytes when they must come from outside. None: it must wait. -/
def Cx.loadPiece (cx : Cx) (s : State) (sp : Space) (lane : Nat) (q : Piece) (home : Bool) (cp : Nat) :
    Option (State × Option (List Byte) × Bool) :=
  if sp == .loc then
    let (bs, bad) := ((cx.localBlk s).map fun b => b.mem.loadLoc q.pa q.n).getD ([], false)
    some (s, some bs, bad)
  else
    let s := if cx.atomOwed s (q.pa / 128) then drainPath s cx.id else s
    if cx.atomOwed s (q.pa / 128) then none
    else if !isPackage q.pa then some (s, none, false)
    else (cx.holdPriv s sp q.pa).map fun s =>
      let (s, bs, bad) := loadLine s cx.id q.pa q.n home (if sp == .glob then cp else 1)
      let (bs, bad) := cx.ownStaged s lane q.pa bs bad
      (s, some bs, bad)

/-- Energy of an access (R410): local words, or L1 line accesses. -/
def Cx.accessEnergy (cx : Cx) (s : State) (sp : Space) (l : List (Acc × List Piece)) (wid : Nat) : State :=
  match cx.id with
  | .blk c sl => if sp == .loc then energyBlock s c sl 12 (l.length * ceilDiv wid 4)
      else energyBlock s c sl 8 ((l.flatMap fun x => x.2.map fun q => q.pa / 128).eraseDups.length)
  | _ => s

/-- A result that will return is queued: its registers and latch await it (R101, R123). -/
def Cx.pendResult (cx : Cx) (s : State) (d : Dec) (f : LoadForm) (elts : List (Nat × Option (List Byte) × Bool)) (acq : Bool := false) : State × Nat :=
  let keys := elts.flatMap fun e => f.keysOf e.1
  let s := killKeys s cx.id keys
  let (n, s) := fresh s
  let s := { s with pending := s.pending ++ [{ id := n, ctx := cx.id, form := f, elts, keys, acq }] }
  (cx.finish s d (if f.cls == .v then [0] else elts.map (·.1)) fun _ => { val := .bad, pend := some n }, n)

/-- What a load has read of one lane: its pieces in order, each with its bytes if they are in the package, and poison. -/
abbrev Got := Nat × List (Piece × Option (List Byte) × Bool)
def Got.elt (g : Got) : Nat × Option (List Byte) × Bool :=
  (g.1, g.2.foldl (fun r x => r.bind fun l => x.2.1.map fun b => l ++ b) (some []), g.2.any (·.2.2))

/-- The pieces of the acting lanes read in order. None: one must wait. -/
def Cx.loadAll (cx : Cx) (s : State) (sp : Space) (home : Bool) (cp : Nat) (good : List (Acc × List Piece)) : Option (State × List Got) :=
  good.foldl (fun r (a, qs) => r.bind fun (s, l) =>
    (qs.foldl (fun r q => r.bind fun (s, ps) => (cx.loadPiece s sp a.lane q home cp).map fun (s, x) => (s, ps ++ [(q, x)]))
      (some (s, []))).map fun (s, ps) => (s, l ++ [(a.lane, ps)])) (some (s, []))

/-- The pieces of a result that lie outside the package are read there, each with the stream's own stores over it; the
others of the element wait for them. -/
def Cx.loadOutside (cx : Cx) (s : State) (n : Nat) (got : List Got) : State :=
  got.foldl (fun s g => if g.elt.2.1.isSome then s else
    let s := g.2.foldl (fun s (q, bs, bad) => match bs with
      | some b => addPart s n g.1 q.ofs b bad
      | none => readOutside s cx.id (spaceOf s cx.id).2 q.pa q.n n g.1 q.ofs (cx.ownOver s g.1 q.pa q.n)) s
    settleElt s n g.1) s

/-- A load's effect (R296, R298). -/
def Cx.load (cx : Cx) (s : State) (o : MOp) (sp : Space) (m : MemPlan) (good : List (Acc × List Piece)) : State :=
  if good.isEmpty && cx.isT then s else
  let acq := mAcq o && mWide o
  match (if acq then cx.acquire s o.scope.toNat else some s).bind fun s => cx.loadAll s sp acq o.cpol.toNat good with
  | none => cx.wait s cx.acts 1
  | some (s, got) =>
    let s := cx.accessEnergy s sp good (mWid o)
    let s := if acq then dropClean s cx.id else s
    let f := cx.formOf s o.p (mWid o) (mSext o)
    let elts := got.map Got.elt
    let (s, n) := cx.pendResult s m.d f elts (acq && elts.any (·.2.1.isNone))
    cx.loadOutside s n got

/-- The course of a load. -/
def Cx.loadInstr (cx : Cx) (s : State) (o : MOp) (valid : Kind → Option Nat) (sp : Space) (far vbase : Bool) : State :=
  let m := cx.memPlan s o valid (loadOk o sp) sp far vbase false
  let accs := cx.memAccs s o sp m
  cx.start s m.d fun s rs =>
    if cx.sealed s && mAcq o && mWide o then cx.raise s m.d.srcs { cause := 17 } (if cx.isT then rs.map (·.1) else [0])
    else cx.access s m.d (mWid o) 0 (accs rs) fun s good => cx.load s o sp m good

/-! ## Stores -/

/-- The staged records of an access: at most 8 aligned bytes each (R64). -/
def stagedOf (lane seq : Nat) (bs : List Byte) (qs : List Piece) : List Staged :=
  let cs := qs.flatMap fun q => (chunks8 3 q.pa ((bs.drop q.ofs).take q.n)).map fun c => (c.1, q.va + (c.1 - q.pa), c.2)
  cs.mapIdx fun i c => { who := lane, seq := seq + i, pa := c.1, va := c.2.1, bytes := c.2.2 }

/-- Records joined to the sealed window, or to the ticket unit's allotment. -/
def Cx.stageRecs (cx : Cx) (s : State) (window : Bool) (l : List Staged) : State :=
  let (asid, part) := spaceOf s cx.id
  cx.modBlk s fun b => b.modStage fun g =>
    let l := l.map fun r => { r with seq := r.seq + g.seq, page := pageSize s cx.id asid part r.va }
    if window then { g with window := g.window ++ l, seq := g.seq + l.length }
    else { g with staged := g.staged ++ l, seq := g.seq + l.length }

/-- An instruction that takes the block's ticket for itself asks for it and waits; `k` goes on once it is granted. -/
def Cx.holdTicket (cx : Cx) (s : State) (k : State → State) : State :=
  match (cx.blk s).bind (·.exec.ticketAsk) with
  | none => cx.wait (cx.modBlk s fun b => b.modExec fun e => { e with ticketAsk := some (cx.acts, false) }) cx.acts 10
  | some (w, true) => if w.any cx.acts.contains then k s else cx.wait s cx.acts 10
  | some _ => cx.wait s cx.acts 10
/-- The ticket an instruction took is used up. -/
def Cx.dropTicket (cx : Cx) (s : State) : State :=
  cx.modBlk s fun b => b.modExec fun e => { e with ticketAsk := match e.ticketAsk with
    | some (w, true) => if w.any cx.acts.contains then none else some (w, true)
    | x => x }
def Cx.withTicket (cx : Cx) (s : State) (k : State → State) : State := cx.holdTicket s fun s => k (cx.dropTicket s)

/-- Where the records of a store of global or private memory go: `k` goes on once they are staged. A full window raises
SEAL_OVERFLOW (R64); a full allotment takes the block's next ticket first (R350). -/
def Cx.staging (cx : Cx) (s : State) (d : Dec) (lanes : List Nat) (recs : List Staged) (k : State → State) : State :=
  let g := ((cx.blk s).map (·.stage)).getD {}
  if cx.sealed s then
    if g.window.length + recs.length > 4096 then
      let late := (recs.drop (4096 - g.window.length)).map (·.who)
      let lanes := if cx.isT then lanes.filter late.contains else []
      cx.raise s d.srcs { cause := 16, lanes } (if cx.isT then lanes else [0])
    else k (cx.stageRecs s true recs)
  else if g.staged.length + recs.length > 16384 && !g.staged.isEmpty then
    cx.withTicket s fun s => k (cx.stageRecs s false recs)
  else k (cx.stageRecs (cx.dropTicket s) false recs)

/-- One piece of a store performs in the cache or joins the path (R272). None: it must wait. -/
def Cx.storePiece (cx : Cx) (s : State) (sp : Space) (lane : Nat) (q : Piece) (bs : List Byte) (rel : Bool) (scope : Nat) (na : Bool) : Option State :=
  let (asid, part) := spaceOf s cx.id
  (cx.holdPriv s sp q.pa).map fun s => storeBytes s cx.id lane asid part q.pa q.va ((bs.drop q.ofs).take q.n) false rel scope na

/-- A store's effect (R296, R64, R350). -/
def Cx.store (cx : Cx) (s : State) (o : MOp) (sp : Space) (m : MemPlan) (good : List (Acc × List Piece)) : State :=
  if good.isEmpty && cx.isT then s else
  let wid := mWid o
  let s0 := s
  let s := cx.accessEnergy s sp good wid
  let lanes := if cx.isT then good.map (·.1.lane) else [0]
  let done := fun (s : State) => cx.finish s m.d lanes fun _ => {}
  let bytes := fun (a : Acc) => valBytes wid (dataVal a.data)
  if sp == .loc then
    done (cx.modLocal s fun b => b.modMem fun x => good.foldl (fun x (a, _) => x.storeLoc a.ea.toNat (bytes a) false) x)
  else if cx.sealed s || cx.det s != 0 then
    let recs := good.flatMap fun (a, qs) => stagedOf a.lane 0 (bytes a) qs
    cx.staging s m.d lanes (recs.mapIdx fun i r => { r with seq := i }) done
  else
    match good.foldl (fun r (a, qs) => qs.foldl (fun r q => r.bind fun s =>
        cx.storePiece s sp a.lane q (bytes a) (mRel o && mWide o) o.scope.toNat (o.cpol == 3)) r) (some s) with
    | some s => done s
    | none => cx.wait s0 cx.acts 1

/-- The course of a store. -/
def Cx.storeInstr (cx : Cx) (s : State) (o : MOp) (valid : Kind → Option Nat) (sp : Space) (far vbase : Bool) : State :=
  let m := cx.memPlan s o valid (storeOk o sp) sp far vbase true
  let accs := cx.memAccs s o sp m
  cx.start s m.d fun s rs =>
    if cx.sealed s && mRel o && mWide o then cx.raise s m.d.srcs { cause := 17 } (if cx.isT then rs.map (·.1) else [0])
    else cx.access s m.d (mWid o) 1 (accs rs) fun s good =>
      ((if mRel o && !mWide o then cx.ownRelease s else some s).map fun s => cx.store s o sp m good).getD (cx.wait s cx.acts 1)

def tv : Kind → Option Nat := validIn [.T, .V] []
def tvsk : Kind → Option Nat := validIn [.T, .V, .S, .K] []
def tvs : Kind → Option Nat := validIn [.T, .V, .S] []

def execLd (o : MOp) (s : State) : Host.Outcome State Fault Refusal :=
  withCx s fun cx => cx.loadInstr s o everywhere .glob false false
def execSt (o : MOp) (s : State) : Host.Outcome State Fault Refusal :=
  withCx s fun cx => cx.storeInstr s o everywhere .glob false false
def execLdl (o : MOp) (s : State) : Host.Outcome State Fault Refusal :=
  withCx s fun cx => cx.loadInstr s o tvsk .loc false true
def execStl (o : MOp) (s : State) : Host.Outcome State Fault Refusal :=
  withCx s fun cx => cx.storeInstr s o tvsk .loc false true
def execLdp (o : MOp) (s : State) : Host.Outcome State Fault Refusal :=
  withCx s fun cx => cx.loadInstr s o tv .prv false true
def execStp (o : MOp) (s : State) : Host.Outcome State Fault Refusal :=
  withCx s fun cx => cx.storeInstr s o tv .prv false true
def execLdg (o : MOp) (s : State) : Host.Outcome State Fault Refusal :=
  withCx s fun cx => cx.loadInstr s o tv .glob true false
def execSts (o : MOp) (s : State) : Host.Outcome State Fault Refusal :=
  withCx s fun cx => cx.storeInstr s o tv .glob true false

/-- LOAD_DATA_RETURN: a load's or atomic's data, all in the package, reach their registers and latches (R101, R298). -/
def execLoadDataReturn (id : Nat) (s : State) : Host.Outcome State Fault Refusal :=
  .next (match s.pending.find? fun p => p.id == id && !p.sfu with
    | some p => if p.arrived then returnResult s p else s
    | none => s)

/-! ## PREF and CFLUSH (R300, R301) -/

/-- The decoding of an instruction that names a global address and no register. -/
def Cx.addrDec (cx : Cx) (o : MOp) (ok : Bool) : Dec :=
  { valid := everywhere, p := o.p, len := 2, ok := ok && o.p.srcA.toNat != 127 && o.p.srcB == 0,
    srcs := [{ n := o.p.srcA.toNat, rc := if cx.isT then .g else .s, wide := !cx.isT }] }
def Cx.addrOf (cx : Cx) (s : State) (d : Dec) (o : MOp) (r : Nat × List Nat) : Int :=
  cx.globalEa s none 0 r.1 ((d.srcs.head?).getD { n := 0, rc := .s }) (signed 21 o.ofs.toNat) (aOf r.2)

/-- PREF: the address is walked if need be and a fill begins; one that would fault, or whose line cannot be reached now, is
dropped (R300). It changes no value and raises nothing. -/
def execPref (o : MOp) (s : State) : Host.Outcome State Fault Refusal :=
  withCx s fun cx =>
    let d := cx.addrDec o (o.scope == 0 && o.order == 0 && o.cpol.toNat ≤ 2 && o.wid == 0)
    let at_ := cx.addrOf s d o
    cx.start s d fun s rs =>
      let (asid, part) := spaceOf s cx.id
      let s := rs.foldl (fun s r =>
        let ea := at_ r
        if (globalFault ea 1 0).isSome then s else
        match engineTranslate s cx.id asid part ea.toNat 0 with
        | (s, .ok pa) => if !isPackage pa || unserved s pa (coreOfCtx cx.id) then s
            else if o.cpol.toNat == 1 then (readHome s pa 1 (coreOfCtx cx.id)).1
            else (loadLine s cx.id pa 1 false o.cpol.toNat).1
        | (s, .error _) => s) s
      cx.finish s d (if cx.isT then rs.map (·.1) else [0]) fun _ => {}

/-- The line's frame at this place after CFLUSH; with .sys the home slice's line is clean in its channel (R301). None: a
write-back must wait. -/
def Cx.flushLine (cx : Cx) (s : State) (line : Nat) (sys keep : Bool) : Option State :=
  let held : Option State := match frameOf s cx.id line with
    | none => some s
    | some f =>
      let s : Option State := if f.state == .clean then some s else (recallOwner s line none).bind fun s =>
        if keep then insertFrame s cx.id { f with state := .clean, dirty := [], owner := none } else some s
      if keep then s else s.map fun s => setFrames s cx.id ((framesOf s cx.id).filter fun x => x.line != line)
  held.map fun s => if sys then modTag (toChannel s line) line fun t => { t with dirty := false } else s

/-- CFLUSH. -/
def execCflush (o : MOp) (s : State) : Host.Outcome State Fault Refusal :=
  withCx s fun cx =>
    let d := cx.addrDec o ((o.scope.toNat == 3 || o.scope.toNat == 4) && o.order == 0 && o.cpol.toNat ≤ 1 && o.wid == 0)
    let at_ := cx.addrOf s d o
    cx.start s d fun s rs =>
      if cx.sealed s then cx.raise s d.srcs { cause := 17 } (if cx.isT then rs.map (·.1) else [0])
      else cx.access s d 1 0 (rs.map fun r => { sp := .glob, lane := r.1, ea := at_ r }) fun s good =>
        let lines := (good.flatMap fun x => x.2.map (·.pa)).filter isPackage
        -- the stream's own stores of the lines come first (R323)
        let s := drainLines s cx.id (lines.map (· / 128)) s.nextId
        let waits := cx.wait s cx.acts 1
        if s.path.any fun p => p.ctx == cx.id && !p.sent && lines.any fun a => a / 128 == p.pa / 128 then waits else
        match lines.foldl (fun r a => r.bind fun s => cx.flushLine s (a / 128) (o.scope.toNat == 4) (o.cpol == 1)) (some s) with
        | some s => cx.finish s d (if cx.isT then good.map (·.1.lane) else [0]) fun _ => {}
        | none => waits

end Sys2Proof.Machine
end

