-- ==== Sys2Proof/Machine/Atomic.lean ====
section
/-! DEFINITION. ATOM, RED, FENCE and WAITA (spec 12_isa_memory.md R302 to R308, R491; 13_ordering.md R320, R324).
Where the spec leaves a point open: notes/assumptions, entries 6, 32, 53, 61. -/

namespace Sys2Proof.Machine

/-! ## Fields (R100, R295, R302) -/

def aAop (o : MOp) : Nat := bits o.ofs.toNat 19 16
def aAny (o : MOp) : Bool := o.ofs.getLsbD 20
def aOfs (o : MOp) : Int := signed 16 o.ofs.toNat
def atomOk (o : MOp) (red : Bool) : Bool :=
  mOk o && o.cpol == 0 && (o.wid == 2 || o.wid == 3) && aAop o ≤ 11 && !(9 ≤ aAop o && o.wid == 3) &&
    !(red && (aAop o == 7 || mAcq o))

/-- How an ATOM or RED reads its operands: .cas takes a pair of the width (R302). -/
def Cx.atomPlan (cx : Cx) (s : State) (o : MOp) (red : Bool) : MemPlan :=
  let wid := mWid o * (if aAop o == 7 then 2 else 1)
  let bn := o.p.srcB.toNat
  let cls := cx.dataCls s bn
  let a := o.p.srcA.toNat
  let acls := if cx.kind == .V then cx.dataCls s a else cx.scalarCls
  let mixed := cx.kind == .V && cls != .v && acls == .v
  let base : Src := match acls with
    | .g => { n := a, rc := .g }
    | .s => { n := cx.dataNum a, rc := .s, wide := true }
    | .v => if mixed && a ≥ 64 then { n := a, rc := .s, wide := true } else { n := a, rc := .v }
  -- the float operations read FP32 (R98, R302)
  let data := cx.dataSrcs s bn wid (if 9 ≤ aAop o then some 0 else none)
  let dest := red || ((o.p.nwb || cx.dataCls s o.p.dreg.toNat == cls) && cx.destOk s o.p (mWid o))
  { base, cls
    d := { valid := everywhere, p := o.p, len := 2, srcs := base :: data.getD [], perElem := cls == .v,
           ok := atomOk o red && data.isSome && dest && !(mixed && a < 64), dst := if red then .none else .own } }

/-- The space an address reaches (R303): the last 2 MiB of the argument window are the local and the private aperture;
supervisor code reaches the local one alone (R493). Where SVTGT's slot holds no block there is no ARGB: the window is
taken to lie at 0 (DESIGN CHOICE, unsafe: notes/assumptions/61.md). -/
def Cx.aperture (cx : Cx) (s : State) (lane : Nat) (ea : Int) (data : List Nat) : Acc :=
  let w := (cx.window s).getD 0
  if (cx.kind == .Y) || ea < w || ea ≥ w + 2 ^ 32 then { sp := .glob, lane, ea, data } else
  let a := ea.toNat % 2 ^ 32
  if a ≥ 0xFFF00000 then { sp := .loc, lane, ea := (a % 2 ^ 20 : Nat), data }
  else if a ≥ 0xFFE00000 && cx.kind != .K then { sp := .prv, lane, ea := (a % 2 ^ 20 : Nat), t := lane, data }
  else { sp := .glob, lane, ea, data }

/-- The operand and compare value of an atomic from its data (R302). -/
def atomArgs (o : MOp) (data : List Nat) : Nat × Nat :=
  let v := dataVal data
  if aAop o != 7 then (v % 2 ^ (8 * mWid o), 0)
  else if o.wid == 2 then (v / 2 ^ 32 % 2 ^ 32, v % 2 ^ 32)
  else (v / 2 ^ 64 % 2 ^ 64, v % 2 ^ 64)

/-- An atomic in the local bank: old bytes and poison (R302, R491). -/
def Cx.localAtom (cx : Cx) (s : State) (o : MOp) (a : Acc) : State × List Byte × Bool :=
  let wid := mWid o
  let (bs, bad) := ((cx.localBlk s).map fun b => b.mem.loadLoc a.ea.toNat wid).getD ([], false)
  if bad then (s, bs, true) else
  let (b, cmp) := atomArgs o a.data
  let new := valBytes wid (atomF (aAop o) (8 * wid) (bytesVal bs) b cmp)
  (cx.modLocal s fun k => k.modMem fun m => m.storeLoc a.ea.toNat new false, bs, false)

/-- An atomic in lines the core holds, OWNED or PRIV; a private one of 8 bytes is two words that lie apart (R268, R303).
None: it must wait. -/
def Cx.ownedAtom (cx : Cx) (s : State) (o : MOp) (a : Acc) (qs : List Piece) : Option (State × List Byte × Bool) :=
  let (c, slot) := match cx.id with
    | .blk c sl => (c, sl)
    | id => ((coreOfCtx id).getD 0, 8)
  let st : L1State := if a.sp == .prv then .priv else .owned
  (qs.foldl (fun r q => r.bind fun s => cx.hold s c slot (q.pa / 128) st) (some s)).bind fun s =>
    let got := qs.filterMap fun q => (frameOf s cx.id (q.pa / 128)).map fun f => (f.bytes (q.pa % 128) q.n, (upFrom (q.pa % 128) q.n).any f.poison.contains)
    if got.length != qs.length then none else
    let bs := got.flatMap (·.1)
    if got.any (·.2) then some (s, bs, true) else
    let (b, cmp) := atomArgs o a.data
    let new := valBytes (mWid o) (atomF (aAop o) (8 * mWid o) (bytesVal bs) b cmp)
    some (qs.foldl (fun s q => modFrame s cx.id (q.pa / 128) fun f => f.write (q.pa % 128) ((new.drop q.ofs).take q.n) false s.cycle) s, bs, false)

/-- Whether an atomic performs on the core itself (R303, R276): local, private, or .blk at a compute core. -/
def Cx.atomHere (cx : Cx) (o : MOp) (a : Acc) (pa : Nat) : Bool :=
  a.sp == .loc || ((a.sp == .prv || o.scope == 0) && isPackage pa && (coreOfCtx cx.id).isSome)

/-- One lane's atomic: at once where it performs on the core; else it joins the path, and performs at once, if it may,
when it is an acquire wider than .blk (R320). None: it must wait. -/
def Cx.atomOne (cx : Cx) (s : State) (o : MOp) (pend : Option Nat) (x : Acc × List Piece) : Option State :=
  let (a, qs) := x
  let pa := ((qs.head?).map (·.pa)).getD 0
  let va := ((qs.head?).map (·.va)).getD 0
  let give := fun ((s, bs, bad) : State × List Byte × Bool) => giveElt s pend a.lane bs bad
  if a.sp == .loc then some (give (cx.localAtom s o a))
  else if cx.atomHere o a pa then (cx.ownedAtom s o a qs).map give
  else
    let (b, cmp) := atomArgs o a.data
    let (asid, part) := spaceOf s cx.id
    let acq := mAcq o && mWide o
    let s := pushPath s cx.id a.lane asid part pa (mWid o) va (.atom (aAop o) (mWid o) b cmp (aAny o) pend [])
      (mRel o && mWide o) o.scope.toNat false acq ((qs[1]?).map (·.pa))
    some (if acq then drainPath s cx.id else s)

/-- Several lanes' atomics in order. None: one must wait. -/
def Cx.atomAll (cx : Cx) (s : State) (o : MOp) (pend : Option Nat) (l : List (Acc × List Piece)) : Option State :=
  l.foldl (fun r x => r.bind fun s => cx.atomOne s o pend x) (some s)

/-- What a twinned block's copy does with a shared instruction (R462): performs it, waits for the other copy's result,
receives it, or differs in its operands. -/
inductive Twin
  | own
  | wait
  | differ
  | got (vals : List (Nat × List Byte × Bool))
  deriving DecidableEq, Repr

def Cx.twinRole (cx : Cx) (s : State) (ops : List Nat) : Twin :=
  match cx.id with
  | .blk c sl => match (blockOf s c sl).bind (·.twin) with
    | none => .own
    | some (c', sl') =>
      if c < c' then .own else
      match (blockOf s c' sl').bind (·.stage.shared) with
      | none => .wait
      | some x => if x.ops != ops then .differ else match x.vals with
        | some v => .got v
        | none => .wait
  | _ => .own

/-- The performing copy keeps what it did for the other one. -/
def Cx.twinKeep (cx : Cx) (s : State) (ops : List Nat) (pend : Option Nat) (vals : Option (List (Nat × List Byte × Bool))) : State :=
  cx.modBlk s fun b => if b.twin.isNone then b else b.modStage fun g => { g with shared := some { ops, pend, vals } }
/-- The other copy has received the result. -/
def Cx.twinTaken (cx : Cx) (s : State) : State :=
  match (cx.blk s).bind (·.twin) with
  | some (c, sl) => modBlock s c sl fun b => b.modStage fun g => { g with shared := none }
  | none => s

/-- The record of a mismatch between the copies of a block (R462). -/
def twinMismatch (s : State) (c sl addr : Nat) : State :=
  match blockOf s c sl with
  | some b => abortLaunch s b.launch { cause := 30, blk := b.regs.bidx.toNat, addr }
  | none => s
def Cx.twinDiffers (cx : Cx) (s : State) : State :=
  match cx.id with
  | .blk c sl => twinMismatch s c sl 0
  | _ => s

/-- A reduction's effect (R302, R305): staged in an ordered launch, but for those in local memory. None: it must wait. -/
def Cx.red (cx : Cx) (s : State) (o : MOp) (m : MemPlan) (lanes : List Nat) (good : List (Acc × List Piece)) : Option State :=
  let done := fun (s : State) => cx.finish s m.d lanes fun _ => {}
  let far := good.filter fun x => x.1.sp != .loc
  if cx.det s == 0 || far.isEmpty then (cx.atomAll s o none good).map done else
  let recs := far.mapIdx fun i (a, qs) =>
    ({ who := a.lane, seq := i, pa := ((qs.head?).map (·.pa)).getD 0, va := ((qs.head?).map (·.va)).getD 0,
       bytes := valBytes (mWid o) (atomArgs o a.data).1, red := some (aAop o, aAny o, o.scope.toNat), hi := (qs[1]?).map (·.pa) } : Staged)
  -- the local ones perform when the others are staged: an instruction that waits for room has no effect yet
  some (cx.staging s m.d lanes recs fun s => done ((cx.atomAll s o none (good.filter fun x => x.1.sp == .loc)).getD s))

/-- An atomic's effect (R302). In an ordered launch it holds the block's ticket: it performs at once (R305), or is shared
with the other copy of a twinned block (R462). None: it must wait. -/
def Cx.atom (cx : Cx) (s : State) (o : MOp) (m : MemPlan) (good : List (Acc × List Piece)) : Option State :=
  let far := good.filter fun x => x.1.sp != .loc
  let det := cx.det s != 0 && !far.isEmpty
  let acq := mAcq o && mWide o
  let f : LoadForm := { cls := m.cls, wid := mWid o, sext := false, nwb := o.p.nwb, dreg := cx.dataNum o.p.dreg.toNat }
  let ops := far.flatMap fun x => x.1.lane :: wrapNat 64 x.1.ea :: x.1.data
  let fire := fun (s : State) =>
    let from_ := s.nextId
    let (s, n) := cx.pendResult s m.d f (good.map fun x => (x.1.lane, none, false)) acq
    let s := if det then cx.twinKeep s ops (some n) none else s
    (cx.atomAll s o (some n) good).bind fun s =>
      -- an ordered one, or one of a promotion (R328), performs within this instruction
      if (det || (acq && o.scope == 5)) && cx.atomUnsent s from_ then none
      else some (if acq then dropClean s cx.id else s)
  match (if det then cx.twinRole s ops else .own) with
  | .own => fire s
  | .wait => none
  | .differ => some (cx.twinDiffers s)
  | .got v =>
    let (s, n) := cx.pendResult (cx.twinTaken s) m.d f (good.map fun x =>
      (x.1.lane, (v.find? (·.1 == x.1.lane)).map (·.2.1), ((v.find? (·.1 == x.1.lane)).map (·.2.2)).getD false))
    cx.atomAll s o (some n) (good.filter fun x => x.1.sp == .loc)

/-- The course of ATOM and RED. -/
def Cx.atomInstr (cx : Cx) (s : State) (o : MOp) (red : Bool) : State :=
  let m := cx.atomPlan s o red
  let acc := fun (r : Nat × List Nat) => cx.aperture s r.1 (cx.globalEa s none 0 r.1 m.base (aOfs o) (aOf r.2)) (r.2.drop 1)
  cx.start s m.d fun s rs =>
    let accs := rs.map acc
    let outer := accs.filter fun a => a.sp != .loc
    let lanes := fun (l : List Nat) => if cx.isT then l else [0]
    -- the local aperture of a slot that holds no block (R493)
    if accs.any (·.sp == .loc) && (cx.localSite s).isNone then cx.raise s m.d.srcs { cause := 2 } [0]
    else if cx.sealed s && !outer.isEmpty then cx.raise s m.d.srcs { cause := 17 } (lanes (outer.map (·.lane)))
    else cx.access s m.d (mWid o) 2 accs fun s good =>
      if good.isEmpty && cx.isT then s else
      let waits := cx.wait s cx.acts 1
      let ask := fun (s : State) => (if mRel o && !mWide o then cx.ownRelease s else some s).bind fun s =>
        if mAcq o && mWide o then cx.acquire (drainPath s cx.id) o.scope.toNat else some s
      if red then ((ask s).bind fun s => cx.red s o m (lanes (good.map (·.1.lane))) good).getD waits
      else if cx.det s != 0 && good.any (·.1.sp != .loc) then
        cx.holdTicket s fun s => (((ask s).bind fun s => cx.atom s o m good).map cx.dropTicket).getD waits
      else ((ask s).bind fun s => cx.atom s o m good).getD waits

def execAtom (o : MOp) (s : State) : Host.Outcome State Fault Refusal := withCx s fun cx => cx.atomInstr s o false
def execRed (o : MOp) (s : State) : Host.Outcome State Fault Refusal := withCx s fun cx => cx.atomInstr s o true

/-! ## FENCE (R307) -/

def fenceOk (o : MOp) : Bool :=
  o.scope.toNat ≤ 4 && o.order != 0 && (!o.ofs.getLsbD 20 || o.order == 3) && bits o.ofs.toNat 19 0 == 0 && o.cpol == 0 &&
    o.wid == 0 && o.p.srcA == 0 && o.p.srcB == 0

/-- Whether a tile fetch of the stream has still to perform (R331). -/
def Cx.fetching (cx : Cx) (s : State) : Bool :=
  match cx.id with
  | .blk c sl => (coreOf s c).tfq.any fun f => f.slot == sl && (!cx.isT || cx.acts.contains f.who)
  | _ => false

/-- FENCE: whatever its order, the place's earlier reads outside return and its atomics and tile fetches perform first
(R331 note c); with a release wider than .blk its stores do too; wider than .blk the CLEAN lines go (R274). -/
def execFence (o : MOp) (s : State) : Host.Outcome State Fault Refusal :=
  withCx s fun cx =>
    let d : Dec := { valid := everywhere, p := o.p, len := 2, ok := fenceOk o }
    cx.start s d fun s rs =>
      let who := if cx.isT then rs.map (·.1) else [0]
      if who.isEmpty then s
      else if cx.sealed s && (mWide o || o.ofs.getLsbD 20) then cx.raise s [] { cause := 17 } who
      else
        let wide := mWide o
        let s := drainPath s cx.id
        let owes := mRel o && wide && !earlierDone s cx.id o.scope.toNat
        if owes || outsideRead s cx.id || cx.atomUnsent s 0 || cx.fetching s then cx.wait s cx.acts 1
        else cx.finish (if wide then dropClean s cx.id else s) d who fun _ => {}

/-! ## WAITA (R308) -/

def waitPd (o : MOp) : Nat := bits o.ofs.toNat 20 18

/-- WAITA completes for one thread or stream: D, the predicate, the latch. -/
def Cx.waitDone (cx : Cx) (s : State) (o : MOp) (d : Dec) (lane v : Nat) (bad full : Bool) : State :=
  let f : LoadForm := { cls := cx.scalarCls, wid := mWid o, sext := false, dreg := cx.dataNum o.p.dreg.toNat, nwb := o.p.nwb }
  let s := cx.put s f [(lane, v)] bad
  let s := if waitPd o == 0 then s else cx.putPred s cx.scalarCls (waitPd o) [(lane, full)]
  cx.finish s d [lane] fun _ => entryOf cx.scalarCls (mWid o == 8) v bad

/-- One thread's or stream's WAITA: changed, full or parked; one woken to promote reads the word again (R328). None: it
must wait. -/
def Cx.waitOne (cx : Cx) (s : State) (o : MOp) (d : Dec) (x : Acc × List Piece) : Option State :=
  let (a, qs) := x
  match qs.head? with
  | none => some s
  | some q =>
    if !isPackage q.pa then
      -- no home slice holds the word: it is read and reported as FULL (DEDUCED, unsafe: notes/assumptions/32.md)
      let f : LoadForm := { cls := cx.scalarCls, wid := mWid o, sext := false, dreg := cx.dataNum o.p.dreg.toNat, nwb := o.p.nwb }
      let s := if waitPd o == 0 then s else cx.putPred s cx.scalarCls (waitPd o) [(a.lane, true)]
      let (s, n) := cx.pendResult s d f [(a.lane, none, false)] (mAcq o && mWide o)
      some (readOutside s cx.id (spaceOf s cx.id).2 q.pa (mWid o) n a.lane)
    else (cx.loadPiece s .glob a.lane q true 1).map fun (s, got, bad) =>
    let v := bytesVal (got.getD [])
    let b := dataVal a.data % 2 ^ (8 * mWid o)
    let mine := fun (m : Monitor) => m.owner == cx.id && m.who == a.lane
    if (coreOf s cx.core).monitors.any fun m => mine m && m.woken then
      let s := modCore s cx.core fun k => { k with monitors := k.monitors.filter fun m => !mine m }
      cx.waitDone s o d a.lane v bad false
    else if v != b || bad then cx.waitDone s o d a.lane v bad false
    else if (coreOf s cx.core).monitors.length ≥ 128 then cx.waitDone s o d a.lane v false true
    else
      let m : Monitor := { line := q.pa / 128, pa := q.pa, wide := mWid o == 8, exp := BitVec.ofNat 64 b, owner := cx.id, who := a.lane,
                           dreg := cx.dataNum o.p.dreg.toNat, nwb := o.p.nwb, pd := waitPd o, scope := o.scope.toNat,
                           order := o.order.toNat, next := cx.next d }
      cx.wait (modCore s cx.core fun k => { k with monitors := k.monitors ++ [m] }) [a.lane] 3

def execWaita (o : MOp) (s : State) : Host.Outcome State Fault Refusal :=
  withCx s fun cx =>
    let a := o.p.srcA.toNat
    let data := cx.dataSrcs s o.p.srcB.toNat (mWid o)
    let sOnly := fun (n : Nat) => cx.kind != .V || n ≥ 32
    let d : Dec :=
      { valid := tvsk, p := o.p, len := 2, dst := .own
        srcs := { n := a, rc := if cx.isT then .g else .s, wide := !cx.isT } :: data.getD []
        ok := mOk o && o.cpol == 0 && (o.wid == 2 || o.wid == 3) && !mRel o && data.isSome && cx.destOk s o.p (mWid o) &&
          sOnly o.p.srcB.toNat && (o.p.nwb || sOnly o.p.dreg.toNat) }
    let base := (d.srcs.head?).getD { n := 0, rc := .s }
    let acc := fun (r : Nat × List Nat) =>
      ({ sp := .glob, lane := r.1, data := r.2.drop 1, ea := cx.globalEa s none 0 r.1 base (signed 18 o.ofs.toNat) (aOf r.2) } : Acc)
    cx.start s d fun s rs =>
      if cx.sealed s then cx.raise s d.srcs { cause := 17 } (if cx.isT then rs.map (·.1) else [0])
      else
        let accs := rs.map acc
        cx.access s d (mWid o) 0 accs fun s good =>
          let waits := cx.wait s cx.acts 1
          ((if mAcq o && mWide o then cx.acquire s o.scope.toNat else some s).bind fun s =>
            good.foldl (fun r x => r.bind fun s => cx.waitOne s o d x) (some s)).getD waits

end Sys2Proof.Machine
end

