-- ==== Sys2Proof/Machine/Commit.lean ====
section
/-! DEFINITION. Staged records perform: the commit of a sealed window and the ticket unit's release (R69, R317, R351). -/

namespace Sys2Proof.Machine

/-- One record joins the path as the block's store or reduction, and performs at its home slice, or is accepted on its way
outside, if nothing before it and no want of room holds it there (R285, R324). -/
def performRec (s : State) (id : CtxId) (part : Nat) (r : Staged) : State :=
  let kind : PathKind := match r.red with
    | none => .store r.bytes r.poison
    | some (aop, any, _) => .atom aop r.bytes.length (bytesVal r.bytes) 0 any none []
  let n := s.nextId
  let s := pushPath s id r.who 0 part r.pa r.bytes.length r.va kind false 0 (hi := r.hi) (page := some r.page)
  match s.path.find? (·.id == n) with
  | some p => if mayPerform s p then performOp s p else s
  | none => s

/-- Records perform in canonical order: ascending thread or element, then program order (R69, R351). -/
def performRecs (s : State) (id : CtxId) (part : Nat) (l : List Staged) : State :=
  (canonical l).foldl (fun s r => performRec s id part r) s

/-- The ticket unit releases a block's staged records (R351). -/
def releaseStaged (s : State) (c sl : Nat) : State :=
  match blockOf s c sl with
  | none => s
  | some b =>
    let s := drainPath s (.blk c sl)
    let s := performRecs s (.blk c sl) b.part b.stage.staged
    modBlock s c sl fun b => b.modStage fun g => { g with staged := [] }

end Sys2Proof.Machine
end

