-- ==== Sys2Proof/Machine/Copy.lean ====
section
/-! DEFINITION. CPKICK, CPWAIT and CPDRAIN (spec 12_isa_memory.md R309, R310, R312). -/

namespace Sys2Proof.Machine

/-- A class-11 operand of a scalar: g in the threaded model, s elsewhere. -/
def Cx.scalarSrc (cx : Cx) (n : BitVec 7) : Src := { n := n.toNat, rc := if cx.isT then .g else .s, wide := !cx.isT }
def Cx.whoOf (cx : Cx) (lanes : List Nat) : List Nat := if cx.isT then lanes else [0]

/-- A copy request record from its 32 bytes (R309), with the site of its CPKICK. -/
def cpRecOf (bs : List Byte) (site : Nat) : CpRec :=
  let a := field bs 0 8
  let d := field bs 8 8
  let w := field bs 0x1C 4
  { sloc := bit a 57, src := bits a 56 0, dloc := bit d 57, dst := bits d 56 0, rowb := bits (field bs 0x10 4) 23 0,
    sstr := signed 32 (field bs 0x14 4), dstr := signed 32 (field bs 0x18 4), nrow := bits w 31 20 + 1, bbar := bits w 19 0, site }

/-- The fields a record keeps zero, and ROWB (R310). -/
def cpZeroOk (bs : List Byte) : Bool :=
  bits (field bs 0 8) 63 58 == 0 && bits (field bs 8 8) 63 58 == 0 && bits (field bs 0x10 4) 31 24 == 0 && bits (field bs 0x10 4) 23 0 != 0

/-- The row addresses of a strided side. -/
def rowStarts (base : Nat) (stride : Int) (nrow : Nat) : List Int := (List.range nrow).map fun i => base + i * stride

/-- Of checks of one kind the failure at the lowest address (R264), as check number `rank` of the instruction. -/
def lowFault (rank : Nat) (l : List (Option AFault)) : Option AFault :=
  match l.filterMap fun x => x with
  | [] => none
  | f :: r => some { r.foldl (fun (m : AFault) f => if f.addr < m.addr then f else m) f with rank }

/-- The checks on the records of a list, in the order of R310. -/
def cpRecFault (locb : Nat) (sealed : Bool) (reg : Region) (recs : List (List Byte × CpRec)) : Option AFault :=
  let rs := recs.map (·.2)
  let srcs := fun (l : Bool) => (rs.filter (·.sloc == l)).flatMap fun r => (rowStarts r.src r.sstr r.nrow).map fun a => (a, r.rowb, 0)
  let dsts := fun (l : Bool) => (rs.filter (·.dloc == l)).flatMap fun r => (rowStarts r.dst r.dstr r.nrow).map fun a => (a, r.rowb, 1)
  firstFault
    [ if recs.all fun r => cpZeroOk r.1 then none else some { rank := 4, cause := 2, addr := 0 },
      lowFault 5 (rs.map fun r => alignFault r.bbar 8 0),
      lowFault 6 (rs.map fun r => localFault locb r.bbar 8),
      lowFault 7 ((srcs true ++ dsts true).map fun x => localFault locb x.1 x.2.1),
      lowFault 8 ((srcs false ++ dsts false).map fun x => globalFault x.1 x.2.1 x.2.2),
      if sealed then lowFault 9 ((dsts false).map (fun x => some { rank := 9, cause := 17, addr := x.1 }) ++
        (dsts true).map fun x => lwsetFault true reg x.1 x.2.1) else none ]

/-- The checks of one list (R310). -/
def Cx.cpFault (cx : Cx) (s : State) (b : Block) (a n : Nat) : Option AFault :=
  let locb := b.mem.locb
  if n = 0 || n > 256 then some { rank := 0, cause := 2, addr := 0 }
  else match firstFault [lowFault 1 [alignFault a 32 0], lowFault 2 [localFault locb a (32 * n)]] with
    | some f => some f
    | none =>
      let (bs, bad) := b.mem.loadLoc a (32 * n)
      if bad then some { rank := 3, cause := 24, addr := a } else
      cpRecFault locb (cx.sealed s) (cx.region s) ((List.range n).map fun i =>
        let r := (bs.drop (32 * i)).take 32
        (r, cpRecOf r 0))

/-- A list joins its engine's queue (R347). -/
def Cx.cpQueue (cx : Cx) (s : State) (eng who a n : Nat) : State :=
  match cx.localSite s with
  | none => s
  | some (c, sl) => match blockOf s c sl with
    | none => s
    | some b =>
      let site := siteOf s b cx.pc.toNat
      let recs := (List.range n).map fun i => { cpRecOf (b.mem.loadLoc (a + 32 * i) 32).1 site with who, sup := cx.kind == .K }
      setCulvert s c eng (culvertLists s c eng ++ [{ slot := sl, who, sup := cx.kind == .K, recs, after := s.nextId }])

def execCpkick (o : KOp) (s : State) : Host.Outcome State Fault Refusal :=
  withCx s fun cx =>
    let d : Dec := { valid := tvsk, p := o.p, len := 2, srcs := [cx.scalarSrc o.p.srcA, cx.scalarSrc o.p.srcB],
                     ok := bits o.param.toNat 23 1 == 0 && o.p.srcA.toNat != 127 && o.p.srcB.toNat != 127 && (cx.localSite s).isSome }
    let eng := if o.param.getLsbD 0 then 1 else 0
    cx.start s d fun s rs =>
      match cx.localBlk s with
      | none => s
      | some b =>
        -- rows that earlier matrix instructions owe come first (R226, R231)
        let owed := rs.any fun r => cx.rowOwed s (32 * bOf r.2) 0 { sp := .loc, lane := r.1, ea := (aOf r.2 : Nat) }
        if owed then cx.wait s cx.acts 1 else
        let faults := rs.filterMap fun r => (cx.cpFault s b (aOf r.2) (bOf r.2)).map fun f => (r.1, f)
        if !faults.isEmpty && !cx.isT then cx.raiseFaults s d faults else
        let good := rs.filter fun r => !faults.any fun f => f.1 == r.1
        let s := good.foldl (fun s r =>
          if (culvertLists s cx.core eng).length ≥ 8 then cx.wait s (cx.whoOf [r.1]) 10
          else cx.finish (cx.cpQueue s eng r.1 (aOf r.2) (bOf r.2)) d (cx.whoOf [r.1]) fun _ => {}) s
        if faults.isEmpty then s else cx.raiseFaults s d faults

def execCpwait (o : KOp) (s : State) : Host.Outcome State Fault Refusal :=
  withCx s fun cx =>
    let d : Dec := { valid := tvsk, p := o.p, len := 2, srcs := [cx.scalarSrc o.p.srcA],
                     ok := o.param == 0 && o.p.srcA.toNat != 127 && o.p.srcB == 0 && (cx.localSite s).isSome }
    cx.start s d fun s rs =>
      cx.access s d 8 0 (rs.map fun r => { sp := .loc, lane := r.1, ea := (aOf r.2 : Nat) }) fun s good =>
        good.foldl (fun s (a, _) =>
          let (bs, bad) := ((cx.localBlk s).map fun b => b.mem.loadLoc a.ea.toNat 8).getD ([], false)
          if bad then cx.raise s d.srcs { cause := 24, addr := wrapNat 64 a.ea, lanes := if cx.isT then [a.lane] else [] } (cx.whoOf [a.lane])
          else if bytesVal bs == 0 then cx.finish s d (cx.whoOf [a.lane]) fun _ => {}
          else cx.wait s (cx.whoOf [a.lane]) 8) s

def execCpdrain (o : KOp) (s : State) : Host.Outcome State Fault Refusal :=
  withCx s fun cx =>
    let d : Dec := { valid := tvsk, p := o.p, len := 2,
                     ok := o.param == 0 && o.p.srcA == 0 && o.p.srcB == 0 && (cx.localSite s).isSome }
    cx.start s d fun s rs =>
      match cx.localSite s with
      | none => s
      | some (c, sl) =>
        let busy := [0, 1].any fun e => (culvertLists s c e).any fun l => l.slot == sl
        if busy then cx.wait s (cx.whoOf (rs.map (·.1))) 8 else cx.finish s d (cx.whoOf (rs.map (·.1))) fun _ => {}

end Sys2Proof.Machine
end

