-- ==== Sys2Proof/Machine/Barrier.lean ====
section
/-! DEFINITION. Barrier objects and tickets (spec 12_isa_memory.md R313 to R317, R492).
Where the spec leaves a point open: notes/assumptions, entries 33, 48, 53. -/

namespace Sys2Proof.Machine

/-! ## Objects (R313) -/

structure BarObj where
  exp : Nat
  arr : Nat
  ph : Nat
  low : Nat
  last : Nat
  deriving DecidableEq, Repr

def barOf (bs : List Byte) : BarObj :=
  { exp := field bs 0 4, arr := field bs 4 4, ph := field bs 8 2, low := field bs 10 3, last := field bs 13 3 }
def BarObj.bytes (b : BarObj) : List Byte := valBytes 4 b.exp ++ valBytes 4 b.arr ++ valBytes 2 b.ph ++ valBytes 3 b.low ++ valBytes 3 b.last
def noRole : Nat := 0xFFFFFF

/-- Arrive (R315): the object after it, none for BARRIER_MISUSE. -/
def BarObj.arrive (o : BarObj) (w idx : Nat) (role : Bool) : Option BarObj :=
  if o.exp = 0 || o.arr + w > o.exp then none else
  let o := if role then { o with low := min o.low idx } else o
  let o := { o with arr := o.arr + w }
  some (if o.arr = o.exp then { o with last := o.low, low := noRole, arr := 0, ph := (o.ph + 1) % 65536 } else o)

/-! ## The forms (R291, R292, R314) -/

def barGlb (o : KOp) : Bool := o.param.getLsbD 23
def barScope (o : KOp) : Nat := bits o.param.toNat 22 20
def barStrip (o : KOp) : Nat := bits o.param.toNat 19 17
def barOk (o : KOp) (v : Bool) : Bool :=
  bits o.param.toNat 16 0 == 0 && (v || barStrip o == 0) && (if barGlb o then 1 ≤ barScope o && barScope o ≤ 4 else barScope o == 0) &&
    o.p.srcA.toNat != 127 && o.p.srcB.toNat != 127

/-- The object address operand, and whether it is of class v. -/
def Cx.barBase (cx : Cx) (s : State) (n : BitVec 7) : Src × Bool :=
  if cx.kind == .V then
    if cx.dataCls s n.toNat == .v then ({ n := n.toNat, rc := .v }, true) else ({ n := cx.dataNum n.toNat, rc := .s, wide := true }, false)
  else (cx.scalarSrc n, false)

def Cx.barDec (cx : Cx) (s : State) (o : KOp) (more : List Src) (ok : Bool) (dst : Dst) : Dec :=
  { valid := tvs, p := o.p, len := 2, ok := ok && barOk o (cx.kind == .V), srcs := (cx.barBase s o.p.srcA).1 :: more, dst,
    perElem := cx.kind == .V }

/-- The objects that the acting lanes name: one access each lane, at one address for an s operand of the vector model. -/
def Cx.barAccs (cx : Cx) (s : State) (o : KOp) (rs : List (Nat × List Nat)) : List Acc :=
  let base := (cx.barBase s o.p.srcA).1
  rs.map fun r =>
    { sp := if barGlb o then .glob else .loc, lane := r.1, data := r.2.drop 1
      ea := if barGlb o then cx.globalEa s none 0 r.1 base 0 (aOf r.2) else (aOf r.2 : Nat) }

/-- One arrival or test: the object's place, the lanes it stands for, its weight and participant index (R315, R492). -/
structure BarUse where
  acc : Acc
  qs : List Piece
  lanes : List Nat
  w : Nat
  idx : Nat
  deriving DecidableEq, Repr

def Cx.barUses (cx : Cx) (s : State) (o : KOp) (good : List (Acc × List Piece)) : List BarUse :=
  let bidx := (cx.regs s).bidx.toNat
  match cx.kind with
  | .T => good.map fun x => { acc := x.1, qs := x.2, lanes := [x.1.lane], w := 1, idx := if barGlb o then bidx else x.1.lane }
  | .V =>
    let heads := good.foldl (fun (l : List (Acc × List Piece)) x => if l.any fun y => y.1.ea == x.1.ea then l else l ++ [x]) []
    heads.map fun x =>
      let lanes := (good.filter fun y => y.1.ea == x.1.ea).map (·.1.lane)
      { acc := x.1, qs := x.2, lanes, w := lanes.length,
        idx := if barGlb o then bidx else ((leastOf lanes).getD 0) + 256 * barStrip o }
  | _ => good.map fun x => { acc := x.1, qs := x.2, lanes := [x.1.lane], w := (cx.regs s).nthr.toNat, idx := if barGlb o then bidx else 0 }

/-- The object read where it lives: its bank, or the SUU (R314). -/
def Cx.barRead (cx : Cx) (s : State) (u : BarUse) : State × List Byte × Bool :=
  if u.acc.sp == .loc then
    let (bs, bad) := ((cx.blk s).map fun b => b.mem.loadLoc u.acc.ea.toNat 16).getD ([], false)
    (s, bs, bad)
  else readHome s (((u.qs.head?).map (·.pa)).getD 0) 16 none
/-- The object written where it lives. None: it must wait. -/
def Cx.barWrite (cx : Cx) (s : State) (u : BarUse) (b : BarObj) : Option State :=
  if u.acc.sp == .loc then some (cx.modLocal s fun k => k.modMem fun m => m.storeLoc u.acc.ea.toNat b.bytes false)
  else
    let pa := ((u.qs.head?).map (·.pa)).getD 0
    (performWrite s pa b.bytes false none).map fun s => chargeWritten (freshen s cx.id pa b.bytes false) cx.id 16

/-- The common course: sealed and address checks, then `k` on the uses. A global object outside package memory has no
SUU and raises ADDRESS (DEDUCED, unsafe: notes/assumptions/33.md). -/
def Cx.barAccess (cx : Cx) (s : State) (o : KOp) (d : Dec) (kind : Nat) (accs : List Acc) (k : State → List BarUse → State) : State :=
  let lanes := cx.whoOf (accs.map (·.lane))
  if barGlb o && cx.sealed s && !accs.isEmpty then cx.raise s d.srcs { cause := 17 } lanes
  else cx.access s d 16 (if barGlb o then kind else 2) accs fun s good =>
    let far := good.filter fun x => x.1.sp != .loc && x.2.any fun q => !isPackage q.pa
    if !far.isEmpty then
      cx.raiseFaults s d (far.map fun x => (x.1.lane, { rank := 3, cause := 8, addr := x.1.ea, detail := kind, wst := 3 }))
    else k s (cx.barUses s o good)

/-- Raises BARRIER_MISUSE or MEMORY_ERROR for the lanes of uses; a MEMORY_ERROR reports the lowest address of an object
read (R419). -/
def Cx.barRaise (cx : Cx) (s : State) (d : Dec) (cause : Nat) (us : List BarUse) : State :=
  if us.isEmpty then s else
  let lanes := us.flatMap (·.lanes)
  let addr := if cause != 24 then 0 else (us.map fun u => wrapNat 64 u.acc.ea).foldl min (((us.head?).map fun u => wrapNat 64 u.acc.ea).getD 0)
  cx.raise s d.srcs { cause, addr, lanes := if cx.isT then lanes else [] } (cx.whoOf lanes)

/-! ## The instructions (R316) -/

def execBari (o : KOp) (s : State) : Host.Outcome State Fault Refusal :=
  withCx s fun cx =>
    let d := cx.barDec s o [cx.scalarSrc o.p.srcB] true .none
    let accs := cx.barAccs s o
    cx.start s d fun s rs =>
      cx.barAccess s o d 1 (accs rs) fun s us =>
        let n := fun (u : BarUse) => aOf u.acc.data
        let bad := us.filter fun u => n u = 0 || n u ≥ 2 ^ 32
        if !bad.isEmpty && !cx.isT then cx.barRaise s d 21 bad else
        let (asid, part) := spaceOf s cx.id
        let ok := us.filter fun u => !(n u = 0 || n u ≥ 2 ^ 32)
        let s := ok.foldl (fun s u =>
          let b : BarObj := { exp := n u, arr := 0, ph := 0, low := noRole, last := noRole }
          if u.acc.sp == .loc then (cx.barWrite s u b).getD s
          else match u.qs.head? with
            | some q => storeBytes s cx.id u.acc.lane asid part q.pa q.va b.bytes false false (barScope o)
            | none => s) s
        let s := cx.finish s d (if cx.isT then ok.flatMap (·.lanes) else [0]) fun _ => {}
        if cx.isT then cx.barRaise s d 21 bad else s

/-- What arrivals come to: tokens of the uses that arrived, uses that misuse, poisoned uses. -/
structure Arrivals where
  done : List (BarUse × Nat) := []
  bad : List BarUse := []
  poisoned : List BarUse := []
  deriving DecidableEq, Repr

/-- Arrivals of BARA and BARL in ascending order. None: one must wait. -/
def Cx.arrivals (cx : Cx) (s : State) (role : Bool) (us : List BarUse) : Option (State × Arrivals) :=
  us.foldl (fun r u => r.bind fun (s, x) =>
    let (s, bs, psn) := cx.barRead s u
    if psn then some (s, { x with poisoned := x.poisoned ++ [u] }) else
    match (barOf bs).arrive u.w u.idx role with
    | none => some (s, { x with bad := x.bad ++ [u] })
    | some o => (cx.barWrite s u o).map fun s => (s, { x with done := x.done ++ [(u, (barOf bs).ph)] })) (some (s, {}))

/-- What the release of an arrival waits for (R314, R320, R331): at .blk the place's atomics, wider every earlier access
at the object's scope and every earlier tile fetch. None: it must wait. -/
def Cx.barRelease (cx : Cx) (s : State) (o : KOp) : Option State :=
  if !barGlb o then cx.ownRelease s else
  let s := drainPath s cx.id
  if earlierDone s cx.id (barScope o) && !cx.fetching s then some s else none

/-- The course of BARA and BARL. In a control context a use that fails stops the instruction before any arrival. -/
def Cx.barArrive (cx : Cx) (s : State) (o : KOp) (d : Dec) (role : Bool) (accs : List Acc)
    (k : State → List (BarUse × Nat) → State) : State :=
  cx.barAccess s o d 2 accs fun s us =>
    if us.isEmpty then k s [] else
    match (cx.barRelease s o).bind fun s => (cx.arrivals s role us).map fun r => (s, r) with
    | none => cx.wait s cx.acts 1
    | some (s, t, x) =>
      if !cx.isT && !(x.bad.isEmpty && x.poisoned.isEmpty) then
        if x.poisoned.isEmpty then cx.barRaise s d 21 x.bad else cx.barRaise s d 24 x.poisoned
      else cx.barRaise (cx.barRaise (k t x.done) d 21 x.bad) d 24 x.poisoned

def execBara (o : KOp) (s : State) : Host.Outcome State Fault Refusal :=
  withCx s fun cx =>
    let cls := cx.dataCls s o.p.dreg.toNat
    let (_, vAddr) := cx.barBase s o.p.srcA
    let d := cx.barDec s o [] (o.p.srcB == 0 && cx.destOk s o.p 4 && (o.p.nwb || !(vAddr && cls == .s))) .own
    let accs := cx.barAccs s o
    cx.start s d fun s rs =>
      cx.barArrive s o d false (accs rs) fun s done =>
        if cx.kind == .V && cls == .s then
          match done with
          | x :: _ => cx.result s d .s true [(0, x.2)]
          | [] => cx.finish s d [0] fun _ => {}
        else if cx.kind == .V then cx.result s d .v false (done.flatMap fun x => x.1.lanes.map fun e => (e, x.2))
        else cx.result s d cls (cls == .s) (done.map fun x => (x.1.acc.lane, x.2))

def execBarl (o : KOp) (s : State) : Host.Outcome State Fault Refusal :=
  withCx s fun cx =>
    let d := cx.barDec s o [] (o.p.srcB == 0) .none
    let accs := cx.barAccs s o
    cx.start s d fun s rs =>
      cx.barArrive s o d true (accs rs) fun s done =>
        cx.finish s d (if cx.isT then done.map (·.1.acc.lane) else [0]) fun _ => {}

/-- The participant index an acting lane tests with at BARW: in the vector model bit e of the predicate is tested with
element e's own index, e + 256 × STRIP at a local object (R315, R316; DEDUCED, unsafe: notes/assumptions/48.md). -/
def Cx.barwIdx (cx : Cx) (o : KOp) (u : BarUse) (lane : Nat) : Nat :=
  if cx.kind == .V && !barGlb o then lane + 256 * barStrip o else u.idx

/-- BARW's predicate for a use (R316). -/
def barRole (b : BarObj) (token idx : Nat) : Bool := b.ph == (token + 1) % 65536 && b.last == idx

def execBarw (o : KOp) (s : State) : Host.Outcome State Fault Refusal :=
  withCx s fun cx =>
    let d := cx.barDec s o [cx.scalarSrc o.p.srcB] (o.p.dreg.toNat < 8 && !o.p.nwb) .own
    let accs := cx.barAccs s o
    cx.start s d fun s rs =>
      cx.barAccess s o d 0 (accs rs) fun s us =>
        let tok := fun (u : BarUse) => aOf u.acc.data
        let (misuse, us) := us.partition fun u => bits (tok u) 31 16 != 0
        if !misuse.isEmpty && !cx.isT then cx.barRaise s d 21 misuse else
        -- the place's own accesses to the objects come first (R323)
        let lines := us.flatMap fun u => if u.acc.sp == .loc then [] else u.qs.map (·.pa / 128)
        let s := drainLines s cx.id lines s.nextId
        if s.path.any fun p => p.ctx == cx.id && !p.sent && lines.contains (p.pa / 128) then cx.wait s cx.acts 1 else
        let (s, rds) := us.foldl (fun (x : State × List (BarUse × BarObj × Bool)) u =>
          let (s, bs, bad) := cx.barRead x.1 u
          (s, x.2 ++ [(u, barOf bs, bad)])) (s, [])
        let poisoned := (rds.filter fun x => x.2.2).map (·.1)
        if !poisoned.isEmpty && !cx.isT then cx.barRaise s d 24 poisoned else
        let rds := rds.filter fun x => !x.2.2
        let met := rds.filter fun x => x.2.1.ph != tok x.1 % 65536
        let unmet := rds.filter fun x => x.2.1.ph == tok x.1 % 65536
        let s := if !unmet.isEmpty && (!cx.isT || met.isEmpty) then cx.wait s (cx.whoOf (unmet.flatMap (·.1.lanes))) 2
          else
            let s := if barGlb o && !met.isEmpty then dropClean s cx.id else s
            let n := o.p.dreg.toNat
            let vals := met.flatMap fun x => x.1.lanes.map fun l => (l, barRole x.2.1 (tok x.1 % 65536) (cx.barwIdx o x.1 l))
            let s := if n == 0 then s else cx.putPred s cx.cls n vals
            let s := cx.finish s d (if cx.isT then met.flatMap (·.1.lanes) else [0]) fun _ => {}
            if unmet.isEmpty then s else cx.wait s (unmet.flatMap (·.1.lanes)) 2
        if cx.isT then cx.barRaise (cx.barRaise s d 21 misuse) d 24 poisoned else s

/-! ## Tickets (R317, R351) -/

/-- TICKET: the streams wait for the block's next ticket, whatever the guard. -/
def execTicket (o : ROp) (s : State) : Host.Outcome State Fault Refusal :=
  withCx s fun cx =>
    let d : Dec := { valid := tvs, p := o.p, len := 1, ok := o.p.srcA == 0 && o.p.srcB == 0,
                     dst := .reg (cx.rcScalar false) }
    match cx.decodeTrap s d with
    | some c => cx.raise s [] { cause := c } cx.acts
    | none =>
      if cx.sealed s then cx.raise s [] { cause := 17 } cx.acts
      else cx.wait (cx.count s false 1 cx.acts.length) cx.acts 9

/-- Tickets taken by a block of a launch, none when it has retired; a block not placed has taken none. -/
def ticketsOf (s : State) (l : Nat) (la : Launch) (bidx : Nat) : Option Nat :=
  if bidx < la.low || la.retiredAbove.contains bidx then none else
  let res := s.cores.findSome? fun e => (e.2.slots.find? fun x => x.2.launch == l && x.2.regs.bidx.toNat == bidx).map fun x => x.2.stage.tk
  match res with
  | some n => some n
  | none => match (partOf s la.part).bind fun p => p.resume.find? fun r => r.launch == l && r.bidx == bidx with
    | some r => some r.blk.stage.tk
    | none => some 0

/-- Whether a block's next ticket can be granted: every lower block of the launch has taken its own. -/
def ticketFree (s : State) (b : Block) : Bool :=
  match launchOf s b.launch with
  | none => false
  | some la => (List.range b.regs.bidx.toNat).all fun i =>
    match ticketsOf s b.launch la i with
    | none => true
    | some n => n ≥ b.stage.tk + 1

/-- TICKET completes for its streams with round `k`. -/
def ticketDone (s : State) (c sl : Nat) (b : Block) (k : Nat) : State :=
  let who := if b.exec.model == .threaded then b.liveThreads.filter fun t => b.waitOf t == 9 else [0]
  who.foldl (fun s t =>
    match blockOf s c sl with
    | none => s
    | some b =>
      let ln := if b.exec.model == .threaded then ((b.exec.bundles.find? fun u => u.members.contains t).bind (·.line)) else b.exec.ctl.line
      let pc := b.pcOf t
      let p0 := match ln with
        | some l => ((l[pc.toNat / 4 % 32]?).getD 0).toNat
        | none => 0
      let grd := bits p0 2 0
      let dreg := bits p0 23 18
      let nwb := bit p0 17
      let on := b.mem.p grd (if b.exec.model == .threaded then t else 0)
      let cls : Cls := if b.exec.model == .threaded then .g else .s
      let cx : Cx := { id := .blk c sl, kind := b.exec.model.kind, acts := [t], pc, line := ln }
      let d : Dec := { valid := tvs, ok := true, p := { dreg := BitVec.ofNat 6 dreg, nwb, srcA := 0, srcB := 0, grd := 0 }, len := 1 }
      if on then cx.result s d cls false [(t, k)] else cx.finish s d [t] fun _ => {}) s

/-- Whether a block has asked for its next ticket: every stream waits at TICKET, or an instruction asks for itself. -/
def asksTicket (b : Block) : Bool :=
  let waits := b.streams.filter fun t => b.waitOf t == 9
  (match b.exec.ticketAsk with
    | some (_, on) => !on
    | none => false) || (!waits.isEmpty && waits.length == b.streams.length)

/-- The first difference between the staged records of two copies: address, 0 when the counts differ (R462). -/
def stagedDiffer (a b : List Staged) : Option Nat :=
  if a.length != b.length then some 0
  else (((canonical a).zip (canonical b)).find? fun (x, y) => x.pa != y.pa || x.bytes != y.bytes || x.red != y.red).map (·.1.pa)

/-- The grant of ticket `k` to one copy: what it staged is released or, in the second copy, dropped; it is a release and an
acquire at .dev (R320). None: a record must wait. -/
def grantOne (s : State) (core slot k : Nat) (perform : Bool) : Option State :=
  let id := CtxId.blk core slot
  let s := if perform then releaseStaged s core slot else drainPath (modBlock s core slot fun b => b.modStage fun g => { g with staged := [] }) id
  if !earlierDone s id 3 then none else
  let s := dropClean s id
  match blockOf s core slot with
  | none => some s
  | some b =>
    let s := modBlock s core slot fun b => (b.modStage fun g => { g with tk := k }).modExec fun e =>
      { e with ticketAsk := e.ticketAsk.map fun x => (x.1, true) }
    some (if b.exec.ticketAsk.isSome then s else ticketDone s core slot b k)

/-- TICKET_GRANT: the block's ticket request is granted if it may be: its staged records perform, TICKET completes. Of a
twinned block both copies must have asked, and their records are compared first (R462). -/
def execTicketGrant (core slot : Nat) (s : State) : Host.Outcome State Fault Refusal :=
  .next (match blockOf s core slot with
    | none => s
    | some b =>
      if !asksTicket b || !ticketFree s b then s else
      let k := b.stage.tk + 1
      match b.twin.bind fun t => (blockOf s t.1 t.2).map fun x => (t, x) with
      | none => if b.twin.isSome then s else (grantOne s core slot k true).getD s
      | some (t, x) =>
        if !asksTicket x || x.stage.tk != b.stage.tk then s else
        match stagedDiffer b.stage.staged x.stage.staged with
        | some a => twinMismatch s core slot a
        | none => ((grantOne s core slot k true).bind fun s => grantOne s t.1 t.2 k false).getD s)

end Sys2Proof.Machine
end

