-- ==== Sys2Proof/Machine/Rsa.lean ====
section
/-! DEFINITION. SHA-512 and RSASSA-PSS verification (spec 01_device.md R27: RFC 8017 with MGF1 and SHA-512, a salt of 64
bytes, trailer 0xBC, exponent 65,537, RSA-4096). Byte strings of both are big-endian. -/

namespace Sys2Proof.Machine

/-- A byte string as a number, its first byte the most significant. -/
def beVal (bs : List Byte) : Nat := bs.foldl (fun n b => n * 256 + b.toNat) 0
/-- A number as `n` bytes, the most significant first. -/
def beBytes (n v : Nat) : List Byte := (valBytes n v).reverse

/-! ## SHA-512 -/

/-- Round constants. -/
def shaK0 : List W64 := [
  0x428a2f98d728ae22#64, 0x7137449123ef65cd#64, 0xb5c0fbcfec4d3b2f#64, 0xe9b5dba58189dbbc#64,
  0x3956c25bf348b538#64, 0x59f111f1b605d019#64, 0x923f82a4af194f9b#64, 0xab1c5ed5da6d8118#64,
  0xd807aa98a3030242#64, 0x12835b0145706fbe#64, 0x243185be4ee4b28c#64, 0x550c7dc3d5ffb4e2#64,
  0x72be5d74f27b896f#64, 0x80deb1fe3b1696b1#64, 0x9bdc06a725c71235#64, 0xc19bf174cf692694#64,
  0xe49b69c19ef14ad2#64, 0xefbe4786384f25e3#64, 0x0fc19dc68b8cd5b5#64, 0x240ca1cc77ac9c65#64]
/-- Round constants. -/
def shaK1 : List W64 := [
  0x2de92c6f592b0275#64, 0x4a7484aa6ea6e483#64, 0x5cb0a9dcbd41fbd4#64, 0x76f988da831153b5#64,
  0x983e5152ee66dfab#64, 0xa831c66d2db43210#64, 0xb00327c898fb213f#64, 0xbf597fc7beef0ee4#64,
  0xc6e00bf33da88fc2#64, 0xd5a79147930aa725#64, 0x06ca6351e003826f#64, 0x142929670a0e6e70#64,
  0x27b70a8546d22ffc#64, 0x2e1b21385c26c926#64, 0x4d2c6dfc5ac42aed#64, 0x53380d139d95b3df#64,
  0x650a73548baf63de#64, 0x766a0abb3c77b2a8#64, 0x81c2c92e47edaee6#64, 0x92722c851482353b#64]
/-- Round constants. -/
def shaK2 : List W64 := [
  0xa2bfe8a14cf10364#64, 0xa81a664bbc423001#64, 0xc24b8b70d0f89791#64, 0xc76c51a30654be30#64,
  0xd192e819d6ef5218#64, 0xd69906245565a910#64, 0xf40e35855771202a#64, 0x106aa07032bbd1b8#64,
  0x19a4c116b8d2d0c8#64, 0x1e376c085141ab53#64, 0x2748774cdf8eeb99#64, 0x34b0bcb5e19b48a8#64,
  0x391c0cb3c5c95a63#64, 0x4ed8aa4ae3418acb#64, 0x5b9cca4f7763e373#64, 0x682e6ff3d6b2b8a3#64,
  0x748f82ee5defb2fc#64, 0x78a5636f43172f60#64, 0x84c87814a1f0ab72#64, 0x8cc702081a6439ec#64]
/-- Round constants. -/
def shaK3 : List W64 := [
  0x90befffa23631e28#64, 0xa4506cebde82bde9#64, 0xbef9a3f7b2c67915#64, 0xc67178f2e372532b#64,
  0xca273eceea26619c#64, 0xd186b8c721c0c207#64, 0xeada7dd6cde0eb1e#64, 0xf57d4f7fee6ed178#64,
  0x06f067aa72176fba#64, 0x0a637dc5a2c898a6#64, 0x113f9804bef90dae#64, 0x1b710b35131c471b#64,
  0x28db77f523047d84#64, 0x32caab7b40c72493#64, 0x3c9ebe0a15c9bebc#64, 0x431d67c49c100d4c#64,
  0x4cc5d4becb3e42b6#64, 0x597f299cfc657e2a#64, 0x5fcb6fab3ad6faec#64, 0x6c44198c4a475817#64]
/-- The initial hash value. -/
def shaH : List W64 := [
  0x6a09e667f3bcc908#64, 0xbb67ae8584caa73b#64, 0x3c6ef372fe94f82b#64, 0xa54ff53a5f1d36f1#64,
  0x510e527fade682d1#64, 0x9b05688c2b3e6c1f#64, 0x1f83d9abfb41bd6b#64, 0x5be0cd19137e2179#64]

/-- The words of a message after padding, 16 a block. -/
def shaWords (m : List Byte) : List W64 :=
  let pad := (111 - m.length % 128 + 128) % 128
  let bs := m ++ [0x80#8] ++ List.replicate pad 0#8 ++ beBytes 16 (8 * m.length)
  (List.range (bs.length / 8)).map fun i => BitVec.ofNat 64 (beVal ((bs.drop (8 * i)).take 8))

def shaAt (l : List W64) (i : Nat) : W64 := (l[i]?).getD 0

/-- One round: working variables a to h, and the 16 words of the schedule from this round on. -/
def shaRound (x : List W64 × List W64) (k : W64) : List W64 × List W64 :=
  match x with
  | ([a, b, c, d, e, f, g, h], w) =>
    let s1 := e.rotateRight 14 ^^^ e.rotateRight 18 ^^^ e.rotateRight 41
    let t1 := h + s1 + ((e &&& f) ^^^ (~~~e &&& g)) + k + shaAt w 0
    let s0 := a.rotateRight 28 ^^^ a.rotateRight 34 ^^^ a.rotateRight 39
    let t2 := s0 + ((a &&& b) ^^^ (a &&& c) ^^^ (b &&& c))
    let o0 := (shaAt w 1).rotateRight 1 ^^^ (shaAt w 1).rotateRight 8 ^^^ (shaAt w 1 >>> 7)
    let o1 := (shaAt w 14).rotateRight 19 ^^^ (shaAt w 14).rotateRight 61 ^^^ (shaAt w 14 >>> 6)
    ([t1 + t2, a, b, c, d + t1, e, f, g], w.drop 1 ++ [o1 + shaAt w 9 + o0 + shaAt w 0])
  | x => x

/-- One block joins the hash. -/
def shaBlock (h w : List W64) : List W64 :=
  let r := (shaK0 ++ shaK1 ++ shaK2 ++ shaK3).foldl shaRound (h, w)
  (h.zip r.1).map fun (x, y) => x + y

/-- The blocks of a message, `n` of them. -/
def shaBlocks : Nat → List W64 → List W64 → List W64
  | 0, h, _ => h
  | n + 1, h, w => shaBlocks n (shaBlock h (w.take 16)) (w.drop 16)

/-- SHA-512: 64 bytes. -/
def sha512 (m : List Byte) : List Byte :=
  let w := shaWords m
  (shaBlocks (w.length / 16) shaH w).flatMap fun x => beBytes 8 x.toNat

/-! ## RSASSA-PSS -/

/-- MGF1 with SHA-512. -/
def mgf1 (seed : List Byte) (n : Nat) : List Byte :=
  ((List.range (ceilDiv n 64)).flatMap fun i => sha512 (seed ++ beBytes 4 i)).take n

/-- x^65537 mod n. -/
def rsaPower (x n : Nat) : Nat := ((List.range 16).foldl (fun y _ => y * y % n) x) * x % n

/-- Verifies a 512-byte signature of a message under a 4096-bit modulus (RFC 8017, 8.1.2 and 9.1.2). -/
def pssVerify (n : Nat) (msg sig : List Byte) : Bool :=
  let s := beVal sig
  if sig.length != 512 || n < 2 ^ 4095 || s ≥ n then false else
  let em := beBytes 512 (rsaPower s n)
  let masked := em.take 447
  let h := (em.drop 447).take 64
  let db := (masked.zip (mgf1 h 447)).map fun (x, y) => x ^^^ y
  let db := match db with
    | b :: r => (b &&& 0x7F#8) :: r
    | [] => []
  let salt := db.drop 383
  (em[511]?).getD 0 == 0xBC#8 && beVal masked < 2 ^ (8 * 447 - 1) && (db.take 382).all (· == 0) && (db[382]?).getD 0 == 1 &&
    sha512 (List.replicate 8 0#8 ++ sha512 msg ++ salt) == h

end Sys2Proof.Machine
end

