-- ==== Sys2Proof/Machine/Trace.lean ====
section
/-! DEFINITION. Trace records (R412, R413). -/

namespace Sys2Proof.Machine

def countDrop (r : BlkRegs) : BlkRegs :=
  let n := r.trcctl.toNat % 2 ^ 20
  { r with trcctl := BitVec.ofNat 32 (r.trcctl.toNat - n + min (n + 1) (2 ^ 20 - 1)) }

/-- A trace record of a block is written at TRCPTR, which advances; a write that would fault, or a stopped buffer, counts
a drop (R413). `hops` fills the 48 bytes from 0x10. -/
def writeTrace (s : State) (c sl kind nhop cver rnd birth : Nat) (hops : List Byte) : State :=
  match blockOf s c sl with
  | none => s
  | some b =>
    if !b.regs.trcctl.getLsbD 31 then s else
    let drop := fun (s : State) => modBlock s c sl fun b => b.modRegs countDrop
    let p := b.regs.trcptr.toNat
    if p ≥ b.regs.trcsize.toNat then drop s else
    match engineTranslate s (.blk c sl) b.asid b.part (b.regs.trcbase.toNat + 64 * p) 1 with
    | (s, .error _) => drop s
    | (s, .ok pa) =>
      let bs := [BitVec.ofNat 8 kind, BitVec.ofNat 8 (min nhop 255), BitVec.ofNat 8 cver, BitVec.ofNat 8 rnd] ++
        valBytes 4 b.region ++ valBytes 8 birth ++ (hops ++ List.replicate 48 0#8).take 48
      let nx := if p + 1 ≥ b.regs.trcsize.toNat && b.regs.trcctl.getLsbD 30 then 0 else p + 1
      modBlock (deviceWrite s b.part pa bs) c sl fun b => b.modRegs fun r => { r with trcptr := BitVec.ofNat 20 nx }

end Sys2Proof.Machine
end

