-- ==== Sys2Proof/Machine/Ep.lean ====
section
/-! DEFINITION. Equivalence points (R60, R61, R68, R69, R77, R83, R251), the Sluice (R79 to R82), hops (R75, R76), the
g budget (R256, R257), the end of a block (R249).
Where the spec leaves a point open: notes/assumptions, entries 21, 28, 57. -/

namespace Sys2Proof.Machine

/-! ## Quiescing and committing -/

/-- Everything of the block that is in flight comes to its end, as far as it can (R68, R234). -/
def quiesce (s : State) (c sl : Nat) : State :=
  let id := CtxId.blk c sl
  let s := drainPath (drainSfu (settleEngines s c sl) id) id
  (s.pending.filter fun p => p.ctx == id && p.arrived).foldl returnResult s

/-- Nothing of the block is in flight and no fault of an engine waits to be told. -/
def quiet (s : State) (c sl : Nat) (b : Block) : Bool :=
  (settleEngines.spanOf s c sl).all (fun x => (mqOf s x sl).isEmpty) && !(coreOf s c).tfq.any (fun f => f.slot == sl) && !s.pending.any (fun p => p.ctx == .blk c sl) &&
    b.traps.isEmpty

/-- Whether the window's records find room in the allotment of an ordered launch (R350). -/
def commitRoom (b : Block) : Bool :=
  b.det == 0 || b.stage.staged.isEmpty || b.stage.staged.length + b.stage.window.length ≤ 16384
/-- A commit without room takes the block's next ticket first (R350). -/
def askCommit (s : State) (c sl : Nat) : State :=
  modBlock s c sl fun b => b.modExec fun e => { e with ticketAsk := if e.ticketAsk.isNone then some ([], false) else e.ticketAsk }

/-- The records of a sealed region's window commit (R69), in an ordered launch into the block's allotment (R350). -/
def commitWindow (s : State) (c sl : Nat) : State :=
  match blockOf s c sl with
  | none => s
  | some b =>
    let s := if b.det == 0 then performRecs (drainPath s (.blk c sl)) (.blk c sl) b.part b.stage.window
      else modBlock s c sl fun b => b.modStage fun g =>
        { g with staged := g.staged ++ (canonical g.window).mapIdx fun i r => { r with seq := g.seq + i }, seq := g.seq + g.window.length }
    modBlock s c sl fun b => (b.modStage fun g => { g with window := [] }).modExec fun e =>
      { e with ticketAsk := if e.ticketAsk == some ([], true) then none else e.ticketAsk }

/-- Whether a commit has performed at the region's SCOPE (R329): no store of the block is left on the path. -/
def committed (s : State) (c sl : Nat) (b : Block) : Bool :=
  earlierDone s (.blk c sl) (regionOf s b).scope

/-- After the commit the deferred pins go and the window is free (R66 to R68). -/
def freeWindow (s : State) (c sl : Nat) : State :=
  match blockOf s c sl with
  | none => s
  | some b =>
    let s := b.stage.deferred.foldl (fun s k => releasePins s k.1 k.2) s
    modBlock s c sl fun b => b.modStage fun g => { g with deferred := [], regionPins := [], hasWindow := false }

/-- The sealed store windows of a core in use (R66). -/
def windowsUsed (s : State) (c : Nat) : Nat := ((coreOf s c).slots.filter fun e => e.2.stage.hasWindow).length
/-- The windows a core may give: 3 in lane mode, 1 in fabric mode (R270). -/
def windowLimit (s : State) (c : Nat) : Nat := if (coreOf s c).fabricOf.isSome then 1 else 3

/-- A block that starts a sealed region takes a window, or waits for one (R66): of the blocks that wait, the one placed
first is served first, and the taking waits until the lines in the window's ways are evicted (R270). -/
def takeWindow (s : State) (c sl : Nat) : State :=
  match blockOf s c sl with
  | none => s
  | some b =>
    if !isSealed s b || b.stage.hasWindow then s else
    let first := (coreOf s c).slots.all fun e => e.2.exec.sealedWait.isNone || b.placedAt ≤ e.2.placedAt
    let taken := modBlock s c sl fun b => (b.modStage fun g => { g with hasWindow := true }).modExec fun e => { e with sealedWait := none }
    let waits := modBlock s c sl fun b => b.modExec fun e => { e with sealedWait := some b.region }
    if first && windowsUsed s c < windowLimit s c then (giveWays taken c (lineWays taken c)).getD waits else waits

/-- Matrix entries and tile fetches of the block complete as far as they can; a fetch at rendezvous stays (R213). -/
def settleHeads (s : State) (c sl : Nat) : Nat → State
  | 0 => s
  | f + 1 => match runHead s c sl with
    | some s => settleHeads s c sl f
    | none => match (coreOf s c).tfq.find? (·.slot == sl) with
      | none => s
      | some t => match runFetch s c t false with
        | .done s => settleHeads s c sl f
        | .rendezvous _ => s
        | .waits => s

/-- What a block that finishes in a sealed region still has in flight performs, so that a fault of it comes before the
commit of R249. -/
def settleToFinish (s : State) (c sl : Nat) : State :=
  let id := CtxId.blk c sl
  let s := culvertSettle c 0 sl (culvertFuel s c 0) s
  let s := culvertSettle c 1 sl (culvertFuel s c 1) s
  let s := drainPath (drainSfu (settleHeads s c sl (tileFuel s c)) id) id
  (s.pending.filter fun p => p.ctx == id && p.arrived).foldl returnResult s

/-- The block finishes (R249, R52). A fault its engines still owe keeps a sealed block from committing; a commit that has
not performed keeps it from finishing. -/
def finishBlock (s : State) (c sl : Nat) : State :=
  let s := if (blockOf s c sl).any (isSealed s) then settleToFinish s c sl else s
  match blockOf s c sl with
  | none => s
  | some b =>
    if isSealed s b && !b.traps.isEmpty then s
    else if isSealed s b && !commitRoom b then askCommit s c sl else
    let s := if isSealed s b then commitWindow s c sl else s
    if isSealed s b && !committed s c sl b then s else
    let s := if isSealed s b then freeWindow s c sl else s
    modBlock s c sl fun b => ({ b with phase := .finished } : Block).modCtl fun x => { x with done := true }

/-! ## The Sluice (R81) -/

def hopEn (h : W32) : Bool := h.getLsbD 31
def hopFrc (h : W32) : Bool := h.getLsbD 30
def hopTgt (h : W32) : Nat := bits h.toNat 29 28

/-- W of the region that ends (R79): none when it issued nothing. -/
def workPerIssue (b : Block) : Option Nat := if b.meter 0 = 0 then none else some (b.meter 1 * 256 / b.meter 0)

/-- The largest SPAN of the region table: the reservation of R42 and the span of the block's fabric. -/
def KObj.span (o : KObj) : Nat := (o.regions.map (·.span)).foldl max 1

/-- A position of a stream lies in a round. -/
def StreamSpec.roundAt (a : StreamSpec) (n : Nat) : Nat := (a.rnd0 + (if a.rlen = 0 then 0 else n / a.rlen)) % 256
/-- The positions of a stream (R366). -/
def StreamSpec.total (a : StreamSpec) : Nat := a.cnt.foldl (· * ·) 1

/-- Placeable (R81, R380): the rows held fit the region, the reservation covers SPAN, and a spatial block leaves only
when no stream is left. -/
def placeable (s : State) (c sl : Nat) (b : Block) (r : Region) (v : Model) : Bool :=
  gangsOf b.nthr * 256 * r.gbud ≤ b.mem.rowBytes && r.vcnt ≤ min 32 (b.mem.rowBytes / 1024) &&
    (v != .spatial || (upFrom c r.span).all fun x => (coreOf s x).reserved == some (c, sl)) &&
    (b.exec.model != .spatial || b.fab.ports.all fun e => e.2.active.isNone && e.2.pending.isNone)

/-- SluiceChoose(k) (R81). -/
def sluiceChoose (s : State) (c sl : Nat) (b : Block) (o : KObj) (k : Nat) (w : Option Nat) : Model :=
  let cur := b.exec.model
  let h := b.regs.hopctl
  let r := o.region k
  if b.vpref.getLsbD 2 then cur
  else if hopFrc h then
    let v := Model.ofCode (hopTgt h)
    if (o.vsec v).isSome && placeable s c sl b r v then v else cur
  else match w with
    | none => cur
    | some w =>
      if !hopEn h || b.sinceHop < bits h.toNat 23 16 then cur else
      ([Model.threaded, .vector, .spatial].foldl (fun (best : Model × Nat) v =>
        let bev := (r.bev[v.code - 1]?).getD 0
        if v != cur && (o.vsec v).isSome && placeable s c sl b r v && bev != 0 &&
            w * 256 < bev * (256 - bits h.toNat 7 0) && bev > best.2 then (v, bev) else best) (cur, 0)).1

/-! ## Hops (R75, R76) -/

/-- A location lies within what the block holds and can hold all its threads (R76). -/
def locFits (b : Block) (r : Region) (budget vcount : Nat) (m : Model) (e : MapEntry) : Bool :=
  let l := e.loc m
  let n := b.nthr
  let wide := e.width == 3
  match l.lk with
  | 1 => match m with
    | .threaded => decide ((if wide then 2 * l.reg + 1 else l.reg) < budget)
    | _ => e.ekind == 1 || decide (l.reg + (if wide then 2 else 1) * ((n - 1) / 256 + 1) ≤ vcount)
  | 2 =>
    let size := if e.ekind == 2 then ceilDiv n 8 else if e.ekind == 3 then e.len else (if e.ekind == 0 then (n - 1) * l.str else 0) + e.bits_ / 8
    decide (l.base + size ≤ b.mem.locb)
  | 3 => e.ekind != 0 || decide (n ≤ 64 * r.span)
  | 4 => m == .threaded || decide (n ≤ 256)
  | _ => true

/-- Whether a hop raises HOP_MAP (R76). -/
def hopMapFault (b : Block) (o : KObj) (k : Nat) (v : Model) : Bool :=
  let a := b.exec.model
  let r := o.region k
  let vc := if a == .vector then b.mem.vcount else min 32 (b.mem.rowBytes / 1024)
  let first := (leastOf b.liveThreads).getD 0
  (o.entries k).any fun e =>
    !locFits b r b.mem.budget vc a e || !locFits b r b.mem.budget (min 32 (b.mem.rowBytes / 1024)) v e ||
      (a == .threaded && e.ekind == 1 && b.liveThreads.any fun t => readLoc b a e t != readLoc b a e first)

/-- Bytes of mapped values (R82): the liveness bits of all 256 elements count. -/
def mapBytes (o : KObj) (k n : Nat) : Nat :=
  ((o.entries k).map fun e => match e.ekind with
    | 0 => n * (e.bits_ / 8)
    | 1 => e.bits_ / 8
    | 2 => 32 * ceilDiv n 256
    | _ => 0).sum

/-- Rows of the version a hop enters that the map does not write: free values (DESIGN CHOICE, safe: notes/assumptions/21.md). -/
def freeRows (base : Nat) (keys : List Nat) : Store 32 := (keys.map fun k => (k, Config.freeWord (base + k))).filter fun e => e.2 != 0

/-- A command writes one field (R355). -/
def Fabric.apply (f : Fabric) (cmd : W32) : Fabric :=
  f.setField (bits cmd.toNat 31 22) (bits cmd.toNat 21 16) (bits cmd.toNat 15 0)

/-- The block in its target version, before the mapped values are written: streams at the EP, rows open, predicates and
scalar registers as they were (R129), dead threads not started (R75). -/
def enterVersion (b : Block) (o : KObj) (k base cycle : Nat) (v : Model) (lives : List Bool) : Block :=
  let r := o.region k
  let n := b.nthr
  let pc := match o.vsec v with
    | some x => ((x.eps.find? (·.1 == k)).map (·.2)).getD x.entry
    | none => 0
  let rows := if v == .threaded then gangsOf n * 256 * r.gbud else b.mem.rowBytes
  let vcount := if v == .vector then min 32 (rows / 1024) else 0
  let b := b.modMem fun m =>
    { m with budget := if v == .threaded then r.gbud else m.budget, rowBytes := rows, vcount, rowPoison := []
             rows := match v with
               | .threaded => freeRows base ((List.range n).flatMap fun t => upFrom (gKey t 0) r.gbud)
               | .vector => freeRows base (List.range (256 * vcount))
               | .spatial => [] }
  let b := b.modExec fun e =>
    { e with model := v, bundles := []
             threads := if v == .threaded then lives.map fun on => { pc, live := on, freeAt := cycle } else []
             ctl := { pc := if v == .threaded then 0 else pc, sregs := e.ctl.sregs, spoison := e.ctl.spoison } }
  let b := if v == .vector then b.modRegs fun g => { g with vlen := BitVec.ofNat 9 (min n 256) } else b
  { b with fab := if v == .spatial then r.resume.foldl Fabric.apply { span := o.span } else {} }

/-- The mapped values, with their poison marks, in the target version's locations (R75): every entry is copied, and in the
vector version the elements of dead or absent threads are zero in every mapped register. -/
def writeMapped (b : Block) (es : List MapEntry) (v : Model) (lives : List Bool) (vals : List (List (Nat × Bool))) : Block :=
  let n := b.nthr
  (es.zip vals).foldl (fun b (e, xs) => match e.ekind with
    | 0 =>
      let elements := v == .vector && (e.loc v).lk == 1
      (List.range (if elements then ceilDiv n 256 * 256 else n)).foldl (fun b t =>
        let x := if elements && !(lives[t]?).getD false then (0, false) else (xs[t]?).getD (0, false)
        writeLoc b v e t x.1 x.2) b
    | 1 => (if v == .threaded && (e.loc v).lk == 1 then List.range n else [0]).foldl (fun b t =>
        writeLoc b v e t ((xs[0]?).getD (0, false)).1 ((xs[0]?).getD (0, false)).2) b
    | 2 => writeLive b v e lives
    | _ => b) b

/-- Cycles of a hop (R82): mapped bytes, commands loaded. -/
def hopLatency (a v : Model) (bytes cmds : Nat) : Nat :=
  4 + 8 + ceilDiv bytes 64 + (if v == .spatial then 128 + ceilDiv cmds 8 else 0) + (if a == .spatial then 64 else 0)

/-- Hop(v) at EP k (R75). The snapshot that the EP has written before keeps its VLEN: a rollback to this EP restores the VLEN
held before the hop (R68, R71, R129; DEDUCED, unsafe: notes/assumptions/57.md). -/
def hop (s : State) (c sl : Nat) (b : Block) (o : KObj) (k : Nat) (v : Model) : State :=
  let a := b.exec.model
  let es := o.entries k
  let n := b.nthr
  let first := (leastOf b.liveThreads).getD 0
  let lives := (List.range n).map fun t => match es.find? (·.ekind == 2) with
    | some e => readLive b a e t
    | none => true
  let vals := es.map fun e => match e.ekind with
    | 0 => (List.range n).map fun t => (readLoc b a e t, badLoc b a e t)
    | 1 => [(readLoc b a e first, badLoc b a e first)]
    | _ => []
  let base := s.freeCount
  let s := { s with freeCount := base + 2 ^ 17 }
  let bytes := mapBytes o k n
  let cmds := if v == .spatial then (o.region k).resume.length else 0
  let record := k * 2 ^ 48 + a.code * 2 ^ 38 + v.code * 2 ^ 36 + hopLatency a v bytes cmds
  let s := modBlock s c sl fun b =>
    let b := writeMapped (enterVersion b o k base s.cycle v lives) es v lives vals
    { b.addMeter 11 1 with
      sinceHop := 0
      meters := (b.addMeter 11 1).meters.set 12 record
      mem := { b.mem with snap := b.mem.snap.map fun n => { n with resume := b.streams.map fun t => (t, b.pcOf t) } } }
  let s := (upFrom c o.span).foldl (fun s x => modCore s x fun q =>
    { q with fabricOf := if v == .spatial then some (c, sl) else if q.fabricOf == some (c, sl) then none else q.fabricOf }) s
  let s := chargeBlock s c sl 13 1 0
  writeTrace s c sl 2 0 0 0 s.cycle (valBytes 8 record ++ valBytes 8 bytes ++ valBytes 8 cmds)

/-! ## The steps of an EP (R68) -/

/-- What closes an EP for every version: the region begins, the request and the region's meters clear (R79, R80), a
paused port goes on (R380). -/
def openRegion (s : State) (c sl k : Nat) : State :=
  takeWindow (modBlock s c sl fun b =>
    { b with region := k, lastEp := s.cycle, fab := { b.fab with round := 0 }
             meters := b.meters.mapIdx fun i v => if i < 10 then 0 else v
             regs := { b.regs with hopctl := b.regs.hopctl &&& 0x8FFFFFFF#32 }
             stage := { b.stage with bkpt := [] } }) c sl

/-- W is recorded and a region more has ended since the last hop. -/
def closeRegion (s : State) (c sl : Nat) : State :=
  modBlock s c sl fun b =>
    { b with sinceHop := b.sinceHop + 1, meters := b.meters.set 10 ((workPerIssue b).getD 0xFFFFFFFF) }

/-- Streams leave the EP for the places given; `keep` says that they are its own continuation and threads keep their
bundles (R250). -/
def leaveEp (s : State) (c sl : Nat) (places : List (Nat × VAddr)) (keep : Bool) : State :=
  modBlock s c sl fun b =>
    let at_ := fun (t : Nat) (p : VAddr) => ((places.find? (·.1 == t)).map (·.2)).getD p
    if keep then places.foldl (fun b (t, p) => b.completeWho t false {} p s.cycle) b
    else if b.exec.model == .threaded then
      (b.leave b.streams s.cycle).modThreads b.streams fun t x => { x with pc := at_ t x.pc, wait := 0, wdog := 0, capt := [], line := none }
    else b.modCtl fun x => { x with pc := at_ 0 x.pc, wait := 0, capt := [], latches := [], line := none }

/-- The Sluice decides, the block hops or goes on (R68, R75, R76). `places` is where each stream goes on without a hop. -/
def epDecide (s : State) (c sl k : Nat) (places : List (Nat × VAddr)) (keep : Bool) : State :=
  match blockOf s c sl, (blockOf s c sl).bind (objOf s) with
  | some b, some o =>
    let s1 := closeRegion s c sl
    let v := match blockOf s1 c sl with
      | some b1 => sluiceChoose s1 c sl b1 o k (workPerIssue b)
      | none => b.exec.model
    if v == b.exec.model then openRegion (leaveEp s1 c sl places keep) c sl k
    else if hopMapFault b o k v then deliver s c sl { cause := 18, atEp := true } b.streams none
    else match blockOf s1 c sl with
      | some b1 => openRegion (hop s1 c sl b1 o k v) c sl k
      | none => s
  | _, _ => s

/-- What follows a debugger's stop at an EP, or the commit without one (R68, R83): a pending pre-emption saves the block in
its current version, else the Sluice decides. -/
def epSaveOrDecide (s : State) (c sl k : Nat) (go : List (Nat × VAddr)) (keep : Bool) : State :=
  match blockOf s c sl with
  | none => s
  | some b =>
    if b.want.preempt && ((partOf s b.part).bind fun p => p.savePool.alloc (saveSize s c sl b false)).isSome then
      let s := modBlock s c sl fun b => { b with want := { b.want with saveAtEp := true } }
      let s := leaveEp (closeRegion s c sl) c sl go false
      let s := modBlock s c sl fun b =>
        { b with region := k, lastEp := s.cycle, meters := b.meters.mapIdx fun i v => if i < 10 then 0 else v
                 fab := { b.fab with round := 0 }
                 regs := { b.regs with hopctl := b.regs.hopctl &&& 0x8FFFFFFF#32 } }
      match blockOf s c sl with
      | some b => stoppedForSave s c sl b
      | none => s
    else epDecide s c sl k go keep

/-- Whether a debugger asks for a stop at the EP that ends the region (R77). -/
def debugStop (b : Block) : Bool := b.regs.dbgctl.getLsbD 0 && (!b.stage.bkpt.isEmpty || b.regs.dbgctl.getLsbD 1 || b.regs.dbgctl.getLsbD 2)

/-- The steps of R68 for a block that has reached EP k (R60). A stream past whose EP a final line ends raises
ILLEGAL_TARGET there (R87). A stop for which no breakpoint was hit reports the EP's own site (R77 names only the lowest
breakpoint site; DEDUCED, unsafe: notes/assumptions/57.md). -/
def epSteps (s : State) (c sl k : Nat) (places : List (Nat × VAddr × Bool)) : State :=
  let s := quiesce s c sl
  match blockOf s c sl with
  | none => s
  | some b =>
    if !quiet s c sl b then s
    else if isSealed s b && !commitRoom b then askCommit s c sl else
    let past := (places.filter fun p => p.2.2).map (·.1)
    let go := places.map fun p => (p.1, p.2.1)
    let n := { takeSnapshot s c b k with resume := go }
    let s := modBlock s c sl fun b => b.modMem fun m => { m with snap := some n }
    let s := if isSealed s b then commitWindow s c sl else s
    if isSealed s b && !committed s c sl b then s else
    let s := if isSealed s b then freeWindow s c sl else s
    if !past.isEmpty then deliver s c sl { cause := 4, addr := (b.pcOf (past.headD 0)).toNat / 128 * 128 + 128, atEp := true } past none
    else if debugStop b then
      let s := deliver s c sl { cause := 25, debug := true, atEp := true, site := leastOf b.stage.bkpt } b.streams none
      modBlock s c sl fun b =>
        let b := b.modThreads b.streams fun t x => { x with trapPc := ((go.find? (·.1 == t)).map (·.2)).getD x.pc }
        let b := b.modCtl fun x => { x with trapPc := ((go.find? (·.1 == 0)).map (·.2)).getD x.pc }
        { b with want := { b.want with epRest := true } }
    else epSaveOrDecide s c sl k go true

/-- A debugger's stop at an EP ends (R77): what the debugger wrote in the snapshot reaches the running version's locations;
each stream's resume point stands in TRAPPC, then the rest of R68. -/
def epRest (s : State) (c sl : Nat) : State :=
  match blockOf s c sl with
  | none => s
  | some b =>
    let s := modBlock s c sl fun b => { applyEdits s b with want := { b.want with epRest := false } }
    epSaveOrDecide s c sl (b.region + 1) (b.streams.map fun t => (t, if b.exec.model == .threaded then (threadOf b t).trapPc else b.exec.ctl.trapPc)) false

/-! ## Block-wide waits (R51, R60, R61, R251, R256, R257) -/

/-- The captured line of a stream of a block. -/
def lineOf (b : Block) (who : Nat) : Option (List W32) :=
  if b.exec.model == .threaded then (b.exec.bundles.find? fun u => u.members.contains who).bind (·.line) else b.exec.ctl.line
/-- OPC and parcel 1 of the instruction a stream stands at. -/
def standsAt (b : Block) (who : Nat) : Nat × Nat :=
  match lineOf b who with
  | some l =>
    let j := (b.pcOf who).toNat / 4 % 32
    (bits ((l[j]?).getD 0).toNat 31 24, ((l[j + 1]?).getD 0).toNat)
  | none => (0, 0)

/-- A budget change of `b` to `n` registers: rows given up are discarded, new ones read as zero (R118). -/
def setBudget (b : Block) (n : Nat) : Block :=
  b.modMem fun m => { m with budget := n, rowBytes := gangsOf b.nthr * 256 * n
                             rows := Store.keep m.rows fun k => k % 64 < n, rowPoison := m.rowPoison.filter fun k => k % 64 < n }

/-- Bytes of register rows in use on a core (R41). -/
def rowsUsed (s : State) (c : Nat) : Nat := ((coreOf s c).slots.map fun e => e.2.mem.rowBytes).sum

/-- A block of the core has retired or had its GROW granted: what was saved off it in a GROW deadlock may come back
(R346). -/
def coreStirred (s : State) (c : Nat) : State :=
  modIod s fun i => { i with parts := i.parts.map fun e => (e.1, { e.2 with
    resume := e.2.resume.map fun r => if r.leftCore == some c then { r with leftCore := none } else r }) }

/-- A pending GROW is granted when the rows are free (R257). -/
def tryGrow (s : State) (c sl : Nat) : State :=
  match blockOf s c sl with
  | none => s
  | some b => match b.exec.grow with
    | none => s
    | some (_, n) =>
      if rowsUsed s c - b.mem.rowBytes + gangsOf b.nthr * 256 * n ≤ 524288 then
        releaseWaiters (coreStirred (modBlock s c sl fun b => (setBudget b n).modExec fun e => { e with grow := none }) c) c sl b.streams 2
      else s

/-- A GROW or SHRINK request has formed (R256, R257). -/
def budgetRequest (s : State) (c sl : Nat) (b : Block) (shrink : Bool) (n : Nat) : State :=
  let ts := b.streams
  if shrink then
    -- a result still due to a register given up writes nothing (R118)
    let drop := fun (p : Pending) => if p.ctx == .blk c sl then { p with keys := p.keys.filter fun k => k % 64 < n } else p
    let s := if n < b.mem.budget then modBlock { s with pending := s.pending.map drop } c sl fun b => setBudget b n else s
    releaseWaiters s c sl ts 2
  else if n ≤ b.mem.budget then releaseWaiters s c sl ts 2
  else if gangsOf b.nthr * 256 * n > 524288 || gangsOf b.nthr > 32 then deliver s c sl { cause := 22, lanes := ts } ts none
  else tryGrow (modBlock s c sl fun b => b.modExec fun e => { e with grow := some (true, n) }) c sl

/-- Whether round r comes after round k, mod 256. -/
def laterRound (r k : Nat) : Bool := (r + 256 - k % 256 - 1) % 256 < 128

/-- EOR of round k has left every output port that has or had a stream (R376). -/
def roundLeft (f : Fabric) (k : Nat) : Bool :=
  f.ports.all fun e => match e.2.eor with
    | some r => !laterRound k r
    | none => e.2.active.all (fun a => !a.output) && e.2.pending.all fun a => !a.output

/-- The end of round k: every stream of the span is past it and no token of it is left (R60). -/
def roundEnded (f : Fabric) (k : Nat) : Bool :=
  let past := fun (a : StreamSpec) => !a.eorDue && (a.pos ≥ a.total || laterRound (a.roundAt a.pos) k)
  f.ports.all (fun e => e.2.active.all past && e.2.pending.all past) && f.bufs.all fun e => e.2.all fun t => laterRound t.rnd.toNat k

/-- A convergence register of the block holds a posted descriptor (R221). -/
def descPosted (s : State) (c : Nat) (b : Block) : Bool :=
  (coreOf s c).cvs.any fun e => b.claim.cv.getLsbD e.1 && e.2.desc.isSome

/-- The block-wide wait of EP, GROW and SHRINK is examined: of a threaded block when every live thread waits at one. The
number of an EP is checked when the wait of R60 completes (R251). -/
def blockWait (s : State) (c sl : Nat) : State :=
  match blockOf s c sl with
  | none => s
  | some b =>
    let ts := b.streams
    let waits := ts.map b.waitOf
    if b.phase != .running || ts.isEmpty || !waits.all (fun w => w == 6 || w == 7) || b.exec.grow.isSome then s else
    let ins := ts.map (standsAt b)
    let misuse := deliver s c sl { cause := 21, lanes := if b.exec.model == .threaded then ts else [] } ts none
    match ins with
    | [] => s
    | i :: r =>
      if !r.all (· == i) then misuse
      else if i.1 == 0xF4 then budgetRequest s c sl b (bits i.2 31 24 == 1) (bits i.2 6 0)
      else
        let k := bits i.2 15 0
        if b.exec.model == .spatial && !roundEnded b.fab k then modBlock s c sl fun b => { b with fab := { b.fab with round := k } }
        else if k != b.region + 1 then misuse
        else if descPosted s c b then deliver s c sl { cause := 13, lanes := ts } ts none
        else epSteps (modBlock s c sl fun b => { b with fab := { b.fab with round := k } }) c sl k (ts.map fun t => (t, fallNext (lineOf b t) (b.pcOf t) 2))

end Sys2Proof.Machine
end

