-- ==== Sys2Proof/Machine/Accept.lean ====
section
/-! DEFINITION. Launch parameter blocks (R33), what fits a core (R41, R42, R120), the acceptance of a launch (R35 to R37,
R44, R336).
Where the spec leaves a point open: notes/assumptions, entries 29, 34. -/

namespace Sys2Proof.Machine

/-! ## The LPB (R33) -/

def lpbOf (bs : List Byte) : Lpb :=
  { kobj := BitVec.ofNat 64 (field bs 0 8), nblk := BitVec.ofNat 32 (field bs 8 4), nthr := BitVec.ofNat 16 (field bs 0xC 2)
    vpref := BitVec.ofNat 8 (field bs 0xE 1), mode := BitVec.ofNat 8 (field bs 0xF 1), regb := BitVec.ofNat 16 (field bs 0x10 2)
    prvw := BitVec.ofNat 16 (field bs 0x12 2), locb := BitVec.ofNat 32 (field bs 0x14 4)
    colmask := BitVec.ofNat 32 (field bs 0x18 4), prio := BitVec.ofNat 8 (field bs 0x1C 1)
    dgc := BitVec.ofNat 8 (field bs 0x1D 1), cgb := BitVec.ofNat 16 (field bs 0x1E 2), acct := BitVec.ofNat 16 (field bs 0x20 2)
    crec := BitVec.ofNat 64 (field bs 0x28 8), args := BitVec.ofNat 64 (field bs 0x30 8), prvb := BitVec.ofNat 64 (field bs 0x38 8)
    evta := BitVec.ofNat 64 (field bs 0x40 8), zeros := field bs 0x22 6 == 0 && field bs 0x48 56 == 0 }

def Lpb.coop (l : Lpb) : Bool := l.mode.getLsbD 0
def Lpb.level (l : Lpb) : Nat := l.prio.toNat % 8
def Lpb.pin (l : Lpb) : Bool := l.vpref.getLsbD 2
def Lpb.pref (l : Lpb) : Nat := bits l.vpref.toNat 1 0

/-- The starting version (R46). -/
def startModel (o : KObj) (l : Lpb) : Model :=
  if l.pref != 0 && (o.vsec (Model.ofCode l.pref)).isSome then Model.ofCode l.pref else Model.ofCode o.defv

/-- The cores of the exclusive reservation, 0 for none (R42). A block that starts in its spatial version has one
(R18) also when PIN is set (DEDUCED, unsafe: notes/assumptions/34.md). -/
def spanNeeded (o : KObj) (l : Lpb) : Nat :=
  if (o.vsec .spatial).isSome && (startModel o l == .spatial || (!l.pin && (l.pref == 0 || l.pref == 3))) then o.span else 0

/-- The EP snapshot area (R62). -/
def KObj.snapArea (o : KObj) : Nat := (o.regions.map (·.snap)).foldl max 0

/-! ## What fits a core (R41, R42, R120) -/

structure Need where
  gangs : Nat
  rows : Nat
  loc : Nat
  claim : Claim
  span : Nat
  deriving DecidableEq, Repr

def needOf (o : KObj) (l : Lpb) : Need :=
  { gangs := gangsOf l.nthr.toNat, rows := gangsOf l.nthr.toNat * 256 * l.regb.toNat, loc := l.locb.toNat + o.snapArea
    claim := o.claim, span := spanNeeded o l }
def Block.need (b : Block) : Need :=
  { gangs := gangsOf b.nthr, rows := b.mem.rowBytes, loc := b.mem.locb + b.mem.snapBytes, claim := b.claim, span := 0 }

def Claim.free (a b : Claim) : Bool :=
  a.acc &&& b.acc == 0 && a.tb &&& b.tb == 0 && a.ag &&& b.ag == 0 && a.cv &&& b.cv == 0 && a.q &&& b.q == 0
def Claim.none (a : Claim) : Bool := a.acc == 0 && a.tb == 0 && a.ag == 0 && a.cv == 0 && a.q == 0

/-- A core that may run work of a partition: its column is held (R448, R450), nothing is quarantined, faulted or being
cleared (R435, R436). -/
def usable (s : State) (p c : Nat) : Bool :=
  let col := columnOf s (columnOfCore c)
  holderOf s (columnOfCore c) == some p && !(coreOf s c).quarantined && !col.clearing && !col.faulted && !col.reclaiming

/-- Sums over the resident blocks and one more stay within the core (R41). -/
def roomFor (k : Core) (n : Need) : Bool :=
  let all := n :: k.slots.map fun e => e.2.need
  k.slots.length < 8 && (all.map (·.gangs)).sum ≤ 32 && (all.map (·.rows)).sum ≤ 524288 && (all.map (·.loc)).sum ≤ 786432 &&
    k.slots.all fun e => e.2.claim.free n.claim

/-- A block fits a core (R41, R42, R120). -/
def fitsCore (s : State) (p c : Nat) (n : Need) : Bool :=
  if n.span == 0 then
    usable s p c && (coreOf s c).fabricOf.isNone && (coreOf s c).reserved.isNone && roomFor (coreOf s c) n
  else
    posOfCore c + n.span ≤ 6 && roomFor {} n && (upFrom c n.span).all fun x =>
      usable s p x && (coreOf s x).fabricOf.isNone && (coreOf s x).reserved.isNone && (coreOf s x).slots.isEmpty

/-- Blocks of a launch an empty core holds: blocks of one kernel share one claim set. -/
def perCore (n : Need) : Nat :=
  let m := min (min 8 (32 / max 1 n.gangs)) (524288 / max 1 n.rows)
  let m := if n.loc == 0 then m else min m (786432 / n.loc)
  if n.claim.none then m else min m 1
/-- Blocks an empty column holds (R44). -/
def perColumn (n : Need) : Nat := if n.span == 0 then 6 * perCore n else 6 / n.span

def selected (l : Lpb) : List Nat := (List.range 32).filter fun i => l.colmask.getLsbD i

/-- The grouping check of R35: one column group, one die group. -/
def groupsFit (l : Lpb) (n : Need) : Bool :=
  let cgb := l.cgb.toNat
  let cols := selected l
  if cgb == 0 then l.dgc == 0
  else perColumn n ≥ cgb && (l.dgc == 0 || (List.range 4).any fun d =>
    ((cols.filter fun c => c / 8 == d).map fun _ => perColumn n / cgb).sum ≥ l.dgc.toNat)

/-- All blocks of a cooperative launch could be resident together (R44). -/
def coopFits (l : Lpb) (n : Need) : Bool :=
  let cols := selected l
  let cgb := l.cgb.toNat
  if cgb == 0 then l.nblk.toNat ≤ perColumn n * cols.length
  else
    let groups := ceilDiv l.nblk.toNat cgb
    if l.dgc == 0 then groups ≤ perColumn n / cgb * cols.length
    else ceilDiv groups l.dgc.toNat ≤ ((List.range 4).map fun d =>
      ((cols.filter fun c => c / 8 == d).map fun _ => perColumn n / cgb).sum / l.dgc.toNat).sum

/-! ## The checks (R35, R74, R336) -/

/-- The local bytes a location covers at this thread count, and whether its extent depends on it (R74). -/
def localExtent (e : MapEntry) (m : Model) (n : Nat) : List (Nat × Nat) × Bool :=
  let l := e.loc m
  if l.lk != 2 then ([], false) else
  match e.ekind with
  | 0 => ((List.range n).map fun t => (l.base + t * l.str, e.bits_ / 8), true)
  | 1 => ([(l.base, e.bits_ / 8)], false)
  | 2 => ([(l.base, ceilDiv n 8)], true)
  | _ => ([(l.base, e.len)], false)

def meet (a b : List (Nat × Nat)) : Bool := a.any fun x => b.any fun y => x.1 < y.1 + y.2 && y.1 < x.1 + x.2

/-- Overlaps of a list's members with each other. -/
def anyPair {α : Type} (f : α → α → Bool) : List α → Bool
  | [] => false
  | a :: r => r.any (f a) || anyPair f r

/-- The map check of R35: entries of one EP whose extents depend on the thread count overlap in some version. -/
def mapOverlaps (o : KObj) (n : Nat) : Bool :=
  o.map.any fun es => [Model.threaded, .vector, .spatial].any fun m => (o.vsec m).isSome &&
    anyPair (fun a b =>
      let (x, i) := localExtent a m n
      let (y, j) := localExtent b m n
      (i || j) && meet x y) es

/-- The index of the accepted object at an address, the one accepted last (R58). -/
def findObj (s : State) (asid : W16) (addr : Nat) : Option Nat :=
  if addr % 128 != 0 then none else
  (List.range s.objects.length).reverse.find? fun i => (s.objects[i]?).any fun o => o.asid == asid && o.addr == addr

/-- Every check of R35 on an LPB whose object is known. -/
def lpbPasses (s : State) (p : Nat) (o : KObj) (l : Lpb) : Bool :=
  let n := needOf o l
  let nthr := l.nthr.toNat
  l.nblk.toNat < 2 ^ 24 && 1 ≤ nthr && nthr ≤ 2048 && 8 ≤ l.regb.toNat && l.regb.toNat ≤ 64 && l.regb.toNat % 8 == 0 &&
    l.locb.toNat ≤ 786432 && l.locb.toNat % 256 == 0 && roomFor {} n &&
    l.colmask != 0 && (selected l).all (fun c => holderOf s c == some p) && groupsFit l n && n.span ≤ 6 &&
    l.prio.toNat < 8 && l.vpref.toNat < 8 && l.mode.toNat < 8 && l.det != 3 && l.zeros && l.acct.toNat ≤ 1023 &&
    l.crec.toNat % 64 == 0 && l.prvb.toNat % 128 == 0 && l.evta.toNat % 8 == 0 && (l.det == 0 || o.promise != 0) && !mapOverlaps o nthr

/-- The status of a launch that the checks reject: RANGE or NO_FIT (R35, R44, R336). -/
def rejection (s : State) (p : Nat) (asid : W16) (l : Lpb) : Option Nat :=
  match (findObj s asid l.kobj.toNat).bind fun i => s.objects[i]? with
  | none => some 3
  | some o =>
    if !lpbPasses s p o l then some 3
    else if l.coop && !coopFits l (needOf o l) then some 4
    else if Table.get? s.iod.accts l.acct.toNat != some p then some 3
    else if l.det != 0 && ((partOf s p).map fun q => q.staging.size == 0).getD true then some 3
    else match walk s asid p l.crec.toNat 1 with
      | .bad 4 _ => none
      | .bad _ _ => some 3
      | .ok _ _ => none

/-! ## Acceptance (R336, R37) -/

/-- Launches accepted by a partition and not complete (R332). -/
def heldLaunches (s : State) (p : Nat) : Nat :=
  (s.launches.filter fun e => e.2.part == p && !(e.2.status == some 2 || e.2.status == some 3 || e.2.status == some 4)).length
def orderedLaunches (s : State) : Nat :=
  (s.launches.filter fun e => e.2.lpb.det != 0 && !(e.2.status == some 2 || e.2.status == some 3 || e.2.status == some 4)).length

/-- Acceptance would return FULL (R336). -/
def launchFull (s : State) (p : Nat) (l : Lpb) : Bool := heldLaunches s p ≥ 1024 || (l.det != 0 && orderedLaunches s ≥ 1024)

/-- LAUNCH_ACCEPTANCE: the code of R334. -/
def acceptLaunch (s : State) (p : Nat) (asid : W16) (bs : List Byte) (msga : VAddr := 0) (armed : Option (Nat × Nat) := none)
    (via : Nat := 0) : State × Nat :=
  let l := lpbOf bs
  if launchFull s p l then (s, 2) else
  let obj := (findObj s asid l.kobj.toNat).getD 0
  let (n, s) := fresh s
  let e : Launch := { lpb := l, obj, part := p, asid, at_ := s.cycle, waitSince := s.cycle, msga, sysScope := armed.isSome, armed, via }
  let put := fun (s : State) (e : Launch) => { s with launches := Table.set s.launches n e }
  match rejection s p asid l with
  | some st =>
    let s := if l.acct.toNat ≤ 1023 then chargeAcct s l.acct.toNat 15 1 else s
    let fault : Option FaultRec := if st == 3 then some { cause := 27 } else none
    (finishLaunch (put s { e with fault, next := l.nblk.toNat }) n st, 1)
  | none =>
    if l.nblk == 0 then (finishLaunch (put s e) n 2, 1) else (put s e, 0)

end Sys2Proof.Machine
end

