-- ==== Sys2Proof/Machine/Sched.lean ====
section
/-! DEFINITION. The scheduler: placement (R38 to R46, R344, R349), retirement (R52), the choice of a block to pre-empt
(R57, R345, R346), twin copies (R462).
Where the spec leaves a point open: notes/assumptions, entries 35, 43, 53, 65, 66. -/

namespace Sys2Proof.Machine

/-- Core cycles of a number of microseconds (R4). -/
def usCycles (n : Nat) : Nat := 2400 * n

/-! ## Where a block may go (R39, R43) -/

/-- The columns a block of a launch may be placed in (R43). -/
def allowedCols (la : Launch) (bidx : Nat) : List Nat :=
  let cgb := la.lpb.cgb.toNat
  let dgc := la.lpb.dgc.toNat
  let cols := selected la.lpb
  if cgb == 0 then cols else
  match Table.get? la.groups (bidx / cgb) with
  | some c => [c]
  | none => if dgc == 0 then cols else
    match la.groups.find? fun e => e.1 / dgc == bidx / cgb / dgc with
    | some e => cols.filter fun c => c / 8 == e.2 / 8
    | none => cols

/-- How many more blocks of a need a core of a column holds now (R41): those of one kernel share a claim set. -/
def coreRoom (s : State) (p c : Nat) (n : Need) : Nat :=
  let k := coreOf s c
  if !usable s p c || k.fabricOf.isSome || k.reserved.isSome then 0 else
  let used := k.slots.map fun e => e.2.need
  ((List.range 9).reverse.find? fun m =>
    k.slots.length + m ≤ 8 && (used.map (·.gangs)).sum + m * n.gangs ≤ 32 && (used.map (·.rows)).sum + m * n.rows ≤ 524288 &&
      (used.map (·.loc)).sum + m * n.loc ≤ 786432 && (m == 0 || k.slots.all fun e => e.2.claim.free n.claim) && (m ≤ 1 || n.claim.none)).getD 0

/-- How many more blocks of a need a column holds now, on cores that `ok` admits (R44). -/
def colRoom (s : State) (p col : Nat) (n : Need) (ok : Nat → Bool) : Nat :=
  let cores := (upFrom (6 * col) 6).filter ok
  if n.span == 0 then (cores.map fun c => coreRoom s p c n).sum
  else (cores.foldl (fun (r : Nat × Nat) c =>
    if r.2 ≤ c && fitsCore s p c n && (upFrom c n.span).all ok then (r.1 + 1, c + n.span) else r) (0, 0)).1

/-- Whether a column has room for what is left of a cooperative launch's column group, and its die for what is left of its
die group, when block `bidx` is the first of the group to be placed (R43, R44): all are placed at once. -/
def groupRoom (s : State) (la : Launch) (bidx col : Nat) (n : Need) (ok : Nat → Bool) : Bool :=
  let cgb := la.lpb.cgb.toNat
  let dgc := la.lpb.dgc.toNat
  let left := la.lpb.nblk.toNat - bidx
  if !la.lpb.coop || cgb == 0 || bidx % cgb != 0 then true
  else if colRoom s la.part col n ok < min cgb left then false
  else if dgc == 0 || bidx / cgb % dgc != 0 then true
  else
    -- whole groups first; the last, smaller one takes a room of its own
    let want := min (dgc * cgb) left
    let rooms := ((selected la.lpb).filter fun c => c / 8 == col / 8).map fun c => colRoom s la.part c n ok
    let whole := (rooms.map (· / cgb)).sum
    want / cgb ≤ whole && (want % cgb == 0 || want / cgb < whole || rooms.any fun r => want % cgb ≤ r % cgb)

/-- The cores a block of a launch fits now, lowest first, of those that `ok` admits. -/
def coresFor (s : State) (la : Launch) (bidx : Nat) (n : Need) (ok : Nat → Bool := fun _ => true) : List Nat :=
  ((allowedCols la bidx).filter fun col => groupRoom s la bidx col n ok).flatMap fun c =>
    (upFrom (6 * c) 6).filter fun c => fitsCore s la.part c n && (upFrom c (max 1 n.span)).all ok

def freeSlot (k : Core) : Option Nat := (List.range 8).find? fun i => (Table.get? k.slots i).isNone

/-- A partition is quiesced: no block of it is placed (R464). -/
def quiescedPart (s : State) (p : Nat) : Bool := s.iod.funcs.any fun f => f.2.part == some p && f.2.quiesced

/-- An allotment of 16,384 staged records (R349); its bytes in the staging area are those of R432's STAGE records
(DEDUCED, unsafe: notes/assumptions/35.md). -/
def takeStaging (s : State) (p det : Nat) : Option State :=
  if det == 0 then some s else
  match (partOf s p).bind fun q => q.staging.alloc 262144 with
  | some (_, pool) => some (modPart s p fun q => { q with staging := pool })
  | none => none

/-! ## Placing a block (R18, R42, R46, R116, R120, R125) -/

/-- The registers of a claim set at the values of R116. -/
def resetClaim (s : State) (c : Nat) (a : Claim) : State :=
  modCore s c fun k => { k with
    acc := Store.keep k.acc fun i => !a.acc.getLsbD (i / 1024)
    accPoison := k.accPoison.filter fun i => !a.acc.getLsbD (i / 1024)
    ag := Store.keep k.ag fun i => !a.ag.getLsbD i
    tiles := k.tiles.filter fun e => !a.tb.getLsbD e.1
    cvs := k.cvs.filter fun e => !a.cv.getLsbD e.1 }

/-- The system registers of a block at placement (R31, R34, R46, R80, R125, R128). -/
def placedRegs (la : Launch) (bidx : Nat) : BlkRegs :=
  let l := la.lpb
  { bidx := BitVec.ofNat 24 bidx, nblk := l.nblk.setWidth 24, nthr := l.nthr.setWidth 12, argb := l.args.setWidth 57, msga := la.msga
    acct := l.acct.setWidth 10, hopctl := if l.pin then 0x00010020#32 else 0x80010020#32, plim := l.prvw
    pbase := l.prvb.setWidth 57 + BitVec.ofNat 57 (bidx * (ceilDiv (l.nthr.toNat * l.prvw.toNat * 4) 128 * 128))
    vlen := BitVec.ofNat 9 (min l.nthr.toNat 256) }

/-- A block as it is placed (R46). -/
def newBlock (s : State) (n : Nat) (la : Launch) (o : KObj) (bidx : Nat) : Block :=
  let l := la.lpb
  let m := startModel o l
  let nthr := l.nthr.toNat
  let rows := gangsOf nthr * 256 * l.regb.toNat
  let pc := ((o.vsec m).map (·.entry)).getD 0
  { launch := n, obj := la.obj, part := la.part, asid := la.asid, prio := l.level, vpref := l.vpref, det := l.det, coop := l.coop
    claim := o.claim, regs := placedRegs la bidx
    exec := {
      model := m
      threads := if m == .threaded then List.replicate nthr { pc, live := true, freeAt := s.cycle } else []
      ctl := if m == .threaded then {} else { pc }
      limits := List.replicate (gangsOf nthr) 4096#20 }
    mem := {
      budget := l.regb.toNat, rowBytes := rows, vcount := if m == .vector then min 32 (rows / 1024) else 0
      locb := l.locb.toNat, snapBytes := o.snapArea }
    meters := (List.replicate 10 0) ++ [0xFFFFFFFF, 0, 0]
    placedAt := s.cycle, lastEp := s.cycle
    fab := if m == .spatial then { span := o.span } else {} }

/-- A block takes its slot, its claim set and its reservation. Its placement and its restore are acquires at .dev: no
CLEAN copy from before serves it (R320). -/
def seat (s : State) (c sl span : Nat) (b : Block) : State :=
  let s := resetClaim s c b.claim
  let s := modCore s c fun k => { k with slots := Table.set k.slots sl b }
  dropClean ((upFrom c span).foldl (fun s x => modCore s x fun k => { k with reserved := some (c, sl) }) s) (.blk c sl)

/-- A spatial block's cores enter fabric mode (R18). -/
def enterFabric (s : State) (c sl : Nat) : State :=
  { s with cores := s.cores.map fun e => if e.2.reserved == some (c, sl) then (e.1, { e.2 with fabricOf := some (c, sl) }) else e }

/-- Notes the column a block's group has chosen (R43). -/
def noteGroup (la : Launch) (bidx c : Nat) : Launch :=
  if la.lpb.cgb == 0 then la else
  let g := bidx / la.lpb.cgb.toNat
  if (Table.get? la.groups g).isSome then la else { la with groups := Table.set la.groups g (columnOfCore c) }

/-- One block of a launch is placed on a core it fits, of those that `ok` admits; none if it cannot be. -/
def placeAt (s : State) (n bidx c sl : Nat) (ok : Nat → Bool) : Option State :=
  match launchOf s n with
  | none => none
  | some la => match s.objects[la.obj]? with
    | none => none
    | some o =>
      let nd := needOf o la.lpb
      if !(coresFor s la bidx nd ok).contains c || sl ≥ 8 || (blockOf s c sl).isSome then none else
      (takeStaging s la.part la.lpb.det).map fun s =>
        let b := newBlock s n la o bidx
        let s := seat s c sl nd.span b
        let s := if b.exec.model == .spatial then enterFabric s c sl else s
        let s := modBlock s c sl fun b => b.modMem fun m => { m with snap := some (takeSnapshot s c b 0) }
        takeWindow (modLaunch s n fun l => noteGroup l bidx c) c sl

/-- Whether block `bidx` of a launch is twinned (R462). -/
def isTwinned (s : State) (la : Launch) (bidx : Nat) : Bool :=
  la.lpb.det == 2 && bidx % 2 ^ ((partOf s la.part).map (·.twinK)).getD 3 == 0

/-- A core for a second copy: in a different column when the block may stand in several, else another core (R462). -/
def twinCore (cols l : List Nat) (c : Nat) : Option Nat :=
  l.find? fun x => if cols.length > 1 then columnOfCore x != columnOfCore c else x != c

/-- One block is placed, with its second copy if it is twinned. -/
def placeBoth (s : State) (n bidx c sl : Nat) (ok : Nat → Bool) : Option State :=
  match placeAt s n bidx c sl ok, launchOf s n with
  | some s1, some la =>
    if !isTwinned s la bidx then some s1 else
    match ((s.objects[la.obj]?).bind fun o => (launchOf s1 n).bind fun l1 =>
        twinCore (allowedCols l1 bidx) (coresFor s1 l1 bidx (needOf o la.lpb) ok) c) with
    | none => none
    | some c2 => match freeSlot (coreOf s1 c2) with
      | none => none
      | some sl2 => (placeAt s1 n bidx c2 sl2 ok).map fun s =>
        modBlock (modBlock s c sl fun b => { b with twin := some (c2, sl2) }) c2 sl2 fun b => { b with twin := some (c, sl) }
  | _, _ => none

/-- The lowest core and slot a block fits. -/
def lowestPlace (s : State) (n bidx : Nat) (ok : Nat → Bool) : Option (Nat × Nat) :=
  match launchOf s n with
  | none => none
  | some la => match s.objects[la.obj]? with
    | none => none
    | some o => (coresFor s la bidx (needOf o la.lpb) ok).findSome? fun c => (freeSlot (coreOf s c)).map fun sl => (c, sl)

/-- Blocks `bidx` and after of a launch are placed at the lowest places (R44). -/
def placeRest (n : Nat) (ok : Nat → Bool) : Nat → Nat → State → Option State
  | 0, _, s => some s
  | f + 1, bidx, s => match lowestPlace s n bidx ok with
    | none => none
    | some (c, sl) => (placeBoth s n bidx c sl ok).bind fun s => placeRest n ok f (bidx + 1) s

/-- The next block of a launch, or all blocks of a cooperative one, with the first at a given core (R39, R44), every one on
cores that `ok` admits. The wait of the launch's next block counts from this placement (DESIGN CHOICE, unsafe:
notes/assumptions/66.md). -/
def placeNext (s : State) (n c sl : Nat) (ok : Nat → Bool := fun _ => true) : Option State :=
  match launchOf s n with
  | none => none
  | some la =>
    if la.next ≥ la.lpb.nblk.toNat || la.status.isSome || la.fault.isSome then none else
    (placeBoth s n la.next c sl ok).bind fun s1 =>
      let left := if la.lpb.coop then la.lpb.nblk.toNat - la.next - 1 else 0
      (placeRest n ok left (la.next + 1) s1).map fun s2 =>
        modLaunch s2 n fun l => { l with next := l.next + 1 + left, waitSince := s.cycle }

/-! ## Saved blocks (R344, R430, R346) -/

def savedNeed (s : State) (r : Saved) : Need :=
  let span := ((launchOf s r.launch).bind fun la => (s.objects[la.obj]?).map fun o => spanNeeded o la.lpb).getD 0
  { r.blk.need with rows := gangsOf r.blk.nthr * 256 * r.budget, span }

/-- The cores a saved block fits: with the budgets it held at its save, not the core it left in a GROW deadlock, a
spatial block where its elements keep their addresses (R355). -/
def coresForSaved (s : State) (r : Saved) : List Nat :=
  match launchOf s r.launch with
  | none => []
  | some la => (coresFor s la r.bidx (savedNeed s r)).filter fun c => r.leftCore != some c && (r.blk.exec.model != .spatial || posOfCore c == r.blk.kept.pos)

/-- A saved block may be placed: its page has arrived; its cooperative launch has no other block resident (R44, R388). -/
def savedReady (s : State) (p : Partition) (r : Saved) : Bool :=
  let mates := p.resume.filter fun x => x.launch == r.launch
  r.page.isNone && (!r.blk.coop || (mates.all (·.page.isNone) && !s.cores.any fun e => e.2.slots.any fun x => x.2.launch == r.launch && x.2.phase != .finished))

/-- A saved block takes a slot for its restore: RESUME is set, SVARG holds its area (R430). -/
def seatSaved (s : State) (r : Saved) (c sl : Nat) : Option State :=
  if !(coresForSaved s r).contains c || sl ≥ 8 || (blockOf s c sl).isSome then none else
  (takeStaging s r.blk.part r.blk.det).map fun s =>
    let nd := savedNeed s r
    let b := { r.blk with phase := .restore, want := { epRest := r.blk.want.epRest }, svarg := BitVec.ofNat 57 r.area, placedAt := s.cycle, lastEp := s.cycle
                          fromResume := some s.cycle, twin := none }
    let b := b.modMem fun m => { m with budget := r.budget, rowBytes := nd.rows, rows := [], rowPoison := [], preds := [], loc := [], locPoison := [] }
    let s := seat s c sl nd.span b
    let s := modPart s b.part fun q => { q with resume := q.resume.filter fun x => x != r }
    setSvevt (modLaunch s r.launch fun l => noteGroup l r.bidx c) c sl 2 true

/-- The lowest place of a saved block. -/
def lowestForSaved (s : State) (r : Saved) : Option (Nat × Nat) :=
  (coresForSaved s r).findSome? fun c => (freeSlot (coreOf s c)).map fun sl => (c, sl)

/-- A saved block and the other copy of it, if it is twinned (R462). -/
def seatBoth (s : State) (r : Saved) (c sl : Nat) : Option State :=
  match seatSaved s r c sl with
  | none => none
  | some s1 =>
    if r.blk.twin.isNone then some s1 else
    match (partOf s1 r.blk.part).bind fun q => q.resume.find? fun x => x.launch == r.launch && x.bidx == r.bidx with
    | none => none
    | some r2 => match twinCore (((launchOf s1 r.launch).map fun la => allowedCols la r.bidx).getD []) (coresForSaved s1 r2) c with
      | none => none
      | some c2 => match freeSlot (coreOf s1 c2) with
        | none => none
        | some sl2 => (seatSaved s1 r2 c2 sl2).map fun s =>
          modBlock (modBlock s c sl fun b => { b with twin := some (c2, sl2) }) c2 sl2 fun b => { b with twin := some (c, sl) }

/-- Saved blocks of a cooperative launch are placed again together (R44). -/
def seatRest (p launch : Nat) : Nat → State → Option State
  | 0, s => some s
  | f + 1, s => match (partOf s p).bind fun q => q.resume.find? fun x => x.launch == launch with
    | none => some s
    | some r => match lowestForSaved s r with
      | none => none
      | some (c, sl) => (seatBoth s r c sl).bind fun s => seatRest p launch f s
def seatAll (s : State) (r : Saved) (c sl : Nat) : Option State :=
  (seatBoth s r c sl).bind fun s1 => if r.blk.coop then
    seatRest r.blk.part r.launch (((partOf s r.blk.part).map (·.resume.length)).getD 0) s1 else some s1

/-! ## The order of service (R39, R40, R344) -/

/-- Acceptance order of launches: cycle, path, submitting core (R38). -/
def launchKey (n : Nat) (la : Launch) : Nat := (la.at_ * 2 ^ 16 + la.via) * 2 ^ 64 + n
def waiting (la : Launch) : Bool := la.next < la.lpb.nblk.toNat && la.status.isNone && la.fault.isNone
/-- The saved block has waited longer than the resume deadline (R344). -/
def overdue (s : State) (p : Partition) (r : Saved) : Bool := r.at_ + usCycles p.resumeUs < s.cycle

/-- A waiting block may take a core now: no older or higher one fits it, and no level's oldest block has waited past the
placement deadline for it. -/
def mayPlaceOn (s : State) (n : Nat) (la : Launch) (c : Nat) : Bool :=
  match partOf s la.part with
  | none => false
  | some p =>
    let mine := launchKey n la
    let others := s.launches.filter fun e => e.1 != n && e.2.part == la.part && waiting e.2
    let before := others.filter fun e => e.2.lpb.level > la.lpb.level || (e.2.lpb.level == la.lpb.level && launchKey e.1 e.2 < mine)
    let fits := fun (e : Nat × Launch) => ((freeSlot (coreOf s c)).bind fun sl => placeNext s e.1 c sl).isSome
    let saved := p.resume.filter fun r => savedReady s p r && (overdue s p r || r.prio ≥ la.lpb.level)
    let back := fun (r : Saved) => ((freeSlot (coreOf s c)).bind fun sl => seatAll s r c sl).isSome
    let late := others.filter fun e => e.2.lpb.level ≥ la.lpb.level && e.2.waitSince + usCycles p.placement < s.cycle && launchKey e.1 e.2 < mine &&
      (selected e.2.lpb).contains (columnOfCore c) &&
      !others.any fun f => f.2.lpb.level == e.2.lpb.level && launchKey f.1 f.2 < launchKey e.1 e.2
    !quiescedPart s la.part && !before.any fits && !saved.any back && late.isEmpty

/-- BLOCK_PLACEMENT: the next block of a launch is placed on a core; a mate of a cooperative launch and a second copy go
only where the launch may place (R39, R40). -/
def execBlockPlacement (launch core slot : Nat) (s : State) : Host.Outcome State Fault Refusal :=
  .next (match launchOf s launch with
    | none => s
    | some la => (placeNext s launch core slot (mayPlaceOn s launch la)).getD s)

/-- RESTORE_PLACEMENT: a saved block, the entry-th of its partition's resume queue, is placed for restore: one past the
resume deadline before every other, oldest first, else by level and age (R344). -/
def execRestorePlacement (part entry core slot : Nat) (s : State) : Host.Outcome State Fault Refusal :=
  .next (match (partOf s part).bind fun p => (p.resume[entry]?).map fun r => (p, r) with
    | none => s
    | some (p, r) =>
      let ahead := p.resume.any fun x => x != r && savedReady s p x && (coresForSaved s x).contains core &&
        (if overdue s p r then overdue s p x && x.at_ < r.at_
         else overdue s p x || x.prio > r.prio || (x.prio == r.prio && x.at_ < r.at_))
      let above := s.launches.any fun e => e.2.part == part && waiting e.2 && e.2.lpb.level > r.prio &&
        ((freeSlot (coreOf s core)).bind fun sl => placeNext s e.1 core sl).isSome
      if quiescedPart s part || !savedReady s p r || ahead || (above && !overdue s p r) then s
      else (seatAll s r core slot).getD s)

/-! ## Retirement (R52, R53) -/

/-- Everything of a finished block has performed at device scope (R52 step 1). -/
def doneMoving (s : State) (c sl : Nat) : Bool :=
  let id := CtxId.blk c sl
  earlierDone s id 3 && !(s.pending.any fun p => p.ctx == id) && !(s.outside.any fun o => o.ctx == id) && (mqOf s c sl).isEmpty &&
    !((coreOf s c).tfq.any fun f => f.slot == sl) && (copyRecs s c sl).isEmpty

/-- The block has retired: its totals join the launch's, its resources are free. None: a write-back must wait. -/
def retire (s : State) (c sl : Nat) : Option State :=
  match blockOf s c sl with
  | none => some s
  | some b =>
    let s := flushBlock s c sl
    let total := ((blockOf s c sl).map (·.charges.total.toNat)).getD 0
    (releaseBlock s c sl).map fun s =>
    let s := coreStirred (clearSvevt (freeStaging s b) c sl) c
    let bidx := b.regs.bidx.toNat
    let s := modLaunch s b.launch fun l =>
      let above := if bidx < l.low || l.retiredAbove.contains bidx then l.retiredAbove else bidx :: l.retiredAbove
      let low := (List.range (above.length + 1)).foldl (fun n _ => if above.contains n then n + 1 else n) l.low
      { l with energy := l.energy + total, hops := l.hops + b.meter 11
               retired := if bidx < l.low || l.retiredAbove.contains bidx then l.retired else l.retired + 1
               low, retiredAbove := above.filter fun n => n ≥ low }
    s

/-- The launch completes when its last block has retired; an aborted one when none is left (R53, R55). -/
def completeIfLast (s : State) (n : Nat) : State :=
  match launchOf s n with
  | some l =>
    if l.fault.isSome then settleAbort s n
    else if l.retired == l.lpb.nblk.toNat && l.status.isNone then finishLaunch s n 1 else s
  | none => s

/-- Whether an abort of its launch has taken a block (R55). -/
def abortTook (s : State) (b : Block) : Bool :=
  ((launchOf s b.launch).bind fun l => l.fault.map fun f => l.lpb.det == 0 || f.blk ≤ b.regs.bidx.toNat).getD false

/-- BLOCK_RETIREMENT: a finished block retires once its accesses and copies have performed and, in an ordered launch, its
last ticket is granted (R52, R55, R351); a twinned block with both its copies, whose records are compared (R462). -/
def execBlockRetirement (core slot : Nat) (s : State) : Host.Outcome State Fault Refusal :=
  .next (match blockOf s core slot with
    | none => s
    | some b =>
      if b.phase != .finished then s
      else if abortTook s b then settleAbort (loseBlock s core slot) b.launch else
      let s := drainPath s (.blk core slot)
      match blockOf s core slot with
      | none => s
      | some b =>
        if !doneMoving s core slot || !b.traps.isEmpty then s
        else if b.det == 0 then ((retire s core slot).map fun s => completeIfLast s b.launch).getD s
        else if !ticketFree s b then s
        else match b.twin with
          | none => ((retire (releaseStaged s core slot) core slot).map fun s => completeIfLast s b.launch).getD s
          | some t => match blockOf s t.1 t.2 with
            | none => s
            | some x =>
              if x.phase != .finished || !doneMoving s t.1 t.2 || !x.traps.isEmpty || x.stage.tk != b.stage.tk then s
              else match stagedDiffer b.stage.staged x.stage.staged with
                | some a => twinMismatch s core slot a
                | none =>
                  let s := releaseStaged s core slot
                  let s := modBlock s t.1 t.2 fun b => b.modStage fun g => { g with staged := [] }
                  (((retire s t.1 t.2).bind fun s => retire s core slot).map fun s => completeIfLast s b.launch).getD s)

/-! ## Pre-emption requests (R57, R345, R346) -/

/-- All unexited threads of the block are spinners (R57, R317). -/
def isSpinner (b : Block) : Bool := !b.streams.isEmpty && b.streams.all fun t => b.waitOf t == 3 || b.waitOf t == 9

/-- The request reaches a block; of a cooperative launch every block, of a twinned block both copies (R44, R462). -/
def askPreempt (s : State) (c sl : Nat) : State :=
  match blockOf s c sl with
  | none => s
  | some b =>
    let ask := fun (s : State) (c sl : Nat) => modBlock s c sl fun b =>
      if b.want.preempt then b else { b with want := { b.want with preempt := true, since := s.cycle } }
    if b.coop then s.cores.foldl (fun s e => e.2.slots.foldl (fun s x => if x.2.launch == b.launch then ask s e.1 x.1 else s) s) s
    else
      let s := ask s c sl
      match b.twin with
      | some t => ask s t.1 t.2
      | none => s

/-- The blocks of a partition on some columns that a request may reach, with their places. -/
def movable (s : State) (p : Nat) (cols : List Nat) : List (Nat × Nat × Block) :=
  s.cores.flatMap fun e => if !cols.contains (columnOfCore e.1) then [] else
    (e.2.slots.filter fun x => x.2.part == p && x.2.phase != .finished && x.2.phase != .restore).map fun x => (e.1, x.1, x.2)

/-- One candidate is pre-empted, unless a request of these columns is under way (R345): spinners first, then with `levels`
the lowest level, then the longest run since the last EP or placement, then the lower core and slot. -/
def preemptOne (s : State) (p : Nat) (cols : List Nat) (below : Option Nat) : State :=
  let l := movable s p cols
  if l.any fun x => x.2.2.want.preempt then s else
  let recent := fun (b : Block) => match b.fromResume, partOf s p with
    | some t, some q => s.cycle < t + usCycles q.resumeUs
    | _, _ => false
  let l := l.filter fun x => !recent x.2.2 && match below with
    | some k => x.2.2.prio < k
    | none => true
  let l := sortBy (fun (x : Nat × Nat × Block) => x.2.2.lastEp) l
  let l := if below.isSome then sortBy (fun (x : Nat × Nat × Block) => x.2.2.prio) l else l
  match sortBy (fun (x : Nat × Nat × Block) => if isSpinner x.2.2 then 0 else 1) l with
  | x :: _ => askPreempt s x.1 x.2.1
  | [] => s

/-- PLACEMENT_DEADLINE: the oldest waiting block of its level has waited past the placement deadline and fits no free
core (R40, R345). -/
def execPlacementDeadline (launch : Nat) (s : State) : Host.Outcome State Fault Refusal :=
  .next (match launchOf s launch with
    | none => s
    | some la => match partOf s la.part with
      | none => s
      | some p =>
        let oldest := !s.launches.any fun e => e.1 != launch && e.2.part == la.part && waiting e.2 && e.2.lpb.level == la.lpb.level &&
          launchKey e.1 e.2 < launchKey launch la
        let fits := (lowestPlace s launch la.next fun _ => true).isSome
        if !waiting la || !oldest || fits || s.cycle ≤ la.waitSince + usCycles p.placement then s
        else preemptOne s la.part (allowedCols la la.next) (some la.lpb.level))

/-- RESUME_DEADLINE: the oldest saved block past the resume deadline fits no free core (R344, R345). -/
def execResumeDeadline (part : Nat) (s : State) : Host.Outcome State Fault Refusal :=
  .next (match partOf s part with
    | none => s
    | some p =>
      let l := sortBy (fun (r : Saved) => r.at_) (p.resume.filter fun r => overdue s p r && savedReady s p r && (coresForSaved s r).isEmpty)
      match l with
      | [] => s
      | r :: _ => match launchOf s r.launch with
        | none => s
        | some la => preemptOne s part (allowedCols la r.bidx) none)

/-- GROW_DEADLOCK: every resident block of the core waits in GROW and none can be granted: the youngest by placement is
to be saved (R346). -/
def execGrowDeadlock (core : Nat) (s : State) : Host.Outcome State Fault Refusal :=
  .next (
    let l := (coreOf s core).slots
    let grants := fun (b : Block) => match b.exec.grow with
      | some (_, n) => decide (rowsUsed s core - b.mem.rowBytes + gangsOf b.nthr * 256 * n ≤ 524288)
      | none => false
    if l.isEmpty || !(l.all fun e => e.2.exec.grow.isSome && !grants e.2) || l.any (fun e => e.2.want.preempt) then s
    else match sortBy (fun (e : Nat × Block) => 2 ^ 64 - e.2.placedAt) l with
      | e :: _ => askPreempt s core e.1
      | [] => s)

end Sys2Proof.Machine
end

