-- ==== Sys2Proof/Machine/Queue.lean ====
section
/-! DEFINITION. LAUNCH, ARM and SEND (R333 to R341), messages (R339, R341, R442, R443, R458), the submission rings (R342,
R439).
Where the spec leaves a point open: notes/assumptions, entries 29, 36, 38, 44, 65. -/

namespace Sys2Proof.Machine

/-! ## The common course (R335) -/

def submitDec (cx : Cx) (o : ROp) : Dec :=
  let imm := o.p.srcA == 127
  { valid := everywhere, p := o.p, len := if imm then 2 else 1, ok := o.p.srcB == 0, imm := if imm then some o.imm else none
    srcs := [{ n := o.p.srcA.toNat, rc := cx.rcScalar true, wide := true }], dst := .reg (cx.rcScalar false) }

/-- The structure at each lane's address, read at its home slice. -/
def Cx.readWhole (cx : Cx) (s : State) (n : Nat) (good : List (Acc × List Piece)) : State × List (Acc × List Byte × Bool) :=
  good.foldl (fun (x : State × List (Acc × List Byte × Bool)) (a, qs) =>
    let pa := ((qs.head?).map (·.pa)).getD 0
    let (s, bs, bad) := if isPackage pa then loadBytes x.1 cx.id pa n true 1
      else
        let (s, bs) := outsideBytes x.1 n
        (s, bs, false)
    (s, x.2 ++ [(a, bs, bad)])) (s, [])

/-- Whether a stream of the instruction still waits at it. -/
def Cx.waitsHere (cx : Cx) (s : State) : Bool :=
  ((cx.blk s).map fun b => cx.acts.any fun t => b.pcOf t == cx.pc && b.waitOf t != 0).getD false

/-- Lanes whose data is poisoned raise MEMORY_ERROR. -/
def Cx.raisePoison (cx : Cx) (s : State) (d : Dec) (l : List Acc) : State :=
  match l with
  | [] => s
  | a :: _ => cx.raise s d.srcs { cause := 24, addr := wrapNat 64 a.ea, lanes := if cx.isT then l.map (·.lane) else [] } (cx.whoOf (l.map (·.lane)))

/-- The course of LAUNCH, ARM and SEND: `also` is the address of a second structure that a lane's first one names, `act`
submits one lane's structures. -/
def Cx.submit (cx : Cx) (s : State) (o : ROp) (size : Nat) (also : List Byte → Option Nat)
    (act : State → List Byte → List Byte → State × Nat) : State :=
  let d := submitDec cx o
  cx.start s d fun s rs =>
    let lanes := rs.map (·.1)
    if rs.isEmpty then s
    else if cx.sealed s then cx.raise s d.srcs { cause := 17 } (cx.whoOf lanes)
    else
      let accs := rs.map fun r => ({ sp := .glob, lane := r.1, ea := (aOf r.2 : Nat) } : Acc)
      cx.access s d size 0 accs fun s good =>
        if good.isEmpty then s else
        let s := drainPath s cx.id
        if !earlierDone s cx.id 3 then cx.wait s cx.acts 1 else
        let ops := good.flatMap fun x => [x.1.lane, x.1.ea.toNat]
        let res := fun (s : State) (l : List (Nat × Nat)) => cx.result s d cx.scalarCls (cx.scalarCls == .s) l
        let submitAll := fun (s : State) (l : List (Acc × List Byte × List Byte)) =>
          let (s, codes) := l.foldl (fun (x : State × List (Nat × Nat)) (a, bs, more) =>
            let (s, c) := act x.1 bs more
            (s, x.2 ++ [(a.lane, c)])) (cx.dropTicket s, [])
          let s := cx.twinKeep s ops none (some (codes.map fun c => (c.1, valBytes 4 c.2, false)))
          res s codes
        let go := fun (s : State) =>
          let (s, rd) := cx.readWhole s size good
          let bad := (rd.filter fun r => r.2.2).map (·.1)
          let ok := rd.filter fun r => !r.2.2
          if !bad.isEmpty && !cx.isT then cx.raisePoison s d bad else
          let plain := (ok.filter fun r => (also r.2.1).isNone).map fun r => (r.1, r.2.1, ([] : List Byte))
          let more := ok.filterMap fun r => (also r.2.1).map fun a => ({ r.1 with ea := (a : Nat) } : Acc)
          let s := if more.isEmpty then submitAll s plain
            else cx.access s d 128 0 more fun s good2 =>
              let (s, rd2) := cx.readWhole s 128 good2
              let bad2 := (rd2.filter fun r => r.2.2).map (·.1)
              if !bad2.isEmpty && !cx.isT then cx.raisePoison s d bad2 else
              let both := rd2.filterMap fun r => if r.2.2 then none else (ok.find? fun x => x.1.lane == r.1.lane).map fun x => (x.1, x.2.1, r.2.1)
              let s := submitAll s (sortBy (fun (x : Acc × List Byte × List Byte) => x.1.lane) (plain ++ both))
              cx.raisePoison s d bad2
          let s := if cx.waitsHere s then s else cx.dropTicket s
          cx.raisePoison s d bad
        if cx.det s == 0 then go s else cx.holdTicket s fun s =>
          match cx.twinRole s ops with
          | .own => go s
          | .wait => cx.wait s cx.acts 10
          | .differ => cx.twinDiffers s
          | .got v => res (cx.dropTicket (cx.twinTaken s)) (v.map fun x => (x.1, bytesVal x.2.1))

/-! ## LAUNCH (R336) -/

/-- By what a LAUNCH comes, as R38 orders launches of one cycle: its path in R37's table and the number of its core. A system
core's is that of a queue entry while its partition has one handed out (DEDUCED, unsafe: notes/assumptions/65.md). -/
def Cx.launchVia (cx : Cx) (s : State) (part : Nat) : Nat :=
  match cx.id with
  | .sys n => (if s.iod.funcs.any fun f => f.2.part == some part && f.2.handed then 1024 else 0) + 192 + n
  | id => (coreOfCtx id).getD 0

def execLaunch (o : ROp) (s : State) : Host.Outcome State Fault Refusal :=
  withCx s fun cx => cx.submit s o 128 (fun _ => none) fun s bs _ =>
    let (asid, part) := spaceOf s cx.id
    acceptLaunch s part asid bs 0 none (cx.launchVia s part)

/-! ## ARM (R337, R338) -/

/-- The entry of a partition, or of any, that holds a tag. -/
def armedBy (s : State) (tag : Nat) (part : Option Nat) : Option (Nat × Armed) :=
  s.iod.armed.find? fun e => e.2.tag.toNat == tag && match part with
    | some p => e.2.part == p
    | none => true

def armDisarm (bs : List Byte) : Bool := bit (field bs 0x1E 2) 1

/-- ARM of one record (R338). -/
def armOne (s : State) (asid : W16) (part : Nat) (bs lpb : List Byte) : State × Nat :=
  let tag := field bs 0 8
  if armDisarm bs then match armedBy s tag (some part) with
    | some (i, _) => (modIod s fun d => { d with armed := Table.erase d.armed i }, 1)
    | none => (s, 5)
  else
  let bufb := field bs 0x10 8
  let bufs := field bs 0x18 4
  let nslot := field bs 0x1C 2
  let ok := field bs 0x20 32 == 0 && bits (field bs 0x1E 2) 15 2 == 0 && tag != 0 && bufb % 128 == 0 && bufs % 128 == 0 && 128 ≤ bufs &&
    bufs ≤ 1048576 && 1 ≤ nslot && nslot ≤ 4096 && bufb + bufs * nslot ≤ 2 ^ 57 && (rejection s part asid (lpbOf lpb)).isNone
  if !ok then (s, 3)
  else if (armedBy s tag none).isSome then (s, 4)
  else
    let held := (s.iod.armed.filter fun e => e.2.part == part).length
    match (List.range 4096).find? fun i => (Table.get? s.iod.armed i).isNone with
    | none => (s, 2)
    | some i =>
      if held ≥ ((partOf s part).map (·.quota)).getD 0 then (s, 2) else
      let e : Armed := { tag := BitVec.ofNat 64 tag, bufb, bufs, nslot, oneshot := bit (field bs 0x1E 2) 0, arrn := 0, part, asid, lpb }
      (modIod s fun d => { d with armed := Table.set d.armed i e }, i * 65536)

def execArm (o : ROp) (s : State) : Host.Outcome State Fault Refusal :=
  withCx s fun cx => cx.submit s o 64 (fun bs => if armDisarm bs then none else some (field bs 8 8)) fun s bs lpb =>
    let (asid, part) := spaceOf s cx.id
    armOne s asid part bs lpb

/-! ## SEND (R340, R341) -/

/-- Payload bytes queued at a port. -/
def queuedBytes (s : State) (port : Nat) : Nat :=
  (s.iod.parts.flatMap fun e => (e.2.sendq.filter fun m => m.port == port).map (·.len)).sum

def sendOne (s : State) (id : CtxId) (asid : W16) (part : Nat) (bs : List Byte) : State × Nat :=
  let tag := field bs 0 8
  let pay := field bs 8 8
  let len := field bs 0x10 4
  let port := field bs 0x14 1
  let done := field bs 0x28 8
  let ok := tag != 0 && pay % 8 == 0 && len ≤ 8192 && port ≤ 2 && field bs 0x15 3 == 0 && done % 8 == 0 && field bs 0x30 16 == 0 &&
    pay + len ≤ 2 ^ 57 && done + 8 ≤ 2 ^ 57
  if !ok then (s, 3) else
  match partOf s part with
  | none => (s, 3)
  | some p =>
    if p.sendq.length ≥ 256 then (s, 2) else
    let port := if port == 2 then (if queuedBytes s 1 < queuedBytes s 0 then 1 else 0) else port
    let acct := match id with
      | .blk c sl => (blockOf s c sl).map fun b => b.regs.acct.toNat
      | _ => none
    let m : Msg := { port, dst := BitVec.ofNat 128 (beVal ((bs.drop 0x18).take 16)), tag := BitVec.ofNat 64 tag, payload := [], asid, pay, len, done, acct }
    (modPart s part fun q => { q with sendq := q.sendq ++ [m] }, 0)

def execSend (o : ROp) (s : State) : Host.Outcome State Fault Refusal :=
  withCx s fun cx => cx.submit s o 64 (fun _ => none) fun s bs _ =>
    let (asid, part) := spaceOf s cx.id
    sendOne s cx.id asid part bs

/-! ## The IOD's own accesses -/

/-- Translates every page of a range, or gives the status of the first that fails and the size an absent one covers. -/
def netPages (s : State) (asid : W16) (part kind : Nat) : Nat → Nat → Nat → State × Except (Nat × Nat × Nat) (List (Nat × Nat))
  | 0, _, _ => (s, .ok [])
  | f + 1, va, n =>
    if n = 0 then (s, .ok []) else
    let k := min n (4096 - va % 4096)
    match walkNow s (.sys 0) asid part va kind with
    | (s, .error (w, z)) => (s, .error (w, z, va))
    | (s, .ok pa) => match netPages s asid part kind f (va + k) (n - k) with
      | (s, .error e) => (s, .error e)
      | (s, .ok l) => (s, .ok ((pa, k) :: l))

/-- A write of the IOD to virtual memory, all of it or none. -/
def netWrite (s : State) (asid : W16) (part va : Nat) (bs : List Byte) : State × Option (Nat × Nat × Nat) :=
  match netPages s asid part 1 (bs.length / 4096 + 2) va bs.length with
  | (s, .error e) => (s, some e)
  | (s, .ok l) => ((l.foldl (fun (x : State × List Byte) (pa, k) => (deviceWrite x.1 part pa (x.2.take k), x.2.drop k)) (s, bs)).1, none)

/-! ## Messages that arrive (R339, R458) -/

/-- The running system cores of a partition log an event that reaches them (R416, R417). -/
def logAll (s : State) (p kind val addr : Nat) : State :=
  (sysCoresOf s p).foldl (fun s n => if (sysOf s n).ctl.halted then s else (replayLog s n kind val addr).1) s

/-- An unmatched message goes to the partition's ring, or is dropped and reported (R458). -/
def unmatched (s : State) (p : Nat) (m : Msg) (reason : Nat) : State :=
  match partOf s p with
  | none => s
  | some q =>
    let report := fun (s : State) (slot r : Nat) =>
      postEvent s p 3 (valBytes 8 slot ++ valBytes 8 m.tag.toNat ++ valBytes 4 m.payload.length ++ [BitVec.ofNat 8 r, BitVec.ofNat 8 m.port])
    if q.umCount == 0 || q.umBusy.contains q.umNext then report s 0 2 else
    let slot := q.umBase + 8320 * q.umNext
    let s := deviceWrite s p slot (valBytes 8 m.tag.toNat ++ valBytes 4 m.payload.length ++ List.replicate 4 0#8 ++ m.payload)
    let s := modPart s p fun q => { q with umNext := (q.umNext + 1) % q.umCount, umBusy := q.umNext :: q.umBusy }
    let (n, s) := freeWord s
    report (logAll s p 1 (m.payload.length + n.toNat * 2 ^ 32) slot) slot reason

/-- What becomes of a message now: no partition, unmatched for a reason, held, or taken by an entry. -/
inductive Arrival
  | drop
  | loose (part reason : Nat)
  | hold (part : Nat)
  | take (entry : Nat) (e : Armed)
  deriving DecidableEq, Repr

/-- Whether an entry's slot is busy: the launch of its previous arrival has not completed (R339, R398). -/
def slotBusy (s : State) (i slot : Nat) : Bool := s.launches.any fun l => l.2.armed == some (i, slot)

/-- Match and Slot of R339; `first` that no held message of the entry stands before it. -/
def arrivalOf (s : State) (m : Msg) (first : Bool) : Arrival :=
  match armedBy s m.tag.toNat none with
  | none => match s.iod.parts.find? fun e => e.2.ip == m.dst with
    | some e => .loose e.1 0
    | none => .drop
  | some (i, e) =>
    if m.payload.length + 8 > e.bufs then .loose e.part 1
    else if !first || slotBusy s i (e.arrn.toNat % e.nslot) || launchFull s e.part (lpbOf e.lpb) || quiescedPart s e.part then .hold e.part
    else .take i e

/-- Write and Accept of R339. A page that is absent holds the message; another failure of the write drops it, with an MSG
record (DEDUCED, unsafe: notes/assumptions/36.md). The flag says that the message is done with. -/
def takeArrival (s : State) (m : Msg) (i : Nat) (e : Armed) : State × Bool :=
  let slot := e.arrn.toNat % e.nslot
  let at_ := e.bufb + slot * e.bufs
  match netWrite s e.asid e.part at_ (valBytes 4 m.payload.length ++ valBytes 4 e.arrn.toNat ++ m.payload) with
  | (s, some (4, size, va)) => (requestPage s e.asid e.part va 1 1 0xFFFF size, false)
  | (s, some (7, _)) => (s, false)
  | (s, some _) => (postEvent s e.part 3 (valBytes 8 0 ++ valBytes 8 m.tag.toNat ++ valBytes 4 m.payload.length ++ [2#8, BitVec.ofNat 8 m.port]), true)
  | (s, none) =>
    let acct := (lpbOf e.lpb).acct.toNat
    let s := if acct ≤ 1023 then chargeAcct s acct 10 (m.payload.length + 8) else s
    let s := logAll s e.part 1 (m.payload.length + e.arrn.toNat * 2 ^ 32) at_
    let (s, _) := acceptLaunch s e.part e.asid e.lpb (BitVec.ofNat 57 (at_ + 8)) (some (i, slot)) 2048
    (modIod s fun d => { d with armed := if e.oneshot then Table.erase d.armed i else Table.set d.armed i { e with arrn := e.arrn + 1 } }, true)

/-- A message joins the held ones; the 256th pauses the port's traffic (R339). -/
def holdMsg (s : State) (p : Nat) (m : Msg) : State :=
  let s := modPart s p fun q => { q with held := q.held ++ [m] }
  if ((partOf s p).map (·.held.length)).getD 0 ≥ 256 then
    emit (modIod s fun i => { i with eth := Table.set i.eth m.port { Table.getD i.eth m.port {} with paused := true } }) (.pause m.port p true)
  else s

/-- MESSAGE_ARRIVAL: a tagged datagram at an Ethernet port whose link is up and not paused. -/
def execMessageArrival (port : Nat) (dst : BitVec 128) (tag : W64) (payload : List Byte) (s : State) : Host.Outcome State Fault Refusal :=
  .next (
    let e := Table.getD s.iod.eth port {}
    let m : Msg := { port, dst, tag, payload }
    let first := match armedBy s tag.toNat none with
      | some (_, a) => !((partOf s a.part).map fun q => q.held.any fun h => h.tag == tag).getD false
      | none => true
    if port > 1 || !e.up || e.paused || payload.length > 8192 then s else
    match arrivalOf s m first with
    | .drop => s
    | .loose p r => unmatched s p m r
    | .hold p => holdMsg s p m
    | .take i a =>
      let (s, done) := takeArrival s m i a
      if done then s else holdMsg s a.part m)

/-- HELD_MESSAGE_RELEASE: the entry-th held message of a partition goes on, in arrival order within its entry. -/
def execHeldMessageRelease (part entry : Nat) (s : State) : Host.Outcome State Fault Refusal :=
  .next (match (partOf s part).bind fun q => (q.held[entry]?).map fun m => (q, m) with
    | none => s
    | some (q, m) =>
      let first := !(q.held.take entry).any fun h => h.tag == m.tag
      let out := fun (s : State) =>
        let s := modPart s part fun q => { q with held := q.held.eraseIdx entry }
        if q.held.length ≥ 256 then
          emit (modIod s fun i => { i with eth := i.eth.map fun e => (e.1, { e.2 with paused := false }) }) (.pause m.port part false)
        else s
      match arrivalOf s m first with
      | .drop => out s
      | .loose _ r => out (unmatched s part m r)
      | .hold _ => s
      | .take i a =>
        let (s, done) := takeArrival s m i a
        if done then out s else s)

/-! ## Messages that leave (R341, R443) -/

/-- The completion word of a SEND (R341); a write that fails is dropped. None: it must wait. -/
def writeDone (s : State) (p : Nat) (m : Msg) (code : Nat) : Option State :=
  if m.done == 0 then some s else
  match walkNow s (.sys 0) m.asid p m.done 1 with
  | (s, .ok pa) => if unserved s pa then none else some (deviceWrite s p pa (valBytes 8 code))
  | (_, .error (7, _)) => none
  | (s, .error _) => some s

def popSend (s : State) (p : Nat) : State := modPart s p fun q => { q with sendq := q.sendq.drop 1 }

/-- Next hop of a datagram (R443): on-link, or the default router. -/
def nextHop (q : Partition) (dst : BitVec 128) : BitVec 128 :=
  if q.ip >>> (128 - min q.plen 128) == dst >>> (128 - min q.plen 128) then dst else q.router

/-- MESSAGE_DEPARTURE: the first descriptor of a partition's send queue. Its next hop is resolved, its payload read, the
datagram leaves, DONE is written. -/
def execMessageDeparture (part : Nat) (s : State) : Host.Outcome State Fault Refusal :=
  .next (match (partOf s part).bind fun q => (q.sendq.head?).map fun m => (q, m) with
    | none => s
    | some (q, m) =>
      let e := Table.getD s.iod.eth m.port {}
      let ends := fun (t : State) (code : Nat) => ((writeDone t part m code).map fun t => popSend t part).getD s
      if !e.up then ends s 4 else
      let hop := nextHop q m.dst
      match e.neighbours.find? fun n => n.1 == hop with
      | none =>
        if e.asked.any fun a => a.1 == hop then s else
        emit (modIod s fun i => { i with eth := Table.set i.eth m.port { e with asked := e.asked ++ [(hop, s.cycle)] } }) (.solicit m.port hop)
      | some (_, mac) =>
        match engineRead s (.sys 0) m.asid part (m.len / 4096 + 2) m.pay m.len with
        | (s, .error (4, size, va)) => requestPage s m.asid part va 0 1 0xFFFF size
        | (s, .error (7, _, _)) => s
        | (s, .error _) => ends s 3
        | (s, .ok rd) =>
          let bs := rd.map (·.1)
          if rd.any (·.2) then ends s 3 else
          let s := match m.acct with
            | some a => chargeAcct s a 9 m.len
            | none => s
          ends (emit s (.datagram m.port mac m.dst m.tag bs)) 1)

/-! ## Submission rings (R342, R439) -/

/-- A function whose ring has an entry to hand out. -/
def ringReady (f : Func) : Bool :=
  f.part.isSome && f.ringsize != 0 && f.doorbell != f.head && !f.quiesced && !f.stopped && !f.handed

/-- An entry with reserved bits is a launch rejected with RANGE: its record is written if CREC can be read (R342). None: the
read must wait (R285). -/
def rejectEntry (s : State) (p : Nat) (asid : W16) (va : Nat) : Option State :=
  match netPages s asid p 0 2 (va / 128 * 128) 128 with
  | (s, .ok [(pa, _)]) =>
    if unserved s pa then none else
    let (s, bs, bad) := if isPackage pa then readHomes s pa 128 else
      let (s, bs) := outsideBytes s 128
      (s, bs, false)
    if bad then some s else
    let l := lpbOf bs
    let (n, s) := fresh s
    let e : Launch := { lpb := l, obj := 0, part := p, asid, at_ := s.cycle, waitSince := s.cycle, fault := some { cause := 27 }, next := l.nblk.toNat }
    let s := if l.acct.toNat ≤ 1023 then chargeAcct s l.acct.toNat 15 1 else s
    some (finishLaunch { s with launches := Table.set s.launches n e } n 3)
  | (_, .error (7, _, _)) => none
  | (s, _) => some s

/-- RING_ENTRY_HANDOUT: the entry at HEAD of a function's ring, read from the host, goes to the system cores as a RING
event; the rings are served round robin. -/
def execRingEntryHandout (fn : Nat) (entry : BitVec 128) (s : State) : Host.Outcome State Fault Refusal :=
  .next (
    let f := funcOf s fn
    let turn := (List.range 129).find? fun i => ringReady (funcOf s ((s.iod.rrNext + i) % 129))
    match f.part with
    | none => s
    | some p =>
      if fn > 128 || !ringReady f || (turn.map fun i => (s.iod.rrNext + i) % 129) != some fn then s else
      let t := modIod s fun i => { i with rrNext := (fn + 1) % 129 }
      if entry.toNat / 2 ^ 57 != 0 then
        ((rejectEntry t p f.asid (entry.toNat % 2 ^ 57)).map fun t => modFunc t fn fun f => { f with head := f.head + 1 }).getD s
      else postEvent (modFunc t fn fun f => { f with handed := true }) p 4 (valBytes 8 entry.toNat ++ valBytes 2 fn))

end Sys2Proof.Machine
end

