-- ==== Sys2Proof/Machine/Matrix.lean ====
section
/-! DEFINITION. Matrix instructions (spec 09_isa_matrix.md R210 to R231): tile fetches, convergence and the collective,
multiplies, accumulator rows, drains; and the events of the matrix queue and the tile fetch unit.
Where the spec leaves a point open: notes/assumptions, entry 27. -/

namespace Sys2Proof.Machine

/-! ## Shared parts -/

def p1Of (o : POp) : Nat := o.param.toNat
/-- The block of the current stream and where it is; these instructions run in blocks only. -/
def Cx.place (cx : Cx) : Nat × Nat :=
  match cx.id with
  | .blk c sl => (c, sl)
  | .sup c => (c, 0)
  | .sys _ => (0, 0)
/-- The site id of the instruction (R59). -/
def Cx.site (cx : Cx) (s : State) : Nat := ((cx.blk s).map fun b => siteOf s b cx.pc.toNat).getD 0
/-- SEAL_VIOLATION where a sealed region would write a slot outside its mask (R63). -/
def Cx.maskOk (cx : Cx) (s : State) (mask : Region → Nat) (slots : List Nat) : Bool :=
  !cx.sealed s || slots.all fun j => bit (mask (cx.region s)) j
/-- At least one slot of each pair in AMASK (R227). -/
def Cx.pairOk (cx : Cx) (s : State) (k : Nat) : Bool :=
  !cx.sealed s || bit (cx.region s).amask (2 * k) || bit (cx.region s).amask (2 * k + 1)

/-- One entry placed; one that needs no event of its own runs as soon as it is the block's first. -/
def placeEntry (s : State) (c : Nat) (e : Mq) : State :=
  settleQuick (modCore s c fun k => { k with mq := k.mq ++ [e] }) c e.slot

/-- How many entries the control stream's instruction here has placed already, waiting for room. -/
def Cx.placedHere (cx : Cx) (s : State) : Nat :=
  (((cx.blk s).bind fun b => (b.exec.placed.find? (·.1 == cx.pc))).map (·.2)).getD 0
def Cx.setPlaced (cx : Cx) (s : State) (n : Nat) : State :=
  cx.modBlk s fun b => b.modExec fun e =>
    let l := e.placed.filter fun x => x.1 != cx.pc
    { e with placed := if n = 0 then l else (cx.pc, n) :: l }

/-- Entries are placed in order as long as there is room (R209); those left. -/
def placeMany (s : State) (c : Nat) : List Mq → State × List Mq
  | [] => (s, [])
  | e :: r => if queueLen s c ≥ 16 then (s, e :: r) else placeMany (placeEntry s c e) c r

/-- The instruction places its entries in order, each as it finds room: an instruction that finds the 16 entries taken
waits at issue (R209). A thread completes when its own entry is placed, a control stream when all are. -/
def Cx.enqueue (cx : Cx) (s : State) (d : Dec) (es : List Mq) : State :=
  let (c, _) := cx.place
  if cx.isT then
    es.foldl (fun s e =>
      if queueLen s c ≥ 16 then cx.wait s [e.who] 10
      else placeEntry (cx.finish s d [e.who] fun _ => {}) c e) s
  else
    let (s, left) := placeMany s c (es.drop (cx.placedHere s))
    if left.isEmpty then cx.finish (cx.setPlaced s 0) d [0] fun _ => {}
    else cx.wait (cx.setPlaced s (es.length - left.length)) [0] 10

def Cx.entry (cx : Cx) (s : State) (who : Nat) (op : MqOp) : Mq := { slot := cx.place.2, who, site := cx.site s, op }

/-! ## TFETCH (R211 to R215) -/

def tfRcv (o : POp) : Bool := bit (p1Of o) 27
def tfMc (o : POp) : Bool := bit (p1Of o) 28
def tfSc (o : POp) : Bool := bit (p1Of o) 20
def tfMask (o : POp) : Nat := bits (p1Of o) 26 21
def tfSlot (o : POp) : Nat := bits (p1Of o) 31 29

def Cx.tfOk (cx : Cx) (o : POp) : Bool :=
  bits (p1Of o) 19 16 == 0 && !(tfMc o && tfRcv o) && (tfMc o || tfMask o == 0) && (!tfMc o || bit (tfMask o) (posOfCore cx.core)) &&
    (tfSc o || o.p.srcB == 0) && (!tfRcv o || (o.p.srcA == 0 && o.p.srcB == 0 && !tfSc o && tfMask o == 0 && bits (p1Of o) 15 0 == 0))

/-- An address operand: dN in T, sN in V and S. -/
def Cx.addrSrc (cx : Cx) (n : BitVec 7) : Src := { n := n.toNat, rc := cx.rcScalar true, wide := true }

def Cx.tfDec (cx : Cx) (o : POp) : Dec :=
  { valid := tvs, p := o.p, len := 2, ok := cx.tfOk o,
    srcs := if tfRcv o then [] else cx.addrSrc o.p.srcA :: (if tfSc o then [cx.addrSrc o.p.srcB] else []) }

/-- What translating the lines of a fetch gives. -/
inductive FetchTr
  | ok (l : List (Nat × Nat))
  | bad (f : AFault)
  | miss (va : Nat)

/-- The lines of a fetch: alignment, range, masks, then every translation (R212, R264). -/
def Cx.fetchLines (cx : Cx) (s : State) (o : POp) (a : Nat) (sl : Option Nat) : FetchTr :=
  let stride := signed 16 (p1Of o) * 128
  let vas : List Int := ((List.range 32).map fun r => (a : Int) + (r : Nat) * stride) ++ (sl.map fun x => (x : Int)).toList
  let span := (((cx.blk s).map (·.fab.span)).getD 1)
  let own := (upFrom (posOfCore cx.core) span).map fun p => 2 ^ p
  let sealOk := cx.maskOk s (·.tmask) [tfSlot o] && (!cx.sealed s || tfMask o &&& (63 - own.sum % 64) == 0)
  let checks := [alignFault a 128 0, sl.bind fun x => alignFault x 128 0] ++ vas.map (fun v => globalFault v 128 0) ++
    [if sealOk then none else some { rank := 2, cause := 17, addr := 0 }]
  match firstFault checks with
  | some f => .bad f
  | none =>
    let (asid, part) := spaceOf s cx.id
    vas.foldl (fun r v => match r with
      | .ok l => match translate s cx.id asid part v.toNat 0 with
        | .ok pa => .ok (l ++ [(v.toNat, pa)])
        | .bad w => .bad { rank := 3, cause := if w == 6 then 24 else 8, addr := v, wst := if w == 6 then 0 else w }
        | .miss => .miss v.toNat
      | r => r) (.ok [])

/-- Arming a slot of a block (R213); no deferred release is left for it (R67). -/
def armTile (s : State) (c sl k : Nat) : State :=
  let s := modBlock s c sl fun b => b.modStage fun g => { g with deferred := g.deferred.filter fun d => d != (c, k) }
  modTile (releasePins s c k) c k fun t => { t with fill := .awaiting }

/-- One lane's fetch joins the queue of four (R212). None: it waits. -/
def Cx.queueFetch (cx : Cx) (s : State) (o : POp) (lane : Nat) (lines : List (Nat × Nat)) : Option State :=
  let (c, sl) := cx.place
  if (coreOf s c).tfq.length ≥ 4 then none else
  let (n, s) := fresh s
  let earlier := (coreOf s c).tfq.any fun f => f.k == tfSlot o
  let f : TileFetch := { slot := sl, who := lane, k := tfSlot o, lines := lines.take 32, scale := (lines.drop 32).head?,
                         mask := if tfMc o then some (BitVec.ofNat 6 (tfMask o)) else none, id := n,
                         pages := lines.map fun l => pageSize s cx.id (spaceOf s cx.id).1 (spaceOf s cx.id).2 l.1,
                         prior := if earlier then .ready else (tileOf s c (tfSlot o)).fill, mqBefore := (mqOf s c sl).length }
  some (startFetches (modCore s c fun k => { k with tfq := k.tfq ++ [f] }) c)

def Cx.tfetch (cx : Cx) (s : State) (o : POp) : State :=
  let d := cx.tfDec o
  cx.start s d fun s rs =>
    if tfRcv o then
      let who := cx.whoOf (rs.map (·.1))
      if rs.isEmpty then s else cx.finish (armTile s cx.core cx.place.2 (tfSlot o)) d who fun _ => {}
    else
      let trs := rs.map fun r => (r.1, cx.fetchLines s o (aOf r.2) (if tfSc o then some (bOf r.2) else none))
      let faults := trs.filterMap fun r => match r.2 with
        | .bad f => some (r.1, f)
        | _ => none
      if !faults.isEmpty && !cx.isT then cx.raiseFaults s d faults else
      let (asid, part) := spaceOf s cx.id
      -- the fetches join the queue in ascending order: behind one that waits, the others wait (R210)
      let s := (trs.foldl (fun ((s, w) : State × Option Nat) (l, t) => match w, t with
        | some k, .ok _ => (cx.wait s (cx.whoOf [l]) k, w)
        | none, .ok lines => match cx.queueFetch s o l lines with
          | some s => (cx.finish s d (cx.whoOf [l]) fun _ => {}, w)
          | none => (cx.wait s (cx.whoOf [l]) 10, some 10)
        | _, .miss va => (cx.wait (askWalk s cx.id l asid part va 0) (cx.whoOf [l]) 1, some (w.getD 1))
        | _, .bad _ => (s, w)) (s, none)).1
      if faults.isEmpty then s else cx.raiseFaults s d faults

def execTfetch (o : POp) (s : State) : Host.Outcome State Fault Refusal := withCx s fun cx => cx.tfetch s o
def execTfetchM (o : POp) (s : State) : Host.Outcome State Fault Refusal := withCx s fun cx => cx.tfetch s o
def execTfetchR (o : POp) (s : State) : Host.Outcome State Fault Refusal := withCx s fun cx => cx.tfetch s o

/-- TREL (R216). -/
def execTrel (o : ROp) (s : State) : Host.Outcome State Fault Refusal :=
  withCx s fun cx =>
    let d : Dec := { valid := tvs, p := o.p, len := 1, ok := o.p.srcA.toNat < 8 && o.p.srcB == 0 }
    let k := o.p.srcA.toNat
    cx.start s d fun s rs =>
      if rs.isEmpty then s else
      let (c, sl) := cx.place
      let s := if cx.sealed s then letPinsGo s c sl k
        else modCore s c fun x => { x with mq := x.mq ++ rs.map fun r => cx.entry s r.1 (.trel k) }
      settleQuick (cx.finish s d (cx.whoOf (rs.map (·.1))) fun _ => {}) c sl

/-! ## Convergence and the collective (R217 to R221) -/

def cvOf (s : State) (c n : Nat) : Cv := Table.getD (coreOf s c).cvs n {}
def modCv (s : State) (c n : Nat) (f : Cv → Cv) : State := modCore s c fun k => { k with cvs := Table.set k.cvs n (f (cvOf s c n)) }
/-- Members of a convergence register: the live threads of its gangs (R217). -/
def cvMembers (b : Block) (v : Cv) : List Nat := b.liveThreads.filter fun t => v.gangs.getLsbD (t / 64)

def cvDec (o : KOp) (srcs : List Src) (ok : Bool) : Dec :=
  { valid := validIn [.T] [], p := o.p, len := 2, srcs, dst := .own,
    ok := ok && o.p.dreg.toNat < 16 && !o.p.nwb && o.p.srcB == 0 && o.param == 0 }

/-- CVSET (R217). -/
def execCvset (o : KOp) (s : State) : Host.Outcome State Fault Refusal :=
  withCx s fun cx =>
    let d := cvDec o [{ n := o.p.srcA.toNat, rc := .g }] true
    cx.start s d fun s rs =>
      match rs, cx.blk s with
      | (t0, v0) :: _, some b =>
        let n := o.p.dreg.toNat
        let all := rs.map (·.1)
        let v := cvOf s cx.core n
        let odd := (rs.filter fun r => aOf r.2 != aOf v0).map (·.1)
        let misuse := fun (lanes : List Nat) => cx.raise s d.srcs { cause := 13, lanes } lanes
        if rs.any fun r => aOf r.2 / 2 ^ gangsOf b.nthr != 0 then misuse all
        else if !odd.isEmpty then misuse odd
        else if !v.signs.isEmpty || v.desc.isSome then misuse all
        else
          let _ := t0
          cx.finish (modCv s cx.core n fun v => { v with gangs := BitVec.ofNat 32 (aOf v0), signs := [] }) d all fun _ => {}
      | _, _ => s

/-- The word with most signers; on a tie the word of the lowest signer (R220). -/
def voteWord (signs : List (Nat × W32)) : Option W32 :=
  let words := (signs.map (·.2)).eraseDups
  let n := fun (w : W32) => (signs.filter fun x => x.2 == w).length
  let most := (words.map n).foldl max 0
  (signs.find? fun x => n x.2 == most).map (·.2)

/-- The end of a round of a register of the block's claim (R120), when every member has signed or abstained (R220). -/
def endRound (s : State) (c sl n : Nat) : State :=
  match blockOf s c sl with
  | none => s
  | some b =>
    let v := cvOf s c n
    let ms := cvMembers b v
    if !b.claim.cv.getLsbD n || v.signs.isEmpty || ms.isEmpty || !ms.all (fun t => (Table.get? v.signs t).isSome) then s else
    let signers := ms.filterMap fun t => ((Table.get? v.signs t).join).map fun w => (t, w)
    let held := ms.filter fun t => (threadOf b t).wait == 4
    let clear := fun (s : State) => modCv s c n fun v => { v with signs := [], desc := none }
    let trap := fun (cause : Nat) (lanes : List Nat) =>
      deliver (modCv s c n fun v => { v with signs := [] }) c sl { cause, lanes } held none
    match voteWord signers with
    | none => releaseWaiters (clear s) c sl held 2
    | some w =>
      let odd := (signers.filter fun x => x.2 != w).map (·.1)
      if !odd.isEmpty then trap 12 odd else
      match v.desc with
      | none => trap 13 ms
      | some (split, p1, site) =>
        let ref := agRef (Store.get (coreOf s c).ag (pairOf split p1.toNat)).toNat
        if !formatOk w.toNat p1.toNat split (some ref) then trap 2 ms
        else if queueLen s c ≥ 16 then s
        else
          let s := modCore s c fun k => { k with mq := k.mq ++ [{ slot := sl, who := (ms.head?).getD 0, site, op := .mma split p1 w }] }
          releaseWaiters (clear s) c sl held 2

/-- Rounds of the block's registers that have come to their end, the lower register first. -/
def endRounds (s : State) (c sl : Nat) : State := (List.range 16).foldl (fun s n => endRound s c sl n) s

/-- CVSIGN (R219). Members whose guard is false abstain. -/
def execCvsign (o : KOp) (s : State) : Host.Outcome State Fault Refusal :=
  withCx s fun cx =>
    let d := cvDec o [{ n := o.p.srcA.toNat, rc := .g }] (o.p.srcA.toNat < 72)
    match cx.decodeTrap s d, cx.blk s with
    | some c, _ => cx.raise s d.srcs { cause := c } cx.acts
    | none, none => s
    | none, some b =>
      let n := o.p.dreg.toNat
      let c := cx.core
      let ms := cvMembers b (cvOf s c n)
      let signers := cx.acts.filter fun t => cx.pbit s d.p.grd.toNat t
      let others := cx.acts.filter fun t => !signers.contains t
      let abstain := others.filter ms.contains
      let s := cx.finish s d (others.filter fun t => !ms.contains t) fun _ => {}
      let s := cx.wait (modCv s c n fun v => { v with signs := abstain.foldl (fun m t => Table.set m t none) v.signs }) abstain 4
      let s := if signers.isEmpty then s else
        ({ cx with acts := signers } : Cx).start s d fun s rs =>
          let bad := (rs.filter fun r => !ms.contains r.1).map (·.1)
          let good := rs.filter fun r => ms.contains r.1
          let s := cx.capture s d.srcs (good.map (·.1))
          let s := modCv s c n fun v => { v with signs := good.foldl (fun m r => Table.set m r.1 (some (BitVec.ofNat 32 (aOf r.2)))) v.signs }
          let s := cx.wait s (good.map (·.1)) 4
          if bad.isEmpty then s else cx.raise s d.srcs { cause := 13, lanes := bad } bad
      endRound s c cx.place.2 n

/-! ## MMA and MMAS (R222) -/

def mmaOk (cx : Cx) (o : POp) (split : Bool) : Bool :=
  bits (p1Of o) 15 0 == 0 && o.p.srcB == 0 && (!split || bits (p1Of o) 27 25 < 4) &&
    (if cx.isT then o.p.srcA == 0 else bits (p1Of o) 31 28 == 0)

/-- A post on a convergence register (R218). -/
def Cx.post (cx : Cx) (s : State) (o : POp) (split : Bool) (d : Dec) (b : Block) (who : List Nat) : State :=
  let n := bits (p1Of o) 31 28
  let v := cvOf s cx.core n
  let ms := cvMembers b v
  let p1 := BitVec.ofNat 32 (p1Of o % 2 ^ 28)
  let out := who.filter fun t => !ms.contains t
  let misuse := fun (lanes : List Nat) => cx.raise s d.srcs { cause := 13, lanes } lanes
  if who.isEmpty then s
  else if v.gangs == 0 then misuse who
  else if !out.isEmpty then misuse out
  else match v.desc with
    | some (sp, q, _) => if sp == split && q == p1 then cx.finish s d who fun _ => {} else misuse who
    | none => cx.finish (modCv s cx.core n fun v => { v with desc := some (split, p1, cx.site s) }) d who fun _ => {}

def Cx.mma (cx : Cx) (s : State) (o : POp) (split : Bool) : State :=
  let d : Dec := { valid := validIn [.T, .V] [], p := o.p, len := 2, ok := mmaOk cx o split, matrix := true,
                   srcs := if cx.isT then [] else [{ n := o.p.srcA.toNat, rc := .s, wide := true }] }
  cx.start s d fun s rs =>
    let who := cx.whoOf (rs.map (·.1))
    if !rs.isEmpty && !cx.maskOk s (·.amask) (dstSlots split (p1Of o)) then cx.raise s d.srcs { cause := 17 } who else
    if cx.isT then match cx.blk s with
      | some b => cx.post s o split d b who
      | none => s
    else match rs with
      | [] => s
      | r :: _ =>
        let w := aOf r.2
        let ref := agRef (Store.get (coreOf s cx.core).ag (pairOf split (p1Of o))).toNat
        if w / 2 ^ 32 != 0 || !formatOk w (p1Of o) split (some ref) then cx.raise s d.srcs { cause := 2 } who
        else cx.enqueue s d [cx.entry s 0 (.mma split o.param (BitVec.ofNat 32 w))]

def execMma (o : POp) (s : State) : Host.Outcome State Fault Refusal := withCx s fun cx => cx.mma s o false
def execMmas (o : POp) (s : State) : Host.Outcome State Fault Refusal := withCx s fun cx => cx.mma s o true

/-! ## AZERO, ALD, AST, DRN (R225 to R231) -/

def execAzero (o : ROp) (s : State) : Host.Outcome State Fault Refusal :=
  withCx s fun cx =>
    let n := o.p.dreg.toNat
    let d : Dec := { valid := tvs, p := o.p, len := 1, dst := .own, ok := n < 12 && !o.p.nwb && o.p.srcA == 0 && o.p.srcB == 0 }
    cx.start s d fun s rs =>
      let who := cx.whoOf (rs.map (·.1))
      if rs.isEmpty then s
      else if !cx.maskOk s (·.amask) (if n < 8 then [n] else [2 * (n - 8), 2 * (n - 8) + 1]) then cx.raise s d.srcs { cause := 17 } who
      else cx.enqueue s d (rs.map fun r => cx.entry s r.1 (.azero n))

/-- The operands of a row: local address and row index; g in T, v in V, s in S. -/
def Cx.rowDec (cx : Cx) (o : POp) (ok : Bool) : Dec :=
  let src := fun (n : BitVec 7) => match cx.kind with
    | .T => ({ n := n.toNat, rc := .g } : Src)
    | .V => { n := n.toNat, rc := .v }
    | _ => { n := n.toNat, rc := .s, wide := true }
  { valid := tvs, p := o.p, len := 2, srcs := [src o.p.srcA, src o.p.srcB], ok, perElem := cx.kind == .V }

/-- Rows of `n` bytes at local addresses: every check for every unit before any effect, then one entry per unit that
passes (R264). -/
def Cx.rows (cx : Cx) (s : State) (d : Dec) (al n : Nat) (store : Bool) (maskGood : State → Bool) (op : Nat → Nat → MqOp) : State :=
  cx.start s d fun s rs =>
    let m := cx.mem s
    let kind := if store then 1 else 0
    let faults := rs.filterMap fun r =>
      (firstFault [alignFault (aOf r.2) al kind, localFault m.locb (aOf r.2) n,
        if maskGood s then none else some { rank := 2, cause := 17, addr := 0 },
        if store then lwsetFault (cx.sealed s) (cx.region s) (aOf r.2) n else none]).map fun f => (r.1, f)
    if !faults.isEmpty && !cx.isT then cx.raiseFaults s d faults else
    let good := rs.filter fun r => !faults.any fun f => f.1 == r.1
    let s := if good.isEmpty then (if cx.isT then s else cx.finish s d [0] fun _ => {})
      else cx.enqueue s d (good.map fun r => cx.entry s r.1 (op (aOf r.2) (bOf r.2 % 32)))
    if faults.isEmpty then s else cx.raiseFaults s d faults

def accP1Ok (o : POp) : Bool := bits (p1Of o) 28 0 == 0

def execAld (o : POp) (s : State) : Host.Outcome State Fault Refusal :=
  withCx s fun cx =>
    let j := bits (p1Of o) 31 29
    cx.rows s (cx.rowDec o (accP1Ok o)) 8 256 false (fun s => cx.maskOk s (·.amask) [j]) fun a r => .ald j a r
def execAst (o : POp) (s : State) : Host.Outcome State Fault Refusal :=
  withCx s fun cx => cx.rows s (cx.rowDec o (accP1Ok o)) 8 256 true (fun _ => true) fun a r => .ast (bits (p1Of o) 31 29) a r

/-- The combinations of R229. -/
def drnOk (p1 : Nat) : Bool :=
  let mode := bits p1 31 29
  let slot := bits p1 28 26
  let afmt := bits p1 25 22
  let ofmt := bits p1 21 18
  let stg := bits p1 17 15
  bits p1 14 0 == 0 && mode ≤ 5 && (mode == 0 || slot < 4) &&
    ((afmt == 5 && ofmt ≤ 2 && stg ≤ 5) || (afmt == 0 && ofmt ≤ 2 && stg == 0) ||
      (mode == 0 && afmt == 3 && (ofmt == 0 || ofmt == 3) && stg == 0))

def execDrn (o : POp) (s : State) : Host.Outcome State Fault Refusal :=
  withCx s fun cx =>
    let p1 := p1Of o
    let z := if bits p1 21 18 == 0 || bits p1 21 18 == 3 then 4 else 2
    let d : Dec := { cx.rowDec o (drnOk p1) with payload := true }
    cx.rows s d z (32 * z) true (fun s => bits p1 31 29 < 4 || cx.pairOk s (bits p1 28 26)) fun a r => .drn o.param a r

/-! ## AGSET and AGGET (R227) -/

def execAgset (o : KOp) (s : State) : Host.Outcome State Fault Refusal :=
  withCx s fun cx =>
    let n := o.p.dreg.toNat
    let d : Dec := { valid := tvs, p := o.p, len := 2, dst := .own, ok := n < 4 && !o.p.nwb && o.p.srcA == 0 && o.p.srcB == 0 }
    cx.start s d fun s rs =>
      let who := cx.whoOf (rs.map (·.1))
      if rs.isEmpty then s
      else if !cx.pairOk s n then cx.raise s d.srcs { cause := 17 } who
      else cx.enqueue s d (rs.map fun r => cx.entry s r.1 (.agset n (bits o.param.toNat 15 0) (bits o.param.toNat 23 16)))

/-- AGGET: each acting thread's result returns when its entry is reached; its latch entry waits for it. -/
def execAgget (o : KOp) (s : State) : Host.Outcome State Fault Refusal :=
  withCx s fun cx =>
    let d : Dec := { valid := tvs, p := o.p, len := 2, dst := .reg (cx.rcScalar true), ok := o.p.srcA.toNat < 4 && o.p.srcB == 0 && o.param == 0 }
    let f : LoadForm := { cls := cx.scalarCls, wid := 8, sext := false, dreg := o.p.dreg.toNat, nwb := o.p.nwb }
    cx.start s d fun s rs =>
      let (c, _) := cx.place
      rs.foldl (fun s r =>
        if queueLen s c ≥ 16 then cx.wait s (cx.whoOf [r.1]) 10 else
        let e := cx.entry s r.1
        let (s, n) := cx.pendResult s d f [(r.1, none, false)]
        placeEntry s c (e (.agget o.p.srcA.toNat n o.p.dreg.toNat))) s

/-! ## The events of the queues -/

/-- The head entry of a block's queue, if it is one the event executes; rounds that waited for room end. -/
def runIf (s : State) (c sl : Nat) (p : MqOp → Bool) : State :=
  match mqOf s c sl with
  | e :: _ => if p e.op then
      let s := settleQuick ((runHead s c sl).getD s) c sl
      (coreOf s c).slots.foldl (fun s x => endRounds s c x.1) s
    else s
  | [] => s

/-- MMA_ENTRY_EXECUTE (R223). -/
def execMmaEntryExecute (core slot : Nat) (s : State) : Host.Outcome State Fault Refusal :=
  .next (runIf s core slot fun
    | .mma _ _ _ => true
    | _ => false)
/-- DRN_ROW_EXECUTE (R230). -/
def execDrnRowExecute (core slot : Nat) (s : State) : Host.Outcome State Fault Refusal :=
  .next (runIf s core slot fun
    | .drn _ _ _ => true
    | _ => false)
/-- ACC_ROW_TRANSFER (R226). -/
def execAccRowTransfer (core slot : Nat) (s : State) : Host.Outcome State Fault Refusal :=
  .next (runIf s core slot fun
    | .ald _ _ _ => true
    | .ast _ _ _ => true
    | _ => false)
/-- TILE_FETCH_PERFORM (R212, R213). -/
def execTileFetchPerform (core : Nat) (s : State) : Host.Outcome State Fault Refusal := .next (fetchStep s core)

end Sys2Proof.Machine
end

