-- ==== Sys2Proof/Machine/Control.lean ====
section
/-! DEFINITION. Control flow, divergence, equivalence points, traps and the events of a block's streams (spec
10_isa_control.md R236 to R257; R48, R66, R243, R247, R423, R425, R431).
Where the spec leaves a point open: notes/assumptions, entries 9, 28, 39. -/

namespace Sys2Proof.Machine

/-! ## Branches (R237 to R239) -/

/-- A target in a line may be branched to (R90). -/
def targetOk (l : List W32) (j : Nat) (call : Bool) : Bool :=
  2 ≤ j && ((l[1]?).getD 0).getLsbD (j - 2) && (!call || (j == 2 && bits (l.headD 0).toNat 31 30 == 2))

/-- The checks of one target, in the order of R115: ALIGN, ADDRESS, the read of the target line, ILLEGAL_TARGET. None in
the third part: the read waits for a translation. -/
def Cx.checkTarget (cx : Cx) (s : State) (call : Bool) (t : Int) : State × Option (Option AFault) :=
  match firstFault [alignFault t 4 3, globalFault t 1 3] with
  | some f => (s, some (some f))
  | none =>
    let a := t.toNat
    let (s, r) := match cx.line with
      | some l => if a / 128 == cx.pc.toNat / 128 then (s, LineRd.ok l) else readLine s cx.id a
      | none => readLine s cx.id a
    match r with
    | .miss | .unserved => (s, none)
    | .bad f => (s, some (some { rank := 2, cause := f.cause, addr := t, detail := f.detail, wst := f.wst }))
    | .ok l => (s, some (if targetOk l (a / 4 % 32) call then none else some { rank := 3, cause := 4, addr := t }))

/-- Streams take a branch: within the line they keep it, elsewhere they enter the target line next (R88, R102, R239). -/
def Cx.goTo (cx : Cx) (s : State) (ts : List (Nat × VAddr)) : State :=
  let s := if ts.isEmpty then s else cx.retire s
  let near := fun (p : VAddr) => p.toNat / 128 == cx.pc.toNat / 128
  match cx.id with
  | .blk c sl =>
    if cx.isT then modBlock s c sl fun b =>
      let b := ts.foldl (fun b (t, p) =>
        let b := b.modThreads [t] fun _ x => { x with pc := p, wait := 0, wdog := 0, capt := if x.ownCapt then [] else x.capt, line := none }
        if near p then b.leaveInLine [t] cx.line s.cycle else b.leave [t] s.cycle) b
      b.settleAll s.cycle
    else jump s cx.id ts near
  | id => jump s id ts near
where
  /-- A control context takes its branch. -/
  jump (s : State) (id : CtxId) (ts : List (Nat × VAddr)) (near : VAddr → Bool) : State :=
    match ts with
    | [] => s
    | (_, p) :: _ => modCtl s id fun x =>
        { x with pc := p, wait := 0, latches := [], capt := if x.ownCapt then [] else x.capt, line := if near p then x.line else none }

/-- Streams with their targets branch; those that fail a check trap before any effect (R264). `link` is written first. -/
def Cx.branch (cx : Cx) (s : State) (d : Dec) (call : Bool) (ts : List (Nat × Int)) (link : State → List Nat → State) : State :=
  let (s, rs) := ts.foldl (fun ((s, rs) : State × List (Nat × Int × Option (Option AFault))) (l, t) =>
    let (s, r) := cx.checkTarget s call t
    (s, rs ++ [(l, t, r)])) (s, [])
  match rs.find? fun r => r.2.2.isNone with
  | some r =>
    let (asid, part) := spaceOf s cx.id
    cx.wait (askWalk s cx.id r.1 asid part (r.2.1.toNat / 128 * 128) 3) (ts.map (·.1)) 1
  | none =>
    let bad := rs.filterMap fun r => (r.2.2.join).map fun f => (r.1, f)
    let good := rs.filter fun r => (r.2.2.join).isNone
    if !cx.isT && !bad.isEmpty then cx.raiseFaults s d bad else
    let s := if good.isEmpty then s else cx.goTo (link s (good.map (·.1))) (good.map fun r => (r.1, BitVec.ofNat 57 r.2.1.toNat))
    if bad.isEmpty then s else cx.raiseFaults s d bad

/-- IND and DISP of a branch parcel (R236). -/
def brInd (o : POp) : Bool := o.param.getLsbD 31
def brDisp (o : POp) : Int := 4 * signed 31 (bits o.param.toNat 30 0)
def Cx.near (cx : Cx) (o : POp) : Int := (cx.pc.toNat : Int) + brDisp o
/-- A base or link operand: dN in T, sN elsewhere, or a latch. -/
def Cx.baseSrc (cx : Cx) (n : BitVec 7) : Src := { n := n.toNat, rc := cx.rcScalar true, wide := true }

/-- BR in a control context: whether the test of R238 holds. -/
def Cx.brTaken (cx : Cx) (s : State) (test grd : Nat) : Bool :=
  let es := (List.range (if cx.kind == .V then cx.vl s else 256)).map fun e => cx.pbit s grd e
  match test with
  | 1 => es.any (· == true)
  | 2 => es.all (· == true)
  | 3 => !es.any (· == true)
  | _ => cx.pbit s grd 0

def execBr (o : POp) (s : State) : Host.Outcome State Fault Refusal :=
  withCx s fun cx =>
    let test := o.p.dreg.toNat
    let d : Dec := { valid := everywhere, p := o.p, len := 2, dst := .own, transparent := true,
                     ok := !o.p.nwb && o.p.srcA == 0 && o.p.srcB == 0 && !brInd o &&
                       (test == 0 || (test ≤ 3 && (cx.kind == .V || cx.kind == .S))) }
    match cx.decodeTrap s d with
    | some c => cx.raise s [] { cause := c } cx.acts
    | none =>
      let go := if cx.isT then cx.acts.filter fun t => cx.pbit s o.p.grd.toNat t
        else if cx.brTaken s test o.p.grd.toNat then [0] else []
      let s := if cx.begun s then s else cx.count s false 1 (if cx.isT then go.length else 1)
      let s := cx.finish s d (cx.acts.filter fun t => !go.contains t) fun _ => {}
      cx.branch s d false (go.map fun t => (t, cx.near o)) fun s _ => s

def execJmp (o : POp) (s : State) : Host.Outcome State Fault Refusal :=
  withCx s fun cx =>
    let d : Dec := { valid := everywhere, p := o.p, len := 2, ok := o.p.srcA.toNat < 72 && o.p.srcB == 0 && brInd o, srcs := [cx.baseSrc o.p.srcA] }
    cx.start s d fun s rs => cx.branch s d false (rs.map fun r => (r.1, (aOf r.2 : Int) + brDisp o)) fun s _ => s

/-- CALL: the return address is the next instruction in fall-through order (R239). -/
def execCall (o : POp) (s : State) : Host.Outcome State Fault Refusal :=
  withCx s fun cx =>
    let d : Dec := { valid := everywhere, p := o.p, len := 2, dst := .reg (cx.rcScalar true),
                     ok := !o.p.nwb && o.p.srcB == 0 && (if brInd o then o.p.srcA.toNat < 72 else o.p.srcA == 0),
                     srcs := if brInd o then [cx.baseSrc o.p.srcA] else [] }
    let f : LoadForm := { cls := cx.scalarCls, wid := 8, sext := false, dreg := o.p.dreg.toNat, nwb := false }
    cx.start s d fun s rs =>
      cx.branch s d true (rs.map fun r => (r.1, if brInd o then (aOf r.2 : Int) + brDisp o else cx.near o)) fun s who =>
        cx.put s f (who.map fun w => (w, (cx.next d).toNat))

def execRet (o : ROp) (s : State) : Host.Outcome State Fault Refusal :=
  withCx s fun cx =>
    let d : Dec := { valid := everywhere, p := o.p, len := 1, ok := o.p.srcA.toNat < 72 && o.p.srcB == 0, srcs := [cx.baseSrc o.p.srcA] }
    cx.start s d fun s rs => cx.branch s d false (rs.map fun r => (r.1, (aOf r.2 : Int))) fun s _ => s

/-! ## Plain control instructions -/

/-- The decoding of an instruction without register operands. -/
def plainDec (valid : Kind → Option Nat) (p : P0) (len : Nat) (ok : Bool) (transparent : Bool := false) : Dec :=
  { valid, p, len, ok := ok && p.srcA == 0 && p.srcB == 0, transparent }

def execNop (o : ROp) (s : State) : Host.Outcome State Fault Refusal :=
  withCx s fun cx =>
    let d := plainDec everywhere o.p 1 true true
    cx.start s d fun s rs => cx.finish s d (cx.whoOf (rs.map (·.1))) fun _ => {}

/-- YIELD (R244): the bundle or control stream is not chosen again for a while. -/
def execYield (o : KOp) (s : State) : Host.Outcome State Fault Refusal :=
  withCx s fun cx =>
    let d := plainDec everywhere o.p 2 (o.param == 0)
    cx.start s d fun s rs =>
      if rs.isEmpty then s else
      let s := match s.cur with
        | .bundle c sl n => modBlock s c sl fun b => b.modExec fun e =>
            { e with bundles := e.bundles.map fun u => if u.id == n then { u with yieldAt := some s.cycle } else u }
        | _ => modCtl s cx.id fun x => { x with yieldAt := some s.cycle }
      cx.finish s d (cx.whoOf (rs.map (·.1))) fun _ => {}

/-- WDOG (R247): the limits of the acting threads' gangs, whose counts restart. -/
def execWdog (o : KOp) (s : State) : Host.Outcome State Fault Refusal :=
  withCx s fun cx =>
    let d := plainDec (validIn [.T] []) o.p 2 (bits o.param.toNat 23 20 == 0)
    cx.start s d fun s rs =>
      let gangs := (rs.map fun r => r.1 / 64).eraseDups
      let s := cx.modBlk s fun b =>
        (b.modExec fun e => { e with limits := e.limits.mapIdx fun g l => if gangs.contains g then BitVec.ofNat 20 o.param.toNat else l }).modThreads
          ((List.range b.nthr).filter fun t => gangs.contains (t / 64)) fun _ x => { x with wdog := 0 }
      cx.finish s d (rs.map (·.1)) fun _ => {}

/-- HOP (R252): FRC, and FTGT the greater of itself and the target. -/
def execHop (o : ROp) (s : State) : Host.Outcome State Fault Refusal :=
  withCx s fun cx =>
    let a := o.p.srcA.toNat
    let d : Dec := { valid := tvs, p := o.p, len := 1, ok := 73 ≤ a && a ≤ 75 && o.p.srcB == 0 }
    cx.start s d fun s rs =>
      let s := if rs.isEmpty then s else cx.modBlk s fun b => b.modRegs fun r =>
        { r with hopctl := BitVec.ofNat 32 (r.hopctl.toNat % 2 ^ 28 + bits r.hopctl.toNat 31 31 * 2 ^ 31 + 2 ^ 30 + max (bits r.hopctl.toNat 29 28) (a - 72) * 2 ^ 28) }
      cx.finish s d (cx.whoOf (rs.map (·.1))) fun _ => {}

/-- TRAP (R253): the resume point is the next instruction. -/
def execTrap (o : POp) (s : State) : Host.Outcome State Fault Refusal :=
  withCx s fun cx =>
    let d := plainDec everywhere o.p 2 (bits o.param.toNat 31 8 == 0)
    let n := bits o.param.toNat 7 0
    cx.start s d fun s rs =>
      let who := cx.whoOf (rs.map (·.1))
      if rs.isEmpty then s else
      cx.raise s [] { cause := 26, addr := n, detail := n, lanes := if cx.isT then who else [] } who (some (cx.next d))

/-- BKPT (R254, R77). -/
def execBkpt (o : ROp) (s : State) : Host.Outcome State Fault Refusal :=
  withCx s fun cx =>
    let d := plainDec everywhere o.p 1 true
    cx.start s d fun s rs =>
      let who := cx.whoOf (rs.map (·.1))
      if rs.isEmpty then s else
      let att := (cx.regs s).dbgctl.getLsbD 0
      if att && cx.sealed s then
        let site := ((cx.blk s).map fun b => siteOf s b cx.pc.toNat).getD 0
        cx.finish (cx.modBlk s fun b => b.modStage fun g => { g with bkpt := g.bkpt ++ [site] }) d who fun _ => {}
      else cx.raise s [] { cause := 25, debug := att, lanes := if cx.isT then who else [] } who (some (cx.next d))

/-- RETT (R255, R431): streams outside handler state raise ILLEGAL_OPCODE. -/
def execRett (o : ROp) (s : State) : Host.Outcome State Fault Refusal :=
  withCx s fun cx =>
    let d := plainDec everywhere o.p 1 (o.p.grd == 0)
    cx.start s d fun s _ =>
      match cx.id, cx.blk s with
      | .blk c sl, some b =>
        if cx.isT then
          let (ins, outs) := cx.acts.partition fun t => (threadOf b t).handler
          let s := if ins.isEmpty then s else returnThreads s c sl ins
          let s := modBlock s c sl fun b => b.settleAll s.cycle
          if outs.isEmpty then s else cx.raise s [] { cause := 1, lanes := outs } outs
        else if b.exec.ctl.handler then returnCtl s cx.id else cx.raise s [] { cause := 1 } [0]
      | _, _ => if (cx.ctl s).handler then returnCtl (cx.retire s) cx.id else cx.raise s [] { cause := 1 } [0]

/-- An opcode or SUB byte that the maps leave unassigned (R114). -/
def execUnassignedOpcode (parcel second : W32) (s : State) : Host.Outcome State Fault Refusal :=
  let _ := (parcel, second)
  withCx s fun cx => cx.raise s [] { cause := 1 } cx.acts

/-! ## REJOIN, EXIT, and the block-wide waits -/

/-- REJOIN (R242): acting threads wait with their masks; the others leave the bundle. -/
def execRejoin (o : ROp) (s : State) : Host.Outcome State Fault Refusal :=
  withCx s fun cx =>
    let a := o.p.srcA.toNat
    let src : Src := { n := a, rc := .d, wide := true }
    let d : Dec := { valid := validIn [.T] [], p := o.p, len := if a == 127 then 2 else 1, ok := o.p.srcB == 0,
                     imm := if a == 127 then some o.imm else none, srcs := [src] }
    cx.start s d fun s rs =>
      let others := cx.acts.filter fun t => !cx.pbit s o.p.grd.toNat t
      let s := cx.capture s d.srcs (rs.map (·.1))
      let s := cx.modBlk s fun b =>
        let b := rs.foldl (fun b r => b.modThreads [r.1] fun _ x => { x with rejoin := BitVec.ofNat 64 (aOf r.2), wait := 5 }) b
        let out := others.filter fun t => b.exec.bundles.any fun u => u.members.contains t
        let near := fun (t : Nat) => (threadOf b t).pc.toNat / 128 == cx.pc.toNat / 128
        ((b.leave (out.filter fun t => !near t) s.cycle).leaveInLine (out.filter near) cx.line s.cycle).settleAll s.cycle
      s

/-- Registers of the block whose round holds a signature and of which a thread is a member (R221); an abstention is no
signature (DEDUCED, unsafe: notes/assumptions/27.md). -/
def signedRegs (s : State) (c : Nat) (b : Block) (t : Nat) : List Nat :=
  (List.range 16).filter fun n => b.claim.cv.getLsbD n && (cvOf s c n).gangs.getLsbD (t / 64) && (cvOf s c n).signs.any fun x => x.2.isSome

/-- Threads that exit (R248); when none is left the block finishes. -/
def exitThreads (s : State) (c sl : Nat) (ts : List Nat) : State :=
  let s := modBlock s c sl fun b =>
    let b := (b.leave ts s.cycle).modThreads ts fun _ x => { x with live := false, handler := false, wait := 0, wdog := 0, line := none, capt := [] }
    let b := b.settleAll s.cycle
    if b.busy then b else b.modThreads (List.range b.nthr) fun _ x => if x.wait == 11 then { x with wait := 0 } else x
  let s := endRounds s c sl
  match blockOf s c sl with
  | some b => if b.liveThreads.isEmpty then finishBlock s c sl else blockWait s c sl
  | none => s

/-- EXIT (R221, R248). -/
def execExit (o : KOp) (s : State) : Host.Outcome State Fault Refusal :=
  withCx s fun cx =>
    let d := plainDec tvs o.p 2 (o.param == 0)
    cx.start s d fun s rs =>
      match cx.id, cx.blk s with
      | .blk c sl, some b =>
        if rs.isEmpty then s
        else if cx.isT then
          let ts := rs.map (·.1)
          let bad := ts.filter fun t => !(signedRegs s c b t).isEmpty
          let regs := (bad.flatMap (signedRegs s c b)).eraseDups
          let held := b.liveThreads.filter fun t => (threadOf b t).wait == 4 && regs.any fun n => (Table.get? (cvOf s c n).signs t).isSome
          let s := regs.foldl (fun s n => modCv s c n fun v => { v with signs := [], desc := none }) s
          let good := ts.filter fun t => !bad.contains t
          let s := if good.isEmpty then s else exitThreads s c sl good
          if bad.isEmpty then s else deliver s c sl { cause := 13, lanes := bad ++ held } (bad ++ held) none
        else if cx.kind == .S && (b.fab.ports.any (fun p => p.2.active.isSome || p.2.pending.isSome) || b.fab.bufs.any fun q => !q.2.isEmpty) then
          cx.wait s [0] 10
        else
          let s := finishBlock s c sl
          if (blockOf s c sl).any fun b => b.phase == .running && b.traps.isEmpty then cx.wait s [0] 10 else s
      | _, _ => s

/-- EP (R250): the wait of R60, then the steps of R68. -/
def execEp (o : POp) (s : State) : Host.Outcome State Fault Refusal :=
  withCx s fun cx =>
    let k := bits o.param.toNat 15 0
    let nep := (((cx.blk s).bind (objOf s)).map (·.nep)).getD 0
    let d := plainDec tvs o.p 2 (o.p.grd == 0 && bits o.param.toNat 31 16 == 0 && 1 ≤ k && k ≤ nep)
    cx.start s d fun s _ => blockWait (cx.wait s cx.acts 6) cx.place.1 cx.place.2

def budgetDec (o : KOp) : Dec :=
  let b := bits o.param.toNat 6 0
  plainDec (validIn [.T] []) o.p 2 (o.p.grd == 0 && bits o.param.toNat 23 7 == 0 && 8 ≤ b && b ≤ 64 && b % 8 == 0)
def execGrow (o : KOp) (s : State) : Host.Outcome State Fault Refusal :=
  withCx s fun cx => cx.start s (budgetDec o) fun s _ => blockWait (cx.wait s cx.acts 7) cx.place.1 cx.place.2
def execShrink (o : KOp) (s : State) : Host.Outcome State Fault Refusal :=
  withCx s fun cx => cx.start s (budgetDec o) fun s _ => blockWait (cx.wait s cx.acts 7) cx.place.1 cx.place.2

/-! ## The regroup point (R48, R243) -/

/-- The mask of a thread that waits at a REJOIN is met at its site (R242). -/
def maskMet (b : Block) (t : Nat) : Bool :=
  let x := threadOf b t
  (List.range 64).all fun i =>
    let u := t / 64 * 64 + i
    !x.rejoin.getLsbD i || u ≥ b.nthr || !(threadOf b u).live || ((threadOf b u).wait == 5 && (threadOf b u).pc == x.pc)

/-- Threads of a gang that a site releases, and whether the gang is deadlocked (R243). -/
def rejoinOf (b : Block) (g : Nat) : List Nat × Bool :=
  let live := b.liveThreads.filter fun t => t / 64 == g
  let waits := live.filter fun t => (threadOf b t).wait == 5
  let go := waits.filter fun t => waits.all fun u => (threadOf b u).pc != (threadOf b t).pc || maskMet b u
  (go, go.isEmpty && !live.isEmpty && waits.length == live.length)

/-- The lowest site at which threads of the gangs deadlocked in this cycle stand (R72). -/
def deadSite (s : State) (b : Block) : Option Nat :=
  leastOf (((List.range (gangsOf b.nthr)).filter fun g => (rejoinOf b g).2).flatMap fun g =>
    (b.liveThreads.filter fun t => t / 64 == g).map fun t => siteOf s b (threadOf b t).pc.toNat)

/-- One gang at the regroup point. -/
def rejoinGang (s : State) (c sl g : Nat) : State :=
  match blockOf s c sl with
  | none => s
  | some b =>
    let (go, dead) := rejoinOf b g
    if dead then
      let ts := b.liveThreads.filter fun t => t / 64 == g
      let site := if isSealed s b then deadSite s b else none
      deliver s c sl { cause := 14, gang := some g, lanes := ts, site } ts none
    else
      let nexts := go.map fun t => (t, fallNext (lineOf b t) (threadOf b t).pc ((fun (x : Nat) => if x == 127 then 2 else 1) (srcAOf b t)))
      nexts.foldl (fun s (t, nx, fin) =>
        if fin then deliver s c sl { cause := 4, addr := (b.pcOf t).toNat / 128 * 128 + 128, lanes := [t] } [t] none
        else modBlock s c sl fun b =>
          let ln := if nx.toNat / 128 == (threadOf b t).pc.toNat / 128 then lineOf b t else none
          (b.modThreads [t] fun _ x => x.complete false {} nx).leaveInLine [t] ln s.cycle) s
where
  /-- SRCA of the instruction a thread stands at. -/
  srcAOf (b : Block) (t : Nat) : Nat :=
    match lineOf b t with
    | some l => bits ((l[(threadOf b t).pc.toNat / 4 % 32]?).getD 0).toNat 16 10
    | none => 0

/-- Of free threads at one PC, for each lane the oldest (R48 step 2). -/
def oldestPerLane (b : Block) (ts : List Nat) : List Nat :=
  (List.range 64).filterMap fun i => (sortBy (fun t => (threadOf b t).freeAt * 4096 + t) (ts.filter fun t => t % 64 == i)).head?

/-- The line all of a bundle's threads stand in, if they share one. -/
def commonLine (b : Block) (ts : List Nat) : Option (List W32) :=
  match ts with
  | [] => none
  | t :: r => if r.all fun u => (threadOf b u).line == (threadOf b t).line then (threadOf b t).line else none

/-- Bundles from free threads until none is left (R48). -/
def formBundles (cycle : Nat) : Nat → Block → Block
  | 0, b => b
  | f + 1, b =>
    match (List.range b.nthr).find? b.isFree with
    | none => b
    | some t =>
      let pc := (threadOf b t).pc
      let ms := oldestPerLane b ((List.range b.nthr).filter fun u => b.isFree u && (threadOf b u).pc == pc)
      formBundles cycle f (b.modExec fun e =>
        { e with nextBundle := e.nextBundle + 1
                 bundles := e.bundles ++ [{ id := e.nextBundle, members := ms, pc, formedAt := cycle, line := commonLine b ms }] })

/-- REGROUP_POINT: at a cycle that is a multiple of 4, REJOIN sites release or deadlock, block-wide waits and rounds end
that can, free threads form bundles. -/
def execRegroupPoint (core slot : Nat) (s : State) : Host.Outcome State Fault Refusal :=
  .next (match blockOf s core slot with
    | none => s
    | some b =>
      if s.cycle % 4 != 0 || b.phase != .running then s else
      let s := (List.range (gangsOf b.nthr)).foldl (fun s g => if b.exec.model == .threaded then rejoinGang s core slot g else s) s
      let s := if b.exec.model == .threaded && b.liveThreads.isEmpty then finishBlock s core slot
        else blockWait (endRounds s core slot) core slot
      match blockOf s core slot with
      | some b => if b.phase == .running && b.exec.model == .threaded then modBlock s core slot (formBundles s.cycle b.nthr) else s
      | none => s)

/-! ## Events of a block -/

/-- SEAL_WINDOW_GRANT: a free window goes to the block placed first among those that wait (R66). -/
def execSealWindowGrant (core slot : Nat) (s : State) : Host.Outcome State Fault Refusal :=
  .next (match blockOf s core slot with
    | none => s
    | some b =>
      let first := (coreOf s core).slots.all fun e => e.2.exec.sealedWait.isNone || b.placedAt ≤ e.2.placedAt
      if b.exec.sealedWait.isSome && first then takeWindow s core slot else s)

/-- GROW_GRANT (R257). -/
def execGrowGrant (core slot : Nat) (s : State) : Host.Outcome State Fault Refusal := .next (tryGrow s core slot)

/-- WATCHDOG_EXPIRY: a count of a gang has reached its limit (R247). -/
def execWatchdogExpiry (core slot gang : Nat) (s : State) : Host.Outcome State Fault Refusal :=
  .next (match blockOf s core slot with
    | none => s
    | some b =>
      let limit := ((b.exec.limits[gang]?).getD 0).toNat * 256
      let ts := b.liveThreads.filter fun t => t / 64 == gang
      if limit == 0 || b.busy || b.exec.model != .threaded || !ts.any (fun t => (threadOf b t).wdog.toNat ≥ limit) then s else
      let named := ts.filter fun t => 2 * (threadOf b t).wdog.toNat ≥ limit
      let site := if isSealed s b then leastOf (named.map fun t => siteOf s b (threadOf b t).pc.toNat) else none
      let s := deliver s core slot { cause := 15, gang := some gang, lanes := named, site } ts none
      modBlock s core slot fun b => b.modThreads ((List.range b.nthr).filter fun t => t / 64 == gang) fun _ x => { x with wdog := 0 })

/-- An imprecise trap that waits for supervisor code reaches it at an instruction boundary (R311, R493). -/
def supTrap (s : State) (c : Nat) : Option State :=
  match (coreOf s c).supTraps with
  | t :: r => if stopAt (coreOf s c).sup.line (coreOf s c).sup.pc (coreOf s c).sup.wait.toNat then
      some (raiseSelf (modCore s c fun k => { k with supTraps := r }) (.sup c) t none) else none
  | [] => none

/-- TRAP_DELIVERY: the first imprecise trap of a block, or of the core's supervisor code, reaches its stream at an
instruction boundary; with no live stream left the launch aborts (R494). -/
def execTrapDelivery (core slot : Nat) (s : State) : Host.Outcome State Fault Refusal :=
  .next (match supTrap s core with
  | some s => s
  | none => match blockOf s core slot with
    | none => s
    | some b => match b.traps with
      | [] => s
      | t :: r =>
        let ents := imprecisePlaces b t
        let sealed := isSealed s b
        if ents.isEmpty && !sealed then
          abortLaunch s b.launch { cause := t.cause, blk := b.regs.bidx.toNat, addr := t.addr, site := t.site.getD 0 }
        else if b.busy || !(sealed || ents.all b.atStop) then s
        else deliver (modBlock s core slot fun b => { b with traps := r }) core slot { t with lanes := if t.blockWide then [] else ents } ents none)

/-- DEBUG_HALT_STOP: an attached debugger's halt is taken at a stop place (R425); in a sealed region it waits for the EP
(R77). -/
def execDebugHaltStop (core slot : Nat) (s : State) : Host.Outcome State Fault Refusal :=
  .next (match blockOf s core slot with
    | none => s
    | some b =>
      let ents := b.streams.filter b.atStop
      if b.regs.dbgctl.getLsbD 0 && b.regs.dbgctl.getLsbD 2 && b.phase == .running && !isSealed s b && !b.busy && !ents.isEmpty then
        deliver s core slot { cause := 25, debug := true } ents none
      else s)

/-- A context waits in WFI: the interrupt lets WFI complete first (R260). -/
def inWfi (c : Ctl) : Bool :=
  c.wait != 0 && match c.line with
    | some l =>
      let j := c.pc.toNat / 4 % 32
      bits ((l[j]?).getD 0).toNat 31 24 == 0xFF && bits ((l[j + 1]?).getD 0).toNat 31 24 == 0x0A
    | none => false

/-- In replay mode the log's next record, an INT of this retired count, is the interrupt (R417). -/
def replayInterrupt (s : State) (id : CtxId) (live : Option Nat) : Option Nat :=
  match id with
  | .sys n =>
    let y := sysOf s n
    let at_ := y.rplbase.toNat + 32 * y.rplptr.toNat
    if bits y.rplctl.toNat 31 30 == 2 && !y.ctl.handler && y.ctl.intr.intvec != 0 then match readEntry s at_, readEntry s (at_ + 8), readEntry s (at_ + 16) with
      | some (k, _), some (ret, _), some (v, _) => if k % 256 == 3 && ret == y.retired.toNat then some v else live
      | _, _, _ => live
    else live
  | _ => live

/-- INTERRUPT_ENTRY: a context takes its lowest ready interrupt at a stop place (R431). -/
def execInterruptEntry (c : CtxId) (s : State) : Host.Outcome State Fault Refusal :=
  .next (match c, ctlOf s c with
    | .blk _ _, _ => s
    | id, some x => match replayInterrupt s id (readyInterrupt x) with
      | some i => if x.halted || inWfi x || !stopAt x.line x.pc x.wait.toNat then s else enterInterrupt s id i
      | none => s
    | _, none => s)

end Sys2Proof.Machine
end

