-- ==== Sys2Proof/Machine/FloatAlu.lean ====
section
/-! DEFINITION. The float, conversion and SFU functions (spec 08_isa_float.md R186 to R199). -/

namespace Sys2Proof.Machine

/-- An integer result in the destination's width (R187). -/
def intResult (cls : Cls) (v : Int) : Nat := wrapNat (widthOf cls) v
/-- RM is one of the four modes (R99). -/
def xRmOk (o : XOp) : Bool := o.rm.toNat < 4
def xFloatType (o : XOp) : Bool := o.type.toNat ≤ 2 && !o.sat

/-- FADD, FSUB, FMUL, FMA: RM used, FN4 zero (R188). -/
def xArith (o : XOp) (c : Cls) (n : Nat) (f : Fmt → Nat → List Nat → Nat × Nat) : Alu :=
  xAlu o c n (some o.type.toNat) (xFloatType o && xRmOk o && o.fn4 == 0) (f (fmtOf o.type.toNat) o.rm.toNat) true
/-- FMIN, FMAX, FABS, FNEG, FCLASS: RM and FN4 zero (R188). -/
def xPlain (o : XOp) (c : Cls) (n : Nat) (f : Fmt → List Nat → Nat × Nat) : Alu :=
  xAlu o c n (some o.type.toNat) (xFloatType o && o.rm == 0 && o.fn4 == 0) (f (fmtOf o.type.toNat)) true
/-- An SFU function (R188, R197). -/
def xSfu (o : XOp) (c : Cls) (f : SfuFn) : Alu :=
  xAlu o c 1 (some o.type.toNat) (xFloatType o && xRmOk o && o.fn4 == 0) (fun l => (fmtOf o.type.toNat).sfu f o.rm.toNat (aOf l)) true true

/-- FCVT from the format FN4 to TYPE (R195). -/
def fcvtF (c : Cls) (o : XOp) (l : List Nat) : Nat × Nat :=
  let x := (fmtOf o.fn4.toNat).value (aOf l)
  let t := o.type.toNat
  if t ≤ 2 then (fmtOf t).ofValue o.rm.toNat x
  else
    let (v, fl) := toInt (if t = 3 then 32 else 8) o.rm.toNat x
    (intResult c v, fl)

/-- ICVT from INT32 or INT8 (R196). -/
def icvtF (c : Cls) (o : XOp) (l : List Nat) : Nat × Nat :=
  let v := if o.fn4.toNat = 3 then signed 32 (aOf l) else signed 8 (aOf l)
  let t := o.type.toNat
  if t ≤ 2 then (fmtOf t).ofFin o.rm.toNat (decide (v < 0)) v.natAbs 0
  else if t = 4 && o.fn4.toNat = 3 then
    (intResult c (if o.sat then min (max v (-128)) 127 else signed 8 (aOf l)), 0)
  else (intResult c v, 0)

def execFadd (c : Cls) (o : XOp) (s : State) : Host.Outcome State Fault Refusal :=
  withCx s fun cx => cx.alu s (xArith o c 2 fun f rm l => f.add rm (aOf l) (bOf l))
def execFsub (c : Cls) (o : XOp) (s : State) : Host.Outcome State Fault Refusal :=
  withCx s fun cx => cx.alu s (xArith o c 2 fun f rm l => f.sub rm (aOf l) (bOf l))
def execFmul (c : Cls) (o : XOp) (s : State) : Host.Outcome State Fault Refusal :=
  withCx s fun cx => cx.alu s (xArith o c 2 fun f rm l => f.mul rm (aOf l) (bOf l))
def execFma (c : Cls) (o : XOp) (s : State) : Host.Outcome State Fault Refusal :=
  withCx s fun cx => cx.alu s (xArith o c 3 fun f rm l => f.fma rm (aOf l) (bOf l) (cOf l))
def execFmin (c : Cls) (o : XOp) (s : State) : Host.Outcome State Fault Refusal :=
  withCx s fun cx => cx.alu s (xPlain o c 2 fun f l => f.minmax false (aOf l) (bOf l))
def execFmax (c : Cls) (o : XOp) (s : State) : Host.Outcome State Fault Refusal :=
  withCx s fun cx => cx.alu s (xPlain o c 2 fun f l => f.minmax true (aOf l) (bOf l))
def execFabs (c : Cls) (o : XOp) (s : State) : Host.Outcome State Fault Refusal :=
  withCx s fun cx => cx.alu s (xPlain o c 1 fun f l => (aOf l % 2 ^ (f.w - 1), 0))
def execFneg (c : Cls) (o : XOp) (s : State) : Host.Outcome State Fault Refusal :=
  withCx s fun cx => cx.alu s (xPlain o c 1 fun f l => ((aOf l % 2 ^ f.w + 2 ^ (f.w - 1)) % 2 ^ f.w, 0))
def execFcmp (c : Cls) (o : XOp) (s : State) : Host.Outcome State Fault Refusal :=
  withCx s fun cx => cx.aluPred s (xAlu o c 2 (some o.type.toNat) (xFloatType o && o.rm == 0 && o.fn4.toNat ≤ 11)
    (fun l => (fmtOf o.type.toNat).compare o.fn4.toNat (aOf l) (bOf l)) true false .pred)
def execFclass (c : Cls) (o : XOp) (s : State) : Host.Outcome State Fault Refusal :=
  withCx s fun cx => cx.alu s (xPlain o c 1 fun f l => (f.class_ (aOf l), 0))
def execFcvt (c : Cls) (o : XOp) (s : State) : Host.Outcome State Fault Refusal :=
  withCx s fun cx => cx.alu s (xAlu o c 1 (some o.fn4.toNat) (o.type.toNat ≤ 4 && xRmOk o && o.fn4.toNat ≤ 2 && !o.sat) (fcvtF c o) true)
def execIcvt (c : Cls) (o : XOp) (s : State) : Host.Outcome State Fault Refusal :=
  withCx s fun cx => cx.alu s (xAlu o c 1 (some o.fn4.toNat)
    (o.type.toNat ≤ 4 && xRmOk o && (o.fn4.toNat == 3 || o.fn4.toNat == 4) && (!o.sat || (o.fn4.toNat == 3 && o.type.toNat == 4)))
    (icvtF c o) true)
def execFrcp (c : Cls) (o : XOp) (s : State) : Host.Outcome State Fault Refusal :=
  withCx s fun cx => cx.alu s (xSfu o c .rcp)
def execFrsq (c : Cls) (o : XOp) (s : State) : Host.Outcome State Fault Refusal :=
  withCx s fun cx => cx.alu s (xSfu o c .rsq)
def execFsqrt (c : Cls) (o : XOp) (s : State) : Host.Outcome State Fault Refusal :=
  withCx s fun cx => cx.alu s (xSfu o c .sqrt)
def execFexp2 (c : Cls) (o : XOp) (s : State) : Host.Outcome State Fault Refusal :=
  withCx s fun cx => cx.alu s (xSfu o c .exp2)
def execFlog2 (c : Cls) (o : XOp) (s : State) : Host.Outcome State Fault Refusal :=
  withCx s fun cx => cx.alu s (xSfu o c .log2)
def execFsin (c : Cls) (o : XOp) (s : State) : Host.Outcome State Fault Refusal :=
  withCx s fun cx => cx.alu s (xSfu o c .sin)
def execFcos (c : Cls) (o : XOp) (s : State) : Host.Outcome State Fault Refusal :=
  withCx s fun cx => cx.alu s (xSfu o c .cos)
def execFtanh (c : Cls) (o : XOp) (s : State) : Host.Outcome State Fault Refusal :=
  withCx s fun cx => cx.alu s (xSfu o c .tanh)

/-- SFU_RESULT_RETURN: the oldest SFU results of a context return to their registers and latches (R198). -/
def execSfuResultReturn (c : CtxId) (s : State) : Host.Outcome State Fault Refusal :=
  .next (match s.pending.find? fun p => p.ctx == c && p.sfu with
    | some p => returnResult s p
    | none => s)

end Sys2Proof.Machine
end

