-- ==== Sys2Proof/Machine/Fabric.lean ====
section
/-! DEFINITION. The fabric of a span: elements, configuration commands and their checks (spec 15_fabric.md R354 to R358,
R363, R365, R379), buffers (R359, R360), the functions of cells (R364).
Where the spec leaves a point open: notes/assumptions, entry 19. -/

namespace Sys2Proof.Machine

/-! ## Elements (R355) -/

inductive Elem | cell | port | matrix
  deriving DecidableEq, Repr

/-- The kind of an element and the position of its core; none: reserved. -/
def elemOf (e : Nat) : Option (Elem × Nat) :=
  if e < 384 then some (.cell, e / 64) else if e < 480 then some (.port, (e - 384) / 16)
  else if e < 486 then some (.matrix, e - 480) else none
/-- The kind of an element of the span that begins at position `k`. -/
def spanElem (k span e : Nat) : Option Elem :=
  match elemOf e with
  | some (x, p) => if k ≤ p && p < k + span then some x else none
  | none => none

/-! ## Fields (R357, R358, R365) -/

def Fabric.en (f : Fabric) (e : Nat) : Bool := bit (f.field e 1) 0
def Fabric.stf (f : Fabric) (e : Nat) : Bool := bit (f.field e 1) 1
def Fabric.rst (f : Fabric) (e : Nat) : Bool := bit (f.field e 1) 2
def Fabric.arrive (f : Fabric) (e : Nat) : Bool := bits (f.field e 1) 4 3 == 1
/-- KIND and EPOL of input `i`. -/
def Fabric.kindOf (f : Fabric) (e i : Nat) : Nat := bits (f.field e (2 + i)) 1 0
def Fabric.epol (f : Fabric) (e i : Nat) : Nat := bits (f.field e (2 + i)) 3 2
/-- The target element and input of a valid destination field. -/
def destOf (v : Nat) : Option (Nat × Nat) := if bit v 15 then some (bits v 9 0, bits v 14 13) else none
def Fabric.dests (f : Fabric) (e : Nat) : List (Nat × Nat) := [5, 6].filterMap fun d => destOf (f.field e d)
/-- The channel inputs of an element: A is S in a stateful cell (R362). -/
def Fabric.channels (f : Fabric) (e : Nat) : List Nat :=
  if e < 384 then (List.range 3).filter fun i => f.kindOf e i == 1 && !(i == 0 && f.stf e) else [0]
/-- Format word and parcel-1 fields of a matrix port element (R365). -/
def Fabric.fw (f : Fabric) (e : Nat) : Nat := f.field e 0 + 65536 * f.field e 1
def Fabric.p1 (f : Fabric) (e : Nat) : Nat := bits (f.field e 2) 11 0 * 65536
def Fabric.mmas (f : Fabric) (e : Nat) : Bool := bit (f.field e 2) 12
def Fabric.mpEn (f : Fabric) (e : Nat) : Bool := bit (f.field e 2) 13

/-! ## Checks of commands (R356 to R358, R365, R379) -/

/-- The function codes R107 assigns. -/
def opAssigned (op : Nat) : Bool := op ≤ 0x24 || (0x28 ≤ op && op ≤ 0x33) || (0x38 ≤ op && op ≤ 0x3F)

/-- Whether another valid destination of the span names this input. -/
def Fabric.named (f : Fabric) (key : Nat) (d : Nat × Nat) : Bool :=
  f.fields.any fun x => x.1 != key && (x.1 % 64 == 5 || x.1 % 64 == 6) && destOf x.2.toNat == some d

/-- A destination field as it stands (R357). -/
def destOk (k span : Nat) (f : Fabric) (e fld : Nat) : Bool :=
  let v := f.field e fld
  bits v 12 10 == 0 && bits v 14 13 != 3 && match destOf v with
    | none => true
    | some (t, i) => (match spanElem k span t with
        | some .cell => true
        | some _ => i == 0
        | none => false) && !f.named (fabKey e fld) (t, i)

/-- FMT, RM, SAT and FN4 suit OP (R135, R188). -/
def fnFieldsOk (op fmt rm fn4 : Nat) (sat : Bool) : Bool :=
  if op < 0x28 then fmt == 0 && rm == 0 && (!sat || op == 5) && (fn4 == 0 || op == 0x22 || op == 0x24) && (op != 0x22 || fn4 ≤ 11)
  else if op == 0x32 then fmt ≤ 4 && fn4 ≤ 2 && !sat
  else if op == 0x33 then fmt ≤ 4 && (fn4 == 3 || fn4 == 4) && (!sat || (fn4 == 3 && fmt == 4))
  else fmt ≤ 2 && !sat && (if op == 0x30 then fn4 ≤ 11 else fn4 == 0) && (rm == 0 || !((0x2C ≤ op && op ≤ 0x31)))

/-- An enabled cell's fields agree (R357, R363). -/
def cellOk (f : Fabric) (e : Nat) : Bool :=
  let c := f.field e 1
  fnFieldsOk (f.field e 0) (bits c 11 8) (bits c 7 5) (bits (f.field e 7) 3 0) (bit c 12) &&
    (!f.stf e || f.kindOf e 0 == 0) && (!f.arrive e || (f.field e 0 == 0x21 && !f.stf e))

/-- A matrix port element may issue: FW and P1 are valid but for REF, and its slots are claimed (R365). -/
def mportOk (cl : Claim) (f : Fabric) (e : Nat) : Bool :=
  let p1 := f.p1 e
  formatOk (f.fw e) p1 (f.mmas e) none && (!f.mmas e || bits p1 27 25 < 4) &&
    (dstSlots (f.mmas e) p1).all cl.acc.getLsbD && cl.tb.getLsbD (mmaTa p1) && cl.tb.getLsbD (mmaTb p1)

/-- Whether a command is accepted; `f` is the fabric with the command applied (R356). -/
def cmdOk (k span : Nat) (cl : Claim) (f : Fabric) (cmd : W32) : Bool :=
  let e := bits cmd.toNat 31 22
  let fld := bits cmd.toNat 21 16
  let v := bits cmd.toNat 15 0
  match spanElem k span e with
  | some .cell =>
    (match fld with
      | 0 => opAssigned v
      | 1 => v < 8192 && bits v 7 5 < 4 && bits v 4 3 < 2
      | 2 => v < 16 && bits v 3 2 != 3
      | 3 => v < 16 && bits v 3 2 != 3
      | 4 => v < 16 && bits v 3 2 != 3
      | 5 => destOk k span f e 5
      | 6 => destOk k span f e 6
      | 7 => v < 16
      | _ => 8 ≤ fld && fld ≤ 13) && (!f.en e || cellOk f e)
  | some .port => (fld == 5 || fld == 6) && destOk k span f e fld
  | some .matrix =>
    match fld with
    | 0 => true
    | 1 => true
    | 2 => v < 16384 && (!f.mpEn e || mportOk cl f e)
    | 5 => destOk k span f e 5
    | _ => false
  | none => false

/-- A list of commands checked one after the other: the fabric after it, or the index of the first that fails. -/
def checkCmds (k span : Nat) (cl : Claim) : Fabric → Nat → List W32 → Except Nat Fabric
  | f, _, [] => .ok f
  | f, i, c :: r =>
    let f := f.apply c
    if cmdOk k span cl f c then checkCmds k span cl f (i + 1) r else .error i

/-- The merge rule of ARRIVE cells (R379). -/
def mergeOk (f : Fabric) : Bool :=
  (List.range 384).all fun e => !(f.en e && f.arrive e) || (f.dests e).all fun (t, i) =>
    match elemOf t with
    | some (.cell, _) => i == 1 && f.stf t && [0x00, 0x0C, 0x0D, 0x0E, 0x0F, 0x12, 0x13, 0x14].contains (f.field t 0) &&
        bits (f.field t 1) 11 8 == 0 && f.kindOf t 2 == 0
    | some (.matrix, _) => bits (f.fw t) 3 0 == 5 && bits (f.fw t) 7 4 == 5
    | _ => false

/-- A list checked whole: every command, then the merge rule (R356, R379); the error is the index of the command. -/
def checkList (k span : Nat) (cl : Claim) (f : Fabric) (cmds : List W32) : Except Nat Fabric :=
  match checkCmds k span cl f 0 cmds with
  | .ok f => if mergeOk f then .ok f else .error 0
  | .error i => .error i

/-! ## Applying commands (R372, R373) -/

/-- A command with its site takes effect. -/
def Fabric.put (f : Fabric) (c : W32 × Nat) : Fabric :=
  let e := bits c.1.toNat 31 22
  { f.apply c.1 with sites := Table.set f.sites e c.2 }
def Fabric.putAll (f : Fabric) (l : List (W32 × Nat)) : Fabric := l.foldl Fabric.put f
/-- The fabric as it will stand after every CFG and SPLICE issued so far. -/
def Fabric.coming (f : Fabric) : Fabric :=
  match f.splice with
  | none => f
  | some (l, passed) => (f.putAll (l.filter fun c => !passed.contains (bits c.1.toNat 31 22))).putAll f.later

/-- An element has passed the wavefront: its own commands of the successor apply (R373). -/
def Fabric.pass (f : Fabric) (e : Nat) : Fabric :=
  match f.splice with
  | none => f
  | some (l, passed) => { f.putAll (l.filter fun c => bits c.1.toNat 31 22 == e) with splice := some (l, e :: passed) }

/-! ## Buffers (R359, R360) -/

def tokData : BitVec 3 := 0
def tokEmpty : BitVec 3 := 1
def tokEor : BitVec 3 := 2
def tokDrain : BitVec 3 := 3
def tokSplice : BitVec 3 := 4
def tokSliceEnd : BitVec 3 := 5
/-- DRAIN, SPLICE and SLICE_END: markers other than EOR. -/
def Token.marker (t : Token) : Bool := t.kind == tokDrain || t.kind == tokSplice || t.kind == tokSliceEnd

def Fabric.buf (f : Fabric) (e i : Nat) : List Token := Table.getD f.bufs (4 * e + i) []
def Fabric.setBuf (f : Fabric) (e i : Nat) (l : List Token) : Fabric :=
  { f with bufs := if l.isEmpty then Table.erase f.bufs (4 * e + i) else Table.set f.bufs (4 * e + i) l }
/-- Every destination can accept a token (R360). -/
def Fabric.canSend (f : Fabric) (ds : List (Nat × Nat)) : Bool := ds.all fun d => (f.buf d.1 d.2).length < 2
/-- A token goes to its destinations. -/
def Fabric.send (f : Fabric) (ds : List (Nat × Nat)) (t : Token) (cycle : Nat) : Fabric :=
  ds.foldl (fun f d => f.setBuf d.1 d.2 (f.buf d.1 d.2 ++ [{ t with at_ := cycle }])) f
def Fabric.drop (f : Fabric) (e i : Nat) : Fabric := f.setBuf e i ((f.buf e i).drop 1)
/-- The heads of an element's channel inputs; none while one is empty or there is no channel (R357). -/
def Fabric.heads (f : Fabric) (e : Nat) : Option (List (Nat × Token)) :=
  let hs := (f.channels e).map fun i => (i, (f.buf e i).head?)
  if hs.isEmpty || hs.any fun h => h.2.isNone then none else some (hs.filterMap fun h => h.2.map fun t => (h.1, t))
def Fabric.empty (f : Fabric) : Bool := f.bufs.all fun e => e.2.isEmpty

/-! ## Functions of cells (R364) -/

/-- Op(A, B, C) at W = 32: value and flags. -/
def cellFn (op fmt rm fn4 : Nat) (sat : Bool) (l : List Nat) : Nat × Nat :=
  let f := fmtOf fmt
  let a := aOf l
  let b := bOf l
  let x : XOp := { p := { dreg := 0, nwb := false, srcA := 0, srcB := 0, grd := 0 }, srcC := 0, rm := BitVec.ofNat 3 rm, sat,
                   type := BitVec.ofNat 4 fmt, fn4 := BitVec.ofNat 4 fn4, z := 0 }
  match op with
  | 0x00 => (addF 32 l, 0)
  | 0x01 => (subF 32 l, 0)
  | 0x02 => (mulF 32 l, 0)
  | 0x03 => (mulhF 32 l, 0)
  | 0x04 => (mulhuF 32 l, 0)
  | 0x05 => (madF 32 sat l, 0)
  | 0x06 => divF 32 (divS 32) l
  | 0x07 => divF 32 (fun a b => a / b) l
  | 0x08 => divF 32 (remS 32) l
  | 0x09 => divF 32 (fun a b => a % b) l
  | 0x0A => (negF 32 l, 0)
  | 0x0B => (absF 32 l, 0)
  | 0x0C => (minF 32 l, 0)
  | 0x0D => (maxF 32 l, 0)
  | 0x0E => (minuF l, 0)
  | 0x0F => (maxuF l, 0)
  | 0x10 => (addsatF 32 l, 0)
  | 0x11 => (subsatF 32 l, 0)
  | 0x12 => (andF l, 0)
  | 0x13 => (orF l, 0)
  | 0x14 => (xorF l, 0)
  | 0x15 => (andnF 32 l, 0)
  | 0x16 => (notF 32 l, 0)
  | 0x17 => (shlF 32 l, 0)
  | 0x18 => (shrF 32 l, 0)
  | 0x19 => (sarF 32 l, 0)
  | 0x1A => (rolF 32 l, 0)
  | 0x1B => (clzF 32 l, 0)
  | 0x1C => (popcF 32 l, 0)
  | 0x1D => (brevF 32 l, 0)
  | 0x1E => (bfxF 32 l, 0)
  | 0x1F => (bfiF 32 l, 0)
  | 0x20 => (selF l, 0)
  | 0x21 => (a, 0)
  | 0x22 => (cmpF 32 fn4 l, 0)
  | 0x23 => (leaF 32 l, 0)
  | 0x24 => (if plogBit fn4 (bit a 0) (bit b 0) then 1 else 0, 0)
  | 0x28 => f.add rm a b
  | 0x29 => f.sub rm a b
  | 0x2A => f.mul rm a b
  | 0x2B => f.fma rm a b (cOf l)
  | 0x2C => f.minmax false a b
  | 0x2D => f.minmax true a b
  | 0x2E => (a % 2 ^ (f.w - 1), 0)
  | 0x2F => ((a % 2 ^ f.w + 2 ^ (f.w - 1)) % 2 ^ f.w, 0)
  | 0x30 => f.compare fn4 a b
  | 0x31 => (f.class_ a, 0)
  | 0x32 => fcvtF .g x l
  | 0x33 => icvtF .g x l
  | 0x38 => f.sfu .rcp rm a
  | 0x39 => f.sfu .rsq rm a
  | 0x3A => f.sfu .sqrt rm a
  | 0x3B => f.sfu .exp2 rm a
  | 0x3C => f.sfu .log2 rm a
  | 0x3D => f.sfu .sin rm a
  | 0x3E => f.sfu .cos rm a
  | _ => f.sfu .tanh rm a

/-- Functions that count as payload (R79). -/
def opPayload (op : Nat) : Bool := [0x02, 0x03, 0x04, 0x05, 0x10, 0x11].contains op || 0x28 ≤ op
/-- SFU functions (R107). -/
def opSfu (op : Nat) : Bool := 0x38 ≤ op

end Sys2Proof.Machine
end

