-- ==== Sys2Proof/Machine/FabricRun.lean ====
section
/-! DEFINITION. What moves in the fabric of a span (spec 15_fabric.md R359 to R370, R373, R377; 11_memories.md R277):
firings, markers, the matrix port, stream ports. Each event acts for one element of the span of the block in a slot; a
token crosses its channel as it is sent.
Where the spec leaves a point open: notes/assumptions, entry 19. -/

namespace Sys2Proof.Machine

def modFab (s : State) (c sl : Nat) (f : Fabric → Fabric) : State := modBlock s c sl fun b => { b with fab := f b.fab }

/-- A fault of an element (R370): `addr` none for the element's own address. -/
def elemFault (s : State) (c sl : Nat) (b : Block) (cause e : Nat) (addr : Option Nat := none) (wst detail : Nat := 0) : State :=
  fabricFault s c sl cause (addr.getD e) (Table.getD b.fab.sites e 0) wst detail

/-! ## Trace (R412, R413) -/

/-- A marked token passes an element. -/
def TraceRec.pass (r : TraceRec) (e arrived now : Nat) : TraceRec :=
  { r with nhop := min (r.nhop + 1) 255, hops := r.hops.take 5 ++ [(e, arrived - r.birth, now - r.birth)] }
/-- The token as it leaves an element. -/
def Token.leaving (t : Token) (e now : Nat) : Token := { t with mark := t.mark.map fun r => r.pass e t.at_ now }
/-- The record of a token that ends here. -/
def sinkTrace (s : State) (c sl : Nat) (t : Token) : State :=
  match t.mark with
  | none => s
  | some r => writeTrace s c sl 1 r.nhop r.cver.toNat t.rnd.toNat r.birth
      (r.hops.flatMap fun h => valBytes 8 (h.1 * 2 ^ 48 + min h.2.1 (2 ^ 24 - 1) * 2 ^ 24 + min h.2.2 (2 ^ 24 - 1)))

/-! ## Streams that begin and end (R367 to R369, R373, R376) -/

/-- A port's pending stream starts when none is active, behind the splice or CFG it was issued after. -/
def Fabric.start (f : Fabric) (i : Nat) : Fabric :=
  let p := Table.getD f.ports i {}
  match p.active, p.pending with
  | none, some a =>
    let behind := match f.splice with
      | some (_, passed) => (a.behindSplice && !passed.contains (384 + i)) || a.afterCfg
      | none => false
    if behind || p.stopped then f else { f with ports := Table.set f.ports i { p with active := some a, pending := none, waitFrom := none } }
  | _, _ => f
def Fabric.modPort (f : Fabric) (i : Nat) (g : Port → Port) : Fabric := { f with ports := Table.set f.ports i (g (Table.getD f.ports i {})) }
def Fabric.modStream (f : Fabric) (i : Nat) (g : StreamSpec → StreamSpec) : Fabric :=
  f.modPort i fun p => { p with active := p.active.map g }
/-- The active stream of a port ends. -/
def Fabric.endStream (f : Fabric) (i : Nat) : Fabric :=
  (f.modPort i fun p => { p with active := none, ended := p.ended + 1, last := (p.active.map (·.taken)).getD 0, waitFrom := none }).start i

/-- Every input port of the span, by its valid destinations, has sent the marker. -/
def Fabric.portsPassed (f : Fabric) (k : Nat) (passed : List Nat) : Bool :=
  (upFrom (384 + 16 * k) (16 * f.span)).all fun e => (f.dests e).isEmpty || passed.contains e
/-- A splice ends when SPLICE has left every port: elements no wavefront reached apply their commands, CVER is the new
version, later CFGs apply (R372, R373). -/
def Fabric.settle (f : Fabric) (k : Nat) : Fabric :=
  match f.splice with
  | none => f
  | some (l, passed) =>
    if !f.portsPassed k passed || f.bufs.any (fun q => q.2.any fun t => t.kind == tokSplice) then f else
    let f := f.putAll (l.filter fun c => !passed.contains (bits c.1.toNat 31 22))
    let f := { f.putAll f.later with splice := none, later := [], cver := f.cver + 1 }
    f.ports.foldl (fun f e => f.start e.1) f
/-- A drain is done when every input port has stopped and no token is left (R377). -/
def Fabric.drained (f : Fabric) (k : Nat) : Bool :=
  match f.drain with
  | none => false
  | some d => f.portsPassed k d.passed && f.empty

/-- After a step from `s` to `t` of a spatial block the lines in ways that its streams have taken are evicted (R270). None:
a write-back must wait, and the step with it. -/
def giveStreams (s t : State) (c span : Nat) : Option State :=
  (upFrom c span).foldl (fun r x => r.bind fun t => if lineWays t x < lineWays s x then giveWays t x (lineWays t x) else some t) (some t)

/-- An event of the fabric of a spatial block in a slot. -/
def fabEvent (s : State) (c sl : Nat) (g : Block → State) : State :=
  match blockOf s c sl with
  | none => s
  | some b => if b.exec.model != .spatial then s else
    (giveStreams s (modFab (g b) c sl fun f => f.settle (posOfCore c)) c b.fab.span).getD s

/-! ## Cells (R361 to R364) -/

/-- The energy and counts of a firing (R79, R410): one issue slot for each core of the span in a cycle with a firing. -/
def countFire (s : State) (c sl op : Nat) (fires : Bool) : State :=
  match blockOf s c sl with
  | none => s
  | some b =>
    let s := if b.fab.firedAt == s.cycle + 1 then s else
      energyBlock (modBlock s c sl fun b => { b.addMeter 0 b.fab.span with fab := { b.fab with firedAt := s.cycle + 1 } }) c sl 1 b.fab.span
    let pay := opPayload op
    let s := energyBlock (modBlock s c sl fun b => b.addMeter (if pay then 1 else 2) 1) c sl (if pay then 3 else 2) 1
    let s := energyBlock s c sl 13 1
    if fires && opSfu op then energyBlock s c sl 4 1 else s

/-- EOR r at every channel input of a cell that is not stateful: consumed, one sent (R361, R363). -/
def forwardEor (s : State) (c sl : Nat) (b : Block) (e : Nat) (hs : List (Nat × Token)) : State :=
  match hs with
  | [] => s
  | (_, t) :: r =>
    if r.any fun h => h.2.rnd != t.rnd then elemFault s c sl b 23 e
    else if !b.fab.canSend (b.fab.dests e) then s
    else modFab s c sl fun f =>
      let ds := f.dests e
      (hs.foldl (fun f h => f.drop e h.1) f).send ds { kind := tokEor, rnd := t.rnd, pay := 0 } s.cycle

/-- An operand of a firing: none when it is EMPTY and its policy is not replace. -/
def fireOperand (f : Fabric) (e i : Nat) (hs : List (Nat × Token)) : Option Nat :=
  let k0 := f.word e 0x08
  let k1 := f.word e 0x0A
  if i == 0 && f.stf e then some (f.word e 0x0C)
  else match f.kindOf e i with
    | 0 => some 0
    | 1 => match hs.find? (·.1 == i) with
      | some (_, t) => if t.kind == tokData then some t.pay.toNat
          else if f.epol e i == 2 then some (if i == 1 then k1 else k0) else none
      | none => none
    | 2 => some k0
    | _ => some k1

/-- A cell fires on heads of one round that are not all EOR (R361, R362, R364). -/
def fire (s : State) (c sl : Nat) (b : Block) (e : Nat) (hs : List (Nat × Token)) (r : Byte) : State :=
  let f := b.fab
  let ops := (List.range 3).map fun i => fireOperand f e i hs
  let empty := (List.range 3).filter fun i => ((ops[i]?).getD none).isNone
  let ctl := f.field e 1
  let op := f.field e 0
  let (v, fl) := if empty.isEmpty then
      cellFn op (bits ctl 11 8) (bits ctl 7 5) (bits (f.field e 7) 3 0) (bit ctl 12) (ops.map fun o => o.getD 0)
    else (0, 0)
  let out : Option Token :=
    if f.stf e then none
    else if empty.isEmpty then some { kind := tokData, rnd := r, pay := BitVec.ofNat 32 v }
    else if empty.any fun i => f.epol e i == 1 then some { kind := tokEmpty, rnd := r, pay := 0 } else none
  let ds := f.dests e
  if out.isSome && !f.canSend ds then s else
  let took := hs.filter fun h => h.2.kind != tokEor
  let marked := (took.map (·.2)).filter fun t => t.mark.isSome
  let ends := if out.isSome then marked.drop 1 else marked
  let s := modFab s c sl fun f =>
    let f := took.foldl (fun f h => f.drop e h.1) f
    let f := if f.stf e && empty.isEmpty then f.setWord e 0x0C (v % 2 ^ 32) else f
    match out with
    | some t => f.send ds { t with mark := (marked.head?).bind fun m => (m.leaving e s.cycle).mark } s.cycle
    | none => f
  let s := if empty.isEmpty then orFstat s c sl (fl % 128) else s
  ends.foldl (fun s t => sinkTrace s c sl t) (countFire s c sl op empty.isEmpty)

/-- CELL_FIRE: an enabled cell that is not an ARRIVE cell. -/
def execCellFire (core slot elem : Nat) (s : State) : Host.Outcome State Fault Refusal :=
  .next (fabEvent s core slot fun b =>
    let f := b.fab
    if spanElem (posOfCore core) f.span elem != some .cell || !f.en elem || f.arrive elem || !(f.buf elem 3).isEmpty then s else
    match f.heads elem with
    | none => s
    | some hs =>
      if hs.any fun h => h.2.marker then s
      else if hs.all fun h => h.2.kind == tokEor then (if f.stf elem then s else forwardEor s core slot b elem hs)
      else
        let r := ((hs.head?).map (·.2.rnd)).getD 0
        if hs.any fun h => h.2.rnd != r then elemFault s core slot b 23 elem else fire s core slot b elem hs r)

/-- STATEFUL_RELEASE (R362): DATA S, then EOR, then S := K0 with RST. While the EOR finds no room it is owed; it goes to
the destinations of the DATA before it. -/
def execStatefulRelease (core slot elem : Nat) (s : State) : Host.Outcome State Fault Refusal :=
  .next (fabEvent s core slot fun b =>
    let f := b.fab
    if spanElem (posOfCore core) f.span elem != some .cell || !f.en elem || !f.stf elem then s else
    let finish := fun (s : State) (ds : List (Nat × Nat)) (r : Byte) => modFab s core slot fun f =>
      if !f.canSend ds then f else
      let f := (f.channels elem).foldl (fun f i => f.drop elem i) (f.setBuf elem 3 [])
      let f := f.send ds { kind := tokEor, rnd := r, pay := 0 } s.cycle
      if f.rst elem then f.setWord elem 0x0C (f.word elem 0x08) else f
    match f.buf elem 3 with
    | t :: _ => finish s ([t.pay.toNat % 65536, t.pay.toNat / 65536].filterMap destOf) t.rnd
    | [] => match f.heads elem with
      | none => s
      | some hs =>
        if !(hs.all fun h => h.2.kind == tokEor) then s else
        let r := ((hs.head?).map (·.2.rnd)).getD 0
        let ds := f.dests elem
        if hs.any fun h => h.2.rnd != r then elemFault s core slot b 23 elem
        else if !f.canSend ds then s
        else
          let owed : Token := { kind := tokEor, rnd := r, pay := BitVec.ofNat 32 (f.field elem 5 + 65536 * f.field elem 6) }
          let s := modFab s core slot fun f =>
            (f.send ds { kind := tokData, rnd := r, pay := BitVec.ofNat 32 (f.word elem 0x0C) } s.cycle).setBuf elem 3 [owed]
          finish s ds r)

/-- ARRIVE_FORWARD (R363). -/
def execArriveForward (core slot elem : Nat) (s : State) : Host.Outcome State Fault Refusal :=
  .next (fabEvent s core slot fun b =>
    let f := b.fab
    if spanElem (posOfCore core) f.span elem != some .cell || !f.en elem || !f.arrive elem then s else
    let eors := match f.heads elem with
      | some hs => if hs.all fun h => h.2.kind == tokEor then some hs else none
      | none => none
    match eors with
    | some hs => forwardEor s core slot b elem hs
    | none =>
      let hs := (f.channels elem).filterMap fun i => ((f.buf elem i).head?).map fun t => (i, t)
      let hs := sortBy (fun (h : Nat × Token) => h.2.at_ * 4 + h.1) (hs.filter fun h => h.2.kind == tokData || h.2.kind == tokEmpty)
      let ds := f.dests elem
      match hs with
      | [] => s
      | (i, t) :: _ => if !f.canSend ds then s else
          countFire (modFab s core slot fun f => (f.drop elem i).send ds (t.leaving elem s.cycle) s.cycle) core slot 0x21 false)

/-! ## Markers (R359, R373) -/

/-- MARKER_FORWARD: a cell or a matrix port element. EOR passes a matrix port, and a cell that is not enabled. -/
def execMarkerForward (core slot elem : Nat) (s : State) : Host.Outcome State Fault Refusal :=
  .next (fabEvent s core slot fun b =>
    let f := b.fab
    match spanElem (posOfCore core) f.span elem, f.heads elem with
    | some x, some hs =>
      if x == .port then s else
      let k := ((hs.head?).map (·.2.kind)).getD 0
      let ds := f.dests elem
      if !hs.all fun h => h.2.kind == k then s
      else if k == tokEor then (if x == .matrix || !f.en elem || !f.stf elem then forwardEor s core slot b elem hs else s)
      else if !(hs.all fun h => h.2.marker) || !f.canSend ds then s
      else modFab s core slot fun f =>
        let t := ((hs.head?).map (·.2)).getD { kind := k, rnd := 0, pay := 0 }
        let f := (hs.foldl (fun f h => f.drop elem h.1) f).send ds t s.cycle
        if k == tokSplice then f.pass elem else f
    | _, _ => s)

/-! ## The matrix port element (R365) -/

/-- MATRIX_PORT_ISSUE. -/
def execMatrixPortIssue (core slot elem : Nat) (s : State) : Host.Outcome State Fault Refusal :=
  .next (fabEvent s core slot fun b =>
    let f := b.fab
    if spanElem (posOfCore core) f.span elem != some .matrix || !f.mpEn elem then s else
    let x := core - posOfCore core + (elem - 480)
    match f.buf elem 0 with
    | [] => s
    | t :: _ =>
      if t.kind == tokEmpty then sinkTrace (modFab s core slot fun f => f.drop elem 0) core slot t
      else if t.kind != tokData then s
      else
        let p1 := f.p1 elem
        let ref := agRef (Store.get (coreOf s x).ag (pairOf (f.mmas elem) p1)).toNat
        if !formatOk (f.fw elem) p1 (f.mmas elem) (some ref) then elemFault s core slot b 2 elem else
        let en : Mq := { slot := slot, who := 0, site := Table.getD f.sites elem 0, port := some elem,
                         op := .mma (f.mmas elem) (BitVec.ofNat 32 p1) (BitVec.ofNat 32 (f.fw elem)) }
        -- a destination outside AMASK of a sealed region (R63, R224)
        if isSealed s b && (dstSlots (f.mmas elem) p1).any fun j => !bit (regionOf s b).amask j then elemFault s core slot b 17 elem
        else if queueLen s x ≥ 16 then s
        else
          let s := modBlock (modFab s core slot fun f => f.drop elem 0) core slot fun b => b.addMeter 1 64
          placeEntry (sinkTrace s core slot t) x en)

/-! ## Input ports (R277, R367, R380) -/

/-- Address of a position (R366). -/
def StreamSpec.addr (a : StreamSpec) (n : Nat) : Int :=
  let c := fun (i : Nat) => (a.cnt[i]?).getD 1
  let st := fun (i : Nat) => (a.strd[i]?).getD 0
  let r := n / c 0
  (a.base : Int) + (n % c 0 : Nat) * st 0 + (r % c 1 : Nat) * st 1 + (r / c 1 : Nat) * st 2
/-- Whether gating leaves a position out. -/
def StreamSpec.gated (a : StreamSpec) (n : Nat) : Bool := a.gate && !a.pred.getLsbD (n % 256)
def StreamSpec.line (a : StreamSpec) (n : Nat) : Nat := (a.addr n).toNat / 128
/-- The next position that is read: gating repeats every 256 positions. -/
def StreamSpec.nextRead (a : StreamSpec) : Option Nat :=
  (upFrom a.pos 256).find? fun n => n < a.total && !a.gated n
/-- The lines before that of the next element read are freed: TAIL advances (R277). -/
def StreamSpec.free (a : StreamSpec) : StreamSpec :=
  match a.nextRead with
  | none => { a with lines := [] }
  | some n => { a with lines := a.lines.dropWhile fun l => l.1 / 128 != a.line n }
/-- HEAD: the first position from `scan` on whose line is to be filled; at most `fuel` positions are looked at. -/
def StreamSpec.seek : Nat → StreamSpec → StreamSpec × Option Nat
  | 0, a => (a, none)
  | f + 1, a =>
    if a.scan ≥ a.total then (a, none)
    else if a.gated a.scan || a.headLine == some (a.line a.scan) then StreamSpec.seek f { a with scan := a.scan + 1 }
    else (a, some a.scan)
/-- Whether the stream has begun a round and not sent its EOR. -/
def StreamSpec.midRound (a : StreamSpec) : Bool :=
  a.eorDue || (a.taken != 0 && a.pos < a.total && (a.rlen == 0 || a.pos % a.rlen != 0))
/-- The stream goes past its position (R366 to R368). -/
def StreamSpec.step (a : StreamSpec) : StreamSpec :=
  { a with pos := a.pos + 1, taken := a.taken + 1, eorDue := a.pos + 1 ≥ a.total || a.roundAt (a.pos + 1) != a.roundAt a.pos }

/-- The active stream of a port, if it may move. -/
def Block.stream (b : Block) (i : Nat) (output : Bool) : Option StreamSpec :=
  let p := Table.getD b.fab.ports i {}
  if p.stopped then none else p.active.filter fun a => a.output == output

/-- A stream access meets a fault (R370), or an absent page, for which its port waits (R367, R388); one that must wait is
tried again. -/
def streamFault (s : State) (c sl : Nat) (b : Block) (i va kind : Nat) (w : Nat × Nat) : State :=
  if w.1 == 7 then s
  else if w.1 == 4 then
    requestPage (modFab s c sl fun f => f.modStream i fun a => { a with waitPage := true }) b.asid b.part va kind 2 (c - posOfCore c + i / 16) w.2
  else elemFault s c sl b (if w.1 == 6 then 24 else 8) (384 + i) (some va) (if w.1 == 6 then 0 else w.1) kind

/-- STREAM_WINDOW_FILL: the next line of an input stream's window arrives. -/
def execStreamWindowFill (core slot port : Nat) (s : State) : Host.Outcome State Fault Refusal :=
  .next (fabEvent s core slot fun b =>
    match b.stream port false with
    | none => s
    | some a =>
      if a.loc || a.waitPage then s else
      let (a, n?) := a.free.seek 4096
      let s := modFab s core slot fun f => f.modStream port fun _ => a
      match n? with
      | none => s
      | some n =>
        if a.lines.length ≥ a.win then s else
        let va := a.line n * 128
        match engineTranslate s (.blk core slot) b.asid b.part va 0 with
        | (s, .error w) => streamFault s core slot b port (a.addr n).toNat 0 w
        | (s, .ok pa) =>
          if isPackage pa && unserved s pa then s else
          let (s, bs, bad) := if isPackage pa then
              let (s, bs, bad) := readHome s pa 128 none
              (charge s (.blk core slot) 6 128 (ewtOf s 9), bs, bad)
            else
              let s := if isHost pa then emit s (.hostRead 0 (pa % 2 ^ 48) 128) else s
              let (s, bs) := outsideBytes s 128
              (charge s (.blk core slot) 10 128 (128 * ewtOf s 11), bs, false)
          modFab s core slot fun f => (f.modStream port fun a =>
            { a with lines := a.lines ++ [(va, bs, bad)], headLine := some (va / 128), scan := n + 1 }).modPort port fun p => { p with waitFrom := none })

/-- The element of the stream's position: bytes and poison; none while its line is not in the window. -/
def streamElement (b : Block) (a : StreamSpec) : Option (List Byte × Bool) :=
  let va := (a.addr a.pos).toNat
  if a.loc then some (b.mem.loadLoc va a.wid)
  else match a.free.lines.head? with
    | some (l, bs, bad) => if l / 128 == va / 128 then some ((bs.drop (va % 128)).take a.wid, bad) else none
    | none => none

/-- A DATA token of an input port, marked if tracing says so (R412, R413). -/
def portToken (s : State) (b : Block) (i : Nat) (r : Nat) (v : Nat) : Token :=
  let p := Table.getD b.fab.ports i {}
  let on := b.regs.trcctl.getLsbD 31 && p.sent % 2 ^ bits b.regs.trcctl.toNat 23 20 == 0
  { kind := tokData, rnd := BitVec.ofNat 8 r, pay := BitVec.ofNat 32 v,
    mark := if on then some { birth := s.cycle, cver := b.fab.cver, rnd := BitVec.ofNat 8 r, nhop := 0, hops := [] } else none }

/-- An input port sends the element of its position, or EMPTY for a gated one (R367). -/
def sendPosition (s : State) (c sl : Nat) (b : Block) (i : Nat) (a : StreamSpec) (ds : List (Nat × Nat)) : State :=
  let r := a.roundAt a.pos
  if a.gated a.pos then modFab s c sl fun f =>
    (f.send ds { kind := tokEmpty, rnd := BitVec.ofNat 8 r, pay := 0 } s.cycle).modStream i fun a => a.step.free
  else match streamElement b a with
    | none => modFab s c sl fun f => f.modPort i fun p => { p with waitFrom := some (p.waitFrom.getD s.cycle) }
    | some (bs, bad) =>
      if bad then elemFault s c sl b 24 (384 + i) (some (a.addr a.pos).toNat) else
      let s := if a.loc then energyBlock s c sl 12 1 else s
      let x := bytesVal bs
      let v := if a.sgn then wrapNat 32 (signed (8 * a.wid) x) else x
      modFab s c sl fun f => ((f.send ds (portToken s b i r v) s.cycle).modStream i fun a => a.step.free).modPort i fun p =>
        { p with sent := p.sent + 1, waitFrom := none }

/-- The marker of a drain leaves an input port that has stopped (R377). -/
def sendDrain (s : State) (c sl : Nat) (b : Block) (i : Nat) (d : Drain) (ds : List (Nat × Nat)) : State :=
  if ds.isEmpty || d.passed.contains (384 + i) || !b.fab.canSend ds then s else
  modFab s c sl fun f => { f.send ds { kind := if d.slice then tokSliceEnd else tokDrain, rnd := 0, pay := 0 } s.cycle with
    drain := some { d with passed := (384 + i) :: d.passed } }

/-- STREAM_INPUT_SEND: an input port sends its next token, or the marker that is due. -/
def execStreamInputSend (core slot port : Nat) (s : State) : Host.Outcome State Fault Refusal :=
  .next (fabEvent s core slot fun b =>
    let f := b.fab
    let e := 384 + port
    let ds := f.dests e
    if spanElem (posOfCore core) f.span e != some .port || (Table.getD f.ports port {}).stopped then s else
    match (Table.getD f.ports port {}).active with
    | some a =>
      if a.output then s
      else if !(f.buf e 0).isEmpty then elemFault s core slot b 23 e
      else if !a.midRound && f.drain.isSome then
        (match f.drain with
          | some d => sendDrain s core slot b port d ds
          | none => s)
      else if !f.canSend ds then s
      else if a.eorDue then modFab s core slot fun f =>
        let f := (f.send ds { kind := tokEor, rnd := BitVec.ofNat 8 (a.roundAt (a.pos - 1)), pay := 0 } s.cycle).modStream port fun a => { a with eorDue := false }
        if a.pos ≥ a.total then f.endStream port else f
      else if f.round != 0 && laterRound (a.roundAt a.pos) f.round then s
      else sendPosition s core slot b port a ds
    | none => match f.splice, f.drain with
      | some (_, passed), _ =>
        if !ds.isEmpty && !passed.contains e then
          (if !f.canSend ds then s else modFab s core slot fun f =>
            ((f.send ds { kind := tokSplice, rnd := 0, pay := BitVec.ofNat 32 ((f.cver.toNat + 1) % 256) } s.cycle).pass e).start port)
        else (match f.drain with
          | some d => sendDrain s core slot b port d ds
          | none => modFab s core slot fun f => f.start port)
      | none, some d => sendDrain s core slot b port d ds
      | none, none => modFab s core slot fun f => f.start port)

/-- INPUT_PORT_NOP (R359): every element discards the NOP of a port that has waited 1,024 cycles on a fill. -/
def execInputPortNop (core slot port : Nat) (s : State) : Host.Outcome State Fault Refusal :=
  .next (fabEvent s core slot fun b =>
    match (Table.getD b.fab.ports port {}).waitFrom with
    | some t => if t + 1024 ≤ s.cycle then modFab s core slot fun f => f.modPort port fun p => { p with waitFrom := some (t + 1024) } else s
    | none => s)

/-! ## Output ports (R277, R368 to R370) -/

/-- Bytes in address order as runs. -/
def runsOf : List (Nat × Byte) → List (Nat × List Byte)
  | [] => []
  | (a, v) :: r => match runsOf r with
    | (b, l) :: t => if b == a + 1 then (a, v :: l) :: t else (a, [v]) :: (b, l) :: t
    | [] => [(a, [v])]

/-- An output stream's HEAD line is written with byte enables (R277, R368). None: the slice has no room. -/
def writeLine (s : State) (c sl i : Nat) (b : Block) (a : StreamSpec) : Option State :=
  let r := (runsOf (sortBy (fun (x : Nat × Byte) => x.1) a.out)).foldl (fun (r : Option State) (pa, bs) => r.bind fun s =>
    if isPackage pa then (performWrite s pa bs false none).map fun s =>
      chargeWritten (freshen s (.blk c sl) pa bs false) (.blk c sl) bs.length
    else some (sendOutside s (.blk c sl) b.part pa (.store bs false) none none)) (some s)
  r.map fun s => modFab s c sl fun f => f.modStream i fun a => { a with out := [], headLine := none }

/-- The element goes into the line being assembled, or is staged; `k` goes on. -/
def writeElement (s : State) (c sl i : Nat) (b : Block) (a : StreamSpec) (v : Nat) (k : State → State) : State :=
  let va := (a.addr a.pos).toNat
  let bs := valBytes a.wid v
  let e := 384 + i
  if a.loc then
    if isSealed s b && !inLwset (regionOf s b) va a.wid then elemFault s c sl b 17 e (some va)
    else k (energyBlock (modBlock s c sl fun b => b.modMem fun m => m.storeLoc va bs false) c sl 12 1)
  else match engineTranslate s (.blk c sl) b.asid b.part va 1 with
    | (s, .error w) => streamFault s c sl b i va 1 w
    | (s, .ok pa) =>
      if isSealed s b then
        if b.stage.window.length ≥ 4096 then elemFault s c sl b 16 e (some 0) else
        k (modBlock s c sl fun b => b.modStage fun g =>
          { g with window := g.window ++ [{ who := a.pos, seq := g.seq, pa, va, bytes := bs, page := pageSize s (.blk c sl) b.asid b.part va }], seq := g.seq + 1 })
      else
        -- a complete line is written at once; if it must wait, before the next element of another line (R277)
        let put := fun (s : State) (old : List (Nat × Byte)) =>
          let new := bs.mapIdx fun j x => (pa + j, x)
          let a := { a with headLine := some (pa / 128), out := new ++ old.filter fun x => !new.any fun y => y.1 == x.1 }
          let s := modFab s c sl fun f => f.modStream i fun _ => a
          if a.out.length < 128 then s else (writeLine s c sl i b a).getD s
        if a.headLine.isSome && a.headLine != some (pa / 128) then
          match writeLine s c sl i b a with
          | some s => k (put s [])
          | none => s
        else k (put s a.out)

/-- STREAM_OUTPUT_WRITE: an output port takes the token at its head (R368). -/
def execStreamOutputWrite (core slot port : Nat) (s : State) : Host.Outcome State Fault Refusal :=
  .next (fabEvent s core slot fun b =>
    let f := b.fab
    let e := 384 + port
    if spanElem (posOfCore core) f.span e != some .port || (Table.getD f.ports port {}).stopped then s else
    match f.buf e 0 with
    | [] => modFab s core slot fun f => f.start port
    | t :: _ =>
      let take := fun (s : State) => modFab s core slot fun f => f.drop e 0
      match (Table.getD f.ports port {}).active with
      | none => if t.marker then modFab (take s) core slot fun f => (if t.kind == tokSplice then f.pass e else f).start port
          else modFab s core slot fun f => f.start port
      | some a =>
        if !a.output then elemFault s core slot b 23 e
        else if a.waitPage then s
        else if t.marker then
          match writeLine s core slot port b a with
          | some s => take (if t.kind == tokSplice then modFab s core slot fun f => f.pass e else s)
          | none => s
        else if a.eorDue then
          if t.kind != tokEor || t.rnd.toNat != a.roundAt (a.pos - 1) then elemFault s core slot b 23 e
          else match writeLine s core slot port b a with
            | none => s
            | some s => modFab (take s) core slot fun f =>
              let f := (f.modStream port fun a => { a with eorDue := false }).modPort port fun p => { p with eor := some t.rnd.toNat }
              if a.pos ≥ a.total then f.endStream port else f
        else if t.kind == tokEor || (t.kind == tokData && t.rnd.toNat != a.roundAt a.pos) then elemFault s core slot b 23 e
        else
          let go := fun (s : State) => sinkTrace (modFab (take s) core slot fun f => f.modStream port StreamSpec.step) core slot t
          if t.kind == tokData && !a.gated a.pos then writeElement s core slot port b a t.pay.toNat go else go s)

/-! ## The drain's deadline (R377) -/

/-- Elements that hold tokens. -/
def Fabric.holders (f : Fabric) : List Nat := (f.bufs.filter fun q => !q.2.isEmpty).map fun q => q.1 / 4

/-- DRAIN_DEADLINE: WATCHDOG for the block, naming the elements that hold tokens: as gang the position of the lowest core
that has some, as lanes its cells. -/
def execDrainDeadline (core slot : Nat) (s : State) : Host.Outcome State Fault Refusal :=
  .next (match blockOf s core slot with
    | none => s
    | some b => match b.fab.drain with
      | none => s
      | some d =>
        let limit := (((partOf s b.part).map (·.preempt)).getD 0) * 2400
        if d.late || s.cycle < d.since + limit || b.fab.drained (posOfCore core) then s else
        let hs := b.fab.holders.filter fun e => e < 384
        let g := ((leastOf hs).map fun e => e / 64).getD (posOfCore core)
        let t : TrapInfo := { cause := 15, gang := some g, lanes := hs, site := some 0, imprecise := true }
        let s := modFab s core slot fun f => { f with drain := some { d with late := true } }
        if b.busy then postTrap s core slot t else deliver s core slot t [0] none)

end Sys2Proof.Machine
end

