-- ==== Sys2Proof/Machine/FabricInstr.lean ====
section
/-! DEFINITION. The fabric instructions (spec 15_fabric.md R371 to R378).
Where the spec leaves a point open: notes/assumptions, entry 19. -/

namespace Sys2Proof.Machine

/-! ## Lists of commands (R371, R372) -/

/-- Bytes at translated addresses, read at their home slices, each line once. -/
def Cx.readList (cx : Cx) (s : State) (n : Nat) (good : List (Acc × List Piece)) : State × List (Nat × List Byte × Bool) :=
  let (s, l, _) := good.foldl (fun (x : State × List (Nat × List Byte × Bool) × (Option Nat × List Byte × Bool)) (_, qs) =>
    qs.foldl (fun (s, l, h) q =>
      let (s, h) := if h.1 == some (q.pa / 128) then (s, h)
        else if isPackage q.pa then
          let (s, bs, bad) := loadBytes s cx.id (q.pa - q.pa % 128) 128 true 1
          (s, some (q.pa / 128), bs, bad)
        else
          let (s, bs) := outsideBytes s 128
          (s, some (q.pa / 128), bs, false)
      (s, l ++ [(q.va, (h.2.1.drop (q.pa % 128)).take n, h.2.2)], h)) x) (s, [], (none, [], false))
  (s, l)

/-- `n` words at `a`, read with the faults of loads: `k` goes on with them. -/
def Cx.listAt (cx : Cx) (s : State) (d : Dec) (a n : Nat) (k : State → List W32 → State) : State :=
  cx.access s d 4 0 ((List.range n).map fun i => { sp := .glob, lane := 0, ea := (a + 4 * i : Nat) }) fun s good =>
    let (s, l) := cx.readList s 4 good
    match l.find? fun x => x.2.2 with
    | some x => cx.raise s d.srcs { cause := 24, addr := x.1 } [0]
    | none => k s (l.map fun x => BitVec.ofNat 32 (bytesVal x.2.1))

/-- CFG, SPLICE and DRAINF: two operands, 64 bits wide (R371). -/
def listDec (o : ROp) (valid : Kind → Option Nat) (dst : Dst) (ok : Bool) : Dec :=
  let a := o.p.srcA.toNat
  let b := o.p.srcB.toNat
  let imm := a == 127 || b == 127
  { valid, p := o.p, len := if imm then 2 else 1, ok := ok && !(a == 127 && b == 127), imm := if imm then some o.imm else none, dst,
    srcs := [{ n := a, rc := .s, wide := true }, { n := b, rc := .s, wide := true }] }

/-- The list of a CFG or SPLICE is read and checked; `k` takes its commands, each with the site (R372, R373). -/
def Cx.cfgList (cx : Cx) (s : State) (o : ROp) (waits : Block → Bool) (k : Fabric → List (W32 × Nat) → Fabric) : State :=
  let d := listDec o (validIn [.S] []) .none true
  cx.start s d fun s rs =>
    match rs, cx.blk s with
    | r :: _, some b =>
      let a := aOf r.2
      let n := bOf r.2
      if n == 0 || n > 4096 then cx.raise s d.srcs { cause := 2 } [0]
      else if waits b then cx.wait s [0] 10
      else cx.listAt s d a n fun s cmds =>
        match checkList (posOfCore cx.core) b.fab.span b.claim b.fab.coming cmds with
        | .error i => cx.raise s d.srcs { cause := 23, addr := wrapNat 64 (a + 4 * i : Nat) } [0]
        | .ok _ =>
          let site := cx.site s
          let t := cx.modBlk s fun b => { b with fab := (k b.fab (cmds.map fun c => (c, site))).settle (posOfCore cx.core) }
          ((giveStreams s t cx.core b.fab.span).map fun s => cx.finish s d [0] fun _ => {}).getD (cx.wait s [0] 10)
    | _, _ => s

/-- CFG: the commands apply, or wait for the pending splice before them (R372). -/
def execCfg (o : ROp) (s : State) : Host.Outcome State Fault Refusal :=
  withCx s fun cx => cx.cfgList s o (fun _ => false) fun f l => if f.splice.isSome then { f with later := f.later ++ l } else f.putAll l

/-- SPLICE: waits while a splice is pending (R373). -/
def execSplice (o : ROp) (s : State) : Host.Outcome State Fault Refusal :=
  withCx s fun cx => cx.cfgList s o (fun b => b.fab.splice.isSome) fun f l => { f with splice := some (l, []) }

/-! ## STRM (R366, R369, R374) -/

/-- A specification read from its 64 bytes. -/
def specOf (bs : List Byte) (pred : BitVec 256) (site : Nat) : StreamSpec :=
  let mode := field bs 0x24 1
  let start := field bs 0x28 8
  { base := field bs 0 8, strd := [8, 0x10, 0x18].map fun o => signed 32 (field bs o 4), cnt := [0xC, 0x14, 0x1C].map fun o => field bs o 4
    rlen := field bs 0x20 4, sgn := bit mode 4, loc := bit mode 3, wid := 2 ^ bits mode 2 1, output := bit mode 0,
    gate := bit (field bs 0x25 1) 3, pred, win := field bs 0x26 1, rnd0 := field bs 0x27 1, start, pos := start, scan := start, site }

/-- The fields of a specification (R366, R374). -/
def specOk (bs : List Byte) (a : StreamSpec) : Bool :=
  a.base < 2 ^ 57 && a.cnt.all (fun c => 1 ≤ c && c ≤ 65535) && bits (field bs 0x24 1) 7 5 == 0 && a.wid ≤ 4 &&
    bits (field bs 0x25 1) 7 4 == 0 && !(a.sgn && a.output) && (if a.loc then a.win == 0 else 1 ≤ a.win && a.win ≤ 64) &&
    a.start < 2 ^ 48 && field bs 0x30 16 == 0 && a.start < a.total

/-- Addresses between which every position from START on lies: the corners of the index boxes they fill. -/
def StreamSpec.corners (a : StreamSpec) : List Int :=
  let c := fun (i : Nat) => (a.cnt[i]?).getD 1
  let st := fun (i : Nat) => (a.strd[i]?).getD 0
  let i0 := a.start % c 0
  let i1 := a.start / c 0 % c 1
  let i2 := a.start / c 0 / c 1
  let box := fun (l0 l1 h1 l2 h2 : Nat) => if l1 > h1 || l2 > h2 then [] else
    [l0, c 0 - 1].flatMap fun x => [l1, h1].flatMap fun y => [l2, h2].map fun z => (a.base : Int) + x * st 0 + y * st 1 + z * st 2
  box i0 i1 i1 i2 i2 ++ box 0 (i1 + 1) (c 1 - 1) i2 i2 ++ box 0 0 (c 1 - 1) (i2 + 1) (c 2 - 1)

/-- The traps of STRM on the addresses of a specification (R374). -/
def specFault (locb : Nat) (a : StreamSpec) : Option AFault :=
  let kind := if a.output then 1 else 0
  if a.base % a.wid != 0 || a.strd.any (fun x => x % (a.wid : Int) != 0) then some { rank := 0, cause := 9, addr := a.base, detail := kind }
  else
    let fs := a.corners.filterMap fun x => if a.loc then localFault locb x a.wid else globalFault x a.wid kind
    match fs with
    | [] => none
    | f :: r => some (r.foldl (fun m f => if f.addr < m.addr then f else m) f)

def execStrm (o : POp) (s : State) : Host.Outcome State Fault Refusal :=
  withCx s fun cx =>
    let j := bits o.param.toNat 31 28
    let core := bits o.param.toNat 27 25
    let k := posOfCore cx.core
    let span := ((cx.blk s).map (·.fab.span)).getD 1
    let i := 16 * core + j
    let d : Dec := { valid := validIn [.S] [], p := o.p, len := 2, srcs := [{ n := o.p.srcA.toNat, rc := .s, wide := true }],
                     ok := bits o.param.toNat 24 0 == 0 && o.p.srcA.toNat != 127 && o.p.srcB == 0 && k ≤ core && core < k + span }
    cx.start s d fun s rs =>
      cx.access s d 64 0 (rs.map fun r => { sp := .glob, lane := 0, ea := (aOf r.2 : Nat) }) fun s good =>
        let (s, rd) := cx.readWhole s 64 good
        match rd, cx.blk s with
        | (a, bs, bad) :: _, some b =>
          if bad then cx.raisePoison s d [a] else
          let n := bits (field bs 0x25 1) 2 0
          let pred : BitVec 256 := if n == 0 then BitVec.allOnes 256 else (Store.get b.mem.preds n).setWidth 256
          let p := Table.getD b.fab.ports i {}
          let behind := match b.fab.splice with
            | some (_, passed) => !passed.contains (384 + i)
            | none => false
          let a := { specOf bs pred (cx.site s) with behindSplice := behind, afterCfg := !b.fab.later.isEmpty }
          if !specOk bs a || (b.fab.coming.dests (384 + i)).isEmpty != a.output then cx.raise s d.srcs { cause := 2 } [0]
          else match specFault b.mem.locb a with
            | some f => cx.raiseFaults s d [(0, f)]
            | none =>
              let used := (b.fab.ports.map fun e => if e.1 / 16 == core then ((e.2.active.map (·.win)).getD 0) else 0).sum
              if p.pending.isSome || used + a.win > 1024 then cx.wait s [0] 10 else
              let t := cx.modBlk s fun b => { b with fab :=
                (({ b.fab with sites := Table.set b.fab.sites (384 + i) a.site } : Fabric).modPort i fun p => { p with pending := some a }).start i }
              ((giveStreams s t cx.core span).map fun s => cx.finish s d [0] fun _ => {}).getD (cx.wait s [0] 10)
        | _, _ => s

/-! ## SBAR and FWAIT (R375, R376) -/

/-- Some stream of a direction is active or pending. -/
def Fabric.busyWith (f : Fabric) (output : Bool) : Bool :=
  f.ports.any fun e => e.2.active.any (fun a => a.output == output) || e.2.pending.any fun a => a.output == output

def execSbar (o : POp) (s : State) : Host.Outcome State Fault Refusal :=
  withCx s fun cx =>
    let v := o.param.toNat
    let d := plainDec (validIn [.S] []) o.p 2 (bits v 27 0 == 0 && bits v 31 28 != 0)
    cx.start s d fun s rs =>
      match rs, cx.blk s with
      | _ :: _, some b =>
        let s := if bit v 28 then drainPath s cx.id else s
        if (bit v 31 && b.fab.splice.isSome) || (bit v 30 && b.fab.busyWith false) || (bit v 29 && b.fab.busyWith true) ||
            (bit v 28 && (!earlierDone s cx.id 3 || outsideRead s cx.id)) then cx.wait s [0] 10
        else cx.finish (if bit v 29 then dropClean s cx.id else s) d [0] fun _ => {}
      | _, _ => s

/-- FWAIT.port: the number of ended streams at which the port's stream has ended; none when the port is idle. -/
def Fabric.portTarget (f : Fabric) (i : Nat) : Option Nat :=
  let p := Table.getD f.ports i {}
  if p.active.isNone && p.pending.isNone then none else some (p.ended + 1)

def execFwait (o : POp) (s : State) : Host.Outcome State Fault Refusal :=
  withCx s fun cx =>
    let evt := bits o.param.toNat 31 28
    let arg := bits o.param.toNat 27 20
    let k := posOfCore cx.core
    let span := ((cx.blk s).map (·.fab.span)).getD 1
    let d : Dec := { valid := validIn [.S] [], p := o.p, len := 2, dst := .reg .s,
                     ok := bits o.param.toNat 19 0 == 0 && evt ≤ 4 && o.p.srcA == 0 && o.p.srcB == 0 &&
                       (evt ≤ 1 || arg == 0) && (evt != 1 || (16 * k ≤ arg && arg < 16 * (k + span))) }
    cx.start s d fun s rs =>
      match rs, cx.blk s with
      | _ :: _, some b =>
        let f := b.fab
        let done := fun (s : State) (v : Nat) => cx.result s d .s true [(0, v)]
        let wait := fun (s : State) => cx.wait s [0] 10
        match evt with
        | 0 => if roundLeft f arg then done s arg else wait s
        | 1 =>
          let goal := if cx.begun s then (match f.fwait with
              | some (i, n) => if i == arg then some n else f.portTarget arg
              | none => f.portTarget arg) else f.portTarget arg
          (match goal with
          | none => done s 0
          | some n =>
            let p := Table.getD f.ports arg {}
            if p.ended ≥ n then done (cx.modBlk s fun b => { b with fab := { b.fab with fwait := none } }) p.last
            else wait (cx.modBlk s fun b => { b with fab := { b.fab with fwait := some (arg, n) } }))
        | 2 => if f.splice.isNone then done s f.cver.toNat else wait s
        | 3 => if f.empty then done s 0 else wait s
        | _ => wait s
      | _, _ => s

/-! ## DRAINF (R377, R378) -/

/-- The bytes of the record area: its header and the records. -/
def drainBytes (b : Block) : List Byte :=
  let rs := drainRecords b
  valBytes 4 rs.length ++ [b.fab.cver] ++ List.replicate 11 0#8 ++
    rs.flatMap fun r => valBytes 2 r.1 ++ [BitVec.ofNat 8 r.2.1] ++ List.replicate 5 0#8 ++ valBytes 8 r.2.2

/-- After a drain every port is idle and no token is held (R377). -/
def Fabric.idle (f : Fabric) : Fabric :=
  { f with bufs := [], drain := none, fwait := none
           ports := f.ports.map fun e => (e.1, ({ sent := e.2.sent, ended := e.2.ended, last := e.2.last, eor := e.2.eor } : Port)) }
/-- After a slice drain: every element at reset, then the incoming list (R378). -/
def Fabric.slice (f : Fabric) (l : List (W32 × Nat)) : Fabric := ({ span := f.span } : Fabric).putAll l

/-- The accesses to a record area that now holds `n` records. -/
def drainAccs (a n : Nat) : List Acc := (List.range (n + 1)).map fun i => { sp := .glob, lane := 0, ea := (a + 16 * i : Nat) }

/-- The records are written (R377); `finish` leaves the fabric as its kind of drain does. -/
def Cx.drainWrite (cx : Cx) (s : State) (d : Dec) (c sl a : Nat) (finish : Fabric → Fabric) : State :=
  match blockOf s c sl with
  | none => s
  | some b =>
    let bs := drainBytes b
    cx.access s d 16 1 (drainAccs a (drainRecords b).length) fun s good =>
      let part := (spaceOf s cx.id).2
      -- the stream's earlier accesses come first, and no older copy of a line serves it after (R323)
      let s := drainPath s cx.id
      if s.path.any fun p => p.ctx == cx.id && !p.sent then cx.wait s [0] 10 else
      let s := (good.mapIdx fun i g => (i, g.2)).foldl (fun s (i, qs) =>
        qs.foldl (fun s q => dropCopy (deviceWrite s part q.pa ((bs.drop (16 * i)).take 16)) cx.id (q.pa / 128)) s) s
      cx.finish (modBlock s c sl fun b => { b with fab := finish b.fab }) d [0] fun _ => {}

/-- The course of a drain once its operands are checked: it begins, or waits for another's, or is done. -/
def Cx.drain (cx : Cx) (s : State) (d : Dec) (c sl a : Nat) (new : Drain) (finish : Fabric → Fabric) : State :=
  match blockOf s c sl with
  | none => s
  | some b =>
    let wait := fun (s : State) => match blockOf s c sl with
      | some b => if b.fab.drained (posOfCore c) then cx.drainWrite s d c sl a finish else cx.wait s [0] 10
      | none => s
    if b.exec.model != .spatial then cx.drainWrite s d c sl a (fun f => f) else
    match b.fab.drain with
    | none => cx.access s d 16 1 (drainAccs a (drainRecords b).length) fun s _ =>
        wait (modBlock s c sl fun b => { b with fab := { b.fab with drain := some new } })
    | some x => if x.who == new.who && x.slice == new.slice then wait s else cx.wait s [0] 10

/-- DRAINF. -/
def execDrainf (o : ROp) (s : State) : Host.Outcome State Fault Refusal :=
  withCx s fun cx =>
    let d := listDec o (validIn [.S, .K] []) .own (o.p.dreg == 0 && !o.p.nwb && o.p.srcB.toNat == 72 && (cx.localSite s).isSome)
    cx.start s d fun s rs =>
      match rs, cx.localSite s with
      | r :: _, some (c, sl) =>
        match alignFault (aOf r.2 : Nat) 64 1 with
        | some f => cx.raiseFaults s d [(0, f)]
        | none => cx.drain s d c sl (aOf r.2) { who := if cx.kind == .K then .supervisor else .program, slice := false, since := s.cycle } Fabric.idle
      | _, _ => s

/-- The slice list at B: its count, then its commands, checked against an empty fabric (R378). -/
def Cx.sliceList (cx : Cx) (s : State) (d : Dec) (c sl b : Nat) (k : State → List W32 → State) : State :=
  cx.access s d 8 0 [{ sp := .glob, lane := 0, ea := (b : Nat) }] fun s good =>
    let (s, rd) := cx.readWhole s 8 good
    match rd, blockOf s c sl with
    | (a, bs, bad) :: _, some blk =>
      let n := bytesVal bs
      if bad then cx.raisePoison s d [a]
      else if n == 0 || n > 24576 then cx.raise s d.srcs { cause := 2 } [0]
      else cx.listAt s d (b + 8) n fun s cmds =>
        match checkList (posOfCore c) blk.fab.span blk.claim { span := blk.fab.span } cmds with
        | .error i => cx.raise s d.srcs { cause := 23, addr := wrapNat 64 (b + 8 + 4 * i : Nat) } [0]
        | .ok _ => k s cmds
    | _, _ => s

/-- DRAINF.slice, in supervisor code. -/
def execDrainfSlice (o : ROp) (s : State) : Host.Outcome State Fault Refusal :=
  withCx s fun cx =>
    let d := listDec o (validIn [.K] [.S]) .own (o.p.dreg == 1 && !o.p.nwb && (cx.localSite s).isSome)
    cx.start s d fun s rs =>
      match rs, cx.localSite s with
      | r :: _, some (c, sl) =>
        match alignFault (aOf r.2 : Nat) 64 1 with
        | some f => cx.raiseFaults s d [(0, f)]
        | none =>
          let go := fun (s : State) (l : List (W32 × Nat)) =>
            cx.drain s d c sl (aOf r.2) { who := .supervisor, slice := true, commands := l, since := s.cycle } fun f => f.slice l
          match ((blockOf s c sl).bind (·.fab.drain)).filter (·.slice) with
          | some x => go s x.commands
          | none => cx.sliceList s d c sl (bOf r.2) fun s cmds => go s (cmds.map fun w => (w, 0))
      | _, _ => s

end Sys2Proof.Machine
end

