-- ==== Sys2Proof/Machine/SysReg.lean ====
section
/-! DEFINITION. System registers (R31, R124 to R128, R258, R259, R383, R401, R411, R412, R415, R420, R421, R440), MFS and
MTS, what SVRUN does (R427), HALT, WFI and SEV (R260).
Where the spec leaves a point open: notes/assumptions, entries 8, 39, 42, 64. -/

namespace Sys2Proof.Machine

/-! ## Rights (R124, R383, R411, R412, R415, R420, R421, R440) -/

/-- A right to a register: none, read only, write only, both, or not held in the context. -/
inductive Right | no | ro | wo | rw | absent
  deriving DecidableEq, Repr

/-- Width of a register and its rights for a user, supervisor code and a system core. -/
structure RegInfo where
  width : Nat
  user : Right
  sup : Right
  sys : Right := .absent
  deriving DecidableEq, Repr

/-- The registers by number; none for an unassigned one. -/
def regInfo (n : Nat) : Option RegInfo :=
  if 0x140 ≤ n && n < 0x160 then some { width := 32, user := .no, sup := .ro, sys := .rw } else
  match n with
  | 0x000 => some { width := 32, user := .ro, sup := .ro, sys := .ro }
  | 0x001 => some { width := 11, user := .ro, sup := .absent }
  | 0x002 => some { width := 24, user := .ro, sup := .ro }
  | 0x003 => some { width := 24, user := .ro, sup := .ro }
  | 0x004 => some { width := 12, user := .ro, sup := .ro }
  | 0x005 => some { width := 57, user := .ro, sup := .ro }
  | 0x006 => some { width := 57, user := .ro, sup := .ro }
  | 0x007 => some { width := 10, user := .ro, sup := .ro }
  | 0x010 => some { width := 32, user := .rw, sup := .rw }
  | 0x011 => some { width := 16, user := .ro, sup := .rw }
  | 0x012 => some { width := 57, user := .ro, sup := .rw }
  | 0x013 => some { width := 9, user := .ro, sup := .ro }
  | 0x014 => some { width := 32, user := .rw, sup := .rw }
  | 0x015 => some { width := 32, user := .rw, sup := .rw }
  | 0x020 => some { width := 57, user := .rw, sup := .rw }
  | 0x021 => some { width := 32, user := .ro, sup := .rw }
  | 0x022 => some { width := 57, user := .ro, sup := .rw }
  | 0x023 => some { width := 32, user := .ro, sup := .rw }
  | 0x024 => some { width := 32, user := .ro, sup := .rw }
  | 0x030 => some { width := 3, user := .no, sup := .rw }
  | 0x100 => some { width := 52, user := .no, sup := .ro, sys := .rw }
  | 0x101 => some { width := 16, user := .ro, sup := .ro, sys := .rw }
  | 0x110 => some { width := 7, user := .no, sup := .no, sys := .rw }
  | 0x111 => some { width := 52, user := .no, sup := .no, sys := .rw }
  | 0x112 => some { width := 36, user := .no, sup := .no, sys := .rw }
  | 0x113 => some { width := 21, user := .no, sup := .no, sys := .rw }
  | 0x114 => some { width := 1, user := .no, sup := .no, sys := .rw }
  | 0x115 => some { width := 16, user := .no, sup := .no, sys := .wo }
  | 0x116 => some { width := 8, user := .no, sup := .no, sys := .wo }
  | 0x160 => some { width := 32, user := .ro, sup := .rw }
  | 0x161 => some { width := 57, user := .ro, sup := .rw }
  | 0x162 => some { width := 20, user := .ro, sup := .rw }
  | 0x163 => some { width := 20, user := .ro, sup := .rw }
  | 0x170 => some { width := 32, user := .no, sup := .no, sys := .rw }
  | 0x171 => some { width := 52, user := .no, sup := .no, sys := .rw }
  | 0x172 => some { width := 24, user := .no, sup := .no, sys := .rw }
  | 0x173 => some { width := 24, user := .no, sup := .no, sys := .rw }
  | 0x180 => some { width := 57, user := .no, sup := .rw, sys := .rw }
  | 0x181 => some { width := 16, user := .no, sup := .rw, sys := .rw }
  | 0x182 => some { width := 16, user := .no, sup := .rw, sys := .rw }
  | 0x183 => some { width := 57, user := .no, sup := .rw, sys := .rw }
  | 0x184 => some { width := 32, user := .no, sup := .rw, sys := .rw }
  | 0x185 => some { width := 2, user := .no, sup := .wo }
  | 0x186 => some { width := 57, user := .no, sup := .ro }
  | 0x187 => some { width := 64, user := .ro, sup := .rw }
  | 0x188 => some { width := 57, user := .ro, sup := .rw }
  | 0x189 => some { width := 64, user := .ro, sup := .rw }
  | 0x18A => some { width := 3, user := .ro, sup := .rw }
  | 0x18B => some { width := 32, user := .no, sup := .ro }
  | 0x190 => some { width := 8, user := .no, sup := .no, sys := .rw }
  | 0x191 => some { width := 57, user := .no, sup := .no, sys := .wo }
  | _ => none

/-- The right of a context to a register (R124): an unassigned number is not held on a system core. -/
def rightOf (k : Kind) (n : Nat) : Right :=
  match regInfo n, k with
  | none, .Y => .absent
  | none, _ => .rw
  | some r, .Y => r.sys
  | some r, .K => r.sup
  | some r, .T => if n == 0x013 then .absent else r.user
  | some r, .V => if n == 0x001 then .absent else r.user
  | some r, .S => if n == 0x001 || n == 0x013 then .absent else r.user

/-- The decode trap of an access (R115, R124): WRONG_MODEL, then PRIVILEGE. A write-only register reads as zero (R5). -/
def regTrap (n : Nat) (write : Bool) (k : Kind) : Option Nat :=
  match rightOf k n with
  | .absent => some 5
  | .no => some 7
  | .ro => if write then some 7 else none
  | .wo => none
  | .rw => none

/-- Registers held per block or per thread: for supervisor code those of the block in slot SVTGT (R493). -/
def isBlockReg (n : Nat) : Bool :=
  (1 ≤ n && n ≤ 0x024) || n == 0x101 || (0x160 ≤ n && n ≤ 0x163) || (0x187 ≤ n && n ≤ 0x18A)

/-! ## Reading -/

/-- The thread whose TRAPPC and TRAPAUX supervisor code reaches, by s0 (R420); none when s0 is out of range. -/
def supThread (s : State) (c : Nat) (b : Block) : Option Nat :=
  let v := ((coreOf s c).sup.s 0).toNat
  if v < (if b.exec.model == .threaded then b.nthr else 1) then some v else none

def trapPcOf (b : Block) (t : Nat) : Nat := (if b.exec.model == .threaded then (threadOf b t).trapPc else b.exec.ctl.trapPc).toNat
def trapAuxOf (b : Block) (t : Nat) : Nat := (if b.exec.model == .threaded then (threadOf b t).trapAux else b.exec.ctl.trapAux).toNat

/-- A register of a block, read for stream `t`. -/
def blockReg (b : Block) (t n : Nat) : Nat :=
  let r := b.regs
  match n with
  | 0x001 => t
  | 0x002 => r.bidx.toNat
  | 0x003 => r.nblk.toNat
  | 0x004 => r.nthr.toNat
  | 0x005 => r.argb.toNat
  | 0x006 => r.msga.toNat
  | 0x007 => r.acct.toNat
  | 0x010 => r.hopctl.toNat
  | 0x011 => r.plim.toNat
  | 0x012 => r.pbase.toNat
  | 0x013 => r.vlen.toNat
  | 0x014 => r.fstat.toNat
  | 0x015 => r.fen.toNat
  | 0x020 => r.trapvec.toNat
  | 0x021 => r.trapcause.toNat
  | 0x022 => r.trapaddr.toNat
  | 0x023 => r.trapsite.toNat
  | 0x024 => r.trapep.toNat
  | 0x101 => b.asid.toNat
  | 0x160 => r.trcctl.toNat
  | 0x161 => r.trcbase.toNat
  | 0x162 => r.trcsize.toNat
  | 0x163 => r.trcptr.toNat
  | 0x187 => r.traplane.toNat
  | 0x188 => trapPcOf b t
  | 0x189 => trapAuxOf b t
  | 0x18A => r.dbgctl.toNat
  | _ => 0

/-- A register that is not a block's, read by a place. -/
def placeReg (s : State) (id : CtxId) (n : Nat) : Nat :=
  if 0x140 ≤ n && n < 0x160 then ewtOf s (n - 0x140) else
  let c := (coreOfCtx id).getD 0
  let k := coreOf s c
  let y := match id with
    | .sys m => sysOf s m
    | _ => {}
  let x := (ctlOf s id).getD {}
  let f := funcOf s y.dtsel.toNat
  match n with
  | 0x000 => match id with
    | .sys m => locidOfSys m
    | _ => locidOfCore c
  | 0x030 => k.svtgt.toNat
  | 0x100 => s.iod.asidtb.toNat
  | 0x101 => x.asid.toNat
  | 0x110 => y.dtsel.toNat
  | 0x111 => f.dtbase.toNat
  | 0x112 => f.dtpfn.toNat
  | 0x113 => f.dtcnt.toNat
  | 0x114 => if f.dten then 1 else 0
  | 0x170 => y.rplctl.toNat
  | 0x171 => y.rplbase.toNat
  | 0x172 => y.rplsize.toNat
  | 0x173 => y.rplptr.toNat
  | 0x180 => x.intr.intvec.toNat
  | 0x181 => x.intr.inten.toNat
  | 0x182 => x.intr.intpend.toNat
  | 0x183 => x.intr.intpc.toNat
  | 0x184 => x.intr.intcause.toNat
  | 0x186 => ((blockOf s c k.svtgt.toNat).map fun b => b.svarg.toNat).getD 0
  | 0x18B => k.svevt.toNat
  | 0x190 => y.svsel.toNat
  | _ => 0

/-- The VF whose tracking registers a system core reaches (R401): the trap when it is unbound or another partition's. -/
def dtTrap (s : State) (y n : Nat) : Option Nat :=
  if n < 0x111 || 0x114 < n then none else
  match (funcOf s (sysOf s y).dtsel.toNat).part with
  | none => some 2
  | some p => if p == (sysOf s y).ctl.part then none else some 7

/-- The place whose block a register access acts on, and the trap when there is none (R493, R420). -/
def Cx.regSite (cx : Cx) (s : State) (n : Nat) : Except Nat (Option (Nat × Nat × Option Nat)) :=
  match cx.id with
  | .blk c sl => .ok (if isBlockReg n then some (c, sl, none) else none)
  | .sup c =>
    if !isBlockReg n then .ok none else
    let sl := (coreOf s c).svtgt.toNat
    match blockOf s c sl with
    | none => .error 2
    | some b =>
      if n == 0x188 || n == 0x189 then match supThread s c b with
        | none => .error 2
        | some t => .ok (some (c, sl, some t))
      else .ok (some (c, sl, some 0))
  | .sys y => match dtTrap s y n with
    | some c => .error c
    | none => .ok none

/-- Whether the slot that an access of supervisor code acts on holds a block, where it acts on one: for MFS and MTS of a
block's register, and for a write of SVRUN (R427, R493). -/
def Cx.slotHeld (cx : Cx) (s : State) (n : Nat) (write : Bool) : Bool :=
  match cx.id with
  | .sup c => !(isBlockReg n || (write && n == 0x185)) || (blockOf s c (coreOf s c).svtgt.toNat).isSome
  | _ => true

/-- MFS and MTS share their field rules (R236, R258). -/
def regNum (o : KOp) : Nat := bits o.param.toNat 11 0
def regWide (o : KOp) : Bool := o.param.getLsbD 12
def Cx.regOkFields (cx : Cx) (o : KOp) : Bool :=
  bits o.param.toNat 23 13 == 0 && (regInfo (regNum o)).isSome && (cx.isT || !regWide o)

/-- MFS (R258, R259): FSTAT is read when the SFU queue is empty and the block's matrix entries have completed. -/
def execMfs (o : KOp) (s : State) : Host.Outcome State Fault Refusal :=
  withCx s fun cx =>
    let n := regNum o
    let wide := cx.isT && regWide o
    let d : Dec := { valid := regTrap n false, p := o.p, len := 2, dst := .reg (cx.rcScalar wide),
                     ok := cx.regOkFields o && o.p.srcA == 0 && o.p.srcB == 0 && cx.slotHeld s n false }
    cx.start s d fun s rs =>
      if rs.isEmpty then s else
      match cx.regSite s n with
      | .error c => cx.raise s [] { cause := c } cx.acts
      | .ok site =>
        let owes := n == 0x014 && (s.pending.any (fun p => p.ctx == cx.id && p.sfu) || match site with
          | some (c, sl, _) => (settleEngines.spanOf s c sl).any fun x => !(mqOf s x sl).isEmpty
          | none => false)
        if owes then cx.wait s (cx.whoOf (rs.map (·.1))) 1 else
        let val := fun (lane : Nat) => match site with
          | some (c, sl, t) => ((blockOf s c sl).map fun b => blockReg b (t.getD lane) n).getD 0
          | none => placeReg s cx.id n
        cx.result s d cx.scalarCls (wide || !cx.isT) (rs.map fun r => (r.1, if cx.isT && !wide then val r.1 % 2 ^ 32 else val r.1))

/-! ## Writing -/

/-- An MTS to a block's register is refused (R420, R412): TRAPVEC must name parcel 2, tracing needs a buffer. -/
def blockRegBad (b : Block) (n v : Nat) : Bool :=
  (n == 0x020 && v % 2 ^ 57 != 0 && v % 128 != 8) || (n == 0x160 && bit v 31 && b.regs.trcsize == 0)

/-- A register of a block written. -/
def setBlockReg (b : Block) (t n v : Nat) : Block :=
  b.modRegs (fun r => match n with
    | 0x010 =>
      let en := if b.vpref.getLsbD 2 then 0 else bits v 31 31
      { r with hopctl := (r.hopctl &&& 0x70000000#32) ||| BitVec.ofNat 32 (en * 2 ^ 31 + bits v 23 16 * 2 ^ 16 + bits v 7 0) }
    | 0x011 => { r with plim := BitVec.ofNat 16 v }
    | 0x012 => { r with pbase := BitVec.ofNat 57 v }
    | 0x014 => { r with fstat := BitVec.ofNat 32 (v % 128) }
    | 0x015 => { r with fen := BitVec.ofNat 32 (v % 128) &&& 0x5F#32 }
    | 0x020 => { r with trapvec := BitVec.ofNat 57 v }
    | 0x021 => { r with trapcause := BitVec.ofNat 32 v &&& 0xFFF0FFFF#32 }
    | 0x022 => { r with trapaddr := BitVec.ofNat 57 v }
    | 0x023 => { r with trapsite := BitVec.ofNat 32 v }
    | 0x024 => { r with trapep := BitVec.ofNat 32 v }
    | 0x160 => { r with trcctl := BitVec.ofNat 32 v &&& 0xC0FFFFFF#32 }
    | 0x161 => { r with trcbase := BitVec.ofNat 57 (v / 64 * 64) }
    | 0x162 => { r with trcsize := BitVec.ofNat 20 v }
    | 0x163 => { r with trcptr := BitVec.ofNat 20 v }
    | 0x187 => { r with traplane := BitVec.ofNat 64 v }
    | 0x18A => { r with dbgctl := BitVec.ofNat 3 v }
    | _ => r) |> fun b =>
  let pc := BitVec.ofNat 57 v
  let aux := BitVec.ofNat 64 v
  match n with
  -- captured operands serve the instruction that the resume point names (R104)
  | 0x188 => if b.exec.model == .threaded then
      b.modThreads [t] fun _ x => { x with trapPc := pc, capt := if x.handler && x.trapPc != pc then [] else x.capt }
    else b.modCtl fun x => { x with trapPc := pc, capt := if x.handler && x.trapPc != pc then [] else x.capt }
  | 0x189 => if b.exec.model == .threaded then b.modThreads [t] fun _ x => { x with trapAux := aux } else b.modCtl fun x => { x with trapAux := aux }
  | _ => b

/-- SVRUN's abort (R427): with the cause in TRAPCAUSE; a block stopped for its dump aborts at once. -/
def svAbort (s : State) (c sl : Nat) (b : Block) : State :=
  let cause := b.regs.trapcause.toNat % 256
  match b.phase with
  | .stopped 3 _ _ => abortLaunch s b.launch
      { cause, blk := b.regs.bidx.toNat, addr := b.regs.trapaddr.toNat, ep := b.regs.trapep.toNat, site := b.regs.trapsite.toNat }
  | _ => abortBlock (modBlock s c sl fun b => { b with phase := .running }) c sl { cause, addr := b.regs.trapaddr.toNat }

/-- What every end of a stop does: the event clears, the block runs, a window is taken, waits that the stop held end. -/
def endStop (s : State) (c sl ev : Nat) : State :=
  let s := if ev ≤ 1 then setSvevt s c sl ev false else s
  let s := modBlock s c sl fun b =>
    let b := { b with phase := .running, want := { b.want with preempt := if ev == 1 then false else b.want.preempt, saveAtEp := false }
                      fab := { b.fab with drain := b.fab.drain.filter fun d => d.who != Drainer.save } }
    b.modThreads (List.range b.nthr) fun _ x => if x.wait == 11 then { x with wait := 0 } else x
  endRounds (takeWindow s c sl) c sl

/-- After a restore a thread that waited waits again at its instruction; one signed at CVSIGN stays signed (R478). -/
def rewait (s : State) (c : Nat) (b : Block) : Block :=
  let signed := fun (t : Nat) => (coreOf s c).cvs.any fun e => b.claim.cv.getLsbD e.1 && (Table.get? e.2.signs t).isSome
  let b := b.modThreads (List.range b.nthr) fun t x => if x.wait == 4 && signed t then x else { x with wait := 0 }
  b.modCtl fun x => { x with wait := 0 }

/-- SVRUN := 1 (R427): every stream goes on from its resume point, or from where it stopped. -/
def svResume (s : State) (c sl ev : Nat) (b : Block) (ents : List Nat) : State :=
  let s := modBlock s c sl fun b =>
    let b := if ev == 2 then rewait s c b else b
    if ev != 0 || b.want.epRest then b
    else if b.exec.model == .threaded then b.modThreads ents fun _ x =>
      if x.handler then x else { x with pc := x.trapPc, capt := if x.pc == x.trapPc then x.capt else [], line := none }
    else b.modCtl fun x =>
      if x.handler then x else { x with pc := x.trapPc, capt := if x.pc == x.trapPc then x.capt else [], line := if x.pc == x.trapPc then x.line else none }
  let s := endStop s c sl ev
  if b.want.epRest then epRest s c sl else s

/-- SVRUN := 3 (R427): the entrants enter the user handler. A stop at an EP is finished first (R68). -/
def svDeliver (s : State) (c sl ev : Nat) (b : Block) (ents : List Nat) : State :=
  let s := if b.want.epRest then epRest (endStop s c sl ev) c sl else endStop s c sl ev
  modBlock s c sl fun x =>
    let ents := if b.want.epRest then x.streams else ents
    if x.exec.model == .threaded then
      let x := x.modThreads ents fun _ t =>
        { t with trapPc := if b.want.epRest then t.pc else t.trapPc, handler := true, pc := x.regs.trapvec, wait := 0, line := none
                 capt := if b.want.epRest || t.pc == t.trapPc then t.capt else [] }
      x.leave ents s.cycle
    else x.modCtl fun t =>
      { t with trapPc := if b.want.epRest then t.pc else t.trapPc, handler := true, pc := x.regs.trapvec, wait := 0, latches := [], line := none
               capt := if b.want.epRest || t.pc == t.trapPc then t.capt else [] }

/-- A write to SVRUN (R427): none when the trap ILLEGAL_OPERAND is raised. -/
def svRun (s : State) (c v : Nat) : Option State :=
  let sl := (coreOf s c).svtgt.toNat
  match blockOf s c sl with
  | none => none
  | some b => match b.phase with
    | .stopped ev _ ents => match v % 4 with
      | 0 => some s
      | 1 => some (svResume s c sl ev b ents)
      | 2 => some (svAbort s c sl b)
      | _ =>
        let busy := if b.exec.model == .threaded then ents.any fun t => (threadOf b t).handler else b.exec.ctl.handler
        if b.regs.trapvec == 0 || busy then none else some (svDeliver s c sl ev b ents)
    | _ => none

/-- What an MTS to a register that is no block's comes to. -/
inductive Wr
  | ok (s : State)
  | trap (t : TrapInfo)
  | miss

/-- SVINIT (R421). -/
def svInit (s : State) (y : Nat) (a : Nat) : State × Wr :=
  let k := sysOf s y
  let c := k.svsel.toNat
  let col := columnOfCore c
  let p := k.ctl.part
  if c > 191 then (s, .trap { cause := 2 })
  else if ownerOf s col != some p && (columnOf s col).lentTo != some p then (s, .trap { cause := 7 })
  else if !(coreOf s c).sup.halted || a % 128 != 8 then (s, .trap { cause := 2 })
  else match readLine s (.sys y) a with
    | (s, .miss) | (s, .unserved) => (s, .miss)
    | (s, .bad t) => (s, .trap t)
    | (s, .ok l) =>
      if bits (l.headD 0).toNat 31 30 != 2 then (s, .trap { cause := 2 })
      else (s, .ok (modCore s c fun x => mirrorSv { x with sup :=
        { pc := BitVec.ofNat 57 a, event := x.sup.event, asid := k.ctl.asid, part := p, intr := { intvec := BitVec.ofNat 57 a } } }))

/-- HOSTINT and RINGACK (R440). -/
def hostInt (s : State) (y v : Nat) : Wr :=
  let f := bits v 15 8
  if f > 128 then .trap { cause := 2 }
  else if (funcOf s f).part != some (sysOf s y).ctl.part then .trap { cause := 7 }
  else if v % 8 < 2 then .trap { cause := 2 }
  else .ok (emit s (.msix f (v % 8)))
def ringAck (s : State) (y v : Nat) : Wr :=
  let f := v % 256
  if f > 128 then .trap { cause := 2 }
  else if (funcOf s f).part != some (sysOf s y).ctl.part then .trap { cause := 7 }
  else if !(funcOf s f).handed then .trap { cause := 2 }
  else .ok (modFunc s f fun x => { x with head := x.head + 1, handed := false })

/-- Dirty tracking of the selected VF (R401). -/
def setDt (s : State) (y n v : Nat) : Wr :=
  let i := (sysOf s y).dtsel.toNat
  let f := funcOf s i
  if f.dten && n != 0x114 then .trap { cause := 2 } else
  match n with
  | 0x111 => .ok (modFunc s i fun f => { f with dtbase := BitVec.ofNat 52 (v / 8 * 8) })
  | 0x112 => .ok (modFunc s i fun f => { f with dtpfn := BitVec.ofNat 36 v })
  | 0x113 => .ok (modFunc s i fun f => { f with dtcnt := BitVec.ofNat 21 v })
  | _ =>
    let last := f.dtbase.toNat + 8 * ceilDiv f.dtcnt.toNat 64 - 1
    if bit v 0 && (f.dtcnt == 0 || !isPackage f.dtbase.toNat || !isPackage last) then .trap { cause := 2 }
    else .ok (modFunc s i fun f => { f with dten := bit v 0 })

/-- Every core's energies are flushed, then a weight is written (R411). -/
def setEwt (s : State) (i v : Nat) : State :=
  if i ≥ 14 then s else
  let s := s.cores.foldl (fun s e => e.2.slots.foldl (fun s x => flushBlock s e.1 x.1) s) s
  modIod s fun d => { d with ewt := Table.set d.ewt i (BitVec.ofNat 32 v) }

/-- An MTS to a register that is no block's. INTEN keeps all of its 16 bits, those with no source among them (DESIGN
CHOICE, unsafe: notes/assumptions/64.md). -/
def setPlaceReg (s : State) (id : CtxId) (n v : Nat) : State × Wr :=
  let ctl := fun (f : Ctl → Ctl) => (s, Wr.ok (modCtl s id f))
  let intr := fun (f : Intr → Intr) => ctl fun x => { x with intr := f x.intr }
  if 0x140 ≤ n && n < 0x160 then (s, .ok (setEwt s (n - 0x140) v)) else
  match id, n with
  | .sup c, 0x030 => (s, .ok (modCore s c fun k => { k with svtgt := BitVec.ofNat 3 v }))
  | .sup c, 0x185 => (s, match svRun s c v with
    | some s => .ok s
    | none => .trap { cause := 2 })
  | .sys _, 0x100 => (s, .ok (modIod s fun d => { d with asidtb := BitVec.ofNat 52 v }))
  | .sys _, 0x101 => ctl fun x => { x with asid := BitVec.ofNat 16 v }
  | .sys y, 0x110 => (s, .ok (modSys s y fun k => { k with dtsel := BitVec.ofNat 7 v }))
  | .sys y, 0x115 => (s, hostInt s y v)
  | .sys y, 0x116 => (s, ringAck s y v)
  | .sys y, 0x170 => (s, if bits v 31 30 == 3 then .trap { cause := 2 } else .ok (modSys s y fun k => { k with rplctl := BitVec.ofNat 32 v &&& 0xF0000000#32 }))
  | .sys y, 0x171 => (s, .ok (modSys s y fun k => { k with rplbase := BitVec.ofNat 52 (v / 32 * 32) }))
  | .sys y, 0x172 => (s, .ok (modSys s y fun k => { k with rplsize := BitVec.ofNat 24 v }))
  | .sys y, 0x173 => (s, .ok (modSys s y fun k => { k with rplptr := BitVec.ofNat 24 v }))
  | _, 0x180 => if v % 2 ^ 57 != 0 && v % 128 != 8 then (s, .trap { cause := 2 }) else intr fun i => { i with intvec := BitVec.ofNat 57 v }
  | _, 0x181 => intr fun i => { i with inten := BitVec.ofNat 16 v }
  | _, 0x182 => intr fun i => { i with intpend := i.intpend &&& ~~~(BitVec.ofNat 16 v &&& 0x0010#16) }
  | _, 0x183 => ctl fun x =>
      { x with intr := { x.intr with intpc := BitVec.ofNat 57 v }, capt := if x.handler && x.intr.intpc != BitVec.ofNat 57 v then [] else x.capt }
  | _, 0x184 => intr fun i => { i with intcause := BitVec.ofNat 32 v &&& 0xFFF0FFFF#32 }
  | .sys y, 0x190 => (s, .ok (modSys s y fun k => { k with svsel := BitVec.ofNat 8 v }))
  | .sys y, 0x191 => svInit s y (v % 2 ^ 57)
  | .sys y, n => (s, setDt s y n v)
  | _, _ => (s, .ok s)

/-- MTS (R258, R259). -/
def Cx.mts (cx : Cx) (s : State) (o : KOp) : State :=
  let n := regNum o
  let wide := cx.isT && regWide o
  let a := o.p.srcA.toNat
  let d : Dec := { valid := regTrap n true, p := o.p, len := 2, ok := cx.regOkFields o && o.p.srcB == 0 && (!wide || a < 72) && cx.slotHeld s n true,
                   srcs := [{ n := a, rc := cx.rcScalar wide, wide := wide || !cx.isT }] }
  cx.start s d fun s rs =>
    match rs with
    | [] => s
    | (t0, v0) :: _ =>
      match cx.regSite s n with
      | .error c => cx.raise s d.srcs { cause := c } cx.acts
      | .ok none => match setPlaceReg s cx.id n (aOf v0) with
        | (_, .ok s) => cx.finish s d [0] fun _ => {}
        | (s, .trap t) => cx.raise s d.srcs t cx.acts
        | (s, .miss) =>
          let (asid, part) := spaceOf s cx.id
          cx.wait (askWalk s cx.id 0 asid part (aOf v0 % 2 ^ 57 / 128 * 128) 3) [0] 1
      | .ok (some (c, sl, t)) => match blockOf s c sl with
        | none => s
        | some b =>
          let bad := (rs.filter fun r => blockRegBad b n (aOf r.2)).map (·.1)
          let good := rs.filter fun r => !bad.contains r.1
          let s := match good with
            | r :: _ => modBlock s c sl fun b => setBlockReg b (t.getD t0) n (aOf r.2)
            | [] => s
          let s := cx.finish s d (cx.whoOf (good.map (·.1))) fun _ => {}
          if bad.isEmpty then s else cx.raise s d.srcs { cause := 2, lanes := if cx.isT then bad else [] } (cx.whoOf bad)

def execMts (o : KOp) (s : State) : Host.Outcome State Fault Refusal := withCx s fun cx => cx.mts s o
/-- MTS of SVRUN with the constants 1, 2, 3 (R427). -/
def execSvrunResume (o : KOp) (s : State) : Host.Outcome State Fault Refusal := withCx s fun cx => cx.mts s o
def execSvrunAbort (o : KOp) (s : State) : Host.Outcome State Fault Refusal := withCx s fun cx => cx.mts s o
def execSvrunDeliver (o : KOp) (s : State) : Host.Outcome State Fault Refusal := withCx s fun cx => cx.mts s o
def execSvinit (o : KOp) (s : State) : Host.Outcome State Fault Refusal := withCx s fun cx => cx.mts s o
def execHostint (o : KOp) (s : State) : Host.Outcome State Fault Refusal := withCx s fun cx => cx.mts s o
def execRingack (o : KOp) (s : State) : Host.Outcome State Fault Refusal := withCx s fun cx => cx.mts s o

/-! ## HALT, WFI, SEV (R260) -/

def ky : Kind → Option Nat := validIn [.K, .Y] [.T, .V, .S]

def execHalt (o : KOp) (s : State) : Host.Outcome State Fault Refusal :=
  withCx s fun cx =>
    let d := plainDec ky o.p 2 (o.p.grd == 0 && o.param == 0)
    cx.start s d fun s _ => modCtl (cx.finish s d [0] fun _ => {}) cx.id fun x => { x with halted := true }

/-- Whether an interrupt is pending for a context. -/
def interruptPending (x : Ctl) : Bool := x.intr.intpend &&& x.intr.inten != 0 || x.intr.intpend.getLsbD 4

def execWfi (o : KOp) (s : State) : Host.Outcome State Fault Refusal :=
  withCx s fun cx =>
    let d := plainDec ky o.p 2 (o.p.grd == 0 && o.param == 0)
    cx.start s d fun s _ =>
      let x := cx.ctl s
      if x.event || interruptPending x then cx.finish (modCtl s cx.id fun x => { x with event := false }) d [0] fun _ => {}
      else cx.wait s [0] 2

/-- SEV: every system core and supervisor context of the issuing partition. -/
def execSev (o : KOp) (s : State) : Host.Outcome State Fault Refusal :=
  withCx s fun cx =>
    let d := plainDec ky o.p 2 (o.param == 0)
    cx.start s d fun s rs =>
      if rs.isEmpty then s else
      let p := (cx.ctl s).part
      let s := (sysCoresOf s p).foldl (fun s n => modSys s n fun y => { y with ctl := { y.ctl with event := true } }) s
      let s := ((List.range 192).filter fun c => (coreOf s c).sup.part == p && holderOf s (columnOfCore c) == some p).foldl (fun s c =>
        modCore s c fun k => { k with sup := { k.sup with event := true } }) s
      cx.finish s d [0] fun _ => {}

end Sys2Proof.Machine
end

