-- ==== Sys2Proof/Machine/Tables.lean ====
section
/-! DEFINITION. Walks and what an absent page does (spec 16_tables.md R385 to R388), TLBINV (R389, R390, R70), DIRTYRD
(R401 to R403).
Where the spec leaves a point open: notes/assumptions, entries 6, 28. -/

namespace Sys2Proof.Machine

/-! ## Stopping for a save (R388, R428) -/

/-- The block begins to stop for a save at its streams' next stop places. -/
def beginSave (s : State) (c sl : Nat) : State :=
  settleStop (modBlock s c sl fun b => { b with phase := .stopping 1 { cause := 0 } [] }) c sl

/-- The block of a sealed region rolls back, with no trap, and stops at the EP that opened it. -/
def rollbackSave (s : State) (c sl : Nat) : State :=
  beginSave (modBlock (rollback s c sl) c sl fun b => { b with want := { b.want with saveAtEp := true } }) c sl

/-- The partition's pool has room for the block's save area. -/
def saveRoom (s : State) (c sl : Nat) (b : Block) : Bool :=
  ((partOf s b.part).bind fun p => p.savePool.alloc (saveSize s c sl b false)).isSome

/-! ## Absent pages (R388) -/

/-- A stream that waits for a translation has read its latch operands: they stay with its instruction (R104). -/
def Block.captureWaiting (b : Block) (who : Nat) : Block :=
  if b.exec.model == .threaded then
    let ln := (b.exec.bundles.find? fun u => u.members.contains who).bind (·.line)
    b.modThreads [who] fun _ t => if t.ownCapt then { t with capt := captureAt ln t.pc 10 t.latches t.capt } else t
  else b.modCtl fun x => if x.ownCapt then { x with capt := captureAt x.line x.pc 10 x.latches x.capt } else x

/-- A block's access meets an absent page: it is requested, and the block is swapped out when there is room. -/
def absentPage (s : State) (c sl : Nat) (w : Walk) (size : Nat) : State :=
  let s := requestPage s w.asid w.part w.va w.kind 0 c size
  let s := { s with walks := s.walks.map fun x => if x.id == w.id then { x with parked := true } else x }
  match blockOf s c sl with
  | none => s
  | some b =>
    if b.phase != .running || !saveRoom s c sl b then s else
    let s := modBlock s c sl fun b => { b with want := { b.want with swapPage := some (w.va - w.va % size, size) } }
    if isSealed s b then rollbackSave s c sl
    else beginSave (modBlock s c sl fun b => b.captureWaiting w.who) c sl

/-- PAGE_WALK: a walk that was asked for ends. -/
def execPageWalk (id : Nat) (s : State) : Host.Outcome State Fault Refusal :=
  .next (match s.walks.find? (·.id == id) with
    | none => s
    | some w =>
      if w.parked || w.failed.isSome then s else
      let drop := { s with walks := s.walks.filter fun x => x.id != id }
      let fail := fun (k : Nat) => { s with walks := s.walks.map fun x => if x.id == id then { x with failed := some k } else x }
      match w.crec with
      | some n =>
        if s.pageReqs.any fun r => r.asid == w.asid && r.part == w.part && r.base ≤ w.va && w.va < r.base + r.size then s
        else (match (launchOf s n).bind (·.status) with
          | some st => finishLaunch drop n st
          | none => drop)
      | none => match walk s w.asid w.part w.va w.kind, w.ctx with
        | .ok e pa, _ => match setAD drop pa (w.kind == 1 || w.kind == 2) with
          | some t => installTlb t w.ctx e
          | none => s
        | .bad 4 size, .blk c sl => absentPage s c sl w size
        | .bad k _, _ => fail k)

/-! ## TLBINV (R389, R390) -/

/-- What a TLBINV covers: one page's address and ASID, one ASID, or a partition. -/
inductive Inv
  | page (va : Nat) (asid : W16)
  | asid (a : W16)
  | all (part : Nat)
  deriving DecidableEq, Repr

/-- Whether an address under an ASID of a partition is covered; `base` and `size` are those of its page or region. -/
def Inv.covers (v : Inv) (asid : W16) (part base size : Nat) : Bool :=
  match v with
  | .page va a => asid == a && base ≤ va && va < base + size
  | .asid a => asid == a
  | .all p => part == p

/-- Entries leave every TLB (R390 step 2); what failed walks said is forgotten. -/
def dropTlbs (s : State) (v : Inv) : State :=
  let keep := fun (l : List TlbEntry) => l.filter fun e => !v.covers e.asid e.part e.base e.size
  { s with cores := s.cores.map fun c => (c.1, { c.2 with tlb := keep c.2.tlb })
           dieTlb := s.dieTlb.map fun d => (d.1, keep d.2)
           walks := s.walks.filter fun w => !(w.failed.isSome && v.covers w.asid w.part (w.va - w.va % 4096) 4096) }

/-- Page requests the TLBINV counts as arrived are satisfied: what waited for them goes on (R388, R390 step 5). -/
def pagesArrive (s : State) (v : Inv) : State :=
  let gone := s.pageReqs.filter fun r => v.covers r.asid r.part r.base r.size
  let s := { s with pageReqs := s.pageReqs.filter fun r => !v.covers r.asid r.part r.base r.size }
  let waits := fun (asid : W16) (part va : Nat) => s.pageReqs.any fun r => r.asid == asid && r.part == part && r.base ≤ va && va < r.base + r.size
  let came := fun (asid : W16) (part : Nat) => gone.any fun r => r.asid == asid && r.part == part
  let s := { s with walks := s.walks.map fun (w : Walk) => if w.parked && !waits w.asid w.part w.va then { w with parked := false } else w }
  let s := { s with cores := s.cores.map fun (e : Nat × Core) =>
    let owner := fun (sl : Nat) => (Table.get? e.2.slots sl).any fun b => came b.asid b.part
    (e.1, { e.2 with
      culvert := e.2.culvert.map fun q => (q.1, q.2.map fun l => if l.waitPage && owner l.slot then { l with waitPage := false } else l)
      slots := e.2.slots.map fun x => if !came x.2.asid x.2.part then x else
        (x.1, { x.2 with fab := { x.2.fab with ports := x.2.fab.ports.map fun p =>
          (p.1, { p.2 with active := p.2.active.map fun a => { a with waitPage := false } }) } }) }) }
  modIod s fun i => { i with parts := i.parts.map fun p => (p.1, { p.2 with resume := p.2.resume.map fun r =>
    match r.page with
    | some (base, _) => if came r.blk.asid r.blk.part && !waits r.blk.asid r.blk.part base then { r with page := none } else r
    | none => r }) }

/-- Accesses on their way that were translated under a covered entry. -/
def onWay (s : State) (v : Inv) : List PathOp := s.path.filter fun p => v.covers p.asid p.part (p.va - p.va % p.page) p.page
/-- Staged records and queued fetches under a covered entry (R70, R390). -/
def stagedUnder (s : State) (v : Inv) : Bool :=
  s.cores.any fun e => e.2.slots.any fun x =>
    ((x.2.stage.window ++ x.2.stage.staged).any fun r => v.covers x.2.asid x.2.part (r.va - r.va % r.page) r.page) ||
      e.2.tfq.any fun f => f.slot == x.1 && ((f.lines ++ f.scale.toList).zip f.pages).any fun (l, n) => v.covers x.2.asid x.2.part (l.1 - l.1 % n) n

/-- The effect of TLBINV; it waits while an access, a staged store or a fetch under a removed entry has not performed. -/
def Cx.invalidate (cx : Cx) (s : State) (d : Dec) (v : Inv) : State :=
  let s := drainPath s cx.id
  if !earlierDone s cx.id 3 then cx.wait s [0] 10 else
  let s := dropTlbs s v
  let s := ((onWay s v).map (·.ctx)).eraseDups.foldl drainPath s
  if !(onWay s v).isEmpty || stagedUnder s v then cx.wait s [0] 10
  else cx.finish (pagesArrive s v) d [0] fun _ => {}

/-- The partition an ASID's entry names, if it is valid (R382). -/
def asidPart (s : State) (asid : Nat) : Option Nat :=
  match readEntry s (s.iod.asidtb.toNat + 16 * asid), readEntry s (s.iod.asidtb.toNat + 16 * asid + 8) with
  | some (e, _), some (w, _) => if bit e 0 then some (bits w 15 0) else none
  | _, _ => none

def execTlbinv (o : KOp) (s : State) : Host.Outcome State Fault Refusal :=
  withCx s fun cx =>
    let kind := bits o.param.toNat 23 22
    let a : Src := { n := o.p.srcA.toNat, rc := .s, wide := true }
    let b : Src := { n := o.p.srcB.toNat, rc := .s, wide := true }
    let d : Dec := { valid := ky, p := o.p, len := 2
                     ok := bits o.param.toNat 21 0 == 0 && kind != 3 && (if kind == 0 then o.p.srcA.toNat < 72 else o.p.srcA == 0) &&
                       (if kind == 2 then o.p.srcB == 0 else o.p.srcB.toNat < 104)
                     srcs := if kind == 0 then [a, b] else if kind == 1 then [b] else [] }
    cx.start s d fun s rs =>
      match rs with
      | [] => s
      | r :: _ =>
        let va := if kind == 0 then aOf r.2 else 0
        let asid := if kind == 0 then bOf r.2 else aOf r.2
        if kind != 2 && asid > 65535 then cx.raise s d.srcs { cause := 2 } [0]
        else if kind != 2 && cx.kind == .K && (asidPart s asid).any (fun p => p != (spaceOf s cx.id).2) then cx.raise s d.srcs { cause := 7 } [0]
        else if kind == 0 && va ≥ 2 ^ 57 then cx.raise s d.srcs { cause := 8, addr := wrapNat 64 va, wst := 5 } [0]
        else cx.invalidate s d (match kind with
          | 0 => .page va (BitVec.ofNat 16 asid)
          | 1 => .asid (BitVec.ofNat 16 asid)
          | _ => .all (spaceOf s cx.id).2)

/-! ## DIRTYRD (R403) -/

/-- The exchange of a bitmap word with zero at its home slice; it is no tracked write (R402). None: it must wait for its
line (R285). -/
def readDirty (s : State) (pa : Nat) : Option (State × Nat × Bool) :=
  if unserved s pa then none else
  let (s, bs, bad) := readHome s pa 8 none
  if bad then some (s, bytesVal bs, true) else
  (writeHome s pa (List.replicate 8 0#8) false none).map fun s => (wakeLine s (pa / 128), bytesVal bs, false)

def execDirtyrd (o : KOp) (s : State) : Host.Outcome State Fault Refusal :=
  withCx s fun cx =>
    let src := fun (n : Nat) => ({ n, rc := .s, wide := true } : Src)
    let d : Dec := { valid := validIn [.Y] [.T, .V, .S], p := o.p, len := 2, dst := .reg .s
                     ok := o.param == 0 && o.p.srcA.toNat < 104 && o.p.srcB.toNat < 104
                     srcs := [src o.p.srcA.toNat, src o.p.srcB.toNat] }
    cx.start s d fun s rs =>
      match rs with
      | [] => s
      | r :: _ =>
        let vf := aOf r.2
        let w := bOf r.2
        let f := funcOf s vf
        if vf > 127 || f.part.isNone then cx.raise s d.srcs { cause := 2 } [0]
        else if f.part != some (spaceOf s cx.id).2 then cx.raise s d.srcs { cause := 7 } [0]
        else if !f.dten then cx.result s d .s true [(0, 0)]
        else if w ≥ ceilDiv f.dtcnt.toNat 64 then cx.raise s d.srcs { cause := 2 } [0]
        else
          let s := drainPath s cx.id
          if !earlierDone s cx.id 3 then cx.wait s [0] 10 else
          match readDirty s (f.dtbase.toNat + 8 * w) with
          | none => cx.wait s [0] 10
          | some (s, v, bad) =>
            let v := if f.dtcnt.toNat - 64 * w < 64 then v % 2 ^ (f.dtcnt.toNat - 64 * w) else v
            let s := cx.put (dropClean s cx.id) { cls := .s, wid := 8, sext := false, dreg := o.p.dreg.toNat, nwb := o.p.nwb } [(0, v)] bad
            cx.finish s d [0] fun _ => entryOf .s true v bad

end Sys2Proof.Machine
end

