-- ==== Sys2Proof/Machine/SaveArea.lean ====
section
/-! DEFINITION. The save area (spec 18_traps.md R432 to R434; 23_prog_preempt.md R478): what is written in each section, and
what is read back from it.
Where the spec leaves a point open: notes/assumptions, entries 18, 37, 49. -/

namespace Sys2Proof.Machine

/-! ## Writing the sections -/

/-- A section: its bytes, and which of them are poisoned data. -/
structure Sec where
  bytes : List Byte
  bad : List Nat := []
  deriving DecidableEq, Repr

/-- The registers of SYS, in its order. -/
def sysWords (r : BlkRegs) : List Nat :=
  [r.hopctl.toNat, r.plim.toNat, r.pbase.toNat, r.vlen.toNat, r.fstat.toNat, r.fen.toNat, r.trapvec.toNat, r.trapcause.toNat,
   r.trapaddr.toNat, r.trapsite.toNat, r.trapep.toNat, r.traplane.toNat, r.dbgctl.toNat, r.trcctl.toNat, r.trcbase.toNat,
   r.trcsize.toNat, r.trcptr.toNat]
def zeros (n : Nat) : List Byte := List.replicate n 0#8
def words8 (l : List Nat) : List Byte := l.flatMap (valBytes 8)

def sysSec (b : Block) : Sec := { bytes := words8 (sysWords b.regs) ++ zeros 120 }

/-- ROWS: where gN of a thread lies under a budget. -/
def rowOfs (budget t n : Nat) : Nat := (t / 64 * budget + n) * 256 + 4 * (t % 64)
def rowsSec (b : Block) : Sec :=
  match b.exec.model with
  | .threaded =>
    let k := b.saveBudget
    { bytes := (List.range (gangsOf b.nthr)).flatMap fun g => (List.range k).flatMap fun n => (List.range 64).flatMap fun i =>
        valBytes 4 (b.mem.g (64 * g + i) n).toNat
      bad := (b.mem.rowPoison.filter fun x => x % 64 < k).map fun x => rowOfs k (x / 64) (x % 64) }
  | .vector => { bytes := (List.range (b.saveRows / 4)).flatMap fun i => valBytes 4 (Store.get b.mem.rows i).toNat
                 bad := b.mem.rowPoison.map (4 * ·) }
  | .spatial => { bytes := zeros b.saveRows }

def predSec (b : Block) : Sec := { bytes := (upFrom 1 7).flatMap fun n => valBytes 256 (Store.get b.mem.preds n).toNat }

/-- A captured operand as a word; of a vector its element 0 (DEDUCED, unsafe: notes/assumptions/49.md). -/
def LVal.word : LVal → Nat
  | .bad => 0
  | .w32 v => v.toNat
  | .w64 v => v.toNat
  | .vec _ e => (Store.get e 0).toNat

/-- The record of a thread or control stream. -/
def streamRec (pc : VAddr) (live handler : Bool) (wait : BitVec 4) (wdog : Nat) (trapPc : VAddr) (aux : W64) (capt : List LVal) : List Byte :=
  valBytes 8 pc.toNat ++ valBytes 4 ((if live then 1 else 0) + (if handler then 2 else 0) + 16 * wait.toNat) ++ valBytes 4 wdog ++
    valBytes 8 trapPc.toNat ++ valBytes 8 aux.toNat ++ ((List.range 3).flatMap fun i => valBytes 8 ((capt[i]?).getD .bad).word) ++ zeros 8

def threadSec (b : Block) : Sec :=
  if b.exec.model != .threaded then { bytes := [] } else
  { bytes := (b.exec.threads.flatMap fun t => streamRec t.pc t.live t.handler t.wait t.wdog.toNat t.trapPc t.trapAux t.capt) ++
      (List.range 32).flatMap fun g => valBytes 4 ((b.exec.limits[g]?).getD 0).toNat }

def ctlSec (b : Block) : Sec :=
  if b.exec.model == .threaded then { bytes := [] } else
  let c := b.exec.ctl
  { bytes := streamRec c.pc (!c.done) c.handler c.wait 0 c.trapPc c.trapAux c.capt ++ words8 ((List.range 32).map fun n => (c.s n).toNat)
    bad := c.spoison.map fun n => 64 + 8 * n }

/-- The claimed items of a mask of `n` bits. -/
def claimed {w : Nat} (m : BitVec w) : List Nat := (List.range w).filter fun i => m.getLsbD i

/-- A posted descriptor (R478). -/
def descWord : Option (Bool × W32 × Nat) → Nat
  | none => 0
  | some (split, p1, _) => (if split then 0xD6 else 0xD5) * 2 ^ 32 + p1.toNat % 2 ^ 28
def cvBytes (cv : Cv) (n : Nat) : List Byte :=
  valBytes 4 cv.gangs.toNat ++ valBytes 8 (descWord cv.desc) ++ zeros 4 ++ (List.range n).flatMap fun t => match Table.get? cv.signs t with
    | none => zeros 8
    | some none => 2#8 :: zeros 7
    | some (some w) => 1#8 :: zeros 3 ++ valBytes 4 w.toNat
def convSec (s : State) (c : Nat) (b : Block) : Sec :=
  { bytes := (claimed b.claim.cv).flatMap fun n => cvBytes (Table.getD (coreOf s c).cvs n {}) b.nthr }

def accSec (s : State) (c : Nat) (b : Block) : Sec :=
  let k := coreOf s c
  let js := claimed b.claim.acc
  { bytes := (js.flatMap fun j => words8 ((List.range 1024).map fun i => (Store.get k.acc (1024 * j + i)).toNat)) ++
      words8 ((claimed b.claim.ag).map fun i => (Store.get k.ag i).toNat)
    bad := k.accPoison.filterMap fun x => (js.idxOf? (x / 1024)).map fun i => 8192 * i + 8 * (x % 1024) }

/-- Fill states (R478). -/
def Fill.code : Fill → Nat
  | .empty => 0
  | .filling => 1
  | .awaiting => 2
  | .ready => 3
def Fill.ofCode : Nat → Fill
  | 0 => .empty
  | 1 => .filling
  | 2 => .awaiting
  | _ => .ready
def tileBytes (t : Tile) : List Byte :=
  Store.bytes t.rows 0 4224 ++ valBytes 8 t.poison.toNat ++ [BitVec.ofNat 8 t.fill.code, BitVec.ofNat 8 t.pins.length] ++ zeros 6 ++
    ((List.range 33).flatMap fun i => valBytes 8 (((t.pins[i]?).map fun p => 128 * p.1).getD 0)) ++ zeros 104
def tileSec (s : State) (c : Nat) (b : Block) : Sec :=
  { bytes := (claimed b.claim.tb).flatMap fun k => tileBytes (Table.getD (coreOf s c).tiles k {}) }

/-- Bytes the spec gives no layout for: free values (DESIGN CHOICE, safe: notes/assumptions/37.md). -/
def openBytes (base n : Nat) : List Byte := (upFrom base n).map Config.outsideByte

/-- The local range, then the snapshot area: the snapshot's values, after them bytes of no meaning. -/
def localSec (s : State) (b : Block) : Sec :=
  let x := snapImage s b
  { bytes := Store.bytes b.mem.loc 0 b.mem.locb ++ x ++ openBytes s.freeCount (b.mem.snapBytes - x.length)
    bad := b.mem.locPoison.map (4 * ·) ++ (snapMarks s b).map (b.mem.locb + ·) }

/-- A copy request record as R309 lays it out. -/
def CpRec.toBytes (r : CpRec) : List Byte :=
  valBytes 8 (r.src + if r.sloc then 2 ^ 57 else 0) ++ valBytes 8 (r.dst + if r.dloc then 2 ^ 57 else 0) ++ valBytes 4 r.rowb ++
    valBytes 4 (wrapNat 32 r.sstr) ++ valBytes 4 (wrapNat 32 r.dstr) ++ valBytes 4 ((r.nrow - 1) * 2 ^ 20 + r.bbar)
def copySec (s : State) (c sl : Nat) : Sec :=
  let l := copyRecs s c sl
  { bytes := valBytes 8 l.length ++ l.flatMap fun (e, r) => valBytes 8 (r.site * 2 ^ 32 + e) ++ r.toBytes ++ valBytes 8 (r.row * 2 ^ 32 + r.ofs) }

def stageSec (b : Block) (base : Nat) : Sec :=
  { bytes := if b.det == 0 then [] else valBytes 8 b.stage.staged.length ++ openBytes base (16 * b.stage.staged.length) }

/-- Elements of the span's cells and ports with the fields of each. -/
def fabricFields (k span : Nat) : List (Nat × Nat) :=
  ((upFrom (64 * k) (64 * span)).flatMap fun e => (List.range 14).map fun f => (e, f)) ++
    (upFrom (384 + 16 * k) (16 * span)).flatMap fun e => [(e, 5), (e, 6)]
def recordBytes16 (e f v : Nat) : List Byte := valBytes 2 e ++ [BitVec.ofNat 8 f] ++ zeros 5 ++ valBytes 8 v
def fabricSec (b : Block) (k : Nat) : Sec :=
  { bytes := if b.exec.model != .spatial then [] else
      ((fabricFields k b.fab.span).flatMap fun (e, f) => recordBytes16 e f (b.fab.field e f)) ++ drainBytes b }

def meterSec (b : Block) : Sec := { bytes := words8 ((List.range 13).map b.meter ++ [b.charges.energy.toNat]) ++ zeros 16 }

def failSec (s : State) (c : Nat) (b : Block) : Sec :=
  let r := b.regs
  { bytes := valBytes 4 r.trapcause.toNat ++ valBytes 4 r.trapsite.toNat ++ valBytes 8 r.trapaddr.toNat ++ valBytes 4 r.trapep.toNat ++ zeros 4 ++
      valBytes 8 r.traplane.toNat ++ valBytes 8 c ++ valBytes 8 s.cycle ++ zeros 80 }

/-- A queue entry: OPC, SUB, parcel 1, the word, the row, the destination. -/
def MqOp.fields : MqOp → Nat × Nat × Nat × Nat × Nat × Nat
  | .mma split p1 fw => (if split then 0xD6 else 0xD5, 0, p1.toNat, fw.toNat, 0, 0)
  | .drn p1 addr row => (0xDA, 0, p1.toNat, addr, row, 0)
  | .ald j addr row => (0xD8, 0, j * 2 ^ 29, addr, row, 0)
  | .ast j addr row => (0xD9, 0, j * 2 ^ 29, addr, row, 0)
  | .azero _ => (0xD7, 0, 0, 0, 0, 0)
  | .agset _ thr ref => (0xDB, 0, ref * 2 ^ 16 + thr, 0, 0, 0)
  | .agget _ _ d => (0xDB, 1, 2 ^ 24, 0, 0, d)
  | .trel _ => (0, 0, 0, 0, 0, 0)
def Mq.toBytes (e : Mq) : List Byte :=
  let (opc, sub, p1, w, row, d) := e.op.fields
  [BitVec.ofNat 8 opc, BitVec.ofNat 8 sub] ++ valBytes 2 e.who ++ valBytes 4 p1 ++ valBytes 4 w ++ [BitVec.ofNat 8 row, BitVec.ofNat 8 d] ++ zeros 18
def queueSec (s : State) (c sl : Nat) : Sec :=
  let l := recordedAll s c sl
  { bytes := if l.isEmpty then [] else valBytes 8 l.length ++ l.flatMap fun e => e.2.toBytes }

/-- Sections 1 to 15 of a block. -/
def sections (s : State) (c sl : Nat) (b : Block) (dump : Bool) : List Sec :=
  [sysSec b, rowsSec b, predSec b, threadSec b, ctlSec b, convSec s c b, accSec s c b, tileSec s c b, localSec s b,
   copySec s c sl, stageSec b (s.freeCount + b.mem.snapBytes), fabricSec b (posOfCore c), meterSec b,
   if dump then failSec s c b else { bytes := [] }, queueSec s c sl]

def claimWords (a : Claim) : Nat × Nat := (a.acc.toNat + a.tb.toNat * 256 + a.ag.toNat * 65536, a.cv.toNat + a.q.toNat * 65536)

/-- The header. -/
def saveHeader (s : State) (b : Block) (kind size : Nat) : List Byte :=
  let kobj := ((launchOf s b.launch).map fun l => l.lpb.kobj.toNat).getD 0
  let (c1, c2) := claimWords b.claim
  valBytes 4 0x00534156 ++ [1#8, BitVec.ofNat 8 kind, BitVec.ofNat 8 b.exec.model.code,
      BitVec.ofNat 8 (if b.exec.model == .spatial then b.fab.span else 1)] ++
    valBytes 8 size ++ valBytes 8 kobj ++ valBytes 4 b.regs.bidx.toNat ++ valBytes 2 b.nthr ++
    [BitVec.ofNat 8 b.saveBudget, if b.exec.grow.isSome then 1#8 else 0#8] ++ valBytes 4 b.region ++ valBytes 4 c1 ++ valBytes 4 c2 ++
    valBytes 4 b.mem.locb ++ valBytes 4 b.mem.snapBytes ++ valBytes 2 b.asid.toNat ++ [BitVec.ofNat 8 b.part, BitVec.ofNat 8 b.prio] ++ zeros 72

/-- The whole area: its bytes and the poisoned ones of them. -/
def saveImage (s : State) (c sl : Nat) (b : Block) (dump : Bool) : Sec :=
  let secs := sections s c sl b dump
  let (ofs, size) := saveLayout (secs.map fun x => x.bytes.length)
  let kind := if dump then 2 else if b.want.saveAtEp then 1 else 0
  let dir := (secs.zip ofs).mapIdx (fun i x => (i, x)) |>.flatMap fun (i, x, o) =>
    [BitVec.ofNat 8 (i + 1), 0#8, 0#8, 0#8] ++ valBytes 4 o ++ valBytes 4 x.bytes.length ++ zeros 4
  { bytes := saveHeader s b kind size ++ dir ++ zeros 16 ++ secs.flatMap fun x => x.bytes ++ zeros ((128 - x.bytes.length % 128) % 128)
    bad := (secs.zip ofs).flatMap fun (x, o) => x.bad.map (o + ·) }

/-- The area is written (R430 step 4): a line that takes a poisoned byte is poisoned (R286). None: a line must wait for a tag
or an entry (R285). -/
def writeImage (s : State) (a : Nat) (x : Sec) : Option State :=
  let bad := (x.bad.map (· / 128)).eraseDups
  (splitLines (x.bytes.length / 128 + 2) a x.bytes).foldl (fun r (pa, l) =>
    r.bind fun s => performWrite s pa l (bad.contains ((pa - a) / 128)) none) (some s)

/-! ## Reading the sections -/

/-- A read area: its bytes, the poisoned lines. -/
structure Img where
  bytes : List Byte
  bad : List Nat

def Img.ofs (x : Img) (i : Nat) : Nat := field x.bytes (0x80 + 16 * (i - 1) + 4) 4
def Img.len (x : Img) (i : Nat) : Nat := field x.bytes (0x80 + 16 * (i - 1) + 8) 4
/-- Section `i`. -/
def Img.sec (x : Img) (i : Nat) : List Byte := (x.bytes.drop (x.ofs i)).take (x.len i)
/-- Whether byte `o` of section `i` is poisoned. -/
def Img.marked (x : Img) (i o : Nat) : Bool := x.bad.contains ((x.ofs i + o) / 128)

/-- The header agrees with the placement (R430). -/
def headerOk (b : Block) (h : List Byte) : Bool :=
  let (c1, c2) := claimWords b.claim
  field h 0 4 == 0x00534156 && field h 4 1 == 1 && field h 8 8 == b.kept.size && field h 0x18 4 % 2 ^ 24 == b.regs.bidx.toNat &&
    field h 0x1C 2 == b.nthr && field h 0x1E 1 == b.mem.budget && field h 0x24 4 == c1 && field h 0x28 4 == c2

def waitOk (st : Nat) : Bool := bits st 7 4 ≤ 11
/-- The coded fields of THREAD, CTL, CONV, TILE and QUEUE (R478). -/
def codesOk (b : Block) (x : Img) : Bool :=
  let th := x.sec 4
  let ncv := (claimed b.claim.cv).length
  let cv := fun (i o n : Nat) => field (x.sec 6) (i * (16 + 8 * b.nthr) + o) n
  let q := x.sec 15
  (if b.exec.model == .threaded then (List.range b.nthr).all fun t => waitOk (field th (64 * t + 8) 4) else waitOk (field (x.sec 5) 8 4)) &&
    (List.range ncv).all (fun i =>
      let d := cv i 4 8
      (d == 0 || ((d / 2 ^ 32 == 0xD5 || d / 2 ^ 32 == 0xD6) && bits d 31 28 == 0)) &&
        (List.range b.nthr).all fun t => cv i (16 + 8 * t) 1 ≤ 2) &&
    (List.range (claimed b.claim.tb).length).all (fun i => field (x.sec 8) (4608 * i + 4232) 1 ≤ 3) &&
    (List.range (min (field q 0 8) ((x.len 15 - 8) / 32))).all fun i =>
      let opc := field q (8 + 32 * i) 1
      0xD5 ≤ opc && opc ≤ 0xDB && field q (9 + 32 * i) 1 ≤ (if opc == 0xDB then 1 else 0)

/-- SYS. A field that is read-only or reserved takes nothing from it (R5, R6). -/
def loadSys (r : BlkRegs) (x : List Byte) : BlkRegs :=
  let w := fun (i : Nat) => field x (8 * i) 8
  let v32 := fun (i : Nat) => BitVec.ofNat 32 (w i)
  let va := fun (i : Nat) => BitVec.ofNat 57 (w i)
  { r with hopctl := v32 0 &&& 0xF0FF00FF#32, plim := BitVec.ofNat 16 (w 1), pbase := va 2, vlen := BitVec.ofNat 9 (min (w 3) 256)
           fstat := BitVec.ofNat 32 (w 4 % 128), fen := v32 5 &&& 0x5F#32, trapvec := va 6, trapcause := v32 7 &&& 0xFFF0FFFF#32, trapaddr := va 8
           trapsite := v32 9, trapep := v32 10, traplane := BitVec.ofNat 64 (w 11), dbgctl := BitVec.ofNat 3 (w 12), trcctl := v32 13 &&& 0xC0FFFFFF#32
           trcbase := va 14 &&& ~~~0x3F#57, trcsize := BitVec.ofNat 20 (w 15), trcptr := BitVec.ofNat 20 (w 16) }

/-- A captured operand keeps its kind and takes the area's word. -/
def LVal.withWord (v : LVal) (w : Nat) : LVal :=
  match v with
  | .bad => .bad
  | .w32 _ => .w32 (BitVec.ofNat 32 w)
  | .w64 _ => .w64 (BitVec.ofNat 64 w)
  | .vec wide e => .vec wide (Store.set e 0 (BitVec.ofNat 64 w))
def recapt (l : List LVal) (r : List Byte) : List LVal := l.mapIdx fun i v => v.withWord (field r (32 + 8 * i) 8)

def loadThread (t : Thread) (r : List Byte) (cycle : Nat) : Thread :=
  let st := field r 8 4
  { t with pc := BitVec.ofNat 57 (field r 0 8), live := bit st 0, handler := bit st 1, wait := BitVec.ofNat 4 (bits st 7 4), freeAt := cycle
           wdog := BitVec.ofNat 32 (field r 12 4), trapPc := BitVec.ofNat 57 (field r 16 8), trapAux := BitVec.ofNat 64 (field r 24 8)
           latches := [], capt := recapt t.capt r, line := none }
def loadCtl (c : Ctl) (r : List Byte) (bad : List Nat) : Ctl :=
  let st := field r 8 4
  { c with pc := BitVec.ofNat 57 (field r 0 8), done := !bit st 0, handler := bit st 1, wait := BitVec.ofNat 4 (bits st 7 4)
           trapPc := BitVec.ofNat 57 (field r 16 8), trapAux := BitVec.ofNat 64 (field r 24 8), latches := [], capt := recapt c.capt r, line := none
           sregs := Store.setAll [] ((List.range 32).map fun n => (n, BitVec.ofNat 64 (field r (64 + 8 * n) 8))), spoison := bad }

/-- ROWS, PRED and LOCAL. -/
def loadMem (b : Block) (x : Img) : BlkMem :=
  let rows := x.sec 2
  let keys : List (Nat × Nat) := match b.exec.model with
    | .threaded => (List.range b.nthr).flatMap fun t => (List.range b.mem.budget).map fun n => (gKey t n, rowOfs b.mem.budget t n)
    | .vector => (List.range (b.mem.rowBytes / 4)).map fun i => (i, 4 * i)
    | .spatial => []
  let loc := x.sec 9
  { b.mem with
    rows := Store.setAll [] (keys.map fun (k, o) => (k, BitVec.ofNat 32 (field rows o 4)))
    rowPoison := (keys.filter fun k => x.marked 2 k.2).map (·.1)
    preds := Store.setAll [] ((upFrom 1 7).map fun n => (n, BitVec.ofNat 2048 (field (x.sec 3) (256 * (n - 1)) 256)))
    loc := Store.setBytes [] 0 (loc.take b.mem.locb)
    locPoison := (List.range (b.mem.locb / 4)).filter fun i => x.marked 9 (4 * i) }

/-- FABRIC: the fields, then the states and positions of the drain records. -/
def loadFabric (f : Fabric) (k : Nat) (x : List Byte) : Fabric :=
  let fields := fabricFields k f.span
  let f := fields.mapIdx (fun i e => (i, e)) |>.foldl (fun f (i, _) =>
    f.setField (field x (16 * i) 2) (field x (16 * i + 2) 1) (field x (16 * i + 8) 8)) f
  let y := x.drop (16 * fields.length)
  let f := (List.range (min (field y 0 4) (y.length / 16))).foldl (fun (f : Fabric) i =>
    let r := (y.drop (16 + 16 * i)).take 16
    let e := field r 0 2
    let v := field r 8 8
    if field r 2 1 == 0x0C then f.setWord e 0x0C v
    else if field r 2 1 == 0x20 then { f with ports := Table.modify f.ports (e - 384) fun p => { p with active := p.active.map fun a => { a with pos := v } } }
    else f) f
  { f with cver := BitVec.ofNat 8 (field y 4 1), ports := f.ports.map fun e => (e.1, { e.2 with active := e.2.active.map fun a =>
      { a with lines := [], out := [], headLine := none, scan := a.pos, waitPage := false } }) }

def loadCv (kept : Cv) (n nthr : Nat) (r : List Byte) : Cv :=
  let d := field r 4 8
  { gangs := BitVec.ofNat 32 (field r 0 4)
    desc := if d == 0 then none else some (d / 2 ^ 32 == 0xD6, BitVec.ofNat 32 (d % 2 ^ 28 + n * 2 ^ 28), ((kept.desc).map (·.2.2)).getD 0)
    signs := (List.range nthr).filterMap fun t => match field r (16 + 8 * t) 1 with
      | 0 => none
      | 1 => some (t, some (BitVec.ofNat 32 (field r (20 + 8 * t) 4)))
      | _ => some (t, none) }

/-- A tile slot from its record; its pins are taken apart. -/
def loadTile (kept : Tile) (r : List Byte) : Tile :=
  { rows := Store.setBytes [] 0 (r.take 4224), poison := BitVec.ofNat 33 (field r 4224 8), fill := Fill.ofCode (field r 4232 1)
    poisonAddr := kept.poisonAddr }
def pinLines (r : List Byte) : List Nat := (List.range (min (field r 4233 1) 33)).map fun i => field r (4240 + 8 * i) 8 / 128

/-- What a queue entry does, from its record; `old` gives what the record has no field for. -/
def loadOp (old : Option MqOp) (r : List Byte) : MqOp :=
  let p1 := field r 4 4
  let w := field r 8 4
  let row := field r 12 1
  match field r 0 1 with
  | 0xD5 => .mma false (BitVec.ofNat 32 p1) (BitVec.ofNat 32 w)
  | 0xD6 => .mma true (BitVec.ofNat 32 p1) (BitVec.ofNat 32 w)
  | 0xD7 => .azero (match old with
    | some (.azero d) => d
    | _ => 0)
  | 0xD8 => .ald (bits p1 31 29) w row
  | 0xD9 => .ast (bits p1 31 29) w row
  | 0xDA => .drn (BitVec.ofNat 32 p1) w row
  | _ => match field r 1 1, old with
    | 0, some (.agset k _ _) => .agset k (bits p1 15 0) (bits p1 23 16)
    | 0, _ => .agset 0 (bits p1 15 0) (bits p1 23 16)
    | _, some (.agget k id _) => .agget k id (field r 13 1)
    | _, _ => .agget 0 0 (field r 13 1)

/-- The entries of QUEUE over those the device has kept, with the TRELs among them. -/
def loadQueue (sl : Nat) : List (Nat × Mq) → List (List Byte) → List (Nat × Mq)
  | [], rs => rs.map fun r => (0, { slot := sl, who := field r 2 2, site := 0, op := loadOp none r })
  | (i, e) :: k, rs =>
    if e.op.isTrel then (i, { e with slot := sl }) :: loadQueue sl k rs else
    match rs with
    | [] => loadQueue sl k []
    | r :: rs => (i, { e with slot := sl, who := field r 2 2, op := loadOp (some e.op) r }) :: loadQueue sl k rs

/-- The copy remainders: engine, record. -/
def loadCopies (x : List Byte) : List (Nat × CpRec) :=
  (List.range (min (field x 0 8) (x.length / 48))).map fun i =>
    let r := (x.drop (8 + 48 * i)).take 48
    let p := field r 40 8
    (field r 0 1 % 2, { cpRecOf ((r.drop 8).take 32) (field r 4 4) with row := bits p 43 32, ofs := bits p 23 0 })

end Sys2Proof.Machine
end

