-- ==== Sys2Proof/Machine/Context.lean ====
section
/-! DEFINITION. Pre-emption (spec 18_traps.md R426, R428), CTXSV and CTXLD (R429 to R433; 09_isa_matrix.md R234;
14_queues.md R344, R346, R348; 23_prog_preempt.md R478, R479).
Where the spec leaves a point open: notes/assumptions, entry 18. -/

namespace Sys2Proof.Machine

/-! ## Pre-emption (R428) -/

/-- PREEMPTION: a block that is to be pre-empted begins to stop; in a sealed region it goes on to its EP; with no room in
the save pool the request stays pending. -/
def execPreemption (core slot : Nat) (s : State) : Host.Outcome State Fault Refusal :=
  .next (match blockOf s core slot with
    | none => s
    | some b =>
      if !b.want.preempt || b.phase != .running || isSealed s b || !saveRoom s core slot b then s else beginSave s core slot)

/-- PREEMPTION_DEADLINE: a sealed region that has not ended within the pre-emption deadline rolls back. -/
def execPreemptionDeadline (core slot : Nat) (s : State) : Host.Outcome State Fault Refusal :=
  .next (match blockOf s core slot with
    | none => s
    | some b =>
      let limit := usCycles (((partOf s b.part).map (·.preempt)).getD 100)
      if !b.want.preempt || b.phase != .running || !isSealed s b || s.cycle ≤ b.want.since + limit || !saveRoom s core slot b then s
      else rollbackSave s core slot)

/-! ## CTXSV -/

/-- An area lies outside package memory. -/
def areaBad (a n : Nat) : Bool := !isPackage a || !isPackage (a + n - 1)

/-- Steps 1 to 3 of R430: queues complete but for what R234 records, loads return, changed lines and every access perform.
None: a write-back must wait (R285). -/
def settleSave (s : State) (c sl : Nat) : Option State :=
  let id := CtxId.blk c sl
  let s := (blockCores s c sl).foldl (fun s x => runTrels (settleTiles s x sl true (tileFuel s x)) x sl) s
  let s := drainPath (drainSfu s id) id
  let s := (s.pending.filter fun p => p.ctx == id && p.arrived).foldl returnResult s
  flushBlockLines s c sl

/-- Results that recorded AGGETs still owe. -/
def owedAggets (s : State) (c sl : Nat) : List Nat := (recordedAll s c sl).filterMap fun e => match e.2.op with
  | .agget _ n _ => some n
  | _ => none

/-- Nothing of the block is on its way. -/
def saveSettled (s : State) (c sl : Nat) : Bool :=
  let id := CtxId.blk c sl
  let owed := owedAggets s c sl
  earlierDone s id 3 && !s.pending.any (fun p => p.ctx == id && !owed.contains p.id) && !s.outside.any fun o => o.ctx == id

/-- A spatial block is drained as R377 states; none once no drain is needed any more. -/
def saveDrain (s : State) (c sl : Nat) (b : Block) : Option State :=
  if b.exec.model != .spatial || b.fab.drained (posOfCore c) then none else
  match b.fab.drain with
  | some _ => some s
  | none => some (modFab s c sl fun f => ({ f with drain := some { who := .save, slice := false, since := s.cycle } } : Fabric).settle (posOfCore c))

/-- An entrant held for supervisor code is saved at its resume point, as SVRUN := 1 would leave it. -/
def atResumePoints (b : Block) : Block :=
  match b.phase with
  | .stopped 0 _ ents =>
    if b.want.epRest then b
    else if b.exec.model == .threaded then b.modThreads ents fun _ x =>
      if x.handler then x else { x with pc := x.trapPc, capt := if x.pc == x.trapPc then x.capt else [] }
    else b.modCtl fun x => if x.handler then x else { x with pc := x.trapPc, capt := if x.pc == x.trapPc then x.capt else [] }
  | _ => b

/-- What the device keeps of the block. -/
def keptOf (s : State) (c sl : Nat) (b : Block) (size : Nat) : Kept :=
  let xs := blockCores s c sl
  let recorded := (recordedAll s c sl).map (·.2)
  let owed := owedAggets s c sl
  { pos := posOfCore c, size, pool := b.svarg.toNat
    mq := xs.flatMap fun x => ((coreOf s x).mq.filter fun e => e.slot == sl && (e.op.isTrel || recorded.contains e)).map fun e => (x - c, e)
    pend := s.pending.filter fun p => owed.contains p.id
    copies := [0, 1].flatMap fun e => ((culvertLists s c e).filter fun l => l.slot == sl).flatMap fun l => l.recs.map fun r => (r.who, r.sup)
    cvs := (coreOf s c).cvs.filter fun e => b.claim.cv.getLsbD e.1
    acc := (xs.drop 1).flatMap fun x => (coreOf s x).acc.map fun e => (8192 * (x - c) + e.1, e.2)
    accPoison := (xs.drop 1).flatMap fun x => (coreOf s x).accPoison.map fun e => 8192 * (x - c) + e
    ag := (xs.drop 1).flatMap fun x => (coreOf s x).ag.map fun e => (4 * (x - c) + e.1, e.2)
    tiles := xs.flatMap fun x => ((coreOf s x).tiles.filter fun e => b.claim.tb.getLsbD e.1).map fun e => (8 * (x - c) + e.1, e.2) }

/-- The block as it joins the resume queue. -/
def savedOf (s : State) (c sl area size : Nat) (b : Block) : Saved :=
  let alone := (coreOf s c).slots.all fun e => e.2.exec.grow.isSome
  let page := b.want.swapPage.filter fun (base, n) => s.pageReqs.any fun r =>
    r.asid == b.asid && r.part == b.part && r.base < base + n && base < r.base + r.size
  let b' := (b.modExec fun e => { e with bundles := [], grow := none, ticketAsk := none, sealedWait := none }).modStage fun g => { g with hasWindow := false }
  { launch := b.launch, bidx := b.regs.bidx.toNat, prio := b.prio, at_ := s.cycle, area, budget := b.saveBudget, grow := b.exec.grow.isSome
    page, leftCore := if b.exec.grow.isSome && alone then some c else none
    blk := { b' with kept := keptOf s c sl b size, fab := { b.fab with bufs := [], drain := none } } }

/-- .free: the block goes to its partition's resume queue, its resources are released (R430 step 6, R344, R407). None: a
write-back must wait (R285). -/
def freeSaved (s : State) (c sl area size : Nat) (b : Block) : Option State :=
  let ctr := if b.want.swapPage.isSome then 15 else 14
  let s := flushBlock (chargeBlock s c sl ctr 1 0) c sl
  match blockOf s c sl with
  | none => some s
  | some b => (releaseBlock s c sl).map fun t =>
    let r := savedOf s c sl area size b
    let s := coreStirredGrow (clearSvevt (freeStaging t b) c sl) c
    let s := modPartx s b.part fun x => { x with quiesce := x.quiesce.map fun q => (q.1, q.2 + 1) }
    modPart s b.part fun p => { p with resume := p.resume ++ [r] }
where
  /-- Rows that a save frees may grant a waiting GROW (R257). -/
  coreStirredGrow (s : State) (c : Nat) : State := (coreOf s c).slots.foldl (fun s e => tryGrow s c e.1) s

/-- The failure a dumped block's launch reports (R55). -/
def dumpedFault (b : Block) : FaultRec :=
  { cause := b.regs.trapcause.toNat % 256, blk := b.regs.bidx.toNat, addr := b.regs.trapaddr.toNat, ep := b.regs.trapep.toNat
    site := b.regs.trapsite.toNat }

/-- The area written, its copies in the supervisor's core dropped, and with .free the block released; with what D takes.
None: a line must wait (R285). -/
def saveBlock (s : State) (cx : Cx) (c sl a : Nat) (free dump : Bool) : Option (State × Nat) :=
  let s := flushBlock (if free then modBlock s c sl atResumePoints else s) c sl
  match blockOf s c sl with
  | none => none
  | some b =>
    let x := saveImage s c sl b dump
    let size := x.bytes.length
    let s := { s with freeCount := s.freeCount + b.mem.snapBytes + 16 * b.stage.staged.length }
    (writeImage s a x).bind fun s =>
      let s := (upFrom (a / 128) (size / 128)).foldl (fun s l => dropCopy s cx.id l) s
      (if free then freeSaved s c sl a size b else some s).map fun s => (s, size)

/-- CTXSV once its operands are checked. -/
def Cx.save (cx : Cx) (s : State) (d : Dec) (c sl a : Nat) (free dump : Bool) : State :=
  match blockOf s c sl with
  | none => s
  | some b => match saveDrain s c sl b with
    | some s => cx.wait s [0] 10
    | none =>
      let s := drainPath s cx.id
      match settleSave s c sl with
      | none => cx.wait s [0] 10
      | some s =>
        if !saveSettled s c sl || !earlierDone s cx.id 3 then cx.wait s [0] 10 else
        match saveBlock s cx c sl a free dump with
        | none => cx.wait s [0] 10
        | some (s, size) =>
          let s := cx.put s { cls := .s, wid := 8, sext := false, dreg := d.p.dreg.toNat, nwb := d.p.nwb } [(0, size)] false
          let s := cx.finish s d [0] fun _ => entryOf .s true size false
          if dump then abortLaunch s b.launch (dumpedFault b) else s

def execCtxsv (o : KOp) (s : State) : Host.Outcome State Fault Refusal :=
  withCx s fun cx =>
    let p := o.param.toNat
    let d : Dec := { valid := validIn [.K] [.T, .V, .S], p := o.p, len := 2, dst := .reg .s, srcs := [{ n := o.p.srcA.toNat, rc := .s, wide := true }]
                     ok := p < 4 && p != 3 && o.p.srcA.toNat < 72 && o.p.srcB == 0 && (cx.localSite s).isSome }
    cx.start s d fun s rs =>
      match rs, cx.localSite s with
      | r :: _, some (c, sl) =>
        let a := aOf r.2
        match blockOf s c sl with
        | none => s
        | some b =>
          if a % 128 != 0 then cx.raise s d.srcs { cause := 9, addr := wrapNat 64 a, detail := 1 } [0]
          else match b.phase with
            | .stopped _ _ _ =>
              if areaBad a (saveSize s c sl b (bit p 1)) then cx.raise s d.srcs { cause := 8, addr := wrapNat 64 a, detail := 1, wst := 3 } [0]
              else cx.save s d c sl a (bit p 0) (bit p 1)
            | _ => cx.raise s d.srcs { cause := 2 } [0]
      | _, _ => s

/-! ## CTXLD -/

/-- Pins of the tiles that come back, each line through its tag and not read (R234). None: a fill must wait. -/
def pinAll (s : State) (ls : List Nat) : Option (State × List (Nat × Option Nat)) :=
  ls.foldl (fun r l => r.bind fun (s, ps) => (pinLine s l).map fun (s, e) => (s, ps ++ [(l, e)])) (some (s, []))

/-- Tile slots by (core, slot), each with its contents and its lines. -/
def restoreTiles (s : State) (l : List (Nat × Nat × Tile × List Nat)) : Option State :=
  l.foldl (fun r x => r.bind fun s => (pinAll s x.2.2.2).map fun (s, ps) =>
    modCore s x.1 fun k => { k with tiles := Table.set k.tiles x.2.1 { x.2.2.1 with pins := ps } }) (some s)

/-- The tile slots of the sections and of the span's further cores. -/
def savedTiles (c : Nat) (b : Block) (x : Img) : List (Nat × Nat × Tile × List Nat) :=
  let kept := b.kept.tiles
  ((claimed b.claim.tb).mapIdx fun i k =>
    let r := (x.sec 8).drop (4608 * i)
    let t := loadTile (Table.getD kept k {}) r
    let psn := (List.range 33).foldl (fun (p : BitVec 33) row => if x.marked 8 (4608 * i + 128 * row) then p ||| (1#33 <<< row) else p) t.poison
    (c, k, { t with poison := psn }, pinLines r)) ++
  (kept.filter fun e => e.1 ≥ 8).map fun e => (c + e.1 / 8, e.1 % 8, { e.2 with pins := [] }, e.2.pins.map (·.1))

/-- The remainders of one engine join its queue as one list (R348). -/
def queueRemainders (s : State) (c sl : Nat) (l : List (Nat × CpRec)) (e : Nat) : State :=
  match l.filter fun r => r.1 == e with
  | [] => s
  | r :: rs => setCulvert s c e (culvertLists s c e ++ [{ slot := sl, who := r.2.who, recs := (r :: rs).map (·.2) }])

/-- The block's own state from the area. -/
def loadBlock (b : Block) (k : Nat) (x : Img) (cycle : Nat) : Block :=
  let rec4 := x.sec 4
  let b := { b with mem := loadMem b x, regs := loadSys b.regs (x.sec 1) }
  let b := b.modExec fun e => { e with
    bundles := []
    threads := e.threads.mapIdx fun t th => loadThread th ((rec4.drop (64 * t)).take 64) cycle
    limits := if b.exec.model == .threaded then (List.range (gangsOf b.nthr)).map fun g => BitVec.ofNat 20 (field rec4 (64 * b.nthr + 4 * g) 4) else e.limits
    ctl := if b.exec.model == .threaded then e.ctl else loadCtl e.ctl (x.sec 5) ((List.range 32).filter fun n => x.marked 5 (64 + 8 * n)) }
  { b with
    fab := if b.exec.model == .spatial then loadFabric b.fab k (x.sec 12) else b.fab
    meters := (List.range 13).map fun i => let v := field (x.sec 13) (8 * i) 8; if i == 12 then v else v % 2 ^ 32
    charges := { b.charges with energy := BitVec.ofNat 64 (field (x.sec 13) 104 8) }
    phase := .stopped 2 { cause := 0 } [], kept := {} }

/-- Everything of the sections comes back to the core and the block (R430); none while pins or queues have no room. -/
def loadArea (s : State) (c sl : Nat) (b : Block) (x : Img) : Option State :=
  let first := (leastOf b.streams).getD 0
  let copies := (loadCopies (x.sec 10)).zipIdx.map fun (r, i) =>
    let k := (b.kept.copies[i]?).getD (first, false)
    (r.1, { r.2 with who := k.1, sup := k.2 })
  let q := x.sec 15
  let mq := loadQueue sl b.kept.mq ((List.range (min (field q 0 8) ((q.length - 8) / 32))).map fun i => (q.drop (8 + 32 * i)).take 32)
  let room := [0, 1].all fun e => !copies.any (fun r => r.1 == e) || (culvertLists s c e).length < 8
  if !room then none else
  (restoreTiles s (savedTiles c b x)).map fun s =>
    let s := if b.exec.model == .spatial then enterFabric s c sl else s
    let s := modBlock s c sl fun b => loadBlock b (posOfCore c) x s.cycle
    let snap := readSnap s b ((x.sec 9).drop b.mem.locb) b.want.epRest fun o => x.marked 9 (b.mem.locb + o)
    let s := modBlock s c sl fun b => b.modMem fun m => { m with snap }
    let acc := x.sec 7
    let js := (claimed b.claim.acc).zipIdx
    let s := modCore s c fun k => { k with
      acc := js.foldl (fun m (j, i) => Store.setAll m ((List.range 1024).map fun n => (1024 * j + n, BitVec.ofNat 64 (field acc (8192 * i + 8 * n) 8)))) k.acc
      accPoison := js.foldl (fun p (j, i) => p ++ ((List.range 1024).filter fun n => x.marked 7 (8192 * i + 8 * n)).map (1024 * j + ·)) k.accPoison
      ag := (claimed b.claim.ag).zipIdx.foldl (fun m (j, i) => Store.set m j (BitVec.ofNat 64 (field acc (8192 * js.length + 8 * i) 8))) k.ag
      cvs := (claimed b.claim.cv).zipIdx.foldl (fun t (n, i) =>
        Table.set t n (loadCv (Table.getD b.kept.cvs n {}) n b.nthr ((x.sec 6).drop (i * (16 + 8 * b.nthr))))) k.cvs }
    let s := (upFrom 1 5).foldl (fun s i => if b.fab.span ≤ i || b.exec.model != .spatial then s else modCore s (c + i) fun k => { k with
      acc := ofCore 8192 i b.kept.acc, ag := ofCore 4 i b.kept.ag
      accPoison := (b.kept.accPoison.filter fun p => p / 8192 == i).map (· % 8192) }) s
    let s := { s with pending := s.pending ++ b.kept.pend.map fun p => { p with ctx := .blk c sl } }
    let s := mq.foldl (fun s e => modCore s (c + e.1) fun k => { k with mq := k.mq ++ [e.2] }) s
    let s := [0, 1].foldl (fun s e => queueRemainders s c sl copies e) s
    setSvevt (modPart s b.part fun p => { p with savePool := p.savePool.give b.kept.pool }) c sl 2 false

/-- Poisoned data that no item of the area carries on (R123): MEMORY_ERROR in K. -/
def strayPoison (x : Img) : Option Nat :=
  let carried := fun (l : Nat) => [2, 5, 7, 8, 9].any fun i => x.len i != 0 && x.ofs i / 128 ≤ l && l ≤ (x.ofs i + x.len i - 1) / 128
  x.bad.find? fun l => !carried l

/-- Whether a read of some line of package memory from `a`, `n` bytes, must wait (R282). -/
def linesWait (s : State) (a n : Nat) : Bool := (upFrom (a / 128) (n / 128)).any fun l => unserved s (128 * l)

/-- CTXLD once its operands are checked: a .dev acquire that reads the area (R430). -/
def Cx.restoreBlock (cx : Cx) (s : State) (d : Dec) (c sl a : Nat) (b : Block) : State :=
  let s := drainPath s cx.id
  if linesWait s a 128 then cx.wait s [0] 10 else
  let (s, h, bad) := readHomes s a 128
  if bad then cx.raise s d.srcs { cause := 24, addr := wrapNat 64 a } [0] else
  let size := field h 8 8
  if areaBad a (max size 128) then cx.raise s d.srcs { cause := 8, addr := wrapNat 64 a, wst := 3 } [0]
  else if !headerOk b h then cx.raise s d.srcs { cause := 2 } [0]
  else if linesWait s a size then cx.wait s [0] 10
  else
    let (s, bytes, _) := readHomes s a size
    let x : Img := { bytes, bad := (List.range (size / 128)).filter fun i => linePoisoned s (a / 128 + i) }
    match strayPoison x with
    | some l => cx.raise s d.srcs { cause := 24, addr := wrapNat 64 (a + 128 * l : Nat) } [0]
    | none =>
      if !codesOk b x then cx.raise s d.srcs { cause := 2 } [0]
      else match loadArea (dropClean s cx.id) c sl b x with
        | none => cx.wait s [0] 10
        | some s => cx.finish s d [0] fun _ => {}

def execCtxld (o : KOp) (s : State) : Host.Outcome State Fault Refusal :=
  withCx s fun cx =>
    let d : Dec := { valid := validIn [.K] [.T, .V, .S], p := o.p, len := 2, srcs := [{ n := o.p.srcA.toNat, rc := .s, wide := true }]
                     ok := o.param == 0 && o.p.srcA.toNat < 72 && o.p.srcB == 0 && (cx.localSite s).isSome }
    cx.start s d fun s rs =>
      match rs, cx.localSite s with
      | r :: _, some (c, sl) =>
        let a := aOf r.2
        match blockOf s c sl with
        | none => s
        | some b =>
          if a % 128 != 0 then cx.raise s d.srcs { cause := 9, addr := wrapNat 64 a } [0]
          else if areaBad a 128 then cx.raise s d.srcs { cause := 8, addr := wrapNat 64 a, wst := 3 } [0]
          else if b.phase != .restore then cx.raise s d.srcs { cause := 2 } [0]
          else cx.restoreBlock s d c sl a b
      | _, _ => s

end Sys2Proof.Machine
end

