-- ==== Sys2Proof/Machine/VfCtl.lean ====
section
/-! DEFINITION. VFCTL (spec 19_system.md R463, R464): quiescing a virtual function and its ring registers. -/

namespace Sys2Proof.Machine

/-- The columns a partition holds: its own that are not lent, and those lent to it (R450). -/
def heldCols (s : State) (p : Nat) : List Nat := (List.range 32).filter fun c => holderOf s c == some p

/-- The residents of a partition that are not saved yet, placed for restore ones included. -/
def unsaved (s : State) (p : Nat) : List (Nat × Nat × Block) :=
  s.cores.flatMap fun e => (e.2.slots.filter fun x => x.2.part == p && x.2.phase != .finished).map fun x => (e.1, x.1, x.2)

/-- One resident block pre-empted with a deadline of 0: a sealed region rolls back at once (R428). -/
def preemptNow (s : State) (c sl : Nat) : State :=
  let s := askPreempt s c sl
  match blockOf s c sl with
  | none => s
  | some b =>
    if b.phase != .running || !saveRoom s c sl b then s
    else if isSealed s b then rollbackSave s c sl else beginSave s c sl

/-- A partition is quiesced: intake, arrivals and placement stop, its blocks are pre-empted; vector 1 of the function
(R440). -/
def beginQuiesce (s : State) (f p : Nat) : State :=
  let s := if (funcOf s f).quiesced then s else emit (modFunc s f fun x => { x with quiesced := true }) (.msix f 1)
  (unsaved s p).foldl (fun s x => preemptNow s x.1 x.2.1) s

/-- Lines that the cores of a partition hold changed are written back, so that the dirty bits of its writes are set (R402). -/
def recallAll (s : State) (p : Nat) : State :=
  s.cores.foldl (fun s e => if holderOf s (columnOfCore e.1) != some p then s else
    (e.2.l1.filter fun f => f.state == .owned).foldl (fun s f => (recallOwner s f.line none).getD s) s) s
/-- Whether a core of the partition still holds a changed line: its write-back waits for a tag or an entry (R285). -/
def holdsChanged (s : State) (p : Nat) : Bool :=
  s.cores.any fun e => holderOf s (columnOfCore e.1) == some p && e.2.l1.any fun f => f.state == .owned

/-- Every block of the partition is saved, its send queue is empty, its writes have performed (R464). -/
def quiesceDone (s : State) (p : Nat) : Bool :=
  (unsaved s p).isEmpty && !holdsChanged s p && ((partOf s p).map (·.sendq.isEmpty)).getD true && !s.path.any (fun o => o.part == p) &&
    !s.outside.any fun o => o.part == p

/-- The traps every VFCTL raises before any effect (R464): cause, none for a function it may act on, with its partition. -/
def Cx.vfTrap (cx : Cx) (s : State) (f : Nat) : Except Nat Nat :=
  match (funcOf s f).part with
  | none => .error 2
  | some p =>
    if f > 127 || (s.iod.funcs.filter fun e => e.2.part == some p).length ≠ 1 then .error 2
    else if p != (spaceOf s cx.id).2 then .error 7 else .ok p

def Cx.vfDec (o : KOp) (op : Nat) : Dec :=
  let src := fun (n : Nat) => ({ n, rc := .s, wide := true } : Src)
  let d := op == 0 || op == 2
  { valid := validIn [.Y] [.T, .V, .S], p := o.p, len := 2, dst := if d then .reg .s else .none
    ok := o.op == op && bits o.param.toNat 19 0 == 0 && o.p.srcA.toNat < 104 && (if op == 3 then o.p.srcB.toNat < 72 else o.p.srcB == 0) &&
      (d || (o.p.dreg == 0 && !o.p.nwb))
    srcs := if op == 3 then [src o.p.srcA.toNat, src o.p.srcB.toNat] else [src o.p.srcA.toNat] }

/-- What every VFCTL does before its own effect: operands, then the traps of R464; `k` gets function, partition and B. -/
def Cx.vfctl (cx : Cx) (s : State) (o : KOp) (op : Nat) (k : State → Dec → Nat → Nat → Nat → State) : State :=
  let d := Cx.vfDec o op
  cx.start s d fun s rs =>
    match rs with
    | [] => s
    | r :: _ => match cx.vfTrap s (aOf r.2) with
      | .error c => cx.raise s d.srcs { cause := c } [0]
      | .ok p => k s d (aOf r.2) p (bOf r.2)

def execVfctlQuiesce (o : KOp) (s : State) : Host.Outcome State Fault Refusal :=
  withCx s fun cx => cx.vfctl s o 0 fun s d f p _ =>
    let me := match cx.id with
      | .sys n => n
      | _ => 0
    let mine := (partxOf s p).quiesce.filter fun q => q.1 == me
    if (funcOf s f).quiesced && mine.isNone then cx.result s d .s true [(0, 0)] else
    let s := if mine.isSome then s else modPartx s p fun x => { x with quiesce := some (me, 0) }
    let s := recallAll (drainPath (beginQuiesce s f p) cx.id) p
    if !quiesceDone s p then cx.wait s [0] 10 else
    let n := ((partxOf s p).quiesce.map (·.2)).getD 0
    cx.result (modPartx s p fun x => { x with quiesce := none }) d .s true [(0, n)]

/-- Intake, arrivals and placement restart. -/
def endQuiesce (s : State) (f p : Nat) : State :=
  let s := if (funcOf s f).quiesced then emit (modFunc s f fun x => { x with quiesced := false }) (.msix f 1) else s
  modPartx s p fun x => { x with quiesce := none }

def execVfctlResume (o : KOp) (s : State) : Host.Outcome State Fault Refusal :=
  withCx s fun cx => cx.vfctl s o 1 fun s d f p _ => cx.finish (endQuiesce s f p) d [0] fun _ => {}

def execVfctlRdq (o : KOp) (s : State) : Host.Outcome State Fault Refusal :=
  withCx s fun cx => cx.vfctl s o 2 fun s d f _ _ =>
    cx.result s d .s true [(0, (funcOf s f).doorbell.toNat * 2 ^ 32 + (funcOf s f).head.toNat)]

def execVfctlWrq (o : KOp) (s : State) : Host.Outcome State Fault Refusal :=
  withCx s fun cx => cx.vfctl s o 3 fun s d f _ b =>
    let head := BitVec.ofNat 32 b
    let door := BitVec.ofNat 32 (b / 2 ^ 32)
    if !(funcOf s f).quiesced || (door - head).toNat > (funcOf s f).ringsize.toNat then cx.raise s d.srcs { cause := 2 } [0]
    else cx.finish (modFunc s f fun x => { x with head, doorbell := door }) d [0] fun _ => {}

end Sys2Proof.Machine
end

