-- ==== Sys2Proof/Machine/Iod.lean ====
section
/-! DEFINITION. What reaches the I/O die from the host and the network (spec 19_system.md R437 to R443; 14_queues.md R341).
Where the spec leaves a point open: notes/assumptions, entries 22, 41, 44. -/

namespace Sys2Proof.Machine

/-! ## BAR0 (R438 to R440) -/

/-- A frozen physical function has its BAR writes dropped (R454). -/
def barDropped (s : State) (fn : Nat) : Bool := fn > 128 || (fn == 128 && s.iod.headgate.frozen.contains .pf)

/-- STATUS.RERR is set; becoming 1 it raises vector 0 (R440). -/
def setRerr (s : State) (fn : Nat) : State :=
  if (funcOf s fn).rerr then s else emit (modFunc s fn fun f => { f with rerr := true }) (.msix fn 0)

/-- A write of DOORBELL (R439): a distance beyond RINGSIZE stops the intake until the next write. -/
def writeDoorbell (s : State) (fn : Nat) (v : W32) : State :=
  let f := funcOf s fn
  if barDropped s fn || f.part.isNone then s else
  let bad := decide ((v - f.head).toNat > f.ringsize.toNat)
  let s := modFunc s fn fun f => { f with doorbell := v, stopped := bad }
  if bad then setRerr s fn else s

/-- A ring size: 0, or a power of two from 16 to 65,536 (R439). -/
def ringSizeOk (n : Nat) : Bool := n == 0 || ((upFrom 4 13).any fun k => n == 2 ^ k)

/-- A write of RINGBASE or RINGSIZE (R439): only while the ring is empty. A size that is none is not taken
(DEDUCED, unsafe: notes/assumptions/41.md). -/
def writeRing (s : State) (fn : Nat) (g : Func → Func) : State :=
  let f := funcOf s fn
  if barDropped s fn then s
  else if f.head != f.doorbell then setRerr s fn
  else modFunc s fn fun f =>
    let r := g f
    if ringSizeOk r.ringsize.toNat then { r with ringbase := r.ringbase &&& ~~~0xFFF#64 } else f

/-- A write of NOTIFY: a NOTE event, which running system cores of the partition log (R416, R417, R440). What the
completion entry holds the device does not know: the log's VAL and ADDR are free values. -/
def writeNotify (s : State) (fn : Nat) (v : W32) : State :=
  match (funcOf s fn).part with
  | none => s
  | some p =>
    if barDropped s fn then s else
    let (x, s) := freeDouble s
    let (y, s) := freeDouble s
    postEvent (logAll s p 2 x.toNat y.toNat) p 5 (valBytes 4 v.toNat ++ valBytes 2 fn)

def execDoorbellWrite (fn : Nat) (val : W32) (s : State) : Host.Outcome State Fault Refusal := .next (writeDoorbell s fn val)

/-- RING_CONFIG_WRITE: RINGBASE at offset 0, RINGSIZE at 8. -/
def execRingConfigWrite (fn offset : Nat) (val : W64) (s : State) : Host.Outcome State Fault Refusal :=
  .next (if offset == 0 then writeRing s fn fun f => { f with ringbase := val }
    else if offset == 8 then writeRing s fn fun f => { f with ringsize := val.setWidth 32 } else s)

def execNotifyWrite (fn : Nat) (val : W32) (s : State) : Host.Outcome State Fault Refusal := .next (writeNotify s fn val)

/-- BAR0_REGISTER_WRITE: four bytes of BAR0. STATUS clears RERR where it is written 1; HGMBX is the PF's; what is read-only
stays. -/
def execBar0RegisterWrite (fn offset : Nat) (val : W32) (s : State) : Host.Outcome State Fault Refusal :=
  .next (
    if offset == 0x000 then writeRing s fn fun f => { f with ringbase := f.ringbase &&& ~~~0xFFFFFFFF#64 ||| val.setWidth 64 }
    else if offset == 0x004 then writeRing s fn fun f => { f with ringbase := f.ringbase &&& 0xFFFFFFFF#64 ||| (val.setWidth 64 <<< 32) }
    else if offset == 0x008 then writeRing s fn fun f => { f with ringsize := val }
    else if offset == 0x014 then writeDoorbell s fn val
    else if offset == 0x01C then writeNotify s fn val
    else if barDropped s fn then s
    else if offset == 0x018 then modFunc s fn fun f => { f with rerr := f.rerr && !val.getLsbD 2 }
    else if fn == 128 && 0x800 ≤ offset && offset + 4 ≤ 0x1000 then
      modIod s fun i => { i with headgate := { i.headgate with mbx := Store.setBytes i.headgate.mbx (offset - 0x800) (valBytes 4 val.toNat) } }
    else s)

/-- FUNCTION_LEVEL_RESET of a virtual function (R438); the spec gives none of the physical function an effect. -/
def execFunctionLevelReset (fn : Nat) (s : State) : Host.Outcome State Fault Refusal :=
  .next (if fn ≥ 128 then s else
    let s := match (funcOf s fn).part with
      | some p => beginQuiesce s fn p
      | none => s
    modFunc s fn fun f => { f with head := 0, doorbell := 0, handed := false })

/-! ## BAR2 (R441) -/

/-- A request of the host that must wait for a line, a tag or an entry (R285) comes again after the turns that stand. -/
def again (s : State) (i : Instr) : State := { s with agenda := s.agenda ++ [.event i] }

/-- BAR2_REQUEST: a read (no data), or a write, at virtual address `offset` under the function's ASID. -/
def execBar2Request (fn offset size : Nat) (data : Option (List Byte)) (s : State) : Host.Outcome State Fault Refusal :=
  .next (
    let f := funcOf s fn
    match f.part, data with
    | none, none => emit s (.bar2 fn none)
    | none, some _ => s
    | some p, none =>
      if offset + size > 2 ^ 40 then emit s (.bar2 fn none) else
      match engineRead s (.sys 0) f.asid p (size / 4096 + 2) offset size with
      | (s, .error (4, n, va)) => emit (requestPage s f.asid p va 0 3 0xFFFF n) (.bar2 fn none)
      | (_, .error (7, _, _)) => again s (.bar2Request fn offset size none)
      | (s, .error _) => emit s (.bar2 fn none)
      | (s, .ok bs) => emit s (.bar2 fn (some (bs.map (·.1))))
    | some p, some bs =>
      if barDropped s fn || offset + bs.length > 2 ^ 40 then s else
      match netWrite s f.asid p offset bs with
      | (s, some (4, n, va)) => requestPage s f.asid p va 1 3 0xFFFF n
      | (_, some (7, _, _)) => again s (.bar2Request fn offset size (some bs))
      | (s, _) => s)

/-! ## Accesses of the package to the host (R437) -/

/-- HOST_ACCESS_COMPLETION: its data, or none when the host rejects it. -/
def execHostAccessCompletion (id : Nat) (data : Option (List Byte)) (s : State) : Host.Outcome State Fault Refusal :=
  .next (match s.outside.find? fun o => o.id == id && o.port.isNone with
    | none => s
    | some o => outsideDone s o data false)

/-! ## Ethernet (R341, R443) -/

def modEth (s : State) (port : Nat) (f : EthPort → EthPort) : State :=
  modIod s fun i => { i with eth := Table.set i.eth port (f (Table.getD i.eth port {})) }

/-- The MAC address of a port. -/
def macOf (port : Nat) : BitVec 48 := Config.mac0 + BitVec.ofNat 48 port
/-- The link-local address that the modified EUI-64 rule forms from a port's MAC (R443). -/
def linkLocal (port : Nat) : BitVec 128 :=
  let m := (macOf port).toNat
  BitVec.ofNat 128 (0xFE80 * 2 ^ 112 + ((m / 2 ^ 24) ^^^ 2 ^ 17) * 2 ^ 40 + 0xFFFE * 2 ^ 24 + m % 2 ^ 24)

/-- NEIGHBOR_SOLICITATION: answered for a partition's address, and for the port's own while no partition has one. -/
def execNeighborSolicitation (port : Nat) (target : BitVec 128) (s : State) : Host.Outcome State Fault Refusal :=
  .next (
    let own := s.iod.parts.any fun e => e.2.ip != 0 && e.2.ip == target
    let bare := s.iod.parts.all fun e => e.2.ip == 0
    if (Table.getD s.iod.eth port {}).up && (own || (bare && target == linkLocal port)) then emit s (.advertise port target) else s)

/-- NEIGHBOR_ADVERTISEMENT: a next hop asked for, or known, resolves; the cache holds 1,024. -/
def execNeighborAdvertisement (port : Nat) (addr : BitVec 128) (mac : BitVec 48) (s : State) : Host.Outcome State Fault Refusal :=
  .next (modEth s port fun e =>
    if e.up && (e.asked.any (fun a => a.1 == addr) || e.neighbours.any fun n => n.1 == addr) then
      { e with neighbours := ((addr, mac) :: e.neighbours.filter fun n => n.1 != addr).take 1024, asked := e.asked.filter fun a => a.1 != addr }
    else e)

/-- The first descriptor of every send queue that `p` picks is dropped with DONE = 4; one whose word must wait stays. -/
def dropHeads (s : State) (p : Partition → Msg → Bool) : State :=
  s.iod.parts.foldl (fun s e => match e.2.sendq.head? with
    | some m => if p e.2 m then ((writeDone s e.1 m 4).map fun s => popSend s e.1).getD s else s
    | none => s) s

/-- NEXT_HOP_TIMEOUT: a next hop asked for 3 s ago has not answered; it stays asked for as long as a DONE word must wait. -/
def execNextHopTimeout (port : Nat) (addr : BitVec 128) (s : State) : Host.Outcome State Fault Refusal :=
  .next (
    if (Table.getD s.iod.eth port {}).asked.any fun a => a.1 == addr && a.2 + 7200000000 ≤ s.cycle then
      let for_ := fun (q : Partition) (m : Msg) => m.port == port && nextHop q m.dst == addr
      let stuck := s.iod.parts.any fun e => e.2.sendq.head?.any fun m => for_ e.2 m && (writeDone s e.1 m 4).isNone
      let t := dropHeads s for_
      if stuck then t else modEth t port fun e => { e with asked := e.asked.filter fun a => a.1 != addr }
    else s)

/-- ETHERNET_LINK_DOWN: every send descriptor for the port completes with DONE = 4; one whose word must wait does so as it
comes to depart. -/
def execEthernetLinkDown (port : Nat) (s : State) : Host.Outcome State Fault Refusal :=
  .next (
    let s := modEth s port fun e => { e with up := false, paused := false, asked := [] }
    s.iod.parts.foldl (fun s e =>
      e.2.sendq.foldl (fun s m =>
        if m.port != port then s else
        match writeDone s e.1 m 4 with
        | none => s
        | some s => modPart s e.1 fun q => { q with sendq := q.sendq.erase m }) s) s)

end Sys2Proof.Machine
end

