-- ==== Sys2Proof/Machine/Headgate.lean ====
section
/-! DEFINITION. Headgate: the course of a command, ownership and freezing, attestation registers, accounts, quality of
service, limits (spec 19_system.md R443, R451 to R459). A command acts when its event comes and it heads the queue of frames.
Where the spec leaves a point open: notes/assumptions, entry 20. -/

namespace Sys2Proof.Machine

/-! ## The course of a command (R453 to R457) -/

/-- Who may issue a command (R456): any master, the owner, the resident OS for its partition. -/
inductive HgRight | a | o | p | ap | op
  deriving DecidableEq, Repr

/-- Whether `who` may issue a command: STATUS 0, 1 DENIED or 2 FROZEN. -/
def hgRight (g : Headgate) (r : HgRight) (who : Requester) : Nat :=
  if g.frozen.contains who then 2 else
  match who with
  | .os _ => if r == .p || r == .ap || r == .op then 0 else 1
  | _ =>
    if r == .a || r == .ap then 0
    else if r == .p then 1
    else if g.owner == some who then 0 else 2

/-- A response: STATUS, the result bytes from offset 0x08, the payload. -/
structure Reply where
  status : Nat := 0
  results : List Byte := []
  payload : List Byte := []
  deriving DecidableEq, Repr

def denied : Option Reply := some { status := 1 }
def badArg : Option Reply := some { status := 3 }
def limit : Option Reply := some { status := 5 }
def okay : Option Reply := some {}

/-- The response leaves; the PF's is in HGMBX (R439, R455). -/
def answer (s : State) (q : HgReq) (r : Reply) : State :=
  let results := (r.results ++ List.replicate 56 0#8).take 56
  let frame := valBytes 2 r.status ++ valBytes 2 r.payload.length ++ valBytes 4 q.seq.toNat ++ results ++ r.payload
  let s := modIod s fun i => { i with headgate := { i.headgate with
    queue := i.headgate.queue.drop 1
    mbx := if q.who == .pf then Store.setBytes i.headgate.mbx 0 frame else i.headgate.mbx } }
  emit s (.frame q.who r.status q.seq results r.payload)

/-- `n` bytes of a request's arguments at an offset of the frame, as a number. -/
def argOf (q : HgReq) (ofs n : Nat) : Nat := field q.args (ofs - 8) n

/-- Every argument byte outside the named (offset, bytes) ranges is zero (R457). -/
def restZero (q : HgReq) (named : List (Nat × Nat)) : Bool :=
  (List.range 56).all fun i => named.any (fun r => r.1 ≤ i + 8 && i + 8 < r.1 + r.2) || (q.args[i]?).getD 0 == 0

/-- The master codes of R457. -/
def masterCode : Requester → Nat
  | .pf => 0
  | .bmc => 1
  | .remote => 2
  | .os _ => 0xFF
def masterOf : Nat → Option Requester
  | 0 => some .pf
  | 1 => some .bmc
  | 2 => some .remote
  | _ => none

/-- The head of the queue of frames, if its CMD is `cmd`: rights, then the frame's form, then `k`, which answers, or
leaves the command at the head. A non-owner's command for the owner freezes its sender (R454). -/
def command (s : State) (cmd : Nat) (r : HgRight) (named : List (Nat × Nat)) (len : Nat → Bool)
    (k : State → HgReq → State × Option Reply) : State :=
  match s.iod.headgate.queue with
  | [] => s
  | (c, q) :: _ =>
    if c != cmd then s else
    match hgRight s.iod.headgate r q.who with
    | 2 =>
      let s := modIod s fun i => { i with headgate := { i.headgate with
        frozen := if i.headgate.frozen.contains q.who then i.headgate.frozen else q.who :: i.headgate.frozen } }
      answer s q { status := 2 }
    | 1 => answer s q { status := 1 }
    | _ =>
      if !restZero q named || !len q.payload.length then answer s q { status := 3 } else
      match k s q with
      | (s, some x) => answer s q x
      | (s, none) => s

/-- The same for a command that never waits and changes the state only when it answers OK. -/
def command1 (s : State) (cmd : Nat) (r : HgRight) (named : List (Nat × Nat)) (len : Nat → Bool)
    (k : State → HgReq → Except (Option Reply) (State × Reply)) : State :=
  command s cmd r named len fun s q => match k s q with
    | .error x => (s, x)
    | .ok (s, x) => (s, some x)

def noPayload (n : Nat) : Bool := n == 0

/-- The resident OS names another partition than its own (R454). -/
def foreign (q : HgReq) (p : Nat) : Bool :=
  match q.who with
  | .os n => n != p
  | _ => false

/-- The owner's command is announced to the partitions it changes (R458). -/
def announce (s : State) (cmd : Nat) (q : HgReq) (ps : List Nat) : State :=
  ps.eraseDups.foldl (fun s p => postEvent s p 6
    (valBytes 2 cmd ++ [BitVec.ofNat 8 (masterCode q.who), 0#8] ++ valBytes 4 q.seq.toNat ++ q.args.take 32)) s

/-- HEADGATE_UNKNOWN_CMD: a CMD that R456 does not list. -/
def listed (c : Nat) : Bool :=
  (1 ≤ c && c ≤ 6) || (0x10 ≤ c && c ≤ 0x16) || c == 0x20 || (0x30 ≤ c && c ≤ 0x32) || (0x40 ≤ c && c ≤ 0x42) || c == 0x50 || c == 0x51 ||
    c == 0x60 || c == 0x61 || (0x70 ≤ c && c ≤ 0x76) || c == 0x80 || c == 0x81 || c == 0x90

def execHeadgateUnknownCmd (s : State) : Host.Outcome State Fault Refusal :=
  .next (match s.iod.headgate.queue with
    | [] => s
    | (c, q) :: _ =>
      if listed c then s
      else answer s q { status := if s.iod.headgate.frozen.contains q.who then 2 else 6 })

/-! ## Ownership (R453, R454) -/

/-- The owner changes; it is never frozen (R454). -/
def setOwner (s : State) (o : Option Requester) : State :=
  modIod s fun i => { i with headgate := { i.headgate with owner := o, frozen := i.headgate.frozen.filter fun m => some m != o } }

def execGetnonce (s : State) : Host.Outcome State Fault Refusal :=
  .next (command1 s 0x0001 .a [] noPayload fun s q =>
    let n := Config.nonce s.freeCount
    let s := { s with freeCount := s.freeCount + 1 }
    .ok (modIod s fun i => { i with headgate := { i.headgate with nonces := (q.who, n) :: i.headgate.nonces.filter fun x => x.1 != q.who } },
      { results := valBytes 32 n.toNat }))

/-- CLAIM: the signature is over the last nonce returned to this master, under the owner key. -/
def execClaim (s : State) : Host.Outcome State Fault Refusal :=
  .next (command1 s 0x0002 .a [] (· == 512) fun s q =>
    let g := s.iod.headgate
    let valid := match g.nonces.find? fun x => x.1 == q.who with
      | some x => pssVerify Config.ownerKey.toNat (valBytes 32 x.2.toNat) q.payload
      | none => false
    if (g.owner.isSome && g.owner != some q.who) || !valid then .error denied else .ok (setOwner s (some q.who), {}))

def execHandover (s : State) : Host.Outcome State Fault Refusal :=
  .next (command1 s 0x0003 .o [(8, 1)] noPayload fun s q => match masterOf (argOf q 8 1) with
    | some m => .ok (setOwner s (some m), {})
    | none => .error badArg)

def execRelease (s : State) : Host.Outcome State Fault Refusal :=
  .next (command1 s 0x0004 .o [] noPayload fun s _ => .ok (setOwner s none, {}))

def execUnfreeze (s : State) : Host.Outcome State Fault Refusal :=
  .next (command1 s 0x0005 .o [(8, 1)] noPayload fun s q => match masterOf (argOf q 8 1) with
    | some m => .ok (modIod s fun i => { i with headgate := { i.headgate with frozen := i.headgate.frozen.filter (· != m) } }, {})
    | none => .error badArg)

def execOwnerq (s : State) : Host.Outcome State Fault Refusal :=
  .next (command1 s 0x0006 .a [] noPayload fun s _ =>
    let g := s.iod.headgate
    let b := s.iod.boot
    let frozen := g.frozen.foldl (fun n m => n ||| 2 ^ masterCode m) 0
    .ok (s, { results := [BitVec.ofNat 8 ((g.owner.map masterCode).getD 0xFF), BitVec.ofNat 8 frozen, BitVec.ofNat 8 b.state, 0#8] ++
      valBytes 4 b.failures }))

/-! ## Measurements and the boot configuration (R443, R459) -/

def measOf (s : State) (i : Nat) : BitVec 512 := (s.iod.boot.meas[i]?).getD 0
/-- An extension with a digest: MEAS := SHA-512(MEAS ‖ d). -/
def extendMeas (s : State) (i : Nat) (d : List Byte) : State :=
  let v := BitVec.ofNat 512 (beVal (sha512 (beBytes 64 (measOf s i).toNat ++ d)))
  modIod s fun x => { x with boot := { x.boot with meas := x.boot.meas.set i v } }

def execMeasure (s : State) : Host.Outcome State Fault Refusal :=
  .next (command1 s 0x0040 .a [(8, 1)] noPayload fun s q =>
    if argOf q 8 1 > 7 then .error badArg else .ok (s, { payload := beBytes 64 (measOf s (argOf q 8 1)).toNat }))

def execExtend (s : State) : Host.Outcome State Fault Refusal :=
  .next (command1 s 0x0042 .p [(8, 1)] (· == 64) fun s q =>
    let i := argOf q 8 1
    if i < 3 || i > 7 then .error badArg else .ok (extendMeas s i q.payload, {}))

/-- The layout of a boot configuration (R443). -/
def bootOk (c : List Byte) : Bool :=
  let at_ := fun (o n : Nat) => (c.drop o).take n
  let len := field c 0x12 2
  let mode := field c 0x14 1
  1 ≤ len && len ≤ 1024 && c.length == 0x240 + len && mode ≤ 1 && beVal (at_ 0x16 10) == 0 &&
    (if mode == 0 then beVal (at_ 0x15 1) == 0 && beVal (at_ 0x20 32) == 0 else field c 0x15 1 ≤ 128) &&
    at_ 0x240 1 == [0x2F#8] && (at_ 0x240 len).all fun b => b.toNat < 128

def execBootcfg (s : State) : Host.Outcome State Fault Refusal :=
  .next (command1 s 0x0041 .o [] (fun _ => true) fun s q =>
    if !bootOk q.payload then .error badArg
    else .ok (modIod s fun i => { i with boot := { i.boot with next := q.payload } }, {}))

/-! ## Accounts (R404, R408) -/

def acctPart (s : State) (a : Nat) : Option Nat := Table.get? s.iod.accts a

def execAcctassign (s : State) : Host.Outcome State Fault Refusal :=
  .next (command1 s 0x0030 .o [(8, 2), (0x0A, 1)] noPayload fun s q =>
    let a := argOf q 8 2
    let p := argOf q 0x0A 1
    if a > 1023 || (p != 0xFF && (partOf s p).isNone) then .error badArg else
    let was := (acctPart s a).toList
    let s := modIod s fun i => { i with accts := if p == 0xFF then Table.erase i.accts a else Table.set i.accts a p }
    .ok (announce s 0x0030 q (was ++ if p == 0xFF then [] else [p]), {}))

/-- CNTREAD and CNTCLEAR name a counter of the bank; the resident OS one of its accounts. -/
def counterOf (s : State) (q : HgReq) : Except (Option Reply) Nat :=
  let a := argOf q 8 2
  let c := argOf q 0x0A 1
  if a > 1023 || c > 15 then .error badArg
  else if match q.who with
    | .os p => acctPart s a != some p
    | _ => false then .error denied
  else .ok (16 * a + c)

def execCntread (s : State) : Host.Outcome State Fault Refusal :=
  .next (command1 s 0x0031 .ap [(8, 2), (0x0A, 1)] noPayload fun s q => match counterOf s q with
    | .error e => .error e
    | .ok n => .ok (s, { results := valBytes 8 (Store.get s.iod.counters n).toNat }))

def execCntclear (s : State) : Host.Outcome State Fault Refusal :=
  .next (command1 s 0x0032 .op [(8, 2), (0x0A, 1)] noPayload fun s q => match counterOf s q with
    | .error e => .error e
    | .ok n => .ok (modIod s fun i => { i with counters := Store.set i.counters n 0#64 },
        { results := valBytes 8 (Store.get s.iod.counters n).toNat }))

/-! ## Settings of a partition (R332, R349, R428, R434, R451, R452, R458, R462, R465) -/

/-- A command of the owner on one partition, named at 0x08: it is announced there. -/
def onPart (s : State) (cmd : Nat) (named : List (Nat × Nat)) (k : State → HgReq → Nat → Partition → Except (Option Reply) Partition) : State :=
  command1 s cmd .o ((8, 1) :: named) noPayload fun s q =>
    let p := argOf q 8 1
    match partOf s p with
    | none => .error badArg
    | some x => match k s q p x with
      | .error e => .error e
      | .ok y => .ok (announce (modPart s p fun _ => y) cmd q [p], {})

def execSetweight (s : State) : Host.Outcome State Fault Refusal :=
  .next (onPart s 0x0050 [(9, 1)] fun _ q _ x =>
    if argOf q 9 1 == 0 then .error badArg else .ok { x with weight := argOf q 9 1 })

/-- Capacity of a kind of shared point, in 0.1 GB/s (R12, R22, R452). -/
def capacityOf : Nat → Nat
  | 1 => 80000
  | 2 => 10000
  | 3 => 256
  | 5 => 1000
  | 6 => 1280
  | 7 => 1000
  | k => Config.pointCapacity k

def execSetfloor (s : State) : Host.Outcome State Fault Refusal :=
  .next (onPart s 0x0051 [(9, 1), (0x0C, 4)] fun s q p x =>
    let k := argOf q 9 1
    let f := argOf q 0x0C 4
    let others := ((s.iod.parts.filter fun e => e.1 != p).map fun e => Table.getD e.2.floors k 0).sum
    if k > 7 then .error badArg
    else if 10 * (others + f) > 9 * capacityOf k then .error limit
    else .ok { x with floors := Table.set x.floors k f })

/-- POWERCAP: the package cap, or a partition's. -/
def execPowercap (s : State) : Host.Outcome State Fault Refusal :=
  .next (command1 s 0x0060 .o [(8, 1), (9, 1), (0x0C, 4)] noPayload fun s q =>
    let w := argOf q 0x0C 4
    let p := argOf q 9 1
    if argOf q 8 1 == 0 then
      if w < 800 || w > 2400 then .error badArg
      else .ok (modIod s fun i => { i with power := { i.power with cap := w } }, {})
    else if argOf q 8 1 > 1 || w < 50 || w > s.iod.power.cap || (partOf s p).isNone then .error badArg
    else .ok (announce (modPart s p fun x => { x with cap := some w }) 0x0060 q [p], {}))

def execSetewt (s : State) : Host.Outcome State Fault Refusal :=
  .next (command1 s 0x0061 .o [(8, 1), (0x0C, 4)] noPayload fun s q =>
    if argOf q 8 1 > 31 then .error badArg else .ok (setEwt s (argOf q 8 1) (argOf q 0x0C 4), {}))

def execSetdeadlines (s : State) : Host.Outcome State Fault Refusal :=
  .next (onPart s 0x0070 [(0x0C, 12)] fun _ q _ x =>
    let v := fun (o old : Nat) => if argOf q o 4 == 0 then old else argOf q o 4
    .ok { x with placement := v 0x0C x.placement, resumeUs := v 0x10 x.resumeUs, preempt := v 0x14 x.preempt })

/-- A pool of package memory: 128-byte aligned, whole granules (R457). -/
def poolOk (base size : Nat) : Bool := base % 128 == 0 && size % 128 == 0 && (size == 0 || (isPackage base && isPackage (base + size - 1)))

def execSetpools (s : State) : Host.Outcome State Fault Refusal :=
  .next (onPart s 0x0071 [(9, 1), (0x10, 48)] fun _ q _ x =>
    let v := fun (o : Nat) => argOf q o 8
    if argOf q 9 1 > 1 || !poolOk (v 0x10) (v 0x18) || !poolOk (v 0x20) (v 0x28) || !poolOk (v 0x30) (v 0x38) then .error badArg
    else .ok { x with
      dumps := argOf q 9 1 == 1
      savePool := { x.savePool with base := v 0x10, size := v 0x18 }
      dumpPool := { x.dumpPool with base := v 0x20, size := v 0x28 }
      staging := { x.staging with base := v 0x30, size := v 0x38 } })

def execSetquota (s : State) : Host.Outcome State Fault Refusal :=
  .next (onPart s 0x0072 [(0x0A, 2)] fun _ q _ x => .ok { x with quota := argOf q 0x0A 2 })

def execSettwin (s : State) : Host.Outcome State Fault Refusal :=
  .next (onPart s 0x0073 [(9, 1)] fun _ q _ x => if argOf q 9 1 > 7 then .error badArg else .ok { x with twinK := argOf q 9 1 })

/-- SETUMBUF: the unmatched-message ring (R458). -/
def execSetumbuf (s : State) : Host.Outcome State Fault Refusal :=
  .next (command1 s 0x0074 .op [(8, 1), (0x0A, 2), (0x10, 8)] noPayload fun s q =>
    let p := argOf q 8 1
    let n := argOf q 0x0A 2
    let base := argOf q 0x10 8
    if foreign q p then .error denied
    else if (partOf s p).isNone || base % 128 != 0 || (n != 0 && !isPackage (base + 8320 * n - 1)) then .error badArg
    else .ok (modPart s p fun x => { x with umBase := base, umCount := n, umNext := 0, umBusy := [] }, {}))

/-! ## Armed launches, units, events (R398, R435, R436, R260, R458) -/

/-- The partition of a resident OS; a master has none. -/
def osPart (q : HgReq) : Nat :=
  match q.who with
  | .os p => p
  | _ => 32

/-- The 192 bytes of an armed-launch entry (R398). -/
def armedBytes (e : Armed) : List Byte :=
  valBytes 8 e.tag.toNat ++ valBytes 8 e.bufb ++ valBytes 4 e.bufs ++ valBytes 2 e.nslot ++ valBytes 2 (0x8000 + if e.oneshot then 1 else 0) ++
    valBytes 4 e.arrn.toNat ++ [BitVec.ofNat 8 e.part] ++ valBytes 2 e.asid.toNat ++ List.replicate 33 0#8 ++ e.lpb

def execArmread (s : State) : Host.Outcome State Fault Refusal :=
  .next (command1 s 0x0075 .p [(8, 8)] noPayload fun s q => match armedBy s (argOf q 8 8) (some (osPart q)) with
    | some (_, e) => .ok (s, { payload := armedBytes e })
    | none => .error denied)

/-- ARMWRITE: the entry's fields as ARM checks them (R338); PART and ASID are the partition's own. -/
def execArmwrite (s : State) : Host.Outcome State Fault Refusal :=
  .next (command1 s 0x0076 .p [] (· == 192) fun s q =>
    let b := q.payload
    let p := osPart q
    let asid := field b 0x1D 2
    let flags := field b 0x16 2
    let tag := field b 0 8
    let bufb := field b 8 8
    let bufs := field b 0x10 4
    let nslot := field b 0x14 2
    if field b 0x1C 1 != p || asidPart s asid != some p then .error denied
    else if tag == 0 || flags / 2 % 2 ^ 14 != 0 || !bit flags 15 || bufb % 128 != 0 || bufs % 128 != 0 || bufs < 128 || bufs > 1048576 ||
      nslot == 0 || nslot > 4096 || bufb + bufs * nslot > 2 ^ 57 || !((b.drop 0x1F).take 33).all (· == 0) then .error badArg
    else if (armedBy s tag none).isSome then .error denied
    else if (s.iod.armed.filter fun e => e.2.part == p).length ≥ ((partOf s p).map (·.quota)).getD 0 then .error limit
    else match (List.range 4096).find? fun i => (Table.get? s.iod.armed i).isNone with
      | none => .error limit
      | some i =>
        let e : Armed := { tag := BitVec.ofNat 64 tag, bufb, bufs, nslot, oneshot := bit flags 0, arrn := BitVec.ofNat 32 (field b 0x18 4), part := p
                           asid := BitVec.ofNat 16 asid, lpb := (b.drop 0x40).take 128 }
        .ok (modIod s fun d => { d with armed := Table.set d.armed i e }, { results := valBytes 2 i }))

def execUnitrelease (s : State) : Host.Outcome State Fault Refusal :=
  .next (command1 s 0x0080 .o [(8, 1), (0x0A, 2)] noPayload fun s q =>
    let n := argOf q 0x0A 2
    if argOf q 8 1 == 0 then
      if n > 191 then .error badArg else .ok (modCore s n fun k => { k with quarantined := false }, {})
    else if argOf q 8 1 != 1 || n > 31 then .error badArg
    else
      let cols := (List.range 32).filter fun c => ownerOf s c == some n
      let s := cols.foldl (fun s c => modColumn s c fun x => { x with faulted := false }) (modPartx s n fun x => { x with faulted := false })
      .ok ({ s with slices := s.slices.map fun e => if cols.contains (e.1 / 80 * 8 + e.1 % 80 / 10) then (e.1, { e.2 with stopped := false }) else e }, {}))

def execResumectx (s : State) : Host.Outcome State Fault Refusal :=
  .next (command1 s 0x0081 .o [(8, 1), (0x0A, 2)] noPayload fun s q =>
    let n := argOf q 0x0A 2
    if argOf q 8 1 == 0 then
      if n > 7 then .error badArg else .ok (modCtl s (.sys n) fun c => { c with halted := false }, {})
    else if argOf q 8 1 != 1 || n > 191 then .error badArg
    else .ok (modCtl s (.sup n) fun c => { c with halted := false }, {}))

/-- EVENTPOP: the oldest record of the partition's queue; the slot that a MSG record names is released. -/
def execEventpop (s : State) : Host.Outcome State Fault Refusal :=
  .next (command1 s 0x0090 .p [] noPayload fun s q =>
    let p := osPart q
    match (partOf s p).bind fun x => x.events.head? with
    | none => .ok (s, {})
    | some e =>
      let slot := field e.args 0 8
      let s := modPart s p fun x => { x with
        events := x.events.drop 1
        umBusy := if e.kind == 3 && slot ≥ x.umBase && slot != 0 then x.umBusy.filter fun i => i != (slot - x.umBase) / 8320 else x.umBusy }
      .ok (refreshEvents s p, { results := [BitVec.ofNat 8 e.kind, 0#8] ++ valBytes 2 e.drops ++ valBytes 4 e.seq.toNat ++ e.args }))

end Sys2Proof.Machine
end

