-- ==== Sys2Proof/Machine/Boot.lean ====
section
/-! DEFINITION. Package reset, the Wellspring boot ROM and the SPDM responder (spec 19_system.md R443, R459 to R461, R465;
05_registers.md R125).
Where the spec leaves a point open: notes/assumptions, entries 10, 15, 24, 45, 50. -/

namespace Sys2Proof.Machine

/-! ## Reset and boot (R125, R460) -/

/-- The fetch of the image begins, over Ethernet port 0, or 1 if port 0 has no link. -/
def bootFetch (s : State) : State :=
  let up := fun (p : Nat) => (Table.getD s.iod.eth p {}).up
  emit s (.get (if !up 0 && up 1 then 1 else 0) s.iod.boot.config)

/-- A package reset: every field at its reset value but what lies outside the machine (its links, what is still to come, what
has left) and the boot configuration; then the boot ROM measures itself, the fuses and the configuration, and fetches. -/
def packageReset (s : State) : State :=
  let config := if s.iod.boot.next.isEmpty then s.iod.boot.config else s.iod.boot.next
  let r := State.reset
  let s := { r with
    nextId := s.nextId, freeCount := s.freeCount, agenda := s.agenda, outbox := s.outbox
    iod := { r.iod with
      eth := (s.iod.eth.filter fun e => e.2.up).map fun e => (e.1, { up := true })
      boot := { r.iod.boot with config, next := s.iod.boot.next } } }
  let s := extendMeas s 0 (beBytes 64 Config.romDigest.toNat)
  let s := extendMeas s 1 (beBytes 64 (Config.fuseDigest config).toNat)
  bootFetch s

def execPackageReset (s : State) : Host.Outcome State Fault Refusal := .next (packageReset s)

/-- THERMAL_RESET: 115 °C at the junction (R465). -/
def execThermalReset (s : State) : Host.Outcome State Fault Refusal := .next (packageReset s)

/-- A fetch or check failed: it is retried twice, 10 s apart; then the ROM halts. -/
def bootFailed (s : State) : State :=
  modIod s fun i => { i with boot := { i.boot with
    failures := i.boot.failures + 1, tries := i.boot.tries + 1
    retryAt := if i.boot.tries < 2 then some (s.cycle + 24000000000) else none
    state := if i.boot.tries < 2 then 1 else 2 } }

/-- The owner's image key of a boot configuration (R443). -/
def imageKey (c : List Byte) : Nat := beVal ((c.drop 0x40).take 512)

/-- The image is placed and the system cores start at its entry. -/
def startCores (s : State) (image : List Byte) : State :=
  let s := performWrites s Config.imageBase image false
  (List.range 8).foldl (fun s n => modSys s n fun y =>
    { y with ctl := { y.ctl with halted := false, pc := Config.imageEntry image, part := Config.sysPart n } }) s

/-- BOOT_IMAGE_CHECK: what the fetch brought, an image with its signature, or nothing. -/
def execBootImageCheck (got : Option (List Byte × List Byte)) (s : State) : Host.Outcome State Fault Refusal :=
  .next (
    if s.iod.boot.state != 1 || s.iod.boot.retryAt.isSome then s else
    match got with
    | none => bootFailed s
    | some (image, sig) =>
      if !pssVerify (imageKey s.iod.boot.config) image sig then bootFailed s else
      let s := extendMeas s 2 (sha512 image)
      startCores (modIod s fun i => { i with boot := { i.boot with state := 0 } }) image)

/-- BOOT_RETRY: 10 s after a failure. -/
def execBootRetry (s : State) : Host.Outcome State Fault Refusal :=
  .next (match s.iod.boot.retryAt with
    | none => s
    | some t => if s.cycle < t then s else
        bootFetch (modIod s fun i => { i with boot := { i.boot with retryAt := none } }))

/-! ## SPDM (R461) -/

/-- The SPDM request at the head, of a request code of SPDM 1.3: ERROR with code Busy before the system cores run, else the
responder's answer, `body` of the request and a number that makes it new (PRESUMED, unsafe: notes/assumptions/45.md). -/
def spdmRequest (s : State) (code : Nat) (body : Nat → List Byte → List Byte) : State :=
  match s.iod.spdmIn with
  | [] => s
  | req :: rest =>
    if field req 1 1 != code then s else
    let s := modIod s fun i => { i with spdmIn := rest }
    if s.iod.boot.state != 0 then emit s (.spdm [0x13#8, 0x7F#8, 0x03#8, 0#8])
    else emit { s with freeCount := s.freeCount + 1 } (.spdm (body s.freeCount req))

def execGetVersion (s : State) : Host.Outcome State Fault Refusal := .next (spdmRequest s 0x84 Config.spdmBody)
def execGetCapabilities (s : State) : Host.Outcome State Fault Refusal := .next (spdmRequest s 0xE1 Config.spdmBody)
def execNegotiateAlgorithms (s : State) : Host.Outcome State Fault Refusal := .next (spdmRequest s 0xE3 Config.spdmBody)
def execGetDigests (s : State) : Host.Outcome State Fault Refusal := .next (spdmRequest s 0x81 Config.spdmBody)
def execGetCertificate (s : State) : Host.Outcome State Fault Refusal := .next (spdmRequest s 0x82 Config.spdmBody)
def execChallenge (s : State) : Host.Outcome State Fault Refusal := .next (spdmRequest s 0x83 Config.spdmBody)
def execKeyExchange (s : State) : Host.Outcome State Fault Refusal := .next (spdmRequest s 0xE4 Config.spdmBody)
def execFinish (s : State) : Host.Outcome State Fault Refusal := .next (spdmRequest s 0xE5 Config.spdmBody)
def execEndSession (s : State) : Host.Outcome State Fault Refusal := .next (spdmRequest s 0xEC Config.spdmBody)

/-- A measurement block: index i + 1 holds MEASi. -/
def measBlock (s : State) (i : Nat) : List Byte :=
  [BitVec.ofNat 8 (i + 1), 1#8] ++ valBytes 2 67 ++ [BitVec.ofNat 8 i] ++ valBytes 2 64 ++ beBytes 64 (measOf s i).toNat

/-- GET_MEASUREMENTS: operation 0 asks for their number, 1 to 8 for MEAS0 to MEAS7, 0xFF for all; what follows the record
(nonce, opaque data, signature) is the responder's. -/
def execGetMeasurements (s : State) : Host.Outcome State Fault Refusal :=
  .next (spdmRequest s 0xE0 fun n req =>
    let op := field req 3 1
    let want := if op == 0xFF then List.range 8 else if 1 ≤ op && op ≤ 8 then [op - 1] else []
    let record := want.flatMap (measBlock s)
    [0x13#8, 0x60#8, if op == 0 then 8#8 else 0#8, 0#8, BitVec.ofNat 8 want.length] ++ valBytes 3 record.length ++ record ++ Config.spdmBody n req)

end Sys2Proof.Machine
end

