-- ==== Sys2Proof/Machine/Counters.lean ====
section
/-! DEFINITION. CNTR and CNTC (spec 17_counters.md R404 to R409, R417; 11_memories.md R287), the flush of accounts (R408).
Where the spec leaves a point open: notes/assumptions, entry 26. -/

namespace Sys2Proof.Machine

/-- Every resident block of a core flushes (R408). -/
def flushCore (s : State) (c : Nat) : State := (coreOf s c).slots.foldl (fun s e => flushBlock s c e.1) s

/-- ACCOUNT_FLUSH: a core's partial counts and energies go to the bank. -/
def execAccountFlush (core : Nat) (s : State) : Host.Outcome State Fault Refusal := .next (flushCore s core)

def cntClass (o : KOp) : Nat := bits o.param.toNat 23 20

/-- Where a class is valid (R406). -/
def cntValid (cls : Nat) (k : Kind) : Option Nat :=
  match cls, k with
  | 1, .Y => some 5
  | 3, .Y => some 5
  | 4, .T => none
  | 4, _ => some 5
  | _, _ => none

/-- The partition whose columns a context reads slices and accounts of (R406, R493). -/
def Cx.cntPart (cx : Cx) (s : State) : Option Nat :=
  match cx.id with
  | .blk c sl => (blockOf s c sl).map (·.part)
  | .sup c => holderOf s (columnOfCore c)
  | .sys n => some (sysOf s n).ctl.part

/-- The trap of an index (R406): out of range, then the right to it. -/
def Cx.cntTrap (cx : Cx) (s : State) (cls v : Nat) : Option Nat :=
  match cls with
  | 0 =>
    if v ≥ 2 ^ 14 then some 2 else
    let a := v / 16
    match cx.id with
    | .blk _ _ => if a == (cx.regs s).acct.toNat then none else some 7
    | .sup _ => if (Table.get? s.iod.accts a).isSome && Table.get? s.iod.accts a == cx.cntPart s then none else some 7
    | .sys _ => if (Table.get? s.iod.accts a).isNone || Table.get? s.iod.accts a == cx.cntPart s then none else some 7
  | 1 => if v ≤ 12 then none else some 2
  | 2 =>
    if v ≥ 2 ^ 12 || bits v 9 3 > 79 || bits v 2 0 > 2 then some 2
    else if (cx.cntPart s).isSome && ownerOf s (bits v 11 10 * 8 + bits v 9 3 / 10) == cx.cntPart s then none else some 7
  | 3 => if v == 0 then none else some 2
  | 4 => if v ≤ 1 then none else some 2
  | _ => if v > 1 then some 2 else if v == 1 && cx.kind != .Y then some 5 else none

/-- Cycles of a system core's own 2.0 GHz clock in a number of core cycles (R4, R404). -/
def sysCycles (n : Nat) : Nat := n * 5 / 6

/-- The counts of a slice (R287). -/
def sliceCount (k : Slice) (n : Nat) : Nat :=
  let tags := k.tags.length
  let used := k.pond.length
  (if n == 0 then tags else if n == 1 then used else tags - used) % 2 ^ 15

/-- The value of a counter for a lane. -/
def Cx.counter (cx : Cx) (s : State) (cls lane v : Nat) : Nat :=
  let b := match cx.localSite s with
    | some (c, sl) => blockOf s c sl
    | none => cx.blk s
  match cls with
  | 0 => if (Table.get? s.iod.accts (v / 16)).isNone && cx.kind == .Y then 0 else (Store.get s.iod.counters v).toNat
  | 1 => (b.map fun b => b.meter v).getD 0
  | 2 => sliceCount (sliceOf s (bits v 11 10 * 80 + bits v 9 3)) (bits v 2 0)
  | 3 => (b.map fun b => b.charges.total.toNat + b.charges.energy.toNat / 256000000).getD 0
  | 4 => (b.map fun b => if v == 0 then (threadOf b lane).wdog.toNat else ((b.exec.limits[lane / 64]?).getD 0).toNat * 256).getD 0
  | _ => match cx.id with
    | .sys n => if v == 1 then (sysOf s n).retired.toNat else sysCycles s.cycle
    | _ => s.cycle

def Cx.cntDec (cx : Cx) (o : KOp) (s : State) (cls : Nat) (ok : Bool) : Dec :=
  { valid := cntValid cls, p := o.p, len := 2, dst := .reg (cx.rcScalar true), srcs := [cx.scalarSrc o.p.srcA]
    ok := ok && cls ≤ 5 && bits o.param.toNat 19 0 == 0 && o.p.srcA.toNat != 127 && o.p.srcB == 0 &&
      (cx.kind != .K || (cls != 1 && cls != 3) || (cx.localSite s).isSome) }

/-- Lanes whose index traps, the lowest cause first (R115). -/
def Cx.cntSplit (cx : Cx) (s : State) (cls : Nat) (rs : List (Nat × List Nat)) : List (Nat × Nat) :=
  rs.filterMap fun r => (cx.cntTrap s cls (aOf r.2)).map fun c => (r.1, c)

/-- The traps of some lanes: those of one cause together. -/
def Cx.cntRaise (cx : Cx) (s : State) (d : Dec) (bad : List (Nat × Nat)) : State :=
  match leastOf (bad.map (·.2)) with
  | none => s
  | some c =>
    let who := (bad.filter fun b => b.2 == c).map (·.1)
    cx.raise s d.srcs { cause := c, lanes := if cx.isT then who else [] } (cx.whoOf who)

/-- A system core's CNTR.time is logged; in replay mode the log's value stands (R417). -/
def Cx.timeLogged (cx : Cx) (s : State) (v : Nat) : State × Nat :=
  match cx.id with
  | .sys n =>
    let (s, r) := replayLog s n 4 v 0
    (s, r.getD v)
  | _ => (s, v)

def execCntr (o : KOp) (s : State) : Host.Outcome State Fault Refusal :=
  withCx s fun cx =>
    let cls := cntClass o
    let d := cx.cntDec o s cls true
    cx.start s d fun s rs =>
      let bad := cx.cntSplit s cls rs
      let good := rs.filter fun r => !bad.any fun b => b.1 == r.1
      let s := if cls == 0 && !good.isEmpty then match cx.id with
          | .blk c _ => flushCore s c
          | .sup c => flushCore s c
          | .sys _ => s
        else s
      let vals := good.map fun r => (r.1, cx.counter s cls r.1 (aOf r.2))
      let (s, vals) := if cls != 5 then (s, vals) else match vals with
        | [(l, v)] => let (s, v) := cx.timeLogged s v; (s, [(l, v)])
        | l => (s, l)
      let s := if vals.isEmpty then s else cx.result s d cx.scalarCls true vals
      cx.cntRaise s d bad

/-- Partial counts of one account everywhere in the package go to the bank (R408). -/
def flushAcct (s : State) (a : Nat) : State :=
  s.cores.foldl (fun s e => e.2.slots.foldl (fun s x => if x.2.regs.acct.toNat == a then flushBlock s e.1 x.1 else s) s) s

def execCntc (o : KOp) (s : State) : Host.Outcome State Fault Refusal :=
  withCx s fun cx =>
    -- no context but a system core's has the right (R406): PRIVILEGE, whatever the guard (R115)
    let d := { cx.cntDec o s (cntClass o) (cntClass o == 0) with
      valid := fun k => if cntClass o == 0 && k != .Y then some 7 else cntValid (cntClass o) k }
    cx.start s d fun s rs =>
      match rs with
      | [] => s
      | r :: _ =>
        let v := aOf r.2
        match cx.cntTrap s 0 v with
        | some c => cx.raise s d.srcs { cause := c } [0]
        | none =>
          let s := flushAcct s (v / 16)
          let x := cx.counter s 0 0 v
          let s := if (Table.get? s.iod.accts (v / 16)).isNone then s else modIod s fun i => { i with counters := Store.set i.counters v 0#64 }
          cx.result s d .s true [(0, x)]

end Sys2Proof.Machine
end

