-- ==== Sys2Proof/Machine/SliceEv.lean ====
section
/-! DEFINITION. The events of the home slices and the errors of the memories (spec 11_memories.md R267, R275, R279, R282,
R286; 05_registers.md R123; 18_traps.md R436).
Where the spec leaves a point open: notes/assumptions, entries 25, 40. -/

namespace Sys2Proof.Machine

/-- LINE_FILL: a wanted line is filled and placed; what the channel moved is charged to whoever wanted it (R407). -/
def execLineFill (line : Nat) (s : State) : Host.Outcome State Fault Refusal :=
  .next (match s.fills.find? (·.line == line) with
    | none => s
    | some f => match fillLine s line with
      | none => s
      | some (s1, _) =>
        { chargeMoved s s1 f.who f.acct with fills := s.fills.filter fun x => x.line != line })

/-- LINE_SETTLE: a written line that has had no write for 1,024 cycles is placed again (R282). -/
def execLineSettle (line : Nat) (s : State) : Host.Outcome State Fault Refusal :=
  .next (match tagOf s line with
    | none => s
    | some t =>
      if !t.set8 || s.cycle < t.writtenAt + 1024 then s else
      match placeLine s line with
      | none => s
      | some (s, _) => modTag s line fun t => { t with set8 := false })

/-- The column of a slice (R278). -/
def columnOfSlice (n : Nat) : Nat := n / 80 * 8 + n % 80 / 10

/-- POND_ENTRY_ERROR: the entry is poisoned, with every line that points to it; the owner is told (R286). The address
reported is that of the lowest such line (DESIGN CHOICE, unsafe: notes/assumptions/40.md). -/
def execPondEntryError (slice entry : Nat) (s : State) : Host.Outcome State Fault Refusal :=
  .next (match Table.get? (sliceOf s slice).pond entry with
    | none => s
    | some _ =>
      let lines := ((sliceOf s slice).tags.filter fun t => t.2.ent == some entry).map (·.1)
      let s := modSlice s slice fun k => { k.unindex entry with
        pond := Table.modify k.pond entry fun p => { p with poisoned := true }
        tags := k.tags.map fun t => if t.2.ent == some entry then (t.1, { t.2 with psn := true }) else t }
      match ownerOf s (columnOfSlice slice) with
      | some p => postEvent s p 2 (memErrArgs 0 ((leastOf lines).getD 0 * 128) slice entry 0 0)
      | none => s)

/-- A unit that serves a partition has failed: its launches abort, its columns take no work (R436). -/
def unitFailure (s : State) (p cause : Nat) : State :=
  let s := (s.launches.filter fun l => l.2.part == p).foldl (fun s l => abortLaunch s l.1 { cause := 29 } (whole := true)) s
  let cols := (List.range 32).filter fun c => ownerOf s c == some p
  let s := cols.foldl (fun s c => modColumn s c fun x => { x with faulted := true }) s
  postEvent (modPartx s p fun x => { x with faulted := true }) p 7 ([2#8, 0#8] ++ valBytes 2 p ++ [BitVec.ofNat 8 cause])

/-- L2_TAG_ERROR: the slice stops serving and the owner of its column is faulted (R286). -/
def execL2TagError (slice : Nat) (s : State) : Host.Outcome State Fault Refusal :=
  .next (
    let s := modSlice s slice fun k => { k with stopped := true }
    match ownerOf s (columnOfSlice slice) with
    | some p => unitFailure s p 29
    | none => s)

/-- L1_ECC_ERROR in the 64-bit word `word` of a compute core's frames, or of system core `core - 192` (R275, R276): a line
that holds nothing changed is discarded, the bytes of a changed one and of sealed-window records are poisoned. -/
def execL1EccError (core word : Nat) (s : State) : Host.Outcome State Fault Refusal :=
  .next (
    let line := word / 16
    if core ≥ 192 then modSys s (core - 192) fun y => { y with dcache := y.dcache.filter (fun f => f.line != line), icache := y.icache.filter fun f => f.line != line } else
    let hit := fun (f : L1Frame) => f.line == line
    let gone := (coreOf s core).l1.any fun f => hit f && f.dirty.isEmpty && f.state != .clean
    let s := if gone then modTag s line fun t => { t with own := if t.own == some core then none else t.own } else s
    modCore s core fun k => { k with
      l1 := (k.l1.filter fun f => !(hit f && f.dirty.isEmpty)).map fun f =>
        if hit f then { f with poison := f.poison ++ (upFrom (8 * (word % 16)) 8).filter fun i => !f.poison.contains i } else f
      slots := k.slots.map fun e => (e.1, e.2.modStage fun g => { g with
        window := g.window.map fun r => if r.pa < 8 * word + 8 && 8 * word < r.pa + r.bytes.length then { r with poison := true } else r }) })

/-- LOCAL_ECC_ERROR: a word of a block's local memory is poisoned, one of its snapshot area with what the snapshot holds
there (R267). -/
def execLocalEccError (core slot word : Nat) (s : State) : Host.Outcome State Fault Refusal :=
  .next (modBlock s core slot fun b => b.modMem fun m =>
    if 4 * word < b.mem.locb then { m with locPoison := mark m.locPoison word true }
    else { m with snap := poisonSnap s b (4 * word - b.mem.locb) })

/-- REGISTER_FILE_ECC_ERROR: a register element is marked (R123). `key` is the element's in the block's rows; from 2^20 on
a control register, from 2^21 on an accumulator element of the core. Slot 8 is supervisor code, core 192 and on a system core. -/
def execRegisterFileEccError (core slot key : Nat) (s : State) : Host.Outcome State Fault Refusal :=
  .next (
    let sreg := fun (c : Ctl) => { c with spoison := mark c.spoison (key - 2 ^ 20) true }
    if key ≥ 2 ^ 21 then modCore s core fun k => { k with accPoison := mark k.accPoison (key - 2 ^ 21) true }
    else if core ≥ 192 then modCtl s (.sys (core - 192)) sreg
    else if slot ≥ 8 then modCtl s (.sup core) sreg
    else if key ≥ 2 ^ 20 then modCtl s (.blk core slot) sreg
    else modBlock s core slot fun b => b.modMem fun m => { m with rowPoison := mark m.rowPoison key true })

end Sys2Proof.Machine
end

