-- ==== Sys2Proof/Machine/HgParts.lean ====
section
/-! DEFINITION. Partitions and their columns (spec 19_system.md R442, R444, R448 to R450; 11_memories.md R281; 14_queues.md
R345, R353; 18_traps.md R421).
Where the spec leaves a point open: notes/assumptions, entry 20. -/

namespace Sys2Proof.Machine

/-! ## Columns that change hands (R448, R450) -/

/-- The blocks on some columns, of whatever partition, that have not left. -/
def blocksOn (s : State) (cols : List Nat) : List (Nat × Nat × Block) :=
  s.cores.flatMap fun e => if !cols.contains (columnOfCore e.1) then [] else
    (e.2.slots.filter fun x => x.2.phase != .finished).map fun x => (e.1, x.1, x.2)

/-- The columns' blocks are pre-empted, all at once; no more is placed there (R345). True once all are saved. -/
def clearBlocks (s : State) (cols : List Nat) : State × Bool :=
  let l := blocksOn s cols
  let s := cols.foldl (fun s c => modColumn s c fun x => { x with reclaiming := true }) s
  (l.foldl (fun s x => askPreempt s x.1 x.2.1) s, l.isEmpty)

/-- The supervisor contexts of the columns' cores are halted (R421). -/
def haltSups (s : State) (cols : List Nat) : State :=
  cols.foldl (fun s c => (upFrom (6 * c) 6).foldl (fun s k => modCore s k fun x => { x with sup := { x.sup with halted := true } }) s) s

/-- Columns leave their partition: nobody holds them, and what they hold is cleared when they pass to another. -/
def giveUp (s : State) (p : Nat) (cols : List Nat) : State :=
  cols.foldl (fun s c => modColumn s c fun x => { x with last := some p, lentTo := none, reclaiming := false, faulted := false }) (haltSups s cols)

/-- Columns join a partition: those that another had are cleared first (R448). -/
def takeOver (s : State) (p : Nat) (cols : List Nat) : State :=
  cols.foldl (fun s c => modColumn s c fun x => { x with clearing := x.clearing || x.last.any (· != p) }) s

/-- COLUMN_CLEARING_COMPLETE: the column's memory region and slices are clear, and its cores may take work again. -/
def execColumnClearingComplete (column : Nat) (s : State) : Host.Outcome State Fault Refusal :=
  .next (
    if !(columnOf s column).clearing then s else
    let inside := fun (line : Nat) => columnOfPa (line * 128) == column
    let s := { s with
      mem := s.mem.filter fun c => columnOfPa c.1 != column
      memPoison := s.memPoison.filter fun l => !inside l
      slices := s.slices.filter fun e => columnOfSlice e.1 != column
      rdc := s.rdc.map fun e => (e.1, e.2.filter fun f => !inside f.line)
      fills := s.fills.filter fun f => !inside f.line
      cores := s.cores.map fun e => (e.1, { e.2 with l1 := e.2.l1.filter fun f => !inside f.line })
      sys := s.sys.map fun e => (e.1, { e.2 with dcache := e.2.dcache.filter (fun f => !inside f.line), icache := e.2.icache.filter fun f => !inside f.line }) }
    modColumn s column fun x => { x with clearing := false, last := none })

/-! ## Partitions (R448) -/

/-- Every launch of a partition ends without a record and its tables of R332 are emptied (R353, R448). -/
def resetPart (s : State) (p : Nat) : State :=
  let s := (s.launches.filter fun l => l.2.part == p).foldl (fun s l =>
    let s := modLaunch s l.1 fun x => { x with fault := some { cause := 29 }, next := x.lpb.nblk.toNat }
    let s := dropBlocks s l.1 p 0
    { s with launches := Table.erase s.launches l.1 }) s
  let full := ((partOf s p).map fun x => decide (x.held.length ≥ 256)).getD false
  let s := if full then (s.iod.eth.map (·.1)).foldl (fun s n => emit (modEth s n fun e => { e with paused := false }) (.pause n p false)) s else s
  let s := modPart s p fun x => { x with
    resume := [], held := [], sendq := []
    savePool := { x.savePool with used := [] }, dumpPool := { x.dumpPool with used := [] }, staging := { x.staging with used := [] } }
  modIod s fun i => { i with armed := i.armed.filter fun e => e.2.part != p }

/-- PARTSET. Columns that leave are emptied of blocks first. -/
def execPartset (s : State) : Host.Outcome State Fault Refusal :=
  .next (command s 0x0010 .o [(8, 1), (9, 1), (0x0A, 1)] noPayload fun s q =>
    let p := argOf q 8 1
    let first := argOf q 9 1
    let count := argOf q 0x0A 1
    let now := upFrom first count
    let had := (List.range 32).filter fun c => ownerOf s c == some p
    if p > 31 || (count != 0 && first + count > 32) || now.any (fun c => (ownerOf s c).any (· != p)) then (s, badArg) else
    let s := if count == 0 then resetPart s p else s
    let gone := had.filter fun c => count == 0 || !now.contains c
    match clearBlocks s gone with
    | (s, false) => (s, none)
    | (s, true) =>
      let s := giveUp s p gone
      let s := takeOver s p (if count == 0 then [] else now.filter fun c => !had.contains c)
      let s := if count == 0 then modIod s fun i => { i with parts := Table.erase i.parts p }
        else modIod s fun i => { i with parts := Table.set i.parts p { (Table.getD i.parts p {} : Partition) with first, count } }
      (announce s 0x0010 q [p], okay))

def execPartreset (s : State) : Host.Outcome State Fault Refusal :=
  .next (command1 s 0x0011 .o [(8, 1)] noPayload fun s q =>
    let p := argOf q 8 1
    if (partOf s p).isNone then .error badArg else .ok (announce (resetPart s p) 0x0011 q [p], {}))

/-- LEND: the lender's blocks leave first. -/
def execLend (s : State) : Host.Outcome State Fault Refusal :=
  .next (command s 0x0012 .o [(8, 1), (9, 1), (0x0A, 1)] noPayload fun s q =>
    let p := argOf q 8 1
    let b := argOf q 9 1
    let c := argOf q 0x0A 1
    if p == b || (partOf s p).isNone || (partOf s b).isNone || ownerOf s c != some p || (columnOf s c).lentTo.isSome then (s, badArg) else
    match clearBlocks s [c] with
    | (s, false) => (s, none)
    | (s, true) =>
      let s := modColumn (haltSups s [c]) c fun x => { x with lentTo := some b, reclaiming := false }
      (announce s 0x0012 q [p, b], okay))

/-- RECLAIM: the borrower's blocks leave first (R345). -/
def execReclaim (s : State) : Host.Outcome State Fault Refusal :=
  .next (command s 0x0013 .o [(8, 1)] noPayload fun s q =>
    let c := argOf q 8 1
    match (columnOf s c).lentTo with
    | none => (s, badArg)
    | some b => match clearBlocks s [c] with
      | (s, false) => (s, none)
      | (s, true) =>
        let s := modColumn (haltSups s [c]) c fun x => { x with lentTo := none, reclaiming := false }
        (announce s 0x0013 q ((ownerOf s c).toList ++ [b]), okay))

/-! ## Functions, addresses, peers, groups (R281, R442, R444, R449) -/

def execBindvf (s : State) : Host.Outcome State Fault Refusal :=
  .next (command1 s 0x0014 .o [(8, 2), (0x0A, 1), (0x0C, 2)] noPayload fun s q =>
    let f := argOf q 8 2
    let p := argOf q 0x0A 1
    if f > 128 || (p != 0xFF && (partOf s p).isNone) then .error badArg else
    let was := (funcOf s f).part.toList
    let s := modFunc s f fun x => { x with part := if p == 0xFF then none else some p, asid := BitVec.ofNat 16 (argOf q 0x0C 2) }
    .ok (announce s 0x0014 q (was ++ if p == 0xFF then [] else [p]), {}))

/-- SETADDR: an unsolicited Neighbor Advertisement follows on every port that is up (R443). -/
def execSetaddr (s : State) : Host.Outcome State Fault Refusal :=
  .next (command1 s 0x0015 .o [(8, 1), (9, 1), (0x10, 32)] noPayload fun s q =>
    let p := argOf q 8 1
    let at_ := fun (o : Nat) => BitVec.ofNat 128 (beVal ((q.args.drop (o - 8)).take 16))
    if (partOf s p).isNone || argOf q 9 1 > 128 then .error badArg else
    let s := modPart s p fun x => { x with ip := at_ 0x10, plen := argOf q 9 1, router := at_ 0x20 }
    let s := (s.iod.eth.filter fun e => e.2.up).foldl (fun s e => emit s (.advertise e.1 (at_ 0x10))) s
    .ok (announce s 0x0015 q [p], {}))

/-- PEERMAP: a range added or removed, or the route of a peer set (R444). -/
def execPeermap (s : State) : Host.Outcome State Fault Refusal :=
  .next (command1 s 0x0016 .o [(8, 1), (9, 1), (0x0A, 2), (0x0C, 1), (0x0D, 1), (0x10, 16)] noPayload fun s q =>
    let p := argOf q 8 1
    let op := argOf q 9 1
    let r : PeerRange := { peer := argOf q 0x0A 2, part := argOf q 0x0C 1, base := argOf q 0x10 8, size := argOf q 0x18 8 }
    if (partOf s p).isNone || r.peer > 4095 || op > 2 then .error badArg
    else if op == 2 then
      if argOf q 0x0D 1 > 15 then .error badArg
      else .ok (announce (modIod s fun i => { i with routes := Table.set i.routes r.peer (argOf q 0x0D 1) }) 0x0016 q [p], {})
    else if r.part > 31 || r.size % 65536 != 0 || r.base + r.size > 2 ^ 39 then .error badArg
    else .ok (announce (modPartx s p fun x => { x with
      peers := if op == 0 then x.peers ++ [r] else x.peers.filter fun y => y != r }) 0x0016 q [p], {}))

/-- The partitions named in a mask. -/
def maskParts (m : Nat) : List Nat := (List.range 32).filter fun p => bit m p

/-- SHAREGRP: page ranges and members of a share group. -/
def execSharegrp (s : State) : Host.Outcome State Fault Refusal :=
  .next (command1 s 0x0020 .o [(8, 1), (9, 1), (0x10, 20)] noPayload fun s q =>
    let g := argOf q 8 1
    let op := argOf q 9 1
    let r := (argOf q 0x10 8, argOf q 0x18 8)
    let old := Table.getD s.iod.groups g ([], 0#32)
    if g > 31 || op > 2 || (op != 2 && (r.1 % 65536 != 0 || r.2 == 0 || !isPackage (r.1 + r.2 - 1))) then .error badArg else
    let new := if op == 0 then (old.1 ++ [r], old.2) else if op == 1 then (old.1.filter fun x => x != r, old.2)
      else (old.1, BitVec.ofNat 32 (argOf q 0x20 4))
    let s := modIod s fun i => { i with groups := Table.set i.groups g new }
    .ok (announce s 0x0020 q (maskParts (old.2 ||| new.2).toNat), {}))

end Sys2Proof.Machine
end

