-- ==== Sys2Proof/Machine/Link.lean ====
section
/-! DEFINITION. Corhoeb Link, receiving side (spec 19_system.md R444 to R447): requests of peers, responses, retry.
Where the spec leaves a point open: notes/assumptions, entries 16, 23. -/

namespace Sys2Proof.Machine

/-! ## Acknowledgement and retry (R447) -/

/-- The ACK of a flit frees the replay entries before it. -/
def linkAck (s : State) (port ack : Nat) : State :=
  flushLink (modLink s port fun l =>
    if ack == l.txSeq then { l with replay := [] }
    else if l.replay.any fun r => r.1 == ack then { l with replay := l.replay.dropWhile fun r => r.1 != ack } else l) port

/-- A NAK is sent: it names the SEQ expected. -/
def sendNak (s : State) (port : Nat) : State :=
  let l := linkOf s port
  modLink (emit s (.link port 2 l.txSeq l.rxSeq 0 none)) port fun l => { l with nakked := true }

/-- The port is down: what is outstanding through it fails, what it owes is discarded. -/
def linkDown (s : State) (port : Nat) : State :=
  if !(linkOf s port).up then s else
  let s := modLink s port fun _ => {}
  (s.outside.filter fun o => o.port == some port).foldl (fun s o => outsideDone s o none false) s

/-- A message of a MSG flit: taken when its flit carries the SEQ expected, else discarded with what follows. -/
def receive (s : State) (port : Nat) (f : Flit) (units : Nat × Nat) (k : State → Option State) : State :=
  let l := linkOf s port
  if !l.up then s
  else if f.seq != l.rxSeq then (if l.nakked then s else sendNak s port)
  else match k s with
    | none => s
    | some s =>
      let s := modLink s port fun l => { l with nakked := false, rxSeq := if f.last then (l.rxSeq + 1) % 65536 else l.rxSeq }
      linkAck (emit s (.credits port units.1 units.2 false)) port f.ack

/-! ## Requests of a peer (R444, R447) -/

/-- What is wrong with a request: 2 beyond package memory, 1 outside the peer map. -/
def requestFault (s : State) (m : LinkMsg) : Option Nat :=
  if !isPackage m.addr || !isPackage (m.addr + m.size - 1) then some 2
  else match ownerOf s (columnOfPa m.addr) with
    | none => some 1
    | some p => if (partxOf s p).peers.any fun r => r.peer == m.src && r.part == m.part then none else some 1

/-- A response of this package to a request. -/
def respond (s : State) (port op : Nat) (m : LinkMsg) (code : Nat) (data : List Byte) (poison : Bool) : State :=
  sendLink s port op { m with aop := 0, any := false, dbl := false, poison, sys := false, src := Config.packageNumber.toNat, code, data }

/-- RD: the bytes read at their home slice, with their poison. A request whose line must wait (R285) is not taken. -/
def execRd (port : Nat) (f : Flit) (m : LinkMsg) (s : State) : Host.Outcome State Fault Refusal :=
  .next (receive s port f (msgUnits m 1, 0) fun s => match requestFault s m with
    | some c => some (respond s port 6 m c [] false)
    | none =>
      if unserved s m.addr || unserved s (m.addr + m.size - 1) then none else
      let (s, bs, bad) := readHome s m.addr m.size none
      some (respond s port 4 m 0 bs bad))

/-- WR: acknowledged once it has performed. -/
def execWr (port : Nat) (f : Flit) (m : LinkMsg) (s : State) : Host.Outcome State Fault Refusal :=
  .next (receive s port f (msgUnits m 2, 0) fun s => match requestFault s m with
    | some c => some (respond s port 6 m c [] false)
    | none => (performWrite s m.addr (m.data.take m.size) m.poison none).map fun s => respond s port 5 m 0 [] false)

/-- ATM: performs at the home slice's SUU and returns the old value; of poisoned data nothing is done. -/
def execAtm (port : Nat) (f : Flit) (m : LinkMsg) (s : State) : Host.Outcome State Fault Refusal :=
  .next (receive s port f (msgUnits m 3, 0) fun s => match requestFault s m with
    | some c => some (respond s port 6 m c [] false)
    | none =>
      let wid := if m.dbl then 8 else 4
      let lo := bytesVal (m.data.take wid)
      let hi := bytesVal ((m.data.drop 8).take wid)
      let (s, old, bad) := readHome s m.addr wid none
      if bad then some (respond s port 4 m 0 old true) else
      let new := if m.aop == 7 then atomF 7 (8 * wid) (bytesVal old) hi lo else atomF m.aop (8 * wid) (bytesVal old) lo 0
      (performWrite s m.addr (valBytes wid new) false none).map fun s => respond s port 4 m 0 old false)

/-! ## Responses (R447) -/

/-- A response completes the access whose request carried its tag; the tag is free. -/
def response (s : State) (port : Nat) (m : LinkMsg) (data : Option (List Byte)) : State :=
  match Table.get? (linkOf s port).inflight m.tag with
  | none => s
  | some n =>
    let s := modLink s port fun l => { l with inflight := Table.erase l.inflight m.tag }
    match s.outside.find? (·.id == n) with
    | some o => outsideDone s o data m.poison
    | none => s

def execRdata (port : Nat) (f : Flit) (m : LinkMsg) (s : State) : Host.Outcome State Fault Refusal :=
  .next (receive s port f (0, msgUnits m 4) fun s => some (response s port m (some (m.data.take m.size))))
def execWack (port : Nat) (f : Flit) (m : LinkMsg) (s : State) : Host.Outcome State Fault Refusal :=
  .next (receive s port f (0, msgUnits m 5) fun s => some (response s port m (some [])))
def execFail (port : Nat) (f : Flit) (m : LinkMsg) (s : State) : Host.Outcome State Fault Refusal :=
  .next (receive s port f (0, msgUnits m 6) fun s => some (response s port m none))

/-! ## Other flits (R445, R447) -/

/-- NAK: every flit from the SEQ it names is sent again; 16 in a row that name one SEQ take the port down. -/
def execNak (port ack : Nat) (s : State) : Host.Outcome State Fault Refusal :=
  .next (
    if !(linkOf s port).up then s else
    let n := match (linkOf s port).nakSeq with
      | some (q, n) => if q == ack then n + 1 else 1
      | none => 1
    if n ≥ 16 then linkDown s port else
    let s := modLink (linkAck s port ack) port fun l => { l with nakSeq := some (ack, n) }
    let l := linkOf s port
    l.replay.foldl (fun s r => emit s (.link port 1 r.1 l.rxSeq r.2.2 (some r.2.1))) s)

/-- CTRL: credits returned, or with LINKUP the credits of a port that has trained. -/
def execCtrl (port ack req resp : Nat) (linkup : Bool) (s : State) : Host.Outcome State Fault Refusal :=
  .next (
    if !(linkOf s port).up then s
    else if linkup then flushLink (modLink s port fun l => { l with reqCredit := req, respCredit := resp }) port
    else linkAck (modLink s port fun l => { l with reqCredit := l.reqCredit + req, respCredit := l.respCredit + resp }) port ack)

/-- IDLE: its ACK acknowledges. -/
def execIdle (port ack : Nat) (s : State) : Host.Outcome State Fault Refusal :=
  .next (if (linkOf s port).up then linkAck s port ack else s)

/-- FLIT_CRC_FAIL: the flit is discarded and a NAK sent. -/
def execFlitCrcFail (port : Nat) (s : State) : Host.Outcome State Fault Refusal :=
  .next (if (linkOf s port).up then sendNak s port else s)

def execCorhoebLinkDown (port : Nat) (s : State) : Host.Outcome State Fault Refusal := .next (linkDown s port)

/-- LINK_RETRAIN: a down port has trained; it grants the other side 1,024 credits of each class. -/
def execLinkRetrain (port : Nat) (s : State) : Host.Outcome State Fault Refusal :=
  .next (if (linkOf s port).up || port ≥ 16 then s
    else emit (modLink s port fun _ => { up := true }) (.credits port 1024 1024 true))

end Sys2Proof.Machine
end

