-- ==== Sys2Proof/Machine/Power.lean ====
section
/-! DEFINITION. Power and cooling (spec 19_system.md R465). In which of its cycles a gated core issues is timing
(DESIGN CHOICE, unsafe: notes/assumptions/13.md).
Where the spec leaves a point open: notes/assumptions, entry 13. -/

namespace Sys2Proof.Machine

/-- Every core flushes, so that the windows hold what has been banked (R410). -/
def flushAll (s : State) : State := s.cores.foldl (fun s e => flushCore s e.1) s

/-- An energy in µJ over 1 ms against a cap in W: over it, below 95 % of it. -/
def overCap (uj w : Nat) : Bool := uj > 1000 * w
def underCap (uj w : Nat) : Bool := 100 * uj < 95 * 1000 * w

/-- A core's next n of 16, from the package's window and its partition's. -/
def gateStep (s : State) (c : Nat) : Nat :=
  let n := (coreOf s c).gate
  let pk := s.iod.power
  let own := match holderOf s (columnOfCore c) with
    | some p => ((partOf s p).bind (·.cap)).map fun w => ((partxOf s p).window, w)
    | none => none
  if overCap pk.window pk.cap || own.any (fun x => overCap x.1 x.2) then max 2 (n - 1)
  else if underCap pk.window pk.cap && own.all (fun x => underCap x.1 x.2) then min 16 (n + 1)
  else n

/-- POWER_CAP_WINDOW: 1 ms has passed. -/
def execPowerCapWindow (s : State) : Host.Outcome State Fault Refusal :=
  .next (
    let s := flushAll s
    let gates := (List.range 192).map fun c => (c, gateStep s c)
    let s := gates.foldl (fun s g => if (coreOf s g.1).gate == g.2 then s else modCore s g.1 fun k => { k with gate := g.2 }) s
    modIod s fun i => { i with
      power := { i.power with window := 0 }
      partx := i.partx.map fun e => (e.1, { e.2 with window := 0 }) })

/-- THERMAL_THROTTLE: 105 °C at the junction. -/
def execThermalThrottle (s : State) : Host.Outcome State Fault Refusal :=
  .next ((List.range 192).foldl (fun s c => modCore s c fun k => { k with gate := 8 }) s)

end Sys2Proof.Machine
end

