-- ==== Sys2Proof/Machine/Quant.lean ====
section
/-! DEFINITION. QNT and DQNT (spec 08_isa_float.md R201, R202, R204). -/

namespace Sys2Proof.Machine

/-! ## QNT (R201) -/

/-- One butterfly stage: elements whose bit `j` is 0 pair with those 2^j above; INVALID of inf − inf. -/
def butterfly (j : Nat) (x : List (FVal × Nat)) : List (FVal × Nat) :=
  let at_ := fun (i : Nat) => (x[i]?).getD (.fin false 0 0, 0)
  (List.range 32).map fun i =>
    if bit i j then
      let p := at_ (i - 2 ^ j)
      let q := at_ i
      let (v, f) := addVal 0 p.1 (negVal q.1)
      (v, f ||| p.2 ||| q.2)
    else
      let p := at_ i
      let q := at_ (i + 2 ^ j)
      let (v, f) := addVal 0 p.1 q.1
      (v, f ||| p.2 ||| q.2)

/-- The largest finite magnitude, on the lower exponent. -/
def maxMag (l : List FVal) : Nat × Int :=
  l.foldl (fun (r : Nat × Int) v => match v with
    | .fin _ m e =>
      let (d, _) := sumFin false m e true r.1 r.2
      if d > 0 then (m, e) else r
    | _ => r) (0, 0)

/-- E: the smallest e with mx ≤ 59 × 2^(e − 127), or 254. -/
def chooseE (mx : Nat × Int) : Nat :=
  ((List.range 255).find? fun (e : Nat) => decide ((sumFin false mx.1 mx.2 true 59 (Int.ofNat e - 127)).1 ≤ 0)).getD 254

/-- A quantized block: the codes, the scale, the flags. -/
def quantize (f : Fmt) (stages : Nat) (words : List Nat) : List Nat × Nat × Nat :=
  let x := words.map fun w =>
    let v := f.value w
    (v, if isSnan v then fInvalid else 0)
  let x := (List.range stages).foldl (fun x j => butterfly j x) x
  let e := chooseE (maxMag (x.map (·.1)))
  let cs := x.map fun v => toRq8 e v.1
  (cs.map (·.1), e, orAll (x.map (·.2) ++ cs.map (·.2)))

/-- Words of `z` bytes. -/
def wordsOf (z : Nat) (bs : List Byte) (n : Nat) : List Nat := (List.range n).map fun i => field bs (z * i) z

def qntSrc (cx : Cx) (n : BitVec 7) : Src :=
  match cx.kind with
  | .T => { n := n.toNat, rc := .g }
  | .V => { n := n.toNat, rc := .v }
  | _ => { n := n.toNat, rc := .s, wide := true }
def qntCls (cx : Cx) : Cls := cx.cls

/-- QNT. The checks of all acting lanes come before any effect; if any fails none takes effect (R202). -/
def execQnt (o : POp) (s : State) : Host.Outcome State Fault Refusal :=
  withCx s fun cx =>
    let fmt := bits o.param.toNat 31 28
    let stages := bits o.param.toNat 27 25
    let z := if fmt == 0 then 4 else 2
    let intOnly := fun (n : BitVec 7) => !(104 ≤ n.toNat && n.toNat ≤ 127)
    let d : Dec := { valid := tvs, p := o.p, len := 2, srcs := [qntSrc cx o.p.srcA, qntSrc cx o.p.srcB], dst := .reg (rcOf cx.cls),
                     ok := fmt ≤ 2 && stages ≤ 5 && bits o.param.toNat 24 0 == 0 && intOnly o.p.srcA && intOnly o.p.srcB,
                     perElem := cx.kind == .V, payload := true }
    cx.start s d fun s rs =>
      let m := cx.mem s
      -- rows that earlier matrix instructions owe come first (R202, R226, R231)
      let owed := fun (wid kind a : Nat) (r : Nat × List Nat) => cx.rowOwed s wid kind { sp := .loc, lane := r.1, ea := (a : Nat) }
      if outsideRead s cx.id || rs.any fun r => owed (32 * z) 0 (aOf r.2) r || owed 32 1 (bOf r.2) r then cx.wait s cx.acts 1 else
      let faults := rs.filterMap fun r =>
        (firstFault [alignFault (aOf r.2) z 0, localFault m.locb (aOf r.2) (32 * z), localFault m.locb (bOf r.2) 32,
          lwsetFault (cx.sealed s) (cx.region s) (bOf r.2) 32]).map fun f => (r.1, f)
      if !faults.isEmpty then cx.raiseFaults s d faults else
      let poisoned := rs.filter fun r => (m.loadLoc (aOf r.2) (32 * z)).2
      if !poisoned.isEmpty then
        cx.raise s d.srcs { cause := 24, lanes := if cx.isT then poisoned.map (·.1) else [] } (cx.whoOf (poisoned.map (·.1)))
      else
        let qs := rs.map fun r => (r.1, bOf r.2, quantize (fmtOf fmt) stages (wordsOf z (m.loadLoc (aOf r.2) (32 * z)).1 32))
        cx.flagged s d (qs.map fun q => (q.1, q.2.2.2.1, q.2.2.2.2)) fun s done =>
          let s := cx.modBlk s fun b => b.modMem fun m => qs.foldl (fun m q =>
            if done.any fun r => r.1 == q.1 then m.storeLoc q.2.1 (q.2.2.1.map fun c => BitVec.ofNat 8 c) false else m) m
          cx.result s d cx.cls (cx.cls == .s) done

/-- DQNT (R204). -/
def execDqnt (o : POp) (s : State) : Host.Outcome State Fault Refusal :=
  withCx s fun cx =>
    let fmt := bits o.param.toNat 31 28
    let rm := bits o.param.toNat 27 25
    let intOnly := fun (n : BitVec 7) => !(104 ≤ n.toNat && n.toNat ≤ 127)
    let d : Dec := { valid := tvs, p := o.p, len := 2, srcs := [qntSrc cx o.p.srcA, qntSrc cx o.p.srcB], dst := .reg (rcOf cx.cls),
                     ok := fmt ≤ 2 && rm < 4 && bits o.param.toNat 24 0 == 0 && intOnly o.p.srcA && intOnly o.p.srcB,
                     perElem := cx.kind == .V, payload := true }
    cx.start s d fun s rs =>
      cx.flagged s d (rs.map fun r => (r.1, ofRq8 (fmtOf fmt) rm (bOf r.2 % 256) (aOf r.2 % 256)))
        fun s done => cx.result s d cx.cls (cx.cls == .s) done

end Sys2Proof.Machine
end

