-- ==== Sys2Proof/Machine/Vector.lean ====
section
/-! DEFINITION. The vector-only instructions (spec 06_isa_scalar.md R146 to R154). -/

namespace Sys2Proof.Machine

/-- Enters a vector-only instruction: decode traps, latches, then the operands `uses` says are read as data, each an
operand number and an element (R123, R146). `k` gets the reader of operands. -/
def Cx.startVec (cx : Cx) (s : State) (d : Dec) (uses : (Nat → Nat → Nat) → List (Nat × Nat))
    (k : State → (Nat → Nat → Nat) → State) : State :=
  match cx.decodeTrap s d with
  | some c => cx.raise s d.srcs { cause := c } cx.acts
  | none =>
    let rd := fun (i e : Nat) => match d.srcs[i]? with
      | some x => cx.read s d.imm i e x
      | none => .val 0 false
    let val := fun (i e : Nat) => match rd i e with
      | .val v _ => v
      | _ => 0
    let rs := (uses val).map fun u => rd u.1 u.2
    if (List.range d.srcs.length).any fun i => ((d.srcs[i]?).map fun x => 64 ≤ x.n && x.n < 72).getD false && rd i 0 == .inval then
      cx.raise s d.srcs { cause := 6 } [0]
    else if rs.any (· == .pend) then cx.waitOperand s [0]
    else if rs.any fun r => match r with
        | .val _ b => b
        | _ => false then cx.raise s d.srcs { cause := 24 } [0]
    else k (if cx.begun s then s else cx.count s d.payload (cx.beats s d) ((cx.lanes s d).filter fun e => cx.pbit s d.p.grd.toNat e).length) val

/-- The elements that act: below VL with their guard bit (R146). -/
def Cx.activeElems (cx : Cx) (s : State) (grd : Nat) : List Nat := (List.range (cx.vl s)).filter fun e => cx.pbit s grd e

def vecValid : Kind → Option Nat := validIn [.V] []
def rOk (o : ROp) : Bool := !(o.p.srcA.toNat == 127 && o.p.srcB.toNat == 127)
def rLen (o : ROp) : Nat := if o.p.srcA.toNat == 127 || o.p.srcB.toNat == 127 then 2 else 1
def rImm (o : ROp) : Option W32 := if o.p.srcA.toNat == 127 || o.p.srcB.toNat == 127 then some o.imm else none

/-- The decoding of a vector-only R-form instruction. -/
def vecDec (o : ROp) (ok : Bool) (srcs : List Src) (dst : Dst) : Dec :=
  { valid := vecValid, ok := rOk o && ok, p := o.p, len := rLen o, imm := rImm o, srcs, dst, perElem := dst != .reg .s }

/-- SETVL (R148). -/
def execSetvl (o : ROp) (s : State) : Host.Outcome State Fault Refusal :=
  withCx s fun cx =>
    let d := vecDec o (o.p.srcB == 0) [{ n := o.p.srcA.toNat, rc := .s, wide := true }] (.reg .s)
    cx.start s d fun s rs => rs.foldl (fun s r =>
      let a := aOf r.2
      let s := cx.modBlk s fun b => b.modRegs fun g => { g with vlen := BitVec.ofNat 9 (min (max a 1) 256) }
      cx.result s d .s true [(0, min a 256)]) s

/-- The results of a movement written and completed. -/
def Cx.vecResult (cx : Cx) (s : State) (d : Dec) (rs : List (Nat × Nat)) : State := cx.result s d .v false rs

/-- Src(i) of R146: zero at or beyond VL. -/
def srcAt (vl : Nat) (rd : Nat → Nat → Nat) (i : Int) : Nat := if 0 ≤ i && i < vl then rd 0 i.toNat else 0

/-- A movement whose element `e` takes Src(f e); `f` sees the operand reader (R149). -/
def Cx.vecMove (cx : Cx) (s : State) (d : Dec) (bOwn : Bool) (f : (Nat → Nat → Nat) → Nat → Int) : State :=
  let act := cx.activeElems s d.p.grd.toNat
  let vl := cx.vl s
  cx.startVec s d (fun rd =>
      (if bOwn then act.map fun e => (1, e) else [(1, 0)]) ++
        (act.filterMap fun e => let i := f rd e; if 0 ≤ i && i < vl then some (0, i.toNat) else none))
    fun s rd => cx.vecResult s d (act.map fun e => (e, srcAt vl rd (f rd e)))

def vSrc (n : BitVec 7) : Src := { n := n.toNat, rc := .v }
def sSrc (n : BitVec 7) : Src := { n := n.toNat, rc := .s, wide := true }
def pSrc (n : BitVec 7) : Src := { n := n.toNat, rc := .p }

def execShfl (o : ROp) (s : State) : Host.Outcome State Fault Refusal :=
  withCx s fun cx => cx.vecMove s (vecDec o true [vSrc o.p.srcA, sSrc o.p.srcB] (.reg .v)) false
    fun rd e => ((e ^^^ (rd 1 0 % 256) : Nat) : Int)
def execVperm (o : ROp) (s : State) : Host.Outcome State Fault Refusal :=
  withCx s fun cx => cx.vecMove s (vecDec o true [vSrc o.p.srcA, vSrc o.p.srcB] (.reg .v)) true fun rd e => (rd 1 e : Int)
def execVslide (o : ROp) (s : State) : Host.Outcome State Fault Refusal :=
  withCx s fun cx => cx.vecMove s (vecDec o true [vSrc o.p.srcA, sSrc o.p.srcB] (.reg .v)) false
    fun rd e => (e : Int) - signed 64 (rd 1 0)
def execVid (o : ROp) (s : State) : Host.Outcome State Fault Refusal :=
  withCx s fun cx =>
    let d := vecDec o (o.p.srcB == 0) [sSrc o.p.srcA] (.reg .v)
    cx.startVec s d (fun _ => [(0, 0)]) fun s rd =>
      cx.vecResult s d ((cx.activeElems s o.p.grd.toNat).map fun e => (e, (rd 0 0 + e) % 2 ^ 32))
def execVbcast (o : ROp) (s : State) : Host.Outcome State Fault Refusal :=
  withCx s fun cx =>
    let d := vecDec o (o.p.srcB == 0) [sSrc o.p.srcA] (.reg .v)
    cx.startVec s d (fun _ => [(0, 0)]) fun s rd =>
      cx.vecResult s d ((cx.activeElems s o.p.grd.toNat).map fun e => (e, rd 0 0 % 2 ^ 32))

/-- VCMPRS (R150). -/
def execVcmprs (o : ROp) (s : State) : Host.Outcome State Fault Refusal :=
  withCx s fun cx =>
    let d := vecDec o (o.p.grd == 0) [vSrc o.p.srcA, pSrc o.p.srcB] (.reg .v)
    let sel := (List.range (cx.vl s)).filter fun e => cx.pbit s o.p.srcB.toNat e
    cx.startVec s d (fun _ => sel.map fun e => (0, e)) fun s rd =>
      cx.vecResult s d ((List.range (cx.vl s)).map fun e => (e, ((sel[e]?).map (rd 0)).getD 0))

/-- VEXPND (R150). -/
def execVexpnd (o : ROp) (s : State) : Host.Outcome State Fault Refusal :=
  withCx s fun cx =>
    let d := vecDec o (o.p.grd == 0) [vSrc o.p.srcA, pSrc o.p.srcB] (.reg .v)
    let sel := (List.range (cx.vl s)).filter fun e => cx.pbit s o.p.srcB.toNat e
    cx.startVec s d (fun _ => (List.range sel.length).map fun e => (0, e)) fun s rd =>
      cx.vecResult s d ((List.range (cx.vl s)).map fun e =>
        (e, match sel.idxOf? e with
          | some k => rd 0 k
          | none => 0))

/-! ## Reductions (R151 to R154) -/

/-- Op of a ROP with its flags (R152). -/
def ropStep (rop rm a b : Nat) : Nat × Nat :=
  let l := [a, b]
  match rop with
  | 0 => (addF 32 l, 0)
  | 1 => (minF 32 l, 0)
  | 2 => (maxF 32 l, 0)
  | 3 => (minuF l, 0)
  | 4 => (maxuF l, 0)
  | 5 => (andF l, 0)
  | 6 => (orF l, 0)
  | 7 => (xorF l, 0)
  | 8 => (fmtOf 0).add rm a b
  | 9 => (fmtOf 0).minmax false a b
  | _ => (fmtOf 0).minmax true a b

/-- Identity (R153). -/
def ropIdentity (rop : Nat) : Nat :=
  match rop with
  | 1 => 0x7FFFFFFF
  | 2 => 0x80000000
  | 3 => 0xFFFFFFFF
  | 5 => 0xFFFFFFFF
  | 9 => 0x7F800000
  | 10 => 0xFF800000
  | _ => 0

/-- A partial reduction: nothing yet, or a value; with the flags so far. -/
abbrev Red := Option Nat × Nat
def redJoin (rop rm : Nat) (x y : Red) : Red :=
  match x.1, y.1 with
  | none, v => (v, x.2 ||| y.2)
  | v, none => (v, x.2 ||| y.2)
  | some a, some b => let (v, f) := ropStep rop rm a b; (some v, x.2 ||| y.2 ||| f)

/-- One level of the pairwise tree. -/
def pairUp (rop rm : Nat) : List Red → List Red
  | x :: y :: r => redJoin rop rm x y :: pairUp rop rm r
  | l => l
/-- Tree: eight levels over 256 positions (R152). -/
def treeRed (rop rm : Nat) : Nat → List Red → List Red
  | 0, l => l
  | n + 1, l => treeRed rop rm n (pairUp rop rm l)

/-- Reduce over the elements below `n` (R152): `vals e` none for an element that does not act. -/
def reduce (any : Bool) (rop rm n : Nat) (vals : Nat → Option Nat) : Red :=
  if any then ((treeRed rop rm 8 ((List.range 256).map fun e => (if e < n then vals e else none, 0))).head?).getD (none, 0)
  else (List.range n).foldl (fun (r : Red) e => redJoin rop rm r (vals e, 0)) (none, 0)

/-- The fields of the P parcel of VRED and VSCAN (R151). -/
def redOk (o : POp) (scan : Bool) : Bool :=
  let p := o.param.toNat
  bits p 31 28 ≤ 10 && (if bits p 31 28 == 8 then bits p 26 24 < 4 else bits p 26 24 == 0) && bits p 23 20 == 0 &&
    (scan || !bit p 19) && bits p 18 0 == 0 && o.p.srcB == 0 && o.p.srcA.toNat != 127

def redDec (o : POp) (scan : Bool) : Dec :=
  { valid := vecValid, ok := redOk o scan, p := o.p, len := 2, srcs := [{ vSrc o.p.srcA with flt := if bits o.param.toNat 31 28 ≥ 8 then some 0 else none }], perElem := true,
    dst := .reg (if scan then .v else .s), payload := bits o.param.toNat 31 28 ≥ 8 }

/-- Extension to 64 bits (R153). -/
def redExtend (rop v : Nat) : Nat := if rop ≤ 2 then wrapNat 64 (signed 32 v) else v

/-- VRED (R153). -/
def execVred (o : POp) (s : State) : Host.Outcome State Fault Refusal :=
  withCx s fun cx =>
    let d := redDec o false
    let p := o.param.toNat
    let rop := bits p 31 28
    let act := cx.activeElems s o.p.grd.toNat
    cx.startVec s d (fun _ => act.map fun e => (0, e)) fun s rd =>
      let r := reduce (bit p 27) rop (bits p 26 24) (cx.vl s) fun e => if act.contains e then some (rd 0 e) else none
      cx.flagged s d [(0, redExtend rop (r.1.getD (ropIdentity rop)), r.2)] fun s rs => cx.result s d .s true rs

/-- VSCAN (R154). -/
def execVscan (o : POp) (s : State) : Host.Outcome State Fault Refusal :=
  withCx s fun cx =>
    let d := redDec o true
    let p := o.param.toNat
    let rop := bits p 31 28
    let act := cx.activeElems s o.p.grd.toNat
    cx.startVec s d (fun _ => act.map fun e => (0, e)) fun s rd =>
      let vals := fun (e : Nat) => if act.contains e then some (rd 0 e) else none
      let rs := act.map fun e =>
        let r := reduce (bit p 27) rop (bits p 26 24) (if bit p 19 then e else e + 1) vals
        (e, r.1.getD (ropIdentity rop), r.2)
      cx.flagged s d rs fun s rs => cx.result s d .v false rs

end Sys2Proof.Machine
end

