-- ==== Sys2Proof/Machine/Dispatch.lean ====
section
/-! DEFINITION. Every instruction and event to its meaning: one arm per constructor of `Instr`. -/

namespace Sys2Proof.Machine

def exec (i : Instr) (s : State) : Host.Outcome State Fault Refusal :=
  match i with
  | .add c o => Sys2Proof.Machine.execAdd c o s
  | .sub c o => Sys2Proof.Machine.execSub c o s
  | .mul c o => Sys2Proof.Machine.execMul c o s
  | .mulh c o => Sys2Proof.Machine.execMulh c o s
  | .mulhu c o => Sys2Proof.Machine.execMulhu c o s
  | .mad c o => Sys2Proof.Machine.execMad c o s
  | .div c o => Sys2Proof.Machine.execDiv c o s
  | .divu c o => Sys2Proof.Machine.execDivu c o s
  | .rem c o => Sys2Proof.Machine.execRem c o s
  | .remu c o => Sys2Proof.Machine.execRemu c o s
  | .neg c o => Sys2Proof.Machine.execNeg c o s
  | .abs c o => Sys2Proof.Machine.execAbs c o s
  | .min c o => Sys2Proof.Machine.execMin c o s
  | .max c o => Sys2Proof.Machine.execMax c o s
  | .minu c o => Sys2Proof.Machine.execMinu c o s
  | .maxu c o => Sys2Proof.Machine.execMaxu c o s
  | .addsat c o => Sys2Proof.Machine.execAddsat c o s
  | .subsat c o => Sys2Proof.Machine.execSubsat c o s
  | .and c o => Sys2Proof.Machine.execAnd c o s
  | .or c o => Sys2Proof.Machine.execOr c o s
  | .xor c o => Sys2Proof.Machine.execXor c o s
  | .andn c o => Sys2Proof.Machine.execAndn c o s
  | .not c o => Sys2Proof.Machine.execNot c o s
  | .shl c o => Sys2Proof.Machine.execShl c o s
  | .shr c o => Sys2Proof.Machine.execShr c o s
  | .sar c o => Sys2Proof.Machine.execSar c o s
  | .rol c o => Sys2Proof.Machine.execRol c o s
  | .clz c o => Sys2Proof.Machine.execClz c o s
  | .popc c o => Sys2Proof.Machine.execPopc c o s
  | .brev c o => Sys2Proof.Machine.execBrev c o s
  | .bfx c o => Sys2Proof.Machine.execBfx c o s
  | .bfi c o => Sys2Proof.Machine.execBfi c o s
  | .sel c o => Sys2Proof.Machine.execSel c o s
  | .mov c o => Sys2Proof.Machine.execMov c o s
  | .cmp c o => Sys2Proof.Machine.execCmp c o s
  | .lea c o => Sys2Proof.Machine.execLea c o s
  | .plog c o => Sys2Proof.Machine.execPlog c o s
  | .fadd c o => Sys2Proof.Machine.execFadd c o s
  | .fsub c o => Sys2Proof.Machine.execFsub c o s
  | .fmul c o => Sys2Proof.Machine.execFmul c o s
  | .fma c o => Sys2Proof.Machine.execFma c o s
  | .fmin c o => Sys2Proof.Machine.execFmin c o s
  | .fmax c o => Sys2Proof.Machine.execFmax c o s
  | .fabs c o => Sys2Proof.Machine.execFabs c o s
  | .fneg c o => Sys2Proof.Machine.execFneg c o s
  | .fcmp c o => Sys2Proof.Machine.execFcmp c o s
  | .fclass c o => Sys2Proof.Machine.execFclass c o s
  | .fcvt c o => Sys2Proof.Machine.execFcvt c o s
  | .icvt c o => Sys2Proof.Machine.execIcvt c o s
  | .frcp c o => Sys2Proof.Machine.execFrcp c o s
  | .frsq c o => Sys2Proof.Machine.execFrsq c o s
  | .fsqrt c o => Sys2Proof.Machine.execFsqrt c o s
  | .fexp2 c o => Sys2Proof.Machine.execFexp2 c o s
  | .flog2 c o => Sys2Proof.Machine.execFlog2 c o s
  | .fsin c o => Sys2Proof.Machine.execFsin c o s
  | .fcos c o => Sys2Proof.Machine.execFcos c o s
  | .ftanh c o => Sys2Proof.Machine.execFtanh c o s
  | .movw o => Sys2Proof.Machine.execMovw o s
  | .ld o => Sys2Proof.Machine.execLd o s
  | .st o => Sys2Proof.Machine.execSt o s
  | .ldl o => Sys2Proof.Machine.execLdl o s
  | .stl o => Sys2Proof.Machine.execStl o s
  | .ldp o => Sys2Proof.Machine.execLdp o s
  | .stp o => Sys2Proof.Machine.execStp o s
  | .ldg o => Sys2Proof.Machine.execLdg o s
  | .sts o => Sys2Proof.Machine.execSts o s
  | .pref o => Sys2Proof.Machine.execPref o s
  | .atom o => Sys2Proof.Machine.execAtom o s
  | .red o => Sys2Proof.Machine.execRed o s
  | .fence o => Sys2Proof.Machine.execFence o s
  | .waita o => Sys2Proof.Machine.execWaita o s
  | .cflush o => Sys2Proof.Machine.execCflush o s
  | .cpkick o => Sys2Proof.Machine.execCpkick o s
  | .cpwait o => Sys2Proof.Machine.execCpwait o s
  | .cpdrain o => Sys2Proof.Machine.execCpdrain o s
  | .bari o => Sys2Proof.Machine.execBari o s
  | .bara o => Sys2Proof.Machine.execBara o s
  | .barw o => Sys2Proof.Machine.execBarw o s
  | .barl o => Sys2Proof.Machine.execBarl o s
  | .ticket o => Sys2Proof.Machine.execTicket o s
  | .tfetch o => Sys2Proof.Machine.execTfetch o s
  | .tfetchM o => Sys2Proof.Machine.execTfetchM o s
  | .tfetchR o => Sys2Proof.Machine.execTfetchR o s
  | .trel o => Sys2Proof.Machine.execTrel o s
  | .cvset o => Sys2Proof.Machine.execCvset o s
  | .cvsign o => Sys2Proof.Machine.execCvsign o s
  | .mma o => Sys2Proof.Machine.execMma o s
  | .mmas o => Sys2Proof.Machine.execMmas o s
  | .azero o => Sys2Proof.Machine.execAzero o s
  | .ald o => Sys2Proof.Machine.execAld o s
  | .ast o => Sys2Proof.Machine.execAst o s
  | .drn o => Sys2Proof.Machine.execDrn o s
  | .agset o => Sys2Proof.Machine.execAgset o s
  | .agget o => Sys2Proof.Machine.execAgget o s
  | .setvl o => Sys2Proof.Machine.execSetvl o s
  | .shfl o => Sys2Proof.Machine.execShfl o s
  | .vperm o => Sys2Proof.Machine.execVperm o s
  | .vred o => Sys2Proof.Machine.execVred o s
  | .vscan o => Sys2Proof.Machine.execVscan o s
  | .vcmprs o => Sys2Proof.Machine.execVcmprs o s
  | .vexpnd o => Sys2Proof.Machine.execVexpnd o s
  | .vslide o => Sys2Proof.Machine.execVslide o s
  | .vid o => Sys2Proof.Machine.execVid o s
  | .vbcast o => Sys2Proof.Machine.execVbcast o s
  | .qnt o => Sys2Proof.Machine.execQnt o s
  | .dqnt o => Sys2Proof.Machine.execDqnt o s
  | .br o => Sys2Proof.Machine.execBr o s
  | .jmp o => Sys2Proof.Machine.execJmp o s
  | .call o => Sys2Proof.Machine.execCall o s
  | .ret o => Sys2Proof.Machine.execRet o s
  | .rejoin o => Sys2Proof.Machine.execRejoin o s
  | .exit o => Sys2Proof.Machine.execExit o s
  | .yield o => Sys2Proof.Machine.execYield o s
  | .wdog o => Sys2Proof.Machine.execWdog o s
  | .nop o => Sys2Proof.Machine.execNop o s
  | .ep o => Sys2Proof.Machine.execEp o s
  | .hop o => Sys2Proof.Machine.execHop o s
  | .trap o => Sys2Proof.Machine.execTrap o s
  | .rett o => Sys2Proof.Machine.execRett o s
  | .bkpt o => Sys2Proof.Machine.execBkpt o s
  | .grow o => Sys2Proof.Machine.execGrow o s
  | .shrink o => Sys2Proof.Machine.execShrink o s
  | .launch o => Sys2Proof.Machine.execLaunch o s
  | .arm o => Sys2Proof.Machine.execArm o s
  | .send o => Sys2Proof.Machine.execSend o s
  | .cfg o => Sys2Proof.Machine.execCfg o s
  | .strm o => Sys2Proof.Machine.execStrm o s
  | .sbar o => Sys2Proof.Machine.execSbar o s
  | .splice o => Sys2Proof.Machine.execSplice o s
  | .drainf o => Sys2Proof.Machine.execDrainf o s
  | .drainfSlice o => Sys2Proof.Machine.execDrainfSlice o s
  | .fwait o => Sys2Proof.Machine.execFwait o s
  | .mfs o => Sys2Proof.Machine.execMfs o s
  | .mts o => Sys2Proof.Machine.execMts o s
  | .svrunResume o => Sys2Proof.Machine.execSvrunResume o s
  | .svrunAbort o => Sys2Proof.Machine.execSvrunAbort o s
  | .svrunDeliver o => Sys2Proof.Machine.execSvrunDeliver o s
  | .svinit o => Sys2Proof.Machine.execSvinit o s
  | .hostint o => Sys2Proof.Machine.execHostint o s
  | .ringack o => Sys2Proof.Machine.execRingack o s
  | .tlbinv o => Sys2Proof.Machine.execTlbinv o s
  | .cntr o => Sys2Proof.Machine.execCntr o s
  | .cntc o => Sys2Proof.Machine.execCntc o s
  | .ctxsv o => Sys2Proof.Machine.execCtxsv o s
  | .ctxld o => Sys2Proof.Machine.execCtxld o s
  | .vfctlQuiesce o => Sys2Proof.Machine.execVfctlQuiesce o s
  | .vfctlResume o => Sys2Proof.Machine.execVfctlResume o s
  | .vfctlRdq o => Sys2Proof.Machine.execVfctlRdq o s
  | .vfctlWrq o => Sys2Proof.Machine.execVfctlWrq o s
  | .dirtyrd o => Sys2Proof.Machine.execDirtyrd o s
  | .halt o => Sys2Proof.Machine.execHalt o s
  | .wfi o => Sys2Proof.Machine.execWfi o s
  | .sev o => Sys2Proof.Machine.execSev o s
  | .bootImageCheck got => Sys2Proof.Machine.execBootImageCheck got s
  | .blockPlacement launch core slot => Sys2Proof.Machine.execBlockPlacement launch core slot s
  | .restorePlacement part entry core slot => Sys2Proof.Machine.execRestorePlacement part entry core slot s
  | .regroupPoint core slot => Sys2Proof.Machine.execRegroupPoint core slot s
  | .loadDataReturn id => Sys2Proof.Machine.execLoadDataReturn id s
  | .sfuResultReturn c => Sys2Proof.Machine.execSfuResultReturn c s
  | .sealWindowGrant core slot => Sys2Proof.Machine.execSealWindowGrant core slot s
  | .blockRetirement core slot => Sys2Proof.Machine.execBlockRetirement core slot s
  | .trapDelivery core slot => Sys2Proof.Machine.execTrapDelivery core slot s
  | .debugHaltStop core slot => Sys2Proof.Machine.execDebugHaltStop core slot s
  | .watchdogExpiry core slot gang => Sys2Proof.Machine.execWatchdogExpiry core slot gang s
  | .placementDeadline launch => Sys2Proof.Machine.execPlacementDeadline launch s
  | .resumeDeadline part => Sys2Proof.Machine.execResumeDeadline part s
  | .preemption core slot => Sys2Proof.Machine.execPreemption core slot s
  | .preemptionDeadline core slot => Sys2Proof.Machine.execPreemptionDeadline core slot s
  | .drainDeadline core slot => Sys2Proof.Machine.execDrainDeadline core slot s
  | .growGrant core slot => Sys2Proof.Machine.execGrowGrant core slot s
  | .growDeadlock core => Sys2Proof.Machine.execGrowDeadlock core s
  | .interruptEntry c => Sys2Proof.Machine.execInterruptEntry c s
  | .ticketGrant core slot => Sys2Proof.Machine.execTicketGrant core slot s
  | .tileFetchPerform core => Sys2Proof.Machine.execTileFetchPerform core s
  | .mmaEntryExecute core slot => Sys2Proof.Machine.execMmaEntryExecute core slot s
  | .drnRowExecute core slot => Sys2Proof.Machine.execDrnRowExecute core slot s
  | .accRowTransfer core slot => Sys2Proof.Machine.execAccRowTransfer core slot s
  | .culvertChunk core eng => Sys2Proof.Machine.execCulvertChunk core eng s
  | .pageWalk id => Sys2Proof.Machine.execPageWalk id s
  | .suuAtomic id => Sys2Proof.Machine.execSuuAtomic id s
  | .sliceWrite id => Sys2Proof.Machine.execSliceWrite id s
  | .lineFill line => Sys2Proof.Machine.execLineFill line s
  | .lineSettle line => Sys2Proof.Machine.execLineSettle line s
  | .pondEntryError slice entry => Sys2Proof.Machine.execPondEntryError slice entry s
  | .l2TagError slice => Sys2Proof.Machine.execL2TagError slice s
  | .l1EccError core word => Sys2Proof.Machine.execL1EccError core word s
  | .localEccError core slot word => Sys2Proof.Machine.execLocalEccError core slot word s
  | .streamWindowFill core slot port => Sys2Proof.Machine.execStreamWindowFill core slot port s
  | .cellFire core slot elem => Sys2Proof.Machine.execCellFire core slot elem s
  | .statefulRelease core slot elem => Sys2Proof.Machine.execStatefulRelease core slot elem s
  | .arriveForward core slot elem => Sys2Proof.Machine.execArriveForward core slot elem s
  | .markerForward core slot elem => Sys2Proof.Machine.execMarkerForward core slot elem s
  | .matrixPortIssue core slot elem => Sys2Proof.Machine.execMatrixPortIssue core slot elem s
  | .streamInputSend core slot port => Sys2Proof.Machine.execStreamInputSend core slot port s
  | .streamOutputWrite core slot port => Sys2Proof.Machine.execStreamOutputWrite core slot port s
  | .inputPortNop core slot port => Sys2Proof.Machine.execInputPortNop core slot port s
  | .accountFlush core => Sys2Proof.Machine.execAccountFlush core s
  | .messageArrival port dst tag payload => Sys2Proof.Machine.execMessageArrival port dst tag payload s
  | .heldMessageRelease part entry => Sys2Proof.Machine.execHeldMessageRelease part entry s
  | .messageDeparture part => Sys2Proof.Machine.execMessageDeparture part s
  | .ringEntryHandout fn entry => Sys2Proof.Machine.execRingEntryHandout fn entry s
  | .doorbellWrite fn val => Sys2Proof.Machine.execDoorbellWrite fn val s
  | .ringConfigWrite fn offset val => Sys2Proof.Machine.execRingConfigWrite fn offset val s
  | .notifyWrite fn val => Sys2Proof.Machine.execNotifyWrite fn val s
  | .bar0RegisterWrite fn offset val => Sys2Proof.Machine.execBar0RegisterWrite fn offset val s
  | .bar2Request fn offset size data => Sys2Proof.Machine.execBar2Request fn offset size data s
  | .functionLevelReset fn => Sys2Proof.Machine.execFunctionLevelReset fn s
  | .neighborSolicitation port target => Sys2Proof.Machine.execNeighborSolicitation port target s
  | .nextHopTimeout port addr => Sys2Proof.Machine.execNextHopTimeout port addr s
  | .rd port f m => Sys2Proof.Machine.execRd port f m s
  | .wr port f m => Sys2Proof.Machine.execWr port f m s
  | .atm port f m => Sys2Proof.Machine.execAtm port f m s
  | .rdata port f m => Sys2Proof.Machine.execRdata port f m s
  | .wack port f m => Sys2Proof.Machine.execWack port f m s
  | .fail port f m => Sys2Proof.Machine.execFail port f m s
  | .nak port ack => Sys2Proof.Machine.execNak port ack s
  | .ctrl port ack req resp linkup => Sys2Proof.Machine.execCtrl port ack req resp linkup s
  | .flitCrcFail port => Sys2Proof.Machine.execFlitCrcFail port s
  | .corhoebLinkDown port => Sys2Proof.Machine.execCorhoebLinkDown port s
  | .linkRetrain port => Sys2Proof.Machine.execLinkRetrain port s
  | .registerFileEccError core slot key => Sys2Proof.Machine.execRegisterFileEccError core slot key s
  | .unassignedOpcode parcel second => Sys2Proof.Machine.execUnassignedOpcode parcel second s
  | .columnClearingComplete column => Sys2Proof.Machine.execColumnClearingComplete column s
  | .idle port ack => Sys2Proof.Machine.execIdle port ack s
  | .neighborAdvertisement port addr mac => Sys2Proof.Machine.execNeighborAdvertisement port addr mac s
  | .hostAccessCompletion id data => Sys2Proof.Machine.execHostAccessCompletion id data s
  | .ethernetLinkDown port => Sys2Proof.Machine.execEthernetLinkDown port s
  | .packageReset => Sys2Proof.Machine.execPackageReset s
  | .bootRetry => Sys2Proof.Machine.execBootRetry s
  | .powerCapWindow => Sys2Proof.Machine.execPowerCapWindow s
  | .thermalThrottle => Sys2Proof.Machine.execThermalThrottle s
  | .thermalReset => Sys2Proof.Machine.execThermalReset s
  | .getnonce => Sys2Proof.Machine.execGetnonce s
  | .claim => Sys2Proof.Machine.execClaim s
  | .handover => Sys2Proof.Machine.execHandover s
  | .release => Sys2Proof.Machine.execRelease s
  | .unfreeze => Sys2Proof.Machine.execUnfreeze s
  | .ownerq => Sys2Proof.Machine.execOwnerq s
  | .partset => Sys2Proof.Machine.execPartset s
  | .partreset => Sys2Proof.Machine.execPartreset s
  | .lend => Sys2Proof.Machine.execLend s
  | .reclaim => Sys2Proof.Machine.execReclaim s
  | .bindvf => Sys2Proof.Machine.execBindvf s
  | .setaddr => Sys2Proof.Machine.execSetaddr s
  | .peermap => Sys2Proof.Machine.execPeermap s
  | .sharegrp => Sys2Proof.Machine.execSharegrp s
  | .acctassign => Sys2Proof.Machine.execAcctassign s
  | .cntread => Sys2Proof.Machine.execCntread s
  | .cntclear => Sys2Proof.Machine.execCntclear s
  | .measure => Sys2Proof.Machine.execMeasure s
  | .bootcfg => Sys2Proof.Machine.execBootcfg s
  | .extend => Sys2Proof.Machine.execExtend s
  | .setweight => Sys2Proof.Machine.execSetweight s
  | .setfloor => Sys2Proof.Machine.execSetfloor s
  | .powercap => Sys2Proof.Machine.execPowercap s
  | .setewt => Sys2Proof.Machine.execSetewt s
  | .setdeadlines => Sys2Proof.Machine.execSetdeadlines s
  | .setpools => Sys2Proof.Machine.execSetpools s
  | .setquota => Sys2Proof.Machine.execSetquota s
  | .settwin => Sys2Proof.Machine.execSettwin s
  | .setumbuf => Sys2Proof.Machine.execSetumbuf s
  | .armread => Sys2Proof.Machine.execArmread s
  | .armwrite => Sys2Proof.Machine.execArmwrite s
  | .unitrelease => Sys2Proof.Machine.execUnitrelease s
  | .resumectx => Sys2Proof.Machine.execResumectx s
  | .eventpop => Sys2Proof.Machine.execEventpop s
  | .headgateUnknownCmd => Sys2Proof.Machine.execHeadgateUnknownCmd s
  | .getVersion => Sys2Proof.Machine.execGetVersion s
  | .getCapabilities => Sys2Proof.Machine.execGetCapabilities s
  | .negotiateAlgorithms => Sys2Proof.Machine.execNegotiateAlgorithms s
  | .getDigests => Sys2Proof.Machine.execGetDigests s
  | .getCertificate => Sys2Proof.Machine.execGetCertificate s
  | .challenge => Sys2Proof.Machine.execChallenge s
  | .getMeasurements => Sys2Proof.Machine.execGetMeasurements s
  | .keyExchange => Sys2Proof.Machine.execKeyExchange s
  | .finish => Sys2Proof.Machine.execFinish s
  | .endSession => Sys2Proof.Machine.execEndSession s

end Sys2Proof.Machine
end

