-- ==== Sys2Proof/Machine/Loader.lean ====
section
/-! DEFINITION. The loader's acceptance of a kernel object (spec 03_versions.md R58 to R63, R74; 04_encoding.md R86, R91;
05_registers.md R120; 10_isa_control.md R240; 15_fabric.md R379; 16_tables.md R391 to R395). Which static instructions a
region holds is what R240's walk from the version entry reaches in it (DEDUCED, unsafe: notes/assumptions/46.md).
Where the spec leaves a point open: notes/assumptions, entry 46. -/

namespace Sys2Proof.Machine

/-! ## The object in memory -/

/-- Bytes of an object, as the loader reads them under an ASID; none where they cannot be read, or not now. -/
def objBytes (s : State) (asid : W16) (part va n : Nat) : Option (List Byte) :=
  if va + n > 2 ^ 57 then none else
  match (engineRead s (.sys 0) asid part (n / 4096 + 2) va n).2 with
  | .ok bs => if bs.any (·.2) then none else some (bs.map (·.1))
  | _ => none

/-- An instruction of a section: its address, its two first parcels, its length, its decoding. -/
structure Item where
  at_ : Nat
  p0 : W32
  p1 : W32
  len : Nat
  ins : Instr

/-- The instructions of a line, by its start bits (R85). -/
def lineItems (va : Nat) (l : List W32) : List Item :=
  let starts := bits (l.headD 0).toNat 29 0
  (upFrom 2 30).filterMap fun j => if !bit starts (j - 2) then none else
    let q := fun (i : Nat) => (l[j + i]?).getD 0
    some { at_ := va + 4 * j, p0 := q 0, p1 := q 1, len := formLength (q 0), ins := decodeParcels (q 0) (q 1) (q 2) }

/-- A version section as read: its addresses, its lines with their address, its instructions. -/
structure Section where
  sec : VSec
  lines : List (Nat × List W32)
  items : List Item
  claimx : Nat

/-- The header of a section and its code (R59, R86, R91, R391). -/
def readSection (s : State) (asid : W16) (part base : Nat) (m : Model) : Option Section :=
  (objBytes s asid part base 128).bind fun h =>
    let code := field h 0 8
    let codeb := field h 8 8
    let sites := field h 0x10 8
    let nsite := field h 0x18 4
    let entry := field h 0x1C 4
    let claimx := field h 0x20 4
    if base % 128 != 0 || code < 128 || code % 128 != 0 || codeb % 128 != 0 || sites % 8 != 0 || !((h.drop 0x24).all (· == 0)) ||
      claimx ≥ 2 ^ 20 || (m != .spatial && claimx != 0) then none else
    (objBytes s asid part (base + code) codeb).bind fun cb =>
    (objBytes s asid part (base + sites) (8 * nsite)).bind fun sb =>
      let lines := (List.range (codeb / 128)).map fun i => (base + code + 128 * i, parcelsOf ((cb.drop (128 * i)).take 128))
      let items := lines.flatMap fun l => lineItems l.1 l.2
      let table := (List.range nsite).map fun i => (base + field sb (8 * i) 4, field sb (8 * i + 4) 4)
      let starts := (lines.find? fun l => l.1 + 8 == base + entry).map fun l => bits (l.2.headD 0).toNat 31 30
      if lines.any (fun l => (lineCheck l.2).isSome) || items.any (fun i => match i.ins with
          | .unassignedOpcode _ _ => true
          | _ => false) ||
        table.map (·.1) != items.map (·.at_) || starts != some 2 then none
      else some { lines, items, claimx
                  sec := { code := base + code, codeBytes := codeb, entry := BitVec.ofNat 57 (base + entry), sites := table, eps := [], base } }

/-! ## Static control flow (R87, R240) -/

def Section.item (x : Section) (va : Nat) : Option Item := x.items.find? (·.at_ == va)
def Section.kindAt (x : Section) (va : Nat) : Nat :=
  ((x.lines.find? fun l => l.1 == va / 128 * 128).map fun l => bits (l.2.headD 0).toNat 31 30).getD 3

/-- Where a stream goes past an instruction (R87); none past a final line. -/
def Section.after (x : Section) (i : Item) : Option Nat :=
  let n := i.at_ + 4 * i.len
  if n / 128 == i.at_ / 128 && (x.item n).isSome then some n
  else if x.kindAt i.at_ == 3 then none else some (i.at_ / 128 * 128 + 136)

/-- The places an instruction may pass control to; `both`: BR in both its outcomes whatever its guard, as R240's marking
follows it. -/
def Section.next (x : Section) (both : Bool) (i : Item) : List Nat :=
  match i.ins with
  | .br o =>
    let t := ((i.at_ : Int) + brDisp o).toNat
    if !both && o.p.grd == 0 && o.p.dreg == 0 then [t] else t :: (x.after i).toList
  | .jmp _ => []
  | .ret _ => []
  | .exit o => if o.p.grd == 0 then [] else (x.after i).toList
  | .rett o => if o.p.grd == 0 then [] else (x.after i).toList
  | _ => (x.after i).toList

/-- The EP number of an EP instruction (R245). -/
def epOf (i : Instr) : Option Nat :=
  match i with
  | .ep o => some (bits o.param.toNat 15 0)
  | _ => none

/-- (address, region) of what is reached: `todo` is to be followed. -/
def Section.walk (x : Section) (both : Bool) (nreg : Nat) : Nat → List (Nat × Nat) → List (Nat × Nat) → List (Nat × Nat)
  | 0, _, seen => seen
  | _ + 1, [], seen => seen
  | f + 1, (va, k) :: todo, seen =>
    if seen.contains (va, k) then x.walk both nreg f todo seen else
    match x.item va with
    | none => x.walk both nreg f todo seen
    | some i =>
      let k' := (epOf i.ins).getD k
      let go := if k' < nreg then (x.next both i).map fun t => (t, k') else []
      x.walk both nreg f (go ++ todo) ((va, k) :: seen)

/-- What the version entry reaches, with its region. -/
def Section.reached (x : Section) (nreg : Nat) : List (Nat × Nat) :=
  x.walk false nreg (3 * x.items.length * nreg + 3) [(x.sec.entry.toNat, 0)] []
/-- Called code: what the entry lines other than the version entry's reach (R240). -/
def Section.called (x : Section) : List Nat :=
  let roots := (x.lines.filter fun l => bits (l.2.headD 0).toNat 31 30 == 2 && l.1 + 8 != x.sec.entry.toNat).map fun l => (l.1 + 8, 0)
  (x.walk true 65536 (3 * x.items.length * (x.items.length + 1) + roots.length + 3) roots []).map (·.1)

/-! ## What an instruction is, statically -/

/-- Its bit of a FORMS word (R395). -/
def formBit (i : Instr) : Nat :=
  match i with
  | .atom _ => 1
  | .red o => if aAop o ≥ 9 then 4 else 2
  | .waita _ => 8
  | .launch _ | .arm _ | .send _ => 16
  | .tfetchM _ => 32
  | .cntr _ | .cntc _ => 64
  | _ => 0

/-- The two slots of a split accumulator. -/
def splitSlots (k : Nat) : List Nat := [2 * k, 2 * k + 1]

/-- Accumulator slots an instruction writes, or whose pair its agreement register is (R63, R227); tile slots it fills, but
for TFETCH.R, which is not visible (R214). -/
def slotsWritten (i : Instr) : List Nat × List Nat × List Nat :=
  match i with
  | .mma o => ([bits o.param.toNat 27 25], [], [])
  | .mmas o => (splitSlots (bits o.param.toNat 27 25), [], [])
  | .azero o => (if o.p.dreg.toNat < 8 then [o.p.dreg.toNat] else splitSlots (o.p.dreg.toNat - 8), [], [])
  | .ald o => ([bits o.param.toNat 31 29], [], [])
  | .drn o => ([], if bits o.param.toNat 31 29 ≥ 4 then [bits o.param.toNat 28 26] else [], [])
  | .agset o => ([], [o.p.dreg.toNat], [])
  | .tfetch o | .tfetchM o => ([], [], [bits o.param.toNat 31 29])
  | _ => ([], [], [])

/-- Whether an instruction is visible in a sealed region by its form alone (R63). -/
def visibleForm (r : Region) (i : Instr) : Bool :=
  let (acc, ag, tb) := slotsWritten i
  let marked := fun (o : MOp) => o.order != 0 && mWide o
  acc.any (fun j => !bit r.amask j) || ag.any (fun k => !bit r.amask (2 * k) && !bit r.amask (2 * k + 1)) || tb.any (fun k => !bit r.tmask k) ||
  match i with
  | .ticket _ | .waita _ | .cflush _ | .send _ | .launch _ | .arm _ => true
  | .fence o => mWide o || o.ofs.getLsbD 20
  | .ld o | .st o | .ldl o | .stl o | .ldp o | .stp o | .ldg o | .sts o => marked o
  | .bari o | .bara o | .barw o | .barl o => barGlb o
  | .grow _ | .shrink _ => true
  | _ => false

/-- Masks of core-held registers. -/
structure Held where
  acc : Nat := 0
  tb : Nat := 0
  ag : Nat := 0
  cv : Nat := 0
  q : Nat := 0

def Held.accs (h : Held) (js : List Nat) : Held :=
  js.foldl (fun h j => if j < 8 then { h with acc := h.acc ||| 2 ^ j, ag := h.ag ||| 2 ^ (j / 2) } else h) h
def Held.tile (h : Held) (k : Nat) : Held := if k < 8 then { h with tb := h.tb ||| 2 ^ k } else h
def Held.agree (h : Held) (k : Nat) : Held := if k < 4 then { h with ag := h.ag ||| 2 ^ k } else h
def Held.conv (h : Held) (k : Nat) : Held := if k < 16 then { h with cv := h.cv ||| 2 ^ k } else h

/-- The core-held registers an instruction of a version names (R120). -/
def Held.names (m : Model) (h : Held) (i : Instr) : Held :=
  let mm := fun (o : POp) (acc : List Nat) =>
    let p := o.param.toNat
    let h := ((h.accs acc).tile (bits p 24 22)).tile (bits p 21 19)
    if m == .threaded then h.conv (bits p 31 28) else h
  match i with
  | .mma o => mm o [bits o.param.toNat 27 25]
  | .mmas o => mm o (splitSlots (bits o.param.toNat 27 25))
  | .azero o => h.accs (if o.p.dreg.toNat < 8 then [o.p.dreg.toNat] else splitSlots (o.p.dreg.toNat - 8))
  | .ald o | .ast o => h.accs [bits o.param.toNat 31 29]
  | .drn o => h.accs (if bits o.param.toNat 31 29 == 0 then [bits o.param.toNat 28 26] else splitSlots (bits o.param.toNat 28 26))
  | .agset o => h.agree o.p.dreg.toNat
  | .agget o => h.agree o.p.srcA.toNat
  | .tfetch o | .tfetchM o | .tfetchR o => h.tile (bits o.param.toNat 31 29)
  | .trel o => h.tile o.p.srcA.toNat
  | .cvset o | .cvsign o => h.conv o.p.dreg.toNat
  | .strm o => { h with q := h.q ||| 2 ^ bits o.param.toNat 31 28 }
  | .fwait o => if bits o.param.toNat 31 28 == 1 then { h with q := h.q ||| 2 ^ bits o.param.toNat 23 20 } else h
  | _ => h

/-- CLAIMX of a spatial section (R391). -/
def Held.claimx (h : Held) (x : Nat) : Held :=
  let h := h.accs ((List.range 8).filter fun j => bit x j)
  { h with tb := h.tb ||| bits x 15 8, ag := h.ag ||| bits x 19 16 }

/-! ## Region table (R62, R392) -/

def parseRow (b : List Byte) : Option (Region × Nat × Nat) :=
  let n := fun (o k : Nat) => field b o k
  let nlw := n 0x11 1
  let lw := (List.range 8).map fun i => (n (0x20 + 8 * i) 4, n (0x24 + 8 * i) 4)
  let ok := n 0 1 ≤ 1 && n 1 1 ≤ 3 && n 8 4 % 64 == 0 && 1 ≤ n 0x0E 1 && n 0x0E 1 ≤ 6 && n 0x0F 1 ≤ 32 && n 0x10 1 % 8 == 0 &&
    8 ≤ n 0x10 1 && n 0x10 1 ≤ 64 && nlw ≤ 8 && (n 0 1 == 1 || nlw == 0) && n 0x12 2 ≤ 4096 && (n 0x12 2 != 0 || n 0x14 4 == 0) &&
    n 0x18 8 == 0 && (b.drop 0x60).all (· == 0) && (lw.drop nlw).all (· == (0, 0))
  if !ok then none else
  some ({ sealed := n 0 1 == 1, scope := n 1 1, bev := [n 2 2, n 4 2, n 6 2], snap := n 8 4, amask := n 0x0C 1, tmask := n 0x0D 1
          span := n 0x0E 1, vcnt := n 0x0F 1, gbud := n 0x10 1, lwset := lw.take nlw, resume := [] }, n 0x12 2, n 0x14 4)

/-! ## Equivalence map (R74, R393, R394) -/

def parseLoc (x : Nat) : Loc := { lk := bits x 63 56, reg := bits x 55 48, fld := bits x 47 40, base := bits x 39 20, str := bits x 19 0 }

/-- The location table of R74: what one version may hold of an entry. -/
def locOk (m : Model) (e : MapEntry) (l : Loc) : Bool :=
  match e.ekind, l.lk with
  | 0, 1 => match m with
    | .threaded => l.reg < if e.width == 3 then 32 else 64
    | .vector => l.reg < if e.width == 3 then 31 else 32
    | .spatial => false
  | 0, 2 => true
  | 0, 3 => m == .spatial && l.base < 384 && l.fld < 0x0E
  | 1, 1 => match m with
    | .threaded => l.reg < if e.width == 3 then 32 else 64
    | .vector => l.reg < 32
    | .spatial => false
  | 1, 2 => m == .spatial && l.str == 0
  | 1, 3 => m == .spatial && l.base < 384 && l.fld < 0x0E
  | 2, 4 => 1 ≤ l.reg && l.reg ≤ 7
  | 2, 2 => l.str == 0
  | 3, 2 => l.str == 0
  | _, _ => false

def parseEntry (b : List Byte) (here : Model → Bool) : Option MapEntry :=
  let kind := field b 0 1
  let e : MapEntry := { ekind := kind, width := field b 1 1, type := field b 2 1, len := field b 4 4
                        locs := [parseLoc (field b 8 8), parseLoc (field b 0x10 8), parseLoc (field b 0x18 8)] }
  let ms := [Model.threaded, .vector, .spatial]
  let ok := kind ≤ 3 && (if kind < 2 then e.width ≤ 3 else e.width == 0) && e.type ≤ 5 && field b 3 1 == 0 && (kind == 3 || e.len == 0) &&
    ms.all (fun m => if here m then locOk m e (e.loc m) else (e.loc m).lk == 0) &&
    (kind != 3 || (((ms.filter here).map fun m => (e.loc m).base).eraseDups).length ≤ 1)
  if ok then some e else none

/-- The fixed extent of an entry in a version (R74): class 0 rows of g, 1 v, 2 s, 3 p, 4 cell fields, 5 local bytes. -/
def fixedExtent (m : Model) (e : MapEntry) : Option (Nat × Nat × Nat) :=
  let l := e.loc m
  match l.lk with
  | 1 => match m, e.ekind with
    | .threaded, _ => some (if e.width == 3 then (0, 2 * l.reg, 2) else (0, l.reg, 1))
    | _, 0 => some (1, l.reg, if e.width == 3 then 2 else 1)
    | _, _ => some (2, l.reg, 1)
  | 2 => if e.ekind == 1 then some (5, l.base, e.bits_ / 8) else if e.ekind == 3 then some (5, l.base, e.len) else none
  | 3 => some (4, 64 * l.base + l.fld, if isHalves l.fld then 2 else 1)
  | 4 => some (3, l.reg, 1)
  | _ => none

def extentsMeet (a b : Nat × Nat × Nat) : Bool := a.1 == b.1 && a.2.1 < b.2.1 + b.2.2 && b.2.1 < a.2.1 + a.2.2

/-- The entries of one EP: one liveness entry, no two fixed extents of a present version overlap. -/
def entriesOk (here : Model → Bool) (es : List MapEntry) : Bool :=
  (es.filter fun e => e.ekind == 2).length == 1 &&
    [Model.threaded, .vector, .spatial].all fun m => !here m || !anyPair extentsMeet (es.filterMap (fixedExtent m))

/-- All of a list's answers, or none. -/
def allSome {α : Type} : List (Option α) → Option (List α)
  | [] => some []
  | none :: _ => none
  | some a :: r => (allSome r).map (a :: ·)

/-- The equivalence map of an object with `nep` EPs. -/
def readMap (s : State) (asid : W16) (part addr emap nep : Nat) (here : Model → Bool) : Option (List (List MapEntry)) :=
  allSome ((List.range nep).map fun k =>
    (objBytes s asid part (addr + emap + 8 * k) 8).bind fun w =>
      if field w 6 2 != 0 then none else
      let n := field w 4 2
      (objBytes s asid part (addr + field w 0 4) (32 * n)).bind fun b =>
        (allSome ((List.range n).map fun i => parseEntry ((b.drop (32 * i)).take 32) here)).bind fun es =>
          if entriesOk here es then some es else none)

/-! ## The object (R58, R59, R240, R379, R395) -/

/-- The promise that follows from the FORMS words of the present sections (R395): 0 NONE, 1 ORDERED, 2 FREE. -/
def promiseOf (forms : List Nat) : Nat :=
  if forms.all (· == 0) then 2 else if forms.all fun f => !bit f 3 && !bit f 5 && !bit f 6 then 1 else 0

/-- The EPs of a section with the address past each. -/
def Section.epTable (x : Section) : List (Nat × VAddr) :=
  x.items.filterMap fun i => (epOf i.ins).map fun k =>
    (k, BitVec.ofNat 57 ((x.after i).getD (i.at_ / 128 * 128 + 136)))

/-- The rules on one section: no EP in called code, no visible form in a sealed region. -/
def sectionOk (regions : List Region) (x : Section) : Bool :=
  let called := x.called
  x.items.all (fun i => (epOf i.ins).isNone || !called.contains i.at_) &&
    (x.reached regions.length).all fun r =>
      match regions[r.2]?, x.item r.1 with
      | some g, some i => !g.sealed || !visibleForm g i.ins
      | _, _ => true

/-- The site ids of a region in a section. -/
def siteSet (x : Section) (nreg k : Nat) : List Nat :=
  sortBy id ((((x.reached nreg).filter fun r => r.2 == k).filterMap fun r => (x.sec.sites.find? fun e => e.1 == r.1).map (·.2)).filter (· != 0)).eraseDups

/-- The loader's result for the object at an address under an ASID; none for a rejection. -/
def loadObject (s : State) (asid : W16) (part addr : Nat) : Option KObj :=
  (objBytes s asid part addr 64).bind fun h =>
    let n := fun (o k : Nat) => field h o k
    let nep := n 6 2
    let defv := n 5 1
    let offs := [n 8 8, n 0x10 8, n 0x18 8]
    let here := fun (m : Model) => (offs[m.code - 1]?).getD 0 != 0
    let present := offs.filter (· != 0)
    let emap := n 0x28 8
    if addr % 128 != 0 || n 0 4 != 0x00544B4F || n 4 1 != 1 || defv == 0 || defv > 3 || nep > 65534 || n 0x38 8 != 0 ||
      !here (Model.ofCode defv) || (emap == 0 && present.length != 1) then none else
    (allSome ((List.range (nep + 1)).map fun k => (objBytes s asid part (addr + n 0x20 8 + 128 * k) 128).bind parseRow)).bind fun rows =>
    (allSome (([Model.threaded, .vector, .spatial].filter here).map fun m =>
      (readSection s asid part (addr + (offs[m.code - 1]?).getD 0) m).map fun x => (m, x))).bind fun secs =>
    (allSome (rows.map fun r => if r.2.1 == 0 then some [] else
      if !here .spatial then none else
      (objBytes s asid part (addr + n 0x18 8 + r.2.2) (4 * r.2.1)).map fun b =>
        (List.range r.2.1).map fun i => BitVec.ofNat 32 (field b (4 * i) 4))).bind fun cfgs =>
    (objBytes s asid part (addr + n 0x30 8) 64).bind fun d =>
    (if emap == 0 then some [] else readMap s asid part addr emap nep here).bind fun map =>
      let regions := (rows.zip cfgs).map fun (r, c) => { r.1 with resume := c }
      let forms := fun (m : Model) => ((secs.find? fun x => x.1 == m).map fun x => x.2.items.foldl (fun f i => f ||| formBit i.ins) 0).getD 0
      let promise := promiseOf (secs.map fun x => forms x.1)
      let sameSites := (List.range regions.length).all fun k => !((regions[k]?).map (·.sealed)).getD false ||
        ((secs.map fun x => siteSet x.2 regions.length k).eraseDups).length ≤ 1
      let ok := field d 0 1 == promise && (d.drop 1).take 7 == List.replicate 7 0#8 && (d.drop 0x20).all (· == 0) &&
        [Model.threaded, .vector, .spatial].all (fun m => field d (8 * m.code) 8 == forms m) &&
        secs.all (fun x => sectionOk regions x.2) && sameSites && cfgs.all fun c => mergeOk (c.foldl Fabric.apply {})
      if !ok then none else
      let held := secs.foldl (fun (h : Held) x => (x.2.items.foldl (fun h i => Held.names x.1 h i.ins) h).claimx x.2.claimx) {}
      some { asid, addr, defv, nep, regions, map, promise
             vsecs := [Model.threaded, .vector, .spatial].map fun m => (secs.find? fun x => x.1 == m).map fun x => { x.2.sec with eps := x.2.epTable }
             claim := { acc := BitVec.ofNat 8 held.acc, tb := BitVec.ofNat 8 held.tb, ag := BitVec.ofNat 4 held.ag
                        cv := BitVec.ofNat 16 held.cv, q := BitVec.ofNat 16 held.q } }

/-- The loader is given an object: accepted, it is known by its address from now on (R58). -/
def loaderAccept (s : State) (asid : W16) (part addr : Nat) : State :=
  match loadObject s asid part addr with
  | some o => if s.objects.getLast? == some o then s else { s with objects := s.objects ++ [o] }
  | none => s

end Sys2Proof.Machine
end

