-- ==== Sys2Proof/Machine/Turns.lean ====
section
/-! DEFINITION. The turns that are no instruction and no event of the table: cycles that pass (R246, R404, R407, R79),
frames that arrive (R455, R461), an Ethernet link that comes up (R443).
Where the spec leaves a point open: notes/assumptions, entries 2, 26, 51. -/

namespace Sys2Proof.Machine

/-- Results that AGGETs in the matrix queues of a block's cores still owe. -/
def aggetOwes (s : State) (c sl : Nat) : List Nat :=
  (blockCores s c sl).flatMap fun x => (coreOf s x).mq.filterMap fun e => match e.op with
    | .agget _ n _ => if e.slot == sl then some n else none
    | _ => none

/-- The stall cause of a block in a cycle it does not issue (R79), as a meter index: 3 operand, 4 memory, 5 barrier or
wait, 6 SFU, 7 matrix, 8 fabric, 9 window. None when a stream is ready. What waits on a queue's head, or on a full queue,
of the matrix unit is a matrix stall in every version (R209, R233); of several causes the unit that is named first here
is charged (DESIGN CHOICE, unsafe: notes/assumptions/51.md). -/
def stallMeter (s : State) (c sl : Nat) (b : Block) : Option Nat :=
  let id := CtxId.blk c sl
  let ws := b.streams.map b.waitOf
  if b.exec.sealedWait.isSome then some 9
  else if b.exec.model == .spatial && b.exec.ctl.done then some 8
  else if ws.isEmpty || ws.any (· == 0) then none
  else if ws.any (· == 1) then
    if s.pending.any fun p => p.ctx == id && p.sfu then some 6
    else
      let owed := aggetOwes s c sl
      if s.pending.any (fun p => p.ctx == id && !owed.contains p.id) || s.walks.any (fun w => w.ctx == id) then some 4
      else if !owed.isEmpty then some 7 else some 3
  else if ws.any (· == 10) then
    let at_ := (b.streams.filter fun t => b.waitOf t == 10).map fun t => (standsAt b t).1
    if at_.any fun o => 0xD0 ≤ o && o ≤ 0xDB then some 7
    else if at_.any fun o => 0xF8 ≤ o && o ≤ 0xFD then some 8
    else if s.pending.any fun p => p.ctx == id && p.sfu then some 6 else some 5
  else some 5

/-- Cycles charged to one block of a core (R407, R410), `k` cores of it. -/
def chargeCycles (s : State) (c sl n k : Nat) (b : Block) : State :=
  let ctr := b.exec.model.code - 1
  chargeBlock s c sl ctr (n * k) (n * k * ewtOf s 0)

/-- One block as `n` cycles pass: watchdog counts (R246) and stall cycles (R79). -/
def tickBlock (s : State) (c sl n : Nat) (b : Block) : State :=
  let issued := if b.issuedAt == s.cycle && s.cycle != 0 then 1 else 0
  -- gated cycles are no stall cycles (R465)
  let s := match stallMeter s c sl b with
    | some i => modBlock s c sl fun b => b.addMeter i (n * (coreOf s c).gate / 16 - issued)
    | none => s
  if b.exec.model == .threaded && b.phase == .running then
    -- a member whose own part is done waits with its bundle; nothing counts while the EP waits for a window
    let held := (b.exec.bundles.filter fun u => u.members.any fun t => (threadOf b t).wait != 0).flatMap (·.members)
    if b.exec.sealedWait.isSome then s else
    modBlock s c sl fun b => b.modThreads b.liveThreads fun i t =>
      if (t.wait == 0 && !held.contains i) || t.wait == 4 || t.wait == 5 then
        { t with wdog := t.wdog + BitVec.ofNat 32 (n - if t.issuedAt == s.cycle && s.cycle != 0 then 1 else 0) } else t
  else s

/-- The block a lane-mode core's cycles are charged to when none issued: the lowest slot with a stream left (R407). -/
def chargedSlot (k : Core) : Option (Nat × Block) :=
  (k.slots.filter fun e => !e.2.streams.isEmpty && e.2.phase == .running).head?

/-- `n` core cycles pass. -/
def tick (s : State) (n : Nat) : State :=
  let s := s.cores.foldl (fun s (c, k) =>
    let s := k.slots.foldl (fun s (sl, b) => tickBlock s c sl n b) s
    match k.fabricOf with
    | some (hc, hs) => match blockOf s hc hs with
      | some b => chargeCycles s hc hs n 1 b
      | none => s
    | none =>
      let one := k.slots.find? fun e => e.2.issuedAt == s.cycle && s.cycle != 0
      let s := match one with
        | some (sl, b) => if n == 0 then s else chargeCycles s c sl 1 1 b
        | none => s
      let left := if one.isSome then n - 1 else n
      match chargedSlot k with
      | some (sl, b) => chargeCycles s c sl left 1 b
      | none => s) s
  if n == 0 then s else endAborts { s with cycle := s.cycle + n }

/-- The place whose access an event carries out (R407). -/
def causer (s : State) (i : Instr) : Option CtxId :=
  match i with
  | .sliceWrite n => (s.path.find? (·.id == n)).map (·.ctx)
  | .suuAtomic n => (s.path.find? (·.id == n)).map (·.ctx)
  | .culvertChunk c e => ((Table.getD (coreOf s c).culvert e []).head?).map fun l => .blk c l.slot
  | .tileFetchPerform c => ((coreOf s c).tfq.head?).map fun f => .blk c f.slot
  | .pageWalk n => (s.walks.find? (·.id == n)).map (·.ctx)
  | .accRowTransfer c sl | .drnRowExecute c sl | .blockRetirement c sl | .ticketGrant c sl | .trapDelivery c sl
  | .preemption c sl | .streamWindowFill c sl _ | .streamInputSend c sl _ | .streamOutputWrite c sl _
  | .matrixPortIssue c sl _ | .arriveForward c sl _ | .cellFire c sl _ => some (.blk c sl)
  | _ => none

/-- After an event in `s0`: its channel traffic is charged to the block that caused it (R407). -/
def afterEvent (s0 : State) (i : Instr) (s : State) : State := blame s0 s (causer s0 i)

/-- A Headgate frame joins the queue of frames (R455). -/
def frameArrives (s : State) (cmd : Nat) (q : HgReq) : State :=
  modIod s fun i => { i with headgate := { i.headgate with queue := i.headgate.queue ++ [(cmd, q)] } }
/-- An SPDM request joins the responder's queue (R461). -/
def spdmArrives (s : State) (req : List Byte) : State := modIod s fun i => { i with spdmIn := i.spdmIn ++ [req] }
/-- An Ethernet link comes up (R443). -/
def ethComesUp (s : State) (p : Nat) : State :=
  modIod s fun i => { i with eth := Table.set i.eth p { Table.getD i.eth p {} with up := true } }

end Sys2Proof.Machine
end

