-- ==== Sys2Proof/Machine/Step.lean ====
section
/-! DEFINITION. One step of the package: the next turn of the agenda, or the current stream's next instruction.
Where the spec leaves a point open: notes/assumptions, entries 2, 14, 51. -/

namespace Sys2Proof.Machine

/-- The current stream enters its next instruction: its line (R88), decoding, its meaning, what follows an issue. A
stream that cannot issue leaves the state as it is. -/
def issue (s : State) : Host.Outcome State Fault Refusal :=
  match cxOf s with
  | none => .fault .noStream
  | some cx =>
    if !canIssue s cx then .next s else
    match fetchBytes s cx with
    | (s1, none) => .next (afterIssue s s1 cx)
    | (s1, some bs) => match decode bs with
      | .error _ => .refused .undecodable
      | .ok (i, _) => match exec i s1 with
        | .next s2 => .next (afterIssue s s2 cx)
        | r => r

/-- The issue unit goes through the issuers until one issues (R49); what the others began in their operands' or wait's
place stays begun. -/
def issueFirst (s : State) : List Issuer → Host.Outcome State Fault Refusal
  | [] => .next s
  | i :: r => match cxOf { s with cur := i } with
    | none => issueFirst s r
    | some cx => match issue { s with cur := i } with
      | .next s1 => if issued s s1 cx then .next s1 else issueFirst s1 r
      | x => x

/-- A core's issue unit chooses by R49 and issues, once a cycle. -/
def lane (s : State) (c : Nat) : Host.Outcome State Fault Refusal :=
  if laneUsed s c then .next s else issueFirst s (issueOrder s c)

/-- One step. -/
def step (s : State) : Host.Outcome State Fault Refusal :=
  match s.agenda with
  | [] => issue s
  | t :: r =>
    let s := { s with agenda := r }
    match t with
    | .issue i => match laneOf s i with
      | some c => lane s c
      | none => issue { s with cur := i }
    | .lane c => lane s c
    | .event i => match exec i s with
      | .next s1 => .next (afterEvent s i s1)
      | r => r
    | .tick n => .next (tick s n)
    | .frame cmd q => .next (frameArrives s cmd q)
    | .spdm req => .next (spdmArrives s req)
    | .accept asid part addr => .next (loaderAccept s asid part addr)
    | .ethUp p => .next (ethComesUp s p)
    | .upset l => .next { s with memPoison := mark s.memPoison l true }
    | .merge a b => .next (mergeOps s a b)

/-- A code line of kind entry that holds the words of an instruction from parcel 2 on. -/
def lineWith (nbits w : Nat) : List W32 :=
  [0xBFFFFFFF#32, 0#32] ++ (List.range 30).map fun j => BitVec.ofNat 32 (w % 2 ^ nbits / 2 ^ (32 * j))

/-- System core 0 runs and stands at parcel 2 of a line it has entered, which holds the instruction: the next step
decodes and executes it (DEDUCED, unsafe: notes/assumptions/14.md says how a program comes to run from reset). -/
def State.withFetchWord (s : State) (nbits w : Nat) : State :=
  modSys { s with agenda := [], cur := .sys 0 } 0 fun y =>
    { y with ctl := { y.ctl with halted := false, wait := 0, pc := 8, line := some (lineWith nbits w) } }

end Sys2Proof.Machine
end

