-- ==== Sys2Proof/Safety.lean ====
section
/-! DEFINITION. The terms claims use: when a step goes on, when an instruction enters with its operands, what a register
reads as, what a step leaves unchanged. -/

namespace Sys2Proof.Machine

/-- A step that goes on: no fault and no refusal. -/
def goesOn (s : State) : Prop := ∃ t, step s = .next t

/-- The current stream is `cx` and enters an instruction that decodes as `d`: it is legal where it stands (R113, R115),
the operands of every acting lane are there, valid and unpoisoned (R103, R123), `rs` are the acting lanes with their
values; no latch operand of a control stream is invalid (R103), and the instruction does not end a final line (R87). -/
structure Enters (s : State) (cx : Cx) (d : Dec) (rs : List (Nat × List Nat)) : Prop where
  here : cxOf s = some cx
  legal : cx.decodeTrap s d = none
  reads : ((cx.lanes s d).filter fun l => cx.pbit s d.p.grd.toNat l).map (fun l => (l, cx.readLane s d.imm d.srcs l)) =
    rs.map fun r => (r.1, LaneRd.vals r.2)
  latches : cx.isT = false → ∀ i x, d.srcs[i]? = some x → isLatchSpec x.n = true → cx.read s d.imm i 0 x ≠ Rd.inval
  goes : (fallNext cx.line cx.pc d.len).2 = false

/-- What gN of a thread, sN of a control context, or an element of vN reads as. -/
def Cx.reg (cx : Cx) (s : State) (cls : Cls) (n lane : Nat) : Nat :=
  match cls with
  | .g => ((cx.mem s).g lane n).toNat
  | .s => ((cx.ctl s).s n).toNat
  | .v => ((cx.mem s).v n lane).toNat

/-- The register classes a context has (R116). -/
def Kind.has : Kind → Cls → Bool
  | .T, c => c == .g
  | .V, c => c != .g
  | _, c => c == .s

/-- Register `n` of class `cls` takes the values `vals` (by lane), of which it holds W bits (R132), and nothing else of the registers of the stream's place
changes: no other register, no other lane of it, no predicate. With NWB no register changes at all (R95). -/
structure Cx.Writes (cx : Cx) (s t : State) (cls : Cls) (n : Nat) (nwb : Bool) (vals : List (Nat × Nat)) : Prop where
  written : nwb = false → ∀ r ∈ vals, cx.reg t cls n r.1 = r.2 % 2 ^ widthOf cls
  others : ∀ c m l, cx.kind.has c = true → m < 64 → (c = .v → l < 256) →
    (c = cls → nwb = true ∨ m ≠ n ∨ (cls ≠ .s ∧ ∀ r ∈ vals, r.1 ≠ l)) → cx.reg t c m l = cx.reg s c m l
  preds : ∀ m i, cx.pbit t m i = cx.pbit s m i

/-- Predicate `n` takes the conditions `vals` (by lane) as R142 says for class `cls`: a thread's or element's own bit, all
256 bits for class s in a block, the single bit in supervisor code and on a system core. No other predicate bit and no
register changes. -/
structure Cx.PredWrites (cx : Cx) (s t : State) (cls : Cls) (n : Nat) (vals : List (Nat × Bool)) : Prop where
  written : ∀ r ∈ vals, ∀ i, (if cls == .s then i < 256 else i = r.1) → cx.pbit t n i = r.2
  others : ∀ m i, (m ≠ n ∨ (cls ≠ .s ∧ ∀ r ∈ vals, r.1 ≠ i) ∨ vals = []) → cx.pbit t m i = cx.pbit s m i
  regs : ∀ c m l, cx.kind.has c = true → cx.reg t c m l = cx.reg s c m l

/-- What an instruction that writes registers only leaves as it was: all of memory, caches and units, the local and
private bytes, every other block and context, and of the stream's own place everything but its registers (g, d, s, v,
predicates), FSTAT, its streams' progress, the charges and meters of the issue. -/
structure Cx.Keeps (cx : Cx) (s t : State) : Prop where
  package : { t with cores := s.cores, sys := s.sys, pending := s.pending } = s
  cores : ∀ d, { coreOf t d with slots := (coreOf s d).slots, sup := (coreOf s d).sup } = coreOf s d
  blocks : ∀ d sm, cx.id ≠ .blk d sm → blockOf t d sm = blockOf s d sm
  sups : ∀ d, cx.id ≠ .sup d → (coreOf t d).sup = (coreOf s d).sup
  syss : ∀ n, cx.id ≠ .sys n → sysOf t n = sysOf s n
  ownSys : ∀ n, { sysOf t n with ctl := (sysOf s n).ctl, retired := (sysOf s n).retired } = sysOf s n
  ownBlk : (cx.blk t).map (fun b => { b with exec := {}, mem := {}, regs := {}, charges := {}, meters := [] }) =
    (cx.blk s).map fun b => { b with exec := {}, mem := {}, regs := {}, charges := {}, meters := [] }
  ownMem : { cx.mem t with rows := [], rowPoison := [], preds := [] } = { cx.mem s with rows := [], rowPoison := [], preds := [] }
  ownRegs : { cx.regs t with fstat := 0 } = { cx.regs s with fstat := 0 }
  ownIntr : (cx.ctl t).intr = (cx.ctl s).intr
  ownHandler : (cx.ctl t).handler = (cx.ctl s).handler

/-- The current stream is a vector stream `cx` that enters a vector-only instruction `d` (R146): legal where it stands,
every element of every operand there, valid and unpoisoned, `rd i e` the value of operand `i` at element `e`. -/
structure EntersVec (s : State) (cx : Cx) (d : Dec) (rd : Nat → Nat → Nat) : Prop where
  here : cxOf s = some cx
  legal : cx.decodeTrap s d = none
  reads : ∀ i x, d.srcs[i]? = some x → ∀ e < 256, cx.read s d.imm i e x = .val (rd i e) false
  goes : (fallNext cx.line cx.pc d.len).2 = false

/-! ## Frames -/

/-- No register, predicate or system register of the stream's place changes. -/
structure Cx.SameRegs (cx : Cx) (s t : State) : Prop where
  regs : ∀ c m l, cx.kind.has c = true → cx.reg t c m l = cx.reg s c m l
  preds : ∀ m i, cx.pbit t m i = cx.pbit s m i
  own : cx.regs t = cx.regs s

/-- No other block, supervisor context or system core changes. -/
structure Cx.Only (cx : Cx) (s t : State) : Prop where
  blocks : ∀ d sm, cx.id ≠ .blk d sm → blockOf t d sm = blockOf s d sm
  sups : ∀ d, cx.id ≠ .sup d → (coreOf t d).sup = (coreOf s d).sup
  syss : ∀ n, cx.id ≠ .sys n → (sysOf t n).ctl = (sysOf s n).ctl

/-- Where a stream stands, and the kind of its wait (R478). -/
def Cx.pcOf (cx : Cx) (s : State) (l : Nat) : VAddr :=
  match cx.id with
  | .blk c sl => ((blockOf s c sl).map fun b => b.pcOf l).getD 0
  | id => ((ctlOf s id).map (·.pc)).getD 0
def Cx.waitOf (cx : Cx) (s : State) (l : Nat) : Nat :=
  match cx.id with
  | .blk c sl => ((blockOf s c sl).map fun b => b.waitOf l).getD 0
  | id => ((ctlOf s id).map (·.wait.toNat)).getD 0

/-- No line is owned by a core, no dirty bitmap is on, nobody waits on a line, nothing is poisoned: an access has no effect
but its own. -/
structure Calm (s : State) : Prop where
  owners : ∀ line, (tagOf s line).bind (·.own) = none
  bitmaps : ∀ e ∈ s.iod.funcs, e.2.dten = false
  monitors : ∀ e ∈ s.cores, e.2.monitors = []
  poison : ∀ line, linePoisoned s line = false

/-- The numbers given out lie below the next one: an invariant of every step. -/
def Numbered (s : State) : Prop := ∀ p ∈ s.pending, p.id < s.nextId

/-- One word of a register by its key (`LoadForm.keysOf`). -/
def Cx.cell (cx : Cx) (s : State) (cls : Cls) (k : Nat) : Nat :=
  match cls with
  | .s => ((cx.ctl s).s (k - sKey 0)).toNat
  | _ => (Store.get (cx.mem s).rows k).toNat
/-- The key of a register's word in a lane. -/
def regKey (cls : Cls) (m l : Nat) : Nat :=
  match cls with
  | .g => gKey l m
  | .s => sKey m
  | .v => vKey m l

/-- The registers of a result's form take the values `vals` (by lane), in words from the lowest register (R117, R293); no
other register and no predicate changes. -/
structure Cx.Loaded (cx : Cx) (s t : State) (f : LoadForm) (vals : List (Nat × Nat)) : Prop where
  written : ∀ r ∈ vals, ∀ i k, (f.keysOf r.1)[i]? = some k → cx.cell t f.cls k = r.2 / 2 ^ (widthOf f.cls * i) % 2 ^ widthOf f.cls
  others : ∀ c m l, cx.kind.has c = true → m < 64 → (c = .v → l < 256) →
    (c = f.cls → ∀ r ∈ vals, regKey c m l ∉ f.keysOf r.1) → cx.reg t c m l = cx.reg s c m l
  preds : ∀ m i, cx.pbit t m i = cx.pbit s m i

/-- Where an access of width `wid` lies, each piece with its physical address; none where a translation fails. -/
def Cx.placed (cx : Cx) (s : State) (wid kind : Nat) (a : Acc) : List Piece :=
  match cx.translateAcc s wid kind a with
  | .ok l => l
  | _ => []

/-- The accesses of an instruction pass every check of R264: alignment, range, rights, translation; their slices serve;
nothing the stream has begun holds them up. -/
structure Cx.Passes (cx : Cx) (s : State) (wid kind : Nat) (accs : List Acc) : Prop where
  checks : ∀ a ∈ accs, cx.checkAcc s wid kind a = none
  lies : ∀ a ∈ accs, cx.translateAcc s wid kind a = .ok (cx.placed s wid kind a)
  serves : ∀ a ∈ accs, a.sp ≠ .loc → ∀ q ∈ cx.placed s wid kind a, unserved s q.pa (coreOfCtx cx.id) = false
  free : outsideRead s cx.id = false
  rows : ∀ a ∈ accs, cx.rowOwed s wid kind a = false

/-- A piece lies in package memory, within one line, of which neither the place's cache nor its die's remote-data cache has
a copy. -/
def Cx.Cold (cx : Cx) (s : State) (q : Piece) : Prop :=
  isPackage q.pa = true ∧ q.pa % 128 + q.n ≤ 128 ∧ frameOf s cx.id (q.pa / 128) = none ∧ rdcOf s (dieOf cx.id) (q.pa / 128) = none

/-- A release at .blk has no atomic of the place to wait for (R324, R331). -/
def Cx.Clear (cx : Cx) (s : State) (o : MOp) : Prop := mRel o = true → mWide o = false → cx.atomUnsent s 0 = false

/-- A line can be written at its home slice at once: a tag or a way for it, and a Pond entry. -/
def Room (s : State) (line : Nat) : Prop :=
  ((tagOf s line).isSome ∨ ((sliceOf s (sliceOfLine line)).tags.filter fun e => setOfLine e.1 == setOfLine line).length < 12) ∧
    (sliceOf s (sliceOfLine line)).freeEntry.isSome

/-! ## The decoding of the forms -/

/-- What decoding fixes of an ALU function of form R (R93, R97, R108), whatever it computes. -/
def rDec (o : ROp) (c : Cls) (two payload : Bool) : Dec := (rAlu o c two (fun _ => (0, 0)) payload).d
/-- What decoding fixes of an ALU function of form X (R99, R108) with `n` sources, read as floats of format `flt` or as
integers; `ok` are the function's rules on its X parcel. -/
def xDec (o : XOp) (c : Cls) (n : Nat) (flt : Option Nat) (ok payload : Bool) (sfu : Bool := false) (dst : Dst := .reg (rcOf c)) : Dec :=
  (xAlu o c n flt ok (fun _ => (0, 0)) payload sfu dst).d
/-- PLOG's decoding (R143). -/
def plogDec (o : XOp) (c : Cls) : Dec :=
  { valid := clsValid c false, p := o.p, len := 2, dst := .pred, transparent := true, perElem := c == .v,
    ok := xIntOk o false true && o.z == 0 && o.srcC == 0 && o.p.srcA.toNat < 8 && o.p.srcB.toNat < 8 }
/-- MOVW's decoding (R145). -/
def movwDec (o : WOp) (cx : Cx) : Dec :=
  { valid := everywhere, p := o.p, len := 3, ok := o.p.srcA == 0 && o.p.srcB == 0, dst := .reg (cx.rcScalar true), transparent := true }

/-- QNT's and DQNT's decoding (R201, R204): `ok` are the rules on the P parcel's upper bits. -/
def quantDec (o : POp) (cx : Cx) (ok : Bool) : Dec :=
  { valid := validIn [.T, .V, .S] [], p := o.p, len := 2, srcs := [qntSrc cx o.p.srcA, qntSrc cx o.p.srcB], dst := .reg (rcOf cx.cls),
    ok := bits o.param.toNat 31 28 ≤ 2 && ok && bits o.param.toNat 24 0 == 0 && !(104 ≤ o.p.srcA.toNat && o.p.srcA.toNat ≤ 127) &&
      !(104 ≤ o.p.srcB.toNat && o.p.srcB.toNat ≤ 127), perElem := cx.kind == .V, payload := true }

/-- FENCE's decoding (R307). -/
def fenceDec (o : MOp) : Dec := { valid := everywhere, p := o.p, len := 2, ok := fenceOk o }
/-- WAITA's decoding (R308). -/
def waitaDec (o : MOp) (s : State) (cx : Cx) : Dec :=
  let data := cx.dataSrcs s o.p.srcB.toNat (mWid o)
  let sOnly := fun (n : Nat) => cx.kind != .V || n ≥ 32
  { valid := validIn [.T, .V, .S, .K] [], p := o.p, len := 2, dst := .own
    srcs := { n := o.p.srcA.toNat, rc := if cx.isT then .g else .s, wide := !cx.isT } :: data.getD []
    ok := mOk o && o.cpol == 0 && (o.wid == 2 || o.wid == 3) && !mRel o && data.isSome && cx.destOk s o.p (mWid o) &&
      sOnly o.p.srcB.toNat && (o.p.nwb || sOnly o.p.dreg.toNat) }

/-- CPKICK's, CPWAIT's and CPDRAIN's decoding (R309, R312). -/
def cpkickDec (o : KOp) (s : State) (cx : Cx) : Dec :=
  { valid := validIn [.T, .V, .S, .K] [], p := o.p, len := 2, srcs := [cx.scalarSrc o.p.srcA, cx.scalarSrc o.p.srcB],
    ok := bits o.param.toNat 23 1 == 0 && o.p.srcA.toNat != 127 && o.p.srcB.toNat != 127 && (cx.localSite s).isSome }
def cpwaitDec (o : KOp) (s : State) (cx : Cx) : Dec :=
  { valid := validIn [.T, .V, .S, .K] [], p := o.p, len := 2, srcs := [cx.scalarSrc o.p.srcA],
    ok := o.param == 0 && o.p.srcA.toNat != 127 && o.p.srcB == 0 && (cx.localSite s).isSome }
def cpdrainDec (o : KOp) (s : State) (cx : Cx) : Dec :=
  { valid := validIn [.T, .V, .S, .K] [], p := o.p, len := 2,
    ok := o.param == 0 && o.p.srcA == 0 && o.p.srcB == 0 && (cx.localSite s).isSome }
/-- BARI's, BARA's, BARL's and BARW's decoding (R314). -/
def bariDec (o : KOp) (s : State) (cx : Cx) : Dec := cx.barDec s o [cx.scalarSrc o.p.srcB] true .none
def baraDec (o : KOp) (s : State) (cx : Cx) : Dec :=
  cx.barDec s o [] (o.p.srcB == 0 && cx.destOk s o.p 4 && (o.p.nwb || !((cx.barBase s o.p.srcA).2 && cx.dataCls s o.p.dreg.toNat == .s))) .own
def barlDec (o : KOp) (s : State) (cx : Cx) : Dec := cx.barDec s o [] (o.p.srcB == 0) .none
def barwDec (o : KOp) (s : State) (cx : Cx) : Dec := cx.barDec s o [cx.scalarSrc o.p.srcB] (o.p.dreg.toNat < 8 && !o.p.nwb) .own
/-- TICKET's decoding (R317). -/
def ticketDec (o : ROp) (cx : Cx) : Dec :=
  { valid := validIn [.T, .V, .S] [], p := o.p, len := 1, ok := o.p.srcA == 0 && o.p.srcB == 0, dst := .reg (cx.rcScalar false) }

/-- TREL's, MMA's and MMAS's, AZERO's decoding (R216, R222, R225). -/
def trelDec (o : ROp) : Dec := { valid := tvs, p := o.p, len := 1, ok := o.p.srcA.toNat < 8 && o.p.srcB == 0 }
def mmaDec (cx : Cx) (o : POp) (split : Bool) : Dec :=
  { valid := validIn [.T, .V] [], p := o.p, len := 2, ok := mmaOk cx o split, matrix := true,
    srcs := if cx.isT then [] else [{ n := o.p.srcA.toNat, rc := .s, wide := true }] }
def azeroDec (o : ROp) : Dec :=
  { valid := tvs, p := o.p, len := 1, dst := .own, ok := o.p.dreg.toNat < 12 && !o.p.nwb && o.p.srcA == 0 && o.p.srcB == 0 }
/-- DRN's, AGSET's, AGGET's decoding (R227, R228). -/
def drnDec (cx : Cx) (o : POp) : Dec := { cx.rowDec o (drnOk (p1Of o)) with payload := true }
def agsetDec (o : KOp) : Dec :=
  { valid := tvs, p := o.p, len := 2, dst := .own, ok := o.p.dreg.toNat < 4 && !o.p.nwb && o.p.srcA == 0 && o.p.srcB == 0 }
def aggetDec (cx : Cx) (o : KOp) : Dec :=
  { valid := tvs, p := o.p, len := 2, dst := .reg (cx.rcScalar true), ok := o.p.srcA.toNat < 4 && o.p.srcB == 0 && o.param == 0 }
/-- CVSET's and CVSIGN's decoding (R217, R219). -/
def cvsetDec (o : KOp) : Dec := cvDec o [{ n := o.p.srcA.toNat, rc := .g }] true
def cvsignDec (o : KOp) : Dec := cvDec o [{ n := o.p.srcA.toNat, rc := .g }] (o.p.srcA.toNat < 72)

/-! ## Control flow -/

/-- A branch's, jump's, call's or return's decoding (R236 to R239). -/
def brDec (o : POp) (cx : Cx) : Dec :=
  { valid := everywhere, p := o.p, len := 2, dst := .own, transparent := true,
    ok := !o.p.nwb && o.p.srcA == 0 && o.p.srcB == 0 && !brInd o &&
      (o.p.dreg.toNat == 0 || (o.p.dreg.toNat ≤ 3 && (cx.kind == .V || cx.kind == .S))) }
def jmpDec (o : POp) (cx : Cx) : Dec :=
  { valid := everywhere, p := o.p, len := 2, ok := o.p.srcA.toNat < 72 && o.p.srcB == 0 && brInd o, srcs := [cx.baseSrc o.p.srcA] }
def callDec (o : POp) (cx : Cx) : Dec :=
  { valid := everywhere, p := o.p, len := 2, dst := .reg (cx.rcScalar true),
    ok := !o.p.nwb && o.p.srcB == 0 && (if brInd o then o.p.srcA.toNat < 72 else o.p.srcA == 0),
    srcs := if brInd o then [cx.baseSrc o.p.srcA] else [] }
def retDec (o : ROp) (cx : Cx) : Dec :=
  { valid := everywhere, p := o.p, len := 1, ok := o.p.srcA.toNat < 72 && o.p.srcB == 0, srcs := [cx.baseSrc o.p.srcA] }
/-- REJOIN's, HOP's, EXIT's, EP's, TRAP's decoding (R242, R248, R250, R252, R253). -/
def rejoinDec (o : ROp) : Dec :=
  let a := o.p.srcA.toNat
  { valid := validIn [.T] [], p := o.p, len := if a == 127 then 2 else 1, ok := o.p.srcB == 0,
    imm := if a == 127 then some o.imm else none, srcs := [{ n := a, rc := .d, wide := true }] }
def hopDec (o : ROp) : Dec :=
  { valid := tvs, p := o.p, len := 1, ok := 73 ≤ o.p.srcA.toNat && o.p.srcA.toNat ≤ 75 && o.p.srcB == 0 }
def exitDec (o : KOp) : Dec := plainDec tvs o.p 2 (o.param == 0)
def epDec (o : POp) (nep : Nat) : Dec :=
  let k := bits o.param.toNat 15 0
  plainDec tvs o.p 2 (o.p.grd == 0 && bits o.param.toNat 31 16 == 0 && 1 ≤ k && k ≤ nep)
def trapDec (o : POp) : Dec := plainDec everywhere o.p 2 (bits o.param.toNat 31 8 == 0)

/-- As `Enters`, of an instruction that may end a final line: the streams that act do not go on in fall-through order, and
none is left behind there. -/
structure Stands (s : State) (cx : Cx) (d : Dec) (rs : List (Nat × List Nat)) : Prop where
  here : cxOf s = some cx
  legal : cx.decodeTrap s d = none
  reads : ((cx.lanes s d).filter fun l => cx.pbit s d.p.grd.toNat l).map (fun l => (l, cx.readLane s d.imm d.srcs l)) =
    rs.map fun r => (r.1, LaneRd.vals r.2)
  latches : cx.isT = false → ∀ i x, d.srcs[i]? = some x → isLatchSpec x.n = true → cx.read s d.imm i 0 x ≠ Rd.inval
  goes : (fallNext cx.line cx.pc d.len).2 = false ∨ (rs ≠ [] ∧ ∀ l ∈ cx.acts, l ∈ rs.map (·.1))

/-- A branch to `t` passes its checks (R90, R237 to R239): `t` is an aligned address of the stream's own line, or of another
line, which translates, is served and of which no cache that the place reads through has a copy, and its parcel may be
branched to. -/
def Cx.Lands (cx : Cx) (s : State) (call : Bool) (t : Int) : Prop :=
  t % 4 = 0 ∧ 0 ≤ t ∧ t < 2 ^ 57 ∧ ∃ l, targetOk l (t.toNat / 4 % 32) call = true ∧
    ((cx.line = some l ∧ t.toNat / 128 = cx.pc.toNat / 128) ∨
      ((cx.line = none ∨ t.toNat / 128 ≠ cx.pc.toNat / 128) ∧ ∃ pa,
        translate s cx.id (spaceOf s cx.id).1 (spaceOf s cx.id).2 (t.toNat / 128 * 128) 3 = .ok pa ∧ isPackage pa = true ∧ pa % 128 = 0 ∧
        unserved s pa = false ∧ frameOf s cx.id (pa / 128) = none ∧ rdcOf s (dieOf cx.id) (pa / 128) = none ∧
        (∀ n, cx.id = .sys n → ∀ f ∈ (sysOf s n).icache, f.line ≠ pa / 128) ∧ l = parcelsOf ((upFrom pa 128).map (Store.get s.mem))))

/-- Nothing of a core's blocks is in flight. -/
structure Still (s : State) (c : Nat) : Prop where
  path : s.path = []
  pending : s.pending = []
  matrix : (coreOf s c).mq = []
  tiles : (coreOf s c).tfq = []
  copies : ∀ e, Table.getD (coreOf s c).culvert e [] = []
  signs : ∀ e ∈ (coreOf s c).cvs, e.2.signs = [] ∧ e.2.desc = none

/-- A stream of a block: its PC, its resume point, whether it is in handler state, its wait. -/
def Block.at (b : Block) (l : Nat) : VAddr × VAddr × Bool × Nat :=
  if b.exec.model == .threaded then ((threadOf b l).pc, (threadOf b l).trapPc, (threadOf b l).handler, (threadOf b l).wait.toNat)
  else (b.exec.ctl.pc, b.exec.ctl.trapPc, b.exec.ctl.handler, b.exec.ctl.wait.toNat)

end Sys2Proof.Machine
end

