-- ==== Sys2Proof/Certificates/Slice0/Obligations.lean ====
section
/-! DEFINITION. The statements for the provers. `Sys2Proof.Claims` holds the terms they use, written from the spec. -/

/-! ## Integer, logic, select and address functions (06_isa_scalar.md) -/

namespace Sys2Proof.Claims

open Sys2Proof Sys2Proof.Machine

/-- SatS (R132). -/
def sat (w : Nat) (y : Int) : BitVec w := BitVec.ofInt w (min (max y (-(2 ^ (w - 1) : Nat))) ((2 ^ (w - 1) : Nat) - 1))

/-- A function of form R: its constructor, whether it reads B, whether its lane-operations are payload (R79), and its
result for W-bit operands. -/
structure IntFn where
  instr : Cls → ROp → Instr
  two : Bool
  payload : Bool
  val : (w : Nat) → BitVec w → BitVec w → BitVec w

/-- The functions of R136, R138 and R140 that have form R, the division family apart. -/
def integerFns : List IntFn := [
  ⟨.add, true, false, fun _ a b => a + b⟩,
  ⟨.sub, true, false, fun _ a b => a - b⟩,
  ⟨.mul, true, true, fun _ a b => a * b⟩,
  ⟨.mulh, true, true, fun w a b => BitVec.ofInt w (a.toInt * b.toInt / (2 ^ w : Nat))⟩,
  ⟨.mulhu, true, true, fun w a b => BitVec.ofNat w (a.toNat * b.toNat / 2 ^ w)⟩,
  ⟨.neg, false, false, fun _ a _ => -a⟩,
  ⟨.abs, false, false, fun _ a _ => a.abs⟩,
  ⟨.min, true, false, fun _ a b => if a.toInt ≤ b.toInt then a else b⟩,
  ⟨.max, true, false, fun _ a b => if a.toInt ≥ b.toInt then a else b⟩,
  ⟨.minu, true, false, fun _ a b => if a ≤ b then a else b⟩,
  ⟨.maxu, true, false, fun _ a b => if b ≤ a then a else b⟩,
  ⟨.addsat, true, true, fun w a b => sat w (a.toInt + b.toInt)⟩,
  ⟨.subsat, true, true, fun w a b => sat w (a.toInt - b.toInt)⟩,
  ⟨.and, true, false, fun _ a b => a &&& b⟩,
  ⟨.or, true, false, fun _ a b => a ||| b⟩,
  ⟨.xor, true, false, fun _ a b => a ^^^ b⟩,
  ⟨.andn, true, false, fun _ a b => a &&& ~~~b⟩,
  ⟨.not, false, false, fun _ a _ => ~~~a⟩,
  ⟨.shl, true, false, fun w a b => if w ≤ b.toNat then 0 else a <<< b.toNat⟩,
  ⟨.shr, true, false, fun w a b => if w ≤ b.toNat then 0 else a >>> b.toNat⟩,
  ⟨.sar, true, false, fun w a b => a.sshiftRight (min b.toNat (w - 1))⟩,
  ⟨.rol, true, false, fun _ a b => a.rotateLeft b.toNat⟩,
  ⟨.clz, false, false, fun _ a _ => a.clz⟩,
  ⟨.popc, false, false, fun w a _ => BitVec.ofNat w ((List.range w).countP fun i => a.getLsbD i)⟩,
  ⟨.brev, false, false, fun _ a _ => a.reverse⟩,
  ⟨.mov, false, false, fun _ a _ => a⟩]

/-- A function of form X with three operands. -/
structure IntFn3 where
  instr : Cls → XOp → Instr
  sat : Bool
  payload : Bool
  val : (sat : Bool) → (w : Nat) → BitVec w → BitVec w → BitVec w → BitVec w

/-- The functions of R136, R139 and R140 that have three operands. -/
def integerFns3 : List IntFn3 := [
  ⟨.mad, true, true, fun s w a b c => if s then sat w (a.toInt * b.toInt + c.toInt) else a * b + c⟩,
  ⟨.bfx, false, false, fun _ w a b c =>
    if c = 0 ∨ w ≤ b.toNat then 0 else BitVec.ofNat w (a.toNat / 2 ^ b.toNat % 2 ^ min c.toNat (w - b.toNat))⟩,
  ⟨.bfi, false, false, fun _ w a b c =>
    let pos := c.toNat % 256
    let len := c.toNat / 256 % 256
    if len = 0 ∨ w ≤ pos then a else
      let m := BitVec.ofNat w ((2 ^ min len (w - pos) - 1) * 2 ^ pos)
      (a &&& ~~~m) ||| (b <<< pos &&& m)⟩,
  ⟨.sel, false, false, fun _ _ a b c => if c ≠ 0 then a else b⟩,
  ⟨.lea, false, false, fun _ _ a b c => a + b <<< (c.toNat % 8)⟩]

/-- The functions of R137, by their result for a divisor that is not zero. -/
def divisionFns : List ((Cls → ROp → Instr) × ((w : Nat) → BitVec w → BitVec w → BitVec w)) := [
  (.div, fun _ a b => a.sdiv b),
  (.divu, fun _ a b => a / b),
  (.rem, fun _ a b => a.srem b),
  (.remu, fun _ a b => a % b)]

/-- An operand as a W-bit value (R132). -/
def opnd (c : Cls) (n : Nat) : BitVec (widthOf c) := BitVec.ofNat (widthOf c) n

/-- The conditions of CMP (R141). -/
def condition {w : Nat} (fn : Nat) (a b : BitVec w) : Bool :=
  match fn with
  | 0 => a == b
  | 1 => a != b
  | 2 => a.slt b
  | 3 => a.sle b
  | 4 => b.slt a
  | 5 => b.sle a
  | 6 => a.ult b
  | 7 => a.ule b
  | 8 => b.ult a
  | 9 => b.ule a
  | 10 => a &&& b != 0
  | _ => a &&& b == 0

end Sys2Proof.Claims

open Sys2Proof Sys2Proof.Machine Sys2Proof.Claims

/-- R133, R134, R136, R138 to R140: an integer, logic, move, select or address function that enters completes: every acting
lane's destination register takes the value of its table row, no other register, no predicate, no flag and nothing
outside the stream's registers changes; with NWB no register changes. -/
def Obligations.IntegerFunctionResults : Prop :=
  (∀ f ∈ integerFns, ∀ (c : Cls) (o : ROp) (s : State) (cx : Cx) (rs : List (Nat × List Nat)),
    Enters s cx (rDec o c f.two f.payload) rs →
    ∃ t, exec (f.instr c o) s = .next t ∧
      cx.Writes s t c o.p.dreg.toNat o.p.nwb
        (rs.map fun r => (r.1, (f.val (widthOf c) (opnd c (aOf r.2)) (opnd c (bOf r.2))).toNat)) ∧
      cx.Keeps s t ∧ (cx.regs t).fstat = (cx.regs s).fstat) ∧
  ∀ f ∈ integerFns3, ∀ (c : Cls) (o : XOp) (s : State) (cx : Cx) (rs : List (Nat × List Nat)),
    Enters s cx (xDec o c 3 none (xIntOk o f.sat false) f.payload) rs →
    ∃ t, exec (f.instr c o) s = .next t ∧
      cx.Writes s t c o.p.dreg.toNat o.p.nwb
        (rs.map fun r => (r.1, (f.val o.sat (widthOf c) (opnd c (aOf r.2)) (opnd c (bOf r.2)) (opnd c (cOf r.2))).toNat)) ∧
      cx.Keeps s t ∧ (cx.regs t).fstat = (cx.regs s).fstat

/-- R137, R126: a division gives the truncated quotient or its remainder; a zero divisor gives all ones and sets IDZ. It
completes so unless a lane divides by zero with FEN.IDZ set. -/
def Obligations.DivisionResults : Prop :=
  ∀ f ∈ divisionFns, ∀ (c : Cls) (o : ROp) (s : State) (cx : Cx) (rs : List (Nat × List Nat)),
    Enters s cx (rDec o c true false) rs → ((∀ r ∈ rs, bOf r.2 ≠ 0) ∨ bit (cx.fen s) 6 = false) →
    ∃ t, exec (f.1 c o) s = .next t ∧
      cx.Writes s t c o.p.dreg.toNat o.p.nwb (rs.map fun r => (r.1,
        if bOf r.2 = 0 then 2 ^ widthOf c - 1 else (f.2 (widthOf c) (opnd c (aOf r.2)) (opnd c (bOf r.2))).toNat)) ∧
      cx.Keeps s t ∧
      ((cx.blk s).isSome → (cx.regs t).fstat = (cx.regs s).fstat ||| (if ∃ r ∈ rs, bOf r.2 = 0 then 64#32 else 0#32))

/-- R145: MOVW writes its 64-bit immediate: in the threaded model the pair g(2N):g(2N+1) of each acting thread, low half
first, elsewhere sN. -/
def Obligations.MovwResult : Prop :=
  ∀ (o : WOp) (s : State) (cx : Cx) (rs : List (Nat × List Nat)), Enters s cx (movwDec o cx) rs →
    ∃ t, exec (.movw o) s = .next t ∧ cx.Keeps s t ∧ (cx.regs t).fstat = (cx.regs s).fstat ∧
      (∀ m i, cx.pbit t m i = cx.pbit s m i) ∧
      (o.p.nwb = false → ∀ r ∈ rs, if cx.isT
        then cx.reg t .g (2 * o.p.dreg.toNat) r.1 = (o.imm.extractLsb' 0 32).toNat ∧
          cx.reg t .g (2 * o.p.dreg.toNat + 1) r.1 = (o.imm.extractLsb' 32 32).toNat
        else cx.reg t .s o.p.dreg.toNat r.1 = o.imm.toNat) ∧
      (∀ c m l, cx.kind.has c = true → m < 64 → (c = .v → l < 256) →
        (o.p.nwb = true ∨ c = .v ∨ (c = .g ∧ (m / 2 ≠ o.p.dreg.toNat ∨ l ∉ rs.map (·.1))) ∨ (c = .s ∧ (m ≠ o.p.dreg.toNat ∨ rs = []))) →
        cx.reg t c m l = cx.reg s c m l)

/-- R101, R102: in a control stream an integer function of class s pushes its result into the latch chain: L0 holds the
64-bit result, L(k + 1) what Lk held, for an instruction whose next one stands in the same line. -/
def Obligations.LatchChainShifts : Prop :=
  ∀ f ∈ integerFns, ∀ (o : ROp) (s : State) (cx : Cx) (l : List Nat),
    Enters s cx (rDec o .s f.two f.payload) [(0, l)] → cx.pc.toNat / 128 = (cx.next (rDec o .s f.two f.payload)).toNat / 128 →
    ∃ t, exec (f.instr .s o) s = .next t ∧
      (cx.ctl t).latches = (Latch.ofDouble ((f.val 64 (BitVec.ofNat 64 (aOf l)) (BitVec.ofNat 64 (bOf l)))) ::
        (cx.ctl s).latches).take 8 ∧
      (cx.ctl t).pc = cx.next (rDec o .s f.two f.payload)

/-! ## Floats (07_numbers.md, 08_isa_float.md) -/

namespace Sys2Proof.Claims

open Sys2Proof Sys2Proof.Machine

/-- The real value of a finite float (R158). -/
def real : FVal → Option Rat
  | .fin neg m e => some ((if neg then -1 else 1) * (m : Rat) * (2 : Rat) ^ e)
  | _ => none
/-- A finite value of a format (R158). -/
def finite (f : Fmt) (c : Nat) (y : Rat) : Prop := c < 2 ^ f.w ∧ real (f.value c) = some y
/-- The largest finite value. -/
def largest (f : Fmt) : Rat := (2 - (2 : Rat) ^ (-(f.p : Int))) * (2 : Rat) ^ f.bias
def negative (f : Fmt) (c : Nat) : Bool := bit c (f.w - 1)

/-- `v` is the nonzero real `x` rounded to the format under RM (R162, R163, R165): down is the largest value not above
`x` (−inf below all of them), up its mirror, toward zero one of the two by sign, nearest the closer one with ties to
the value whose last bit is 0 and infinity from half a unit beyond the largest. A zero keeps the sign of `x`. -/
def Rounded (f : Fmt) (rm : Nat) (x : Rat) (v : Nat) : Prop :=
  let down := (v = f.inf true ∧ x < -largest f) ∨ ∃ y, finite f v y ∧ y ≤ x ∧ ∀ c z, finite f c z → z ≤ x → z ≤ y
  let up := (v = f.inf false ∧ largest f < x) ∨ ∃ y, finite f v y ∧ x ≤ y ∧ ∀ c z, finite f c z → x ≤ z → y ≤ z
  (real (f.value v) = some 0 → negative f v = decide (x < 0)) ∧
  match rm with
  | 0 => let edge := largest f + (2 : Rat) ^ ((f.bias : Int) - f.p - 1)
    if x ≥ edge then v = f.inf false else if x ≤ -edge then v = f.inf true else
    ∃ y, finite f v y ∧ ∀ c z, finite f c z → |x - y| ≤ |x - z| ∧ (z ≠ y → |x - y| = |x - z| → v % 2 = 0)
  | 1 => if x < 0 then up else down
  | 2 => down
  | _ => up

/-- A function of form X on floats: its constructor, its operands, the rules on its X parcel, its result with flags. -/
structure FloatFn where
  instr : Cls → XOp → Instr
  args : Nat
  from_ : XOp → Nat
  ok : XOp → Bool
  val : Cls → XOp → List Nat → Nat × Nat

/-- TYPE a float format, RM one of four, FN4 zero, SAT zero (R188). -/
def roundingForm (o : XOp) : Bool := o.type.toNat ≤ 2 && o.rm.toNat < 4 && o.fn4 == 0 && !o.sat
/-- RM zero as well. -/
def plainForm (o : XOp) : Bool := o.type.toNat ≤ 2 && o.rm == 0 && o.fn4 == 0 && !o.sat

/-- The functions of R190 to R196 that write a register. -/
def floatFns : List FloatFn := [
  ⟨.fadd, 2, fun o => o.type.toNat, roundingForm, fun _ o l => (fmtOf o.type.toNat).add o.rm.toNat (aOf l) (bOf l)⟩,
  ⟨.fsub, 2, fun o => o.type.toNat, roundingForm, fun _ o l => (fmtOf o.type.toNat).sub o.rm.toNat (aOf l) (bOf l)⟩,
  ⟨.fmul, 2, fun o => o.type.toNat, roundingForm, fun _ o l => (fmtOf o.type.toNat).mul o.rm.toNat (aOf l) (bOf l)⟩,
  ⟨.fma, 3, fun o => o.type.toNat, roundingForm, fun _ o l => (fmtOf o.type.toNat).fma o.rm.toNat (aOf l) (bOf l) (cOf l)⟩,
  ⟨.fmin, 2, fun o => o.type.toNat, plainForm, fun _ o l => (fmtOf o.type.toNat).minmax false (aOf l) (bOf l)⟩,
  ⟨.fmax, 2, fun o => o.type.toNat, plainForm, fun _ o l => (fmtOf o.type.toNat).minmax true (aOf l) (bOf l)⟩,
  ⟨.fabs, 1, fun o => o.type.toNat, plainForm, fun _ o l => (aOf l % 2 ^ ((fmtOf o.type.toNat).w - 1), 0)⟩,
  ⟨.fneg, 1, fun o => o.type.toNat, plainForm,
    fun _ o l => (aOf l % 2 ^ (fmtOf o.type.toNat).w ^^^ 2 ^ ((fmtOf o.type.toNat).w - 1), 0)⟩,
  ⟨.fclass, 1, fun o => o.type.toNat, plainForm, fun _ o l => ((fmtOf o.type.toNat).class_ (aOf l), 0)⟩,
  ⟨.fcvt, 1, fun o => o.fn4.toNat, fun o => o.type.toNat ≤ 4 && o.rm.toNat < 4 && o.fn4.toNat ≤ 2 && !o.sat,
    fun c o l =>
      let x := (fmtOf o.fn4.toNat).value (aOf l)
      if o.type.toNat ≤ 2 then (fmtOf o.type.toNat).ofValue o.rm.toNat x
      else let r := toInt (if o.type.toNat = 3 then 32 else 8) o.rm.toNat x
        ((BitVec.ofInt (widthOf c) r.1).toNat, r.2)⟩,
  ⟨.icvt, 1, fun o => o.fn4.toNat,
    fun o => o.type.toNat ≤ 4 && o.rm.toNat < 4 && (o.fn4 == 3 || o.fn4 == 4) && (!o.sat || (o.fn4 == 3 && o.type == 4)),
    fun c o l =>
      let v : Int := if o.fn4 = 3 then (BitVec.ofNat 32 (aOf l)).toInt else (BitVec.ofNat 8 (aOf l)).toInt
      if o.type.toNat ≤ 2 then (fmtOf o.type.toNat).ofFin o.rm.toNat (decide (v < 0)) v.natAbs 0
      else if o.type = 4 ∧ o.fn4 = 3 then
        ((BitVec.ofInt (widthOf c) (if o.sat then max (-128) (min v 127) else (BitVec.ofNat 8 (aOf l)).toInt)).toNat, 0)
      else ((BitVec.ofInt (widthOf c) v).toNat, 0)⟩]

/-- The place of a value in the order of the extended reals: infinities outside, then by the reals (R193). -/
def below (x y : FVal) : Bool :=
  match x, y with
  | .inf a, .inf b => a && !b
  | .inf a, .fin _ _ _ => a
  | .fin _ _ _, .inf b => !b
  | .fin _ _ _, .fin _ _ _ => decide ((real x).getD 0 < (real y).getD 0)
  | _, _ => false
/-- The conditions of FCMP (R193). -/
def floatCondition (f : Fmt) (fn a b : Nat) : Bool :=
  let x := f.value a
  let y := f.value b
  let un := isNan x || isNan y
  match fn with
  | 0 => !un && !below x y && !below y x
  | 1 => un || below x y || below y x
  | 2 => !un && below x y
  | 3 => !un && !below y x
  | 4 => !un && below y x
  | 5 => !un && !below x y
  | 6 => un
  | 7 => !un
  | 8 => !un && below x y
  | 9 => !un && !below y x
  | 10 => !un && below y x
  | _ => !un && !below x y
/-- INVALID of FCMP (R193): a signalling condition on any NaN, a quiet one on a signalling NaN. -/
def floatConditionFlag (f : Fmt) (fn a b : Nat) : Nat :=
  let x := f.value a
  let y := f.value b
  if (isNan x || isNan y) && ((2 ≤ fn && fn ≤ 5) || isSnan x || isSnan y) then 1 else 0

/-- The SFU functions (R197). -/
def sfuFns : List ((Cls → XOp → Instr) × SfuFn) := [
  (.frcp, .rcp), (.frsq, .rsq), (.fsqrt, .sqrt), (.fexp2, .exp2), (.flog2, .log2), (.fsin, .sin), (.fcos, .cos), (.ftanh, .tanh)]

/-- Flags joined over the lanes (R166). -/
def flagsOf (l : List Nat) : Nat := l.foldl (· ||| ·) 0

end Sys2Proof.Claims

open Sys2Proof Sys2Proof.Machine Sys2Proof.Claims

/-- R162 to R166: a nonzero real ±m × 2^e is rounded as each mode says; INEXACT is raised exactly when the result differs
from it, OVERFLOW when the value is beyond the largest finite one before the special result is taken, and UNDERFLOW
never without INEXACT. -/
def Obligations.RoundingIsCorrect : Prop :=
  ∀ code ≤ 2, ∀ rm < 4, ∀ (neg : Bool) (m : Nat) (e : Int), 0 < m →
    let f := fmtOf code
    let x : Rat := (if neg then -1 else 1) * (m : Rat) * (2 : Rat) ^ e
    let r := f.round rm neg m e
    Rounded f rm x r.1 ∧
      (bit r.2 4 = true ↔ real (f.value r.1) ≠ some x) ∧
      (bit r.2 2 = true → largest f < |x| ∧ bit r.2 4 = true) ∧
      (bit r.2 3 = true → bit r.2 4 = true ∧ |x| < (2 : Rat) ^ (1 - (f.bias : Int))) ∧ r.2 < 32 ∧ bit r.2 0 = false ∧ bit r.2 1 = false

/-- R190: on finite operands FADD, FSUB, FMUL and FMA round the exact sum, difference, product, product and sum, once;
an exact zero sum of nonzero terms is +0, and −0 in RDN. -/
def Obligations.ArithmeticRoundsExactly : Prop :=
  ∀ code ≤ 2, ∀ rm < 4, ∀ (a b c : Nat) (x y z : Rat),
    let f := fmtOf code
    real (f.value a) = some x → real (f.value b) = some y → real (f.value c) = some z →
    (x + y ≠ 0 → Rounded f rm (x + y) (f.add rm a b).1) ∧ (x - y ≠ 0 → Rounded f rm (x - y) (f.sub rm a b).1) ∧
      (x * y ≠ 0 → Rounded f rm (x * y) (f.mul rm a b).1) ∧ (x * y + z ≠ 0 → Rounded f rm (x * y + z) (f.fma rm a b c).1) ∧
      (x ≠ 0 → x + y = 0 → f.add rm a b = (f.zero (rm == 2), 0)) ∧
      (x * y ≠ 0 → x * y + z = 0 → f.fma rm a b c = (f.zero (rm == 2), 0)) ∧
      (x * y = 0 → f.mul rm a b = (f.zero (bit a (f.w - 1) != bit b (f.w - 1)), 0))

/-- R187 to R196: a float or conversion function completes with the result of its table row in the destination of every
acting lane and its flags in FSTAT, unless a lane meets a condition that FEN enables (R189); nothing else changes. -/
def Obligations.FloatFunctionResults : Prop :=
  ∀ f ∈ floatFns, ∀ (c : Cls) (o : XOp) (s : State) (cx : Cx) (rs : List (Nat × List Nat)),
    Enters s cx (xDec o c f.args (some (f.from_ o)) (f.ok o) true) rs →
    (∀ r ∈ rs, (f.val c o r.2).2 &&& cx.fen s &&& 0x5F = 0) →
    ∃ t, exec (f.instr c o) s = .next t ∧
      cx.Writes s t c o.p.dreg.toNat o.p.nwb (rs.map fun r => (r.1, (f.val c o r.2).1)) ∧ cx.Keeps s t ∧
      ((cx.blk s).isSome → (cx.regs t).fstat = (cx.regs s).fstat ||| BitVec.ofNat 32 (flagsOf (rs.map fun r => (f.val c o r.2).2)))

/-- R189, R126, R419: in a context without threads, a float function with a lane that meets an enabled FP condition traps
whole with FP (cause 20), its detail the enabled flags, and writes no register and no flag. -/
def Obligations.EnabledFlagTraps : Prop :=
  ∀ f ∈ floatFns, ∀ (c : Cls) (o : XOp) (s : State) (cx : Cx) (rs : List (Nat × List Nat)) (core slot : Nat),
    Enters s cx (xDec o c f.args (some (f.from_ o)) (f.ok o) true) rs → cx.id = .blk core slot → cx.isT = false →
    (∃ r ∈ rs, (f.val c o r.2).2 &&& cx.fen s &&& 0x5F ≠ 0) →
    ∃ s1, exec (f.instr c o) s = .next (cx.raise s1 (xDec o c f.args (some (f.from_ o)) (f.ok o) true).srcs
        { cause := 20, detail := flagsOf (rs.map fun r => (f.val c o r.2).2 &&& cx.fen s &&& 0x5F) } [0]) ∧
      cx.Keeps s s1 ∧ cx.regs s1 = cx.regs s ∧ (∀ k m l, cx.kind.has k = true → cx.reg s1 k m l = cx.reg s k m l)

/-- R141 to R143, R193: CMP writes its condition to the predicate, PLOG its truth table, FCMP its condition and INVALID to
FSTAT; R142's place for each class and context, and no register and no other predicate bit changes. -/
def Obligations.PredicateResults : Prop :=
  (∀ (c : Cls) (o : XOp) (s : State) (cx : Cx) (rs : List (Nat × List Nat)),
    Enters s cx (xDec o c 2 none (xIntOk o false true && o.fn4.toNat ≤ 11) false false .pred) rs →
    ∃ t, exec (.cmp c o) s = .next t ∧
      cx.PredWrites s t c o.p.dreg.toNat (rs.map fun r => (r.1, condition o.fn4.toNat (opnd c (aOf r.2)) (opnd c (bOf r.2)))) ∧
      cx.Keeps s t ∧ (cx.regs t).fstat = (cx.regs s).fstat) ∧
  (∀ (c : Cls) (o : XOp) (s : State) (cx : Cx) (rs : List (Nat × List Nat)), Enters s cx (plogDec o c) rs →
    ∃ t, exec (.plog c o) s = .next t ∧ cx.Keeps s t ∧ (cx.regs t).fstat = (cx.regs s).fstat ∧
      (∀ k m l, cx.kind.has k = true → cx.reg t k m l = cx.reg s k m l) ∧
      (∀ m i, m ≠ o.p.dreg.toNat → cx.pbit t m i = cx.pbit s m i) ∧
      ∀ i, (match c, cx.id with
          | .s, .blk _ _ => rs ≠ [] ∧ i < 256
          | .s, _ => rs ≠ []
          | _, _ => i ∈ rs.map (·.1)) →
        cx.pbit t o.p.dreg.toNat i = bit o.fn4.toNat
          ((if cx.pbit s o.p.srcA.toNat i then 2 else 0) + (if cx.pbit s o.p.srcB.toNat i then 1 else 0))) ∧
  ∀ (c : Cls) (o : XOp) (s : State) (cx : Cx) (rs : List (Nat × List Nat)),
    let f := fmtOf o.type.toNat
    Enters s cx (xDec o c 2 (some o.type.toNat) (o.type.toNat ≤ 2 && !o.sat && o.rm == 0 && o.fn4.toNat ≤ 11) true false .pred) rs →
    (bit (cx.fen s) 0 = false ∨ ∀ r ∈ rs, floatConditionFlag f o.fn4.toNat (aOf r.2) (bOf r.2) = 0) →
    ∃ t, exec (.fcmp c o) s = .next t ∧
      cx.PredWrites s t c o.p.dreg.toNat (rs.map fun r => (r.1, floatCondition f o.fn4.toNat (aOf r.2) (bOf r.2))) ∧ cx.Keeps s t ∧
      ((cx.blk s).isSome → (cx.regs t).fstat = (cx.regs s).fstat |||
        BitVec.ofNat 32 (flagsOf (rs.map fun r => floatConditionFlag f o.fn4.toNat (aOf r.2) (bOf r.2))))

/-- R101, R198: with no FP trap enabled and room in its queue an SFU function completes and leaves its destinations
waiting; SFU_RESULT_RETURN then writes them, and the flags. No other register changes and no memory.
The values are the model's series, rounded once (log 52). -/
def Obligations.SfuResultsReturn : Prop :=
  ∀ f ∈ sfuFns, ∀ (c : Cls) (o : XOp) (s : State) (cx : Cx) (rs : List (Nat × List Nat)),
    let val := fun (l : List Nat) => (fmtOf o.type.toNat).sfu f.2 o.rm.toNat (aOf l)
    Enters s cx (xDec o c 1 (some o.type.toNat) (roundingForm o) true true) rs →
    cx.fen s % 32 = 0 → (∀ p ∈ s.pending, p.ctx = cx.id → p.sfu = false) → rs.length ≤ 512 →
    ∃ t u, exec (f.1 c o) s = .next t ∧ exec (.sfuResultReturn cx.id) t = .next u ∧
      (o.p.nwb = false → ∀ r ∈ rs, cx.read t none 0 r.1 { n := o.p.dreg.toNat, rc := rcOf c } = .pend) ∧
      cx.Writes s u c o.p.dreg.toNat o.p.nwb (rs.map fun r => (r.1, (val r.2).1)) ∧
      ((cx.blk s).isSome → (cx.regs u).fstat = (cx.regs s).fstat ||| BitVec.ofNat 32 (flagsOf (rs.map fun r => (val r.2).2))) ∧
      u.mem = s.mem ∧ (∀ d sm, cx.id ≠ .blk d sm → blockOf u d sm = blockOf s d sm)

/-! ## Vector-only and quantising instructions (06_isa_scalar.md R146 to R154, 08_isa_float.md R201 to R204) -/

namespace Sys2Proof.Claims

open Sys2Proof Sys2Proof.Machine

/-- The elements that act: below VL with their guard bit (R146). -/
def acting (cx : Cx) (s : State) (grd : Nat) : List Nat := (List.range (cx.vl s)).filter fun e => cx.pbit s grd e
/-- Src(i) (R146). -/
def srcOf (vl : Nat) (rd : Nat → Nat → Nat) (i : Int) : Nat := if 0 ≤ i ∧ i < vl then rd 0 i.toNat else 0

/-- A movement of R149: its constructor, whether it has a B operand and of which class, the element it takes. -/
structure Movement where
  instr : ROp → Instr
  srcs : ROp → List Src
  noB : Bool
  val : (vl : Nat) → (rd : Nat → Nat → Nat) → (e : Nat) → Nat

def movements : List Movement := [
  ⟨.shfl, fun o => [vSrc o.p.srcA, sSrc o.p.srcB], false, fun vl rd e => srcOf vl rd ((e ^^^ rd 1 0 % 256 : Nat) : Int)⟩,
  ⟨.vperm, fun o => [vSrc o.p.srcA, vSrc o.p.srcB], false, fun vl rd e => srcOf vl rd (rd 1 e)⟩,
  ⟨.vslide, fun o => [vSrc o.p.srcA, sSrc o.p.srcB], false, fun vl rd e => srcOf vl rd (e - (BitVec.ofNat 64 (rd 1 0)).toInt)⟩,
  ⟨.vid, fun o => [sSrc o.p.srcA], true, fun _ rd e => (BitVec.ofNat 32 (rd 0 0) + BitVec.ofNat 32 e).toNat⟩,
  ⟨.vbcast, fun o => [sSrc o.p.srcA], true, fun _ rd _ => (BitVec.ofNat 32 (rd 0 0)).toNat⟩]

/-- Op (R152). -/
def redOp (rop rm : Nat) (x y : Nat) : Nat × Nat :=
  let a := BitVec.ofNat 32 x
  let b := BitVec.ofNat 32 y
  match rop with
  | 0 => ((a + b).toNat, 0)
  | 1 => (if a.toInt ≤ b.toInt then a.toNat else b.toNat, 0)
  | 2 => (if a.toInt ≥ b.toInt then a.toNat else b.toNat, 0)
  | 3 => (min a.toNat b.toNat, 0)
  | 4 => (max a.toNat b.toNat, 0)
  | 5 => ((a &&& b).toNat, 0)
  | 6 => ((a ||| b).toNat, 0)
  | 7 => ((a ^^^ b).toNat, 0)
  | 8 => (fmtOf 0).add rm x y
  | 9 => (fmtOf 0).minmax false x y
  | _ => (fmtOf 0).minmax true x y
/-- Two partial results, each perhaps empty, with the flags of the steps so far. -/
def redBoth (rop rm : Nat) : Option Nat × Nat → Option Nat × Nat → Option Nat × Nat
  | (none, f), (y, g) => (y, f ||| g)
  | (some x, f), (none, g) => (some x, f ||| g)
  | (some x, f), (some y, g) => (some (redOp rop rm x y).1, f ||| g ||| (redOp rop rm x y).2)
/-- The pairwise tree over 2^k positions from `i` (R152). -/
def redTree (rop rm : Nat) (leaf : Nat → Option Nat) : Nat → Nat → Option Nat × Nat
  | 0, i => (leaf i, 0)
  | k + 1, i => redBoth rop rm (redTree rop rm leaf k i) (redTree rop rm leaf k (i + 2 ^ k))
/-- Reduce over the elements below `n` (R152): in ascending order, or as the tree. -/
def reduction (any : Bool) (rop rm n : Nat) (act : List Nat) (val : Nat → Nat) : Option Nat × Nat :=
  if any then redTree rop rm (fun e => if e < n ∧ e ∈ act then some (val e) else none) 8 0
  else (act.filter (· < n)).foldl (fun r e => redBoth rop rm r (some (val e), 0)) (none, 0)
/-- Identity (R153). -/
def identity : Nat → Nat
  | 1 => 0x7FFFFFFF
  | 2 => 0x80000000
  | 3 => 0xFFFFFFFF
  | 5 => 0xFFFFFFFF
  | 9 => 0x7F800000
  | 10 => 0xFF800000
  | _ => 0

end Sys2Proof.Claims

open Sys2Proof Sys2Proof.Machine Sys2Proof.Claims

/-- R146, R148 to R150: SETVL sets VLEN to Min(Max(a, 1), 256) and D to Min(a, 256), with a false guard nothing; SHFL, VPERM, VSLIDE, VID, VBCAST give every acting element the source element or value of the
table; VCMPRS packs the selected elements and fills with zero, VEXPND spreads them. Nothing else changes, and elements
at or beyond VL keep their values. -/
def Obligations.VectorMovements : Prop :=
  (∀ (o : ROp) (s : State) (cx : Cx) (rs : List (Nat × List Nat)),
    Enters s cx (vecDec o (o.p.srcB == 0) [sSrc o.p.srcA] (.reg .s)) rs →
    ∃ t, exec (.setvl o) s = .next t ∧ cx.Writes s t .s o.p.dreg.toNat o.p.nwb (rs.map fun r => (r.1, min (aOf r.2) 256)) ∧
      (rs = [] → cx.regs t = cx.regs s) ∧
      (∀ r ∈ rs, cx.regs t = { cx.regs s with vlen := BitVec.ofNat 9 (min (max (aOf r.2) 1) 256) }) ∧
      t.mem = s.mem ∧ (cx.mem t).loc = (cx.mem s).loc) ∧
  (∀ f ∈ movements, ∀ (o : ROp) (s : State) (cx : Cx) (rd : Nat → Nat → Nat),
    EntersVec s cx (vecDec o (!f.noB || o.p.srcB == 0) (f.srcs o) (.reg .v)) rd →
    ∃ t, exec (f.instr o) s = .next t ∧
      cx.Writes s t .v o.p.dreg.toNat o.p.nwb ((acting cx s o.p.grd.toNat).map fun e => (e, f.val (cx.vl s) rd e)) ∧
      cx.Keeps s t ∧ (cx.regs t).fstat = (cx.regs s).fstat) ∧
  ∀ (o : ROp) (s : State) (cx : Cx) (rd : Nat → Nat → Nat),
    EntersVec s cx (vecDec o (o.p.grd == 0) [vSrc o.p.srcA, pSrc o.p.srcB] (.reg .v)) rd →
    let sel := acting cx s o.p.srcB.toNat
    (∃ t, exec (.vcmprs o) s = .next t ∧
      cx.Writes s t .v o.p.dreg.toNat o.p.nwb ((List.range (cx.vl s)).map fun e => (e, if h : e < sel.length then rd 0 sel[e] else 0)) ∧
      cx.Keeps s t ∧ (cx.regs t).fstat = (cx.regs s).fstat) ∧
    ∃ t, exec (.vexpnd o) s = .next t ∧
      cx.Writes s t .v o.p.dreg.toNat o.p.nwb ((List.range (cx.vl s)).map fun e =>
        (e, if cx.pbit s o.p.srcB.toNat e then rd 0 ((List.range e).filter fun i => cx.pbit s o.p.srcB.toNat i).length else 0)) ∧
      cx.Keeps s t ∧ (cx.regs t).fstat = (cx.regs s).fstat

/-- R151 to R154: VRED writes the reduction of the acting elements, or the identity, extended to 64 bits; VSCAN the
running reduction of each. FSTAT takes the flags of every step, unless one is enabled. -/
def Obligations.VectorReductions : Prop :=
  ∀ (o : POp) (s : State) (cx : Cx) (rd : Nat → Nat → Nat),
    let p := o.param.toNat
    let rop := bits p 31 28
    let act := acting cx s o.p.grd.toNat
    let red := fun (n : Nat) => reduction (bit p 27) rop (bits p 26 24) n act (rd 0)
    (EntersVec s cx (redDec o false) rd → (red (cx.vl s)).2 &&& cx.fen s &&& 0x5F = 0 →
      ∃ t, exec (.vred o) s = .next t ∧
        cx.Writes s t .s o.p.dreg.toNat o.p.nwb [(0, let r := ((red (cx.vl s)).1).getD (identity rop)
          if rop ≤ 2 then ((BitVec.ofNat 32 r).signExtend 64).toNat else r)] ∧
        cx.Keeps s t ∧ (cx.regs t).fstat = (cx.regs s).fstat ||| BitVec.ofNat 32 (red (cx.vl s)).2) ∧
    let upTo := fun (e : Nat) => red (if bit p 19 then e else e + 1)
    (EntersVec s cx (redDec o true) rd → (∀ e ∈ act, (upTo e).2 &&& cx.fen s &&& 0x5F = 0) →
      ∃ t, exec (.vscan o) s = .next t ∧
        cx.Writes s t .v o.p.dreg.toNat o.p.nwb (act.map fun e => (e, ((upTo e).1).getD (identity rop))) ∧
        cx.Keeps s t ∧ (cx.regs t).fstat = (cx.regs s).fstat ||| BitVec.ofNat 32 (flagsOf (act.map fun e => (upTo e).2)))

/-- R201, R202, R204, R187: QNT reads each acting lane's block of 32 words from local memory, writes its 32 codes and its
scale; where destinations overlap the highest lane's byte stands, and every other byte is as before. DQNT writes the
value of its code under its scale. -/
def Obligations.QuantisingResults : Prop :=
  (∀ (o : POp) (s : State) (cx : Cx) (rs : List (Nat × List Nat)),
    let f := fmtOf (bits o.param.toNat 31 28)
    let z := f.w / 8
    let block := fun (a : Nat) => (List.range 32).map fun i => bytesVal (((cx.mem s).loadLoc (a + z * i) z).1)
    let q := fun (r : Nat × List Nat) => quantize f (bits o.param.toNat 27 25) (block (aOf r.2))
    Enters s cx (quantDec o cx (bits o.param.toNat 27 25 ≤ 5)) rs →
    outsideRead s cx.id = false →
    (∀ r ∈ rs, cx.rowOwed s (32 * z) 0 { sp := .loc, lane := r.1, ea := (aOf r.2 : Nat) } = false ∧
      cx.rowOwed s 32 1 { sp := .loc, lane := r.1, ea := (bOf r.2 : Nat) } = false) →
    (∀ r ∈ rs, aOf r.2 % z = 0 ∧ aOf r.2 + 32 * z ≤ (cx.mem s).locb ∧ bOf r.2 + 32 ≤ (cx.mem s).locb ∧
      (cx.sealed s = true → inLwset (cx.region s) (bOf r.2) 32 = true) ∧ ((cx.mem s).loadLoc (aOf r.2) (32 * z)).2 = false ∧
      (q r).2.2 &&& cx.fen s &&& 0x5F = 0) →
    ∃ t, exec (.qnt o) s = .next t ∧ cx.Writes s t cx.cls o.p.dreg.toNat o.p.nwb (rs.map fun r => (r.1, (q r).2.1)) ∧
      (∀ x, Store.get (cx.mem t).loc x = rs.foldl (fun v r => if bOf r.2 ≤ x ∧ x < bOf r.2 + 32
        then BitVec.ofNat 8 (((q r).1[x - bOf r.2]?).getD 0) else v) (Store.get (cx.mem s).loc x)) ∧ t.mem = s.mem ∧
      (cx.regs t).fstat = (cx.regs s).fstat ||| BitVec.ofNat 32 (flagsOf (rs.map fun r => (q r).2.2))) ∧
  ∀ (o : POp) (s : State) (cx : Cx) (rs : List (Nat × List Nat)),
    let v := fun (r : Nat × List Nat) => ofRq8 (fmtOf (bits o.param.toNat 31 28)) (bits o.param.toNat 27 25) (bOf r.2 % 256) (aOf r.2 % 256)
    Enters s cx (quantDec o cx (bits o.param.toNat 27 25 < 4)) rs → (∀ r ∈ rs, (v r).2 &&& cx.fen s &&& 0x5F = 0) →
    ∃ t, exec (.dqnt o) s = .next t ∧ cx.Writes s t cx.cls o.p.dreg.toNat o.p.nwb (rs.map fun r => (r.1, (v r).1)) ∧
      cx.Keeps s t ∧ (cx.regs t).fstat = (cx.regs s).fstat ||| BitVec.ofNat 32 (flagsOf (rs.map fun r => (v r).2))

/-- R170, R174, R175: the code of a real RQ8 value stands for it; ToRq8 rounds the scaled magnitude to nearest even and
holds at 59; a code read back under the same scale is that many steps of 2^(E − 127). -/
def Obligations.ScaledCodes : Prop :=
  ∀ (e : Nat) (neg : Bool) (m : Nat) (x : Int), e < 255 →
    let y : Rat := (m : Rat) * (2 : Rat) ^ (x + 127 - (e : Int))
    let c := toRq8 e (.fin neg m x)
    ∃ k ≤ 59, rq8Of c.1 = .real neg k ∧ c.1 < 256 ∧
      ((y ≤ 59 + 1 / 2 ∧ |y - k| ≤ 1 / 2 ∧ (|y - k| = 1 / 2 → k < 59 → k % 2 = 0) ∧ (c.2 = 16 ∨ c.2 = 0) ∧ (c.2 = 0 ↔ y = k)) ∨
        (59 + 1 / 2 ≤ y ∧ k = 59 ∧ c.2 = 32)) ∧
      ∀ code ≤ 2, ∀ rm < 4, 0 < k → Rounded (fmtOf code) rm ((if neg then -1 else 1) * k * (2 : Rat) ^ ((e : Int) - 127))
        (ofRq8 (fmtOf code) rm e c.1).1

/-! ## Loads, stores and atomics (12_isa_memory.md, 13_ordering.md) -/

namespace Sys2Proof.Claims

open Sys2Proof Sys2Proof.Machine

/-- The bytes of a number, lowest first: byte `i` of `v`. -/
def byteOf (v i : Nat) : Byte := BitVec.ofNat 8 (v / 256 ^ i)
/-- The number that bytes stand for, lowest first. -/
def number : List Byte → Nat
  | [] => 0
  | b :: r => b.toNat + 256 * number r
/-- A loaded value: zero-extended, or sign-extended to 64 bits in the signed forms (R293, R100). -/
def extended (o : MOp) (bs : List Byte) : Nat :=
  if o.wid.toNat ≥ 5 then ((BitVec.ofNat (8 * mWid o) (number bs)).signExtend 64).toNat else number bs

/-- A load or store: where it is valid, its space, whether its base is far (64 bits), whether the base may be of class v. -/
structure Access where
  instr : MOp → Instr
  valid : Kind → Option Nat
  sp : Space
  far : Bool
  vbase : Bool

def globalLoads : List Access := [
  ⟨.ld, everywhere, .glob, false, false⟩, ⟨.ldg, validIn [.T, .V] [], .glob, true, false⟩, ⟨.ldp, validIn [.T, .V] [], .prv, false, true⟩]
def globalStores : List Access := [
  ⟨.st, everywhere, .glob, false, false⟩, ⟨.sts, validIn [.T, .V] [], .glob, true, false⟩]
def allStores : List Access := globalStores ++ [⟨.stp, validIn [.T, .V] [], .prv, false, true⟩]

/-- How a load or store of this kind reads its operands, and the accesses of its lanes. -/
def Access.load (f : Access) (cx : Cx) (s : State) (o : MOp) : MemPlan := cx.memPlan s o f.valid (loadOk o f.sp) f.sp f.far f.vbase false
def Access.store (f : Access) (cx : Cx) (s : State) (o : MOp) : MemPlan := cx.memPlan s o f.valid (storeOk o f.sp) f.sp f.far f.vbase true

/-- The bytes of a store's data that a piece takes. -/
def piece (wid : Nat) (a : Acc) (q : Piece) : List Byte := (((List.range wid).map (byteOf (dataVal a.data))).drop q.ofs).take q.n
/-- What a byte holds after the stores of accesses whose pieces are `ps`, in order. -/
def stored (wid : Nat) (accs : List Acc) (ps : Acc → List Piece) (x : Nat) (old : Byte) : Byte :=
  (accs.flatMap fun a => (ps a).map fun q => (a, q)).foldl (fun v e =>
    if e.2.pa ≤ x ∧ x < e.2.pa + e.2.n then ((piece wid e.1 e.2)[x - e.2.pa]?).getD v else v) old

/-- The new value of an integer atomic (R302). -/
def atomicValue (aop w : Nat) (x b cmp : BitVec w) : BitVec w :=
  match aop with
  | 0 => x + b
  | 1 => if x.toInt ≤ b.toInt then x else b
  | 2 => if x.toInt ≥ b.toInt then x else b
  | 3 => x &&& b
  | 4 => x ||| b
  | 5 => x ^^^ b
  | 6 => b
  | 7 => if x = cmp then b else x
  | _ => if b ≤ x then 0 else x + 1

/-- The local bytes a context reaches (R493). -/
def localByte (cx : Cx) (s : State) (x : Nat) : Byte := ((cx.localBlk s).map fun b => Store.get b.mem.loc x).getD 0

end Sys2Proof.Claims

open Sys2Proof Sys2Proof.Machine Sys2Proof.Claims

/-- R266, R293, R296: LDL completes, and with LOAD_DATA_RETURN its registers take the bytes of local memory, low byte
first, extended as the form says; no byte and no other register changes. STL completes and writes its bytes to local
memory, in lane order; every other local byte, all of memory and every register stay. -/
def Obligations.LocalMemory : Prop :=
  (∀ (o : MOp) (s : State) (cx : Cx) (rs : List (Nat × List Nat)),
    let m := cx.memPlan s o (validIn [.T, .V, .S, .K] []) (loadOk o .loc) .loc false true false
    let accs := cx.memAccs s o .loc m rs
    Enters s cx m.d rs → Numbered s → cx.Passes s (mWid o) 0 accs →
    ∃ t u, exec (.ldl o) s = .next t ∧ exec (.loadDataReturn s.nextId) t = .next u ∧
      cx.Loaded s u (cx.formOf s o.p (mWid o) (mSext o))
        (accs.map fun a => (a.lane, extended o ((upFrom a.ea.toNat (mWid o)).map (localByte cx s)))) ∧
      cx.Only s u ∧ u.mem = s.mem ∧ (∀ x, localByte cx u x = localByte cx s x) ∧ cx.regs u = cx.regs s) ∧
  ∀ (o : MOp) (s : State) (cx : Cx) (rs : List (Nat × List Nat)),
    let m := cx.memPlan s o (validIn [.T, .V, .S, .K] []) (storeOk o .loc) .loc false true true
    let accs := cx.memAccs s o .loc m rs
    Enters s cx m.d rs → cx.Passes s (mWid o) 1 accs → cx.Clear s o →
    ∃ t, exec (.stl o) s = .next t ∧
      (∀ x, localByte cx t x = stored (mWid o) accs (cx.placed s (mWid o) 1) x (localByte cx s x)) ∧
      cx.SameRegs s t ∧ t.mem = s.mem ∧
      ∀ d sm, cx.localSite s ≠ some (d, sm) → (blockOf t d sm).map (·.mem) = (blockOf s d sm).map (·.mem)

/-- R272, R293 to R298: LD, LDG and LDP of package memory complete, and LOAD_DATA_RETURN gives their registers the bytes
that memory holds, where the place has no copy and no store of its own on the way; no byte and no other register changes.
That a load takes its bytes at issue is the model's reading (log 5). -/
def Obligations.LoadsFromMemory : Prop :=
  ∀ f ∈ globalLoads, ∀ (o : MOp) (s : State) (cx : Cx) (rs : List (Nat × List Nat)),
    let m := f.load cx s o
    let accs := cx.memAccs s o f.sp m rs
    Enters s cx m.d rs → Numbered s → Calm s → s.path = [] → cx.Passes s (mWid o) 0 accs →
    (∀ a ∈ accs, ∀ q ∈ cx.placed s (mWid o) 0 a, cx.Cold s q) → (cx.sealed s = true → mAcq o = false ∨ mWide o = false) →
    (∀ b, cx.blk s = some b → b.stage.staged = [] ∧ b.stage.window = []) → (f.sp = .prv → s.slices = []) →
    ∃ t u, exec (f.instr o) s = .next t ∧ exec (.loadDataReturn s.nextId) t = .next u ∧
      cx.Loaded s u (cx.formOf s o.p (mWid o) (mSext o))
        (accs.map fun a => (a.lane, extended o ((cx.placed s (mWid o) 0 a).flatMap fun q => (upFrom q.pa q.n).map (Store.get s.mem)))) ∧
      cx.Only s u ∧ u.mem = s.mem ∧ cx.regs u = cx.regs s

/-- R264: an access of LD, LDL, LDG or LDP that is not a multiple of its width raises ALIGN with the lowest such address,
whatever else is wrong with it, and nothing is loaded: in a context without threads the whole instruction. -/
def Obligations.MisalignedLoadsTrap : Prop :=
  ∀ f ∈ ⟨.ldl, validIn [.T, .V, .S, .K] [], .loc, false, true⟩ :: globalLoads,
  ∀ (o : MOp) (s : State) (cx : Cx) (rs : List (Nat × List Nat)),
    let m := f.load cx s o
    let accs := cx.memAccs s o f.sp m rs
    Enters s cx m.d rs → cx.isT = false → (cx.sealed s = true → mAcq o = false ∨ mWide o = false) →
    (∀ a ∈ accs, cx.rowOwed s (mWid o) 0 a = false) → outsideRead s cx.id = false →
    ∀ low ∈ accs, low.ea % mWid o ≠ 0 → (∀ a ∈ accs, a.ea % mWid o ≠ 0 → low.ea ≤ a.ea) →
    ∃ s1, exec (f.instr o) s = .next (cx.raise s1 m.d.srcs { cause := 9, addr := (BitVec.ofInt 64 low.ea).toNat } [0]) ∧
      cx.Keeps s s1 ∧ cx.SameRegs s s1

/-- R296, R324: in an open region ST and STS complete and their bytes join the stream's path to the home slices, lane by
lane, with the store's release and scope; no register and, until they perform, no byte of memory changes.
The path is the model's form of accesses in flight (log 5). -/
def Obligations.StoresJoinThePath : Prop :=
  ∀ f ∈ globalStores, ∀ (o : MOp) (s : State) (cx : Cx) (rs : List (Nat × List Nat)),
    let m := f.store cx s o
    let accs := cx.memAccs s o f.sp m rs
    Enters s cx m.d rs → cx.sealed s = false → cx.det s = 0 → cx.Passes s (mWid o) 1 accs → cx.Clear s o →
    (∀ a ∈ accs, ∀ q ∈ cx.placed s (mWid o) 1 a, ∀ g, frameOf s cx.id (q.pa / 128) = some g → g.state = .clean) →
    ∃ t, exec (f.instr o) s = .next t ∧ t.path.take s.path.length = s.path ∧
      (t.path.drop s.path.length).map (fun p => (p.pa, p.kind, p.ctx, p.who, p.release, p.scope)) =
        accs.flatMap (fun a => (cx.placed s (mWid o) 1 a).map fun q =>
          (q.pa, PathKind.store (piece (mWid o) a q) false, cx.id, a.lane, mRel o && mWide o, o.scope.toNat)) ∧
      cx.SameRegs s t ∧ cx.Only s t ∧ t.mem = s.mem ∧ (cx.mem t).loc = (cx.mem s).loc

/-- R268, R271, R272, R297: STP in an open region writes its words into lines that the core owns: every agent's read
gives them at once, thread t's word w at PBASE + (w × NTHR + t) × 4. Every other byte and every register stays. -/
def Obligations.PrivateStores : Prop :=
  ∀ (o : MOp) (s : State) (cx : Cx) (rs : List (Nat × List Nat)),
    let f : Access := ⟨.stp, validIn [.T, .V] [], .prv, false, true⟩
    let m := f.store cx s o
    let accs := cx.memAccs s o .prv m rs
    Enters s cx m.d rs → cx.sealed s = false → cx.det s = 0 → Calm s → s.slices = [] → s.path = [] → (coreOf s cx.core).tfq = [] →
    cx.Passes s (mWid o) 1 accs → (∀ a ∈ accs, ∀ q ∈ cx.placed s (mWid o) 1 a, cx.Cold s q) →
    ∃ t, exec (.stp o) s = .next t ∧
      (∀ x, byteAt t x = stored (mWid o) accs (cx.placed s (mWid o) 1) x (byteAt s x)) ∧
      (∀ a ∈ accs, 4 ≤ mWid o → (cx.placed s (mWid o) 1 a).map (·.va) = (List.range (mWid o / 4)).map fun i =>
        (cx.regs s).pbase.toNat + ((a.ea.toNat / 4 + i) * (cx.regs s).nthr.toNat + a.t) * 4) ∧
      cx.SameRegs s t ∧ cx.Only s t ∧ (cx.mem t).loc = (cx.mem s).loc

/-- R64: in a sealed region the stores of global and private memory go to the block's window as records of at most 8
aligned bytes, in lane order, and nothing performs: no byte of memory, no register, nothing on the path changes. A
determinism launch stages them in the ticket unit's allotment (R350). -/
def Obligations.StagedStores : Prop :=
  ∀ f ∈ allStores, ∀ (o : MOp) (s : State) (cx : Cx) (rs : List (Nat × List Nat)) (b : Block),
    let m := f.store cx s o
    let accs := cx.memAccs s o f.sp m rs
    let recs := accs.flatMap fun a => (cx.placed s (mWid o) 1 a).flatMap fun q =>
      (chunks8 3 q.pa (piece (mWid o) a q)).map fun c => (a.lane, c.1, c.2)
    Enters s cx m.d rs → cx.blk s = some b → cx.Passes s (mWid o) 1 accs → cx.Clear s o →
    ((cx.sealed s = true ∧ (mRel o = false ∨ mWide o = false) ∧ b.stage.window.length + recs.length ≤ 4096) ∨
      (cx.sealed s = false ∧ b.det ≠ 0 ∧ b.stage.staged.length + recs.length ≤ 16384)) →
    ∃ t b', exec (f.instr o) s = .next t ∧ cx.blk t = some b' ∧
      (if cx.sealed s then b'.stage.window.take b.stage.window.length = b.stage.window ∧ b'.stage.staged = b.stage.staged ∧
          (b'.stage.window.drop b.stage.window.length).map (fun r => (r.who, r.pa, r.bytes)) = recs
        else b'.stage.staged.take b.stage.staged.length = b.stage.staged ∧ b'.stage.window = b.stage.window ∧
          (b'.stage.staged.drop b.stage.staged.length).map (fun r => (r.who, r.pa, r.bytes)) = recs) ∧
      (∀ c ∈ recs, c.2.1 / 8 = (c.2.1 + c.2.2.length - 1) / 8) ∧ t.path = s.path ∧ t.mem = s.mem ∧ cx.SameRegs s t ∧ cx.Only s t

/-- R302 to R304, R324: in an open region ATOM and RED wider than .blk complete and join the path with their operation,
operand and compare value, ATOM's registers waiting for the old value; no register and no byte changes yet. R266, R303,
R491: in the local aperture they change the local word at once, ATOM's register takes the old value, and every other
local byte, all of memory and every other register stay.
The path is the model's form of accesses in flight (log 5). -/
def Obligations.AtomicsStart : Prop :=
  (∀ red : Bool, ∀ (o : MOp) (s : State) (cx : Cx) (rs : List (Nat × List Nat)),
    let m := cx.atomPlan s o red
    let accs := rs.map fun r => ({ sp := .glob, lane := r.1, data := r.2.drop 1, ea := cx.globalEa s none 0 r.1 m.base (aOfs o) (aOf r.2) } : Acc)
    Enters s cx m.d rs → Numbered s → mWide o = true → mAcq o = false → cx.sealed s = false → cx.det s = 0 →
    (∀ r ∈ rs, cx.aperture s r.1 (cx.globalEa s none 0 r.1 m.base (aOfs o) (aOf r.2)) (r.2.drop 1) =
      { sp := .glob, lane := r.1, data := r.2.drop 1, ea := cx.globalEa s none 0 r.1 m.base (aOfs o) (aOf r.2) }) →
    cx.Passes s (mWid o) 2 accs →
    ∃ t, exec (if red then .red o else .atom o) s = .next t ∧ t.path.take s.path.length = s.path ∧
      (t.path.drop s.path.length).map (fun p => (p.pa, p.kind, p.ctx, p.who, p.release, p.scope)) =
        accs.map (fun a => ((((cx.placed s (mWid o) 2 a).head?).map (·.pa)).getD 0,
          PathKind.atom (aAop o) (mWid o) (atomArgs o a.data).1 (atomArgs o a.data).2 (aAny o) (if red then none else some s.nextId) [],
          cx.id, a.lane, mRel o, o.scope.toNat)) ∧
      (red = false → o.p.nwb = false → ∀ a ∈ accs, ∃ p ∈ t.pending, p.id = s.nextId ∧ p.ctx = cx.id ∧ (a.lane, none, false) ∈ p.elts ∧
        ∀ k ∈ (cx.formOf s o.p (mWid o) false).keysOf a.lane, k ∈ p.keys) ∧
      cx.SameRegs s t ∧ cx.Only s t ∧ t.mem = s.mem ∧ (cx.mem t).loc = (cx.mem s).loc) ∧
  ∀ red : Bool, ∀ (o : MOp) (s : State) (cx : Cx) (r : Nat × List Nat) (a : Acc),
    let m := cx.atomPlan s o red
    let wid := mWid o
    let old := (upFrom a.ea.toNat wid).map (localByte cx s)
    let new := atomF (aAop o) (8 * wid) (number old) (atomArgs o a.data).1 (atomArgs o a.data).2
    Enters s cx m.d [r] → Numbered s → (mAcq o = false ∨ mWide o = false) → cx.Clear s o →
    a = cx.aperture s r.1 (cx.globalEa s none 0 r.1 m.base (aOfs o) (aOf r.2)) (r.2.drop 1) → a.sp = .loc →
    cx.Passes s wid 2 [a] → (∀ b, cx.localBlk s = some b → (b.mem.loadLoc a.ea.toNat wid).2 = false) →
    ∃ t u, exec (if red then .red o else .atom o) s = .next t ∧ exec (.loadDataReturn s.nextId) t = .next u ∧
      (∀ x, localByte cx u x = if a.ea.toNat ≤ x ∧ x < a.ea.toNat + wid then byteOf new (x - a.ea.toNat) else localByte cx s x) ∧
      (red = true → cx.SameRegs s u) ∧
      (red = false → cx.Loaded s u { cls := m.cls, wid, sext := false, nwb := o.p.nwb, dreg := cx.dataNum o.p.dreg.toNat } [(r.1, number old)]) ∧
      u.mem = s.mem


/-! ## Home slices, fences, waits, translation (11_memories.md, 12_isa_memory.md, 13_ordering.md, 16_tables.md) -/

open Sys2Proof Sys2Proof.Machine Sys2Proof.Claims

/-- R284, R290, R308, R324: when a store of the path performs, every agent's read gives its bytes from then on and every
other byte as before; the access leaves the path, and no register changes but of streams that wait on the line: their
waits end, and no other wait; one with remote-scope promotion is woken to promote first (R328).
The path is the model's form of accesses in flight (log 5). -/
def Obligations.StoresPerform : Prop :=
  (∀ (s : State) (p : PathOp) (bs : List Byte) (bad : Bool),
    s.path.find? (·.id == p.id) = some p → p.kind = .store bs bad → mayPerform s p = true → isPackage p.pa = true →
    p.pa % 128 + bs.length ≤ 128 → Calm s → Room s (p.pa / 128) →
    ∃ t, exec (.sliceWrite p.id) s = .next t ∧
      (∀ x, byteAt t x = if p.pa ≤ x ∧ x < p.pa + bs.length then (bs[x - p.pa]?).getD 0 else byteAt s x) ∧
      t.path = s.path.filter (fun q => q.id != p.id) ∧ linePoisoned t (p.pa / 128) = bad ∧
      ∀ d sm, (blockOf t d sm).map (fun b => (b.mem, b.regs, b.exec)) = (blockOf s d sm).map fun b => (b.mem, b.regs, b.exec)) ∧
  ∀ (s : State) (p : PathOp) (bs : List Byte) (bad : Bool),
    s.path.find? (·.id == p.id) = some p → p.kind = .store bs bad → mayPerform s p = true → isPackage p.pa = true →
    p.pa % 128 + bs.length ≤ 128 → (∀ line, (tagOf s line).bind (·.own) = none) → (∀ e ∈ s.iod.funcs, e.2.dten = false) →
    s.memPoison = [] → Room s (p.pa / 128) →
    ∃ t, exec (.sliceWrite p.id) s = .next t ∧
      ∀ c, (coreOf t c).monitors = (coreOf s c).monitors.filterMap fun m =>
        if m.line == p.pa / 128 && !m.woken then (if m.scope == 5 then some { m with woken := true } else none) else some m

/-- R302, R304: SUU_ATOMIC reads the old value, writes the new one, an integer atomic's modulo its width, with the
reductions merged into it one after another; every other byte stays; the old bytes come to the result that waits for them,
and no register changes before it returns. A merged .fadd's sum is the model's reading (log 56). -/
def Obligations.AtomicsPerform : Prop :=
  (∀ aop ≤ 8, ∀ (w : Nat) (x b cmp : BitVec w), (w = 32 ∨ w = 64) →
    atomF aop w x.toNat b.toNat cmp.toNat = (atomicValue aop w x b cmp).toNat) ∧
  (∀ aop ≤ 8, ∀ (w x b cmp : Nat) (more : List Nat), mergedF aop w x b cmp more = more.foldl (fun x b => atomF aop w x b cmp) (atomF aop w x b cmp)) ∧
  ∀ (s : State) (p : PathOp) (aop wid b cmp : Nat) (any : Bool) (pend : Option Nat) (more : List Nat),
    s.path.find? (·.id == p.id) = some p → p.kind = .atom aop wid b cmp any pend more → p.hi = none → mayPerform s p = true →
    isPackage p.pa = true → p.pa % 128 + wid ≤ 128 → Calm s → Room s (p.pa / 128) →
    let old := (upFrom p.pa wid).map (byteAt s)
    ∃ t, exec (.suuAtomic p.id) s = .next t ∧
      (∀ x, byteAt t x = if p.pa ≤ x ∧ x < p.pa + wid then byteOf (mergedF aop (8 * wid) (number old) b cmp more) (x - p.pa) else byteAt s x) ∧
      t.path = s.path.filter (fun q => q.id != p.id) ∧
      (∀ n, pend = some n → ∀ q ∈ t.pending, q.id = n → ∀ e ∈ q.elts, e.1 = p.who → e.2.1 = some old) ∧
      ∀ d sm, (blockOf t d sm).map (fun b => (b.mem, b.regs, b.exec)) = (blockOf s d sm).map fun b => (b.mem, b.regs, b.exec)

/-- R274, R307, R320, R324: where nothing of the stream is on its way FENCE completes and changes no register and no byte;
one wider than .blk leaves the place no CLEAN line. R300, R301: PREF completes whatever its address and changes no
register, and no byte where the translations are held. CFLUSH leaves no copy of its lines at the place, or with .keep none that is changed, and every
agent reads what it read before. -/
def Obligations.FencesAndCacheControl : Prop :=
  (∀ (o : MOp) (s : State) (cx : Cx) (rs : List (Nat × List Nat)),
    Enters s cx (fenceDec o) rs → (cx.sealed s = true → mWide o = false ∧ o.ofs.getLsbD 20 = false) →
    (∀ p ∈ s.path, p.ctx ≠ cx.id) → (∀ p ∈ s.outside, p.ctx ≠ cx.id) → cx.fetching s = false →
    (mRel o = true → o.scope = 4 → ∀ p ∈ s.outside, p.path = none) →
    ∃ t, exec (.fence o) s = .next t ∧ cx.SameRegs s t ∧ cx.Only s t ∧ t.mem = s.mem ∧ (cx.mem t).loc = (cx.mem s).loc ∧
      (mWide o = true → rs ≠ [] → ∀ f ∈ framesOf t cx.id, f.state ≠ .clean)) ∧
  (∀ (o : MOp) (s : State) (cx : Cx) (rs : List (Nat × List Nat)),
    Enters s cx (cx.addrDec o (o.scope == 0 && o.order == 0 && o.cpol.toNat ≤ 2 && o.wid == 0)) rs → Calm s →
    ∃ t, exec (.pref o) s = .next t ∧ cx.SameRegs s t ∧ cx.Only s t ∧ (cx.mem t).loc = (cx.mem s).loc ∧
      ((∀ r ∈ rs, ∃ pa, lookupTlb s cx.id (spaceOf s cx.id).1 (spaceOf s cx.id).2
        (cx.addrOf s (cx.addrDec o (o.scope == 0 && o.order == 0 && o.cpol.toNat ≤ 2 && o.wid == 0)) o r).toNat 0 = .ok pa) →
        t.mem = s.mem)) ∧
  ∀ (o : MOp) (s : State) (cx : Cx) (rs : List (Nat × List Nat)),
    let d := cx.addrDec o ((o.scope.toNat == 3 || o.scope.toNat == 4) && o.order == 0 && o.cpol.toNat ≤ 1 && o.wid == 0)
    let accs := rs.map fun r => ({ sp := .glob, lane := r.1, ea := cx.addrOf s d o r } : Acc)
    Enters s cx d rs → Calm s → cx.sealed s = false → cx.Passes s 1 0 accs → (∀ p ∈ s.path, p.ctx ≠ cx.id) →
    ∃ t, exec (.cflush o) s = .next t ∧ cx.SameRegs s t ∧ cx.Only s t ∧ (∀ x, byteAt t x = byteAt s x) ∧
      (∀ a ∈ accs, ∀ q ∈ cx.placed s 1 0 a, isPackage q.pa = true → ∀ f, frameOf t cx.id (q.pa / 128) = some f →
        o.cpol = 1 ∧ f.state = .clean) ∧ (cx.mem t).loc = (cx.mem s).loc

/-- R308: WAITA of a word that differs from B completes with the word in D and its predicate false; while it equals B the
stream waits at the home line and nothing changes. -/
def Obligations.WaitaCompletesOnChange : Prop :=
  ∀ (o : MOp) (s : State) (cx : Cx) (r : Nat × List Nat) (q : Piece),
    let d := waitaDec o s cx
    let a : Acc := { sp := .glob, lane := r.1, data := r.2.drop 1,
                     ea := cx.globalEa s none 0 r.1 ((d.srcs.head?).getD { n := 0, rc := .s }) (signed 18 o.ofs.toNat) (aOf r.2) }
    let v := number ((upFrom q.pa (mWid o)).map (Store.get s.mem))
    let f : LoadForm := { cls := cx.scalarCls, wid := mWid o, sext := false, dreg := cx.dataNum o.p.dreg.toNat, nwb := o.p.nwb }
    Enters s cx d [r] → Calm s → s.path = [] → cx.sealed s = false → cx.Passes s (mWid o) 0 [a] →
    cx.placed s (mWid o) 0 a = [q] → cx.Cold s q → (∀ b, cx.blk s = some b → b.stage.staged = [] ∧ b.stage.window = []) →
    ∃ t, exec (.waita o) s = .next t ∧ t.mem = s.mem ∧ cx.Only s t ∧ cx.regs t = cx.regs s ∧
      if v ≠ dataVal a.data % 2 ^ (8 * mWid o) then
        ∃ u, cx.Loaded s u f [(r.1, v)] ∧
          if waitPd o = 0 then u = t else cx.PredWrites u t cx.scalarCls (waitPd o) [(r.1, false)]
      else cx.SameRegs s t ∧ ∃ m ∈ (coreOf t cx.core).monitors, m.pa = q.pa ∧ m.owner = cx.id ∧ m.who = r.1

/-- R280, R282, R290: LINE_FILL gives a wanted line its tag and LINE_SETTLE places a written one again: the tag's entry
holds the line's bytes, or there is none when all are zero; an equal entry of its domain is shared. No byte changes. -/
def Obligations.LinesArePlaced : Prop :=
  ∀ (s : State) (line : Nat), linePoisoned s line = false → (sliceOf s (sliceOfLine line)).freeEntry.isSome →
    let holds := fun (t : State) (tag : Tag) => match tag.ent with
      | some e => ∃ p, Table.get? (sliceOf t (sliceOfLine line)).pond e = some p ∧ p.data = lineData s line
      | none => lineData s line = 0
    ((∃ f ∈ s.fills, f.line = line) → tagOf s line = none →
      ((sliceOf s (sliceOfLine line)).tags.filter fun e => setOfLine e.1 == setOfLine line).length < 12 →
      ∃ t tag, exec (.lineFill line) s = .next t ∧ tagOf t line = some tag ∧ holds t tag ∧ t.mem = s.mem ∧
        (∀ f ∈ t.fills, f.line ≠ line) ∧ (∀ l, l ≠ line → tagOf t l = tagOf s l) ∧
        ∀ e p, (sliceOf s (sliceOfLine line)).lookup (lineData s line) (domainOf s line) (pondHash (lineData s line) (domainOf s line)) = some e →
          lineData s line ≠ 0 → Table.get? (sliceOf s (sliceOfLine line)).pond e = some p →
          tag.ent = some e ∧ (Table.get? (sliceOf t (sliceOfLine line)).pond e).map (·.refs) = some (p.refs + 1)) ∧
    ∀ tag, tagOf s line = some tag → tag.set8 = true → tag.psn = false → tag.writtenAt + 1024 ≤ s.cycle →
      ∃ t tag', exec (.lineSettle line) s = .next t ∧ tagOf t line = some tag' ∧ tag'.set8 = false ∧ holds t tag' ∧ t.mem = s.mem ∧
        ∀ l, l ≠ line → tagOf t l = tagOf s l

/-- R382, R385: a walk through five valid tables reaches its 4 KiB page: each level's entry is found by 9 bits of the
address in the table that the level above names, and the page's frame, rights and the access's D are what the TLB gets. -/
def Obligations.WalkFindsPage : Prop :=
  ∀ (s : State) (asid : W16) (part va kind e w : Nat) (p : Nat → Nat), kind ≤ 3 →
    let table := fun (l : Nat) => bits (if l = 5 then e else p (l + 1)) 51 12
    readEntry s (s.iod.asidtb.toNat + 16 * asid.toNat) = some (e, false) →
    readEntry s (s.iod.asidtb.toNat + 16 * asid.toNat + 8) = some (w, false) → w < 2 ^ 16 → w = part →
    bit e 0 = true → bits e 63 52 = 0 → bits e 11 1 = 0 →
    (∀ l, 1 ≤ l → l ≤ 5 → readEntry s (table l * 4096 + 8 * (va / 2 ^ (12 + 9 * (l - 1)) % 512)) = some (p l, false) ∧
      bit (p l) 0 = true ∧ bits (p l) 63 52 = 0 ∧ (2 ≤ l → bits (p l) 8 1 = 0)) →
    bit (p 1) 4 = true → bit (p 1) 7 = false →
    (match kind with
      | 0 => bit (p 1) 1 = true
      | 1 => bit (p 1) 2 = true
      | 2 => bit (p 1) 1 = true ∧ bit (p 1) 2 = true
      | _ => bit (p 1) 3 = true) →
    let pa := bits (p 1) 51 12 * 4096 + va % 4096
    (isPackage pa = true ∨ isHost pa = true ∨ isPeer pa = true) →
    let entry : TlbEntry :=
      { asid, part, base := va / 4096 * 4096, size := 4096, frame := bits (p 1) 51 12 * 4096, rd := bit (p 1) 1
        wr := bit (p 1) 2, ex := bit (p 1) 3, dirty := kind == 1 || kind == 2 }
    walk s asid part va kind = .ok entry (table 1 * 4096 + 8 * (va / 4096 % 512))

/-- R381, R385, R386: PAGE_WALK ends a walk: the place's TLB then translates the address, and the entry's A, for a write
or an atomic its D too, are set; or the walk has failed with its status and no byte has changed. -/
def Obligations.PageWalkEnds : Prop :=
  ∀ (s : State) (w : Walk), s.walks.find? (·.id == w.id) = some w → w.parked = false → w.failed = none → w.crec = none →
    (∀ e pa, walk s w.asid w.part w.va w.kind = .ok e pa → Calm s → Room s (pa / 128) → pa % 8 = 0 → w.kind ≤ 3 →
      unserved s pa = false → isPackage pa = true →
      ∃ t, exec (.pageWalk w.id) s = .next t ∧ lookupTlb t w.ctx w.asid w.part w.va w.kind = .ok (e.frame + (w.va - e.base)) ∧
        number ((upFrom pa 8).map (byteAt t)) = number ((upFrom pa 8).map (byteAt s)) ||| (if w.kind = 1 ∨ w.kind = 2 then 0x60 else 0x20) ∧
        (∀ x, x < pa ∨ pa + 8 ≤ x → byteAt t x = byteAt s x) ∧ (∀ x ∈ t.walks, x.id ≠ w.id)) ∧
    ∀ k size, walk s w.asid w.part w.va w.kind = .bad k size → (k ≠ 4 ∨ ∀ c sl, w.ctx ≠ .blk c sl) →
      ∃ t, exec (.pageWalk w.id) s = .next t ∧ (∃ x ∈ t.walks, x.id = w.id ∧ x.failed = some k) ∧ t.mem = s.mem ∧ t.cores = s.cores

/-! ## Copies, barriers, tickets (12_isa_memory.md R309 to R317, 14_queues.md R347 to R351) -/

namespace Sys2Proof.Claims

open Sys2Proof Sys2Proof.Machine

/-- The object of a barrier form: its local bytes, or the bytes at its home slice. -/
def objectBytes (cx : Cx) (s : State) (o : KOp) (place : Nat) : List Byte :=
  (upFrom place 16).map fun x => if barGlb o then byteAt s x else localByte cx s x
/-- Where the object of an access lies. -/
def objectPlace (cx : Cx) (s : State) (o : KOp) (kind : Nat) (a : Acc) : Nat :=
  if barGlb o then (((cx.placed s 16 kind a).head?).map (·.pa)).getD 0 else a.ea.toNat
/-- The fields of an object (R313): EXP, ARR, PH, LOW, LAST. -/
structure Object where
  exp : Nat
  arr : Nat
  ph : Nat
  low : Nat
  last : Nat
  deriving DecidableEq
def Object.at (bs : List Byte) : Object :=
  { exp := number (bs.take 4), arr := number ((bs.drop 4).take 4), ph := number ((bs.drop 8).take 2),
    low := number ((bs.drop 10).take 3), last := number ((bs.drop 13).take 3) }
/-- Arrive (R315). -/
def Object.after (o : Object) (w idx : Nat) (role : Bool) : Object :=
  let low := if role then min o.low idx else o.low
  if o.arr + w = o.exp then { o with arr := 0, ph := (o.ph + 1) % 65536, low := 0xFFFFFF, last := low }
  else { o with arr := o.arr + w, low }
/-- The weight and the participant index of one acting lane, or of a control context (R315, R492). -/
def weight (cx : Cx) (s : State) : Nat := if cx.kind = .S then (cx.regs s).nthr.toNat else 1
def participant (cx : Cx) (s : State) (o : KOp) (lane : Nat) : Nat :=
  if barGlb o then (cx.regs s).bidx.toNat else match cx.kind with
    | .T => lane
    | .V => lane + 256 * barStrip o
    | _ => 0
/-- What an access to a barrier object needs: open region and quiet memory for one at a home slice; nothing of the place
that a release there would have to wait for. -/
def ObjectReady (cx : Cx) (s : State) (o : KOp) (kind : Nat) (a : Acc) : Prop :=
  cx.Passes s 16 (if barGlb o then kind else 2) [a] ∧
  if barGlb o then cx.sealed s = false ∧ Calm s ∧ s.path = [] ∧ cx.fetching s = false ∧
    (barScope o = 4 → ∀ p ∈ s.outside, p.path = none) ∧ Room s (objectPlace cx s o kind a / 128) ∧
    ∃ q, cx.placed s 16 kind a = [q] ∧ isPackage q.pa = true ∧ q.pa % 128 + 16 ≤ 128
  else cx.atomUnsent s 0 = false ∧ ∀ b, cx.localBlk s = some b → (b.mem.loadLoc a.ea.toNat 16).2 = false

end Sys2Proof.Claims

open Sys2Proof Sys2Proof.Machine Sys2Proof.Claims

/-- R309, R310, R347: a CPKICK whose lists pass their checks queues them, in lane order, at the engine it names, and
completes; CPWAIT completes when its word is zero and waits while it is not; CPDRAIN completes when no list of the block is
left. None of them changes a register, a local byte or memory. -/
def Obligations.CopiesAreQueued : Prop :=
  (∀ (o : KOp) (s : State) (cx : Cx) (rs : List (Nat × List Nat)) (c sl : Nat) (b : Block),
    let eng := if o.param.getLsbD 0 then 1 else 0
    Enters s cx (cpkickDec o s cx) rs → cx.localSite s = some (c, sl) → blockOf s c sl = some b →
    (∀ r ∈ rs, cx.cpFault s b (aOf r.2) (bOf r.2) = none ∧
      cx.rowOwed s (32 * bOf r.2) 0 { sp := .loc, lane := r.1, ea := (aOf r.2 : Nat) } = false) → (culvertLists s c eng).length + rs.length ≤ 8 →
    ∃ t, exec (.cpkick o) s = .next t ∧
      (culvertLists t c eng).map (fun l => (l.slot, l.who, l.sup, l.recs)) =
        (culvertLists s c eng).map (fun l => (l.slot, l.who, l.sup, l.recs)) ++ rs.map (fun r =>
          (sl, r.1, cx.kind == .K, (List.range (bOf r.2)).map fun i =>
            { cpRecOf ((upFrom (aOf r.2 + 32 * i) 32).map (localByte cx s)) (siteOf s b cx.pc.toNat) with
              who := r.1, sup := cx.kind == .K })) ∧
      cx.SameRegs s t ∧ t.mem = s.mem ∧ (∀ x, localByte cx t x = localByte cx s x) ∧
      ∀ r ∈ rs, cx.pcOf t r.1 = cx.next (cpkickDec o s cx)) ∧
  (∀ (o : KOp) (s : State) (cx : Cx) (r : Nat × List Nat) (b : Block),
    let a : Acc := { sp := .loc, lane := r.1, ea := (aOf r.2 : Nat) }
    Enters s cx (cpwaitDec o s cx) [r] → cx.Passes s 8 0 [a] → cx.localBlk s = some b → (b.mem.loadLoc (aOf r.2) 8).2 = false →
    ∃ t, exec (.cpwait o) s = .next t ∧ cx.SameRegs s t ∧ t.mem = s.mem ∧ (∀ x, localByte cx t x = localByte cx s x) ∧
      if number ((upFrom (aOf r.2) 8).map (localByte cx s)) = 0 then cx.pcOf t r.1 = cx.next (cpwaitDec o s cx) else cx.waitOf t r.1 = 8) ∧
  ∀ (o : KOp) (s : State) (cx : Cx) (rs : List (Nat × List Nat)) (c sl : Nat),
    Enters s cx (cpdrainDec o s cx) rs → cx.localSite s = some (c, sl) →
    ∃ t, exec (.cpdrain o) s = .next t ∧ cx.SameRegs s t ∧ t.mem = s.mem ∧ (∀ x, localByte cx t x = localByte cx s x) ∧
      ∀ r ∈ rs, if [0, 1].any (fun e => (culvertLists s c e).any fun l => l.slot == sl) then cx.waitOf t r.1 = 8
        else cx.pcOf t r.1 = cx.next (cpdrainDec o s cx)

/-- R311, R347: an engine copies one chunk of its first record, up to the row's end or the destination's 128-byte
boundary, then takes its length from the record's counter; the record goes on at its next chunk, or leaves. Every other
byte, local or in memory, stays. -/
def Obligations.CopyChunks : Prop :=
  ∀ (s : State) (c e : Nat) (l : CpList) (rest : List CpList) (r : CpRec) (more : List CpRec) (b : Block),
    let dst := (r.dst + r.row * r.dstr + r.ofs : Int).toNat
    let src := (r.src + r.row * r.sstr + r.ofs : Int).toNat
    let n := min (r.rowb - r.ofs) (128 - dst % 128)
    culvertLists s c e = l :: rest → l.recs = r :: more → l.waitPage = false → blockOf s c l.slot = some b →
    (∀ p ∈ s.path, p.ctx ≠ l.kicker c) → l.owed s c = false → Calm s → 0 < n →
    ∀ from_ : Nat → Byte,
    (if r.sloc then ∀ i < n, from_ i = Store.get b.mem.loc (src + i)
      else ∃ pa, lookupTlb s (.blk c l.slot) b.asid b.part src 0 = .ok pa ∧ isPackage pa = true ∧ src % 4096 + n ≤ 4096 ∧
        ∀ i < n, unserved s ((pa + i) / 128 * 128) = false ∧ from_ i = byteAt s (pa + i)) →
    ∀ to_ : Nat, (if r.dloc then to_ = dst
      else lookupTlb s (.blk c l.slot) b.asid b.part dst 1 = .ok to_ ∧ isPackage to_ = true ∧ to_ % 128 + n ≤ 128 ∧
        Room s (to_ / 128) ∧ unserved s to_ = false) →
    let copied := fun (x : Nat) => if r.dloc = true ∧ to_ ≤ x ∧ x < to_ + n then from_ (x - to_) else Store.get b.mem.loc x
    let left := (number ((upFrom r.bbar 8).map copied) + 2 ^ 64 - n) % 2 ^ 64
    let r' := if r.ofs + n < r.rowb then { r with ofs := r.ofs + n } else { r with ofs := 0, row := r.row + 1 }
    ∃ t b', exec (.culvertChunk c e) s = .next t ∧ blockOf t c l.slot = some b' ∧
      (∀ x, Store.get b'.mem.loc x = if r.bbar ≤ x ∧ x < r.bbar + 8 then byteOf left (x - r.bbar) else copied x) ∧
      (∀ x, byteAt t x = if r.dloc = false ∧ to_ ≤ x ∧ x < to_ + n then from_ (x - to_) else byteAt s x) ∧
      b'.mem.rows = b.mem.rows ∧ b'.regs = b.regs ∧
      culvertLists t c e = (if r'.row < r.nrow then { l with recs := r' :: more } :: rest
        else if more = [] then rest else { l with recs := more } :: rest)

/-- R313 to R316: BARI sets an object up; BARA and BARL add their weight and, at EXP, turn the phase, BARL with its index in
LOW; BARA gives the phase it found; BARW completes when the phase has left its token, its predicate true in the
participant with the role. Locally and at a home slice alike, for one acting lane or a control context.
Which index an element tests with at BARW is the model's reading (log 48). -/
def Obligations.Barriers : Prop :=
  (∀ (o : KOp) (s : State) (cx : Cx) (r : Nat × List Nat) (a : Acc),
    Enters s cx (bariDec o s cx) [r] → cx.barAccs s o [r] = [a] → 0 < bOf r.2 → bOf r.2 < 2 ^ 32 → barGlb o = false →
    ObjectReady cx s o 1 a →
    ∃ t, exec (.bari o) s = .next t ∧
      Object.at (objectBytes cx t o a.ea.toNat) = { exp := bOf r.2, arr := 0, ph := 0, low := 0xFFFFFF, last := 0xFFFFFF } ∧
      (∀ x, x < a.ea.toNat ∨ a.ea.toNat + 16 ≤ x → localByte cx t x = localByte cx s x) ∧ cx.SameRegs s t ∧ t.mem = s.mem) ∧
  (∀ (role : Bool) (o : KOp) (s : State) (cx : Cx) (r : Nat × List Nat) (a : Acc),
    let place := objectPlace cx s o 2 a
    let obj := Object.at (objectBytes cx s o place)
    Enters s cx (if role then barlDec o s cx else baraDec o s cx) [r] → cx.barAccs s o [r] = [a] → ObjectReady cx s o 2 a →
    obj.exp ≠ 0 → obj.arr + weight cx s ≤ obj.exp →
    ∃ t, exec (if role then .barl o else .bara o) s = .next t ∧
      Object.at (objectBytes cx t o place) = obj.after (weight cx s) (participant cx s o r.1) role ∧
      (∀ x, x < place ∨ place + 16 ≤ x → (barGlb o = true → byteAt t x = byteAt s x) ∧ (barGlb o = false → localByte cx t x = localByte cx s x)) ∧
      (if role then cx.SameRegs s t
        else cx.Writes s t (cx.dataCls s o.p.dreg.toNat) (cx.dataNum o.p.dreg.toNat) o.p.nwb [(r.1, obj.ph)])) ∧
  ∀ (o : KOp) (s : State) (cx : Cx) (r : Nat × List Nat) (a : Acc),
    let obj := Object.at (objectBytes cx s o (objectPlace cx s o 0 a))
    Enters s cx (barwDec o s cx) [r] → cx.barAccs s o [r] = [a] → ObjectReady cx s o 0 a → bOf r.2 < 2 ^ 16 →
    ∃ t, exec (.barw o) s = .next t ∧ t.mem = s.mem ∧ (∀ x, localByte cx t x = localByte cx s x) ∧
      if obj.ph = bOf r.2 then cx.SameRegs s t ∧ cx.waitOf t r.1 = 2
      else cx.pcOf t r.1 = cx.next (barwDec o s cx) ∧
        (if o.p.dreg = 0 then cx.SameRegs s t
          else cx.PredWrites s t cx.cls o.p.dreg.toNat
            [(r.1, obj.ph == (bOf r.2 + 1) % 65536 && obj.last == participant cx s o r.1)])

/-- R317, R350, R351: TICKET waits, changing nothing; once every lower block of the launch has taken as many tickets,
TICKET_GRANT writes what the block has staged and TICKET completes with the ticket's number.
That a grant is one step is the model's reading (log 53). -/
def Obligations.TicketsInOrder : Prop :=
  (∀ (o : ROp) (s : State) (cx : Cx), cxOf s = some cx → cx.decodeTrap s (ticketDec o cx) = none → cx.sealed s = false →
    ∃ t, exec (.ticket o) s = .next t ∧ cx.SameRegs s t ∧ t.mem = s.mem ∧ ∀ l ∈ cx.acts, cx.waitOf t l = 9) ∧
  ∀ (s : State) (c sl : Nat) (b : Block) (l : List W32) (p0 : W32) (rec_ : Option Staged),
    let nwb := bit p0.toNat 17
    let dreg := bits p0.toNat 23 18
    blockOf s c sl = some b → b.exec.model ≠ .threaded → b.exec.ctl.done = false → b.exec.ctl.wait = 9 → b.exec.ticketAsk = none →
    b.exec.ctl.line = some l → l[b.exec.ctl.pc.toNat / 4 % 32]? = some p0 → (fallNext (some l) b.exec.ctl.pc 1).2 = false →
    bits p0.toNat 2 0 = 0 → dreg < 32 → b.twin = none → ticketFree s b = true → Calm s → s.path = [] →
    (∀ f ∈ (coreOf s c).tfq, f.slot ≠ sl) →
    b.stage.staged = rec_.toList →
    (∀ r ∈ rec_, r.red = none ∧ isPackage r.pa = true ∧ r.pa % 128 + r.bytes.length ≤ 128 ∧ Room s (r.pa / 128) ∧ unserved s r.pa = false) →
    ∃ t b', exec (.ticketGrant c sl) s = .next t ∧ blockOf t c sl = some b' ∧ b'.stage.tk = b.stage.tk + 1 ∧ b'.stage.staged = [] ∧
      b'.exec.ctl.pc = (fallNext (some l) b.exec.ctl.pc 1).1 ∧ b'.exec.ctl.wait = 0 ∧
      (nwb = false → (b'.exec.ctl.s dreg).toNat = (b.stage.tk + 1) % 2 ^ 64) ∧
      (∀ n, nwb = true ∨ n ≠ dreg → b'.exec.ctl.s n = b.exec.ctl.s n) ∧ b'.mem.rows = b.mem.rows ∧ b'.regs = b.regs ∧
      ∀ x, byteAt t x = match rec_ with
        | some r => if r.pa ≤ x ∧ x < r.pa + r.bytes.length then (r.bytes[x - r.pa]?).getD 0 else byteAt s x
        | none => byteAt s x

/-! ## Tiles, accumulators, the collective (09_isa_matrix.md) -/

namespace Sys2Proof.Claims

open Sys2Proof Sys2Proof.Machine

/-- The 64-bit word of an accumulator element (R121): slot j, row i, column k. -/
def accAt (s : State) (c j i k : Nat) : Nat := (Store.get (coreOf s c).acc (accKey j i k)).toNat
/-- The word of an agreement register (R122). -/
def agAt (s : State) (c k : Nat) : Nat := (Store.get (coreOf s c).ag k).toNat
/-- A local row of `n` bytes may be used: aligned, within the local bytes, in a sealed region writable where it is written. -/
def rowFits (cx : Cx) (s : State) (al n : Nat) (store : Bool) (a : Nat) : Prop :=
  a % al = 0 ∧ a + n ≤ (cx.mem s).locb ∧ (store = true → cx.sealed s = true → inLwset (cx.region s) a n = true)
/-- A tile slot whose rows an operation can read: filled, with no marked row. -/
def tileReady (t : Tile) : Prop := t.fill = .ready ∧ t.poison = 0
/-- No fetch of the core's queue waits to be started. -/
def noneHeld (s : State) (c : Nat) : Prop := ∀ x ∈ (coreOf s c).tfq, x.started = true
/-- Local byte `x` of a block. -/
def blockByte (s : State) (c sl x : Nat) : Byte := ((blockOf s c sl).map fun b => Store.get b.mem.loc x).getD 0

end Sys2Proof.Claims

open Sys2Proof Sys2Proof.Machine Sys2Proof.Claims

/-- R212, R213, R215, R216: TFETCH queues a fetch for each acting lane, of the 32 lines that lie a stride apart from its
address and, with .sc, its sideband line; .rcv arms the slot as AWAITING. TILE_FETCH_PERFORM brings the bytes of memory
into the rows and makes the slot READY. TREL gives up the slot's pins, or in a sealed region after the commit.
When a fetch starts, and which lines of a full set get no pin, are the model's choices (logs 70, 47). -/
def Obligations.TileFetches : Prop :=
  (∀ f ∈ [Instr.tfetch, Instr.tfetchM], ∀ (o : POp) (s : State) (cx : Cx) (rs : List (Nat × List Nat)) (lines : Nat → List (Nat × Nat)),
    Enters s cx (cx.tfDec o) rs → tfRcv o = false → noneHeld s cx.core → (coreOf s cx.core).tfq.length + rs.length ≤ 4 →
    (∀ r ∈ rs, cx.fetchLines s o (aOf r.2) (if tfSc o then some (bOf r.2) else none) = .ok (lines r.1)) →
    ∃ t, exec (f o) s = .next t ∧
      ((coreOf t cx.core).tfq.drop (coreOf s cx.core).tfq.length).map (fun x => (x.who, x.k, x.lines.map (·.1), x.scale.map (·.1), x.mask)) =
        rs.map (fun r => (r.1, tfSlot o, (List.range 32).map fun i => ((aOf r.2 : Int) + i * (signed 16 (p1Of o) * 128)).toNat,
          if tfSc o then some (bOf r.2) else none, if tfMc o then some (BitVec.ofNat 6 (tfMask o)) else none)) ∧
      (∀ r ∈ rs, cx.pcOf t r.1 = cx.next (cx.tfDec o)) ∧ cx.SameRegs s t ∧ cx.Only s t ∧ t.mem = s.mem) ∧
  (∀ (o : POp) (s : State) (cx : Cx) (rs : List (Nat × List Nat)),
    Enters s cx (cx.tfDec o) rs → rs ≠ [] → tfRcv o = true →
    ∃ t, exec (.tfetchR o) s = .next t ∧ tileOf t cx.core (tfSlot o) = { tileOf s cx.core (tfSlot o) with fill := .awaiting, pins := [] } ∧
      (∀ k, k ≠ tfSlot o → tileOf t cx.core k = tileOf s cx.core k) ∧ cx.SameRegs s t ∧ cx.Only s t ∧ t.mem = s.mem) ∧
  (∀ (s : State) (c : Nat) (f : TileFetch) (b : Block),
    (coreOf s c).tfq = [f] → f.mask = none → f.started = true → f.lines.length = 32 → blockOf s c f.slot = some b →
    Calm s → s.path = [] → s.slices = [] → (∀ x ∈ f.all, isPackage x.2 = true ∧ x.2 % 128 = 0) →
    ∃ t, exec (.tileFetchPerform c) s = .next t ∧ (tileOf t c f.k).fill = .ready ∧ (coreOf t c).tfq = [] ∧ t.mem = s.mem ∧
      (∀ r l, f.lines[r]? = some l → ∀ i < 128, Store.get (tileOf t c f.k).rows (128 * r + i) = byteAt s (l.2 + i)) ∧
      (∀ l, f.scale = some l → ∀ i < 128, Store.get (tileOf t c f.k).rows (4096 + i) = byteAt s (l.2 + i)) ∧
      ∀ k, k ≠ f.k → tileOf t c k = tileOf s c k) ∧
  ∀ (o : ROp) (s : State) (cx : Cx) (rs : List (Nat × List Nat)) (b : Block),
    let k := o.p.srcA.toNat
    Enters s cx (trelDec o) rs → rs ≠ [] → cx.blk s = some b → (∀ e ∈ (coreOf s cx.core).mq, e.slot ≠ cx.place.2) →
    ∃ t, exec (.trel o) s = .next t ∧ (cx.sealed s = false → tileOf t cx.core k = { tileOf s cx.core k with pins := [] }) ∧
      (cx.sealed s = true → tileOf t cx.core k = tileOf s cx.core k ∧
        ∃ b', cx.blk t = some b' ∧ b'.stage.deferred = b.stage.deferred ++ [(cx.core, k)]) ∧
      cx.SameRegs s t ∧ cx.Only s t ∧ t.mem = s.mem

/-- R209, R222, R225 to R228: with an empty queue AZERO clears its slots' elements and keeps THR and REF, AGSET writes THR
and REF alone and AGGET returns the register, all at once; ALD, AST and DRN place a row of each acting lane, in order, and
MMA and MMAS of the vector model their operation with its format word. Nothing else changes.
That three of them act at once on an empty queue is the model's reading (log 27). -/
def Obligations.MatrixQueue : Prop :=
  (∀ (o : ROp) (s : State) (cx : Cx) (rs : List (Nat × List Nat)),
    let n := o.p.dreg.toNat
    let slots := if n < 8 then [n] else [2 * (n - 8), 2 * (n - 8) + 1]
    let pair := if n < 8 then n / 2 else n - 8
    Enters s cx (azeroDec o) rs → rs ≠ [] → (coreOf s cx.core).mq = [] → cx.placedHere s = 0 → noneHeld s cx.core → cx.maskOk s (·.amask) slots = true →
    ∃ t, exec (.azero o) s = .next t ∧
      (∀ j < 8, ∀ i < 32, ∀ k < 32, accAt t cx.core j i k = if j ∈ slots then 0 else accAt s cx.core j i k) ∧
      (∀ k, k ≠ pair → agAt t cx.core k = agAt s cx.core k) ∧
      (∀ i < 64, bit (agAt t cx.core pair) i = (bit (agAt s cx.core pair) i && (decide (i < 16) || (decide (32 ≤ i) && decide (i < 40))))) ∧
      cx.SameRegs s t ∧ cx.Only s t ∧ t.mem = s.mem) ∧
  (∀ (o : KOp) (s : State) (cx : Cx) (rs : List (Nat × List Nat)),
    let n := o.p.dreg.toNat
    Enters s cx (agsetDec o) rs → rs ≠ [] → (coreOf s cx.core).mq = [] → cx.placedHere s = 0 → noneHeld s cx.core → cx.pairOk s n = true →
    ∃ t, exec (.agset o) s = .next t ∧ agThr (agAt t cx.core n) = o.param.toNat % 65536 ∧
      agRef (agAt t cx.core n) = o.param.toNat / 65536 % 256 ∧ agZcnt (agAt t cx.core n) = agZcnt (agAt s cx.core n) ∧
      agAt t cx.core n / 2 ^ 40 = agAt s cx.core n / 2 ^ 40 ∧ (∀ k, k ≠ n → agAt t cx.core k = agAt s cx.core k) ∧
      (coreOf t cx.core).acc = (coreOf s cx.core).acc ∧ cx.SameRegs s t ∧ cx.Only s t ∧ t.mem = s.mem) ∧
  (∀ (o : KOp) (s : State) (cx : Cx) (rs : List (Nat × List Nat)),
    let f : LoadForm := { cls := cx.scalarCls, wid := 8, sext := false, dreg := o.p.dreg.toNat, nwb := o.p.nwb }
    Enters s cx (aggetDec cx o) rs → rs ≠ [] → Numbered s → (coreOf s cx.core).mq = [] → noneHeld s cx.core →
    ∃ t, exec (.agget o) s = .next t ∧ cx.Loaded s t f (rs.map fun r => (r.1, agAt s cx.core o.p.srcA.toNat)) ∧
      (coreOf t cx.core).ag = (coreOf s cx.core).ag ∧ (coreOf t cx.core).acc = (coreOf s cx.core).acc ∧ cx.Only s t ∧ t.mem = s.mem) ∧
  (∀ (kind : Fin 3) (o : POp) (s : State) (cx : Cx) (rs : List (Nat × List Nat)),
    let p1 := o.param.toNat
    let (d, al, n, instr) : Dec × Nat × Nat × Instr := match kind with
      | 0 => (cx.rowDec o (accP1Ok o), 8, 256, .ald o)
      | 1 => (cx.rowDec o (accP1Ok o), 8, 256, .ast o)
      | 2 => (drnDec cx o, if bits p1 21 18 = 0 ∨ bits p1 21 18 = 3 then 4 else 2, if bits p1 21 18 = 0 ∨ bits p1 21 18 = 3 then 128 else 64, .drn o)
    let op := fun (r : Nat × List Nat) => match kind with
      | 0 => MqOp.ald (bits p1 31 29) (aOf r.2) (bOf r.2 % 32)
      | 1 => MqOp.ast (bits p1 31 29) (aOf r.2) (bOf r.2 % 32)
      | 2 => MqOp.drn o.param (aOf r.2) (bOf r.2 % 32)
    Enters s cx d rs → rs ≠ [] → rs.length ≤ 16 → (coreOf s cx.core).mq = [] → cx.placedHere s = 0 → (∀ r ∈ rs, rowFits cx s al n (kind != 0) (aOf r.2)) →
    (kind = 0 → cx.maskOk s (·.amask) [bits p1 31 29] = true) → (kind = 2 → 4 ≤ bits p1 31 29 → cx.pairOk s (bits p1 28 26) = true) →
    ∃ t, exec instr s = .next t ∧ (coreOf t cx.core).mq.map (fun e => (e.slot, e.who, e.op)) = rs.map (fun r => (cx.place.2, r.1, op r)) ∧
      (∀ r ∈ rs, cx.pcOf t (if cx.isT then r.1 else 0) = cx.next d) ∧ (coreOf t cx.core).acc = (coreOf s cx.core).acc ∧
      cx.SameRegs s t ∧ cx.Only s t ∧ t.mem = s.mem ∧ ∀ x, localByte cx t x = localByte cx s x) ∧
  ∀ (split : Bool) (o : POp) (s : State) (cx : Cx) (r : Nat × List Nat),
    let p1 := o.param.toNat
    Enters s cx (mmaDec cx o split) [r] → cx.kind = .V → (coreOf s cx.core).mq = [] → cx.placedHere s = 0 → cx.maskOk s (·.amask) (dstSlots split p1) = true →
    aOf r.2 < 2 ^ 32 → formatOk (aOf r.2) p1 split (some (agRef (agAt s cx.core (pairOf split p1)))) = true →
    ∃ t, exec (if split then .mmas o else .mma o) s = .next t ∧
      (coreOf t cx.core).mq.map (fun e => (e.slot, e.op)) = [(cx.place.2, .mma split o.param (BitVec.ofNat 32 (aOf r.2)))] ∧
      cx.pcOf t 0 = cx.next (mmaDec cx o split) ∧ (coreOf t cx.core).acc = (coreOf s cx.core).acc ∧ cx.SameRegs s t ∧ cx.Only s t ∧ t.mem = s.mem

/-- R177 to R183, R223: MMA_ENTRY_EXECUTE of an INT8 operation adds the 64 signed products of each element's row and column
to it, modulo 2^32. Of RQ8 it adds to a residue element the exact sum of the products, each block's scaled by its two
exponents and REF, modulo M, the whole sum or, split, the positive products in the one slot and the magnitudes of the
negative ones in the other. No other slot, no register and no byte changes. -/
def Obligations.MultipliesAreExact : Prop :=
  ∀ (s : State) (c sl : Nat) (e : Mq) (split : Bool) (p1 fw : W32) (b : Block),
    let ta := tileOf s c (mmaTa p1.toNat)
    let tb := tileOf s c (mmaTb p1.toNat)
    let kh := mmaKh p1.toNat
    let dst := dstSlots split p1.toNat
    mqOf s c sl = [e] → (∀ n, (cvOf s c n).signs = []) → e.op = .mma split p1 fw → e.port = none → blockOf s c sl = some b → tileReady ta → tileReady tb →
    (coreOf s c).accPoison = [] → noneHeld s c →
    ∃ t, exec (.mmaEntryExecute c sl) s = .next t ∧ t.mem = s.mem ∧
      (∀ j < 8, j ∉ dst → ∀ i < 32, ∀ k < 32, accAt t c j i k = accAt s c j i k) ∧
      (∀ x, blockByte t c sl x = blockByte s c sl x) ∧
      (fw.toNat % 16 = 4 → split = false → ∀ j ∈ dst, ∀ i < 32, ∀ k < 32,
        (accAt t c j i k : Int) % 2 ^ 32 = (accAt s c j i k + ((List.range 64).map fun x =>
          (Store.get ta.rows (128 * i + 64 * kh + x)).toInt * (Store.get tb.rows (128 * k + 64 * kh + x)).toInt).sum) % 2 ^ 32) ∧
      (fw.toNat % 16 = 5 → ∀ i < 32, ∀ k < 32, ∀ (x y : Nat → List Int) (ea eb : Nat → Nat),
        let ref := agRef (agAt s c (pairOf split p1.toNat))
        let products := fun (q : Nat) => (x q).zipWith (· * ·) (y q)
        let plus := fun (q : Nat) => (((products q).filter fun z => 0 ≤ z).sum.toNat) * 2 ^ (ea q + eb q - ref)
        let minus := fun (q : Nat) => ((-((products q).filter fun z => z < 0).sum).toNat) * 2 ^ (ea q + eb q - ref)
        (∀ q < 4, rq8Row ta.rows i q = (ea q, (x q).map some) ∧ rq8Row tb.rows k q = (eb q, (y q).map some) ∧ ref ≤ ea q + eb q ∧
          plus q < 2 ^ 32 ∧ minus q < 2 ^ 32) →
        let old := fun (j : Nat) => accVal (accAt s c j i k)
        (∀ j ∈ dst, old j % 2 ^ 16 < 65535 ∧ old j / 2 ^ 32 < 65537) →
        if split then ∀ j0 j1, dst = [j0, j1] →
          residueCrt (accVal (accAt t c j0 i k)) = (residueCrt (old j0) + ((List.range 4).map plus).sum) % (2 ^ 48 - 2 ^ 16) ∧
          residueCrt (accVal (accAt t c j1 i k)) = (residueCrt (old j1) + ((List.range 4).map minus).sum) % (2 ^ 48 - 2 ^ 16)
        else ∀ j ∈ dst, (residueCrt (accVal (accAt t c j i k)) : Int) =
          (residueCrt (old j) + ((List.range 4).map fun q => (plus q : Int) - minus q).sum) % (2 ^ 48 - 2 ^ 16))

/-- R226, R230: ACC_ROW_TRANSFER of an ALD gives the row's elements the 8-byte numbers at the local address, of an AST
stores them there, lowest byte first. DRN_ROW_EXECUTE in mode VAL stores the row's integers as they are for INT32, and the
signed residue value times 2^(REF − 254 − STG), rounded once, for RQ8; in mode AGREE it stores zero where the halves agree too
little. Every other element, local byte and byte of memory stays. -/
def Obligations.RowsMove : Prop :=
  (∀ (s : State) (c sl j addr row : Nat) (e : Mq) (b : Block),
    mqOf s c sl = [e] → (∀ n, (cvOf s c n).signs = []) → noneHeld s c → blockOf s c sl = some b → j < 8 → row < 32 → (coreOf s c).accPoison = [] →
    (e.op = .ald j addr row →
      ∃ t, exec (.accRowTransfer c sl) s = .next t ∧ t.mem = s.mem ∧ (∀ x, blockByte t c sl x = blockByte s c sl x) ∧
        ∀ j' < 8, ∀ i < 32, ∀ k < 32, accAt t c j' i k = if j' = j ∧ i = row then number ((upFrom (addr + 8 * k) 8).map (blockByte s c sl))
          else accAt s c j' i k) ∧
    (e.op = .ast j addr row →
      ∃ t, exec (.accRowTransfer c sl) s = .next t ∧ t.mem = s.mem ∧ (∀ j' < 8, ∀ i < 32, ∀ k < 32, accAt t c j' i k = accAt s c j' i k) ∧
        ∀ x, blockByte t c sl x = if addr ≤ x ∧ x < addr + 256 then byteOf (accAt s c j row ((x - addr) / 8)) ((x - addr) % 8)
          else blockByte s c sl x)) ∧
  ∀ (s : State) (c sl addr row : Nat) (p1 : W32) (e : Mq) (b : Block),
    let mode := bits p1.toNat 31 29
    let slot := bits p1.toNat 28 26
    let afmt := bits p1.toNat 25 22
    let ofmt := bits p1.toNat 21 18
    let z := if ofmt = 0 ∨ ofmt = 3 then 4 else 2
    let f := fmtOf ofmt
    mqOf s c sl = [e] → (∀ n, (cvOf s c n).signs = []) → e.op = .drn p1 addr row → noneHeld s c → blockOf s c sl = some b → row < 32 → drnOk p1.toNat = true → (coreOf s c).accPoison = [] →
    ∃ t, exec (.drnRowExecute c sl) s = .next t ∧ t.mem = s.mem ∧ (∀ j < 8, ∀ i < 32, ∀ k < 32, accAt t c j i k = accAt s c j i k) ∧
      (∀ x, x < addr ∨ addr + 32 * z ≤ x → blockByte t c sl x = blockByte s c sl x) ∧
      let out := fun (k : Nat) => number ((upFrom (addr + z * k) z).map (blockByte t c sl))
      (mode = 0 → ofmt = 3 → ∀ k < 32, out k = accAt s c slot row k % 2 ^ 32) ∧
      (mode = 0 → afmt = 5 → ∀ k < 32, isNar (accVal (accAt s c slot row k)) = false →
        let v := residueCrt (accVal (accAt s c slot row k))
        let scale : Int := agRef (agAt s c (slot / 2)) - 254 - bits p1.toNat 17 15
        (v = 0 → out k = 0) ∧ (0 < v → 2 * v < 2 ^ 48 - 2 ^ 16 → out k = (f.round 0 false v scale).1) ∧
          (2 ^ 48 - 2 ^ 16 ≤ 2 * v → out k = (f.round 0 true (2 ^ 48 - 2 ^ 16 - v) scale).1)) ∧
      (mode = 5 → afmt = 5 → ∀ k < 32, isNar (accVal (accAt s c (2 * slot) row k)) = false → isNar (accVal (accAt s c (2 * slot + 1) row k)) = false →
        let p : Int := residueCrt (accVal (accAt s c (2 * slot) row k))
        let n : Int := residueCrt (accVal (accAt s c (2 * slot + 1) row k))
        |p - n| * 65536 < agThr (agAt s c slot) * (p + n) → out k = 0)

/-- R217 to R221: CVSET names the register's members. MMA and MMAS of the threaded model post their operation on it; CVSIGN
gives a member's word and waits. When all have signed one valid word the operation joins the queue with it, the round is
over and every member goes on. -/
def Obligations.Convergence : Prop :=
  (∀ (o : KOp) (s : State) (cx : Cx) (rs : List (Nat × List Nat)) (b : Block) (m : Nat),
    let v := cvOf s cx.core o.p.dreg.toNat
    Enters s cx (cvsetDec o) rs → cx.blk s = some b → (∀ r ∈ rs, aOf r.2 = m) → m < 2 ^ gangsOf b.nthr → gangsOf b.nthr ≤ 32 →
    v.signs = [] → v.desc = none → rs ≠ [] →
    ∃ t, exec (.cvset o) s = .next t ∧ cvOf t cx.core o.p.dreg.toNat = { v with gangs := BitVec.ofNat 32 m } ∧
      (∀ n, n ≠ o.p.dreg.toNat → cvOf t cx.core n = cvOf s cx.core n) ∧ (∀ r ∈ rs, cx.pcOf t r.1 = cx.next (cvsetDec o)) ∧
      cx.SameRegs s t ∧ cx.Only s t ∧ t.mem = s.mem) ∧
  (∀ (split : Bool) (o : POp) (s : State) (cx : Cx) (rs : List (Nat × List Nat)) (b : Block),
    let n := bits o.param.toNat 31 28
    let v := cvOf s cx.core n
    let p1 := BitVec.ofNat 32 (o.param.toNat % 2 ^ 28)
    Enters s cx (mmaDec cx o split) rs → cx.kind = .T → rs ≠ [] → cx.blk s = some b → cx.maskOk s (·.amask) (dstSlots split o.param.toNat) = true →
    v.gangs ≠ 0 → (∀ r ∈ rs, r.1 ∈ cvMembers b v) → (∀ d, v.desc = some d → d.1 = split ∧ d.2.1 = p1) →
    ∃ t, exec (if split then .mmas o else .mma o) s = .next t ∧
      cvOf t cx.core n = { v with desc := some (v.desc.getD (split, p1, cx.site s)) } ∧
      (∀ k, k ≠ n → cvOf t cx.core k = cvOf s cx.core k) ∧ (∀ r ∈ rs, cx.pcOf t r.1 = cx.next (mmaDec cx o split)) ∧
      cx.SameRegs s t ∧ cx.Only s t ∧ t.mem = s.mem) ∧
  ∀ (o : KOp) (s : State) (cx : Cx) (rs : List (Nat × List Nat)) (b : Block),
    let n := o.p.dreg.toNat
    let v := cvOf s cx.core n
    let ms := cvMembers b v
    Enters s cx (cvsignDec o) rs → rs.map (·.1) = cx.acts → rs ≠ [] → cx.blk s = some b → (∀ r ∈ rs, r.1 ∈ ms) →
    ((∃ m ∈ ms, m ∉ cx.acts ∧ Table.get? v.signs m = none) →
      ∃ t, exec (.cvsign o) s = .next t ∧ (cvOf t cx.core n).desc = v.desc ∧ (cvOf t cx.core n).gangs = v.gangs ∧
        (∀ r ∈ rs, Table.get? (cvOf t cx.core n).signs r.1 = some (some (BitVec.ofNat 32 (aOf r.2))) ∧ cx.waitOf t r.1 = 4) ∧
        (∀ m, m ∉ cx.acts → Table.get? (cvOf t cx.core n).signs m = Table.get? v.signs m) ∧ cx.SameRegs s t ∧ cx.Only s t ∧ t.mem = s.mem) ∧
    ∀ (split : Bool) (p1 : W32) (site w : Nat), v.signs = [] → v.desc = some (split, p1, site) → (∀ m ∈ ms, m ∈ cx.acts) →
      (∀ r ∈ rs, aOf r.2 = w) → w < 2 ^ 32 → formatOk w p1.toNat split (some (agRef (agAt s cx.core (pairOf split p1.toNat)))) = true →
      (coreOf s cx.core).mq = [] → b.claim.cv.getLsbD n = true → (∀ u ∈ b.exec.bundles, (∃ l ∈ u.members, l ∈ cx.acts) → u.line = cx.line ∧ u.pc = cx.pc) →
      ∃ t, exec (.cvsign o) s = .next t ∧ (coreOf t cx.core).mq.map (fun e => (e.slot, e.op, e.site)) = [(cx.place.2, .mma split p1 (BitVec.ofNat 32 w), site)] ∧
        cvOf t cx.core n = { v with signs := [], desc := none } ∧
        (∀ r ∈ rs, cx.waitOf t r.1 = 0 ∧ cx.pcOf t r.1 = cx.next (cvsignDec o)) ∧ cx.SameRegs s t ∧ cx.Only s t ∧ t.mem = s.mem

/-! ## Control flow, equivalence points, traps (10_isa_control.md, 03_versions.md, 18_traps.md) -/

namespace Sys2Proof.Claims

open Sys2Proof Sys2Proof.Machine

/-- The test of a BR by a control stream (R238): its guard's bit, any, all or none of the bits of its width. -/
def branchTest (cx : Cx) (s : State) (test grd : Nat) : Prop :=
  let n := if cx.kind = .V then cx.vl s else 256
  match test with
  | 1 => ∃ e, e < n ∧ cx.pbit s grd e = true
  | 2 => ∀ e < n, cx.pbit s grd e = true
  | 3 => ∀ e < n, cx.pbit s grd e = false
  | _ => cx.pbit s grd 0 = true
/-- Where a branch goes: of a thread its guard, of a control stream the test. -/
def takes (cx : Cx) (s : State) (o : POp) (l : Nat) : Prop :=
  if cx.isT then cx.pbit s o.p.grd.toNat l = true else branchTest cx s o.p.dreg.toNat o.p.grd.toNat
/-- The word displacement of a branch parcel, in bytes (R236). -/
def displacement (o : POp) : Int := 4 * (BitVec.ofNat 31 o.param.toNat).toInt

/-- A running block in an open region whose streams all wait for EP k, with nothing in flight and nothing that would hold
them there (R60, R68): the next region is open too, no debugger stop, no pre-emption. -/
structure AtEp (s : State) (cx : Cx) (o : POp) (c sl : Nat) (b : Block) (ob : KObj) (k : Nat) : Prop where
  place : cx.id = .blk c sl
  block : blockOf s c sl = some b
  object : objOf s b = some ob
  version : b.exec.model ≠ .spatial
  phase : b.phase = .running
  next : k = o.param.toNat % 65536 ∧ k = b.region + 1
  arrive : ∀ l ∈ b.streams, l ∈ cx.acts ∧ lineOf b l = cx.line
  stands : ∀ l ∈ b.streams, standsAt b l = (0xEF, o.param.toNat)
  still : Still s c
  faults : b.traps = []
  regions : (ob.region k).sealed = false ∧ b.det = 0 ∧ b.stage.deferred = [] ∧ b.stage.regionPins = []
  free : b.exec.grow = none ∧ b.regs.dbgctl = 0 ∧ b.want.preempt = false

end Sys2Proof.Claims

open Sys2Proof Sys2Proof.Machine Sys2Proof.Claims

/-- R236 to R239: BR takes its streams to PC plus the displacement where the guard, or in a control stream the test, holds
and the others on in fall-through order; JMP goes to its base plus the displacement, RET to its base, CALL writes the
address of the next instruction to its link register first. Nothing else changes. -/
def Obligations.Branches : Prop :=
  (∀ (o : POp) (s : State) (cx : Cx),
    let target : Int := cx.pc.toNat + displacement o
    cxOf s = some cx → cx.decodeTrap s (brDec o cx) = none → Calm s → s.path = [] →
    ((fallNext cx.line cx.pc 2).2 = false ∨ ∀ l ∈ cx.acts, takes cx s o l) → ((∃ l ∈ cx.acts, takes cx s o l) → cx.Lands s false target) →
    ∃ t, exec (.br o) s = .next t ∧ cx.SameRegs s t ∧ cx.Only s t ∧ t.mem = s.mem ∧
      ∀ l ∈ cx.acts, (takes cx s o l → cx.pcOf t l = BitVec.ofInt 57 target) ∧ (¬takes cx s o l → cx.pcOf t l = cx.next (brDec o cx))) ∧
  (∀ (o : POp) (s : State) (cx : Cx) (rs : List (Nat × List Nat)),
    Stands s cx (jmpDec o cx) rs → Calm s → s.path = [] → (∀ r ∈ rs, cx.Lands s false (aOf r.2 + displacement o)) →
    ∃ t, exec (.jmp o) s = .next t ∧ cx.SameRegs s t ∧ cx.Only s t ∧ t.mem = s.mem ∧
      ∀ r ∈ rs, cx.pcOf t r.1 = BitVec.ofInt 57 (aOf r.2 + displacement o)) ∧
  (∀ (o : ROp) (s : State) (cx : Cx) (rs : List (Nat × List Nat)),
    Stands s cx (retDec o cx) rs → Calm s → s.path = [] → (∀ r ∈ rs, cx.Lands s false (aOf r.2)) →
    ∃ t, exec (.ret o) s = .next t ∧ cx.SameRegs s t ∧ cx.Only s t ∧ t.mem = s.mem ∧ ∀ r ∈ rs, cx.pcOf t r.1 = BitVec.ofInt 57 (aOf r.2)) ∧
  ∀ (o : POp) (s : State) (cx : Cx) (rs : List (Nat × List Nat)),
    let target := fun (r : Nat × List Nat) => (if o.param.getLsbD 31 then (aOf r.2 : Int) else cx.pc.toNat) + displacement o
    let link : LoadForm := { cls := cx.scalarCls, wid := 8, sext := false, dreg := o.p.dreg.toNat, nwb := false }
    Stands s cx (callDec o cx) rs → Calm s → s.path = [] → (∀ r ∈ rs, cx.Lands s true (target r)) →
    ∃ t, exec (.call o) s = .next t ∧ cx.Loaded s t link (rs.map fun r => (r.1, (cx.next (callDec o cx)).toNat)) ∧
      cx.Only s t ∧ t.mem = s.mem ∧ ∀ r ∈ rs, cx.pcOf t r.1 = BitVec.ofInt 57 (target r)

/-- R242 to R244, R247, R250, R252, R48: NOP, YIELD and WDOG complete, WDOG with the limit of the acting threads' gangs and their counts
at zero; REJOIN's threads wait with their masks. At the regroup point threads whose site's masks are all met go on, each to
the next instruction of its own line, and free threads form bundles of one PC and distinct lanes until none is free. EP with every stream there and nothing in
flight opens its region and every stream goes on; HOP asks for the other version: FRC, and FTGT its greatest target. -/
def Obligations.StreamsRegroup : Prop :=
  (∀ (o : ROp) (s : State) (cx : Cx) (rs : List (Nat × List Nat)), Enters s cx (plainDec everywhere o.p 1 true true) rs →
    ∃ t, exec (.nop o) s = .next t ∧ cx.Keeps s t ∧ cx.SameRegs s t ∧
      ∀ r ∈ rs, cx.pcOf t r.1 = cx.next (plainDec everywhere o.p 1 true true)) ∧
  (∀ (o : KOp) (s : State) (cx : Cx) (rs : List (Nat × List Nat)), Enters s cx (plainDec everywhere o.p 2 (o.param == 0)) rs →
    ∃ t, exec (.yield o) s = .next t ∧ cx.SameRegs s t ∧ cx.Only s t ∧ t.mem = s.mem ∧
      ∀ r ∈ rs, cx.pcOf t r.1 = cx.next (plainDec everywhere o.p 2 (o.param == 0))) ∧
  (∀ (o : KOp) (s : State) (cx : Cx) (rs : List (Nat × List Nat)) (b : Block),
    let d := plainDec (validIn [.T] []) o.p 2 (bits o.param.toNat 23 20 == 0)
    let named := fun (g : Nat) => rs.any fun r => r.1 / 64 == g
    Enters s cx d rs → cx.blk s = some b →
    ∃ t b', exec (.wdog o) s = .next t ∧ cx.blk t = some b' ∧ cx.SameRegs s t ∧ cx.Only s t ∧ t.mem = s.mem ∧
      (∀ g, b'.exec.limits[g]? = (b.exec.limits[g]?).map fun l => if named g then BitVec.ofNat 20 o.param.toNat else l) ∧
      (∀ l < b.nthr, named (l / 64) = true → (threadOf b' l).wdog = 0) ∧ ∀ r ∈ rs, cx.pcOf t r.1 = cx.next d) ∧
  (∀ (o : ROp) (s : State) (cx : Cx) (rs : List (Nat × List Nat)), Stands s cx (rejoinDec o) rs →
    ∃ t, exec (.rejoin o) s = .next t ∧ cx.SameRegs s t ∧ cx.Only s t ∧ t.mem = s.mem ∧
      ∀ r ∈ rs, cx.waitOf t r.1 = 5 ∧ cx.pcOf t r.1 = cx.pc ∧
        ∀ b, cx.blk t = some b → (threadOf b r.1).rejoin = BitVec.ofNat 64 (aOf r.2)) ∧
  (∀ (o : POp) (s : State) (cx : Cx) (rs : List (Nat × List Nat)) (c sl : Nat) (b : Block) (ob : KObj) (k : Nat),
    Enters s cx (epDec o ob.nep) rs → AtEp s cx o c sl b ob k → b.regs.hopctl.toNat / 2 ^ 30 = 0 → isSealed s b = false → b.stage.window = [] →
    ∃ t b', exec (.ep o) s = .next t ∧ blockOf t c sl = some b' ∧ b'.region = k ∧
      (∀ l ∈ b.streams, b'.pcOf l = cx.next (epDec o ob.nep) ∧ b'.waitOf l = 0) ∧ cx.Only s t ∧ t.mem = s.mem) ∧
  (∀ (o : ROp) (s : State) (cx : Cx) (rs : List (Nat × List Nat)), Enters s cx (hopDec o) rs → rs ≠ [] →
    let h := (cx.regs s).hopctl.toNat
    ∃ t, exec (.hop o) s = .next t ∧ cx.Only s t ∧ t.mem = s.mem ∧
      (∀ c m l, cx.kind.has c = true → cx.reg t c m l = cx.reg s c m l) ∧ (∀ r ∈ rs, cx.pcOf t r.1 = cx.next (hopDec o)) ∧
      let h' := (cx.regs t).hopctl.toNat
      h' % 2 ^ 28 = h % 2 ^ 28 ∧ bits h' 29 28 = max (bits h 29 28) (o.p.srcA.toNat - 72) ∧ bit h' 30 = true ∧ bit h' 31 = bit h 31) ∧
  ∀ (s : State) (c sl : Nat) (b : Block),
    blockOf s c sl = some b → b.exec.model = .threaded → b.phase = .running → s.cycle % 4 = 0 → (∀ n, (cvOf s c n).signs = []) →
    b.liveThreads ≠ [] →
    let met := fun (l : Nat) => ∀ i < 64, (threadOf b l).rejoin.getLsbD i = false ∨ l / 64 * 64 + i ≥ b.nthr ∨
      (threadOf b (l / 64 * 64 + i)).live = false ∨
      ((threadOf b (l / 64 * 64 + i)).wait = 5 ∧ (threadOf b (l / 64 * 64 + i)).pc = (threadOf b l).pc)
    ((∀ l ∈ b.liveThreads, (threadOf b l).wait ≠ 5) ∧ (∃ l ∈ b.liveThreads, (threadOf b l).wait ≠ 6 ∧ (threadOf b l).wait ≠ 7) →
      ∃ t b', exec (.regroupPoint c sl) s = .next t ∧ blockOf t c sl = some b' ∧ (∀ l < b.nthr, b'.isFree l = false) ∧
        b'.exec.bundles.take b.exec.bundles.length = b.exec.bundles ∧ b'.exec.threads = b.exec.threads ∧ t.mem = s.mem ∧
        ∀ u ∈ b'.exec.bundles.drop b.exec.bundles.length, (∀ l ∈ u.members, b.isFree l = true ∧ (threadOf b l).pc = u.pc) ∧
          u.members.Pairwise fun x y => x % 64 ≠ y % 64) ∧
    ((∀ l ∈ b.liveThreads, l < b.nthr ∧ (threadOf b l).wait = 5 ∧ met l ∧ ∃ ln p0, lineOf b l = some ln ∧
        ln[(threadOf b l).pc.toNat / 4 % 32]? = some p0 ∧
        (fallNext (some ln) (threadOf b l).pc (if bits p0.toNat 16 10 = 127 then 2 else 1)).2 = false) →
      ∃ t b', exec (.regroupPoint c sl) s = .next t ∧ blockOf t c sl = some b' ∧ b'.mem = b.mem ∧ b'.regs = b.regs ∧ t.mem = s.mem ∧
        ∀ l ∈ b.liveThreads, (threadOf b' l).wait = 0 ∧ b'.isFree l = false ∧ ∀ ln p0, lineOf b l = some ln →
          ln[(threadOf b l).pc.toNat / 4 % 32]? = some p0 →
          (threadOf b' l).pc = (fallNext (some ln) (threadOf b l).pc (if bits p0.toNat 16 10 = 127 then 2 else 1)).1)

/-- R248, R249, R52, R53: EXIT ends the acting threads, and the block when none is left, or a control stream's block at
once. BLOCK_RETIREMENT frees a finished block's slot and counts it; with the last block of its launch the completion record
says DONE with the number of blocks, and the launch is over. -/
def Obligations.BlocksFinish : Prop :=
  (∀ (o : KOp) (s : State) (cx : Cx) (rs : List (Nat × List Nat)) (b : Block),
    let left := b.liveThreads.filter fun l => !(rs.map (·.1)).contains l
    Stands s cx (exitDec o) rs → cx.kind = .T → rs ≠ [] → cx.blk s = some b → isSealed s b = false → b.phase = .running →
    (∀ n, (cvOf s cx.core n).signs = []) → (left = [] ∨ ∃ l ∈ left, b.waitOf l ≠ 6 ∧ b.waitOf l ≠ 7) →
    ∃ t b', exec (.exit o) s = .next t ∧ cx.blk t = some b' ∧ b'.liveThreads = left ∧ (b'.phase = .finished ↔ left = []) ∧
      (∀ l ∈ left, l ∉ cx.acts → (threadOf b' l).pc = (threadOf b l).pc) ∧ cx.SameRegs s t ∧ cx.Only s t ∧ t.mem = s.mem) ∧
  (∀ (o : KOp) (s : State) (cx : Cx) (rs : List (Nat × List Nat)) (b : Block),
    Stands s cx (exitDec o) rs → cx.kind ≠ .T → rs ≠ [] → cx.blk s = some b → isSealed s b = false →
    (cx.kind = .S → (∀ p ∈ b.fab.ports, p.2.active = none ∧ p.2.pending = none) ∧ ∀ q ∈ b.fab.bufs, q.2 = []) →
    ∃ t b', exec (.exit o) s = .next t ∧ cx.blk t = some b' ∧ b'.phase = .finished ∧ b'.exec.ctl.done = true ∧
      cx.SameRegs s t ∧ cx.Only s t ∧ t.mem = s.mem) ∧
  ∀ (s : State) (c sl : Nat) (b : Block) (la : Launch),
    blockOf s c sl = some b → b.phase = .finished → b.det = 0 → b.traps = [] → Still s c → s.outside = [] → Calm s → s.slices = [] →
    launchOf s b.launch = some la → la.status = none → la.recorded = false → la.fault = none → b.regs.bidx.toNat ≥ la.low → la.retiredAbove = [] →
    (la.retired + 1 ≠ la.lpb.nblk.toNat →
      ∃ t, exec (.blockRetirement c sl) s = .next t ∧ blockOf t c sl = none ∧ (launchOf t b.launch).map (·.retired) = some (la.retired + 1) ∧
        t.mem = s.mem ∧ ∀ d sm, (d, sm) ≠ (c, sl) → blockOf t d sm = blockOf s d sm) ∧
    (la.retired + 1 = la.lpb.nblk.toNat → la.lpb.evta = 0 → ∀ (e : TlbEntry) (at_ : Nat),
      walk s la.asid la.part la.lpb.crec.toNat 1 = .ok e at_ →
      let pa := e.frame + (la.lpb.crec.toNat - e.base)
      isPackage pa = true → pa % 128 + 64 ≤ 128 → at_ / 128 ≠ pa / 128 →
      ∃ t, exec (.blockRetirement c sl) s = .next t ∧ blockOf t c sl = none ∧ launchOf t b.launch = none ∧
        byteAt t pa = 1 ∧ byteAt t (pa + 1) = 0 ∧ number ((upFrom (pa + 8) 8).map (byteAt t)) = la.lpb.nblk.toNat % 2 ^ 64)

/-- R60, R68, R75, R250: EP k with every stream there and nothing in flight opens region k, after a sealed one its window
performs first; the snapshot names the EP and each stream goes on, in its version or, at a request that can be met, in the
other, where a per-thread value of the map then reads as it did. -/
def Obligations.EquivalencePoints : Prop :=
  (∀ (o : POp) (s : State) (cx : Cx) (rs : List (Nat × List Nat)) (c sl : Nat) (b : Block) (ob : KObj) (k : Nat) (rec_ : Option Staged),
    Enters s cx (epDec o ob.nep) rs → AtEp s cx o c sl b ob k → b.regs.hopctl.getLsbD 30 = false →
    (b.regs.hopctl.getLsbD 31 = false ∨ b.vpref.getLsbD 2 = true ∨ b.sinceHop + 1 < bits b.regs.hopctl.toNat 23 16) → b.stage.window = rec_.toList →
    (isSealed s b = false → rec_ = none) → (isSealed s b = true → ∀ p ∈ s.outside, p.path = none) → Calm s →
    (∀ r ∈ rec_, r.red = none ∧ isPackage r.pa = true ∧ r.pa % 128 + r.bytes.length ≤ 128 ∧ Room s (r.pa / 128) ∧ unserved s r.pa = false) →
    ∃ t b', exec (.ep o) s = .next t ∧ blockOf t c sl = some b' ∧ b'.region = k ∧ b'.exec.model = b.exec.model ∧
      (∀ l ∈ b.streams, b'.pcOf l = cx.next (epDec o ob.nep) ∧ b'.waitOf l = 0) ∧ (b'.mem.snap.map (·.ep)) = some k ∧
      b'.mem.rows = b.mem.rows ∧ b'.mem.preds = b.mem.preds ∧ b'.mem.loc = b.mem.loc ∧ b'.stage.window = [] ∧
      (∀ x, byteAt t x = match rec_ with
        | some r => if r.pa ≤ x ∧ x < r.pa + r.bytes.length then (r.bytes[x - r.pa]?).getD 0 else byteAt s x
        | none => byteAt s x) ∧ cx.Only s t) ∧
  ∀ (o : POp) (s : State) (cx : Cx) (rs : List (Nat × List Nat)) (c sl : Nat) (b : Block) (ob : KObj) (k : Nat) (v : Model) (e : MapEntry),
    Enters s cx (epDec o ob.nep) rs → AtEp s cx o c sl b ob k → isSealed s b = false → b.stage.window = [] →
    b.vpref.getLsbD 2 = false → b.regs.hopctl.getLsbD 30 = true → bits b.regs.hopctl.toNat 29 28 = v.code → v ≠ b.exec.model →
    (ob.vsec v).isSome → placeable s c sl b (ob.region k) v = true → ob.entries k = [e] → hopMapFault b ob k v = false →
    e.ekind = 0 → e.width ≤ 3 → b.regs.trcctl = 0 → (e.loc v).lk = 1 ∧ (e.loc v).reg < 32 ∨ (e.loc v).lk = 2 ∧ e.bits_ / 8 ≤ (e.loc v).str → v ≠ .spatial →
    ∃ t b', exec (.ep o) s = .next t ∧ blockOf t c sl = some b' ∧ b'.region = k ∧ b'.exec.model = v ∧
      ∀ l < b.nthr, readLoc b' v e l = readLoc b b.exec.model e l

/-- R253, R254, R418 to R424, R431: a trap in an open region. TRAP and BKPT, of class U, go to the block's own handler: the
acting streams stand at TRAPVEC in handler state with the next instruction as resume point, TRAPCAUSE and TRAPADDR say why.
An unassigned opcode stops the block for supervisor code with the TRAP event, aborts its launch where no supervisor takes
traps, and of K and Y enters their own handler with INTCAUSE and INTPC. No register changes.
The corners of delivery are the model's readings (log 39). -/
def Obligations.TrapsAreTaken : Prop :=
  (∀ (bk : Bool) (o : POp) (o' : ROp) (s : State) (cx : Cx) (rs : List (Nat × List Nat)) (c sl : Nat) (b : Block),
    let d := if bk then plainDec everywhere o'.p 1 true else trapDec o
    let n := if bk then 0 else bits o.param.toNat 7 0
    Stands s cx d rs → rs ≠ [] → (∀ r ∈ rs, r.1 < 2048) → cx.id = .blk c sl → blockOf s c sl = some b → b.busy = false → isSealed s b = false →
    b.regs.trapvec ≠ 0 → b.regs.dbgctl = 0 → (∀ p ∈ s.pending, p.ctx = cx.id → p.sfu = false) →
    ∃ t b', exec (if bk then .bkpt o' else .trap o) s = .next t ∧ blockOf t c sl = some b' ∧ t.mem = s.mem ∧ cx.Only s t ∧
      (∀ r ∈ rs, let a := b'.at r.1; a.1 = b.regs.trapvec ∧ a.2.1 = cx.next d ∧ a.2.2.1 = true ∧ a.2.2.2 = 0) ∧
      b'.mem.rows = b.mem.rows ∧ b'.mem.preds = b.mem.preds ∧ b'.exec.ctl.sregs = b.exec.ctl.sregs ∧ b'.regs.trapaddr = BitVec.ofNat 57 n ∧
      b'.regs.trapep = 0xFFFFFFFF ∧ b'.regs.trapcause.toNat % 2 ^ 23 = (if bk then 25 else 26) + 256 * n ∧ b'.regs.trapcause.toNat / 2 ^ 28 = 0 ∧
      b'.regs.fstat = b.regs.fstat ∧ b'.regs.fen = b.regs.fen ∧
      (cx.isT = false → b'.regs.traplane = 0) ∧ (cx.isT = true → ∀ g, (∃ r ∈ rs, r.1 / 64 = g) → (∀ r ∈ rs, g ≤ r.1 / 64) →
        ∀ i < 64, b'.regs.traplane.getLsbD i = rs.any fun r => r.1 == 64 * g + i)) ∧
  (∀ (p q : W32) (s : State) (cx : Cx) (c sl : Nat) (b : Block),
    cxOf s = some cx → cx.id = .blk c sl → blockOf s c sl = some b → b.busy = false → isSealed s b = false → cx.acts ≠ [] →
    (∀ l ∈ b.streams, l ∈ cx.acts) → (∀ x ∈ s.pending, x.ctx = cx.id → x.sfu = false) → (coreOf s c).sup.intr.inten.getLsbD 0 = true → sl < 8 →
    ∃ t b', exec (.unassignedOpcode p q) s = .next t ∧ blockOf t c sl = some b' ∧ t.mem = s.mem ∧ (∀ d sm, (d, sm) ≠ (c, sl) → blockOf t d sm = blockOf s d sm) ∧
      (∃ i ents, b'.phase = .stopped 0 i ents) ∧ (coreOf t c).svevt.getLsbD (4 * sl) = true ∧ (coreOf t c).sup.intr.intpend.getLsbD 0 = true ∧
      b'.regs.trapcause.toNat % 256 = 1 ∧ b'.regs.trapcause.getLsbD 31 = true ∧ (∀ l ∈ cx.acts, (b'.at l).1 = cx.pc) ∧
      b'.mem.rows = b.mem.rows ∧ b'.mem.preds = b.mem.preds ∧ b'.exec.ctl.sregs = b.exec.ctl.sregs) ∧
  (∀ (p q : W32) (s : State) (cx : Cx) (c sl : Nat) (b : Block) (la : Launch),
    cxOf s = some cx → cx.id = .blk c sl → blockOf s c sl = some b → b.busy = false → isSealed s b = false → cx.acts ≠ [] →
    (coreOf s c).sup.intr.inten.getLsbD 0 = false → (∀ x, partOf s b.part = some x → x.dumps = false) →
    launchOf s b.launch = some la → la.fault = none → la.status = none → Calm s → (∀ p ∈ s.path, p.ctx ≠ cx.id) →
    ∃ t, exec (.unassignedOpcode p q) s = .next t ∧ blockOf t c sl = none) ∧
  ∀ (p q : W32) (s : State) (cx : Cx) (x : Ctl),
    cxOf s = some cx → (∀ c sl, cx.id ≠ .blk c sl) → ctlOf s cx.id = some x → x.handler = false → x.intr.intvec ≠ 0 →
    (∀ i < 4, (x.intr.intpend &&& x.intr.inten).getLsbD i = false) → (∀ n, cx.id = .sys n → bits (sysOf s n).rplctl.toNat 31 30 = 0) →
    (∀ y ∈ s.pending, y.ctx = cx.id → y.sfu = false) →
    ∃ t x', exec (.unassignedOpcode p q) s = .next t ∧ ctlOf t cx.id = some x' ∧ x'.pc = x.intr.intvec ∧ x'.handler = true ∧
      x'.intr.intpc = cx.pc ∧ x'.intr.intcause = 1 ∧ x'.intr.intpend = x.intr.intpend ||| 0x10 ∧ x'.sregs = x.sregs ∧ x'.preds = x.preds ∧
      t.mem = s.mem ∧ cx.Only s t

/-- R255, R431: RETT takes streams in handler state back to their resume points, of K and Y to INTPC; INTERRUPT_ENTRY takes
a running K or Y context at a stop place to INTVEC for its lowest ready interrupt, its PC in INTPC. -/
def Obligations.HandlersReturn : Prop :=
  (∀ (o : ROp) (s : State) (cx : Cx) (rs : List (Nat × List Nat)),
    Stands s cx (plainDec everywhere o.p 1 (o.p.grd == 0)) rs →
    (∀ c sl b, cx.id = .blk c sl → blockOf s c sl = some b →
      (∀ l ∈ cx.acts, (b.at l).2.2.1 = true) →
      ∃ t b', exec (.rett o) s = .next t ∧ blockOf t c sl = some b' ∧ t.mem = s.mem ∧ cx.SameRegs s t ∧ cx.Only s t ∧
        ∀ l ∈ cx.acts, let a := b'.at l; a.1 = (b.at l).2.1 ∧ a.2.2.1 = false ∧ a.2.2.2 = 0) ∧
    ((∀ c sl, cx.id ≠ .blk c sl) → ∀ x, ctlOf s cx.id = some x → x.handler = true →
      ∃ t x', exec (.rett o) s = .next t ∧ ctlOf t cx.id = some x' ∧ x'.pc = x.intr.intpc ∧ x'.handler = false ∧ x'.intr = x.intr ∧
        t.mem = s.mem ∧ cx.SameRegs s t ∧ cx.Only s t)) ∧
  ∀ (id : CtxId) (s : State) (x : Ctl) (i : Nat),
    (∀ c sl, id ≠ .blk c sl) → ctlOf s id = some x → x.handler = false → x.intr.intvec ≠ 0 → x.halted = false → inWfi x = false →
    stopAt x.line x.pc x.wait.toNat = true → i < 16 → x.intr.intpend.getLsbD i = true → (i = 4 ∨ x.intr.inten.getLsbD i = true) →
    (∀ j < i, x.intr.intpend.getLsbD j = true → j ≠ 4 ∧ x.intr.inten.getLsbD j = false) →
    (∀ n, id = .sys n → bits (sysOf s n).rplctl.toNat 31 30 = 0) → (∀ y ∈ s.pending, y.ctx = id → y.sfu = false) →
    ∃ t x', exec (.interruptEntry id) s = .next t ∧ ctlOf t id = some x' ∧ x'.pc = x.intr.intvec ∧ x'.intr.intpc = x.pc ∧ x'.handler = true ∧
      x'.intr.intpend = x.intr.intpend ∧ x'.sregs = x.sregs ∧ x'.preds = x.preds ∧ t.mem = s.mem

/-- R66, R246, R247, R256, R257, R346, R423 to R425, R494: an engine's fault reaches the block's handler at a stop place, as an
imprecise trap; a debugger's halt stops the block for supervisor code; a gang's watchdog traps its threads with their
counts. GROW and SHRINK, requested by every thread, and GROW_GRANT change the budget where the rows are free: registers
below both budgets stay, new ones read as zero. A free window goes to the block that waits for it longest. In a deadlock of GROWs the youngest block is asked to leave. -/
def Obligations.StopsAndBudgets : Prop :=
  (∀ (s : State) (c sl : Nat) (b : Block) (f : TrapInfo) (r : List TrapInfo),
    (coreOf s c).supTraps = [] → blockOf s c sl = some b → b.traps = f :: r → b.streams ≠ [] → b.busy = false → isSealed s b = false → (∀ l ∈ b.streams, b.atStop l = true) →
    isUserClass f.cause = true → f.gang = none → b.exec.threads.length ≤ 2048 → f.debug = false → f.detail < 4096 → f.wst < 8 → f.imprecise = true → b.regs.trapvec ≠ 0 →
    (∀ p ∈ s.pending, p.ctx = .blk c sl → p.sfu = false) →
    ∃ t b', exec (.trapDelivery c sl) s = .next t ∧ blockOf t c sl = some b' ∧ b'.traps = r ∧ t.mem = s.mem ∧ b'.mem.rows = b.mem.rows ∧
      b'.regs.trapcause.toNat % 256 = f.cause ∧ b'.regs.trapcause.getLsbD 28 = true ∧
      ∃ l ∈ b.streams, let a := b'.at l; a.1 = b.regs.trapvec ∧ a.2.1 = b.pcOf l ∧ a.2.2.1 = true) ∧
  (∀ (s : State) (c sl : Nat) (b : Block),
    blockOf s c sl = some b → b.regs.dbgctl.getLsbD 0 = true → b.regs.dbgctl.getLsbD 2 = true → b.phase = .running → isSealed s b = false →
    b.busy = false → b.streams ≠ [] → (∀ l ∈ b.streams, b.atStop l = true) → (coreOf s c).sup.intr.inten.getLsbD 0 = true → sl < 8 →
    (∀ p ∈ s.pending, p.ctx = .blk c sl → p.sfu = false) →
    ∃ t b', exec (.debugHaltStop c sl) s = .next t ∧ blockOf t c sl = some b' ∧ (∃ i e, b'.phase = .stopped 0 i e) ∧
      (coreOf t c).svevt.getLsbD (4 * sl) = true ∧ b'.regs.trapcause.toNat % 256 = 25 ∧ b'.regs.trapcause.getLsbD 30 = true ∧
      t.mem = s.mem ∧ b'.mem.rows = b.mem.rows ∧ ∀ l ∈ b.streams, (b'.at l).1 = b.pcOf l) ∧
  (∀ (s : State) (c sl g limit : Nat) (b : Block),
    let named := b.liveThreads.filter fun l => l / 64 == g
    blockOf s c sl = some b → b.exec.model = .threaded → (b.exec.limits[g]?).map (·.toNat) = some limit → 0 < limit → b.busy = false →
    isSealed s b = false → b.regs.trapvec ≠ 0 → (∃ l ∈ named, limit * 256 ≤ (threadOf b l).wdog.toNat) →
    (∀ p ∈ s.pending, p.ctx = .blk c sl → p.sfu = false) →
    ∃ t b', exec (.watchdogExpiry c sl g) s = .next t ∧ blockOf t c sl = some b' ∧ b'.regs.trapcause.toNat % 256 = 15 ∧ t.mem = s.mem ∧
      b'.mem.rows = b.mem.rows ∧ ∀ l ∈ named, (b'.at l).1 = b.regs.trapvec ∧ (b'.at l).2.1 = (threadOf b l).pc ∧
        (threadOf b' l).trapAux.toNat = (threadOf b l).wdog.toNat ∧ (l < b.nthr → (threadOf b' l).wdog = 0)) ∧
  (∀ (grow : Bool) (o : KOp) (s : State) (cx : Cx) (rs : List (Nat × List Nat)) (c sl : Nat) (b : Block),
    let n := o.param.toNat % 128
    Enters s cx (budgetDec o) rs → cx.id = .blk c sl → blockOf s c sl = some b → b.phase = .running → b.exec.grow = none → b.streams ≠ [] →
    (∀ l ∈ b.streams, l ∈ cx.acts ∧ lineOf b l = cx.line ∧ standsAt b l = (0xF4, (if grow then 0 else 2 ^ 24) + o.param.toNat)) →
    (∀ u ∈ b.exec.bundles, (∃ l ∈ u.members, l ∈ cx.acts) → u.pc = cx.pc) → (∀ l m, b.mem.budget ≤ m → m < 64 → b.mem.g l m = 0) →
    (if grow then b.mem.budget < n ∧ gangsOf b.nthr ≤ 32 ∧ rowsUsed s c - b.mem.rowBytes + gangsOf b.nthr * 256 * n ≤ 524288 else n < b.mem.budget) →
    ∃ t b', exec (if grow then .grow o else .shrink o) s = .next t ∧ blockOf t c sl = some b' ∧ b'.mem.budget = n ∧
      b'.mem.rowBytes = gangsOf b.nthr * 256 * n ∧ (∀ l ∈ b.streams, b'.pcOf l = cx.next (budgetDec o) ∧ b'.waitOf l = 0) ∧
      (∀ l m, m < 64 → b'.mem.g l m = if m < n ∧ m < b.mem.budget then b.mem.g l m else 0) ∧ b'.mem.preds = b.mem.preds ∧ t.mem = s.mem ∧ cx.Only s t) ∧
  (∀ (s : State) (c sl n : Nat) (b : Block) (k : Bool),
    blockOf s c sl = some b → b.exec.grow = some (k, n) → rowsUsed s c - b.mem.rowBytes + gangsOf b.nthr * 256 * n ≤ 524288 →
    (∀ u ∈ b.exec.bundles, ∀ l ∈ u.members, (threadOf b l).pc = u.pc) → (∀ l m, b.mem.budget ≤ m → m < 64 → b.mem.g l m = 0) →
    (∀ l ∈ b.streams, ∃ ln, lineOf b l = some ln ∧ (fallNext (some ln) (b.pcOf l) 2).2 = false) →
    ∃ t b', exec (.growGrant c sl) s = .next t ∧ blockOf t c sl = some b' ∧ b'.exec.grow = none ∧ b'.mem.budget = n ∧
      (∀ l ∈ b.streams, b'.pcOf l = (fallNext (lineOf b l) (b.pcOf l) 2).1 ∧ b'.waitOf l = 0) ∧
      (∀ l m, m < 64 → b'.mem.g l m = if m < n ∧ m < b.mem.budget then b.mem.g l m else 0) ∧ t.mem = s.mem) ∧
  (∀ (s : State) (c sl : Nat) (b : Block),
    blockOf s c sl = some b → b.exec.sealedWait.isSome → isSealed s b = true → b.stage.hasWindow = false →
    (∀ e ∈ (coreOf s c).slots, e.2.exec.sealedWait.isSome → b.placedAt ≤ e.2.placedAt) →
    ((coreOf s c).slots.filter fun e => e.2.stage.hasWindow).length < (if (coreOf s c).fabricOf.isSome then 1 else 3) →
    (∀ f ∈ (coreOf s c).l1, f.state = .clean) →
    ∃ t, exec (.sealWindowGrant c sl) s = .next t ∧ t.mem = s.mem ∧
      blockOf t c sl = some { b with stage := { b.stage with hasWindow := true }, exec := { b.exec with sealedWait := none } }) ∧
  ∀ (s : State) (c : Nat), (coreOf s c).slots ≠ [] →
    (∀ e ∈ (coreOf s c).slots, e.2.coop = false ∧ e.2.twin = none ∧ e.2.want.preempt = false ∧ ∃ k n, e.2.exec.grow = some (k, n) ∧
      524288 < rowsUsed s c - e.2.mem.rowBytes + gangsOf e.2.nthr * 256 * n) → (∀ e ∈ (coreOf s c).slots, e.2.placedAt < 2 ^ 64) →
    ∃ t sl b, exec (.growDeadlock c) s = .next t ∧ (sl, b) ∈ (coreOf s c).slots ∧ (∀ e ∈ (coreOf s c).slots, e.2.placedAt ≤ b.placedAt) ∧
      (blockOf t c sl).map (·.want.preempt) = some true ∧ t.mem = s.mem

/-! ## Launches, armed launches, messages (14_queues.md) -/

namespace Sys2Proof.Claims

open Sys2Proof Sys2Proof.Machine

/-- A structure of `n` bytes at a lane's address, in one line of package memory that the place's cache does not hold. -/
def ReadsWhole (cx : Cx) (s : State) (n : Nat) (a : Acc) (q : Piece) : Prop :=
  cx.Passes s n 0 [a] ∧ cx.placed s n 0 a = [q] ∧ cx.Cold s q ∧ q.n = n
def structureAt (s : State) (q : Piece) : List Byte := (upFrom q.pa q.n).map (Store.get s.mem)
/-- A field of a structure, lowest byte first. -/
def fieldOf (bs : List Byte) (at_ n : Nat) : Nat := number ((bs.drop at_).take n)
/-- The entry that an ARM record makes (R337). -/
def armedAs (bs : List Byte) (sp : W16 × Nat) (lpb : List Byte) : Armed :=
  { tag := BitVec.ofNat 64 (fieldOf bs 0 8), bufb := fieldOf bs 0x10 8, bufs := fieldOf bs 0x18 4, nslot := fieldOf bs 0x1C 2,
    oneshot := fieldOf bs 0x1E 2 == 1, arrn := 0, part := sp.2, asid := sp.1, lpb }
/-- An open place with nothing on its way. -/
def Open (cx : Cx) (s : State) : Prop :=
  cx.sealed s = false ∧ cx.det s = 0 ∧ Calm s ∧ s.path = [] ∧ ∀ b, cx.blk s = some b → b.twin = none
/-- What a write of the network unit leaves alone, so far as a launch is judged by it. -/
def JudgedAlike (s t : State) (lo n entry : Nat) : Prop :=
  t.objects = s.objects ∧ { t.iod with counters := [] } = { s.iod with counters := [] } ∧ (∀ x, linePoisoned t x = false) ∧
    ∀ x, ¬(lo ≤ x ∧ x < lo + n) → x / 8 ≠ entry / 8 → byteAt t x = byteAt s x
/-- A message that takes the next slot of an armed entry (R339): which entry, where its slot lies. -/
structure Takes (s : State) (m : Msg) (i : Nat) (e : Armed) (tl : TlbEntry) (entry : Nat) : Prop where
  armed : armedBy s m.tag.toNat none = some (i, e)
  fits : m.payload.length + 8 ≤ e.bufs
  slot : ∀ l ∈ s.launches, l.2.armed ≠ some (i, e.arrn.toNat % e.nslot)
  room : launchFull s e.part (lpbOf e.lpb) = false ∧ quiescedPart s e.part = false
  page : let at_ := e.bufb + e.arrn.toNat % e.nslot * e.bufs
    walk s e.asid e.part at_ 1 = .ok tl entry ∧ at_ % 4096 + (m.payload.length + 8) ≤ 4096 ∧ tl.base ≤ at_ ∧
    isPackage (tl.frame + (at_ - tl.base)) = true ∧ isPackage (tl.frame + (at_ - tl.base) + m.payload.length + 8) = true ∧
    (tl.frame + (at_ - tl.base)) % 128 = 0
  apart : let pa := tl.frame + (e.bufb + e.arrn.toNat % e.nslot * e.bufs - tl.base)
    entry / 128 < pa / 128 ∨ (pa + m.payload.length + 8) / 128 < entry / 128
  quiet : Calm s ∧ s.slices = [] ∧ (∀ p ∈ s.path, p.ctx ≠ deviceCtx) ∧ ∀ n, bits (sysOf s n).rplctl.toNat 31 30 = 0
  judged : let pa := tl.frame + (e.bufb + e.arrn.toNat % e.nslot * e.bufs - tl.base)
    (lpbOf e.lpb).nblk ≠ 0 ∧ ∀ t, JudgedAlike s t pa (m.payload.length + 8) entry → rejection t e.part e.asid (lpbOf e.lpb) = none

end Sys2Proof.Claims

open Sys2Proof Sys2Proof.Machine Sys2Proof.Claims

/-- R333 to R341: LAUNCH of a parameter block that passes its checks is accepted with code 0, its blocks still to be
placed; ARM enters its record with the tag, code the entry's index in the upper half, and a disarming record removes its entry with
code 1; SEND queues its descriptor with code 0. The code is the result; nothing else of the registers and no byte changes. -/
def Obligations.Submissions : Prop :=
  (∀ (o : ROp) (s : State) (cx : Cx) (r : Nat × List Nat) (q : Piece),
    let a : Acc := { sp := .glob, lane := r.1, ea := (aOf r.2 : Nat) }
    let l := lpbOf (structureAt s q)
    let sp := spaceOf s cx.id
    Enters s cx (submitDec cx o) [r] → Open cx s → ReadsWhole cx s 128 a q → launchFull s sp.2 l = false →
    rejection s sp.2 sp.1 l = none → l.nblk ≠ 0 →
    ∃ t la, exec (.launch o) s = .next t ∧ cx.Writes s t cx.scalarCls o.p.dreg.toNat o.p.nwb [(r.1, 0)] ∧ cx.Only s t ∧ t.mem = s.mem ∧
      launchOf t s.nextId = some la ∧ la.lpb = l ∧ la.part = sp.2 ∧ la.asid = sp.1 ∧ la.next = 0 ∧ la.retired = 0 ∧ la.status = none ∧
      cx.pcOf t r.1 = cx.next (submitDec cx o)) ∧
  (∀ (o : ROp) (s : State) (cx : Cx) (r : Nat × List Nat) (q q2 : Piece),
    let a : Acc := { sp := .glob, lane := r.1, ea := (aOf r.2 : Nat) }
    let bs := structureAt s q
    let a2 : Acc := { a with ea := (fieldOf bs 8 8 : Nat) }
    let sp := spaceOf s cx.id
    let flags := fieldOf bs 0x1E 2
    Enters s cx (submitDec cx o) [r] → Open cx s → ReadsWhole cx s 64 a q → ReadsWhole cx s 128 a2 q2 → flags < 2 →
    fieldOf bs 0x20 32 = 0 → fieldOf bs 0 8 ≠ 0 → fieldOf bs 0x10 8 % 128 = 0 → fieldOf bs 0x18 4 % 128 = 0 → 128 ≤ fieldOf bs 0x18 4 →
    fieldOf bs 0x18 4 ≤ 2 ^ 20 → 1 ≤ fieldOf bs 0x1C 2 → fieldOf bs 0x1C 2 ≤ 4096 →
    fieldOf bs 0x10 8 + fieldOf bs 0x18 4 * fieldOf bs 0x1C 2 ≤ 2 ^ 57 → rejection s sp.2 sp.1 (lpbOf (structureAt s q2)) = none →
    (∀ e ∈ s.iod.armed, e.2.tag.toNat ≠ fieldOf bs 0 8) → s.iod.armed.length < 4096 →
    (∃ p, partOf s sp.2 = some p ∧ (s.iod.armed.filter fun e => e.2.part == sp.2).length < p.quota) →
    ∃ t i, exec (.arm o) s = .next t ∧ i < 4096 ∧ Table.get? s.iod.armed i = none ∧
      Table.get? t.iod.armed i = some (armedAs bs sp (structureAt s q2)) ∧
      (∀ j, j ≠ i → Table.get? t.iod.armed j = Table.get? s.iod.armed j) ∧
      cx.Writes s t cx.scalarCls o.p.dreg.toNat o.p.nwb [(r.1, i * 65536)] ∧ cx.Only s t ∧ t.mem = s.mem) ∧
  (∀ (o : ROp) (s : State) (cx : Cx) (r : Nat × List Nat) (q : Piece) (i : Nat) (e : Armed),
    let a : Acc := { sp := .glob, lane := r.1, ea := (aOf r.2 : Nat) }
    let bs := structureAt s q
    Enters s cx (submitDec cx o) [r] → Open cx s → ReadsWhole cx s 64 a q → bit (fieldOf bs 0x1E 2) 1 = true →
    armedBy s (fieldOf bs 0 8) (some (spaceOf s cx.id).2) = some (i, e) →
    ∃ t, exec (.arm o) s = .next t ∧ Table.get? t.iod.armed i = none ∧ (∀ j, j ≠ i → Table.get? t.iod.armed j = Table.get? s.iod.armed j) ∧
      cx.Writes s t cx.scalarCls o.p.dreg.toNat o.p.nwb [(r.1, 1)] ∧ cx.Only s t ∧ t.mem = s.mem) ∧
  ∀ (o : ROp) (s : State) (cx : Cx) (r : Nat × List Nat) (q : Piece) (p : Partition),
    let a : Acc := { sp := .glob, lane := r.1, ea := (aOf r.2 : Nat) }
    let bs := structureAt s q
    let sp := spaceOf s cx.id
    Enters s cx (submitDec cx o) [r] → Open cx s → ReadsWhole cx s 64 a q → partOf s sp.2 = some p → p.sendq.length < 256 →
    fieldOf bs 0 8 ≠ 0 → fieldOf bs 8 8 % 8 = 0 → fieldOf bs 0x10 4 ≤ 8192 → fieldOf bs 0x14 1 ≤ 1 → fieldOf bs 0x15 3 = 0 →
    fieldOf bs 0x28 8 % 8 = 0 → fieldOf bs 0x30 16 = 0 → fieldOf bs 8 8 + fieldOf bs 0x10 4 ≤ 2 ^ 57 → fieldOf bs 0x28 8 + 8 ≤ 2 ^ 57 →
    ∃ t m, exec (.send o) s = .next t ∧ (partOf t sp.2).map (·.sendq) = some (p.sendq ++ [m]) ∧ m.tag.toNat = fieldOf bs 0 8 ∧
      m.pay = fieldOf bs 8 8 ∧ m.len = fieldOf bs 0x10 4 ∧ m.port = fieldOf bs 0x14 1 ∧ m.done = fieldOf bs 0x28 8 ∧ m.asid = sp.1 ∧
      cx.Writes s t cx.scalarCls o.p.dreg.toNat o.p.nwb [(r.1, 0)] ∧ cx.Only s t ∧ t.mem = s.mem

/-- R339, R341, R443, R458: a message whose tag is armed, on arrival or when it is released from the held ones, is written
to its slot with its length and ARRN, launches the entry's block with MSGA at the payload, and ARRN goes up or a one-shot
entry is gone; one that nothing matches is dropped; one whose slot is busy is held. A descriptor of the send queue leaves
as a datagram with the bytes of its payload, to the neighbour that its next hop names.
To whom a message belongs is the model's reading (log 38). -/
def Obligations.Messages : Prop :=
  (∀ (held : Bool) (port : Nat) (dst : BitVec 128) (tag : W64) (payload : List Byte) (s : State) (i : Nat) (e : Armed) (tl : TlbEntry) (entry : Nat)
    (q : Partition) (rest : List Msg),
    let m : Msg := { port, dst, tag, payload }
    let at_ := e.bufb + e.arrn.toNat % e.nslot * e.bufs
    let pa := tl.frame + (at_ - tl.base)
    let text := (List.range 4).map (byteOf payload.length) ++ (List.range 4).map (byteOf e.arrn.toNat) ++ payload
    Takes s m i e tl entry → partOf s e.part = some q → payload.length ≤ 8192 →
    (if held then q.held = m :: rest else port ≤ 1 ∧ (Table.getD s.iod.eth port {}).up = true ∧ (Table.getD s.iod.eth port {}).paused = false ∧
      (∀ h ∈ q.held, h.tag ≠ tag)) →
    launchOf s s.nextId = none →
    ∃ t la, exec (if held then .heldMessageRelease e.part 0 else .messageArrival port dst tag payload) s = .next t ∧
      (∀ j < text.length, byteAt t (pa + j) = (text[j]?).getD 0) ∧
      (∀ x, ¬(pa ≤ x ∧ x < pa + text.length) → x / 8 ≠ entry / 8 → byteAt t x = byteAt s x) ∧
      launchOf t s.nextId = some la ∧ la.lpb = lpbOf e.lpb ∧ la.msga = BitVec.ofNat 57 (at_ + 8) ∧
      la.armed = some (i, e.arrn.toNat % e.nslot) ∧
      Table.get? t.iod.armed i = (if e.oneshot then none else some { e with arrn := e.arrn + 1 }) ∧
      (held = true → (partOf t e.part).map (·.held) = some rest)) ∧
  (∀ (port : Nat) (dst : BitVec 128) (tag : W64) (payload : List Byte) (s : State),
    armedBy s tag.toNat none = none → (∀ e ∈ s.iod.parts, e.2.ip ≠ dst) → exec (.messageArrival port dst tag payload) s = .next s) ∧
  (∀ (port : Nat) (dst : BitVec 128) (tag : W64) (payload : List Byte) (s : State) (i : Nat) (e : Armed) (q : Partition),
    port ≤ 1 → (Table.getD s.iod.eth port {}).up = true → (Table.getD s.iod.eth port {}).paused = false → payload.length ≤ 8192 →
    armedBy s tag.toNat none = some (i, e) → payload.length + 8 ≤ e.bufs → (∃ l ∈ s.launches, l.2.armed = some (i, e.arrn.toNat % e.nslot)) →
    partOf s e.part = some q → q.held.length < 255 →
    ∃ t, exec (.messageArrival port dst tag payload) s = .next t ∧
      (partOf t e.part).map (·.held) = some (q.held ++ [({ port, dst, tag, payload } : Msg)]) ∧ t.mem = s.mem ∧ t.launches = s.launches) ∧
  ∀ (part : Nat) (s : State) (q : Partition) (m : Msg) (rest : List Msg) (mac : BitVec 48) (pa : Nat),
    let eth := Table.getD s.iod.eth m.port {}
    let hop := if q.ip >>> (128 - min q.plen 128) = m.dst >>> (128 - min q.plen 128) then m.dst else q.router
    partOf s part = some q → q.sendq = m :: rest → eth.up = true → (eth.neighbours.find? fun n => n.1 == hop) = some (hop, mac) →
    lookupTlb s (.sys 0) m.asid part m.pay 0 = .ok pa → isPackage pa = true → m.pay % 4096 + m.len ≤ 4096 → isPackage (pa + m.len) = true →
    Calm s → (∀ i < m.len, unserved s ((pa + i) / 128 * 128) = false) → m.done = 0 →
    ∃ t, exec (.messageDeparture part) s = .next t ∧ t.mem = s.mem ∧ (partOf t part).map (·.sendq) = some rest ∧
      t.outbox = s.outbox ++ [.datagram m.port mac m.dst m.tag ((upFrom pa m.len).map (byteAt s))]

/-! ## The fabric (15_fabric.md, 11_memories.md R277) -/

namespace Sys2Proof.Claims

open Sys2Proof Sys2Proof.Machine

/-- A spatial block in a slot, with no splice pending. -/
def Spatial (s : State) (c sl : Nat) (b : Block) : Prop :=
  blockOf s c sl = some b ∧ b.exec.model = .spatial ∧ b.fab.splice = none
/-- The buffers of a span after the inputs `took` of element `e` were consumed and `tok` was sent to `ds`. -/
def Moved (f f' : Fabric) (e : Nat) (took : Nat → Bool) (ds : List (Nat × Nat)) (tok : Token) : Prop :=
  ∀ x i, i < 3 → f'.buf x i = (if x = e ∧ took i = true then (f.buf x i).drop 1 else f.buf x i) ++ List.replicate (ds.count (x, i)) tok
/-- An operand of a cell (R361, R362): S, a constant, the head's payload; of a head without a value none, or K under replace. -/
def cellInput (f : Fabric) (e i : Nat) : Option Nat :=
  if i = 0 ∧ f.stf e = true then some (f.word e 0x0C) else
  match f.kindOf e i with
  | 0 => some 0
  | 1 => (f.buf e i).head?.bind fun t => if t.kind = tokData then some t.pay.toNat
      else if f.epol e i = 2 then some (f.word e (if i = 1 then 0x0A else 0x08)) else none
  | 2 => some (f.word e 0x08)
  | _ => some (f.word e 0x0A)
/-- The heads of an element's channel inputs all satisfy `p`. -/
def Heads (f : Fabric) (e : Nat) (p : Token → Prop) : Prop :=
  f.channels e ≠ [] ∧ ∀ i ∈ f.channels e, ∃ t, (f.buf e i).head? = some t ∧ p t
/-- Cell fields but S stay. -/
def FieldsKept (f f' : Fabric) (e : Nat) : Prop :=
  ∀ x fld, fld < 64 → (x ≠ e ∨ (fld ≠ 0x0C ∧ fld ≠ 0x0D)) → f'.field x fld = f.field x fld
def portOf (f : Fabric) (i : Nat) : Port := Table.getD f.ports i {}
/-- A field after a list of commands (R355, R372): that of the last command for it. -/
def commanded (cmds : List W32) (e fld old : Nat) : Nat :=
  (((cmds.filter fun w => w.toNat / 2 ^ 22 == e && w.toNat / 2 ^ 16 % 64 == fld).getLast?).map fun w => w.toNat % 2 ^ 16).getD old
/-- The commands that a list instruction reads at `a`. -/
def ListAt (cx : Cx) (s : State) (a : Nat) (cmds : List W32) : Prop :=
  let accs := (List.range cmds.length).map fun i => ({ sp := .glob, lane := 0, ea := (a + 4 * i : Nat) } : Acc)
  cx.Passes s 4 0 accs ∧ ∀ x ∈ accs, ∃ q, cx.placed s 4 0 x = [q] ∧ cx.Cold s q ∧ q.n = 4 ∧
    (cmds[(x.ea.toNat - a) / 4]?).map (·.toNat) = some (number ((upFrom q.pa 4).map (Store.get s.mem)))

end Sys2Proof.Claims

open Sys2Proof Sys2Proof.Machine Sys2Proof.Claims

/-- R357, R359 to R365: CELL_FIRE takes its heads of one round and sends the function's value, or EMPTY where the policy
forwards it, or nothing; a stateful cell's value goes to S. STATEFUL_RELEASE sends S, then EOR; ARRIVE_FORWARD the earliest
token, unchanged; EOR and markers at every input are forwarded. The matrix port's DATA places its operation in the queue.
When a token moves is the model's reading (log 19). -/
def Obligations.FabricElements : Prop :=
  (∀ (s : State) (c sl e r : Nat) (b : Block),
    let f := b.fab
    let ctl := f.field e 1
    let ops := (List.range 3).map (cellInput f e)
    let full := ops.all Option.isSome
    let v := cellFn (f.field e 0) (bits ctl 11 8) (bits ctl 7 5) (bits (f.field e 7) 3 0) (bit ctl 12) (ops.map fun x => x.getD 0)
    let sends : Option (BitVec 3 × Nat) := if f.stf e then none else if full then some (tokData, v.1) else
      if (List.range 3).any fun i => (cellInput f e i).isNone && f.epol e i == 1 then some (tokEmpty, 0) else none
    Spatial s c sl b → spanElem (posOfCore c) f.span e = some .cell → f.en e = true → f.arrive e = false → f.buf e 3 = [] →
    Heads f e (fun t => t.marker = false ∧ t.rnd.toNat = r ∧ t.mark = none) → ¬Heads f e (fun t => t.kind = tokEor) →
    (sends.isSome = true → f.canSend (f.dests e) = true) →
    ∃ t b' tok, exec (.cellFire c sl e) s = .next t ∧ blockOf t c sl = some b' ∧ t.mem = s.mem ∧
      Moved f b'.fab e (fun i => (f.channels e).contains i && (f.buf e i).head?.any fun t => t.kind != tokEor) (if sends.isSome then f.dests e else []) tok ∧
      (∀ k x, sends = some (k, x) → tok.kind = k ∧ tok.rnd.toNat = r ∧ tok.pay.toNat = x % 2 ^ 32) ∧ FieldsKept f b'.fab e ∧
      b'.fab.word e 0x0C = (if f.stf e && full then v.1 % 2 ^ 32 else f.word e 0x0C) ∧
      b'.regs.fstat = b.regs.fstat ||| (if full then BitVec.ofNat 32 (v.2 % 128) else 0) ∧ b'.exec = b.exec ∧ b'.mem = b.mem) ∧
  (∀ (s : State) (c sl e r : Nat) (b : Block),
    let f := b.fab
    Spatial s c sl b → spanElem (posOfCore c) f.span e = some .cell → f.en e = true → f.stf e = true → f.buf e 3 = [] →
    Heads f e (fun t => t.kind = tokEor ∧ t.rnd.toNat = r) → (∀ d ∈ f.dests e, (f.buf d.1 d.2).length + (f.dests e).count d < 2) →
    ∃ t b' t1 t2, exec (.statefulRelease c sl e) s = .next t ∧ blockOf t c sl = some b' ∧ t.mem = s.mem ∧
      (t1.kind = tokData ∧ t1.rnd.toNat = r ∧ t1.pay.toNat = f.word e 0x0C) ∧ (t2.kind = tokEor ∧ t2.rnd.toNat = r ∧ t2.pay = 0) ∧
      (∀ x i, i < 3 → b'.fab.buf x i = (if x = e ∧ i ∈ f.channels e then (f.buf x i).drop 1 else f.buf x i) ++
        List.replicate ((f.dests e).count (x, i)) t1 ++ List.replicate ((f.dests e).count (x, i)) t2) ∧
      b'.fab.word e 0x0C = (if f.rst e then f.word e 0x08 else f.word e 0x0C) ∧ FieldsKept f b'.fab e) ∧
  (∀ (s : State) (c sl e i : Nat) (b : Block) (t0 : Token),
    let f := b.fab
    let value := fun (t : Token) => t.kind = tokData ∨ t.kind = tokEmpty
    Spatial s c sl b → spanElem (posOfCore c) f.span e = some .cell → f.en e = true → f.arrive e = true →
    i ∈ f.channels e → (f.buf e i).head? = some t0 → value t0 →
    (∀ j ∈ f.channels e, ∀ u, (f.buf e j).head? = some u → value u → t0.at_ < u.at_ ∨ (t0.at_ = u.at_ ∧ i ≤ j)) →
    f.canSend (f.dests e) = true →
    ∃ t b' tok, exec (.arriveForward c sl e) s = .next t ∧ blockOf t c sl = some b' ∧ t.mem = s.mem ∧
      Moved f b'.fab e (fun j => j == i) (f.dests e) tok ∧ tok.kind = t0.kind ∧ tok.rnd = t0.rnd ∧ tok.pay = t0.pay ∧
      b'.fab.fields = f.fields) ∧
  (∀ (s : State) (c sl e r : Nat) (b : Block) (ev : Instr),
    let f := b.fab
    let x := spanElem (posOfCore c) f.span e
    Spatial s c sl b → f.canSend (f.dests e) = true → Heads f e (fun t => t.kind = tokEor ∧ t.rnd.toNat = r) →
    ((ev = .cellFire c sl e ∧ x = some .cell ∧ f.en e = true ∧ f.arrive e = false ∧ f.stf e = false ∧ f.buf e 3 = []) ∨
      (ev = .arriveForward c sl e ∧ x = some .cell ∧ f.en e = true ∧ f.arrive e = true) ∨ (ev = .markerForward c sl e ∧ x = some .matrix)) →
    ∃ t b' tok, exec ev s = .next t ∧ blockOf t c sl = some b' ∧ t.mem = s.mem ∧ b'.fab.fields = f.fields ∧
      Moved f b'.fab e (fun i => (f.channels e).contains i) (f.dests e) tok ∧ tok.kind = tokEor ∧ tok.rnd.toNat = r ∧ tok.pay = 0) ∧
  (∀ (s : State) (c sl e : Nat) (b : Block) (k : BitVec 3),
    let f := b.fab
    blockOf s c sl = some b → b.exec.model = .spatial → spanElem (posOfCore c) f.span e = some .cell ∨ spanElem (posOfCore c) f.span e = some .matrix →
    (k = tokDrain ∨ k = tokSplice ∨ k = tokSliceEnd) → Heads f e (fun t => t.kind = k) → f.canSend (f.dests e) = true →
    (f.splice = none ∨ ∀ x, ∀ l ∈ (coreOf s x).l1, l.state = .clean) →
    ∃ t b' tok, exec (.markerForward c sl e) s = .next t ∧ blockOf t c sl = some b' ∧ t.mem = s.mem ∧
      Moved f b'.fab e (fun i => (f.channels e).contains i) (f.dests e) tok ∧ tok.kind = k ∧
      ∀ l passed, f.splice = some (l, passed) → k = tokSplice → f.later = [] →
        ∀ fld < 64, b'.fab.field e fld = commanded (l.map (·.1)) e fld (f.field e fld)) ∧
  ∀ (s : State) (c sl e : Nat) (b : Block) (t0 : Token) (rest : List Token),
    let f := b.fab
    let x := c - posOfCore c + (e - 480)
    Spatial s c sl b → spanElem (posOfCore c) f.span e = some .matrix → f.mpEn e = true → f.buf e 0 = t0 :: rest → t0.mark = none →
    (t0.kind = tokEmpty ∨ (t0.kind = tokData ∧ (coreOf s x).mq = [] ∧
      (isSealed s b = true → ∀ j ∈ dstSlots (f.mmas e) (f.p1 e), bit (regionOf s b).amask j = true) ∧
      formatOk (f.fw e) (f.p1 e) (f.mmas e) (some (agRef (agAt s x (pairOf (f.mmas e) (f.p1 e))))) = true)) →
    ∃ t b', exec (.matrixPortIssue c sl e) s = .next t ∧ blockOf t c sl = some b' ∧ t.mem = s.mem ∧ b'.fab.fields = f.fields ∧
      Moved f b'.fab e (fun i => i == 0) [] t0 ∧ (coreOf t x).mq.map (fun q => (q.slot, q.port, q.op)) =
        (if t0.kind = tokData then [(sl, some e, .mma (f.mmas e) (BitVec.ofNat 32 (f.p1 e)) (BitVec.ofNat 32 (f.fw e)))]
          else (coreOf s x).mq.map fun q => (q.slot, q.port, q.op))

/-- R277, R359, R366 to R369, R377: an input port fills its window from memory in position order, sends the element of its
position, widened, or EMPTY for a gated one, and after a round's last position EOR; the stream ends with its last EOR. An
output port takes one token for each position: DATA goes to its line, to local memory or to the sealed window, and EOR
writes the line. INPUT_PORT_NOP moves no token. A late drain raises WATCHDOG.
When a token moves is the model's reading (log 19). -/
def Obligations.FabricPorts : Prop :=
  (∀ (s : State) (c sl i pa : Nat) (b : Block) (a : StreamSpec),
    let va := (a.addr a.scan).toNat / 128 * 128
    Spatial s c sl b → b.stream i false = some a → a.loc = false → a.waitPage = false → a.gate = false → a.scan < a.total →
    a.headLine ≠ some (va / 128) → a.free.lines.length < a.win → lookupTlb s (.blk c sl) b.asid b.part va 0 = .ok pa →
    isPackage pa = true → unserved s pa = false → Calm s →
    ∃ t b' a', exec (.streamWindowFill c sl i) s = .next t ∧ blockOf t c sl = some b' ∧ t.mem = s.mem ∧ b'.fab.bufs = b.fab.bufs ∧
      (portOf b'.fab i).active = some a' ∧ a'.lines = a.free.lines ++ [(va, (upFrom pa 128).map (Store.get s.mem), false)] ∧
      a'.scan = a.scan + 1 ∧ a'.pos = a.pos) ∧
  (∀ (s : State) (c sl i : Nat) (b : Block) (a : StreamSpec) (bs : List Byte),
    let f := b.fab
    let e := 384 + i
    let va := (a.addr a.pos).toNat
    let n := number bs
    Spatial s c sl b → f.drain = none → spanElem (posOfCore c) f.span e = some .port → (portOf f i).stopped = false →
    (portOf f i).active = some a → a.output = false → f.buf e 0 = [] → f.canSend (f.dests e) = true → a.eorDue = false →
    (f.round = 0 ∨ laterRound (a.roundAt a.pos) f.round = false) → a.pos < a.total →
    (a.gated a.pos = false → if a.loc then bs = (upFrom va a.wid).map (blockByte s c sl) ∧ (b.mem.loadLoc va a.wid).2 = false
      else ∃ l line, a.lines.head? = some (l, line, false) ∧ l / 128 = va / 128 ∧ bs = (line.drop (va % 128)).take a.wid) →
    ∃ t b' a' tok, exec (.streamInputSend c sl i) s = .next t ∧ blockOf t c sl = some b' ∧ t.mem = s.mem ∧ b'.fab.fields = f.fields ∧
      Moved f b'.fab e (fun _ => false) (f.dests e) tok ∧ tok.rnd.toNat = a.roundAt a.pos ∧
      (if a.gated a.pos then tok.kind = tokEmpty ∧ tok.pay = 0 else tok.kind = tokData ∧
        tok.pay = if a.sgn then (BitVec.ofNat (8 * a.wid) n).signExtend 32 else BitVec.ofNat 32 n) ∧
      (portOf b'.fab i).active = some a' ∧ a'.pos = a.pos + 1 ∧ a'.taken = a.taken + 1 ∧
      a'.eorDue = (decide (a.total ≤ a.pos + 1) || a.roundAt (a.pos + 1) != a.roundAt a.pos)) ∧
  (∀ (s : State) (c sl i : Nat) (b : Block) (a : StreamSpec),
    let f := b.fab
    let e := 384 + i
    Spatial s c sl b → spanElem (posOfCore c) f.span e = some .port → (portOf f i).stopped = false → (portOf f i).active = some a →
    a.output = false → f.buf e 0 = [] → f.canSend (f.dests e) = true → a.eorDue = true →
    ((portOf f i).pending = none ∨ ∀ x, ∀ l ∈ (coreOf s x).l1, l.state = .clean) →
    ∃ t b' tok, exec (.streamInputSend c sl i) s = .next t ∧ blockOf t c sl = some b' ∧ t.mem = s.mem ∧
      Moved f b'.fab e (fun _ => false) (f.dests e) tok ∧ tok.kind = tokEor ∧ tok.rnd.toNat = a.roundAt (a.pos - 1) ∧
      (a.pos < a.total → (portOf b'.fab i).active = some { a with eorDue := false }) ∧
      (a.total ≤ a.pos → (portOf f i).pending = none → (portOf b'.fab i).active = none ∧ (portOf b'.fab i).last = a.taken ∧
        (portOf b'.fab i).ended = (portOf f i).ended + 1)) ∧
  (∀ (s : State) (c sl i pa : Nat) (b : Block) (a : StreamSpec) (t0 : Token) (rest : List Token),
    let f := b.fab
    let e := 384 + i
    let va := (a.addr a.pos).toNat
    let writes := t0.kind = tokData ∧ a.gated a.pos = false
    let new := (List.range a.wid).map (byteOf t0.pay.toNat)
    Spatial s c sl b → spanElem (posOfCore c) f.span e = some .port → (portOf f i).stopped = false → (portOf f i).active = some a →
    a.output = true → a.waitPage = false → a.eorDue = false → f.buf e 0 = t0 :: rest → t0.mark = none →
    (t0.kind = tokEmpty ∨ (t0.kind = tokData ∧ t0.rnd.toNat = a.roundAt a.pos)) →
    (writes → if a.loc then (isSealed s b = true → inLwset (regionOf s b) va a.wid = true) else lookupTlb s (.blk c sl) b.asid b.part va 1 = .ok pa ∧
      (isSealed s b = true → b.stage.window.length < 4096) ∧ (isSealed s b = false → (a.headLine = none ∨ a.headLine = some (pa / 128)) ∧
        (a.out.filter fun y => y.1 < pa || pa + a.wid ≤ y.1).length + a.wid < 128)) →
    ∃ t b' a', exec (.streamOutputWrite c sl i) s = .next t ∧ blockOf t c sl = some b' ∧ t.mem = s.mem ∧ b'.fab.fields = f.fields ∧
      Moved f b'.fab e (fun j => j == 0) [] t0 ∧ (portOf b'.fab i).active = some a' ∧ a'.pos = a.pos + 1 ∧ a'.taken = a.taken + 1 ∧
      (∀ x, blockByte t c sl x = if writes ∧ a.loc = true ∧ va ≤ x ∧ x < va + a.wid then (new[x - va]?).getD 0 else blockByte s c sl x) ∧
      b'.stage.window.map (fun r => (r.who, r.pa, r.bytes)) = b.stage.window.map (fun r => (r.who, r.pa, r.bytes)) ++
        (if writes ∧ a.loc = false ∧ isSealed s b = true then [(a.pos, pa, new)] else []) ∧
      ∀ x, ((a'.out.find? fun y => y.1 == x).map (·.2)) = if writes ∧ a.loc = false ∧ isSealed s b = false ∧ pa ≤ x ∧ x < pa + a.wid
        then new[x - pa]? else (a.out.find? fun y => y.1 == x).map (·.2)) ∧
  (∀ (s : State) (c sl i line : Nat) (b : Block) (a : StreamSpec) (t0 : Token) (rest : List Token),
    let f := b.fab
    let e := 384 + i
    Spatial s c sl b → spanElem (posOfCore c) f.span e = some .port → (portOf f i).stopped = false → (portOf f i).active = some a →
    a.output = true → a.waitPage = false → a.eorDue = true → f.buf e 0 = t0 :: rest → t0.kind = tokEor → t0.rnd.toNat = a.roundAt (a.pos - 1) →
    Calm s → s.slices = [] → (∀ x ∈ a.out, isPackage x.1 = true ∧ x.1 / 128 = line) → (a.out.map (·.1)).Nodup →
    ∃ t b', exec (.streamOutputWrite c sl i) s = .next t ∧ blockOf t c sl = some b' ∧ Moved f b'.fab e (fun j => j == 0) [] t0 ∧
      (∀ x, byteAt t x = ((a.out.find? fun y => y.1 == x).map (·.2)).getD (byteAt s x)) ∧ (portOf b'.fab i).eor = some t0.rnd.toNat ∧
      (a.total ≤ a.pos → (portOf f i).pending = none → (portOf b'.fab i).active = none ∧ (portOf b'.fab i).last = a.taken)) ∧
  (∀ (s : State) (c sl i w : Nat) (b : Block), Spatial s c sl b → (portOf b.fab i).waitFrom = some w → w + 1024 ≤ s.cycle →
    ∃ t b', exec (.inputPortNop c sl i) s = .next t ∧ blockOf t c sl = some b' ∧ t.mem = s.mem ∧ b'.fab.bufs = b.fab.bufs ∧
      portOf b'.fab i = { portOf b.fab i with waitFrom := some (w + 1024) }) ∧
  ∀ (s : State) (c sl : Nat) (b : Block) (d : Drain) (p : Partition),
    blockOf s c sl = some b → b.exec.model = .spatial → b.fab.drain = some d → d.late = false → partOf s b.part = some p →
    d.since + 2400 * p.preempt ≤ s.cycle → b.fab.drained (posOfCore c) = false → isSealed s b = false → b.regs.trapvec ≠ 0 →
    (∀ q ∈ s.pending, q.ctx = .blk c sl → q.sfu = false) →
    ∃ t b', exec (.drainDeadline c sl) s = .next t ∧ blockOf t c sl = some b' ∧ t.mem = s.mem ∧ b'.fab.bufs = b.fab.bufs ∧
      (b'.fab.drain).map (·.late) = some true ∧
      (b.busy = true → ∃ ti, b'.traps = b.traps ++ [ti] ∧ ti.cause = 15 ∧ ∀ e, e ∈ ti.lanes ↔ e < 384 ∧ ∃ k l, (4 * e + k, l) ∈ b.fab.bufs ∧ k < 4 ∧ l ≠ []) ∧
      (b.busy = false → b'.regs.trapcause.toNat % 256 = 15 ∧ (b'.at 0).1 = b.regs.trapvec)

/-- R371 to R378: CFG applies its list in order; SPLICE queues it, and without an input port in use applies it and counts CVER;
STRM makes the specification it reads the port's stream; SBAR and FWAIT complete where their conditions hold, FWAIT with
its value; a DRAINF whose fabric has drained writes its header and records, and leaves every port idle and the fields, or
with .slice those of its list. No register changes but FWAIT's.
The corners of drains and splices are the model's readings (log 19). -/
def Obligations.FabricInstructions : Prop :=
  (∀ (splice : Bool) (o : ROp) (s : State) (cx : Cx) (c sl a : Nat) (b : Block) (cmds : List W32) (f' : Fabric),
    let d := listDec o (validIn [.S] []) .none true
    let used := ∃ e, 384 + 16 * posOfCore c ≤ e ∧ e < 384 + 16 * (posOfCore c + b.fab.span) ∧ b.fab.dests e ≠ []
    Enters s cx d [(0, [a, cmds.length])] → cx.id = .blk c sl → Spatial s c sl b → 1 ≤ cmds.length → cmds.length ≤ 4096 →
    Calm s → s.path = [] → ListAt cx s a cmds → b.fab.later = [] → (∀ q ∈ b.fab.bufs, ∀ t ∈ q.2, t.kind ≠ tokSplice) →
    checkList (posOfCore cx.core) b.fab.span b.claim b.fab cmds = .ok f' →
    ∃ t b', exec (if splice then .splice o else .cfg o) s = .next t ∧ blockOf t c sl = some b' ∧ cx.SameRegs s t ∧ cx.Only s t ∧
      t.mem = s.mem ∧ cx.pcOf t 0 = cx.next d ∧ b'.fab.bufs = b.fab.bufs ∧
      (splice = true ∧ used → b'.fab.fields = b.fab.fields ∧ b'.fab.cver = b.fab.cver ∧ (b'.fab.splice).map (fun l => l.1.map (·.1)) = some cmds) ∧
      (splice = false ∨ ¬used → b'.fab.splice = none ∧ b'.fab.cver = b.fab.cver + (if splice then 1 else 0) ∧
        ∀ e fld, fld < 64 → b'.fab.field e fld = commanded cmds e fld (b.fab.field e fld))) ∧
  (∀ (o : POp) (s : State) (cx : Cx) (c sl : Nat) (b : Block) (r : Nat × List Nat) (q : Piece),
    let v := o.param.toNat
    let i := 16 * bits v 27 25 + bits v 31 28
    let d : Dec := { valid := validIn [.S] [], p := o.p, len := 2, srcs := [{ n := o.p.srcA.toNat, rc := .s, wide := true }],
                     ok := bits v 24 0 == 0 && o.p.srcA.toNat != 127 && o.p.srcB == 0 && posOfCore cx.core ≤ bits v 27 25 &&
                       bits v 27 25 < posOfCore cx.core + b.fab.span }
    let bs := structureAt s q
    let n := fieldOf bs 0x25 1 % 8
    let a := specOf bs (if n = 0 then BitVec.allOnes 256 else (Store.get b.mem.preds n).setWidth 256) (cx.site s)
    Enters s cx d [r] → cx.id = .blk c sl → Spatial s c sl b → Calm s → s.path = [] →
    ReadsWhole cx s 64 { sp := .glob, lane := 0, ea := (aOf r.2 : Nat) } q → specOk bs a = true → (b.fab.coming.dests (384 + i)).isEmpty = a.output →
    specFault b.mem.locb a = none → (∀ e ∈ b.fab.ports, e.2.active = none ∧ e.2.pending = none ∧ e.2.stopped = false) →
    ∃ t b' a', exec (.strm o) s = .next t ∧ blockOf t c sl = some b' ∧ cx.SameRegs s t ∧ cx.Only s t ∧ t.mem = s.mem ∧
      cx.pcOf t 0 = cx.next d ∧ b'.fab.fields = b.fab.fields ∧ b'.fab.bufs = b.fab.bufs ∧ (portOf b'.fab i).active = some a' ∧
      a'.base = fieldOf bs 0 8 ∧ a'.cnt = [fieldOf bs 0xC 4, fieldOf bs 0x14 4, fieldOf bs 0x1C 4] ∧
      a'.strd = [8, 0x10, 0x18].map (fun x => (BitVec.ofNat 32 (fieldOf bs x 4)).toInt) ∧ a'.rlen = fieldOf bs 0x20 4 ∧
      a'.pos = fieldOf bs 0x28 8 ∧ a'.taken = 0 ∧ a'.eorDue = false ∧ a'.wid = 2 ^ (fieldOf bs 0x24 1 / 2 % 4) ∧
      a'.output = bit (fieldOf bs 0x24 1) 0 ∧ a'.loc = bit (fieldOf bs 0x24 1) 3 ∧ a'.sgn = bit (fieldOf bs 0x24 1) 4 ∧
      a'.gate = bit (fieldOf bs 0x25 1) 3 ∧ a'.pred = a.pred ∧ a'.win = fieldOf bs 0x26 1 ∧ a'.rnd0 = fieldOf bs 0x27 1 ∧
      ∀ j, j ≠ i → portOf b'.fab j = portOf b.fab j) ∧
  (∀ (o : POp) (s : State) (cx : Cx) (c sl : Nat) (b : Block) (rs : List (Nat × List Nat)),
    let v := o.param.toNat
    let d := plainDec (validIn [.S] []) o.p 2 (bits v 27 0 == 0 && bits v 31 28 != 0)
    let busy := fun (out : Bool) => ∃ e ∈ b.fab.ports, (∃ a, e.2.active = some a ∧ a.output = out) ∨ ∃ a, e.2.pending = some a ∧ a.output = out
    Enters s cx d rs → rs ≠ [] → cx.id = .blk c sl → blockOf s c sl = some b → s.path = [] → s.outside = [] →
    let holds := (bit v 31 = true → b.fab.splice = none) ∧ (bit v 30 = true → ¬busy false) ∧ (bit v 29 = true → ¬busy true)
    ∃ t, exec (.sbar o) s = .next t ∧ cx.SameRegs s t ∧ cx.Only s t ∧ t.mem = s.mem ∧
      (holds → cx.pcOf t 0 = cx.next d) ∧ (¬holds → cx.pcOf t 0 = cx.pc ∧ cx.waitOf t 0 = 10)) ∧
  (∀ (o : POp) (s : State) (cx : Cx) (c sl : Nat) (b : Block) (rs : List (Nat × List Nat)) (x : Nat),
    let evt := bits o.param.toNat 31 28
    let arg := bits o.param.toNat 27 20
    let k := posOfCore cx.core
    let d : Dec := { valid := validIn [.S] [], p := o.p, len := 2, dst := .reg .s,
                     ok := bits o.param.toNat 19 0 == 0 && evt ≤ 4 && o.p.srcA == 0 && o.p.srcB == 0 && (evt ≤ 1 || arg == 0) &&
                       (evt != 1 || (16 * k ≤ arg && arg < 16 * (k + b.fab.span))) }
    let p := portOf b.fab arg
    Enters s cx d rs → rs ≠ [] → cx.id = .blk c sl → blockOf s c sl = some b →
    ((evt = 0 ∧ roundLeft b.fab arg = true ∧ x = arg) ∨
      (evt = 1 ∧ ((cx.begun s = false ∧ p.active = none ∧ p.pending = none ∧ x = 0) ∨
        (cx.begun s = true ∧ (∃ n, b.fab.fwait = some (arg, n) ∧ n ≤ p.ended) ∧ x = p.last))) ∨
      (evt = 2 ∧ b.fab.splice = none ∧ x = b.fab.cver.toNat) ∨ (evt = 3 ∧ (∀ q ∈ b.fab.bufs, q.2 = []) ∧ x = 0)) →
    ∃ t, exec (.fwait o) s = .next t ∧ cx.Writes s t .s o.p.dreg.toNat o.p.nwb [(0, x)] ∧ cx.Only s t ∧ t.mem = s.mem ∧ cx.pcOf t 0 = cx.next d) ∧
  ∀ (slice : Bool) (o : ROp) (s : State) (cx : Cx) (c sl a : Nat) (r : Nat × List Nat) (b : Block) (x : Drain) (q : Nat → Piece),
    let n := (drainRecords b).length
    let accs := (List.range (n + 1)).map fun i => ({ sp := .glob, lane := 0, ea := (a + 16 * i : Nat) } : Acc)
    let local_ := (cx.localSite s).isSome
    let d := if slice then listDec o (validIn [.K] [.S]) .own (o.p.dreg == 1 && !o.p.nwb && local_)
      else listDec o (validIn [.S, .K] []) .own (o.p.dreg == 0 && !o.p.nwb && o.p.srcB.toNat == 72 && local_)
    let who := if cx.kind = .K then Drainer.supervisor else .program
    let value := fun (e fld : Nat) => if fld = 0x0C then b.fab.word e 0x0C else (((portOf b.fab (e - 384)).active).map (·.pos)).getD 0
    Enters s cx d [r] → aOf r.2 = a → cx.localSite s = some (c, sl) → blockOf s c sl = some b → b.exec.model = .spatial → b.fab.drain = some x →
    x.who = who → x.slice = slice → b.fab.drained (posOfCore c) = true → a % 64 = 0 → cx.Passes s 16 1 accs → Calm s → s.slices = [] → s.path = [] →
    (∀ i ≤ n, cx.placed s 16 1 { sp := .glob, lane := 0, ea := (a + 16 * i : Nat) } = [q i] ∧ (q i).n = 16 ∧ isPackage (q i).pa = true ∧
      (q i).pa = (q 0).pa + 16 * i) → (q 0).pa % 64 = 0 → (b.fab.ports.map (·.1)).Nodup → n < 2 ^ 32 →
    ∃ t b', exec (if slice then .drainfSlice o else .drainf o) s = .next t ∧ blockOf t c sl = some b' ∧ cx.SameRegs s t ∧ cx.pcOf t 0 = cx.next d ∧
      number ((upFrom (q 0).pa 4).map (byteAt t)) = n ∧ byteAt t ((q 0).pa + 4) = b.fab.cver ∧
      (∀ i e fld v, (drainRecords b)[i]? = some (e, fld, v) → v = value e fld ∧ number ((upFrom (q (i + 1)).pa 2).map (byteAt t)) = e % 65536 ∧
        byteAt t ((q (i + 1)).pa + 2) = BitVec.ofNat 8 fld ∧ number ((upFrom ((q (i + 1)).pa + 8) 8).map (byteAt t)) = v % 2 ^ 64) ∧
      (∀ y, (y < (q 0).pa ∨ (q 0).pa + 16 * (n + 1) ≤ y) → byteAt t y = byteAt s y) ∧
      (∀ e i, b'.fab.buf e i = []) ∧ (∀ j, (portOf b'.fab j).active = none ∧ (portOf b'.fab j).pending = none) ∧
      (slice = false → b'.fab.fields = b.fab.fields) ∧
      (slice = true → ∀ e fld, fld < 64 → b'.fab.field e fld = commanded (x.commands.map (·.1)) e fld 0)

/-! ## System registers and instructions (05_registers.md, 10_isa_control.md R258 to R260, 16_tables.md, 17_counters.md,
18_traps.md, 19_system.md) -/

namespace Sys2Proof.Claims

open Sys2Proof Sys2Proof.Machine

/-- MFS's and MTS's decoding (R124, R236, R258). -/
def mfsDec (cx : Cx) (o : KOp) : Dec :=
  { valid := regTrap (regNum o) false, p := o.p, len := 2, dst := .reg (cx.rcScalar (cx.isT && regWide o)),
    ok := cx.regOkFields o && o.p.srcA == 0 && o.p.srcB == 0 }
def mtsDec (cx : Cx) (o : KOp) : Dec :=
  let wide := cx.isT && regWide o
  { valid := regTrap (regNum o) true, p := o.p, len := 2, ok := cx.regOkFields o && o.p.srcB == 0 && (!wide || o.p.srcA.toNat < 72),
    srcs := [{ n := o.p.srcA.toNat, rc := cx.rcScalar wide, wide := wide || !cx.isT }] }
/-- The bits of a block's register that a write changes (R124, R412, R419, R420). -/
def blockMask (b : Block) (n : Nat) : Nat :=
  match n with
  | 0x010 => if b.vpref.getLsbD 2 then 0x00FF00FF else 0x80FF00FF
  | 0x011 => 0xFFFF
  | 0x014 => 0x7F
  | 0x015 => 0x5F
  | 0x021 => 0xFFF0FFFF
  | 0x160 => 0xC0FFFFFF
  | 0x161 => 2 ^ 57 - 64
  | 0x18A => 7
  | n => if n ∈ [0x012, 0x020, 0x022, 0x188] then 2 ^ 57 - 1 else if n ∈ [0x162, 0x163] then 2 ^ 20 - 1
    else if n ∈ [0x187, 0x189] then 2 ^ 64 - 1 else 2 ^ 32 - 1
/-- The bits of a place's register that a write changes, of those that hold what is written. -/
def placeMask (n : Nat) : Option Nat :=
  if 0x140 ≤ n ∧ n < 0x14E then some (2 ^ 32 - 1) else
  match n with
  | 0x030 => some 7
  | 0x100 => some (2 ^ 52 - 1)
  | 0x101 => some 0xFFFF
  | 0x110 => some 0x7F
  | 0x111 => some (2 ^ 52 - 8)
  | 0x112 => some (2 ^ 36 - 1)
  | 0x113 => some (2 ^ 21 - 1)
  | 0x170 => some 0xF0000000
  | 0x171 => some (2 ^ 52 - 32)
  | 0x172 => some 0xFFFFFF
  | 0x173 => some 0xFFFFFF
  | 0x180 => some (2 ^ 57 - 1)
  | 0x181 => some 0xFFFF
  | 0x183 => some (2 ^ 57 - 1)
  | 0x184 => some 0xFFF0FFFF
  | 0x190 => some 0xFF
  | _ => none
/-- Supervisor code on core `c` whose SVTGT names slot `sl`, with the block there stopped for event `ev`. -/
structure Serves (s : State) (cx : Cx) (c sl : Nat) (b : Block) (ev : Nat) (ents : List Nat) : Prop where
  place : cx.id = .sup c
  target : (coreOf s c).svtgt.toNat = sl
  block : blockOf s c sl = some b
  phase : ∃ i, b.phase = .stopped ev i ents
  rest : b.want.epRest = false
  signs : ∀ n, (cvOf s c n).signs = []
  opened : isSealed s b = false

end Sys2Proof.Claims

open Sys2Proof Sys2Proof.Machine Sys2Proof.Claims

/-- R124, R258, R259, R401, R411, R412, R420: MFS gives the register's value; a right that the context does not hold traps. MTS changes the
writable bits of the register it names and no other register of the block or the place: a block's for its own code and
for supervisor code, a core's or a system core's. -/
def Obligations.SystemRegisters : Prop :=
  (∀ (o : KOp) (s : State) (cx : Cx) (rs : List (Nat × List Nat)) (site : Option (Nat × Nat × Option Nat)),
    let n := regNum o
    let long := cx.isT = false ∨ regWide o = true
    let f : LoadForm := { cls := cx.scalarCls, wid := if long then 8 else 4, sext := false, dreg := o.p.dreg.toNat, nwb := o.p.nwb }
    let val := fun (l : Nat) => match site with
      | some (c, sl, t) => ((blockOf s c sl).map fun b => blockReg b (t.getD l) n).getD 0
      | none => placeReg s cx.id n
    Enters s cx (mfsDec cx o) rs → rs ≠ [] → cx.regSite s n = .ok site →
    (n = 0x014 → s.pending = [] ∧ ∀ c, (coreOf s c).mq = []) →
    ∃ t, exec (.mfs o) s = .next t ∧ cx.Loaded s t f (rs.map fun r => (r.1, if long then val r.1 else val r.1 % 2 ^ 32)) ∧
      cx.regs t = cx.regs s ∧ cx.Only s t ∧ t.mem = s.mem) ∧
  (∀ (write : Bool) (o : KOp) (s : State) (cx : Cx) (c : Nat), cxOf s = some cx → regTrap (regNum o) write cx.kind = some c →
    exec (if write then .mts o else .mfs o) s =
      .next (cx.raise s (if write then (mtsDec cx o).srcs else []) { cause := c } cx.acts)) ∧
  (∀ (o : KOp) (s : State) (cx : Cx) (r : Nat × List Nat) (rest : List (Nat × List Nat)) (c sl : Nat) (tt : Option Nat) (b : Block),
    let n := regNum o
    let kept := if n = 0x010 then 0x70000000 else 0
    Enters s cx (mtsDec cx o) (r :: rest) → cx.regSite s n = .ok (some (c, sl, tt)) → blockOf s c sl = some b →
    (∀ x ∈ r :: rest, blockRegBad b n (aOf x.2) = false) →
    (b.exec.model = .threaded → n = 0x188 ∨ n = 0x189 → tt.getD r.1 < b.exec.threads.length) →
    ∃ t b', exec (.mts o) s = .next t ∧ blockOf t c sl = some b' ∧ t.mem = s.mem ∧ b'.mem.rows = b.mem.rows ∧ b'.mem.preds = b.mem.preds ∧
      b'.mem.loc = b.mem.loc ∧ blockReg b' (tt.getD r.1) n = (blockReg b (tt.getD r.1) n &&& kept) ||| (aOf r.2 &&& blockMask b n) ∧
      (∀ m x, m ≠ n → blockReg b' x m = blockReg b x m) ∧ (∀ d sm, (d, sm) ≠ (c, sl) → blockOf t d sm = blockOf s d sm) ∧
      ∀ x ∈ r :: rest, cx.pcOf t x.1 = cx.next (mtsDec cx o)) ∧
  ∀ (o : KOp) (s : State) (cx : Cx) (r : Nat × List Nat),
    let n := regNum o
    let v := aOf r.2
    Enters s cx (mtsDec cx o) [r] → cx.regSite s n = .ok none → (n = 0x180 → v % 2 ^ 57 = 0 ∨ v % 128 = 8) → (n = 0x170 → bits v 31 30 ≠ 3) →
    (0x111 ≤ n ∧ n ≤ 0x113 → ∀ y, cx.id = .sys y → (funcOf s (sysOf s y).dtsel.toNat).dten = false) →
    (n = 0x182 ∨ (placeMask n).isSome = true) →
    ∃ t, exec (.mts o) s = .next t ∧ t.mem = s.mem ∧ cx.pcOf t 0 = cx.next (mtsDec cx o) ∧ (∀ m, placeMask n = some m → placeReg t cx.id n = v &&& m) ∧
      (n = 0x182 → placeReg t cx.id n = placeReg s cx.id n &&& (0xFFFF ^^^ (v &&& 0x10))) ∧
      ∀ m, m ≠ n → ¬(n = 0x110 ∧ 0x111 ≤ m ∧ m ≤ 0x114) → ¬(n = 0x030 ∧ m = 0x186) → placeReg t cx.id m = placeReg s cx.id m

/-- R260, R389, R390, R403 to R408, R427 to R433, R440, R464: what the instructions of supervisor code and system cores do: SVRUN
resumes, aborts or delivers, SVINIT starts a supervisor, HOSTINT and RINGACK, HALT, WFI, SEV, TLBINV, counters,
DIRTYRD, CTXSV and CTXLD, VFCTL. In a block HALT, WFI and SEV raise PRIVILEGE.
The corners of the save area and of waits are the model's readings (log 8, 18). -/
def Obligations.SupervisorInstructions : Prop :=
  (∀ (o : KOp) (s : State) (cx : Cx) (c sl : Nat) (b : Block) (ev : Nat) (ents : List Nat) (r : Nat × List Nat),
    Enters s cx (mtsDec cx o) [r] → regNum o = 0x185 → Serves s cx c sl b ev ents → ev = 0 → sl < 8 → (∀ l ∈ ents, (b.at l).2.2.1 = false) →
    (b.exec.model = .threaded → ∀ l ∈ ents, l < b.exec.threads.length) → ents ≠ [] →
    (aOf r.2 % 4 = 1 → ∃ t b', exec (.svrunResume o) s = .next t ∧ blockOf t c sl = some b' ∧ t.mem = s.mem ∧ b'.phase = .running ∧
      (coreOf t c).svevt.getLsbD (4 * sl) = false ∧ b'.mem = b.mem ∧ cx.pcOf t 0 = cx.next (mtsDec cx o) ∧
      ∀ l ∈ ents, (b'.at l).1 = (b.at l).2.1 ∧ (b'.at l).2.2.1 = false) ∧
    (aOf r.2 % 4 = 3 → b.regs.trapvec ≠ 0 → ∃ t b', exec (.svrunDeliver o) s = .next t ∧ blockOf t c sl = some b' ∧ t.mem = s.mem ∧
      b'.phase = .running ∧ (coreOf t c).svevt.getLsbD (4 * sl) = false ∧ b'.mem = b.mem ∧ cx.pcOf t 0 = cx.next (mtsDec cx o) ∧
      ∀ l ∈ ents, (b'.at l).1 = b.regs.trapvec ∧ (b'.at l).2.1 = (b.at l).2.1 ∧ (b'.at l).2.2.1 = true) ∧
    (aOf r.2 % 4 = 2 → (∀ x, partOf s b.part = some x → x.dumps = false) → (∃ la, launchOf s b.launch = some la ∧ la.fault = none ∧ la.status = none) →
      s.path = [] → (∀ e ∈ s.cores, ∀ f ∈ e.2.l1, f.state = .clean) →
      ∃ t, exec (.svrunAbort o) s = .next t ∧ blockOf t c sl = none ∧ cx.pcOf t 0 = cx.next (mtsDec cx o))) ∧
  (∀ (o : KOp) (s : State) (cx : Cx) (y pa : Nat) (r : Nat × List Nat),
    let a := aOf r.2
    let k := (sysOf s y).svsel.toNat
    let p := (sysOf s y).ctl.part
    let l := parcelsOf ((upFrom pa 128).map (Store.get s.mem))
    Enters s cx (mtsDec cx o) [r] → regNum o = 0x191 → cx.id = .sys y → k < 192 → ownerOf s (columnOfCore k) = some p →
    (coreOf s k).sup.halted = true → a < 2 ^ 57 → a % 128 = 8 →
    translate s cx.id (spaceOf s cx.id).1 (spaceOf s cx.id).2 (a / 128 * 128) 3 = .ok pa → isPackage pa = true → pa % 128 = 0 →
    unserved s pa = false → (∀ f ∈ (sysOf s y).icache, f.line ≠ pa / 128) → bits (l.headD 0).toNat 31 30 = 2 → Calm s → s.path = [] →
    ∃ t, exec (.svinit o) s = .next t ∧ t.mem = s.mem ∧ cx.pcOf t 0 = cx.next (mtsDec cx o) ∧ let x := (coreOf t k).sup
      x.pc.toNat = a ∧ x.halted = false ∧ x.asid = (sysOf s y).ctl.asid ∧ x.part = p ∧ x.intr.intvec.toNat = a ∧ x.intr.inten = 0 ∧
      x.handler = false ∧ (∀ n, x.s n = 0) ∧ x.preds = []) ∧
  (∀ (ring : Bool) (o : KOp) (s : State) (cx : Cx) (y : Nat) (r : Nat × List Nat),
    let v := aOf r.2
    let f := if ring then v % 256 else bits v 15 8
    Enters s cx (mtsDec cx o) [r] → regNum o = (if ring then 0x116 else 0x115) → cx.id = .sys y → f ≤ 128 →
    (funcOf s f).part = some (sysOf s y).ctl.part → (if ring then (funcOf s f).handed = true else 2 ≤ v % 8) →
    ∃ t, exec (if ring then .ringack o else .hostint o) s = .next t ∧ t.mem = s.mem ∧ cx.SameRegs s t ∧ cx.pcOf t 0 = cx.next (mtsDec cx o) ∧
      (if ring then t.outbox = s.outbox ∧ (funcOf t f).head = (funcOf s f).head + 1 ∧ (funcOf t f).handed = false
        else t.outbox = s.outbox ++ [.msix f (v % 8)])) ∧
  (∀ (o : KOp) (s : State) (cx : Cx) (rs : List (Nat × List Nat)),
    let d := plainDec ky o.p 2 (o.p.grd == 0 && o.param == 0)
    Enters s cx d rs → (∀ c sl, cx.id ≠ .blk c sl) →
    (∃ t x, exec (.halt o) s = .next t ∧ ctlOf t cx.id = some x ∧ x.halted = true ∧ x.pc = cx.next d ∧ cx.SameRegs s t ∧ t.mem = s.mem) ∧
    ∃ t x x', exec (.wfi o) s = .next t ∧ ctlOf s cx.id = some x ∧ ctlOf t cx.id = some x' ∧ cx.SameRegs s t ∧ t.mem = s.mem ∧
      let wakes := x.event = true ∨ ∃ i, x.intr.intpend.getLsbD i = true ∧ (i = 4 ∨ x.intr.inten.getLsbD i = true)
      (wakes → x'.pc = cx.next d ∧ x'.event = false) ∧ (¬wakes → x'.pc = x.pc ∧ x'.wait = 2)) ∧
  (∀ (o : KOp) (s : State) (cx : Cx) (rs : List (Nat × List Nat)),
    let d := plainDec ky o.p 2 (o.param == 0)
    let p := (cx.ctl s).part
    Enters s cx d rs → rs ≠ [] → (∀ c sl, cx.id ≠ .blk c sl) →
    ∃ t, exec (.sev o) s = .next t ∧ t.mem = s.mem ∧ cx.SameRegs s t ∧ cx.pcOf t 0 = cx.next d ∧
      (∀ n < 8, (sysOf t n).ctl.event = ((sysOf s n).ctl.event || (sysOf s n).ctl.part == p)) ∧
      ∀ c < 192, (coreOf t c).sup.event = ((coreOf s c).sup.event || ((coreOf s c).sup.part == p && holderOf s (columnOfCore c) == some p))) ∧
  (∀ (i : Fin 3) (o : KOp) (s : State) (cx : Cx), cxOf s = some cx → (cx.kind = .T ∨ cx.kind = .V ∨ cx.kind = .S) →
    exec (match i with
      | 0 => .halt o
      | 1 => .wfi o
      | 2 => .sev o) s = .next (cx.raise s [] { cause := 7 } cx.acts)) ∧
  (∀ (o : KOp) (s : State) (cx : Cx) (r : Nat × List Nat),
    let kind := bits o.param.toNat 23 22
    let a : Src := { n := o.p.srcA.toNat, rc := .s, wide := true }
    let b : Src := { n := o.p.srcB.toNat, rc := .s, wide := true }
    let d : Dec := { valid := ky, p := o.p, len := 2
                     ok := bits o.param.toNat 21 0 == 0 && kind != 3 && (if kind == 0 then o.p.srcA.toNat < 72 else o.p.srcA == 0) &&
                       (if kind == 2 then o.p.srcB == 0 else o.p.srcB.toNat < 104)
                     srcs := if kind == 0 then [a, b] else if kind == 1 then [b] else [] }
    let va := aOf r.2
    let asid := if kind = 0 then bOf r.2 else aOf r.2
    let part := (spaceOf s cx.id).2
    let covered := fun (e : TlbEntry) => match kind with
      | 0 => e.asid.toNat = asid ∧ e.base ≤ va ∧ va < e.base + e.size
      | 1 => e.asid.toNat = asid
      | _ => e.part = part
    Enters s cx d [r] → s.path = [] → s.outside = [] → (∀ c sl b, blockOf s c sl = some b → b.stage.window = [] ∧ b.stage.staged = []) →
    (∀ e ∈ s.cores, e.2.tfq = [] ∧ ∀ x ∈ e.2.slots, x.2.stage.window = [] ∧ x.2.stage.staged = []) →
    (kind ≠ 2 → asid < 65536) → (kind = 0 → va < 2 ^ 57) → (kind ≠ 2 → cx.kind = .K → ∀ p, asidPart s asid = some p → p = part) →
    ∃ t, exec (.tlbinv o) s = .next t ∧ t.mem = s.mem ∧ cx.SameRegs s t ∧ cx.pcOf t 0 = cx.next d ∧
      (∀ c e, e ∈ (coreOf t c).tlb ↔ e ∈ (coreOf s c).tlb ∧ ¬covered e) ∧ ∀ x ∈ t.dieTlb, ∀ e ∈ x.2, ¬covered e) ∧
  (∀ (o : KOp) (s : State) (cx : Cx) (rs : List (Nat × List Nat)),
    let cls := cntClass o
    let d := cx.cntDec o s cls true
    let f : LoadForm := { cls := cx.scalarCls, wid := 8, sext := false, dreg := o.p.dreg.toNat, nwb := o.p.nwb }
    let site := match cx.localSite s with
      | some x => some x
      | none => match cx.id with
        | .blk c sl => some (c, sl)
        | _ => none
    let held := fun (u : State) => site.bind fun x => blockOf u x.1 x.2
    Enters s cx d rs → rs ≠ [] → (∀ r ∈ rs, cx.cntTrap s cls (aOf r.2) = none) → (∀ n, cx.id = .sys n → bits (sysOf s n).rplctl.toNat 31 30 = 0) →
    ∃ (t : State) (val : Nat × List Nat → Nat), exec (.cntr o) s = .next t ∧ cx.Loaded s t f (rs.map fun r => (r.1, val r)) ∧ t.mem = s.mem ∧
      ∀ r ∈ rs, let v := aOf r.2
        (cls = 0 → (Table.get? s.iod.accts (v / 16)).isSome = true → val r = (Store.get t.iod.counters v).toNat) ∧
        (cls = 1 → ∀ b, held t = some b → val r = b.meter v) ∧
        (cls = 2 → let k := sliceOf s (bits v 11 10 * 80 + bits v 9 3)
          val r = (match v % 8 with
            | 0 => k.tags.length
            | 1 => k.pond.length
            | _ => k.tags.length - k.pond.length) % 2 ^ 15) ∧
        (cls = 3 → ∀ b, held t = some b → val r = b.charges.total.toNat + b.charges.energy.toNat / 256000000) ∧
        (cls = 4 → ∀ b, held s = some b → val r = if v = 0 then (threadOf b r.1).wdog.toNat else ((b.exec.limits[r.1 / 64]?).getD 0).toNat * 256) ∧
        (cls = 5 → (∀ n, cx.id ≠ .sys n) → val r = s.cycle) ∧
        (cls = 5 → ∀ n, cx.id = .sys n → val r = if v = 1 then (sysOf s n).retired.toNat else s.cycle * 5 / 6)) ∧
  (∀ (o : KOp) (s : State) (cx : Cx) (r : Nat × List Nat),
    let d := { cx.cntDec o s (cntClass o) (cntClass o == 0) with valid := fun k => cntValid (cntClass o) k }
    let v := aOf r.2
    Enters s cx d [r] → cx.kind = .Y → cx.cntTrap s 0 v = none → (Table.get? s.iod.accts (v / 16)).isSome = true →
    (∀ e ∈ s.cores, ∀ x ∈ e.2.slots, x.2.regs.acct.toNat ≠ v / 16) →
    ∃ t, exec (.cntc o) s = .next t ∧ cx.Writes s t .s o.p.dreg.toNat o.p.nwb [(0, (Store.get s.iod.counters v).toNat)] ∧ t.mem = s.mem ∧
      ∀ w, Store.get t.iod.counters w = if w = v then 0 else Store.get s.iod.counters w) ∧
  (∀ (c sl : Nat) (s : State) (b : Block), (coreOf s c).slots = [(sl, b)] → (b.charges.partials.map (·.1)).Nodup →
    (∀ e ∈ b.charges.partials, e.1 < 16) →
    ∃ t b', exec (.accountFlush c) s = .next t ∧ blockOf t c sl = some b' ∧ b'.charges.partials = [] ∧ t.mem = s.mem ∧
      b'.charges.energy.toNat = b.charges.energy.toNat % 256000000 ∧
      (∀ i < 16, Store.get t.iod.counters (b.regs.acct.toNat * 16 + i) = Store.get s.iod.counters (b.regs.acct.toNat * 16 + i) +
        Store.get b.charges.partials i + (if i = 11 then BitVec.ofNat 64 (b.charges.energy.toNat / 256000000) else 0)) ∧
      ∀ w, w / 16 ≠ b.regs.acct.toNat → Store.get t.iod.counters w = Store.get s.iod.counters w) ∧
  (∀ (o : KOp) (s : State) (cx : Cx) (r : Nat × List Nat),
    let src := fun (n : Nat) => ({ n, rc := .s, wide := true } : Src)
    let d : Dec := { valid := validIn [.Y] [.T, .V, .S], p := o.p, len := 2, dst := .reg .s
                     ok := o.param == 0 && o.p.srcA.toNat < 104 && o.p.srcB.toNat < 104, srcs := [src o.p.srcA.toNat, src o.p.srcB.toNat] }
    let f := funcOf s (aOf r.2)
    let w := bOf r.2
    let pa := f.dtbase.toNat + 8 * w
    let n := f.dtcnt.toNat - 64 * w
    Enters s cx d [r] → aOf r.2 ≤ 127 → f.part = some (spaceOf s cx.id).2 → f.dten = true → 64 * w < f.dtcnt.toNat → pa % 8 = 0 →
    s.path = [] → s.outside = [] → (∀ line, (tagOf s line).bind (·.own) = none) → linePoisoned s (pa / 128) = false → (∀ e ∈ s.cores, e.2.monitors = []) → Room s (pa / 128) →
    unserved s pa = false →
    ∃ t, exec (.dirtyrd o) s = .next t ∧
      cx.Writes s t .s o.p.dreg.toNat o.p.nwb [(0, number ((upFrom pa 8).map (byteAt s)) % 2 ^ (if n < 64 then n else 64))] ∧
      ∀ x, byteAt t x = if pa ≤ x ∧ x < pa + 8 then 0 else byteAt s x) ∧
  (∀ (free : Bool) (o : KOp) (s : State) (cx : Cx) (c sl : Nat) (b : Block) (ev : Nat) (ents : List Nat) (r : Nat × List Nat),
    let d : Dec := { valid := validIn [.K] [.T, .V, .S], p := o.p, len := 2, dst := .reg .s, srcs := [{ n := o.p.srcA.toNat, rc := .s, wide := true }]
                     ok := o.param.toNat < 4 && o.param.toNat != 3 && o.p.srcA.toNat < 72 && o.p.srcB == 0 && (cx.localSite s).isSome }
    let a := aOf r.2
    let size := saveSize s c sl b false
    let ofs := fun (t : State) (i : Nat) => number ((upFrom (a + 0x80 + 16 * (i - 1) + 4) 4).map (byteAt t))
    Enters s cx d [r] → o.param.toNat = (if free then 1 else 0) → cx.localSite s = some (c, sl) → Serves s cx c sl b ev ents →
    b.exec.model = .threaded → b.exec.grow = none → b.mem.rowBytes = gangsOf b.nthr * 256 * b.mem.budget → b.exec.threads.length = b.nthr →
    (∀ e ∈ s.cores, e.2.fabricOf ≠ some (c, sl)) → b.det = 0 → Still s c → s.outside = [] → Calm s → s.slices = [] →
    (∀ f ∈ (coreOf s c).l1, f.state = .clean) → a % 128 = 0 → areaBad a size = false → size < 2 ^ 32 →
    ∃ t, exec (.ctxsv o) s = .next t ∧ cx.Writes s t .s o.p.dreg.toNat o.p.nwb [(0, size)] ∧ cx.pcOf t 0 = cx.next d ∧
      number ((upFrom a 4).map (byteAt t)) = 0x00534156 ∧ number ((upFrom (a + 8) 8).map (byteAt t)) = size ∧
      number ((upFrom (a + 0x18) 4).map (byteAt t)) = b.regs.bidx.toNat ∧
      (∀ l n, l < 64 * gangsOf b.nthr → n < b.mem.budget →
        number ((upFrom (a + ofs t 2 + ((l / 64 * b.mem.budget + n) * 256 + 4 * (l % 64))) 4).map (byteAt t)) = (b.mem.g l n).toNat) ∧
      (∀ x < b.mem.locb, byteAt t (a + ofs t 9 + x) = Store.get b.mem.loc x) ∧ (∀ x, x < a ∨ a + size ≤ x → byteAt t x = byteAt s x) ∧
      (free = false → (blockOf t c sl).map (fun b' => (b'.mem, b'.exec, b'.regs, b'.phase)) = some (b.mem, b.exec, b.regs, b.phase)) ∧
      (free = true → ∀ q, partOf s b.part = some q → blockOf t c sl = none ∧ ∃ x, (partOf t b.part).map (·.resume) = some (q.resume ++ [x]) ∧
        x.area = a ∧ x.launch = b.launch ∧ x.bidx = b.regs.bidx.toNat)) ∧
  (∀ (o : KOp) (s : State) (cx : Cx) (c sl : Nat) (b : Block) (r : Nat × List Nat),
    let d : Dec := { valid := validIn [.K] [.T, .V, .S], p := o.p, len := 2, srcs := [{ n := o.p.srcA.toNat, rc := .s, wide := true }]
                     ok := o.param == 0 && o.p.srcA.toNat < 72 && o.p.srcB == 0 && (cx.localSite s).isSome }
    let a := aOf r.2
    let whole := fun (n : Nat) => (upFrom a n).map (Store.get s.mem)
    let x : Img := { bytes := whole (fieldOf (whole 128) 8 8), bad := [] }
    Enters s cx d [r] → cx.localSite s = some (c, sl) → cx.id = .sup c → blockOf s c sl = some b → b.phase = .restore → b.exec.model = .threaded →
    b.claim.tb = 0 → b.kept.tiles = [] → b.nthr ≤ 2048 → b.mem.budget ≤ 64 → sl < 8 → a % 128 = 0 → areaBad a 128 = false →
    areaBad a (max (fieldOf (whole 128) 8 8) 128) = false → Still s c → Calm s → (∀ x, unserved s x = false) → (partOf s b.part).isSome = true →
    headerOk b (whole 128) = true → codesOk b x = true →
    ∃ t b', exec (.ctxld o) s = .next t ∧ blockOf t c sl = some b' ∧ t.mem = s.mem ∧ cx.SameRegs s t ∧ cx.pcOf t 0 = cx.next d ∧
      (∃ i, b'.phase = .stopped 2 i []) ∧ (coreOf t c).svevt.getLsbD (4 * sl + 2) = false ∧
      (∀ l n, l < b.nthr → n < b.mem.budget →
        (b'.mem.g l n).toNat = fieldOf (x.sec 2) ((l / 64 * b.mem.budget + n) * 256 + 4 * (l % 64)) 4) ∧
      (∀ l < b.exec.threads.length, (threadOf b' l).pc = BitVec.ofNat 57 (fieldOf (x.sec 4) (64 * l) 8) ∧
        (threadOf b' l).live = bit (fieldOf (x.sec 4) (64 * l + 8) 4) 0) ∧
      ∀ i < b.mem.locb, Store.get b'.mem.loc i = ((x.sec 9)[i]?).getD 0) ∧
  ∀ (o : KOp) (s : State) (cx : Cx) (y p : Nat) (r : Nat × List Nat),
    let f := aOf r.2
    let g := funcOf s f
    let door := BitVec.ofNat 32 (bOf r.2 / 2 ^ 32)
    let head := BitVec.ofNat 32 (bOf r.2)
    let tail := if g.quiesced then [] else [Out.msix f 1]
    let wakes := if g.quiesced then [Out.msix f 1] else []
    cx.id = .sys y → cx.vfTrap s f = .ok p →
    (Enters s cx (Cx.vfDec o 0) [r] → s.path = [] → s.outside = [] → Calm s → (∀ e ∈ s.cores, ∀ l ∈ e.2.l1, l.state = .clean) → unsaved s p = [] →
      (∀ q, partOf s p = some q → q.sendq = []) → (partxOf s p).quiesce = none →
      ∃ t, exec (.vfctlQuiesce o) s = .next t ∧ cx.Writes s t .s o.p.dreg.toNat o.p.nwb [(0, 0)] ∧ t.mem = s.mem ∧
        (funcOf t f).quiesced = true ∧ t.outbox = s.outbox ++ tail) ∧
    (Enters s cx (Cx.vfDec o 1) [r] → ∃ t, exec (.vfctlResume o) s = .next t ∧ cx.SameRegs s t ∧ t.mem = s.mem ∧
        (funcOf t f).quiesced = false ∧ t.outbox = s.outbox ++ wakes ∧ cx.pcOf t 0 = cx.next (Cx.vfDec o 1)) ∧
    (Enters s cx (Cx.vfDec o 2) [r] → ∃ t, exec (.vfctlRdq o) s = .next t ∧ t.mem = s.mem ∧ funcOf t f = g ∧
        cx.Writes s t .s o.p.dreg.toNat o.p.nwb [(0, g.doorbell.toNat * 2 ^ 32 + g.head.toNat)]) ∧
    (Enters s cx (Cx.vfDec o 3) [r] → g.quiesced = true → (door - head).toNat ≤ g.ringsize.toNat →
      ∃ t, exec (.vfctlWrq o) s = .next t ∧ cx.SameRegs s t ∧ t.mem = s.mem ∧ (funcOf t f).head = head ∧ (funcOf t f).doorbell = door ∧
        cx.pcOf t 0 = cx.next (Cx.vfDec o 3))

/-! ## Placement, errors, boot, the host, the network, Headgate (02_work.md, 11_memories.md, 14_queues.md, 18_traps.md,
19_system.md) -/

namespace Sys2Proof.Claims

open Sys2Proof Sys2Proof.Machine

/-- The sums of R41 on a core with one block of a launch more, and its claims (R120). -/
structure Holds (k : Core) (o : KObj) (l : Lpb) : Prop where
  slots : k.slots.length < 8
  gangs : (k.slots.map fun e => gangsOf e.2.nthr).sum + gangsOf l.nthr.toNat ≤ 32
  rows : (k.slots.map fun e => e.2.mem.rowBytes).sum + gangsOf l.nthr.toNat * 256 * l.regb.toNat ≤ 524288
  bytes : (k.slots.map fun e => e.2.mem.locb + e.2.mem.snapBytes).sum + (l.locb.toNat + o.snapArea) ≤ 786432
  claims : ∀ e ∈ k.slots, e.2.claim.acc &&& o.claim.acc = 0 ∧ e.2.claim.tb &&& o.claim.tb = 0 ∧ e.2.claim.ag &&& o.claim.ag = 0 ∧
    e.2.claim.cv &&& o.claim.cv = 0 ∧ e.2.claim.q &&& o.claim.q = 0
/-- A core takes work of a partition: it, and its column, are the partition's, sound, and neither reserved nor in fabric mode. -/
structure Serving (s : State) (p c : Nat) : Prop where
  held : holderOf s (c / 6) = some p
  sound : (coreOf s c).quarantined = false ∧ (columnOf s (c / 6)).clearing = false ∧ (columnOf s (c / 6)).faulted = false ∧
    (columnOf s (c / 6)).reclaiming = false
  lane : (coreOf s c).fabricOf = none ∧ (coreOf s c).reserved = none
/-- A block of a launch fits a core (R41 to R43, R120): in a selected column; with a reservation, over empty cores of one column. -/
structure FitsAt (s : State) (la : Launch) (o : KObj) (c : Nat) : Prop where
  selected : c < 192 ∧ la.lpb.colmask.getLsbD (c / 6) = true
  serving : ∀ x, c ≤ x → x < c + max 1 (spanNeeded o la.lpb) → Serving s la.part x
  holds : spanNeeded o la.lpb = 0 → Holds (coreOf s c) o la.lpb
  span : spanNeeded o la.lpb ≠ 0 → c % 6 + spanNeeded o la.lpb ≤ 6 ∧ Holds {} o la.lpb ∧
    ∀ x, c ≤ x → x < c + spanNeeded o la.lpb → (coreOf s x).slots = []
/-- The only launch: neither cooperative nor ordered, without column groups, a block of it still to place. -/
structure Waits (s : State) (n : Nat) (la : Launch) (o : KObj) (p : Partition) : Prop where
  launches : s.launches = [(n, la)]
  object : s.objects[la.obj]? = some o
  part : partOf s la.part = some p
  alive : la.status = none ∧ la.fault = none ∧ la.next < la.lpb.nblk.toNat
  plain : la.lpb.coop = false ∧ la.lpb.det = 0 ∧ la.lpb.cgb = 0
/-- Of some resident blocks this one is pre-empted first (R345): spinners, then with `levels` the lowest level, then the
longest run since the last EP. -/
def First (l : List (Nat × Nat × Block)) (levels : Bool) (b : Block) (x : Nat × Nat) : Prop :=
  (x.1, x.2, b) ∈ l ∧ ∀ y ∈ l, y ≠ (x.1, x.2, b) → (isSpinner y.2.2 = true → isSpinner b = true) ∧
    (isSpinner y.2.2 = isSpinner b → if levels then b.prio < y.2.2.prio ∨ (b.prio = y.2.2.prio ∧ b.lastEp < y.2.2.lastEp) else b.lastEp < y.2.2.lastEp)
/-- The pre-emption request reaches one block, and nothing else happens to any block. -/
def Asked (s t : State) (c sl : Nat) (b : Block) : Prop :=
  blockOf t c sl = some { b with want := { b.want with preempt := true, since := s.cycle } } ∧ t.mem = s.mem ∧
    ∀ d sm, (d, sm) ≠ (c, sl) → blockOf t d sm = blockOf s d sm

/-- A partition's queue gets an event record (R458) whose arguments are as `P` says. -/
def Told (s t : State) (p kind : Nat) (P : List Byte → Prop) : Prop :=
  ∀ q, partOf s p = some q → q.events.length < 4096 → ∃ ev, (partOf t p).map (·.events) = some (q.events ++ [ev]) ∧
    ev.kind = kind ∧ ev.seq = q.seq ∧ ev.drops = q.drops ∧ P ev.args
/-- A measurement register after an extension (R459). -/
def extended512 (old : BitVec 512) (d : List Byte) : BitVec 512 := BitVec.ofNat 512 (beVal (sha512 (beBytes 64 old.toNat ++ d)))

/-- A port that is up and takes this flit next, with room for one response of `units` units (R445 to R447). -/
structure Receives (s : State) (port : Nat) (f : Flit) (l : LinkPort) (units : Nat) : Prop where
  here : linkOf s port = l
  up : l.up = true
  seq : f.seq = l.rxSeq
  still : l.waiting = []
  room : l.replay.length < 512 ∧ units ≤ l.respCredit
/-- A peer's request lies in package memory, in a column whose partition has the peer in its map (R444). -/
def MayAsk (s : State) (m : LinkMsg) : Prop :=
  isPackage m.addr = true ∧ isPackage (m.addr + m.size - 1) = true ∧
    ∃ p, ownerOf s (columnOfPa m.addr) = some p ∧ ∃ r ∈ (partxOf s p).peers, r.peer = m.src ∧ r.part = m.part
/-- The request's response has left, and the credits of the request are given back. -/
def Responded (s t : State) (port : Nat) (f : Flit) (l : LinkPort) (m : LinkMsg) (op units code : Nat) (data : List Byte) : Prop :=
  (∃ a : LinkMsg, a.src = Config.packageNumber.toNat ∧ a.tag = m.tag ∧ a.code = code ∧ a.poison = false ∧ a.data = data ∧ a.size = m.size ∧
    t.outbox = s.outbox ++ [.link port 1 l.txSeq l.rxSeq op (some a), .credits port units 0 false]) ∧
  (linkOf t port).rxSeq = (if f.last then (l.rxSeq + 1) % 65536 else l.rxSeq) ∧ (linkOf t port).txSeq = (l.txSeq + 1) % 65536
/-- An access outside is done with (R437): it is on no list; the element of a result that waits for it, when no other piece of
it is outside, has its bytes with the stream's own stores over them, of a failure poisoned. -/
def Completed (s t : State) (o : Outside) (data : Option (List Byte)) (bad : Bool) : Prop :=
  t.outside = s.outside.filter (fun x => x.id != o.id) ∧ t.mem = s.mem ∧
  (∀ n, o.path = some n → t.path = s.path.filter fun p => p.id != n) ∧
  ∀ n, o.pend = some n → ∀ x ∈ s.pending, x.id = n →
    let bs := putOver o.ownBytes ((data.getD (List.replicate o.size 0#8)).take o.size)
    let more := ∃ y ∈ s.outside, y.id ≠ o.id ∧ y.pend = some n ∧ y.elt = o.elt
    ∃ y ∈ t.pending, y.id = n ∧ y.form = x.form ∧
      (more → y.elts = x.elts ∧ y.parts = x.parts ++ [(o.elt, o.ofs, bs, data.isNone || bad)]) ∧
      (¬more → (∀ p ∈ x.parts, p.1 ≠ o.elt) → y.elts = x.elts.map fun e =>
        if e.1 = o.elt ∧ e.2.1 = none then (e.1, some bs, data.isNone || bad) else e)

/-- Who may issue a command (R454, R456). -/
def MayIssue (s : State) (who : Requester) (r : HgRight) : Prop :=
  who ∉ s.iod.headgate.frozen ∧ match r with
    | .a => ∀ p, who ≠ .os p
    | .o => (∀ p, who ≠ .os p) ∧ s.iod.headgate.owner = some who
    | .p => ∃ p, who = .os p
    | .ap => True
    | .op => (∃ p, who = .os p) ∨ s.iod.headgate.owner = some who
/-- The first frame of the queue is a command of a requester that may issue it, well formed (R455 to R457): every argument
byte outside the named ranges is zero, the payload has its length. -/
structure Commands (s : State) (cmd : Nat) (q : HgReq) (rest : List (Nat × HgReq)) (r : HgRight) (named : List (Nat × Nat)) (n : Nat) : Prop where
  queue : s.iod.headgate.queue = (cmd, q) :: rest
  may : MayIssue s q.who r
  blank : ∀ i < 56, (∀ x ∈ named, ¬(x.1 ≤ i + 8 ∧ i + 8 < x.1 + x.2)) → (q.args[i]?).getD 0 = 0
  length : q.payload.length = n
/-- The command has been answered (R455): its response has left after what else it sent, and stands in HGMBX if the PF asked. -/
structure Answers (s t : State) (q : HgReq) (rest : List (Nat × HgReq)) (status : Nat) (results payload : List Byte) (sent : List Out := []) : Prop where
  queue : t.iod.headgate.queue = rest
  reply : t.outbox = s.outbox ++ sent ++ [.frame q.who status q.seq ((results ++ List.replicate 56 0#8).take 56) payload]
  mailbox : (q.who ≠ .pf → t.iod.headgate.mbx = s.iod.headgate.mbx) ∧ (q.who = .pf → Store.get t.iod.headgate.mbx 0 = BitVec.ofNat 8 status)
  mem : t.mem = s.mem
/-- An argument of a frame, by its offset there. -/
def arg (q : HgReq) (at_ n : Nat) : Nat := fieldOf q.args (at_ - 8) n
/-- The partition hears of the owner's command (R458). -/
def Announced (s t : State) (cmd : Nat) (q : HgReq) (p : Nat) : Prop :=
  Told s t p 6 fun a => fieldOf a 0 2 = cmd ∧ fieldOf a 4 4 = q.seq.toNat ∧ (a.drop 8).take 32 = (q.args.take 32 ++ List.replicate 32 0#8).take 32
/-- Nothing is resident on a column. -/
def Vacant (s : State) (c : Nat) : Prop := ∀ e ∈ s.cores, e.1 / 6 = c → e.2.slots = []

/-- The commands for the owner alone, with their codes (R456). -/
def ownerCommands : List (Instr × Nat) :=
  [(.handover, 3), (.release, 4), (.unfreeze, 5), (.partset, 0x10), (.partreset, 0x11), (.lend, 0x12), (.reclaim, 0x13), (.bindvf, 0x14),
   (.setaddr, 0x15), (.peermap, 0x16), (.sharegrp, 0x20), (.acctassign, 0x30), (.bootcfg, 0x41), (.setweight, 0x50), (.setfloor, 0x51),
   (.powercap, 0x60), (.setewt, 0x61), (.setdeadlines, 0x70), (.setpools, 0x71), (.setquota, 0x72), (.settwin, 0x73),
   (.unitrelease, 0x80), (.resumectx, 0x81)]
/-- The other commands. -/
def otherCommands : List (Instr × Nat) :=
  [(.getnonce, 1), (.claim, 2), (.ownerq, 6), (.cntread, 0x31), (.cntclear, 0x32), (.measure, 0x40), (.extend, 0x42), (.setumbuf, 0x74),
   (.armread, 0x75), (.armwrite, 0x76), (.eventpop, 0x90)]

/-- A setting of one partition, named at 0x08 (R457): its other arguments, when they are good, the partition after it. -/
structure Setting where
  i : Instr
  cmd : Nat
  named : List (Nat × Nat)
  good : Bool
  after : Partition
/-- The settings of R332, R349, R428, R434, R451, R458, R462. -/
def settings (q : HgReq) (x : Partition) : List Setting :=
  let keep := fun (at_ old : Nat) => if arg q at_ 4 = 0 then old else arg q at_ 4
  let pool := fun (at_ : Nat) => let (b, n) := (arg q at_ 8, arg q (at_ + 8) 8)
    b % 128 == 0 && n % 128 == 0 && (n == 0 || (isPackage b && isPackage (b + n - 1)))
  [{ i := .setweight, cmd := 0x50, named := [(9, 1)], good := arg q 9 1 != 0, after := { x with weight := arg q 9 1 } },
   { i := .setdeadlines, cmd := 0x70, named := [(0x0C, 12)], good := true
     after := { x with placement := keep 0x0C x.placement, resumeUs := keep 0x10 x.resumeUs, preempt := keep 0x14 x.preempt } },
   { i := .setpools, cmd := 0x71, named := [(9, 1), (0x10, 48)], good := decide (arg q 9 1 ≤ 1) && pool 0x10 && pool 0x20 && pool 0x30
     after := { x with
       dumps := arg q 9 1 == 1, savePool := { x.savePool with base := arg q 0x10 8, size := arg q 0x18 8 }
       dumpPool := { x.dumpPool with base := arg q 0x20 8, size := arg q 0x28 8 }
       staging := { x.staging with base := arg q 0x30 8, size := arg q 0x38 8 } } },
   { i := .setquota, cmd := 0x72, named := [(0x0A, 2)], good := true, after := { x with quota := arg q 0x0A 2 } },
   { i := .settwin, cmd := 0x73, named := [(9, 1)], good := decide (arg q 9 1 ≤ 7), after := { x with twinK := arg q 9 1 } }]
/-- A partition but for its event queue. -/
def unheard (x : Partition) : Partition := { x with events := [], seq := 0, drops := 0 }

end Sys2Proof.Claims

open Sys2Proof Sys2Proof.Machine Sys2Proof.Claims

/-- R38 to R46, R57, R344, R345, R428: the next block of a waiting launch is placed on a core it fits, its registers as R46
says and its streams at the entry; a saved block is placed for restore with RESUME set; past its deadline the oldest
waiting work has one resident block pre-empted, chosen by R345; a block asked for leaves when its streams stand at stop
places, out of a sealed region by rollback once the deadline has passed.
The corners of acceptance and placement are the model's readings (log 29, 43). -/
def Obligations.Placement : Prop :=
  (∀ (s : State) (n c sl : Nat) (la : Launch) (o : KObj) (p : Partition) (v : VSec), Waits s n la o p → p.resume = [] →
    (∀ f ∈ s.iod.funcs, f.2.quiesced = false) → o.vsec (startModel o la.lpb) = some v → FitsAt s la o c → sl < 8 → blockOf s c sl = none →
    (∀ f ∈ (coreOf s c).l1, f.state = .clean) →
    ∃ t b, exec (.blockPlacement n c sl) s = .next t ∧ blockOf t c sl = some b ∧ t.mem = s.mem ∧ (launchOf t n).map (·.next) = some (la.next + 1) ∧
      b.launch = n ∧ b.part = la.part ∧ b.asid = la.asid ∧ b.phase = .running ∧ b.exec.model = startModel o la.lpb ∧
      b.regs.bidx.toNat = la.next % 2 ^ 24 ∧ b.regs.nblk = la.lpb.nblk.setWidth 24 ∧ b.regs.nthr = la.lpb.nthr.setWidth 12 ∧
      b.regs.argb = la.lpb.args.setWidth 57 ∧ b.regs.plim = la.lpb.prvw ∧ b.regs.fstat = 0 ∧ b.regs.fen = 0 ∧
      b.regs.vlen.toNat = min la.lpb.nthr.toNat 256 % 512 ∧ b.mem.rows = [] ∧ b.mem.preds = [] ∧ b.mem.loc = [] ∧
      b.mem.budget = la.lpb.regb.toNat ∧ b.exec.ctl.sregs = [] ∧
      (b.exec.model = .threaded → b.exec.threads.length = la.lpb.nthr.toNat ∧ ∀ l < la.lpb.nthr.toNat, (threadOf b l).live = true ∧ (b.at l).1 = v.entry) ∧
      (b.exec.model ≠ .threaded → (b.at 0).1 = v.entry) ∧
      (∀ x, c ≤ x → x < c + spanNeeded o la.lpb → (coreOf t x).reserved = some (c, sl)) ∧
      ∀ d sm, (d, sm) ≠ (c, sl) → blockOf t d sm = blockOf s d sm) ∧
  (∀ (s : State) (part c sl : Nat) (p : Partition) (r : Saved), partOf s part = some p → p.resume = [r] → r.page = none →
    r.blk.coop = false → r.blk.twin = none → r.blk.det = 0 → r.blk.part = part → (∀ f ∈ s.iod.funcs, f.2.quiesced = false) →
    (∀ e ∈ s.launches, waiting e.2 = false ∨ e.2.lpb.level ≤ r.prio) → (coresForSaved s r).contains c = true → sl < 8 → blockOf s c sl = none →
    ∃ t b, exec (.restorePlacement part 0 c sl) s = .next t ∧ blockOf t c sl = some b ∧ t.mem = s.mem ∧ (partOf t part).map (·.resume) = some [] ∧
      b.phase = .restore ∧ b.svarg = BitVec.ofNat 57 r.area ∧ b.mem.budget = r.budget ∧ b.regs = r.blk.regs ∧
      (coreOf t c).svevt.getLsbD (4 * sl + 2) = true ∧ ∀ d sm, (d, sm) ≠ (c, sl) → blockOf t d sm = blockOf s d sm) ∧
  (∀ (s : State) (n c sl : Nat) (la : Launch) (o : KObj) (p : Partition) (b : Block), Waits s n la o p →
    (∀ x, fitsCore s la.part x (needOf o la.lpb) = false) → la.waitSince + usCycles p.placement < s.cycle → blockOf s c sl = some b →
    let l := movable s la.part (selected la.lpb)
    First (l.filter fun x => x.2.2.prio < la.lpb.level) true b (c, sl) → (∀ x ∈ l, x.2.2.want.preempt = false ∧ x.2.2.fromResume = none) →
    b.coop = false → b.twin = none →
    ∃ t, exec (.placementDeadline n) s = .next t ∧ Asked s t c sl b) ∧
  (∀ (s : State) (part c sl : Nat) (p : Partition) (r : Saved) (la : Launch) (b : Block), partOf s part = some p → p.resume = [r] →
    r.page = none → r.blk.coop = false → r.at_ + usCycles p.resumeUs < s.cycle → coresForSaved s r = [] → launchOf s r.launch = some la →
    la.lpb.cgb = 0 → blockOf s c sl = some b → b.coop = false → b.twin = none →
    let l := movable s part (selected la.lpb)
    First l false b (c, sl) → (∀ x ∈ l, x.2.2.want.preempt = false ∧ x.2.2.fromResume = none) →
    ∃ t, exec (.resumeDeadline part) s = .next t ∧ Asked s t c sl b) ∧
  (∀ (s : State) (c sl a : Nat) (b : Block) (p : Partition) (pool : Pool), blockOf s c sl = some b → b.want.preempt = true → b.phase = .running →
    isSealed s b = false → partOf s b.part = some p → p.savePool.alloc (saveSize s c sl b false) = some (a, pool) → sl < 8 →
    ∃ t b', exec (.preemption c sl) s = .next t ∧ blockOf t c sl = some b' ∧ t.mem = s.mem ∧
      { b' with phase := .running, svarg := 0, exec := b.exec } = { b with svarg := 0 } ∧
      { b'.exec with threads := b.exec.threads, ctl := { b'.exec.ctl with capt := b.exec.ctl.capt } } = b.exec ∧ (∀ l, b'.at l = b.at l) ∧
      if b.streams.all b.atStop then (∃ i, b'.phase = .stopped 1 i []) ∧ b'.svarg = BitVec.ofNat 57 a ∧ (coreOf t c).svevt.getLsbD (4 * sl + 1) = true ∧
        (partOf t b.part).map (·.savePool) = some pool
      else ∃ i, b'.phase = .stopping 1 i []) ∧
  ∀ (s : State) (c sl a : Nat) (b : Block) (p : Partition) (pool : Pool) (n : Snapshot), blockOf s c sl = some b → b.want.preempt = true →
    b.phase = .running → isSealed s b = true → partOf s b.part = some p → b.want.since + usCycles p.preempt < s.cycle → b.mem.snap = some n →
    p.savePool.alloc (saveSize s c sl b false) = some (a, pool) → sl < 8 → Still s c → b.stage.regionPins = [] → b.exec.grow = none →
    b.exec.model ≠ .spatial → (∀ e ∈ s.cores, e.2.fabricOf ≠ some (c, sl)) →
    ∃ t b', exec (.preemptionDeadline c sl) s = .next t ∧ blockOf t c sl = some b' ∧ t.mem = s.mem ∧ (∃ i, b'.phase = .stopped 1 i []) ∧
      b'.want.saveAtEp = true ∧ b'.stage.window = [] ∧ b'.svarg = BitVec.ofNat 57 a ∧ (coreOf t c).svevt.getLsbD (4 * sl + 1) = true ∧
      ∀ l x, n.resume.find? (·.1 == l) = some x → (if b.exec.model = .threaded then l < b.nthr ∧ l < b.exec.threads.length else l = 0) →
        (b'.at l).1 = x.2

/-- R123, R125, R267, R275, R286, R436, R443, R448, R459 to R461, R465: what errors of the memories mark; a failed slice stops
and its owner's columns take no work; package reset leaves the reset state and starts the boot ROM, which checks an image,
starts the system cores at its entry or tries again; power capping and throttling; a column cleared; the SPDM responder. That
a reset leaves memory zero, where an image lies and the responder's bytes are the model's choices (log 1, 10, 13, 24, 25, 40, 45, 50). -/
def Obligations.ErrorsAndReset : Prop :=
  (∀ (s : State) (sl e : Nat) (pe : Pond), sl < 320 → e < 16384 → Table.get? (sliceOf s sl).pond e = some pe →
    ∃ t pe', exec (.pondEntryError sl e) s = .next t ∧ t.mem = s.mem ∧ Table.get? (sliceOf t sl).pond e = some pe' ∧ pe'.poisoned = true ∧ pe'.data = pe.data ∧
      (∀ l x, sliceOfLine l = sl → tagOf s l = some x → x.ent = some e → linePoisoned t l = true) ∧
      (∀ l, (sliceOfLine l = sl → ∀ x, tagOf s l = some x → x.ent ≠ some e) → linePoisoned t l = linePoisoned s l) ∧
      ∀ p, ownerOf s (sl / 80 * 8 + sl % 80 / 10) = some p → Told s t p 2 fun a =>
        fieldOf a 8 1 = 0 ∧ fieldOf a 9 1 = sl / 80 ∧ fieldOf a 10 2 = sl % 80 ∧ fieldOf a 12 2 = e) ∧
  (∀ (s : State) (sl p : Nat), ownerOf s (sl / 80 * 8 + sl % 80 / 10) = some p → p < 32 →
    ((∀ l ∈ s.launches, l.2.part ≠ p) → ∃ t, exec (.l2TagError sl) s = .next t ∧ t.mem = s.mem ∧ (sliceOf t sl).stopped = true ∧
      (partxOf t p).faulted = true ∧ (∀ c < 32, ownerOf s c = some p → (columnOf t c).faulted = true) ∧
      Told s t p 7 fun a => fieldOf a 0 1 = 2 ∧ fieldOf a 2 2 = p ∧ fieldOf a 4 1 = 29) ∧
    ∀ n l size, s.launches = [(n, l)] → l.part = p → l.fault = none → l.status = none → s.cores = [] → walk s l.asid l.part l.lpb.crec.toNat 1 = .bad 4 size →
      ∃ t la, exec (.l2TagError sl) s = .next t ∧ launchOf t n = some la ∧ la.status = some 5 ∧ la.fault.map (·.cause) = some 29) ∧
  (∀ (s : State) (c w : Nat),
    (c < 192 → ∃ t, exec (.l1EccError c w) s = .next t ∧ t.mem = s.mem ∧
      (∀ f ∈ (coreOf t c).l1, f.line = w / 16 → f.dirty ≠ []) ∧ (∀ f, f.line ≠ w / 16 → (f ∈ (coreOf t c).l1 ↔ f ∈ (coreOf s c).l1)) ∧
      (∀ f ∈ (coreOf s c).l1, f.line = w / 16 → f.dirty ≠ [] → ∃ f' ∈ (coreOf t c).l1, f'.line = f.line ∧ f'.data = f.data ∧ f'.dirty = f.dirty ∧
        ∀ i, i ∈ f'.poison ↔ i ∈ f.poison ∨ i / 8 = w % 16) ∧
      ∀ sl b, blockOf s c sl = some b → (blockOf t c sl).map (fun b' => (b'.stage.window, b'.mem, b'.exec)) = some
        (b.stage.window.map fun r => if r.pa < 8 * w + 8 ∧ 8 * w < r.pa + r.bytes.length then { r with poison := true } else r, b.mem, b.exec)) ∧
    (192 ≤ c → ∃ t, exec (.l1EccError c w) s = .next t ∧ t.mem = s.mem ∧
      ∀ f, (f ∈ (sysOf t (c - 192)).dcache ↔ f ∈ (sysOf s (c - 192)).dcache ∧ f.line ≠ w / 16) ∧
        (f ∈ (sysOf t (c - 192)).icache ↔ f ∈ (sysOf s (c - 192)).icache ∧ f.line ≠ w / 16))) ∧
  (∀ (s : State) (c sl k : Nat) (b : Block), blockOf s c sl = some b → c < 192 → sl < 8 →
    (4 * k < b.mem.locb → ∃ t b', exec (.localEccError c sl k) s = .next t ∧ t.mem = s.mem ∧ blockOf t c sl = some b' ∧
      (∀ w, w ∈ b'.mem.locPoison ↔ w = k ∨ w ∈ b.mem.locPoison) ∧ { b'.mem with locPoison := [] } = { b.mem with locPoison := [] }) ∧
    (k < 2 ^ 20 → ∃ t b', exec (.registerFileEccError c sl k) s = .next t ∧ t.mem = s.mem ∧ blockOf t c sl = some b' ∧
      (∀ w, w ∈ b'.mem.rowPoison ↔ w = k ∨ w ∈ b.mem.rowPoison) ∧ { b'.mem with rowPoison := [] } = { b.mem with rowPoison := [] }) ∧
    (k < 64 → ∃ t b', exec (.registerFileEccError c sl (2 ^ 20 + k)) s = .next t ∧ t.mem = s.mem ∧ blockOf t c sl = some b' ∧
      (∀ w, w ∈ b'.exec.ctl.spoison ↔ w = k ∨ w ∈ b.exec.ctl.spoison) ∧ b'.exec.ctl.sregs = b.exec.ctl.sregs) ∧
    ∃ t, exec (.registerFileEccError c sl (2 ^ 21 + k)) s = .next t ∧ t.mem = s.mem ∧ (coreOf t c).acc = (coreOf s c).acc ∧
      ∀ w, w ∈ (coreOf t c).accPoison ↔ w = k ∨ w ∈ (coreOf s c).accPoison) ∧
  (∀ (thermal : Bool) (s : State),
    let zero := List.replicate 64 0#8
    let config := if s.iod.boot.next = [] then s.iod.boot.config else s.iod.boot.next
    ∃ t, exec (if thermal then .thermalReset else .packageReset) s = .next t ∧
      { t with nextId := 1, freeCount := 0, agenda := [], outbox := [], iod := {} } = { State.reset with iod := {} } ∧
      { t.iod with eth := [], boot := {} } = {} ∧ (∀ p, (Table.getD s.iod.eth p {}).up = true → (Table.getD t.iod.eth p {}).up = true) ∧
      t.iod.boot.state = 1 ∧ t.iod.boot.tries = 0 ∧ t.iod.boot.config = config ∧
      t.iod.boot.meas = [BitVec.ofNat 512 (beVal (sha512 (zero ++ beBytes 64 Config.romDigest.toNat))),
        BitVec.ofNat 512 (beVal (sha512 (zero ++ beBytes 64 (Config.fuseDigest config).toNat))), 0, 0, 0, 0, 0, 0] ∧
      t.outbox = s.outbox ++ [.get (if (Table.getD t.iod.eth 0 {}).up = false ∧ (Table.getD t.iod.eth 1 {}).up = true then 1 else 0) config]) ∧
  (∀ (s : State) (got : Option (List Byte × List Byte)), s.iod.boot.state = 1 → s.iod.boot.retryAt = none →
    let b := s.iod.boot
    let good := fun (x : List Byte × List Byte) => pssVerify (beVal ((b.config.drop 0x40).take 512)) x.1 x.2 = true
    ((∀ x, got = some x → ¬good x) → ∃ t, exec (.bootImageCheck got) s = .next t ∧ t.mem = s.mem ∧ t.sys = s.sys ∧ t.iod.boot.failures = b.failures + 1 ∧
      (b.tries < 2 → t.iod.boot.state = 1 ∧ t.iod.boot.retryAt = some (s.cycle + 24000000000)) ∧
      (2 ≤ b.tries → t.iod.boot.state = 2 ∧ t.iod.boot.retryAt = none)) ∧
    ∀ x, got = some x → good x → Calm s → s.slices = [] → s.path = [] → b.meas.length = 8 →
      ∃ t, exec (.bootImageCheck got) s = .next t ∧ t.iod.boot.state = 0 ∧
        t.iod.boot.meas[2]? = (b.meas[2]?).map (extended512 · (sha512 x.1)) ∧
        (∀ n < 8, (sysOf t n).ctl.halted = false ∧ (sysOf t n).ctl.pc = Config.imageEntry x.1) ∧
        (Config.imageBase % 128 + x.1.length ≤ 128 → ∀ a, byteAt t a =
          if Config.imageBase ≤ a ∧ a < Config.imageBase + x.1.length then (x.1[a - Config.imageBase]?).getD 0 else byteAt s a)) ∧
  (∀ (s : State) (at_ : Nat), s.iod.boot.retryAt = some at_ → at_ ≤ s.cycle → ∃ t port, exec .bootRetry s = .next t ∧
    t.iod.boot.retryAt = none ∧ t.outbox = s.outbox ++ [.get port s.iod.boot.config] ∧ t.mem = s.mem ∧ t.sys = s.sys) ∧
  (∀ (s : State), (∀ e ∈ s.cores, e.2.slots = []) → ∃ t, exec .powerCapWindow s = .next t ∧ t.mem = s.mem ∧ t.iod.power.cap = s.iod.power.cap ∧
    t.iod.power.window = 0 ∧ (∀ p, (partxOf t p).window = 0) ∧ ∀ c < 192,
      let k := s.iod.power
      let n := (coreOf s c).gate
      let mine := fun (p w : Nat) => holderOf s (c / 6) = some p ∧ (partOf s p).bind (·.cap) = some w
      let above := 1000 * k.cap < k.window ∨ ∃ p w, mine p w ∧ 1000 * w < (partxOf s p).window
      let below := 100 * k.window < 95000 * k.cap ∧ ∀ p w, mine p w → 100 * (partxOf s p).window < 95000 * w
      (above → (coreOf t c).gate = max 2 (n - 1)) ∧ (¬above → below → (coreOf t c).gate = min 16 (n + 1)) ∧ (¬above → ¬below → (coreOf t c).gate = n)) ∧
  (∀ (s : State), ∃ t, exec .thermalThrottle s = .next t ∧ t.mem = s.mem ∧ (∀ c < 192, (coreOf t c).gate = 8) ∧
    ∀ c sl, blockOf t c sl = blockOf s c sl) ∧
  (∀ (s : State) (c : Nat), (columnOf s c).clearing = true → ∃ t, exec (.columnClearingComplete c) s = .next t ∧ (columnOf t c).clearing = false ∧
    (∀ a, Store.get t.mem a = if columnOfPa a = c then 0 else Store.get s.mem a) ∧ (∀ n, n / 80 * 8 + n % 80 / 10 = c → sliceOf t n = {}) ∧
    ∀ d sl, blockOf t d sl = blockOf s d sl) ∧
  ∀ (s : State) (req : List Byte) (rest : List (List Byte)), s.iod.spdmIn = req :: rest →
    (∀ x ∈ [(Instr.getVersion, 0x84), (.getCapabilities, 0xE1), (.negotiateAlgorithms, 0xE3), (.getDigests, 0x81), (.getCertificate, 0x82), (.challenge, 0x83),
        (.getMeasurements, 0xE0), (.keyExchange, 0xE4), (.finish, 0xE5), (.endSession, 0xEC)],
      (fieldOf req 1 1 ≠ x.2 → exec x.1 s = .next s) ∧
      (fieldOf req 1 1 = x.2 → ∃ t, exec x.1 s = .next t ∧ t.iod.spdmIn = rest ∧ t.mem = s.mem ∧
        (s.iod.boot.state ≠ 0 → t.outbox = s.outbox ++ [.spdm [0x13#8, 0x7F#8, 3#8, 0#8]]) ∧
        (s.iod.boot.state = 0 → x.2 ≠ 0xE0 → t.outbox = s.outbox ++ [.spdm (Config.spdmBody s.freeCount req)]))) ∧
    ∀ i < 8, fieldOf req 1 1 = 0xE0 → fieldOf req 3 1 = i + 1 → s.iod.boot.state = 0 →
      let record := [BitVec.ofNat 8 (i + 1), 1#8, 67#8, 0#8, BitVec.ofNat 8 i, 64#8, 0#8] ++ beBytes 64 (measOf s i).toNat
      ∃ t rest', exec .getMeasurements s = .next t ∧
        t.outbox = s.outbox ++ [.spdm ([0x13#8, 0x60#8, 0#8, 0#8, 1#8, 71#8, 0#8, 0#8] ++ record ++ rest')]

/-- R338, R342, R437 to R447: the entry at a ring's HEAD goes to the system cores as a RING event, in turn; writes of BAR0 and
accesses through BAR2; a function's reset; next hops and links of Ethernet; what peers ask over Corhoeb Link is read,
written or done at the home slice and answered, a flit out of sequence draws a NAK; responses complete accesses.
A link's state at reset and corners of the interfaces are the model's (log 16, 22, 23, 41). -/
def Obligations.HostAndLinks : Prop :=
  (∀ (s : State) (i : Nat) (entry : BitVec 128) (p : Nat),
    let fn := (s.iod.rrNext + i) % 129
    let f := funcOf s fn
    i < 129 → f.part = some p → f.ringsize ≠ 0 → f.doorbell ≠ f.head → f.quiesced = false → f.stopped = false → f.handed = false →
    (∀ j < i, ringReady (funcOf s ((s.iod.rrNext + j) % 129)) = false) →
    (entry.toNat < 2 ^ 57 → ∃ t, exec (.ringEntryHandout fn entry) s = .next t ∧ t.mem = s.mem ∧ t.outbox = s.outbox ∧
      funcOf t fn = { f with handed := true } ∧ (∀ g, g ≠ fn → funcOf t g = funcOf s g) ∧ t.iod.rrNext = (fn + 1) % 129 ∧
      Told s t p 4 fun a => fieldOf a 0 8 = entry.toNat ∧ fieldOf a 8 2 = fn) ∧
    (2 ^ 57 ≤ entry.toNat → (∃ k size, walk s f.asid p (entry.toNat % 2 ^ 57 / 128 * 128) 0 = .bad k size) →
      ∃ t, exec (.ringEntryHandout fn entry) s = .next t ∧ t.mem = s.mem ∧ funcOf t fn = { f with head := f.head + 1 } ∧ t.launches = s.launches)) ∧
  (∀ (s : State) (fn : Nat) (v : W32), fn ≤ 128 → (fn = 128 → Requester.pf ∉ s.iod.headgate.frozen) → (funcOf s fn).part.isSome = true →
    exec (.bar0RegisterWrite fn 0x014 v) s = exec (.doorbellWrite fn v) s ∧
    ((v - (funcOf s fn).head).toNat ≤ (funcOf s fn).ringsize.toNat → ∃ t, exec (.doorbellWrite fn v) s = .next t ∧ t.mem = s.mem ∧ t.outbox = s.outbox ∧
      funcOf t fn = { funcOf s fn with doorbell := v, stopped := false }) ∧
    ((funcOf s fn).ringsize.toNat < (v - (funcOf s fn).head).toNat → ∃ t, exec (.doorbellWrite fn v) s = .next t ∧ t.mem = s.mem ∧
      funcOf t fn = { funcOf s fn with doorbell := v, stopped := true, rerr := true } ∧
      t.outbox = s.outbox ++ if (funcOf s fn).rerr then [] else [.msix fn 0])) ∧
  (∀ (s : State) (fn : Nat) (v : W64), fn < 128 →
    let f := funcOf s fn
    let size := fun (n : Nat) => n = 0 ∨ ∃ k, 4 ≤ k ∧ k ≤ 16 ∧ n = 2 ^ k
    (f.head ≠ f.doorbell → ∀ ofs, ofs = 0 ∨ ofs = 8 → ∃ t, exec (.ringConfigWrite fn ofs v) s = .next t ∧ funcOf t fn = { f with rerr := true } ∧
      t.outbox = s.outbox ++ if f.rerr then [] else [.msix fn 0]) ∧
    (f.head = f.doorbell → size f.ringsize.toNat → ∃ t, exec (.ringConfigWrite fn 0 v) s = .next t ∧ t.outbox = s.outbox ∧
      funcOf t fn = { f with ringbase := v &&& ~~~0xFFF#64 }) ∧
    (f.head = f.doorbell → size (v.toNat % 2 ^ 32) → f.ringbase &&& 0xFFF = 0 → ∃ t, exec (.ringConfigWrite fn 8 v) s = .next t ∧ t.outbox = s.outbox ∧
      funcOf t fn = { f with ringsize := v.setWidth 32 } ∧ exec (.bar0RegisterWrite fn 8 (v.setWidth 32)) s = .next t)) ∧
  (∀ (s : State) (fn p : Nat) (v : W32), fn < 128 → (funcOf s fn).part = some p → (∀ n, bits (sysOf s n).rplctl.toNat 31 30 = 0) →
    ∃ t, exec (.notifyWrite fn v) s = .next t ∧ exec (.bar0RegisterWrite fn 0x01C v) s = .next t ∧ t.mem = s.mem ∧ t.outbox = s.outbox ∧
      Told s t p 5 fun a => fieldOf a 0 4 = v.toNat ∧ fieldOf a 4 2 = fn) ∧
  (∀ (s : State) (fn ofs : Nat) (v : W32), fn ≤ 128 → (fn = 128 → Requester.pf ∉ s.iod.headgate.frozen) →
    (∃ t, exec (.bar0RegisterWrite fn 0x018 v) s = .next t ∧ t.outbox = s.outbox ∧
      funcOf t fn = { funcOf s fn with rerr := (funcOf s fn).rerr && !v.getLsbD 2 }) ∧
    (0x800 ≤ ofs → ofs + 4 ≤ 0x1000 → ∃ t, exec (.bar0RegisterWrite 128 ofs v) { s with iod := { s.iod with headgate := { s.iod.headgate with frozen := [] } } } = .next t ∧
      ∀ i, Store.get t.iod.headgate.mbx i = if ofs - 0x800 ≤ i ∧ i < ofs - 0x800 + 4 then byteOf v.toNat (i - (ofs - 0x800)) else Store.get s.iod.headgate.mbx i) ∧
    (0x020 ≤ ofs → ofs < 0x800 → exec (.bar0RegisterWrite fn ofs v) s = .next s)) ∧
  (∀ (s : State) (fn ofs n : Nat),
    let f := funcOf s fn
    (f.part = none → ∃ t, exec (.bar2Request fn ofs n none) s = .next t ∧ t = { s with outbox := s.outbox ++ [.bar2 fn none] }) ∧
    ∀ p pa, f.part = some p → Calm s → (∀ x, unserved s x = false) → ofs + n ≤ 2 ^ 40 → 0 < n → ofs % 4096 + n ≤ 4096 → isPackage pa = true → isPackage (pa + n) = true →
      lookupTlb s (.sys 0) f.asid p ofs 0 = .ok pa →
      ∃ t, exec (.bar2Request fn ofs n none) s = .next t ∧ t.mem = s.mem ∧
        t.outbox = s.outbox ++ [.bar2 fn (some ((upFrom pa n).map (byteAt s)))]) ∧
  (∀ (s : State) (fn ofs p entry : Nat) (bs : List Byte) (tl : TlbEntry), fn < 128 → (funcOf s fn).part = some p → Calm s → s.slices = [] → s.path = [] →
    let pa := tl.frame + (ofs - tl.base)
    walk s (funcOf s fn).asid p ofs 1 = .ok tl entry → tl.base ≤ ofs → bs ≠ [] → ofs + bs.length ≤ 2 ^ 40 → ofs % 4096 + bs.length ≤ 4096 →
    pa % 128 + bs.length ≤ 128 → isPackage (pa + bs.length) = true →
    ∃ t, exec (.bar2Request fn ofs bs.length (some bs)) s = .next t ∧ t.outbox = s.outbox ∧ (∀ i < bs.length, byteAt t (pa + i) = (bs[i]?).getD 0) ∧
      ∀ x, ¬(pa ≤ x ∧ x < pa + bs.length) → x / 8 ≠ entry / 8 → byteAt t x = byteAt s x) ∧
  (∀ (s : State) (fn : Nat), fn < 128 → (∀ p, (funcOf s fn).part = some p → unsaved s p = []) → ∃ t, exec (.functionLevelReset fn) s = .next t ∧ t.mem = s.mem ∧ (funcOf t fn).head = 0 ∧
    (funcOf t fn).doorbell = 0 ∧ (funcOf t fn).handed = false ∧ (funcOf t fn).part = (funcOf s fn).part ∧
    ((funcOf s fn).part ≠ none → (funcOf t fn).quiesced = true)) ∧
  (∀ (s : State) (port : Nat) (a : BitVec 128) (mac : BitVec 48), (Table.getD s.iod.eth port {}).up = true →
    ((∃ e ∈ s.iod.parts, e.2.ip = a) → a ≠ 0 → exec (.neighborSolicitation port a) s = .next { s with outbox := s.outbox ++ [.advertise port a] }) ∧
    ((∀ e ∈ s.iod.parts, e.2.ip ≠ a) → (∃ e ∈ s.iod.parts, e.2.ip ≠ 0) → exec (.neighborSolicitation port a) s = .next s) ∧
    ((∃ x ∈ (Table.getD s.iod.eth port {}).asked, x.1 = a) → ∃ t, exec (.neighborAdvertisement port a mac) s = .next t ∧ t.mem = s.mem ∧
      (Table.getD t.iod.eth port {}).neighbours.head? = some (a, mac) ∧ (∀ x ∈ (Table.getD t.iod.eth port {}).asked, x.1 ≠ a) ∧
      (Table.getD t.iod.eth port {}).neighbours.length ≤ 1024)) ∧
  (∀ (s : State) (p port : Nat) (q : Partition) (m : Msg) (rest : List Msg) (x : BitVec 128 × Nat), s.iod.parts = [(p, q)] → q.sendq = m :: rest → m.port = port →
    m.done = 0 → nextHop q m.dst = x.1 → x ∈ (Table.getD s.iod.eth port {}).asked → x.2 + 7200000000 ≤ s.cycle →
    ∃ t, exec (.nextHopTimeout port x.1) s = .next t ∧ t.mem = s.mem ∧ (partOf t p).map (·.sendq) = some rest ∧
      ∀ y ∈ (Table.getD t.iod.eth port {}).asked, y.1 ≠ x.1) ∧
  (∀ (s : State) (p port : Nat) (q : Partition), s.iod.parts = [(p, q)] →
    ((∀ m ∈ q.sendq, m.port = port → m.done = 0) → ∃ t, exec (.ethernetLinkDown port) s = .next t ∧ t.mem = s.mem ∧ (Table.getD t.iod.eth port {}).up = false ∧
      (partOf t p).map (·.sendq) = some (q.sendq.filter fun m => m.port != port)) ∧
    ∀ (m : Msg) (tl : TlbEntry) (entry : Nat), q.sendq = [m] → m.port = port → m.done ≠ 0 → m.done % 8 = 0 → Calm s → s.slices = [] → s.path = [] →
      walk s m.asid p m.done 1 = .ok tl entry → tl.base ≤ m.done → isPackage (tl.frame + (m.done - tl.base)) = true → (tl.frame + (m.done - tl.base)) % 8 = 0 →
      ∃ t, exec (.ethernetLinkDown port) s = .next t ∧ (partOf t p).map (·.sendq) = some [] ∧
        number ((upFrom (tl.frame + (m.done - tl.base)) 8).map (byteAt t)) = 4) ∧
  (∀ (s : State) (o : Outside) (data : Option (List Byte)), (s.outside.find? fun x => x.id == o.id && x.port.isNone) = some o →
    ∃ t, exec (.hostAccessCompletion o.id data) s = .next t ∧ Completed s t o data false ∧
      (data = none → Told s t o.part 2 fun a => fieldOf a 8 1 = 4 ∧ fieldOf a 0 8 = o.pa % 2 ^ 64)) ∧
  (∀ (s : State) (port : Nat) (f : Flit) (m : LinkMsg) (l : LinkPort), MayAsk s m → Calm s →
    let old := fun (n : Nat) => (upFrom m.addr n).map (byteAt s)
    let wid := if m.dbl then 8 else 4
    let lo := number (m.data.take wid)
    let hi := number ((m.data.drop 8).take wid)
    let new := if m.aop = 7 then atomF 7 (8 * wid) (number (old wid)) hi lo else atomF m.aop (8 * wid) (number (old wid)) lo 0
    (Receives s port f l (1 + ceilDiv m.size 16) → (∀ x, unserved s x = false) → ∃ t, exec (.rd port f m) s = .next t ∧ t.mem = s.mem ∧ Responded s t port f l m 4 1 0 (old m.size)) ∧
    (Receives s port f l 1 → s.slices = [] → m.data.length = m.size → m.addr % 128 + m.size ≤ 128 →
      ∃ t, exec (.wr port f m) s = .next t ∧ Responded s t port f l m 5 (1 + ceilDiv m.size 16) 0 [] ∧
        ∀ x, byteAt t x = if m.addr ≤ x ∧ x < m.addr + m.size then (m.data[x - m.addr]?).getD 0 else byteAt s x) ∧
    (Receives s port f l (1 + ceilDiv m.size 16) → s.slices = [] → m.addr % 128 + wid ≤ 128 →
      ∃ t, exec (.atm port f m) s = .next t ∧ Responded s t port f l m 4 2 0 (old wid) ∧
        ∀ x, byteAt t x = if m.addr ≤ x ∧ x < m.addr + wid then byteOf new (x - m.addr) else byteAt s x)) ∧
  (∀ (k : Fin 3) (s : State) (port : Nat) (f : Flit) (m : LinkMsg) (l : LinkPort), Receives s port f l 1 → ¬MayAsk s m →
    let i := match k with
      | 0 => Instr.rd port f m
      | 1 => .wr port f m
      | 2 => .atm port f m
    let units := match k with
      | 0 => 1
      | 1 => 1 + ceilDiv m.size 16
      | 2 => 2
    let code := if isPackage m.addr && isPackage (m.addr + m.size - 1) then 1 else 2
    ∃ t, exec i s = .next t ∧ t.mem = s.mem ∧ Responded s t port f l m 6 units code []) ∧
  (∀ (k : Fin 3) (s : State) (port : Nat) (f : Flit) (m : LinkMsg) (l : LinkPort) (n : Nat) (o : Outside), Receives s port f l 0 →
    Table.get? l.inflight m.tag = some n → s.outside.find? (·.id == n) = some o →
    let i := match k with
      | 0 => Instr.rdata port f m
      | 1 => .wack port f m
      | 2 => .fail port f m
    let data := match k with
      | 0 => some (m.data.take m.size)
      | 1 => some []
      | 2 => none
    ∃ t, exec i s = .next t ∧ Completed s t o data m.poison ∧ Table.get? (linkOf t port).inflight m.tag = none ∧
      t.outbox = s.outbox ++ [.credits port 0 (if k = 0 then 1 + ceilDiv m.size 16 else 1) false]) ∧
  (∀ (s : State) (port : Nat) (f : Flit) (m : LinkMsg), (linkOf s port).up = true → f.seq ≠ (linkOf s port).rxSeq →
    ∀ i ∈ [Instr.rd port f m, .wr port f m, .atm port f m, .rdata port f m, .wack port f m, .fail port f m],
      ∃ t, exec i s = .next t ∧ t.mem = s.mem ∧ t.outside = s.outside ∧ (linkOf t port).nakked = true ∧
        t.outbox = s.outbox ++ if (linkOf s port).nakked then [] else [.link port 2 (linkOf s port).txSeq (linkOf s port).rxSeq 0 none]) ∧
  (∀ (s : State) (port ack req resp : Nat) (l : LinkPort), linkOf s port = l →
    (l.up = true → l.waiting = [] →
      let left := if ack = l.txSeq then [] else if l.replay.any (fun r => r.1 == ack) then l.replay.dropWhile fun r => r.1 != ack else l.replay
      (∃ t, exec (.idle port ack) s = .next t ∧ t.mem = s.mem ∧ linkOf t port = { l with replay := left } ∧ t.outbox = s.outbox) ∧
      (∃ t, exec (.ctrl port ack req resp false) s = .next t ∧ t.mem = s.mem ∧ t.outbox = s.outbox ∧
        linkOf t port = { l with replay := left, reqCredit := l.reqCredit + req, respCredit := l.respCredit + resp }) ∧
      (∃ t, exec (.ctrl port ack req resp true) s = .next t ∧ t.mem = s.mem ∧ t.outbox = s.outbox ∧
        linkOf t port = { l with reqCredit := req, respCredit := resp }) ∧
      ((∀ n, l.nakSeq = some (ack, n) → n < 15) → ∃ t, exec (.nak port ack) s = .next t ∧ t.mem = s.mem ∧ (linkOf t port).replay = left ∧
        t.outbox = s.outbox ++ left.map fun r => .link port 1 r.1 l.rxSeq r.2.2 (some r.2.1)) ∧
      (l.nakSeq = some (ack, 15) → ∃ t, exec (.nak port ack) s = .next t ∧ (linkOf t port).up = false) ∧
      ∃ t, exec (.flitCrcFail port) s = .next t ∧ t.mem = s.mem ∧ linkOf t port = { l with nakked := true } ∧
        t.outbox = s.outbox ++ [.link port 2 l.txSeq l.rxSeq 0 none]) ∧
    (l.up = true → ∃ t, exec (.corhoebLinkDown port) s = .next t ∧ t.mem = s.mem ∧ linkOf t port = {} ∧ ∀ o ∈ t.outside, o.port ≠ some port) ∧
    (l.up = false → port < 16 → ∃ t, exec (.linkRetrain port) s = .next t ∧ t.mem = s.mem ∧ linkOf t port = { up := true } ∧
      t.outbox = s.outbox ++ [.credits port 1024 1024 true]))

/-- R451 to R459, R281, R332, R338, R353, R404, R408, R442, R444, R448 to R450: each command of Headgate, when it heads the
queue, is well formed and its sender may issue it, has its effect and is answered with status 0 and its results; the
partitions it changes are told. A command for the owner from a resident OS is DENIED; from another master it is FROZEN, and
so is that master from then on; a payload that does not belong is BADARG; a code of no command is UNKNOWN.
The order of the checks and corners of single commands are the model's readings (log 20). -/
def Obligations.HeadgateCommands : Prop :=
  (∀ (s : State) (q : HgReq) (rest : List (Nat × HgReq)), ∀ e ∈ ownerCommands, s.iod.headgate.queue = (e.2, q) :: rest →
    ((∃ p, q.who = .os p) → q.who ∉ s.iod.headgate.frozen → ∃ t, exec e.1 s = .next t ∧ Answers s t q rest 1 [] []) ∧
    ((∀ p, q.who ≠ .os p) → s.iod.headgate.owner ≠ some q.who → ∃ t, exec e.1 s = .next t ∧ Answers s t q rest 2 [] [] ∧
      q.who ∈ t.iod.headgate.frozen ∧ ∀ w ∈ t.iod.headgate.frozen, w = q.who ∨ w ∈ s.iod.headgate.frozen) ∧
    (MayIssue s q.who .o → q.payload ≠ [] → e.2 ≠ 0x41 → ∃ t, exec e.1 s = .next t ∧ Answers s t q rest 3 [] [])) ∧
  (∀ (s : State) (c : Nat) (q : HgReq) (rest : List (Nat × HgReq)), s.iod.headgate.queue = (c, q) :: rest →
    (∀ e ∈ ownerCommands ++ otherCommands, e.2 ≠ c → exec e.1 s = .next s) ∧
    ((∀ e ∈ ownerCommands ++ otherCommands, e.2 ≠ c) → q.who ∉ s.iod.headgate.frozen →
      ∃ t, exec .headgateUnknownCmd s = .next t ∧ Answers s t q rest 6 [] [])) ∧
  (∀ (s : State) (q : HgReq) (rest : List (Nat × HgReq)),
    let g := s.iod.headgate
    let named := match arg q 8 1 with
      | 0 => some Requester.pf
      | 1 => some .bmc
      | 2 => some .remote
      | _ => none
    (Commands s 1 q rest .a [] 0 → ∃ (t : State) (n : BitVec 256), exec .getnonce s = .next t ∧ Answers s t q rest 0 (valBytes 32 n.toNat) [] ∧
      n = Config.nonce s.freeCount ∧ (t.iod.headgate.nonces.find? fun x => x.1 == q.who) = some (q.who, n)) ∧
    (Commands s 2 q rest .a [] 512 → ∀ n, (g.nonces.find? fun x => x.1 == q.who) = some (q.who, n) →
      ∃ t, exec .claim s = .next t ∧
        if pssVerify Config.ownerKey.toNat (valBytes 32 n.toNat) q.payload = true ∧ (g.owner = none ∨ g.owner = some q.who) then
          Answers s t q rest 0 [] [] ∧ t.iod.headgate.owner = some q.who
        else Answers s t q rest 1 [] [] ∧ t.iod.headgate.owner = g.owner) ∧
    (Commands s 3 q rest .o [(8, 1)] 0 → ∀ m, named = some m → ∃ t, exec .handover s = .next t ∧ Answers s t q rest 0 [] [] ∧
      t.iod.headgate.owner = some m ∧ m ∉ t.iod.headgate.frozen) ∧
    (Commands s 4 q rest .o [] 0 → ∃ t, exec .release s = .next t ∧ Answers s t q rest 0 [] [] ∧ t.iod.headgate.owner = none) ∧
    (Commands s 5 q rest .o [(8, 1)] 0 → ∀ m, named = some m → ∃ t, exec .unfreeze s = .next t ∧ Answers s t q rest 0 [] [] ∧
      t.iod.headgate.owner = g.owner ∧ ∀ w, w ∈ t.iod.headgate.frozen ↔ w ∈ g.frozen ∧ w ≠ m) ∧
    (Commands s 6 q rest .a [] 0 → ∃ t r, exec .ownerq s = .next t ∧ Answers s t q rest 0 r [] ∧ t.iod.boot = s.iod.boot ∧
      fieldOf r 0 1 = (match g.owner with
        | some .pf => 0
        | some .bmc => 1
        | some .remote => 2
        | _ => 0xFF) ∧ fieldOf r 2 1 = s.iod.boot.state % 256 ∧ fieldOf r 4 4 = s.iod.boot.failures % 2 ^ 32)) ∧
  (∀ (s : State) (q : HgReq) (rest : List (Nat × HgReq)),
    let b := s.iod.boot
    (Commands s 0x40 q rest .a [(8, 1)] 0 → arg q 8 1 ≤ 7 → ∃ t, exec .measure s = .next t ∧ t.iod.boot = b ∧
      Answers s t q rest 0 [] (beBytes 64 (measOf s (arg q 8 1)).toNat)) ∧
    (Commands s 0x42 q rest .p [(8, 1)] 64 → 3 ≤ arg q 8 1 → arg q 8 1 ≤ 7 → ∃ t, exec .extend s = .next t ∧ Answers s t q rest 0 [] [] ∧
      t.iod.boot = { b with meas := b.meas.set (arg q 8 1) (extended512 (measOf s (arg q 8 1)) q.payload) }) ∧
    (Commands s 0x41 q rest .o [] q.payload.length → bootOk q.payload = true → ∃ t, exec .bootcfg s = .next t ∧ Answers s t q rest 0 [] [] ∧
      t.iod.boot = { b with next := q.payload })) ∧
  (∀ (s : State) (q : HgReq) (rest : List (Nat × HgReq)),
    let a := arg q 8 2
    let n := arg q 0x0A 1
    let mine := ∀ p, q.who = .os p → Table.get? s.iod.accts a = some p
    let value := valBytes 8 (Store.get s.iod.counters (16 * a + n)).toNat
    a ≤ 1023 →
    (Commands s 0x30 q rest .o [(8, 2), (0x0A, 1)] 0 → (n = 0xFF ∨ (partOf s n).isSome) → ∃ t, exec .acctassign s = .next t ∧ Answers s t q rest 0 [] [] ∧
      (∀ x, Table.get? t.iod.accts x = if x = a then (if n = 0xFF then none else some n) else Table.get? s.iod.accts x) ∧
      (n ≠ 0xFF → Announced s t 0x30 q n)) ∧
    (Commands s 0x31 q rest .ap [(8, 2), (0x0A, 1)] 0 → n ≤ 15 → mine → ∃ t, exec .cntread s = .next t ∧ Answers s t q rest 0 value [] ∧
      t.iod.counters = s.iod.counters) ∧
    (Commands s 0x32 q rest .op [(8, 2), (0x0A, 1)] 0 → n ≤ 15 → mine → ∃ t, exec .cntclear s = .next t ∧ Answers s t q rest 0 value [] ∧
      ∀ x, Store.get t.iod.counters x = if x = 16 * a + n then 0 else Store.get s.iod.counters x)) ∧
  (∀ (s : State) (q : HgReq) (rest : List (Nat × HgReq)) (x : Partition), partOf s (arg q 8 1) = some x →
    (∀ c ∈ settings q x, Commands s c.cmd q rest .o ((8, 1) :: c.named) 0 → c.good = true → ∃ t, exec c.i s = .next t ∧ Answers s t q rest 0 [] [] ∧
      (partOf t (arg q 8 1)).map unheard = some (unheard c.after) ∧ (∀ p, p ≠ arg q 8 1 → partOf t p = partOf s p) ∧ Announced s t c.cmd q (arg q 8 1)) ∧
    (Commands s 0x51 q rest .o [(8, 1), (9, 1), (0x0C, 4)] 0 → arg q 9 1 ≤ 7 → ∃ t, exec .setfloor s = .next t ∧
      if 10 * (((s.iod.parts.filter fun e => e.1 != arg q 8 1).map fun e => Table.getD e.2.floors (arg q 9 1) 0).sum + arg q 0x0C 4) ≤ 9 * capacityOf (arg q 9 1) then
        Answers s t q rest 0 [] [] ∧ (partOf t (arg q 8 1)).map (fun y => Table.getD y.floors (arg q 9 1) 0) = some (arg q 0x0C 4)
      else Answers s t q rest 5 [] [] ∧ partOf t (arg q 8 1) = some x) ∧
    (Commands s 0x74 q rest .op [(8, 1), (0x0A, 2), (0x10, 8)] 0 → (∀ p, q.who = .os p → p = arg q 8 1) → arg q 0x10 8 % 128 = 0 →
      isPackage (arg q 0x10 8 + 8320 * arg q 0x0A 2 - 1) = true → ∃ t, exec .setumbuf s = .next t ∧ Answers s t q rest 0 [] [] ∧
      partOf t (arg q 8 1) = some { x with umBase := arg q 0x10 8, umCount := arg q 0x0A 2, umNext := 0, umBusy := [] })) ∧
  (∀ (s : State) (q : HgReq) (rest : List (Nat × HgReq)),
    let w := arg q 0x0C 4
    (Commands s 0x60 q rest .o [(8, 1), (9, 1), (0x0C, 4)] 0 →
      (arg q 8 1 = 0 → 800 ≤ w → w ≤ 2400 → ∃ t, exec .powercap s = .next t ∧ Answers s t q rest 0 [] [] ∧ t.iod.power.cap = w) ∧
      (arg q 8 1 = 1 → 50 ≤ w → w ≤ s.iod.power.cap → ∀ x, partOf s (arg q 9 1) = some x → ∃ t, exec .powercap s = .next t ∧ Answers s t q rest 0 [] [] ∧
        (partOf t (arg q 9 1)).map (·.cap) = some (some w) ∧ Announced s t 0x60 q (arg q 9 1))) ∧
    (Commands s 0x61 q rest .o [(8, 1), (0x0C, 4)] 0 → arg q 8 1 < 14 → ∃ t, exec .setewt s = .next t ∧ Answers s t q rest 0 [] [] ∧
      ∀ i < 14, ewtOf t i = if i = arg q 8 1 then w else ewtOf s i)) ∧
  (∀ (s : State) (q : HgReq) (rest : List (Nat × HgReq)) (p : Nat), q.who = .os p →
    (∀ i e, Commands s 0x75 q rest .p [(8, 8)] 0 → armedBy s (arg q 8 8) (some p) = some (i, e) → e.lpb.length = 128 → ∃ t r, exec .armread s = .next t ∧
      Answers s t q rest 0 [] r ∧ r.length = 192 ∧ fieldOf r 0 8 = e.tag.toNat ∧ fieldOf r 8 8 = e.bufb % 2 ^ 64 ∧ fieldOf r 0x10 4 = e.bufs % 2 ^ 32 ∧
      fieldOf r 0x14 2 = e.nslot % 2 ^ 16 ∧ fieldOf r 0x16 2 = 0x8000 + (if e.oneshot then 1 else 0) ∧ fieldOf r 0x18 4 = e.arrn.toNat ∧
      fieldOf r 0x1D 2 = e.asid.toNat ∧ r.drop 64 = e.lpb ∧ t.iod.armed = s.iod.armed) ∧
    (let b := q.payload
      let e : Armed := { armedAs b (BitVec.ofNat 16 (fieldOf b 0x1D 2), p) ((b.drop 64).take 128) with
        bufb := fieldOf b 8 8, bufs := fieldOf b 0x10 4, nslot := fieldOf b 0x14 2, oneshot := bit (fieldOf b 0x16 2) 0, arrn := BitVec.ofNat 32 (fieldOf b 0x18 4) }
      Commands s 0x76 q rest .p [] 192 → fieldOf b 0x1C 1 = p → asidPart s (fieldOf b 0x1D 2) = some p → fieldOf b 0 8 ≠ 0 →
      (fieldOf b 0x16 2 = 0x8000 ∨ fieldOf b 0x16 2 = 0x8001) → e.bufb % 128 = 0 → e.bufs % 128 = 0 → 128 ≤ e.bufs → e.bufs ≤ 1048576 →
      1 ≤ e.nslot → e.nslot ≤ 4096 → e.bufb + e.bufs * e.nslot ≤ 2 ^ 57 → (∀ x ∈ (b.drop 0x1F).take 33, x = 0) →
      (∀ x ∈ s.iod.armed, x.2.tag.toNat ≠ fieldOf b 0 8) → s.iod.armed.length < 4096 →
      (∃ x, partOf s p = some x ∧ (s.iod.armed.filter fun y => y.2.part == p).length < x.quota) →
      ∃ t i, exec .armwrite s = .next t ∧ Answers s t q rest 0 (valBytes 2 i) [] ∧ i < 4096 ∧ Table.get? s.iod.armed i = none ∧
        Table.get? t.iod.armed i = some e ∧ ∀ j, j ≠ i → Table.get? t.iod.armed j = Table.get? s.iod.armed j) ∧
    (∀ x, Commands s 0x90 q rest .p [] 0 → partOf s p = some x →
      (∀ e r, x.events = e :: r → ∃ t, exec .eventpop s = .next t ∧ (partOf t p).map (·.events) = some r ∧
        Answers s t q rest 0 ([BitVec.ofNat 8 e.kind, 0#8] ++ valBytes 2 e.drops ++ valBytes 4 e.seq.toNat ++ e.args) []) ∧
      (x.events = [] → ∃ t, exec .eventpop s = .next t ∧ Answers s t q rest 0 [] [] ∧ partOf t p = some x))) ∧
  (∀ (s : State) (q : HgReq) (rest : List (Nat × HgReq)),
    let n := arg q 0x0A 2
    (Commands s 0x80 q rest .o [(8, 1), (0x0A, 2)] 0 →
      (arg q 8 1 = 0 → n < 192 → ∃ t, exec .unitrelease s = .next t ∧ Answers s t q rest 0 [] [] ∧ (coreOf t n).quarantined = false) ∧
      (arg q 8 1 = 1 → n < 32 → ∃ t, exec .unitrelease s = .next t ∧ Answers s t q rest 0 [] [] ∧ (partxOf t n).faulted = false ∧
        ∀ c < 32, ownerOf s c = some n → (columnOf t c).faulted = false)) ∧
    (Commands s 0x81 q rest .o [(8, 1), (0x0A, 2)] 0 →
      (arg q 8 1 = 0 → n < 8 → ∃ t, exec .resumectx s = .next t ∧ Answers s t q rest 0 [] [] ∧ (sysOf t n).ctl = { (sysOf s n).ctl with halted := false }) ∧
      (arg q 8 1 = 1 → n < 192 → ∃ t, exec .resumectx s = .next t ∧ Answers s t q rest 0 [] [] ∧ (coreOf t n).sup = { (coreOf s n).sup with halted := false }))) ∧
  (∀ (s : State) (q : HgReq) (rest : List (Nat × HgReq)),
    let p := arg q 8 1
    let first := arg q 9 1
    let count := arg q 0x0A 1
    Commands s 0x10 q rest .o [(8, 1), (9, 1), (0x0A, 1)] 0 → p < 32 →
    (count ≠ 0 → first + count ≤ 32 → (∀ c < 32, ownerOf s c = some p → first ≤ c ∧ c < first + count) →
      (∀ c, first ≤ c → c < first + count → ownerOf s c = none ∨ ownerOf s c = some p) →
      ∃ t, exec .partset s = .next t ∧ Answers s t q rest 0 [] [] ∧
        (partOf t p).map unheard = some (unheard { Table.getD s.iod.parts p {} with first, count }) ∧ (∀ r, r ≠ p → partOf t r = partOf s r) ∧
        ∀ c, first ≤ c → c < first + count → ownerOf s c = none → ∀ x, (columnOf s c).last = some x → x ≠ p → (columnOf t c).clearing = true) ∧
    (count = 0 → (∀ c < 32, ownerOf s c = some p → Vacant s c) → (∀ l ∈ s.launches, l.2.part ≠ p) → (∀ x, partOf s p = some x → x.held.length < 256) →
      ∃ t, exec .partset s = .next t ∧ Answers s t q rest 0 [] [] ∧ partOf t p = none ∧
        ∀ c < 32, ownerOf s c = some p → (columnOf t c).last = some p ∧ ∀ k, k / 6 = c → (coreOf t k).sup.halted = true)) ∧
  (∀ (s : State) (q : HgReq) (rest : List (Nat × HgReq)) (x : Partition),
    let p := arg q 8 1
    Commands s 0x11 q rest .o [(8, 1)] 0 → partOf s p = some x → x.held.length < 256 →
    (∀ l ∈ s.launches, l.2.part = p → ∀ e ∈ s.cores, ∀ y ∈ e.2.slots, y.2.launch ≠ l.1) →
    ∃ t y, exec .partreset s = .next t ∧ Answers s t q rest 0 [] [] ∧ partOf t p = some y ∧ y.resume = [] ∧ y.held = [] ∧ y.sendq = [] ∧
      y.first = x.first ∧ y.count = x.count ∧ (∀ e ∈ t.iod.armed, e.2.part ≠ p) ∧ (∀ n la, launchOf t n = some la → la.part ≠ p) ∧ Announced s t 0x11 q p) ∧
  (∀ (s : State) (q : HgReq) (rest : List (Nat × HgReq)) (c p : Nat), ownerOf s c = some p → c < 32 →
    let waits := fun (t : State) => t.iod.headgate.queue = s.iod.headgate.queue ∧ t.outbox = s.outbox ∧ (columnOf t c).reclaiming = true ∧
      (columnOf t c).lentTo = (columnOf s c).lentTo
    let halted := fun (t : State) => ∀ k, k / 6 = c → (coreOf t k).sup.halted = true
    (Commands s 0x12 q rest .o [(8, 1), (9, 1), (0x0A, 1)] 0 → arg q 8 1 = p → arg q 0x0A 1 = c → p ≠ arg q 9 1 → (partOf s p).isSome → (partOf s (arg q 9 1)).isSome →
      (columnOf s c).lentTo = none → ∃ t, exec .lend s = .next t ∧ t.mem = s.mem ∧
        (Vacant s c → Answers s t q rest 0 [] [] ∧ (columnOf t c).lentTo = some (arg q 9 1) ∧ halted t) ∧ (blocksOn s [c] ≠ [] → waits t)) ∧
    (Commands s 0x13 q rest .o [(8, 1)] 0 → arg q 8 1 = c → ∀ b, (columnOf s c).lentTo = some b → ∃ t, exec .reclaim s = .next t ∧ t.mem = s.mem ∧
        (Vacant s c → Answers s t q rest 0 [] [] ∧ (columnOf t c).lentTo = none ∧ halted t) ∧ (blocksOn s [c] ≠ [] → waits t))) ∧
  (∀ (s : State) (q : HgReq) (rest : List (Nat × HgReq)),
    let f := arg q 8 2
    let p := arg q 0x0A 1
    Commands s 0x14 q rest .o [(8, 2), (0x0A, 1), (0x0C, 2)] 0 → f ≤ 128 → (p = 0xFF ∨ (partOf s p).isSome) →
    ∃ t, exec .bindvf s = .next t ∧ Answers s t q rest 0 [] [] ∧ (∀ g, g ≠ f → funcOf t g = funcOf s g) ∧
      funcOf t f = { funcOf s f with part := if p = 0xFF then none else some p, asid := BitVec.ofNat 16 (arg q 0x0C 2) }) ∧
  (∀ (s : State) (q : HgReq) (rest : List (Nat × HgReq)) (x : Partition),
    let p := arg q 8 1
    let addr := fun (at_ : Nat) => BitVec.ofNat 128 (beVal ((q.args.drop (at_ - 8)).take 16))
    Commands s 0x15 q rest .o [(8, 1), (9, 1), (0x10, 32)] 0 → partOf s p = some x → arg q 9 1 ≤ 128 →
    ∃ t, exec .setaddr s = .next t ∧ Answers s t q rest 0 [] [] ((s.iod.eth.filter fun e => e.2.up).map fun e => .advertise e.1 (addr 0x10)) ∧
      (partOf t p).map unheard = some (unheard { x with ip := addr 0x10, plen := arg q 9 1, router := addr 0x20 }) ∧ Announced s t 0x15 q p) ∧
  (∀ (s : State) (q : HgReq) (rest : List (Nat × HgReq)),
    let p := arg q 8 1
    let r : PeerRange := { peer := arg q 0x0A 2, part := arg q 0x0C 1, base := arg q 0x10 8, size := arg q 0x18 8 }
    Commands s 0x16 q rest .o [(8, 1), (9, 1), (0x0A, 2), (0x0C, 1), (0x0D, 1), (0x10, 16)] 0 → (partOf s p).isSome → r.peer ≤ 4095 →
    (arg q 9 1 ≤ 1 → r.part ≤ 31 → r.size % 65536 = 0 → r.base + r.size ≤ 2 ^ 39 → ∃ t, exec .peermap s = .next t ∧ Answers s t q rest 0 [] [] ∧
      (partxOf t p).peers = (if arg q 9 1 = 0 then (partxOf s p).peers ++ [r] else (partxOf s p).peers.filter fun y => y != r) ∧ Announced s t 0x16 q p) ∧
    (arg q 9 1 = 2 → arg q 0x0D 1 ≤ 15 → ∃ t, exec .peermap s = .next t ∧ Answers s t q rest 0 [] [] ∧
      (∀ n, Table.get? t.iod.routes n = if n = r.peer then some (arg q 0x0D 1) else Table.get? s.iod.routes n) ∧ Announced s t 0x16 q p)) ∧
  ∀ (s : State) (q : HgReq) (rest : List (Nat × HgReq)),
    let g := arg q 8 1
    let r := (arg q 0x10 8, arg q 0x18 8)
    let old := Table.getD s.iod.groups g ([], 0#32)
    Commands s 0x20 q rest .o [(8, 1), (9, 1), (0x10, 20)] 0 → g < 32 →
    (arg q 9 1 ≤ 1 → r.1 % 65536 = 0 → r.2 ≠ 0 → isPackage (r.1 + r.2 - 1) = true → ∃ t, exec .sharegrp s = .next t ∧ Answers s t q rest 0 [] [] ∧
      Table.getD t.iod.groups g ([], 0#32) = (if arg q 9 1 = 0 then old.1 ++ [r] else old.1.filter fun x => x != r, old.2)) ∧
    (arg q 9 1 = 2 → ∃ t, exec .sharegrp s = .next t ∧ Answers s t q rest 0 [] [] ∧
      Table.getD t.iod.groups g ([], 0#32) = (old.1, BitVec.ofNat 32 (arg q 0x20 4)))

/-! ## The step, decoding, invariants, reset (04_encoding.md, 05_registers.md R125) -/

namespace Sys2Proof.Claims

open Sys2Proof Sys2Proof.Machine

/-- An issue of the current stream of `u` that decodes as `i` in state `v`: what `exec` makes of it, then what follows an issue. -/
def issueOf (u v : State) (cx : Cx) (i : Instr) : Host.Outcome State Fault Refusal :=
  match exec i v with
  | .next t => .next (afterIssue u t cx)
  | r => r
/-- Parcels as bytes, and parcels `a`, `b`, `c` as the table numbers an instruction's bits. -/
def parcels (l : List W32) : List Byte := l.flatMap parcelBytes
def wordOf (a b c : Nat) : Nat := a + b * 2 ^ 32 + c * 2 ^ 64

/-- The invariant of every step: memory keeps its canonical form; the numbers given out lie below the next one, those that saved
and restored blocks keep too; every ring has a size and an aligned base (R439). -/
structure Inv (s : State) : Prop where
  memory : Memory.wf s.mem = true
  pending : Numbered s
  resident : ∀ e ∈ s.cores, ∀ x ∈ e.2.slots, ∀ p ∈ x.2.kept.pend, p.id < s.nextId
  saved : ∀ e ∈ s.iod.parts, ∀ r ∈ e.2.resume, ∀ p ∈ r.blk.kept.pend, p.id < s.nextId
  rings : ∀ e ∈ s.iod.funcs, ringSizeOk e.2.ringsize.toNat = true ∧ e.2.ringbase &&& 0xFFF#64 = 0

end Sys2Proof.Claims

open Sys2Proof Sys2Proof.Machine Sys2Proof.Claims

/-- R85 to R90: a stream that can issue runs the instruction that its captured line holds at its PC, or enters the line that
memory holds there, which passes LineCheck, and runs it; a stream that cannot issue does nothing; a core's issue unit
issues the first stream of R49's order, once a cycle; an event of the agenda happens. Beside `exec` the step charges
channel traffic and takes the stops of R424 and R425, which change no register or byte; for supervisor code and system
cores it adds nothing more. The agenda, and which of two blocks placed in one
cycle comes first, are the model's own (log 2, 60). -/
def Obligations.StepRunsDecodedInstruction : Prop :=
  (∀ (s u : State) (cx : Cx), (s.agenda = [] ∧ u = s ∨ ∃ i r, s.agenda = .issue i :: r ∧ laneOf { s with agenda := r } i = none ∧ u = { s with agenda := r, cur := i }) →
    cxOf u = some cx →
    (canIssue u cx = false → step s = .next u) ∧
    (canIssue u cx = true → ∀ l i rest, cx.line = some l → decode (parcels (l.drop (cx.pc.toNat / 4 % 32))) = .ok (i, rest) →
      step s = issueOf u u cx i) ∧
    (canIssue u cx = true → ∀ pa i rest, cx.line = none → (∀ b, cx.blk u = some b → isSealed u b = false) →
      let l := parcelsOf ((upFrom pa 128).map (Store.get u.mem))
      let j := cx.pc.toNat / 4 % 32
      translate u cx.id (spaceOf u cx.id).1 (spaceOf u cx.id).2 (cx.pc.toNat / 128 * 128) 3 = .ok pa → isPackage pa = true → pa % 128 = 0 →
      unserved u pa = false → frameOf u cx.id (pa / 128) = none → rdcOf u (dieOf cx.id) (pa / 128) = none →
      (∀ n, cx.id = .sys n → ∀ f ∈ (sysOf u n).icache, f.line ≠ pa / 128) → Calm u → u.path = [] → lineCheck l = none → cx.pc.toNat % 4 = 0 →
      (∀ b, cx.blk u = some b → b.regs.trapvec ≠ cx.pc) →
      2 ≤ j → (l.headD 0).getLsbD (j - 2) = true → decode (parcels (l.drop j)) = .ok (i, rest) →
      ∃ v, v.mem = u.mem ∧ cx.Only u v ∧ cx.SameRegs u v ∧ cxOf v = some { cx with line := some l } ∧ step s = issueOf u v cx i)) ∧
  (∀ (s : State) (c : Nat) (r : List Turn),
    let u := { s with agenda := r }
    (∀ i, s.agenda = .issue i :: r → laneOf u i = some c → step s = step { s with agenda := .lane c :: r }) ∧
    (s.agenda = .lane c :: r → laneUsed u c = true → step s = .next u) ∧
    ∀ i rest cx t, s.agenda = .lane c :: r → laneUsed u c = false → issueOrder u c = i :: rest → cxOf { u with cur := i } = some cx →
      issue { u with cur := i } = .next t → issued u t cx = true → step s = .next t) ∧
  (∀ (s : State) (i : Instr) (r : List Turn) (t : State), s.agenda = .event i :: r → exec i { s with agenda := r } = .next t →
    step s = .next (afterEvent { s with agenda := r } i t)) ∧
  (∀ (s0 t : State) (cx : Cx), (∀ c sl, cx.id ≠ .blk c sl) → { afterIssue s0 t cx with fills := t.fills } = t) ∧
  ∀ (s0 t : State) (cx : Cx) (c sl : Nat) (b : Block), cx.id = .blk c sl → blockOf t c sl = some b → b.phase = .running → b.regs.dbgctl = 0 →
    (afterIssue s0 t cx).mem = t.mem ∧ ∃ b', blockOf (afterIssue s0 t cx) c sl = some b' ∧ b'.mem = b.mem ∧ b'.regs = b.regs ∧
      b'.phase = .running ∧ ∀ l, b'.at l = b.at l

/-- R92 to R100, R107, R110 to R112: words written out from the encoding tables decode to the instructions they stand for. -/
def Obligations.DecodeWords : Prop :=
  -- ADD.v g form: OPC 0x00 g, DREG 3, SRCA g1, SRCB g2, GRD p0
  decodeTableWord 32 0x000C0410 = some (.add .g { p := { dreg := 3, nwb := false, srcA := 1, srcB := 2, grd := 0 }, imm := 0 }) ∧
  -- SUB of class s with NWB, SRCB the immediate 5, guard p2
  decodeTableWord 64 (wordOf 0x41020FFA 5 0) = some (.sub .s { p := { dreg := 0, nwb := true, srcA := 3, srcB := 127, grd := 2 }, imm := 5 }) ∧
  -- MAD of class v: X parcel with SRCC v9
  decodeTableWord 64 (wordOf 0x85080810 0x12000000 0) = some (.mad .v { p := { dreg := 2, nwb := false, srcA := 2, srcB := 2, grd := 0 }, srcC := 9, rm := 0, sat := false, type := 0, fn4 := 0, z := 0 }) ∧
  -- MOVW s4 := 0x1122334455667788
  decodeTableWord 96 (wordOf 0xC0100000 0x55667788 0x11223344) = some (.movw { p := { dreg := 4, nwb := false, srcA := 0, srcB := 0, grd := 0 }, imm := 0x1122334455667788 }) ∧
  -- LD of 4 bytes, scope .dev, acquire, offset -8
  decodeTableWord 64 (wordOf 0xC1040800 0x685FFFF8 0) = some (.ld { p := { dreg := 1, nwb := false, srcA := 2, srcB := 0, grd := 0 }, scope := 3, order := 1, cpol := 0, wid := 2, ofs := 0x1FFFF8 }) ∧
  -- BARA, SUB 1 of the group 0xD0
  decodeTableWord 64 (wordOf 0xD0040800 0x01000010 0) = some (.bara { p := { dreg := 1, nwb := false, srcA := 2, srcB := 0, grd := 0 }, param := 0x10 }) ∧
  -- EP 7
  decodeTableWord 64 (wordOf 0xEF000000 7 0) = some (.ep { p := { dreg := 0, nwb := false, srcA := 0, srcB := 0, grd := 0 }, param := 7 }) ∧
  -- MFS of BIDX (0x001) into DREG 5, and CTXSV, both of the group 0xFF
  decodeTableWord 64 (wordOf 0xFF140000 1 0) = some (.mfs { p := { dreg := 5, nwb := false, srcA := 0, srcB := 0, grd := 0 }, param := 1 }) ∧
  decodeTableWord 64 (wordOf 0xFF080C00 0x05000001 0) = some (.ctxsv { p := { dreg := 2, nwb := false, srcA := 3, srcB := 0, grd := 0 }, param := 1 }) ∧
  -- an unassigned opcode
  decodeTableWord 32 0x25000000 = some (.unassignedOpcode 0x25000000 0)

/-- R92 to R100, R107 to R114: decoding the parcels of a well-formed instruction gives that instruction back, with every operand at
every value its encoding admits, and leaves what follows; it has as many parcels as FormLength says. Only an event of the
device has no encoding. -/
def Obligations.DecodeEncode : Prop :=
  ∀ (i : Instr), i.wellFormed = true →
    (∀ l rest, encode i = some l → decode (parcels l ++ rest) = .ok (i, rest) ∧ l ≠ [] ∧ l.length = formLength (l.headD 0)) ∧
    (encode i = none ↔ opcodeOf i = none)

/-- R439; the rest is the model's own (log 1, 3): a step from a state that meets the invariant leads to one that does. -/
def Obligations.StepKeepsInvariant : Prop :=
  ∀ (s t : State), Inv s → step s = .next t → Inv t

/-- R125, R346, R410, R420, R421, R435, R438, R440, R458: the state after package reset meets the invariant; the registers have
the values that the spec gives them; no block is resident, no launch held, no interrupt enabled, every supervisor halted. That
memory reads zero and the system cores wait for the boot ROM are the model's choices (log 1, 10, 12, 54). -/
def Obligations.ResetState : Prop :=
  let s := State.reset
  Inv s ∧
  (∀ c, (coreOf s c).sup.halted = true ∧ (coreOf s c).sup.intr = {} ∧ (coreOf s c).svtgt = 0 ∧ (coreOf s c).svevt = 0 ∧
    (∀ n, (coreOf s c).sup.s n = 0) ∧ (coreOf s c).quarantined = false ∧ ∀ sl, blockOf s c sl = none) ∧
  (∀ n, (sysOf s n).ctl.intr = {} ∧ (sysOf s n).ctl.asid = 0 ∧ (sysOf s n).dtsel = 0 ∧ (sysOf s n).svsel = 0 ∧ (sysOf s n).rplctl = 0 ∧
    (∀ k, (sysOf s n).ctl.s k = 0) ∧ (sysOf s n).ctl.halted = true) ∧
  s.iod.asidtb = 0 ∧ (∀ f, (funcOf s f).dten = false ∧ (funcOf s f).dtbase = 0 ∧ (funcOf s f).dtpfn = 0 ∧ (funcOf s f).dtcnt = 0 ∧
    (funcOf s f).head = 0 ∧ (funcOf s f).doorbell = 0 ∧ (funcOf s f).part = none) ∧
  (List.range 32).map (ewtOf s) = [10240, 5120, 128, 384, 1024, 13, 31, 102, 7680, 15360, 6144, 10240, 512, 512] ++ List.replicate 18 0 ∧
  (∀ p, partOf s p = none) ∧ (∀ n, launchOf s n = none) ∧ s.cycle = 0 ∧ (∀ i < 8, measOf s i = 0) ∧ ∀ a, byteAt s a = 0
end

