-- ==== Sys2Proof/Laws/State.lean ====
section
/-! SUPPORT. What each update of the state leaves alone: one lemma for each field and update, so that no later proof
unfolds a record update. -/

namespace Sys2Proof.Machine

variable (s : State)

/-! ### setCore -/
@[simp] theorem setCore_sys (c : Nat) (k : Core) : (setCore s c k).sys = s.sys := rfl
@[simp] theorem setCore_mem (c : Nat) (k : Core) : (setCore s c k).mem = s.mem := rfl
@[simp] theorem setCore_memPoison (c : Nat) (k : Core) : (setCore s c k).memPoison = s.memPoison := rfl
@[simp] theorem setCore_slices (c : Nat) (k : Core) : (setCore s c k).slices = s.slices := rfl
@[simp] theorem setCore_rdc (c : Nat) (k : Core) : (setCore s c k).rdc = s.rdc := rfl
@[simp] theorem setCore_dieTlb (c : Nat) (k : Core) : (setCore s c k).dieTlb = s.dieTlb := rfl
@[simp] theorem setCore_dieAsids (c : Nat) (k : Core) : (setCore s c k).dieAsids = s.dieAsids := rfl
@[simp] theorem setCore_walks (c : Nat) (k : Core) : (setCore s c k).walks = s.walks := rfl
@[simp] theorem setCore_pageReqs (c : Nat) (k : Core) : (setCore s c k).pageReqs = s.pageReqs := rfl
@[simp] theorem setCore_path (c : Nat) (k : Core) : (setCore s c k).path = s.path := rfl
@[simp] theorem setCore_pending (c : Nat) (k : Core) : (setCore s c k).pending = s.pending := rfl
@[simp] theorem setCore_outside (c : Nat) (k : Core) : (setCore s c k).outside = s.outside := rfl
@[simp] theorem setCore_fills (c : Nat) (k : Core) : (setCore s c k).fills = s.fills := rfl
@[simp] theorem setCore_objects (c : Nat) (k : Core) : (setCore s c k).objects = s.objects := rfl
@[simp] theorem setCore_launches (c : Nat) (k : Core) : (setCore s c k).launches = s.launches := rfl
@[simp] theorem setCore_iod (c : Nat) (k : Core) : (setCore s c k).iod = s.iod := rfl
@[simp] theorem setCore_cycle (c : Nat) (k : Core) : (setCore s c k).cycle = s.cycle := rfl
@[simp] theorem setCore_nextId (c : Nat) (k : Core) : (setCore s c k).nextId = s.nextId := rfl
@[simp] theorem setCore_moved (c : Nat) (k : Core) : (setCore s c k).moved = s.moved := rfl
@[simp] theorem setCore_shares (c : Nat) (k : Core) : (setCore s c k).shares = s.shares := rfl
@[simp] theorem setCore_freeCount (c : Nat) (k : Core) : (setCore s c k).freeCount = s.freeCount := rfl
@[simp] theorem setCore_agenda (c : Nat) (k : Core) : (setCore s c k).agenda = s.agenda := rfl
@[simp] theorem setCore_cur (c : Nat) (k : Core) : (setCore s c k).cur = s.cur := rfl
@[simp] theorem setCore_outbox (c : Nat) (k : Core) : (setCore s c k).outbox = s.outbox := rfl

/-! ### modCore -/
@[simp] theorem modCore_sys (c : Nat) (f : Core → Core) : (modCore s c f).sys = s.sys := rfl
@[simp] theorem modCore_mem (c : Nat) (f : Core → Core) : (modCore s c f).mem = s.mem := rfl
@[simp] theorem modCore_memPoison (c : Nat) (f : Core → Core) : (modCore s c f).memPoison = s.memPoison := rfl
@[simp] theorem modCore_slices (c : Nat) (f : Core → Core) : (modCore s c f).slices = s.slices := rfl
@[simp] theorem modCore_rdc (c : Nat) (f : Core → Core) : (modCore s c f).rdc = s.rdc := rfl
@[simp] theorem modCore_dieTlb (c : Nat) (f : Core → Core) : (modCore s c f).dieTlb = s.dieTlb := rfl
@[simp] theorem modCore_dieAsids (c : Nat) (f : Core → Core) : (modCore s c f).dieAsids = s.dieAsids := rfl
@[simp] theorem modCore_walks (c : Nat) (f : Core → Core) : (modCore s c f).walks = s.walks := rfl
@[simp] theorem modCore_pageReqs (c : Nat) (f : Core → Core) : (modCore s c f).pageReqs = s.pageReqs := rfl
@[simp] theorem modCore_path (c : Nat) (f : Core → Core) : (modCore s c f).path = s.path := rfl
@[simp] theorem modCore_pending (c : Nat) (f : Core → Core) : (modCore s c f).pending = s.pending := rfl
@[simp] theorem modCore_outside (c : Nat) (f : Core → Core) : (modCore s c f).outside = s.outside := rfl
@[simp] theorem modCore_fills (c : Nat) (f : Core → Core) : (modCore s c f).fills = s.fills := rfl
@[simp] theorem modCore_objects (c : Nat) (f : Core → Core) : (modCore s c f).objects = s.objects := rfl
@[simp] theorem modCore_launches (c : Nat) (f : Core → Core) : (modCore s c f).launches = s.launches := rfl
@[simp] theorem modCore_iod (c : Nat) (f : Core → Core) : (modCore s c f).iod = s.iod := rfl
@[simp] theorem modCore_cycle (c : Nat) (f : Core → Core) : (modCore s c f).cycle = s.cycle := rfl
@[simp] theorem modCore_nextId (c : Nat) (f : Core → Core) : (modCore s c f).nextId = s.nextId := rfl
@[simp] theorem modCore_moved (c : Nat) (f : Core → Core) : (modCore s c f).moved = s.moved := rfl
@[simp] theorem modCore_shares (c : Nat) (f : Core → Core) : (modCore s c f).shares = s.shares := rfl
@[simp] theorem modCore_freeCount (c : Nat) (f : Core → Core) : (modCore s c f).freeCount = s.freeCount := rfl
@[simp] theorem modCore_agenda (c : Nat) (f : Core → Core) : (modCore s c f).agenda = s.agenda := rfl
@[simp] theorem modCore_cur (c : Nat) (f : Core → Core) : (modCore s c f).cur = s.cur := rfl
@[simp] theorem modCore_outbox (c : Nat) (f : Core → Core) : (modCore s c f).outbox = s.outbox := rfl

/-! ### modBlock -/
@[simp] theorem modBlock_sys (c sl : Nat) (f : Block → Block) : (modBlock s c sl f).sys = s.sys := rfl
@[simp] theorem modBlock_mem (c sl : Nat) (f : Block → Block) : (modBlock s c sl f).mem = s.mem := rfl
@[simp] theorem modBlock_memPoison (c sl : Nat) (f : Block → Block) : (modBlock s c sl f).memPoison = s.memPoison := rfl
@[simp] theorem modBlock_slices (c sl : Nat) (f : Block → Block) : (modBlock s c sl f).slices = s.slices := rfl
@[simp] theorem modBlock_rdc (c sl : Nat) (f : Block → Block) : (modBlock s c sl f).rdc = s.rdc := rfl
@[simp] theorem modBlock_dieTlb (c sl : Nat) (f : Block → Block) : (modBlock s c sl f).dieTlb = s.dieTlb := rfl
@[simp] theorem modBlock_dieAsids (c sl : Nat) (f : Block → Block) : (modBlock s c sl f).dieAsids = s.dieAsids := rfl
@[simp] theorem modBlock_walks (c sl : Nat) (f : Block → Block) : (modBlock s c sl f).walks = s.walks := rfl
@[simp] theorem modBlock_pageReqs (c sl : Nat) (f : Block → Block) : (modBlock s c sl f).pageReqs = s.pageReqs := rfl
@[simp] theorem modBlock_path (c sl : Nat) (f : Block → Block) : (modBlock s c sl f).path = s.path := rfl
@[simp] theorem modBlock_pending (c sl : Nat) (f : Block → Block) : (modBlock s c sl f).pending = s.pending := rfl
@[simp] theorem modBlock_outside (c sl : Nat) (f : Block → Block) : (modBlock s c sl f).outside = s.outside := rfl
@[simp] theorem modBlock_fills (c sl : Nat) (f : Block → Block) : (modBlock s c sl f).fills = s.fills := rfl
@[simp] theorem modBlock_objects (c sl : Nat) (f : Block → Block) : (modBlock s c sl f).objects = s.objects := rfl
@[simp] theorem modBlock_launches (c sl : Nat) (f : Block → Block) : (modBlock s c sl f).launches = s.launches := rfl
@[simp] theorem modBlock_iod (c sl : Nat) (f : Block → Block) : (modBlock s c sl f).iod = s.iod := rfl
@[simp] theorem modBlock_cycle (c sl : Nat) (f : Block → Block) : (modBlock s c sl f).cycle = s.cycle := rfl
@[simp] theorem modBlock_nextId (c sl : Nat) (f : Block → Block) : (modBlock s c sl f).nextId = s.nextId := rfl
@[simp] theorem modBlock_moved (c sl : Nat) (f : Block → Block) : (modBlock s c sl f).moved = s.moved := rfl
@[simp] theorem modBlock_shares (c sl : Nat) (f : Block → Block) : (modBlock s c sl f).shares = s.shares := rfl
@[simp] theorem modBlock_freeCount (c sl : Nat) (f : Block → Block) : (modBlock s c sl f).freeCount = s.freeCount := rfl
@[simp] theorem modBlock_agenda (c sl : Nat) (f : Block → Block) : (modBlock s c sl f).agenda = s.agenda := rfl
@[simp] theorem modBlock_cur (c sl : Nat) (f : Block → Block) : (modBlock s c sl f).cur = s.cur := rfl
@[simp] theorem modBlock_outbox (c sl : Nat) (f : Block → Block) : (modBlock s c sl f).outbox = s.outbox := rfl

/-! ### dropBlock -/
@[simp] theorem dropBlock_sys (c sl : Nat) : (dropBlock s c sl).sys = s.sys := rfl
@[simp] theorem dropBlock_mem (c sl : Nat) : (dropBlock s c sl).mem = s.mem := rfl
@[simp] theorem dropBlock_memPoison (c sl : Nat) : (dropBlock s c sl).memPoison = s.memPoison := rfl
@[simp] theorem dropBlock_slices (c sl : Nat) : (dropBlock s c sl).slices = s.slices := rfl
@[simp] theorem dropBlock_rdc (c sl : Nat) : (dropBlock s c sl).rdc = s.rdc := rfl
@[simp] theorem dropBlock_dieTlb (c sl : Nat) : (dropBlock s c sl).dieTlb = s.dieTlb := rfl
@[simp] theorem dropBlock_dieAsids (c sl : Nat) : (dropBlock s c sl).dieAsids = s.dieAsids := rfl
@[simp] theorem dropBlock_walks (c sl : Nat) : (dropBlock s c sl).walks = s.walks := rfl
@[simp] theorem dropBlock_pageReqs (c sl : Nat) : (dropBlock s c sl).pageReqs = s.pageReqs := rfl
@[simp] theorem dropBlock_path (c sl : Nat) : (dropBlock s c sl).path = s.path := rfl
@[simp] theorem dropBlock_pending (c sl : Nat) : (dropBlock s c sl).pending = s.pending := rfl
@[simp] theorem dropBlock_outside (c sl : Nat) : (dropBlock s c sl).outside = s.outside := rfl
@[simp] theorem dropBlock_fills (c sl : Nat) : (dropBlock s c sl).fills = s.fills := rfl
@[simp] theorem dropBlock_objects (c sl : Nat) : (dropBlock s c sl).objects = s.objects := rfl
@[simp] theorem dropBlock_launches (c sl : Nat) : (dropBlock s c sl).launches = s.launches := rfl
@[simp] theorem dropBlock_iod (c sl : Nat) : (dropBlock s c sl).iod = s.iod := rfl
@[simp] theorem dropBlock_cycle (c sl : Nat) : (dropBlock s c sl).cycle = s.cycle := rfl
@[simp] theorem dropBlock_nextId (c sl : Nat) : (dropBlock s c sl).nextId = s.nextId := rfl
@[simp] theorem dropBlock_moved (c sl : Nat) : (dropBlock s c sl).moved = s.moved := rfl
@[simp] theorem dropBlock_shares (c sl : Nat) : (dropBlock s c sl).shares = s.shares := rfl
@[simp] theorem dropBlock_freeCount (c sl : Nat) : (dropBlock s c sl).freeCount = s.freeCount := rfl
@[simp] theorem dropBlock_agenda (c sl : Nat) : (dropBlock s c sl).agenda = s.agenda := rfl
@[simp] theorem dropBlock_cur (c sl : Nat) : (dropBlock s c sl).cur = s.cur := rfl
@[simp] theorem dropBlock_outbox (c sl : Nat) : (dropBlock s c sl).outbox = s.outbox := rfl

/-! ### modSys -/
@[simp] theorem modSys_cores (n : Nat) (f : SysCore → SysCore) : (modSys s n f).cores = s.cores := rfl
@[simp] theorem modSys_mem (n : Nat) (f : SysCore → SysCore) : (modSys s n f).mem = s.mem := rfl
@[simp] theorem modSys_memPoison (n : Nat) (f : SysCore → SysCore) : (modSys s n f).memPoison = s.memPoison := rfl
@[simp] theorem modSys_slices (n : Nat) (f : SysCore → SysCore) : (modSys s n f).slices = s.slices := rfl
@[simp] theorem modSys_rdc (n : Nat) (f : SysCore → SysCore) : (modSys s n f).rdc = s.rdc := rfl
@[simp] theorem modSys_dieTlb (n : Nat) (f : SysCore → SysCore) : (modSys s n f).dieTlb = s.dieTlb := rfl
@[simp] theorem modSys_dieAsids (n : Nat) (f : SysCore → SysCore) : (modSys s n f).dieAsids = s.dieAsids := rfl
@[simp] theorem modSys_walks (n : Nat) (f : SysCore → SysCore) : (modSys s n f).walks = s.walks := rfl
@[simp] theorem modSys_pageReqs (n : Nat) (f : SysCore → SysCore) : (modSys s n f).pageReqs = s.pageReqs := rfl
@[simp] theorem modSys_path (n : Nat) (f : SysCore → SysCore) : (modSys s n f).path = s.path := rfl
@[simp] theorem modSys_pending (n : Nat) (f : SysCore → SysCore) : (modSys s n f).pending = s.pending := rfl
@[simp] theorem modSys_outside (n : Nat) (f : SysCore → SysCore) : (modSys s n f).outside = s.outside := rfl
@[simp] theorem modSys_fills (n : Nat) (f : SysCore → SysCore) : (modSys s n f).fills = s.fills := rfl
@[simp] theorem modSys_objects (n : Nat) (f : SysCore → SysCore) : (modSys s n f).objects = s.objects := rfl
@[simp] theorem modSys_launches (n : Nat) (f : SysCore → SysCore) : (modSys s n f).launches = s.launches := rfl
@[simp] theorem modSys_iod (n : Nat) (f : SysCore → SysCore) : (modSys s n f).iod = s.iod := rfl
@[simp] theorem modSys_cycle (n : Nat) (f : SysCore → SysCore) : (modSys s n f).cycle = s.cycle := rfl
@[simp] theorem modSys_nextId (n : Nat) (f : SysCore → SysCore) : (modSys s n f).nextId = s.nextId := rfl
@[simp] theorem modSys_moved (n : Nat) (f : SysCore → SysCore) : (modSys s n f).moved = s.moved := rfl
@[simp] theorem modSys_shares (n : Nat) (f : SysCore → SysCore) : (modSys s n f).shares = s.shares := rfl
@[simp] theorem modSys_freeCount (n : Nat) (f : SysCore → SysCore) : (modSys s n f).freeCount = s.freeCount := rfl
@[simp] theorem modSys_agenda (n : Nat) (f : SysCore → SysCore) : (modSys s n f).agenda = s.agenda := rfl
@[simp] theorem modSys_cur (n : Nat) (f : SysCore → SysCore) : (modSys s n f).cur = s.cur := rfl
@[simp] theorem modSys_outbox (n : Nat) (f : SysCore → SysCore) : (modSys s n f).outbox = s.outbox := rfl

/-! ### modIod -/
@[simp] theorem modIod_cores (f : Iod → Iod) : (modIod s f).cores = s.cores := rfl
@[simp] theorem modIod_sys (f : Iod → Iod) : (modIod s f).sys = s.sys := rfl
@[simp] theorem modIod_mem (f : Iod → Iod) : (modIod s f).mem = s.mem := rfl
@[simp] theorem modIod_memPoison (f : Iod → Iod) : (modIod s f).memPoison = s.memPoison := rfl
@[simp] theorem modIod_slices (f : Iod → Iod) : (modIod s f).slices = s.slices := rfl
@[simp] theorem modIod_rdc (f : Iod → Iod) : (modIod s f).rdc = s.rdc := rfl
@[simp] theorem modIod_dieTlb (f : Iod → Iod) : (modIod s f).dieTlb = s.dieTlb := rfl
@[simp] theorem modIod_dieAsids (f : Iod → Iod) : (modIod s f).dieAsids = s.dieAsids := rfl
@[simp] theorem modIod_walks (f : Iod → Iod) : (modIod s f).walks = s.walks := rfl
@[simp] theorem modIod_pageReqs (f : Iod → Iod) : (modIod s f).pageReqs = s.pageReqs := rfl
@[simp] theorem modIod_path (f : Iod → Iod) : (modIod s f).path = s.path := rfl
@[simp] theorem modIod_pending (f : Iod → Iod) : (modIod s f).pending = s.pending := rfl
@[simp] theorem modIod_outside (f : Iod → Iod) : (modIod s f).outside = s.outside := rfl
@[simp] theorem modIod_fills (f : Iod → Iod) : (modIod s f).fills = s.fills := rfl
@[simp] theorem modIod_objects (f : Iod → Iod) : (modIod s f).objects = s.objects := rfl
@[simp] theorem modIod_launches (f : Iod → Iod) : (modIod s f).launches = s.launches := rfl
@[simp] theorem modIod_cycle (f : Iod → Iod) : (modIod s f).cycle = s.cycle := rfl
@[simp] theorem modIod_nextId (f : Iod → Iod) : (modIod s f).nextId = s.nextId := rfl
@[simp] theorem modIod_moved (f : Iod → Iod) : (modIod s f).moved = s.moved := rfl
@[simp] theorem modIod_shares (f : Iod → Iod) : (modIod s f).shares = s.shares := rfl
@[simp] theorem modIod_freeCount (f : Iod → Iod) : (modIod s f).freeCount = s.freeCount := rfl
@[simp] theorem modIod_agenda (f : Iod → Iod) : (modIod s f).agenda = s.agenda := rfl
@[simp] theorem modIod_cur (f : Iod → Iod) : (modIod s f).cur = s.cur := rfl
@[simp] theorem modIod_outbox (f : Iod → Iod) : (modIod s f).outbox = s.outbox := rfl

/-! ### modPart -/
@[simp] theorem modPart_cores (p : Nat) (f : Partition → Partition) : (modPart s p f).cores = s.cores := rfl
@[simp] theorem modPart_sys (p : Nat) (f : Partition → Partition) : (modPart s p f).sys = s.sys := rfl
@[simp] theorem modPart_mem (p : Nat) (f : Partition → Partition) : (modPart s p f).mem = s.mem := rfl
@[simp] theorem modPart_memPoison (p : Nat) (f : Partition → Partition) : (modPart s p f).memPoison = s.memPoison := rfl
@[simp] theorem modPart_slices (p : Nat) (f : Partition → Partition) : (modPart s p f).slices = s.slices := rfl
@[simp] theorem modPart_rdc (p : Nat) (f : Partition → Partition) : (modPart s p f).rdc = s.rdc := rfl
@[simp] theorem modPart_dieTlb (p : Nat) (f : Partition → Partition) : (modPart s p f).dieTlb = s.dieTlb := rfl
@[simp] theorem modPart_dieAsids (p : Nat) (f : Partition → Partition) : (modPart s p f).dieAsids = s.dieAsids := rfl
@[simp] theorem modPart_walks (p : Nat) (f : Partition → Partition) : (modPart s p f).walks = s.walks := rfl
@[simp] theorem modPart_pageReqs (p : Nat) (f : Partition → Partition) : (modPart s p f).pageReqs = s.pageReqs := rfl
@[simp] theorem modPart_path (p : Nat) (f : Partition → Partition) : (modPart s p f).path = s.path := rfl
@[simp] theorem modPart_pending (p : Nat) (f : Partition → Partition) : (modPart s p f).pending = s.pending := rfl
@[simp] theorem modPart_outside (p : Nat) (f : Partition → Partition) : (modPart s p f).outside = s.outside := rfl
@[simp] theorem modPart_fills (p : Nat) (f : Partition → Partition) : (modPart s p f).fills = s.fills := rfl
@[simp] theorem modPart_objects (p : Nat) (f : Partition → Partition) : (modPart s p f).objects = s.objects := rfl
@[simp] theorem modPart_launches (p : Nat) (f : Partition → Partition) : (modPart s p f).launches = s.launches := rfl
@[simp] theorem modPart_cycle (p : Nat) (f : Partition → Partition) : (modPart s p f).cycle = s.cycle := rfl
@[simp] theorem modPart_nextId (p : Nat) (f : Partition → Partition) : (modPart s p f).nextId = s.nextId := rfl
@[simp] theorem modPart_moved (p : Nat) (f : Partition → Partition) : (modPart s p f).moved = s.moved := rfl
@[simp] theorem modPart_shares (p : Nat) (f : Partition → Partition) : (modPart s p f).shares = s.shares := rfl
@[simp] theorem modPart_freeCount (p : Nat) (f : Partition → Partition) : (modPart s p f).freeCount = s.freeCount := rfl
@[simp] theorem modPart_agenda (p : Nat) (f : Partition → Partition) : (modPart s p f).agenda = s.agenda := rfl
@[simp] theorem modPart_cur (p : Nat) (f : Partition → Partition) : (modPart s p f).cur = s.cur := rfl
@[simp] theorem modPart_outbox (p : Nat) (f : Partition → Partition) : (modPart s p f).outbox = s.outbox := rfl

/-! ### modPartx -/
@[simp] theorem modPartx_cores (p : Nat) (f : PartX → PartX) : (modPartx s p f).cores = s.cores := rfl
@[simp] theorem modPartx_sys (p : Nat) (f : PartX → PartX) : (modPartx s p f).sys = s.sys := rfl
@[simp] theorem modPartx_mem (p : Nat) (f : PartX → PartX) : (modPartx s p f).mem = s.mem := rfl
@[simp] theorem modPartx_memPoison (p : Nat) (f : PartX → PartX) : (modPartx s p f).memPoison = s.memPoison := rfl
@[simp] theorem modPartx_slices (p : Nat) (f : PartX → PartX) : (modPartx s p f).slices = s.slices := rfl
@[simp] theorem modPartx_rdc (p : Nat) (f : PartX → PartX) : (modPartx s p f).rdc = s.rdc := rfl
@[simp] theorem modPartx_dieTlb (p : Nat) (f : PartX → PartX) : (modPartx s p f).dieTlb = s.dieTlb := rfl
@[simp] theorem modPartx_dieAsids (p : Nat) (f : PartX → PartX) : (modPartx s p f).dieAsids = s.dieAsids := rfl
@[simp] theorem modPartx_walks (p : Nat) (f : PartX → PartX) : (modPartx s p f).walks = s.walks := rfl
@[simp] theorem modPartx_pageReqs (p : Nat) (f : PartX → PartX) : (modPartx s p f).pageReqs = s.pageReqs := rfl
@[simp] theorem modPartx_path (p : Nat) (f : PartX → PartX) : (modPartx s p f).path = s.path := rfl
@[simp] theorem modPartx_pending (p : Nat) (f : PartX → PartX) : (modPartx s p f).pending = s.pending := rfl
@[simp] theorem modPartx_outside (p : Nat) (f : PartX → PartX) : (modPartx s p f).outside = s.outside := rfl
@[simp] theorem modPartx_fills (p : Nat) (f : PartX → PartX) : (modPartx s p f).fills = s.fills := rfl
@[simp] theorem modPartx_objects (p : Nat) (f : PartX → PartX) : (modPartx s p f).objects = s.objects := rfl
@[simp] theorem modPartx_launches (p : Nat) (f : PartX → PartX) : (modPartx s p f).launches = s.launches := rfl
@[simp] theorem modPartx_cycle (p : Nat) (f : PartX → PartX) : (modPartx s p f).cycle = s.cycle := rfl
@[simp] theorem modPartx_nextId (p : Nat) (f : PartX → PartX) : (modPartx s p f).nextId = s.nextId := rfl
@[simp] theorem modPartx_moved (p : Nat) (f : PartX → PartX) : (modPartx s p f).moved = s.moved := rfl
@[simp] theorem modPartx_shares (p : Nat) (f : PartX → PartX) : (modPartx s p f).shares = s.shares := rfl
@[simp] theorem modPartx_freeCount (p : Nat) (f : PartX → PartX) : (modPartx s p f).freeCount = s.freeCount := rfl
@[simp] theorem modPartx_agenda (p : Nat) (f : PartX → PartX) : (modPartx s p f).agenda = s.agenda := rfl
@[simp] theorem modPartx_cur (p : Nat) (f : PartX → PartX) : (modPartx s p f).cur = s.cur := rfl
@[simp] theorem modPartx_outbox (p : Nat) (f : PartX → PartX) : (modPartx s p f).outbox = s.outbox := rfl

/-! ### modFunc -/
@[simp] theorem modFunc_cores (n : Nat) (f : Func → Func) : (modFunc s n f).cores = s.cores := rfl
@[simp] theorem modFunc_sys (n : Nat) (f : Func → Func) : (modFunc s n f).sys = s.sys := rfl
@[simp] theorem modFunc_mem (n : Nat) (f : Func → Func) : (modFunc s n f).mem = s.mem := rfl
@[simp] theorem modFunc_memPoison (n : Nat) (f : Func → Func) : (modFunc s n f).memPoison = s.memPoison := rfl
@[simp] theorem modFunc_slices (n : Nat) (f : Func → Func) : (modFunc s n f).slices = s.slices := rfl
@[simp] theorem modFunc_rdc (n : Nat) (f : Func → Func) : (modFunc s n f).rdc = s.rdc := rfl
@[simp] theorem modFunc_dieTlb (n : Nat) (f : Func → Func) : (modFunc s n f).dieTlb = s.dieTlb := rfl
@[simp] theorem modFunc_dieAsids (n : Nat) (f : Func → Func) : (modFunc s n f).dieAsids = s.dieAsids := rfl
@[simp] theorem modFunc_walks (n : Nat) (f : Func → Func) : (modFunc s n f).walks = s.walks := rfl
@[simp] theorem modFunc_pageReqs (n : Nat) (f : Func → Func) : (modFunc s n f).pageReqs = s.pageReqs := rfl
@[simp] theorem modFunc_path (n : Nat) (f : Func → Func) : (modFunc s n f).path = s.path := rfl
@[simp] theorem modFunc_pending (n : Nat) (f : Func → Func) : (modFunc s n f).pending = s.pending := rfl
@[simp] theorem modFunc_outside (n : Nat) (f : Func → Func) : (modFunc s n f).outside = s.outside := rfl
@[simp] theorem modFunc_fills (n : Nat) (f : Func → Func) : (modFunc s n f).fills = s.fills := rfl
@[simp] theorem modFunc_objects (n : Nat) (f : Func → Func) : (modFunc s n f).objects = s.objects := rfl
@[simp] theorem modFunc_launches (n : Nat) (f : Func → Func) : (modFunc s n f).launches = s.launches := rfl
@[simp] theorem modFunc_cycle (n : Nat) (f : Func → Func) : (modFunc s n f).cycle = s.cycle := rfl
@[simp] theorem modFunc_nextId (n : Nat) (f : Func → Func) : (modFunc s n f).nextId = s.nextId := rfl
@[simp] theorem modFunc_moved (n : Nat) (f : Func → Func) : (modFunc s n f).moved = s.moved := rfl
@[simp] theorem modFunc_shares (n : Nat) (f : Func → Func) : (modFunc s n f).shares = s.shares := rfl
@[simp] theorem modFunc_freeCount (n : Nat) (f : Func → Func) : (modFunc s n f).freeCount = s.freeCount := rfl
@[simp] theorem modFunc_agenda (n : Nat) (f : Func → Func) : (modFunc s n f).agenda = s.agenda := rfl
@[simp] theorem modFunc_cur (n : Nat) (f : Func → Func) : (modFunc s n f).cur = s.cur := rfl
@[simp] theorem modFunc_outbox (n : Nat) (f : Func → Func) : (modFunc s n f).outbox = s.outbox := rfl

/-! ### modColumn -/
@[simp] theorem modColumn_cores (n : Nat) (f : Column → Column) : (modColumn s n f).cores = s.cores := rfl
@[simp] theorem modColumn_sys (n : Nat) (f : Column → Column) : (modColumn s n f).sys = s.sys := rfl
@[simp] theorem modColumn_mem (n : Nat) (f : Column → Column) : (modColumn s n f).mem = s.mem := rfl
@[simp] theorem modColumn_memPoison (n : Nat) (f : Column → Column) : (modColumn s n f).memPoison = s.memPoison := rfl
@[simp] theorem modColumn_slices (n : Nat) (f : Column → Column) : (modColumn s n f).slices = s.slices := rfl
@[simp] theorem modColumn_rdc (n : Nat) (f : Column → Column) : (modColumn s n f).rdc = s.rdc := rfl
@[simp] theorem modColumn_dieTlb (n : Nat) (f : Column → Column) : (modColumn s n f).dieTlb = s.dieTlb := rfl
@[simp] theorem modColumn_dieAsids (n : Nat) (f : Column → Column) : (modColumn s n f).dieAsids = s.dieAsids := rfl
@[simp] theorem modColumn_walks (n : Nat) (f : Column → Column) : (modColumn s n f).walks = s.walks := rfl
@[simp] theorem modColumn_pageReqs (n : Nat) (f : Column → Column) : (modColumn s n f).pageReqs = s.pageReqs := rfl
@[simp] theorem modColumn_path (n : Nat) (f : Column → Column) : (modColumn s n f).path = s.path := rfl
@[simp] theorem modColumn_pending (n : Nat) (f : Column → Column) : (modColumn s n f).pending = s.pending := rfl
@[simp] theorem modColumn_outside (n : Nat) (f : Column → Column) : (modColumn s n f).outside = s.outside := rfl
@[simp] theorem modColumn_fills (n : Nat) (f : Column → Column) : (modColumn s n f).fills = s.fills := rfl
@[simp] theorem modColumn_objects (n : Nat) (f : Column → Column) : (modColumn s n f).objects = s.objects := rfl
@[simp] theorem modColumn_launches (n : Nat) (f : Column → Column) : (modColumn s n f).launches = s.launches := rfl
@[simp] theorem modColumn_cycle (n : Nat) (f : Column → Column) : (modColumn s n f).cycle = s.cycle := rfl
@[simp] theorem modColumn_nextId (n : Nat) (f : Column → Column) : (modColumn s n f).nextId = s.nextId := rfl
@[simp] theorem modColumn_moved (n : Nat) (f : Column → Column) : (modColumn s n f).moved = s.moved := rfl
@[simp] theorem modColumn_shares (n : Nat) (f : Column → Column) : (modColumn s n f).shares = s.shares := rfl
@[simp] theorem modColumn_freeCount (n : Nat) (f : Column → Column) : (modColumn s n f).freeCount = s.freeCount := rfl
@[simp] theorem modColumn_agenda (n : Nat) (f : Column → Column) : (modColumn s n f).agenda = s.agenda := rfl
@[simp] theorem modColumn_cur (n : Nat) (f : Column → Column) : (modColumn s n f).cur = s.cur := rfl
@[simp] theorem modColumn_outbox (n : Nat) (f : Column → Column) : (modColumn s n f).outbox = s.outbox := rfl

/-! ### modLaunch -/
@[simp] theorem modLaunch_cores (l : Nat) (f : Launch → Launch) : (modLaunch s l f).cores = s.cores := rfl
@[simp] theorem modLaunch_sys (l : Nat) (f : Launch → Launch) : (modLaunch s l f).sys = s.sys := rfl
@[simp] theorem modLaunch_mem (l : Nat) (f : Launch → Launch) : (modLaunch s l f).mem = s.mem := rfl
@[simp] theorem modLaunch_memPoison (l : Nat) (f : Launch → Launch) : (modLaunch s l f).memPoison = s.memPoison := rfl
@[simp] theorem modLaunch_slices (l : Nat) (f : Launch → Launch) : (modLaunch s l f).slices = s.slices := rfl
@[simp] theorem modLaunch_rdc (l : Nat) (f : Launch → Launch) : (modLaunch s l f).rdc = s.rdc := rfl
@[simp] theorem modLaunch_dieTlb (l : Nat) (f : Launch → Launch) : (modLaunch s l f).dieTlb = s.dieTlb := rfl
@[simp] theorem modLaunch_dieAsids (l : Nat) (f : Launch → Launch) : (modLaunch s l f).dieAsids = s.dieAsids := rfl
@[simp] theorem modLaunch_walks (l : Nat) (f : Launch → Launch) : (modLaunch s l f).walks = s.walks := rfl
@[simp] theorem modLaunch_pageReqs (l : Nat) (f : Launch → Launch) : (modLaunch s l f).pageReqs = s.pageReqs := rfl
@[simp] theorem modLaunch_path (l : Nat) (f : Launch → Launch) : (modLaunch s l f).path = s.path := rfl
@[simp] theorem modLaunch_pending (l : Nat) (f : Launch → Launch) : (modLaunch s l f).pending = s.pending := rfl
@[simp] theorem modLaunch_outside (l : Nat) (f : Launch → Launch) : (modLaunch s l f).outside = s.outside := rfl
@[simp] theorem modLaunch_fills (l : Nat) (f : Launch → Launch) : (modLaunch s l f).fills = s.fills := rfl
@[simp] theorem modLaunch_objects (l : Nat) (f : Launch → Launch) : (modLaunch s l f).objects = s.objects := rfl
@[simp] theorem modLaunch_iod (l : Nat) (f : Launch → Launch) : (modLaunch s l f).iod = s.iod := rfl
@[simp] theorem modLaunch_cycle (l : Nat) (f : Launch → Launch) : (modLaunch s l f).cycle = s.cycle := rfl
@[simp] theorem modLaunch_nextId (l : Nat) (f : Launch → Launch) : (modLaunch s l f).nextId = s.nextId := rfl
@[simp] theorem modLaunch_moved (l : Nat) (f : Launch → Launch) : (modLaunch s l f).moved = s.moved := rfl
@[simp] theorem modLaunch_shares (l : Nat) (f : Launch → Launch) : (modLaunch s l f).shares = s.shares := rfl
@[simp] theorem modLaunch_freeCount (l : Nat) (f : Launch → Launch) : (modLaunch s l f).freeCount = s.freeCount := rfl
@[simp] theorem modLaunch_agenda (l : Nat) (f : Launch → Launch) : (modLaunch s l f).agenda = s.agenda := rfl
@[simp] theorem modLaunch_cur (l : Nat) (f : Launch → Launch) : (modLaunch s l f).cur = s.cur := rfl
@[simp] theorem modLaunch_outbox (l : Nat) (f : Launch → Launch) : (modLaunch s l f).outbox = s.outbox := rfl

/-! ### emit -/
@[simp] theorem emit_cores (o : Out) : (emit s o).cores = s.cores := rfl
@[simp] theorem emit_sys (o : Out) : (emit s o).sys = s.sys := rfl
@[simp] theorem emit_mem (o : Out) : (emit s o).mem = s.mem := rfl
@[simp] theorem emit_memPoison (o : Out) : (emit s o).memPoison = s.memPoison := rfl
@[simp] theorem emit_slices (o : Out) : (emit s o).slices = s.slices := rfl
@[simp] theorem emit_rdc (o : Out) : (emit s o).rdc = s.rdc := rfl
@[simp] theorem emit_dieTlb (o : Out) : (emit s o).dieTlb = s.dieTlb := rfl
@[simp] theorem emit_dieAsids (o : Out) : (emit s o).dieAsids = s.dieAsids := rfl
@[simp] theorem emit_walks (o : Out) : (emit s o).walks = s.walks := rfl
@[simp] theorem emit_pageReqs (o : Out) : (emit s o).pageReqs = s.pageReqs := rfl
@[simp] theorem emit_path (o : Out) : (emit s o).path = s.path := rfl
@[simp] theorem emit_pending (o : Out) : (emit s o).pending = s.pending := rfl
@[simp] theorem emit_outside (o : Out) : (emit s o).outside = s.outside := rfl
@[simp] theorem emit_fills (o : Out) : (emit s o).fills = s.fills := rfl
@[simp] theorem emit_objects (o : Out) : (emit s o).objects = s.objects := rfl
@[simp] theorem emit_launches (o : Out) : (emit s o).launches = s.launches := rfl
@[simp] theorem emit_iod (o : Out) : (emit s o).iod = s.iod := rfl
@[simp] theorem emit_cycle (o : Out) : (emit s o).cycle = s.cycle := rfl
@[simp] theorem emit_nextId (o : Out) : (emit s o).nextId = s.nextId := rfl
@[simp] theorem emit_moved (o : Out) : (emit s o).moved = s.moved := rfl
@[simp] theorem emit_shares (o : Out) : (emit s o).shares = s.shares := rfl
@[simp] theorem emit_freeCount (o : Out) : (emit s o).freeCount = s.freeCount := rfl
@[simp] theorem emit_agenda (o : Out) : (emit s o).agenda = s.agenda := rfl
@[simp] theorem emit_cur (o : Out) : (emit s o).cur = s.cur := rfl

/-! ### chargeBlock -/
@[simp] theorem chargeBlock_sys (c sl ctr n u : Nat) : (chargeBlock s c sl ctr n u).sys = s.sys := rfl
@[simp] theorem chargeBlock_mem (c sl ctr n u : Nat) : (chargeBlock s c sl ctr n u).mem = s.mem := rfl
@[simp] theorem chargeBlock_memPoison (c sl ctr n u : Nat) : (chargeBlock s c sl ctr n u).memPoison = s.memPoison := rfl
@[simp] theorem chargeBlock_slices (c sl ctr n u : Nat) : (chargeBlock s c sl ctr n u).slices = s.slices := rfl
@[simp] theorem chargeBlock_rdc (c sl ctr n u : Nat) : (chargeBlock s c sl ctr n u).rdc = s.rdc := rfl
@[simp] theorem chargeBlock_dieTlb (c sl ctr n u : Nat) : (chargeBlock s c sl ctr n u).dieTlb = s.dieTlb := rfl
@[simp] theorem chargeBlock_dieAsids (c sl ctr n u : Nat) : (chargeBlock s c sl ctr n u).dieAsids = s.dieAsids := rfl
@[simp] theorem chargeBlock_walks (c sl ctr n u : Nat) : (chargeBlock s c sl ctr n u).walks = s.walks := rfl
@[simp] theorem chargeBlock_pageReqs (c sl ctr n u : Nat) : (chargeBlock s c sl ctr n u).pageReqs = s.pageReqs := rfl
@[simp] theorem chargeBlock_path (c sl ctr n u : Nat) : (chargeBlock s c sl ctr n u).path = s.path := rfl
@[simp] theorem chargeBlock_pending (c sl ctr n u : Nat) : (chargeBlock s c sl ctr n u).pending = s.pending := rfl
@[simp] theorem chargeBlock_outside (c sl ctr n u : Nat) : (chargeBlock s c sl ctr n u).outside = s.outside := rfl
@[simp] theorem chargeBlock_fills (c sl ctr n u : Nat) : (chargeBlock s c sl ctr n u).fills = s.fills := rfl
@[simp] theorem chargeBlock_objects (c sl ctr n u : Nat) : (chargeBlock s c sl ctr n u).objects = s.objects := rfl
@[simp] theorem chargeBlock_launches (c sl ctr n u : Nat) : (chargeBlock s c sl ctr n u).launches = s.launches := rfl
@[simp] theorem chargeBlock_iod (c sl ctr n u : Nat) : (chargeBlock s c sl ctr n u).iod = s.iod := rfl
@[simp] theorem chargeBlock_cycle (c sl ctr n u : Nat) : (chargeBlock s c sl ctr n u).cycle = s.cycle := rfl
@[simp] theorem chargeBlock_nextId (c sl ctr n u : Nat) : (chargeBlock s c sl ctr n u).nextId = s.nextId := rfl
@[simp] theorem chargeBlock_moved (c sl ctr n u : Nat) : (chargeBlock s c sl ctr n u).moved = s.moved := rfl
@[simp] theorem chargeBlock_shares (c sl ctr n u : Nat) : (chargeBlock s c sl ctr n u).shares = s.shares := rfl
@[simp] theorem chargeBlock_freeCount (c sl ctr n u : Nat) : (chargeBlock s c sl ctr n u).freeCount = s.freeCount := rfl
@[simp] theorem chargeBlock_agenda (c sl ctr n u : Nat) : (chargeBlock s c sl ctr n u).agenda = s.agenda := rfl
@[simp] theorem chargeBlock_cur (c sl ctr n u : Nat) : (chargeBlock s c sl ctr n u).cur = s.cur := rfl
@[simp] theorem chargeBlock_outbox (c sl ctr n u : Nat) : (chargeBlock s c sl ctr n u).outbox = s.outbox := rfl

/-! ### energyBlock -/
@[simp] theorem energyBlock_sys (c sl e n : Nat) : (energyBlock s c sl e n).sys = s.sys := rfl
@[simp] theorem energyBlock_mem (c sl e n : Nat) : (energyBlock s c sl e n).mem = s.mem := rfl
@[simp] theorem energyBlock_memPoison (c sl e n : Nat) : (energyBlock s c sl e n).memPoison = s.memPoison := rfl
@[simp] theorem energyBlock_slices (c sl e n : Nat) : (energyBlock s c sl e n).slices = s.slices := rfl
@[simp] theorem energyBlock_rdc (c sl e n : Nat) : (energyBlock s c sl e n).rdc = s.rdc := rfl
@[simp] theorem energyBlock_dieTlb (c sl e n : Nat) : (energyBlock s c sl e n).dieTlb = s.dieTlb := rfl
@[simp] theorem energyBlock_dieAsids (c sl e n : Nat) : (energyBlock s c sl e n).dieAsids = s.dieAsids := rfl
@[simp] theorem energyBlock_walks (c sl e n : Nat) : (energyBlock s c sl e n).walks = s.walks := rfl
@[simp] theorem energyBlock_pageReqs (c sl e n : Nat) : (energyBlock s c sl e n).pageReqs = s.pageReqs := rfl
@[simp] theorem energyBlock_path (c sl e n : Nat) : (energyBlock s c sl e n).path = s.path := rfl
@[simp] theorem energyBlock_pending (c sl e n : Nat) : (energyBlock s c sl e n).pending = s.pending := rfl
@[simp] theorem energyBlock_outside (c sl e n : Nat) : (energyBlock s c sl e n).outside = s.outside := rfl
@[simp] theorem energyBlock_fills (c sl e n : Nat) : (energyBlock s c sl e n).fills = s.fills := rfl
@[simp] theorem energyBlock_objects (c sl e n : Nat) : (energyBlock s c sl e n).objects = s.objects := rfl
@[simp] theorem energyBlock_launches (c sl e n : Nat) : (energyBlock s c sl e n).launches = s.launches := rfl
@[simp] theorem energyBlock_iod (c sl e n : Nat) : (energyBlock s c sl e n).iod = s.iod := rfl
@[simp] theorem energyBlock_cycle (c sl e n : Nat) : (energyBlock s c sl e n).cycle = s.cycle := rfl
@[simp] theorem energyBlock_nextId (c sl e n : Nat) : (energyBlock s c sl e n).nextId = s.nextId := rfl
@[simp] theorem energyBlock_moved (c sl e n : Nat) : (energyBlock s c sl e n).moved = s.moved := rfl
@[simp] theorem energyBlock_shares (c sl e n : Nat) : (energyBlock s c sl e n).shares = s.shares := rfl
@[simp] theorem energyBlock_freeCount (c sl e n : Nat) : (energyBlock s c sl e n).freeCount = s.freeCount := rfl
@[simp] theorem energyBlock_agenda (c sl e n : Nat) : (energyBlock s c sl e n).agenda = s.agenda := rfl
@[simp] theorem energyBlock_cur (c sl e n : Nat) : (energyBlock s c sl e n).cur = s.cur := rfl
@[simp] theorem energyBlock_outbox (c sl e n : Nat) : (energyBlock s c sl e n).outbox = s.outbox := rfl

/-! ### chargeAcct -/
@[simp] theorem chargeAcct_cores (a ctr n : Nat) : (chargeAcct s a ctr n).cores = s.cores := rfl
@[simp] theorem chargeAcct_sys (a ctr n : Nat) : (chargeAcct s a ctr n).sys = s.sys := rfl
@[simp] theorem chargeAcct_mem (a ctr n : Nat) : (chargeAcct s a ctr n).mem = s.mem := rfl
@[simp] theorem chargeAcct_memPoison (a ctr n : Nat) : (chargeAcct s a ctr n).memPoison = s.memPoison := rfl
@[simp] theorem chargeAcct_slices (a ctr n : Nat) : (chargeAcct s a ctr n).slices = s.slices := rfl
@[simp] theorem chargeAcct_rdc (a ctr n : Nat) : (chargeAcct s a ctr n).rdc = s.rdc := rfl
@[simp] theorem chargeAcct_dieTlb (a ctr n : Nat) : (chargeAcct s a ctr n).dieTlb = s.dieTlb := rfl
@[simp] theorem chargeAcct_dieAsids (a ctr n : Nat) : (chargeAcct s a ctr n).dieAsids = s.dieAsids := rfl
@[simp] theorem chargeAcct_walks (a ctr n : Nat) : (chargeAcct s a ctr n).walks = s.walks := rfl
@[simp] theorem chargeAcct_pageReqs (a ctr n : Nat) : (chargeAcct s a ctr n).pageReqs = s.pageReqs := rfl
@[simp] theorem chargeAcct_path (a ctr n : Nat) : (chargeAcct s a ctr n).path = s.path := rfl
@[simp] theorem chargeAcct_pending (a ctr n : Nat) : (chargeAcct s a ctr n).pending = s.pending := rfl
@[simp] theorem chargeAcct_outside (a ctr n : Nat) : (chargeAcct s a ctr n).outside = s.outside := rfl
@[simp] theorem chargeAcct_fills (a ctr n : Nat) : (chargeAcct s a ctr n).fills = s.fills := rfl
@[simp] theorem chargeAcct_objects (a ctr n : Nat) : (chargeAcct s a ctr n).objects = s.objects := rfl
@[simp] theorem chargeAcct_launches (a ctr n : Nat) : (chargeAcct s a ctr n).launches = s.launches := rfl
@[simp] theorem chargeAcct_cycle (a ctr n : Nat) : (chargeAcct s a ctr n).cycle = s.cycle := rfl
@[simp] theorem chargeAcct_nextId (a ctr n : Nat) : (chargeAcct s a ctr n).nextId = s.nextId := rfl
@[simp] theorem chargeAcct_moved (a ctr n : Nat) : (chargeAcct s a ctr n).moved = s.moved := rfl
@[simp] theorem chargeAcct_shares (a ctr n : Nat) : (chargeAcct s a ctr n).shares = s.shares := rfl
@[simp] theorem chargeAcct_freeCount (a ctr n : Nat) : (chargeAcct s a ctr n).freeCount = s.freeCount := rfl
@[simp] theorem chargeAcct_agenda (a ctr n : Nat) : (chargeAcct s a ctr n).agenda = s.agenda := rfl
@[simp] theorem chargeAcct_cur (a ctr n : Nat) : (chargeAcct s a ctr n).cur = s.cur := rfl
@[simp] theorem chargeAcct_outbox (a ctr n : Nat) : (chargeAcct s a ctr n).outbox = s.outbox := rfl

/-! ### fresh -/
@[simp] theorem fresh_cores : ((fresh s).2).cores = s.cores := rfl
@[simp] theorem fresh_sys : ((fresh s).2).sys = s.sys := rfl
@[simp] theorem fresh_mem : ((fresh s).2).mem = s.mem := rfl
@[simp] theorem fresh_memPoison : ((fresh s).2).memPoison = s.memPoison := rfl
@[simp] theorem fresh_slices : ((fresh s).2).slices = s.slices := rfl
@[simp] theorem fresh_rdc : ((fresh s).2).rdc = s.rdc := rfl
@[simp] theorem fresh_dieTlb : ((fresh s).2).dieTlb = s.dieTlb := rfl
@[simp] theorem fresh_dieAsids : ((fresh s).2).dieAsids = s.dieAsids := rfl
@[simp] theorem fresh_walks : ((fresh s).2).walks = s.walks := rfl
@[simp] theorem fresh_pageReqs : ((fresh s).2).pageReqs = s.pageReqs := rfl
@[simp] theorem fresh_path : ((fresh s).2).path = s.path := rfl
@[simp] theorem fresh_pending : ((fresh s).2).pending = s.pending := rfl
@[simp] theorem fresh_outside : ((fresh s).2).outside = s.outside := rfl
@[simp] theorem fresh_fills : ((fresh s).2).fills = s.fills := rfl
@[simp] theorem fresh_objects : ((fresh s).2).objects = s.objects := rfl
@[simp] theorem fresh_launches : ((fresh s).2).launches = s.launches := rfl
@[simp] theorem fresh_iod : ((fresh s).2).iod = s.iod := rfl
@[simp] theorem fresh_cycle : ((fresh s).2).cycle = s.cycle := rfl
@[simp] theorem fresh_moved : ((fresh s).2).moved = s.moved := rfl
@[simp] theorem fresh_shares : ((fresh s).2).shares = s.shares := rfl
@[simp] theorem fresh_freeCount : ((fresh s).2).freeCount = s.freeCount := rfl
@[simp] theorem fresh_agenda : ((fresh s).2).agenda = s.agenda := rfl
@[simp] theorem fresh_cur : ((fresh s).2).cur = s.cur := rfl
@[simp] theorem fresh_outbox : ((fresh s).2).outbox = s.outbox := rfl

/-! ### freeWord -/
@[simp] theorem freeWord_cores : ((freeWord s).2).cores = s.cores := rfl
@[simp] theorem freeWord_sys : ((freeWord s).2).sys = s.sys := rfl
@[simp] theorem freeWord_mem : ((freeWord s).2).mem = s.mem := rfl
@[simp] theorem freeWord_memPoison : ((freeWord s).2).memPoison = s.memPoison := rfl
@[simp] theorem freeWord_slices : ((freeWord s).2).slices = s.slices := rfl
@[simp] theorem freeWord_rdc : ((freeWord s).2).rdc = s.rdc := rfl
@[simp] theorem freeWord_dieTlb : ((freeWord s).2).dieTlb = s.dieTlb := rfl
@[simp] theorem freeWord_dieAsids : ((freeWord s).2).dieAsids = s.dieAsids := rfl
@[simp] theorem freeWord_walks : ((freeWord s).2).walks = s.walks := rfl
@[simp] theorem freeWord_pageReqs : ((freeWord s).2).pageReqs = s.pageReqs := rfl
@[simp] theorem freeWord_path : ((freeWord s).2).path = s.path := rfl
@[simp] theorem freeWord_pending : ((freeWord s).2).pending = s.pending := rfl
@[simp] theorem freeWord_outside : ((freeWord s).2).outside = s.outside := rfl
@[simp] theorem freeWord_fills : ((freeWord s).2).fills = s.fills := rfl
@[simp] theorem freeWord_objects : ((freeWord s).2).objects = s.objects := rfl
@[simp] theorem freeWord_launches : ((freeWord s).2).launches = s.launches := rfl
@[simp] theorem freeWord_iod : ((freeWord s).2).iod = s.iod := rfl
@[simp] theorem freeWord_cycle : ((freeWord s).2).cycle = s.cycle := rfl
@[simp] theorem freeWord_nextId : ((freeWord s).2).nextId = s.nextId := rfl
@[simp] theorem freeWord_moved : ((freeWord s).2).moved = s.moved := rfl
@[simp] theorem freeWord_shares : ((freeWord s).2).shares = s.shares := rfl
@[simp] theorem freeWord_agenda : ((freeWord s).2).agenda = s.agenda := rfl
@[simp] theorem freeWord_cur : ((freeWord s).2).cur = s.cur := rfl
@[simp] theorem freeWord_outbox : ((freeWord s).2).outbox = s.outbox := rfl

/-! ### freeDouble -/
@[simp] theorem freeDouble_cores : ((freeDouble s).2).cores = s.cores := rfl
@[simp] theorem freeDouble_sys : ((freeDouble s).2).sys = s.sys := rfl
@[simp] theorem freeDouble_mem : ((freeDouble s).2).mem = s.mem := rfl
@[simp] theorem freeDouble_memPoison : ((freeDouble s).2).memPoison = s.memPoison := rfl
@[simp] theorem freeDouble_slices : ((freeDouble s).2).slices = s.slices := rfl
@[simp] theorem freeDouble_rdc : ((freeDouble s).2).rdc = s.rdc := rfl
@[simp] theorem freeDouble_dieTlb : ((freeDouble s).2).dieTlb = s.dieTlb := rfl
@[simp] theorem freeDouble_dieAsids : ((freeDouble s).2).dieAsids = s.dieAsids := rfl
@[simp] theorem freeDouble_walks : ((freeDouble s).2).walks = s.walks := rfl
@[simp] theorem freeDouble_pageReqs : ((freeDouble s).2).pageReqs = s.pageReqs := rfl
@[simp] theorem freeDouble_path : ((freeDouble s).2).path = s.path := rfl
@[simp] theorem freeDouble_pending : ((freeDouble s).2).pending = s.pending := rfl
@[simp] theorem freeDouble_outside : ((freeDouble s).2).outside = s.outside := rfl
@[simp] theorem freeDouble_fills : ((freeDouble s).2).fills = s.fills := rfl
@[simp] theorem freeDouble_objects : ((freeDouble s).2).objects = s.objects := rfl
@[simp] theorem freeDouble_launches : ((freeDouble s).2).launches = s.launches := rfl
@[simp] theorem freeDouble_iod : ((freeDouble s).2).iod = s.iod := rfl
@[simp] theorem freeDouble_cycle : ((freeDouble s).2).cycle = s.cycle := rfl
@[simp] theorem freeDouble_nextId : ((freeDouble s).2).nextId = s.nextId := rfl
@[simp] theorem freeDouble_moved : ((freeDouble s).2).moved = s.moved := rfl
@[simp] theorem freeDouble_shares : ((freeDouble s).2).shares = s.shares := rfl
@[simp] theorem freeDouble_agenda : ((freeDouble s).2).agenda = s.agenda := rfl
@[simp] theorem freeDouble_cur : ((freeDouble s).2).cur = s.cur := rfl
@[simp] theorem freeDouble_outbox : ((freeDouble s).2).outbox = s.outbox := rfl

/-! ### modCtl -/
@[simp] theorem modCtl_mem (id : CtxId) (f : Ctl → Ctl) : (modCtl s id f).mem = s.mem := by cases id <;> rfl
@[simp] theorem modCtl_memPoison (id : CtxId) (f : Ctl → Ctl) : (modCtl s id f).memPoison = s.memPoison := by cases id <;> rfl
@[simp] theorem modCtl_slices (id : CtxId) (f : Ctl → Ctl) : (modCtl s id f).slices = s.slices := by cases id <;> rfl
@[simp] theorem modCtl_rdc (id : CtxId) (f : Ctl → Ctl) : (modCtl s id f).rdc = s.rdc := by cases id <;> rfl
@[simp] theorem modCtl_dieTlb (id : CtxId) (f : Ctl → Ctl) : (modCtl s id f).dieTlb = s.dieTlb := by cases id <;> rfl
@[simp] theorem modCtl_dieAsids (id : CtxId) (f : Ctl → Ctl) : (modCtl s id f).dieAsids = s.dieAsids := by cases id <;> rfl
@[simp] theorem modCtl_walks (id : CtxId) (f : Ctl → Ctl) : (modCtl s id f).walks = s.walks := by cases id <;> rfl
@[simp] theorem modCtl_pageReqs (id : CtxId) (f : Ctl → Ctl) : (modCtl s id f).pageReqs = s.pageReqs := by cases id <;> rfl
@[simp] theorem modCtl_path (id : CtxId) (f : Ctl → Ctl) : (modCtl s id f).path = s.path := by cases id <;> rfl
@[simp] theorem modCtl_pending (id : CtxId) (f : Ctl → Ctl) : (modCtl s id f).pending = s.pending := by cases id <;> rfl
@[simp] theorem modCtl_outside (id : CtxId) (f : Ctl → Ctl) : (modCtl s id f).outside = s.outside := by cases id <;> rfl
@[simp] theorem modCtl_fills (id : CtxId) (f : Ctl → Ctl) : (modCtl s id f).fills = s.fills := by cases id <;> rfl
@[simp] theorem modCtl_objects (id : CtxId) (f : Ctl → Ctl) : (modCtl s id f).objects = s.objects := by cases id <;> rfl
@[simp] theorem modCtl_launches (id : CtxId) (f : Ctl → Ctl) : (modCtl s id f).launches = s.launches := by cases id <;> rfl
@[simp] theorem modCtl_iod (id : CtxId) (f : Ctl → Ctl) : (modCtl s id f).iod = s.iod := by cases id <;> rfl
@[simp] theorem modCtl_cycle (id : CtxId) (f : Ctl → Ctl) : (modCtl s id f).cycle = s.cycle := by cases id <;> rfl
@[simp] theorem modCtl_nextId (id : CtxId) (f : Ctl → Ctl) : (modCtl s id f).nextId = s.nextId := by cases id <;> rfl
@[simp] theorem modCtl_moved (id : CtxId) (f : Ctl → Ctl) : (modCtl s id f).moved = s.moved := by cases id <;> rfl
@[simp] theorem modCtl_shares (id : CtxId) (f : Ctl → Ctl) : (modCtl s id f).shares = s.shares := by cases id <;> rfl
@[simp] theorem modCtl_freeCount (id : CtxId) (f : Ctl → Ctl) : (modCtl s id f).freeCount = s.freeCount := by cases id <;> rfl
@[simp] theorem modCtl_agenda (id : CtxId) (f : Ctl → Ctl) : (modCtl s id f).agenda = s.agenda := by cases id <;> rfl
@[simp] theorem modCtl_cur (id : CtxId) (f : Ctl → Ctl) : (modCtl s id f).cur = s.cur := by cases id <;> rfl
@[simp] theorem modCtl_outbox (id : CtxId) (f : Ctl → Ctl) : (modCtl s id f).outbox = s.outbox := by cases id <;> rfl

variable (b : Block)

/-! ### Block.modExec -/
@[simp] theorem Block.modExec_launch (f : Exec → Exec) : (b.modExec f).launch = b.launch := rfl
@[simp] theorem Block.modExec_obj (f : Exec → Exec) : (b.modExec f).obj = b.obj := rfl
@[simp] theorem Block.modExec_part (f : Exec → Exec) : (b.modExec f).part = b.part := rfl
@[simp] theorem Block.modExec_asid (f : Exec → Exec) : (b.modExec f).asid = b.asid := rfl
@[simp] theorem Block.modExec_prio (f : Exec → Exec) : (b.modExec f).prio = b.prio := rfl
@[simp] theorem Block.modExec_vpref (f : Exec → Exec) : (b.modExec f).vpref = b.vpref := rfl
@[simp] theorem Block.modExec_det (f : Exec → Exec) : (b.modExec f).det = b.det := rfl
@[simp] theorem Block.modExec_coop (f : Exec → Exec) : (b.modExec f).coop = b.coop := rfl
@[simp] theorem Block.modExec_claim (f : Exec → Exec) : (b.modExec f).claim = b.claim := rfl
@[simp] theorem Block.modExec_regs (f : Exec → Exec) : (b.modExec f).regs = b.regs := rfl
@[simp] theorem Block.modExec_mem (f : Exec → Exec) : (b.modExec f).mem = b.mem := rfl
@[simp] theorem Block.modExec_stage (f : Exec → Exec) : (b.modExec f).stage = b.stage := rfl
@[simp] theorem Block.modExec_region (f : Exec → Exec) : (b.modExec f).region = b.region := rfl
@[simp] theorem Block.modExec_sinceHop (f : Exec → Exec) : (b.modExec f).sinceHop = b.sinceHop := rfl
@[simp] theorem Block.modExec_phase (f : Exec → Exec) : (b.modExec f).phase = b.phase := rfl
@[simp] theorem Block.modExec_want (f : Exec → Exec) : (b.modExec f).want = b.want := rfl
@[simp] theorem Block.modExec_traps (f : Exec → Exec) : (b.modExec f).traps = b.traps := rfl
@[simp] theorem Block.modExec_meters (f : Exec → Exec) : (b.modExec f).meters = b.meters := rfl
@[simp] theorem Block.modExec_charges (f : Exec → Exec) : (b.modExec f).charges = b.charges := rfl
@[simp] theorem Block.modExec_placedAt (f : Exec → Exec) : (b.modExec f).placedAt = b.placedAt := rfl
@[simp] theorem Block.modExec_lastEp (f : Exec → Exec) : (b.modExec f).lastEp = b.lastEp := rfl
@[simp] theorem Block.modExec_issuedAt (f : Exec → Exec) : (b.modExec f).issuedAt = b.issuedAt := rfl
@[simp] theorem Block.modExec_svarg (f : Exec → Exec) : (b.modExec f).svarg = b.svarg := rfl
@[simp] theorem Block.modExec_twin (f : Exec → Exec) : (b.modExec f).twin = b.twin := rfl
@[simp] theorem Block.modExec_fromResume (f : Exec → Exec) : (b.modExec f).fromResume = b.fromResume := rfl
@[simp] theorem Block.modExec_fab (f : Exec → Exec) : (b.modExec f).fab = b.fab := rfl
@[simp] theorem Block.modExec_kept (f : Exec → Exec) : (b.modExec f).kept = b.kept := rfl
@[simp] theorem Block.modExec_exec (f : Exec → Exec) : (b.modExec f).exec = f b.exec := rfl

/-! ### Block.modMem -/
@[simp] theorem Block.modMem_launch (f : BlkMem → BlkMem) : (b.modMem f).launch = b.launch := rfl
@[simp] theorem Block.modMem_obj (f : BlkMem → BlkMem) : (b.modMem f).obj = b.obj := rfl
@[simp] theorem Block.modMem_part (f : BlkMem → BlkMem) : (b.modMem f).part = b.part := rfl
@[simp] theorem Block.modMem_asid (f : BlkMem → BlkMem) : (b.modMem f).asid = b.asid := rfl
@[simp] theorem Block.modMem_prio (f : BlkMem → BlkMem) : (b.modMem f).prio = b.prio := rfl
@[simp] theorem Block.modMem_vpref (f : BlkMem → BlkMem) : (b.modMem f).vpref = b.vpref := rfl
@[simp] theorem Block.modMem_det (f : BlkMem → BlkMem) : (b.modMem f).det = b.det := rfl
@[simp] theorem Block.modMem_coop (f : BlkMem → BlkMem) : (b.modMem f).coop = b.coop := rfl
@[simp] theorem Block.modMem_claim (f : BlkMem → BlkMem) : (b.modMem f).claim = b.claim := rfl
@[simp] theorem Block.modMem_regs (f : BlkMem → BlkMem) : (b.modMem f).regs = b.regs := rfl
@[simp] theorem Block.modMem_exec (f : BlkMem → BlkMem) : (b.modMem f).exec = b.exec := rfl
@[simp] theorem Block.modMem_stage (f : BlkMem → BlkMem) : (b.modMem f).stage = b.stage := rfl
@[simp] theorem Block.modMem_region (f : BlkMem → BlkMem) : (b.modMem f).region = b.region := rfl
@[simp] theorem Block.modMem_sinceHop (f : BlkMem → BlkMem) : (b.modMem f).sinceHop = b.sinceHop := rfl
@[simp] theorem Block.modMem_phase (f : BlkMem → BlkMem) : (b.modMem f).phase = b.phase := rfl
@[simp] theorem Block.modMem_want (f : BlkMem → BlkMem) : (b.modMem f).want = b.want := rfl
@[simp] theorem Block.modMem_traps (f : BlkMem → BlkMem) : (b.modMem f).traps = b.traps := rfl
@[simp] theorem Block.modMem_meters (f : BlkMem → BlkMem) : (b.modMem f).meters = b.meters := rfl
@[simp] theorem Block.modMem_charges (f : BlkMem → BlkMem) : (b.modMem f).charges = b.charges := rfl
@[simp] theorem Block.modMem_placedAt (f : BlkMem → BlkMem) : (b.modMem f).placedAt = b.placedAt := rfl
@[simp] theorem Block.modMem_lastEp (f : BlkMem → BlkMem) : (b.modMem f).lastEp = b.lastEp := rfl
@[simp] theorem Block.modMem_issuedAt (f : BlkMem → BlkMem) : (b.modMem f).issuedAt = b.issuedAt := rfl
@[simp] theorem Block.modMem_svarg (f : BlkMem → BlkMem) : (b.modMem f).svarg = b.svarg := rfl
@[simp] theorem Block.modMem_twin (f : BlkMem → BlkMem) : (b.modMem f).twin = b.twin := rfl
@[simp] theorem Block.modMem_fromResume (f : BlkMem → BlkMem) : (b.modMem f).fromResume = b.fromResume := rfl
@[simp] theorem Block.modMem_fab (f : BlkMem → BlkMem) : (b.modMem f).fab = b.fab := rfl
@[simp] theorem Block.modMem_kept (f : BlkMem → BlkMem) : (b.modMem f).kept = b.kept := rfl
@[simp] theorem Block.modMem_mem (f : BlkMem → BlkMem) : (b.modMem f).mem = f b.mem := rfl

/-! ### Block.modRegs -/
@[simp] theorem Block.modRegs_launch (f : BlkRegs → BlkRegs) : (b.modRegs f).launch = b.launch := rfl
@[simp] theorem Block.modRegs_obj (f : BlkRegs → BlkRegs) : (b.modRegs f).obj = b.obj := rfl
@[simp] theorem Block.modRegs_part (f : BlkRegs → BlkRegs) : (b.modRegs f).part = b.part := rfl
@[simp] theorem Block.modRegs_asid (f : BlkRegs → BlkRegs) : (b.modRegs f).asid = b.asid := rfl
@[simp] theorem Block.modRegs_prio (f : BlkRegs → BlkRegs) : (b.modRegs f).prio = b.prio := rfl
@[simp] theorem Block.modRegs_vpref (f : BlkRegs → BlkRegs) : (b.modRegs f).vpref = b.vpref := rfl
@[simp] theorem Block.modRegs_det (f : BlkRegs → BlkRegs) : (b.modRegs f).det = b.det := rfl
@[simp] theorem Block.modRegs_coop (f : BlkRegs → BlkRegs) : (b.modRegs f).coop = b.coop := rfl
@[simp] theorem Block.modRegs_claim (f : BlkRegs → BlkRegs) : (b.modRegs f).claim = b.claim := rfl
@[simp] theorem Block.modRegs_exec (f : BlkRegs → BlkRegs) : (b.modRegs f).exec = b.exec := rfl
@[simp] theorem Block.modRegs_mem (f : BlkRegs → BlkRegs) : (b.modRegs f).mem = b.mem := rfl
@[simp] theorem Block.modRegs_stage (f : BlkRegs → BlkRegs) : (b.modRegs f).stage = b.stage := rfl
@[simp] theorem Block.modRegs_region (f : BlkRegs → BlkRegs) : (b.modRegs f).region = b.region := rfl
@[simp] theorem Block.modRegs_sinceHop (f : BlkRegs → BlkRegs) : (b.modRegs f).sinceHop = b.sinceHop := rfl
@[simp] theorem Block.modRegs_phase (f : BlkRegs → BlkRegs) : (b.modRegs f).phase = b.phase := rfl
@[simp] theorem Block.modRegs_want (f : BlkRegs → BlkRegs) : (b.modRegs f).want = b.want := rfl
@[simp] theorem Block.modRegs_traps (f : BlkRegs → BlkRegs) : (b.modRegs f).traps = b.traps := rfl
@[simp] theorem Block.modRegs_meters (f : BlkRegs → BlkRegs) : (b.modRegs f).meters = b.meters := rfl
@[simp] theorem Block.modRegs_charges (f : BlkRegs → BlkRegs) : (b.modRegs f).charges = b.charges := rfl
@[simp] theorem Block.modRegs_placedAt (f : BlkRegs → BlkRegs) : (b.modRegs f).placedAt = b.placedAt := rfl
@[simp] theorem Block.modRegs_lastEp (f : BlkRegs → BlkRegs) : (b.modRegs f).lastEp = b.lastEp := rfl
@[simp] theorem Block.modRegs_issuedAt (f : BlkRegs → BlkRegs) : (b.modRegs f).issuedAt = b.issuedAt := rfl
@[simp] theorem Block.modRegs_svarg (f : BlkRegs → BlkRegs) : (b.modRegs f).svarg = b.svarg := rfl
@[simp] theorem Block.modRegs_twin (f : BlkRegs → BlkRegs) : (b.modRegs f).twin = b.twin := rfl
@[simp] theorem Block.modRegs_fromResume (f : BlkRegs → BlkRegs) : (b.modRegs f).fromResume = b.fromResume := rfl
@[simp] theorem Block.modRegs_fab (f : BlkRegs → BlkRegs) : (b.modRegs f).fab = b.fab := rfl
@[simp] theorem Block.modRegs_kept (f : BlkRegs → BlkRegs) : (b.modRegs f).kept = b.kept := rfl
@[simp] theorem Block.modRegs_regs (f : BlkRegs → BlkRegs) : (b.modRegs f).regs = f b.regs := rfl

/-! ### Block.modStage -/
@[simp] theorem Block.modStage_launch (f : Stage → Stage) : (b.modStage f).launch = b.launch := rfl
@[simp] theorem Block.modStage_obj (f : Stage → Stage) : (b.modStage f).obj = b.obj := rfl
@[simp] theorem Block.modStage_part (f : Stage → Stage) : (b.modStage f).part = b.part := rfl
@[simp] theorem Block.modStage_asid (f : Stage → Stage) : (b.modStage f).asid = b.asid := rfl
@[simp] theorem Block.modStage_prio (f : Stage → Stage) : (b.modStage f).prio = b.prio := rfl
@[simp] theorem Block.modStage_vpref (f : Stage → Stage) : (b.modStage f).vpref = b.vpref := rfl
@[simp] theorem Block.modStage_det (f : Stage → Stage) : (b.modStage f).det = b.det := rfl
@[simp] theorem Block.modStage_coop (f : Stage → Stage) : (b.modStage f).coop = b.coop := rfl
@[simp] theorem Block.modStage_claim (f : Stage → Stage) : (b.modStage f).claim = b.claim := rfl
@[simp] theorem Block.modStage_regs (f : Stage → Stage) : (b.modStage f).regs = b.regs := rfl
@[simp] theorem Block.modStage_exec (f : Stage → Stage) : (b.modStage f).exec = b.exec := rfl
@[simp] theorem Block.modStage_mem (f : Stage → Stage) : (b.modStage f).mem = b.mem := rfl
@[simp] theorem Block.modStage_region (f : Stage → Stage) : (b.modStage f).region = b.region := rfl
@[simp] theorem Block.modStage_sinceHop (f : Stage → Stage) : (b.modStage f).sinceHop = b.sinceHop := rfl
@[simp] theorem Block.modStage_phase (f : Stage → Stage) : (b.modStage f).phase = b.phase := rfl
@[simp] theorem Block.modStage_want (f : Stage → Stage) : (b.modStage f).want = b.want := rfl
@[simp] theorem Block.modStage_traps (f : Stage → Stage) : (b.modStage f).traps = b.traps := rfl
@[simp] theorem Block.modStage_meters (f : Stage → Stage) : (b.modStage f).meters = b.meters := rfl
@[simp] theorem Block.modStage_charges (f : Stage → Stage) : (b.modStage f).charges = b.charges := rfl
@[simp] theorem Block.modStage_placedAt (f : Stage → Stage) : (b.modStage f).placedAt = b.placedAt := rfl
@[simp] theorem Block.modStage_lastEp (f : Stage → Stage) : (b.modStage f).lastEp = b.lastEp := rfl
@[simp] theorem Block.modStage_issuedAt (f : Stage → Stage) : (b.modStage f).issuedAt = b.issuedAt := rfl
@[simp] theorem Block.modStage_svarg (f : Stage → Stage) : (b.modStage f).svarg = b.svarg := rfl
@[simp] theorem Block.modStage_twin (f : Stage → Stage) : (b.modStage f).twin = b.twin := rfl
@[simp] theorem Block.modStage_fromResume (f : Stage → Stage) : (b.modStage f).fromResume = b.fromResume := rfl
@[simp] theorem Block.modStage_fab (f : Stage → Stage) : (b.modStage f).fab = b.fab := rfl
@[simp] theorem Block.modStage_kept (f : Stage → Stage) : (b.modStage f).kept = b.kept := rfl
@[simp] theorem Block.modStage_stage (f : Stage → Stage) : (b.modStage f).stage = f b.stage := rfl

/-! ### Block.modCtl -/
@[simp] theorem Block.modCtl_launch (f : Ctl → Ctl) : (b.modCtl f).launch = b.launch := rfl
@[simp] theorem Block.modCtl_obj (f : Ctl → Ctl) : (b.modCtl f).obj = b.obj := rfl
@[simp] theorem Block.modCtl_part (f : Ctl → Ctl) : (b.modCtl f).part = b.part := rfl
@[simp] theorem Block.modCtl_asid (f : Ctl → Ctl) : (b.modCtl f).asid = b.asid := rfl
@[simp] theorem Block.modCtl_prio (f : Ctl → Ctl) : (b.modCtl f).prio = b.prio := rfl
@[simp] theorem Block.modCtl_vpref (f : Ctl → Ctl) : (b.modCtl f).vpref = b.vpref := rfl
@[simp] theorem Block.modCtl_det (f : Ctl → Ctl) : (b.modCtl f).det = b.det := rfl
@[simp] theorem Block.modCtl_coop (f : Ctl → Ctl) : (b.modCtl f).coop = b.coop := rfl
@[simp] theorem Block.modCtl_claim (f : Ctl → Ctl) : (b.modCtl f).claim = b.claim := rfl
@[simp] theorem Block.modCtl_regs (f : Ctl → Ctl) : (b.modCtl f).regs = b.regs := rfl
@[simp] theorem Block.modCtl_mem (f : Ctl → Ctl) : (b.modCtl f).mem = b.mem := rfl
@[simp] theorem Block.modCtl_stage (f : Ctl → Ctl) : (b.modCtl f).stage = b.stage := rfl
@[simp] theorem Block.modCtl_region (f : Ctl → Ctl) : (b.modCtl f).region = b.region := rfl
@[simp] theorem Block.modCtl_sinceHop (f : Ctl → Ctl) : (b.modCtl f).sinceHop = b.sinceHop := rfl
@[simp] theorem Block.modCtl_phase (f : Ctl → Ctl) : (b.modCtl f).phase = b.phase := rfl
@[simp] theorem Block.modCtl_want (f : Ctl → Ctl) : (b.modCtl f).want = b.want := rfl
@[simp] theorem Block.modCtl_traps (f : Ctl → Ctl) : (b.modCtl f).traps = b.traps := rfl
@[simp] theorem Block.modCtl_meters (f : Ctl → Ctl) : (b.modCtl f).meters = b.meters := rfl
@[simp] theorem Block.modCtl_charges (f : Ctl → Ctl) : (b.modCtl f).charges = b.charges := rfl
@[simp] theorem Block.modCtl_placedAt (f : Ctl → Ctl) : (b.modCtl f).placedAt = b.placedAt := rfl
@[simp] theorem Block.modCtl_lastEp (f : Ctl → Ctl) : (b.modCtl f).lastEp = b.lastEp := rfl
@[simp] theorem Block.modCtl_issuedAt (f : Ctl → Ctl) : (b.modCtl f).issuedAt = b.issuedAt := rfl
@[simp] theorem Block.modCtl_svarg (f : Ctl → Ctl) : (b.modCtl f).svarg = b.svarg := rfl
@[simp] theorem Block.modCtl_twin (f : Ctl → Ctl) : (b.modCtl f).twin = b.twin := rfl
@[simp] theorem Block.modCtl_fromResume (f : Ctl → Ctl) : (b.modCtl f).fromResume = b.fromResume := rfl
@[simp] theorem Block.modCtl_fab (f : Ctl → Ctl) : (b.modCtl f).fab = b.fab := rfl
@[simp] theorem Block.modCtl_kept (f : Ctl → Ctl) : (b.modCtl f).kept = b.kept := rfl
@[simp] theorem Block.modCtl_exec (f : Ctl → Ctl) : (b.modCtl f).exec = { b.exec with ctl := f b.exec.ctl } := rfl

/-! ### Block.modThreads -/
@[simp] theorem Block.modThreads_launch (ts : List Nat) (f : Nat → Thread → Thread) : (b.modThreads ts f).launch = b.launch := rfl
@[simp] theorem Block.modThreads_obj (ts : List Nat) (f : Nat → Thread → Thread) : (b.modThreads ts f).obj = b.obj := rfl
@[simp] theorem Block.modThreads_part (ts : List Nat) (f : Nat → Thread → Thread) : (b.modThreads ts f).part = b.part := rfl
@[simp] theorem Block.modThreads_asid (ts : List Nat) (f : Nat → Thread → Thread) : (b.modThreads ts f).asid = b.asid := rfl
@[simp] theorem Block.modThreads_prio (ts : List Nat) (f : Nat → Thread → Thread) : (b.modThreads ts f).prio = b.prio := rfl
@[simp] theorem Block.modThreads_vpref (ts : List Nat) (f : Nat → Thread → Thread) : (b.modThreads ts f).vpref = b.vpref := rfl
@[simp] theorem Block.modThreads_det (ts : List Nat) (f : Nat → Thread → Thread) : (b.modThreads ts f).det = b.det := rfl
@[simp] theorem Block.modThreads_coop (ts : List Nat) (f : Nat → Thread → Thread) : (b.modThreads ts f).coop = b.coop := rfl
@[simp] theorem Block.modThreads_claim (ts : List Nat) (f : Nat → Thread → Thread) : (b.modThreads ts f).claim = b.claim := rfl
@[simp] theorem Block.modThreads_regs (ts : List Nat) (f : Nat → Thread → Thread) : (b.modThreads ts f).regs = b.regs := rfl
@[simp] theorem Block.modThreads_mem (ts : List Nat) (f : Nat → Thread → Thread) : (b.modThreads ts f).mem = b.mem := rfl
@[simp] theorem Block.modThreads_stage (ts : List Nat) (f : Nat → Thread → Thread) : (b.modThreads ts f).stage = b.stage := rfl
@[simp] theorem Block.modThreads_region (ts : List Nat) (f : Nat → Thread → Thread) : (b.modThreads ts f).region = b.region := rfl
@[simp] theorem Block.modThreads_sinceHop (ts : List Nat) (f : Nat → Thread → Thread) : (b.modThreads ts f).sinceHop = b.sinceHop := rfl
@[simp] theorem Block.modThreads_phase (ts : List Nat) (f : Nat → Thread → Thread) : (b.modThreads ts f).phase = b.phase := rfl
@[simp] theorem Block.modThreads_want (ts : List Nat) (f : Nat → Thread → Thread) : (b.modThreads ts f).want = b.want := rfl
@[simp] theorem Block.modThreads_traps (ts : List Nat) (f : Nat → Thread → Thread) : (b.modThreads ts f).traps = b.traps := rfl
@[simp] theorem Block.modThreads_meters (ts : List Nat) (f : Nat → Thread → Thread) : (b.modThreads ts f).meters = b.meters := rfl
@[simp] theorem Block.modThreads_charges (ts : List Nat) (f : Nat → Thread → Thread) : (b.modThreads ts f).charges = b.charges := rfl
@[simp] theorem Block.modThreads_placedAt (ts : List Nat) (f : Nat → Thread → Thread) : (b.modThreads ts f).placedAt = b.placedAt := rfl
@[simp] theorem Block.modThreads_lastEp (ts : List Nat) (f : Nat → Thread → Thread) : (b.modThreads ts f).lastEp = b.lastEp := rfl
@[simp] theorem Block.modThreads_issuedAt (ts : List Nat) (f : Nat → Thread → Thread) : (b.modThreads ts f).issuedAt = b.issuedAt := rfl
@[simp] theorem Block.modThreads_svarg (ts : List Nat) (f : Nat → Thread → Thread) : (b.modThreads ts f).svarg = b.svarg := rfl
@[simp] theorem Block.modThreads_twin (ts : List Nat) (f : Nat → Thread → Thread) : (b.modThreads ts f).twin = b.twin := rfl
@[simp] theorem Block.modThreads_fromResume (ts : List Nat) (f : Nat → Thread → Thread) : (b.modThreads ts f).fromResume = b.fromResume := rfl
@[simp] theorem Block.modThreads_fab (ts : List Nat) (f : Nat → Thread → Thread) : (b.modThreads ts f).fab = b.fab := rfl
@[simp] theorem Block.modThreads_kept (ts : List Nat) (f : Nat → Thread → Thread) : (b.modThreads ts f).kept = b.kept := rfl
@[simp] theorem Block.modThreads_exec (ts : List Nat) (f : Nat → Thread → Thread) : (b.modThreads ts f).exec = { b.exec with threads := b.exec.threads.mapIdx fun i t => if ts.contains i then f i t else t } := rfl

/-! ### Block.addMeter -/
@[simp] theorem Block.addMeter_launch (i n : Nat) : (b.addMeter i n).launch = b.launch := rfl
@[simp] theorem Block.addMeter_obj (i n : Nat) : (b.addMeter i n).obj = b.obj := rfl
@[simp] theorem Block.addMeter_part (i n : Nat) : (b.addMeter i n).part = b.part := rfl
@[simp] theorem Block.addMeter_asid (i n : Nat) : (b.addMeter i n).asid = b.asid := rfl
@[simp] theorem Block.addMeter_prio (i n : Nat) : (b.addMeter i n).prio = b.prio := rfl
@[simp] theorem Block.addMeter_vpref (i n : Nat) : (b.addMeter i n).vpref = b.vpref := rfl
@[simp] theorem Block.addMeter_det (i n : Nat) : (b.addMeter i n).det = b.det := rfl
@[simp] theorem Block.addMeter_coop (i n : Nat) : (b.addMeter i n).coop = b.coop := rfl
@[simp] theorem Block.addMeter_claim (i n : Nat) : (b.addMeter i n).claim = b.claim := rfl
@[simp] theorem Block.addMeter_regs (i n : Nat) : (b.addMeter i n).regs = b.regs := rfl
@[simp] theorem Block.addMeter_exec (i n : Nat) : (b.addMeter i n).exec = b.exec := rfl
@[simp] theorem Block.addMeter_mem (i n : Nat) : (b.addMeter i n).mem = b.mem := rfl
@[simp] theorem Block.addMeter_stage (i n : Nat) : (b.addMeter i n).stage = b.stage := rfl
@[simp] theorem Block.addMeter_region (i n : Nat) : (b.addMeter i n).region = b.region := rfl
@[simp] theorem Block.addMeter_sinceHop (i n : Nat) : (b.addMeter i n).sinceHop = b.sinceHop := rfl
@[simp] theorem Block.addMeter_phase (i n : Nat) : (b.addMeter i n).phase = b.phase := rfl
@[simp] theorem Block.addMeter_want (i n : Nat) : (b.addMeter i n).want = b.want := rfl
@[simp] theorem Block.addMeter_traps (i n : Nat) : (b.addMeter i n).traps = b.traps := rfl
@[simp] theorem Block.addMeter_charges (i n : Nat) : (b.addMeter i n).charges = b.charges := rfl
@[simp] theorem Block.addMeter_placedAt (i n : Nat) : (b.addMeter i n).placedAt = b.placedAt := rfl
@[simp] theorem Block.addMeter_lastEp (i n : Nat) : (b.addMeter i n).lastEp = b.lastEp := rfl
@[simp] theorem Block.addMeter_issuedAt (i n : Nat) : (b.addMeter i n).issuedAt = b.issuedAt := rfl
@[simp] theorem Block.addMeter_svarg (i n : Nat) : (b.addMeter i n).svarg = b.svarg := rfl
@[simp] theorem Block.addMeter_twin (i n : Nat) : (b.addMeter i n).twin = b.twin := rfl
@[simp] theorem Block.addMeter_fromResume (i n : Nat) : (b.addMeter i n).fromResume = b.fromResume := rfl
@[simp] theorem Block.addMeter_fab (i n : Nat) : (b.addMeter i n).fab = b.fab := rfl
@[simp] theorem Block.addMeter_kept (i n : Nat) : (b.addMeter i n).kept = b.kept := rfl
@[simp] theorem Block.addMeter_meters (i n : Nat) : (b.addMeter i n).meters = b.meters.set i (min (b.meter i + n) (2 ^ 32 - 1)) := rfl

end Sys2Proof.Machine
end

