-- ==== Sys2Proof/Laws/Store.lean ====
section
/-! SUPPORT. Sparse stores, tables and bytes: what a read gives after a write, and that writes keep the canonical form
of memory. -/

namespace Sys2Proof.Machine

/-! ## Reads and writes -/

theorem Store.get_place_self {w : Nat} (m : Store w) (a : Nat) (v : BitVec w) (h : ∀ e ∈ m, e.1 ≠ a) :
    Store.get (Store.place m a v) a = v := by
  induction m with
  | nil => simp [Store.place, Store.get]
  | cons e r ih =>
    obtain ⟨k, x⟩ := e
    have hk : k ≠ a := h (k, x) (by simp)
    simp only [Store.place]
    split
    · simp [Store.get]
    · simp only [Store.get, hk, if_false]
      exact ih fun e he => h e (by simp [he])

theorem Store.get_place_ne {w : Nat} (m : Store w) (a b : Nat) (v : BitVec w) (h : a ≠ b) :
    Store.get (Store.place m a v) b = Store.get m b := by
  induction m with
  | nil => simp [Store.place, Store.get, h]
  | cons e r ih =>
    obtain ⟨k, x⟩ := e
    simp only [Store.place]
    split
    · simp [Store.get, h]
    · simp only [Store.get, ih]

theorem Store.get_filter {w : Nat} (m : Store w) (p : Nat → Bool) (b : Nat) :
    Store.get (m.filter fun e => p e.1) b = if p b then Store.get m b else 0#w := by
  induction m with
  | nil => simp [Store.get]
  | cons e r ih =>
    obtain ⟨k, x⟩ := e
    by_cases hk : k = b
    · subst hk
      by_cases hp : p k <;> simp [Store.get, hp, ih]
    · by_cases hp : p k <;> simp [Store.get, hp, ih, hk]

/-- A unit written reads as what was written. -/
@[simp] theorem Store.get_set_self {w : Nat} (m : Store w) (a : Nat) (v : BitVec w) : Store.get (Store.set m a v) a = v := by
  have hf := Store.get_filter m (fun k => k != a) a
  simp only [Store.set]
  split
  · rename_i h
    simpa [h] using hf
  · exact Store.get_place_self _ _ _ fun e he => by simpa using (List.mem_filter.mp he).2

/-- A write leaves every other unit alone. -/
theorem Store.get_set_ne {w : Nat} (m : Store w) {a b : Nat} (v : BitVec w) (h : a ≠ b) :
    Store.get (Store.set m a v) b = Store.get m b := by
  have hf : Store.get (m.filter fun e => e.1 != a) b = Store.get m b := by
    have hf := Store.get_filter m (fun k => k != a) b
    simpa [Ne.symm h] using hf
  simp only [Store.set]
  split
  · exact hf
  · rw [Store.get_place_ne _ _ _ _ h, hf]

theorem Store.get_set {w : Nat} (m : Store w) (a b : Nat) (v : BitVec w) :
    Store.get (Store.set m a v) b = if a = b then v else Store.get m b := by
  by_cases h : a = b
  · subst h; simp
  · simp [h, Store.get_set_ne m v h]

theorem Store.get_append {w : Nat} (m n : Store w) (b : Nat) (h : ∀ e ∈ m, e.1 ≠ b) :
    Store.get (m ++ n) b = Store.get n b := by
  induction m with
  | nil => rfl
  | cons e r ih =>
    have := h e (by simp)
    simp only [List.cons_append, Store.get, this, if_false]
    exact ih fun x hx => h x (by simp [hx])

theorem Store.get_append_left {w : Nat} (m n : Store w) (b : Nat) (h : ∀ e ∈ n, e.1 ≠ b) :
    Store.get (m ++ n) b = Store.get m b := by
  induction m with
  | nil =>
    induction n with
    | nil => rfl
    | cons e r ih =>
      have := h e (by simp)
      simp only [List.nil_append, Store.get, this, if_false] at ih ⊢
      exact ih fun x hx => h x (by simp [hx])
  | cons e r ih => simp only [List.cons_append, Store.get, ih]

/-- A record set is the record read. -/
theorem Table.get?_place_self {α : Type} (t : Table α) (k : Nat) (v : α) (h : ∀ e ∈ t, e.1 ≠ k) :
    Table.get? (Store.place t k v) k = some v := by
  induction t with
  | nil => simp [Store.place, Table.get?]
  | cons e r ih =>
    obtain ⟨j, x⟩ := e
    have hj : j ≠ k := h (j, x) (by simp)
    simp only [Store.place]
    split
    · simp [Table.get?]
    · simp only [Table.get?, hj, if_false]
      exact ih fun e he => h e (by simp [he])

theorem Table.get?_place_ne {α : Type} (t : Table α) {k j : Nat} (v : α) (h : k ≠ j) :
    Table.get? (Store.place t k v) j = Table.get? t j := by
  induction t with
  | nil => simp [Store.place, Table.get?, h]
  | cons e r ih =>
    simp only [Store.place]
    split
    · simp [Table.get?, h]
    · simp only [Table.get?, ih]

theorem Table.get?_erase {α : Type} (t : Table α) (k j : Nat) :
    Table.get? (Table.erase t k) j = if j = k then none else Table.get? t j := by
  induction t with
  | nil => simp [Table.erase, Table.get?]
  | cons e r ih =>
    obtain ⟨i, x⟩ := e
    simp only [Table.erase] at ih ⊢
    by_cases hi : i = k
    · subst hi
      by_cases hj : j = i <;> simp_all [Table.get?, eq_comm]
    · by_cases hj : i = j
      · subst hj
        simp [Table.get?, hi]
      · simp [Table.get?, hi, hj, ih]

@[simp] theorem Table.get?_set_self {α : Type} (t : Table α) (k : Nat) (v : α) : Table.get? (Table.set t k v) k = some v :=
  Table.get?_place_self _ _ _ fun e he => by simpa using (List.mem_filter.mp he).2

theorem Table.get?_set_ne {α : Type} (t : Table α) {k j : Nat} (v : α) (h : k ≠ j) :
    Table.get? (Table.set t k v) j = Table.get? t j := by
  unfold Table.set
  rw [Table.get?_place_ne _ _ h, Table.get?_erase]
  simp [Ne.symm h]

@[simp] theorem Table.getD_set_self {α : Type} (t : Table α) (k : Nat) (v d : α) : Table.getD (Table.set t k v) k d = v := by
  simp [Table.getD]

theorem Table.getD_set_ne {α : Type} (t : Table α) {k j : Nat} (v d : α) (h : k ≠ j) :
    Table.getD (Table.set t k v) j d = Table.getD t j d := by
  simp [Table.getD, Table.get?_set_ne t v h]

@[simp] theorem Table.get?_modify_self {α : Type} (t : Table α) (k : Nat) (f : α → α) :
    Table.get? (Table.modify t k f) k = (Table.get? t k).map f := by
  unfold Table.modify
  split <;> simp_all

theorem Table.get?_modify_ne {α : Type} (t : Table α) {k j : Nat} (f : α → α) (h : k ≠ j) :
    Table.get? (Table.modify t k f) j = Table.get? t j := by
  unfold Table.modify
  split
  · exact Table.get?_set_ne t _ h
  · rfl

/-! ## Bytes of a store (R1) -/

@[simp] theorem upFrom_length (a n : Nat) : (upFrom a n).length = n := by
  induction n generalizing a with
  | zero => rfl
  | succ n ih => simp [upFrom, ih]

theorem mem_upFrom {a n b : Nat} : b ∈ upFrom a n ↔ a ≤ b ∧ b < a + n := by
  induction n generalizing a with
  | zero => simp [upFrom]
  | succ n ih => simp only [upFrom, List.mem_cons, ih]; omega

/-- Consecutive bytes are the single reads. -/
theorem Store.bytes_eq (m : Store 8) (a n : Nat) : Store.bytes m a n = (upFrom a n).map (Store.get m) := by
  unfold Store.bytes
  apply List.map_congr_left
  intro b hb
  rw [mem_upFrom] at hb
  have hf := Store.get_filter m (fun k => decide (a ≤ k) && decide (k < a + n)) b
  simpa [hb] using hf

theorem Store.listed_range {a : Nat} {bs : List Byte} {e : Nat × Byte} (h : e ∈ Store.listed a bs) :
    a ≤ e.1 ∧ e.1 < a + bs.length := by
  induction bs generalizing a with
  | nil => simp [Store.listed] at h
  | cons b r ih =>
    simp only [Store.listed] at h
    split at h
    · have := ih h; simp only [List.length_cons]; omega
    · rcases List.mem_cons.mp h with rfl | h
      · simp
      · have := ih h; simp only [List.length_cons]; omega

theorem Store.get_listed (a i : Nat) (bs : List Byte) (h : i < bs.length) :
    Store.get (Store.listed a bs) (a + i) = bs[i] := by
  induction bs generalizing a i with
  | nil => simp at h
  | cons b r ih =>
    cases i with
    | zero =>
      simp only [Store.listed]
      split
      · rename_i hb
        have : Store.get (Store.listed (a + 1) r) a = 0#8 := by
          rw [show Store.listed (a + 1) r = Store.listed (a + 1) r ++ [] by simp, Store.get_append _ _ _ fun e he => by
            have := Store.listed_range he; omega]
          rfl
        simpa [hb] using this
      · simp [Store.get]
    | succ i =>
      have hr : i < r.length := by simpa using h
      have := ih (a + 1) i hr
      simp only [Store.listed, List.getElem_cons_succ]
      rw [show a + (i + 1) = a + 1 + i by omega]
      split
      · exact this
      · simp only [Store.get]
        rw [if_neg (by omega), this]

/-- Reading one byte after consecutive bytes were written. -/
theorem Store.get_setBytes (m : Store 8) (a : Nat) (bs : List Byte) (b : Nat) :
    Store.get (Store.setBytes m a bs) b = if h : a ≤ b ∧ b < a + bs.length then bs[b - a]'(by omega) else Store.get m b := by
  have hlt : Store.get (m.filter fun e => decide (e.1 < a)) b = if b < a then Store.get m b else 0#8 := by
    have := Store.get_filter m (fun k => decide (k < a)) b
    simpa using this
  have hge : Store.get (m.filter fun e => decide (a + bs.length ≤ e.1)) b =
      if a + bs.length ≤ b then Store.get m b else 0#8 := by
    have := Store.get_filter m (fun k => decide (a + bs.length ≤ k)) b
    simpa using this
  unfold Store.setBytes
  by_cases h1 : b < a
  · rw [Store.get_append_left, Store.get_append_left, hlt]
    · rw [if_pos h1, dif_neg (by omega)]
    · intro e he; have := Store.listed_range he; omega
    · intro e he; have := (List.mem_filter.mp he).2; simp at this; omega
  · by_cases h2 : b < a + bs.length
    · rw [Store.get_append_left, Store.get_append]
      · rw [dif_pos ⟨by omega, h2⟩]
        have := Store.get_listed a (b - a) bs (by omega)
        rwa [show a + (b - a) = b by omega] at this
      · intro e he; have := (List.mem_filter.mp he).2; simp at this; omega
      · intro e he; have := (List.mem_filter.mp he).2; simp at this; omega
    · rw [Store.get_append, hge]
      · rw [if_pos (by omega), dif_neg (by omega)]
      · intro e he
        rcases List.mem_append.mp he with he | he
        · have := (List.mem_filter.mp he).2; simp at this; omega
        · have := Store.listed_range he; omega

/-! ## The canonical form of memory -/

/-- The canonical form as one statement: rising addresses and no zero byte. -/
theorem Memory.wf_iff (m : Memory) :
    Memory.wf m = true ↔ List.Pairwise (fun a b : Nat × Byte => a.1 < b.1) m ∧ ∀ e ∈ m, e.2 ≠ 0#8 := by
  induction m with
  | nil => simp [Memory.wf]
  | cons e r ih =>
    obtain ⟨a, v⟩ := e
    cases r with
    | nil => simp [Memory.wf]
    | cons f q =>
      obtain ⟨b, x⟩ := f
      simp only [Memory.wf, Bool.and_eq_true, bne_iff_ne, decide_eq_true_eq, ih]
      constructor
      · rintro ⟨⟨hv, hab⟩, hp, hz⟩
        refine ⟨List.pairwise_cons.mpr ⟨fun e he => ?_, hp⟩, fun e he => ?_⟩
        · rcases List.mem_cons.mp he with rfl | he
          · exact hab
          · exact Nat.lt_trans hab ((List.pairwise_cons.mp hp).1 e he)
        · rcases List.mem_cons.mp he with rfl | he
          · exact hv
          · exact hz e he
      · rintro ⟨hp, hz⟩
        have hp' := List.pairwise_cons.mp hp
        exact ⟨⟨hz (a, v) (by simp), hp'.1 (b, x) (by simp)⟩, hp'.2, fun e he => hz e (by simp [he])⟩

theorem Store.place_mem {α : Type} (m : List (Nat × α)) (a : Nat) (v : α) (e : Nat × α) :
    e ∈ Store.place m a v ↔ e = (a, v) ∨ e ∈ m := by
  induction m with
  | nil => simp [Store.place]
  | cons f r ih =>
    simp only [Store.place]
    split
    · simp
    · simp only [List.mem_cons, ih]; tauto

theorem Store.place_sorted {α : Type} (m : List (Nat × α)) (a : Nat) (v : α)
    (h : List.Pairwise (fun x y : Nat × α => x.1 < y.1) m) (ha : ∀ e ∈ m, e.1 ≠ a) :
    List.Pairwise (fun x y : Nat × α => x.1 < y.1) (Store.place m a v) := by
  induction m with
  | nil => simp [Store.place]
  | cons f r ih =>
    obtain ⟨k, x⟩ := f
    have hp := List.pairwise_cons.mp h
    have hk : k ≠ a := ha (k, x) (by simp)
    simp only [Store.place]
    split
    · rename_i hlt
      refine List.pairwise_cons.mpr ⟨fun e he => ?_, h⟩
      rcases List.mem_cons.mp he with rfl | he
      · exact hlt
      · exact Nat.lt_trans hlt (hp.1 e he)
    · refine List.pairwise_cons.mpr ⟨fun e he => ?_, ih hp.2 fun e he => ha e (by simp [he])⟩
      rcases (Store.place_mem r a v e).mp he with rfl | he
      · simp only; omega
      · exact hp.1 e he

/-- Writing one byte keeps memory canonical. -/
theorem Store.set_wf {m : Memory} (h : Memory.wf m = true) (a : Nat) (v : Byte) : Memory.wf (Store.set m a v) = true := by
  rw [Memory.wf_iff] at h ⊢
  have hf : List.Pairwise (fun x y : Nat × Byte => x.1 < y.1) (m.filter fun e => e.1 != a) :=
    h.1.sublist List.filter_sublist
  have hz : ∀ e ∈ m.filter (fun e => e.1 != a), e.2 ≠ 0#8 := fun e he => h.2 e (List.mem_filter.mp he).1
  unfold Store.set
  split
  · exact ⟨hf, hz⟩
  · rename_i hv
    refine ⟨Store.place_sorted _ _ _ hf fun e he => by simpa using (List.mem_filter.mp he).2, fun e he => ?_⟩
    rcases (Store.place_mem _ _ _ _).mp he with rfl | he
    · exact hv
    · exact hz e he

theorem Store.listed_wf (a : Nat) (bs : List Byte) : Memory.wf (Store.listed a bs) = true := by
  rw [Memory.wf_iff]
  induction bs generalizing a with
  | nil => simp [Store.listed]
  | cons b r ih =>
    simp only [Store.listed]
    split
    · exact ih (a + 1)
    · rename_i hb
      refine ⟨List.pairwise_cons.mpr ⟨fun e he => ?_, (ih (a + 1)).1⟩, fun e he => ?_⟩
      · have := Store.listed_range he; simp only; omega
      · rcases List.mem_cons.mp he with rfl | he
        · exact hb
        · exact (ih (a + 1)).2 e he

/-- Writing consecutive bytes keeps memory canonical. -/
theorem Store.setBytes_wf {m : Memory} (h : Memory.wf m = true) (a : Nat) (bs : List Byte) :
    Memory.wf (Store.setBytes m a bs) = true := by
  have hl := (Memory.wf_iff _).mp (Store.listed_wf a bs)
  rw [Memory.wf_iff] at h ⊢
  have hlt : ∀ e ∈ m.filter (fun e => decide (e.1 < a)), e.1 < a := fun e he => by simpa using (List.mem_filter.mp he).2
  have hge : ∀ e ∈ m.filter (fun e => decide (a + bs.length ≤ e.1)), a + bs.length ≤ e.1 := fun e he => by
    simpa using (List.mem_filter.mp he).2
  refine ⟨List.pairwise_append.mpr ⟨List.pairwise_append.mpr ⟨h.1.sublist List.filter_sublist, hl.1, ?_⟩,
    h.1.sublist List.filter_sublist, ?_⟩, ?_⟩
  · intro x hx y hy
    have := hlt x hx; have := Store.listed_range hy; omega
  · intro x hx y hy
    have hy' := hge y hy
    rcases List.mem_append.mp hx with hx | hx
    · have := hlt x hx; omega
    · have := Store.listed_range hx; omega
  · intro e he
    rcases List.mem_append.mp he with he | he
    · rcases List.mem_append.mp he with he | he
      · exact h.2 e (List.mem_filter.mp he).1
      · exact hl.2 e he
    · exact h.2 e (List.mem_filter.mp he).1

end Sys2Proof.Machine
end

