-- ==== Sys2Proof/Laws/Units.lean ====
section
/-! SUPPORT. What reading a core, a block, a stream or a system core gives after each update of one. -/

namespace Sys2Proof.Machine

variable (s : State)

@[simp] theorem coreOf_setCore_self (c : Nat) (k : Core) : coreOf (setCore s c k) c = k := by simp [coreOf, setCore]
theorem coreOf_setCore_ne {c d : Nat} (k : Core) (h : c ≠ d) : coreOf (setCore s c k) d = coreOf s d := by
  simp [coreOf, setCore, Table.getD_set_ne _ _ _ h]
@[simp] theorem coreOf_modCore_self (c : Nat) (f : Core → Core) : coreOf (modCore s c f) c = f (coreOf s c) := by
  simp [modCore]
theorem coreOf_modCore_ne {c d : Nat} (f : Core → Core) (h : c ≠ d) : coreOf (modCore s c f) d = coreOf s d :=
  coreOf_setCore_ne s _ h
@[simp] theorem coreOf_modBlock_self (c sl : Nat) (f : Block → Block) :
    coreOf (modBlock s c sl f) c = { coreOf s c with slots := Table.modify (coreOf s c).slots sl f } := by simp [modBlock]
theorem coreOf_modBlock_ne {c d : Nat} (sl : Nat) (f : Block → Block) (h : c ≠ d) :
    coreOf (modBlock s c sl f) d = coreOf s d := coreOf_modCore_ne s _ h

@[simp] theorem sysOf_modSys_self (n : Nat) (f : SysCore → SysCore) : sysOf (modSys s n f) n = f (sysOf s n) := by
  simp [sysOf, modSys]
theorem sysOf_modSys_ne {n m : Nat} (f : SysCore → SysCore) (h : n ≠ m) : sysOf (modSys s n f) m = sysOf s m := by
  simp [sysOf, modSys, Table.getD_set_ne _ _ _ h]

/-- The block a change was made to is the changed block. -/
@[simp] theorem blockOf_modBlock_self (c sl : Nat) (f : Block → Block) :
    blockOf (modBlock s c sl f) c sl = (blockOf s c sl).map f := by simp [blockOf]
/-- A change of one block leaves every other block alone. -/
theorem blockOf_modBlock_ne {c sl d sm : Nat} (f : Block → Block) (h : ¬(c = d ∧ sl = sm)) :
    blockOf (modBlock s c sl f) d sm = blockOf s d sm := by
  by_cases hc : c = d
  · subst hc
    have : sl ≠ sm := fun e => h ⟨rfl, e⟩
    simp [blockOf, Table.get?_modify_ne _ f this]
  · simp [blockOf, coreOf_modBlock_ne s sl f hc]

@[simp] theorem sysOf_modCore (c : Nat) (f : Core → Core) (n : Nat) : sysOf (modCore s c f) n = sysOf s n := rfl
@[simp] theorem sysOf_modBlock (c sl : Nat) (f : Block → Block) (n : Nat) : sysOf (modBlock s c sl f) n = sysOf s n := rfl
@[simp] theorem coreOf_modSys (n : Nat) (f : SysCore → SysCore) (c : Nat) : coreOf (modSys s n f) c = coreOf s c := rfl
@[simp] theorem blockOf_modSys (n : Nat) (f : SysCore → SysCore) (c sl : Nat) :
    blockOf (modSys s n f) c sl = blockOf s c sl := rfl
@[simp] theorem coreOf_modIod (f : Iod → Iod) (c : Nat) : coreOf (modIod s f) c = coreOf s c := rfl
@[simp] theorem blockOf_modIod (f : Iod → Iod) (c sl : Nat) : blockOf (modIod s f) c sl = blockOf s c sl := rfl
@[simp] theorem sysOf_modIod (f : Iod → Iod) (n : Nat) : sysOf (modIod s f) n = sysOf s n := rfl
@[simp] theorem coreOf_emit (o : Out) (c : Nat) : coreOf (emit s o) c = coreOf s c := rfl
@[simp] theorem blockOf_emit (o : Out) (c sl : Nat) : blockOf (emit s o) c sl = blockOf s c sl := rfl
@[simp] theorem sysOf_emit (o : Out) (n : Nat) : sysOf (emit s o) n = sysOf s n := rfl

/-- A control context changed is the changed context. -/
@[simp] theorem ctlOf_modCtl_self (id : CtxId) (f : Ctl → Ctl) : ctlOf (modCtl s id f) id = (ctlOf s id).map f := by
  cases id with
  | blk c sl =>
    simp only [ctlOf, modCtl, blockOf_modBlock_self, Option.map_map]
    rfl
  | sup c => simp [ctlOf, modCtl]
  | sys n => simp [ctlOf, modCtl]

theorem ctlOf_modBlock_blk (c sl : Nat) (f : Block → Block) :
    ctlOf (modBlock s c sl f) (.blk c sl) = (blockOf s c sl).map fun b => (f b).exec.ctl := by
  simp [ctlOf, Function.comp_def]

/-- A supervisor context is no part of a block. -/
@[simp] theorem ctlOf_modBlock_sup (c sl d : Nat) (f : Block → Block) : ctlOf (modBlock s c sl f) (.sup d) = ctlOf s (.sup d) := by
  by_cases h : c = d
  · subst h; simp [ctlOf]
  · simp [ctlOf, coreOf_modBlock_ne s sl f h]
@[simp] theorem ctlOf_modBlock_sys (c sl n : Nat) (f : Block → Block) : ctlOf (modBlock s c sl f) (.sys n) = ctlOf s (.sys n) := rfl

end Sys2Proof.Machine
end

