-- ==== Sys2Proof/Laws/Stream.lean ====
section
/-! SUPPORT. What completing, waiting and leaving a bundle leave alone: everything of a block but its streams. -/

namespace Sys2Proof.Machine

/-- `b` and `b'` differ in their streams at most. -/
def Block.sameButExec (b b' : Block) : Prop := b' = { b with exec := b'.exec }

theorem Block.sameButExec_refl (b : Block) : b.sameButExec b := rfl
theorem Block.sameButExec_trans {a b c : Block} (h : a.sameButExec b) (k : b.sameButExec c) : a.sameButExec c := by
  unfold Block.sameButExec at *
  rw [k, h]
theorem Block.modExec_sameButExec (b : Block) (f : Exec → Exec) : b.sameButExec (b.modExec f) := rfl
theorem Block.modThreads_sameButExec (b : Block) (ts : List Nat) (f : Nat → Thread → Thread) :
    b.sameButExec (b.modThreads ts f) := rfl
theorem Block.modCtl_sameButExec (b : Block) (f : Ctl → Ctl) : b.sameButExec (b.modCtl f) := rfl
theorem Block.leave_sameButExec (b : Block) (ts : List Nat) (n : Nat) : b.sameButExec (b.leave ts n) := rfl

theorem Block.settleBundle_sameButExec (b : Block) (id n : Nat) : b.sameButExec (b.settleBundle id n) := by
  simp only [Block.settleBundle]
  repeat' split
  all_goals first
    | exact Block.sameButExec_refl b
    | exact Block.leave_sameButExec b _ _
    | exact Block.modExec_sameButExec b _

theorem Block.foldl_sameButExec {α : Type} (f : Block → α → Block) (hf : ∀ (b : Block) x, b.sameButExec (f b x)) (l : List α) (b : Block) :
    b.sameButExec (l.foldl f b) := by
  induction l generalizing b with
  | nil => exact b.sameButExec_refl
  | cons x r ih => exact Block.sameButExec_trans (hf b x) (ih (f b x))

theorem Block.settleAll_sameButExec (b : Block) (n : Nat) : b.sameButExec (b.settleAll n) :=
  Block.foldl_sameButExec (fun (b : Block) (u : Bundle) => b.settleBundle u.id n)
    (fun b u => Block.settleBundle_sameButExec b u.id n) b.exec.bundles b

/-- Completing leaves registers, memory and system registers of the block as they are. -/
theorem Block.completeWho_sameButExec (b : Block) (who : Nat) (tr : Bool) (e : Latch) (nx : VAddr) (n : Nat) :
    b.sameButExec (b.completeWho who tr e nx n) := by
  unfold Block.completeWho
  split
  · exact Block.sameButExec_trans (b.modThreads_sameButExec [who] _) (Block.settleAll_sameButExec _ n)
  · exact b.modCtl_sameButExec _

theorem Block.setWait_sameButExec (b : Block) (ts : List Nat) (k : Nat) : b.sameButExec (b.setWait ts k) := by
  unfold Block.setWait
  split
  · exact b.modThreads_sameButExec _ _
  · exact b.modCtl_sameButExec _

theorem Block.setBegun_sameButExec (b : Block) (ts : List Nat) (v : Bool) : b.sameButExec (b.setBegun ts v) := by
  unfold Block.setBegun
  split
  · exact b.modThreads_sameButExec _ _
  · exact b.modCtl_sameButExec _

/-- A stream that completes keeps its s registers and predicates. -/
@[simp] theorem Ctl.complete_sregs (c : Ctl) (tr : Bool) (e : Latch) (nx : VAddr) : (c.complete tr e nx).sregs = c.sregs := rfl
@[simp] theorem Ctl.complete_preds (c : Ctl) (tr : Bool) (e : Latch) (nx : VAddr) : (c.complete tr e nx).preds = c.preds := rfl
@[simp] theorem Ctl.complete_pc (c : Ctl) (tr : Bool) (e : Latch) (nx : VAddr) : (c.complete tr e nx).pc = nx := rfl
@[simp] theorem Ctl.complete_intr (c : Ctl) (tr : Bool) (e : Latch) (nx : VAddr) : (c.complete tr e nx).intr = c.intr := rfl
/-- A latch-transparent instruction pushes its entry and the chain keeps eight (R101). -/
theorem Ctl.complete_latches (c : Ctl) (tr : Bool) (e : Latch) (nx : VAddr) (h : c.pc.toNat / 128 = nx.toNat / 128) :
    (c.complete tr e nx).latches = shiftLatches c.latches tr e := by simp [Ctl.complete, h]

end Sys2Proof.Machine
end

