-- ==== Sys2Proof/Laws/Operands.lean ====
section
/-! SUPPORT. What entering, counting and completing an instruction do, said once: an instruction whose operands are there
goes to its effect (`start_enters`), completing changes no register and no memory (`finish_keeps`). -/

namespace Sys2Proof.Machine

/-! ## The stream's own registers -/

/-- The registers, predicates and system registers of a stream's place are as before. -/
structure Cx.RegsSame (cx : Cx) (s t : State) : Prop where
  mem : cx.mem t = cx.mem s
  regs : cx.regs t = cx.regs s
  sregs : cx.kind ≠ .T → (cx.ctl t).sregs = (cx.ctl s).sregs
  preds : cx.kind ≠ .T → (cx.ctl t).preds = (cx.ctl s).preds

theorem Cx.RegsSame.refl (cx : Cx) (s : State) : cx.RegsSame s s := ⟨rfl, rfl, fun _ => rfl, fun _ => rfl⟩
theorem Cx.RegsSame.trans {cx : Cx} {s t u : State} (h : cx.RegsSame s t) (k : cx.RegsSame t u) : cx.RegsSame s u :=
  ⟨k.mem.trans h.mem, k.regs.trans h.regs, fun n => (k.sregs n).trans (h.sregs n), fun n => (k.preds n).trans (h.preds n)⟩

theorem Cx.Keeps.refl (cx : Cx) (s : State) : cx.Keeps s s := by constructor <;> intros <;> rfl

theorem Cx.Keeps.trans {cx : Cx} {s t u : State} (h : cx.Keeps s t) (k : cx.Keeps t u) : cx.Keeps s u where
  package := by
    have e : { u with cores := s.cores, sys := s.sys, pending := s.pending } =
        { { u with cores := t.cores, sys := t.sys, pending := t.pending } with
          cores := s.cores, sys := s.sys, pending := s.pending } := rfl
    rw [e, k.package, h.package]
  cores d := by
    have e : { coreOf u d with slots := (coreOf s d).slots, sup := (coreOf s d).sup } =
        { { coreOf u d with slots := (coreOf t d).slots, sup := (coreOf t d).sup } with
          slots := (coreOf s d).slots, sup := (coreOf s d).sup } := rfl
    rw [e, k.cores, h.cores]
  blocks d sm hd := (k.blocks d sm hd).trans (h.blocks d sm hd)
  sups d hd := (k.sups d hd).trans (h.sups d hd)
  syss n hn := (k.syss n hn).trans (h.syss n hn)
  ownSys n := by
    have e : { sysOf u n with ctl := (sysOf s n).ctl, retired := (sysOf s n).retired } =
        { { sysOf u n with ctl := (sysOf t n).ctl, retired := (sysOf t n).retired } with
          ctl := (sysOf s n).ctl, retired := (sysOf s n).retired } := rfl
    rw [e, k.ownSys, h.ownSys]
  ownBlk := k.ownBlk.trans h.ownBlk
  ownMem := k.ownMem.trans h.ownMem
  ownRegs := k.ownRegs.trans h.ownRegs
  ownIntr := k.ownIntr.trans h.ownIntr
  ownHandler := k.ownHandler.trans h.ownHandler

/-- What a change of a block may change for `Keeps`. -/
structure Block.Progress (cx : Cx) (b b' : Block) : Prop where
  rest : ({ b' with exec := {}, mem := {}, regs := {}, charges := {}, meters := [] } : Block) =
    { b with exec := {}, mem := {}, regs := {}, charges := {}, meters := [] }
  mem : ({ b'.mem with rows := [], rowPoison := [], preds := [] } : BlkMem) = { b.mem with rows := [], rowPoison := [], preds := [] }
  regs : ({ b'.regs with fstat := 0 } : BlkRegs) = { b.regs with fstat := 0 }
  intr : b'.exec.ctl.intr = b.exec.ctl.intr
  handler : b'.exec.ctl.handler = b.exec.ctl.handler

/-- A change of the stream's own block. -/
theorem Cx.Keeps.modBlock {cx : Cx} {c sl : Nat} (hid : cx.id = .blk c sl) (s : State) (f : Block → Block)
    (hf : ∀ b, Block.Progress cx b (f b)) : cx.Keeps s (modBlock s c sl f) where
  package := rfl
  cores d := by
    by_cases h : c = d
    · subst h; simp
    · simp [coreOf_modBlock_ne s sl f h]
  blocks d sm hd := by
    refine blockOf_modBlock_ne s f fun h => hd ?_
    rw [hid, h.1, h.2]
  sups d _ := by
    by_cases h : c = d
    · subst h; simp
    · simp [coreOf_modBlock_ne s sl f h]
  syss _ _ := rfl
  ownSys _ := rfl
  ownBlk := by
    simp only [Cx.blk, hid, blockOf_modBlock_self, Option.map_map]
    exact congrArg (fun g => Option.map g (blockOf s c sl)) (funext fun b => (hf b).rest)
  ownMem := by
    simp only [Cx.mem, Cx.blk, hid, blockOf_modBlock_self]
    cases blockOf s c sl with
    | none => rfl
    | some b => exact (hf b).mem
  ownRegs := by
    simp only [Cx.regs, Cx.blk, hid, blockOf_modBlock_self]
    cases blockOf s c sl with
    | none => rfl
    | some b => exact (hf b).regs
  ownIntr := by
    simp only [Cx.ctl, hid, ctlOf, blockOf_modBlock_self, Option.map_map]
    cases blockOf s c sl with
    | none => rfl
    | some b => exact (hf b).intr
  ownHandler := by
    simp only [Cx.ctl, hid, ctlOf, blockOf_modBlock_self, Option.map_map]
    cases blockOf s c sl with
    | none => rfl
    | some b => exact (hf b).handler

/-- A change of the stream's own control context that keeps its interrupt side and handler state. -/
theorem Cx.Keeps.modCtl (cx : Cx) (s : State) (f : Ctl → Ctl) (hi : ∀ c, (f c).intr = c.intr) (hh : ∀ c, (f c).handler = c.handler) :
    cx.Keeps s (modCtl s cx.id f) := by
  obtain ⟨id, kind, acts, pc, line⟩ := cx
  cases id with
  | blk c sl => exact Cx.Keeps.modBlock rfl s _ fun b => ⟨rfl, rfl, rfl, hi _, hh _⟩
  | sup c =>
    constructor
    · rfl
    · intro d
      by_cases h : c = d
      · subst h; simp [Machine.modCtl]
      · simp [Machine.modCtl, coreOf_modCore_ne s _ h]
    · intro d sm _
      by_cases h : c = d
      · subst h; simp [Machine.modCtl, blockOf]
      · simp [Machine.modCtl, blockOf, coreOf_modCore_ne s _ h]
    · intro d hd
      have h : c ≠ d := fun h => hd (by rw [h])
      simp [Machine.modCtl, coreOf_modCore_ne s _ h]
    all_goals simp [Machine.modCtl, Cx.blk, Cx.mem, Cx.regs, Cx.ctl, ctlOf, hi, hh]
  | sys n =>
    constructor
    · rfl
    · intro d; rfl
    · intro d sm _; rfl
    · intro d _; rfl
    · intro m hm
      exact sysOf_modSys_ne s _ fun h => hm (by rw [h])
    · intro m
      by_cases h : n = m
      · subst h; simp [Machine.modCtl]
      · simp [Machine.modCtl, sysOf_modSys_ne s _ h]
    all_goals simp [Machine.modCtl, Cx.blk, Cx.mem, Cx.regs, Cx.ctl, ctlOf, hi, hh]

/-- A change of a block that keeps registers and control stream keeps the view of the stream's place. -/
theorem Cx.RegsSame.modBlock (cx : Cx) (s : State) (c sl : Nat) (f : Block → Block)
    (hm : ∀ b, (f b).mem = b.mem) (hr : ∀ b, (f b).regs = b.regs)
    (hc : cx.kind ≠ .T → ∀ b, (f b).exec.ctl.sregs = b.exec.ctl.sregs ∧ (f b).exec.ctl.preds = b.exec.ctl.preds) :
    cx.RegsSame s (modBlock s c sl f) := by
  obtain ⟨id, kind, acts, pc, line⟩ := cx
  cases id with
  | sup d => constructor <;> simp [Cx.mem, Cx.regs, Cx.ctl, Cx.blk]
  | sys n => constructor <;> simp [Cx.mem, Cx.regs, Cx.ctl, Cx.blk]
  | blk d sm =>
    by_cases h : c = d ∧ sl = sm
    · obtain ⟨rfl, rfl⟩ := h
      cases hb : blockOf s c sl with
      | none => constructor <;> simp [Cx.mem, Cx.regs, Cx.ctl, Cx.blk, ctlOf, hb]
      | some b =>
        constructor
        · simp [Cx.mem, Cx.blk, hb, hm]
        · simp [Cx.regs, Cx.blk, hb, hr]
        · intro n; simpa [Cx.ctl, ctlOf, hb] using (hc n b).1
        · intro n; simpa [Cx.ctl, ctlOf, hb] using (hc n b).2
    · constructor <;> simp [Cx.mem, Cx.regs, Cx.ctl, Cx.blk, ctlOf, blockOf_modBlock_ne s f h]

/-- A change of the stream's control context that keeps s registers and predicates. -/
theorem Cx.RegsSame.modCtl (cx : Cx) (s : State) (f : Ctl → Ctl) (hs : ∀ c, (f c).sregs = c.sregs) (hp : ∀ c, (f c).preds = c.preds) :
    cx.RegsSame s (modCtl s cx.id f) := by
  obtain ⟨id, kind, acts, pc, line⟩ := cx
  cases id with
  | blk c sl => exact Cx.RegsSame.modBlock _ s c sl _ (fun _ => rfl) (fun _ => rfl) fun _ b => ⟨hs _, hp _⟩
  | sup c => constructor <;> simp [Cx.mem, Cx.regs, Cx.ctl, Cx.blk, Machine.modCtl, ctlOf, hs, hp]
  | sys n => constructor <;> simp [Cx.mem, Cx.regs, Cx.ctl, Cx.blk, Machine.modCtl, ctlOf, hs, hp]

/-! ## Counting -/

theorem Cx.count_keeps (cx : Cx) (s : State) (payload : Bool) (beats n : Nat) :
    cx.RegsSame s (cx.count s payload beats n) ∧ cx.Keeps s (cx.count s payload beats n) := by
  unfold Cx.count
  split
  · rename_i hid
    constructor
    · refine Cx.RegsSame.trans (Cx.RegsSame.trans (Cx.RegsSame.modBlock cx _ _ _ _ ?_ ?_ ?_)
        (Cx.RegsSame.modBlock cx _ _ _ _ ?_ ?_ ?_)) (Cx.RegsSame.modBlock cx _ _ _ _ ?_ ?_ ?_)
      all_goals first
        | exact fun _ => rfl
        | exact fun _ _ => ⟨rfl, rfl⟩
    · refine Cx.Keeps.trans (Cx.Keeps.trans (Cx.Keeps.modBlock hid _ _ fun b => ?_) (Cx.Keeps.modBlock hid _ _ fun b => ?_))
        (Cx.Keeps.modBlock hid _ _ fun b => ?_)
      all_goals exact ⟨rfl, rfl, rfl, rfl, rfl⟩
  · exact ⟨Cx.RegsSame.refl cx s, Cx.Keeps.refl cx s⟩

theorem Cx.countMma_keeps (cx : Cx) (s : State) (beats n : Nat) :
    cx.RegsSame s (cx.countMma s beats n) ∧ cx.Keeps s (cx.countMma s beats n) := by
  unfold Cx.countMma
  split
  · rename_i hid
    constructor
    · refine Cx.RegsSame.trans (Cx.RegsSame.modBlock cx _ _ _ _ ?_ ?_ ?_) (Cx.RegsSame.modBlock cx _ _ _ _ ?_ ?_ ?_)
      all_goals first
        | exact fun _ => rfl
        | exact fun _ _ => ⟨rfl, rfl⟩
    · refine Cx.Keeps.trans (Cx.Keeps.modBlock hid _ _ fun b => ?_) (Cx.Keeps.modBlock hid _ _ fun b => ?_)
      all_goals exact ⟨rfl, rfl, rfl, rfl, rfl⟩
  · exact ⟨Cx.RegsSame.refl cx s, Cx.Keeps.refl cx s⟩

/-! ## Completing -/

theorem Block.sameButExec.mem_eq {b b' : Block} (h : b.sameButExec b') : b'.mem = b.mem := by rw [h]
theorem Block.sameButExec.regs_eq {b b' : Block} (h : b.sameButExec b') : b'.regs = b.regs := by rw [h]

theorem Cx.retire_keeps (cx : Cx) (s : State) : cx.RegsSame s (cx.retire s) ∧ cx.Keeps s (cx.retire s) := by
  obtain ⟨id, kind, acts, pc, line⟩ := cx
  cases id with
  | sys n =>
    constructor
    · constructor <;> simp [Cx.retire, Cx.mem, Cx.regs, Cx.ctl, Cx.blk, ctlOf]
    · constructor
      · rfl
      · intro d; rfl
      · intro d sm _; rfl
      · intro d _; rfl
      · intro m hm
        exact sysOf_modSys_ne s _ fun h => hm (by rw [h])
      · intro m
        by_cases h : n = m
        · subst h; simp [Cx.retire]
        · simp [Cx.retire, sysOf_modSys_ne s _ h]
      all_goals simp [Cx.retire, Cx.blk, Cx.mem, Cx.regs, Cx.ctl, ctlOf]
  | blk c sl => exact ⟨Cx.RegsSame.refl _ s, Cx.Keeps.refl _ s⟩
  | sup c => exact ⟨Cx.RegsSame.refl _ s, Cx.Keeps.refl _ s⟩

/-- Threads that complete: their block changes in its streams alone. -/
theorem Block.completeThreads_sameButExec (b : Block) (who : List Nat) (tr : Bool) (e : Nat → Latch) (nx : VAddr) (n : Nat) :
    b.sameButExec ((who.foldl (fun b t => b.completeThread t tr (e t) nx) b).settleAll n) :=
  Block.sameButExec_trans (Block.foldl_sameButExec (fun (b : Block) (t : Nat) => b.completeThread t tr (e t) nx)
    (fun b t => b.modThreads_sameButExec [t] _) who b) (Block.settleAll_sameButExec _ n)

/-! ### The control stream of a threaded block -/

theorem Block.settleBundle_ctl (b : Block) (id n : Nat) : (b.settleBundle id n).exec.ctl = b.exec.ctl := by
  simp only [Block.settleBundle]
  repeat' split
  all_goals rfl

theorem Block.settleAll_ctl (b : Block) (n : Nat) : (b.settleAll n).exec.ctl = b.exec.ctl := by
  unfold Block.settleAll
  generalize b.exec.bundles = l
  induction l generalizing b with
  | nil => rfl
  | cons u r ih => rw [List.foldl_cons, ih, Block.settleBundle_ctl]

theorem Block.completeThreads_ctl (b : Block) (who : List Nat) (tr : Bool) (e : Nat → Latch) (nx : VAddr) (n : Nat) :
    ((who.foldl (fun b t => b.completeThread t tr (e t) nx) b).settleAll n).exec.ctl = b.exec.ctl := by
  rw [Block.settleAll_ctl]
  induction who generalizing b with
  | nil => rfl
  | cons t r ih => rw [List.foldl_cons, ih]; rfl

/-- Completing an instruction changes no register, predicate or system register of the stream's place, and nothing
outside it. -/
theorem Cx.finish_keeps (cx : Cx) (s : State) (d : Dec) (who : List Nat) (e : Nat → Latch)
    (h : (fallNext cx.line cx.pc d.len).2 = false) :
    cx.RegsSame s (cx.finish s d who e) ∧ cx.Keeps s (cx.finish s d who e) := by
  unfold Cx.finish
  by_cases hw : who.isEmpty
  · rw [if_pos hw]; exact ⟨Cx.RegsSame.refl cx s, Cx.Keeps.refl cx s⟩
  · rw [if_neg hw]
    have hr := cx.retire_keeps s
    simp only [h, Bool.false_eq_true, if_false]
    split
    · rename_i c sl hid
      split
      · rename_i hT
        refine ⟨hr.1.trans (Cx.RegsSame.modBlock cx _ _ _ _ ?_ ?_ ?_), hr.2.trans (Cx.Keeps.modBlock hid _ _ ?_)⟩
        · exact fun b => (b.completeThreads_sameButExec who _ e _ _).mem_eq
        · exact fun b => (b.completeThreads_sameButExec who _ e _ _).regs_eq
        · exact fun n => absurd (by simpa [Cx.isT] using hT) n
        · intro b
          have hb := b.completeThreads_sameButExec who d.transparent e (fallNext cx.line cx.pc d.len).1 (cx.retire s).cycle
          have hc := b.completeThreads_ctl who d.transparent e (fallNext cx.line cx.pc d.len).1 (cx.retire s).cycle
          refine ⟨?_, ?_, ?_, ?_, ?_⟩
          · rw [hb]
          · rw [hb.mem_eq]
          · rw [hb.regs_eq]
          · rw [hc]
          · rw [hc]
      · have hk := Cx.Keeps.modCtl cx (cx.retire s) (fun c => c.complete d.transparent (e 0) (fallNext cx.line cx.pc d.len).1)
          (fun _ => rfl) fun _ => rfl
        exact ⟨hr.1.trans (Cx.RegsSame.modCtl cx _ _ (fun _ => rfl) fun _ => rfl), hr.2.trans hk⟩
    · exact ⟨hr.1.trans (Cx.RegsSame.modCtl cx _ _ (fun _ => rfl) fun _ => rfl),
        hr.2.trans (Cx.Keeps.modCtl cx _ _ (fun _ => rfl) fun _ => rfl)⟩

/-! ## Entering -/

theorem Cx.raise_nil (cx : Cx) (s : State) (srcs : List Src) (t : TrapInfo) (hid : ∃ c sl, cx.id = .blk c sl) :
    cx.raise s srcs t [] = s := by
  obtain ⟨c, sl, hid⟩ := hid
  unfold Cx.raise
  simp only [hid]
  split <;> simp_all

/-- A stream of kind T is a bundle of a block. -/
theorem cxOf_T {s : State} {cx : Cx} (h : cxOf s = some cx) (hT : cx.kind = .T) : ∃ c sl, cx.id = .blk c sl := by
  unfold cxOf at h
  split at h
  · rename_i c sl n _
    cases hb : blockOf s c sl with
    | none => simp [hb] at h
    | some b =>
      simp only [hb, Option.bind_some] at h
      split at h
      · exact absurd h (by simp)
      · cases hu : b.exec.bundles.find? (·.id == n) with
        | none => simp [hu] at h
        | some u => simp [hu] at h; exact ⟨c, sl, by rw [← h]⟩
  · rename_i c sl _
    cases hb : blockOf s c sl with
    | none => simp [hb] at h
    | some b =>
      simp only [hb, Option.bind_some] at h
      split at h
      · exact absurd h (by simp)
      · simp at h; exact ⟨c, sl, by rw [← h]⟩
  · simp at h; rw [← h] at hT; simp at hT
  · simp at h; rw [← h] at hT; simp at hT

/-- `Cx.count` or `Cx.countMma`, unless the streams have begun the instruction before (R79). -/
def Cx.counted (cx : Cx) (s : State) (d : Dec) (n : Nat) : State :=
  if cx.begun s then s else if d.matrix then cx.countMma s (cx.beats s d) n else cx.count s d.payload (cx.beats s d) n

theorem Cx.counted_keeps (cx : Cx) (s : State) (d : Dec) (n : Nat) :
    cx.RegsSame s (cx.counted s d n) ∧ cx.Keeps s (cx.counted s d n) := by
  unfold Cx.counted
  split
  · exact ⟨Cx.RegsSame.refl cx s, Cx.Keeps.refl cx s⟩
  · split
    · exact cx.countMma_keeps s _ _
    · exact cx.count_keeps s _ _ _

theorem reads_good (f : Nat × LaneRd → Option (Nat × List Nat)) (hf : ∀ a l, f (a, .vals l) = some (a, l))
    (rs : List (Nat × List Nat)) : (rs.map fun r => (r.1, LaneRd.vals r.2)).filterMap f = rs := by
  induction rs with
  | nil => rfl
  | cons r q ih => simp [ih, hf]

theorem reads_none (rs : List (Nat × List Nat)) (x : LaneRd) (hx : ∀ l, x ≠ .vals l) :
    ((rs.map fun r => (r.1, LaneRd.vals r.2)).filter fun r => r.2 == x) = [] := by
  induction rs with
  | nil => rfl
  | cons r q ih => simp [ih, (hx r.2).symm]

theorem reads_noPend (rs : List (Nat × List Nat)) :
    ((rs.map fun r => (r.1, LaneRd.vals r.2)).any fun r => r.2 == .pend) = false := by
  induction rs with
  | nil => rfl
  | cons r q ih => simp

/-- An instruction that enters goes to its effect on the acting lanes' operands; a control stream whose guard is false
completes it (R109). Up to there no register and nothing outside the stream's place has changed. -/
theorem Cx.start_enters {s : State} {cx : Cx} {d : Dec} {rs : List (Nat × List Nat)} (he : Enters s cx d rs)
    (k : State → List (Nat × List Nat) → State) :
    ∃ s', (cx.start s d k = k s' rs ∨ (rs = [] ∧ cx.start s d k = s')) ∧ cx.RegsSame s s' ∧ cx.Keeps s s' := by
  simp only [Cx.start, he.legal]
  rw [he.reads, reads_good _ ?_ rs, reads_none _ _ (by simp), reads_none _ _ (by simp), reads_noPend]
  swap
  · exact fun _ _ => rfl
  simp only [List.map_nil, List.isEmpty_nil, Bool.not_true, Bool.false_eq_true, if_false]
  have hc := cx.counted_keeps s d rs.length
  by_cases hT : cx.isT = true
  · obtain ⟨c, sl, hid⟩ := cxOf_T he.here (by simpa [Cx.isT] using hT)
    rw [if_pos hT]
    simp only [Cx.raise_nil cx _ _ _ ⟨c, sl, hid⟩]
    have hf := cx.finish_keeps (cx.counted s d rs.length) d
      (cx.acts.filter fun t => !((cx.lanes s d).filter fun l => cx.pbit s d.p.grd.toNat l).contains t) (fun _ => {}) he.goes
    exact ⟨_, .inl rfl, hc.1.trans hf.1, hc.2.trans hf.2⟩
  · rw [if_neg hT]
    have hl : (d.srcs.mapIdx (fun i x => 64 ≤ x.n && x.n < 72 && cx.read s d.imm i 0 x == .inval)).any (· == true) = false := by
      rw [List.any_eq_false]
      intro b hb
      obtain ⟨i, hi, rfl⟩ := List.mem_mapIdx.mp hb
      have := he.latches (by simpa using hT) i (d.srcs[i]) (by simp [hi])
      by_cases h1 : 64 ≤ (d.srcs[i]).n <;> by_cases h2 : (d.srcs[i]).n < 72 <;> simp_all [isLatchSpec]
    rw [hl]
    simp only [Bool.false_eq_true, if_false]
    split
    · rename_i hemp
      have hrs : rs = [] := by
        have h0 := he.reads
        have : (cx.lanes s d).filter (fun l => cx.pbit s d.p.grd.toNat l) = [] := by
          simp at hemp; simpa using hemp.1
        rw [this] at h0
        simpa using h0.symm
      have hf := cx.finish_keeps (cx.counted s d rs.length) d [0] (fun _ => {}) he.goes
      exact ⟨_, .inr ⟨hrs, rfl⟩, hc.1.trans hf.1, hc.2.trans hf.2⟩
    · exact ⟨_, .inl rfl, hc⟩

/-- Everything the operand reads of an instruction that enters say. -/
theorem Enters.mem_reads {s : State} {cx : Cx} {d : Dec} {rs : List (Nat × List Nat)} (he : Enters s cx d rs) :
    ∀ r ∈ ((cx.lanes s d).filter fun l => cx.pbit s d.p.grd.toNat l).map (fun l => (l, cx.readLane s d.imm d.srcs l)),
      ∃ l, r.2 = .vals l := by
  intro r hr
  rw [he.reads] at hr
  obtain ⟨x, _, rfl⟩ := List.mem_map.mp hr
  exact ⟨x.2, rfl⟩

end Sys2Proof.Machine
end

