-- ==== Sys2Proof/Laws/Results.lean ====
section
/-! SUPPORT. What a result does (R97, R123): its register reads as the value, every other register and every predicate
reads as before (`result_writes`). -/

namespace Sys2Proof.Machine

/-! ## One register written in several lanes -/

theorem BlkMem.setRow_get (m : BlkMem) (k j : Nat) (v : W32) (bad : Bool) :
    Store.get (m.setRow k v bad).rows j = if k = j then v else Store.get m.rows j := by
  simp [BlkMem.setRow, Store.get_set]

theorem BlkMem.setRow_rest (m : BlkMem) (k : Nat) (v : W32) (bad : Bool) :
    ({ m.setRow k v bad with rows := [], rowPoison := [] } : BlkMem) = { m with rows := [], rowPoison := [] } := rfl

/-- The keys a result writes, with the words written there. -/
def LoadForm.words (f : LoadForm) (rs : List (Nat × Nat)) : List (Nat × W32) :=
  rs.flatMap fun r => (f.keysOf r.1).mapIdx fun i k => (k, BitVec.ofNat 32 (r.2 / 2 ^ (32 * i)))

theorem foldl_setRow_get (ws : List (Nat × W32)) (m : BlkMem) (bad : Bool) (j : Nat) :
    Store.get (ws.foldl (fun m w => m.setRow w.1 w.2 bad) m).rows j =
      ((ws.filter fun w => w.1 == j).getLast?.map (·.2)).getD (Store.get m.rows j) := by
  induction ws generalizing m with
  | nil => simp
  | cons w r ih =>
    rw [List.foldl_cons, ih, BlkMem.setRow_get]
    by_cases h : w.1 = j
    · subst h
      cases hr : r.filter (fun x => x.1 == w.1) with
      | nil => simp [hr]
      | cons a b => simp [hr, List.getLast?_eq_some_getLast]
    · simp [h]

theorem putLanes_eq (m : BlkMem) (f : LoadForm) (rs : List (Nat × Nat)) (bad : Bool) :
    putLanes m f rs bad = (f.words rs).foldl (fun m w => m.setRow w.1 w.2 bad) m := by
  unfold putLanes LoadForm.words
  induction rs generalizing m with
  | nil => rfl
  | cons r q ih =>
    rw [List.foldl_cons, List.flatMap_cons, List.foldl_append, ih]
    congr 1
    simp only [List.mapIdx_eq_zipIdx_map, List.foldl_map]

theorem foldl_setRow_rest (ws : List (Nat × W32)) (m : BlkMem) (bad : Bool) :
    ({ ws.foldl (fun m w => m.setRow w.1 w.2 bad) m with rows := [], rowPoison := [] } : BlkMem) =
      { m with rows := [], rowPoison := [] } := by
  induction ws generalizing m with
  | nil => rfl
  | cons w r ih => rw [List.foldl_cons, ih]; rfl

theorem putLanes_rest (m : BlkMem) (f : LoadForm) (rs : List (Nat × Nat)) (bad : Bool) :
    ({ putLanes m f rs bad with rows := [], rowPoison := [] } : BlkMem) = { m with rows := [], rowPoison := [] } := by
  rw [putLanes_eq]; exact foldl_setRow_rest _ _ _

theorem putLanes_preds (m : BlkMem) (f : LoadForm) (rs : List (Nat × Nat)) (bad : Bool) : (putLanes m f rs bad).preds = m.preds := by
  rw [putLanes_eq]
  generalize f.words rs = ws
  induction ws generalizing m with
  | nil => rfl
  | cons w r ih => rw [List.foldl_cons, ih]; rfl

/-- Values by lane that agree where lanes agree. -/
def Single (rs : List (Nat × Nat)) : Prop := ∀ a ∈ rs, ∀ b ∈ rs, a.1 = b.1 → a.2 = b.2

/-- A key none of the words names reads as before. -/
theorem putLanes_other (m : BlkMem) (f : LoadForm) (rs : List (Nat × Nat)) (bad : Bool) (j : Nat)
    (h : ∀ r ∈ rs, j ∉ f.keysOf r.1) : Store.get (putLanes m f rs bad).rows j = Store.get m.rows j := by
  rw [putLanes_eq, foldl_setRow_get]
  have : (f.words rs).filter (fun w => w.1 == j) = [] := by
    rw [List.filter_eq_nil_iff]
    intro w hw
    obtain ⟨r, hr, hw⟩ := List.mem_flatMap.mp hw
    obtain ⟨i, hi, rfl⟩ := List.mem_mapIdx.mp hw
    have := h r hr
    simp only [beq_iff_eq]
    intro e
    exact this (e ▸ List.getElem_mem hi)
  rw [this]; rfl

/-- A one-word register of a lane that has a value reads as that value. -/
theorem putLanes_self (m : BlkMem) (f : LoadForm) (rs : List (Nat × Nat)) (bad : Bool) (key : Nat → Nat)
    (hk : ∀ l, f.keysOf l = [key l]) (inj : ∀ a b, key a = key b → a = b) (h1 : Single rs) {r : Nat × Nat} (hr : r ∈ rs) :
    Store.get (putLanes m f rs bad).rows (key r.1) = BitVec.ofNat 32 r.2 := by
  rw [putLanes_eq, foldl_setRow_get]
  have hw : ∀ w ∈ (f.words rs).filter (fun w => w.1 == key r.1), w.2 = BitVec.ofNat 32 r.2 := by
    intro w hw
    obtain ⟨hw, he⟩ := List.mem_filter.mp hw
    obtain ⟨q, hq, hw⟩ := List.mem_flatMap.mp hw
    rw [hk] at hw
    simp at hw
    subst hw
    have : q.1 = r.1 := inj _ _ (by simpa using he)
    rw [h1 q hq r hr this]
  have hne : (f.words rs).filter (fun w => w.1 == key r.1) ≠ [] := by
    rw [Ne, List.filter_eq_nil_iff]
    intro h
    refine h (key r.1, BitVec.ofNat 32 r.2) (List.mem_flatMap.mpr ⟨r, hr, ?_⟩) (by simp)
    rw [hk]; simp
  rw [List.getLast?_eq_some_getLast hne]
  exact hw _ (List.getLast_mem hne)

/-! ## The registers of a block and of a control stream after a write -/

theorem Cx.killKeys_keeps (cx : Cx) (s : State) (id : CtxId) (ks : List Nat) :
    cx.RegsSame s (killKeys s id ks) ∧ cx.Keeps s (killKeys s id ks) := by
  obtain ⟨i, kind, acts, pc, line⟩ := cx
  cases i <;> exact ⟨⟨rfl, rfl, fun _ => rfl, fun _ => rfl⟩, ⟨rfl, fun _ => rfl, fun _ _ _ => rfl, fun _ _ => rfl, fun _ _ => rfl, fun _ => rfl, rfl, rfl, rfl, rfl, rfl⟩⟩

theorem Ctl.foldl_setS (rs : List (Nat × Nat)) (c : Ctl) (n : Nat) (bad : Bool) :
    let c' := rs.foldl (fun c r => c.setS n (BitVec.ofNat 64 r.2) bad) c
    c'.intr = c.intr ∧ c'.handler = c.handler ∧ c'.preds = c.preds ∧
      ∀ m, c'.s m = if m = n then ((rs.getLast?).map fun r => BitVec.ofNat 64 r.2).getD (c.s n) else c.s m := by
  induction rs generalizing c with
  | nil => simp only [List.foldl_nil]; refine ⟨trivial, trivial, trivial, fun m => ?_⟩; split <;> simp_all
  | cons r q ih =>
    have := ih (c.setS n (BitVec.ofNat 64 r.2) bad)
    refine ⟨this.1.trans rfl, this.2.1.trans rfl, this.2.2.1.trans rfl, fun m => ?_⟩
    rw [List.foldl_cons, this.2.2.2 m]
    by_cases h : m = n
    · subst h
      cases q with
      | nil => simp [Ctl.setS, Ctl.s]
      | cons a b => simp [List.getLast?_eq_some_getLast]
    · simp [h, Ctl.setS, Ctl.s, Store.get_set_ne _ _ (Ne.symm h)]

/-! ## The stream's place -/

/-- The stream's place exists, and is of the stream's kind. -/
structure Cx.Placed (cx : Cx) (s : State) : Prop where
  block : cx.kind = .T ∨ cx.kind = .V ∨ cx.kind = .S → ∃ c sl b, cx.id = .blk c sl ∧ blockOf s c sl = some b
  sup : cx.kind = .K → ∃ c, cx.id = .sup c
  sys : cx.kind = .Y → ∃ n, cx.id = .sys n

theorem Model.kind_block (m : Model) : m.kind ≠ .K ∧ m.kind ≠ .Y := by cases m <;> simp [Model.kind]

theorem cxOf_placed {s : State} {cx : Cx} (h : cxOf s = some cx) : cx.Placed s := by
  unfold cxOf at h
  split at h
  · rename_i c sl n _
    cases hb : blockOf s c sl with
    | none => simp [hb] at h
    | some b =>
      simp only [hb, Option.bind_some] at h
      split at h
      · exact absurd h (by simp)
      · cases hu : b.exec.bundles.find? (·.id == n) with
        | none => simp [hu] at h
        | some u =>
          simp [hu] at h
          subst h
          exact ⟨fun _ => ⟨c, sl, b, rfl, hb⟩, by simp, by simp⟩
  · rename_i c sl _
    cases hb : blockOf s c sl with
    | none => simp [hb] at h
    | some b =>
      simp only [hb, Option.bind_some] at h
      split at h
      · exact absurd h (by simp)
      simp at h
      subst h
      exact ⟨fun _ => ⟨c, sl, b, rfl, hb⟩, fun h => absurd h b.exec.model.kind_block.1, fun h => absurd h b.exec.model.kind_block.2⟩
  · rename_i c _
    simp at h; subst h
    exact ⟨by simp, fun _ => ⟨c, rfl⟩, by simp⟩
  · rename_i n _
    simp at h; subst h
    exact ⟨by simp, by simp, fun _ => ⟨n, rfl⟩⟩

theorem Cx.Placed.keep {cx : Cx} {s t : State} (h : cx.Placed s) (k : cx.Keeps s t) : cx.Placed t := by
  refine ⟨fun hk => ?_, h.sup, h.sys⟩
  obtain ⟨c, sl, b, hid, hb⟩ := h.block hk
  have := k.ownBlk
  simp only [Cx.blk, hid, hb, Option.map_some] at this
  cases ht : blockOf t c sl with
  | none => simp [ht] at this
  | some x => exact ⟨c, sl, x, hid, ht⟩

/-! ## Results -/

theorem Cx.RegsSame.reg {cx : Cx} {s t : State} (h : cx.RegsSame s t) {c : Cls} (hc : cx.kind.has c = true) (m l : Nat) :
    cx.reg t c m l = cx.reg s c m l := by
  cases c with
  | g => simp [Cx.reg, h.mem]
  | v => simp [Cx.reg, h.mem]
  | s =>
    have : cx.kind ≠ .T := by rintro e; rw [e] at hc; simp [Kind.has] at hc
    simp [Cx.reg, Ctl.s, h.sregs this]

theorem Cx.RegsSame.pbit {cx : Cx} {s t : State} (h : cx.RegsSame s t) (m i : Nat) : cx.pbit t m i = cx.pbit s m i := by
  unfold Cx.pbit
  split
  · rename_i e; rw [h.preds (by rw [e]; simp)]
  · rename_i e; rw [h.preds (by rw [e]; simp)]
  · rw [h.mem]

/-- Registers that do not change keep a `Writes`. -/
theorem Cx.Writes.mono {cx : Cx} {s s' t t' : State} {cls : Cls} {n : Nat} {nwb : Bool} {vals : List (Nat × Nat)}
    (h : cx.Writes s' t cls n nwb vals) (hc : cx.kind.has cls = true) (h1 : cx.RegsSame s s') (h2 : cx.RegsSame t t') :
    cx.Writes s t' cls n nwb vals where
  written hn r hr := (h2.reg hc n r.1).trans (h.written hn r hr)
  others c m l hk hm hl ho := (h2.reg hk m l).trans ((h.others c m l hk hm hl ho).trans (h1.reg hk m l))
  preds m i := (h2.pbit m i).trans ((h.preds m i).trans (h1.pbit m i))

theorem gKey_inj {a b m n : Nat} (hm : m < 64) (hn : n < 64) (h : gKey a m = gKey b n) : a = b ∧ m = n := by
  unfold gKey at h; omega
theorem vKey_inj {a b m n : Nat} (ha : a < 256) (hb : b < 256) (h : vKey m a = vKey n b) : m = n ∧ a = b := by
  unfold vKey at h; omega

/-- Where a result's words go: the g, s or v register DREG of each lane. -/
theorem Cx.put_writes {cx : Cx} {s : State} (hp : cx.Placed s) {cls : Cls} (hc : cx.kind.has cls = true) (f : LoadForm)
    (hf : f.cls = cls) (hw : f.wid = if cls == .s then 8 else 4) (hd : f.dreg < 64) (rs : List (Nat × Nat)) (h1 : Single rs)
    (hs : cls = .s → ∀ a ∈ rs, ∀ b ∈ rs, a = b)
    (hl : cls = .v → ∀ r ∈ rs, r.1 < 256) :
    cx.Writes s (cx.put s f rs) cls f.dreg f.nwb rs ∧ cx.Keeps s (cx.put s f rs) ∧ cx.regs (cx.put s f rs) = cx.regs s := by
  have hk := cx.killKeys_keeps s cx.id (rs.flatMap fun r => f.keysOf r.1)
  unfold Cx.put
  simp only [hf]
  cases cls with
  | s =>
    simp only
    split
    · rename_i hnwb
      refine ⟨⟨fun h => absurd hnwb (by simp [h]), fun c m l h _ _ _ => hk.1.reg h m l, fun m i => hk.1.pbit m i⟩, hk.2, hk.1.regs⟩
    · rename_i hnwb
      have hT : cx.kind ≠ .T := by intro e; rw [e] at hc; simp [Kind.has] at hc
      generalize hs' : killKeys s cx.id (rs.flatMap fun r => f.keysOf r.1) = s' at hk ⊢
      have hp' := hp.keep hk.2
      have hctl : ∃ c0, ctlOf s' cx.id = some c0 := by
        by_cases h1 : cx.kind = .K
        · obtain ⟨c, e⟩ := hp'.sup h1; exact ⟨_, by rw [e]; rfl⟩
        · by_cases h2 : cx.kind = .Y
          · obtain ⟨n, e⟩ := hp'.sys h2; exact ⟨_, by rw [e]; rfl⟩
          · obtain ⟨c, sl, b, e, hb⟩ := hp'.block (by cases hh : cx.kind <;> simp_all)
            exact ⟨b.exec.ctl, by rw [e]; simp [ctlOf, hb]⟩
      obtain ⟨c0, h0⟩ := hctl
      have hset := Ctl.foldl_setS rs c0 f.dreg false
      have hkeep := Cx.Keeps.modCtl cx s' (fun c => rs.foldl (fun c r => c.setS f.dreg (BitVec.ofNat 64 r.2) false) c)
        (fun c => (Ctl.foldl_setS rs c f.dreg false).1) (fun c => (Ctl.foldl_setS rs c f.dreg false).2.1)
      have hctl' : cx.ctl (modCtl s' cx.id (fun c => rs.foldl (fun c r => c.setS f.dreg (BitVec.ofNat 64 r.2) false) c)) =
          rs.foldl (fun c r => c.setS f.dreg (BitVec.ofNat 64 r.2) false) c0 := by
        simp [Cx.ctl, h0]
      have hmem : cx.mem (modCtl s' cx.id (fun c => rs.foldl (fun c r => c.setS f.dreg (BitVec.ofNat 64 r.2) false) c)) = cx.mem s' := by
        cases hi : cx.id with
        | blk c sl => simp only [Cx.mem, Cx.blk, hi, modCtl, blockOf_modBlock_self]; cases blockOf s' c sl <;> rfl
        | sup c => simp [Cx.mem, Cx.blk, hi]
        | sys n => simp [Cx.mem, Cx.blk, hi]
      have hregs : cx.regs (modCtl s' cx.id (fun c => rs.foldl (fun c r => c.setS f.dreg (BitVec.ofNat 64 r.2) false) c)) = cx.regs s' := by
        cases hi : cx.id with
        | blk c sl => simp only [Cx.regs, Cx.blk, hi, modCtl, blockOf_modBlock_self]; cases blockOf s' c sl <;> rfl
        | sup c => simp [Cx.regs, Cx.blk, hi]
        | sys n => simp [Cx.regs, Cx.blk, hi]
      have h0' : cx.ctl s' = c0 := by simp [Cx.ctl, h0]
      refine ⟨⟨fun _ r hr => ?_, fun c m l h hm hl ho => ?_, fun m i => ?_⟩, hk.2.trans hkeep, hregs.trans hk.1.regs⟩
      · have hlast : rs.getLast? = some r := by
          have hne : rs ≠ [] := List.ne_nil_of_mem hr
          rw [List.getLast?_eq_some_getLast hne, hs rfl _ (List.getLast_mem hne) r hr]
        simp only [Cx.reg, hctl', hset.2.2.2, if_true, hlast, Option.map_some, Option.getD_some]
        simp [widthOf]
      · cases c with
        | g => simp only [Cx.reg, hmem]; rw [hk.1.mem]
        | v => simp only [Cx.reg, hmem]; rw [hk.1.mem]
        | s =>
          have : m ≠ f.dreg := by
            rcases ho rfl with e | e | e
            · exact absurd e (by simpa using hnwb)
            · exact e
            · exact absurd rfl e.1
          simp only [Cx.reg, hctl', hset.2.2.2, if_neg this]
          rw [← h0']; simp [Ctl.s, hk.1.sregs hT]
      · have hb := hk.1.pbit m i
        rw [← hb]
        simp only [Cx.pbit, hctl', hmem, hset.2.2.1, h0']
  | g =>
    have hT : cx.kind = .T := by cases hh : cx.kind <;> rw [hh] at hc <;> simp [Kind.has] at hc ⊢
    obtain ⟨c, sl, b, hid, hb⟩ := (hp.keep hk.2).block (.inl hT)
    generalize hs' : killKeys s cx.id (rs.flatMap fun r => f.keysOf r.1) = s' at hk hb ⊢
    have hmem : cx.mem (cx.modBlk s' fun b => b.modMem fun m => putLanes m f rs false) = putLanes (cx.mem s') f rs false := by
      simp [Cx.mem, Cx.blk, Cx.modBlk, hid, hb]
    have hkeep : cx.Keeps s' (cx.modBlk s' fun b => b.modMem fun m => putLanes m f rs false) := by
      have := Cx.Keeps.modBlock (cx := cx) hid s' (fun b => b.modMem fun m => putLanes m f rs false)
        fun b => ⟨rfl, by
          have := congrArg (fun m : BlkMem => ({ m with preds := [] } : BlkMem)) (putLanes_rest b.mem f rs false)
          exact this, rfl, rfl, rfl⟩
      simpa [Cx.modBlk, hid] using this
    have hregs : cx.regs (cx.modBlk s' fun b => b.modMem fun m => putLanes m f rs false) = cx.regs s' := by
      simp [Cx.regs, Cx.blk, Cx.modBlk, hid, hb]
    have hpre := putLanes_preds (cx.mem s') f rs false
    refine ⟨⟨fun hn r hr => ?_, fun c m l h hm hl ho => ?_, fun m i => ?_⟩, hk.2.trans hkeep, hregs.trans hk.1.regs⟩
    · have := putLanes_self (cx.mem s') f rs false (fun l => gKey l f.dreg) (fun l => by simp [LoadForm.keysOf, hn, hf, hw])
        (fun a b e => (gKey_inj hd hd e).1) h1 hr
      simp only [Cx.reg, hmem, BlkMem.g, this]
      simp [widthOf]
    · have hcg : c = .g := by rw [hT] at h; cases c <;> simp [Kind.has] at h ⊢
      subst hcg
      simp only [Cx.reg, hmem, BlkMem.g]
      rw [putLanes_other, hk.1.mem]
      intro r hr hmemk
      simp only [LoadForm.keysOf, hf, hw] at hmemk
      by_cases hn : f.nwb
      · simp [hn] at hmemk
      · simp [hn] at hmemk
        have := gKey_inj hm hd hmemk
        rcases ho rfl with e | e | e
        · exact hn e
        · exact e this.2
        · exact e.2 r hr this.1.symm
    · have hb' := hk.1.pbit m i
      rw [← hb']
      simp only [Cx.pbit, hT, hmem, BlkMem.p, hpre]
  | v =>
    have hV : cx.kind = .V := by cases hh : cx.kind <;> rw [hh] at hc <;> simp [Kind.has] at hc ⊢
    obtain ⟨c, sl, b, hid, hb⟩ := (hp.keep hk.2).block (.inr (.inl hV))
    generalize hs' : killKeys s cx.id (rs.flatMap fun r => f.keysOf r.1) = s' at hk hb ⊢
    have hmem : cx.mem (cx.modBlk s' fun b => b.modMem fun m => putLanes m f rs false) = putLanes (cx.mem s') f rs false := by
      simp [Cx.mem, Cx.blk, Cx.modBlk, hid, hb]
    have hctl : cx.ctl (cx.modBlk s' fun b => b.modMem fun m => putLanes m f rs false) = cx.ctl s' := by
      simp [Cx.ctl, ctlOf, Cx.modBlk, hid, hb]
    have hkeep : cx.Keeps s' (cx.modBlk s' fun b => b.modMem fun m => putLanes m f rs false) := by
      have := Cx.Keeps.modBlock (cx := cx) hid s' (fun b => b.modMem fun m => putLanes m f rs false)
        fun b => ⟨rfl, by
          have := congrArg (fun m : BlkMem => ({ m with preds := [] } : BlkMem)) (putLanes_rest b.mem f rs false)
          exact this, rfl, rfl, rfl⟩
      simpa [Cx.modBlk, hid] using this
    have hregs : cx.regs (cx.modBlk s' fun b => b.modMem fun m => putLanes m f rs false) = cx.regs s' := by
      simp [Cx.regs, Cx.blk, Cx.modBlk, hid, hb]
    have hpre := putLanes_preds (cx.mem s') f rs false
    refine ⟨⟨fun hn r hr => ?_, fun c m l h hm hl' ho => ?_, fun m i => ?_⟩, hk.2.trans hkeep, hregs.trans hk.1.regs⟩
    · have hset : Store.get (putLanes (cx.mem s') f rs false).rows (vKey f.dreg r.1) = BitVec.ofNat 32 r.2 := by
        rw [putLanes_eq, foldl_setRow_get]
        have hall : ∀ w ∈ (f.words rs).filter (fun w => w.1 == vKey f.dreg r.1), w.2 = BitVec.ofNat 32 r.2 := by
          intro w hw'
          obtain ⟨hw', he⟩ := List.mem_filter.mp hw'
          obtain ⟨q, hq, hw'⟩ := List.mem_flatMap.mp hw'
          simp [LoadForm.keysOf, hn, hf, hw] at hw'
          subst hw'
          have : q.1 = r.1 := (vKey_inj (hl rfl q hq) (hl rfl r hr) (by simpa using he)).2
          rw [h1 q hq r hr this]
        have hne : (f.words rs).filter (fun w => w.1 == vKey f.dreg r.1) ≠ [] := by
          rw [Ne, List.filter_eq_nil_iff]
          intro h
          refine h (vKey f.dreg r.1, BitVec.ofNat 32 r.2) (List.mem_flatMap.mpr ⟨r, hr, ?_⟩) (by simp)
          simp [LoadForm.keysOf, hn, hf, hw]
        rw [List.getLast?_eq_some_getLast hne]
        exact hall _ (List.getLast_mem hne)
      simp only [Cx.reg, hmem, BlkMem.v, hset]
      simp [widthOf]
    · cases c with
      | g => rw [hV] at h; simp [Kind.has] at h
      | s => simp only [Cx.reg, hctl]; simp [Ctl.s, hk.1.sregs (by rw [hV]; simp)]
      | v =>
        simp only [Cx.reg, hmem, BlkMem.v]
        rw [putLanes_other, hk.1.mem]
        intro r hr hmemk
        simp only [LoadForm.keysOf, hf, hw] at hmemk
        by_cases hn : f.nwb
        · simp [hn] at hmemk
        · simp [hn] at hmemk
          have := vKey_inj (hl' rfl) (hl rfl r hr) hmemk
          rcases ho rfl with e | e | e
          · exact hn e
          · exact e this.1
          · exact e.2 r hr this.2.symm
    · have hb' := hk.1.pbit m i
      rw [← hb']
      simp only [Cx.pbit, hV, hmem, BlkMem.p, hpre]

end Sys2Proof.Machine
end

