-- ==== Sys2Proof/Laws/Alu.lean ====
section
/-! SUPPORT. The course of an ALU function, said once (R133, R134, R189): when it enters and no lane meets an enabled
condition, its register takes the results, FSTAT the flags, and nothing else changes (`alu_writes`). -/

namespace Sys2Proof.Machine

variable {s : State} {cx : Cx} {d : Dec} {rs : List (Nat × List Nat)}

/-! ## What entering says of the lanes -/

theorem Enters.lane_of (he : Enters s cx d rs) {r : Nat × List Nat} (hr : r ∈ rs) :
    r.1 ∈ cx.lanes s d ∧ cx.pbit s d.p.grd.toNat r.1 = true ∧ cx.readLane s d.imm d.srcs r.1 = .vals r.2 := by
  have : (r.1, LaneRd.vals r.2) ∈ rs.map fun r => (r.1, LaneRd.vals r.2) := List.mem_map.mpr ⟨r, hr, rfl⟩
  rw [← he.reads] at this
  obtain ⟨l, hl, e⟩ := List.mem_map.mp this
  obtain ⟨hl, hg⟩ := List.mem_filter.mp hl
  have e1 : l = r.1 := congrArg Prod.fst e
  subst e1
  exact ⟨hl, hg, congrArg Prod.snd e⟩

/-- One lane has one list of operands. -/
theorem Enters.single (he : Enters s cx d rs) : ∀ a ∈ rs, ∀ b ∈ rs, a.1 = b.1 → a.2 = b.2 := by
  intro a ha b hb e
  have h1 := (he.lane_of ha).2.2
  have h2 := (he.lane_of hb).2.2
  rw [e, h2] at h1
  exact (LaneRd.vals.inj h1).symm

theorem Enters.single_map (he : Enters s cx d rs) (f : List Nat → Nat) : Single (rs.map fun r => (r.1, f r.2)) := by
  intro a ha b hb e
  obtain ⟨x, hx, rfl⟩ := List.mem_map.mp ha
  obtain ⟨y, hy, rfl⟩ := List.mem_map.mp hb
  simp only at e ⊢
  rw [he.single x hx y hy e]

theorem Enters.lane_zero (he : Enters s cx d rs) (hT : cx.isT = false) (hp : d.perElem = false) : ∀ r ∈ rs, r.1 = 0 := by
  intro r hr
  have := (he.lane_of hr).1
  simpa [Cx.lanes, hT, hp] using this

theorem Enters.lane_lt (he : Enters s cx d rs) (hT : cx.isT = false) (hp : d.perElem = true) : ∀ r ∈ rs, r.1 < 256 := by
  intro r hr
  have := (he.lane_of hr).1
  simp only [Cx.lanes, hT, hp, Bool.false_eq_true, if_false, if_true, List.mem_range] at this
  have : cx.vl s ≤ 256 := Nat.min_le_right _ _
  omega

/-! ## A result -/

/-- A one-word result (64 bits for class s) writes its register and completes. -/
theorem Cx.result_writes {cls : Cls} {vals : List (Nat × Nat)} (hp : cx.Placed s) (hc : cx.kind.has cls = true)
    (goes : (fallNext cx.line cx.pc d.len).2 = false) (hd : cls = .s → d.p.dreg.toNat < 32) (h1 : Single vals)
    (hs : cls = .s → ∀ a ∈ vals, ∀ b ∈ vals, a = b)
    (hl : cls = .v → ∀ r ∈ vals, r.1 < 256) :
    cx.Writes s (cx.result s d cls (cls == .s) vals) cls d.p.dreg.toNat d.p.nwb vals ∧
      cx.Keeps s (cx.result s d cls (cls == .s) vals) ∧ cx.regs (cx.result s d cls (cls == .s) vals) = cx.regs s := by
  have hd64 : d.p.dreg.toNat < 64 := d.p.dreg.isLt
  cases cls with
  | s =>
    have hn : ¬(32 ≤ d.p.dreg.toNat) := by have := hd rfl; omega
    have hput := Cx.put_writes hp hc { cls := .s, wid := 8, sext := false, dreg := d.p.dreg.toNat, nwb := d.p.nwb } rfl rfl hd64 vals h1
      hs hl
    simp only [Cx.result, beq_self_eq_true, Bool.true_and, decide_eq_true_eq, ge_iff_le, hn, if_false, if_true]
    have hf := cx.finish_keeps (cx.put s { cls := .s, wid := 8, sext := false, dreg := d.p.dreg.toNat, nwb := d.p.nwb } vals) d
      (vals.map (·.1)) (fun t => entryOf .s true (((vals.find? (·.1 == t)).map (·.2)).getD 0)) goes
    exact ⟨hput.1.mono hc (.refl cx s) hf.1, hput.2.1.trans hf.2, hf.1.regs.trans hput.2.2⟩
  | g =>
    have hput := Cx.put_writes hp hc { cls := .g, wid := 4, sext := false, dreg := d.p.dreg.toNat, nwb := d.p.nwb } rfl rfl hd64 vals h1
      hs hl
    have hf := cx.finish_keeps (cx.put s { cls := .g, wid := 4, sext := false, dreg := d.p.dreg.toNat, nwb := d.p.nwb } vals) d
      (vals.map (·.1)) (fun t => entryOf .g false (((vals.find? (·.1 == t)).map (·.2)).getD 0)) goes
    exact ⟨hput.1.mono hc (.refl cx s) hf.1, hput.2.1.trans hf.2, hf.1.regs.trans hput.2.2⟩
  | v =>
    have hput := Cx.put_writes hp hc { cls := .v, wid := 4, sext := false, dreg := d.p.dreg.toNat, nwb := d.p.nwb } rfl rfl hd64 vals h1
      hs hl
    have hf := cx.finish_keeps (cx.put s { cls := .v, wid := 4, sext := false, dreg := d.p.dreg.toNat, nwb := d.p.nwb } vals) d
      [0] (fun _ => vectorEntry (cx.mem (cx.put s { cls := .v, wid := 4, sext := false, dreg := d.p.dreg.toNat, nwb := d.p.nwb } vals))
        { cls := .v, wid := 4, sext := false, dreg := d.p.dreg.toNat, nwb := d.p.nwb } (vals.map fun r => (r.1, valBytes 4 r.2, false))) goes
    exact ⟨hput.1.mono hc (.refl cx s) hf.1, hput.2.1.trans hf.2, hf.1.regs.trans hput.2.2⟩

/-! ## Flags -/

/-- Flags joined into FSTAT, for a context that has one (R126). -/
theorem Cx.orFlags_keeps (cx : Cx) (s : State) (n : Nat) :
    (∀ c m l, cx.kind.has c = true → cx.reg (cx.orFlags s n) c m l = cx.reg s c m l) ∧
    (∀ m i, cx.pbit (cx.orFlags s n) m i = cx.pbit s m i) ∧ cx.Keeps s (cx.orFlags s n) ∧
    cx.regs (cx.orFlags s n) = (if (cx.blk s).isSome then
      { cx.regs s with fstat := (cx.regs s).fstat ||| BitVec.ofNat 32 (n % 128) } else cx.regs s) := by
  unfold Cx.orFlags Cx.modBlk
  cases hid : cx.id with
  | sup c => simp [Cx.blk, hid, Cx.Keeps.refl]
  | sys c => simp [Cx.blk, hid, Cx.Keeps.refl]
  | blk c sl =>
    simp only
    refine ⟨fun k m l hk => ?_, fun m i => ?_, ?_, ?_⟩
    · cases hb : blockOf s c sl <;> cases k <;> simp [Cx.reg, Cx.mem, Cx.ctl, Cx.blk, ctlOf, hid, hb]
    · cases hb : blockOf s c sl <;> simp [Cx.pbit, Cx.mem, Cx.ctl, Cx.blk, ctlOf, hid, hb]
    · exact Cx.Keeps.modBlock hid s _ fun b => ⟨rfl, rfl, rfl, rfl, rfl⟩
    · cases hb : blockOf s c sl <;> simp [Cx.regs, Cx.blk, hid, hb]

/-- No lane meets an enabled condition: results with flags go on to their effect with the flags in FSTAT. -/
theorem Cx.flagged_none (cx : Cx) (s : State) (d : Dec) (fs : List (Nat × Nat × Nat)) (k : State → List (Nat × Nat) → State)
    (h : ∀ r ∈ fs, enabled (cx.fen s) r.2.2 = 0) :
    cx.flagged s d fs k = k (cx.orFlags s (orAll (fs.map (·.2.2)))) (fs.map fun r => (r.1, r.2.1)) := by
  have hb : fs.filter (fun r => enabled (cx.fen s) r.2.2 != 0) = [] := by
    rw [List.filter_eq_nil_iff]; intro r hr; simp [h r hr]
  have hg : fs.filter (fun r => enabled (cx.fen s) r.2.2 == 0) = fs := by
    rw [List.filter_eq_self]; intro r hr; simp [h r hr]
  simp only [Cx.flagged, hb, hg]
  split <;> simp

/-! ## The course of an ALU function -/

/-- What decoding says of an ALU function's destination and lanes. -/
structure Alu.Sound (a : Alu) : Prop where
  dst : a.d.dst = .reg (rcOf a.cls)
  elem : a.d.perElem = (a.cls == .v)
  valid : ∀ k, a.d.valid k = none → k.has a.cls = true

theorem clsValid_has (cls : Cls) (sfu : Bool) (k : Kind) (h : clsValid cls sfu k = none) : k.has cls = true := by
  cases cls <;> cases sfu <;> cases k <;> simp_all [clsValid, validIn, Kind.has]

theorem rAlu_sound (o : ROp) (c : Cls) (two : Bool) (f : List Nat → Nat × Nat) (p : Bool) : (rAlu o c two f p).Sound :=
  ⟨rfl, rfl, fun k h => clsValid_has c false k h⟩
theorem xAlu_sound (o : XOp) (c : Cls) (n : Nat) (flt : Option Nat) (ok : Bool) (f : List Nat → Nat × Nat) (p q : Bool) :
    (xAlu o c n flt ok f p q).Sound := ⟨rfl, rfl, fun k h => clsValid_has c q k h⟩

theorem Cx.decodeTrap_none (h : cx.decodeTrap s d = none) : d.valid cx.kind = none ∧ d.ok = true ∧
    (match d.dst with
      | .none => d.p.dreg.toNat == 0 && !d.p.nwb
      | .reg rc => if d.p.nwb then d.p.dreg.toNat == 0 else cx.regOk s rc d.p.dreg.toNat
      | .pred => 1 ≤ d.p.dreg.toNat && d.p.dreg.toNat ≤ 7 && !d.p.nwb
      | .own => true) = true ∧ d.srcs.all (cx.srcOk s d.imm) = true := by
  unfold Cx.decodeTrap at h
  split at h
  · simp at h
  · rename_i hv
    simp only [Bool.and_eq_true, ite_eq_left_iff, reduceCtorEq] at h
    replace h := Classical.not_not.mp h
    exact ⟨hv, h.1.1, h.1.2, h.2⟩

/-- The course of an ALU function (R133, R134, R189) that is no SFU function. -/
theorem Cx.alu_writes (a : Alu) (he : Enters s cx a.d rs) (ha : a.Sound) (hsfu : a.sfu = false)
    (hen : ∀ r ∈ rs, enabled (cx.fen s) (a.f r.2).2 = 0) :
    cx.Writes s (cx.alu s a) a.cls a.d.p.dreg.toNat a.d.p.nwb (rs.map fun r => (r.1, (a.f r.2).1)) ∧
      cx.Keeps s (cx.alu s a) ∧ ((cx.blk s).isSome → (cx.regs (cx.alu s a)).fstat =
        (cx.regs s).fstat ||| BitVec.ofNat 32 (orAll (rs.map fun r => (a.f r.2).2) % 128)) := by
  have hdt := Cx.decodeTrap_none he.legal
  have hc : cx.kind.has a.cls = true := ha.valid _ hdt.1
  have hp := cxOf_placed he.here
  obtain ⟨s', hst, hr, hk⟩ := Cx.start_enters he fun s rs =>
    cx.flagged s a.d (rs.map fun r => (r.1, a.f r.2)) fun s rs => cx.result s a.d a.cls (a.cls == .s) rs
  have hst' : cx.alu s a = cx.start s a.d fun s rs =>
      cx.flagged s a.d (rs.map fun r => (r.1, a.f r.2)) fun s rs => cx.result s a.d a.cls (a.cls == .s) rs := by
    simp [Cx.alu, hsfu]
  have hT : a.cls ≠ .g → cx.isT = false := by
    intro h
    cases hh : cx.kind <;> simp [Cx.isT, hh]
    rw [hh] at hc; cases hcl : a.cls <;> simp_all [Kind.has]
  rcases hst with hst | ⟨hnil, hst⟩
  · rw [hst', hst]
    have hfen : cx.fen s' = cx.fen s := by simp [Cx.fen, hr.regs]
    have hp' := hp.keep hk
    rw [Cx.flagged_none cx s' a.d _ _ (by
      intro r hr'
      obtain ⟨x, hx, rfl⟩ := List.mem_map.mp hr'
      rw [hfen]; exact hen x hx)]
    simp only [List.map_map, Function.comp_def]
    have ho := Cx.orFlags_keeps cx s' (orAll (rs.map fun r => (a.f r.2).2))
    generalize hs1 : cx.orFlags s' (orAll (rs.map fun r => (a.f r.2).2)) = s1 at ho ⊢
    have hres := Cx.result_writes (s := s1) (d := a.d) (vals := rs.map fun r => (r.1, (a.f r.2).1)) (hp'.keep ho.2.2.1) hc he.goes
      (by
        intro hs
        have := hdt.2.2.1
        rw [ha.dst] at this
        simp only [hs, rcOf] at this
        split at this
        · simp at this; omega
        · simpa [Cx.regOk] using this)
      (he.single_map fun l => (a.f l).1)
      (by
        intro hs x hx y hy
        obtain ⟨u, hu, rfl⟩ := List.mem_map.mp hx
        obtain ⟨w, hw, rfl⟩ := List.mem_map.mp hy
        have hT' := hT (by rw [hs]; simp)
        have he0 : a.d.perElem = false := by rw [ha.elem, hs]; rfl
        have h0 := he.lane_zero hT' he0
        have e : u.1 = w.1 := (h0 u hu).trans (h0 w hw).symm
        have := he.single u hu w hw e
        simp [e, this])
      (by
        intro hv r hr'
        obtain ⟨x, hx, rfl⟩ := List.mem_map.mp hr'
        exact he.lane_lt (hT (by rw [hv]; simp)) (by rw [ha.elem, hv]; rfl) x hx)
    refine ⟨⟨hres.1.written, fun c m l h hm hl ho' => ?_, fun m i => ?_⟩, hk.trans (ho.2.2.1.trans hres.2.1), fun hb => ?_⟩
    · rw [hres.1.others c m l h hm hl ho', ho.1 c m l h, hr.reg h]
    · rw [hres.1.preds, ho.2.1, hr.pbit]
    · have hb' : (cx.blk s').isSome := by
        have := hk.ownBlk
        cases h1 : cx.blk s with
        | none => simp [h1] at hb
        | some b => cases h2 : cx.blk s' <;> simp_all
      rw [hres.2.2, ho.2.2.2, if_pos hb', hr.regs]
  · rw [hst', hst]
    subst hnil
    refine ⟨⟨by simp, fun c m l h _ _ _ => hr.reg h m l, hr.pbit⟩, hk, fun _ => ?_⟩
    simp [hr.regs, orAll]

end Sys2Proof.Machine
end

