-- ==== Sys2Proof/Laws/PerInstr.lean ====
section
/-! SUPPORT. Statements for all instructions, one lemma per constructor. `Opcode` (R92, R107): an instruction's first
parcel has its opcode in its top byte. -/

namespace Sys2Proof.Laws.Opcode

open Sys2Proof

/-- The parcels of an instruction begin with one whose bits 31 to 24 are its opcode. -/
def Statement (i : Instr) : Prop :=
  ∀ l, encode i = some l → ∃ p r, l = p :: r ∧ opcodeOf i = some (bits p.toNat 31 24)

theorem encP0_opcode {opc : Nat} (p : P0) (h : opc < 256) : bits (encP0 opc p).toNat 31 24 = opc := by
  have e : (encP0 opc p).extractLsb' 24 8 = BitVec.ofNat 8 opc := by
    ext i hi
    rw [BitVec.getElem_extractLsb', BitVec.getElem_eq_testBit_toNat, BitVec.testBit_toNat]
    simp only [encP0, BitVec.getLsbD_append]
    simp [show ¬(24 + i < 3) by omega, show ¬(24 + i - 3 < 7) by omega, show ¬(24 + i - 3 - 7 < 7) by omega,
      show ¬(24 + i - 3 - 7 - 7 < 1) by omega, show ¬(24 + i - 3 - 7 - 7 - 1 < 6) by omega, show 24 + i - 3 - 7 - 7 - 1 - 6 = i by omega]
  have := congrArg BitVec.toNat e
  simp only [BitVec.extractLsb'_toNat, BitVec.toNat_ofNat, Nat.shiftRight_eq_div_pow] at this
  unfold bits
  omega

theorem heads {i : Instr} {opc : Nat} {p : P0} {l : List W32} (h : opc < 256) (he : encode i = some l) (ho : opcodeOf i = some opc)
    (hl : ∃ r, l = encP0 opc p :: r) : Statement i := by
  intro l' h'
  obtain ⟨r, rfl⟩ := hl
  rw [he] at h'
  cases h'
  exact ⟨_, r, rfl, by rw [encP0_opcode p h, ho]⟩
theorem heads_R {i : Instr} {opc : Nat} {o : ROp} (h : opc < 256) (he : encode i = some (encR opc o)) (ho : opcodeOf i = some opc) : Statement i :=
  heads h he ho (by unfold encR; split <;> exact ⟨_, rfl⟩)
theorem heads_X {i : Instr} {opc : Nat} {o : XOp} (h : opc < 256) (he : encode i = some (encX opc o)) (ho : opcodeOf i = some opc) : Statement i :=
  heads h he ho ⟨_, rfl⟩
theorem heads_M {i : Instr} {opc : Nat} {o : MOp} (h : opc < 256) (he : encode i = some (encM opc o)) (ho : opcodeOf i = some opc) : Statement i :=
  heads h he ho ⟨_, rfl⟩
theorem heads_K {i : Instr} {opc sub : Nat} {o : KOp} (h : opc < 256) (he : encode i = some (encK opc sub o)) (ho : opcodeOf i = some opc) : Statement i :=
  heads h he ho ⟨_, rfl⟩
theorem heads_P {i : Instr} {opc : Nat} {o : POp} (h : opc < 256) (he : encode i = some (encP opc o)) (ho : opcodeOf i = some opc) : Statement i :=
  heads h he ho ⟨_, rfl⟩
theorem heads_W {i : Instr} {opc : Nat} {o : WOp} (h : opc < 256) (he : encode i = some (encW opc o)) (ho : opcodeOf i = some opc) : Statement i :=
  heads h he ho ⟨_, rfl⟩
theorem heads_unassigned (a b : W32) : Statement (.unassignedOpcode a b) := by
  intro l h
  cases h
  unfold encUnassigned
  split <;> exact ⟨_, _, rfl, rfl⟩

theorem add (c : Cls) (o : ROp) : Statement (.add c o) := heads_R (by cases c <;> decide) rfl rfl
theorem sub (c : Cls) (o : ROp) : Statement (.sub c o) := heads_R (by cases c <;> decide) rfl rfl
theorem mul (c : Cls) (o : ROp) : Statement (.mul c o) := heads_R (by cases c <;> decide) rfl rfl
theorem mulh (c : Cls) (o : ROp) : Statement (.mulh c o) := heads_R (by cases c <;> decide) rfl rfl
theorem mulhu (c : Cls) (o : ROp) : Statement (.mulhu c o) := heads_R (by cases c <;> decide) rfl rfl
theorem mad (c : Cls) (o : XOp) : Statement (.mad c o) := heads_X (by cases c <;> decide) rfl rfl
theorem div (c : Cls) (o : ROp) : Statement (.div c o) := heads_R (by cases c <;> decide) rfl rfl
theorem divu (c : Cls) (o : ROp) : Statement (.divu c o) := heads_R (by cases c <;> decide) rfl rfl
theorem rem (c : Cls) (o : ROp) : Statement (.rem c o) := heads_R (by cases c <;> decide) rfl rfl
theorem remu (c : Cls) (o : ROp) : Statement (.remu c o) := heads_R (by cases c <;> decide) rfl rfl
theorem neg (c : Cls) (o : ROp) : Statement (.neg c o) := heads_R (by cases c <;> decide) rfl rfl
theorem abs (c : Cls) (o : ROp) : Statement (.abs c o) := heads_R (by cases c <;> decide) rfl rfl
theorem min (c : Cls) (o : ROp) : Statement (.min c o) := heads_R (by cases c <;> decide) rfl rfl
theorem max (c : Cls) (o : ROp) : Statement (.max c o) := heads_R (by cases c <;> decide) rfl rfl
theorem minu (c : Cls) (o : ROp) : Statement (.minu c o) := heads_R (by cases c <;> decide) rfl rfl
theorem maxu (c : Cls) (o : ROp) : Statement (.maxu c o) := heads_R (by cases c <;> decide) rfl rfl
theorem addsat (c : Cls) (o : ROp) : Statement (.addsat c o) := heads_R (by cases c <;> decide) rfl rfl
theorem subsat (c : Cls) (o : ROp) : Statement (.subsat c o) := heads_R (by cases c <;> decide) rfl rfl
theorem and (c : Cls) (o : ROp) : Statement (.and c o) := heads_R (by cases c <;> decide) rfl rfl
theorem or (c : Cls) (o : ROp) : Statement (.or c o) := heads_R (by cases c <;> decide) rfl rfl
theorem xor (c : Cls) (o : ROp) : Statement (.xor c o) := heads_R (by cases c <;> decide) rfl rfl
theorem andn (c : Cls) (o : ROp) : Statement (.andn c o) := heads_R (by cases c <;> decide) rfl rfl
theorem not (c : Cls) (o : ROp) : Statement (.not c o) := heads_R (by cases c <;> decide) rfl rfl
theorem shl (c : Cls) (o : ROp) : Statement (.shl c o) := heads_R (by cases c <;> decide) rfl rfl
theorem shr (c : Cls) (o : ROp) : Statement (.shr c o) := heads_R (by cases c <;> decide) rfl rfl
theorem sar (c : Cls) (o : ROp) : Statement (.sar c o) := heads_R (by cases c <;> decide) rfl rfl
theorem rol (c : Cls) (o : ROp) : Statement (.rol c o) := heads_R (by cases c <;> decide) rfl rfl
theorem clz (c : Cls) (o : ROp) : Statement (.clz c o) := heads_R (by cases c <;> decide) rfl rfl
theorem popc (c : Cls) (o : ROp) : Statement (.popc c o) := heads_R (by cases c <;> decide) rfl rfl
theorem brev (c : Cls) (o : ROp) : Statement (.brev c o) := heads_R (by cases c <;> decide) rfl rfl
theorem bfx (c : Cls) (o : XOp) : Statement (.bfx c o) := heads_X (by cases c <;> decide) rfl rfl
theorem bfi (c : Cls) (o : XOp) : Statement (.bfi c o) := heads_X (by cases c <;> decide) rfl rfl
theorem sel (c : Cls) (o : XOp) : Statement (.sel c o) := heads_X (by cases c <;> decide) rfl rfl
theorem mov (c : Cls) (o : ROp) : Statement (.mov c o) := heads_R (by cases c <;> decide) rfl rfl
theorem cmp (c : Cls) (o : XOp) : Statement (.cmp c o) := heads_X (by cases c <;> decide) rfl rfl
theorem lea (c : Cls) (o : XOp) : Statement (.lea c o) := heads_X (by cases c <;> decide) rfl rfl
theorem plog (c : Cls) (o : XOp) : Statement (.plog c o) := heads_X (by cases c <;> decide) rfl rfl
theorem fadd (c : Cls) (o : XOp) : Statement (.fadd c o) := heads_X (by cases c <;> decide) rfl rfl
theorem fsub (c : Cls) (o : XOp) : Statement (.fsub c o) := heads_X (by cases c <;> decide) rfl rfl
theorem fmul (c : Cls) (o : XOp) : Statement (.fmul c o) := heads_X (by cases c <;> decide) rfl rfl
theorem fma (c : Cls) (o : XOp) : Statement (.fma c o) := heads_X (by cases c <;> decide) rfl rfl
theorem fmin (c : Cls) (o : XOp) : Statement (.fmin c o) := heads_X (by cases c <;> decide) rfl rfl
theorem fmax (c : Cls) (o : XOp) : Statement (.fmax c o) := heads_X (by cases c <;> decide) rfl rfl
theorem fabs (c : Cls) (o : XOp) : Statement (.fabs c o) := heads_X (by cases c <;> decide) rfl rfl
theorem fneg (c : Cls) (o : XOp) : Statement (.fneg c o) := heads_X (by cases c <;> decide) rfl rfl
theorem fcmp (c : Cls) (o : XOp) : Statement (.fcmp c o) := heads_X (by cases c <;> decide) rfl rfl
theorem fclass (c : Cls) (o : XOp) : Statement (.fclass c o) := heads_X (by cases c <;> decide) rfl rfl
theorem fcvt (c : Cls) (o : XOp) : Statement (.fcvt c o) := heads_X (by cases c <;> decide) rfl rfl
theorem icvt (c : Cls) (o : XOp) : Statement (.icvt c o) := heads_X (by cases c <;> decide) rfl rfl
theorem frcp (c : Cls) (o : XOp) : Statement (.frcp c o) := heads_X (by cases c <;> decide) rfl rfl
theorem frsq (c : Cls) (o : XOp) : Statement (.frsq c o) := heads_X (by cases c <;> decide) rfl rfl
theorem fsqrt (c : Cls) (o : XOp) : Statement (.fsqrt c o) := heads_X (by cases c <;> decide) rfl rfl
theorem fexp2 (c : Cls) (o : XOp) : Statement (.fexp2 c o) := heads_X (by cases c <;> decide) rfl rfl
theorem flog2 (c : Cls) (o : XOp) : Statement (.flog2 c o) := heads_X (by cases c <;> decide) rfl rfl
theorem fsin (c : Cls) (o : XOp) : Statement (.fsin c o) := heads_X (by cases c <;> decide) rfl rfl
theorem fcos (c : Cls) (o : XOp) : Statement (.fcos c o) := heads_X (by cases c <;> decide) rfl rfl
theorem ftanh (c : Cls) (o : XOp) : Statement (.ftanh c o) := heads_X (by cases c <;> decide) rfl rfl
theorem movw (o : WOp) : Statement (.movw o) := heads_W (by decide) rfl rfl
theorem ld (o : MOp) : Statement (.ld o) := heads_M (by decide) rfl rfl
theorem st (o : MOp) : Statement (.st o) := heads_M (by decide) rfl rfl
theorem ldl (o : MOp) : Statement (.ldl o) := heads_M (by decide) rfl rfl
theorem stl (o : MOp) : Statement (.stl o) := heads_M (by decide) rfl rfl
theorem ldp (o : MOp) : Statement (.ldp o) := heads_M (by decide) rfl rfl
theorem stp (o : MOp) : Statement (.stp o) := heads_M (by decide) rfl rfl
theorem ldg (o : MOp) : Statement (.ldg o) := heads_M (by decide) rfl rfl
theorem sts (o : MOp) : Statement (.sts o) := heads_M (by decide) rfl rfl
theorem pref (o : MOp) : Statement (.pref o) := heads_M (by decide) rfl rfl
theorem atom (o : MOp) : Statement (.atom o) := heads_M (by decide) rfl rfl
theorem red (o : MOp) : Statement (.red o) := heads_M (by decide) rfl rfl
theorem fence (o : MOp) : Statement (.fence o) := heads_M (by decide) rfl rfl
theorem waita (o : MOp) : Statement (.waita o) := heads_M (by decide) rfl rfl
theorem cflush (o : MOp) : Statement (.cflush o) := heads_M (by decide) rfl rfl
theorem cpkick (o : KOp) : Statement (.cpkick o) := heads_K (by decide) rfl rfl
theorem cpwait (o : KOp) : Statement (.cpwait o) := heads_K (by decide) rfl rfl
theorem cpdrain (o : KOp) : Statement (.cpdrain o) := heads_K (by decide) rfl rfl
theorem bari (o : KOp) : Statement (.bari o) := heads_K (by decide) rfl rfl
theorem bara (o : KOp) : Statement (.bara o) := heads_K (by decide) rfl rfl
theorem barw (o : KOp) : Statement (.barw o) := heads_K (by decide) rfl rfl
theorem barl (o : KOp) : Statement (.barl o) := heads_K (by decide) rfl rfl
theorem ticket (o : ROp) : Statement (.ticket o) := heads_R (by decide) rfl rfl
theorem tfetch (o : POp) : Statement (.tfetch o) := heads_P (by decide) rfl rfl
theorem tfetchM (o : POp) : Statement (.tfetchM o) := heads_P (by decide) rfl rfl
theorem tfetchR (o : POp) : Statement (.tfetchR o) := heads_P (by decide) rfl rfl
theorem trel (o : ROp) : Statement (.trel o) := heads_R (by decide) rfl rfl
theorem cvset (o : KOp) : Statement (.cvset o) := heads_K (by decide) rfl rfl
theorem cvsign (o : KOp) : Statement (.cvsign o) := heads_K (by decide) rfl rfl
theorem mma (o : POp) : Statement (.mma o) := heads_P (by decide) rfl rfl
theorem mmas (o : POp) : Statement (.mmas o) := heads_P (by decide) rfl rfl
theorem azero (o : ROp) : Statement (.azero o) := heads_R (by decide) rfl rfl
theorem ald (o : POp) : Statement (.ald o) := heads_P (by decide) rfl rfl
theorem ast (o : POp) : Statement (.ast o) := heads_P (by decide) rfl rfl
theorem drn (o : POp) : Statement (.drn o) := heads_P (by decide) rfl rfl
theorem agset (o : KOp) : Statement (.agset o) := heads_K (by decide) rfl rfl
theorem agget (o : KOp) : Statement (.agget o) := heads_K (by decide) rfl rfl
theorem setvl (o : ROp) : Statement (.setvl o) := heads_R (by decide) rfl rfl
theorem shfl (o : ROp) : Statement (.shfl o) := heads_R (by decide) rfl rfl
theorem vperm (o : ROp) : Statement (.vperm o) := heads_R (by decide) rfl rfl
theorem vred (o : POp) : Statement (.vred o) := heads_P (by decide) rfl rfl
theorem vscan (o : POp) : Statement (.vscan o) := heads_P (by decide) rfl rfl
theorem vcmprs (o : ROp) : Statement (.vcmprs o) := heads_R (by decide) rfl rfl
theorem vexpnd (o : ROp) : Statement (.vexpnd o) := heads_R (by decide) rfl rfl
theorem vslide (o : ROp) : Statement (.vslide o) := heads_R (by decide) rfl rfl
theorem vid (o : ROp) : Statement (.vid o) := heads_R (by decide) rfl rfl
theorem vbcast (o : ROp) : Statement (.vbcast o) := heads_R (by decide) rfl rfl
theorem qnt (o : POp) : Statement (.qnt o) := heads_P (by decide) rfl rfl
theorem dqnt (o : POp) : Statement (.dqnt o) := heads_P (by decide) rfl rfl
theorem br (o : POp) : Statement (.br o) := heads_P (by decide) rfl rfl
theorem jmp (o : POp) : Statement (.jmp o) := heads_P (by decide) rfl rfl
theorem call (o : POp) : Statement (.call o) := heads_P (by decide) rfl rfl
theorem ret (o : ROp) : Statement (.ret o) := heads_R (by decide) rfl rfl
theorem rejoin (o : ROp) : Statement (.rejoin o) := heads_R (by decide) rfl rfl
theorem exit (o : KOp) : Statement (.exit o) := heads_K (by decide) rfl rfl
theorem yield (o : KOp) : Statement (.yield o) := heads_K (by decide) rfl rfl
theorem wdog (o : KOp) : Statement (.wdog o) := heads_K (by decide) rfl rfl
theorem nop (o : ROp) : Statement (.nop o) := heads_R (by decide) rfl rfl
theorem ep (o : POp) : Statement (.ep o) := heads_P (by decide) rfl rfl
theorem hop (o : ROp) : Statement (.hop o) := heads_R (by decide) rfl rfl
theorem trap (o : POp) : Statement (.trap o) := heads_P (by decide) rfl rfl
theorem rett (o : ROp) : Statement (.rett o) := heads_R (by decide) rfl rfl
theorem bkpt (o : ROp) : Statement (.bkpt o) := heads_R (by decide) rfl rfl
theorem grow (o : KOp) : Statement (.grow o) := heads_K (by decide) rfl rfl
theorem shrink (o : KOp) : Statement (.shrink o) := heads_K (by decide) rfl rfl
theorem launch (o : ROp) : Statement (.launch o) := heads_R (by decide) rfl rfl
theorem arm (o : ROp) : Statement (.arm o) := heads_R (by decide) rfl rfl
theorem send (o : ROp) : Statement (.send o) := heads_R (by decide) rfl rfl
theorem cfg (o : ROp) : Statement (.cfg o) := heads_R (by decide) rfl rfl
theorem strm (o : POp) : Statement (.strm o) := heads_P (by decide) rfl rfl
theorem sbar (o : POp) : Statement (.sbar o) := heads_P (by decide) rfl rfl
theorem splice (o : ROp) : Statement (.splice o) := heads_R (by decide) rfl rfl
theorem drainf (o : ROp) : Statement (.drainf o) := heads_R (by decide) rfl rfl
theorem drainfSlice (o : ROp) : Statement (.drainfSlice o) := heads_R (by decide) rfl rfl
theorem fwait (o : POp) : Statement (.fwait o) := heads_P (by decide) rfl rfl
theorem mfs (o : KOp) : Statement (.mfs o) := heads_K (by decide) rfl rfl
theorem mts (o : KOp) : Statement (.mts o) := heads_K (by decide) rfl rfl
theorem svrunResume (o : KOp) : Statement (.svrunResume o) := heads_K (by decide) rfl rfl
theorem svrunAbort (o : KOp) : Statement (.svrunAbort o) := heads_K (by decide) rfl rfl
theorem svrunDeliver (o : KOp) : Statement (.svrunDeliver o) := heads_K (by decide) rfl rfl
theorem svinit (o : KOp) : Statement (.svinit o) := heads_K (by decide) rfl rfl
theorem hostint (o : KOp) : Statement (.hostint o) := heads_K (by decide) rfl rfl
theorem ringack (o : KOp) : Statement (.ringack o) := heads_K (by decide) rfl rfl
theorem tlbinv (o : KOp) : Statement (.tlbinv o) := heads_K (by decide) rfl rfl
theorem cntr (o : KOp) : Statement (.cntr o) := heads_K (by decide) rfl rfl
theorem cntc (o : KOp) : Statement (.cntc o) := heads_K (by decide) rfl rfl
theorem ctxsv (o : KOp) : Statement (.ctxsv o) := heads_K (by decide) rfl rfl
theorem ctxld (o : KOp) : Statement (.ctxld o) := heads_K (by decide) rfl rfl
theorem vfctlQuiesce (o : KOp) : Statement (.vfctlQuiesce o) := heads_K (by decide) rfl rfl
theorem vfctlResume (o : KOp) : Statement (.vfctlResume o) := heads_K (by decide) rfl rfl
theorem vfctlRdq (o : KOp) : Statement (.vfctlRdq o) := heads_K (by decide) rfl rfl
theorem vfctlWrq (o : KOp) : Statement (.vfctlWrq o) := heads_K (by decide) rfl rfl
theorem dirtyrd (o : KOp) : Statement (.dirtyrd o) := heads_K (by decide) rfl rfl
theorem halt (o : KOp) : Statement (.halt o) := heads_K (by decide) rfl rfl
theorem wfi (o : KOp) : Statement (.wfi o) := heads_K (by decide) rfl rfl
theorem sev (o : KOp) : Statement (.sev o) := heads_K (by decide) rfl rfl
theorem bootImageCheck (got : Option (List Byte × List Byte)) : Statement (.bootImageCheck got) := fun _ h => nomatch h
theorem blockPlacement (launch core slot : Nat) : Statement (.blockPlacement launch core slot) := fun _ h => nomatch h
theorem restorePlacement (part entry core slot : Nat) : Statement (.restorePlacement part entry core slot) := fun _ h => nomatch h
theorem regroupPoint (core slot : Nat) : Statement (.regroupPoint core slot) := fun _ h => nomatch h
theorem loadDataReturn (id : Nat) : Statement (.loadDataReturn id) := fun _ h => nomatch h
theorem sfuResultReturn (c : CtxId) : Statement (.sfuResultReturn c) := fun _ h => nomatch h
theorem sealWindowGrant (core slot : Nat) : Statement (.sealWindowGrant core slot) := fun _ h => nomatch h
theorem blockRetirement (core slot : Nat) : Statement (.blockRetirement core slot) := fun _ h => nomatch h
theorem trapDelivery (core slot : Nat) : Statement (.trapDelivery core slot) := fun _ h => nomatch h
theorem debugHaltStop (core slot : Nat) : Statement (.debugHaltStop core slot) := fun _ h => nomatch h
theorem watchdogExpiry (core slot gang : Nat) : Statement (.watchdogExpiry core slot gang) := fun _ h => nomatch h
theorem placementDeadline (launch : Nat) : Statement (.placementDeadline launch) := fun _ h => nomatch h
theorem resumeDeadline (part : Nat) : Statement (.resumeDeadline part) := fun _ h => nomatch h
theorem preemption (core slot : Nat) : Statement (.preemption core slot) := fun _ h => nomatch h
theorem preemptionDeadline (core slot : Nat) : Statement (.preemptionDeadline core slot) := fun _ h => nomatch h
theorem drainDeadline (core slot : Nat) : Statement (.drainDeadline core slot) := fun _ h => nomatch h
theorem growGrant (core slot : Nat) : Statement (.growGrant core slot) := fun _ h => nomatch h
theorem growDeadlock (core : Nat) : Statement (.growDeadlock core) := fun _ h => nomatch h
theorem interruptEntry (c : CtxId) : Statement (.interruptEntry c) := fun _ h => nomatch h
theorem ticketGrant (core slot : Nat) : Statement (.ticketGrant core slot) := fun _ h => nomatch h
theorem tileFetchPerform (core : Nat) : Statement (.tileFetchPerform core) := fun _ h => nomatch h
theorem mmaEntryExecute (core slot : Nat) : Statement (.mmaEntryExecute core slot) := fun _ h => nomatch h
theorem drnRowExecute (core slot : Nat) : Statement (.drnRowExecute core slot) := fun _ h => nomatch h
theorem accRowTransfer (core slot : Nat) : Statement (.accRowTransfer core slot) := fun _ h => nomatch h
theorem culvertChunk (core eng : Nat) : Statement (.culvertChunk core eng) := fun _ h => nomatch h
theorem pageWalk (id : Nat) : Statement (.pageWalk id) := fun _ h => nomatch h
theorem suuAtomic (id : Nat) : Statement (.suuAtomic id) := fun _ h => nomatch h
theorem sliceWrite (id : Nat) : Statement (.sliceWrite id) := fun _ h => nomatch h
theorem lineFill (line : Nat) : Statement (.lineFill line) := fun _ h => nomatch h
theorem lineSettle (line : Nat) : Statement (.lineSettle line) := fun _ h => nomatch h
theorem pondEntryError (slice entry : Nat) : Statement (.pondEntryError slice entry) := fun _ h => nomatch h
theorem l2TagError (slice : Nat) : Statement (.l2TagError slice) := fun _ h => nomatch h
theorem l1EccError (core word : Nat) : Statement (.l1EccError core word) := fun _ h => nomatch h
theorem localEccError (core slot word : Nat) : Statement (.localEccError core slot word) := fun _ h => nomatch h
theorem streamWindowFill (core slot port : Nat) : Statement (.streamWindowFill core slot port) := fun _ h => nomatch h
theorem cellFire (core slot elem : Nat) : Statement (.cellFire core slot elem) := fun _ h => nomatch h
theorem statefulRelease (core slot elem : Nat) : Statement (.statefulRelease core slot elem) := fun _ h => nomatch h
theorem arriveForward (core slot elem : Nat) : Statement (.arriveForward core slot elem) := fun _ h => nomatch h
theorem markerForward (core slot elem : Nat) : Statement (.markerForward core slot elem) := fun _ h => nomatch h
theorem matrixPortIssue (core slot elem : Nat) : Statement (.matrixPortIssue core slot elem) := fun _ h => nomatch h
theorem streamInputSend (core slot port : Nat) : Statement (.streamInputSend core slot port) := fun _ h => nomatch h
theorem streamOutputWrite (core slot port : Nat) : Statement (.streamOutputWrite core slot port) := fun _ h => nomatch h
theorem inputPortNop (core slot port : Nat) : Statement (.inputPortNop core slot port) := fun _ h => nomatch h
theorem accountFlush (core : Nat) : Statement (.accountFlush core) := fun _ h => nomatch h
theorem messageArrival (port : Nat) (dst : BitVec 128) (tag : W64) (payload : List Byte) : Statement (.messageArrival port dst tag payload) := fun _ h => nomatch h
theorem heldMessageRelease (part entry : Nat) : Statement (.heldMessageRelease part entry) := fun _ h => nomatch h
theorem messageDeparture (part : Nat) : Statement (.messageDeparture part) := fun _ h => nomatch h
theorem ringEntryHandout (fn : Nat) (entry : BitVec 128) : Statement (.ringEntryHandout fn entry) := fun _ h => nomatch h
theorem doorbellWrite (fn : Nat) (val : W32) : Statement (.doorbellWrite fn val) := fun _ h => nomatch h
theorem ringConfigWrite (fn offset : Nat) (val : W64) : Statement (.ringConfigWrite fn offset val) := fun _ h => nomatch h
theorem notifyWrite (fn : Nat) (val : W32) : Statement (.notifyWrite fn val) := fun _ h => nomatch h
theorem bar0RegisterWrite (fn offset : Nat) (val : W32) : Statement (.bar0RegisterWrite fn offset val) := fun _ h => nomatch h
theorem bar2Request (fn offset size : Nat) (data : Option (List Byte)) : Statement (.bar2Request fn offset size data) := fun _ h => nomatch h
theorem functionLevelReset (fn : Nat) : Statement (.functionLevelReset fn) := fun _ h => nomatch h
theorem neighborSolicitation (port : Nat) (target : BitVec 128) : Statement (.neighborSolicitation port target) := fun _ h => nomatch h
theorem nextHopTimeout (port : Nat) (addr : BitVec 128) : Statement (.nextHopTimeout port addr) := fun _ h => nomatch h
theorem rd (port : Nat) (f : Flit) (m : LinkMsg) : Statement (.rd port f m) := fun _ h => nomatch h
theorem wr (port : Nat) (f : Flit) (m : LinkMsg) : Statement (.wr port f m) := fun _ h => nomatch h
theorem atm (port : Nat) (f : Flit) (m : LinkMsg) : Statement (.atm port f m) := fun _ h => nomatch h
theorem rdata (port : Nat) (f : Flit) (m : LinkMsg) : Statement (.rdata port f m) := fun _ h => nomatch h
theorem wack (port : Nat) (f : Flit) (m : LinkMsg) : Statement (.wack port f m) := fun _ h => nomatch h
theorem fail (port : Nat) (f : Flit) (m : LinkMsg) : Statement (.fail port f m) := fun _ h => nomatch h
theorem nak (port ack : Nat) : Statement (.nak port ack) := fun _ h => nomatch h
theorem ctrl (port ack req resp : Nat) (linkup : Bool) : Statement (.ctrl port ack req resp linkup) := fun _ h => nomatch h
theorem flitCrcFail (port : Nat) : Statement (.flitCrcFail port) := fun _ h => nomatch h
theorem corhoebLinkDown (port : Nat) : Statement (.corhoebLinkDown port) := fun _ h => nomatch h
theorem linkRetrain (port : Nat) : Statement (.linkRetrain port) := fun _ h => nomatch h
theorem registerFileEccError (core slot key : Nat) : Statement (.registerFileEccError core slot key) := fun _ h => nomatch h
theorem unassignedOpcode (parcel : W32) (second : W32) : Statement (.unassignedOpcode parcel second) := heads_unassigned _ _
theorem columnClearingComplete (column : Nat) : Statement (.columnClearingComplete column) := fun _ h => nomatch h
theorem idle (port ack : Nat) : Statement (.idle port ack) := fun _ h => nomatch h
theorem neighborAdvertisement (port : Nat) (addr : BitVec 128) (mac : BitVec 48) : Statement (.neighborAdvertisement port addr mac) := fun _ h => nomatch h
theorem hostAccessCompletion (id : Nat) (data : Option (List Byte)) : Statement (.hostAccessCompletion id data) := fun _ h => nomatch h
theorem ethernetLinkDown (port : Nat) : Statement (.ethernetLinkDown port) := fun _ h => nomatch h
theorem packageReset : Statement .packageReset := fun _ h => nomatch h
theorem bootRetry : Statement .bootRetry := fun _ h => nomatch h
theorem powerCapWindow : Statement .powerCapWindow := fun _ h => nomatch h
theorem thermalThrottle : Statement .thermalThrottle := fun _ h => nomatch h
theorem thermalReset : Statement .thermalReset := fun _ h => nomatch h
theorem getnonce : Statement .getnonce := fun _ h => nomatch h
theorem claim : Statement .claim := fun _ h => nomatch h
theorem handover : Statement .handover := fun _ h => nomatch h
theorem release : Statement .release := fun _ h => nomatch h
theorem unfreeze : Statement .unfreeze := fun _ h => nomatch h
theorem ownerq : Statement .ownerq := fun _ h => nomatch h
theorem partset : Statement .partset := fun _ h => nomatch h
theorem partreset : Statement .partreset := fun _ h => nomatch h
theorem lend : Statement .lend := fun _ h => nomatch h
theorem reclaim : Statement .reclaim := fun _ h => nomatch h
theorem bindvf : Statement .bindvf := fun _ h => nomatch h
theorem setaddr : Statement .setaddr := fun _ h => nomatch h
theorem peermap : Statement .peermap := fun _ h => nomatch h
theorem sharegrp : Statement .sharegrp := fun _ h => nomatch h
theorem acctassign : Statement .acctassign := fun _ h => nomatch h
theorem cntread : Statement .cntread := fun _ h => nomatch h
theorem cntclear : Statement .cntclear := fun _ h => nomatch h
theorem measure : Statement .measure := fun _ h => nomatch h
theorem bootcfg : Statement .bootcfg := fun _ h => nomatch h
theorem extend : Statement .extend := fun _ h => nomatch h
theorem setweight : Statement .setweight := fun _ h => nomatch h
theorem setfloor : Statement .setfloor := fun _ h => nomatch h
theorem powercap : Statement .powercap := fun _ h => nomatch h
theorem setewt : Statement .setewt := fun _ h => nomatch h
theorem setdeadlines : Statement .setdeadlines := fun _ h => nomatch h
theorem setpools : Statement .setpools := fun _ h => nomatch h
theorem setquota : Statement .setquota := fun _ h => nomatch h
theorem settwin : Statement .settwin := fun _ h => nomatch h
theorem setumbuf : Statement .setumbuf := fun _ h => nomatch h
theorem armread : Statement .armread := fun _ h => nomatch h
theorem armwrite : Statement .armwrite := fun _ h => nomatch h
theorem unitrelease : Statement .unitrelease := fun _ h => nomatch h
theorem resumectx : Statement .resumectx := fun _ h => nomatch h
theorem eventpop : Statement .eventpop := fun _ h => nomatch h
theorem headgateUnknownCmd : Statement .headgateUnknownCmd := fun _ h => nomatch h
theorem getVersion : Statement .getVersion := fun _ h => nomatch h
theorem getCapabilities : Statement .getCapabilities := fun _ h => nomatch h
theorem negotiateAlgorithms : Statement .negotiateAlgorithms := fun _ h => nomatch h
theorem getDigests : Statement .getDigests := fun _ h => nomatch h
theorem getCertificate : Statement .getCertificate := fun _ h => nomatch h
theorem challenge : Statement .challenge := fun _ h => nomatch h
theorem getMeasurements : Statement .getMeasurements := fun _ h => nomatch h
theorem keyExchange : Statement .keyExchange := fun _ h => nomatch h
theorem finish : Statement .finish := fun _ h => nomatch h
theorem endSession : Statement .endSession := fun _ h => nomatch h

end Sys2Proof.Laws.Opcode
end

