-- ==== Sys2Proof/Tests/Slice0.lean ====
section
/-! SUPPORT. Tests: ill-formed terms are refused, words written out from the encoding tables of 04_encoding.md decode to
the instructions they stand for, every statement with hypotheses has a state and operands that meet them. -/

namespace Sys2Proof.Tests

set_option Elab.async false

open Sys2Proof Sys2Proof.Machine Sys2Proof.Claims

/-! ## Well-formedness: one ill-formed term for each check -/

def p0 : P0 := ⟨0, false, 0, 0, 0⟩
/-- An immediate without specifier 127. -/
def badR : ROp := ⟨p0, 1⟩
def badMsg : LinkMsg := { size := 3, aop := 0, any := false, dbl := false, poison := false, sys := false, src := 0, part := 0, tag := 0, code := 0, addr := 0, data := [] }
def flit0 : Flit := ⟨0, 0, true⟩
def illFormed (l : List Instr) : Bool := l.all fun i => !i.wellFormed

theorem test_illformed_immediate : illFormed [
  .add .g badR, .sub .g badR, .mul .g badR, .mulh .g badR, .mulhu .g badR, .div .g badR, .divu .g badR, .rem .g badR,
  .remu .g badR, .neg .g badR, .abs .g badR, .min .g badR, .max .g badR, .minu .g badR, .maxu .g badR, .addsat .g badR,
  .subsat .g badR, .and .g badR, .or .g badR, .xor .g badR, .andn .g badR, .not .g badR, .shl .g badR, .shr .g badR,
  .sar .g badR, .rol .g badR, .clz .g badR, .popc .g badR, .brev .g badR, .mov .g badR, .ticket badR, .trel badR,
  .azero badR, .setvl badR, .shfl badR, .vperm badR, .vcmprs badR, .vexpnd badR, .vslide badR, .vid badR, .vbcast badR,
  .ret badR, .rejoin badR, .nop badR, .hop badR, .rett badR, .bkpt badR, .launch badR, .arm badR, .send badR, .cfg badR,
  .splice badR, .drainf badR, .drainfSlice ⟨{ p0 with dreg := 1 }, 1⟩] = true := by decide +kernel

theorem test_illformed_other_constructor : illFormed [
  .tfetch ⟨p0, 0x10000000⟩, .tfetch ⟨p0, 0x08000000⟩, .tfetchM ⟨p0, 0x08000000⟩, .tfetchR ⟨p0, 0x18000000⟩, .tfetchR ⟨p0, 0⟩,
  .drainf ⟨{ p0 with dreg := 1 }, 0⟩, .drainfSlice ⟨p0, 0⟩,
  .mts ⟨p0, 0x191⟩, .mts ⟨p0, 0x115⟩, .mts ⟨p0, 0x116⟩, .mts ⟨{ p0 with srcA := 73 }, 0x185⟩, .mts ⟨{ p0 with srcA := 74 }, 0x185⟩,
  .mts ⟨{ p0 with srcA := 75 }, 0x185⟩, .svrunResume ⟨{ p0 with srcA := 74 }, 0x185⟩, .svrunResume ⟨{ p0 with srcA := 73 }, 0x184⟩,
  .svrunAbort ⟨{ p0 with srcA := 73 }, 0x185⟩, .svrunAbort ⟨{ p0 with srcA := 74 }, 0x184⟩, .svrunDeliver ⟨{ p0 with srcA := 72 }, 0x185⟩,
  .svrunDeliver ⟨{ p0 with srcA := 75 }, 0x184⟩, .svinit ⟨p0, 0x190⟩, .hostint ⟨p0, 0x116⟩, .ringack ⟨p0, 0x115⟩,
  .vfctlQuiesce ⟨p0, 0x100000⟩, .vfctlQuiesce ⟨p0, 0x200000⟩, .vfctlQuiesce ⟨p0, 0x300000⟩, .vfctlResume ⟨p0, 0⟩,
  .vfctlRdq ⟨p0, 0x300000⟩, .vfctlWrq ⟨p0, 0x200000⟩] = true := by decide +kernel

theorem test_illformed_unassigned : illFormed [
  .unassignedOpcode 0x00000000 0, .unassignedOpcode 0x25000000 1, .unassignedOpcode 0xFE000000 1, .unassignedOpcode 0xCF000000 0x02000000,
  .unassignedOpcode 0xD0000000 0x03000000, .unassignedOpcode 0xFF000000 0x0B000000, .unassignedOpcode 0xC0000000 0] = true := by decide +kernel

theorem test_illformed_core_slot : illFormed [
  .blockPlacement 1 192 0, .blockPlacement 1 0 8, .restorePlacement 32 0 0 0, .restorePlacement 0 0 192 0, .restorePlacement 0 0 0 8,
  .regroupPoint 192 0, .regroupPoint 0 8, .sfuResultReturn (.blk 192 0), .sfuResultReturn (.blk 0 8), .sfuResultReturn (.sup 192),
  .sfuResultReturn (.sys 8), .sealWindowGrant 192 0, .sealWindowGrant 0 8, .blockRetirement 192 0, .blockRetirement 0 8,
  .trapDelivery 192 0, .trapDelivery 0 8, .debugHaltStop 192 0, .debugHaltStop 0 8, .watchdogExpiry 192 0 0, .watchdogExpiry 0 8 0,
  .watchdogExpiry 0 0 32, .resumeDeadline 32, .preemption 192 0, .preemption 0 8, .preemptionDeadline 192 0, .preemptionDeadline 0 8,
  .drainDeadline 192 0, .drainDeadline 0 8, .growGrant 192 0, .growGrant 0 8, .growDeadlock 192, .interruptEntry (.sup 192),
  .ticketGrant 192 0, .ticketGrant 0 8, .tileFetchPerform 192, .mmaEntryExecute 192 0, .mmaEntryExecute 0 8, .drnRowExecute 192 0,
  .drnRowExecute 0 8, .accRowTransfer 192 0, .accRowTransfer 0 8, .culvertChunk 192 0, .culvertChunk 0 2, .localEccError 192 0 0,
  .localEccError 0 8 0, .accountFlush 192, .l1EccError 200 0, .l1EccError 0 0xC00000000, .registerFileEccError 200 0 0,
  .registerFileEccError 0 9 0] = true := by decide +kernel

theorem test_illformed_fabric : illFormed [
  .streamWindowFill 192 0 0, .streamWindowFill 0 8 0, .streamWindowFill 0 0 96, .cellFire 192 0 0, .cellFire 0 8 0, .cellFire 0 0 486,
  .statefulRelease 192 0 0, .statefulRelease 0 8 0, .statefulRelease 0 0 486, .arriveForward 192 0 0, .arriveForward 0 8 0,
  .arriveForward 0 0 486, .markerForward 192 0 0, .markerForward 0 8 0, .markerForward 0 0 486, .matrixPortIssue 192 0 0,
  .matrixPortIssue 0 8 0, .matrixPortIssue 0 0 486, .streamInputSend 192 0 0, .streamInputSend 0 8 0, .streamInputSend 0 0 96,
  .streamOutputWrite 192 0 0, .streamOutputWrite 0 8 0, .streamOutputWrite 0 0 96, .inputPortNop 192 0 0, .inputPortNop 0 8 0,
  .inputPortNop 0 0 96] = true := by decide +kernel

theorem test_illformed_package : illFormed [
  .lineFill 0xC0000000, .lineSettle 0xC0000000, .pondEntryError 320 0, .pondEntryError 0 16384, .l2TagError 320,
  .messageArrival 2 0 0 [], .heldMessageRelease 32 0, .messageDeparture 32, .ringEntryHandout 129 0, .doorbellWrite 129 0,
  .ringConfigWrite 129 0 0, .notifyWrite 129 0, .bar0RegisterWrite 129 0 0, .bar2Request 129 0 4 none, .functionLevelReset 129,
  .neighborSolicitation 2 0, .nextHopTimeout 2 0, .rd 0 flit0 badMsg, .wr 0 flit0 badMsg, .atm 0 flit0 badMsg, .rdata 0 flit0 badMsg,
  .wack 0 flit0 badMsg, .fail 0 flit0 badMsg, .rd 16 flit0 { badMsg with size := 1 }, .wr 16 flit0 { badMsg with size := 1 },
  .atm 16 flit0 { badMsg with size := 1 }, .rdata 16 flit0 { badMsg with size := 1 }, .wack 16 flit0 { badMsg with size := 1 },
  .fail 16 flit0 { badMsg with size := 1 }, .rd 0 flit0 { badMsg with size := 8, addr := 4 }, .rd 0 flit0 { badMsg with size := 1, tag := 4096 },
  .rd 0 flit0 { badMsg with size := 1, addr := 2 ^ 39 }, .nak 16 0, .ctrl 16 0 0 0 true, .flitCrcFail 16, .corhoebLinkDown 16,
  .linkRetrain 16, .columnClearingComplete 32, .idle 16 0, .neighborAdvertisement 2 0 0, .ethernetLinkDown 2] = true := by decide +kernel

/-! ## Decoding: words written out from R92 to R100, R107, R110 to R112 -/

def decodes (l : List (Nat × Nat × Instr)) : Bool := l.all fun r => decodeTableWord r.1 r.2.1 == some r.2.2

theorem test_decode_integer_0 : decodes [
  (64, 0xF85DD116005783F8, .add .g ⟨⟨21, true, 96, 127, 0⟩, 0xF85DD116⟩),
  (64, 0x6ED2E6C940355BFD, .add .s ⟨⟨13, false, 86, 127, 5⟩, 0x6ED2E6C9⟩),
  (32, 0x414B86AC, .sub .s ⟨⟨18, true, 97, 85, 4⟩, 0⟩),
  (32, 0x812B7DE2, .sub .v ⟨⟨10, true, 95, 60, 2⟩, 0⟩),
  (32, 0x82BEB600, .mul .v ⟨⟨47, true, 45, 64, 0⟩, 0⟩),
  (32, 0x27E7413, .mul .g ⟨⟨31, true, 29, 2, 3⟩, 0⟩),
  (32, 0x30F7886, .mulh .g ⟨⟨3, true, 94, 16, 6⟩, 0⟩),
  (64, 0xE07C627743CDA7F8, .mulh .s ⟨⟨51, false, 105, 127, 0⟩, 0xE07C6277⟩),
  (32, 0x442BAEEF, .mulhu .s ⟨⟨10, true, 107, 93, 7⟩, 0⟩),
  (32, 0x842F457D, .mulhu .v ⟨⟨11, true, 81, 47, 5⟩, 0⟩),
  (64, 0x1D57F5F485C8B37E, .mad .v ⟨⟨50, false, 44, 111, 6⟩, 14, 5, false, 11, 15, 5620⟩),
  (64, 0xA7E7EE060592452E, .mad .g ⟨⟨36, true, 17, 37, 6⟩, 83, 7, true, 3, 15, 3590⟩),
  (32, 0x6AE2811, .div .g ⟨⟨43, true, 10, 2, 1⟩, 0⟩),
  (64, 0x7E0547E346C527F8, .div .s ⟨⟨49, false, 73, 127, 0⟩, 0x7E0547E3⟩),
  (32, 0x472B89B1, .divu .s ⟨⟨10, true, 98, 54, 1⟩, 0⟩),
  (32, 0x8710234C, .divu .v ⟨⟨4, false, 8, 105, 4⟩, 0⟩),
  (32, 0x88730121, .rem .v ⟨⟨28, true, 64, 36, 1⟩, 0⟩),
  (32, 0x88BAEBE, .rem .g ⟨⟨34, true, 107, 87, 6⟩, 0⟩),
  (64, 0x7E0EC1B509BA6BFD, .remu .g ⟨⟨46, true, 26, 127, 5⟩, 0x7E0EC1B5⟩),
  (64, 0xBBCAA1DD4957FE10, .remu .s ⟨⟨21, true, 127, 66, 0⟩, 0xBBCAA1DD⟩),
  (32, 0x4A6F283C, .neg .s ⟨⟨27, true, 74, 7, 4⟩, 0⟩),
  (32, 0x8A76D305, .neg .v ⟨⟨29, true, 52, 96, 5⟩, 0⟩),
  (32, 0x8BFFB488, .abs .v ⟨⟨63, true, 109, 17, 0⟩, 0⟩),
  (32, 0xB09B169, .abs .g ⟨⟨2, false, 108, 45, 1⟩, 0⟩)] = true := by decide +kernel

theorem test_decode_integer_1 : decodes [
  (32, 0xC5E0F35, .min .g ⟨⟨23, true, 3, 102, 5⟩, 0⟩),
  (32, 0x4CDD0547, .min .s ⟨⟨55, false, 65, 40, 7⟩, 0⟩),
  (32, 0x4D23035E, .max .s ⟨⟨8, true, 64, 107, 6⟩, 0⟩),
  (64, 0x41569AD88DFA5FFD, .max .v ⟨⟨62, true, 23, 127, 5⟩, 0x41569AD8⟩),
  (32, 0x8ED2AAE5, .minu .v ⟨⟨52, true, 42, 92, 5⟩, 0⟩),
  (32, 0xE5B712F, .minu .g ⟨⟨22, true, 92, 37, 7⟩, 0⟩),
  (32, 0xF503E2B, .maxu .g ⟨⟨20, false, 15, 69, 3⟩, 0⟩),
  (32, 0x4F482F4E, .maxu .s ⟨⟨18, false, 11, 105, 6⟩, 0⟩),
  (32, 0x504656E0, .addsat .s ⟨⟨17, true, 21, 92, 0⟩, 0⟩),
  (32, 0x9032B92F, .addsat .v ⟨⟨12, true, 46, 37, 7⟩, 0⟩),
  (32, 0x917544B2, .subsat .v ⟨⟨29, false, 81, 22, 2⟩, 0⟩),
  (32, 0x115D22F5, .subsat .g ⟨⟨23, false, 72, 94, 5⟩, 0⟩),
  (32, 0x12B65EBB, .and .g ⟨⟨45, true, 23, 87, 3⟩, 0⟩),
  (32, 0x52273C46, .and .s ⟨⟨9, true, 79, 8, 6⟩, 0⟩),
  (32, 0x53D2AE9F, .or .s ⟨⟨52, true, 43, 83, 7⟩, 0⟩),
  (32, 0x93D21634, .or .v ⟨⟨52, true, 5, 70, 4⟩, 0⟩),
  (64, 0x5008FF5E949C43FC, .xor .v ⟨⟨39, false, 16, 127, 4⟩, 0x5008FF5E⟩),
  (64, 0xB87C788014B56BFD, .xor .g ⟨⟨45, false, 90, 127, 5⟩, 0xB87C7880⟩),
  (64, 0xD569DE0151FFD12, .andn .g ⟨⟨7, true, 127, 34, 2⟩, 0xD569DE0⟩),
  (32, 0x55798539, .andn .s ⟨⟨30, false, 97, 39, 1⟩, 0⟩),
  (32, 0x56DAD203, .not .s ⟨⟨54, true, 52, 64, 3⟩, 0⟩),
  (32, 0x96F4690E, .not .v ⟨⟨61, false, 26, 33, 6⟩, 0⟩),
  (64, 0xA38F7990970113F8, .shl .v ⟨⟨0, false, 68, 127, 0⟩, 0xA38F7990⟩),
  (32, 0x17A72C95, .shl .g ⟨⟨41, true, 75, 18, 5⟩, 0⟩)] = true := by decide +kernel

theorem test_decode_integer_2 : decodes [
  (32, 0x185288D3, .shr .g ⟨⟨20, true, 34, 26, 3⟩, 0⟩),
  (32, 0x5849920A, .shr .s ⟨⟨18, false, 100, 65, 2⟩, 0⟩),
  (32, 0x5948D98A, .sar .s ⟨⟨18, false, 54, 49, 2⟩, 0⟩),
  (32, 0x99076108, .sar .v ⟨⟨1, true, 88, 33, 0⟩, 0⟩),
  (32, 0x9AA11D9D, .rol .v ⟨⟨40, false, 71, 51, 5⟩, 0⟩),
  (64, 0x31E68FDB1A2BFC2D, .rol .g ⟨⟨10, true, 127, 5, 5⟩, 0x31E68FDB⟩),
  (64, 0x8F9C16341B4DFF0F, .clz .g ⟨⟨19, false, 127, 97, 7⟩, 0x8F9C1634⟩),
  (32, 0x5BAB1236, .clz .s ⟨⟨42, true, 68, 70, 6⟩, 0⟩),
  (64, 0x7D24D7075CE7FD6E, .popc .s ⟨⟨57, true, 127, 45, 6⟩, 0x7D24D707⟩),
  (32, 0x9C408345, .popc .v ⟨⟨16, false, 32, 104, 5⟩, 0⟩),
  (64, 0xD2690D3F9D5DFCE6, .brev .v ⟨⟨23, false, 127, 28, 6⟩, 0xD2690D3F⟩),
  (64, 0xC898052A1D00ABFF, .brev .g ⟨⟨0, false, 42, 127, 7⟩, 0xC898052A⟩),
  (64, 0xD3D998EA1EE0ADAD, .bfx .g ⟨⟨56, false, 43, 53, 5⟩, 105, 7, false, 12, 12, 6378⟩),
  (64, 0xE5DE55E85E8894C5, .bfx .s ⟨⟨34, false, 37, 24, 5⟩, 114, 7, false, 15, 2, 5608⟩),
  (64, 0xD45562B85FADADD1, .bfi .s ⟨⟨43, false, 107, 58, 1⟩, 106, 1, false, 10, 11, 696⟩),
  (64, 0x88688C2D9F2E121B, .bfi .v ⟨⟨11, true, 4, 67, 3⟩, 68, 1, true, 4, 4, 3117⟩),
  (64, 0x66C14CC8A08222B1, .sel .v ⟨⟨32, true, 8, 86, 1⟩, 51, 3, false, 0, 10, 3272⟩),
  (64, 0x8418F33720E72965, .sel .g ⟨⟨57, true, 74, 44, 5⟩, 66, 0, false, 12, 7, 4919⟩),
  (32, 0x2162A0E8, .mov .g ⟨⟨24, true, 40, 29, 0⟩, 0⟩),
  (32, 0x61C83D41, .mov .s ⟨⟨50, false, 15, 40, 1⟩, 0⟩),
  (64, 0xF949D36262A544B9, .cmp .s ⟨⟨41, false, 81, 23, 1⟩, 124, 5, false, 4, 14, 4962⟩),
  (64, 0xB746DFF2A2298166, .cmp .v ⟨⟨10, false, 96, 44, 6⟩, 91, 5, false, 3, 6, 8178⟩),
  (64, 0x2864D3F9A3F972DE, .lea .v ⟨⟨62, false, 92, 91, 6⟩, 20, 1, true, 2, 6, 5113⟩),
  (64, 0x5546B43A235DAE3B, .lea .g ⟨⟨23, false, 107, 71, 3⟩, 42, 5, false, 3, 5, 5178⟩)] = true := by decide +kernel

theorem test_decode_integer_3 : decodes [
  (64, 0x9DAA30632403175B, .plog .g ⟨⟨0, true, 69, 107, 3⟩, 78, 6, true, 5, 1, 4195⟩),
  (64, 0x69993F4064C21DCB, .plog .s ⟨⟨48, true, 7, 57, 3⟩, 52, 6, false, 12, 9, 8000⟩)] = true := by decide +kernel

theorem test_decode_float_0 : decodes [
  (64, 0x9F533C5368BFB9D0, .fadd .s ⟨⟨47, true, 110, 58, 0⟩, 79, 5, false, 9, 9, 7251⟩),
  (64, 0x2AE1064AA857A6DF, .fadd .v ⟨⟨21, true, 105, 91, 7⟩, 21, 3, true, 0, 8, 1610⟩),
  (64, 0x73552E87A9D5129E, .fsub .v ⟨⟨53, false, 68, 83, 6⟩, 57, 5, false, 10, 9, 3719⟩),
  (64, 0x3352B998298D06A9, .fsub .g ⟨⟨35, false, 65, 85, 1⟩, 25, 5, false, 9, 5, 6552⟩),
  (64, 0x8E5C8B692A2393FC, .fmul .g ⟨⟨8, true, 100, 127, 4⟩, 71, 1, false, 14, 4, 2921⟩),
  (64, 0xAE05DB876AC56DC4, .fmul .s ⟨⟨49, false, 91, 56, 4⟩, 87, 0, false, 2, 14, 7047⟩),
  (64, 0xE5F162B16B28CB1E, .fma .s ⟨⟨10, false, 50, 99, 6⟩, 114, 7, true, 8, 11, 689⟩),
  (64, 0xA17DD6AEABD50123, .fma .v ⟨⟨53, false, 64, 36, 3⟩, 80, 5, true, 14, 14, 5806⟩),
  (64, 0x1CAD6801ACAE0CF8, .fmin .v ⟨⟨43, true, 3, 31, 0⟩, 14, 2, true, 6, 11, 2049⟩),
  (64, 0x265D6B032C7D5717, .fmin .g ⟨⟨31, false, 85, 98, 7⟩, 19, 1, false, 14, 11, 2819⟩),
  (64, 0xD8056E872D16CF7E, .fmax .g ⟨⟨5, true, 51, 111, 6⟩, 108, 0, false, 2, 11, 3719⟩),
  (64, 0xB73CF9F66DEFE44C, .fmax .s ⟨⟨59, true, 121, 9, 4⟩, 91, 4, true, 14, 7, 6646⟩),
  (64, 0xF3282F9D6EF73A5E, .fabs .s ⟨⟨61, true, 78, 75, 6⟩, 121, 4, true, 4, 1, 3997⟩),
  (64, 0x5CB05993AE4AA8E3, .fabs .v ⟨⟨18, true, 42, 28, 3⟩, 46, 2, true, 8, 2, 6547⟩),
  (64, 0xBB1DA46BAF9CAC53, .fneg .v ⟨⟨39, false, 43, 10, 3⟩, 93, 4, false, 14, 13, 1131⟩),
  (64, 0xFF3EB6A32F268151, .fneg .g ⟨⟨9, true, 32, 42, 1⟩, 127, 4, true, 15, 5, 5795⟩),
  (64, 0x38FB7A8230882FD3, .fcmp .g ⟨⟨34, false, 11, 122, 3⟩, 28, 3, true, 13, 11, 6786⟩),
  (64, 0x99870DCB70FDC365, .fcmp .s ⟨⟨63, false, 112, 108, 5⟩, 76, 6, false, 3, 8, 3531⟩),
  (64, 0x6FFC8B8171DEF449, .fclass .s ⟨⟨55, true, 61, 9, 1⟩, 55, 7, true, 14, 4, 2945⟩),
  (64, 0x7EA783AAB1CAA74D, .fclass .v ⟨⟨50, true, 41, 105, 5⟩, 63, 2, true, 3, 12, 938⟩),
  (64, 0x948B9FB3B2F6F2F3, .fcvt .v ⟨⟨61, true, 60, 94, 3⟩, 74, 2, false, 5, 12, 8115⟩),
  (64, 0xA08A23FE3269E49A, .fcvt .g ⟨⟨26, false, 121, 19, 2⟩, 80, 2, false, 5, 1, 1022⟩),
  (64, 0x5D0EA3AF33E13BFC, .icvt .g ⟨⟨56, false, 78, 127, 4⟩, 46, 4, false, 7, 5, 943⟩),
  (64, 0xC27C0FBF732D1F56, .icvt .s ⟨⟨11, false, 71, 106, 6⟩, 97, 1, true, 14, 0, 4031⟩)] = true := by decide +kernel

theorem test_decode_float_1 : decodes [
  (64, 0x318158F678D09B62, .frcp .s ⟨⟨52, false, 38, 108, 2⟩, 24, 6, false, 0, 10, 6390⟩),
  (64, 0xBEA00241B85F64C3, .frcp .v ⟨⟨23, true, 89, 24, 3⟩, 95, 2, true, 0, 0, 577⟩),
  (64, 0x70188997B9B40A17, .frsq .v ⟨⟨45, false, 2, 66, 7⟩, 56, 0, false, 12, 4, 2455⟩),
  (64, 0xCFAC955539A1BC9E, .frsq .g ⟨⟨40, false, 111, 19, 6⟩, 103, 6, true, 6, 4, 5461⟩),
  (64, 0xB4E4E6CD3AA732C3, .fsqrt .g ⟨⟨41, true, 76, 88, 3⟩, 90, 3, true, 2, 7, 1741⟩),
  (64, 0xBAB34C687AA799EF, .fsqrt .s ⟨⟨41, true, 102, 61, 7⟩, 93, 2, true, 9, 10, 3176⟩),
  (64, 0xFC69A9E7B6CF327, .fexp2 .s ⟨⟨27, false, 60, 100, 7⟩, 7, 7, false, 3, 4, 6814⟩),
  (64, 0x2DBBAEA2BB775432, .fexp2 .v ⟨⟨29, true, 85, 6, 2⟩, 22, 6, true, 13, 13, 3746⟩),
  (64, 0x495D147DBC05D0B3, .flog2 .v ⟨⟨1, false, 116, 22, 3⟩, 36, 5, false, 14, 8, 5245⟩),
  (64, 0xDDA678073C14C840, .flog2 .g ⟨⟨5, false, 50, 8, 0⟩, 110, 6, true, 3, 3, 6151⟩),
  (64, 0x213D78E83D1489D0, .fsin .g ⟨⟨5, false, 34, 58, 0⟩, 16, 4, true, 14, 11, 6376⟩),
  (64, 0xE2B1E9987DF5B546, .fsin .s ⟨⟨61, false, 109, 40, 6⟩, 113, 2, true, 8, 15, 2456⟩),
  (64, 0x93D23C0A7E7C82CE, .fcos .s ⟨⟨31, false, 32, 89, 6⟩, 73, 7, false, 9, 1, 7178⟩),
  (64, 0xEC49E071BE7E49D3, .fcos .v ⟨⟨31, true, 18, 58, 3⟩, 118, 1, false, 4, 15, 113⟩),
  (64, 0xF456F58BFC45AC6, .ftanh .v ⟨⟨49, false, 22, 88, 6⟩, 7, 5, false, 2, 11, 3928⟩),
  (64, 0x7C57DBEC3F79A8ED, .ftanh .g ⟨⟨30, false, 106, 29, 5⟩, 62, 1, false, 11, 14, 7148⟩)] = true := by decide +kernel

theorem test_decode_memory_0 : decodes [
  (64, 0xFCF9D355C1A054B7, .ld ⟨⟨40, false, 21, 22, 7⟩, 7, 3, 4, 7, 0x19D355⟩),
  (64, 0x8088FF0EC2DCCCD2, .st ⟨⟨55, false, 51, 26, 2⟩, 4, 0, 0, 4, 0x8FF0E⟩),
  (64, 0x20932524C309875C, .ldl ⟨⟨2, false, 97, 107, 4⟩, 1, 0, 0, 4, 0x132524⟩),
  (64, 0x24E034E5C48A5097, .stl ⟨⟨34, true, 20, 18, 7⟩, 1, 0, 4, 7, 0x34E5⟩),
  (64, 0x716EF6B8C5FAB488, .ldp ⟨⟨62, true, 45, 17, 0⟩, 3, 2, 1, 3, 0xEF6B8⟩),
  (64, 0x8560AAFFC69B6E49, .stp ⟨⟨38, true, 91, 73, 1⟩, 4, 0, 5, 3, 0xAAFF⟩),
  (64, 0x34474FFAC7E5DEAF, .ldg ⟨⟨57, false, 119, 85, 7⟩, 1, 2, 4, 2, 0x74FFA⟩),
  (64, 0x157146A6C8FD976C, .sts ⟨⟨63, false, 101, 109, 4⟩, 0, 2, 5, 3, 0x1146A6⟩),
  (64, 0xED6ECE99C93FE61D, .pref ⟨⟨15, true, 121, 67, 5⟩, 7, 1, 5, 3, 0xECE99⟩),
  (64, 0x519D90E7CAA53B43, .atom ⟨⟨41, false, 78, 104, 3⟩, 2, 2, 1, 4, 0x1D90E7⟩),
  (64, 0x377431FFCB6CC13D, .red ⟨⟨27, false, 48, 39, 5⟩, 1, 2, 7, 3, 0x1431FF⟩),
  (64, 0xD543A28DCC7FCB3B, .fence ⟨⟨31, true, 114, 103, 3⟩, 6, 2, 5, 2, 0x3A28D⟩),
  (64, 0x5FDDA759CDEB5C64, .waita ⟨⟨58, true, 87, 12, 4⟩, 2, 3, 7, 6, 0x1DA759⟩),
  (64, 0x517D026CE79B6B0, .cflush ⟨⟨30, false, 109, 86, 0⟩, 0, 0, 5, 0, 0x17D026⟩)] = true := by decide +kernel

theorem test_decode_group_0 : decodes [
  (64, 0x956A40CFDE2CCD, .cpkick ⟨⟨55, true, 11, 25, 5⟩, 0x956A40⟩),
  (64, 0x1560491CFE085F2, .cpwait ⟨⟨56, false, 33, 62, 2⟩, 0x560491⟩),
  (64, 0x2DC2493CF7AFA03, .cpdrain ⟨⟨30, true, 62, 64, 3⟩, 0xDC2493⟩),
  (64, 0x87EED6D00219B5, .bari ⟨⟨0, true, 6, 54, 5⟩, 0x87EED6⟩),
  (64, 0x1ECC183D09AD527, .bara ⟨⟨38, true, 53, 36, 7⟩, 0xECC183⟩),
  (64, 0x2E27781D0FC436B, .barw ⟨⟨63, false, 16, 109, 3⟩, 0xE27781⟩),
  (64, 0x3142CBFD032D4A2, .barl ⟨⟨12, true, 53, 20, 2⟩, 0x142CBF⟩),
  (64, 0x8056EED48857B4, .cvset ⟨⟨34, false, 21, 118, 4⟩, 0x8056EE⟩),
  (64, 0x19495E3D4E2BB74, .cvsign ⟨⟨56, true, 46, 110, 4⟩, 0x9495E3⟩),
  (64, 0xFD6912DBCC24FC, .agset ⟨⟨51, false, 9, 31, 4⟩, 0xFD6912⟩),
  (64, 0x137EEF5DB7875DC, .agget ⟨⟨30, false, 29, 59, 4⟩, 0x37EEF5⟩),
  (64, 0xD6A624EDEA609D, .exit ⟨⟨58, true, 24, 19, 5⟩, 0xD6A624⟩),
  (64, 0x14146F0ED80AA76, .yield ⟨⟨32, false, 42, 78, 6⟩, 0x4146F0⟩),
  (64, 0x2F8670AED6A3FCA, .wdog ⟨⟨26, true, 15, 121, 2⟩, 0xF8670A⟩),
  (64, 0xE9A041F4A82B47, .grow ⟨⟨42, false, 10, 104, 7⟩, 0xE9A041⟩),
  (64, 0x13A15D3F4BCCC95, .shrink ⟨⟨47, false, 51, 18, 5⟩, 0x3A15D3⟩)] = true := by decide +kernel

theorem test_decode_class_11_0 : decodes [
  (96, 0xFEDCBA9876543210C0260003, .movw ⟨⟨9, true, 0, 0, 3⟩, 0xFEDCBA9876543210⟩),
  (32, 0xD123B105, .ticket ⟨⟨8, true, 108, 32, 5⟩, 0⟩),
  (64, 0x45459D9AD2BB1C9A, .tfetch ⟨⟨46, true, 71, 19, 2⟩, 0x45459D9A⟩),
  (64, 0x375C29FCD285EC4C, .tfetchM ⟨⟨33, false, 123, 9, 4⟩, 0x375C29FC⟩),
  (64, 0x8AC8D8A0D286A66E, .tfetchR ⟨⟨33, true, 41, 77, 6⟩, 0x8AC8D8A0⟩),
  (32, 0xD3A4E4BD, .trel ⟨⟨41, false, 57, 23, 5⟩, 0⟩),
  (64, 0xC374A01CD5CCD64F, .mma ⟨⟨51, false, 53, 73, 7⟩, 0xC374A01C⟩),
  (64, 0x59D55AC4D6862FF9, .mmas ⟨⟨33, true, 11, 127, 1⟩, 0x59D55AC4⟩),
  (32, 0xD768DA41, .azero ⟨⟨26, false, 54, 72, 1⟩, 0⟩),
  (64, 0xCBBCC252D8E69CFA, .ald ⟨⟨57, true, 39, 31, 2⟩, 0xCBBCC252⟩),
  (64, 0x4944AA94D98D3723, .ast ⟨⟨35, false, 77, 100, 3⟩, 0x4944AA94⟩),
  (64, 0x2BB9559FDA65DD17, .drn ⟨⟨25, false, 119, 34, 7⟩, 0x2BB9559F⟩),
  (32, 0xDC8CA642, .setvl ⟨⟨35, false, 41, 72, 2⟩, 0⟩),
  (32, 0xDD10B5B0, .shfl ⟨⟨4, false, 45, 54, 0⟩, 0⟩),
  (32, 0xDE344741, .vperm ⟨⟨13, false, 17, 104, 1⟩, 0⟩),
  (64, 0x83A94FB1DFE99159, .vred ⟨⟨58, false, 100, 43, 1⟩, 0x83A94FB1⟩),
  (64, 0x1787C64DE0B81D2A, .vscan ⟨⟨46, false, 7, 37, 2⟩, 0x1787C64D⟩),
  (64, 0x968775E1E1AFFE21, .vcmprs ⟨⟨43, true, 127, 68, 1⟩, 0x968775E1⟩),
  (32, 0xE24EE4C5, .vexpnd ⟨⟨19, true, 57, 24, 5⟩, 0⟩),
  (32, 0xE3384F14, .vslide ⟨⟨14, false, 19, 98, 4⟩, 0⟩),
  (32, 0xE484A6EB, .vid ⟨⟨33, false, 41, 93, 3⟩, 0⟩),
  (64, 0x452DEFB0E51F57FB, .vbcast ⟨⟨7, true, 85, 127, 3⟩, 0x452DEFB0⟩),
  (64, 0xA4E6A1AFE63EFD9D, .qnt ⟨⟨15, true, 63, 51, 5⟩, 0xA4E6A1AF⟩),
  (64, 0x127B846CE745609B, .dqnt ⟨⟨17, false, 88, 19, 3⟩, 0x127B846C⟩)] = true := by decide +kernel

theorem test_decode_class_11_1 : decodes [
  (64, 0x7B3934F9E8E48043, .br ⟨⟨57, false, 32, 8, 3⟩, 0x7B3934F9⟩),
  (64, 0x2E5CCF8E9A1DDC8, .jmp ⟨⟨40, false, 119, 57, 0⟩, 0x2E5CCF8⟩),
  (64, 0x92236C24EA331DE6, .call ⟨⟨12, true, 71, 60, 6⟩, 0x92236C24⟩),
  (32, 0xEB7431D0, .ret ⟨⟨29, false, 12, 58, 0⟩, 0⟩),
  (64, 0xFD658F9FECCEE7FD, .rejoin ⟨⟨51, true, 57, 127, 5⟩, 0xFD658F9F⟩),
  (32, 0xEEA41AEA, .nop ⟨⟨41, false, 6, 93, 2⟩, 0⟩),
  (64, 0x6A4A09C6EF30C3B4, .ep ⟨⟨12, false, 48, 118, 4⟩, 0x6A4A09C6⟩),
  (32, 0xF0E1944F, .hop ⟨⟨56, false, 101, 9, 7⟩, 0⟩),
  (64, 0xED8A4D1FF16742BE, .trap ⟨⟨25, true, 80, 87, 6⟩, 0xED8A4D1F⟩),
  (32, 0xF2CDA185, .rett ⟨⟨51, false, 104, 48, 5⟩, 0⟩),
  (32, 0xF358CA15, .bkpt ⟨⟨22, false, 50, 66, 5⟩, 0⟩),
  (64, 0x16AF498AF53BFE25, .launch ⟨⟨14, true, 127, 68, 5⟩, 0x16AF498A⟩),
  (32, 0xF60E4616, .arm ⟨⟨3, true, 17, 66, 6⟩, 0⟩),
  (32, 0xF762E5C5, .send ⟨⟨24, true, 57, 56, 5⟩, 0⟩),
  (32, 0xF8DED09D, .cfg ⟨⟨55, true, 52, 19, 5⟩, 0⟩),
  (64, 0xD370290F9429D06, .strm ⟨⟨16, true, 39, 32, 6⟩, 0xD370290⟩),
  (64, 0xB2690169FA4894AD, .sbar ⟨⟨18, false, 37, 21, 5⟩, 0xB2690169⟩),
  (64, 0xF36A79E4FBC8AFFB, .splice ⟨⟨50, false, 43, 127, 3⟩, 0xF36A79E4⟩),
  (32, 0xFC036F18, .drainf ⟨⟨0, true, 91, 99, 0⟩, 0⟩),
  (32, 0xFC0568A1, .drainfSlice ⟨⟨1, false, 90, 20, 1⟩, 0⟩),
  (32, 0xFC0AF126, .drainf ⟨⟨2, true, 60, 36, 6⟩, 0⟩),
  (64, 0x92ABC8CCFDCC4076, .fwait ⟨⟨51, false, 16, 14, 6⟩, 0x92ABC8CC⟩)] = true := by decide +kernel

theorem test_decode_system_0 : decodes [
  (64, 0x83E33DFF4E72B1, .mfs ⟨⟨19, true, 28, 86, 1⟩, 0x83E33D⟩),
  (64, 0x4316A3EFFD89EF9, .cntc ⟨⟨54, false, 39, 95, 1⟩, 0x316A3E⟩),
  (64, 0x8BA8CB1FF0A3C8D, .dirtyrd ⟨⟨2, true, 15, 17, 5⟩, 0xBA8CB1⟩),
  (64, 0x17A5104FF8E29B8, .mts ⟨⟨35, true, 10, 55, 0⟩, 0x7A5104⟩),
  (64, 0x1A65185FF1526DB, .svrunResume ⟨⟨5, false, 73, 91, 3⟩, 0xA65185⟩),
  (64, 0x1413185FF532A4C, .svrunAbort ⟨⟨20, true, 74, 73, 4⟩, 0x413185⟩),
  (64, 0x1667185FF7F2DDD, .svrunDeliver ⟨⟨31, true, 75, 59, 5⟩, 0x667185⟩),
  (64, 0x170F185FF06147C, .mts ⟨⟨1, true, 5, 15, 4⟩, 0x70F185⟩),
  (64, 0x1AB2191FF04A987, .svinit ⟨⟨1, false, 42, 48, 7⟩, 0xAB2191⟩),
  (64, 0x1ED2115FF387DAB, .hostint ⟨⟨14, false, 31, 53, 3⟩, 0xED2115⟩),
  (64, 0x1D52116FF06A129, .ringack ⟨⟨1, true, 40, 37, 1⟩, 0xD52116⟩),
  (64, 0x54490C3FFD06C98, .ctxsv ⟨⟨52, false, 27, 19, 0⟩, 0x4490C3⟩),
  (64, 0x9E16B34FFF4D750, .halt ⟨⟨61, false, 53, 106, 0⟩, 0xE16B34⟩),
  (64, 0x2DA785AFF5CD083, .tlbinv ⟨⟨23, false, 52, 16, 3⟩, 0xDA785A⟩),
  (64, 0x699927EFFEA78B4, .ctxld ⟨⟨58, true, 30, 22, 4⟩, 0x99927E⟩),
  (64, 0xAEFEB75FF3A9D2C, .wfi ⟨⟨14, true, 39, 37, 4⟩, 0xEFEB75⟩),
  (64, 0x331E3A7FFA07087, .cntr ⟨⟨40, false, 28, 16, 7⟩, 0x31E3A7⟩),
  (64, 0x707213FFF283E57, .vfctlQuiesce ⟨⟨10, false, 15, 74, 7⟩, 0x7213F⟩),
  (64, 0x71F785DFF10C937, .vfctlResume ⟨⟨4, false, 50, 38, 7⟩, 0x1F785D⟩),
  (64, 0x72DB7FDFFEC0C8E, .vfctlRdq ⟨⟨59, false, 3, 17, 6⟩, 0x2DB7FD⟩),
  (64, 0x734FE37FFD845BF, .vfctlWrq ⟨⟨54, false, 17, 55, 7⟩, 0x34FE37⟩),
  (64, 0x74C01BBFFACD244, .vfctlQuiesce ⟨⟨43, false, 52, 72, 4⟩, 0x4C01BB⟩),
  (64, 0xB3CB543FFCED64D, .sev ⟨⟨51, true, 53, 73, 5⟩, 0x3CB543⟩),
  (32, 0x25123456, .unassignedOpcode 0x25123456 0)] = true := by decide +kernel

theorem test_decode_system_1 : decodes [
  (32, 0x26123456, .unassignedOpcode 0x26123456 0),
  (32, 0x27123456, .unassignedOpcode 0x27123456 0),
  (32, 0x34123456, .unassignedOpcode 0x34123456 0),
  (32, 0x37123456, .unassignedOpcode 0x37123456 0),
  (32, 0x65123456, .unassignedOpcode 0x65123456 0),
  (32, 0x76123456, .unassignedOpcode 0x76123456 0),
  (32, 0xA7123456, .unassignedOpcode 0xA7123456 0),
  (32, 0xB4123456, .unassignedOpcode 0xB4123456 0),
  (32, 0xFE123456, .unassignedOpcode 0xFE123456 0),
  (64, 0x3000009CF040802, .unassignedOpcode 0xCF040802 0x3000009),
  (64, 0x4000009D0040802, .unassignedOpcode 0xD0040802 0x4000009),
  (64, 0x2000009D4040802, .unassignedOpcode 0xD4040802 0x2000009),
  (64, 0xFF000009DB040802, .unassignedOpcode 0xDB040802 0xFF000009),
  (64, 0x3000009ED040802, .unassignedOpcode 0xED040802 0x3000009),
  (64, 0x2000009F4040802, .unassignedOpcode 0xF4040802 0x2000009),
  (64, 0xC000009FF040802, .unassignedOpcode 0xFF040802 0xC000009),
  (64, 0xFF000009FF040802, .unassignedOpcode 0xFF040802 0xFF000009)] = true := by decide +kernel
/-! ## Small states: a block of each model, supervisor code, a system core -/

/-- One page of 4 GiB with every right: virtual address is physical address. -/
def page : TlbEntry := { asid := 1, part := 0, base := 0, size := 2 ^ 32, frame := 0, rd := true, wr := true, ex := true, dirty := true }
def section_ : VSec := { code := 0x10000, codeBytes := 4096, entry := 0x10008, sites := [(0x10008, 1)], eps := [(1, 0x10010)], base := 16 }
/-- A 32-bit value of each thread, in g1 and v1. -/
def entry0 : MapEntry := { ekind := 0, width := 2, type := 0, len := 1, locs := [⟨1, 1, 0, 0, 0⟩, ⟨1, 1, 0, 0, 0⟩, ⟨0, 0, 0, 0, 0⟩] }
/-- Region 1 is sealed, regions 0, 2 and 3 are open. -/
def kobj : KObj :=
  { asid := 1, addr := 0x8000, defv := 1, nep := 3, vsecs := [some section_, some section_, some section_]
    regions := [{}, { sealed := true, lwset := [(0, 4096)], amask := 255, tmask := 255 }], map := [[], [], [entry0]], promise := 0, claim := {} }
def lpb0 : Lpb :=
  { kobj := 0x8000, nblk := 1, nthr := 4, vpref := 0, mode := 0, regb := 16, prvw := 16, locb := 4096, colmask := 1, prio := 0, dgc := 0, cgb := 0
    acct := 0, crec := 0, args := 0, prvb := 0, evta := 0, zeros := true }
def launch0 : Launch := { lpb := lpb0, obj := 0, part := 0, asid := 1, at_ := 0, waitSince := 0, next := 1 }
/-- Four threads, or the control stream, stand at address 8; registers hold small numbers. -/
def blk0 (m : Model) : Block :=
  { launch := 1, obj := 0, part := 0, asid := 1, prio := 0, vpref := 0, det := 0, coop := false, claim := {}
    regs := { nthr := 4, nblk := 1, plim := 16, pbase := 0x100000, vlen := 4 }
    exec := match m with
      | .threaded => { model := m, threads := List.replicate 4 { pc := 8, live := true }, bundles := [{ id := 1, members := [0, 1, 2, 3], pc := 8 }], nextBundle := 2 }
      | m => { model := m, ctl := { pc := 8, sregs := [(1, 7), (2, 0x1000), (3, 2)] } }
    mem := { budget := 16, vcount := 16, locb := 4096, rowBytes := if m = .threaded then 4096 else 16384
             rows := match m with
               | .threaded => [(1, 7), (2, 5), (4, 64), (65, 9), (66, 3), (68, 68), (129, 1), (130, 8), (132, 72), (193, 4), (194, 6), (196, 76)]
               | _ => [(256, 7), (257, 9), (512, 5), (513, 3), (768, 64), (769, 68), (770, 72), (771, 76)] } }
/-- The state of one block on core 0, slot 0. -/
def with_ (b : Block) (cur : Issuer) : State :=
  { cores := [(0, { slots := [(0, b)], tlb := [page], sup := { pc := 8, asid := 1, sregs := [(1, 7), (2, 0x1000)] } })]
    sys := [(0, { ctl := { pc := 8, asid := 1, sregs := [(1, 7), (2, 0x1000)] } })], dieTlb := [(4, [page])]
    objects := [kobj], launches := [(1, launch0)], iod := { parts := [(0, { count := 1 })] }, nextId := 5, cur }
def bT : Block := blk0 .threaded
def bV : Block := blk0 .vector
def bS : Block := blk0 .spatial
def sT : State := with_ bT (.bundle 0 0 1)
def sV : State := with_ bV (.ctl 0 0)
def sS : State := with_ bS (.ctl 0 0)
def sK : State := with_ bS (.sup 0)
def sY : State := with_ bT (.sys 0)
def cT : Cx := { id := .blk 0 0, kind := .T, acts := [0, 1, 2, 3], pc := 8, line := none }
def cV : Cx := { id := .blk 0 0, kind := .V, acts := [0], pc := 8, line := none }
def cS : Cx := { cV with kind := .S }
def cK : Cx := { cV with id := .sup 0, kind := .K }
def cY : Cx := { cV with id := .sys 0, kind := .Y }
/-- A copy record at local address 0x100, of 16 bytes from 0x200 to 0x300 with its counter at 0x400. -/
def bCp : Block :=
  { bS with exec := { bS.exec with ctl := { bS.exec.ctl with sregs := [(1, 7), (2, 0x100)] } }
            mem := { bS.mem with loc := [(0x101, 2), (0x107, 2), (0x109, 3), (0x10F, 2), (0x110, 16), (0x11D, 4)] } }
def sCp : State := with_ bCp (.ctl 0 0)
def stg0 : Staged := { who := 0, seq := 0, pa := 120, va := 120, bytes := [1, 2, 3, 4, 5, 6, 7, 8] }
/-- Five tables, from the one ASID 1 names at 0x2000 to the page entry at 0x6000. -/
def sWalk : State :=
  { sY with mem := [(0x1010, 1), (0x1011, 0x20), (0x2000, 1), (0x2001, 0x30), (0x3000, 1), (0x3001, 0x40), (0x4000, 1), (0x4001, 0x50),
                    (0x5000, 1), (0x5001, 0x60), (0x6000, 0x1F), (0x6001, 0x70)]
            iod := { sY.iod with asidtb := 0x1000 }
            walks := [{ id := 4, ctx := .sys 0, who := 0, asid := 1, part := 0, va := 0x123, kind := 1 },
                      { id := 3, ctx := .sys 0, who := 0, asid := 2, part := 0, va := 0x123, kind := 0 }] }
/-- A system core alone. -/
def sNone : State := { sY with cores := [], iod := { sY.iod with accts := [(0, 0)] } }
/-- Operand fields. -/
def pp (d : BitVec 6) (a b : BitVec 7) : P0 := ⟨d, false, a, b, 0⟩

/-! ## The hypotheses as checks -/

def entersB (s : State) (cx : Cx) (d : Dec) (rs : List (Nat × List Nat)) : Bool :=
  decide (cxOf s = some cx) && (cx.decodeTrap s d).isNone &&
  decide (((cx.lanes s d).filter fun l => cx.pbit s d.p.grd.toNat l).map (fun l => (l, cx.readLane s d.imm d.srcs l)) =
    rs.map fun r => (r.1, LaneRd.vals r.2)) && (cx.isT || d.srcs.all fun x => !isLatchSpec x.n)

theorem latches_free {s : State} {cx : Cx} {d : Dec} (h : (cx.isT || d.srcs.all fun x => !isLatchSpec x.n) = true) :
    cx.isT = false → ∀ i x, d.srcs[i]? = some x → isLatchSpec x.n = true → cx.read s d.imm i 0 x ≠ Rd.inval := by
  intro ht i x hx hl
  simp only [ht, Bool.false_or, List.all_eq_true, Bool.not_eq_true'] at h
  simp [h x (List.mem_of_getElem? hx)] at hl

theorem entersOf {s : State} {cx : Cx} {d : Dec} {rs : List (Nat × List Nat)}
    (h : (entersB s cx d rs && !(fallNext cx.line cx.pc d.len).2) = true) : Enters s cx d rs := by
  simp only [entersB, Bool.and_eq_true, decide_eq_true_eq, Option.isNone_iff_eq_none, Bool.not_eq_true'] at h
  exact ⟨h.1.1.1.1, h.1.1.1.2, h.1.1.2, latches_free h.1.2, h.2⟩

theorem standsOf {s : State} {cx : Cx} {d : Dec} {rs : List (Nat × List Nat)}
    (h : (entersB s cx d rs && !(fallNext cx.line cx.pc d.len).2) = true) : Stands s cx d rs := by
  have e := entersOf h
  exact ⟨e.here, e.legal, e.reads, e.latches, .inl e.goes⟩

def entersVecB (s : State) (cx : Cx) (d : Dec) (rd : Nat → Nat → Nat) : Bool :=
  decide (cxOf s = some cx) && (cx.decodeTrap s d).isNone && !(fallNext cx.line cx.pc d.len).2 &&
  (List.range d.srcs.length).all fun i => (List.range 256).all fun e =>
    match d.srcs[i]? with
    | some x => decide (cx.read s d.imm i e x = .val (rd i e) false)
    | none => true

theorem entersVecOf {s : State} {cx : Cx} {d : Dec} {rd : Nat → Nat → Nat} (h : entersVecB s cx d rd = true) : EntersVec s cx d rd := by
  simp only [entersVecB, Bool.and_eq_true, decide_eq_true_eq, Option.isNone_iff_eq_none, Bool.not_eq_true', List.all_eq_true,
    List.mem_range] at h
  refine ⟨h.1.1.1, h.1.1.2, ?_, h.1.2⟩
  intro i x hx e he
  have := h.2 i (List.getElem?_eq_some_iff.mp hx).1 e he
  simpa [hx] using this

theorem calmOf {s : State} (h : (s.slices.isEmpty && s.memPoison.isEmpty && s.iod.funcs.all (fun e => !e.2.dten) &&
    s.cores.all fun e => e.2.monitors.isEmpty) = true) : Calm s := by
  simp only [Bool.and_eq_true, List.isEmpty_iff, List.all_eq_true, Bool.not_eq_true'] at h
  obtain ⟨⟨⟨h1, h2⟩, h3⟩, h4⟩ := h
  exact ⟨fun line => by simp [tagOf, sliceOf, h1, Table.getD, Table.get?], h3, h4,
    fun line => by simp [linePoisoned, tagOf, sliceOf, h1, h2, Table.getD, Table.get?]⟩

theorem servesOf {s : State} (h : s.slices = []) : ∀ x, unserved s x = false := fun x => by
  have e : tagOf s (x / 128) = none := by simp [tagOf, sliceOf, h, Table.getD, Table.get?]
  simp [unserved, recallLine, owesBytes, e, sliceOf, h, Table.getD, Table.get?]

theorem numberedOf {s : State} (h : s.pending = []) : Numbered s := by simp [Numbered, h]

def passesB (cx : Cx) (s : State) (wid kind : Nat) (accs : List Acc) : Bool :=
  accs.all (fun a => (cx.checkAcc s wid kind a).isNone && decide (cx.translateAcc s wid kind a = .ok (cx.placed s wid kind a)) &&
    (cx.placed s wid kind a).all (fun q => !unserved s q.pa (coreOfCtx cx.id)) && !cx.rowOwed s wid kind a) && !outsideRead s cx.id

theorem passesOf {cx : Cx} {s : State} {wid kind : Nat} {accs : List Acc} (h : passesB cx s wid kind accs = true) :
    cx.Passes s wid kind accs := by
  simp only [passesB, Bool.and_eq_true, List.all_eq_true, Option.isNone_iff_eq_none, decide_eq_true_eq, Bool.not_eq_true'] at h
  exact ⟨fun a ha => (h.1 a ha).1.1.1, fun a ha => (h.1 a ha).1.1.2, fun a ha _ => (h.1 a ha).1.2, h.2, fun a ha => (h.1 a ha).2⟩

theorem no_frame {s : State} {cx : Cx} {accs : List Acc} {f : Acc → List Piece} (h : framesOf s cx.id = []) :
    ∀ a ∈ accs, ∀ q ∈ f a, ∀ g, frameOf s cx.id (q.pa / 128) = some g → g.state = .clean := by simp [frameOf, h]

theorem byBlk {b? : Option Block} {p : Block → Bool} (h : b?.all (fun b => p b == false) = true) : ∀ b, b? = some b → p b = false := by
  rintro b rfl
  simpa using h

theorem stillOf {s : State} {c : Nat} (h : (s.path.isEmpty && s.pending.isEmpty && (coreOf s c).mq.isEmpty && (coreOf s c).tfq.isEmpty &&
    (coreOf s c).culvert.isEmpty && (coreOf s c).cvs.isEmpty) = true) : Still s c := by
  simp only [Bool.and_eq_true, List.isEmpty_iff] at h
  obtain ⟨⟨⟨⟨⟨h1, h2⟩, h3⟩, h4⟩, h5⟩, h6⟩ := h
  exact ⟨h1, h2, h3, h4, fun e => by simp [h5, Table.getD, Table.get?], by simp [h6]⟩

theorem bySome {α : Type} {o : Option α} {p : α → Prop} [DecidablePred p] (h : o.all (fun x => decide (p x)) = true) :
    ∀ x, o = some x → p x := by
  rintro x rfl
  simpa using h

theorem get_absent {w : Nat} {m : Store w} {a : Nat} (h : ∀ e ∈ m, e.1 ≠ a) : Store.get m a = 0#w := by
  induction m with
  | nil => rfl
  | cons e r ih =>
    obtain ⟨k, v⟩ := e
    simp only [List.mem_cons, forall_eq_or_imp] at h
    simp [Store.get, h.1, ih h.2]

/-- Registers at or beyond `n` hold nothing. -/
theorem g_beyond {m : BlkMem} {n : Nat} (h : m.rows.all (fun e => decide (e.1 % 64 < n)) = true) :
    ∀ l k, n ≤ k → k < 64 → m.g l k = 0 := by
  intro l k h1 h2
  refine get_absent fun e he hk => ?_
  have := List.all_eq_true.mp h e he
  simp only [decide_eq_true_eq, hk, gKey] at this
  omega

/-! ## Witnesses: for every statement with hypotheses a state and operands that meet them -/

/-! ## One step, with results worked out from the spec -/

/-- What a statement says of the state after an instruction that goes on. -/
def after (i : Instr) (s : State) (p : State → Bool) : Bool :=
  match exec i s with
  | .next t => p t
  | _ => false
/-- A thread with a in g1, b in g2, the others with an address of their own in g4; a control stream with a in s1, b in s2. -/
def two (a b : Nat) : State := with_ { bT with mem := { bT.mem with rows := [(1, BitVec.ofNat 32 a), (2, BitVec.ofNat 32 b), (68, 68), (132, 72), (196, 76)] } } (.bundle 0 0 1)
def twoS (a b : Nat) : State :=
  with_ { bS with exec := { bS.exec with ctl := { bS.exec.ctl with sregs := [(1, BitVec.ofNat 64 a), (2, BitVec.ofNat 64 b)] } } } (.ctl 0 0)
def gives (f : ROp → Instr) (a b r : Nat) : Bool := after (f ⟨pp 3 1 2, 0⟩) (two a b) fun t => cT.reg t .g 3 0 == r
def givesS (f : ROp → Instr) (a b r : Nat) : Bool := after (f ⟨pp 3 1 2, 0⟩) (twoS a b) fun t => cS.reg t .s 3 0 == r
def one1 (f : ROp → Instr) (a r : Nat) : Bool := after (f ⟨pp 3 1 0, 0⟩) (two a 0) fun t => cT.reg t .g 3 0 == r

/-- R136: wrapping, signed and unsigned high halves, saturation, the most negative number. -/
theorem test_add_wraps : gives (.add .g) 0xFFFFFFFF 2 1 ∧ givesS (.add .s) (2 ^ 64 - 1) 2 1 := by decide +kernel
theorem test_sub_order : gives (.sub .g) 1 2 0xFFFFFFFF := by decide +kernel
theorem test_mulh_signed : gives (.mulh .g) 0xFFFFFFFE 3 0xFFFFFFFF ∧ gives (.mulhu .g) 0xFFFFFFFE 3 2 := by decide +kernel
theorem test_min_signs : gives (.min .g) 0x80000000 1 0x80000000 ∧ gives (.minu .g) 0x80000000 1 1 := by decide +kernel
theorem test_addsat : gives (.addsat .g) 0x7FFFFFFF 1 0x7FFFFFFF ∧ gives (.subsat .g) 0x80000000 1 0x80000000 := by decide +kernel
theorem test_most_negative : one1 (.neg .g) 0x80000000 0x80000000 ∧ one1 (.abs .g) 0x80000000 0x80000000 := by decide +kernel
/-- R137: toward zero, the remainder's sign, the quotient that does not fit, division by zero with its flag. -/
theorem test_div_signs : gives (.div .g) 0xFFFFFFF9 2 0xFFFFFFFD ∧ gives (.rem .g) 0xFFFFFFF9 2 0xFFFFFFFF := by decide +kernel
theorem test_div_corner : gives (.div .g) 0x80000000 0xFFFFFFFF 0x80000000 ∧ gives (.rem .g) 0x80000000 0xFFFFFFFF 0 := by decide +kernel
theorem test_div_zero : after (.divu .g ⟨pp 3 1 2, 0⟩) (two 7 0) fun t =>
    cT.reg t .g 3 0 == 0xFFFFFFFF && (cT.regs t).fstat.getLsbD 6 := by decide +kernel
/-- R138: its example. -/
theorem test_shifts : gives (.shl .g) 0x80000001 33 0 ∧ gives (.rol .g) 0x80000001 33 3 ∧ gives (.sar .g) 0x80000001 40 0xFFFFFFFF := by decide +kernel
theorem test_bits : one1 (.clz .g) 1 31 ∧ one1 (.popc .g) 0xF0F0 8 ∧ one1 (.brev .g) 1 0x80000000 ∧ gives (.andn .g) 7 5 2 := by decide +kernel
/-- R190: its example, to even and upward. -/
theorem test_fadd_bf16 : after (.fadd .g { p := pp 3 1 2, srcC := 0, rm := 0, sat := false, type := 2, fn4 := 0, z := 0 }) (two 0x3F80 0x3B80) (fun t =>
    cT.reg t .g 3 0 == 0x3F80) ∧ after (.fadd .g { p := pp 3 1 2, srcC := 0, rm := 3, sat := false, type := 2, fn4 := 0, z := 0 }) (two 0x3F80 0x3B80) (fun t =>
    cT.reg t .g 3 0 == 0x3F81) := by decide +kernel
/-- R141: a signed condition into p1 of the thread. -/
theorem test_cmp_lt : after (.cmp .g { p := pp 1 1 2, srcC := 0, rm := 0, sat := false, type := 0, fn4 := 2, z := 0 }) (two 0xFFFFFFFF 1) fun t =>
    cT.pbit t 1 0 := by decide +kernel
/-- A word in local memory lies lowest byte first (R263). -/
theorem test_stl_bytes : after (.stl ⟨pp 0 4 1, 0, 0, 0, 2, 0⟩) (two 0x01020304 0) fun t =>
    ((blockOf t 0 0).map fun b => (Store.get b.mem.loc 0, Store.get b.mem.loc 3)) == some (4, 1) := by decide +kernel
/-- MOVW of the example of R145; the parcels of the examples of R145, R196 and 09_isa_matrix.md. -/
theorem test_example_words : decodeTableWord 96 (wordOf 0xC0140000 0 1) = some (.movw ⟨pp 5 0 0, 2 ^ 32⟩) ∧
    decodeTableWord 64 (wordOf 0x2B100410 0x06440000 0) = some (.fma .g { p := pp 4 1 2, srcC := 3, rm := 1, sat := false, type := 2, fn4 := 0, z := 0 }) ∧
    decodeTableWord 64 (wordOf 0xD4081C00 0x01000000 0) = some (.cvsign ⟨pp 2 7 0, 0⟩) := by decide +kernel


theorem witness_IntegerFunctionResults_0 : ∃ f ∈ integerFns, ∃ (c : Cls) (o : ROp) (s : State) (cx : Cx) (rs : List (Nat × List Nat)), (Enters s cx (rDec o c f.two f.payload) rs) :=
  ⟨_, .head _, .g, ⟨pp 3 1 2, 0⟩, sT, cT, [(0, [7, 5]), (1, [9, 3]), (2, [1, 8]), (3, [4, 6])], entersOf (by decide +kernel)⟩

theorem witness_IntegerFunctionResults_1 : ∃ f ∈ integerFns3, ∃ (c : Cls) (o : XOp) (s : State) (cx : Cx) (rs : List (Nat × List Nat)), (Enters s cx (xDec o c 3 none (xIntOk o f.sat false) f.payload) rs) :=
  ⟨_, .head _, .v, ⟨pp 3 1 2, 1, 0, true, 0, 0, 0⟩, sV, cV, [(0, [7, 5, 7]), (1, [9, 3, 9]), (2, [0, 0, 0]), (3, [0, 0, 0])], entersOf (by decide +kernel)⟩

theorem witness_DivisionResults_0 : ∃ f ∈ divisionFns, ∃ (c : Cls) (o : ROp) (s : State) (cx : Cx) (rs : List (Nat × List Nat)), (Enters s cx (rDec o c true false) rs) ∧
  (((∀ r ∈ rs, bOf r.2 ≠ 0) ∨ bit (cx.fen s) 6 = false)) :=
  ⟨_, .head _, .s, ⟨pp 3 1 9, 0⟩, sY, cY, [(0, [7, 0])], entersOf (by decide +kernel), (by decide +kernel)⟩

theorem witness_MovwResult_0 : ∃ (o : WOp) (s : State) (cx : Cx) (rs : List (Nat × List Nat)), (Enters s cx (movwDec o cx) rs) :=
  ⟨⟨pp 4 0 0, 0x100000002⟩, sT, cT, [(0, []), (1, []), (2, []), (3, [])], entersOf (by decide +kernel)⟩

theorem witness_LatchChainShifts_0 : ∃ f ∈ integerFns, ∃ (o : ROp) (s : State) (cx : Cx) (l : List Nat), (Enters s cx (rDec o .s f.two f.payload) [(0, l)]) ∧
  (cx.pc.toNat / 128 = (cx.next (rDec o .s f.two f.payload)).toNat / 128) :=
  ⟨_, .head _, ⟨pp 3 1 2, 0⟩, sS, cS, [7, 0x1000], entersOf (by decide +kernel), (by decide +kernel)⟩

theorem witness_RoundingIsCorrect_0 : ∃ code ≤ 2, ∃ rm < 4, ∃ (neg : Bool) (m : Nat) (e : Int), (0 < m) :=
  ⟨2, by decide, 3, by decide, true, 5, -140, by decide⟩

theorem witness_ArithmeticRoundsExactly_0 : ∃ code ≤ 2, ∃ rm < 4, ∃ (a b c : Nat) (x y z : Rat), 
  let f := fmtOf code
  (real (f.value a) = some x) ∧
  (real (f.value b) = some y) ∧
  (real (f.value c) = some z) :=
  ⟨0, by decide, 2, by decide, 0x3F800000, 0xBF800000, 0x00000001, 1, -1, (2 : Rat) ^ (-149 : Int), by decide +kernel⟩

theorem witness_FloatFunctionResults_0 : ∃ f ∈ floatFns, ∃ (c : Cls) (o : XOp) (s : State) (cx : Cx) (rs : List (Nat × List Nat)), (Enters s cx (xDec o c f.args (some (f.from_ o)) (f.ok o) true) rs) ∧
  ((∀ r ∈ rs, (f.val c o r.2).2 &&& cx.fen s &&& 0x5F = 0)) :=
  ⟨_, .head _, .v, ⟨pp 3 1 2, 0, 1, false, 0, 0, 0⟩, sV, cV, [(0, [7, 5]), (1, [9, 3]), (2, [0, 0]), (3, [0, 0])], entersOf (by decide +kernel), (by decide +kernel)⟩

theorem witness_EnabledFlagTraps_0 : ∃ f ∈ floatFns, ∃ (c : Cls) (o : XOp) (s : State) (cx : Cx) (rs : List (Nat × List Nat)) (core slot : Nat), (Enters s cx (xDec o c f.args (some (f.from_ o)) (f.ok o) true) rs) ∧
  (cx.id = .blk core slot) ∧
  (cx.isT = false) ∧
  ((∃ r ∈ rs, (f.val c o r.2).2 &&& cx.fen s &&& 0x5F ≠ 0)) :=
  ⟨_, .head _, .s, ⟨pp 3 1 74, 0, 0, false, 0, 0, 0⟩, with_ { bS with regs := { bS.regs with fen := 0x10 } } (.ctl 0 0), cS, [(0, [7, 0x40000000])], 0, 0, entersOf (by decide +kernel), rfl, rfl, (by decide +kernel)⟩

theorem witness_PredicateResults_0 : ∃ (c : Cls) (o : XOp) (s : State) (cx : Cx) (rs : List (Nat × List Nat)), (Enters s cx (xDec o c 2 none (xIntOk o false true && o.fn4.toNat ≤ 11) false false .pred) rs) :=
  ⟨.g, ⟨pp 7 1 2, 0, 0, false, 0, 11, 0⟩, sT, cT, [(0, [7, 5]), (1, [9, 3]), (2, [1, 8]), (3, [4, 6])], entersOf (by decide +kernel)⟩

theorem witness_PredicateResults_1 : ∃ (c : Cls) (o : XOp) (s : State) (cx : Cx) (rs : List (Nat × List Nat)), (Enters s cx (plogDec o c) rs) :=
  ⟨.s, ⟨pp 1 7 0, 0, 0, false, 0, 8, 0⟩, sK, cK, [(0, [])], entersOf (by decide +kernel)⟩

theorem witness_PredicateResults_2 : ∃ (c : Cls) (o : XOp) (s : State) (cx : Cx) (rs : List (Nat × List Nat)), 
  let f := fmtOf o.type.toNat
  (Enters s cx (xDec o c 2 (some o.type.toNat) (o.type.toNat ≤ 2 && !o.sat && o.rm == 0 && o.fn4.toNat ≤ 11) true false .pred) rs) ∧
  ((bit (cx.fen s) 0 = false ∨ ∀ r ∈ rs, floatConditionFlag f o.fn4.toNat (aOf r.2) (bOf r.2) = 0)) :=
  ⟨.v, ⟨pp 2 1 2, 0, 0, false, 1, 7, 0⟩, sV, cV, [(0, [7, 5]), (1, [9, 3]), (2, [0, 0]), (3, [0, 0])], entersOf (by decide +kernel), (by decide +kernel)⟩

theorem witness_SfuResultsReturn_0 : ∃ f ∈ sfuFns, ∃ (c : Cls) (o : XOp) (s : State) (cx : Cx) (rs : List (Nat × List Nat)), (Enters s cx (xDec o c 1 (some o.type.toNat) (roundingForm o) true true) rs) ∧
  (cx.fen s % 32 = 0) ∧
  ((∀ p ∈ s.pending, p.ctx = cx.id → p.sfu = false)) ∧
  (rs.length ≤ 512) :=
  ⟨_, .head _, .g, ⟨pp 3 1 0, 0, 0, false, 0, 0, 0⟩, sT, cT, [(0, [7]), (1, [9]), (2, [1]), (3, [4])], entersOf (by decide +kernel), by decide +kernel⟩


/-- The control stream with an address of the local aperture in s2. -/
def sLoc : State := with_ { bS with exec := { bS.exec with ctl := { bS.exec.ctl with sregs := [(1, 7), (2, 0xFFF00040)] } } } (.ctl 0 0)


theorem witness_VectorMovements_0 : ∃ (o : ROp) (s : State) (cx : Cx) (rs : List (Nat × List Nat)), (Enters s cx (vecDec o (o.p.srcB == 0) [sSrc o.p.srcA] (.reg .s)) rs) :=
  ⟨⟨pp 3 1 0, 0⟩, sV, cV, [(0, [7])], entersOf (by decide +kernel)⟩

theorem witness_VectorMovements_0b : ∃ (o : ROp) (s : State) (cx : Cx) (rs : List (Nat × List Nat)), (Enters s cx (vecDec o (o.p.srcB == 0) [sSrc o.p.srcA] (.reg .s)) rs) :=
  ⟨⟨⟨3, false, 1, 0, 1⟩, 0⟩, sV, cV, [], entersOf (by decide +kernel)⟩

theorem witness_VectorMovements_1 : ∃ f ∈ movements, ∃ (o : ROp) (s : State) (cx : Cx) (rd : Nat → Nat → Nat), (EntersVec s cx (vecDec o (!f.noB || o.p.srcB == 0) (f.srcs o) (.reg .v)) rd) :=
  ⟨_, .head _, ⟨pp 3 1 1, 0⟩, sV, cV, fun i e => if i = 1 then 7 else if e = 0 then 7 else if e = 1 then 9 else 0, entersVecOf (by decide +kernel)⟩

theorem witness_VectorMovements_2 : ∃ (o : ROp) (s : State) (cx : Cx) (rd : Nat → Nat → Nat), (EntersVec s cx (vecDec o (o.p.grd == 0) [vSrc o.p.srcA, pSrc o.p.srcB] (.reg .v)) rd) :=
  ⟨⟨pp 3 1 1, 0⟩, with_ { bV with mem := { bV.mem with preds := [(1, 1)] } } (.ctl 0 0), cV, fun i e => if i = 1 then (if e = 0 then 1 else 0) else if e = 0 then 7 else if e = 1 then 9 else 0, entersVecOf (by decide +kernel)⟩

theorem witness_QuantisingResults_0 : ∃ (o : POp) (s : State) (cx : Cx) (rs : List (Nat × List Nat)), 
  let f := fmtOf (bits o.param.toNat 31 28)
  
  let z := f.w / 8
  
  let block := fun (a : Nat) => (List.range 32).map fun i => bytesVal (((cx.mem s).loadLoc (a + z * i) z).1)
  
  let q := fun (r : Nat × List Nat) => quantize f (bits o.param.toNat 27 25) (block (aOf r.2))
  (Enters s cx (quantDec o cx (bits o.param.toNat 27 25 ≤ 5)) rs) ∧
  (outsideRead s cx.id = false) ∧
  ((∀ r ∈ rs, cx.rowOwed s (32 * z) 0 { sp := .loc, lane := r.1, ea := (aOf r.2 : Nat) } = false ∧
        cx.rowOwed s 32 1 { sp := .loc, lane := r.1, ea := (bOf r.2 : Nat) } = false)) ∧
  ((∀ r ∈ rs, aOf r.2 % z = 0 ∧ aOf r.2 + 32 * z ≤ (cx.mem s).locb ∧ bOf r.2 + 32 ≤ (cx.mem s).locb ∧
        (cx.sealed s = true → inLwset (cx.region s) (bOf r.2) 32 = true) ∧ ((cx.mem s).loadLoc (aOf r.2) (32 * z)).2 = false ∧
        (q r).2.2 &&& cx.fen s &&& 0x5F = 0)) :=
  ⟨⟨pp 3 4 1, 0⟩, sT, cT, [(0, [64, 7]), (1, [68, 9]), (2, [72, 1]), (3, [76, 4])], entersOf (by decide +kernel), rfl, by decide +kernel⟩

theorem witness_QuantisingResults_1 : ∃ (o : POp) (s : State) (cx : Cx) (rs : List (Nat × List Nat)), 
  let v := fun (r : Nat × List Nat) => ofRq8 (fmtOf (bits o.param.toNat 31 28)) (bits o.param.toNat 27 25) (bOf r.2 % 256) (aOf r.2 % 256)
  (Enters s cx (quantDec o cx (bits o.param.toNat 27 25 < 4)) rs) ∧
  ((∀ r ∈ rs, (v r).2 &&& cx.fen s &&& 0x5F = 0)) :=
  ⟨⟨pp 3 1 2, 0x20000000⟩, sV, cV, [(0, [7, 5]), (1, [9, 3]), (2, [0, 0]), (3, [0, 0])], entersOf (by decide +kernel), (by decide +kernel)⟩

theorem witness_ScaledCodes_0 : ∃ (e : Nat) (neg : Bool) (m : Nat) (x : Int), (e < 255) :=
  ⟨254, true, 119, 126, by decide⟩

theorem witness_LocalMemory_0 : ∃ (o : MOp) (s : State) (cx : Cx) (rs : List (Nat × List Nat)), 
  let m := cx.memPlan s o (validIn [.T, .V, .S, .K] []) (loadOk o .loc) .loc false true false
  
  let accs := cx.memAccs s o .loc m rs
  (Enters s cx m.d rs) ∧
  (Numbered s) ∧
  (cx.Passes s (mWid o) 0 accs) :=
  ⟨⟨pp 5 4 0, 0, 0, 0, 2, 0⟩, sT, cT, [(0, [64]), (1, [68]), (2, [72]), (3, [76])], entersOf (by decide +kernel), numberedOf rfl, passesOf (by decide +kernel)⟩

theorem witness_LocalMemory_1 : ∃ (o : MOp) (s : State) (cx : Cx) (rs : List (Nat × List Nat)), 
  let m := cx.memPlan s o (validIn [.T, .V, .S, .K] []) (storeOk o .loc) .loc false true true
  
  let accs := cx.memAccs s o .loc m rs
  (Enters s cx m.d rs) ∧
  (cx.Passes s (mWid o) 1 accs) ∧
  (cx.Clear s o) :=
  ⟨⟨pp 0 4 1, 0, 0, 0, 2, 8⟩, sT, cT, [(0, [64, 7]), (1, [68, 9]), (2, [72, 1]), (3, [76, 4])], entersOf (by decide +kernel), passesOf (by decide +kernel), (by unfold Cx.Clear; decide +kernel)⟩

theorem witness_LoadsFromMemory_0 : ∃ f ∈ globalLoads, ∃ (o : MOp) (s : State) (cx : Cx) (rs : List (Nat × List Nat)), 
  let m := f.load cx s o
  
  let accs := cx.memAccs s o f.sp m rs
  (Enters s cx m.d rs) ∧
  (Numbered s) ∧
  (Calm s) ∧
  (s.path = []) ∧
  (cx.Passes s (mWid o) 0 accs) ∧
  ((∀ a ∈ accs, ∀ q ∈ cx.placed s (mWid o) 0 a, cx.Cold s q)) ∧
  ((cx.sealed s = true → mAcq o = false ∨ mWide o = false)) ∧
  ((∀ b, cx.blk s = some b → b.stage.staged = [] ∧ b.stage.window = [])) ∧
  ((f.sp = .prv → s.slices = [])) :=
  ⟨_, .head _, ⟨pp 5 2 0, 3, 1, 0, 3, 2097144⟩, sY, cY, [(0, [0x1000])], entersOf (by decide +kernel), numberedOf rfl, calmOf (by decide +kernel), rfl, passesOf (by decide +kernel), (by unfold Cx.Cold; decide +kernel), fun h => absurd h (by decide +kernel), (by intro _ h; cases h), fun _ => rfl⟩

theorem witness_MisalignedLoadsTrap_0 : ∃ f ∈ ⟨.ldl, validIn [.T, .V, .S, .K] [], .loc, false, true⟩ :: globalLoads, ∃ (o : MOp) (s : State) (cx : Cx) (rs : List (Nat × List Nat)), 
  let m := f.load cx s o
  
  let accs := cx.memAccs s o f.sp m rs
  (Enters s cx m.d rs) ∧
  (cx.isT = false) ∧
  ((cx.sealed s = true → mAcq o = false ∨ mWide o = false)) ∧
  ((∀ a ∈ accs, cx.rowOwed s (mWid o) 0 a = false)) ∧
  (outsideRead s cx.id = false) ∧
  ∃ low ∈ accs, (low.ea % mWid o ≠ 0) ∧
  ((∀ a ∈ accs, a.ea % mWid o ≠ 0 → low.ea ≤ a.ea)) :=
  ⟨_, .head _, ⟨pp 5 2 0, 0, 0, 0, 2, 1⟩, sS, cS, [(0, [0x1000])], entersOf (by decide +kernel), rfl, (by decide +kernel), (by decide +kernel), rfl, { sp := .loc, lane := 0, ea := 0x1001, t := 0, data := [] }, by decide +kernel⟩

theorem witness_StoresJoinThePath_0 : ∃ f ∈ globalStores, ∃ (o : MOp) (s : State) (cx : Cx) (rs : List (Nat × List Nat)), 
  let m := f.store cx s o
  
  let accs := cx.memAccs s o f.sp m rs
  (Enters s cx m.d rs) ∧
  (cx.sealed s = false) ∧
  (cx.det s = 0) ∧
  (cx.Passes s (mWid o) 1 accs) ∧
  (cx.Clear s o) ∧
  ((∀ a ∈ accs, ∀ q ∈ cx.placed s (mWid o) 1 a, ∀ g, frameOf s cx.id (q.pa / 128) = some g → g.state = .clean)) :=
  ⟨_, .head _, ⟨pp 0 4 1, 3, 2, 0, 2, 0⟩, sT, cT, [(0, [64, 7]), (1, [68, 9]), (2, [72, 1]), (3, [76, 4])], entersOf (by decide +kernel), (by decide +kernel), rfl, passesOf (by decide +kernel), (by unfold Cx.Clear; decide +kernel), no_frame rfl⟩

theorem witness_PrivateStores_0 : ∃ (o : MOp) (s : State) (cx : Cx) (rs : List (Nat × List Nat)), 
  let f : Access := ⟨.stp, validIn [.T, .V] [], .prv, false, true⟩
  
  let m := f.store cx s o
  
  let accs := cx.memAccs s o .prv m rs
  (Enters s cx m.d rs) ∧
  (cx.sealed s = false) ∧
  (cx.det s = 0) ∧
  (Calm s) ∧
  (s.slices = []) ∧
  (s.path = []) ∧
  ((coreOf s cx.core).tfq = []) ∧
  (cx.Passes s (mWid o) 1 accs) ∧
  ((∀ a ∈ accs, ∀ q ∈ cx.placed s (mWid o) 1 a, cx.Cold s q)) :=
  ⟨⟨pp 0 1 2, 0, 0, 0, 0, 0⟩, sT, cT, [(0, [7, 5]), (1, [9, 3]), (2, [1, 8]), (3, [4, 6])], entersOf (by decide +kernel), (by decide +kernel), rfl, calmOf (by decide +kernel), rfl, rfl, rfl, passesOf (by decide +kernel), (by unfold Cx.Cold; decide +kernel)⟩

theorem witness_StagedStores_0 : ∃ f ∈ allStores, ∃ (o : MOp) (s : State) (cx : Cx) (rs : List (Nat × List Nat)) (b : Block), 
  let m := f.store cx s o
  
  let accs := cx.memAccs s o f.sp m rs
  
  let recs := accs.flatMap fun a => (cx.placed s (mWid o) 1 a).flatMap fun q =>
    (chunks8 3 q.pa (piece (mWid o) a q)).map fun c => (a.lane, c.1, c.2)
  (Enters s cx m.d rs) ∧
  (cx.blk s = some b) ∧
  (cx.Passes s (mWid o) 1 accs) ∧
  (cx.Clear s o) ∧
  (((cx.sealed s = true ∧ (mRel o = false ∨ mWide o = false) ∧ b.stage.window.length + recs.length ≤ 4096) ∨
        (cx.sealed s = false ∧ b.det ≠ 0 ∧ b.stage.staged.length + recs.length ≤ 16384))) :=
  ⟨_, .head _, ⟨pp 0 4 1, 1, 0, 0, 2, 0⟩, with_ { bT with region := 1 } (.bundle 0 0 1), cT, [(0, [64, 7]), (1, [68, 9]), (2, [72, 1]), (3, [76, 4])], { bT with region := 1 }, entersOf (by decide +kernel), rfl, passesOf (by decide +kernel), (by unfold Cx.Clear; decide +kernel), .inl (by decide +kernel)⟩

theorem witness_StagedStores_0b : ∃ f ∈ allStores, ∃ (o : MOp) (s : State) (cx : Cx) (rs : List (Nat × List Nat)) (b : Block), 
  let m := f.store cx s o
  
  let accs := cx.memAccs s o f.sp m rs
  
  let recs := accs.flatMap fun a => (cx.placed s (mWid o) 1 a).flatMap fun q =>
    (chunks8 3 q.pa (piece (mWid o) a q)).map fun c => (a.lane, c.1, c.2)
  (Enters s cx m.d rs) ∧
  (cx.blk s = some b) ∧
  (cx.Passes s (mWid o) 1 accs) ∧
  (cx.Clear s o) ∧
  (((cx.sealed s = true ∧ (mRel o = false ∨ mWide o = false) ∧ b.stage.window.length + recs.length ≤ 4096) ∨
        (cx.sealed s = false ∧ b.det ≠ 0 ∧ b.stage.staged.length + recs.length ≤ 16384))) :=
  ⟨_, .head _, ⟨pp 0 4 1, 1, 0, 0, 2, 0⟩, with_ { bT with det := 1 } (.bundle 0 0 1), cT, [(0, [64, 7]), (1, [68, 9]), (2, [72, 1]), (3, [76, 4])], { bT with det := 1 }, entersOf (by decide +kernel), rfl, passesOf (by decide +kernel), (by unfold Cx.Clear; decide +kernel), .inr (by decide +kernel)⟩

theorem witness_AtomicsStart_0 : ∃ red : Bool, ∃ (o : MOp) (s : State) (cx : Cx) (rs : List (Nat × List Nat)), 
  let m := cx.atomPlan s o red
  
  let accs := rs.map fun r => ({ sp := .glob, lane := r.1, data := r.2.drop 1, ea := cx.globalEa s none 0 r.1 m.base (aOfs o) (aOf r.2) } : Acc)
  (Enters s cx m.d rs) ∧
  (Numbered s) ∧
  (mWide o = true) ∧
  (mAcq o = false) ∧
  (cx.sealed s = false) ∧
  (cx.det s = 0) ∧
  ((∀ r ∈ rs, cx.aperture s r.1 (cx.globalEa s none 0 r.1 m.base (aOfs o) (aOf r.2)) (r.2.drop 1) =
        { sp := .glob, lane := r.1, data := r.2.drop 1, ea := cx.globalEa s none 0 r.1 m.base (aOfs o) (aOf r.2) })) ∧
  (cx.Passes s (mWid o) 2 accs) :=
  ⟨false, ⟨pp 5 2 1, 3, 0, 0, 2, 0⟩, sY, cY, [(0, [0x1000, 7])], entersOf (by decide +kernel), numberedOf rfl, rfl, rfl, rfl, rfl, (by decide +kernel), passesOf (by decide +kernel)⟩

theorem witness_AtomicsStart_0b : ∃ red : Bool, ∃ (o : MOp) (s : State) (cx : Cx) (rs : List (Nat × List Nat)), 
  let m := cx.atomPlan s o red
  
  let accs := rs.map fun r => ({ sp := .glob, lane := r.1, data := r.2.drop 1, ea := cx.globalEa s none 0 r.1 m.base (aOfs o) (aOf r.2) } : Acc)
  (Enters s cx m.d rs) ∧
  (Numbered s) ∧
  (mWide o = true) ∧
  (mAcq o = false) ∧
  (cx.sealed s = false) ∧
  (cx.det s = 0) ∧
  ((∀ r ∈ rs, cx.aperture s r.1 (cx.globalEa s none 0 r.1 m.base (aOfs o) (aOf r.2)) (r.2.drop 1) =
        { sp := .glob, lane := r.1, data := r.2.drop 1, ea := cx.globalEa s none 0 r.1 m.base (aOfs o) (aOf r.2) })) ∧
  (cx.Passes s (mWid o) 2 accs) :=
  ⟨true, ⟨pp 0 2 1, 3, 2, 0, 2, 0⟩, sS, cS, [(0, [0x1000, 7])], entersOf (by decide +kernel), numberedOf rfl, rfl, rfl, (by decide +kernel), rfl, (by decide +kernel), passesOf (by decide +kernel)⟩

theorem witness_AtomicsStart_1 : ∃ red : Bool, ∃ (o : MOp) (s : State) (cx : Cx) (r : Nat × List Nat) (a : Acc), 
  let m := cx.atomPlan s o red
  
  let wid := mWid o
  (Enters s cx m.d [r]) ∧
  (Numbered s) ∧
  ((mAcq o = false ∨ mWide o = false)) ∧
  (cx.Clear s o) ∧
  (a = cx.aperture s r.1 (cx.globalEa s none 0 r.1 m.base (aOfs o) (aOf r.2)) (r.2.drop 1)) ∧
  (a.sp = .loc) ∧
  (cx.Passes s wid 2 [a]) ∧
  ((∀ b, cx.localBlk s = some b → (b.mem.loadLoc a.ea.toNat wid).2 = false)) :=
  ⟨false, ⟨pp 5 2 1, 0, 0, 0, 2, 0⟩, sLoc, cS, (0, [0xFFF00040, 7]), _, entersOf (by decide +kernel), numberedOf rfl, (by decide +kernel), (by unfold Cx.Clear; decide +kernel), rfl, (by decide +kernel), passesOf (by decide +kernel), byBlk (by decide +kernel)⟩

theorem witness_VectorReductions_0 : ∃ (o : POp) (s : State) (cx : Cx) (rd : Nat → Nat → Nat),
    let p := o.param.toNat
    let rop := bits p 31 28
    let act := acting cx s o.p.grd.toNat
    let red := fun (n : Nat) => reduction (bit p 27) rop (bits p 26 24) n act (rd 0)
    (EntersVec s cx (redDec o false) rd) ∧ ((red (cx.vl s)).2 &&& cx.fen s &&& 0x5F = 0) :=
  ⟨⟨pp 3 1 0, 0x88000000⟩, sV, cV, fun i e => if i = 1 then 7 else if e = 0 then 7 else if e = 1 then 9 else 0, entersVecOf (by decide +kernel), by decide +kernel⟩

theorem witness_VectorReductions_1 : ∃ (o : POp) (s : State) (cx : Cx) (rd : Nat → Nat → Nat),
    let p := o.param.toNat
    let rop := bits p 31 28
    let act := acting cx s o.p.grd.toNat
    let red := fun (n : Nat) => reduction (bit p 27) rop (bits p 26 24) n act (rd 0)
    let upTo := fun (e : Nat) => red (if bit p 19 then e else e + 1)
    (EntersVec s cx (redDec o true) rd) ∧ (∀ e ∈ act, (upTo e).2 &&& cx.fen s &&& 0x5F = 0) :=
  ⟨⟨pp 3 1 0, 0x00080000⟩, sV, cV, fun i e => if i = 1 then 7 else if e = 0 then 7 else if e = 1 then 9 else 0, entersVecOf (by decide +kernel), by decide +kernel⟩


/-! Slices, fences, waits, translation -/

def opSt : PathOp := { id := 3, ctx := .blk 0 0, who := 0, core := some 0, asid := 1, part := 0, acct := some 0, pa := 124, size := 4, va := 124, kind := .store [1, 2, 3, 4] false, release := true, scope := 3 }
def opAt : PathOp := { opSt with pa := 0x5FFFFFFFFC, kind := .atom 0 4 5 0 false (some 3) [], release := false }
def sPath : State := { sY with path := [opSt] }
def mon0 : Monitor := { line := 0, pa := 124, wide := false, exp := 0, owner := .blk 0 0, who := 0, dreg := 1, nwb := false, pd := 0, scope := 0, order := 0 }
def sFill : State := { sPath with fills := [{ line := 2 }], mem := [(256, 5)], cycle := 2000 }

theorem witness_StoresPerform_0 : ∃ (s : State) (p : PathOp) (bs : List Byte) (bad : Bool), (s.path.find? (·.id == p.id) = some p) ∧
  (p.kind = .store bs bad) ∧
  (mayPerform s p = true) ∧
  (isPackage p.pa = true) ∧
  (p.pa % 128 + bs.length ≤ 128) ∧
  (Calm s) ∧
  (Room s (p.pa / 128)) :=
  ⟨sPath, opSt, [1, 2, 3, 4], false, rfl, rfl, (by decide +kernel), rfl, (by decide +kernel), calmOf (by decide +kernel), (by unfold Room; decide +kernel)⟩

theorem witness_StoresPerform_1 : ∃ (s : State) (p : PathOp) (bs : List Byte) (bad : Bool), (s.path.find? (·.id == p.id) = some p) ∧
  (p.kind = .store bs bad) ∧
  (mayPerform s p = true) ∧
  (isPackage p.pa = true) ∧
  (p.pa % 128 + bs.length ≤ 128) ∧
  ((∀ line, (tagOf s line).bind (·.own) = none)) ∧
  ((∀ e ∈ s.iod.funcs, e.2.dten = false)) ∧
  (s.memPoison = []) ∧
  (Room s (p.pa / 128)) :=
  ⟨{ sPath with cores := [(0, { monitors := [mon0] })] }, opSt, [1, 2, 3, 4], false, rfl, rfl, (by decide +kernel), rfl, (by decide +kernel), fun l => (calmOf (s := sPath) (by decide +kernel)).owners l, (by decide +kernel), rfl, (by unfold Room; decide +kernel)⟩

theorem witness_AtomicsPerform_0 : ∃ aop ≤ 8, ∃ (w : Nat) (x b cmp : BitVec w), ((w = 32 ∨ w = 64)) :=
  ⟨7, by decide, 32, 7, 9, 7, .inl rfl⟩

theorem witness_AtomicsPerform_1 : ∃ aop ≤ 8, ∃ (w x b cmp : Nat) (more : List Nat), True :=
  ⟨7, by decide, 32, 7, 9, 7, [1], trivial⟩

theorem witness_AtomicsPerform_2 : ∃ (s : State) (p : PathOp) (aop wid b cmp : Nat) (any : Bool) (pend : Option Nat) (more : List Nat), (s.path.find? (·.id == p.id) = some p) ∧
  (p.kind = .atom aop wid b cmp any pend more) ∧
  (p.hi = none) ∧
  (mayPerform s p = true) ∧
  (isPackage p.pa = true) ∧
  (p.pa % 128 + wid ≤ 128) ∧
  (Calm s) ∧
  (Room s (p.pa / 128)) :=
  ⟨{ sPath with path := [opAt] }, opAt, 0, 4, 5, 0, false, some 3, [], rfl, rfl, rfl, (by decide +kernel), rfl, (by decide +kernel), calmOf (by decide +kernel), (by unfold Room; decide +kernel)⟩

theorem witness_FencesAndCacheControl_0 : ∃ (o : MOp) (s : State) (cx : Cx) (rs : List (Nat × List Nat)), (Enters s cx (fenceDec o) rs) ∧
  ((cx.sealed s = true → mWide o = false ∧ o.ofs.getLsbD 20 = false)) ∧
  ((∀ p ∈ s.path, p.ctx ≠ cx.id)) ∧
  ((∀ p ∈ s.outside, p.ctx ≠ cx.id)) ∧
  (cx.fetching s = false) ∧
  ((mRel o = true → o.scope = 4 → ∀ p ∈ s.outside, p.path = none)) :=
  ⟨⟨pp 0 0 0, 3, 3, 0, 0, 0⟩, sT, cT, [(0, []), (1, []), (2, []), (3, [])], entersOf (by decide +kernel), by decide +kernel⟩

theorem witness_FencesAndCacheControl_1 : ∃ (o : MOp) (s : State) (cx : Cx) (rs : List (Nat × List Nat)), (Enters s cx (cx.addrDec o (o.scope == 0 && o.order == 0 && o.cpol.toNat ≤ 2 && o.wid == 0)) rs) ∧
  (Calm s) :=
  ⟨⟨pp 0 4 0, 0, 0, 0, 0, 0⟩, sT, cT, [(0, [64]), (1, [68]), (2, [72]), (3, [76])], entersOf (by decide +kernel), calmOf (by decide +kernel)⟩

theorem witness_FencesAndCacheControl_2 : ∃ (o : MOp) (s : State) (cx : Cx) (rs : List (Nat × List Nat)), 
  let d := cx.addrDec o ((o.scope.toNat == 3 || o.scope.toNat == 4) && o.order == 0 && o.cpol.toNat ≤ 1 && o.wid == 0)
  
  let accs := rs.map fun r => ({ sp := .glob, lane := r.1, ea := cx.addrOf s d o r } : Acc)
  (Enters s cx d rs) ∧
  (Calm s) ∧
  (cx.sealed s = false) ∧
  (cx.Passes s 1 0 accs) ∧
  ((∀ p ∈ s.path, p.ctx ≠ cx.id)) :=
  ⟨⟨pp 0 2 0, 3, 0, 1, 0, 0⟩, sK, cK, [(0, [0x1000])], entersOf (by decide +kernel), calmOf (by decide +kernel), rfl, passesOf (by decide +kernel), (by decide +kernel)⟩

theorem witness_WaitaCompletesOnChange_0 : ∃ (o : MOp) (s : State) (cx : Cx) (r : Nat × List Nat) (q : Piece), 
  let d := waitaDec o s cx
  
  let a : Acc := { sp := .glob, lane := r.1, data := r.2.drop 1,
                   ea := cx.globalEa s none 0 r.1 ((d.srcs.head?).getD { n := 0, rc := .s }) (signed 18 o.ofs.toNat) (aOf r.2) }
  (Enters s cx d [r]) ∧
  (Calm s) ∧
  (s.path = []) ∧
  (cx.sealed s = false) ∧
  (cx.Passes s (mWid o) 0 [a]) ∧
  (cx.placed s (mWid o) 0 a = [q]) ∧
  (cx.Cold s q) ∧
  ((∀ b, cx.blk s = some b → b.stage.staged = [] ∧ b.stage.window = [])) :=
  ⟨⟨pp 5 2 1, 0, 0, 0, 2, 0⟩, sK, cK, (0, [0x1000, 7]), ⟨0x1000, 0x1000, 0, 4⟩, entersOf (by decide +kernel), calmOf (by decide +kernel), rfl, rfl, passesOf (by decide +kernel), (by decide +kernel), (by unfold Cx.Cold; decide +kernel), fun _ h => nomatch h⟩

theorem witness_WaitaCompletesOnChange_0b : ∃ (o : MOp) (s : State) (cx : Cx) (r : Nat × List Nat) (q : Piece), 
  let d := waitaDec o s cx
  
  let a : Acc := { sp := .glob, lane := r.1, data := r.2.drop 1,
                   ea := cx.globalEa s none 0 r.1 ((d.srcs.head?).getD { n := 0, rc := .s }) (signed 18 o.ofs.toNat) (aOf r.2) }
  (Enters s cx d [r]) ∧
  (Calm s) ∧
  (s.path = []) ∧
  (cx.sealed s = false) ∧
  (cx.Passes s (mWid o) 0 [a]) ∧
  (cx.placed s (mWid o) 0 a = [q]) ∧
  (cx.Cold s q) ∧
  ((∀ b, cx.blk s = some b → b.stage.staged = [] ∧ b.stage.window = [])) :=
  ⟨⟨pp 5 2 72, 0, 0, 0, 2, 0⟩, sS, cS, (0, [0x1000, 0]), ⟨0x1000, 0x1000, 0, 4⟩, entersOf (by decide +kernel), calmOf (by decide +kernel), rfl, (by decide +kernel), passesOf (by decide +kernel), (by decide +kernel), (by unfold Cx.Cold; decide +kernel), bySome (by decide +kernel)⟩

theorem witness_LinesArePlaced_0 : ∃ (s : State) (line : Nat),
    linePoisoned s line = false ∧ (sliceOf s (sliceOfLine line)).freeEntry.isSome ∧ (∃ f ∈ s.fills, f.line = line) ∧ tagOf s line = none ∧
      ((sliceOf s (sliceOfLine line)).tags.filter fun e => setOfLine e.1 == setOfLine line).length < 12 :=
  ⟨sFill, 2, by decide +kernel⟩

theorem witness_LinesArePlaced_1 : ∃ (s : State) (line : Nat) (tag : Tag),
    linePoisoned s line = false ∧ (sliceOf s (sliceOfLine line)).freeEntry.isSome ∧ tagOf s line = some tag ∧ tag.set8 = true ∧
      tag.psn = false ∧ tag.writtenAt + 1024 ≤ s.cycle :=
  ⟨{ sFill with slices := [(sliceOfLine 2, { tags := [(2, { set8 := true, writtenAt := 976 })] })] }, 2, { set8 := true, writtenAt := 976 },
    by decide +kernel, by decide +kernel, by decide +kernel, by decide, by decide, by decide +kernel⟩

theorem witness_WalkFindsPage_0 : ∃ (s : State) (asid : W16) (part va kind e w : Nat) (p : Nat → Nat), kind ≤ 3 ∧
    let table := fun (l : Nat) => bits (if l = 5 then e else p (l + 1)) 51 12
    readEntry s (s.iod.asidtb.toNat + 16 * asid.toNat) = some (e, false) ∧
    readEntry s (s.iod.asidtb.toNat + 16 * asid.toNat + 8) = some (w, false) ∧ w < 2 ^ 16 ∧ w = part ∧
    bit e 0 = true ∧ bits e 63 52 = 0 ∧ bits e 11 1 = 0 ∧
    (∀ l, 1 ≤ l → l ≤ 5 → readEntry s (table l * 4096 + 8 * (va / 2 ^ (12 + 9 * (l - 1)) % 512)) = some (p l, false) ∧
      bit (p l) 0 = true ∧ bits (p l) 63 52 = 0 ∧ (2 ≤ l → bits (p l) 8 1 = 0)) ∧
    bit (p 1) 4 = true ∧ bit (p 1) 7 = false ∧
    (match kind with
      | 0 => bit (p 1) 1 = true
      | 1 => bit (p 1) 2 = true
      | 2 => bit (p 1) 1 = true ∧ bit (p 1) 2 = true
      | _ => bit (p 1) 3 = true) ∧
    (isPackage (bits (p 1) 51 12 * 4096 + va % 4096) = true ∨ isHost (bits (p 1) 51 12 * 4096 + va % 4096) = true ∨
      isPeer (bits (p 1) 51 12 * 4096 + va % 4096) = true) := by
  refine ⟨sWalk, 1, 0, 0x123, 1, 0x2001, 0, fun l => if l = 1 then 0x701F else (8 - l) * 0x1000 + 1, by decide, by decide +kernel,
    by decide +kernel, by decide, rfl, by decide, by decide, by decide, ?_, by decide, by decide, (by decide : bit 0x701F 2 = true), by decide⟩
  intro l h1 h5
  interval_cases l <;> decide +kernel

theorem witness_PageWalkEnds_0 : ∃ (s : State) (w : Walk) (e : TlbEntry) (pa : Nat),
    s.walks.find? (·.id == w.id) = some w ∧ w.parked = false ∧ w.failed = none ∧ w.crec = none ∧
    walk s w.asid w.part w.va w.kind = .ok e pa ∧ Calm s ∧ Room s (pa / 128) ∧ pa % 8 = 0 ∧ w.kind ≤ 3 ∧
    unserved s pa = false ∧ isPackage pa = true :=
  ⟨sWalk, { id := 4, ctx := .sys 0, who := 0, asid := 1, part := 0, va := 0x123, kind := 1 },
    { asid := 1, part := 0, base := 0, size := 4096, frame := 0x7000, rd := true, wr := true, ex := true, dirty := true }, 0x6000,
    by decide +kernel, rfl, rfl, rfl, by decide +kernel, calmOf (by decide +kernel), (by unfold Room; decide +kernel), by decide, by decide,
    by decide +kernel, by decide⟩

theorem witness_PageWalkEnds_1 : ∃ (s : State) (w : Walk) (k size : Nat),
    s.walks.find? (·.id == w.id) = some w ∧ w.parked = false ∧ w.failed = none ∧ w.crec = none ∧
    walk s w.asid w.part w.va w.kind = .bad k size ∧ (k ≠ 4 ∨ ∀ c sl, w.ctx ≠ .blk c sl) :=
  ⟨sWalk, { id := 3, ctx := .sys 0, who := 0, asid := 2, part := 0, va := 0x123, kind := 0 }, 1, 4096, by decide +kernel, rfl, rfl, rfl,
    by decide +kernel, .inl (by decide)⟩


/-! Copies, barriers, tickets -/

def rec0 (loc : Bool) : CpRec := { sloc := true, src := 0x200, dloc := loc, dst := 0x300, rowb := 16, sstr := 0, dstr := 0, nrow := 1, bbar := 0x400 }
def cp (loc : Bool) : CpList := { slot := 0, who := 0, recs := [rec0 loc] }
def sCul (loc : Bool) : State := modCore sCp 0 fun k => { k with culvert := [(1, [cp loc])] }
/-- A barrier object that expects 8, at local address 0x100. -/
def sBar : State := with_ { bCp with mem := { bS.mem with loc := [(0x100, 8)] } } (.ctl 0 0)
def bTk : Block :=
  { bV with exec := { bV.exec with ctl := { bV.exec.ctl with wait := 9, line := some (lineWith 32 0xD10C0000) } }
            stage := { staged := [stg0] }, det := 1 }

theorem witness_CopiesAreQueued_0 : ∃ (o : KOp) (s : State) (cx : Cx) (rs : List (Nat × List Nat)) (c sl : Nat) (b : Block), 
  let eng := if o.param.getLsbD 0 then 1 else 0
  (Enters s cx (cpkickDec o s cx) rs) ∧
  (cx.localSite s = some (c, sl)) ∧
  (blockOf s c sl = some b) ∧
  ((∀ r ∈ rs, cx.cpFault s b (aOf r.2) (bOf r.2) = none ∧
        cx.rowOwed s (32 * bOf r.2) 0 { sp := .loc, lane := r.1, ea := (aOf r.2 : Nat) } = false)) ∧
  ((culvertLists s c eng).length + rs.length ≤ 8) :=
  ⟨⟨pp 0 2 73, 1⟩, sCp, cS, [(0, [0x100, 1])], 0, 0, bCp, entersOf (by decide +kernel), rfl, rfl, by decide +kernel⟩

theorem witness_CopiesAreQueued_1 : ∃ (o : KOp) (s : State) (cx : Cx) (r : Nat × List Nat) (b : Block), 
  let a : Acc := { sp := .loc, lane := r.1, ea := (aOf r.2 : Nat) }
  (Enters s cx (cpwaitDec o s cx) [r]) ∧
  (cx.Passes s 8 0 [a]) ∧
  (cx.localBlk s = some b) ∧
  ((b.mem.loadLoc (aOf r.2) 8).2 = false) :=
  ⟨⟨pp 0 2 0, 0⟩, sCp, cS, (0, [0x100]), bCp, entersOf (by decide +kernel), passesOf (by decide +kernel), rfl, (by decide +kernel)⟩

theorem witness_CopiesAreQueued_2 : ∃ (o : KOp) (s : State) (cx : Cx) (rs : List (Nat × List Nat)) (c sl : Nat), (Enters s cx (cpdrainDec o s cx) rs) ∧
  (cx.localSite s = some (c, sl)) :=
  ⟨⟨pp 0 0 0, 0⟩, sCul false, cS, [(0, [])], 0, 0, entersOf (by decide +kernel), rfl⟩

theorem witness_CopyChunks_0 : ∃ (s : State) (c e : Nat) (l : CpList) (rest : List CpList) (r : CpRec) (more : List CpRec) (b : Block), 
  let dst := (r.dst + r.row * r.dstr + r.ofs : Int).toNat
  
  let src := (r.src + r.row * r.sstr + r.ofs : Int).toNat
  
  let n := min (r.rowb - r.ofs) (128 - dst % 128)
  (culvertLists s c e = l :: rest) ∧
  (l.recs = r :: more) ∧
  (l.waitPage = false) ∧
  (blockOf s c l.slot = some b) ∧
  ((∀ p ∈ s.path, p.ctx ≠ l.kicker c)) ∧
  (l.owed s c = false) ∧
  (Calm s) ∧
  (0 < n) ∧
  ∃ from_ : Nat → Byte, ((if r.sloc then ∀ i < n, from_ i = Store.get b.mem.loc (src + i)
        else ∃ pa, lookupTlb s (.blk c l.slot) b.asid b.part src 0 = .ok pa ∧ isPackage pa = true ∧ src % 4096 + n ≤ 4096 ∧
          ∀ i < n, unserved s ((pa + i) / 128 * 128) = false ∧ from_ i = byteAt s (pa + i))) ∧
  ∃ to_ : Nat, ((if r.dloc then to_ = dst
        else lookupTlb s (.blk c l.slot) b.asid b.part dst 1 = .ok to_ ∧ isPackage to_ = true ∧ to_ % 128 + n ≤ 128 ∧
          Room s (to_ / 128) ∧ unserved s to_ = false)) :=
  ⟨sCul false, 0, 1, cp false, [], rec0 false, [], bCp, rfl, rfl, rfl, rfl, (by decide +kernel), rfl, calmOf (by decide +kernel), (by decide +kernel), fun i => Store.get bCp.mem.loc (0x200 + i), fun _ _ => rfl, 0x300, (by unfold Room; decide +kernel)⟩

theorem witness_CopyChunks_0b : ∃ (s : State) (c e : Nat) (l : CpList) (rest : List CpList) (r : CpRec) (more : List CpRec) (b : Block), 
  let dst := (r.dst + r.row * r.dstr + r.ofs : Int).toNat
  
  let src := (r.src + r.row * r.sstr + r.ofs : Int).toNat
  
  let n := min (r.rowb - r.ofs) (128 - dst % 128)
  (culvertLists s c e = l :: rest) ∧
  (l.recs = r :: more) ∧
  (l.waitPage = false) ∧
  (blockOf s c l.slot = some b) ∧
  ((∀ p ∈ s.path, p.ctx ≠ l.kicker c)) ∧
  (l.owed s c = false) ∧
  (Calm s) ∧
  (0 < n) ∧
  ∃ from_ : Nat → Byte, ((if r.sloc then ∀ i < n, from_ i = Store.get b.mem.loc (src + i)
        else ∃ pa, lookupTlb s (.blk c l.slot) b.asid b.part src 0 = .ok pa ∧ isPackage pa = true ∧ src % 4096 + n ≤ 4096 ∧
          ∀ i < n, unserved s ((pa + i) / 128 * 128) = false ∧ from_ i = byteAt s (pa + i))) ∧
  ∃ to_ : Nat, ((if r.dloc then to_ = dst
        else lookupTlb s (.blk c l.slot) b.asid b.part dst 1 = .ok to_ ∧ isPackage to_ = true ∧ to_ % 128 + n ≤ 128 ∧
          Room s (to_ / 128) ∧ unserved s to_ = false)) :=
  ⟨sCul true, 0, 1, cp true, [], rec0 true, [], bCp, rfl, rfl, rfl, rfl, (by decide +kernel), rfl, calmOf (by decide +kernel), (by decide +kernel), fun i => Store.get bCp.mem.loc (0x200 + i), fun _ _ => rfl, 0x300, rfl⟩

theorem witness_Barriers_0 : ∃ (o : KOp) (s : State) (cx : Cx) (r : Nat × List Nat) (a : Acc), (Enters s cx (bariDec o s cx) [r]) ∧
  (cx.barAccs s o [r] = [a]) ∧
  (0 < bOf r.2) ∧
  (bOf r.2 < 2 ^ 32) ∧
  (barGlb o = false) ∧
  (ObjectReady cx s o 1 a) :=
  ⟨⟨pp 0 2 1, 0⟩, sBar, cS, (0, [0x100, 7]), { sp := .loc, lane := 0, ea := 0x100, data := [7] }, entersOf (by decide +kernel), (by decide +kernel), (by decide +kernel), (by decide +kernel), rfl, ⟨passesOf (by decide +kernel), by decide +kernel, byBlk (by decide +kernel)⟩⟩

theorem witness_Barriers_1 : ∃ (role : Bool) (o : KOp) (s : State) (cx : Cx) (r : Nat × List Nat) (a : Acc), 
  let place := objectPlace cx s o 2 a
  
  let obj := Object.at (objectBytes cx s o place)
  (Enters s cx (if role then barlDec o s cx else baraDec o s cx) [r]) ∧
  (cx.barAccs s o [r] = [a]) ∧
  (ObjectReady cx s o 2 a) ∧
  (obj.exp ≠ 0) ∧
  (obj.arr + weight cx s ≤ obj.exp) :=
  ⟨true, ⟨pp 0 2 0, 0⟩, sBar, cS, (0, [0x100]), { sp := .loc, lane := 0, ea := 0x100, data := [] }, entersOf (by decide +kernel), (by decide +kernel), ⟨passesOf (by decide +kernel), by decide +kernel, byBlk (by decide +kernel)⟩, by decide +kernel⟩

theorem witness_Barriers_1b : ∃ (role : Bool) (o : KOp) (s : State) (cx : Cx) (r : Nat × List Nat) (a : Acc), 
  let place := objectPlace cx s o 2 a
  
  let obj := Object.at (objectBytes cx s o place)
  (Enters s cx (if role then barlDec o s cx else baraDec o s cx) [r]) ∧
  (cx.barAccs s o [r] = [a]) ∧
  (ObjectReady cx s o 2 a) ∧
  (obj.exp ≠ 0) ∧
  (obj.arr + weight cx s ≤ obj.exp) :=
  ⟨false, ⟨pp 3 2 0, 0x900000⟩, { sBar with mem := [(0x100, 8)] }, cS, (0, [0x100]), { sp := .glob, lane := 0, ea := 0x100, data := [] }, entersOf (by decide +kernel), (by decide +kernel), ⟨passesOf (by decide +kernel), by decide +kernel, calmOf (by decide +kernel), rfl, by decide +kernel, by decide +kernel, by unfold Room; decide +kernel, ⟨0x100, 0x100, 0, 16⟩, by decide +kernel, rfl, by decide⟩, by decide +kernel⟩

theorem witness_Barriers_2 : ∃ (o : KOp) (s : State) (cx : Cx) (r : Nat × List Nat) (a : Acc), (Enters s cx (barwDec o s cx) [r]) ∧
  (cx.barAccs s o [r] = [a]) ∧
  (ObjectReady cx s o 0 a) ∧
  (bOf r.2 < 2 ^ 16) :=
  ⟨⟨pp 2 2 1, 0⟩, sBar, cS, (0, [0x100, 7]), { sp := .loc, lane := 0, ea := 0x100, data := [7] }, entersOf (by decide +kernel), (by decide +kernel), ⟨passesOf (by decide +kernel), by decide +kernel, byBlk (by decide +kernel)⟩, (by decide +kernel)⟩

theorem witness_TicketsInOrder_0 : ∃ (o : ROp) (s : State) (cx : Cx), (cxOf s = some cx) ∧
  (cx.decodeTrap s (ticketDec o cx) = none) ∧
  (cx.sealed s = false) :=
  ⟨⟨pp 3 0 0, 0⟩, sT, cT, rfl, by decide +kernel⟩

theorem witness_TicketsInOrder_1 : ∃ (s : State) (c sl : Nat) (b : Block) (l : List W32) (p0 : W32) (rec_ : Option Staged), 
  let dreg := bits p0.toNat 23 18
  (blockOf s c sl = some b) ∧
  (b.exec.model ≠ .threaded) ∧
  (b.exec.ctl.done = false) ∧
  (b.exec.ctl.wait = 9) ∧
  (b.exec.ticketAsk = none) ∧
  (b.exec.ctl.line = some l) ∧
  (l[b.exec.ctl.pc.toNat / 4 % 32]? = some p0) ∧
  ((fallNext (some l) b.exec.ctl.pc 1).2 = false) ∧
  (bits p0.toNat 2 0 = 0) ∧
  (dreg < 32) ∧
  (b.twin = none) ∧
  (ticketFree s b = true) ∧
  (Calm s) ∧
  (s.path = []) ∧
  ((∀ f ∈ (coreOf s c).tfq, f.slot ≠ sl)) ∧
  (b.stage.staged = rec_.toList) ∧
  ((∀ r ∈ rec_, r.red = none ∧ isPackage r.pa = true ∧ r.pa % 128 + r.bytes.length ≤ 128 ∧ Room s (r.pa / 128) ∧ unserved s r.pa = false)) :=
  ⟨with_ bTk (.ctl 0 0), 0, 0, bTk, lineWith 32 0xD10C0000, 0xD10C0000, some stg0, rfl, (by decide +kernel), rfl, rfl, rfl, rfl, (by decide +kernel), (by decide +kernel), (by decide +kernel), (by decide +kernel), rfl, (by decide +kernel), calmOf (by decide +kernel), rfl, (by decide +kernel), rfl, (by unfold Room; decide +kernel)⟩


/-! The matrix unit -/

def fetch0 : TileFetch :=
  { slot := 0, who := 0, k := 2, lines := (List.range 32).map fun i => (0x1000 + 128 * i, 0x1000 + 128 * i), scale := some (0, 0), mask := none, prior := .empty, mqBefore := 0, started := true }
def sFetch : State := modCore sS 0 fun k => { k with tfq := [fetch0] }
/-- A format word in s1. -/
def sFw : State := with_ { bV with exec := { bV.exec with ctl := { bV.exec.ctl with sregs := [(1, 0x344)] } } } (.ctl 0 0)
def mq0 (op : MqOp) : Mq := { slot := 0, who := 0, site := 1, op }
def sMm : State :=
  modCore sS 0 fun k => { k with mq := [mq0 (.mma false 0x80000 0x344)], tiles := [(0, { fill := .ready, rows := [(0, 3)] }), (1, { fill := .ready, rows := [(0, 57), (1, 4)] })] }
def sQ (op : MqOp) : State := modCore sCp 0 fun k => { k with mq := [mq0 op] }
/-- Every thread holds 1 in g1; one gang. -/
def bCv : Block := { bT with mem := { bT.mem with rows := [(1, 1), (65, 1), (129, 1), (193, 1)] } }
def sCv : State := with_ bCv (.bundle 0 0 1)
/-- Two of the four threads stand at the instruction. -/
def bCv2 : Block :=
  { bCv with exec := { bCv.exec with threads := [{ pc := 8, live := true }, { pc := 8, live := true }, { pc := 12, live := true }, { pc := 12, live := true }]
                                     bundles := [{ id := 1, members := [0, 1], pc := 8 }, { id := 2, members := [2, 3], pc := 12 }] } }
/-- A format word in every g1. -/
def bCv3 : Block := { bT with claim := { cv := 0x8000 }, mem := { bT.mem with rows := [(1, 0x344), (65, 0x344), (129, 0x344), (193, 0x344)] } }
def setCv (v : Cv) : State := modCore sCv 0 fun k => { k with cvs := [(15, v)] }

theorem fetchedOf {x : FetchTr} {l : List (Nat × Nat)} (h : (match x with
    | .ok k => decide (k = l)
    | _ => false) = true) : x = .ok l := by
  cases x <;> simp_all

theorem witness_TileFetches_0 : ∃ f ∈ [Instr.tfetch, Instr.tfetchM], ∃ (o : POp) (s : State) (cx : Cx) (rs : List (Nat × List Nat)) (lines : Nat → List (Nat × Nat)), (Enters s cx (cx.tfDec o) rs) ∧
  (tfRcv o = false) ∧
  (noneHeld s cx.core) ∧
  ((coreOf s cx.core).tfq.length + rs.length ≤ 4) ∧
  ((∀ r ∈ rs, cx.fetchLines s o (aOf r.2) (if tfSc o then some (bOf r.2) else none) = .ok (lines r.1))) :=
  ⟨_, .head _, ⟨pp 0 2 0, 0x40000001⟩, sS, cS, [(0, [0x1000])], fun _ => (List.range 32).map fun i => (0x1000 + 128 * i, 0x1000 + 128 * i), entersOf (by decide +kernel), rfl, (by unfold noneHeld; decide +kernel), (by decide +kernel), List.forall_mem_singleton.mpr (fetchedOf (by decide +kernel))⟩

theorem witness_TileFetches_0b : ∃ f ∈ [Instr.tfetch, Instr.tfetchM], ∃ (o : POp) (s : State) (cx : Cx) (rs : List (Nat × List Nat)) (lines : Nat → List (Nat × Nat)), (Enters s cx (cx.tfDec o) rs) ∧
  (tfRcv o = false) ∧
  (noneHeld s cx.core) ∧
  ((coreOf s cx.core).tfq.length + rs.length ≤ 4) ∧
  ((∀ r ∈ rs, cx.fetchLines s o (aOf r.2) (if tfSc o then some (bOf r.2) else none) = .ok (lines r.1))) :=
  ⟨_, .tail _ (.head _), ⟨pp 0 2 2, 0x50300001⟩, sS, cS, [(0, [0x1000, 0x1000])], fun _ => ((List.range 32).map fun i => (0x1000 + 128 * i, 0x1000 + 128 * i)) ++ [(0x1000, 0x1000)], entersOf (by decide +kernel), rfl, (by unfold noneHeld; decide +kernel), (by decide +kernel), List.forall_mem_singleton.mpr (fetchedOf (by decide +kernel))⟩

theorem witness_TileFetches_1 : ∃ (o : POp) (s : State) (cx : Cx) (rs : List (Nat × List Nat)), (Enters s cx (cx.tfDec o) rs) ∧
  (rs ≠ []) ∧
  (tfRcv o = true) :=
  ⟨⟨pp 0 0 0, 0x48000000⟩, sT, cT, [(0, []), (1, []), (2, []), (3, [])], entersOf (by decide +kernel), (by decide +kernel), rfl⟩

theorem witness_TileFetches_2 : ∃ (s : State) (c : Nat) (f : TileFetch) (b : Block), ((coreOf s c).tfq = [f]) ∧
  (f.mask = none) ∧
  (f.started = true) ∧
  (f.lines.length = 32) ∧
  (blockOf s c f.slot = some b) ∧
  (Calm s) ∧
  (s.path = []) ∧
  (s.slices = []) ∧
  ((∀ x ∈ f.all, isPackage x.2 = true ∧ x.2 % 128 = 0)) :=
  ⟨sFetch, 0, fetch0, bS, rfl, rfl, rfl, (by decide +kernel), rfl, calmOf (by decide +kernel), rfl, rfl, (by decide +kernel)⟩

theorem witness_TileFetches_3 : ∃ (o : ROp) (s : State) (cx : Cx) (rs : List (Nat × List Nat)) (b : Block), (Enters s cx (trelDec o) rs) ∧
  (rs ≠ []) ∧
  (cx.blk s = some b) ∧
  ((∀ e ∈ (coreOf s cx.core).mq, e.slot ≠ cx.place.2)) :=
  ⟨⟨pp 0 2 0, 0⟩, sV, cV, [(0, [])], bV, entersOf (by decide +kernel), (by decide +kernel), rfl, (by decide +kernel)⟩

theorem witness_MatrixQueue_0 : ∃ (o : ROp) (s : State) (cx : Cx) (rs : List (Nat × List Nat)), 
  let n := o.p.dreg.toNat
  
  let slots := if n < 8 then [n] else [2 * (n - 8), 2 * (n - 8) + 1]
  (Enters s cx (azeroDec o) rs) ∧
  (rs ≠ []) ∧
  ((coreOf s cx.core).mq = []) ∧
  (cx.placedHere s = 0) ∧
  (noneHeld s cx.core) ∧
  (cx.maskOk s (·.amask) slots = true) :=
  ⟨⟨pp 8 0 0, 0⟩, with_ { bV with region := 1 } (.ctl 0 0), cV, [(0, [])], entersOf (by decide +kernel), (by decide +kernel), (by decide +kernel), rfl, (by unfold noneHeld; decide +kernel), (by decide +kernel)⟩

theorem witness_MatrixQueue_1 : ∃ (o : KOp) (s : State) (cx : Cx) (rs : List (Nat × List Nat)), 
  let n := o.p.dreg.toNat
  (Enters s cx (agsetDec o) rs) ∧
  (rs ≠ []) ∧
  ((coreOf s cx.core).mq = []) ∧
  (cx.placedHere s = 0) ∧
  (noneHeld s cx.core) ∧
  (cx.pairOk s n = true) :=
  ⟨⟨pp 3 0 0, 0xFF8000⟩, sV, cV, [(0, [])], entersOf (by decide +kernel), (by decide +kernel), (by decide +kernel), rfl, (by unfold noneHeld; decide +kernel), (by decide +kernel)⟩

theorem witness_MatrixQueue_2 : ∃ (o : KOp) (s : State) (cx : Cx) (rs : List (Nat × List Nat)), (Enters s cx (aggetDec cx o) rs) ∧
  (rs ≠ []) ∧
  (Numbered s) ∧
  ((coreOf s cx.core).mq = []) ∧
  (noneHeld s cx.core) :=
  ⟨⟨pp 3 2 0, 0⟩, sT, cT, [(0, []), (1, []), (2, []), (3, [])], entersOf (by decide +kernel), (by decide +kernel), numberedOf rfl, (by decide +kernel), (by unfold noneHeld; decide +kernel)⟩

theorem witness_MatrixQueue_4 : ∃ (split : Bool) (o : POp) (s : State) (cx : Cx) (r : Nat × List Nat), 
  let p1 := o.param.toNat
  (Enters s cx (mmaDec cx o split) [r]) ∧
  (cx.kind = .V) ∧
  ((coreOf s cx.core).mq = []) ∧
  (cx.placedHere s = 0) ∧
  (cx.maskOk s (·.amask) (dstSlots split p1) = true) ∧
  (aOf r.2 < 2 ^ 32) ∧
  (formatOk (aOf r.2) p1 split (some (agRef (agAt s cx.core (pairOf split p1)))) = true) :=
  ⟨false, ⟨pp 0 1 0, 0x08080000⟩, sFw, cV, (0, [0x344]), entersOf (by decide +kernel), rfl, (by decide +kernel), rfl, by decide +kernel⟩

theorem witness_MultipliesAreExact_0 : ∃ (s : State) (c sl : Nat) (e : Mq) (split : Bool) (p1 fw : W32) (b : Block), 
  let ta := tileOf s c (mmaTa p1.toNat)
  
  let tb := tileOf s c (mmaTb p1.toNat)
  (mqOf s c sl = [e]) ∧
  ((∀ n, (cvOf s c n).signs = [])) ∧
  (e.op = .mma split p1 fw) ∧
  (e.port = none) ∧
  (blockOf s c sl = some b) ∧
  (tileReady ta) ∧
  (tileReady tb) ∧
  ((coreOf s c).accPoison = []) ∧
  (noneHeld s c) :=
  ⟨sMm, 0, 0, mq0 (.mma false 0x80000 0x344), false, 0x80000, 0x344, bS, (by decide +kernel), fun _ => rfl, rfl, rfl, rfl, ⟨rfl, rfl⟩, ⟨rfl, rfl⟩, rfl, (by unfold noneHeld; decide +kernel)⟩

theorem witness_RowsMove_0 : ∃ (s : State) (c sl j addr row : Nat) (e : Mq) (b : Block), (mqOf s c sl = [e]) ∧
  ((∀ n, (cvOf s c n).signs = [])) ∧
  (noneHeld s c) ∧
  (blockOf s c sl = some b) ∧
  (j < 8) ∧
  (row < 32) ∧
  ((coreOf s c).accPoison = []) :=
  ⟨sQ (.ald 1 0x100 31), 0, 0, 1, 0x100, 31, mq0 (.ald 1 0x100 31), bCp, (by decide +kernel), fun _ => rfl, (by unfold noneHeld; decide +kernel), rfl, (by decide +kernel), (by decide +kernel), rfl⟩

theorem witness_RowsMove_0b : ∃ (s : State) (c sl j addr row : Nat) (e : Mq) (b : Block), (mqOf s c sl = [e]) ∧
  ((∀ n, (cvOf s c n).signs = [])) ∧
  (noneHeld s c) ∧
  (blockOf s c sl = some b) ∧
  (j < 8) ∧
  (row < 32) ∧
  ((coreOf s c).accPoison = []) :=
  ⟨sQ (.ast 7 0x100 0), 0, 0, 7, 0x100, 0, mq0 (.ast 7 0x100 0), bCp, (by decide +kernel), fun _ => rfl, (by unfold noneHeld; decide +kernel), rfl, (by decide +kernel), (by decide +kernel), rfl⟩

theorem witness_RowsMove_1 : ∃ (s : State) (c sl addr row : Nat) (p1 : W32) (e : Mq) (b : Block), (mqOf s c sl = [e]) ∧
  ((∀ n, (cvOf s c n).signs = [])) ∧
  (e.op = .drn p1 addr row) ∧
  (noneHeld s c) ∧
  (blockOf s c sl = some b) ∧
  (row < 32) ∧
  (drnOk p1.toNat = true) ∧
  ((coreOf s c).accPoison = []) :=
  ⟨sQ (.drn 0x00CC0000 0x100 31), 0, 0, 0x100, 31, 0x00CC0000, mq0 (.drn 0x00CC0000 0x100 31), bCp, (by decide +kernel), fun _ => rfl, rfl, (by unfold noneHeld; decide +kernel), rfl, (by decide +kernel), (by decide +kernel), rfl⟩

theorem witness_RowsMove_1b : ∃ (s : State) (c sl addr row : Nat) (p1 : W32) (e : Mq) (b : Block), (mqOf s c sl = [e]) ∧
  ((∀ n, (cvOf s c n).signs = [])) ∧
  (e.op = .drn p1 addr row) ∧
  (noneHeld s c) ∧
  (blockOf s c sl = some b) ∧
  (row < 32) ∧
  (drnOk p1.toNat = true) ∧
  ((coreOf s c).accPoison = []) :=
  ⟨sQ (.drn 0xAD400000 0x100 31), 0, 0, 0x100, 31, 0xAD400000, mq0 (.drn 0xAD400000 0x100 31), bCp, (by decide +kernel), fun _ => rfl, rfl, (by unfold noneHeld; decide +kernel), rfl, (by decide +kernel), (by decide +kernel), rfl⟩

theorem witness_Convergence_0 : ∃ (o : KOp) (s : State) (cx : Cx) (rs : List (Nat × List Nat)) (b : Block) (m : Nat), 
  let v := cvOf s cx.core o.p.dreg.toNat
  (Enters s cx (cvsetDec o) rs) ∧
  (cx.blk s = some b) ∧
  ((∀ r ∈ rs, aOf r.2 = m)) ∧
  (m < 2 ^ gangsOf b.nthr) ∧
  (gangsOf b.nthr ≤ 32) ∧
  (v.signs = []) ∧
  (v.desc = none) ∧
  (rs ≠ []) :=
  ⟨⟨pp 15 1 0, 0⟩, sCv, cT, [(0, [1]), (1, [1]), (2, [1]), (3, [1])], bCv, 1, entersOf (by decide +kernel), rfl, (by decide +kernel), (by decide +kernel), (by decide +kernel), rfl, rfl, (by decide +kernel)⟩

theorem witness_Convergence_1 : ∃ (split : Bool) (o : POp) (s : State) (cx : Cx) (rs : List (Nat × List Nat)) (b : Block), 
  let n := bits o.param.toNat 31 28
  
  let v := cvOf s cx.core n
  
  let p1 := BitVec.ofNat 32 (o.param.toNat % 2 ^ 28)
  (Enters s cx (mmaDec cx o split) rs) ∧
  (cx.kind = .T) ∧
  (rs ≠ []) ∧
  (cx.blk s = some b) ∧
  (cx.maskOk s (·.amask) (dstSlots split o.param.toNat) = true) ∧
  (v.gangs ≠ 0) ∧
  ((∀ r ∈ rs, r.1 ∈ cvMembers b v)) ∧
  ((∀ d, v.desc = some d → d.1 = split ∧ d.2.1 = p1)) :=
  ⟨false, ⟨pp 0 0 0, 0xF8080000⟩, setCv { gangs := 1 }, cT, [(0, []), (1, []), (2, []), (3, [])], bCv, entersOf (by decide +kernel), rfl, (by decide +kernel), rfl, (by decide +kernel), (by decide +kernel), (by decide +kernel), fun _ h => nomatch h⟩

theorem witness_MatrixQueue_3_ald : ∃ (o : POp) (s : State) (cx : Cx) (rs : List (Nat × List Nat)),
    let p1 := o.param.toNat
    Enters s cx (cx.rowDec o (accP1Ok o)) rs ∧ rs ≠ [] ∧ rs.length ≤ 16 ∧ (coreOf s cx.core).mq = [] ∧ cx.placedHere s = 0 ∧
    (∀ r ∈ rs, rowFits cx s (8) (256) ((0 : Fin 3) != 0) (aOf r.2)) ∧
    ((0 : Fin 3) = 0 → cx.maskOk s (·.amask) [bits p1 31 29] = true) ∧
    ((0 : Fin 3) = 2 → 4 ≤ bits p1 31 29 → cx.pairOk s (bits p1 28 26) = true) :=
  ⟨⟨pp 0 2 75, 0xE0000000⟩, sCp, cS, [(0, [0x100, 3])], entersOf (by decide +kernel), by decide, by decide, by decide +kernel, by decide +kernel,
    (by unfold rowFits; decide +kernel), by decide +kernel⟩

theorem witness_MatrixQueue_3_ast : ∃ (o : POp) (s : State) (cx : Cx) (rs : List (Nat × List Nat)),
    let p1 := o.param.toNat
    Enters s cx (cx.rowDec o (accP1Ok o)) rs ∧ rs ≠ [] ∧ rs.length ≤ 16 ∧ (coreOf s cx.core).mq = [] ∧ cx.placedHere s = 0 ∧
    (∀ r ∈ rs, rowFits cx s (8) (256) ((1 : Fin 3) != 0) (aOf r.2)) ∧
    ((1 : Fin 3) = 0 → cx.maskOk s (·.amask) [bits p1 31 29] = true) ∧
    ((1 : Fin 3) = 2 → 4 ≤ bits p1 31 29 → cx.pairOk s (bits p1 28 26) = true) :=
  ⟨⟨pp 0 2 75, 0xE0000000⟩, sCp, cS, [(0, [0x100, 3])], entersOf (by decide +kernel), by decide, by decide, by decide +kernel, by decide +kernel,
    (by unfold rowFits; decide +kernel), by decide +kernel⟩

theorem witness_MatrixQueue_3_drn : ∃ (o : POp) (s : State) (cx : Cx) (rs : List (Nat × List Nat)),
    let p1 := o.param.toNat
    Enters s cx (drnDec cx o) rs ∧ rs ≠ [] ∧ rs.length ≤ 16 ∧ (coreOf s cx.core).mq = [] ∧ cx.placedHere s = 0 ∧
    (∀ r ∈ rs, rowFits cx s (if bits p1 21 18 = 0 ∨ bits p1 21 18 = 3 then 4 else 2) (if bits p1 21 18 = 0 ∨ bits p1 21 18 = 3 then 128 else 64) ((2 : Fin 3) != 0) (aOf r.2)) ∧
    ((2 : Fin 3) = 0 → cx.maskOk s (·.amask) [bits p1 31 29] = true) ∧
    ((2 : Fin 3) = 2 → 4 ≤ bits p1 31 29 → cx.pairOk s (bits p1 28 26) = true) :=
  ⟨⟨pp 0 2 75, 0x00CC0000⟩, sCp, cS, [(0, [0x100, 3])], entersOf (by decide +kernel), by decide, by decide, by decide +kernel, by decide +kernel,
    (by unfold rowFits; decide +kernel), by decide +kernel⟩

theorem witness_MatrixQueue_3_drn_agree : ∃ (o : POp) (s : State) (cx : Cx) (rs : List (Nat × List Nat)),
    let p1 := o.param.toNat
    Enters s cx (drnDec cx o) rs ∧ rs ≠ [] ∧ rs.length ≤ 16 ∧ (coreOf s cx.core).mq = [] ∧ cx.placedHere s = 0 ∧
    (∀ r ∈ rs, rowFits cx s (if bits p1 21 18 = 0 ∨ bits p1 21 18 = 3 then 4 else 2) (if bits p1 21 18 = 0 ∨ bits p1 21 18 = 3 then 128 else 64) ((2 : Fin 3) != 0) (aOf r.2)) ∧
    ((2 : Fin 3) = 0 → cx.maskOk s (·.amask) [bits p1 31 29] = true) ∧
    ((2 : Fin 3) = 2 → 4 ≤ bits p1 31 29 → cx.pairOk s (bits p1 28 26) = true) :=
  ⟨⟨pp 0 2 75, 0xAD400000⟩, sCp, cS, [(0, [0x100, 3])], entersOf (by decide +kernel), by decide, by decide, by decide +kernel, by decide +kernel,
    (by unfold rowFits; decide +kernel), by decide +kernel⟩

/-- An RQ8 operation: the products of row 0 and column 0, whose scales add to REF. -/
theorem witness_MultipliesAreExact_1 : ∃ (s : State) (c sl : Nat) (e : Mq) (split : Bool) (p1 fw : W32) (b : Block),
    let ta := tileOf s c (mmaTa p1.toNat)
    let tb := tileOf s c (mmaTb p1.toNat)
    mqOf s c sl = [e] ∧ (∀ n, (cvOf s c n).signs = []) ∧ e.op = .mma split p1 fw ∧ e.port = none ∧ blockOf s c sl = some b ∧
    tileReady ta ∧ tileReady tb ∧ (coreOf s c).accPoison = [] ∧ noneHeld s c ∧ fw.toNat % 16 = 5 ∧
    ∃ i < 32, ∃ k < 32, ∃ (x y : Nat → List Int) (ea eb : Nat → Nat),
      let ref := agRef (agAt s c (pairOf split p1.toNat))
      let products := fun (q : Nat) => (x q).zipWith (· * ·) (y q)
      let plus := fun (q : Nat) => (((products q).filter fun z => 0 ≤ z).sum.toNat) * 2 ^ (ea q + eb q - ref)
      let minus := fun (q : Nat) => ((-((products q).filter fun z => z < 0).sum).toNat) * 2 ^ (ea q + eb q - ref)
      (∀ q < 4, rq8Row ta.rows i q = (ea q, (x q).map some) ∧ rq8Row tb.rows k q = (eb q, (y q).map some) ∧ ref ≤ ea q + eb q ∧
        plus q < 2 ^ 32 ∧ minus q < 2 ^ 32) ∧
      let old := fun (j : Nat) => accVal (accAt s c j i k)
      (∀ j ∈ dstSlots split p1.toNat, old j % 2 ^ 16 < 65535 ∧ old j / 2 ^ 32 < 65537) := by
  refine ⟨modCore sMm 0 fun k => { k with mq := [mq0 (.mma true 0x80000 0x8555)] }, 0, 0, mq0 (.mma true 0x80000 0x8555), true, 0x80000, 0x8555, bS,
    by decide +kernel, fun _ => rfl, rfl, rfl, rfl, ⟨rfl, rfl⟩, ⟨rfl, rfl⟩, rfl, by unfold noneHeld; decide +kernel, by decide, 0, by decide, 0, by decide,
    fun q => ((rq8Row (tileOf sMm 0 0).rows 0 q).2).map (·.getD 0), fun q => ((rq8Row (tileOf sMm 0 1).rows 0 q).2).map (·.getD 0),
    fun q => (rq8Row (tileOf sMm 0 0).rows 0 q).1, fun q => (rq8Row (tileOf sMm 0 1).rows 0 q).1, ?_, ?_⟩ <;> decide +kernel

theorem witness_Convergence_2 : ∃ (o : KOp) (s : State) (cx : Cx) (rs : List (Nat × List Nat)) (b : Block),
    let n := o.p.dreg.toNat
    let v := cvOf s cx.core n
    let ms := cvMembers b v
    Enters s cx (cvsignDec o) rs ∧ rs.map (·.1) = cx.acts ∧ rs ≠ [] ∧ cx.blk s = some b ∧ (∀ r ∈ rs, r.1 ∈ ms) ∧
    ∃ m ∈ ms, m ∉ cx.acts ∧ Table.get? v.signs m = none :=
  ⟨⟨pp 15 1 0, 0⟩, { setCv { gangs := 1, desc := some (false, 0x08080000, 1) } with cores := [(0, { slots := [(0, bCv2)], cvs := [(15, { gangs := 1 })] })] },
    { cT with acts := [0, 1] }, [(0, [1]), (1, [1])], bCv2, entersOf (by decide +kernel), by decide, by decide, rfl, by decide +kernel, 2,
    by decide +kernel, by decide, by decide +kernel⟩

theorem witness_Convergence_3 : ∃ (o : KOp) (s : State) (cx : Cx) (rs : List (Nat × List Nat)) (b : Block),
    let n := o.p.dreg.toNat
    let v := cvOf s cx.core n
    let ms := cvMembers b v
    Enters s cx (cvsignDec o) rs ∧ rs.map (·.1) = cx.acts ∧ rs ≠ [] ∧ cx.blk s = some b ∧ (∀ r ∈ rs, r.1 ∈ ms) ∧
    ∃ (split : Bool) (p1 : W32) (site w : Nat), v.signs = [] ∧ v.desc = some (split, p1, site) ∧ (∀ m ∈ ms, m ∈ cx.acts) ∧
      (∀ r ∈ rs, aOf r.2 = w) ∧ w < 2 ^ 32 ∧ formatOk w p1.toNat split (some (agRef (agAt s cx.core (pairOf split p1.toNat)))) = true ∧
      (coreOf s cx.core).mq = [] ∧ b.claim.cv.getLsbD n = true ∧ (∀ u ∈ b.exec.bundles, (∃ l ∈ u.members, l ∈ cx.acts) → u.line = cx.line ∧ u.pc = cx.pc) :=
  ⟨⟨pp 15 1 0, 0⟩, with_ bCv3 (.bundle 0 0 1) |> (modCore · 0 fun k => { k with cvs := [(15, { gangs := 1, desc := some (false, 0x08080000, 1) })] }), cT,
    [(0, [0x344]), (1, [0x344]), (2, [0x344]), (3, [0x344])], bCv3, entersOf (by decide +kernel), by decide, by decide, rfl, by decide +kernel,
    false, 0x08080000, 1, 0x344, rfl, rfl, by decide +kernel, by decide, by decide, by decide +kernel, rfl, by decide +kernel⟩


/-! Control flow -/

/-- A code line that takes branches at every parcel and holds two parcels from parcel 2 on. -/
def code (p q : W32) : List W32 := [0xBFFFFFFF#32, 0x3FFFFFFF#32, p, q] ++ List.replicate 28 0#32
def code0 (p : W32) : List W32 := code p 0
/-- A system core in a line; an address in s1. -/
def sCode (p : W32) (a : W64) : State := modSys sY 0 fun y => { y with ctl := { y.ctl with line := some (code0 p), sregs := [(1, a)] } }
def cY1 : Cx := { cY with line := some (code0 0) }
/-- Threads 2 and 3 stand elsewhere. -/
def bHalf : Block :=
  { bT with exec := { bT.exec with threads := [{ pc := 8, live := true }, { pc := 8, live := true }, { pc := 12, live := true }, { pc := 12, live := true }]
                                   bundles := [{ id := 1, members := [0, 1], pc := 8 }, { id := 2, members := [2, 3], pc := 12 }] } }
def sHalf : State := with_ bHalf (.bundle 0 0 1)
/-- At EP 2, with a store in the sealed window; at EP 3, with a forced hop to the threaded version. -/
def bEp : Block :=
  { bV with region := 1, exec := { bV.exec with ctl := { bV.exec.ctl with line := some (code 0xEF000000 2) } }
            stage := { window := [stg0], hasWindow := true } }
def bHop : Block :=
  { bV with region := 2, regs := { bV.regs with hopctl := 0x50000000 }
            exec := { bV.exec with ctl := { bV.exec.ctl with line := some (code 0xEF000000 3) } } }
def cEp (k : W32) : Cx := { cV with line := some (code 0xEF000000 k) }
def bSw : Block := { bV with region := 1, exec := { bV.exec with sealedWait := some 0 } }
def bTv : Block := { bT with regs := { bT.regs with trapvec := 0x100 } }
def bVv : Block := { bV with regs := { bV.regs with trapvec := 0x100 } }
def supInt : Ctl := { pc := 8, asid := 1, intr := { intvec := 0x200, inten := 1 } }
def sSup : State := modCore sT 0 fun k => { k with sup := supInt }
def ctlInt : Ctl := { pc := 8, asid := 1, intr := { intvec := 0x200, inten := 0x2F, intpend := 0x20 } }
def sInt : State := modSys sY 0 fun y => { y with ctl := ctlInt }
def bTr : Block := { bTv with traps := [{ cause := 20, imprecise := true }] }
def bDb : Block := { bT with regs := { bT.regs with dbgctl := 5 } }
def bWd : Block :=
  { bTv with exec := { bTv.exec with limits := [1], threads := [{ pc := 8, live := true, wdog := 256 }, { pc := 8, live := true, wdog := 255 }] } }
/-- Four threads at GROW 24. -/
def bGr : Block := { bT with exec := { bT.exec with bundles := [{ id := 1, members := [0, 1, 2, 3], pc := 8, line := some (code 0xF4000000 24) }] } }
def cGr : Cx := { cT with line := some (code 0xF4000000 24) }
/-- A block whose GROW needs all the rows of the core. -/
def bDl : Block := { bT with regs := { bT.regs with nthr := 2048 }, exec := { bT.exec with grow := some (false, 64) } }

/-- Two threads at REJOIN d3 that wait for each other; two in a handler; a finished block and its page tables. -/
def bRj : Block :=
  { bT with exec := { bT.exec with threads := List.replicate 2 { pc := 8, live := true, wait := 5, rejoin := 3 }
                                   bundles := [{ id := 1, members := [0, 1], pc := 8, line := some (code0 0xEC010C00) }] } }
def bHd : Block :=
  { bT with exec := { bT.exec with threads := List.replicate 2 { pc := 8, live := true, handler := true, trapPc := 0x40 }
                                   bundles := [{ id := 1, members := [0, 1], pc := 8 }] } }
def bFin : Block := { bV with phase := .finished }
def sFin : State :=
  { with_ bFin (.ctl 0 0) with mem := sWalk.mem, iod := { sWalk.iod with asidtb := 0x1000 },
                               launches := [(1, { launch0 with lpb := { lpb0 with crec := 0x140 } })] }

theorem dlOf : ∀ e ∈ (coreOf { sT with cores := [(0, { slots := [(0, bDl), (3, { bDl with placedAt := 9 })] })] } 0).slots,
    e.2.coop = false ∧ e.2.twin = none ∧ e.2.want.preempt = false ∧ ∃ k n, e.2.exec.grow = some (k, n) ∧
      524288 < rowsUsed { sT with cores := [(0, { slots := [(0, bDl), (3, { bDl with placedAt := 9 })] })] } 0 - e.2.mem.rowBytes +
        gangsOf e.2.nthr * 256 * n := by
  have h : (coreOf { sT with cores := [(0, { slots := [(0, bDl), (3, { bDl with placedAt := 9 })] })] } 0).slots =
    [(0, bDl), (3, { bDl with placedAt := 9 })] := rfl
  rw [h]
  simp only [List.mem_cons, List.not_mem_nil, or_false, forall_eq_or_imp, forall_eq]
  exact ⟨⟨rfl, rfl, rfl, false, 64, rfl, by decide +kernel⟩, rfl, rfl, rfl, false, 64, rfl, by decide +kernel⟩

theorem witness_Branches_0 : ∃ (o : POp) (s : State) (cx : Cx), 
  let target : Int := cx.pc.toNat + displacement o
  (cxOf s = some cx) ∧
  (cx.decodeTrap s (brDec o cx) = none) ∧
  (Calm s) ∧
  (s.path = []) ∧
  (((fallNext cx.line cx.pc 2).2 = false ∨ ∀ l ∈ cx.acts, takes cx s o l)) ∧
  (((∃ l ∈ cx.acts, takes cx s o l) → cx.Lands s false target)) :=
  ⟨⟨pp 0 0 0, 2⟩, sCode 0 16, cY1, rfl, (by decide +kernel), calmOf (by decide +kernel), rfl, .inl (by decide +kernel), fun _ => ⟨by decide, by decide, by decide, code0 0, by decide +kernel, .inl ⟨rfl, by decide⟩⟩⟩

theorem witness_Branches_1 : ∃ (o : POp) (s : State) (cx : Cx) (rs : List (Nat × List Nat)), (Stands s cx (jmpDec o cx) rs) ∧
  (Calm s) ∧
  (s.path = []) ∧
  ((∀ r ∈ rs, cx.Lands s false (aOf r.2 + displacement o))) :=
  ⟨⟨pp 0 1 0, 0x80000001⟩, sCode 0 12, cY1, [(0, [12])], standsOf (by decide +kernel), calmOf (by decide +kernel), rfl, List.forall_mem_singleton.mpr ⟨by decide, by decide, by decide, code0 0, by decide +kernel, .inl ⟨rfl, by decide⟩⟩⟩

theorem witness_Branches_2 : ∃ (o : ROp) (s : State) (cx : Cx) (rs : List (Nat × List Nat)), (Stands s cx (retDec o cx) rs) ∧
  (Calm s) ∧
  (s.path = []) ∧
  ((∀ r ∈ rs, cx.Lands s false (aOf r.2))) :=
  ⟨⟨pp 0 1 0, 0⟩, sCode 0 12, cY1, [(0, [12])], standsOf (by decide +kernel), calmOf (by decide +kernel), rfl, List.forall_mem_singleton.mpr ⟨by decide, by decide, by decide, code0 0, by decide +kernel, .inl ⟨rfl, by decide⟩⟩⟩

theorem witness_Branches_3 : ∃ (o : POp) (s : State) (cx : Cx) (rs : List (Nat × List Nat)), 
  let target := fun (r : Nat × List Nat) => (if o.param.getLsbD 31 then (aOf r.2 : Int) else cx.pc.toNat) + displacement o
  (Stands s cx (callDec o cx) rs) ∧
  (Calm s) ∧
  (s.path = []) ∧
  ((∀ r ∈ rs, cx.Lands s true (target r))) :=
  ⟨⟨pp 5 0 0, 0⟩, sCode 0 12, cY1, [(0, [])], standsOf (by decide +kernel), calmOf (by decide +kernel), rfl, List.forall_mem_singleton.mpr ⟨by decide, by decide, by decide, code0 0, by decide +kernel, .inl ⟨rfl, by decide⟩⟩⟩

theorem witness_StreamsRegroup_0 : ∃ (o : ROp) (s : State) (cx : Cx) (rs : List (Nat × List Nat)), (Enters s cx (plainDec everywhere o.p 1 true true) rs) :=
  ⟨⟨pp 0 0 0, 0⟩, sT, cT, [(0, []), (1, []), (2, []), (3, [])], entersOf (by decide +kernel)⟩

theorem witness_StreamsRegroup_1 : ∃ (o : KOp) (s : State) (cx : Cx) (rs : List (Nat × List Nat)), (Enters s cx (plainDec everywhere o.p 2 (o.param == 0)) rs) :=
  ⟨⟨pp 0 0 0, 0⟩, sK, cK, [(0, [])], entersOf (by decide +kernel)⟩

theorem witness_StreamsRegroup_2 : ∃ (o : KOp) (s : State) (cx : Cx) (rs : List (Nat × List Nat)) (b : Block), 
  let d := plainDec (validIn [.T] []) o.p 2 (bits o.param.toNat 23 20 == 0)
  (Enters s cx d rs) ∧
  (cx.blk s = some b) :=
  ⟨⟨pp 0 0 0, 5⟩, sT, cT, [(0, []), (1, []), (2, []), (3, [])], bT, entersOf (by decide +kernel), rfl⟩

theorem witness_StreamsRegroup_3 : ∃ (o : ROp) (s : State) (cx : Cx) (rs : List (Nat × List Nat)), (Stands s cx (rejoinDec o) rs) :=
  ⟨⟨pp 0 75 0, 0⟩, sT, cT, [(0, [3]), (1, [3]), (2, [3]), (3, [3])], standsOf (by decide +kernel)⟩

theorem witness_StreamsRegroup_4 : ∃ (o : POp) (s : State) (cx : Cx) (rs : List (Nat × List Nat)) (c sl : Nat) (b : Block) (ob : KObj) (k : Nat), (Enters s cx (epDec o ob.nep) rs) ∧
  (AtEp s cx o c sl b ob k) ∧
  (b.regs.hopctl.toNat / 2 ^ 30 = 0) ∧
  (isSealed s b = false) ∧
  (b.stage.window = []) :=
  ⟨⟨pp 0 0 0, 3⟩, with_ { bHop with regs := { bHop.regs with hopctl := 0 } } (.ctl 0 0), cEp 3, [(0, [])], 0, 0, { bHop with regs := { bHop.regs with hopctl := 0 } }, kobj, 3, entersOf (by decide +kernel), ⟨rfl, rfl, rfl, by decide, rfl, by decide, by decide +kernel, by decide +kernel, stillOf (by decide +kernel), rfl, by decide +kernel, by decide +kernel⟩, (by decide +kernel), (by decide +kernel), rfl⟩

theorem witness_StreamsRegroup_5 : ∃ (o : ROp) (s : State) (cx : Cx) (rs : List (Nat × List Nat)), (Enters s cx (hopDec o) rs) ∧
  (rs ≠ []) :=
  ⟨⟨pp 0 74 0, 0⟩, sT, cT, [(0, []), (1, []), (2, []), (3, [])], entersOf (by decide +kernel), (by decide +kernel)⟩

theorem witness_BlocksFinish_0 : ∃ (o : KOp) (s : State) (cx : Cx) (rs : List (Nat × List Nat)) (b : Block), 
  let left := b.liveThreads.filter fun l => !(rs.map (·.1)).contains l
  (Stands s cx (exitDec o) rs) ∧
  (cx.kind = .T) ∧
  (rs ≠ []) ∧
  (cx.blk s = some b) ∧
  (isSealed s b = false) ∧
  (b.phase = .running) ∧
  ((∀ n, (cvOf s cx.core n).signs = [])) ∧
  ((left = [] ∨ ∃ l ∈ left, b.waitOf l ≠ 6 ∧ b.waitOf l ≠ 7)) :=
  ⟨⟨pp 0 0 0, 0⟩, sT, cT, [(0, []), (1, []), (2, []), (3, [])], bT, standsOf (by decide +kernel), rfl, (by decide +kernel), rfl, (by decide +kernel), rfl, fun _ => rfl, .inl (by decide +kernel)⟩

theorem witness_BlocksFinish_0b : ∃ (o : KOp) (s : State) (cx : Cx) (rs : List (Nat × List Nat)) (b : Block), 
  let left := b.liveThreads.filter fun l => !(rs.map (·.1)).contains l
  (Stands s cx (exitDec o) rs) ∧
  (cx.kind = .T) ∧
  (rs ≠ []) ∧
  (cx.blk s = some b) ∧
  (isSealed s b = false) ∧
  (b.phase = .running) ∧
  ((∀ n, (cvOf s cx.core n).signs = [])) ∧
  ((left = [] ∨ ∃ l ∈ left, b.waitOf l ≠ 6 ∧ b.waitOf l ≠ 7)) :=
  ⟨⟨pp 0 0 0, 0⟩, sHalf, { cT with acts := [0, 1] }, [(0, []), (1, [])], bHalf, standsOf (by decide +kernel), rfl, (by decide +kernel), rfl, (by decide +kernel), rfl, fun _ => rfl, .inr (by decide +kernel)⟩

theorem witness_BlocksFinish_1 : ∃ (o : KOp) (s : State) (cx : Cx) (rs : List (Nat × List Nat)) (b : Block), (Stands s cx (exitDec o) rs) ∧
  (cx.kind ≠ .T) ∧
  (rs ≠ []) ∧
  (cx.blk s = some b) ∧
  (isSealed s b = false) ∧
  ((cx.kind = .S → (∀ p ∈ b.fab.ports, p.2.active = none ∧ p.2.pending = none) ∧ ∀ q ∈ b.fab.bufs, q.2 = [])) :=
  ⟨⟨pp 0 0 0, 0⟩, sS, cS, [(0, [])], bS, standsOf (by decide +kernel), (by decide +kernel), (by decide +kernel), rfl, (by decide +kernel), fun _ => ⟨by decide, by decide⟩⟩

theorem witness_EquivalencePoints_0 : ∃ (o : POp) (s : State) (cx : Cx) (rs : List (Nat × List Nat)) (c sl : Nat) (b : Block) (ob : KObj) (k : Nat) (rec_ : Option Staged), (Enters s cx (epDec o ob.nep) rs) ∧
  (AtEp s cx o c sl b ob k) ∧
  (b.regs.hopctl.getLsbD 30 = false) ∧
  ((b.regs.hopctl.getLsbD 31 = false ∨ b.vpref.getLsbD 2 = true ∨ b.sinceHop + 1 < bits b.regs.hopctl.toNat 23 16)) ∧
  (b.stage.window = rec_.toList) ∧
  ((isSealed s b = false → rec_ = none)) ∧
  ((isSealed s b = true → ∀ p ∈ s.outside, p.path = none)) ∧
  (Calm s) ∧
  ((∀ r ∈ rec_, r.red = none ∧ isPackage r.pa = true ∧ r.pa % 128 + r.bytes.length ≤ 128 ∧ Room s (r.pa / 128) ∧ unserved s r.pa = false)) :=
  ⟨⟨pp 0 0 0, 2⟩, with_ bEp (.ctl 0 0), cEp 2, [(0, [])], 0, 0, bEp, kobj, 2, some stg0, entersOf (by decide +kernel), ⟨rfl, rfl, rfl, by decide, rfl, by decide, by decide +kernel, by decide +kernel, stillOf (by decide +kernel), rfl, by decide +kernel, by decide +kernel⟩, (by decide +kernel), .inl (by decide), rfl, (by decide +kernel), (by decide +kernel), calmOf (by decide +kernel), (by unfold Room; decide +kernel)⟩

theorem witness_EquivalencePoints_1 : ∃ (o : POp) (s : State) (cx : Cx) (rs : List (Nat × List Nat)) (c sl : Nat) (b : Block) (ob : KObj) (k : Nat) (v : Model) (e : MapEntry), (Enters s cx (epDec o ob.nep) rs) ∧
  (AtEp s cx o c sl b ob k) ∧
  (isSealed s b = false) ∧
  (b.stage.window = []) ∧
  (b.vpref.getLsbD 2 = false) ∧
  (b.regs.hopctl.getLsbD 30 = true) ∧
  (bits b.regs.hopctl.toNat 29 28 = v.code) ∧
  (v ≠ b.exec.model) ∧
  ((ob.vsec v).isSome) ∧
  (placeable s c sl b (ob.region k) v = true) ∧
  (ob.entries k = [e]) ∧
  (hopMapFault b ob k v = false) ∧
  (e.ekind = 0) ∧
  (e.width ≤ 3) ∧
  (b.regs.trcctl = 0) ∧
  ((e.loc v).lk = 1 ∧ (e.loc v).reg < 32 ∨ (e.loc v).lk = 2 ∧ e.bits_ / 8 ≤ (e.loc v).str) ∧
  (v ≠ .spatial) :=
  ⟨⟨pp 0 0 0, 3⟩, with_ bHop (.ctl 0 0), cEp 3, [(0, [])], 0, 0, bHop, kobj, 3, .threaded, entry0, entersOf (by decide +kernel), ⟨rfl, rfl, rfl, by decide, rfl, by decide, by decide +kernel, by decide +kernel, stillOf (by decide +kernel), rfl, by decide +kernel, by decide +kernel⟩, (by decide +kernel), rfl, (by decide +kernel), (by decide +kernel), (by decide +kernel), (by decide +kernel), (show _ by decide +kernel), (by decide +kernel), (by decide +kernel), (by decide +kernel), rfl, (by decide +kernel), rfl, .inl ⟨rfl, by decide⟩, (by decide +kernel)⟩

theorem witness_TrapsAreTaken_0 : ∃ (bk : Bool) (o : POp) (o' : ROp) (s : State) (cx : Cx) (rs : List (Nat × List Nat)) (c sl : Nat) (b : Block), 
  let d := if bk then plainDec everywhere o'.p 1 true else trapDec o
  (Stands s cx d rs) ∧
  (rs ≠ []) ∧
  ((∀ r ∈ rs, r.1 < 2048)) ∧
  (cx.id = .blk c sl) ∧
  (blockOf s c sl = some b) ∧
  (b.busy = false) ∧
  (isSealed s b = false) ∧
  (b.regs.trapvec ≠ 0) ∧
  (b.regs.dbgctl = 0) ∧
  ((∀ p ∈ s.pending, p.ctx = cx.id → p.sfu = false)) :=
  ⟨true, ⟨pp 0 0 0, 0⟩, ⟨pp 0 0 0, 0⟩, with_ bTv (.bundle 0 0 1), cT, [(0, []), (1, []), (2, []), (3, [])], 0, 0, bTv, standsOf (by decide +kernel), (by decide +kernel), (by decide +kernel), rfl, rfl, (by decide +kernel), (by decide +kernel), (by decide +kernel), rfl, (by decide +kernel)⟩

theorem witness_TrapsAreTaken_0b : ∃ (bk : Bool) (o : POp) (o' : ROp) (s : State) (cx : Cx) (rs : List (Nat × List Nat)) (c sl : Nat) (b : Block), 
  let d := if bk then plainDec everywhere o'.p 1 true else trapDec o
  (Stands s cx d rs) ∧
  (rs ≠ []) ∧
  ((∀ r ∈ rs, r.1 < 2048)) ∧
  (cx.id = .blk c sl) ∧
  (blockOf s c sl = some b) ∧
  (b.busy = false) ∧
  (isSealed s b = false) ∧
  (b.regs.trapvec ≠ 0) ∧
  (b.regs.dbgctl = 0) ∧
  ((∀ p ∈ s.pending, p.ctx = cx.id → p.sfu = false)) :=
  ⟨false, ⟨pp 0 0 0, 255⟩, ⟨pp 0 0 0, 0⟩, with_ bVv (.ctl 0 0), cV, [(0, [])], 0, 0, bVv, standsOf (by decide +kernel), (by decide +kernel), (by decide +kernel), rfl, rfl, (by decide +kernel), (by decide +kernel), (by decide +kernel), rfl, (by decide +kernel)⟩

theorem witness_TrapsAreTaken_1 : ∃ (p q : W32) (s : State) (cx : Cx) (c sl : Nat) (b : Block), (cxOf s = some cx) ∧
  (cx.id = .blk c sl) ∧
  (blockOf s c sl = some b) ∧
  (b.busy = false) ∧
  (isSealed s b = false) ∧
  (cx.acts ≠ []) ∧
  ((∀ l ∈ b.streams, l ∈ cx.acts)) ∧
  ((∀ x ∈ s.pending, x.ctx = cx.id → x.sfu = false)) ∧
  ((coreOf s c).sup.intr.inten.getLsbD 0 = true) ∧
  (sl < 8) :=
  ⟨0xFE000000, 0, sSup, cT, 0, 0, bT, rfl, rfl, rfl, by decide +kernel⟩

theorem witness_TrapsAreTaken_2 : ∃ (p q : W32) (s : State) (cx : Cx) (c sl : Nat) (b : Block) (la : Launch), (cxOf s = some cx) ∧
  (cx.id = .blk c sl) ∧
  (blockOf s c sl = some b) ∧
  (b.busy = false) ∧
  (isSealed s b = false) ∧
  (cx.acts ≠ []) ∧
  ((coreOf s c).sup.intr.inten.getLsbD 0 = false) ∧
  ((∀ x, partOf s b.part = some x → x.dumps = false)) ∧
  (launchOf s b.launch = some la) ∧
  (la.fault = none) ∧
  (la.status = none) ∧
  (Calm s) ∧
  ((∀ p ∈ s.path, p.ctx ≠ cx.id)) :=
  ⟨0xFE000000, 0, sT, cT, 0, 0, bT, launch0, rfl, rfl, rfl, (by decide +kernel), (by decide +kernel), (by decide +kernel), (by decide +kernel), bySome (by decide +kernel), rfl, rfl, rfl, calmOf (by decide +kernel), (by decide +kernel)⟩

theorem witness_TrapsAreTaken_3 : ∃ (p q : W32) (s : State) (cx : Cx) (x : Ctl), (cxOf s = some cx) ∧
  ((∀ c sl, cx.id ≠ .blk c sl)) ∧
  (ctlOf s cx.id = some x) ∧
  (x.handler = false) ∧
  (x.intr.intvec ≠ 0) ∧
  ((∀ i < 4, (x.intr.intpend &&& x.intr.inten).getLsbD i = false)) ∧
  ((∀ n, cx.id = .sys n → bits (sysOf s n).rplctl.toNat 31 30 = 0)) ∧
  ((∀ y ∈ s.pending, y.ctx = cx.id → y.sfu = false)) :=
  ⟨0xFE000000, 0, sInt, cY, ctlInt, rfl, (by intro _ _ h; cases h), rfl, rfl, (by decide +kernel), (by decide +kernel), (by intro n h; cases h; decide +kernel), (by decide +kernel)⟩

theorem witness_HandlersReturn_1 : ∃ (id : CtxId) (s : State) (x : Ctl) (i : Nat), ((∀ c sl, id ≠ .blk c sl)) ∧
  (ctlOf s id = some x) ∧
  (x.handler = false) ∧
  (x.intr.intvec ≠ 0) ∧
  (x.halted = false) ∧
  (inWfi x = false) ∧
  (stopAt x.line x.pc x.wait.toNat = true) ∧
  (i < 16) ∧
  (x.intr.intpend.getLsbD i = true) ∧
  ((i = 4 ∨ x.intr.inten.getLsbD i = true)) ∧
  ((∀ j < i, x.intr.intpend.getLsbD j = true → j ≠ 4 ∧ x.intr.inten.getLsbD j = false)) ∧
  ((∀ n, id = .sys n → bits (sysOf s n).rplctl.toNat 31 30 = 0)) ∧
  ((∀ y ∈ s.pending, y.ctx = id → y.sfu = false)) :=
  ⟨.sys 0, sInt, ctlInt, 5, (by intro _ _ h; cases h), rfl, rfl, (by decide +kernel), rfl, (by decide +kernel), (by decide +kernel), (by decide +kernel), (by decide +kernel), (show _ by decide +kernel), (by decide +kernel), (by intro n h; cases h; decide +kernel), (by decide +kernel)⟩

theorem witness_StopsAndBudgets_0 : ∃ (s : State) (c sl : Nat) (b : Block) (f : TrapInfo) (r : List TrapInfo), ((coreOf s c).supTraps = []) ∧
  (blockOf s c sl = some b) ∧
  (b.traps = f :: r) ∧
  (b.streams ≠ []) ∧
  (b.busy = false) ∧
  (isSealed s b = false) ∧
  ((∀ l ∈ b.streams, b.atStop l = true)) ∧
  (isUserClass f.cause = true) ∧
  (f.gang = none) ∧
  (b.exec.threads.length ≤ 2048) ∧
  (f.debug = false) ∧
  (f.detail < 4096) ∧
  (f.wst < 8) ∧
  (f.imprecise = true) ∧
  (b.regs.trapvec ≠ 0) ∧
  ((∀ p ∈ s.pending, p.ctx = .blk c sl → p.sfu = false)) :=
  ⟨with_ bTr (.bundle 0 0 1), 0, 0, bTr, { cause := 20, imprecise := true }, [], rfl, rfl, rfl, (by decide +kernel), (by decide +kernel), (by decide +kernel), (by decide +kernel), (by decide +kernel), rfl, (by decide +kernel), rfl, (by decide +kernel), (by decide +kernel), rfl, by decide +kernel⟩

theorem witness_StopsAndBudgets_1 : ∃ (s : State) (c sl : Nat) (b : Block), (blockOf s c sl = some b) ∧
  (b.regs.dbgctl.getLsbD 0 = true) ∧
  (b.regs.dbgctl.getLsbD 2 = true) ∧
  (b.phase = .running) ∧
  (isSealed s b = false) ∧
  (b.busy = false) ∧
  (b.streams ≠ []) ∧
  ((∀ l ∈ b.streams, b.atStop l = true)) ∧
  ((coreOf s c).sup.intr.inten.getLsbD 0 = true) ∧
  (sl < 8) ∧
  ((∀ p ∈ s.pending, p.ctx = .blk c sl → p.sfu = false)) :=
  ⟨modCore (with_ bDb (.bundle 0 0 1)) 0 fun k => { k with sup := supInt }, 0, 0, bDb, rfl, (by decide +kernel), (by decide +kernel), rfl, by decide +kernel⟩

theorem witness_StopsAndBudgets_2 : ∃ (s : State) (c sl g limit : Nat) (b : Block), 
  let named := b.liveThreads.filter fun l => l / 64 == g
  (blockOf s c sl = some b) ∧
  (b.exec.model = .threaded) ∧
  ((b.exec.limits[g]?).map (·.toNat) = some limit) ∧
  (0 < limit) ∧
  (b.busy = false) ∧
  (isSealed s b = false) ∧
  (b.regs.trapvec ≠ 0) ∧
  ((∃ l ∈ named, limit * 256 ≤ (threadOf b l).wdog.toNat)) ∧
  ((∀ p ∈ s.pending, p.ctx = .blk c sl → p.sfu = false)) :=
  ⟨with_ bWd (.bundle 0 0 1), 0, 0, 0, 1, bWd, rfl, rfl, by decide +kernel⟩

theorem witness_StopsAndBudgets_3 : ∃ (grow : Bool) (o : KOp) (s : State) (cx : Cx) (rs : List (Nat × List Nat)) (c sl : Nat) (b : Block), 
  let n := o.param.toNat % 128
  (Enters s cx (budgetDec o) rs) ∧
  (cx.id = .blk c sl) ∧
  (blockOf s c sl = some b) ∧
  (b.phase = .running) ∧
  (b.exec.grow = none) ∧
  (b.streams ≠ []) ∧
  ((∀ l ∈ b.streams, l ∈ cx.acts ∧ lineOf b l = cx.line ∧ standsAt b l = (0xF4, (if grow then 0 else 2 ^ 24) + o.param.toNat))) ∧
  ((∀ u ∈ b.exec.bundles, (∃ l ∈ u.members, l ∈ cx.acts) → u.pc = cx.pc)) ∧
  ((∀ l m, b.mem.budget ≤ m → m < 64 → b.mem.g l m = 0)) ∧
  ((if grow then b.mem.budget < n ∧ gangsOf b.nthr ≤ 32 ∧ rowsUsed s c - b.mem.rowBytes + gangsOf b.nthr * 256 * n ≤ 524288 else n < b.mem.budget)) :=
  ⟨true, ⟨pp 0 0 0, 24⟩, with_ bGr (.bundle 0 0 1), cGr, [(0, []), (1, []), (2, []), (3, [])], 0, 0, bGr, entersOf (by decide +kernel), rfl, rfl, rfl, rfl, (by decide +kernel), (by decide +kernel), (by decide +kernel), g_beyond (by decide +kernel), (by decide +kernel)⟩

theorem witness_StopsAndBudgets_4 : ∃ (s : State) (c sl n : Nat) (b : Block) (k : Bool), (blockOf s c sl = some b) ∧
  (b.exec.grow = some (k, n)) ∧
  (rowsUsed s c - b.mem.rowBytes + gangsOf b.nthr * 256 * n ≤ 524288) ∧
  ((∀ u ∈ b.exec.bundles, ∀ l ∈ u.members, (threadOf b l).pc = u.pc)) ∧
  ((∀ l m, b.mem.budget ≤ m → m < 64 → b.mem.g l m = 0)) ∧
  ((∀ l ∈ b.streams, ∃ ln, lineOf b l = some ln ∧ (fallNext (some ln) (b.pcOf l) 2).2 = false)) :=
  ⟨with_ { bGr with exec := { bGr.exec with grow := some (true, 24) } } (.bundle 0 0 1), 0, 0, 24, { bGr with exec := { bGr.exec with grow := some (true, 24) } }, true, rfl, rfl, (by decide +kernel), (by decide +kernel), g_beyond (by decide +kernel), fun l hl => ⟨code 0xF4000000 24, by revert l hl; decide +kernel, by revert l hl; decide +kernel⟩⟩

theorem witness_StopsAndBudgets_5 : ∃ (s : State) (c sl : Nat) (b : Block), (blockOf s c sl = some b) ∧
  (b.exec.sealedWait.isSome) ∧
  (isSealed s b = true) ∧
  (b.stage.hasWindow = false) ∧
  ((∀ e ∈ (coreOf s c).slots, e.2.exec.sealedWait.isSome → b.placedAt ≤ e.2.placedAt)) ∧
  (((coreOf s c).slots.filter fun e => e.2.stage.hasWindow).length < (if (coreOf s c).fabricOf.isSome then 1 else 3)) ∧
  ((∀ f ∈ (coreOf s c).l1, f.state = .clean)) :=
  ⟨with_ bSw (.ctl 0 0), 0, 0, bSw, rfl, (by decide +kernel), (by decide +kernel), rfl, by decide +kernel⟩

theorem witness_StopsAndBudgets_6 : ∃ (s : State) (c : Nat), ((coreOf s c).slots ≠ []) ∧
  ((∀ e ∈ (coreOf s c).slots, e.2.coop = false ∧ e.2.twin = none ∧ e.2.want.preempt = false ∧ ∃ k n, e.2.exec.grow = some (k, n) ∧
        524288 < rowsUsed s c - e.2.mem.rowBytes + gangsOf e.2.nthr * 256 * n)) ∧
  ((∀ e ∈ (coreOf s c).slots, e.2.placedAt < 2 ^ 64)) :=
  ⟨{ sT with cores := [(0, { slots := [(0, bDl), (3, { bDl with placedAt := 9 })] })] }, 0, (by decide +kernel), dlOf, (by decide +kernel)⟩

/-- Free threads, to be bundled; and two threads that meet at a REJOIN. -/
theorem witness_StreamsRegroup_6a : ∃ (s : State) (c sl : Nat) (b : Block),
    blockOf s c sl = some b ∧ b.exec.model = .threaded ∧ b.phase = .running ∧ s.cycle % 4 = 0 ∧ (∀ n, (cvOf s c n).signs = []) ∧
    b.liveThreads ≠ [] ∧ (∀ l ∈ b.liveThreads, (threadOf b l).wait ≠ 5) ∧ ∃ l ∈ b.liveThreads, (threadOf b l).wait ≠ 6 ∧ (threadOf b l).wait ≠ 7 :=
  ⟨with_ { bT with exec := { bT.exec with bundles := [] } } (.bundle 0 0 1), 0, 0, { bT with exec := { bT.exec with bundles := [] } }, rfl, rfl,
    rfl, by decide, fun _ => rfl, by decide +kernel⟩

theorem witness_StreamsRegroup_6b : ∃ (s : State) (c sl : Nat) (b : Block),
    blockOf s c sl = some b ∧ b.exec.model = .threaded ∧ b.phase = .running ∧ s.cycle % 4 = 0 ∧ (∀ n, (cvOf s c n).signs = []) ∧
    b.liveThreads ≠ [] ∧
    let met := fun (l : Nat) => ∀ i < 64, (threadOf b l).rejoin.getLsbD i = false ∨ l / 64 * 64 + i ≥ b.nthr ∨
      (threadOf b (l / 64 * 64 + i)).live = false ∨
      ((threadOf b (l / 64 * 64 + i)).wait = 5 ∧ (threadOf b (l / 64 * 64 + i)).pc = (threadOf b l).pc)
    ∀ l ∈ b.liveThreads, l < b.nthr ∧ (threadOf b l).wait = 5 ∧ met l ∧ ∃ ln p0, lineOf b l = some ln ∧
        ln[(threadOf b l).pc.toNat / 4 % 32]? = some p0 ∧
        (fallNext (some ln) (threadOf b l).pc (if bits p0.toNat 16 10 = 127 then 2 else 1)).2 = false := by
  refine ⟨with_ bRj (.bundle 0 0 1), 0, 0, bRj, rfl, rfl, rfl, by decide, fun _ => rfl, by decide +kernel, fun l hl => ?_⟩
  refine ⟨?_, ?_, ?_, code0 0xEC010C00, 0xEC010C00, ?_⟩ <;> revert l hl <;> decide +kernel

/-- The last block of a launch, whose completion record lies at 0x2000; and one of several. -/
theorem witness_BlocksFinish_2 : ∃ (s : State) (c sl : Nat) (b : Block) (la : Launch) (e : TlbEntry) (at_ : Nat),
    blockOf s c sl = some b ∧ b.phase = .finished ∧ b.det = 0 ∧ b.traps = [] ∧ Still s c ∧ s.outside = [] ∧ Calm s ∧ s.slices = [] ∧
    launchOf s b.launch = some la ∧ la.status = none ∧ la.recorded = false ∧ la.fault = none ∧ b.regs.bidx.toNat ≥ la.low ∧ la.retiredAbove = [] ∧
    la.retired + 1 = la.lpb.nblk.toNat ∧ la.lpb.evta = 0 ∧ walk s la.asid la.part la.lpb.crec.toNat 1 = .ok e at_ ∧
    isPackage (e.frame + (la.lpb.crec.toNat - e.base)) = true ∧ (e.frame + (la.lpb.crec.toNat - e.base)) % 128 + 64 ≤ 128 ∧
    at_ / 128 ≠ (e.frame + (la.lpb.crec.toNat - e.base)) / 128 :=
  ⟨sFin, 0, 0, bFin, { launch0 with lpb := { lpb0 with crec := 0x140 } },
    { asid := 1, part := 0, base := 0, size := 4096, frame := 0x7000, rd := true, wr := true, ex := true, dirty := true }, 0x6000,
    rfl, rfl, rfl, rfl, stillOf (by decide +kernel), rfl, calmOf (by decide +kernel), rfl, rfl, rfl, rfl, rfl, by decide, rfl, by decide, rfl,
    by decide +kernel, by decide, by decide, by decide⟩

theorem witness_BlocksFinish_3 : ∃ (s : State) (c sl : Nat) (b : Block) (la : Launch),
    blockOf s c sl = some b ∧ b.phase = .finished ∧ b.det = 0 ∧ b.traps = [] ∧ Still s c ∧ s.outside = [] ∧ Calm s ∧ s.slices = [] ∧
    launchOf s b.launch = some la ∧ la.status = none ∧ la.recorded = false ∧ la.fault = none ∧ b.regs.bidx.toNat ≥ la.low ∧ la.retiredAbove = [] ∧
    la.retired + 1 ≠ la.lpb.nblk.toNat :=
  ⟨{ sFin with launches := [(1, { launch0 with lpb := { lpb0 with nblk := 2 } })] }, 0, 0, bFin, { launch0 with lpb := { lpb0 with nblk := 2 } },
    rfl, rfl, rfl, rfl, stillOf (by decide +kernel), rfl, calmOf (by decide +kernel), rfl, rfl, rfl, rfl, rfl, by decide, rfl, by decide⟩

theorem witness_HandlersReturn_0 : ∃ (o : ROp) (s : State) (cx : Cx) (rs : List (Nat × List Nat)) (c sl : Nat) (b : Block),
    Stands s cx (plainDec everywhere o.p 1 (o.p.grd == 0)) rs ∧ cx.id = .blk c sl ∧ blockOf s c sl = some b ∧
      ∀ l ∈ cx.acts, (b.at l).2.2.1 = true :=
  ⟨⟨pp 0 0 0, 0⟩, with_ bHd (.bundle 0 0 1), { cT with acts := [0, 1] }, [(0, []), (1, [])], 0, 0, bHd, standsOf (by decide +kernel), rfl, rfl,
    by decide +kernel⟩

theorem witness_HandlersReturn_2 : ∃ (o : ROp) (s : State) (cx : Cx) (rs : List (Nat × List Nat)) (x : Ctl),
    Stands s cx (plainDec everywhere o.p 1 (o.p.grd == 0)) rs ∧ (∀ c sl, cx.id ≠ .blk c sl) ∧ ctlOf s cx.id = some x ∧ x.handler = true :=
  ⟨⟨pp 0 0 0, 0⟩, modSys sY 0 fun y => { y with ctl := { ctlInt with handler := true } }, cY, [(0, [])], { ctlInt with handler := true },
    standsOf (by decide +kernel), (by intro _ _ h; cases h), rfl, rfl⟩


/-! Launches, messages -/

def lpbAt (a : Nat) : Memory :=
  [(a + 1, 0x80), (a + 8, 1), (a + 12, 4), (a + 16, 16), (a + 18, 16), (a + 21, 0x10), (a + 24, 1), (a + 46, 1)]
/-- A parameter block at 0x9000, an ARM record at 0x9100, a disarming one at 0x9200, a send descriptor at 0x9300; the entry
of its CREC's page is absent. -/
def memSub : Memory :=
  [(0x1010, 1), (0x1011, 0x20), (0x2000, 1), (0x2001, 0x30), (0x2009, 1), (0x3000, 1), (0x3001, 0x40), (0x4000, 1), (0x4001, 0x50),
   (0x5000, 1), (0x5001, 0x60), (0x6000, 0x1F), (0x6001, 0x70)] ++ lpbAt 0x9000 ++
  [(0x9100, 5), (0x9109, 0x90), (0x9110, 0x80), (0x9118, 0x80), (0x911C, 1), (0x911E, 1), (0x9200, 5), (0x921E, 2),
   (0x9300, 5), (0x9309, 0x90), (0x9310, 4)]
def sSub (a : W64) : State :=
  { modSys sY 0 (fun y => { y with ctl := { y.ctl with sregs := [(1, a)] } }) with
    mem := memSub, iod := { parts := [(0, { count := 1 })], asidtb := 0x1000, accts := [(0, 0)] } }
def armed0 : Armed :=
  { tag := 5, bufb := 0x80, bufs := 128, nslot := 1, oneshot := true, arrn := 0, part := 0, asid := 1
    lpb := (List.range 128).map (Store.get (lpbAt 0)) }
def msg0 : Msg := { port := 0, dst := 7, tag := 5, payload := [1, 2, 3, 4, 5, 6, 7, 8] }
def sMsg (held : List Msg) : State :=
  { sSub 0 with sys := [], dieTlb := [], iod := { parts := [(0, { count := 1, held })], asidtb := 0x1000, accts := [(0, 0)], armed := [(3, armed0)], eth := [(0, { up := true })] } }
def sBusy : State :=
  { sMsg [] with launches := [(1, { launch0 with armed := some (3, 0) })], iod := { (sMsg []).iod with eth := [(1, { up := true })] } }
def msgOut : Msg := { port := 0, dst := 7, tag := 5, payload := [], asid := 1, pay := 0x9000, len := 4 }
def sSend : State :=
  { sSub 0 with iod := { parts := [(0, { count := 1, sendq := [msgOut] })], eth := [(0, { up := true, neighbours := [(7, 0xA0B0C0D0E0F0)] })] } }

theorem entry_alike {s t : State} {lo n e a : Nat} (h : JudgedAlike s t lo n e) (hs : ∀ x, linePoisoned s x = false)
    (hf : ∀ i < 8, ¬(lo ≤ a + i ∧ a + i < lo + n) ∧ (a + i) / 8 ≠ e / 8) : readEntry t a = readEntry s a := by
  have hb : bytesAt t a 8 = bytesAt s a 8 := by
    have k := fun i hi => h.2.2.2 (a + i) (hf i hi).1 (hf i hi).2
    simp only [bytesAt, upFrom, List.map_cons, List.map_nil, Nat.add_assoc, Nat.reduceAdd]
    rw [k 1 (by decide), k 2 (by decide), k 3 (by decide), k 4 (by decide), k 5 (by decide), k 6 (by decide), k 7 (by decide)]
    exact congrArg (· :: _) (k 0 (by decide))
  simp only [readEntry, hb, hs, h.2.2.1]

/-- A launch is judged by the objects, the partitions and accounts, and the page of its CREC. -/
theorem rejection_alike {s t : State} {p : Nat} {asid : W16} {l : Lpb} (ho : t.objects = s.objects)
    (hi : ({ t.iod with counters := [] } : Iod) = { s.iod with counters := [] }) (hw : walk t asid p l.crec.toNat 1 = walk s asid p l.crec.toNat 1) :
    rejection t p asid l = rejection s p asid l := by
  have h1 : t.iod.columns = s.iod.columns := by have h := congrArg Iod.columns hi; exact h
  have h2 : t.iod.parts = s.iod.parts := by have h := congrArg Iod.parts hi; exact h
  have h3 : t.iod.accts = s.iod.accts := by have h := congrArg Iod.accts hi; exact h
  simp only [rejection, hw, findObj, ho, lpbPasses, holderOf, columnOf, ownerOf, partOf, h1, h2, h3]
  rfl

theorem judged1 {held : List Msg} (hk : walk (sMsg held) 1 0 (2 ^ 48) 1 = .bad 4 (levelSize 5))
    (hn : rejection (sMsg held) 0 1 (lpbOf armed0.lpb) = none) (t : State) (h : JudgedAlike (sMsg held) t 0x7080 16 0x6000) :
    rejection t 0 1 (lpbOf armed0.lpb) = none := by
  have hp : ∀ x, linePoisoned (sMsg held) x = false := fun x => by simp [linePoisoned, tagOf, sliceOf, sMsg, sSub, modSys, sY, with_, Table.getD, Table.get?]
  have ha : t.iod.asidtb = (sMsg held).iod.asidtb := by have h' := congrArg Iod.asidtb h.2.1; exact h'
  have e1 : readEntry t 0x1010 = some (0x2001, false) := (entry_alike h hp (by decide)).trans (by decide +kernel : readEntry (sMsg []) 0x1010 = _)
  have e2 : readEntry t 0x1018 = some (0, false) := (entry_alike h hp (by decide)).trans (by decide +kernel : readEntry (sMsg []) 0x1018 = _)
  have e3 : readEntry t 0x2008 = some (0x100, false) := (entry_alike h hp (by decide)).trans (by decide +kernel : readEntry (sMsg []) 0x2008 = _)
  have hw : walk t 1 0 (2 ^ 48) 1 = .bad 4 (levelSize 5) := by
    have e1' : readEntry t (t.iod.asidtb.toNat + 16 * (1 : W16).toNat) = some (0x2001, false) := by rw [ha]; exact e1
    have e2' : readEntry t (t.iod.asidtb.toNat + 16 * (1 : W16).toNat + 8) = some (0, false) := by rw [ha]; exact e2
    have e3' : readEntry t (bits 0x2001 51 12 * 4096 + 8 * (2 ^ 48 / 2 ^ (12 + 9 * 4) % 512)) = some (0x100, false) := e3
    unfold walk
    simp only [e1', e2']
    rw [show walkFrom t 1 0 (2 ^ 48) 1 5 (bits 0x2001 51 12) = .bad 4 (levelSize 5) from by unfold walkFrom; simp only [e3']; rfl]
    rfl
  have hc : (lpbOf armed0.lpb).crec.toNat = 2 ^ 48 := by decide +kernel
  have hs : walk t 1 0 (lpbOf armed0.lpb).crec.toNat 1 = walk (sMsg held) 1 0 (lpbOf armed0.lpb).crec.toNat 1 := by rw [hc]; exact hw.trans hk.symm
  exact (rejection_alike h.1 h.2.1 hs).trans hn

theorem witness_Submissions_0 : ∃ (o : ROp) (s : State) (cx : Cx) (r : Nat × List Nat) (q : Piece), 
  let a : Acc := { sp := .glob, lane := r.1, ea := (aOf r.2 : Nat) }
  
  let l := lpbOf (structureAt s q)
  
  let sp := spaceOf s cx.id
  (Enters s cx (submitDec cx o) [r]) ∧
  (Open cx s) ∧
  (ReadsWhole cx s 128 a q) ∧
  (launchFull s sp.2 l = false) ∧
  (rejection s sp.2 sp.1 l = none) ∧
  (l.nblk ≠ 0) :=
  ⟨⟨pp 3 1 0, 0⟩, sSub 0x9000, cY, (0, [0x9000]), ⟨0x9000, 0x9000, 0, 128⟩, entersOf (by decide +kernel), ⟨by decide +kernel, rfl, calmOf (by decide +kernel), rfl, fun _ h => nomatch h⟩, ⟨passesOf (by decide +kernel), by decide +kernel, by unfold Cx.Cold; decide +kernel, rfl⟩, by decide +kernel⟩

theorem witness_Submissions_1 : ∃ (o : ROp) (s : State) (cx : Cx) (r : Nat × List Nat) (q q2 : Piece), 
  let a : Acc := { sp := .glob, lane := r.1, ea := (aOf r.2 : Nat) }
  
  let bs := structureAt s q
  
  let a2 : Acc := { a with ea := (fieldOf bs 8 8 : Nat) }
  
  let sp := spaceOf s cx.id
  
  let flags := fieldOf bs 0x1E 2
  (Enters s cx (submitDec cx o) [r]) ∧
  (Open cx s) ∧
  (ReadsWhole cx s 64 a q) ∧
  (ReadsWhole cx s 128 a2 q2) ∧
  (flags < 2) ∧
  (fieldOf bs 0x20 32 = 0) ∧
  (fieldOf bs 0 8 ≠ 0) ∧
  (fieldOf bs 0x10 8 % 128 = 0) ∧
  (fieldOf bs 0x18 4 % 128 = 0) ∧
  (128 ≤ fieldOf bs 0x18 4) ∧
  (fieldOf bs 0x18 4 ≤ 2 ^ 20) ∧
  (1 ≤ fieldOf bs 0x1C 2) ∧
  (fieldOf bs 0x1C 2 ≤ 4096) ∧
  (fieldOf bs 0x10 8 + fieldOf bs 0x18 4 * fieldOf bs 0x1C 2 ≤ 2 ^ 57) ∧
  (rejection s sp.2 sp.1 (lpbOf (structureAt s q2)) = none) ∧
  ((∀ e ∈ s.iod.armed, e.2.tag.toNat ≠ fieldOf bs 0 8)) ∧
  (s.iod.armed.length < 4096) ∧
  ((∃ p, partOf s sp.2 = some p ∧ (s.iod.armed.filter fun e => e.2.part == sp.2).length < p.quota)) :=
  ⟨⟨pp 3 1 0, 0⟩, sSub 0x9100, cY, (0, [0x9100]), ⟨0x9100, 0x9100, 0, 64⟩, ⟨0x9000, 0x9000, 0, 128⟩, entersOf (by decide +kernel), ⟨by decide +kernel, rfl, calmOf (by decide +kernel), rfl, fun _ h => nomatch h⟩, ⟨passesOf (by decide +kernel), by decide +kernel, by unfold Cx.Cold; decide +kernel, rfl⟩, ⟨passesOf (by decide +kernel), by decide +kernel, by unfold Cx.Cold; decide +kernel, rfl⟩, (by decide +kernel), (by decide +kernel), (by decide +kernel), (by decide +kernel), (show _ by decide +kernel), (by decide +kernel), (by decide +kernel), (by decide +kernel), (by decide +kernel), (show _ by decide +kernel), (by decide +kernel), (by decide +kernel), (by decide +kernel), ⟨_, rfl, by decide +kernel⟩⟩

theorem witness_Submissions_2 : ∃ (o : ROp) (s : State) (cx : Cx) (r : Nat × List Nat) (q : Piece) (i : Nat) (e : Armed), 
  let a : Acc := { sp := .glob, lane := r.1, ea := (aOf r.2 : Nat) }
  
  let bs := structureAt s q
  (Enters s cx (submitDec cx o) [r]) ∧
  (Open cx s) ∧
  (ReadsWhole cx s 64 a q) ∧
  (bit (fieldOf bs 0x1E 2) 1 = true) ∧
  (armedBy s (fieldOf bs 0 8) (some (spaceOf s cx.id).2) = some (i, e)) :=
  ⟨⟨pp 3 1 0, 0⟩, modIod (sSub 0x9200) fun i => { i with armed := [(3, armed0)] }, cY, (0, [0x9200]), ⟨0x9200, 0x9200, 0, 64⟩, 3, armed0, entersOf (by decide +kernel), ⟨by decide +kernel, rfl, calmOf (by decide +kernel), rfl, fun _ h => nomatch h⟩, ⟨passesOf (by decide +kernel), by decide +kernel, by unfold Cx.Cold; decide +kernel, rfl⟩, by decide +kernel⟩

theorem witness_Submissions_3 : ∃ (o : ROp) (s : State) (cx : Cx) (r : Nat × List Nat) (q : Piece) (p : Partition), 
  let a : Acc := { sp := .glob, lane := r.1, ea := (aOf r.2 : Nat) }
  
  let bs := structureAt s q
  
  let sp := spaceOf s cx.id
  (Enters s cx (submitDec cx o) [r]) ∧
  (Open cx s) ∧
  (ReadsWhole cx s 64 a q) ∧
  (partOf s sp.2 = some p) ∧
  (p.sendq.length < 256) ∧
  (fieldOf bs 0 8 ≠ 0) ∧
  (fieldOf bs 8 8 % 8 = 0) ∧
  (fieldOf bs 0x10 4 ≤ 8192) ∧
  (fieldOf bs 0x14 1 ≤ 1) ∧
  (fieldOf bs 0x15 3 = 0) ∧
  (fieldOf bs 0x28 8 % 8 = 0) ∧
  (fieldOf bs 0x30 16 = 0) ∧
  (fieldOf bs 8 8 + fieldOf bs 0x10 4 ≤ 2 ^ 57) ∧
  (fieldOf bs 0x28 8 + 8 ≤ 2 ^ 57) :=
  ⟨⟨pp 3 1 0, 0⟩, sSub 0x9300, cY, (0, [0x9300]), ⟨0x9300, 0x9300, 0, 64⟩, { count := 1 }, entersOf (by decide +kernel), ⟨by decide +kernel, rfl, calmOf (by decide +kernel), rfl, fun _ h => nomatch h⟩, ⟨passesOf (by decide +kernel), by decide +kernel, by unfold Cx.Cold; decide +kernel, rfl⟩, rfl, by decide +kernel⟩

theorem witness_Messages_0 : ∃ (held : Bool) (port : Nat) (dst : BitVec 128) (tag : W64) (payload : List Byte) (s : State) (i : Nat) (e : Armed) (tl : TlbEntry) (entry : Nat)
    (q : Partition) (rest : List Msg), 
  let m : Msg := { port, dst, tag, payload }
  (Takes s m i e tl entry) ∧
  (partOf s e.part = some q) ∧
  (payload.length ≤ 8192) ∧
  ((if held then q.held = m :: rest else port ≤ 1 ∧ (Table.getD s.iod.eth port {}).up = true ∧ (Table.getD s.iod.eth port {}).paused = false ∧
        (∀ h ∈ q.held, h.tag ≠ tag))) ∧
  (launchOf s s.nextId = none) :=
  ⟨false, 0, 7, 5, [1, 2, 3, 4, 5, 6, 7, 8], sMsg [], 3, armed0, { asid := 1, part := 0, base := 0, size := 4096, frame := 0x7000, rd := true, wr := true, ex := true, dirty := true }, 0x6000, { count := 1 }, [], { armed := by decide +kernel, fits := by decide, slot := by decide +kernel, room := by decide +kernel, page := by decide +kernel, apart := by decide, quiet := ⟨calmOf (by decide +kernel), rfl, by decide +kernel, fun _ => by simp [sysOf, sMsg, Table.getD, Table.get?, bits]; try decide⟩, judged := ⟨by decide +kernel, judged1 (by decide +kernel) (by decide +kernel)⟩ }, rfl, (by decide +kernel), (by decide +kernel), rfl⟩

theorem witness_Messages_0b : ∃ (held : Bool) (port : Nat) (dst : BitVec 128) (tag : W64) (payload : List Byte) (s : State) (i : Nat) (e : Armed) (tl : TlbEntry) (entry : Nat)
    (q : Partition) (rest : List Msg), 
  let m : Msg := { port, dst, tag, payload }
  (Takes s m i e tl entry) ∧
  (partOf s e.part = some q) ∧
  (payload.length ≤ 8192) ∧
  ((if held then q.held = m :: rest else port ≤ 1 ∧ (Table.getD s.iod.eth port {}).up = true ∧ (Table.getD s.iod.eth port {}).paused = false ∧
        (∀ h ∈ q.held, h.tag ≠ tag))) ∧
  (launchOf s s.nextId = none) :=
  ⟨true, 0, 7, 5, [1, 2, 3, 4, 5, 6, 7, 8], sMsg [msg0], 3, armed0, { asid := 1, part := 0, base := 0, size := 4096, frame := 0x7000, rd := true, wr := true, ex := true, dirty := true }, 0x6000, { count := 1, held := [msg0] }, [], { armed := by decide +kernel, fits := by decide, slot := by decide +kernel, room := by decide +kernel, page := by decide +kernel, apart := by decide, quiet := ⟨calmOf (by decide +kernel), rfl, by decide +kernel, fun _ => by simp [sysOf, sMsg, Table.getD, Table.get?, bits]; try decide⟩, judged := ⟨by decide +kernel, judged1 (by decide +kernel) (by decide +kernel)⟩ }, rfl, (by decide +kernel), rfl, rfl⟩

theorem witness_Messages_1 : ∃ (port : Nat) (dst : BitVec 128) (tag : W64) (payload : List Byte) (s : State), (armedBy s tag.toNat none = none) ∧
  ((∀ e ∈ s.iod.parts, e.2.ip ≠ dst)) :=
  ⟨0, 1, 5, [], sY, by decide +kernel⟩

theorem witness_Messages_2 : ∃ (port : Nat) (dst : BitVec 128) (tag : W64) (payload : List Byte) (s : State) (i : Nat) (e : Armed) (q : Partition), (port ≤ 1) ∧
  ((Table.getD s.iod.eth port {}).up = true) ∧
  ((Table.getD s.iod.eth port {}).paused = false) ∧
  (payload.length ≤ 8192) ∧
  (armedBy s tag.toNat none = some (i, e)) ∧
  (payload.length + 8 ≤ e.bufs) ∧
  ((∃ l ∈ s.launches, l.2.armed = some (i, e.arrn.toNat % e.nslot))) ∧
  (partOf s e.part = some q) ∧
  (q.held.length < 255) :=
  ⟨1, 7, 5, [1], sBusy, 3, armed0, { count := 1 }, (by decide +kernel), (by decide +kernel), (by decide +kernel), (by decide +kernel), (show _ by decide +kernel), (by decide +kernel), (by decide +kernel), rfl, (by decide +kernel)⟩

theorem witness_Messages_3 : ∃ (part : Nat) (s : State) (q : Partition) (m : Msg) (rest : List Msg) (mac : BitVec 48) (pa : Nat), 
  let eth := Table.getD s.iod.eth m.port {}
  
  let hop := if q.ip >>> (128 - min q.plen 128) = m.dst >>> (128 - min q.plen 128) then m.dst else q.router
  (partOf s part = some q) ∧
  (q.sendq = m :: rest) ∧
  (eth.up = true) ∧
  ((eth.neighbours.find? fun n => n.1 == hop) = some (hop, mac)) ∧
  (lookupTlb s (.sys 0) m.asid part m.pay 0 = .ok pa) ∧
  (isPackage pa = true) ∧
  (m.pay % 4096 + m.len ≤ 4096) ∧
  (isPackage (pa + m.len) = true) ∧
  (Calm s) ∧
  ((∀ i < m.len, unserved s ((pa + i) / 128 * 128) = false)) ∧
  (m.done = 0) :=
  ⟨0, sSend, { count := 1, sendq := [msgOut] }, msgOut, [], 0xA0B0C0D0E0F0, 0x9000, rfl, rfl, rfl, (by decide +kernel), (by decide +kernel), (by decide +kernel), (by decide +kernel), (by decide +kernel), calmOf (by decide +kernel), (by decide +kernel), rfl⟩


/-! The fabric -/

def bF (f : Fabric) : Block := { bS with fab := f }
def sF (f : Fabric) : State := with_ (bF f) (.ctl 0 0)
def tok : Token := { kind := 0, rnd := 0, pay := 5 }
def eor : Token := { kind := 2, rnd := 0, pay := 0 }
/-- Cell 0 adds A to itself or B and sends to input A of cell 1; cell 2 sums B; cell 4 merges A and B. -/
def cellAdd1 (a : List Token) : Fabric := { fields := [(1, 1), (2, 1), (5, 0x8001)], bufs := [(0, a)] }
def cellAdd : Fabric := cellAdd1 [tok]
def cellSum (b : List Token) : Fabric := { fields := [(129, 3), (131, 1), (133, 0x8001), (140, 7)], bufs := [(9, b)] }
def cellMerge (a b : List Token) : Fabric := { fields := [(256, 0x21), (257, 9), (258, 1), (259, 1), (261, 0x8001)], bufs := [(16, a), (17, b)] }
/-- A matrix port of format RQ8. -/
def mport (a : List Token) : Fabric := { fields := [(30720, 0x0555), (30722, 0x2000), (30725, 0x8001)], bufs := [(1920, a)] }
/-- The span's first port, with the port's own fields and buffers. -/
def pF (ports : Table Port) (own : List (Nat × BitVec 16)) (bufs : Table (List Token)) : Fabric :=
  { ports, bufs, fields := own.map fun e => (64 * 384 + e.1, e.2) }
def sin : StreamSpec :=
  { base := 0x100, strd := [4, 0, 0], cnt := [4, 1, 1], rlen := 4, sgn := false, loc := false, wid := 4, output := false, gate := false, pred := 0
    win := 2, rnd0 := 0, start := 0, pos := 0 }
def sinL : StreamSpec := { sin with loc := true, win := 0 }
def sinW : StreamSpec := { sin with lines := [(0x100, List.replicate 128 1, false)] }
def sinE : StreamSpec := { sin with pos := 4, taken := 4, eorDue := true }
def sout : StreamSpec := { sin with base := 0x200, output := true }
def soutL : StreamSpec := { sout with loc := true, win := 0 }
def soutE : StreamSpec := { sout with pos := 4, taken := 4, eorDue := true, out := [(0x20C, 1)], headLine := some 4 }
def dr0 : Drain := { who := .program, slice := false, since := 0 }
def bDr : Block := { bF { cellAdd with drain := some dr0 } with regs := { bS.regs with trapvec := 0x100 } }
def bDrB : Block := { bDr with exec := { bDr.exec with ctl := { bDr.exec.ctl with handler := true } } }
def sDr (b : Block) : State := { with_ b (.ctl 0 0) with cycle := 10 ^ 12 }
/-- A list of one command at 0x1000; a stream specification there. -/
def sL (f : Fabric) : State := { sF f with mem := [(0x1000, 5), (0x1002, 8)] }
def sSpec : State :=
  { sF (pF [] [(5, 0x8000)] []) with
    mem := [(0x1001, 2), (0x1008, 4), (0x100C, 4), (0x1014, 1), (0x101C, 1), (0x1024, 4), (0x1026, 2)] }
def spl : Fabric := { splice := some ([(0x00080005, 0)], []) }
def bFw : Block :=
  { bF { ports := [(0, { ended := 1, last := 6 })], fwait := some (0, 1) } with
    exec := { bS.exec with ctl := { bS.exec.ctl with wait := 10 } } }
def sFwt : State := with_ bFw (.ctl 0 0)
/-- A drained fabric with one stateful cell. -/
def drn (who : Drainer) (slice : Bool) : Fabric := { cellSum [] with bufs := [], drain := some { who, slice, since := 0 } }
def sFK (f : Fabric) : State := with_ (bF f) (.sup 0)

theorem headsOf {f : Fabric} {e : Nat} {p : Token → Prop} [DecidablePred p]
    (h : (!(f.channels e).isEmpty && (f.channels e).all fun i => (f.buf e i).head?.any fun t => decide (p t)) = true) : Heads f e p := by
  simp only [Bool.and_eq_true, Bool.not_eq_true', List.isEmpty_eq_false_iff, List.all_eq_true, Option.any_eq_true, decide_eq_true_eq] at h
  exact ⟨h.1, fun i hi => h.2 i hi⟩

theorem notHeads {f : Fabric} {e : Nat} {p : Token → Prop} [DecidablePred p]
    (h : ((f.channels e).any fun i => (f.buf e i).head?.all fun t => !decide (p t)) = true) : ¬Heads f e p := by
  rintro ⟨-, hp⟩
  simp only [List.any_eq_true, Option.all_eq_true, Bool.not_eq_true', decide_eq_false_iff_not] at h
  obtain ⟨i, hi, h⟩ := h
  obtain ⟨t, ht, q⟩ := hp i hi
  exact h t ht q

theorem okOf {x : Except Nat Fabric} {f : Fabric} (h : (match x with | .ok g => decide (g = f) | .error _ => false) = true) : x = .ok f := by
  cases x <;> simp at h
  rw [h]

theorem first_at : ∀ j ∈ (cellMerge [tok] [{ tok with at_ := 3 }]).channels 4, ∀ u,
    ((cellMerge [tok] [{ tok with at_ := 3 }]).buf 4 j).head? = some u → (u.kind = tokData ∨ u.kind = tokEmpty) → tok.at_ < u.at_ ∨ (tok.at_ = u.at_ ∧ 0 ≤ j) := by
  intro j _ u _ _
  rcases Nat.eq_zero_or_pos u.at_ with h | h
  · exact .inr ⟨h.symm, Nat.zero_le j⟩
  · exact .inl h

theorem witness_FabricElements_0 : ∃ (s : State) (c sl e r : Nat) (b : Block), 
  let f := b.fab
  
  let ctl := f.field e 1
  
  let ops := (List.range 3).map (cellInput f e)
  
  let full := ops.all Option.isSome
  
  let v := cellFn (f.field e 0) (bits ctl 11 8) (bits ctl 7 5) (bits (f.field e 7) 3 0) (bit ctl 12) (ops.map fun x => x.getD 0)
  
  let sends : Option (BitVec 3 × Nat) := if f.stf e then none else if full then some (tokData, v.1) else
    if (List.range 3).any fun i => (cellInput f e i).isNone && f.epol e i == 1 then some (tokEmpty, 0) else none
  (Spatial s c sl b) ∧
  (spanElem (posOfCore c) f.span e = some .cell) ∧
  (f.en e = true) ∧
  (f.arrive e = false) ∧
  (f.buf e 3 = []) ∧
  (Heads f e (fun t => t.marker = false ∧ t.rnd.toNat = r ∧ t.mark = none)) ∧
  (¬Heads f e (fun t => t.kind = tokEor)) ∧
  ((sends.isSome = true → f.canSend (f.dests e) = true)) :=
  ⟨sF (cellAdd), 0, 0, 0, 0, bF cellAdd, ⟨rfl, rfl, rfl⟩, (by decide +kernel), (by decide +kernel), (by decide +kernel), (by decide +kernel), headsOf (by decide +kernel), notHeads (by decide +kernel), fun _ => (by decide +kernel)⟩

theorem witness_FabricElements_0b : ∃ (s : State) (c sl e r : Nat) (b : Block), 
  let f := b.fab
  
  let ctl := f.field e 1
  
  let ops := (List.range 3).map (cellInput f e)
  
  let full := ops.all Option.isSome
  
  let v := cellFn (f.field e 0) (bits ctl 11 8) (bits ctl 7 5) (bits (f.field e 7) 3 0) (bit ctl 12) (ops.map fun x => x.getD 0)
  
  let sends : Option (BitVec 3 × Nat) := if f.stf e then none else if full then some (tokData, v.1) else
    if (List.range 3).any fun i => (cellInput f e i).isNone && f.epol e i == 1 then some (tokEmpty, 0) else none
  (Spatial s c sl b) ∧
  (spanElem (posOfCore c) f.span e = some .cell) ∧
  (f.en e = true) ∧
  (f.arrive e = false) ∧
  (f.buf e 3 = []) ∧
  (Heads f e (fun t => t.marker = false ∧ t.rnd.toNat = r ∧ t.mark = none)) ∧
  (¬Heads f e (fun t => t.kind = tokEor)) ∧
  ((sends.isSome = true → f.canSend (f.dests e) = true)) :=
  ⟨sF (cellSum [tok]), 0, 0, 2, 0, bF (cellSum [tok]), ⟨rfl, rfl, rfl⟩, (by decide +kernel), (by decide +kernel), (by decide +kernel), (by decide +kernel), headsOf (by decide +kernel), notHeads (by decide +kernel), fun _ => (by decide +kernel)⟩

theorem witness_FabricElements_1 : ∃ (s : State) (c sl e r : Nat) (b : Block), 
  let f := b.fab
  (Spatial s c sl b) ∧
  (spanElem (posOfCore c) f.span e = some .cell) ∧
  (f.en e = true) ∧
  (f.stf e = true) ∧
  (f.buf e 3 = []) ∧
  (Heads f e (fun t => t.kind = tokEor ∧ t.rnd.toNat = r)) ∧
  ((∀ d ∈ f.dests e, (f.buf d.1 d.2).length + (f.dests e).count d < 2)) :=
  ⟨sF (cellSum [eor]), 0, 0, 2, 0, bF (cellSum [eor]), ⟨rfl, rfl, rfl⟩, (by decide +kernel), (by decide +kernel), (by decide +kernel), (by decide +kernel), headsOf (by decide +kernel), (by decide +kernel)⟩

theorem witness_FabricElements_2 : ∃ (s : State) (c sl e i : Nat) (b : Block) (t0 : Token), 
  let f := b.fab
  
  let value := fun (t : Token) => t.kind = tokData ∨ t.kind = tokEmpty
  (Spatial s c sl b) ∧
  (spanElem (posOfCore c) f.span e = some .cell) ∧
  (f.en e = true) ∧
  (f.arrive e = true) ∧
  (i ∈ f.channels e) ∧
  ((f.buf e i).head? = some t0) ∧
  (value t0) ∧
  ((∀ j ∈ f.channels e, ∀ u, (f.buf e j).head? = some u → value u → t0.at_ < u.at_ ∨ (t0.at_ = u.at_ ∧ i ≤ j))) ∧
  (f.canSend (f.dests e) = true) :=
  ⟨sF (cellMerge [tok] [{ tok with at_ := 3 }]), 0, 0, 4, 0, bF (cellMerge [tok] [{ tok with at_ := 3 }]), tok, ⟨rfl, rfl, rfl⟩, (by decide +kernel), (by decide +kernel), (by decide +kernel), (by decide +kernel), rfl, .inl rfl, first_at, (by decide +kernel)⟩

theorem witness_FabricElements_3 : ∃ (s : State) (c sl e r : Nat) (b : Block) (ev : Instr), 
  let f := b.fab
  
  let x := spanElem (posOfCore c) f.span e
  (Spatial s c sl b) ∧
  (f.canSend (f.dests e) = true) ∧
  (Heads f e (fun t => t.kind = tokEor ∧ t.rnd.toNat = r)) ∧
  (((ev = .cellFire c sl e ∧ x = some .cell ∧ f.en e = true ∧ f.arrive e = false ∧ f.stf e = false ∧ f.buf e 3 = []) ∨
        (ev = .arriveForward c sl e ∧ x = some .cell ∧ f.en e = true ∧ f.arrive e = true) ∨ (ev = .markerForward c sl e ∧ x = some .matrix))) :=
  ⟨sF (cellAdd1 [eor]), 0, 0, 0, 0, bF (cellAdd1 [eor]), .cellFire 0 0 0, ⟨rfl, rfl, rfl⟩, (by decide +kernel), headsOf (by decide +kernel), .inl ⟨rfl, by decide +kernel⟩⟩

theorem witness_FabricElements_3b : ∃ (s : State) (c sl e r : Nat) (b : Block) (ev : Instr), 
  let f := b.fab
  
  let x := spanElem (posOfCore c) f.span e
  (Spatial s c sl b) ∧
  (f.canSend (f.dests e) = true) ∧
  (Heads f e (fun t => t.kind = tokEor ∧ t.rnd.toNat = r)) ∧
  (((ev = .cellFire c sl e ∧ x = some .cell ∧ f.en e = true ∧ f.arrive e = false ∧ f.stf e = false ∧ f.buf e 3 = []) ∨
        (ev = .arriveForward c sl e ∧ x = some .cell ∧ f.en e = true ∧ f.arrive e = true) ∨ (ev = .markerForward c sl e ∧ x = some .matrix))) :=
  ⟨sF (cellMerge [eor] [eor]), 0, 0, 4, 0, bF (cellMerge [eor] [eor]), .arriveForward 0 0 4, ⟨rfl, rfl, rfl⟩, (by decide +kernel), headsOf (by decide +kernel), .inr (.inl ⟨rfl, by decide +kernel⟩)⟩

theorem witness_FabricElements_3c : ∃ (s : State) (c sl e r : Nat) (b : Block) (ev : Instr), 
  let f := b.fab
  
  let x := spanElem (posOfCore c) f.span e
  (Spatial s c sl b) ∧
  (f.canSend (f.dests e) = true) ∧
  (Heads f e (fun t => t.kind = tokEor ∧ t.rnd.toNat = r)) ∧
  (((ev = .cellFire c sl e ∧ x = some .cell ∧ f.en e = true ∧ f.arrive e = false ∧ f.stf e = false ∧ f.buf e 3 = []) ∨
        (ev = .arriveForward c sl e ∧ x = some .cell ∧ f.en e = true ∧ f.arrive e = true) ∨ (ev = .markerForward c sl e ∧ x = some .matrix))) :=
  ⟨sF (mport [eor]), 0, 0, 480, 0, bF (mport [eor]), .markerForward 0 0 480, ⟨rfl, rfl, rfl⟩, (by decide +kernel), headsOf (by decide +kernel), .inr (.inr ⟨rfl, by decide +kernel⟩)⟩

theorem witness_FabricElements_4 : ∃ (s : State) (c sl e : Nat) (b : Block) (k : BitVec 3), 
  let f := b.fab
  (blockOf s c sl = some b) ∧
  (b.exec.model = .spatial) ∧
  (spanElem (posOfCore c) f.span e = some .cell ∨ spanElem (posOfCore c) f.span e = some .matrix) ∧
  ((k = tokDrain ∨ k = tokSplice ∨ k = tokSliceEnd)) ∧
  (Heads f e (fun t => t.kind = k)) ∧
  (f.canSend (f.dests e) = true) ∧
  ((f.splice = none ∨ ∀ x, ∀ l ∈ (coreOf s x).l1, l.state = .clean)) :=
  ⟨sF (cellAdd1 [{ tok with kind := tokDrain }]), 0, 0, 0, bF (cellAdd1 [{ tok with kind := tokDrain }]), tokDrain, rfl, rfl, .inl (by decide +kernel), .inl rfl, headsOf (by decide +kernel), (by decide +kernel), .inl rfl⟩

theorem witness_FabricElements_4b : ∃ (s : State) (c sl e : Nat) (b : Block) (k : BitVec 3), 
  let f := b.fab
  (blockOf s c sl = some b) ∧
  (b.exec.model = .spatial) ∧
  (spanElem (posOfCore c) f.span e = some .cell ∨ spanElem (posOfCore c) f.span e = some .matrix) ∧
  ((k = tokDrain ∨ k = tokSplice ∨ k = tokSliceEnd)) ∧
  (Heads f e (fun t => t.kind = k)) ∧
  (f.canSend (f.dests e) = true) ∧
  ((f.splice = none ∨ ∀ x, ∀ l ∈ (coreOf s x).l1, l.state = .clean)) :=
  ⟨sF (mport [{ tok with kind := tokSplice }]), 0, 0, 480, bF (mport [{ tok with kind := tokSplice }]), tokSplice, rfl, rfl, .inr (by decide +kernel), .inr (.inl rfl), headsOf (by decide +kernel), (by decide +kernel), .inl rfl⟩

theorem witness_FabricElements_5 : ∃ (s : State) (c sl e : Nat) (b : Block) (t0 : Token) (rest : List Token), 
  let f := b.fab
  
  let x := c - posOfCore c + (e - 480)
  (Spatial s c sl b) ∧
  (spanElem (posOfCore c) f.span e = some .matrix) ∧
  (f.mpEn e = true) ∧
  (f.buf e 0 = t0 :: rest) ∧
  (t0.mark = none) ∧
  ((t0.kind = tokEmpty ∨ (t0.kind = tokData ∧ (coreOf s x).mq = [] ∧
        (isSealed s b = true → ∀ j ∈ dstSlots (f.mmas e) (f.p1 e), bit (regionOf s b).amask j = true) ∧
        formatOk (f.fw e) (f.p1 e) (f.mmas e) (some (agRef (agAt s x (pairOf (f.mmas e) (f.p1 e))))) = true))) :=
  ⟨sF (mport [tok]), 0, 0, 480, bF (mport [tok]), tok, [], ⟨rfl, rfl, rfl⟩, (by decide +kernel), (by decide +kernel), rfl, rfl, .inr ⟨rfl, by decide +kernel, by decide +kernel, by decide +kernel⟩⟩

theorem witness_FabricPorts_0 : ∃ (s : State) (c sl i pa : Nat) (b : Block) (a : StreamSpec), 
  let va := (a.addr a.scan).toNat / 128 * 128
  (Spatial s c sl b) ∧
  (b.stream i false = some a) ∧
  (a.loc = false) ∧
  (a.waitPage = false) ∧
  (a.gate = false) ∧
  (a.scan < a.total) ∧
  (a.headLine ≠ some (va / 128)) ∧
  (a.free.lines.length < a.win) ∧
  (lookupTlb s (.blk c sl) b.asid b.part va 0 = .ok pa) ∧
  (isPackage pa = true) ∧
  (unserved s pa = false) ∧
  (Calm s) :=
  ⟨sF (pF [(0, { active := some sin })] [(5, 0x8000)] []), 0, 0, 0, 0x100, bF (pF [(0, { active := some sin })] [(5, 0x8000)] []), sin, ⟨rfl, rfl, rfl⟩, rfl, rfl, rfl, rfl, (by decide +kernel), (by decide +kernel), (by decide +kernel), (by decide +kernel), (show _ by decide +kernel), (by decide +kernel), calmOf (by decide +kernel)⟩

theorem witness_FabricPorts_1 : ∃ (s : State) (c sl i : Nat) (b : Block) (a : StreamSpec) (bs : List Byte), 
  let f := b.fab
  
  let e := 384 + i
  
  let va := (a.addr a.pos).toNat
  (Spatial s c sl b) ∧
  (f.drain = none) ∧
  (spanElem (posOfCore c) f.span e = some .port) ∧
  ((portOf f i).stopped = false) ∧
  ((portOf f i).active = some a) ∧
  (a.output = false) ∧
  (f.buf e 0 = []) ∧
  (f.canSend (f.dests e) = true) ∧
  (a.eorDue = false) ∧
  ((f.round = 0 ∨ laterRound (a.roundAt a.pos) f.round = false)) ∧
  (a.pos < a.total) ∧
  ((a.gated a.pos = false → if a.loc then bs = (upFrom va a.wid).map (blockByte s c sl) ∧ (b.mem.loadLoc va a.wid).2 = false
        else ∃ l line, a.lines.head? = some (l, line, false) ∧ l / 128 = va / 128 ∧ bs = (line.drop (va % 128)).take a.wid)) :=
  ⟨sF (pF [(0, { active := some sinL })] [(5, 0x8000)] []), 0, 0, 0, bF (pF [(0, { active := some sinL })] [(5, 0x8000)] []), sinL, [0, 0, 0, 0], ⟨rfl, rfl, rfl⟩, rfl, (by decide +kernel), rfl, rfl, rfl, rfl, (by decide +kernel), rfl, .inl rfl, (by decide +kernel), fun _ => show _ ∧ _ from ⟨by decide +kernel, by decide +kernel⟩⟩

theorem witness_FabricPorts_1b : ∃ (s : State) (c sl i : Nat) (b : Block) (a : StreamSpec) (bs : List Byte), 
  let f := b.fab
  
  let e := 384 + i
  
  let va := (a.addr a.pos).toNat
  (Spatial s c sl b) ∧
  (f.drain = none) ∧
  (spanElem (posOfCore c) f.span e = some .port) ∧
  ((portOf f i).stopped = false) ∧
  ((portOf f i).active = some a) ∧
  (a.output = false) ∧
  (f.buf e 0 = []) ∧
  (f.canSend (f.dests e) = true) ∧
  (a.eorDue = false) ∧
  ((f.round = 0 ∨ laterRound (a.roundAt a.pos) f.round = false)) ∧
  (a.pos < a.total) ∧
  ((a.gated a.pos = false → if a.loc then bs = (upFrom va a.wid).map (blockByte s c sl) ∧ (b.mem.loadLoc va a.wid).2 = false
        else ∃ l line, a.lines.head? = some (l, line, false) ∧ l / 128 = va / 128 ∧ bs = (line.drop (va % 128)).take a.wid)) :=
  ⟨sF (pF [(0, { active := some sinW })] [(5, 0x8000)] []), 0, 0, 0, bF (pF [(0, { active := some sinW })] [(5, 0x8000)] []), sinW, [1, 1, 1, 1], ⟨rfl, rfl, rfl⟩, rfl, (by decide +kernel), rfl, rfl, rfl, rfl, (by decide +kernel), rfl, .inl rfl, (by decide +kernel), fun _ => show ∃ _ _, _ from ⟨0x100, _, rfl, by decide, by decide +kernel⟩⟩

theorem witness_FabricPorts_2 : ∃ (s : State) (c sl i : Nat) (b : Block) (a : StreamSpec), 
  let f := b.fab
  
  let e := 384 + i
  (Spatial s c sl b) ∧
  (spanElem (posOfCore c) f.span e = some .port) ∧
  ((portOf f i).stopped = false) ∧
  ((portOf f i).active = some a) ∧
  (a.output = false) ∧
  (f.buf e 0 = []) ∧
  (f.canSend (f.dests e) = true) ∧
  (a.eorDue = true) ∧
  (((portOf f i).pending = none ∨ ∀ x, ∀ l ∈ (coreOf s x).l1, l.state = .clean)) :=
  ⟨sF (pF [(0, { active := some sinE })] [(5, 0x8000)] []), 0, 0, 0, bF (pF [(0, { active := some sinE })] [(5, 0x8000)] []), sinE, ⟨rfl, rfl, rfl⟩, (by decide +kernel), rfl, rfl, rfl, rfl, (by decide +kernel), rfl, .inl rfl⟩

theorem witness_FabricPorts_3 : ∃ (s : State) (c sl i pa : Nat) (b : Block) (a : StreamSpec) (t0 : Token) (rest : List Token), 
  let f := b.fab
  
  let e := 384 + i
  
  let va := (a.addr a.pos).toNat
  
  let writes := t0.kind = tokData ∧ a.gated a.pos = false
  (Spatial s c sl b) ∧
  (spanElem (posOfCore c) f.span e = some .port) ∧
  ((portOf f i).stopped = false) ∧
  ((portOf f i).active = some a) ∧
  (a.output = true) ∧
  (a.waitPage = false) ∧
  (a.eorDue = false) ∧
  (f.buf e 0 = t0 :: rest) ∧
  (t0.mark = none) ∧
  ((t0.kind = tokEmpty ∨ (t0.kind = tokData ∧ t0.rnd.toNat = a.roundAt a.pos))) ∧
  ((writes → if a.loc then (isSealed s b = true → inLwset (regionOf s b) va a.wid = true) else lookupTlb s (.blk c sl) b.asid b.part va 1 = .ok pa ∧
        (isSealed s b = true → b.stage.window.length < 4096) ∧ (isSealed s b = false → (a.headLine = none ∨ a.headLine = some (pa / 128)) ∧
          (a.out.filter fun y => y.1 < pa || pa + a.wid ≤ y.1).length + a.wid < 128))) :=
  ⟨sF (pF [(0, { active := some sout })] [] [(1536, [tok])]), 0, 0, 0, 0x200, bF (pF [(0, { active := some sout })] [] [(1536, [tok])]), sout, tok, [], ⟨rfl, rfl, rfl⟩, (by decide +kernel), rfl, rfl, rfl, rfl, rfl, rfl, rfl, .inr (by decide +kernel), fun _ => show _ ∧ _ from by decide +kernel⟩

theorem witness_FabricPorts_3b : ∃ (s : State) (c sl i pa : Nat) (b : Block) (a : StreamSpec) (t0 : Token) (rest : List Token), 
  let f := b.fab
  
  let e := 384 + i
  
  let va := (a.addr a.pos).toNat
  
  let writes := t0.kind = tokData ∧ a.gated a.pos = false
  (Spatial s c sl b) ∧
  (spanElem (posOfCore c) f.span e = some .port) ∧
  ((portOf f i).stopped = false) ∧
  ((portOf f i).active = some a) ∧
  (a.output = true) ∧
  (a.waitPage = false) ∧
  (a.eorDue = false) ∧
  (f.buf e 0 = t0 :: rest) ∧
  (t0.mark = none) ∧
  ((t0.kind = tokEmpty ∨ (t0.kind = tokData ∧ t0.rnd.toNat = a.roundAt a.pos))) ∧
  ((writes → if a.loc then (isSealed s b = true → inLwset (regionOf s b) va a.wid = true) else lookupTlb s (.blk c sl) b.asid b.part va 1 = .ok pa ∧
        (isSealed s b = true → b.stage.window.length < 4096) ∧ (isSealed s b = false → (a.headLine = none ∨ a.headLine = some (pa / 128)) ∧
          (a.out.filter fun y => y.1 < pa || pa + a.wid ≤ y.1).length + a.wid < 128))) :=
  ⟨sF (pF [(0, { active := some soutL })] [] [(1536, [tok])]), 0, 0, 0, 0x200, bF (pF [(0, { active := some soutL })] [] [(1536, [tok])]), soutL, tok, [], ⟨rfl, rfl, rfl⟩, (by decide +kernel), rfl, rfl, rfl, rfl, rfl, rfl, rfl, .inr (by decide +kernel), fun _ => show _ → _ from by decide +kernel⟩

theorem witness_FabricPorts_4 : ∃ (s : State) (c sl i line : Nat) (b : Block) (a : StreamSpec) (t0 : Token) (rest : List Token), 
  let f := b.fab
  
  let e := 384 + i
  (Spatial s c sl b) ∧
  (spanElem (posOfCore c) f.span e = some .port) ∧
  ((portOf f i).stopped = false) ∧
  ((portOf f i).active = some a) ∧
  (a.output = true) ∧
  (a.waitPage = false) ∧
  (a.eorDue = true) ∧
  (f.buf e 0 = t0 :: rest) ∧
  (t0.kind = tokEor) ∧
  (t0.rnd.toNat = a.roundAt (a.pos - 1)) ∧
  (Calm s) ∧
  (s.slices = []) ∧
  ((∀ x ∈ a.out, isPackage x.1 = true ∧ x.1 / 128 = line)) ∧
  ((a.out.map (·.1)).Nodup) :=
  ⟨sF (pF [(0, { active := some soutE })] [] [(1536, [eor])]), 0, 0, 0, 4, bF (pF [(0, { active := some soutE })] [] [(1536, [eor])]), soutE, eor, [], ⟨rfl, rfl, rfl⟩, (by decide +kernel), rfl, rfl, rfl, rfl, rfl, rfl, rfl, (by decide +kernel), calmOf (by decide +kernel), rfl, by decide +kernel⟩

theorem witness_FabricPorts_5 : ∃ (s : State) (c sl i w : Nat) (b : Block), (Spatial s c sl b) ∧
  ((portOf b.fab i).waitFrom = some w) ∧
  (w + 1024 ≤ s.cycle) :=
  ⟨{ sF (pF [(0, { waitFrom := some 8 })] [] []) with cycle := 2000 }, 0, 0, 0, 8, bF (pF [(0, { waitFrom := some 8 })] [] []), ⟨rfl, rfl, rfl⟩, rfl, (by decide +kernel)⟩

theorem witness_FabricPorts_6 : ∃ (s : State) (c sl : Nat) (b : Block) (d : Drain) (p : Partition), (blockOf s c sl = some b) ∧
  (b.exec.model = .spatial) ∧
  (b.fab.drain = some d) ∧
  (d.late = false) ∧
  (partOf s b.part = some p) ∧
  (d.since + 2400 * p.preempt ≤ s.cycle) ∧
  (b.fab.drained (posOfCore c) = false) ∧
  (isSealed s b = false) ∧
  (b.regs.trapvec ≠ 0) ∧
  ((∀ q ∈ s.pending, q.ctx = .blk c sl → q.sfu = false)) :=
  ⟨sDr bDr, 0, 0, bDr, dr0, { count := 1 }, rfl, rfl, rfl, rfl, rfl, (by decide +kernel), (by decide +kernel), (by decide +kernel), (by decide +kernel), (by intro q h; cases h)⟩

theorem witness_FabricPorts_6b : ∃ (s : State) (c sl : Nat) (b : Block) (d : Drain) (p : Partition), (blockOf s c sl = some b) ∧
  (b.exec.model = .spatial) ∧
  (b.fab.drain = some d) ∧
  (d.late = false) ∧
  (partOf s b.part = some p) ∧
  (d.since + 2400 * p.preempt ≤ s.cycle) ∧
  (b.fab.drained (posOfCore c) = false) ∧
  (isSealed s b = false) ∧
  (b.regs.trapvec ≠ 0) ∧
  ((∀ q ∈ s.pending, q.ctx = .blk c sl → q.sfu = false)) :=
  ⟨sDr bDrB, 0, 0, bDrB, dr0, { count := 1 }, rfl, rfl, rfl, rfl, rfl, (by decide +kernel), (by decide +kernel), (by decide +kernel), (by decide +kernel), (by intro q h; cases h)⟩

theorem witness_FabricInstructions_0 : ∃ (splice : Bool) (o : ROp) (s : State) (cx : Cx) (c sl a : Nat) (b : Block) (cmds : List W32) (f' : Fabric), 
  let d := listDec o (validIn [.S] []) .none true
  (Enters s cx d [(0, [a, cmds.length])]) ∧
  (cx.id = .blk c sl) ∧
  (Spatial s c sl b) ∧
  (1 ≤ cmds.length) ∧
  (cmds.length ≤ 4096) ∧
  (Calm s) ∧
  (s.path = []) ∧
  (ListAt cx s a cmds) ∧
  (b.fab.later = []) ∧
  ((∀ q ∈ b.fab.bufs, ∀ t ∈ q.2, t.kind ≠ tokSplice)) ∧
  (checkList (posOfCore cx.core) b.fab.span b.claim b.fab cmds = .ok f') :=
  ⟨false, ⟨pp 0 2 73, 0⟩, sL (cellAdd), cS, 0, 0, 0x1000, bF (cellAdd), [0x00080005#32], (cellAdd).apply 0x00080005#32, entersOf (by decide +kernel), rfl, ⟨rfl, rfl, rfl⟩, (by decide +kernel), (by decide +kernel), calmOf (by decide +kernel), rfl, ⟨passesOf (by decide +kernel), List.forall_mem_singleton.mpr ⟨⟨0x1000, 0x1000, 0, 4⟩, by decide +kernel, by unfold Cx.Cold; decide +kernel, rfl, by decide +kernel⟩⟩, rfl, (by decide +kernel), okOf (by decide +kernel)⟩

theorem witness_FabricInstructions_0b : ∃ (splice : Bool) (o : ROp) (s : State) (cx : Cx) (c sl a : Nat) (b : Block) (cmds : List W32) (f' : Fabric), 
  let d := listDec o (validIn [.S] []) .none true
  (Enters s cx d [(0, [a, cmds.length])]) ∧
  (cx.id = .blk c sl) ∧
  (Spatial s c sl b) ∧
  (1 ≤ cmds.length) ∧
  (cmds.length ≤ 4096) ∧
  (Calm s) ∧
  (s.path = []) ∧
  (ListAt cx s a cmds) ∧
  (b.fab.later = []) ∧
  ((∀ q ∈ b.fab.bufs, ∀ t ∈ q.2, t.kind ≠ tokSplice)) ∧
  (checkList (posOfCore cx.core) b.fab.span b.claim b.fab cmds = .ok f') :=
  ⟨true, ⟨pp 0 2 73, 0⟩, sL (pF [] [(5, 0x8000)] []), cS, 0, 0, 0x1000, bF (pF [] [(5, 0x8000)] []), [0x00080005#32], (pF [] [(5, 0x8000)] []).apply 0x00080005#32, entersOf (by decide +kernel), rfl, ⟨rfl, rfl, rfl⟩, (by decide +kernel), (by decide +kernel), calmOf (by decide +kernel), rfl, ⟨passesOf (by decide +kernel), List.forall_mem_singleton.mpr ⟨⟨0x1000, 0x1000, 0, 4⟩, by decide +kernel, by unfold Cx.Cold; decide +kernel, rfl, by decide +kernel⟩⟩, rfl, (by decide +kernel), okOf (by decide +kernel)⟩

theorem witness_FabricInstructions_1 : ∃ (o : POp) (s : State) (cx : Cx) (c sl : Nat) (b : Block) (r : Nat × List Nat) (q : Piece), 
  let v := o.param.toNat
  
  let i := 16 * bits v 27 25 + bits v 31 28
  
  let d : Dec := { valid := validIn [.S] [], p := o.p, len := 2, srcs := [{ n := o.p.srcA.toNat, rc := .s, wide := true }],
                   ok := bits v 24 0 == 0 && o.p.srcA.toNat != 127 && o.p.srcB == 0 && posOfCore cx.core ≤ bits v 27 25 &&
                     bits v 27 25 < posOfCore cx.core + b.fab.span }
  
  let bs := structureAt s q
  
  let n := fieldOf bs 0x25 1 % 8
  
  let a := specOf bs (if n = 0 then BitVec.allOnes 256 else (Store.get b.mem.preds n).setWidth 256) (cx.site s)
  (Enters s cx d [r]) ∧
  (cx.id = .blk c sl) ∧
  (Spatial s c sl b) ∧
  (Calm s) ∧
  (s.path = []) ∧
  (ReadsWhole cx s 64 { sp := .glob, lane := 0, ea := (aOf r.2 : Nat) } q) ∧
  (specOk bs a = true) ∧
  ((b.fab.coming.dests (384 + i)).isEmpty = a.output) ∧
  (specFault b.mem.locb a = none) ∧
  ((∀ e ∈ b.fab.ports, e.2.active = none ∧ e.2.pending = none ∧ e.2.stopped = false)) :=
  ⟨⟨pp 0 2 0, 0⟩, sSpec, cS, 0, 0, bF (pF [] [(5, 0x8000)] []), (0, [0x1000]), ⟨0x1000, 0x1000, 0, 64⟩, entersOf (by decide +kernel), rfl, ⟨rfl, rfl, rfl⟩, calmOf (by decide +kernel), rfl, ⟨passesOf (by decide +kernel), by decide +kernel, by unfold Cx.Cold; decide +kernel, rfl⟩, (by decide +kernel), (by decide +kernel), (by decide +kernel), (by intro e h; cases h)⟩

theorem witness_FabricInstructions_2 : ∃ (o : POp) (s : State) (cx : Cx) (c sl : Nat) (b : Block) (rs : List (Nat × List Nat)), 
  let v := o.param.toNat
  
  let d := plainDec (validIn [.S] []) o.p 2 (bits v 27 0 == 0 && bits v 31 28 != 0)
  (Enters s cx d rs) ∧
  (rs ≠ []) ∧
  (cx.id = .blk c sl) ∧
  (blockOf s c sl = some b) ∧
  (s.path = []) ∧
  (s.outside = []) :=
  ⟨⟨pp 0 0 0, 0xF0000000⟩, sS, cS, 0, 0, bS, [(0, [])], entersOf (by decide +kernel), (by decide +kernel), rfl, rfl, rfl, rfl⟩

theorem witness_FabricInstructions_2b : ∃ (o : POp) (s : State) (cx : Cx) (c sl : Nat) (b : Block) (rs : List (Nat × List Nat)), 
  let v := o.param.toNat
  
  let d := plainDec (validIn [.S] []) o.p 2 (bits v 27 0 == 0 && bits v 31 28 != 0)
  (Enters s cx d rs) ∧
  (rs ≠ []) ∧
  (cx.id = .blk c sl) ∧
  (blockOf s c sl = some b) ∧
  (s.path = []) ∧
  (s.outside = []) :=
  ⟨⟨pp 0 0 0, 0x80000000⟩, sF spl, cS, 0, 0, bF spl, [(0, [])], entersOf (by decide +kernel), (by decide +kernel), rfl, rfl, rfl, rfl⟩

theorem witness_FabricInstructions_3 : ∃ (o : POp) (s : State) (cx : Cx) (c sl : Nat) (b : Block) (rs : List (Nat × List Nat)) (x : Nat), 
  let evt := bits o.param.toNat 31 28
  
  let arg := bits o.param.toNat 27 20
  
  let k := posOfCore cx.core
  
  let d : Dec := { valid := validIn [.S] [], p := o.p, len := 2, dst := .reg .s,
                   ok := bits o.param.toNat 19 0 == 0 && evt ≤ 4 && o.p.srcA == 0 && o.p.srcB == 0 && (evt ≤ 1 || arg == 0) &&
                     (evt != 1 || (16 * k ≤ arg && arg < 16 * (k + b.fab.span))) }
  
  let p := portOf b.fab arg
  (Enters s cx d rs) ∧
  (rs ≠ []) ∧
  (cx.id = .blk c sl) ∧
  (blockOf s c sl = some b) ∧
  (((evt = 0 ∧ roundLeft b.fab arg = true ∧ x = arg) ∨
        (evt = 1 ∧ ((cx.begun s = false ∧ p.active = none ∧ p.pending = none ∧ x = 0) ∨
          (cx.begun s = true ∧ (∃ n, b.fab.fwait = some (arg, n) ∧ n ≤ p.ended) ∧ x = p.last))) ∨
        (evt = 2 ∧ b.fab.splice = none ∧ x = b.fab.cver.toNat) ∨ (evt = 3 ∧ (∀ q ∈ b.fab.bufs, q.2 = []) ∧ x = 0))) :=
  ⟨⟨pp 5 0 0, 0x00300000⟩, sS, cS, 0, 0, bS, [(0, [])], 3, entersOf (by decide +kernel), (by decide +kernel), rfl, rfl, .inl (by decide +kernel)⟩

theorem witness_FabricInstructions_3b : ∃ (o : POp) (s : State) (cx : Cx) (c sl : Nat) (b : Block) (rs : List (Nat × List Nat)) (x : Nat), 
  let evt := bits o.param.toNat 31 28
  
  let arg := bits o.param.toNat 27 20
  
  let k := posOfCore cx.core
  
  let d : Dec := { valid := validIn [.S] [], p := o.p, len := 2, dst := .reg .s,
                   ok := bits o.param.toNat 19 0 == 0 && evt ≤ 4 && o.p.srcA == 0 && o.p.srcB == 0 && (evt ≤ 1 || arg == 0) &&
                     (evt != 1 || (16 * k ≤ arg && arg < 16 * (k + b.fab.span))) }
  
  let p := portOf b.fab arg
  (Enters s cx d rs) ∧
  (rs ≠ []) ∧
  (cx.id = .blk c sl) ∧
  (blockOf s c sl = some b) ∧
  (((evt = 0 ∧ roundLeft b.fab arg = true ∧ x = arg) ∨
        (evt = 1 ∧ ((cx.begun s = false ∧ p.active = none ∧ p.pending = none ∧ x = 0) ∨
          (cx.begun s = true ∧ (∃ n, b.fab.fwait = some (arg, n) ∧ n ≤ p.ended) ∧ x = p.last))) ∨
        (evt = 2 ∧ b.fab.splice = none ∧ x = b.fab.cver.toNat) ∨ (evt = 3 ∧ (∀ q ∈ b.fab.bufs, q.2 = []) ∧ x = 0))) :=
  ⟨⟨pp 5 0 0, 0x10000000⟩, sS, cS, 0, 0, bS, [(0, [])], 0, entersOf (by decide +kernel), (by decide +kernel), rfl, rfl, .inr (.inl ⟨by decide, .inl (by decide +kernel)⟩)⟩

theorem witness_FabricInstructions_3c : ∃ (o : POp) (s : State) (cx : Cx) (c sl : Nat) (b : Block) (rs : List (Nat × List Nat)) (x : Nat), 
  let evt := bits o.param.toNat 31 28
  
  let arg := bits o.param.toNat 27 20
  
  let k := posOfCore cx.core
  
  let d : Dec := { valid := validIn [.S] [], p := o.p, len := 2, dst := .reg .s,
                   ok := bits o.param.toNat 19 0 == 0 && evt ≤ 4 && o.p.srcA == 0 && o.p.srcB == 0 && (evt ≤ 1 || arg == 0) &&
                     (evt != 1 || (16 * k ≤ arg && arg < 16 * (k + b.fab.span))) }
  
  let p := portOf b.fab arg
  (Enters s cx d rs) ∧
  (rs ≠ []) ∧
  (cx.id = .blk c sl) ∧
  (blockOf s c sl = some b) ∧
  (((evt = 0 ∧ roundLeft b.fab arg = true ∧ x = arg) ∨
        (evt = 1 ∧ ((cx.begun s = false ∧ p.active = none ∧ p.pending = none ∧ x = 0) ∨
          (cx.begun s = true ∧ (∃ n, b.fab.fwait = some (arg, n) ∧ n ≤ p.ended) ∧ x = p.last))) ∨
        (evt = 2 ∧ b.fab.splice = none ∧ x = b.fab.cver.toNat) ∨ (evt = 3 ∧ (∀ q ∈ b.fab.bufs, q.2 = []) ∧ x = 0))) :=
  ⟨⟨pp 5 0 0, 0x10000000⟩, sFwt, cS, 0, 0, bFw, [(0, [])], 6, entersOf (by decide +kernel), (by decide +kernel), rfl, rfl, .inr (.inl ⟨by decide, .inr ⟨by decide +kernel, ⟨1, rfl, by decide⟩, rfl⟩⟩)⟩

theorem witness_FabricInstructions_3d : ∃ (o : POp) (s : State) (cx : Cx) (c sl : Nat) (b : Block) (rs : List (Nat × List Nat)) (x : Nat), 
  let evt := bits o.param.toNat 31 28
  
  let arg := bits o.param.toNat 27 20
  
  let k := posOfCore cx.core
  
  let d : Dec := { valid := validIn [.S] [], p := o.p, len := 2, dst := .reg .s,
                   ok := bits o.param.toNat 19 0 == 0 && evt ≤ 4 && o.p.srcA == 0 && o.p.srcB == 0 && (evt ≤ 1 || arg == 0) &&
                     (evt != 1 || (16 * k ≤ arg && arg < 16 * (k + b.fab.span))) }
  
  let p := portOf b.fab arg
  (Enters s cx d rs) ∧
  (rs ≠ []) ∧
  (cx.id = .blk c sl) ∧
  (blockOf s c sl = some b) ∧
  (((evt = 0 ∧ roundLeft b.fab arg = true ∧ x = arg) ∨
        (evt = 1 ∧ ((cx.begun s = false ∧ p.active = none ∧ p.pending = none ∧ x = 0) ∨
          (cx.begun s = true ∧ (∃ n, b.fab.fwait = some (arg, n) ∧ n ≤ p.ended) ∧ x = p.last))) ∨
        (evt = 2 ∧ b.fab.splice = none ∧ x = b.fab.cver.toNat) ∨ (evt = 3 ∧ (∀ q ∈ b.fab.bufs, q.2 = []) ∧ x = 0))) :=
  ⟨⟨pp 5 0 0, 0x20000000⟩, sS, cS, 0, 0, bS, [(0, [])], 0, entersOf (by decide +kernel), (by decide +kernel), rfl, rfl, .inr (.inr (.inl (by decide +kernel)))⟩

theorem witness_FabricInstructions_3e : ∃ (o : POp) (s : State) (cx : Cx) (c sl : Nat) (b : Block) (rs : List (Nat × List Nat)) (x : Nat), 
  let evt := bits o.param.toNat 31 28
  
  let arg := bits o.param.toNat 27 20
  
  let k := posOfCore cx.core
  
  let d : Dec := { valid := validIn [.S] [], p := o.p, len := 2, dst := .reg .s,
                   ok := bits o.param.toNat 19 0 == 0 && evt ≤ 4 && o.p.srcA == 0 && o.p.srcB == 0 && (evt ≤ 1 || arg == 0) &&
                     (evt != 1 || (16 * k ≤ arg && arg < 16 * (k + b.fab.span))) }
  
  let p := portOf b.fab arg
  (Enters s cx d rs) ∧
  (rs ≠ []) ∧
  (cx.id = .blk c sl) ∧
  (blockOf s c sl = some b) ∧
  (((evt = 0 ∧ roundLeft b.fab arg = true ∧ x = arg) ∨
        (evt = 1 ∧ ((cx.begun s = false ∧ p.active = none ∧ p.pending = none ∧ x = 0) ∨
          (cx.begun s = true ∧ (∃ n, b.fab.fwait = some (arg, n) ∧ n ≤ p.ended) ∧ x = p.last))) ∨
        (evt = 2 ∧ b.fab.splice = none ∧ x = b.fab.cver.toNat) ∨ (evt = 3 ∧ (∀ q ∈ b.fab.bufs, q.2 = []) ∧ x = 0))) :=
  ⟨⟨pp 5 0 0, 0x30000000⟩, sS, cS, 0, 0, bS, [(0, [])], 0, entersOf (by decide +kernel), (by decide +kernel), rfl, rfl, .inr (.inr (.inr (by decide +kernel)))⟩

theorem witness_FabricInstructions_4 : ∃ (slice : Bool) (o : ROp) (s : State) (cx : Cx) (c sl a : Nat) (r : Nat × List Nat) (b : Block) (x : Drain) (q : Nat → Piece), 
  let n := (drainRecords b).length
  
  let accs := (List.range (n + 1)).map fun i => ({ sp := .glob, lane := 0, ea := (a + 16 * i : Nat) } : Acc)
  
  let local_ := (cx.localSite s).isSome
  
  let d := if slice then listDec o (validIn [.K] [.S]) .own (o.p.dreg == 1 && !o.p.nwb && local_)
    else listDec o (validIn [.S, .K] []) .own (o.p.dreg == 0 && !o.p.nwb && o.p.srcB.toNat == 72 && local_)
  
  let who := if cx.kind = .K then Drainer.supervisor else .program
  (Enters s cx d [r]) ∧
  (aOf r.2 = a) ∧
  (cx.localSite s = some (c, sl)) ∧
  (blockOf s c sl = some b) ∧
  (b.exec.model = .spatial) ∧
  (b.fab.drain = some x) ∧
  (x.who = who) ∧
  (x.slice = slice) ∧
  (b.fab.drained (posOfCore c) = true) ∧
  (a % 64 = 0) ∧
  (cx.Passes s 16 1 accs) ∧
  (Calm s) ∧
  (s.slices = []) ∧
  (s.path = []) ∧
  ((∀ i ≤ n, cx.placed s 16 1 { sp := .glob, lane := 0, ea := (a + 16 * i : Nat) } = [q i] ∧ (q i).n = 16 ∧ isPackage (q i).pa = true ∧
        (q i).pa = (q 0).pa + 16 * i)) ∧
  ((q 0).pa % 64 = 0) ∧
  ((b.fab.ports.map (·.1)).Nodup) ∧
  (n < 2 ^ 32) :=
  ⟨false, ⟨pp 0 2 72, 0⟩, sF (drn .program false), cS, 0, 0, 0x1000, (0, [0x1000, 0]), bF (drn .program false), { who := .program, slice := false, since := 0 }, fun i => ⟨0x1000 + 16 * i, 0x1000 + 16 * i, 0, 16⟩, entersOf (by decide +kernel), rfl, rfl, rfl, rfl, rfl, (by decide +kernel), rfl, (by decide +kernel), (by decide +kernel), passesOf (by decide +kernel), calmOf (by decide +kernel), rfl, rfl, by decide +kernel⟩

theorem witness_FabricInstructions_4b : ∃ (slice : Bool) (o : ROp) (s : State) (cx : Cx) (c sl a : Nat) (r : Nat × List Nat) (b : Block) (x : Drain) (q : Nat → Piece), 
  let n := (drainRecords b).length
  
  let accs := (List.range (n + 1)).map fun i => ({ sp := .glob, lane := 0, ea := (a + 16 * i : Nat) } : Acc)
  
  let local_ := (cx.localSite s).isSome
  
  let d := if slice then listDec o (validIn [.K] [.S]) .own (o.p.dreg == 1 && !o.p.nwb && local_)
    else listDec o (validIn [.S, .K] []) .own (o.p.dreg == 0 && !o.p.nwb && o.p.srcB.toNat == 72 && local_)
  
  let who := if cx.kind = .K then Drainer.supervisor else .program
  (Enters s cx d [r]) ∧
  (aOf r.2 = a) ∧
  (cx.localSite s = some (c, sl)) ∧
  (blockOf s c sl = some b) ∧
  (b.exec.model = .spatial) ∧
  (b.fab.drain = some x) ∧
  (x.who = who) ∧
  (x.slice = slice) ∧
  (b.fab.drained (posOfCore c) = true) ∧
  (a % 64 = 0) ∧
  (cx.Passes s 16 1 accs) ∧
  (Calm s) ∧
  (s.slices = []) ∧
  (s.path = []) ∧
  ((∀ i ≤ n, cx.placed s 16 1 { sp := .glob, lane := 0, ea := (a + 16 * i : Nat) } = [q i] ∧ (q i).n = 16 ∧ isPackage (q i).pa = true ∧
        (q i).pa = (q 0).pa + 16 * i)) ∧
  ((q 0).pa % 64 = 0) ∧
  ((b.fab.ports.map (·.1)).Nodup) ∧
  (n < 2 ^ 32) :=
  ⟨false, ⟨pp 0 2 72, 0⟩, sFK (drn .supervisor false), cK, 0, 0, 0x1000, (0, [0x1000, 0]), bF (drn .supervisor false), { who := .supervisor, slice := false, since := 0 }, fun i => ⟨0x1000 + 16 * i, 0x1000 + 16 * i, 0, 16⟩, entersOf (by decide +kernel), rfl, rfl, rfl, rfl, rfl, (by decide +kernel), rfl, (by decide +kernel), (by decide +kernel), passesOf (by decide +kernel), calmOf (by decide +kernel), rfl, rfl, by decide +kernel⟩

theorem witness_FabricInstructions_4c : ∃ (slice : Bool) (o : ROp) (s : State) (cx : Cx) (c sl a : Nat) (r : Nat × List Nat) (b : Block) (x : Drain) (q : Nat → Piece), 
  let n := (drainRecords b).length
  
  let accs := (List.range (n + 1)).map fun i => ({ sp := .glob, lane := 0, ea := (a + 16 * i : Nat) } : Acc)
  
  let local_ := (cx.localSite s).isSome
  
  let d := if slice then listDec o (validIn [.K] [.S]) .own (o.p.dreg == 1 && !o.p.nwb && local_)
    else listDec o (validIn [.S, .K] []) .own (o.p.dreg == 0 && !o.p.nwb && o.p.srcB.toNat == 72 && local_)
  
  let who := if cx.kind = .K then Drainer.supervisor else .program
  (Enters s cx d [r]) ∧
  (aOf r.2 = a) ∧
  (cx.localSite s = some (c, sl)) ∧
  (blockOf s c sl = some b) ∧
  (b.exec.model = .spatial) ∧
  (b.fab.drain = some x) ∧
  (x.who = who) ∧
  (x.slice = slice) ∧
  (b.fab.drained (posOfCore c) = true) ∧
  (a % 64 = 0) ∧
  (cx.Passes s 16 1 accs) ∧
  (Calm s) ∧
  (s.slices = []) ∧
  (s.path = []) ∧
  ((∀ i ≤ n, cx.placed s 16 1 { sp := .glob, lane := 0, ea := (a + 16 * i : Nat) } = [q i] ∧ (q i).n = 16 ∧ isPackage (q i).pa = true ∧
        (q i).pa = (q 0).pa + 16 * i)) ∧
  ((q 0).pa % 64 = 0) ∧
  ((b.fab.ports.map (·.1)).Nodup) ∧
  (n < 2 ^ 32) :=
  ⟨true, ⟨pp 1 2 73, 0⟩, sFK (drn .supervisor true), cK, 0, 0, 0x1000, (0, [0x1000, 1]), bF (drn .supervisor true), { who := .supervisor, slice := true, since := 0 }, fun i => ⟨0x1000 + 16 * i, 0x1000 + 16 * i, 0, 16⟩, entersOf (by decide +kernel), rfl, rfl, rfl, rfl, rfl, (by decide +kernel), rfl, (by decide +kernel), (by decide +kernel), passesOf (by decide +kernel), calmOf (by decide +kernel), rfl, rfl, by decide +kernel⟩


/-! System registers and instructions -/

/-- A block stopped for supervisor code; one placed for restore from an area at 0x1000. -/
def bStop (ev : Nat) : Block := { bT with phase := .stopped ev { cause := 20 } [0, 1, 2, 3], regs := { bT.regs with trapvec := 0x100 } }
def sStop (ev : Nat) : State := with_ (bStop ev) (.sup 0)
def bRst : Block := { bT with phase := .restore, kept := { size := 256 } }
def sRst : State :=
  { with_ bRst (.sup 0) with
    mem := [(0x1000, 0x56), (0x1001, 0x41), (0x1002, 0x53), (0x1004, 1), (0x1009, 1), (0x101C, 4), (0x101E, 16)] }
def sysReg (s : State) (a : W64) : State := modSys s 0 fun y => { y with ctl := { y.ctl with sregs := [(1, a)] } }
def sIni : State :=
  { sysReg sY 0x1008 with cores := [(0, { sup := { pc := 8, asid := 1, halted := true } })], mem := [(0x1003, 0x80)] }
def sHost (a : W64) : State := { sysReg sNone a with iod := { sNone.iod with funcs := [(7, { part := some 0, handed := true })] } }
def bCh : Block := { bS with charges := { bS.charges with partials := [(3, 5)] } }
def sCh : State := with_ bCh (.sup 0)
def sDt : State :=
  { sNone with mem := [(0x8000, 6)], iod := { sNone.iod with funcs := [(7, { part := some 0, dten := true, dtbase := 0x8000, dtcnt := 100 })] } }
def sVf (q : Bool) : State := { sNone with iod := { sNone.iod with funcs := [(7, { part := some 0, quiesced := q })] } }

theorem witness_SystemRegisters_0 : ∃ (o : KOp) (s : State) (cx : Cx) (rs : List (Nat × List Nat)) (site : Option (Nat × Nat × Option Nat)), 
  let n := regNum o
  (Enters s cx (mfsDec cx o) rs) ∧
  (rs ≠ []) ∧
  (cx.regSite s n = .ok site) ∧
  ((n = 0x014 → s.pending = [] ∧ ∀ c, (coreOf s c).mq = [])) :=
  ⟨⟨pp 5 0 0, 0x011⟩, sT, cT, [(0, []), (1, []), (2, []), (3, [])], some (0, 0, none), entersOf (by decide +kernel), (by decide +kernel), rfl, fun h => absurd h (by decide)⟩

theorem witness_SystemRegisters_0b : ∃ (o : KOp) (s : State) (cx : Cx) (rs : List (Nat × List Nat)) (site : Option (Nat × Nat × Option Nat)), 
  let n := regNum o
  (Enters s cx (mfsDec cx o) rs) ∧
  (rs ≠ []) ∧
  (cx.regSite s n = .ok site) ∧
  ((n = 0x014 → s.pending = [] ∧ ∀ c, (coreOf s c).mq = [])) :=
  ⟨⟨pp 5 0 0, 0x014⟩, sV, cV, [(0, [])], some (0, 0, none), entersOf (by decide +kernel), (by decide +kernel), rfl, fun _ => ⟨rfl, fun c => by simp [coreOf, sV, with_, Table.getD, Table.get?]; split <;> rfl⟩⟩

theorem witness_SystemRegisters_0c : ∃ (o : KOp) (s : State) (cx : Cx) (rs : List (Nat × List Nat)) (site : Option (Nat × Nat × Option Nat)), 
  let n := regNum o
  (Enters s cx (mfsDec cx o) rs) ∧
  (rs ≠ []) ∧
  (cx.regSite s n = .ok site) ∧
  ((n = 0x014 → s.pending = [] ∧ ∀ c, (coreOf s c).mq = [])) :=
  ⟨⟨pp 5 0 0, 0x180⟩, sK, cK, [(0, [])], none, entersOf (by decide +kernel), (by decide +kernel), rfl, fun h => absurd h (by decide)⟩

theorem witness_SystemRegisters_1 : ∃ (write : Bool) (o : KOp) (s : State) (cx : Cx) (c : Nat), (cxOf s = some cx) ∧
  (regTrap (regNum o) write cx.kind = some c) :=
  ⟨false, ⟨pp 5 0 0, 0x180⟩, sT, cT, 7, by decide +kernel⟩

theorem witness_SystemRegisters_1b : ∃ (write : Bool) (o : KOp) (s : State) (cx : Cx) (c : Nat), (cxOf s = some cx) ∧
  (regTrap (regNum o) write cx.kind = some c) :=
  ⟨true, ⟨pp 0 1 0, 0x180⟩, sV, cV, 7, by decide +kernel⟩

theorem witness_SystemRegisters_2 : ∃ (o : KOp) (s : State) (cx : Cx) (r : Nat × List Nat) (rest : List (Nat × List Nat)) (c sl : Nat) (tt : Option Nat) (b : Block), 
  let n := regNum o
  (Enters s cx (mtsDec cx o) (r :: rest)) ∧
  (cx.regSite s n = .ok (some (c, sl, tt))) ∧
  (blockOf s c sl = some b) ∧
  ((∀ x ∈ r :: rest, blockRegBad b n (aOf x.2) = false)) ∧
  ((b.exec.model = .threaded → n = 0x188 ∨ n = 0x189 → tt.getD r.1 < b.exec.threads.length)) :=
  ⟨⟨pp 0 1 0, 0x015⟩, sT, cT, (0, [7]), [(1, [9]), (2, [1]), (3, [4])], 0, 0, none, bT, entersOf (by decide +kernel), rfl, rfl, by decide +kernel⟩

theorem witness_SystemRegisters_2b : ∃ (o : KOp) (s : State) (cx : Cx) (r : Nat × List Nat) (rest : List (Nat × List Nat)) (c sl : Nat) (tt : Option Nat) (b : Block), 
  let n := regNum o
  (Enters s cx (mtsDec cx o) (r :: rest)) ∧
  (cx.regSite s n = .ok (some (c, sl, tt))) ∧
  (blockOf s c sl = some b) ∧
  ((∀ x ∈ r :: rest, blockRegBad b n (aOf x.2) = false)) ∧
  ((b.exec.model = .threaded → n = 0x188 ∨ n = 0x189 → tt.getD r.1 < b.exec.threads.length)) :=
  ⟨⟨pp 0 1 0, 0x011⟩, sK, cK, (0, [7]), [], 0, 0, some 0, bS, entersOf (by decide +kernel), rfl, rfl, by decide +kernel⟩

theorem witness_SystemRegisters_3 : ∃ (o : KOp) (s : State) (cx : Cx) (r : Nat × List Nat), 
  let n := regNum o
  
  let v := aOf r.2
  (Enters s cx (mtsDec cx o) [r]) ∧
  (cx.regSite s n = .ok none) ∧
  ((n = 0x180 → v % 2 ^ 57 = 0 ∨ v % 128 = 8)) ∧
  ((n = 0x170 → bits v 31 30 ≠ 3)) ∧
  ((0x111 ≤ n ∧ n ≤ 0x113 → ∀ y, cx.id = .sys y → (funcOf s (sysOf s y).dtsel.toNat).dten = false)) ∧
  ((n = 0x182 ∨ (placeMask n).isSome = true)) :=
  ⟨⟨pp 0 1 0, 0x181⟩, sK, cK, (0, [7]), entersOf (by decide +kernel), rfl, fun h => absurd h (by decide), fun h => absurd h (by decide +kernel), fun h => absurd h (by decide +kernel), .inr rfl⟩

theorem witness_SystemRegisters_3b : ∃ (o : KOp) (s : State) (cx : Cx) (r : Nat × List Nat), 
  let n := regNum o
  
  let v := aOf r.2
  (Enters s cx (mtsDec cx o) [r]) ∧
  (cx.regSite s n = .ok none) ∧
  ((n = 0x180 → v % 2 ^ 57 = 0 ∨ v % 128 = 8)) ∧
  ((n = 0x170 → bits v 31 30 ≠ 3)) ∧
  ((0x111 ≤ n ∧ n ≤ 0x113 → ∀ y, cx.id = .sys y → (funcOf s (sysOf s y).dtsel.toNat).dten = false)) ∧
  ((n = 0x182 ∨ (placeMask n).isSome = true)) :=
  ⟨⟨pp 0 1 0, 0x181⟩, sY, cY, (0, [7]), entersOf (by decide +kernel), rfl, fun h => absurd h (by decide), fun h => absurd h (by decide +kernel), fun h => absurd h (by decide +kernel), .inr rfl⟩

theorem witness_SupervisorInstructions_0 : ∃ (o : KOp) (s : State) (cx : Cx) (c sl : Nat) (b : Block) (ev : Nat) (ents : List Nat) (r : Nat × List Nat), (Enters s cx (mtsDec cx o) [r]) ∧
  (regNum o = 0x185) ∧
  (Serves s cx c sl b ev ents) ∧
  (ev = 0) ∧
  (sl < 8) ∧
  ((∀ l ∈ ents, (b.at l).2.2.1 = false)) ∧
  ((b.exec.model = .threaded → ∀ l ∈ ents, l < b.exec.threads.length)) ∧
  (ents ≠ []) :=
  ⟨⟨pp 0 73 0, 0x185⟩, sStop 0, cK, 0, 0, bStop 0, 0, [0, 1, 2, 3], (0, [1]), entersOf (by decide +kernel), (by decide +kernel), ⟨rfl, by decide +kernel, rfl, ⟨_, rfl⟩, rfl, fun _ => rfl, by decide +kernel⟩, rfl, by decide +kernel⟩

theorem witness_SupervisorInstructions_0b : ∃ (o : KOp) (s : State) (cx : Cx) (c sl : Nat) (b : Block) (ev : Nat) (ents : List Nat) (r : Nat × List Nat), (Enters s cx (mtsDec cx o) [r]) ∧
  (regNum o = 0x185) ∧
  (Serves s cx c sl b ev ents) ∧
  (ev = 0) ∧
  (sl < 8) ∧
  ((∀ l ∈ ents, (b.at l).2.2.1 = false)) ∧
  ((b.exec.model = .threaded → ∀ l ∈ ents, l < b.exec.threads.length)) ∧
  (ents ≠ []) :=
  ⟨⟨pp 0 74 0, 0x185⟩, sStop 0, cK, 0, 0, bStop 0, 0, [0, 1, 2, 3], (0, [2]), entersOf (by decide +kernel), (by decide +kernel), ⟨rfl, by decide +kernel, rfl, ⟨_, rfl⟩, rfl, fun _ => rfl, by decide +kernel⟩, rfl, by decide +kernel⟩

theorem witness_SupervisorInstructions_0c : ∃ (o : KOp) (s : State) (cx : Cx) (c sl : Nat) (b : Block) (ev : Nat) (ents : List Nat) (r : Nat × List Nat), (Enters s cx (mtsDec cx o) [r]) ∧
  (regNum o = 0x185) ∧
  (Serves s cx c sl b ev ents) ∧
  (ev = 0) ∧
  (sl < 8) ∧
  ((∀ l ∈ ents, (b.at l).2.2.1 = false)) ∧
  ((b.exec.model = .threaded → ∀ l ∈ ents, l < b.exec.threads.length)) ∧
  (ents ≠ []) :=
  ⟨⟨pp 0 75 0, 0x185⟩, sStop 0, cK, 0, 0, bStop 0, 0, [0, 1, 2, 3], (0, [3]), entersOf (by decide +kernel), (by decide +kernel), ⟨rfl, by decide +kernel, rfl, ⟨_, rfl⟩, rfl, fun _ => rfl, by decide +kernel⟩, rfl, by decide +kernel⟩

theorem witness_SupervisorInstructions_1 : ∃ (o : KOp) (s : State) (cx : Cx) (y pa : Nat) (r : Nat × List Nat), 
  let a := aOf r.2
  
  let k := (sysOf s y).svsel.toNat
  
  let p := (sysOf s y).ctl.part
  
  let l := parcelsOf ((upFrom pa 128).map (Store.get s.mem))
  (Enters s cx (mtsDec cx o) [r]) ∧
  (regNum o = 0x191) ∧
  (cx.id = .sys y) ∧
  (k < 192) ∧
  (ownerOf s (columnOfCore k) = some p) ∧
  ((coreOf s k).sup.halted = true) ∧
  (a < 2 ^ 57) ∧
  (a % 128 = 8) ∧
  (translate s cx.id (spaceOf s cx.id).1 (spaceOf s cx.id).2 (a / 128 * 128) 3 = .ok pa) ∧
  (isPackage pa = true) ∧
  (pa % 128 = 0) ∧
  (unserved s pa = false) ∧
  ((∀ f ∈ (sysOf s y).icache, f.line ≠ pa / 128)) ∧
  (bits (l.headD 0).toNat 31 30 = 2) ∧
  (Calm s) ∧
  (s.path = []) :=
  ⟨⟨pp 0 1 0, 0x191⟩, sIni, cY, 0, 0x1000, (0, [0x1008]), entersOf (by decide +kernel), (by decide +kernel), rfl, (by decide +kernel), (by decide +kernel), (by decide +kernel), (by decide +kernel), (show _ by decide +kernel), (by decide +kernel), (by decide +kernel), (by decide +kernel), (by decide +kernel), (show _ by decide +kernel), (by decide +kernel), calmOf (by decide +kernel), rfl⟩

theorem witness_SupervisorInstructions_2 : ∃ (ring : Bool) (o : KOp) (s : State) (cx : Cx) (y : Nat) (r : Nat × List Nat), 
  let v := aOf r.2
  
  let f := if ring then v % 256 else bits v 15 8
  (Enters s cx (mtsDec cx o) [r]) ∧
  (regNum o = (if ring then 0x116 else 0x115)) ∧
  (cx.id = .sys y) ∧
  (f ≤ 128) ∧
  ((funcOf s f).part = some (sysOf s y).ctl.part) ∧
  ((if ring then (funcOf s f).handed = true else 2 ≤ v % 8)) :=
  ⟨true, ⟨pp 0 1 0, 0x116⟩, sHost 7, cY, 0, (0, [7]), entersOf (by decide +kernel), (by decide +kernel), rfl, by decide +kernel⟩

theorem witness_SupervisorInstructions_2b : ∃ (ring : Bool) (o : KOp) (s : State) (cx : Cx) (y : Nat) (r : Nat × List Nat), 
  let v := aOf r.2
  
  let f := if ring then v % 256 else bits v 15 8
  (Enters s cx (mtsDec cx o) [r]) ∧
  (regNum o = (if ring then 0x116 else 0x115)) ∧
  (cx.id = .sys y) ∧
  (f ≤ 128) ∧
  ((funcOf s f).part = some (sysOf s y).ctl.part) ∧
  ((if ring then (funcOf s f).handed = true else 2 ≤ v % 8)) :=
  ⟨false, ⟨pp 0 1 0, 0x115⟩, sHost 0x705, cY, 0, (0, [0x705]), entersOf (by decide +kernel), (by decide +kernel), rfl, by decide +kernel⟩

theorem witness_SupervisorInstructions_3 : ∃ (o : KOp) (s : State) (cx : Cx) (rs : List (Nat × List Nat)), 
  let d := plainDec ky o.p 2 (o.p.grd == 0 && o.param == 0)
  (Enters s cx d rs) ∧
  ((∀ c sl, cx.id ≠ .blk c sl)) :=
  ⟨⟨pp 0 0 0, 0⟩, sK, cK, [(0, [])], entersOf (by decide +kernel), (by intro _ _ h; cases h)⟩

theorem witness_SupervisorInstructions_4 : ∃ (o : KOp) (s : State) (cx : Cx) (rs : List (Nat × List Nat)), 
  let d := plainDec ky o.p 2 (o.param == 0)
  (Enters s cx d rs) ∧
  (rs ≠ []) ∧
  ((∀ c sl, cx.id ≠ .blk c sl)) :=
  ⟨⟨pp 0 0 0, 0⟩, sY, cY, [(0, [])], entersOf (by decide +kernel), (by decide +kernel), (by intro _ _ h; cases h)⟩

theorem witness_SupervisorInstructions_5 : ∃ (i : Fin 3) (o : KOp) (s : State) (cx : Cx), (cxOf s = some cx) ∧
  ((cx.kind = .T ∨ cx.kind = .V ∨ cx.kind = .S)) :=
  ⟨0, ⟨pp 0 0 0, 0⟩, sT, cT, (by decide +kernel), .inl rfl⟩

theorem witness_SupervisorInstructions_6 : ∃ (o : KOp) (s : State) (cx : Cx) (r : Nat × List Nat), 
  let kind := bits o.param.toNat 23 22
  
  let a : Src := { n := o.p.srcA.toNat, rc := .s, wide := true }
  
  let b : Src := { n := o.p.srcB.toNat, rc := .s, wide := true }
  
  let d : Dec := { valid := ky, p := o.p, len := 2
                   ok := bits o.param.toNat 21 0 == 0 && kind != 3 && (if kind == 0 then o.p.srcA.toNat < 72 else o.p.srcA == 0) &&
                     (if kind == 2 then o.p.srcB == 0 else o.p.srcB.toNat < 104)
                   srcs := if kind == 0 then [a, b] else if kind == 1 then [b] else [] }
  
  let va := aOf r.2
  
  let asid := if kind = 0 then bOf r.2 else aOf r.2
  
  let part := (spaceOf s cx.id).2
  (Enters s cx d [r]) ∧
  (s.path = []) ∧
  (s.outside = []) ∧
  ((∀ c sl b, blockOf s c sl = some b → b.stage.window = [] ∧ b.stage.staged = [])) ∧
  ((∀ e ∈ s.cores, e.2.tfq = [] ∧ ∀ x ∈ e.2.slots, x.2.stage.window = [] ∧ x.2.stage.staged = [])) ∧
  ((kind ≠ 2 → asid < 65536)) ∧
  ((kind = 0 → va < 2 ^ 57)) ∧
  ((kind ≠ 2 → cx.kind = .K → ∀ p, asidPart s asid = some p → p = part)) :=
  ⟨⟨pp 0 2 1, 0⟩, sNone, cY, (0, [0x1000, 7]), entersOf (by decide +kernel), rfl, rfl, (by intro _ _ _ h; cases h), (by intro _ h; cases h), (by decide +kernel), (by decide +kernel), fun _ h => absurd h (by decide +kernel)⟩

theorem witness_SupervisorInstructions_6b : ∃ (o : KOp) (s : State) (cx : Cx) (r : Nat × List Nat), 
  let kind := bits o.param.toNat 23 22
  
  let a : Src := { n := o.p.srcA.toNat, rc := .s, wide := true }
  
  let b : Src := { n := o.p.srcB.toNat, rc := .s, wide := true }
  
  let d : Dec := { valid := ky, p := o.p, len := 2
                   ok := bits o.param.toNat 21 0 == 0 && kind != 3 && (if kind == 0 then o.p.srcA.toNat < 72 else o.p.srcA == 0) &&
                     (if kind == 2 then o.p.srcB == 0 else o.p.srcB.toNat < 104)
                   srcs := if kind == 0 then [a, b] else if kind == 1 then [b] else [] }
  
  let va := aOf r.2
  
  let asid := if kind = 0 then bOf r.2 else aOf r.2
  
  let part := (spaceOf s cx.id).2
  (Enters s cx d [r]) ∧
  (s.path = []) ∧
  (s.outside = []) ∧
  ((∀ c sl b, blockOf s c sl = some b → b.stage.window = [] ∧ b.stage.staged = [])) ∧
  ((∀ e ∈ s.cores, e.2.tfq = [] ∧ ∀ x ∈ e.2.slots, x.2.stage.window = [] ∧ x.2.stage.staged = [])) ∧
  ((kind ≠ 2 → asid < 65536)) ∧
  ((kind = 0 → va < 2 ^ 57)) ∧
  ((kind ≠ 2 → cx.kind = .K → ∀ p, asidPart s asid = some p → p = part)) :=
  ⟨⟨pp 0 0 0, 0x800000⟩, sNone, cY, (0, []), entersOf (by decide +kernel), rfl, rfl, (by intro _ _ _ h; cases h), (by intro _ h; cases h), (by decide +kernel), (by decide +kernel), fun _ h => absurd h (by decide +kernel)⟩

theorem witness_SupervisorInstructions_7 : ∃ (o : KOp) (s : State) (cx : Cx) (rs : List (Nat × List Nat)), 
  let cls := cntClass o
  
  let d := cx.cntDec o s cls true
  (Enters s cx d rs) ∧
  (rs ≠ []) ∧
  ((∀ r ∈ rs, cx.cntTrap s cls (aOf r.2) = none)) ∧
  ((∀ n, cx.id = .sys n → bits (sysOf s n).rplctl.toNat 31 30 = 0)) :=
  ⟨⟨pp 5 1 0, 0⟩, sNone, cY, [(0, [7])], entersOf (by decide +kernel), (by decide +kernel), (by decide +kernel), (by intro _ h; cases h; decide +kernel)⟩

theorem witness_SupervisorInstructions_7b : ∃ (o : KOp) (s : State) (cx : Cx) (rs : List (Nat × List Nat)), 
  let cls := cntClass o
  
  let d := cx.cntDec o s cls true
  (Enters s cx d rs) ∧
  (rs ≠ []) ∧
  ((∀ r ∈ rs, cx.cntTrap s cls (aOf r.2) = none)) ∧
  ((∀ n, cx.id = .sys n → bits (sysOf s n).rplctl.toNat 31 30 = 0)) :=
  ⟨⟨pp 5 1 0, 0x100000⟩, sS, cS, [(0, [7])], entersOf (by decide +kernel), (by decide +kernel), (by decide +kernel), (by intro _ h; cases h)⟩

theorem witness_SupervisorInstructions_7c : ∃ (o : KOp) (s : State) (cx : Cx) (rs : List (Nat × List Nat)), 
  let cls := cntClass o
  
  let d := cx.cntDec o s cls true
  (Enters s cx d rs) ∧
  (rs ≠ []) ∧
  ((∀ r ∈ rs, cx.cntTrap s cls (aOf r.2) = none)) ∧
  ((∀ n, cx.id = .sys n → bits (sysOf s n).rplctl.toNat 31 30 = 0)) :=
  ⟨⟨pp 5 72 0, 0x200000⟩, sY, cY, [(0, [0])], entersOf (by decide +kernel), (by decide +kernel), (by decide +kernel), (by intro _ h; cases h; decide +kernel)⟩

theorem witness_SupervisorInstructions_7d : ∃ (o : KOp) (s : State) (cx : Cx) (rs : List (Nat × List Nat)), 
  let cls := cntClass o
  
  let d := cx.cntDec o s cls true
  (Enters s cx d rs) ∧
  (rs ≠ []) ∧
  ((∀ r ∈ rs, cx.cntTrap s cls (aOf r.2) = none)) ∧
  ((∀ n, cx.id = .sys n → bits (sysOf s n).rplctl.toNat 31 30 = 0)) :=
  ⟨⟨pp 5 72 0, 0x300000⟩, sK, cK, [(0, [0])], entersOf (by decide +kernel), (by decide +kernel), (by decide +kernel), (by intro _ h; cases h)⟩

theorem witness_SupervisorInstructions_7e : ∃ (o : KOp) (s : State) (cx : Cx) (rs : List (Nat × List Nat)), 
  let cls := cntClass o
  
  let d := cx.cntDec o s cls true
  (Enters s cx d rs) ∧
  (rs ≠ []) ∧
  ((∀ r ∈ rs, cx.cntTrap s cls (aOf r.2) = none)) ∧
  ((∀ n, cx.id = .sys n → bits (sysOf s n).rplctl.toNat 31 30 = 0)) :=
  ⟨⟨pp 5 73 0, 0x400000⟩, sT, cT, [(0, [1]), (1, [1]), (2, [1]), (3, [1])], entersOf (by decide +kernel), (by decide +kernel), (by decide +kernel), (by intro _ h; cases h)⟩

theorem witness_SupervisorInstructions_7f : ∃ (o : KOp) (s : State) (cx : Cx) (rs : List (Nat × List Nat)), 
  let cls := cntClass o
  
  let d := cx.cntDec o s cls true
  (Enters s cx d rs) ∧
  (rs ≠ []) ∧
  ((∀ r ∈ rs, cx.cntTrap s cls (aOf r.2) = none)) ∧
  ((∀ n, cx.id = .sys n → bits (sysOf s n).rplctl.toNat 31 30 = 0)) :=
  ⟨⟨pp 5 73 0, 0x500000⟩, sY, cY, [(0, [1])], entersOf (by decide +kernel), (by decide +kernel), (by decide +kernel), (by intro _ h; cases h; decide +kernel)⟩

theorem witness_SupervisorInstructions_8 : ∃ (o : KOp) (s : State) (cx : Cx) (r : Nat × List Nat), 
  let d := { cx.cntDec o s (cntClass o) (cntClass o == 0) with valid := fun k => cntValid (cntClass o) k }
  
  let v := aOf r.2
  (Enters s cx d [r]) ∧
  (cx.kind = .Y) ∧
  (cx.cntTrap s 0 v = none) ∧
  ((Table.get? s.iod.accts (v / 16)).isSome = true) ∧
  ((∀ e ∈ s.cores, ∀ x ∈ e.2.slots, x.2.regs.acct.toNat ≠ v / 16)) :=
  ⟨⟨pp 5 1 0, 0⟩, sNone, cY, (0, [7]), entersOf (by decide +kernel), rfl, (by decide +kernel), (by decide +kernel), (by intro _ h; cases h)⟩

theorem witness_SupervisorInstructions_9 : ∃ (c sl : Nat) (s : State) (b : Block), ((coreOf s c).slots = [(sl, b)]) ∧
  ((b.charges.partials.map (·.1)).Nodup) ∧
  ((∀ e ∈ b.charges.partials, e.1 < 16)) :=
  ⟨0, 0, sCh, bCh, rfl, by decide +kernel⟩

theorem witness_SupervisorInstructions_10 : ∃ (o : KOp) (s : State) (cx : Cx) (r : Nat × List Nat), 
  let src := fun (n : Nat) => ({ n, rc := .s, wide := true } : Src)
  
  let d : Dec := { valid := validIn [.Y] [.T, .V, .S], p := o.p, len := 2, dst := .reg .s
                   ok := o.param == 0 && o.p.srcA.toNat < 104 && o.p.srcB.toNat < 104, srcs := [src o.p.srcA.toNat, src o.p.srcB.toNat] }
  
  let f := funcOf s (aOf r.2)
  
  let w := bOf r.2
  
  let pa := f.dtbase.toNat + 8 * w
  (Enters s cx d [r]) ∧
  (aOf r.2 ≤ 127) ∧
  (f.part = some (spaceOf s cx.id).2) ∧
  (f.dten = true) ∧
  (64 * w < f.dtcnt.toNat) ∧
  (pa % 8 = 0) ∧
  (s.path = []) ∧
  (s.outside = []) ∧
  ((∀ line, (tagOf s line).bind (·.own) = none)) ∧
  (linePoisoned s (pa / 128) = false) ∧
  ((∀ e ∈ s.cores, e.2.monitors = [])) ∧
  (Room s (pa / 128)) ∧
  (unserved s pa = false) :=
  ⟨⟨pp 5 1 72, 0⟩, sDt, cY, (0, [7, 0]), entersOf (by decide +kernel), (by decide +kernel), (by decide +kernel), (by decide +kernel), (show _ by decide +kernel), (by decide +kernel), rfl, rfl, (fun _ => rfl), (by decide +kernel), (by intro _ h; cases h), (by unfold Room; decide +kernel), (by decide +kernel)⟩

theorem witness_SupervisorInstructions_11 : ∃ (free : Bool) (o : KOp) (s : State) (cx : Cx) (c sl : Nat) (b : Block) (ev : Nat) (ents : List Nat) (r : Nat × List Nat), 
  let d : Dec := { valid := validIn [.K] [.T, .V, .S], p := o.p, len := 2, dst := .reg .s, srcs := [{ n := o.p.srcA.toNat, rc := .s, wide := true }]
                   ok := o.param.toNat < 4 && o.param.toNat != 3 && o.p.srcA.toNat < 72 && o.p.srcB == 0 && (cx.localSite s).isSome }
  
  let a := aOf r.2
  
  let size := saveSize s c sl b false
  (Enters s cx d [r]) ∧
  (o.param.toNat = (if free then 1 else 0)) ∧
  (cx.localSite s = some (c, sl)) ∧
  (Serves s cx c sl b ev ents) ∧
  (b.exec.model = .threaded) ∧
  (b.exec.grow = none) ∧
  (b.mem.rowBytes = gangsOf b.nthr * 256 * b.mem.budget) ∧
  (b.exec.threads.length = b.nthr) ∧
  ((∀ e ∈ s.cores, e.2.fabricOf ≠ some (c, sl))) ∧
  (b.det = 0) ∧
  (Still s c) ∧
  (s.outside = []) ∧
  (Calm s) ∧
  (s.slices = []) ∧
  ((∀ f ∈ (coreOf s c).l1, f.state = .clean)) ∧
  (a % 128 = 0) ∧
  (areaBad a size = false) ∧
  (size < 2 ^ 32) :=
  ⟨false, ⟨pp 5 2 0, 0⟩, sStop 1, cK, 0, 0, bStop 1, 1, [0, 1, 2, 3], (0, [0x1000]), entersOf (by decide +kernel), (by decide +kernel), (by decide +kernel), ⟨rfl, by decide +kernel, rfl, ⟨_, rfl⟩, rfl, fun _ => rfl, by decide +kernel⟩, rfl, rfl, (by decide +kernel), (by decide +kernel), (by decide +kernel), rfl, stillOf (by decide +kernel), rfl, calmOf (by decide +kernel), rfl, (by intro _ h; cases h), by decide +kernel⟩

theorem witness_SupervisorInstructions_11b : ∃ (free : Bool) (o : KOp) (s : State) (cx : Cx) (c sl : Nat) (b : Block) (ev : Nat) (ents : List Nat) (r : Nat × List Nat), 
  let d : Dec := { valid := validIn [.K] [.T, .V, .S], p := o.p, len := 2, dst := .reg .s, srcs := [{ n := o.p.srcA.toNat, rc := .s, wide := true }]
                   ok := o.param.toNat < 4 && o.param.toNat != 3 && o.p.srcA.toNat < 72 && o.p.srcB == 0 && (cx.localSite s).isSome }
  
  let a := aOf r.2
  
  let size := saveSize s c sl b false
  (Enters s cx d [r]) ∧
  (o.param.toNat = (if free then 1 else 0)) ∧
  (cx.localSite s = some (c, sl)) ∧
  (Serves s cx c sl b ev ents) ∧
  (b.exec.model = .threaded) ∧
  (b.exec.grow = none) ∧
  (b.mem.rowBytes = gangsOf b.nthr * 256 * b.mem.budget) ∧
  (b.exec.threads.length = b.nthr) ∧
  ((∀ e ∈ s.cores, e.2.fabricOf ≠ some (c, sl))) ∧
  (b.det = 0) ∧
  (Still s c) ∧
  (s.outside = []) ∧
  (Calm s) ∧
  (s.slices = []) ∧
  ((∀ f ∈ (coreOf s c).l1, f.state = .clean)) ∧
  (a % 128 = 0) ∧
  (areaBad a size = false) ∧
  (size < 2 ^ 32) :=
  ⟨true, ⟨pp 5 2 0, 1⟩, sStop 1, cK, 0, 0, bStop 1, 1, [0, 1, 2, 3], (0, [0x1000]), entersOf (by decide +kernel), (by decide +kernel), (by decide +kernel), ⟨rfl, by decide +kernel, rfl, ⟨_, rfl⟩, rfl, fun _ => rfl, by decide +kernel⟩, rfl, rfl, (by decide +kernel), (by decide +kernel), (by decide +kernel), rfl, stillOf (by decide +kernel), rfl, calmOf (by decide +kernel), rfl, (by intro _ h; cases h), by decide +kernel⟩

theorem witness_SupervisorInstructions_12 : ∃ (o : KOp) (s : State) (cx : Cx) (c sl : Nat) (b : Block) (r : Nat × List Nat), 
  let d : Dec := { valid := validIn [.K] [.T, .V, .S], p := o.p, len := 2, srcs := [{ n := o.p.srcA.toNat, rc := .s, wide := true }]
                   ok := o.param == 0 && o.p.srcA.toNat < 72 && o.p.srcB == 0 && (cx.localSite s).isSome }
  
  let a := aOf r.2
  
  let whole := fun (n : Nat) => (upFrom a n).map (Store.get s.mem)
  
  let x : Img := { bytes := whole (fieldOf (whole 128) 8 8), bad := [] }
  (Enters s cx d [r]) ∧
  (cx.localSite s = some (c, sl)) ∧
  (cx.id = .sup c) ∧
  (blockOf s c sl = some b) ∧
  (b.phase = .restore) ∧
  (b.exec.model = .threaded) ∧
  (b.claim.tb = 0) ∧
  (b.kept.tiles = []) ∧
  (b.nthr ≤ 2048) ∧
  (b.mem.budget ≤ 64) ∧
  (sl < 8) ∧
  (a % 128 = 0) ∧
  (areaBad a 128 = false) ∧
  (areaBad a (max (fieldOf (whole 128) 8 8) 128) = false) ∧
  (Still s c) ∧
  (Calm s) ∧
  ((∀ x, unserved s x = false)) ∧
  ((partOf s b.part).isSome = true) ∧
  (headerOk b (whole 128) = true) ∧
  (codesOk b x = true) :=
  ⟨⟨pp 0 2 0, 0⟩, sRst, cK, 0, 0, bRst, (0, [0x1000]), entersOf (by decide +kernel), (by decide +kernel), rfl, rfl, rfl, rfl, rfl, rfl, (by decide +kernel), (by decide +kernel), (by decide +kernel), (by decide +kernel), (show _ by decide +kernel), (by decide +kernel), stillOf (by decide +kernel), calmOf (by decide +kernel), servesOf rfl, by decide +kernel⟩

theorem witness_SupervisorInstructions_0_deliver_abort : ∃ (o o' : KOp) (s : State) (cx : Cx) (c sl : Nat) (b : Block) (ev : Nat) (ents : List Nat)
    (r r' : Nat × List Nat), Enters s cx (mtsDec cx o) [r] ∧ Enters s cx (mtsDec cx o') [r'] ∧ regNum o = 0x185 ∧ regNum o' = 0x185 ∧
    Serves s cx c sl b ev ents ∧ ev = 0 ∧ sl < 8 ∧ (∀ l ∈ ents, (b.at l).2.2.1 = false) ∧
    (b.exec.model = .threaded → ∀ l ∈ ents, l < b.exec.threads.length) ∧ ents ≠ [] ∧ aOf r.2 % 4 = 3 ∧ b.regs.trapvec ≠ 0 ∧ aOf r'.2 % 4 = 2 ∧
    (∀ x, partOf s b.part = some x → x.dumps = false) ∧ (∃ la, launchOf s b.launch = some la ∧ la.fault = none ∧ la.status = none) ∧
    s.path = [] ∧ ∀ e ∈ s.cores, ∀ f ∈ e.2.l1, f.state = .clean :=
  ⟨⟨pp 0 75 0, 0x185⟩, ⟨pp 0 74 0, 0x185⟩, sStop 0, cK, 0, 0, bStop 0, 0, [0, 1, 2, 3], (0, [3]), (0, [2]), entersOf (by decide +kernel),
    entersOf (by decide +kernel), by decide, by decide, ⟨rfl, by decide +kernel, rfl, ⟨_, rfl⟩, rfl, fun _ => rfl, by decide +kernel⟩, rfl,
    by decide, by decide +kernel, by decide +kernel, by decide, by decide, by decide, by decide, bySome (by decide +kernel), ⟨launch0, rfl, rfl, rfl⟩,
    rfl, by decide +kernel⟩

theorem witness_SupervisorInstructions_13 : ∃ (o : KOp) (s : State) (cx : Cx) (y p : Nat) (r : Nat × List Nat),
    cx.id = .sys y ∧ cx.vfTrap s (aOf r.2) = .ok p ∧ Enters s cx (Cx.vfDec o 0) [r] ∧ s.path = [] ∧ s.outside = [] ∧ Calm s ∧
    (∀ e ∈ s.cores, ∀ l ∈ e.2.l1, l.state = .clean) ∧ unsaved s p = [] ∧ (∀ q, partOf s p = some q → q.sendq = []) ∧
    (partxOf s p).quiesce = none :=
  ⟨⟨pp 5 1 0, 0⟩, sVf false, cY, 0, 0, (0, [7]), rfl, by rfl, entersOf (by decide +kernel), rfl, rfl, calmOf (by decide +kernel),
    (by intro _ h; cases h), by decide +kernel, bySome (by decide +kernel), by decide +kernel⟩

theorem witness_SupervisorInstructions_13b : ∃ (o o' : KOp) (s : State) (cx : Cx) (y p : Nat) (r : Nat × List Nat),
    cx.id = .sys y ∧ cx.vfTrap s (aOf r.2) = .ok p ∧ Enters s cx (Cx.vfDec o 1) [r] ∧ Enters s cx (Cx.vfDec o' 2) [r] :=
  ⟨⟨pp 0 1 0, 0x100000⟩, ⟨pp 5 1 0, 0x200000⟩, sVf true, cY, 0, 0, (0, [7]), rfl, by rfl, entersOf (by decide +kernel), entersOf (by decide +kernel)⟩

theorem witness_SupervisorInstructions_13c : ∃ (o : KOp) (s : State) (cx : Cx) (y p : Nat) (r : Nat × List Nat),
    cx.id = .sys y ∧ cx.vfTrap s (aOf r.2) = .ok p ∧ Enters s cx (Cx.vfDec o 3) [r] ∧ (funcOf s (aOf r.2)).quiesced = true ∧
    (BitVec.ofNat 32 (bOf r.2 / 2 ^ 32) - BitVec.ofNat 32 (bOf r.2)).toNat ≤ (funcOf s (aOf r.2)).ringsize.toNat :=
  ⟨⟨pp 0 1 0, 0x300000⟩, { sVf true with sys := [(0, { ctl := { pc := 8, asid := 1, sregs := [(1, 7)] } })] }, cY, 0, 0, (0, [7, 0]), rfl, by rfl,
    entersOf (by decide +kernel), by decide +kernel⟩


/-! Placement, errors, boot -/

def laW : Launch := { launch0 with next := 0 }
/-- Without a spatial version. -/
def kobjT : KObj := { kobj with vsecs := [some section_, some section_, none] }
def sPl (o : KObj) : State := { sNone with objects := [o], launches := [(1, laW)] }
def sv0 : Saved :=
  { launch := 1, bidx := 0, prio := 0, at_ := 0, area := 0x8000, budget := 16, grow := false, page := none, leftCore := none, blk := bT }
def pSv : Partition := { count := 1, resume := [sv0] }
def sSv : State := { sNone with iod := { sNone.iod with parts := [(0, pSv)] } }
/-- A full package of one column: the other cores are not sound, on core 0 runs a block of a lower level. -/
def badCores : Table Core := [(1, { quarantined := true }), (2, { quarantined := true }), (3, { quarantined := true }), (4, { quarantined := true }), (5, { quarantined := true })]
def sPd : State :=
  { sT with
            objects := [kobjT], cores := (0, { slots := [(0, bT)], fabricOf := some (0, 0) }) :: badCores, cycle := 10 ^ 9
            launches := [(1, { laW with lpb := { lpb0 with prio := 1 } })] }
def sRd : State := { sPd with launches := [(1, launch0)], iod := { sPd.iod with parts := [(0, { pSv with resume := [sv0] })] } }
def snap0 : Snapshot :=
  { ep := 1, values := [], live := [(0, 15)], ranges := [], acc := [], ag := [], tiles := [], fstat := 0, vlen := 0, resume := [(0, 0x10010)], ports := [] }
def bPre : Block := { bT with want := { preempt := true } }
def bPreS : Block := { bPre with region := 1, mem := { bT.mem with snap := some snap0 }, stage := { hasWindow := true, window := [stg0] } }
def pPre : Partition := { count := 1, savePool := { base := 0x10000, size := 0x100000 } }
def sPre (b : Block) : State := { with_ b (.bundle 0 0 1) with cycle := 10 ^ 9, iod := { parts := [(0, pPre)] } }
def pond0 : Pond := { data := 1, refs := 1, hold := 0, hash := 0, edom := 0 }
def sPond : State := { sNone with slices := [(0, { pond := [(5, pond0)], tags := [(0, { ent := some 5 })] })] }
def sBoot (st : Nat) (retry : Option Nat) (cycle : Nat) : State :=
  { sNone with cycle, iod := { sNone.iod with boot := { state := st, retryAt := retry, meas := List.replicate 8 0 } } }

theorem serving0 (o : KObj) (h6 : max 1 (spanNeeded o laW.lpb) ≤ 6) (h : ∀ x < 6, holderOf (sPl o) (x / 6) = some 0 ∧
    ((coreOf (sPl o) x).quarantined = false ∧ (columnOf (sPl o) (x / 6)).clearing = false ∧ (columnOf (sPl o) (x / 6)).faulted = false ∧
    (columnOf (sPl o) (x / 6)).reclaiming = false) ∧ (coreOf (sPl o) x).fabricOf = none ∧ (coreOf (sPl o) x).reserved = none) :
    ∀ x, 0 ≤ x → x < 0 + max 1 (spanNeeded o laW.lpb) → Serving (sPl o) laW.part x := fun x _ hx =>
  have q := h x (by omega)
  ⟨q.1, q.2.1, q.2.2⟩

theorem empty0 (x : Nat) : (coreOf (sPl kobj) x).slots = [] := rfl

theorem unfit {s : State} {p x : Nat} {n : Need} (h2 : n.span = 0) (h1 : holderOf s (x / 6) = none) : fitsCore s p x n = false := by
  simp [fitsCore, h2, usable, h1, columnOfCore]

/-- No core takes the block: six are full or unsound, the others are nobody's. -/
theorem full : ∀ x, fitsCore sPd { laW with lpb := { lpb0 with prio := 1 } }.part x (needOf kobjT { lpb0 with prio := 1 }) = false := by
  intro x
  by_cases h : x < 6
  · revert h x
    decide +kernel
  · have h1 : holderOf sPd (x / 6) = none := by
      have hx : 1 ≤ x / 6 := by omega
      simp [holderOf, columnOf, ownerOf, sPd, sT, with_, Table.getD, Table.get?]
      omega
    have h2 : (needOf kobjT { lpb0 with prio := 1 }).span = 0 := by decide +kernel
    exact unfit h2 h1

theorem first0 {l : List (Nat × Nat × Block)} {f : Bool} (h : l = [(0, 0, bT)]) : First l f bT (0, 0) :=
  ⟨by rw [h]; exact .head _, fun y hy hn => absurd (List.mem_singleton.mp (h ▸ hy)) hn⟩

theorem witness_Placement_0 : ∃ (s : State) (n c sl : Nat) (la : Launch) (o : KObj) (p : Partition) (v : VSec), (Waits s n la o p) ∧
  (p.resume = []) ∧
  ((∀ f ∈ s.iod.funcs, f.2.quiesced = false)) ∧
  (o.vsec (startModel o la.lpb) = some v) ∧
  (FitsAt s la o c) ∧
  (sl < 8) ∧
  (blockOf s c sl = none) ∧
  ((∀ f ∈ (coreOf s c).l1, f.state = .clean)) :=
  ⟨sPl kobjT, 1, 0, 0, laW, kobjT, { count := 1 }, section_, ⟨rfl, rfl, rfl, ⟨rfl, rfl, by decide +kernel⟩, ⟨rfl, rfl, rfl⟩⟩, rfl, (by intro _ h; cases h), rfl, ⟨by decide +kernel, serving0 _ (by decide +kernel) (by decide +kernel), fun _ => ⟨by decide +kernel, by decide +kernel, by decide +kernel, by decide +kernel, by decide +kernel⟩, fun h => absurd h (by decide +kernel)⟩, by decide +kernel⟩

theorem witness_Placement_0b : ∃ (s : State) (n c sl : Nat) (la : Launch) (o : KObj) (p : Partition) (v : VSec), (Waits s n la o p) ∧
  (p.resume = []) ∧
  ((∀ f ∈ s.iod.funcs, f.2.quiesced = false)) ∧
  (o.vsec (startModel o la.lpb) = some v) ∧
  (FitsAt s la o c) ∧
  (sl < 8) ∧
  (blockOf s c sl = none) ∧
  ((∀ f ∈ (coreOf s c).l1, f.state = .clean)) :=
  ⟨sPl kobj, 1, 0, 0, laW, kobj, { count := 1 }, section_, ⟨rfl, rfl, rfl, ⟨rfl, rfl, by decide +kernel⟩, ⟨rfl, rfl, rfl⟩⟩, rfl, (by intro _ h; cases h), rfl, ⟨by decide +kernel, serving0 _ (by decide +kernel) (by decide +kernel), fun h => absurd h (by decide +kernel), fun _ => ⟨by decide +kernel, ⟨by decide +kernel, by decide +kernel, by decide +kernel, by decide +kernel, by decide +kernel⟩, fun x _ _ => empty0 x⟩⟩, by decide +kernel⟩

theorem witness_Placement_1 : ∃ (s : State) (part c sl : Nat) (p : Partition) (r : Saved), (partOf s part = some p) ∧
  (p.resume = [r]) ∧
  (r.page = none) ∧
  (r.blk.coop = false) ∧
  (r.blk.twin = none) ∧
  (r.blk.det = 0) ∧
  (r.blk.part = part) ∧
  ((∀ f ∈ s.iod.funcs, f.2.quiesced = false)) ∧
  ((∀ e ∈ s.launches, waiting e.2 = false ∨ e.2.lpb.level ≤ r.prio)) ∧
  ((coresForSaved s r).contains c = true) ∧
  (sl < 8) ∧
  (blockOf s c sl = none) :=
  ⟨sSv, 0, 0, 0, pSv, sv0, rfl, rfl, rfl, rfl, rfl, rfl, rfl, (by intro _ h; cases h), by decide +kernel⟩

theorem witness_Placement_2 : ∃ (s : State) (n c sl : Nat) (la : Launch) (o : KObj) (p : Partition) (b : Block), (Waits s n la o p) ∧
  ((∀ x, fitsCore s la.part x (needOf o la.lpb) = false)) ∧
  (la.waitSince + usCycles p.placement < s.cycle) ∧
  (blockOf s c sl = some b) ∧
  
  let l := movable s la.part (selected la.lpb)
  (First (l.filter fun x => x.2.2.prio < la.lpb.level) true b (c, sl)) ∧
  ((∀ x ∈ l, x.2.2.want.preempt = false ∧ x.2.2.fromResume = none)) ∧
  (b.coop = false) ∧
  (b.twin = none) :=
  ⟨sPd, 1, 0, 0, { laW with lpb := { lpb0 with prio := 1 } }, kobjT, { count := 1 }, bT, ⟨rfl, rfl, rfl, ⟨rfl, rfl, by decide +kernel⟩, ⟨rfl, rfl, rfl⟩⟩, full, (by decide +kernel), rfl, first0 (by decide +kernel), (by decide +kernel), rfl, rfl⟩

theorem witness_Placement_3 : ∃ (s : State) (part c sl : Nat) (p : Partition) (r : Saved) (la : Launch) (b : Block), (partOf s part = some p) ∧
  (p.resume = [r]) ∧
  (r.page = none) ∧
  (r.blk.coop = false) ∧
  (r.at_ + usCycles p.resumeUs < s.cycle) ∧
  (coresForSaved s r = []) ∧
  (launchOf s r.launch = some la) ∧
  (la.lpb.cgb = 0) ∧
  (blockOf s c sl = some b) ∧
  (b.coop = false) ∧
  (b.twin = none) ∧
  
  let l := movable s part (selected la.lpb)
  (First l false b (c, sl)) ∧
  ((∀ x ∈ l, x.2.2.want.preempt = false ∧ x.2.2.fromResume = none)) :=
  ⟨sRd, 0, 0, 0, { count := 1, resume := [{ sv0 with leftCore := none }] }, sv0, launch0, bT, rfl, rfl, rfl, rfl, (by decide +kernel), (by decide +kernel), rfl, rfl, rfl, rfl, rfl, first0 (by decide +kernel), (by decide +kernel)⟩

theorem witness_Placement_4 : ∃ (s : State) (c sl a : Nat) (b : Block) (p : Partition) (pool : Pool), (blockOf s c sl = some b) ∧
  (b.want.preempt = true) ∧
  (b.phase = .running) ∧
  (isSealed s b = false) ∧
  (partOf s b.part = some p) ∧
  (p.savePool.alloc (saveSize s c sl b false) = some (a, pool)) ∧
  (sl < 8) :=
  ⟨sPre bPre, 0, 0, 0x10000, bPre, pPre, { pPre.savePool with used := [(0x10000, saveSize (sPre bPre) 0 0 bPre false)] }, rfl, rfl, rfl, (by decide +kernel), rfl, by decide +kernel⟩

theorem witness_Placement_5 : ∃ (s : State) (c sl a : Nat) (b : Block) (p : Partition) (pool : Pool) (n : Snapshot), (blockOf s c sl = some b) ∧
  (b.want.preempt = true) ∧
  (b.phase = .running) ∧
  (isSealed s b = true) ∧
  (partOf s b.part = some p) ∧
  (b.want.since + usCycles p.preempt < s.cycle) ∧
  (b.mem.snap = some n) ∧
  (p.savePool.alloc (saveSize s c sl b false) = some (a, pool)) ∧
  (sl < 8) ∧
  (Still s c) ∧
  (b.stage.regionPins = []) ∧
  (b.exec.grow = none) ∧
  (b.exec.model ≠ .spatial) ∧
  ((∀ e ∈ s.cores, e.2.fabricOf ≠ some (c, sl))) :=
  ⟨sPre bPreS, 0, 0, 0x10000, bPreS, pPre, { pPre.savePool with used := [(0x10000, saveSize (sPre bPreS) 0 0 bPreS false)] }, snap0, rfl, rfl, rfl, (by decide +kernel), rfl, (by decide +kernel), rfl, (by decide +kernel), (by decide +kernel), stillOf (by decide +kernel), rfl, rfl, by decide +kernel⟩

theorem witness_ErrorsAndReset_0 : ∃ (s : State) (sl e : Nat) (pe : Pond), (sl < 320) ∧
  (e < 16384) ∧
  (Table.get? (sliceOf s sl).pond e = some pe) :=
  ⟨sPond, 0, 5, pond0, by decide +kernel⟩

theorem witness_ErrorsAndReset_3 : ∃ (s : State) (c sl k : Nat) (b : Block), (blockOf s c sl = some b) ∧
  (c < 192) ∧
  (sl < 8) :=
  ⟨sV, 0, 0, 0, bV, rfl, by decide +kernel⟩

theorem witness_ErrorsAndReset_6 : ∃ (s : State) (at_ : Nat), (s.iod.boot.retryAt = some at_) ∧
  (at_ ≤ s.cycle) :=
  ⟨sBoot 1 (some 7) 8, 7, rfl, (by decide +kernel)⟩

theorem witness_ErrorsAndReset_7 : ∃ (s : State), ((∀ e ∈ s.cores, e.2.slots = [])) :=
  ⟨sNone, (by intro _ h; cases h)⟩

theorem witness_ErrorsAndReset_9 : ∃ (s : State) (c : Nat), ((columnOf s c).clearing = true) :=
  ⟨{ sNone with iod := { sNone.iod with columns := [(3, { clearing := true })] } }, 3, (by decide +kernel)⟩

/-- A slice of a partition fails: without a launch of it, and with one whose CREC's page is absent. -/
theorem witness_ErrorsAndReset_1 : ∃ (s : State) (sl p : Nat), ownerOf s (sl / 80 * 8 + sl % 80 / 10) = some p ∧ p < 32 ∧ ∀ l ∈ s.launches, l.2.part ≠ p :=
  ⟨{ sNone with launches := [] }, 9, 0, by decide +kernel, by decide, by decide +kernel⟩

theorem witness_ErrorsAndReset_1b : ∃ (s : State) (sl p n : Nat) (l : Launch) (size : Nat), ownerOf s (sl / 80 * 8 + sl % 80 / 10) = some p ∧ p < 32 ∧
    s.launches = [(n, l)] ∧ l.part = p ∧ l.fault = none ∧ l.status = none ∧ s.cores = [] ∧ walk s l.asid l.part l.lpb.crec.toNat 1 = .bad 4 size :=
  ⟨{ sWalk with mem := [(0x1010, 1), (0x1011, 0x20), (0x2000, 1), (0x2001, 0x30), (0x2009, 1)], launches := [(1, { launch0 with lpb := { lpb0 with crec := 2 ^ 48 } })], cores := [] }, 0, 0, 1,
    { launch0 with lpb := { lpb0 with crec := 2 ^ 48 } }, levelSize 5, by decide +kernel, by decide, rfl, rfl, rfl, rfl, rfl, by decide +kernel⟩

/-- A line of the frames with dirty bytes, and one of the window's records over the word. -/
theorem witness_ErrorsAndReset_2 : ∃ (s : State) (c w sl : Nat) (b : Block) (f : L1Frame), c < 192 ∧ blockOf s c sl = some b ∧ f ∈ (coreOf s c).l1 ∧
    f.line = w / 16 ∧ f.dirty ≠ [] ∧ ∃ r ∈ b.stage.window, r.pa < 8 * w + 8 ∧ 8 * w < r.pa + r.bytes.length :=
  ⟨modCore (with_ bPreS (.bundle 0 0 1)) 0 fun k => { k with l1 := [{ line := 0, state := .owned, data := 1, dirty := [120] }] }, 0, 15, 0, bPreS,
    { line := 0, state := .owned, data := 1, dirty := [120] }, by decide, by decide +kernel, by decide +kernel, rfl, by decide, stg0, .head _, by decide +kernel⟩

theorem witness_ErrorsAndReset_5 : ∃ (s : State) (got : Option (List Byte × List Byte)), s.iod.boot.state = 1 ∧ s.iod.boot.retryAt = none ∧
    ∀ x, got = some x → ¬pssVerify (beVal ((s.iod.boot.config.drop 0x40).take 512)) x.1 x.2 = true :=
  ⟨sBoot 1 none 0, some ([1], [2]), rfl, rfl, by rintro x h; cases h; decide +kernel⟩

/-- A 4096-bit modulus and the signature under it of the image 01 02 03, made outside the model after RFC 8017, 8.1.1. -/
def modulus : Nat := 0xd07127d333c16015197028227d1e2576e2f9fd36d02cbad49a23e6cf13e30047db02d447b23537e7d767aa32f57ff1e65ebf5eb49c77947d1c3d1589755e47e7498ae3c14e2c576b77fc2a999fd90bb0d261736f5cfc787e33539ad616c26f9104606f3b95ee8e889032f2e3079802a078e39713ad3081c2c3957966c0956716648a86d0bea03955a4fe589355492d094ed7749b811fbfaa999c6617ef4c0e9d1c3ad91a3b4c03c53c2f944a5bc296a27877848b78a1ef9754af5517b7d0c38f23752b5c664c98d5b6bbe200fe2a376e4bad596dc31ae42456d0cffa7d8c5818f958281f7d8f69203a6e1567a80011c556f644afb95e6360657d79f9e22c95b04046cb2b37061213d95bb7c758d4330c02d251c2ff412bc5c1961d46ead6689bd40210d6a858b0cc9a8f54aa7c1e21524b442e7fd928304814a1bfc384d750d0d2f4fb4798be449aff16c3411c9e7ad4d57a32266e00b14e2e9b748d0f324fda9a06e8767e89df8a04a5c63384dce0c58411e5029e475c31dd4df306847ee920608624fb285cbd1625d1423bbb9f95bed35e1b75087ff108a388d48a9db3c43eb7bf5ea3cbef9a2a32738366da7e47650816122aef5855fac277eaf084b061acdbd8afaa6c9a57311c602f6ca349f6fa75bee1c89de892fc1209d522d725d31ab24dfff6dc9a206720772af82f9cf246bc136bc93f4a0b37b102099db7b6d6c3
def signature : Nat := 0x3ffe8559e4a0ae3530f136caf70b3b05b048bc4efd8f68e76af8c3f71e323f718cf03c4b827b4b6f5a7ad5876023b82d3235918710634a462cb89fdd85773b0db1e7390494b4a8568ce79d7632ee712fd4f62c0bfe02c49374e62d71904faa813e108a94494c049da10ae78c09d8f68cef79fbd17facb8693b6469e2413f764bf08dc12554e7ab7768af2225cdace24926452f12d089ba9573eb9e6601e8ffd1e6c1e63556044eee75d40f1b02b6eabc78cc68091b9ddbefa85be629b36881dab07019d33df802e2ddb1b321cb76cb2bde428424dc5a496d735be6a6c526edaf4075f4a6e23766fde5d5b27d6699a1e4d7496e86ca79681149e33066cadbcea24c487c72f6b857c0b8dc5fe4d46a89fa5f0cbd40952be9c47a6df1794028c1417c4f9a48015178d74aaf0e126c33a7e5753bd28fd270c51408ff204081489750e67d26c084298e2d66722a1d6c0b9578a0c8fba40e889c336d5e235cb02e6c763b754106bc6c548e0f3e88d0c2cccc1dd947825fa669ef2b452b4ea82d500ff82f3b4af48318b3652784cd6cfd7d8c1d263b6f17c0ef9fff74740924f696fc82005b16c6fcb7002e0fb4531deba172d180d6faaf36dd914a81ff302fb81690abd7ad384137733a106f4e66e684aaebd845ba360e213ed82e9af599407350384d030f2d49ddc1088756ca0813d8f61e6709749780c98babee0aa8662492782c76

theorem signature_verifies : pssVerify modulus [1, 2, 3] (beBytes 512 signature) = true := by decide +kernel

theorem witness_ErrorsAndReset_5b : ∃ (s : State) (x : List Byte × List Byte), s.iod.boot.state = 1 ∧ s.iod.boot.retryAt = none ∧
    pssVerify (beVal ((s.iod.boot.config.drop 0x40).take 512)) x.1 x.2 = true ∧ Calm s ∧ s.slices = [] ∧ s.path = [] ∧ s.iod.boot.meas.length = 8 :=
  ⟨{ sNone with iod := { sNone.iod with boot := { state := 1, meas := List.replicate 8 0, config := List.replicate 64 0 ++ beBytes 512 modulus } } },
    ([1, 2, 3], beBytes 512 signature), rfl, rfl, by decide +kernel, calmOf (by decide +kernel), rfl, rfl, by decide⟩

theorem witness_ErrorsAndReset_10 : ∃ (s : State) (req : List Byte) (rest : List (List Byte)), s.iod.spdmIn = req :: rest ∧ fieldOf req 1 1 = 0xE0 ∧
    fieldOf req 3 1 = 7 + 1 ∧ s.iod.boot.state = 0 :=
  ⟨{ sNone with iod := { sNone.iod with spdmIn := [[0x13, 0xE0, 0, 8]], boot := { state := 0 } } }, [0x13, 0xE0, 0, 8], [], rfl, by decide, by decide, rfl⟩


/-! The host, Ethernet and Corhoeb Link -/

/-- A function of a partition; a package whose page tables are those of `sWalk`. -/
def fn0 : Func := { part := some 0, asid := 1, ringsize := 16, doorbell := 1 }
def sDev (f : Func) : State := { sNone with mem := sWalk.mem, iod := { sNone.iod with asidtb := 0x1000, funcs := [(7, f)] } }
def tle0 : TlbEntry := { asid := 1, part := 0, base := 0, size := 4096, frame := 0x7000, rd := true, wr := true, ex := true, dirty := true }

/-- A valid entry, and one with its error bit whose code cannot be read. -/
theorem witness_HostAndLinks_0 : ∃ (s : State) (i : Nat) (entry entry' : BitVec 128) (p : Nat),
    let fn := (s.iod.rrNext + i) % 129
    let f := funcOf s fn
    i < 129 ∧ f.part = some p ∧ f.ringsize ≠ 0 ∧ f.doorbell ≠ f.head ∧ f.quiesced = false ∧ f.stopped = false ∧ f.handed = false ∧
    (∀ j < i, ringReady (funcOf s ((s.iod.rrNext + j) % 129)) = false) ∧ entry.toNat < 2 ^ 57 ∧ 2 ^ 57 ≤ entry'.toNat ∧
    ∃ k size, walk s f.asid p (entry'.toNat % 2 ^ 57 / 128 * 128) 0 = .bad k size :=
  ⟨sDev { fn0 with asid := 2 }, 7, 0x9000, 2 ^ 57, 0, by decide, by decide +kernel, by decide +kernel, by decide +kernel, by decide +kernel,
    by decide +kernel, by decide +kernel, by decide +kernel, by decide, by decide, 1, 4096, by decide +kernel⟩

theorem witness_HostAndLinks_1 : ∃ (s : State) (fn : Nat) (v v' : W32), fn ≤ 128 ∧ (fn = 128 → Requester.pf ∉ s.iod.headgate.frozen) ∧
    (funcOf s fn).part.isSome = true ∧ (v - (funcOf s fn).head).toNat ≤ (funcOf s fn).ringsize.toNat ∧
    (funcOf s fn).ringsize.toNat < (v' - (funcOf s fn).head).toNat :=
  ⟨sDev fn0, 7, 16, 17, by decide, fun h => absurd h (by decide), by decide +kernel⟩

theorem witness_HostAndLinks_2 : ∃ (s s' : State) (fn : Nat) (v : W64), fn < 128 ∧ (funcOf s fn).head ≠ (funcOf s fn).doorbell ∧
    (funcOf s' fn).head = (funcOf s' fn).doorbell ∧ (∃ k, 4 ≤ k ∧ k ≤ 16 ∧ (funcOf s' fn).ringsize.toNat = 2 ^ k) ∧
    (∃ k, 4 ≤ k ∧ k ≤ 16 ∧ v.toNat % 2 ^ 32 = 2 ^ k) ∧ (funcOf s' fn).ringbase &&& 0xFFF = 0 :=
  ⟨sDev fn0, sDev { fn0 with head := 1 }, 7, 0x10000, by decide, by decide +kernel, by decide +kernel, ⟨4, by decide, by decide, by decide +kernel⟩,
    ⟨16, by decide, by decide, by decide⟩, by decide +kernel⟩

theorem witness_HostAndLinks_3 : ∃ (s : State) (fn p : Nat), fn < 128 ∧ (funcOf s fn).part = some p ∧ ∀ n, bits (sysOf s n).rplctl.toNat 31 30 = 0 :=
  ⟨{ sDev fn0 with sys := [] }, 7, 0, by decide, by decide +kernel, fun n => by simp [sysOf, Table.getD, Table.get?]; decide⟩

theorem witness_HostAndLinks_4 : ∃ (s : State) (fn : Nat), fn ≤ 128 ∧ (fn = 128 → Requester.pf ∉ s.iod.headgate.frozen) :=
  ⟨sDev fn0, 128, by decide, fun _ => by decide +kernel⟩

theorem witness_HostAndLinks_5 : ∃ (s : State) (fn ofs n p pa : Nat), (funcOf s fn).part = some p ∧ Calm s ∧ (∀ x, unserved s x = false) ∧ ofs + n ≤ 2 ^ 40 ∧ 0 < n ∧
    ofs % 4096 + n ≤ 4096 ∧ isPackage pa = true ∧ isPackage (pa + n) = true ∧ lookupTlb s (.sys 0) (funcOf s fn).asid p ofs 0 = .ok pa :=
  ⟨sDev fn0, 7, 0xFF8, 8, 0, 0xFF8, by decide +kernel, calmOf (by decide +kernel), servesOf rfl, by decide, by decide, by decide, by decide +kernel⟩

theorem witness_HostAndLinks_6 : ∃ (s : State) (fn ofs p entry : Nat) (bs : List Byte) (tl : TlbEntry), fn < 128 ∧ (funcOf s fn).part = some p ∧ Calm s ∧
    s.slices = [] ∧ s.path = [] ∧ walk s (funcOf s fn).asid p ofs 1 = .ok tl entry ∧ tl.base ≤ ofs ∧ bs ≠ [] ∧ ofs + bs.length ≤ 2 ^ 40 ∧
    ofs % 4096 + bs.length ≤ 4096 ∧ (tl.frame + (ofs - tl.base)) % 128 + bs.length ≤ 128 ∧ isPackage (tl.frame + (ofs - tl.base) + bs.length) = true :=
  ⟨sDev fn0, 7, 0x17E, 0, 0x6000, [1, 2], tle0, by decide, by decide +kernel, calmOf (by decide +kernel), rfl, rfl, by decide +kernel, by decide, by decide,
    by decide, by decide, by decide +kernel⟩

theorem witness_HostAndLinks_7 : ∃ (s : State) (fn : Nat), fn < 128 ∧ ∀ p, (funcOf s fn).part = some p → unsaved s p = [] :=
  ⟨sDev fn0, 7, by decide, bySome (by decide +kernel)⟩

def msgE : Msg := { port := 1, dst := 7, tag := 5, payload := [], asid := 1 }
def q0 (m : Msg) : Partition := { count := 1, ip := 9, sendq := [m] }
def sEth (m : Msg) : State :=
  { sDev fn0 with iod := { (sDev fn0).iod with parts := [(0, q0 m)], eth := [(1, { up := true, asked := [(7, 8)] })] }, cycle := 8000000000 }

theorem witness_HostAndLinks_8 : ∃ (s : State) (port : Nat) (a a' : BitVec 128), (Table.getD s.iod.eth port {}).up = true ∧
    (∃ e ∈ s.iod.parts, e.2.ip = a) ∧ a ≠ 0 ∧ (∀ e ∈ s.iod.parts, e.2.ip ≠ a') ∧ (∃ e ∈ s.iod.parts, e.2.ip ≠ 0) ∧
    ∃ x ∈ (Table.getD s.iod.eth port {}).asked, x.1 = a' :=
  ⟨sEth msgE, 1, 9, 7, by decide +kernel, by decide +kernel, by decide, by decide +kernel⟩

theorem witness_HostAndLinks_9 : ∃ (s : State) (p port : Nat) (q : Partition) (m : Msg) (rest : List Msg) (x : BitVec 128 × Nat), s.iod.parts = [(p, q)] ∧
    q.sendq = m :: rest ∧ m.port = port ∧ m.done = 0 ∧ nextHop q m.dst = x.1 ∧ x ∈ (Table.getD s.iod.eth port {}).asked ∧ x.2 + 7200000000 ≤ s.cycle :=
  ⟨sEth { msgE with dst := 7 }, 0, 1, { q0 msgE with router := 0 }, msgE, [], (7, 8), rfl, rfl, rfl, rfl, by decide +kernel, by decide +kernel, by decide⟩

theorem witness_HostAndLinks_10 : ∃ (s s' : State) (p port : Nat) (q q' : Partition) (m : Msg) (tl : TlbEntry) (entry : Nat), s'.iod.parts = [(p, q')] ∧
    (∀ m ∈ q'.sendq, m.port = port → m.done = 0) ∧ s.iod.parts = [(p, q)] ∧
    q.sendq = [m] ∧ m.port = port ∧ m.done ≠ 0 ∧ m.done % 8 = 0 ∧ Calm s ∧ s.slices = [] ∧ s.path = [] ∧ walk s m.asid p m.done 1 = .ok tl entry ∧ tl.base ≤ m.done ∧
    isPackage (tl.frame + (m.done - tl.base)) = true ∧ (tl.frame + (m.done - tl.base)) % 8 = 0 :=
  ⟨sEth { msgE with done := 0x80 }, sEth msgE, 0, 1, q0 { msgE with done := 0x80 }, q0 msgE, { msgE with done := 0x80 }, tle0, 0x6000, rfl, by decide +kernel, rfl, rfl,
    rfl, by decide, by decide, calmOf (by decide +kernel), rfl, rfl, by decide +kernel, by decide, by decide +kernel, by decide⟩

def out0 : Outside := { id := 3, path := none, pend := none, ctx := .sys 0, port := none, part := 0, pa := 2 ^ 41, size := 8 }

theorem witness_HostAndLinks_11 : ∃ (s : State) (o : Outside), (s.outside.find? fun x => x.id == o.id && x.port.isNone) = some o :=
  ⟨{ sNone with outside := [out0] }, out0, by decide +kernel⟩

/-- Peer 4, partition 2, has package memory of partition 0 in its map. -/
def lm0 : LinkMsg :=
  { size := 8, aop := 0, any := false, dbl := true, poison := false, sys := false, src := 4, part := 2, tag := 1, code := 0, addr := 0x100
    data := [1, 2, 3, 4, 5, 6, 7, 8] }
def lp0 : LinkPort := { up := true, rxSeq := 5, txSeq := 9, respCredit := 2, inflight := [(1, 3)] }
def sLnk (l : LinkPort) : State :=
  { sNone with iod := { sNone.iod with links := [(2, l)], partx := [(0, { peers := [{ peer := 4, part := 2, base := 0, size := 65536 }] })] } }
def fl0 : Flit := { seq := 5, ack := 0, last := true }
theorem receives0 (s : State) (l : LinkPort) (n : Nat) (h : linkOf s 2 = l) (h' : (l.up && l.rxSeq == 5 && l.waiting.isEmpty &&
    decide (l.replay.length < 512) && decide (n ≤ l.respCredit)) = true) : Receives s 2 fl0 l n := by
  simp only [Bool.and_eq_true, beq_iff_eq, List.isEmpty_iff, decide_eq_true_eq] at h'
  obtain ⟨⟨⟨⟨h1, h2⟩, h3⟩, h4⟩, h5⟩ := h'
  exact ⟨h, h1, h2.symm, h3, h4, h5⟩
theorem mayAsk0 (l : LinkPort) : MayAsk (sLnk l) lm0 := ⟨by decide +kernel, by decide +kernel, 0, rfl, _, .head _, rfl, rfl⟩

theorem witness_HostAndLinks_12 : ∃ (s : State) (port : Nat) (f : Flit) (m : LinkMsg) (l : LinkPort), MayAsk s m ∧ Calm s ∧ s.slices = [] ∧
    Receives s port f l (1 + ceilDiv m.size 16) ∧ Receives s port f l 1 ∧ m.data.length = m.size ∧ m.addr % 128 + m.size ≤ 128 ∧
    m.addr % 128 + (if m.dbl then 8 else 4) ≤ 128 :=
  ⟨sLnk lp0, 2, fl0, lm0, lp0, mayAsk0 _, calmOf (by decide +kernel), rfl, receives0 _ _ _ rfl (by decide +kernel), receives0 _ _ _ rfl (by decide +kernel),
    rfl, by decide, by decide⟩

theorem not_mayAsk0 : ¬MayAsk { sLnk lp0 with iod := { (sLnk lp0).iod with partx := [] } } lm0 := by
  rintro ⟨-, -, p, -, r, hr, -⟩
  exact nomatch (show r ∈ ([] : List PeerRange) from hr)

theorem witness_HostAndLinks_13 : ∃ (s : State) (port : Nat) (f : Flit) (m : LinkMsg) (l : LinkPort), Receives s port f l 1 ∧ ¬MayAsk s m :=
  ⟨_, 2, fl0, lm0, lp0, receives0 _ _ _ rfl (by decide +kernel), not_mayAsk0⟩

theorem witness_HostAndLinks_14 : ∃ (s : State) (port : Nat) (f : Flit) (m : LinkMsg) (l : LinkPort) (n : Nat) (o : Outside), Receives s port f l 0 ∧
    Table.get? l.inflight m.tag = some n ∧ s.outside.find? (·.id == n) = some o :=
  ⟨{ sLnk lp0 with outside := [{ out0 with port := some 2 }] }, 2, fl0, lm0, lp0, 3, { out0 with port := some 2 }, receives0 _ _ _ rfl (by decide +kernel),
    rfl, by decide +kernel⟩

theorem witness_HostAndLinks_15 : ∃ (s : State) (port : Nat) (f : Flit), (linkOf s port).up = true ∧ f.seq ≠ (linkOf s port).rxSeq :=
  ⟨sLnk lp0, 2, { fl0 with seq := 6 }, by decide +kernel⟩

theorem witness_HostAndLinks_16 : ∃ (s s' s'' : State) (port ack : Nat) (l l' l'' : LinkPort), linkOf s port = l ∧ l.up = true ∧ l.waiting = [] ∧
    (∀ n, l.nakSeq = some (ack, n) → n < 15) ∧ linkOf s' port = l' ∧ l'.up = true ∧ l'.waiting = [] ∧ l'.nakSeq = some (ack, 15) ∧
    linkOf s'' port = l'' ∧ l''.up = false ∧ port < 16 :=
  ⟨sLnk lp0, sLnk { lp0 with nakSeq := some (8, 15) }, sLnk {}, 2, 8, lp0, { lp0 with nakSeq := some (8, 15) }, {}, rfl, rfl, rfl, (by rintro n h; cases h),
    rfl, rfl, rfl, rfl, rfl, rfl, by decide⟩

/-! Headgate -/

/-- Argument bytes of a frame, by their offsets there. -/
def args (l : List (Nat × Byte)) : List Byte := (List.range 56).map fun i => ((l.find? fun x => x.1 == i + 8).map (·.2)).getD 0
/-- The PF owns the package; one frame waits. -/
def sHg (cmd : Nat) (q : HgReq) (f : Iod → Iod) : State :=
  { sNone with
    mem := sWalk.mem, launches := []
    iod := f { sNone.iod with asidtb := 0x1000, headgate := { owner := some .pf, queue := [(cmd, q)] } } }
theorem vacantHg (cmd : Nat) (q : HgReq) (f : Iod → Iod) (c : Nat) : Vacant (sHg cmd q f) c := fun e h => nomatch (show e ∈ [] from h)
def armedHg : Armed :=
  { tag := 5, bufb := 0x80, bufs := 128, nslot := 1, oneshot := true, arrn := 0, part := 0, asid := 1, lpb := List.replicate 128 0 }
/-- Tag 5, buffer 0x80 of 128 bytes, one slot, one shot, ASID 1. -/
def armPay : List Byte :=
  (List.range 192).map fun i => if i = 0 then 5 else if i = 8 then 0x80 else if i = 0x10 then 0x80 else if i = 0x14 then 1 else if i = 0x16 then 1 else
    if i = 0x17 then 0x80 else if i = 0x1D then 1 else 0
/-- A path of one byte. -/
def bootCfg : List Byte := (List.range 577).map fun i => if i = 0x12 then 1 else if i = 0x240 then 0x2F else 0
def evHg : Event := { kind := 4, drops := 0, seq := 0, args := [] }

/-- A command for the owner from a resident OS, from another master, and with a payload it does not have. -/
theorem witness_HeadgateCommands_0 : ∃ (s s' s'' : State) (q q' q'' : HgReq), ∃ e ∈ ownerCommands, s.iod.headgate.queue = [(e.2, q)] ∧
    (∃ p, q.who = .os p) ∧ q.who ∉ s.iod.headgate.frozen ∧ s'.iod.headgate.queue = [(e.2, q')] ∧ (∀ p, q'.who ≠ .os p) ∧
    s'.iod.headgate.owner ≠ some q'.who ∧ s''.iod.headgate.queue = [(e.2, q'')] ∧ MayIssue s'' q''.who .o ∧ q''.payload ≠ [] ∧ e.2 ≠ 0x41 :=
  ⟨sHg 3 ⟨.os 0, 3, args [], []⟩ id, sHg 3 ⟨.bmc, 3, args [], []⟩ id, sHg 3 ⟨.pf, 3, args [], [1]⟩ id, ⟨.os 0, 3, args [], []⟩, ⟨.bmc, 3, args [], []⟩,
    ⟨.pf, 3, args [], [1]⟩, _, .head _, rfl, ⟨0, rfl⟩, by decide, rfl, (by rintro p h; cases h), by decide, rfl,
    ⟨by decide, (by rintro p h; cases h), rfl⟩, by decide, by decide⟩

theorem witness_HeadgateCommands_1 : ∃ (s : State) (c : Nat) (q : HgReq), s.iod.headgate.queue = [(c, q)] ∧
    (∀ e ∈ ownerCommands ++ otherCommands, e.2 ≠ c) ∧ q.who ∉ s.iod.headgate.frozen :=
  ⟨sHg 0xFF ⟨.bmc, 3, args [], []⟩ id, 0xFF, ⟨.bmc, 3, args [], []⟩, rfl, by decide +kernel, by decide⟩

theorem witness_HeadgateCommands_2_1 : ∃ (s : State) (q : HgReq) (rest : List (Nat × HgReq)),
    Commands s 1 q rest .a [] 0 :=
  ⟨sHg 1 ⟨.pf, 3, args [], []⟩ id, ⟨.pf, 3, args [], []⟩, [], ⟨rfl, ⟨by decide, (by rintro p h; cases h)⟩, by decide +kernel, rfl⟩⟩

theorem witness_HeadgateCommands_2_2 : ∃ (s : State) (q : HgReq) (rest : List (Nat × HgReq)),
    Commands s 2 q rest .a [] 512 ∧ (s.iod.headgate.nonces.find? fun x => x.1 == q.who) = some (q.who, 5) :=
  ⟨sHg 2 ⟨.pf, 3, args [], List.replicate 512 0⟩ (fun i => { i with headgate := { i.headgate with nonces := [(.pf, 5)] } }), ⟨.pf, 3, args [], List.replicate 512 0⟩, [], ⟨rfl, ⟨by decide, (by rintro p h; cases h)⟩, by decide +kernel, by decide +kernel⟩, rfl⟩

theorem witness_HeadgateCommands_2_3 : ∃ (s : State) (q : HgReq) (rest : List (Nat × HgReq)),
    Commands s 3 q rest .o [(8, 1)] 0 ∧ arg q 8 1 = 2 :=
  ⟨sHg 3 ⟨.pf, 3, args [(8, 2)], []⟩ id, ⟨.pf, 3, args [(8, 2)], []⟩, [], ⟨rfl, ⟨by decide, ⟨(by rintro p h; cases h), rfl⟩⟩, by decide +kernel, rfl⟩, by decide +kernel⟩

theorem witness_HeadgateCommands_2_4 : ∃ (s : State) (q : HgReq) (rest : List (Nat × HgReq)),
    Commands s 4 q rest .o [] 0 :=
  ⟨sHg 4 ⟨.pf, 3, args [], []⟩ id, ⟨.pf, 3, args [], []⟩, [], ⟨rfl, ⟨by decide, ⟨(by rintro p h; cases h), rfl⟩⟩, by decide +kernel, rfl⟩⟩

theorem witness_HeadgateCommands_2_5 : ∃ (s : State) (q : HgReq) (rest : List (Nat × HgReq)),
    Commands s 5 q rest .o [(8, 1)] 0 ∧ arg q 8 1 = 1 :=
  ⟨sHg 5 ⟨.pf, 3, args [(8, 1)], []⟩ id, ⟨.pf, 3, args [(8, 1)], []⟩, [], ⟨rfl, ⟨by decide, ⟨(by rintro p h; cases h), rfl⟩⟩, by decide +kernel, rfl⟩, by decide +kernel⟩

theorem witness_HeadgateCommands_2_6 : ∃ (s : State) (q : HgReq) (rest : List (Nat × HgReq)),
    Commands s 6 q rest .a [] 0 :=
  ⟨sHg 6 ⟨.pf, 3, args [], []⟩ id, ⟨.pf, 3, args [], []⟩, [], ⟨rfl, ⟨by decide, (by rintro p h; cases h)⟩, by decide +kernel, rfl⟩⟩

theorem witness_HeadgateCommands_3_7 : ∃ (s : State) (q : HgReq) (rest : List (Nat × HgReq)),
    Commands s 0x40 q rest .a [(8, 1)] 0 ∧ arg q 8 1 ≤ 7 :=
  ⟨sHg 0x40 ⟨.pf, 3, args [(8, 7)], []⟩ id, ⟨.pf, 3, args [(8, 7)], []⟩, [], ⟨rfl, ⟨by decide, (by rintro p h; cases h)⟩, by decide +kernel, rfl⟩, by decide +kernel⟩

theorem witness_HeadgateCommands_3_8 : ∃ (s : State) (q : HgReq) (rest : List (Nat × HgReq)),
    Commands s 0x42 q rest .p [(8, 1)] 64 ∧ 3 ≤ arg q 8 1 ∧ arg q 8 1 ≤ 7 :=
  ⟨sHg 0x42 ⟨.os 0, 3, args [(8, 3)], List.replicate 64 0⟩ id, ⟨.os 0, 3, args [(8, 3)], List.replicate 64 0⟩, [], ⟨rfl, ⟨by decide, ⟨0, rfl⟩⟩, by decide +kernel, by decide +kernel⟩, by decide +kernel⟩

theorem witness_HeadgateCommands_3_9 : ∃ (s : State) (q : HgReq) (rest : List (Nat × HgReq)),
    Commands s 0x41 q rest .o [] q.payload.length ∧ bootOk q.payload = true :=
  ⟨sHg 0x41 ⟨.pf, 3, args [], bootCfg⟩ id, ⟨.pf, 3, args [], bootCfg⟩, [], ⟨rfl, ⟨by decide, ⟨(by rintro p h; cases h), rfl⟩⟩, by decide +kernel, by decide +kernel⟩, by decide +kernel⟩

theorem witness_HeadgateCommands_4_10 : ∃ (s : State) (q : HgReq) (rest : List (Nat × HgReq)),
    Commands s 0x30 q rest .o [(0x08, 2), (0x0A, 1)] 0 ∧ arg q 8 2 ≤ 1023 ∧ arg q 0x0A 1 = 0xFF :=
  ⟨sHg 0x30 ⟨.pf, 3, args [(8, 255), (9, 3), (10, 255)], []⟩ id, ⟨.pf, 3, args [(8, 255), (9, 3), (10, 255)], []⟩, [], ⟨rfl, ⟨by decide, ⟨(by rintro p h; cases h), rfl⟩⟩, by decide +kernel, rfl⟩, by decide +kernel⟩

theorem witness_HeadgateCommands_4_11 : ∃ (s : State) (q : HgReq) (rest : List (Nat × HgReq)),
    Commands s 0x30 q rest .o [(0x08, 2), (0x0A, 1)] 0 ∧ arg q 8 2 ≤ 1023 ∧ (partOf s (arg q 0x0A 1)).isSome :=
  ⟨sHg 0x30 ⟨.pf, 3, args [(8, 5)], []⟩ id, ⟨.pf, 3, args [(8, 5)], []⟩, [], ⟨rfl, ⟨by decide, ⟨(by rintro p h; cases h), rfl⟩⟩, by decide +kernel, rfl⟩, by decide +kernel⟩

theorem witness_HeadgateCommands_4_12 : ∃ (s : State) (q : HgReq) (rest : List (Nat × HgReq)),
    Commands s 0x31 q rest .ap [(0x08, 2), (0x0A, 1)] 0 ∧ arg q 8 2 ≤ 1023 ∧ arg q 0x0A 1 ≤ 15 ∧ (∀ p, q.who = .os p → Table.get? s.iod.accts (arg q 8 2) = some p) :=
  ⟨sHg 0x31 ⟨.os 0, 3, args [(8, 0), (10, 15)], []⟩ id, ⟨.os 0, 3, args [(8, 0), (10, 15)], []⟩, [], ⟨rfl, ⟨by decide, trivial⟩, by decide +kernel, rfl⟩, by decide +kernel, by decide +kernel, (by rintro p h; cases h; decide +kernel)⟩

theorem witness_HeadgateCommands_4_13 : ∃ (s : State) (q : HgReq) (rest : List (Nat × HgReq)),
    Commands s 0x32 q rest .op [(0x08, 2), (0x0A, 1)] 0 ∧ arg q 8 2 ≤ 1023 ∧ arg q 0x0A 1 ≤ 15 ∧ (∀ p, q.who = .os p → Table.get? s.iod.accts (arg q 8 2) = some p) :=
  ⟨sHg 0x32 ⟨.pf, 3, args [(8, 0), (10, 15)], []⟩ id, ⟨.pf, 3, args [(8, 0), (10, 15)], []⟩, [], ⟨rfl, ⟨by decide, .inr rfl⟩, by decide +kernel, rfl⟩, by decide +kernel, by decide +kernel, (by rintro p h; cases h)⟩

theorem witness_HeadgateCommands_5_14 : ∃ (s : State) (q : HgReq) (rest : List (Nat × HgReq)),
    Commands s 0x50 q rest .o [(8, 1), (9, 1)] 0 ∧ partOf s (arg q 8 1) = some { count := 1 } ∧ ∃ c ∈ settings q { count := 1 }, c.cmd = 0x50 ∧ c.named = [(9, 1)] ∧ c.good = true :=
  ⟨sHg 0x50 ⟨.pf, 3, args [(9, 1)], []⟩ id, ⟨.pf, 3, args [(9, 1)], []⟩, [], ⟨rfl, ⟨by decide, ⟨(by rintro p h; cases h), rfl⟩⟩, by decide +kernel, rfl⟩, by decide +kernel, _, List.getElem_mem (n := 0) (by decide), rfl, rfl, by decide +kernel⟩

theorem witness_HeadgateCommands_5_15 : ∃ (s : State) (q : HgReq) (rest : List (Nat × HgReq)),
    Commands s 0x70 q rest .o [(8, 1), (0x0C, 12)] 0 ∧ partOf s (arg q 8 1) = some { count := 1 } ∧ ∃ c ∈ settings q { count := 1 }, c.cmd = 0x70 ∧ c.named = [(0x0C, 12)] ∧ c.good = true :=
  ⟨sHg 0x70 ⟨.pf, 3, args [(12, 1)], []⟩ id, ⟨.pf, 3, args [(12, 1)], []⟩, [], ⟨rfl, ⟨by decide, ⟨(by rintro p h; cases h), rfl⟩⟩, by decide +kernel, rfl⟩, by decide +kernel, _, List.getElem_mem (n := 1) (by decide), rfl, rfl, by decide +kernel⟩

theorem witness_HeadgateCommands_5_16 : ∃ (s : State) (q : HgReq) (rest : List (Nat × HgReq)),
    Commands s 0x71 q rest .o [(8, 1), (9, 1), (0x10, 48)] 0 ∧ partOf s (arg q 8 1) = some { count := 1 } ∧ ∃ c ∈ settings q { count := 1 }, c.cmd = 0x71 ∧ c.named = [(9, 1), (0x10, 48)] ∧ c.good = true :=
  ⟨sHg 0x71 ⟨.pf, 3, args [(9, 1), (16, 128), (24, 128)], []⟩ id, ⟨.pf, 3, args [(9, 1), (16, 128), (24, 128)], []⟩, [], ⟨rfl, ⟨by decide, ⟨(by rintro p h; cases h), rfl⟩⟩, by decide +kernel, rfl⟩, by decide +kernel, _, List.getElem_mem (n := 2) (by decide), rfl, rfl, by decide +kernel⟩

theorem witness_HeadgateCommands_5_17 : ∃ (s : State) (q : HgReq) (rest : List (Nat × HgReq)),
    Commands s 0x72 q rest .o [(8, 1), (0x0A, 2)] 0 ∧ partOf s (arg q 8 1) = some { count := 1 } ∧ ∃ c ∈ settings q { count := 1 }, c.cmd = 0x72 ∧ c.named = [(0x0A, 2)] ∧ c.good = true :=
  ⟨sHg 0x72 ⟨.pf, 3, args [(10, 7)], []⟩ id, ⟨.pf, 3, args [(10, 7)], []⟩, [], ⟨rfl, ⟨by decide, ⟨(by rintro p h; cases h), rfl⟩⟩, by decide +kernel, rfl⟩, by decide +kernel, _, List.getElem_mem (n := 3) (by decide), rfl, rfl, by decide +kernel⟩

theorem witness_HeadgateCommands_5_18 : ∃ (s : State) (q : HgReq) (rest : List (Nat × HgReq)),
    Commands s 0x73 q rest .o [(8, 1), (9, 1)] 0 ∧ partOf s (arg q 8 1) = some { count := 1 } ∧ ∃ c ∈ settings q { count := 1 }, c.cmd = 0x73 ∧ c.named = [(9, 1)] ∧ c.good = true :=
  ⟨sHg 0x73 ⟨.pf, 3, args [(9, 7)], []⟩ id, ⟨.pf, 3, args [(9, 7)], []⟩, [], ⟨rfl, ⟨by decide, ⟨(by rintro p h; cases h), rfl⟩⟩, by decide +kernel, rfl⟩, by decide +kernel, _, List.getElem_mem (n := 4) (by decide), rfl, rfl, by decide +kernel⟩

theorem witness_HeadgateCommands_5_19 : ∃ (s : State) (q : HgReq) (rest : List (Nat × HgReq)),
    Commands s 0x51 q rest .o [(8, 1), (9, 1), (0x0C, 4)] 0 ∧ partOf s (arg q 8 1) = some { count := 1 } ∧ arg q 9 1 ≤ 7 ∧ 10 * (((s.iod.parts.filter fun e => e.1 != arg q 8 1).map fun e => Table.getD e.2.floors (arg q 9 1) 0).sum + arg q 0x0C 4) ≤ 9 * capacityOf (arg q 9 1) :=
  ⟨sHg 0x51 ⟨.pf, 3, args [(9, 7), (12, 9)], []⟩ id, ⟨.pf, 3, args [(9, 7), (12, 9)], []⟩, [], ⟨rfl, ⟨by decide, ⟨(by rintro p h; cases h), rfl⟩⟩, by decide +kernel, rfl⟩, by decide +kernel⟩

theorem witness_HeadgateCommands_5_20 : ∃ (s : State) (q : HgReq) (rest : List (Nat × HgReq)),
    Commands s 0x51 q rest .o [(8, 1), (9, 1), (0x0C, 4)] 0 ∧ partOf s (arg q 8 1) = some { count := 1 } ∧ arg q 9 1 ≤ 7 ∧ ¬10 * (((s.iod.parts.filter fun e => e.1 != arg q 8 1).map fun e => Table.getD e.2.floors (arg q 9 1) 0).sum + arg q 0x0C 4) ≤ 9 * capacityOf (arg q 9 1) :=
  ⟨sHg 0x51 ⟨.pf, 3, args [(9, 7), (15, 9)], []⟩ id, ⟨.pf, 3, args [(9, 7), (15, 9)], []⟩, [], ⟨rfl, ⟨by decide, ⟨(by rintro p h; cases h), rfl⟩⟩, by decide +kernel, rfl⟩, by decide +kernel⟩

theorem witness_HeadgateCommands_5_21 : ∃ (s : State) (q : HgReq) (rest : List (Nat × HgReq)),
    Commands s 0x74 q rest .op [(8, 1), (0x0A, 2), (0x10, 8)] 0 ∧ partOf s (arg q 8 1) = some { count := 1 } ∧ (∀ p, q.who = .os p → p = arg q 8 1) ∧ arg q 0x10 8 % 128 = 0 ∧ isPackage (arg q 0x10 8 + 8320 * arg q 0x0A 2 - 1) = true :=
  ⟨sHg 0x74 ⟨.pf, 3, args [(10, 1), (17, 16)], []⟩ id, ⟨.pf, 3, args [(10, 1), (17, 16)], []⟩, [], ⟨rfl, ⟨by decide, .inr rfl⟩, by decide +kernel, rfl⟩, by decide +kernel, (by rintro p h; cases h), by decide +kernel⟩

theorem witness_HeadgateCommands_6_22 : ∃ (s : State) (q : HgReq) (rest : List (Nat × HgReq)),
    Commands s 0x60 q rest .o [(8, 1), (9, 1), (0x0C, 4)] 0 ∧ arg q 8 1 = 0 ∧ 800 ≤ arg q 0x0C 4 ∧ arg q 0x0C 4 ≤ 2400 :=
  ⟨sHg 0x60 ⟨.pf, 3, args [(12, 32), (13, 3)], []⟩ id, ⟨.pf, 3, args [(12, 32), (13, 3)], []⟩, [], ⟨rfl, ⟨by decide, ⟨(by rintro p h; cases h), rfl⟩⟩, by decide +kernel, rfl⟩, by decide +kernel⟩

theorem witness_HeadgateCommands_6_23 : ∃ (s : State) (q : HgReq) (rest : List (Nat × HgReq)),
    Commands s 0x60 q rest .o [(8, 1), (9, 1), (0x0C, 4)] 0 ∧ arg q 8 1 = 1 ∧ 50 ≤ arg q 0x0C 4 ∧ arg q 0x0C 4 ≤ s.iod.power.cap ∧ partOf s (arg q 9 1) = some { count := 1 } :=
  ⟨sHg 0x60 ⟨.pf, 3, args [(8, 1), (12, 50)], []⟩ id, ⟨.pf, 3, args [(8, 1), (12, 50)], []⟩, [], ⟨rfl, ⟨by decide, ⟨(by rintro p h; cases h), rfl⟩⟩, by decide +kernel, rfl⟩, by decide +kernel⟩

theorem witness_HeadgateCommands_6_24 : ∃ (s : State) (q : HgReq) (rest : List (Nat × HgReq)),
    Commands s 0x61 q rest .o [(8, 1), (0x0C, 4)] 0 ∧ arg q 8 1 < 14 :=
  ⟨sHg 0x61 ⟨.pf, 3, args [(8, 13), (12, 9)], []⟩ id, ⟨.pf, 3, args [(8, 13), (12, 9)], []⟩, [], ⟨rfl, ⟨by decide, ⟨(by rintro p h; cases h), rfl⟩⟩, by decide +kernel, rfl⟩, by decide +kernel⟩

theorem witness_HeadgateCommands_7_25 : ∃ (s : State) (q : HgReq) (rest : List (Nat × HgReq)),
    Commands s 0x75 q rest .p [(8, 8)] 0 ∧ q.who = .os 0 ∧ armedBy s (arg q 8 8) (some 0) = some (3, armedHg) ∧ armedHg.lpb.length = 128 :=
  ⟨sHg 0x75 ⟨.os 0, 3, args [(8, 5)], []⟩ (fun i => { i with armed := [(3, armedHg)] }), ⟨.os 0, 3, args [(8, 5)], []⟩, [], ⟨rfl, ⟨by decide, ⟨0, rfl⟩⟩, by decide +kernel, rfl⟩, by decide +kernel⟩

theorem witness_HeadgateCommands_7_26 : ∃ (s : State) (q : HgReq) (rest : List (Nat × HgReq)),
    Commands s 0x76 q rest .p [] 192 ∧ q.who = .os 0 ∧ fieldOf q.payload 0x1C 1 = 0 ∧ asidPart s (fieldOf q.payload 0x1D 2) = some 0 ∧ fieldOf q.payload 0 8 ≠ 0 ∧ fieldOf q.payload 0x16 2 = 0x8001 ∧ fieldOf q.payload 8 8 % 128 = 0 ∧ fieldOf q.payload 0x10 4 % 128 = 0 ∧ 128 ≤ fieldOf q.payload 0x10 4 ∧ fieldOf q.payload 0x10 4 ≤ 1048576 ∧ 1 ≤ fieldOf q.payload 0x14 2 ∧ fieldOf q.payload 0x14 2 ≤ 4096 ∧ fieldOf q.payload 8 8 + fieldOf q.payload 0x10 4 * fieldOf q.payload 0x14 2 ≤ 2 ^ 57 ∧ (∀ x ∈ (q.payload.drop 0x1F).take 33, x = 0) ∧ (∀ x ∈ s.iod.armed, x.2.tag.toNat ≠ fieldOf q.payload 0 8) ∧ s.iod.armed.length < 4096 ∧ partOf s 0 = some { count := 1 } :=
  ⟨sHg 0x76 ⟨.os 0, 3, args [], armPay⟩ id, ⟨.os 0, 3, args [], armPay⟩, [], ⟨rfl, ⟨by decide, ⟨0, rfl⟩⟩, by decide +kernel, by decide +kernel⟩, by decide +kernel⟩

theorem witness_HeadgateCommands_7_27 : ∃ (s : State) (q : HgReq) (rest : List (Nat × HgReq)),
    Commands s 0x90 q rest .p [] 0 ∧ q.who = .os 0 ∧ (partOf s 0).map (·.events) = some [evHg] :=
  ⟨sHg 0x90 ⟨.os 0, 3, args [], []⟩ (fun i => { i with parts := [(0, { count := 1, events := [evHg] })] }), ⟨.os 0, 3, args [], []⟩, [], ⟨rfl, ⟨by decide, ⟨0, rfl⟩⟩, by decide +kernel, rfl⟩, by decide +kernel⟩

theorem witness_HeadgateCommands_7_28 : ∃ (s : State) (q : HgReq) (rest : List (Nat × HgReq)),
    Commands s 0x90 q rest .p [] 0 ∧ q.who = .os 0 ∧ (partOf s 0).map (·.events) = some [] :=
  ⟨sHg 0x90 ⟨.os 0, 3, args [], []⟩ id, ⟨.os 0, 3, args [], []⟩, [], ⟨rfl, ⟨by decide, ⟨0, rfl⟩⟩, by decide +kernel, rfl⟩, by decide +kernel⟩

theorem witness_HeadgateCommands_8_29 : ∃ (s : State) (q : HgReq) (rest : List (Nat × HgReq)),
    Commands s 0x80 q rest .o [(8, 1), (0x0A, 2)] 0 ∧ arg q 8 1 = 0 ∧ arg q 0x0A 2 < 192 :=
  ⟨sHg 0x80 ⟨.pf, 3, args [(10, 191)], []⟩ id, ⟨.pf, 3, args [(10, 191)], []⟩, [], ⟨rfl, ⟨by decide, ⟨(by rintro p h; cases h), rfl⟩⟩, by decide +kernel, rfl⟩, by decide +kernel⟩

theorem witness_HeadgateCommands_8_30 : ∃ (s : State) (q : HgReq) (rest : List (Nat × HgReq)),
    Commands s 0x80 q rest .o [(8, 1), (0x0A, 2)] 0 ∧ arg q 8 1 = 1 ∧ arg q 0x0A 2 < 32 :=
  ⟨sHg 0x80 ⟨.pf, 3, args [(8, 1), (10, 31)], []⟩ id, ⟨.pf, 3, args [(8, 1), (10, 31)], []⟩, [], ⟨rfl, ⟨by decide, ⟨(by rintro p h; cases h), rfl⟩⟩, by decide +kernel, rfl⟩, by decide +kernel⟩

theorem witness_HeadgateCommands_8_31 : ∃ (s : State) (q : HgReq) (rest : List (Nat × HgReq)),
    Commands s 0x81 q rest .o [(8, 1), (0x0A, 2)] 0 ∧ arg q 8 1 = 0 ∧ arg q 0x0A 2 < 8 :=
  ⟨sHg 0x81 ⟨.pf, 3, args [(10, 7)], []⟩ id, ⟨.pf, 3, args [(10, 7)], []⟩, [], ⟨rfl, ⟨by decide, ⟨(by rintro p h; cases h), rfl⟩⟩, by decide +kernel, rfl⟩, by decide +kernel⟩

theorem witness_HeadgateCommands_8_32 : ∃ (s : State) (q : HgReq) (rest : List (Nat × HgReq)),
    Commands s 0x81 q rest .o [(8, 1), (0x0A, 2)] 0 ∧ arg q 8 1 = 1 ∧ arg q 0x0A 2 < 192 :=
  ⟨sHg 0x81 ⟨.pf, 3, args [(8, 1), (10, 191)], []⟩ id, ⟨.pf, 3, args [(8, 1), (10, 191)], []⟩, [], ⟨rfl, ⟨by decide, ⟨(by rintro p h; cases h), rfl⟩⟩, by decide +kernel, rfl⟩, by decide +kernel⟩

theorem witness_HeadgateCommands_9_33 : ∃ (s : State) (q : HgReq) (rest : List (Nat × HgReq)),
    Commands s 0x10 q rest .o [(8, 1), (9, 1), (0x0A, 1)] 0 ∧ arg q 8 1 < 32 ∧ arg q 0x0A 1 ≠ 0 ∧ arg q 9 1 + arg q 0x0A 1 ≤ 32 ∧ (∀ c < 32, ownerOf s c = some (arg q 8 1) → arg q 9 1 ≤ c ∧ c < arg q 9 1 + arg q 0x0A 1) ∧ (∀ c < 32, arg q 9 1 ≤ c → c < arg q 9 1 + arg q 0x0A 1 → ownerOf s c = none ∨ ownerOf s c = some (arg q 8 1)) :=
  ⟨sHg 0x10 ⟨.pf, 3, args [(8, 31), (9, 1), (10, 31)], []⟩ id, ⟨.pf, 3, args [(8, 31), (9, 1), (10, 31)], []⟩, [], ⟨rfl, ⟨by decide, ⟨(by rintro p h; cases h), rfl⟩⟩, by decide +kernel, rfl⟩, by decide +kernel⟩

theorem witness_HeadgateCommands_9_34 : ∃ (s : State) (q : HgReq) (rest : List (Nat × HgReq)),
    Commands s 0x10 q rest .o [(8, 1), (9, 1), (0x0A, 1)] 0 ∧ arg q 8 1 < 32 ∧ arg q 0x0A 1 = 0 ∧ (∀ c < 32, ownerOf s c = some (arg q 8 1) → Vacant s c) ∧ (∀ l ∈ s.launches, l.2.part ≠ arg q 8 1) ∧ (∀ x, partOf s (arg q 8 1) = some x → x.held.length < 256) :=
  ⟨sHg 0x10 ⟨.pf, 3, args [], []⟩ id, ⟨.pf, 3, args [], []⟩, [], ⟨rfl, ⟨by decide, ⟨(by rintro p h; cases h), rfl⟩⟩, by decide +kernel, rfl⟩, by decide +kernel, by decide +kernel, (fun c _ _ => vacantHg _ _ _ c), (by intro _ h; cases h), bySome (by decide +kernel)⟩

theorem witness_HeadgateCommands_10_35 : ∃ (s : State) (q : HgReq) (rest : List (Nat × HgReq)),
    Commands s 0x11 q rest .o [(8, 1)] 0 ∧ partOf s (arg q 8 1) = some { count := 1 } ∧ (∀ l ∈ s.launches, l.2.part = arg q 8 1 → ∀ e ∈ s.cores, ∀ y ∈ e.2.slots, y.2.launch ≠ l.1) :=
  ⟨sHg 0x11 ⟨.pf, 3, args [], []⟩ id, ⟨.pf, 3, args [], []⟩, [], ⟨rfl, ⟨by decide, ⟨(by rintro p h; cases h), rfl⟩⟩, by decide +kernel, rfl⟩, by decide +kernel, (by intro _ h; cases h)⟩

theorem witness_HeadgateCommands_11_36 : ∃ (s : State) (q : HgReq) (rest : List (Nat × HgReq)),
    Commands s 0x12 q rest .o [(8, 1), (9, 1), (0x0A, 1)] 0 ∧ ownerOf s 0 = some 0 ∧ arg q 8 1 = 0 ∧ arg q 0x0A 1 = 0 ∧ 0 ≠ arg q 9 1 ∧ (partOf s 0).isSome ∧ (partOf s (arg q 9 1)).isSome ∧ (columnOf s 0).lentTo = none ∧ Vacant s 0 :=
  ⟨sHg 0x12 ⟨.pf, 3, args [(9, 1)], []⟩ (fun i => { i with parts := [(0, { count := 1 }), (1, { first := 1, count := 1 })] }), ⟨.pf, 3, args [(9, 1)], []⟩, [], ⟨rfl, ⟨by decide, ⟨(by rintro p h; cases h), rfl⟩⟩, by decide +kernel, rfl⟩, by decide +kernel, by decide +kernel, by decide +kernel, by decide +kernel, show _ by decide +kernel, by decide +kernel, rfl, vacantHg _ _ _ 0⟩

theorem witness_HeadgateCommands_11_37 : ∃ (s : State) (q : HgReq) (rest : List (Nat × HgReq)),
    Commands s 0x13 q rest .o [(8, 1)] 0 ∧ ownerOf s 0 = some 0 ∧ arg q 8 1 = 0 ∧ (columnOf s 0).lentTo = some 1 ∧ Vacant s 0 :=
  ⟨sHg 0x13 ⟨.pf, 3, args [], []⟩ (fun i => { i with columns := [(0, { lentTo := some 1 })] }), ⟨.pf, 3, args [], []⟩, [], ⟨rfl, ⟨by decide, ⟨(by rintro p h; cases h), rfl⟩⟩, by decide +kernel, rfl⟩, by decide +kernel, by decide +kernel, rfl, vacantHg _ _ _ 0⟩

theorem witness_HeadgateCommands_12_38 : ∃ (s : State) (q : HgReq) (rest : List (Nat × HgReq)),
    Commands s 0x14 q rest .o [(8, 2), (0x0A, 1), (0x0C, 2)] 0 ∧ arg q 8 2 ≤ 128 ∧ (partOf s (arg q 0x0A 1)).isSome :=
  ⟨sHg 0x14 ⟨.pf, 3, args [(8, 128), (12, 1)], []⟩ id, ⟨.pf, 3, args [(8, 128), (12, 1)], []⟩, [], ⟨rfl, ⟨by decide, ⟨(by rintro p h; cases h), rfl⟩⟩, by decide +kernel, rfl⟩, by decide +kernel⟩

theorem witness_HeadgateCommands_13_39 : ∃ (s : State) (q : HgReq) (rest : List (Nat × HgReq)),
    Commands s 0x15 q rest .o [(8, 1), (9, 1), (0x10, 32)] 0 ∧ partOf s (arg q 8 1) = some { count := 1 } ∧ arg q 9 1 ≤ 128 :=
  ⟨sHg 0x15 ⟨.pf, 3, args [(9, 128), (31, 1)], []⟩ id, ⟨.pf, 3, args [(9, 128), (31, 1)], []⟩, [], ⟨rfl, ⟨by decide, ⟨(by rintro p h; cases h), rfl⟩⟩, by decide +kernel, rfl⟩, by decide +kernel⟩

theorem witness_HeadgateCommands_14_40 : ∃ (s : State) (q : HgReq) (rest : List (Nat × HgReq)),
    Commands s 0x16 q rest .o [(8, 1), (9, 1), (0x0A, 2), (0x0C, 1), (0x0D, 1), (0x10, 16)] 0 ∧ (partOf s (arg q 8 1)).isSome ∧ arg q 0x0A 2 ≤ 4095 ∧ arg q 9 1 ≤ 1 ∧ arg q 0x0C 1 ≤ 31 ∧ arg q 0x18 8 % 65536 = 0 ∧ arg q 0x10 8 + arg q 0x18 8 ≤ 2 ^ 39 :=
  ⟨sHg 0x16 ⟨.pf, 3, args [(10, 255), (11, 15), (12, 31), (26, 1)], []⟩ id, ⟨.pf, 3, args [(10, 255), (11, 15), (12, 31), (26, 1)], []⟩, [], ⟨rfl, ⟨by decide, ⟨(by rintro p h; cases h), rfl⟩⟩, by decide +kernel, rfl⟩, by decide +kernel⟩

theorem witness_HeadgateCommands_14_41 : ∃ (s : State) (q : HgReq) (rest : List (Nat × HgReq)),
    Commands s 0x16 q rest .o [(8, 1), (9, 1), (0x0A, 2), (0x0C, 1), (0x0D, 1), (0x10, 16)] 0 ∧ (partOf s (arg q 8 1)).isSome ∧ arg q 0x0A 2 ≤ 4095 ∧ arg q 9 1 = 2 ∧ arg q 0x0D 1 ≤ 15 :=
  ⟨sHg 0x16 ⟨.pf, 3, args [(9, 2), (13, 15)], []⟩ id, ⟨.pf, 3, args [(9, 2), (13, 15)], []⟩, [], ⟨rfl, ⟨by decide, ⟨(by rintro p h; cases h), rfl⟩⟩, by decide +kernel, rfl⟩, by decide +kernel⟩

theorem witness_HeadgateCommands_15_42 : ∃ (s : State) (q : HgReq) (rest : List (Nat × HgReq)),
    Commands s 0x20 q rest .o [(8, 1), (9, 1), (0x10, 20)] 0 ∧ arg q 8 1 < 32 ∧ arg q 9 1 ≤ 1 ∧ arg q 0x10 8 % 65536 = 0 ∧ arg q 0x18 8 ≠ 0 ∧ isPackage (arg q 0x10 8 + arg q 0x18 8 - 1) = true :=
  ⟨sHg 0x20 ⟨.pf, 3, args [(8, 31), (26, 1)], []⟩ id, ⟨.pf, 3, args [(8, 31), (26, 1)], []⟩, [], ⟨rfl, ⟨by decide, ⟨(by rintro p h; cases h), rfl⟩⟩, by decide +kernel, rfl⟩, by decide +kernel⟩

theorem witness_HeadgateCommands_15_43 : ∃ (s : State) (q : HgReq) (rest : List (Nat × HgReq)),
    Commands s 0x20 q rest .o [(8, 1), (9, 1), (0x10, 20)] 0 ∧ arg q 8 1 < 32 ∧ arg q 9 1 = 2 :=
  ⟨sHg 0x20 ⟨.pf, 3, args [(9, 2), (32, 1)], []⟩ id, ⟨.pf, 3, args [(9, 2), (32, 1)], []⟩, [], ⟨rfl, ⟨by decide, ⟨(by rintro p h; cases h), rfl⟩⟩, by decide +kernel, rfl⟩, by decide +kernel⟩


/-! The step -/

theorem decOf {bs rest : List Byte} {i : Instr} (h : (match decode bs with
    | .ok (j, r) => decide (j = i) && decide (r = rest)
    | .error _ => false) = true) : decode bs = .ok (i, rest) := by
  split at h
  · next j r hj =>
    simp only [Bool.and_eq_true, decide_eq_true_eq] at h
    rw [hj, h.1, h.2]
  · exact absurd h (by decide)

def sStep (l : Option (List W32)) : State :=
  { sNone with sys := [(0, { ctl := { pc := 8, asid := 1, line := l } })]
               mem := [(0, 0xFF), (1, 0xFF), (2, 0xFF), (3, 0xBF), (4, 0xFF), (5, 0xFF), (6, 0xFF), (7, 0x3F)] }

theorem witness_StepRunsDecodedInstruction_0 : ∃ (s u : State) (cx : Cx) (l : List W32) (i : Instr) (rest : List Byte), s.agenda = [] ∧ u = s ∧
    cxOf u = some cx ∧ canIssue u cx = true ∧ cx.line = some l ∧ decode (parcels (l.drop (cx.pc.toNat / 4 % 32))) = .ok (i, rest) :=
  ⟨sStep (some (code0 0)), _, cY1, code0 0, .add .g { p := pp 0 0 0, imm := 0 }, List.replicate 116 0, rfl, rfl, by decide +kernel, by decide +kernel, rfl,
    decOf (by decide +kernel)⟩

theorem witness_StepRunsDecodedInstruction_0b : ∃ (s u : State) (cx : Cx) (i : Issuer) (r : List Turn), s.agenda = .issue i :: r ∧
    laneOf { s with agenda := r } i = none ∧ u = { s with agenda := r, cur := i } ∧ cxOf u = some cx ∧ canIssue u cx = false :=
  ⟨{ modSys sY 0 (fun y => { y with ctl := { y.ctl with halted := true } }) with agenda := [.issue (.sys 0)] }, _, cY, .sys 0, [], rfl, rfl, rfl,
    by decide +kernel⟩

theorem witness_StepRunsDecodedInstruction_0c : ∃ (s : State) (cx : Cx) (pa : Nat) (i : Instr) (rest : List Byte), s.agenda = [] ∧ cxOf s = some cx ∧
    canIssue s cx = true ∧ cx.line = none ∧ (∀ b, cx.blk s = some b → isSealed s b = false) ∧
    let l := parcelsOf ((upFrom pa 128).map (Store.get s.mem))
    let j := cx.pc.toNat / 4 % 32
    translate s cx.id (spaceOf s cx.id).1 (spaceOf s cx.id).2 (cx.pc.toNat / 128 * 128) 3 = .ok pa ∧ isPackage pa = true ∧ pa % 128 = 0 ∧
    unserved s pa = false ∧ frameOf s cx.id (pa / 128) = none ∧ rdcOf s (dieOf cx.id) (pa / 128) = none ∧
    (∀ n, cx.id = .sys n → ∀ f ∈ (sysOf s n).icache, f.line ≠ pa / 128) ∧ Calm s ∧ s.path = [] ∧ lineCheck l = none ∧ cx.pc.toNat % 4 = 0 ∧
    (∀ b, cx.blk s = some b → b.regs.trapvec ≠ cx.pc) ∧ 2 ≤ j ∧
    (l.headD 0).getLsbD (j - 2) = true ∧ decode (parcels (l.drop j)) = .ok (i, rest) :=
  ⟨sStep none, cY, 0, .add .g { p := pp 0 0 0, imm := 0 }, List.replicate 116 0, rfl, by decide +kernel, by decide +kernel, rfl, (by intro b h; cases h),
    by decide +kernel, by decide +kernel, by decide, by decide +kernel, by decide +kernel, by decide +kernel,
    (by intro n h; cases h; decide +kernel), calmOf (by decide +kernel), rfl, by decide +kernel, by decide, (by intro b h; cases h),
    by decide, by decide +kernel, decOf (by decide +kernel)⟩

theorem nextOf {o : Host.Outcome State Fault Refusal} {p : State → Bool}
    (h : (match o with
      | .next t => p t
      | _ => false) = true) : ∃ t, o = .next t ∧ p t = true := by
  split at h
  · exact ⟨_, rfl, h⟩
  · exact absurd h (by decide)

/-- A control stream at SUB of class s with NWB, and the turn of its core's issue unit. -/
def sLane (a : List Turn) : State :=
  { with_ { bV with exec := { bV.exec with ctl := { bV.exec.ctl with line := some (code 0x41020FF8 5) } } } (.ctl 0 0) with agenda := a, cycle := 8 }

theorem witness_StepRunsDecodedInstruction_1 : ∃ (s s' s'' : State) (c : Nat) (r : List Turn) (i : Issuer) (rest : List Issuer) (cx : Cx) (t : State),
    s.agenda = .issue i :: r ∧ laneOf { s with agenda := r } i = some c ∧ s'.agenda = .lane c :: r ∧ laneUsed { s' with agenda := r } c = true ∧
    s''.agenda = .lane c :: r ∧ laneUsed { s'' with agenda := r } c = false ∧ issueOrder { s'' with agenda := r } c = i :: rest ∧
    cxOf { s'' with agenda := r, cur := i } = some cx ∧ issue { s'' with agenda := r, cur := i } = .next t ∧
    issued { s'' with agenda := r } t cx = true := by
  obtain ⟨t, h, h'⟩ := nextOf (o := issue (sLane [])) (p := fun t => issued (sLane []) t { cV with line := some (code 0x41020FF8 5) })
    (by decide +kernel)
  exact ⟨sLane [.issue (.ctl 0 0)], { with_ { bV with issuedAt := 8 } (.ctl 0 0) with agenda := [.lane 0], cycle := 8 }, sLane [.lane 0], 0, [],
    .ctl 0 0, [], _, t, rfl, rfl, rfl, by decide +kernel, rfl, by decide +kernel, by decide +kernel, rfl, h, h'⟩

theorem witness_StepRunsDecodedInstruction_2 : ∃ (s : State) (i : Instr) (r : List Turn) (t : State), s.agenda = .event i :: r ∧
    exec i { s with agenda := r } = .next t :=
  ⟨{ sNone with agenda := [.event .thermalThrottle] }, .thermalThrottle, [], _, rfl, rfl⟩

theorem witness_StepRunsDecodedInstruction_4 : ∃ (s t : State) (cx : Cx) (c sl : Nat) (b : Block), cx.id = .blk c sl ∧ blockOf t c sl = some b ∧
    b.phase = .running ∧ b.regs.dbgctl = 0 := ⟨sT, sT, cT, 0, 0, bT, rfl, rfl, rfl, by decide⟩

theorem witness_DecodeEncode : ∃ i : Instr, i.wellFormed = true ∧ ∃ l, encode i = some l :=
  ⟨.ep { p := pp 0 0 0, param := 7 }, by decide +kernel, _, rfl⟩

theorem witness_StepKeepsInvariant : ∃ s t : State, Inv s ∧ step s = .next t := by
  refine ⟨{ sStep none with agenda := [.event .thermalThrottle] }, _, ⟨by decide +kernel, numberedOf rfl, (by intro _ h; cases h), by decide +kernel,
    (by intro _ h; cases h)⟩, rfl⟩

theorem witness_StepRunsDecodedInstruction_3 : ∃ cx : Cx, ∀ c sl, cx.id ≠ .blk c sl := ⟨cY, by intro _ _ h; cases h⟩

end Sys2Proof.Tests
end

/-! ## EP over no stream (R60, R250)

The clause of O39 on EP asks every stream of the block to stand at the EP. A block of which no stream is left meets that
too, and then no wait of R60 completes: its region stays. -/
section
namespace Sys2Proof.EpOverNoStream

open Sys2Proof.Machine Sys2Proof.Claims

/-- `EP 1`. -/
def op : POp := ⟨⟨0, false, 0, 0, 0⟩, 1⟩
/-- One EP, and regions 0 and 1 that are open. -/
def object : KObj :=
  { asid := 1, addr := 0x8000, defv := 2, nep := 1, vsecs := [], regions := [{}, {}], map := [], promise := 0, claim := {} }
/-- A vector block that runs region 0 and of which no stream is left. -/
def block : Block :=
  { launch := 1, obj := 0, part := 0, asid := 1, prio := 0, vpref := 0, det := 0, coop := false, claim := {}
    regs := { nthr := 1, nblk := 1 }, exec := { model := .vector, ctl := { pc := 8, done := true } }
    mem := { budget := 16, vcount := 16, locb := 4096, rowBytes := 16384 } }
def state : State := { cores := [(0, { slots := [(0, block)] })], objects := [object], cur := .ctl 0 0 }
def cx : Cx := { id := .blk 0 0, kind := .V, acts := [0], pc := 8, line := none }

theorem streams : block.streams = [] := rfl

theorem enters : Enters state cx (epDec op object.nep) [(0, [])] where
  here := rfl
  legal := by decide +kernel
  reads := by decide +kernel
  latches := fun _ i x h => by simp [epDec, plainDec] at h
  goes := by decide +kernel

theorem still : Still state 0 where
  path := rfl
  pending := rfl
  matrix := rfl
  tiles := rfl
  copies := fun _ => rfl
  signs := by decide +kernel

theorem atEp : AtEp state cx op 0 0 block object 1 where
  place := rfl
  block := rfl
  object := rfl
  version := by decide
  phase := rfl
  next := by decide
  arrive := by simp [streams]
  stands := by simp [streams]
  still := still
  faults := rfl
  regions := by decide +kernel
  free := by decide +kernel

/-- The region after the EP, as the model computes it. -/
def regionAfter : Host.Outcome State Fault Refusal → Option Nat
  | .next t => (blockOf t 0 0).map (·.region)
  | _ => none

theorem regionAfter_ep : regionAfter (exec (.ep op) state) = some 0 := by decide +kernel

end Sys2Proof.EpOverNoStream

open Sys2Proof.EpOverNoStream in
/-- Refutes O39: its clause on EP allows a block of which no stream is left, whose EP opens no region. -/
theorem not_streamsRegroup : ¬ Obligations.StreamsRegroup := by
  unfold Obligations.StreamsRegroup
  rintro ⟨-, -, -, -, ep, -⟩
  obtain ⟨t, b', run, here, region, -⟩ := ep op state cx [(0, [])] 0 0 block object 1 enters atEp (by decide) (by decide +kernel) rfl
  have stays := regionAfter_ep
  rw [run] at stays
  simp [regionAfter, here, region] at stays
end

/-! ## What reading code and charging traffic leave alone (R89, R407)

Reading a line of code touches caches, tags and fills; charging touches the charges of the place's own block. Both leave
every stream where it stands and every register and byte as it is. -/
section
namespace Sys2Proof.Machine

/-- A block without its charges. -/
def Block.uncharged (b : Block) : Block := { b with charges := {} }

/-- `t` differs from `s` in caches, tags, fills and counters, and in the charges of the block at `id`, at most. -/
structure Undisturbed (id : CtxId) (s t : State) : Prop where
  mem : t.mem = s.mem
  cur : t.cur = s.cur
  path : t.path = s.path
  blocks : ∀ d sm, (blockOf t d sm).map Block.uncharged = (blockOf s d sm).map Block.uncharged
  others : ∀ d sm, id ≠ .blk d sm → blockOf t d sm = blockOf s d sm
  sups : ∀ d, (coreOf t d).sup = (coreOf s d).sup
  syss : ∀ n, (sysOf t n).ctl = (sysOf s n).ctl

namespace Undisturbed

theorem refl (id : CtxId) (s : State) : Undisturbed id s s := by constructor <;> intros <;> rfl

theorem trans {id : CtxId} {s t u : State} (h : Undisturbed id s t) (k : Undisturbed id t u) : Undisturbed id s u where
  mem := k.mem.trans h.mem
  cur := k.cur.trans h.cur
  path := k.path.trans h.path
  blocks d sm := (k.blocks d sm).trans (h.blocks d sm)
  others d sm hd := (k.others d sm hd).trans (h.others d sm hd)
  sups d := (k.sups d).trans (h.sups d)
  syss n := (k.syss n).trans (h.syss n)

/-- A change of the state that names no core, no system core, no byte and no access of the path. -/
theorem of_units {id : CtxId} {s t : State} (hm : t.mem = s.mem) (hc : t.cur = s.cur) (hp : t.path = s.path)
    (hk : t.cores = s.cores) (hy : t.sys = s.sys) : Undisturbed id s t := by
  constructor <;> intros <;> simp_all [blockOf, coreOf, sysOf]

theorem modCore (id : CtxId) (s : State) (c : Nat) (f : Core → Core) (hs : ∀ k, (f k).slots = k.slots) (hp : ∀ k, (f k).sup = k.sup) :
    Undisturbed id s (Machine.modCore s c f) := by
  have hb : ∀ d sm, blockOf (Machine.modCore s c f) d sm = blockOf s d sm := fun d sm => by
    by_cases h : c = d
    · subst h; simp [blockOf, hs]
    · simp [blockOf, coreOf_modCore_ne s f h]
  refine ⟨rfl, rfl, rfl, fun d sm => by rw [hb], fun d sm _ => hb d sm, fun d => ?_, fun _ => rfl⟩
  by_cases h : c = d
  · subst h; simp [hp]
  · simp [coreOf_modCore_ne s f h]

theorem modSys (id : CtxId) (s : State) (n : Nat) (f : SysCore → SysCore) (hc : ∀ y, (f y).ctl = y.ctl) :
    Undisturbed id s (Machine.modSys s n f) := by
  refine ⟨rfl, rfl, rfl, fun _ _ => rfl, fun _ _ _ => rfl, fun _ => rfl, fun m => ?_⟩
  by_cases h : n = m
  · subst h; simp [hc]
  · simp [sysOf_modSys_ne s f h]

/-- A change of the charges of the place's own block. -/
theorem modBlock (s : State) (c sl : Nat) (f : Block → Block) (hf : ∀ b, (f b).uncharged = b.uncharged) :
    Undisturbed (.blk c sl) s (Machine.modBlock s c sl f) := by
  have hb : ∀ d sm, CtxId.blk c sl ≠ .blk d sm → blockOf (Machine.modBlock s c sl f) d sm = blockOf s d sm := fun d sm hd =>
    blockOf_modBlock_ne s f fun h => hd (by rw [h.1, h.2])
  refine ⟨rfl, rfl, rfl, fun d sm => ?_, hb, fun d => ?_, fun _ => rfl⟩
  · by_cases h : CtxId.blk c sl = .blk d sm
    · cases h
      simp only [blockOf_modBlock_self, Option.map_map]
      exact congrArg (fun g => Option.map g _) (funext hf)
    · rw [hb d sm h]
  · by_cases h : c = d
    · subst h; simp
    · simp [coreOf_modBlock_ne s sl f h]

theorem charge (id : CtxId) (s : State) (ctr n units : Nat) : Undisturbed id s (Machine.charge s id ctr n units) := by
  cases id with
  | blk c sl => exact modBlock s c sl _ fun _ => rfl
  | sup c => exact refl _ s
  | sys m => exact refl _ s

theorem setFrames (id : CtxId) (s : State) (l : List L1Frame) : Undisturbed id s (Machine.setFrames s id l) := by
  cases id with
  | blk c sl => exact modCore _ s c (fun k => { k with l1 := l }) (fun _ => rfl) fun _ => rfl
  | sup c => exact modCore _ s c (fun k => { k with l1 := l }) (fun _ => rfl) fun _ => rfl
  | sys n => exact modSys _ s n (fun k => { k with dcache := l }) fun _ => rfl

theorem modTag (id : CtxId) (s : State) (line : Nat) (f : Tag → Tag) : Undisturbed id s (Machine.modTag s line f) :=
  of_units rfl rfl rfl rfl rfl

theorem rdcKeep (id : CtxId) (s : State) (die line : Nat) (data : Line) (bad : Bool) :
    Undisturbed id s (Machine.rdcKeep s die line data bad) := of_units rfl rfl rfl rfl rfl

theorem chargeFill (id : CtxId) (s : State) (a : Option Nat) (ctr n units : Nat) :
    Undisturbed id s (Machine.chargeFill s (some id) a ctr n units) := by
  cases a with
  | none => cases id <;> exact refl _ s
  | some a =>
    cases id with
    | blk c sl =>
      simp only [Machine.chargeFill]
      split
      · exact modBlock s c sl _ fun _ => rfl
      · exact of_units rfl rfl rfl rfl rfl
    | sup c => exact of_units rfl rfl rfl rfl rfl
    | sys n => exact of_units rfl rfl rfl rfl rfl

theorem ite {id : CtxId} {s t : State} {p : Prop} [Decidable p] (h : Undisturbed id s t) : Undisturbed id s (if p then s else t) := by
  split
  · exact refl id s
  · exact h

theorem chargeMoved (id : CtxId) (s0 s : State) (a : Option Nat) : Undisturbed id s (Machine.chargeMoved s0 s (some id) a) :=
  trans (ite (chargeFill ..)) (ite (chargeFill ..))

theorem blame (id : CtxId) (s0 s : State) : Undisturbed id s (Machine.blame s0 s (some id)) :=
  (chargeMoved ..).trans (ite (of_units rfl rfl rfl rfl rfl))

variable {id : CtxId} {s t : State}

/-- A block is still there, its charges aside as it was. -/
theorem block (h : Undisturbed id s t) {c sl : Nat} {b : Block} (hb : blockOf s c sl = some b) :
    ∃ b', blockOf t c sl = some b' ∧ b' = { b with charges := b'.charges } := by
  have e := h.blocks c sl
  rw [hb] at e
  cases hb' : blockOf t c sl with
  | none => simp [hb'] at e
  | some b' =>
    simp only [hb', Option.map_some, Option.some.injEq] at e
    refine ⟨b', rfl, ?_⟩
    calc b' = { b'.uncharged with charges := b'.charges } := rfl
      _ = { b.uncharged with charges := b'.charges } := by rw [e]
      _ = { b with charges := b'.charges } := rfl

/-- What a block's charges do not enter into reads as before. -/
theorem map_block {α : Type} (h : Undisturbed id s t) (c sl : Nat) (f : Block → α) (hf : ∀ b, f b = f b.uncharged) :
    (blockOf t c sl).map f = (blockOf s c sl).map f := by
  have e : f = (f ∘ Block.uncharged) := funext hf
  rw [e, ← Option.map_map, h.blocks, Option.map_map]

theorem ctlOf_eq (h : Undisturbed id s t) (j : CtxId) : ctlOf t j = ctlOf s j := by
  cases j with
  | blk c sl => exact h.map_block c sl _ fun _ => rfl
  | sup c => exact congrArg some (h.sups c)
  | sys n => exact congrArg some (h.syss n)

theorem only (h : Undisturbed id s t) {cx : Cx} (hid : cx.id = id) : cx.Only s t :=
  ⟨fun d sm hd => h.others d sm (hid ▸ hd), fun d _ => h.sups d, fun n _ => h.syss n⟩

theorem map_blk {α : Type} (h : Undisturbed id s t) (cx : Cx) (f : Block → α) (hf : ∀ b, f b = f b.uncharged) :
    (cx.blk t).map f = (cx.blk s).map f := by
  unfold Cx.blk
  split
  · exact h.map_block _ _ f hf
  · rfl

theorem regsSame (h : Undisturbed id s t) (cx : Cx) : cx.RegsSame s t := by
  have hc := h.ctlOf_eq cx.id
  constructor
  · simp only [Cx.mem, h.map_blk cx (·.mem) fun _ => rfl]
  · simp only [Cx.regs, h.map_blk cx (·.regs) fun _ => rfl]
  · simp only [Cx.ctl, hc, implies_true]
  · simp only [Cx.ctl, hc, implies_true]

/-- No block comes or goes. -/
theorem block_none (h : Undisturbed id s t) {c sl : Nat} (hb : blockOf s c sl = none) : blockOf t c sl = none := by
  have e := h.blocks c sl
  rwa [hb, Option.map_none, Option.map_eq_none_iff] at e

/-- The current stream stands where it stood. -/
theorem cxOf_eq (h : Undisturbed id s t) : cxOf t = cxOf s := by
  have stays : ∀ c sl (f g : Block → Option Cx), (∀ b b', b'.exec = b.exec → g b' = f b) →
      (blockOf t c sl).bind g = (blockOf s c sl).bind f := fun c sl f g hfg => by
    cases hb : blockOf s c sl with
    | none => rw [h.block_none hb]; rfl
    | some b =>
      obtain ⟨b', hb', e⟩ := h.block hb
      rw [hb']
      exact hfg b b' (by rw [e])
  unfold cxOf
  rw [h.cur]
  cases s.cur with
  | bundle c sl n => exact stays c sl _ _ fun b b' e => by simp only [e, threadOf]
  | ctl c sl => exact stays c sl _ _ fun b b' e => by simp only [e]
  | sup c => simp only [h.sups c]
  | sys n => simp only [h.syss n]

end Undisturbed

/-- The registers of a place that are as before read as before. -/
theorem Cx.RegsSame.same {cx : Cx} {s t : State} (h : cx.RegsSame s t) : cx.SameRegs s t :=
  ⟨fun _ m l hc => h.reg hc m l, h.pbit, h.regs⟩

end Sys2Proof.Machine
end

/-! ## Reading a line that nobody owns (R88, R89)

A line without an owner and without a copy at the place is read as memory holds it, and the read disturbs nothing. -/
section
namespace Sys2Proof.Machine

@[simp] theorem sliceOf_modSlice_self (s : State) (n : Nat) (f : Slice → Slice) : sliceOf (modSlice s n f) n = f (sliceOf s n) := by
  simp [sliceOf, modSlice]

@[simp] theorem tagOf_modTag_self (s : State) (line : Nat) (f : Tag → Tag) : tagOf (modTag s line f) line = (tagOf s line).map f := by
  simp [tagOf, modTag]

theorem owesBytes_unowned {s : State} {line : Nat} (h : (tagOf s line).bind (·.own) = none) (by_ : Option Nat) :
    owesBytes s line by_ = false := by simp [owesBytes, h]

theorem rawRecall_unowned {s : State} {line : Nat} (h : (tagOf s line).bind (·.own) = none) (by_ : Option Nat) :
    rawRecall s line by_ = s := by simp [rawRecall, h]

/-- Of a line without an owner nothing is recalled (R273). -/
theorem recallOwner_unowned {s : State} {line : Nat} (h : (tagOf s line).bind (·.own) = none) (by_ : Option Nat) :
    recallOwner s line by_ = some s := by
  simp [recallOwner, recallLine, owesBytes_unowned h, rawRecall_unowned h]

/-- A use of a line's tag leaves its poison. -/
theorem linePoisoned_used (s : State) (line n : Nat) :
    linePoisoned (modTag s line fun t => { t with used := n }) line = linePoisoned s line := by
  unfold linePoisoned
  rw [tagOf_modTag_self]
  cases tagOf s line <;> rfl

/-- A read of a line without an owner at its home slice gives memory's bytes. -/
theorem readHome_unowned {s : State} {pa : Nat} (h : (tagOf s (pa / 128)).bind (·.own) = none) (n : Nat) (by_ : Option Nat) (na : Bool) :
    ∃ t, readHome s pa n by_ na = (t, Store.bytes s.mem pa n, linePoisoned s (pa / 128)) ∧ ∀ id, Undisturbed id s t := by
  simp only [readHome, recallOwner_unowned h]
  cases ht : tagOf s (pa / 128) with
  | some g =>
    refine ⟨modTag s (pa / 128) fun t => { t with used := s.cycle }, ?_, fun id => .modTag id s _ _⟩
    simp only [linePoisoned_used]
  | none =>
    cases na with
    | true => exact ⟨{ s with moved := s.moved + 1 }, rfl, fun id => .of_units rfl rfl rfl rfl rfl⟩
    | false =>
      by_cases hf : s.fills.any fun f => f.line == pa / 128
      · exact ⟨s, by simp only [hf]; rfl, fun id => .refl id s⟩
      · exact ⟨{ s with fills := s.fills ++ [{ line := pa / 128 }] }, by simp only [hf]; rfl, fun id => .of_units rfl rfl rfl rfl rfl⟩

/-- A miss of a line of which the die has no copy goes to the home slice. -/
theorem fetchLine_unowned {s : State} {id : CtxId} {pa : Nat} (h : (tagOf s (pa / 128)).bind (·.own) = none)
    (hr : rdcOf s (dieOf id) (pa / 128) = none) (n : Nat) (na : Bool) :
    ∃ t data, fetchLine s id pa n na = (t, Store.bytes s.mem pa n, data, linePoisoned s (pa / 128)) ∧ Undisturbed id s t := by
  obtain ⟨t, ht, hu⟩ := readHome_unowned h n (coreOfCtx id) na
  have charged := (hu id).trans (.charge id t 6 128 (ewtOf t 9))
  refine ⟨(fetchLine s id pa n na).1, (fetchLine s id pa n na).2.2.1, ?_, ?_⟩
  · simp only [fetchLine, hr, ite_self, ht]
  · simp only [fetchLine, hr, ite_self, ht]
    split
    · exact charged.trans (.rdcKeep ..)
    · exact charged

theorem overlay_noPath {s : State} (h : s.path = []) (id : CtxId) (pa : Nat) (bs : List Byte) (bad : Bool) :
    overlay s id pa bs bad = (bs, bad) := by simp [overlay, h]

/-- A line that its home slice alone holds, clean: no owner, no poison, no copy in the place's caches or its die's, nothing on
the path. -/
structure ColdLine (s : State) (id : CtxId) (line : Nat) : Prop where
  owner : (tagOf s line).bind (·.own) = none
  poison : linePoisoned s line = false
  frame : frameOf s id line = none
  rdc : rdcOf s (dieOf id) line = none
  icache : ∀ n, id = .sys n → ∀ f ∈ (sysOf s n).icache, f.line ≠ line
  path : s.path = []

/-- A cold line read with no copy kept. -/
theorem loadLine_cold {s : State} {id : CtxId} {pa : Nat} (h : ColdLine s id (pa / 128)) (n : Nat) :
    ∃ t, loadLine s id pa n false 1 = (t, Store.bytes s.mem pa n, false) ∧ Undisturbed id s t := by
  obtain ⟨u, data, hu, ku⟩ := fetchLine_unowned h.owner h.rdc n (1 == 3)
  have kt : Undisturbed id s (dropCopy u id (pa / 128)) := ku.trans (.setFrames id u _)
  refine ⟨_, ?_, kt⟩
  simp only [loadLine, h.frame, Option.bind_none, hu]
  simp [overlay_noPath (kt.path.trans h.path), h.poison]

/-- A cold line of code is entered as memory holds it. -/
theorem loadCode_cold {s : State} {id : CtxId} {pa : Nat} (h : ColdLine s id (pa / 128)) :
    ∃ t, loadCode s id pa = (t, Store.bytes s.mem pa 128, false) ∧ Undisturbed id s t := by
  cases id with
  | sys n =>
    obtain ⟨t, ht, hu⟩ := readHome_unowned h.owner 128 none false
    have hn : (sysOf s n).icache.find? (fun f => f.line == pa / 128) = none := by simpa using fun f hf => h.icache n rfl f hf
    simp only [loadCode, hn, ht]
    generalize hv : Machine.modSys t n _ = v
    have kv : Undisturbed (.sys n) s v := (hu _).trans (hv ▸ .modSys _ t n _ fun _ => rfl)
    exact ⟨v, by simp [overlay_noPath (kv.path.trans h.path), h.poison], kv⟩
  | blk c sl => exact loadLine_cold h 128
  | sup c => exact loadLine_cold h 128

/-- The 32 parcels that memory holds from `pa`. -/
def lineAt (s : State) (pa : Nat) : List W32 := parcelsOf ((upFrom pa 128).map (Store.get s.mem))

/-- A cold line of code that is mapped and served reads as memory holds it. -/
theorem readLine_cold {s : State} {id : CtxId} {va pa : Nat}
    (ht : translate s id (spaceOf s id).1 (spaceOf s id).2 (va / 128 * 128) 3 = .ok pa) (hk : isPackage pa = true)
    (hu : unserved s pa = false) (h : ColdLine s id (pa / 128)) :
    ∃ t, readLine s id va = (t, .ok (lineAt s pa)) ∧ Undisturbed id s t := by
  obtain ⟨t, hl, kt⟩ := loadCode_cold h
  exact ⟨t, by simp [readLine, ht, hk, hu, hl, Store.bytes_eq, lineAt], kt⟩

end Sys2Proof.Machine
end

/-! ## Entering a line (R85, R88) -/
section
namespace Sys2Proof.Machine

/-- The members of a bundle that stand at its instruction and can go on. -/
def Bundle.acts (u : Bundle) (b : Block) : List Nat :=
  sortBy (fun (t : Nat) => t) (u.members.filter fun t => (threadOf b t).live && (threadOf b t).pc == u.pc && pollable (threadOf b t).wait.toNat)

/-- What the current stream is: a bundle of a threaded block, the control stream of another, supervisor code, a system
core. -/
theorem cxOf_cases {s : State} {cx : Cx} (h : cxOf s = some cx) :
    (∃ c sl n b u, s.cur = .bundle c sl n ∧ blockOf s c sl = some b ∧ b.exec.model = .threaded ∧
      b.exec.bundles.find? (·.id == n) = some u ∧ cx = { id := .blk c sl, kind := .T, pc := u.pc, line := u.line, acts := u.acts b }) ∨
    (∃ c sl b, s.cur = .ctl c sl ∧ blockOf s c sl = some b ∧ b.exec.model ≠ .threaded ∧
      cx = { id := .blk c sl, kind := b.exec.model.kind, acts := [0], pc := b.exec.ctl.pc, line := b.exec.ctl.line }) ∨
    (∃ c, s.cur = .sup c ∧ cx = { id := .sup c, kind := .K, acts := [0], pc := (coreOf s c).sup.pc, line := (coreOf s c).sup.line }) ∨
    ∃ n, s.cur = .sys n ∧ cx = { id := .sys n, kind := .Y, acts := [0], pc := (sysOf s n).ctl.pc, line := (sysOf s n).ctl.line } := by
  unfold cxOf at h
  cases hcur : s.cur with
  | bundle c sl n =>
    simp only [hcur, Option.bind_eq_some_iff] at h
    obtain ⟨b, hb, h⟩ := h
    split at h
    · simp at h
    · obtain ⟨u, hu, h⟩ := Option.map_eq_some_iff.mp h
      exact .inl ⟨c, sl, n, b, u, rfl, hb, by simp_all, hu, h.symm⟩
  | ctl c sl =>
    simp only [hcur, Option.bind_eq_some_iff] at h
    obtain ⟨b, hb, h⟩ := h
    split at h
    · simp at h
    · exact .inr (.inl ⟨c, sl, b, rfl, hb, by simp_all, (Option.some.inj h).symm⟩)
  | sup c => exact .inr (.inr (.inl ⟨c, rfl, by simp_all⟩))
  | sys n => exact .inr (.inr (.inr ⟨n, rfl, by simp_all⟩))

theorem Cx.Only.refl (cx : Cx) (s : State) : cx.Only s s := by constructor <;> intros <;> rfl
theorem Cx.Only.trans {cx : Cx} {s t u : State} (h : cx.Only s t) (k : cx.Only t u) : cx.Only s u :=
  ⟨fun d sm hd => (k.blocks d sm hd).trans (h.blocks d sm hd), fun d hd => (k.sups d hd).trans (h.sups d hd),
    fun n hn => (k.syss n hn).trans (h.syss n hn)⟩

/-- A change of the stream's own block. -/
theorem Cx.Only.modBlock {cx : Cx} {c sl : Nat} (hid : cx.id = .blk c sl) (s : State) (f : Block → Block) :
    cx.Only s (Machine.modBlock s c sl f) := by
  refine ⟨fun d sm hd => blockOf_modBlock_ne s f fun h => hd (by rw [hid, h.1, h.2]), fun d _ => ?_, fun _ _ => rfl⟩
  by_cases h : c = d
  · subst h; simp
  · simp [coreOf_modBlock_ne s sl f h]

/-- A change of the stream's own control context. -/
theorem Cx.Only.modCtl (cx : Cx) (s : State) (f : Ctl → Ctl) : cx.Only s (Machine.modCtl s cx.id f) := by
  obtain ⟨id, kind, acts, pc, line⟩ := cx
  cases id with
  | blk c sl => exact .modBlock rfl s _
  | sup c =>
    refine ⟨fun d sm _ => ?_, fun d hd => ?_, fun _ _ => rfl⟩
    · by_cases h : c = d
      · subst h; simp [Machine.modCtl, blockOf]
      · simp [Machine.modCtl, blockOf, coreOf_modCore_ne s _ h]
    · have h : c ≠ d := fun h => hd (by rw [h])
      simp [Machine.modCtl, coreOf_modCore_ne s _ h]
  | sys n =>
    refine ⟨fun _ _ _ => rfl, fun _ _ => rfl, fun m hm => ?_⟩
    have h : n ≠ m := fun h => hm (by rw [h])
    simp [Machine.modCtl, sysOf_modSys_ne s _ h]

/-- The bundle's captured line changed, in its block. -/
def Block.setLine (b : Block) (n : Nat) (l : Option (List W32)) : Block :=
  b.modExec fun e => { e with bundles := e.bundles.map fun u => if u.id == n then { u with line := l } else u }

theorem Block.setLine_find {b : Block} {n : Nat} {u : Bundle} (h : b.exec.bundles.find? (·.id == n) = some u) (l : Option (List W32)) :
    (b.setLine n l).exec.bundles.find? (·.id == n) = some { u with line := l } := by
  have keep : ((·.id == n) ∘ fun u : Bundle => if u.id == n then { u with line := l } else u) = (·.id == n) := by
    funext u
    simp only [Function.comp]
    split <;> rfl
  have hu : u.id == n := by simpa using List.find?_some h
  simp only [Block.setLine, Block.modExec, List.find?_map, keep, h, Option.map_some, hu, if_true]

/-- The line the current stream has captured is its own affair. -/
theorem setLine_keeps {s : State} {cx : Cx} (h : cxOf s = some cx) (l : Option (List W32)) :
    (setLine s l).mem = s.mem ∧ cx.Only s (setLine s l) ∧ cx.RegsSame s (setLine s l) := by
  have ofCtl : setLine s l = modCtl s cx.id (fun k => { k with line := l }) →
      (setLine s l).mem = s.mem ∧ cx.Only s (setLine s l) ∧ cx.RegsSame s (setLine s l) := fun e => by
    rw [e]
    exact ⟨by cases cx.id <;> rfl, .modCtl .., .modCtl _ _ _ (fun _ => rfl) fun _ => rfl⟩
  obtain ⟨c, sl, n, b, u, hcur, -, -, -, rfl⟩ | ⟨c, sl, b, hcur, -, -, rfl⟩ | ⟨c, hcur, rfl⟩ | ⟨n, hcur, rfl⟩ := cxOf_cases h
  · have e : setLine s l = modBlock s c sl fun b => b.setLine n l := by simp only [setLine, hcur]; rfl
    rw [e]
    exact ⟨rfl, .modBlock rfl s _, .modBlock _ s c sl _ (fun _ => rfl) (fun _ => rfl) fun _ _ => ⟨rfl, rfl⟩⟩
  all_goals exact ofCtl (by simp only [setLine, hcur])

/-- The current stream has captured the line, and stands where it stood. -/
theorem cxOf_setLine {s : State} {cx : Cx} (h : cxOf s = some cx) (l : Option (List W32)) :
    cxOf (setLine s l) = some { cx with line := l } := by
  obtain ⟨c, sl, n, b, u, hcur, hb, hm, hu, rfl⟩ | ⟨c, sl, b, hcur, hb, hm, rfl⟩ | ⟨c, hcur, rfl⟩ | ⟨n, hcur, rfl⟩ := cxOf_cases h
  · have e : setLine s l = modBlock s c sl fun b => b.setLine n l := by simp only [setLine, hcur]; rfl
    have hm' : (b.setLine n l).exec.model = .threaded := hm
    simp only [e, cxOf, modBlock_cur, hcur, blockOf_modBlock_self, hb, Option.map_some, Option.bind_some, hm', Block.setLine_find hu]
    rfl
  · simp [cxOf, setLine, hcur, modCtl, hb, hm]
  · simp [cxOf, setLine, hcur, modCtl]
  · simp [cxOf, setLine, hcur, modCtl]

end Sys2Proof.Machine
end

/-! ## The step (R49, R85 to R90)

`issue` of a stream whose bytes are fetched is `exec` of what they decode to; `step` is `issue`, the issue unit of a core, or
an event. -/
section
namespace Sys2Proof.Machine

theorem parcelBytes_eq (p : W32) : valBytes 4 p.toNat = parcelBytes p := by
  have byte : ∀ k, BitVec.ofNat 8 (p.toNat / 2 ^ k) = p.extractLsb' k 8 := fun k => by
    apply BitVec.eq_of_toNat_eq
    simp [Nat.shiftRight_eq_div_pow]
  simp only [valBytes, parcelBytes, ← byte, Nat.div_div_eq_div_mul]
  simp

/-- The bytes of a stream that has captured its line. -/
theorem fetchBytes_captured {s : State} {cx : Cx} {l : List W32} (h : cx.line = some l) :
    fetchBytes s cx = (s, some (Claims.parcels (l.drop (cx.pc.toNat / 4 % 32)))) := by
  simp only [fetchBytes, h, Option.map_some, parcelBytes_eq, Claims.parcels]

theorem issue_of_fetch {u v : State} {cx : Cx} {bs : List Byte} {i : Instr} {rest : List Byte} (hcx : cxOf u = some cx)
    (hi : canIssue u cx = true) (hf : fetchBytes u cx = (v, some bs)) (hd : decode bs = .ok (i, rest)) :
    issue u = Claims.issueOf u v cx i := by
  simp only [issue, hcx, hi, hf, hd, Claims.issueOf]
  rfl

theorem issue_idle {u : State} {cx : Cx} (hcx : cxOf u = some cx) (hi : canIssue u cx = false) : issue u = .next u := by
  simp [issue, hcx, hi]

/-- A stream that has captured no line can enter the one memory holds at its PC: no rule of R63, R88 or R89 is against it. -/
structure Cx.CanEnter (cx : Cx) (u : State) (pa : Nat) : Prop where
  unsealed : ∀ b, cx.blk u = some b → isSealed u b = false
  mapped : translate u cx.id (spaceOf u cx.id).1 (spaceOf u cx.id).2 (cx.pc.toNat / 128 * 128) 3 = .ok pa
  package : isPackage pa = true
  served : unserved u pa = false
  cold : ColdLine u cx.id (pa / 128)
  check : lineCheck (lineAt u pa) = none
  aligned : cx.pc.toNat % 4 = 0
  notHandler : ∀ b, cx.blk u = some b → b.regs.trapvec ≠ cx.pc
  inLine : 2 ≤ cx.pc.toNat / 4 % 32
  start : ((lineAt u pa).headD 0).getLsbD (cx.pc.toNat / 4 % 32 - 2) = true

theorem enterLine_canEnter {u : State} {cx : Cx} {pa : Nat} (hcx : cxOf u = some cx) (h : cx.CanEnter u pa) :
    ∃ v, enterLine u cx = (v, some (lineAt u pa)) ∧ v.mem = u.mem ∧ cx.Only u v ∧ cx.SameRegs u v ∧
      cxOf v = some { cx with line := some (lineAt u pa) } := by
  obtain ⟨t, ht, kt⟩ := readLine_cold h.mapped h.package h.served h.cold
  have hcxt : cxOf t = some cx := kt.cxOf_eq.trans hcx
  have hs := setLine_keeps hcxt (some (lineAt u pa))
  refine ⟨setLine t (some (lineAt u pa)), ?_, hs.1.trans kt.mem, (kt.only rfl).trans hs.2.1, ((kt.regsSame cx).trans hs.2.2).same,
    cxOf_setLine hcxt _⟩
  have noHandler : ∀ q : Block → Bool, ((cx.blk t).any fun b => b.regs.trapvec == cx.pc && q b) = false := fun q => by
    cases hb : cx.blk t with
    | none => rfl
    | some b' =>
      have e : (cx.blk u).map (·.regs) = some b'.regs := by rw [← kt.map_blk cx (·.regs) fun _ => rfl, hb]; rfl
      obtain ⟨b, hb', hr⟩ := Option.map_eq_some_iff.mp e
      simp [← hr, h.notHandler b hb']
  unfold enterLine
  simp only [ht, h.check, noHandler, Bool.false_and, Bool.false_eq_true, if_false, h.aligned, h.start]
  rw [if_neg]
  · simp [h.inLine]
  · cases hb : cx.blk u with
    | none => simp
    | some b => simp [h.unsealed b hb]

/-- The first step of a stream that cannot go on from a captured line: it enters its line and runs the instruction. -/
theorem issue_entering {u : State} {cx : Cx} {pa : Nat} {i : Instr} {rest : List Byte} (hcx : cxOf u = some cx) (hi : canIssue u cx = true)
    (hline : cx.line = none) (h : cx.CanEnter u pa)
    (hd : decode (Claims.parcels ((lineAt u pa).drop (cx.pc.toNat / 4 % 32))) = .ok (i, rest)) :
    ∃ v, v.mem = u.mem ∧ cx.Only u v ∧ cx.SameRegs u v ∧ cxOf v = some { cx with line := some (lineAt u pa) } ∧
      issue u = Claims.issueOf u v cx i := by
  obtain ⟨v, hv, mem, only, regs, here⟩ := enterLine_canEnter hcx h
  refine ⟨v, mem, only, regs, here, issue_of_fetch hcx hi ?_ hd⟩
  simp only [fetchBytes, hline, hv, Option.map_some, parcelBytes_eq, Claims.parcels]

/-- The turns by which the current stream of `u` issues: an empty agenda, or the turn of a stream of no lane. -/
theorem step_issue {s u : State}
    (h : s.agenda = [] ∧ u = s ∨ ∃ i r, s.agenda = .issue i :: r ∧ laneOf { s with agenda := r } i = none ∧ u = { s with agenda := r, cur := i }) :
    step s = issue u := by
  obtain ⟨ha, rfl⟩ | ⟨i, r, ha, hl, rfl⟩ := h
  · simp only [step, ha]
  · simp only [step, ha, hl]

theorem step_lane {s : State} {c : Nat} {r : List Turn} (h : s.agenda = .lane c :: r) : step s = lane { s with agenda := r } c := by
  simp only [step, h]

/-- The turn of a stream of a lane is the turn of its core's issue unit. -/
theorem step_issue_lane {s : State} {i : Issuer} {c : Nat} {r : List Turn} (h : s.agenda = .issue i :: r)
    (hl : laneOf { s with agenda := r } i = some c) : step s = step { s with agenda := .lane c :: r } := by
  simp only [step, h, hl]

theorem step_event {s t : State} {i : Instr} {r : List Turn} (h : s.agenda = .event i :: r) (he : exec i { s with agenda := r } = .next t) :
    step s = .next (afterEvent { s with agenda := r } i t) := by
  simp only [step, h, he]

/-- The first stream of the order that issues is the one the issue unit issues. -/
theorem lane_first {s t : State} {c : Nat} {i : Issuer} {rest : List Issuer} {cx : Cx} (hu : laneUsed s c = false)
    (ho : issueOrder s c = i :: rest) (hcx : cxOf { s with cur := i } = some cx) (hi : issue { s with cur := i } = .next t)
    (hd : issued s t cx = true) : lane s c = .next t := by
  simp [lane, hu, ho, issueFirst, hcx, hi, hd]

/-! ## After an issue (R407, R424, R425) -/

/-- A place that is no block has no account, so that only its fills are laid to it. -/
theorem blame_noBlock (s0 t : State) {id : CtxId} (h : ∀ c sl, id ≠ .blk c sl) : { blame s0 t (some id) with fills := t.fills } = t := by
  have account : acctOf s0 (some id) = none := by
    cases id with
    | blk c sl => exact absurd rfl (h c sl)
    | sup c => rfl
    | sys n => rfl
  have moved : chargeMoved s0 t (some id) none = t := by
    cases id <;> simp [chargeMoved, chargeFill]
  simp only [blame, account, moved]
  split <;> rfl

theorem afterIssue_noBlock (s0 t : State) {cx : Cx} (h : ∀ c sl, cx.id ≠ .blk c sl) : { afterIssue s0 t cx with fills := t.fills } = t := by
  have e : afterIssue s0 t cx = blame s0 t (some cx.id) := by
    obtain ⟨id, kind, acts, pc, line⟩ := cx
    cases id with
    | blk c sl => exact absurd rfl (h c sl)
    | sup c => simp [afterIssue, noteIssue, Cx.modBlk]
    | sys n => simp [afterIssue, noteIssue, Cx.modBlk]
  rw [e, blame_noBlock s0 t h]

/-- A thread after a change of threads. -/
theorem threadOf_modThreads (b : Block) (ts : List Nat) (f : Nat → Thread → Thread) (l : Nat) :
    threadOf (b.modThreads ts f) l = if l ∈ ts ∧ l < b.exec.threads.length then f l (threadOf b l) else threadOf b l := by
  by_cases hl : l < b.exec.threads.length
  · by_cases hm : l ∈ ts <;> simp [threadOf, Block.modThreads, Block.modExec, hl, hm]
  · simp [threadOf, Block.modThreads, Block.modExec, hl]

/-- The clock of R49 and the counts of R246 are no part of where a stream stands. -/
theorem noteIssue_block {s0 s : State} {cx : Cx} {c sl : Nat} {b : Block} (hid : cx.id = .blk c sl) (hb : blockOf s c sl = some b) :
    (noteIssue s0 s cx).mem = s.mem ∧ ∃ b', blockOf (noteIssue s0 s cx) c sl = some b' ∧ b'.mem = b.mem ∧ b'.regs = b.regs ∧
      b'.phase = b.phase ∧ ∀ l, b'.at l = b.at l := by
  unfold noteIssue
  split
  · exact ⟨rfl, b, hb, rfl, rfl, rfl, fun _ => rfl⟩
  · simp only [Cx.modBlk, hid, modBlock_mem, blockOf_modBlock_self, hb, Option.map_some, true_and]
    refine ⟨_, rfl, rfl, rfl, rfl, fun l => ?_⟩
    simp only [Block.at, threadOf_modThreads]
    by_cases h : l ∈ (if cx.isT then cx.acts else []) ∧ l < b.exec.threads.length
    · simp only [h]; rfl
    · simp only [h]; rfl

/-- A running block without debugger is left running where it stands. -/
theorem afterIssue_block {s0 t : State} {cx : Cx} {c sl : Nat} {b : Block} (hid : cx.id = .blk c sl) (hb : blockOf t c sl = some b)
    (hp : b.phase = .running) (hd : b.regs.dbgctl = 0) :
    (afterIssue s0 t cx).mem = t.mem ∧ ∃ b', blockOf (afterIssue s0 t cx) c sl = some b' ∧ b'.mem = b.mem ∧ b'.regs = b.regs ∧
      b'.phase = .running ∧ ∀ l, b'.at l = b.at l := by
  have charged := Undisturbed.blame cx.id s0 t
  obtain ⟨b1, hb1, e1⟩ := charged.block hb
  obtain ⟨mem, b2, hb2, hm, hr, hph, hat⟩ := noteIssue_block (s0 := s0) hid hb1
  generalize hu : noteIssue s0 (blame s0 t (some cx.id)) cx = u at *
  have running : b2.phase = .running := by rw [hph, e1, hp]
  have noStep : stepStop u cx c sl = u := by
    have : b2.regs.dbgctl = 0 := by rw [hr, e1, hd]
    simp [stepStop, hb2, this]
  have noStop : settleStop u c sl = u := by simp [settleStop, hb2, running]
  have e : afterIssue s0 t cx = u := by
    rw [hid] at hu
    simp only [afterIssue, hid, hu, noStep, noStop]
  rw [e]
  exact ⟨mem.trans charged.mem, b2, hb2, by rw [hm, e1], by rw [hr, e1], running, fun l => by rw [hat l, e1]; rfl⟩

end Sys2Proof.Machine

open Sys2Proof Sys2Proof.Machine Sys2Proof.Claims in
/-- Settles O56: the step is `issue`, the issue unit or an event, and `issue` is `exec` of what the captured or entered line decodes to. -/
theorem stepRunsDecodedInstruction : Obligations.StepRunsDecodedInstruction := by
  unfold Obligations.StepRunsDecodedInstruction
  refine ⟨fun s u cx turn hcx => ?_, fun s c r => ⟨fun i => step_issue_lane, fun ha hu => ?_, fun i rest cx t ha hu ho hcx hi hd => ?_⟩,
    fun s i r t => step_event, fun s0 t cx => afterIssue_noBlock s0 t, fun s0 t cx c sl b => afterIssue_block⟩
  · rw [step_issue turn]
    refine ⟨issue_idle hcx, fun hi l i rest hl => issue_of_fetch hcx hi (fetchBytes_captured hl), ?_⟩
    intro hi pa i rest hline unsealed l j mapped package _ served frame rdc icache calm path check aligned notHandler inLine start hd
    exact issue_entering hcx hi hline ⟨unsealed, mapped, package, served,
      ⟨calm.owners _, calm.poison _, frame, rdc, icache, path⟩, check, aligned, notHandler, inLine, start⟩ hd
  · simp [step_lane ha, lane, hu]
  · rw [step_lane ha, lane_first hu ho hcx hi hd]
end

/-! ## Threads that go on (R50, R51, R87)

What completing an instruction and regrouping do to the threads of a block: they stay as many and as live as they were, a wait
ends or stays, and only the threads that complete move on. -/
section
namespace Sys2Proof.Machine

/-- From `b` to `b'` threads may have completed and left their bundles; of those that moved on each is in `acts`. -/
structure Block.Onward (acts : List Nat) (b b' : Block) : Prop where
  model : b'.exec.model = b.exec.model
  count : b'.exec.threads.length = b.exec.threads.length
  live : ∀ l, (threadOf b' l).live = (threadOf b l).live
  wait : ∀ l, (threadOf b' l).wait = (threadOf b l).wait ∨ (threadOf b' l).wait = 0
  pc : ∀ l, l ∉ acts → (threadOf b' l).pc = (threadOf b l).pc

namespace Block.Onward

variable {acts : List Nat} {a b c : Block}

/-- A change that keeps the threads. -/
theorem of_threads (hm : b.exec.model = a.exec.model) (ht : b.exec.threads = a.exec.threads) : a.Onward acts b := by
  constructor <;> intros <;> simp_all [threadOf]

theorem refl (acts : List Nat) (b : Block) : b.Onward acts b := of_threads rfl rfl

theorem trans (h : a.Onward acts b) (k : b.Onward acts c) : a.Onward acts c where
  model := k.model.trans h.model
  count := k.count.trans h.count
  live l := (k.live l).trans (h.live l)
  wait l := (k.wait l).elim (fun e => by rw [e]; exact h.wait l) .inr
  pc l hl := (k.pc l hl).trans (h.pc l hl)

theorem mono {acts' : List Nat} (h : a.Onward acts b) (hs : ∀ l ∈ acts, l ∈ acts') : a.Onward acts' b :=
  ⟨h.model, h.count, h.live, h.wait, fun l hl => h.pc l fun hm => hl (hs l hm)⟩

/-- A change of threads that leaves them alive, ends no wait but by zero, and moves only threads of `acts`. -/
theorem modThreads (b : Block) (ts : List Nat) (f : Nat → Thread → Thread) (hl : ∀ l x, (f l x).live = x.live)
    (hw : ∀ l x, (f l x).wait = x.wait ∨ (f l x).wait = 0) (hp : ∀ l ∈ ts, l ∉ acts → ∀ x, (f l x).pc = x.pc) :
    b.Onward acts (b.modThreads ts f) where
  model := rfl
  count := by simp [Block.modThreads, Block.modExec]
  live l := by rw [threadOf_modThreads]; split <;> simp [hl]
  wait l := by
    rw [threadOf_modThreads]
    split
    · exact hw _ _
    · exact .inl rfl
  pc l hn := by
    rw [threadOf_modThreads]
    split
    · rename_i h; exact hp l h.1 hn _
    · rfl

theorem leave (b : Block) (ts : List Nat) (n : Nat) : b.Onward acts (b.leave ts n) := by
  have h : b.Onward acts (b.modThreads ts fun _ t => { t with freeAt := n, latches := [], line := none }) :=
    modThreads b ts _ (fun _ _ => rfl) (fun _ _ => .inl rfl) fun _ _ _ _ => rfl
  exact h.trans (of_threads rfl rfl)

theorem settleBundle (b : Block) (id n : Nat) : b.Onward acts (b.settleBundle id n) := by
  simp only [Block.settleBundle]
  split
  · exact refl acts b
  · split
    · exact refl acts b
    · split
      · exact refl acts b
      · split
        · exact of_threads rfl rfl
        · exact leave b _ n

theorem foldl {α : Type} (f : Block → α → Block) (l : List α) (hf : ∀ (b : Block), ∀ x ∈ l, b.Onward acts (f b x)) (b : Block) :
    b.Onward acts (l.foldl f b) := by
  induction l generalizing b with
  | nil => exact refl acts b
  | cons x r ih => exact (hf b x (by simp)).trans (ih (fun b y hy => hf b y (by simp [hy])) _)

theorem settleAll (b : Block) (n : Nat) : b.Onward acts (b.settleAll n) :=
  foldl (fun (b : Block) (u : Bundle) => b.settleBundle u.id n) _ (fun b u _ => settleBundle b u.id n) b

theorem completeThreads (b : Block) (who : List Nat) (tr : Bool) (e : Nat → Latch) (nx : VAddr) (n : Nat) :
    b.Onward who ((who.foldl (fun b t => b.completeThread t tr (e t) nx) b).settleAll n) := by
  refine (foldl (fun (b : Block) (t : Nat) => b.completeThread t tr (e t) nx) who (fun b t ht => ?_) b).trans (settleAll _ n)
  exact modThreads b [t] (fun _ x => x.complete tr (e t) nx) (fun _ _ => rfl) (fun _ _ => .inr rfl) fun l hl hn =>
    absurd (List.mem_singleton.mp hl ▸ ht) hn

theorem liveThreads (h : a.Onward acts b) : b.liveThreads = a.liveThreads := by
  simp only [Block.liveThreads, h.count, h.live]

end Block.Onward

theorem Block.modThreads_length (b : Block) (ts : List Nat) (f : Nat → Thread → Thread) :
    (b.modThreads ts f).exec.threads.length = b.exec.threads.length := by simp [Block.modThreads, Block.modExec]

/-! ## Entering with every operand there, in more detail

`Cx.start_enters` says what no register and nothing outside sees; of the stream's own place, the threads whose guard is false
complete. -/

/-- Counting an issue is no part of a stream. -/
theorem Cx.counted_exec (cx : Cx) (s : State) (d : Dec) (n : Nat) {b : Block} (hb : cx.blk s = some b) :
    ∃ b', cx.blk (cx.counted s d n) = some b' ∧ b'.exec = b.exec := by
  obtain ⟨id, kind, acts, pc, line⟩ := cx
  cases id with
  | blk c sl =>
    have hb' : blockOf s c sl = some b := hb
    unfold Cx.counted
    split
    · exact ⟨b, hb, rfl⟩
    · split
      · simp [Cx.countMma, Cx.blk, energyBlock, hb', Block.addMeter]
      · simp [Cx.count, Cx.blk, energyBlock, hb', Block.addMeter]
  | sup c => cases hb
  | sys n => cases hb

/-- The acting lanes of an instruction a stream stands at are those of its operands. -/
theorem Stands.acting {s : State} {cx : Cx} {d : Dec} {rs : List (Nat × List Nat)} (h : Stands s cx d rs) :
    ((cx.lanes s d).filter fun l => cx.pbit s d.p.grd.toNat l) = rs.map (·.1) := by
  have e := congrArg (List.map Prod.fst) h.reads
  simpa [Function.comp_def] using e

/-- With every operand there, what `Cx.start` does turns on the guard alone. -/
theorem Cx.start_stands {s : State} {cx : Cx} {d : Dec} {rs : List (Nat × List Nat)} (h : Stands s cx d rs)
    (k : State → List (Nat × List Nat) → State) :
    cx.start s d k =
      if cx.isT then k (cx.finish (cx.counted s d rs.length) d (cx.acts.filter fun t => !(rs.map (·.1)).contains t) fun _ => {}) rs
      else if rs.isEmpty && !d.perElem then cx.finish (cx.counted s d rs.length) d [0] fun _ => {}
      else k (cx.counted s d rs.length) rs := by
  simp only [Cx.start, h.legal]
  rw [h.reads, reads_good _ (fun _ _ => rfl) rs, reads_none _ _ (by simp), reads_none _ _ (by simp), reads_noPend, h.acting]
  simp only [List.map_nil, List.isEmpty_nil, Bool.not_true, Bool.false_eq_true, if_false, List.isEmpty_map]
  by_cases hT : cx.isT = true
  · obtain ⟨c, sl, hid⟩ := cxOf_T h.here (by simpa [Cx.isT] using hT)
    simp only [hT, if_true, Cx.raise_nil cx _ _ _ ⟨c, sl, hid⟩]
    rfl
  · have noInvalid : (d.srcs.mapIdx (fun i x => 64 ≤ x.n && x.n < 72 && cx.read s d.imm i 0 x == .inval)).any (· == true) = false := by
      rw [List.any_eq_false]
      intro b hb
      obtain ⟨i, hi, rfl⟩ := List.mem_mapIdx.mp hb
      have := h.latches (by simpa using hT) i d.srcs[i] (by simp [hi])
      by_cases h1 : 64 ≤ d.srcs[i].n <;> by_cases h2 : d.srcs[i].n < 72 <;> simp_all [isLatchSpec]
    simp only [hT, if_false, noInvalid, Bool.false_eq_true]
    rfl

/-- A control stream whose guard holds goes to its effect with nothing done but the count. -/
theorem Cx.start_stands_ctl {s : State} {cx : Cx} {d : Dec} {rs : List (Nat × List Nat)} (h : Stands s cx d rs) (hT : cx.kind ≠ .T)
    (hrs : rs ≠ []) (k : State → List (Nat × List Nat) → State) : cx.start s d k = k (cx.counted s d rs.length) rs := by
  have ht : cx.isT = false := by simpa [Cx.isT] using hT
  simp [Cx.start_stands h, ht, hrs]

/-- Threads that complete go on, and nobody else. -/
theorem Cx.finish_onward {cx : Cx} {s : State} {d : Dec} {who : List Nat} {e : Nat → Latch} {b : Block} {c sl : Nat} (hT : cx.kind = .T)
    (hid : cx.id = .blk c sl) (goes : (fallNext cx.line cx.pc d.len).2 = false) (hb : cx.blk s = some b) :
    ∃ b', cx.blk (cx.finish s d who e) = some b' ∧ b.Onward who b' := by
  have ht : cx.isT = true := by simpa [Cx.isT] using hT
  have hr : cx.retire s = s := by simp [Cx.retire, hid]
  have hb' : blockOf s c sl = some b := by simpa [Cx.blk, hid] using hb
  by_cases hw : who.isEmpty
  · exact ⟨b, by simp [Cx.finish, hw, hb], .refl _ b⟩
  · refine ⟨_, ?_, Block.Onward.completeThreads b who d.transparent e (fallNext cx.line cx.pc d.len).1 s.cycle⟩
    have run : cx.finish s d who e = modBlock s c sl fun b =>
        (who.foldl (fun b t => b.completeThread t d.transparent (e t) (fallNext cx.line cx.pc d.len).1) b).settleAll s.cycle := by
      simp only [Cx.finish, hw, goes, hid, ht, hr, Bool.false_eq_true, if_false, if_true]
    simp only [run, Cx.blk, hid, blockOf_modBlock_self, hb', Option.map_some]

/-- Threads whose guard holds go to their effect once the others have completed. -/
theorem Cx.start_stands_T {s : State} {cx : Cx} {d : Dec} {rs : List (Nat × List Nat)} {b : Block} (h : Stands s cx d rs) (hT : cx.kind = .T)
    (hb : cx.blk s = some b) :
    ∃ s' b', (∀ k, cx.start s d k = k s' rs) ∧ cx.RegsSame s s' ∧ cx.Keeps s s' ∧ cx.blk s' = some b' ∧ b.Onward cx.acts b' := by
  have ht : cx.isT = true := by simpa [Cx.isT] using hT
  obtain ⟨c, sl, hid⟩ := cxOf_T h.here hT
  have counted := cx.counted_keeps s d rs.length
  obtain ⟨b1, hb1, e1⟩ := cx.counted_exec s d rs.length hb
  have on1 : b.Onward cx.acts b1 := .of_threads (by rw [e1]) (by rw [e1])
  have run := Cx.start_stands h
  simp only [ht, if_true] at run
  generalize ho : (cx.acts.filter fun t => !(rs.map (·.1)).contains t) = others at run
  obtain hemp | hemp := Decidable.em (others = [])
  · exact ⟨_, b1, run, by simpa [Cx.finish, hemp] using counted.1, by simpa [Cx.finish, hemp] using counted.2,
      by simpa [Cx.finish, hemp] using hb1, on1⟩
  · have goes : (fallNext cx.line cx.pc d.len).2 = false := h.goes.resolve_right fun ⟨_, hall⟩ =>
      hemp (by rw [← ho]; simpa using hall)
    have fin := cx.finish_keeps (cx.counted s d rs.length) d others (fun _ => {}) goes
    obtain ⟨b2, hb2, on2⟩ := Cx.finish_onward (who := others) (e := fun _ => {}) hT hid goes hb1
    refine ⟨_, b2, run, counted.1.trans fin.1, counted.2.trans fin.2, hb2, on1.trans (on2.mono fun l hl => ?_)⟩
    rw [← ho] at hl
    exact (List.mem_filter.mp hl).1

end Sys2Proof.Machine
end

/-! ## EXIT (R248, R249) -/
section
namespace Sys2Proof.Machine

/-- The block once threads have exited, as `exitThreads` makes it. -/
def Block.exited (ts : List Nat) (cycle : Nat) (b : Block) : Block :=
  let b := (b.leave ts cycle).modThreads ts fun _ x => { x with live := false, handler := false, wait := 0, wdog := 0, line := none, capt := [] }
  let b := b.settleAll cycle
  if b.busy then b else b.modThreads (List.range b.nthr) fun _ x => if x.wait == 11 then { x with wait := 0 } else x

/-- An exited thread is dead; the others stay alive, wait at most, and stand where they stood. -/
structure Block.Exited (ts : List Nat) (b b' : Block) : Prop where
  model : b'.exec.model = b.exec.model
  live : b'.liveThreads = b.liveThreads.filter fun l => !ts.contains l
  wait : ∀ l, l ∉ ts → (threadOf b' l).wait = (threadOf b l).wait ∨ (threadOf b' l).wait = 0
  pc : ∀ l, l ∉ ts → (threadOf b' l).pc = (threadOf b l).pc

theorem Block.liveThreads_kill (b : Block) (ts : List Nat) (f : Nat → Thread → Thread) (hf : ∀ l x, (f l x).live = false) :
    (b.modThreads ts f).liveThreads = b.liveThreads.filter fun l => !ts.contains l := by
  simp only [Block.liveThreads, Block.modThreads_length, List.filter_filter]
  refine List.filter_congr fun l hl => ?_
  rw [threadOf_modThreads]
  by_cases h : l ∈ ts
  · simp [h, List.mem_range.mp hl, hf]
  · simp [h]

theorem Block.exited_exited (ts : List Nat) (n : Nat) (b : Block) : Block.Exited ts b (b.exited ts n) := by
  have left : b.Onward [] (b.leave ts n) := .leave b ts n
  generalize hk : (b.leave ts n).modThreads ts (fun _ x => { x with live := false, handler := false, wait := 0, wdog := 0, line := none, capt := [] }) = k
  have kept : ∀ l, l ∉ ts → threadOf k l = threadOf (b.leave ts n) l := fun l hl => by
    rw [← hk, threadOf_modThreads, if_neg fun h => hl h.1]
  have after : k.Onward [] (b.exited ts n) := by
    have settled : k.Onward [] (k.settleAll n) := .settleAll k n
    simp only [Block.exited, hk]
    split
    · exact settled
    · refine settled.trans (.modThreads _ _ _ (fun l x => ?_) (fun l x => ?_) fun l _ _ x => ?_)
      all_goals split <;> simp
  constructor
  · rw [after.model, ← hk]; exact left.model
  · rw [after.liveThreads, ← hk, Block.liveThreads_kill _ _ _ fun _ _ => rfl, left.liveThreads]
  · intro l hl
    have := after.wait l
    rw [kept l hl] at this
    rcases this with h | h
    · rw [h]; exact left.wait l
    · exact .inr h
  · intro l hl
    rw [after.pc l (by simp), kept l hl, left.pc l (by simp)]

theorem Block.exited_sameButExec (ts : List Nat) (n : Nat) (b : Block) : b.sameButExec (b.exited ts n) := by
  simp only [Block.exited]
  generalize hk : (b.leave ts n).modThreads ts (fun _ x => { x with live := false, handler := false, wait := 0, wdog := 0, line := none, capt := [] }) = k
  have hbk : b.sameButExec k := by
    rw [← hk]
    exact Block.sameButExec_trans (b.leave_sameButExec ts n) (Block.modThreads_sameButExec _ _ _)
  have hs := Block.sameButExec_trans hbk (Block.settleAll_sameButExec k n)
  split
  · exact hs
  · exact Block.sameButExec_trans hs (Block.modThreads_sameButExec _ _ _)

/-- With no signature in any register no round is at its end (R220). -/
theorem endRounds_unsigned {s : State} {c : Nat} (h : ∀ n, (cvOf s c n).signs = []) (sl : Nat) : endRounds s c sl = s := by
  have one : ∀ n, endRound s c sl n = s := fun n => by
    unfold endRound
    split
    · rfl
    · simp [h n]
  unfold endRounds
  induction List.range 16 with
  | nil => rfl
  | cons n r ih => rw [List.foldl_cons, one, ih]

/-- A stream that does not wait at EP, GROW or SHRINK holds the block-wide wait up (R60). -/
theorem blockWait_held {s : State} {c sl : Nat} {b : Block} (hb : blockOf s c sl = some b)
    (h : ∃ l ∈ b.streams, b.waitOf l ≠ 6 ∧ b.waitOf l ≠ 7) : blockWait s c sl = s := by
  obtain ⟨l, hl, h6, h7⟩ := h
  have : (b.streams.map b.waitOf).all (fun w => w == 6 || w == 7) = false := by
    rw [List.all_eq_false]
    exact ⟨b.waitOf l, List.mem_map_of_mem hl, by simp [h6, h7]⟩
  simp [blockWait, hb, this]

/-- A block in an open region finishes at once (R249). -/
theorem finishBlock_open {s : State} {c sl : Nat} {b : Block} (hb : blockOf s c sl = some b) (ho : isSealed s b = false) :
    finishBlock s c sl = modBlock s c sl fun b => ({ b with phase := .finished } : Block).modCtl fun x => { x with done := true } := by
  simp [finishBlock, hb, ho]

/-! ### What `Cx.Keeps` says of memory, the other places and the stream's block -/

theorem Cx.Keeps.mem_eq {cx : Cx} {s t : State} (h : cx.Keeps s t) : t.mem = s.mem := by
  have e := congrArg State.mem h.package
  exact e
theorem Cx.Keeps.objects_eq {cx : Cx} {s t : State} (h : cx.Keeps s t) : t.objects = s.objects := by
  have e := congrArg State.objects h.package
  exact e
theorem Cx.Keeps.cvOf_eq {cx : Cx} {s t : State} (h : cx.Keeps s t) (c n : Nat) : cvOf t c n = cvOf s c n := by
  have e := congrArg Core.cvs (h.cores c)
  exact congrArg (fun l => Table.getD l n {}) e
theorem Cx.Keeps.only {cx : Cx} {s t : State} (h : cx.Keeps s t) : cx.Only s t :=
  ⟨h.blocks, h.sups, fun n hn => congrArg SysCore.ctl (h.syss n hn)⟩

theorem Cx.Keeps.block {cx : Cx} {s t : State} {b b' : Block} (h : cx.Keeps s t) (hb : cx.blk s = some b) (hb' : cx.blk t = some b') :
    ({ b' with exec := {}, mem := {}, regs := {}, charges := {}, meters := [] } : Block) =
      { b with exec := {}, mem := {}, regs := {}, charges := {}, meters := [] } := by
  have e := h.ownBlk
  rw [hb, hb'] at e
  exact Option.some.inj e

theorem isSealed_congr {s t : State} {b b' : Block} (ho : t.objects = s.objects) (hb : b'.obj = b.obj) (hr : b'.region = b.region) :
    isSealed t b' = isSealed s b := by
  simp only [isSealed, regionOf, objOf, ho, hb, hr]

theorem Cx.Keeps.isSealed_eq {cx : Cx} {s t : State} {b b' : Block} (h : cx.Keeps s t) (hb : cx.blk s = some b) (hb' : cx.blk t = some b') :
    isSealed t b' = isSealed s b := by
  have obj := congrArg Block.obj (h.block hb hb')
  have region := congrArg Block.region (h.block hb hb')
  exact isSealed_congr h.objects_eq obj region

theorem signedRegs_unsigned {s : State} {c : Nat} (h : ∀ n, (cvOf s c n).signs = []) (b : Block) (t : Nat) : signedRegs s c b t = [] := by
  simp [signedRegs, h]

/-- A finished block (R249). -/
def Block.finished (b : Block) : Block := ({ b with phase := .finished } : Block).modCtl fun x => { x with done := true }

theorem exitThreads_run {s t : State} {c sl : Nat} {b : Block} {ts : List Nat}
    (ht : endRounds (modBlock s c sl (Block.exited ts s.cycle)) c sl = t) (hb : blockOf t c sl = some b) :
    exitThreads s c sl ts = if b.liveThreads.isEmpty then finishBlock t c sl else blockWait t c sl := by
  unfold exitThreads
  extract_lets _ u
  have hu : u = t := ht
  clear_value u
  rw [hu, hb]

/-- Threads that exit in an open region with no signature out are dead, and the block finishes when none is left. -/
theorem exitThreads_open {s : State} {cx : Cx} {c sl : Nat} {b : Block} {ts : List Nat} (hid : cx.id = .blk c sl) (hT : cx.kind = .T)
    (hb : blockOf s c sl = some b) (ho : isSealed s b = false) (hcv : ∀ n, (cvOf s c n).signs = []) (hm : b.exec.model = .threaded)
    (hl : (b.exited ts s.cycle).liveThreads = [] ∨
      ∃ l ∈ (b.exited ts s.cycle).liveThreads, (b.exited ts s.cycle).waitOf l ≠ 6 ∧ (b.exited ts s.cycle).waitOf l ≠ 7) :
    (exitThreads s c sl ts).mem = s.mem ∧ cx.Only s (exitThreads s c sl ts) ∧ cx.RegsSame s (exitThreads s c sl ts) ∧
      blockOf (exitThreads s c sl ts) c sl =
        some (if (b.exited ts s.cycle).liveThreads = [] then (b.exited ts s.cycle).finished else b.exited ts s.cycle) := by
  generalize hx : b.exited ts s.cycle = x at *
  generalize hu : modBlock s c sl (Block.exited ts s.cycle) = u
  have only : cx.Only s u := hu ▸ .modBlock hid s _
  have regs : cx.RegsSame s u := hu ▸ .modBlock cx s c sl _ (fun b => (b.exited_sameButExec ts _).mem_eq)
    (fun b => (b.exited_sameButExec ts _).regs_eq) fun h => absurd hT h
  have here : blockOf u c sl = some x := by simp [← hu, hb, hx]
  have rounds : endRounds u c sl = u := endRounds_unsigned (fun n => by simpa [← hu, cvOf] using hcv n) sl
  have stays : x.exec.model = .threaded := by rw [← hx, (b.exited_exited ts s.cycle).model, hm]
  have run : exitThreads s c sl ts = if x.liveThreads.isEmpty then finishBlock u c sl else blockWait u c sl :=
    exitThreads_run (by rw [hu, rounds]) here
  by_cases hnone : x.liveThreads = []
  · have openU : isSealed u x = false := by
      have same : b.sameButExec x := hx ▸ b.exited_sameButExec ts s.cycle
      rw [isSealed_congr (s := s) (b := b) (by rw [← hu]; rfl) (by rw [same]) (by rw [same])]
      exact ho
    have done : exitThreads s c sl ts = modBlock u c sl Block.finished := by
      rw [run, finishBlock_open here openU]
      simp [hnone]
      rfl
    rw [done]
    refine ⟨by rw [← hu]; rfl, only.trans (.modBlock hid u _), regs.trans (.modBlock cx u c sl _ (fun _ => rfl) (fun _ => rfl) fun h => absurd hT h), ?_⟩
    simp [here, hnone]
  · have waits : exitThreads s c sl ts = u := by
      rw [run]
      simp only [List.isEmpty_iff, hnone, if_false]
      exact blockWait_held here (by simpa [Block.streams, stays] using hl.resolve_left hnone)
    rw [waits]
    exact ⟨by rw [← hu]; rfl, only, regs, by simp [here, hnone]⟩

/-- A stream of kind T is a bundle of a threaded block. -/
theorem cxOf_threaded {s : State} {cx : Cx} {b : Block} (h : cxOf s = some cx) (hT : cx.kind = .T) (hb : cx.blk s = some b) :
    ∃ c sl, cx.id = .blk c sl ∧ blockOf s c sl = some b ∧ b.exec.model = .threaded := by
  obtain ⟨c, sl, n, b0, u, -, hb0, hm, -, rfl⟩ | ⟨c, sl, b0, -, -, hm, rfl⟩ | ⟨c, -, rfl⟩ | ⟨n, -, rfl⟩ := cxOf_cases h
  · have e : some b0 = some b := hb0.symm.trans hb
    exact ⟨c, sl, rfl, hb, Option.some.inj e ▸ hm⟩
  · cases e : b0.exec.model <;> simp_all [Model.kind]
  · cases hT
  · cases hT

/-- EXIT of a bundle (R248). -/
theorem exit_threads (o : KOp) (s : State) (cx : Cx) (rs : List (Nat × List Nat)) (b : Block) (h : Stands s cx (exitDec o) rs) (hT : cx.kind = .T)
    (hrs : rs ≠ []) (hb : cx.blk s = some b) (ho : isSealed s b = false) (hp : b.phase = .running) (hcv : ∀ n, (cvOf s cx.core n).signs = [])
    (hl : (b.liveThreads.filter fun l => !(rs.map (·.1)).contains l) = [] ∨
      ∃ l ∈ b.liveThreads.filter fun l => !(rs.map (·.1)).contains l, b.waitOf l ≠ 6 ∧ b.waitOf l ≠ 7) :
    let left := b.liveThreads.filter fun l => !(rs.map (·.1)).contains l
    ∃ t b', exec (.exit o) s = .next t ∧ cx.blk t = some b' ∧ b'.liveThreads = left ∧ (b'.phase = .finished ↔ left = []) ∧
      (∀ l ∈ left, l ∉ cx.acts → (threadOf b' l).pc = (threadOf b l).pc) ∧ cx.SameRegs s t ∧ cx.Only s t ∧ t.mem = s.mem := by
  intro left
  have ht : cx.isT = true := by simpa [Cx.isT] using hT
  obtain ⟨c, sl, hid, -, hm⟩ := cxOf_threaded h.here hT hb
  obtain ⟨s1, b1, run, regs, keeps, hb1, on⟩ := Cx.start_stands_T h hT hb
  have hb1' : blockOf s1 c sl = some b1 := by simpa [Cx.blk, hid] using hb1
  have unsigned : ∀ n, (cvOf s1 c n).signs = [] := fun n => by
    rw [keeps.cvOf_eq]; simpa [Cx.core, hid, coreOfCtx] using hcv n
  have opened : isSealed s1 b1 = false := (keeps.isSealed_eq hb hb1).trans ho
  have gone := Block.exited_exited (rs.map (·.1)) s1.cycle b1
  have hleft : (b1.exited (rs.map (·.1)) s1.cycle).liveThreads = left := by rw [gone.live, on.liveThreads]
  have hmodel : (b1.exited (rs.map (·.1)) s1.cycle).exec.model = .threaded := by rw [gone.model, on.model, hm]
  have waits : (b1.exited (rs.map (·.1)) s1.cycle).liveThreads = [] ∨
      ∃ l ∈ (b1.exited (rs.map (·.1)) s1.cycle).liveThreads,
        (b1.exited (rs.map (·.1)) s1.cycle).waitOf l ≠ 6 ∧ (b1.exited (rs.map (·.1)) s1.cycle).waitOf l ≠ 7 := by
    rw [hleft]
    refine hl.imp_right fun ⟨l, hmem, h6, h7⟩ => ⟨l, hmem, ?_⟩
    have hn : l ∉ rs.map (·.1) := by simpa using (List.mem_filter.mp hmem).2
    simp only [Block.waitOf, hm, hmodel, beq_self_eq_true, if_true] at h6 h7 ⊢
    obtain e | e := gone.wait l hn
    · rw [e]
      obtain e | e := on.wait l
      · rw [e]; exact ⟨h6, h7⟩
      · rw [e]; decide
    · rw [e]; decide
  obtain ⟨mem, only, regs', here⟩ := exitThreads_open hid hT hb1' opened unsigned (on.model.trans hm) waits
  have stepped : exec (.exit o) s = .next (exitThreads s1 c sl (rs.map (·.1))) := by
    have e : exec (.exit o) s = execExit o s := rfl
    rw [e]
    simp only [execExit, withCx, h.here, show plainDec tvs o.p 2 (o.param == 0) = exitDec o from rfl, run]
    simp [hid, hb1, hrs, ht, signedRegs_unsigned unsigned]
  refine ⟨_, _, stepped, by simpa [Cx.blk, hid] using here, ?_, ?_, ?_, (regs.trans regs').same, keeps.only.trans only, mem.trans keeps.mem_eq⟩
  · split
    · exact hleft
    · exact hleft
  · have stays : (b1.exited (rs.map (·.1)) s1.cycle).phase = .running := by
      have same : b1.phase = b.phase := by
        have e := congrArg Block.phase (keeps.block hb hb1)
        exact e
      rw [b1.exited_sameButExec (rs.map (·.1)) s1.cycle]
      exact same.trans hp
    rw [hleft]
    by_cases hnone : left = []
    · simp [hnone, Block.finished, Block.modCtl]
    · simp [hnone, stays]
  · intro l hmem hact
    have hn : l ∉ rs.map (·.1) := by simpa using (List.mem_filter.mp hmem).2
    have stands := (gone.pc l hn).trans (on.pc l hact)
    split
    · exact stands
    · exact stands

/-- EXIT of a control stream (R248, R249). -/
theorem exit_ctl (o : KOp) (s : State) (cx : Cx) (rs : List (Nat × List Nat)) (b : Block) (h : Stands s cx (exitDec o) rs) (hT : cx.kind ≠ .T)
    (hrs : rs ≠ []) (hb : cx.blk s = some b) (ho : isSealed s b = false)
    (hS : cx.kind = .S → (∀ p ∈ b.fab.ports, p.2.active = none ∧ p.2.pending = none) ∧ ∀ q ∈ b.fab.bufs, q.2 = []) :
    ∃ t b', exec (.exit o) s = .next t ∧ cx.blk t = some b' ∧ b'.phase = .finished ∧ b'.exec.ctl.done = true ∧
      cx.SameRegs s t ∧ cx.Only s t ∧ t.mem = s.mem := by
  have ht : cx.isT = false := by simpa [Cx.isT] using hT
  obtain ⟨c, sl, hid⟩ : ∃ c sl, cx.id = .blk c sl := by
    unfold Cx.blk at hb
    split at hb
    · exact ⟨_, _, ‹_›⟩
    · cases hb
  have counted := cx.counted_keeps s (exitDec o) rs.length
  obtain ⟨b1, hb1, -⟩ := cx.counted_exec s (exitDec o) rs.length hb
  have run := fun k => Cx.start_stands_ctl h hT hrs k
  generalize cx.counted s (exitDec o) rs.length = s1 at *
  have hb1' : blockOf s1 c sl = some b1 := by simpa [Cx.blk, hid] using hb1
  have opened : isSealed s1 b1 = false := (counted.2.isSealed_eq hb hb1).trans ho
  have quiet : (cx.kind == .S && (b1.fab.ports.any (fun p => p.2.active.isSome || p.2.pending.isSome) || b1.fab.bufs.any fun q => !q.2.isEmpty)) = false := by
    have fab : b1.fab = b.fab := by
      have e := congrArg Block.fab (counted.2.block hb hb1)
      exact e
    rw [fab]
    by_cases hk : cx.kind = .S
    · obtain ⟨ports, bufs⟩ := hS hk
      simp only [hk, beq_self_eq_true, Bool.true_and, Bool.or_eq_false_iff, List.any_eq_false]
      exact ⟨fun p hp => by simp [ports p hp], fun q hq => by simp [bufs q hq]⟩
    · simp [hk]
  have stepped : exec (.exit o) s = .next (modBlock s1 c sl Block.finished) := by
    have e : exec (.exit o) s = execExit o s := rfl
    have fin : finishBlock s1 c sl = modBlock s1 c sl Block.finished := finishBlock_open hb1' opened
    rw [e]
    simp only [execExit, withCx, h.here, show plainDec tvs o.p 2 (o.param == 0) = exitDec o from rfl, run, hid, hb1, quiet, fin]
    simp [hrs, ht, hb1', Block.finished, Block.modCtl]
  have keeps : cx.RegsSame s1 (modBlock s1 c sl Block.finished) :=
    .modBlock cx s1 c sl _ (fun _ => rfl) (fun _ => rfl) fun _ _ => ⟨rfl, rfl⟩
  exact ⟨_, b1.finished, stepped, by simp [Cx.blk, hid, hb1'], rfl, rfl, (counted.1.trans keeps).same, counted.2.only.trans (.modBlock hid s1 _),
    counted.2.mem_eq⟩

end Sys2Proof.Machine
end

/-! ## What a retiring block gives back (R52, R130)

With nothing in flight and no line cached at a home slice, giving back a block's resources changes no byte, no launch and no other
block. -/
section
namespace Sys2Proof.Machine

/-- From `s` to `t` the block at `c`, `sl` has given something back: nothing else sees it but counters. -/
structure GivesBack (c sl : Nat) (s t : State) : Prop where
  mem : t.mem = s.mem
  memPoison : t.memPoison = s.memPoison
  path : t.path = s.path
  outside : t.outside = s.outside
  launches : t.launches = s.launches
  bare : (∀ n, sliceOf s n = {}) → ∀ n, sliceOf t n = {}
  others : ∀ d sm, (d, sm) ≠ (c, sl) → blockOf t d sm = blockOf s d sm
  gone : blockOf s c sl = none → blockOf t c sl = none
  unwatched : (∀ e ∈ s.cores, e.2.monitors = []) → ∀ e ∈ t.cores, e.2.monitors = []
  funcs : t.iod.funcs = s.iod.funcs
  asidtb : t.iod.asidtb = s.iod.asidtb

theorem mem_tableSet {α : Type} {t : Table α} {k : Nat} {v : α} {e : Nat × α} (h : e ∈ Table.set t k v) : e = (k, v) ∨ e ∈ t :=
  ((Store.place_mem _ _ _ _).mp h).imp_right fun h => (List.mem_filter.mp h).1

/-- A core nobody waits on, after a change that adds no waiter. -/
theorem unwatched_modCore {s : State} {c : Nat} {f : Core → Core} (hf : ∀ k, k.monitors = [] → (f k).monitors = [])
    (h : ∀ e ∈ s.cores, e.2.monitors = []) : ∀ e ∈ (modCore s c f).cores, e.2.monitors = [] := by
  have own : (coreOf s c).monitors = [] := by
    have get : ∀ l : Table Core, (∀ e ∈ l, e.2.monitors = []) → (Table.getD l c {}).monitors = [] := fun l hl => by
      induction l with
      | nil => rfl
      | cons e r ih =>
        obtain ⟨k, v⟩ := e
        simp only [Table.getD, Table.get?] at ih ⊢
        split
        · exact hl (k, v) (by simp)
        · exact ih fun e he => hl e (by simp [he])
    exact get _ h
  intro e he
  obtain rfl | he := mem_tableSet he
  · exact hf _ own
  · exact h e he

namespace GivesBack

variable {c sl : Nat} {s t u : State}

theorem refl (c sl : Nat) (s : State) : GivesBack c sl s s := ⟨rfl, rfl, rfl, rfl, rfl, id, fun _ _ _ => rfl, id, id, rfl, rfl⟩

theorem trans (h : GivesBack c sl s t) (k : GivesBack c sl t u) : GivesBack c sl s u where
  mem := k.mem.trans h.mem
  memPoison := k.memPoison.trans h.memPoison
  path := k.path.trans h.path
  outside := k.outside.trans h.outside
  launches := k.launches.trans h.launches
  bare := k.bare ∘ h.bare
  others d sm hd := (k.others d sm hd).trans (h.others d sm hd)
  gone := k.gone ∘ h.gone
  unwatched := k.unwatched ∘ h.unwatched
  funcs := k.funcs.trans h.funcs
  asidtb := k.asidtb.trans h.asidtb

theorem foldl {α : Type} {f : State → α → State} (hf : ∀ s x, GivesBack c sl s (f s x)) (l : List α) (s : State) :
    GivesBack c sl s (l.foldl f s) := by
  induction l generalizing s with
  | nil => exact refl c sl s
  | cons x r ih => exact (hf s x).trans (ih _)

theorem modIod (s : State) (f : Iod → Iod) (hf : ∀ i, (f i).funcs = i.funcs) (ha : ∀ i, (f i).asidtb = i.asidtb) :
    GivesBack c sl s (Machine.modIod s f) :=
  ⟨rfl, rfl, rfl, rfl, rfl, id, fun _ _ _ => rfl, id, id, hf _, ha _⟩

/-- A change of a core that keeps its blocks and adds no waiter. -/
theorem modCore (s : State) (d : Nat) (f : Core → Core) (hs : ∀ k, (f k).slots = k.slots) (hm : ∀ k, k.monitors = [] → (f k).monitors = []) :
    GivesBack c sl s (Machine.modCore s d f) := by
  have hb : ∀ e sm, blockOf (Machine.modCore s d f) e sm = blockOf s e sm := fun e sm => by
    by_cases h : d = e
    · subst h; simp [blockOf, hs]
    · simp [blockOf, coreOf_modCore_ne s f h]
  exact ⟨rfl, rfl, rfl, rfl, rfl, id, fun e sm _ => hb e sm, fun h => (hb c sl).trans h, unwatched_modCore hm, rfl, rfl⟩

theorem modBlock (s : State) (f : Block → Block) : GivesBack c sl s (Machine.modBlock s c sl f) := by
  refine ⟨rfl, rfl, rfl, rfl, rfl, id, fun d sm hd => blockOf_modBlock_ne s f fun h => hd (by rw [h.1, h.2]), fun h => by simp [h], ?_, rfl, rfl⟩
  exact unwatched_modCore fun _ h => h

/-- The slot itself is given back. -/
theorem eraseSlot (s : State) (f : Core → Core) (hs : ∀ k, (f k).slots = Table.erase k.slots sl) (hm : ∀ k, k.monitors = [] → (f k).monitors = []) :
    GivesBack c sl s (Machine.modCore s c f) ∧ blockOf (Machine.modCore s c f) c sl = none := by
  have gone : blockOf (Machine.modCore s c f) c sl = none := by simp [blockOf, hs, Table.get?_erase]
  refine ⟨⟨rfl, rfl, rfl, rfl, rfl, id, fun d sm hd => ?_, fun _ => gone, unwatched_modCore hm, rfl, rfl⟩, gone⟩
  by_cases h : c = d
  · subst h
    have hsl : sm ≠ sl := fun e => hd (by rw [e])
    simp [blockOf, hs, Table.get?_erase, hsl]
  · simp [blockOf, coreOf_modCore_ne s f h]

/-- A change of one slice that leaves an empty slice empty. -/
theorem modSlice (s : State) (n : Nat) (f : Slice → Slice) (hf : f {} = {}) : GivesBack c sl s (Machine.modSlice s n f) := by
  refine ⟨rfl, rfl, rfl, rfl, rfl, fun h m => ?_, fun _ _ _ => rfl, id, id, rfl, rfl⟩
  by_cases e : n = m
  · subst e; rw [sliceOf_modSlice_self, h, hf]
  · simpa [sliceOf, Machine.modSlice, Table.getD_set_ne _ _ _ e] using h m

/-- Results and walks nobody waits for any more. -/
theorem inFlight (s : State) (p : List Pending) (w : List Walk) : GivesBack c sl s { s with pending := p, walks := w } :=
  ⟨rfl, rfl, rfl, rfl, rfl, id, fun _ _ _ => rfl, id, id, rfl, rfl⟩

theorem modTag (s : State) (line : Nat) (f : Tag → Tag) : GivesBack c sl s (Machine.modTag s line f) := modSlice s _ _ rfl

theorem unpinLine (s : State) (line : Nat) (e : Option Nat) : GivesBack c sl s (Machine.unpinLine s line e) := by
  unfold Machine.unpinLine
  refine trans (modTag s line _) (modSlice _ _ _ ?_)
  cases e <;> rfl

theorem releasePins (s : State) (d k : Nat) : GivesBack c sl s (Machine.releasePins s d k) := by
  unfold Machine.releasePins
  extract_lets t u
  have pins : GivesBack c sl s u := foldl (f := fun s (p : Nat × Option Nat) => Machine.unpinLine s p.1 p.2) (fun s p => unpinLine s p.1 p.2) t.pins s
  clear_value u
  exact pins.trans (modCore u d (fun c => { c with tiles := Table.set c.tiles k { t with pins := [] } }) (fun _ => rfl) fun _ h => h)

theorem chargeAcct (s : State) (a ctr n : Nat) : GivesBack c sl s (Machine.chargeAcct s a ctr n) :=
  modIod s _ (fun _ => rfl) fun _ => rfl

theorem flushBlock (s : State) : GivesBack c sl s (Machine.flushBlock s c sl) := by
  unfold Machine.flushBlock
  split
  · exact refl c sl s
  · refine trans ?_ (modBlock _ _)
    refine trans ?_ (modIod _ _ (fun _ => rfl) fun _ => rfl)
    refine trans ?_ (modIod _ _ (fun _ => rfl) fun _ => rfl)
    refine trans ?_ (chargeAcct _ _ _ _)
    exact foldl (fun s e => chargeAcct s _ _ _) _ s

end GivesBack

theorem tagOf_bare {s : State} (h : ∀ n, sliceOf s n = {}) (line : Nat) : tagOf s line = none := by simp [tagOf, h, Table.get?]

theorem drainPath_noPath {s : State} (h : s.path = []) (id : CtxId) : drainPath s id = s := by simp [drainPath, h]

/-- Lines that nobody owns are not written back. -/
theorem flushFrames_bare {s : State} (h : ∀ n, sliceOf s n = {}) (l : List L1Frame) : flushFrames s l = some s := by
  unfold flushFrames
  induction l.filter fun f => f.state != .clean with
  | nil => rfl
  | cons f r ih =>
    rw [List.foldl_cons, Option.bind_some, recallOwner_unowned (by rw [tagOf_bare h]; rfl), ih]

/-- A block with nothing on the path leaves its core. -/
theorem releaseBlock_still {s : State} {c sl : Nat} {b : Block} (hb : blockOf s c sl = some b) (hp : s.path = []) (h : ∀ n, sliceOf s n = {}) :
    ∃ t, releaseBlock s c sl = some t ∧ GivesBack c sl s t ∧ blockOf t c sl = none := by
  have first : GivesBack c sl s (modCore s c fun k => { k with tfq := k.tfq.filter fun f => f.slot != sl }) :=
    .modCore s c _ (fun _ => rfl) fun _ h => h
  simp only [releaseBlock, hb, drainPath_noPath (first.path.trans hp), first.path.trans hp, flushBlockLines, flushFrames_bare (first.bare h)]
  simp only [List.any_nil, Bool.false_eq_true, if_false, Option.map_some]
  refine ⟨_, rfl, ?_⟩
  have unwatched : ∀ k : Core, k.monitors = [] → (k.monitors.filter fun m => m.owner != .blk c sl) = [] := fun k hk => by rw [hk]; rfl
  refine And.intro (GivesBack.trans ?_ (GivesBack.eraseSlot _ _ (fun _ => rfl) unwatched).1) (GivesBack.eraseSlot _ _ (fun _ => rfl) unwatched).2
  refine GivesBack.trans ?_ (GivesBack.foldl (fun u x => ?_) _ _)
  swap
  · exact .modCore u x _ (fun _ => rfl) fun _ h => h
  refine GivesBack.trans ?_ (.inFlight _ _ _)
  refine GivesBack.trans ?_ (.flushBlock _)
  refine first.trans (GivesBack.foldl (fun u x => ?_) _ _)
  refine GivesBack.foldl (fun v k => ?_) _ u
  split
  · exact .releasePins v x k
  · exact .refl c sl v

theorem GivesBack.clearSvevt {c sl : Nat} (s : State) (d sm : Nat) : GivesBack c sl s (Machine.clearSvevt s d sm) := by
  refine GivesBack.foldl (fun s j => ?_) _ s
  exact .modCore s d _ (fun _ => rfl) fun _ h => h

theorem GivesBack.coreStirred {c sl : Nat} (s : State) (d : Nat) : GivesBack c sl s (Machine.coreStirred s d) :=
  .modIod s _ (fun _ => rfl) fun _ => rfl

theorem chargeAccts_cores (s : State) (a : Nat) (l : List (Nat × W64)) :
    (l.foldl (fun s e => chargeAcct s a e.1 e.2.toNat) s).cores = s.cores := by
  induction l generalizing s with
  | nil => rfl
  | cons e r ih => rw [List.foldl_cons, ih]; rfl

/-- A flushed block is still there. -/
theorem flushBlock_here {s : State} {c sl : Nat} {b : Block} (hb : blockOf s c sl = some b) : ∃ b', blockOf (flushBlock s c sl) c sl = some b' := by
  have e : ∀ t : State, t.cores = s.cores → blockOf t c sl = some b := fun t ht => by rw [← hb]; simp [blockOf, coreOf, ht]
  simp only [flushBlock, hb, blockOf_modBlock_self]
  rw [e _ (by exact chargeAccts_cores s _ _)]
  exact ⟨_, rfl⟩

/-- What a block's retiring changes of its launch: the count and the sums. -/
structure Launch.Counts (la lb : Launch) : Prop where
  retired : lb.retired = la.retired + 1
  rest : { lb with energy := la.energy, hops := la.hops, retired := la.retired, low := la.low, retiredAbove := la.retiredAbove } = la

/-- A block with nothing in flight retires: it is gone, and its launch counts it. -/
theorem retire_still {s : State} {c sl : Nat} {b : Block} {la : Launch} (hb : blockOf s c sl = some b) (hp : s.path = [])
    (h : ∀ n, sliceOf s n = {}) (hd : b.det = 0) (low : b.regs.bidx.toNat ≥ la.low) (above : la.retiredAbove = []) :
    ∃ u f, retire s c sl = some (modLaunch u b.launch f) ∧ GivesBack c sl s u ∧ blockOf u c sl = none ∧ la.Counts (f la) := by
  have flushed : GivesBack c sl s (flushBlock s c sl) := .flushBlock s
  obtain ⟨b1, hb1⟩ := flushBlock_here hb
  obtain ⟨v, hv, kv, gone⟩ := releaseBlock_still hb1 (flushed.path.trans hp) (flushed.bare h)
  have kw : GivesBack c sl v (coreStirred (clearSvevt v c sl) c) := (GivesBack.clearSvevt v c sl).trans (.coreStirred _ c)
  have ku := flushed.trans (kv.trans kw)
  simp only [retire, hb, hv, Option.map_some, freeStaging, hd, if_true]
  refine ⟨_, _, rfl, ku, kw.gone gone, ?_, rfl⟩
  have notLow : ¬b.regs.bidx.toNat < la.low := by omega
  simp [notLow, above]

/-- BLOCK_RETIREMENT of a block with nothing in flight. -/
theorem blockRetirement_still {s : State} {c sl : Nat} {b : Block} {la : Launch} (hb : blockOf s c sl = some b) (hph : b.phase = .finished)
    (hd : b.det = 0) (ht : b.traps = []) (still : Still s c) (ho : s.outside = []) (hs : s.slices = []) (hla : launchOf s b.launch = some la)
    (hf : la.fault = none) (low : b.regs.bidx.toNat ≥ la.low) (above : la.retiredAbove = []) :
    ∃ u f, exec (.blockRetirement c sl) s = .next (completeIfLast (modLaunch u b.launch f) b.launch) ∧ GivesBack c sl s u ∧
      blockOf u c sl = none ∧ la.Counts (f la) := by
  have bare : ∀ n, sliceOf s n = {} := fun n => by simp [sliceOf, hs, Table.getD, Table.get?]
  obtain ⟨u, f, hr, ku, gone, hc⟩ := retire_still hb still.path bare hd low above
  have notAborted : abortTook s b = false := by simp [abortTook, hla, hf]
  have done : doneMoving s c sl = true := by
    simp [doneMoving, earlierDone, still.path, still.pending, ho, mqOf, still.matrix, still.tiles, copyRecs, still.copies]
  refine ⟨u, f, ?_, ku, gone, hc⟩
  have e : exec (.blockRetirement c sl) s = execBlockRetirement c sl s := rfl
  rw [e]
  simp [execBlockRetirement, hb, hph, notAborted, drainPath_noPath still.path, done, ht, hd, hr]

end Sys2Proof.Machine
end

/-! ## A write that finds its slice nearly empty (R282, R284, R285)

A write that performs at a home slice with room takes a tag and entries there, sets its bytes and touches nothing else. -/
section
namespace Sys2Proof.Machine

theorem Table.set_length {α : Type} (t : Table α) (k : Nat) (v : α) : (Table.set t k v).length ≤ t.length + 1 := by
  have place : ∀ l : List (Nat × α), (Store.place l k v).length = l.length + 1 := fun l => by
    induction l with
    | nil => rfl
    | cons e r ih =>
      simp only [Store.place]
      split <;> simp [ih]
  have erase : (Table.erase t k).length ≤ t.length := List.length_filter_le ..
  simp only [Table.set, place]
  omega

theorem Table.modify_length {α : Type} (t : Table α) (k : Nat) (f : α → α) : (Table.modify t k f).length ≤ t.length + 1 := by
  unfold Table.modify
  split
  · exact Table.set_length ..
  · omega

/-- From `k` to `k'` a slice has taken up a line: at most `a` tags and `b` Pond entries more, nobody the line's owner, and every
other line's tag as it was. -/
structure Slice.Fills (line a b : Nat) (k k' : Slice) : Prop where
  stopped : k'.stopped = k.stopped
  tags : k'.tags.length ≤ k.tags.length + a
  pond : k'.pond.length ≤ k.pond.length + b
  own : (∀ t, Table.get? k.tags line = some t → t.own = none) → ∀ t, Table.get? k'.tags line = some t → t.own = none
  others : ∀ l, l ≠ line → Table.get? k'.tags l = Table.get? k.tags l

namespace Slice.Fills

variable {line a b a' b' : Nat} {k k' k'' : Slice}

/-- A change of the index or of nothing. -/
theorem of_tags (hs : k'.stopped = k.stopped) (ht : k'.tags = k.tags) (hp : k'.pond.length ≤ k.pond.length + b) : Slice.Fills line 0 b k k' :=
  ⟨hs, by rw [ht]; omega, hp, fun h => by rwa [ht], fun l _ => by rw [ht]⟩

theorem refl (line : Nat) (k : Slice) : Slice.Fills line 0 0 k k := of_tags rfl rfl (by omega)

theorem trans (h : Slice.Fills line a b k k') (g : Slice.Fills line a' b' k' k'') : Slice.Fills line (a + a') (b + b') k k'' where
  stopped := g.stopped.trans h.stopped
  tags := by have := h.tags; have := g.tags; omega
  pond := by have := h.pond; have := g.pond; omega
  own := g.own ∘ h.own
  others l hl := (g.others l hl).trans (h.others l hl)

theorem mono (h : Slice.Fills line a b k k') (ha : a ≤ a') (hb : b ≤ b') : Slice.Fills line a' b' k k' :=
  ⟨h.stopped, by have := h.tags; omega, by have := h.pond; omega, h.own, h.others⟩

/-- The line's tag set to one without an owner. -/
theorem setTag (k : Slice) (t : Tag) (ht : t.own = none) : Slice.Fills line 1 0 k { k with tags := Table.set k.tags line t } := by
  refine ⟨rfl, Table.set_length .., by simp, fun _ t' h => ?_, fun l hl => Table.get?_set_ne _ _ hl.symm⟩
  rw [Table.get?_set_self] at h
  exact Option.some.inj h ▸ ht

/-- A change of the line's tag that leaves its owner. -/
theorem modTag (k : Slice) (f : Tag → Tag) (hf : ∀ t, (f t).own = t.own) :
    Slice.Fills line 1 0 k { k with tags := Table.modify k.tags line f } := by
  refine ⟨rfl, Table.modify_length .., by simp, fun h t' ht' => ?_, fun l hl => Table.get?_modify_ne _ f hl.symm⟩
  rw [Table.get?_modify_self] at ht'
  obtain ⟨t, ht, rfl⟩ := Option.map_eq_some_iff.mp ht'
  exact (hf t).trans (h t ht)

theorem modPond (k : Slice) (e : Nat) (f : Pond → Pond) : Slice.Fills line 0 1 k { k with pond := Table.modify k.pond e f } :=
  of_tags rfl rfl (Table.modify_length ..)
theorem setPond (k : Slice) (e : Nat) (p : Pond) : Slice.Fills line 0 1 k { k with pond := Table.set k.pond e p } :=
  of_tags rfl rfl (Table.set_length ..)

theorem unindex_eq (k : Slice) (e : Nat) : k.unindex e = { k with index := (k.unindex e).index } := by
  simp only [Slice.unindex]
  repeat' split
  all_goals rfl

theorem unindex (k : Slice) (e : Nat) : Slice.Fills line 0 0 k (k.unindex e) := by
  rw [unindex_eq]
  exact of_tags rfl rfl (Nat.le_refl _)

theorem enindex (k : Slice) (e : Nat) (h : W64) : Slice.Fills line 0 0 k (k.enindex e h) := of_tags rfl rfl (Nat.le_refl _)

theorem freeIf (k : Slice) (e : Nat) : Slice.Fills line 0 0 k (k.freeIf e) := by
  unfold Slice.freeIf
  split
  · split
    · rw [unindex_eq]
      exact of_tags rfl rfl (List.length_filter_le ..)
    · exact refl line k
  · exact refl line k

theorem point (k : Slice) (e : Option Nat) (h : ∀ t, Table.get? k.tags line = some t → t.own = none) :
    Slice.Fills line 1 2 k (k.point line e) := by
  unfold Slice.point
  split
  · exact (refl line k).mono (by omega) (by omega)
  · rename_i t ht
    split
    · exact (refl line k).mono (by omega) (by omega)
    · extract_lets k1 k2
      have h1 : Slice.Fills line 0 1 k k1 := by
        cases e with
        | none => exact (refl line k).mono (by omega) (by omega)
        | some n => exact modPond ..
      have h2 : Slice.Fills line 1 1 k k2 := h1.trans (setTag k1 { t with ent := e } (h t ht))
      clear_value k2
      cases t.ent with
      | none => exact h2.mono (by omega) (by omega)
      | some o => exact h2.trans ((modPond k2 o _).trans (freeIf _ o))

end Slice.Fills

/-! ### The steps of a write, in the state -/

/-- What a write at a home slice does not touch. -/
def Elsewhere (s t : State) : Prop := { t with mem := s.mem, slices := s.slices, rdc := s.rdc, moved := s.moved, shares := s.shares } = s

/-- The line is taken up in its slice, which grows by so much; the other slices stay. -/
structure Takes (line a b : Nat) (s t : State) : Prop where
  elsewhere : Elsewhere s t
  slices : ∀ n, Slice.Fills line a b (sliceOf s n) (sliceOf t n)

theorem Takes.trans {line a b a' b' : Nat} {s t u : State} (h : Takes line a b s t) (k : Takes line a' b' t u) :
    Takes line (a + a') (b + b') s u := by
  refine ⟨?_, fun n => (h.slices n).trans (k.slices n)⟩
  have h1 := h.elsewhere
  have h2 := k.elsewhere
  unfold Elsewhere at *
  calc ({ u with mem := s.mem, slices := s.slices, rdc := s.rdc, moved := s.moved, shares := s.shares } : State)
      = { { u with mem := t.mem, slices := t.slices, rdc := t.rdc, moved := t.moved, shares := t.shares } with
          mem := s.mem, slices := s.slices, rdc := s.rdc, moved := s.moved, shares := s.shares } := rfl
    _ = s := by rw [h2, h1]

theorem Takes.refl (line : Nat) (s : State) : Takes line 0 0 s s := ⟨rfl, fun _ => .refl line _⟩
theorem Takes.mono {line a b a' b' : Nat} {s t : State} (h : Takes line a b s t) (ha : a ≤ a') (hb : b ≤ b') : Takes line a' b' s t :=
  ⟨h.elsewhere, fun n => (h.slices n).mono ha hb⟩

theorem Takes.modSlice {line a b : Nat} (s : State) (n : Nat) (f : Slice → Slice) (h : Slice.Fills line a b (sliceOf s n) (f (sliceOf s n))) :
    Takes line a b s (Machine.modSlice s n f) := by
  refine ⟨rfl, fun m => ?_⟩
  by_cases e : n = m
  · subst e; rwa [sliceOf_modSlice_self]
  · have : sliceOf (Machine.modSlice s n f) m = sliceOf s m := by simp [sliceOf, Machine.modSlice, Table.getD_set_ne _ _ _ e]
    rw [this]
    exact (Slice.Fills.refl line _).mono (Nat.zero_le _) (Nat.zero_le _)

theorem Takes.modTag {line : Nat} (s : State) (f : Tag → Tag) (hf : ∀ t, (f t).own = t.own) : Takes line 1 0 s (Machine.modTag s line f) :=
  .modSlice s _ (fun k => { k with tags := Table.modify k.tags line f }) (.modTag _ f hf)

theorem freeEntry_light (k : Slice) (h : k.pond.length < 16384) : ∃ e, k.freeEntry = some e := by
  rw [← Option.isSome_iff_exists, Slice.freeEntry, List.find?_isSome]
  by_contra hall
  have used : List.range (k.pond.length + 1) ⊆ k.pond.map (·.1) := fun n hn => by
    by_contra hm
    have : n < k.pond.length + 1 := List.mem_range.mp hn
    exact hall ⟨n, by simpa using hn, by simp [hm]; omega⟩
  have := (List.subperm_of_subset List.nodup_range used).length_le
  simp at this

/-- A slice that can take up the line: it serves, nobody owns the line, and there are ways and entries left. -/
structure Slice.Spare (line : Nat) (k : Slice) : Prop where
  serves : k.stopped = false
  own : ∀ t, Table.get? k.tags line = some t → t.own = none
  tags : k.tags.length < 12
  pond : k.pond.length < 16000

theorem takeEntry_light {s : State} {line : Nat} (h : (sliceOf s (sliceOfLine line)).pond.length < 16384) :
    ∃ e, takeEntry s line = some (s, e) := by
  obtain ⟨e, he⟩ := freeEntry_light _ h
  exact ⟨e, by simp [takeEntry, he]⟩

/-- Un-sharing an entry takes one more at most (R284). -/
theorem unshare_light {s : State} {line : Nat} (hp : (sliceOf s (sliceOfLine line)).pond.length < 16384)
    (ho : ∀ t, Table.get? (sliceOf s (sliceOfLine line)).tags line = some t → t.own = none) (bad : Bool) :
    ∃ t, unshare s line bad = some t ∧ t.mem = s.mem ∧ Takes line 1 3 s t := by
  obtain ⟨e, he⟩ := takeEntry_light hp
  unfold unshare
  extract_lets n ent alone
  by_cases ha : alone = true
  · rw [if_pos ha]
    refine ⟨_, rfl, rfl, .modSlice s _ _ ?_⟩
    clear_value ent
    split
    · exact ((Slice.Fills.unindex _ _).trans (.modPond _ _ _)).mono (by omega) (by omega)
    · exact (Slice.Fills.refl line _).mono (by omega) (by omega)
  · rw [if_neg ha, he]
    refine ⟨_, rfl, rfl, .modSlice s _ _ ?_⟩
    exact ((Slice.Fills.setPond _ _ _).trans (.point _ _ ho)).mono (by omega) (by omega)

/-- Placing a line's data takes one entry at most (R282). -/
theorem placeLine_light {s : State} {line : Nat} (hp : (sliceOf s (sliceOfLine line)).pond.length < 16384)
    (ho : ∀ t, Table.get? (sliceOf s (sliceOfLine line)).tags line = some t → t.own = none) :
    ∃ t sh, placeLine s line = some (t, sh) ∧ t.mem = s.mem ∧ t.moved = s.moved ∧ Takes line 1 3 s t := by
  have same : ∃ t sh, some (s, false) = some (t, sh) ∧ t.mem = s.mem ∧ t.moved = s.moved ∧ Takes line 1 3 s t :=
    ⟨s, false, rfl, rfl, rfl, (Takes.refl line s).mono (by omega) (by omega)⟩
  have change : ∀ (sh : Bool) (f : Slice → Slice), (∀ k : Slice, (∀ t, Table.get? k.tags line = some t → t.own = none) → Slice.Fills line 1 3 k (f k)) →
      ∃ t sh', some (modSlice s (sliceOfLine line) f, sh) = some (t, sh') ∧ t.mem = s.mem ∧ t.moved = s.moved ∧ Takes line 1 3 s t :=
    fun sh f hf => ⟨_, sh, rfl, rfl, rfl, .modSlice s _ f (hf _ ho)⟩
  obtain ⟨e, he⟩ := takeEntry_light hp
  unfold placeLine
  split
  · exact same
  · rename_i g _
    extract_lets n d h own
    split
    · exact change false _ fun k hk => (Slice.Fills.point k none hk).mono (by omega) (by omega)
    · split
      · exact change _ _ fun k hk => (Slice.Fills.point k _ hk).mono (by omega) (by omega)
      · by_cases ha : own = true
        · rw [if_pos ha]
          refine change false _ fun k hk => ?_
          split
          · rename_i e _
            rw [Slice.Fills.unindex_eq]
            have moved := Slice.Fills.of_tags (line := line) (k := k) (k' := { k with
              pond := Table.modify k.pond e fun p => { p with data := d, hash := h, edom := g.dom }, index := (k.unindex e).index }) rfl rfl (Table.modify_length ..)
            split
            · exact moved.mono (by omega) (by omega)
            · exact (moved.trans (.enindex _ _ _)).mono (by omega) (by omega)
          · exact (Slice.Fills.refl line k).mono (by omega) (by omega)
        · rw [if_neg ha, he]
          refine change false _ fun k hk => ?_
          have entered := (Slice.Fills.setPond (line := line) k e { data := d, refs := 0, hold := 0, hash := h, edom := g.dom, poisoned := g.psn }).trans (.point _ (some e) hk)
          split
          · exact entered.mono (by omega) (by omega)
          · exact (entered.trans (.enindex _ _ _)).mono (by omega) (by omega)

/-- A fold whose every step leaves the state as it is. -/
theorem foldl_fixed {α β : Type} (f : α → β → α) (a : α) (l : List β) (h : ∀ x ∈ l, f a x = a) : l.foldl f a = a := by
  induction l with
  | nil => rfl
  | cons x r ih => rw [List.foldl_cons, h x (by simp), ih fun y hy => h y (by simp [hy])]

/-- A line without a tag takes one, and an entry, where there is room (R282, R285). -/
theorem fillLine_light {s : State} {line : Nat} (h : (sliceOf s (sliceOfLine line)).Spare line) (ht : tagOf s line = none)
    (hpsn : s.memPoison.contains line = false) :
    ∃ t sh, fillLine s line = some (t, sh) ∧ t.mem = s.mem ∧ Takes line 2 3 s t := by
  have room : ((sliceOf s (sliceOfLine line)).tags.filter fun e => setOfLine e.1 == setOfLine line).length < 12 :=
    Nat.lt_of_le_of_lt (List.length_filter_le ..) h.tags
  have evict : ∀ l : List Nat, l.foldl (fun s v =>
      if decide (((sliceOf s (sliceOfLine line)).tags.filter fun e => setOfLine e.1 == setOfLine line).length ≥ 12) then evictTag s v else s) s = s :=
    fun l => foldl_fixed _ _ _ fun v _ => if_neg (by simpa using room)
  have tagged : Takes line 1 0 s (modSlice s (sliceOfLine line) fun k =>
      { k with tags := Table.set k.tags line { dom := domainOf s line, psn := s.memPoison.contains line, used := s.cycle } }) :=
    .modSlice s _ _ (.setTag _ _ rfl)
  have full : decide (((sliceOf s (sliceOfLine line)).tags.filter fun e => setOfLine e.1 == setOfLine line).length ≥ 12) = false := by
    simpa using room
  simp only [fillLine, ht, evict, full]
  generalize hu : modSlice s (sliceOfLine line) _ = u at *
  have mu : u.mem = s.mem := by rw [← hu]; rfl
  have slice := tagged.slices (sliceOfLine line)
  obtain ⟨v, sh, hv, mv, _, kv⟩ := placeLine_light (s := u) (line := line) (by have := slice.pond; have := h.pond; omega) (slice.own h.own)
  rw [hv]
  refine ⟨_, _, rfl, ?_, ?_⟩
  · simp only [hpsn]
    exact mv.trans mu
  · simp only [hpsn]
    have counted : Takes line 0 0 v { v with moved := v.moved + 1, shares := v.shares + if sh then 1 else 0 } := ⟨rfl, fun n => .refl line _⟩
    exact (tagged.trans (kv.trans counted)).mono (by omega) (by omega)

theorem recallLine_unowned {s : State} {line : Nat} (h : (tagOf s line).bind (·.own) = none) (by_ : Option Nat) :
    recallLine s line by_ = some s := by simp [recallLine, owesBytes_unowned h, rawRecall_unowned h]

/-- A write to a line without a tag performs where there is room. -/
theorem writeHome_light {s : State} {pa : Nat} (h : (sliceOf s (sliceOfLine (pa / 128))).Spare (pa / 128)) (ht : tagOf s (pa / 128) = none)
    (hpsn : s.memPoison.contains (pa / 128) = false) (bs : List Byte) (by_ : Option Nat) :
    ∃ t, writeHome s pa bs false by_ = some t ∧ t.mem = Store.setBytes s.mem pa bs ∧ Takes (pa / 128) 4 6 s t := by
  obtain ⟨u, sh, hu, mu, ku⟩ := fillLine_light h ht hpsn
  have slice := ku.slices (sliceOfLine (pa / 128))
  have written : Takes (pa / 128) 0 0 u (dropRdc { u with mem := Store.setBytes u.mem pa bs } (pa / 128)) := ⟨rfl, fun n => .refl _ _⟩
  have slice' := slice.trans (written.slices (sliceOfLine (pa / 128)))
  have unshared := fun bad => unshare_light (s := dropRdc { u with mem := Store.setBytes u.mem pa bs } (pa / 128)) (line := pa / 128)
    (by have := slice'.pond; have := h.pond; omega) (slice'.own h.own) bad
  simp only [writeHome, h.serves, Bool.false_eq_true, if_false, recallLine_unowned (by rw [ht]; rfl), Option.bind_some, Bool.false_and, hu]
  obtain ⟨v, hv, mv, kv⟩ := unshared (if bs.length == 128 then false else linePoisoned u (pa / 128))
  rw [hv]
  refine ⟨_, rfl, ?_, ?_⟩
  · exact mv.trans (by rw [← mu]; rfl)
  · have taken := ku.trans (written.trans kv)
    refine taken.trans (.modTag v _ ?_)
    exact fun _ => rfl

/-- No bitmap tracks writes (R402). -/
theorem dirtyWords_off {s : State} (h : ∀ e ∈ s.iod.funcs, e.2.dten = false) (pa : Nat) : dirtyWords s pa = [] := by
  rw [dirtyWords, List.filterMap_eq_nil_iff]
  intro e he
  simp [h e he]

/-- Nobody waits on a line (R308). -/
theorem wakeLine_unwatched {s : State} (h : ∀ e ∈ s.cores, e.2.monitors = []) (line : Nat) : wakeLine s line = s :=
  foldl_fixed _ _ _ fun e he => by simp [h e he]

/-- A write to a line without a tag, where nobody waits, no bitmap tracks it and there is room, sets its bytes. -/
theorem performWrite_light {s : State} {pa : Nat} (h : (sliceOf s (sliceOfLine (pa / 128))).Spare (pa / 128)) (ht : tagOf s (pa / 128) = none)
    (hpsn : s.memPoison.contains (pa / 128) = false) (bitmaps : ∀ e ∈ s.iod.funcs, e.2.dten = false) (unwatched : ∀ e ∈ s.cores, e.2.monitors = [])
    (bs : List Byte) :
    ∃ t, performWrite s pa bs false none = some t ∧ t.mem = Store.setBytes s.mem pa bs ∧ Takes (pa / 128) 4 6 s t := by
  obtain ⟨t, hw, mem, takes⟩ := writeHome_light h ht hpsn bs none
  have same := takes.elsewhere
  have iod : t.iod = s.iod := by
    have e := congrArg State.iod same
    exact e
  have cores : t.cores = s.cores := by
    have e := congrArg State.cores same
    exact e
  refine ⟨t, ?_, mem, takes⟩
  simp only [performWrite, recallOwner_unowned (s := s) (line := pa / 128) (by rw [ht]; rfl), Option.bind_some, hw, orDirty,
    dirtyWords_off (iod ▸ bitmaps), List.foldl_nil, Option.map_some, wakeLine_unwatched (cores ▸ unwatched)]

end Sys2Proof.Machine
end

/-! ## The completion record (R53) -/
section
namespace Sys2Proof.Machine

/-! ### What a walk reads -/

/-- A walk reads page tables and the ASID table alone (R385). -/
theorem walk_congr {s t : State} (ha : t.iod.asidtb = s.iod.asidtb) (hb : ∀ a, byteAt t a = byteAt s a)
    (hp : ∀ line, linePoisoned t line = linePoisoned s line) (asid : W16) (part va kind : Nat) :
    walk t asid part va kind = walk s asid part va kind := by
  have bytes : ∀ a n, bytesAt t a n = bytesAt s a n := fun a n => List.map_congr_left fun x _ => hb x
  have entry : ∀ pa, readEntry t pa = readEntry s pa := fun pa => by simp only [readEntry, bytes, hp]
  have group : ∀ pa, contGroupOk t pa = contGroupOk s pa := fun pa => by simp only [contGroupOk, bytes]
  have from_ : ∀ l table, walkFrom t asid part va kind l table = walkFrom s asid part va kind l table := fun l => by
    induction l with
    | zero => intro table; rfl
    | succ l ih => intro table; simp only [walkFrom, entry, group, ih]
  simp only [walk, ha, entry, from_]

theorem byteAt_unowned {s : State} {a : Nat} (h : (tagOf s (a / 128)).bind (·.own) = none) : byteAt s a = Store.get s.mem a := by
  simp [byteAt, h]

/-! ### Bytes -/

theorem upFrom_getElem (a n i : Nat) (h : i < (upFrom a n).length) : (upFrom a n)[i] = a + i := by
  induction n generalizing a i with
  | zero => simp [upFrom] at h
  | succ n ih =>
    cases i with
    | zero => rfl
    | succ i => simp only [upFrom, List.getElem_cons_succ, ih]; omega

/-- Consecutive bytes read back from where they were written. -/
theorem Store.get_setBytes_run (m : Store 8) (a k n : Nat) (bs : List Byte) (h : k + n ≤ bs.length) :
    (upFrom (a + k) n).map (Store.get (Store.setBytes m a bs)) = (bs.drop k).take n := by
  apply List.ext_getElem
  · simp; omega
  · intro i h1 h2
    simp only [List.length_map, upFrom_length] at h1
    have : a + k + i - a = k + i := by omega
    simp only [List.getElem_map, upFrom_getElem, Store.get_setBytes, List.getElem_take, List.getElem_drop, this]
    rw [dif_pos ⟨by omega, by omega⟩]

theorem valBytes_length (n x : Nat) : (valBytes n x).length = n := by
  induction n generalizing x with
  | zero => rfl
  | succ n ih => simp [valBytes, ih]

theorem number_valBytes (n x : Nat) : Claims.number (valBytes n x) = x % 256 ^ n := by
  induction n generalizing x with
  | zero => simp [valBytes, Claims.number, Nat.mod_one]
  | succ n ih =>
    simp only [valBytes, Claims.number, ih, BitVec.toNat_ofNat]
    rw [show 256 ^ (n + 1) = 256 * 256 ^ n from Nat.pow_succ', Nat.mod_mul]

theorem recordBytes_length (l : Launch) (status : Nat) : (recordBytes l status).length = 64 := by
  simp [recordBytes, valBytes_length]

theorem Elsewhere.cores {s t : State} (h : Elsewhere s t) : t.cores = s.cores := by
  have e := congrArg State.cores h
  exact e
theorem Elsewhere.iod {s t : State} (h : Elsewhere s t) : t.iod = s.iod := by
  have e := congrArg State.iod h
  exact e
theorem Elsewhere.path {s t : State} (h : Elsewhere s t) : t.path = s.path := by
  have e := congrArg State.path h
  exact e
theorem Elsewhere.memPoison {s t : State} (h : Elsewhere s t) : t.memPoison = s.memPoison := by
  have e := congrArg State.memPoison h
  exact e

/-- A device write within one line is one store (R437). -/
theorem deviceWrite_line {s t : State} {pa : Nat} {bs : List Byte} (hk : isPackage pa = true) (hl : pa % 128 + bs.length ≤ 128)
    (hb : bs ≠ []) (hp : s.path = []) (ht : performWrite s pa bs false none = some t) (part : Nat) : deviceWrite s part pa bs = t := by
  have piece : splitLines (bs.length / 128 + 2) pa bs = [(pa, bs)] := by
    have whole : bs.take (128 - pa % 128) = bs := List.take_of_length_le (by omega)
    have nothing : bs.drop (128 - pa % 128) = [] := List.drop_of_length_le (by omega)
    simp [splitLines, hb, whole, nothing]
  simp [deviceWrite, hk, performWrites, piece, deviceStore, hp, ht]

/-- Nothing is in the way of a record: no tag, no waiter, no bitmap, no poison, nothing on its way. -/
structure Clean (s : State) : Prop where
  bare : ∀ n, sliceOf s n = {}
  poison : ∀ line, s.memPoison.contains line = false
  bitmaps : ∀ e ∈ s.iod.funcs, e.2.dten = false
  unwatched : ∀ e ∈ s.cores, e.2.monitors = []
  path : s.path = []
  outside : s.outside = []

/-- A launch whose record lies within a line of package memory, not that of its page-table entry, completes: the record is
written and the launch is gone. -/
theorem finishLaunch_clean {s : State} {n : Nat} {l : Launch} {e : TlbEntry} {at_ : Nat} (h : Clean s) (hl : launchOf s n = some l)
    (hr : l.recorded = false) (hev : l.lpb.evta = 0) (hw : walk s l.asid l.part l.lpb.crec.toNat 1 = .ok e at_)
    (hk : isPackage (e.frame + (l.lpb.crec.toNat - e.base)) = true) (hin : (e.frame + (l.lpb.crec.toNat - e.base)) % 128 + 64 ≤ 128)
    (hne : at_ / 128 ≠ (e.frame + (l.lpb.crec.toNat - e.base)) / 128) :
    (∀ c sl, blockOf (finishLaunch s n 1) c sl = blockOf s c sl) ∧ launchOf (finishLaunch s n 1) n = none ∧
      ∀ k m, k + m ≤ 64 → (upFrom (e.frame + (l.lpb.crec.toNat - e.base) + k) m).map (byteAt (finishLaunch s n 1)) =
        ((recordBytes l 1).drop k).take m := by
  generalize hpa : e.frame + (l.lpb.crec.toNat - e.base) = pa at *
  have untagged : ∀ line, tagOf s line = none := tagOf_bare h.bare
  have spare : ∀ line m, (sliceOf s m).Spare line := fun line m => by
    rw [h.bare]
    exact ⟨rfl, (by intro t ht; cases ht), by decide, by decide⟩
  obtain ⟨u, hu, mu, ku⟩ := performWrite_light (spare (at_ / 128) _) (untagged _) (h.poison _) h.bitmaps h.unwatched
    (valBytes 8 (bytesVal (bytesAt s at_ 8) ||| 0x60))
  have marked : setAD s at_ true = some u := hu
  have installed : installTlb u (.sys 0) e = { u with dieTlb := (installTlb u (.sys 0) e).dieTlb, dieAsids := (installTlb u (.sys 0) e).dieAsids } := rfl
  generalize hv : installTlb u (.sys 0) e = v at *
  have slice : ∀ m, sliceOf v m = sliceOf u m := fun m => by rw [installed]; rfl
  have cores : v.cores = s.cores := by rw [installed]; exact ku.elsewhere.cores
  have iod : v.iod = s.iod := by rw [installed]; exact ku.elsewhere.iod
  have path : v.path = [] := by rw [installed]; exact ku.elsewhere.path.trans h.path
  have poison : v.memPoison = s.memPoison := by rw [installed]; exact ku.elsewhere.memPoison
  have untagged' : tagOf v (pa / 128) = none := by
    have kept := (ku.slices (sliceOfLine (pa / 128))).others (pa / 128) hne.symm
    rw [tagOf, slice, kept]
    exact untagged _
  have spare' : ∀ m, (sliceOf v m).Spare (pa / 128) := fun m => by
    rw [slice]
    have k := ku.slices m
    have tags := k.tags
    have pond := k.pond
    rw [h.bare] at tags pond
    refine ⟨k.stopped.trans (spare 0 m).serves, ?_, ?_, ?_⟩
    · rw [k.others _ hne.symm]; exact (spare (pa / 128) m).own
    · exact Nat.lt_of_le_of_lt tags (by decide)
    · exact Nat.lt_of_le_of_lt pond (by decide)
  obtain ⟨w, hw', mw, kw⟩ := performWrite_light (spare' _) untagged' (poison ▸ h.poison _) (iod ▸ h.bitmaps) (cores ▸ h.unwatched) (recordBytes l 1)
  have served : unserved v pa = false := by
    simp [unserved, (spare' (sliceOfLine (pa / 128))).serves, recallLine_unowned (s := v) (line := pa / 128) (by rw [untagged']; rfl)]
  have record : deviceWrite v l.part pa (recordBytes l 1) = w :=
    deviceWrite_line hk (by rw [recordBytes_length]; exact hin) (by simp [recordBytes]) path hw' l.part
  have run : finishLaunch s n 1 = { w with launches := Table.erase w.launches n } := by
    simp [finishLaunch, hl, hr, writeRecord, h.outside, recordPage, walkNow, hw, marked, hv, hpa, served, record, fireEvent, hev]
  have own : (tagOf w (pa / 128)).bind (·.own) = none := by
    cases ht : tagOf w (pa / 128) with
    | none => rfl
    | some t => exact (kw.slices _).own (spare' _).own t ht
  have kept : w.cores = s.cores := kw.elsewhere.cores.trans cores
  rw [run]
  refine ⟨fun c sl => by simp [blockOf, coreOf, kept], by simp [launchOf, Table.get?_erase], fun k m hkm => ?_⟩
  rw [← Store.get_setBytes_run v.mem pa k m _ (by rwa [recordBytes_length]), ← mw]
  refine List.map_congr_left fun x hx => ?_
  have line : x / 128 = pa / 128 := by have := mem_upFrom.mp hx; omega
  exact byteAt_unowned (s := { w with launches := Table.erase w.launches n }) (by rw [line]; exact own)

end Sys2Proof.Machine
end

/-! ## A launch's last block (R53) -/
section
namespace Sys2Proof.Machine

variable {s u : State} {c sl n : Nat}

theorem linePoisoned_bare {s : State} (h : ∀ n, sliceOf s n = {}) (line : Nat) : linePoisoned s line = s.memPoison.contains line := by
  simp [linePoisoned, tagOf_bare h]

theorem byteAt_bare {s : State} (h : ∀ n, sliceOf s n = {}) (a : Nat) : byteAt s a = Store.get s.mem a :=
  byteAt_unowned (by rw [tagOf_bare h]; rfl)

/-- What a retiring block leaves is clean where nothing was cached, waited for or on its way. -/
theorem GivesBack.clean (h : GivesBack c sl s u) (hs : ∀ n, sliceOf s n = {}) (calm : Calm s) (hp : s.path = []) (ho : s.outside = []) :
    Clean u where
  bare := h.bare hs
  poison line := by rw [h.memPoison, ← linePoisoned_bare hs]; exact calm.poison line
  bitmaps := h.funcs ▸ calm.bitmaps
  unwatched := h.unwatched calm.monitors
  path := h.path.trans hp
  outside := h.outside.trans ho

theorem Clean.modLaunch (h : Clean s) (f : Launch → Launch) : Clean (modLaunch s n f) := ⟨h.bare, h.poison, h.bitmaps, h.unwatched, h.path, h.outside⟩

theorem GivesBack.walk_eq (h : GivesBack c sl s u) (hs : ∀ n, sliceOf s n = {}) (f : Launch → Launch) (asid : W16) (part va kind : Nat) :
    walk (modLaunch u n f) asid part va kind = walk s asid part va kind := by
  have bare : ∀ m, sliceOf (modLaunch u n f) m = {} := h.bare hs
  have bytes : ∀ a, byteAt (modLaunch u n f) a = byteAt s a := fun a => by
    rw [byteAt_bare bare, byteAt_bare hs]
    exact congrArg (Store.get · a) h.mem
  have poison : ∀ line, linePoisoned (modLaunch u n f) line = linePoisoned s line := fun line => by
    rw [linePoisoned_bare bare, linePoisoned_bare hs]
    exact congrArg (List.contains · line) h.memPoison
  exact walk_congr h.asidtb bytes poison asid part va kind

theorem GivesBack.launchOf_counted (h : GivesBack c sl s u) {la : Launch} (hla : launchOf s n = some la) (f : Launch → Launch) :
    launchOf (modLaunch u n f) n = some (f la) := by
  simp only [launchOf] at hla
  simp [launchOf, Machine.modLaunch, h.launches, hla]

theorem Launch.Counts.lpb {la lb : Launch} (h : la.Counts lb) : lb.lpb = la.lpb := by have e := congrArg Launch.lpb h.rest; exact e
theorem Launch.Counts.fault {la lb : Launch} (h : la.Counts lb) : lb.fault = la.fault := by have e := congrArg Launch.fault h.rest; exact e
theorem Launch.Counts.status {la lb : Launch} (h : la.Counts lb) : lb.status = la.status := by have e := congrArg Launch.status h.rest; exact e
theorem Launch.Counts.recorded {la lb : Launch} (h : la.Counts lb) : lb.recorded = la.recorded := by have e := congrArg Launch.recorded h.rest; exact e
theorem Launch.Counts.asid {la lb : Launch} (h : la.Counts lb) : lb.asid = la.asid := by have e := congrArg Launch.asid h.rest; exact e
theorem Launch.Counts.part {la lb : Launch} (h : la.Counts lb) : lb.part = la.part := by have e := congrArg Launch.part h.rest; exact e

theorem completeIfLast_early {l : Launch} (hl : launchOf s n = some l) (hf : l.fault = none) (h : l.retired ≠ l.lpb.nblk.toNat) :
    completeIfLast s n = s := by
  simp [completeIfLast, hl, hf, h]

theorem completeIfLast_last {l : Launch} (hl : launchOf s n = some l) (hf : l.fault = none) (hs : l.status = none) (h : l.retired = l.lpb.nblk.toNat) :
    completeIfLast s n = finishLaunch s n 1 := by
  simp [completeIfLast, hl, hf, hs, h]

/-! ### The record of a launch that is done -/

variable {la : Launch} {pa : Nat} {t : State}

theorem record_status (h : ∀ k m, k + m ≤ 64 → (upFrom (pa + k) m).map (byteAt t) = ((recordBytes la 1).drop k).take m) : byteAt t pa = 1 := by
  have e := h 0 1 (by omega)
  simpa [upFrom, recordBytes] using e

theorem record_cause (h : ∀ k m, k + m ≤ 64 → (upFrom (pa + k) m).map (byteAt t) = ((recordBytes la 1).drop k).take m) (hf : la.fault = none) :
    byteAt t (pa + 1) = 0 := by
  have e := h 1 1 (by omega)
  simpa [upFrom, recordBytes, hf] using e

theorem record_count (h : ∀ k m, k + m ≤ 64 → (upFrom (pa + k) m).map (byteAt t) = ((recordBytes la 1).drop k).take m) :
    Claims.number ((upFrom (pa + 8) 8).map (byteAt t)) = la.retired % 2 ^ 64 := by
  have count : ((recordBytes la 1).drop 8).take 8 = valBytes 8 la.retired := by simp [recordBytes, valBytes]
  rw [h 8 8 (by omega), count, number_valBytes]
  norm_num

end Sys2Proof.Machine

open Sys2Proof Sys2Proof.Machine Sys2Proof.Claims in
/-- Settles O40: EXIT by the way a context goes on, BLOCK_RETIREMENT by what it gives back and the record it writes. -/
theorem blocksFinish : Obligations.BlocksFinish := by
  refine ⟨exit_threads, exit_ctl, ?_⟩
  intro s c sl b la hb hph hd ht still ho calm hs hla hst hrec hf low above
  obtain ⟨u, f, run, ku, gone, counts⟩ := blockRetirement_still hb hph hd ht still ho hs hla hf low above
  have bare : ∀ n, sliceOf s n = {} := fun n => by simp [sliceOf, hs, Table.getD, Table.get?]
  have counted := ku.launchOf_counted hla f
  have fault := counts.fault.trans hf
  refine ⟨?_, ?_⟩
  · intro early
    rw [completeIfLast_early counted fault (by rw [counts.retired, counts.lpb]; exact early)] at run
    refine ⟨_, run, gone, ?_, ku.mem, ku.others⟩
    rw [counted, ← counts.retired]
    rfl
  · intro last hev e at_ hw pa hk hin hne
    have retired : (f la).retired = (f la).lpb.nblk.toNat := by rw [counts.retired, counts.lpb]; exact last
    rw [completeIfLast_last counted fault (counts.status.trans hst) retired] at run
    have clean := (ku.clean bare calm still.path ho).modLaunch (n := b.launch) f
    rw [← ku.walk_eq (n := b.launch) bare f, ← counts.asid, ← counts.part, ← counts.lpb] at hw
    have addr : pa = e.frame + ((f la).lpb.crec.toNat - e.base) := by rw [counts.lpb]
    clear_value pa
    subst addr
    obtain ⟨blocks, done, bytes⟩ := finishLaunch_clean clean counted (counts.recorded.trans hrec) (by rw [counts.lpb]; exact hev) hw hk hin hne
    refine ⟨_, run, (blocks c sl).trans gone, done, record_status bytes, record_cause bytes fault, ?_⟩
    rw [record_count bytes, counts.retired, last]
end

/-! ## The block that is pre-empted first (R57, R345) -/
section
namespace Sys2Proof.Machine

variable {α : Type} {R : α → α → Prop} {f : α → Nat}

theorem mem_sortBy_ins {x y : α} {l : List α} : y ∈ sortBy.ins f x l ↔ y = x ∨ y ∈ l := by
  induction l with
  | nil => simp [sortBy.ins]
  | cons z r ih =>
    simp only [sortBy.ins]
    split
    · simp
    · simp only [List.mem_cons, ih]; tauto

theorem mem_sortBy {y : α} {l : List α} : y ∈ sortBy f l ↔ y ∈ l := by
  induction l with
  | nil => exact Iff.rfl
  | cons x r ih => rw [List.mem_cons, ← ih]; exact mem_sortBy_ins

theorem sortBy_ins_pairwise {x : α} {l : List α} (h : l.Pairwise fun x y => f x < f y ∨ f x = f y ∧ R x y) (hx : ∀ y ∈ l, R x y) :
    (sortBy.ins f x l).Pairwise fun x y => f x < f y ∨ f x = f y ∧ R x y := by
  induction l with
  | nil => simp [sortBy.ins]
  | cons y r ih =>
    obtain ⟨hy, hr⟩ := List.pairwise_cons.mp h
    simp only [sortBy.ins]
    split
    · rename_i le
      refine List.pairwise_cons.mpr ⟨fun z hz => ?_, h⟩
      have above : f y ≤ f z := by
        obtain rfl | hz := List.mem_cons.mp hz
        · exact Nat.le_refl _
        · have := hy z hz; omega
      have := hx z hz
      obtain lt | eq : f x < f z ∨ f x = f z := by omega
      · exact .inl lt
      · exact .inr ⟨eq, this⟩
    · rename_i gt
      refine List.pairwise_cons.mpr ⟨fun z hz => ?_, ih hr fun z hz => hx z (List.mem_cons_of_mem _ hz)⟩
      obtain rfl | hz := mem_sortBy_ins.mp hz
      · exact .inl (by omega)
      · exact hy z hz

/-- Sorting by a key keeps the order of equal keys. -/
theorem sortBy_pairwise {l : List α} (h : l.Pairwise R) : (sortBy f l).Pairwise fun x y => f x < f y ∨ f x = f y ∧ R x y := by
  induction l with
  | nil => exact .nil
  | cons x r ih =>
    obtain ⟨hx, hr⟩ := List.pairwise_cons.mp h
    exact sortBy_ins_pairwise (ih hr) fun y hy => hx y (mem_sortBy.mp hy)

/-- The head of a list in an order in which nothing comes before `x`. -/
theorem head_of_pairwise {l : List α} {x : α} (h : l.Pairwise R) (hx : x ∈ l) (first : ∀ y ∈ l, y ≠ x → ¬R y x) : ∃ r, l = x :: r := by
  cases l with
  | nil => simp at hx
  | cons y r =>
    obtain rfl | hx := List.mem_cons.mp hx
    · exact ⟨r, rfl⟩
    · have before := (List.pairwise_cons.mp h).1 x hx
      by_cases e : y = x
      · exact ⟨r, by rw [e]⟩
      · exact absurd before (first y (by simp) e)

/-- Candidates in the order of R345: spinners, with `levels` the lowest level, the longest run. -/
def candidates (levels : Bool) (l : List (Nat × Nat × Block)) : List (Nat × Nat × Block) :=
  sortBy (fun x => if isSpinner x.2.2 then 0 else 1)
    (if levels then sortBy (fun x => x.2.2.prio) (sortBy (fun x => x.2.2.lastEp) l) else sortBy (fun x => x.2.2.lastEp) l)

/-- What the order says of a candidate and a later one. -/
def Before (levels : Bool) (a b : Block) : Prop :=
  (if isSpinner a then 0 else 1) < (if isSpinner b then 0 else 1) ∨ (if isSpinner a then 0 else 1) = (if isSpinner b then 0 else 1) ∧
    if levels then a.prio < b.prio ∨ a.prio = b.prio ∧ a.lastEp ≤ b.lastEp else a.lastEp ≤ b.lastEp

theorem mem_candidates {levels : Bool} {l : List (Nat × Nat × Block)} {x : Nat × Nat × Block} : x ∈ candidates levels l ↔ x ∈ l := by
  cases levels <;> simp only [candidates, mem_sortBy, if_true, Bool.false_eq_true, if_false]

theorem candidates_pairwise (levels : Bool) (l : List (Nat × Nat × Block)) : (candidates levels l).Pairwise fun x y => Before levels x.2.2 y.2.2 := by
  have runs : (sortBy (fun x : Nat × Nat × Block => x.2.2.lastEp) l).Pairwise fun x y => x.2.2.lastEp ≤ y.2.2.lastEp :=
    (sortBy_pairwise (R := fun _ _ => True) (List.pairwise_of_forall fun _ _ => trivial)).imp fun h => by omega
  cases levels with
  | false => exact (sortBy_pairwise runs).imp id
  | true => exact (sortBy_pairwise (sortBy_pairwise runs)).imp id

/-- No candidate comes before the first one. -/
theorem First.not_before {l : List (Nat × Nat × Block)} {levels : Bool} {b : Block} {x : Nat × Nat} (h : Claims.First l levels b x)
    {y : Nat × Nat × Block} (hy : y ∈ l) (hne : y ≠ (x.1, x.2, b)) : ¬Before levels y.2.2 b := by
  obtain ⟨spins, rest⟩ := h.2 y hy hne
  rintro (lower | ⟨equal, order⟩)
  · by_cases hy : isSpinner y.2.2 = true
    · simp [hy, spins hy] at lower
    · rw [if_neg hy] at lower
      split at lower <;> omega
  · have same : isSpinner y.2.2 = isSpinner b := by
      by_cases hy : isSpinner y.2.2 = true
      · rw [hy, spins hy]
      · by_cases hb : isSpinner b = true
        · simp [hy, hb] at equal
        · rw [Bool.eq_false_iff.mpr hy, Bool.eq_false_iff.mpr hb]
    have strict := rest same
    cases levels with
    | false =>
      simp only [Bool.false_eq_true, if_false] at strict order
      omega
    | true =>
      simp only [if_true] at strict order
      omega

theorem First.head {l : List (Nat × Nat × Block)} {levels : Bool} {b : Block} {x : Nat × Nat} (h : Claims.First l levels b x) :
    ∃ r, candidates levels l = (x.1, x.2, b) :: r :=
  head_of_pairwise (candidates_pairwise levels l) (mem_candidates.mpr h.1) fun _ hy hne => First.not_before h (mem_candidates.mp hy) hne

theorem askPreempt_asks {s : State} {c sl : Nat} {b : Block} (hb : blockOf s c sl = some b) (hp : b.want.preempt = false) (hc : b.coop = false)
    (ht : b.twin = none) : Claims.Asked s (askPreempt s c sl) c sl b := by
  simp only [askPreempt, hb, hc, ht, Bool.false_eq_true, if_false]
  refine ⟨by simp [hb, hp], rfl, fun d sm h => blockOf_modBlock_ne s _ fun e => h (by rw [e.1, e.2])⟩

/-- The block that comes first among the candidates is asked to leave. -/
theorem preemptOne_asks {s : State} {p c sl : Nat} {cols : List Nat} {below : Option Nat} {b : Block} (hb : blockOf s c sl = some b)
    (fresh_ : ∀ x ∈ movable s p cols, x.2.2.want.preempt = false ∧ x.2.2.fromResume = none) (hc : b.coop = false) (ht : b.twin = none)
    (first : Claims.First ((movable s p cols).filter fun x => below.all fun k => decide (x.2.2.prio < k)) below.isSome b (c, sl)) :
    Claims.Asked s (preemptOne s p cols below) c sl b := by
  have mine := List.mem_filter.mp first.1
  have none_ : ((movable s p cols).any fun x => x.2.2.want.preempt) = false :=
    List.any_eq_false.mpr fun x hx => by simp [(fresh_ x hx).1]
  obtain ⟨r, head⟩ := First.head first
  have asked : preemptOne s p cols below = askPreempt s c sl := by
    simp only [preemptOne, none_, Bool.false_eq_true, if_false]
    rw [List.filter_congr (l := movable s p cols) (q := fun x => below.all fun k => decide (x.2.2.prio < k))]
    · unfold candidates at head
      rw [head]
    · intro x hx
      rw [(fresh_ x hx).2]
      cases below <;> rfl
  rw [asked]
  exact askPreempt_asks hb (fresh_ _ mine.1).1 hc ht

end Sys2Proof.Machine
end

/-! ## Deadlines (R40, R344, R345) -/
section
namespace Sys2Proof.Machine

variable {s : State} {n c sl : Nat} {la : Launch} {o : KObj} {p : Partition} {b : Block}

theorem coresFor_full (full : ∀ x, fitsCore s la.part x (needOf o la.lpb) = false) (bidx : Nat) (ok : Nat → Bool) :
    coresFor s la bidx (needOf o la.lpb) ok = [] := by
  simp [coresFor, full]

theorem allowedCols_ungrouped (h : la.lpb.cgb = 0) (bidx : Nat) : allowedCols la bidx = selected la.lpb := by
  simp [allowedCols, h]

namespace Waits

theorem launchOf_eq (w : Claims.Waits s n la o p) : launchOf s n = some la := by simp [launchOf, w.launches, Table.get?]

theorem waiting_eq (w : Claims.Waits s n la o p) : waiting la = true := by
  obtain ⟨status, fault, next⟩ := w.alive
  simp [waiting, status, fault, next]

end Waits

/-- The oldest waiting work of its level, past its deadline, has one block asked to leave. -/
theorem placementDeadline_asks (w : Claims.Waits s n la o p) (full : ∀ x, fitsCore s la.part x (needOf o la.lpb) = false)
    (late : la.waitSince + usCycles p.placement < s.cycle) (hb : blockOf s c sl = some b)
    (first : Claims.First ((movable s la.part (selected la.lpb)).filter fun x => x.2.2.prio < la.lpb.level) true b (c, sl))
    (fresh_ : ∀ x ∈ movable s la.part (selected la.lpb), x.2.2.want.preempt = false ∧ x.2.2.fromResume = none)
    (hc : b.coop = false) (ht : b.twin = none) : ∃ t, exec (.placementDeadline n) s = .next t ∧ Claims.Asked s t c sl b := by
  have fits : lowestPlace s n la.next (fun _ => true) = none := by
    simp [lowestPlace, Waits.launchOf_eq w, w.object, coresFor_full full]
  have run : exec (.placementDeadline n) s = .next (preemptOne s la.part (selected la.lpb) (some la.lpb.level)) := by
    have e : exec (.placementDeadline n) s = execPlacementDeadline n s := rfl
    rw [e]
    simp [execPlacementDeadline, Waits.launchOf_eq w, w.part, w.launches, fits, Waits.waiting_eq w, allowedCols_ungrouped w.plain.2.2,
      Nat.not_le.mpr late]
  exact ⟨_, run, preemptOne_asks hb fresh_ hc ht first⟩

/-- A saved block past its deadline has one block asked to leave. -/
theorem resumeDeadline_asks {part : Nat} {r : Saved} (hp : partOf s part = some p) (hr : p.resume = [r]) (page : r.page = none)
    (mates : r.blk.coop = false) (late : r.at_ + usCycles p.resumeUs < s.cycle) (full : coresForSaved s r = [])
    (hla : launchOf s r.launch = some la) (cgb : la.lpb.cgb = 0) (hb : blockOf s c sl = some b) (hc : b.coop = false) (ht : b.twin = none)
    (first : Claims.First (movable s part (selected la.lpb)) false b (c, sl))
    (fresh_ : ∀ x ∈ movable s part (selected la.lpb), x.2.2.want.preempt = false ∧ x.2.2.fromResume = none) :
    ∃ t, exec (.resumeDeadline part) s = .next t ∧ Claims.Asked s t c sl b := by
  have ready : savedReady s p r = true := by simp [savedReady, page, mates]
  have due : overdue s p r = true := by simp [overdue, late]
  have run : exec (.resumeDeadline part) s = .next (preemptOne s part (selected la.lpb) none) := by
    have e : exec (.resumeDeadline part) s = execResumeDeadline part s := rfl
    rw [e]
    simp [execResumeDeadline, hp, hr, ready, due, full, hla, allowedCols_ungrouped cgb, sortBy, sortBy.ins]
  refine ⟨_, run, preemptOne_asks hb fresh_ hc ht ?_⟩
  simpa using first

end Sys2Proof.Machine
end

/-! ## Placing a block (R41 to R43, R46) -/
section
namespace Sys2Proof.Machine

variable {s t u : State} {n c sl : Nat} {la : Launch} {o : KObj} {p : Partition} {b : Block}

/-! ### Where it may go -/

theorem roomFor_of_holds {k : Core} {l : Lpb} (h : Claims.Holds k o l) : roomFor k (needOf o l) = true := by
  obtain ⟨slots, gangs, rows, bytes, claims⟩ := h
  have free : ∀ e ∈ k.slots, e.2.claim.free o.claim = true := fun e he => by
    obtain ⟨acc, tb, ag, cv, q⟩ := claims e he
    simp [Claim.free, acc, tb, ag, cv, q]
  have all : k.slots.all (fun e => e.2.claim.free o.claim) = true := List.all_eq_true.mpr free
  simp only [roomFor, needOf, Block.need, List.map_cons, List.map_map, Function.comp_def, List.sum_cons, all, Bool.and_true, Bool.and_eq_true,
    decide_eq_true_eq]
  exact ⟨⟨⟨slots, by omega⟩, by omega⟩, by omega⟩

theorem usable_of_serving {q x : Nat} (h : Claims.Serving s q x) : usable s q x = true ∧ (coreOf s x).fabricOf = none ∧ (coreOf s x).reserved = none := by
  obtain ⟨held, ⟨quarantined, clearing, faulted, reclaiming⟩, fabric, reserved⟩ := h
  exact ⟨by simp [usable, columnOfCore, held, quarantined, clearing, faulted, reclaiming], fabric, reserved⟩

theorem fitsCore_of_fitsAt (h : Claims.FitsAt s la o c) : fitsCore s la.part c (needOf o la.lpb) = true := by
  have serving := fun x h1 h2 => usable_of_serving (h.serving x h1 h2)
  by_cases span : spanNeeded o la.lpb = 0
  · obtain ⟨use, fabric, reserved⟩ := serving c (Nat.le_refl c) (by omega)
    simp [fitsCore, needOf, span, use, fabric, reserved]
    simpa [needOf, span] using roomFor_of_holds (h.holds span)
  · obtain ⟨inColumn, holds, empty⟩ := h.span span
    have room := roomFor_of_holds holds
    have free : ∀ x ∈ upFrom c (spanNeeded o la.lpb), (usable s la.part x && (coreOf s x).fabricOf.isNone && (coreOf s x).reserved.isNone &&
        (coreOf s x).slots.isEmpty) = true := fun x hx => by
      obtain ⟨low, high⟩ := mem_upFrom.mp hx
      obtain ⟨use, fabric, reserved⟩ := serving x low (by omega)
      simp [use, fabric, reserved, empty x low high]
    simp only [fitsCore, room, Bool.and_true]
    simp only [needOf, beq_iff_eq, span, if_false, posOfCore, Bool.and_eq_true, List.all_eq_true]
    exact ⟨decide_eq_true inColumn, fun x hx => by simpa using free x hx⟩

theorem mem_coresFor {ok : Nat → Bool} (h : Claims.FitsAt s la o c) (coop : la.lpb.coop = false) (cgb : la.lpb.cgb = 0) (hok : ∀ x, ok x = true)
    (bidx : Nat) : c ∈ coresFor s la bidx (needOf o la.lpb) ok := by
  obtain ⟨bound, mask⟩ := h.selected
  have room : ∀ col, groupRoom s la bidx col (needOf o la.lpb) ok = true := fun col => by simp [groupRoom, coop]
  simp only [coresFor, allowedCols_ungrouped cgb, selected, List.mem_flatMap, List.mem_filter, List.mem_range, mem_upFrom, room]
  exact ⟨c / 6, ⟨⟨by omega, mask⟩, trivial⟩, by omega, by simp [fitsCore_of_fitsAt h, hok]⟩

theorem quiescedPart_none (h : ∀ f ∈ s.iod.funcs, f.2.quiesced = false) (q : Nat) : quiescedPart s q = false := by
  refine List.any_eq_false.mpr fun f hf => ?_
  simp [h f hf]

/-- The only launch of a partition where no saved block waits may take any core. -/
theorem mayPlaceOn_alone (w : Claims.Waits s n la o p) (resume : p.resume = []) (running : ∀ f ∈ s.iod.funcs, f.2.quiesced = false) (x : Nat) :
    mayPlaceOn s n la x = true := by
  simp [mayPlaceOn, w.part, w.launches, resume, quiescedPart_none running]

/-! ### What taking the place changes -/

/-- From `s` to `t` no byte changes and no block but that at `c`, `sl`. -/
structure Beside (c sl : Nat) (s t : State) : Prop where
  mem : t.mem = s.mem
  others : ∀ d sm, (d, sm) ≠ (c, sl) → blockOf t d sm = blockOf s d sm

namespace Beside

theorem trans (h : Beside c sl s t) (k : Beside c sl t u) : Beside c sl s u :=
  ⟨k.mem.trans h.mem, fun d sm hd => (k.others d sm hd).trans (h.others d sm hd)⟩

theorem of_slots (hm : t.mem = s.mem) (h : ∀ x, x ≠ c → (coreOf t x).slots = (coreOf s x).slots)
    (hc : ∀ sm, sm ≠ sl → Table.get? (coreOf t c).slots sm = Table.get? (coreOf s c).slots sm) : Beside c sl s t := by
  refine ⟨hm, fun d sm hd => ?_⟩
  by_cases e : d = c
  · subst e
    exact hc sm fun e => hd (by rw [e])
  · rw [blockOf, h d e]
    rfl

theorem modBlock (s : State) (f : Block → Block) : Beside c sl s (Machine.modBlock s c sl f) :=
  ⟨rfl, fun d sm hd => blockOf_modBlock_ne s f fun e => hd (by rw [e.1, e.2])⟩

theorem modCore (s : State) (x : Nat) (f : Core → Core) (hf : ∀ k, (f k).slots = k.slots) : Beside c sl s (Machine.modCore s x f) := by
  refine ⟨rfl, fun d sm _ => ?_⟩
  by_cases e : x = d
  · subst e; simp [blockOf, hf]
  · simp [blockOf, coreOf_modCore_ne s f e]

theorem modLaunch (s : State) (m : Nat) (f : Launch → Launch) : Beside c sl s (Machine.modLaunch s m f) := ⟨rfl, fun _ _ _ => rfl⟩

end Beside

/-- The cores of a list, reserved for a block. -/
theorem coreOf_reserve (h : Nat × Nat) (l : List Nat) (s : State) (d : Nat) :
    coreOf (l.foldl (fun s x => modCore s x fun k => { k with reserved := some h }) s) d =
      if d ∈ l then { coreOf s d with reserved := some h } else coreOf s d := by
  induction l generalizing s with
  | nil => simp
  | cons x r ih =>
    rw [List.foldl_cons, ih]
    by_cases e : x = d
    · subst e; simp
    · simp [coreOf_modCore_ne s _ e, Ne.symm e]

/-- The slots, reservations and lines of the cores once a block is seated. -/
theorem seat_coreOf (s : State) (c sl span : Nat) (b : Block) (x : Nat) :
    ((coreOf (seat s c sl span b) x).slots = if x = c then Table.set (coreOf s c).slots sl b else (coreOf s x).slots) ∧
    ((coreOf (seat s c sl span b) x).reserved = if x ∈ upFrom c span then some (c, sl) else (coreOf s x).reserved) ∧
    ((coreOf (seat s c sl span b) x).l1 = if x = c then (coreOf s c).l1.filter fun f => f.state != .clean else (coreOf s x).l1) := by
  by_cases e : x = c
  · subst e
    simp only [seat, dropClean, setFrames, framesOf, coreOf_modCore_self, resetClaim, coreOf_reserve]
    by_cases h : x ∈ upFrom x span <;> simp [h]
  · simp only [seat, dropClean, setFrames, resetClaim, coreOf_modCore_ne _ _ (Ne.symm e), coreOf_reserve]
    by_cases h : x ∈ upFrom c span <;> simp [h, e]

end Sys2Proof.Machine
end

/-! ## A block placed (R18, R46, R62, R66) -/
section
namespace Sys2Proof.Machine

variable {s t u : State} {n c sl : Nat} {la : Launch} {o : KObj} {p : Partition} {b : Block}

theorem reserve_mem (h : Nat × Nat) (l : List Nat) (s : State) :
    (l.foldl (fun s x => modCore s x fun k => { k with reserved := some h }) s).mem = s.mem := by
  induction l generalizing s with
  | nil => rfl
  | cons x r ih => rw [List.foldl_cons, ih]; rfl

theorem seat_beside (s : State) (c sl span : Nat) (b : Block) : Beside c sl s (seat s c sl span b) := by
  refine .of_slots ?_ (fun x hx => ?_) fun sm hsm => ?_
  · exact reserve_mem _ _ _
  · simp [(seat_coreOf s c sl span b x).1, hx]
  · simp [(seat_coreOf s c sl span b c).1, Table.get?_set_ne _ _ hsm.symm]

theorem blockOf_seat (s : State) (c sl span : Nat) (b : Block) : blockOf (seat s c sl span b) c sl = some b := by
  simp [blockOf, (seat_coreOf s c sl span b c).1]

theorem reserve_launches (h : Nat × Nat) (l : List Nat) (s : State) :
    (l.foldl (fun s x => modCore s x fun k => { k with reserved := some h }) s).launches = s.launches ∧
    (l.foldl (fun s x => modCore s x fun k => { k with reserved := some h }) s).iod = s.iod := by
  induction l generalizing s with
  | nil => exact ⟨rfl, rfl⟩
  | cons x r ih => rw [List.foldl_cons]; exact ih _

theorem seat_launches (s : State) (c sl span : Nat) (b : Block) : (seat s c sl span b).launches = s.launches :=
  (reserve_launches _ _ _).1
theorem seat_iod (s : State) (c sl span : Nat) (b : Block) : (seat s c sl span b).iod = s.iod :=
  (reserve_launches _ _ _).2

/-- Fabric mode is entered by the reserved cores, and nothing else changes (R18). -/
theorem coreOf_enterFabric (s : State) (c sl x : Nat) :
    coreOf (enterFabric s c sl) x = if (coreOf s x).reserved == some (c, sl) then { coreOf s x with fabricOf := some (c, sl) } else coreOf s x := by
  unfold coreOf enterFabric Table.getD
  induction s.cores with
  | nil => rfl
  | cons e r ih =>
    obtain ⟨k, v⟩ := e
    by_cases h : k = x
    · by_cases hv : v.reserved = some (c, sl) <;> simp [Table.get?, h, hv]
    · simp only [List.map_cons, Table.get?] at ih ⊢
      split <;> simpa [h] using ih

theorem enterFabric_slots (s : State) (c sl x : Nat) : (coreOf (enterFabric s c sl) x).slots = (coreOf s x).slots := by
  rw [coreOf_enterFabric]; split <;> rfl
theorem enterFabric_reserved (s : State) (c sl x : Nat) : (coreOf (enterFabric s c sl) x).reserved = (coreOf s x).reserved := by
  rw [coreOf_enterFabric]; split <;> rfl
theorem enterFabric_l1 (s : State) (c sl x : Nat) : (coreOf (enterFabric s c sl) x).l1 = (coreOf s x).l1 := by
  rw [coreOf_enterFabric]; split <;> rfl

/-- A block as it stands in its slot: seated, its lines dropped, its fabric entered if it is spatial. -/
def seated (s : State) (c sl span : Nat) (b : Block) : State :=
  if b.exec.model == .spatial then enterFabric (seat s c sl span b) c sl else seat s c sl span b

/-- What is so of a block just seated. -/
structure Seated (c sl span : Nat) (b : Block) (s t : State) : Prop where
  beside : Beside c sl s t
  block : blockOf t c sl = some b
  launches : t.launches = s.launches
  reserved : ∀ x ∈ upFrom c span, (coreOf t x).reserved = some (c, sl)
  cold : (∀ f ∈ (coreOf s c).l1, f.state = .clean) → (coreOf t c).l1 = []

theorem seated_seated (s : State) (c sl span : Nat) (b : Block) : Seated c sl span b s (seated s c sl span b) := by
  have plain : Seated c sl span b s (seat s c sl span b) := by
    refine ⟨seat_beside s c sl span b, blockOf_seat s c sl span b, seat_launches s c sl span b, fun x hx => ?_, fun h => ?_⟩
    · simp [(seat_coreOf s c sl span b x).2.1, hx]
    · simp only [(seat_coreOf s c sl span b c).2.2, if_true]
      exact List.filter_eq_nil_iff.mpr fun f hf => by simp [h f hf]
  unfold seated
  split
  · have slots := fun x => enterFabric_slots (seat s c sl span b) c sl x
    have beside : Beside c sl (seat s c sl span b) (enterFabric (seat s c sl span b) c sl) :=
      .of_slots rfl (fun x _ => slots x) fun sm _ => by rw [slots]
    refine ⟨plain.beside.trans beside, ?_, plain.launches, fun x hx => ?_, fun h => ?_⟩
    · rw [← plain.block, blockOf, slots]; rfl
    · rw [enterFabric_reserved]; exact plain.reserved x hx
    · rw [enterFabric_l1]; exact plain.cold h
  · exact plain

theorem giveWays_cold (h : (coreOf s c).l1 = []) (ways : Nat) : giveWays s c ways = some s := by simp [giveWays, framesOf, h]

/-- A block takes its window at once, or begins to wait for one, where no line is cached. -/
theorem takeWindow_cold (hb : blockOf s c sl = some b) (cold : (coreOf s c).l1 = []) :
    ∃ f : Block → Block, (∃ g z, f b = (b.modStage g).modExec fun e => { e with sealedWait := z }) ∧
      (takeWindow s c sl = s ∧ f b = b ∨ takeWindow s c sl = modBlock s c sl f) := by
  simp only [takeWindow, hb]
  split
  · exact ⟨id, ⟨id, b.exec.sealedWait, rfl⟩, .inl ⟨rfl, rfl⟩⟩
  · split
    · rw [giveWays_cold (by simpa using cold)]
      exact ⟨_, ⟨_, _, rfl⟩, .inr rfl⟩
    · exact ⟨_, ⟨id, _, rfl⟩, .inr rfl⟩

end Sys2Proof.Machine
end

/-! ## BLOCK_PLACEMENT of a launch's next block (R39, R46) -/
section
namespace Sys2Proof.Machine

variable {s t u : State} {n c sl : Nat} {la : Launch} {o : KObj} {p : Partition} {b : Block} {v : VSec}

/-- A new block, its snapshot taken and its window asked for. -/
def Block.IsPlaced (b nb : Block) : Prop :=
  ∃ m g z, b = ((nb.modMem fun x => { x with snap := m }).modStage g).modExec fun e => { e with sealedWait := z }

theorem modBlock_core {β : Type} (g : Core → β) (hg : ∀ k : Core, ∀ l, g { k with slots := l } = g k) (s : State) (c sl : Nat) (f : Block → Block)
    (x : Nat) : g (coreOf (modBlock s c sl f) x) = g (coreOf s x) := by
  by_cases e : c = x
  · subst e; rw [coreOf_modBlock_self, hg]
  · rw [coreOf_modBlock_ne s sl f e]
theorem modBlock_reserved (s : State) (c sl : Nat) (f : Block → Block) (x : Nat) :
    (coreOf (modBlock s c sl f) x).reserved = (coreOf s x).reserved := modBlock_core (·.reserved) (fun _ _ => rfl) s c sl f x
theorem modBlock_l1 (s : State) (c sl : Nat) (f : Block → Block) (x : Nat) :
    (coreOf (modBlock s c sl f) x).l1 = (coreOf s x).l1 := modBlock_core (·.l1) (fun _ _ => rfl) s c sl f x

/-- The next block of a launch in its slot, its snapshot taken, before it asks for a window. -/
def windowless (s : State) (n : Nat) (la : Launch) (o : KObj) (c sl : Nat) : State :=
  let t := seated s c sl (spanNeeded o la.lpb) (newBlock s n la o la.next)
  modLaunch (modBlock t c sl fun b => b.modMem fun x => { x with snap := some (takeSnapshot t c b 0) }) n fun l => noteGroup l la.next c

/-- What is so of it. -/
theorem windowless_seated (s : State) (la : Launch) (o : KObj) (c sl : Nat) (hla : launchOf s n = some la) (cgb : la.lpb.cgb = 0) :
    ∃ b, Beside c sl s (windowless s n la o c sl) ∧ blockOf (windowless s n la o c sl) c sl = some b ∧ b.IsPlaced (newBlock s n la o la.next) ∧
      launchOf (windowless s n la o c sl) n = some la ∧
      (∀ x ∈ upFrom c (spanNeeded o la.lpb), (coreOf (windowless s n la o c sl) x).reserved = some (c, sl)) ∧
      ((∀ f ∈ (coreOf s c).l1, f.state = .clean) → (coreOf (windowless s n la o c sl) c).l1 = []) := by
  obtain ⟨beside, block, launches, reserved, cold⟩ := seated_seated s c sl (spanNeeded o la.lpb) (newBlock s n la o la.next)
  have ungrouped : noteGroup la la.next c = la := by simp [noteGroup, cgb]
  simp only [launchOf] at hla
  unfold windowless
  generalize seated s c sl (spanNeeded o la.lpb) (newBlock s n la o la.next) = t at *
  refine ⟨_, ?_, ?_, ⟨some (takeSnapshot t c (newBlock s n la o la.next) 0), id, none, rfl⟩, ?_, fun x hx => ?_, fun h => ?_⟩
  · exact (beside.trans (.modBlock t _)).trans (.modLaunch _ n _)
  · exact (blockOf_modBlock_self t c sl _).trans (by rw [block]; rfl)
  · simp [launchOf, modLaunch, launches, hla, ungrouped]
  · rw [← reserved x hx]
    exact modBlock_reserved t c sl _ x
  · exact (modBlock_l1 t c sl _ c).trans (cold h)

/-- One block is placed where it fits. -/
theorem placeAt_fits (w : Claims.Waits s n la o p) (h : Claims.FitsAt s la o c) {ok : Nat → Bool} (hok : ∀ x, ok x = true) (hsl : sl < 8)
    (free : blockOf s c sl = none) (clean : ∀ f ∈ (coreOf s c).l1, f.state = .clean) :
    ∃ t b, placeAt s n la.next c sl ok = some t ∧ Beside c sl s t ∧ blockOf t c sl = some b ∧ b.IsPlaced (newBlock s n la o la.next) ∧
      launchOf t n = some la ∧ ∀ x ∈ upFrom c (spanNeeded o la.lpb), (coreOf t x).reserved = some (c, sl) := by
  obtain ⟨coop, det, cgb⟩ := w.plain
  have fits : (coresFor s la la.next (needOf o la.lpb) ok).contains c = true := List.contains_iff_mem.mpr (mem_coresFor h coop cgb hok la.next)
  have run : placeAt s n la.next c sl ok = some (takeWindow (windowless s n la o c sl) c sl) := by
    have enter : ∀ x : State, takeStaging x la.part la.lpb.det = some x := fun x => by rw [det]; rfl
    have span : (needOf o la.lpb).span = spanNeeded o la.lpb := rfl
    have here : ¬8 ≤ sl := by omega
    simp only [placeAt, Waits.launchOf_eq w, w.object, fits, free, enter, span, windowless, seated, Option.map_some, Option.isSome_none,
      Bool.not_true, Bool.false_or, Bool.or_false, decide_eq_true_eq, ge_iff_le, here, if_false]
  obtain ⟨b, here, block, placed, launch, reserved, cold⟩ := windowless_seated (n := n) s la o c sl (Waits.launchOf_eq w) cgb
  generalize windowless s n la o c sl = u at *
  obtain ⟨f, ⟨g, z, hf⟩, took⟩ := takeWindow_cold (s := u) block (cold clean)
  have like : (f b).IsPlaced (newBlock s n la o la.next) := by
    obtain ⟨m, g', z', rfl⟩ := placed
    exact ⟨m, g ∘ g', z, hf⟩
  refine ⟨_, f b, run, ?_⟩
  obtain ⟨same, hb⟩ | changed := took
  · rw [same, hb]
    exact ⟨here, block, hb ▸ like, launch, reserved⟩
  · rw [changed]
    refine ⟨here.trans (.modBlock u f), ?_, like, launch, fun x hx => ?_⟩
    · rw [blockOf_modBlock_self]
      exact congrArg (Option.map f) block
    · rw [modBlock_reserved]
      exact reserved x hx

/-- BLOCK_PLACEMENT places the next block. -/
theorem blockPlacement_places (w : Claims.Waits s n la o p) (resume : p.resume = []) (running : ∀ f ∈ s.iod.funcs, f.2.quiesced = false)
    (h : Claims.FitsAt s la o c) (hsl : sl < 8) (free : blockOf s c sl = none) (clean : ∀ f ∈ (coreOf s c).l1, f.state = .clean) :
    ∃ t b, exec (.blockPlacement n c sl) s = .next t ∧ Beside c sl s t ∧ blockOf t c sl = some b ∧ b.IsPlaced (newBlock s n la o la.next) ∧
      (launchOf t n).map (·.next) = some (la.next + 1) ∧ ∀ x ∈ upFrom c (spanNeeded o la.lpb), (coreOf t x).reserved = some (c, sl) := by
  obtain ⟨t, b, run, beside, block, placed, launch, reserved⟩ := placeAt_fits w h (mayPlaceOn_alone w resume running) hsl free clean
  obtain ⟨status, fault, next⟩ := w.alive
  obtain ⟨coop, det, cgb⟩ := w.plain
  have more : ¬la.next ≥ la.lpb.nblk.toNat := by omega
  have single : isTwinned s la la.next = false := by simp [isTwinned, det]
  have e : exec (.blockPlacement n c sl) s = execBlockPlacement n c sl s := rfl
  refine ⟨_, b, ?_, beside.trans (.modLaunch t n fun l => { l with next := l.next + 1 + 0, waitSince := s.cycle }), block, placed, ?_, reserved⟩
  · rw [e]
    simp [execBlockPlacement, placeNext, placeBoth, Waits.launchOf_eq w, run, single, status, fault, more, coop, placeRest]
  · simp only [launchOf] at launch
    simp [launchOf, modLaunch, launch]

end Sys2Proof.Machine
end

/-! ## What a placed block begins with, and a saved block's restore (R46, R344, R430) -/
section
namespace Sys2Proof.Machine

variable {s t u : State} {n c sl : Nat} {la : Launch} {o : KObj} {p : Partition} {b : Block} {v : VSec}

/-- A threaded block's threads are all live at the entry. -/
theorem newBlock_threads (hv : o.vsec (startModel o la.lpb) = some v) (hm : startModel o la.lpb = .threaded) (bidx : Nat) :
    (newBlock s n la o bidx).exec.threads = List.replicate la.lpb.nthr.toNat { pc := v.entry, live := true, freeAt := s.cycle } := by
  rw [hm] at hv
  simp only [newBlock, hv, Option.map_some, Option.getD_some, hm, beq_self_eq_true, if_true]

/-- A control stream stands at the entry. -/
theorem newBlock_pc (hv : o.vsec (startModel o la.lpb) = some v) (hm : startModel o la.lpb ≠ .threaded) (bidx : Nat) :
    (newBlock s n la o bidx).exec.ctl.pc = v.entry := by
  simp [newBlock, hv, hm]

theorem newBlock_sregs (bidx : Nat) : (newBlock s n la o bidx).exec.ctl.sregs = [] := by
  simp only [newBlock]
  split <;> rfl

theorem setSvevt_beside (s : State) (x d j : Nat) (on : Bool) : Beside c sl s (setSvevt s x d j on) := .modCore s x _ fun _ => rfl

theorem setSvevt_block (s : State) (x d j : Nat) (on : Bool) (y e : Nat) : blockOf (setSvevt s x d j on) y e = blockOf s y e := by
  by_cases h : x = y
  · subst h; simp [blockOf, setSvevt, mirrorSv]
  · simp [blockOf, setSvevt, coreOf_modCore_ne s _ h]

/-- The event is set. -/
theorem setSvevt_on (s : State) {sl j : Nat} (hsl : sl < 8) (hj : j < 4) (c : Nat) : (coreOf (setSvevt s c sl j true) c).svevt.getLsbD (4 * sl + j) = true := by
  have bound : 4 * sl + j < 32 := by omega
  simp [setSvevt, mirrorSv, bound]

theorem partOf_modPart_self (s : State) (q : Nat) (f : Partition → Partition) : partOf (modPart s q f) q = (partOf s q).map f := by
  simp [partOf, modPart, modIod]

/-- A saved block as it is seated for its restore. -/
def restoring (s : State) (r : Saved) : Block :=
  { r.blk with
    phase := .restore, want := { epRest := r.blk.want.epRest }, svarg := BitVec.ofNat 57 r.area, placedAt := s.cycle, lastEp := s.cycle
    fromResume := some s.cycle, twin := none
    mem := { r.blk.mem with
      budget := r.budget, rowBytes := (savedNeed s r).rows, rows := [], rowPoison := [], preds := [], loc := [], locPoison := [] } }

/-- The state in which it has its slot. -/
def restored (s : State) (r : Saved) (c sl : Nat) : State :=
  setSvevt (modLaunch (modPart (seat s c sl (savedNeed s r).span (restoring s r)) r.blk.part fun q => { q with resume := q.resume.filter fun x => x != r })
    r.launch fun l => noteGroup l r.bidx c) c sl 2 true

theorem seatSaved_fits {r : Saved} (det : r.blk.det = 0) (fits : (coresForSaved s r).contains c = true) (hsl : sl < 8)
    (free : blockOf s c sl = none) : seatSaved s r c sl = some (restored s r c sl) := by
  have staged : takeStaging s r.blk.part r.blk.det = some s := by rw [det]; rfl
  have here : ¬8 ≤ sl := by omega
  simp only [seatSaved, fits, free, staged, Option.map_some, Option.isSome_none, Bool.not_true, Bool.false_or, Bool.or_false, decide_eq_true_eq,
    ge_iff_le, here, if_false, Block.modMem]
  rfl

theorem blockOf_restored (s : State) (r : Saved) (c sl : Nat) : blockOf (restored s r c sl) c sl = some (restoring s r) :=
  (setSvevt_block _ c sl 2 true c sl).trans (blockOf_seat s c sl _ _)

theorem restored_beside (s : State) (r : Saved) (c sl : Nat) : Beside c sl s (restored s r c sl) := by
  refine (seat_beside s c sl (savedNeed s r).span (restoring s r)).trans (.trans ?_ (setSvevt_beside _ c sl 2 true))
  exact ⟨rfl, fun _ _ _ => rfl⟩

/-- It is no longer in the queue. -/
theorem restored_resume {r : Saved} (hp : partOf s r.blk.part = some p) (hr : p.resume = [r]) :
    (partOf (restored s r c sl) r.blk.part).map (·.resume) = some [] := by
  have e : partOf (restored s r c sl) r.blk.part = partOf (modPart (seat s c sl (savedNeed s r).span (restoring s r)) r.blk.part
      fun q => { q with resume := q.resume.filter fun x => x != r }) r.blk.part := rfl
  have seated : partOf (seat s c sl (savedNeed s r).span (restoring s r)) r.blk.part = some p := by
    rw [partOf, seat_iod]; exact hp
  rw [e, partOf_modPart_self, seated]
  simp [hr]

/-- The only saved block of a partition, where nothing waits above it, is placed for restore. -/
theorem restorePlacement_seats {part : Nat} {r : Saved} (hp : partOf s part = some p) (hr : p.resume = [r]) (page : r.page = none)
    (coop : r.blk.coop = false) (twin : r.blk.twin = none) (det : r.blk.det = 0) (owner : r.blk.part = part)
    (running : ∀ f ∈ s.iod.funcs, f.2.quiesced = false) (top : ∀ e ∈ s.launches, waiting e.2 = false ∨ e.2.lpb.level ≤ r.prio)
    (fits : (coresForSaved s r).contains c = true) (hsl : sl < 8) (free : blockOf s c sl = none) :
    ∃ t b, exec (.restorePlacement part 0 c sl) s = .next t ∧ blockOf t c sl = some b ∧ t.mem = s.mem ∧ (partOf t part).map (·.resume) = some [] ∧
      b.phase = .restore ∧ b.svarg = BitVec.ofNat 57 r.area ∧ b.mem.budget = r.budget ∧ b.regs = r.blk.regs ∧
      (coreOf t c).svevt.getLsbD (4 * sl + 2) = true ∧ ∀ d sm, (d, sm) ≠ (c, sl) → blockOf t d sm = blockOf s d sm := by
  have ready : savedReady s p r = true := by simp [savedReady, page, coop]
  have above : (s.launches.any fun e => e.2.part == part && waiting e.2 && e.2.lpb.level > r.prio &&
      ((freeSlot (coreOf s c)).bind fun sl => placeNext s e.1 c sl).isSome) = false := by
    refine List.any_eq_false.mpr fun e he => ?_
    obtain idle | low := top e he
    · simp [idle]
    · simp [Nat.not_lt.mpr low]
  have e : exec (.restorePlacement part 0 c sl) s = execRestorePlacement part 0 c sl s := rfl
  have placed := seatSaved_fits det fits hsl free
  have run : exec (.restorePlacement part 0 c sl) s = .next (restored s r c sl) := by
    rw [e]
    simp [execRestorePlacement, hp, hr, ready, quiescedPart_none running, above, seatAll, seatBoth, placed, twin, coop]
  subst owner
  exact ⟨_, _, run, blockOf_restored s r c sl, (restored_beside s r c sl).mem, restored_resume hp hr, rfl, rfl, rfl, rfl,
    setSvevt_on _ hsl (by omega) c, (restored_beside s r c sl).others⟩

end Sys2Proof.Machine
end

/-! ## Stopping for a save (R104, R105, R428) -/
section
namespace Sys2Proof.Machine

variable {s t u : State} {c sl a : Nat} {p : Partition} {pool : Pool} {b b' : Block}

/-! ### The size of a save area (R432) -/

theorem filter_place {α : Type} {g : Nat × α → Bool} {k : Nat} {v : α} (hg : g (k, v) = false) (l : Table α) :
    (Store.place l k v).filter g = l.filter g := by
  induction l with
  | nil => simp [Store.place, hg]
  | cons e r ih =>
    simp only [Store.place]
    split
    · simp [hg]
    · simp [List.filter_cons, ih]

/-- Setting an entry shows in no selection of other entries. -/
theorem filter_tableSet {α : Type} {g : Nat × α → Bool} {k : Nat} (hg : ∀ v, g (k, v) = false) (t : Table α) (v : α) :
    (Table.set t k v).filter g = t.filter g := by
  rw [Table.set, filter_place (hg v), Table.erase, List.filter_filter]
  refine List.filter_congr fun e _ => ?_
  obtain ⟨j, x⟩ := e
  by_cases h : j = k
  · subst h; simp [hg]
  · simp [h]

/-- The other cores of a block's fabric, whatever changes on its own core. -/
theorem blockCores_modCore (s : State) (c sl : Nat) (f : Core → Core) : blockCores (modCore s c f) c sl = blockCores s c sl := by
  have others := filter_tableSet (g := fun e : Nat × Core => e.1 != c && e.2.fabricOf == some (c, sl)) (k := c) (by simp) s.cores (f (coreOf s c))
  simp only [blockCores, modCore, setCore, others]

theorem recordedMq_congr {x : Nat} (mq : (coreOf t x).mq = (coreOf s x).mq) (tiles : (coreOf t x).tiles = (coreOf s x).tiles) :
    recordedMq t x sl = recordedMq s x sl := by
  simp only [recordedMq, mq, tiles]

theorem recordedMq_modBlock (s : State) (c sl : Nat) (f : Block → Block) (x : Nat) : recordedMq (modBlock s c sl f) x sl = recordedMq s x sl :=
  recordedMq_congr (modBlock_core (·.mq) (fun _ _ => rfl) s c sl f x) (modBlock_core (·.tiles) (fun _ _ => rfl) s c sl f x)

theorem recordedAll_modBlock (s : State) (c sl : Nat) (f : Block → Block) : recordedAll (modBlock s c sl f) c sl = recordedAll s c sl := by
  simp only [recordedAll, recordedMq_modBlock]
  rw [modBlock, blockCores_modCore]

theorem copyRecs_modBlock (s : State) (c sl : Nat) (f : Block → Block) : copyRecs (modBlock s c sl f) c sl = copyRecs s c sl := by
  simp [copyRecs]

/-- The size of a save area depends on what is queued for the block and on its sizes alone. -/
theorem saveSize_congr {s t : State} (copies : copyRecs t c sl = copyRecs s c sl) (entries : recordedAll t c sl = recordedAll s c sl)
    (model : b'.exec.model = b.exec.model) (nthr : b'.nthr = b.nthr) (rows : b'.saveRows = b.saveRows) (claim : b'.claim = b.claim)
    (locb : b'.mem.locb = b.mem.locb) (snapBytes : b'.mem.snapBytes = b.mem.snapBytes) (det : b'.det = b.det)
    (staged : b'.stage.staged = b.stage.staged) (spatial : b.exec.model = .spatial → b'.fab = b.fab) (dump : Bool) :
    saveSize t c sl b' dump = saveSize s c sl b dump := by
  have lens : saveLens t c sl b' dump = saveLens s c sl b dump := by
    simp only [saveLens, copies, entries, model, nthr, rows, claim, locb, snapBytes, det, staged, drainRecords]
    by_cases h : b.exec.model = .spatial
    · simp only [spatial h]
    · have e : (b.exec.model == .spatial) = false := by simpa using h
      simp only [e, Bool.false_eq_true, if_false]
  rw [saveSize, saveSize, lens]

/-! ### The stop -/

/-- Keeping the latch operands of waiting streams changes nothing else of a block (R104). -/
theorem captureFor_capt (b : Block) (ts : List Nat) :
    b.sameButExec (b.captureFor ts) ∧
      { (b.captureFor ts).exec with threads := b.exec.threads, ctl := { (b.captureFor ts).exec.ctl with capt := b.exec.ctl.capt } } = b.exec := by
  unfold Block.captureFor
  split
  · exact ⟨rfl, rfl⟩
  · split
    · exact ⟨rfl, rfl⟩
    · refine ⟨rfl, ?_⟩
      by_cases h : b.exec.ctl.ownCapt = true <;> simp [Block.modCtl, h]

theorem captureFor_at (b : Block) (ts : List Nat) (l : Nat) : (b.captureFor ts).at l = b.at l := by
  by_cases h : b.exec.model = .threaded
  · have e : b.captureFor ts = b.modThreads ts fun t x => if x.ownCapt then
        { x with capt := captureAt ((b.exec.bundles.find? fun u => u.members.contains t).bind (·.line)) x.pc x.wait.toNat x.latches x.capt } else x := by
      simp [Block.captureFor, h]
    have model : ∀ f, (b.modThreads ts f).exec.model = .threaded := fun _ => h
    rw [e]
    simp only [Block.at, model, h, beq_self_eq_true, if_true, threadOf_modThreads]
    repeat' split
    all_goals rfl
  · have c : (b.exec.model == .threaded) = false := by simpa using h
    simp only [Block.captureFor, c, Bool.false_eq_true, if_false]
    repeat' split
    · rfl
    · simp only [Block.at, Block.modCtl, c, Bool.false_eq_true, if_false]
      split <;> rfl

/-- A stopped block has an area of the save pool, and PREEMPT is set (R428). -/
theorem stoppedForSave_room (hp : partOf s b.part = some p) (room : p.savePool.alloc (saveSize s c sl b false) = some (a, pool)) (hsl : sl < 8)
    (hb : blockOf s c sl = some b') :
    (stoppedForSave s c sl b).mem = s.mem ∧
      blockOf (stoppedForSave s c sl b) c sl = some { b' with phase := .stopped 1 { cause := 0 } [], svarg := BitVec.ofNat 57 a } ∧
      (coreOf (stoppedForSave s c sl b) c).svevt.getLsbD (4 * sl + 1) = true ∧
      (partOf (stoppedForSave s c sl b) b.part).map (·.savePool) = some pool := by
  have run : stoppedForSave s c sl b = setSvevt (modBlock (modPart s b.part fun p => { p with savePool := pool }) c sl fun b =>
      { b with phase := .stopped 1 { cause := 0 } [], svarg := BitVec.ofNat 57 a }) c sl 1 true := by
    simp only [stoppedForSave, hp, Option.bind_some, room]
  rw [run]
  refine ⟨rfl, ?_, setSvevt_on _ hsl (by omega) c, ?_⟩
  · rw [setSvevt_block, blockOf_modBlock_self, modPart, blockOf_modIod, hb]
    rfl
  · have e : ∀ t : State, partOf (setSvevt (modBlock t c sl fun b => { b with phase := .stopped 1 { cause := 0 } [], svarg := BitVec.ofNat 57 a }) c sl 1 true)
        b.part = partOf t b.part := fun _ => rfl
    rw [e, partOf_modPart_self, hp]
    rfl

/-- A block that has begun to stop. -/
def Block.leaving (b : Block) : Block := { b with phase := .stopping 1 { cause := 0 } [] }

theorem settleStop_leaving (hb : blockOf s c sl = some b.leaving) :
    settleStop s c sl = if b.streams.all b.atStop then stoppedForSave (modBlock s c sl fun x => x.captureFor x.streams) c sl b.leaving else s := by
  have stops : b.leaving.streams.all b.leaving.atStop = b.streams.all b.atStop := rfl
  have phase : b.leaving.phase = .stopping 1 { cause := 0 } [] := rfl
  simp only [settleStop, hb, phase, stops, beq_self_eq_true, if_true]

/-- Beginning to stop for a save: the block stops if its streams stand at stop places. -/
theorem beginSave_stops (hb : blockOf s c sl = some b) (hp : partOf s b.part = some p)
    (room : p.savePool.alloc (saveSize s c sl b false) = some (a, pool)) (hsl : sl < 8) :
    (beginSave s c sl).mem = s.mem ∧ if b.streams.all b.atStop then
        blockOf (beginSave s c sl) c sl = some { b.captureFor b.streams with phase := .stopped 1 { cause := 0 } [], svarg := BitVec.ofNat 57 a } ∧
        (coreOf (beginSave s c sl) c).svevt.getLsbD (4 * sl + 1) = true ∧ (partOf (beginSave s c sl) b.part).map (·.savePool) = some pool
      else blockOf (beginSave s c sl) c sl = some b.leaving := by
  have begun : blockOf (modBlock s c sl Block.leaving) c sl = some b.leaving := by rw [blockOf_modBlock_self, hb]; rfl
  have run : beginSave s c sl = settleStop (modBlock s c sl Block.leaving) c sl := rfl
  rw [run, settleStop_leaving begun]
  split
  · have captured : blockOf (modBlock (modBlock s c sl Block.leaving) c sl fun x => x.captureFor x.streams) c sl =
        some (b.leaving.captureFor b.streams) := by rw [blockOf_modBlock_self, begun]; rfl
    have size : saveSize (modBlock (modBlock s c sl Block.leaving) c sl fun x => x.captureFor x.streams) c sl b.leaving false = saveSize s c sl b false :=
      saveSize_congr ((copyRecs_modBlock _ c sl _).trans (copyRecs_modBlock s c sl _))
        ((recordedAll_modBlock _ c sl _).trans (recordedAll_modBlock s c sl _)) rfl rfl rfl rfl rfl rfl rfl rfl (fun _ => rfl) false
    have same : ({ b.leaving.captureFor b.streams with phase := .stopped 1 { cause := 0 } [], svarg := BitVec.ofNat 57 a } : Block) =
        { b.captureFor b.streams with phase := .stopped 1 { cause := 0 } [], svarg := BitVec.ofNat 57 a } := by
      unfold Block.captureFor
      by_cases h : b.exec.model == .threaded <;> by_cases g : b.streams.isEmpty <;> simp [h, g, Block.leaving]
    have stopped := stoppedForSave_room (s := modBlock (modBlock s c sl Block.leaving) c sl fun x => x.captureFor x.streams) (b := b.leaving) hp
      (by rw [size]; exact room) hsl captured
    rwa [same] at stopped
  · exact ⟨rfl, begun⟩

/-- PREEMPTION of a block in an open region. -/
theorem preemption_stops (hb : blockOf s c sl = some b) (want : b.want.preempt = true) (phase : b.phase = .running) (open_ : isSealed s b = false)
    (hp : partOf s b.part = some p) (room : p.savePool.alloc (saveSize s c sl b false) = some (a, pool)) (hsl : sl < 8) :
    ∃ t b', exec (.preemption c sl) s = .next t ∧ blockOf t c sl = some b' ∧ t.mem = s.mem ∧
      { b' with phase := .running, svarg := 0, exec := b.exec } = { b with svarg := 0 } ∧
      { b'.exec with threads := b.exec.threads, ctl := { b'.exec.ctl with capt := b.exec.ctl.capt } } = b.exec ∧ (∀ l, b'.at l = b.at l) ∧
      if b.streams.all b.atStop then (∃ i, b'.phase = .stopped 1 i []) ∧ b'.svarg = BitVec.ofNat 57 a ∧ (coreOf t c).svevt.getLsbD (4 * sl + 1) = true ∧
        (partOf t b.part).map (·.savePool) = some pool
      else ∃ i, b'.phase = .stopping 1 i [] := by
  have run : exec (.preemption c sl) s = .next (beginSave s c sl) := by
    have e : exec (.preemption c sl) s = execPreemption c sl s := rfl
    rw [e]
    simp [execPreemption, hb, want, phase, open_, saveRoom, hp, room]
  obtain ⟨mem, stops⟩ := beginSave_stops hb hp room hsl
  split at stops
  · rename_i all
    obtain ⟨block, event, taken⟩ := stops
    obtain ⟨same, capt⟩ := captureFor_capt b b.streams
    refine ⟨_, _, run, block, mem, ?_, capt, captureFor_at b b.streams, ?_⟩
    · rw [same, ← phase]
    · rw [if_pos all]
      exact ⟨⟨_, rfl⟩, rfl, event, taken⟩
  · rename_i some_
    refine ⟨_, _, run, stops, mem, ?_, rfl, fun _ => rfl, ?_⟩
    · rw [← phase]; rfl
    · rw [if_neg some_]
      exact ⟨_, rfl⟩

end Sys2Proof.Machine
end

/-! ## Rolling back with nothing in flight (R71, R428) -/
section
namespace Sys2Proof.Machine

variable {s t u : State} {c sl a : Nat} {p : Partition} {pool : Pool} {b b' b'' : Block} {n : Snapshot}

/-! ### The values of the snapshot -/

/-- A block without the values and counts that a rollback sets. -/
def Block.valueless (b : Block) : Block :=
  { b with
    meters := [], regs := { b.regs with fstat := 0, vlen := 0 }, fab := {}, exec := { b.exec with threads := [], ctl := {} }
    mem := { b.mem with rows := [], rowPoison := [], preds := [], loc := [], locPoison := [] } }

/-- From `b` to `b'` values and counts have changed, and the threads' liveness. -/
structure Block.Revalued (b b' : Block) : Prop where
  rest : b'.valueless = b.valueless
  threads : b'.exec.threads.length = b.exec.threads.length

namespace Block.Revalued

theorem refl (b : Block) : b.Revalued b := ⟨rfl, rfl⟩

theorem trans (h : b.Revalued b') (k : b'.Revalued b'') : b.Revalued b'' := ⟨k.rest.trans h.rest, k.threads.trans h.threads⟩

theorem foldl {α : Type} {f : Block → α → Block} (hf : ∀ (b : Block) x, b.Revalued (f b x)) (l : List α) (b : Block) : b.Revalued (l.foldl f b) := by
  induction l generalizing b with
  | nil => exact refl b
  | cons x r ih => exact (hf b x).trans (ih _)

theorem writeLoc (b : Block) (m : Model) (e : MapEntry) (t v : Nat) (bad : Bool) : b.Revalued (Machine.writeLoc b m e t v bad) := by
  unfold Machine.writeLoc
  extract_lets l w per
  split
  · split <;> exact ⟨rfl, rfl⟩
  · split
    · simp only [Block.modMem]
      split <;> exact ⟨rfl, rfl⟩
    · exact ⟨rfl, rfl⟩
  · exact ⟨rfl, rfl⟩
  · exact ⟨rfl, rfl⟩
  · exact refl b

theorem writeLive (b : Block) (m : Model) (e : MapEntry) (live : List Bool) : b.Revalued (Machine.writeLive b m e live) := by
  unfold Machine.writeLive
  extract_lets l
  split
  · exact ⟨rfl, rfl⟩
  · exact ⟨rfl, rfl⟩
  · exact refl b

theorem modThreads (b : Block) (ts : List Nat) (f : Nat → Thread → Thread) : b.Revalued (b.modThreads ts f) :=
  ⟨rfl, by simp [Block.modThreads, Block.modExec]⟩

end Block.Revalued

/-- The snapshot's values are back in their places. -/
theorem restoreValues_revalued (s : State) (b : Block) (n : Snapshot) : b.Revalued (restoreValues s b n) := by
  unfold restoreValues
  extract_lets es m lives b'
  have values : b.Revalued b' := by
    refine Block.Revalued.foldl (fun b e => ?_) _ b
    obtain ⟨i, e⟩ := e
    dsimp only
    split
    · refine Block.Revalued.foldl (fun b t => ?_) _ b
      exact .writeLoc b _ _ _ _ _
    · split
      · refine Block.Revalued.foldl (fun b t => ?_) _ b
        exact .writeLoc b _ _ _ _ _
      · split
        · exact .writeLive b _ _ _
        · exact .refl b
  clear_value b'
  split
  · exact values.trans (.modThreads b' _ _)
  · exact values

/-- What a rollback gives back to the block. -/
def Block.valuesBack (s : State) (n : Snapshot) (b : Block) : Block :=
  let b := if n.ep == 0 then (b.modMem fun m => { m with rows := [], rowPoison := [], preds := [] }).modCtl fun x =>
    { x with sregs := [], spoison := [] } else b
  let b := { b with meters := b.meters.mapIdx fun i v => if i < 10 then 0 else v }
  let b := restoreValues s b n
  let b := n.ranges.foldl (fun b r => b.modMem fun m => m.storeLoc r.1 r.2 false) b
  let b := b.modMem fun m => { m with locPoison := n.rangeMarks ++ m.locPoison.filter fun w => !n.rangeMarks.contains w }
  b.modRegs fun r => { r with fstat := n.fstat, vlen := n.vlen }

theorem valuesBack_revalued (s : State) (n : Snapshot) (b : Block) : b.Revalued (b.valuesBack s n) := by
  unfold Block.valuesBack
  extract_lets b1 b2 b3 b4 b5
  have cleared : b.Revalued b1 := by
    unfold b1
    split <;> exact ⟨rfl, rfl⟩
  have counted : b1.Revalued b2 := ⟨rfl, rfl⟩
  have valued : b2.Revalued b3 := restoreValues_revalued s b2 n
  have ranged : b3.Revalued b4 := 
    .foldl (f := fun b r => b.modMem fun m => m.storeLoc r.1 r.2 false) (fun b r => ⟨rfl, rfl⟩) n.ranges b3
  have marked : b4.Revalued b5 := ⟨rfl, rfl⟩
  have noted : b5.Revalued (b5.modRegs fun r => { r with fstat := n.fstat, vlen := n.vlen }) := ⟨rfl, rfl⟩
  exact cleared.trans (counted.trans (valued.trans (ranged.trans (marked.trans noted))))

/-- The place a stream resumes at. -/
def Snapshot.placeOf (n : Snapshot) (t : Nat) (p : VAddr) : VAddr := ((n.resume.find? (·.1 == t)).map (·.2)).getD p

/-- Nothing of the region is left in the block. -/
def Block.emptied (b : Block) : Block :=
  (b.modStage fun g => { g with window := [], deferred := [], regionPins := [], bkpt := [] }).modExec fun e =>
    { e with bundles := [], grow := none, ticketAsk := none, placed := [], sealedWait := none }

/-- The threads of the block stand just after the EP. -/
def Block.threadsBack (n : Snapshot) (cycle : Nat) (b : Block) : Block :=
  b.modThreads (List.range b.nthr) fun t x =>
    { x with pc := n.placeOf t x.pc, wait := 0, latches := [], capt := [], line := none, freeAt := cycle }

/-- So does its control stream. -/
def Block.ctlBack (n : Snapshot) (b : Block) : Block :=
  b.modCtl fun x => { x with pc := n.placeOf 0 x.pc, wait := 0, latches := [], capt := [], line := none }

/-- The ports are as the snapshot has them, the buffers empty. -/
def Block.portsBack (n : Snapshot) (b : Block) : Block :=
  let back := fun (p : Port) =>
    { p with active := p.active.map fun a => { a with lines := [], out := [], headLine := none, scan := a.pos, waitPage := false } }
  { b with traps := [], fab := { b.fab with bufs := [], fwait := none, ports := n.ports.map fun (i, p) => (i, back p) } }

/-- A block rolled back, once its values are. -/
def Block.standBack (n : Snapshot) (cycle : Nat) (b : Block) : Block := ((b.emptied.threadsBack n cycle).ctlBack n).portsBack n

/-! ### The engines have nothing to settle -/

theorem culvertSettle_empty (h : ∀ e, Table.getD (coreOf s c).culvert e [] = []) (e f : Nat) : culvertSettle c e sl f s = s := by
  cases f <;> simp [culvertSettle, culvertLists, h]

theorem runHead_empty (h : (coreOf s c).mq = []) : runHead s c sl = none := by simp [runHead, mqOf, h]

theorem settleTiles_empty (hm : (coreOf s c).mq = []) (ht : (coreOf s c).tfq = []) (saving : Bool) (f : Nat) : settleTiles s c sl saving f = s := by
  cases f <;> simp [settleTiles, runHead_empty hm, ht]

theorem runTrels_empty (h : (coreOf s c).mq = []) : runTrels s c sl = s := by simp [runTrels, runTrels.go, h]

theorem spanOf_unfabric (hb : blockOf s c sl = some b) (model : b.exec.model ≠ .spatial) : settleEngines.spanOf s c sl = [c] := by
  simp [settleEngines.spanOf, hb, model]

theorem settleEngines_still (hb : blockOf s c sl = some b) (still : Still s c) (model : b.exec.model ≠ .spatial) : settleEngines s c sl = s := by
  simp [settleEngines, culvertSettle_empty still.copies, spanOf_unfabric hb model, settleTiles_empty still.matrix still.tiles,
    runTrels_empty still.matrix]

/-- From `s` to `t` the core at `c` has lost what a rollback takes from it: its blocks and what is queued elsewhere stay. -/
structure Unwinds (c sl : Nat) (s t : State) : Prop where
  mem : t.mem = s.mem
  iod : t.iod = s.iod
  cores : blockCores t c sl = blockCores s c sl
  slots : (coreOf t c).slots = (coreOf s c).slots
  matrix : (coreOf s c).mq = [] → (coreOf t c).mq = []
  culvert : (coreOf t c).culvert = (coreOf s c).culvert

theorem Unwinds.modCore (s : State) (f : Core → Core) (hs : ∀ k, (f k).slots = k.slots) (hm : ∀ k, k.mq = [] → (f k).mq = [])
    (hc : ∀ k, (f k).culvert = k.culvert) : Unwinds c sl s (modCore s c f) := by
  refine ⟨rfl, rfl, blockCores_modCore s c sl f, ?_, fun h => ?_, ?_⟩
  · rw [coreOf_modCore_self, hs]
  · rw [coreOf_modCore_self]; exact hm _ h
  · rw [coreOf_modCore_self, hc]

theorem Unwinds.pending (s : State) (l : List Pending) : Unwinds c sl s { s with pending := l } := ⟨rfl, rfl, rfl, rfl, id, rfl⟩

theorem Unwinds.trans (h : Unwinds c sl s t) (k : Unwinds c sl t u) : Unwinds c sl s u :=
  ⟨k.mem.trans h.mem, k.iod.trans h.iod, k.cores.trans h.cores, k.slots.trans h.slots, k.matrix ∘ h.matrix, k.culvert.trans h.culvert⟩

/-- A rollback with nothing in flight: the snapshot's values are back and the streams stand after their EP. -/
theorem rollback_still (hb : blockOf s c sl = some b) (still : Still s c) (model : b.exec.model ≠ .spatial) (pins : b.stage.regionPins = [])
    (snap : b.mem.snap = some n) :
    ∃ t, Unwinds c sl s t ∧ rollback s c sl = modBlock t c sl fun b => (b.valuesBack t n).standBack n t.cycle := by
  unfold rollback
  simp only [settleEngines_still hb still model, hb, pins, List.foldl_nil, snap, spanOf_unfabric hb model, List.foldl_cons]
  refine ⟨_, ?_, rfl⟩
  refine .trans ?_ (.modCore _ _ (fun _ => rfl) (fun _ h => h) fun _ => rfl)
  refine .trans ?_ (.pending _ _)
  refine .trans ?_ (.pending _ _)
  exact .modCore s _ (fun _ => rfl) (fun k h => by simp [h]) fun _ => rfl

end Sys2Proof.Machine
end

/-! ## PREEMPTION_DEADLINE (R428) -/
section
namespace Sys2Proof.Machine

variable {s t u : State} {c sl a : Nat} {p : Partition} {pool : Pool} {b b' : Block} {n : Snapshot}

/-- The sizes of a block and what it is part of, as a rollback leaves them. -/
theorem Block.Revalued.sizes (h : b.Revalued b') : b'.part = b.part ∧ b'.exec.model = b.exec.model ∧ b'.nthr = b.nthr ∧ b'.claim = b.claim ∧
    b'.mem.locb = b.mem.locb ∧ b'.mem.snapBytes = b.mem.snapBytes ∧ b'.mem.rowBytes = b.mem.rowBytes ∧ b'.det = b.det ∧
    b'.stage.staged = b.stage.staged := by
  have field : ∀ {β : Type} (f : Block → β), f b'.valueless = f b.valueless := fun f => congrArg f h.rest
  exact ⟨field Block.part, field (·.exec.model), field Block.nthr, field Block.claim, field (·.mem.locb), field (·.mem.snapBytes),
    field (·.mem.rowBytes), field Block.det, field (·.stage.staged)⟩

/-- Every stream of a block rolled back stands at a stop place. -/
theorem standBack_stops (n : Snapshot) (cycle : Nat) (b : Block) (ts : List Nat) : ts.all (b.standBack n cycle).atStop = true := by
  refine List.all_eq_true.mpr fun l _ => ?_
  by_cases h : b.exec.model = .threaded
  · have model : (b.standBack n cycle).exec.model = .threaded := h
    have bundles : (b.standBack n cycle).exec.bundles = [] := rfl
    simp [Block.atStop, model, bundles]
  · have model : (b.standBack n cycle).exec.model ≠ .threaded := h
    have line : (b.standBack n cycle).exec.ctl.line = none := rfl
    simp [Block.atStop, model, line, stopAt]

/-- The stream resumes where the snapshot says. -/
theorem standBack_pc {l cycle : Nat} {x : Nat × VAddr} (h : n.resume.find? (·.1 == l) = some x)
    (hl : if b.exec.model = .threaded then l < b.nthr ∧ l < b.exec.threads.length else l = 0) : ((b.standBack n cycle).at l).1 = x.2 := by
  have place : ∀ q, n.placeOf l q = x.2 := fun q => by simp [Snapshot.placeOf, h]
  by_cases m : b.exec.model = .threaded
  · rw [if_pos m] at hl
    have model : (b.standBack n cycle).exec.model = .threaded := m
    have thread := threadOf_modThreads b.emptied (List.range b.nthr) (fun t x =>
      { x with pc := n.placeOf t x.pc, wait := 0, latches := [], capt := [], line := none, freeAt := cycle }) l
    rw [if_pos ⟨List.mem_range.mpr hl.1, hl.2⟩] at thread
    have pc : (threadOf (b.standBack n cycle) l).pc = x.2 := (congrArg Thread.pc thread).trans (place _)
    simp only [Block.at, model, beq_self_eq_true, if_true, pc]
  · rw [if_neg m] at hl
    subst hl
    have model : (b.standBack n cycle).exec.model ≠ .threaded := m
    have pc : (b.standBack n cycle).exec.ctl.pc = x.2 := place _
    simp [Block.at, model, pc]

/-- Without a fabric a block has its own core alone. -/
theorem recordedAll_idle (fabric : ∀ e ∈ s.cores, e.2.fabricOf ≠ some (c, sl)) (cores : blockCores t c sl = blockCores s c sl)
    (matrix : (coreOf t c).mq = []) : recordedAll t c sl = [] := by
  have alone : blockCores s c sl = [c] := by
    have none_ : (s.cores.filter fun e => e.1 != c && e.2.fabricOf == some (c, sl)) = [] :=
      List.filter_eq_nil_iff.mpr fun e he => by simp [fabric e he]
    simp [blockCores, none_]
  simp [recordedAll, cores, alone, recordedMq, matrix]

theorem copyRecs_idle (h : ∀ e, Table.getD (coreOf t c).culvert e [] = []) : copyRecs t c sl = [] := by simp [copyRecs, h]

/-- Nothing is queued for a block rolled back, as nothing was before. -/
theorem Unwinds.idle (h : Unwinds c sl s t) (still : Still s c) (fabric : ∀ e ∈ s.cores, e.2.fabricOf ≠ some (c, sl)) :
    copyRecs t c sl = copyRecs s c sl ∧ recordedAll t c sl = recordedAll s c sl := by
  have culvert : ∀ e, Table.getD (coreOf t c).culvert e [] = [] := h.culvert ▸ still.copies
  rw [copyRecs_idle still.copies, recordedAll_idle fabric rfl still.matrix, copyRecs_idle culvert,
    recordedAll_idle fabric h.cores (h.matrix still.matrix)]
  exact ⟨rfl, rfl⟩

/-- A block that is to be saved at its EP. -/
def Block.toSave (b : Block) : Block := { b with want := { b.want with saveAtEp := true } }

/-- The block as `rollbackSave` has it before it begins to stop. -/
def Block.savedBack (s : State) (n : Snapshot) (b : Block) : Block := ((b.valuesBack s n).standBack n s.cycle).toSave

theorem standBack_sizes (n : Snapshot) (cycle : Nat) (v : Block) : (v.standBack n cycle).part = v.part ∧ (v.standBack n cycle).exec.model = v.exec.model ∧
    (v.standBack n cycle).regs = v.regs ∧ (v.standBack n cycle).claim = v.claim ∧ (v.standBack n cycle).mem = v.mem ∧
    (v.standBack n cycle).det = v.det ∧ (v.standBack n cycle).stage.staged = v.stage.staged := by
  simp only [Block.standBack, Block.portsBack, Block.ctlBack, Block.threadsBack, Block.emptied, Block.modCtl, Block.modThreads, Block.modExec,
    Block.modStage, and_self]

theorem savedBack_sizes (s : State) (n : Snapshot) (b : Block) : (b.savedBack s n).part = b.part ∧ (b.savedBack s n).exec.model = b.exec.model ∧
    (b.savedBack s n).nthr = b.nthr ∧ (b.savedBack s n).claim = b.claim ∧ (b.savedBack s n).mem.locb = b.mem.locb ∧
    (b.savedBack s n).mem.snapBytes = b.mem.snapBytes ∧ (b.savedBack s n).mem.rowBytes = b.mem.rowBytes ∧ (b.savedBack s n).det = b.det ∧
    (b.savedBack s n).stage.staged = b.stage.staged := by
  obtain ⟨part, model, nthr, claim, locb, snapBytes, rowBytes, det, staged⟩ := (valuesBack_revalued s n b).sizes
  obtain ⟨part', model', regs', claim', mem', det', staged'⟩ := standBack_sizes n s.cycle (b.valuesBack s n)
  unfold Block.savedBack
  generalize b.valuesBack s n = v at *
  generalize v.standBack n s.cycle = w at *
  have nthr' : w.nthr = v.nthr := congrArg (·.nthr.toNat) regs'
  exact ⟨part'.trans part, model'.trans model, nthr'.trans nthr, claim'.trans claim, (congrArg (·.locb) mem').trans locb,
    (congrArg (·.snapBytes) mem').trans snapBytes, (congrArg (·.rowBytes) mem').trans rowBytes, det'.trans det, staged'.trans staged⟩

/-- Nothing of the region is left in it. -/
theorem savedBack_back (s : State) (n : Snapshot) (b : Block) : (b.savedBack s n).exec.grow = none ∧ (b.savedBack s n).stage.window = [] ∧
    (b.savedBack s n).want.saveAtEp = true ∧ (b.savedBack s n).streams.all (b.savedBack s n).atStop = true := by
  unfold Block.savedBack
  generalize b.valuesBack s n = v
  exact ⟨rfl, rfl, rfl, standBack_stops n s.cycle v _⟩

theorem savedBack_saveSize (copies : copyRecs t c sl = copyRecs s c sl) (entries : recordedAll t c sl = recordedAll s c sl)
    (grow : b.exec.grow = none) (model : b.exec.model ≠ .spatial) : saveSize t c sl (b.savedBack u n) false = saveSize s c sl b false := by
  obtain ⟨-, model', nthr, claim, locb, snapBytes, rowBytes, det, staged⟩ := savedBack_sizes u n b
  have none_ := (savedBack_back u n b).1
  have rows : (b.savedBack u n).saveRows = b.saveRows := by
    simp only [Block.saveRows, none_, grow, rowBytes, Option.isSome_none, Bool.false_eq_true, if_false]
  exact saveSize_congr copies entries model' nthr rows claim locb snapBytes det staged (fun spatial => absurd spatial model) false

theorem savedBack_pc {l : Nat} {x : Nat × VAddr} (h : n.resume.find? (·.1 == l) = some x)
    (hl : if b.exec.model = .threaded then l < b.nthr ∧ l < b.exec.threads.length else l = 0) : ((b.savedBack s n).at l).1 = x.2 := by
  have revalued := valuesBack_revalued s n b
  obtain ⟨-, model', nthr, -⟩ := revalued.sizes
  rw [← model', ← nthr, ← revalued.threads] at hl
  unfold Block.savedBack
  generalize b.valuesBack s n = v at *
  exact standBack_pc h hl

/-- What is so of the state in which a block rolled back begins to stop. -/
theorem rollback_toSave (hb : blockOf s c sl = some b) (still : Still s c) (model : b.exec.model ≠ .spatial) (pins : b.stage.regionPins = [])
    (snap : b.mem.snap = some n) (grow : b.exec.grow = none) (fabric : ∀ e ∈ s.cores, e.2.fabricOf ≠ some (c, sl)) :
    ∃ r t, rollbackSave s c sl = beginSave t c sl ∧ blockOf t c sl = some (b.savedBack r n) ∧ t.mem = s.mem ∧ t.iod = s.iod ∧
      saveSize t c sl (b.savedBack r n) false = saveSize s c sl b false := by
  obtain ⟨r, unwinds, rolled⟩ := rollback_still hb still model pins snap
  have here : blockOf r c sl = some b := by
    rw [blockOf, unwinds.slots]
    exact hb
  have back : blockOf (modBlock (rollback s c sl) c sl Block.toSave) c sl = some (b.savedBack r n) := by
    rw [rolled, blockOf_modBlock_self, blockOf_modBlock_self, here]
    rfl
  obtain ⟨copies, entries⟩ := unwinds.idle still fabric
  have idle : copyRecs (modBlock (rollback s c sl) c sl Block.toSave) c sl = copyRecs s c sl ∧
      recordedAll (modBlock (rollback s c sl) c sl Block.toSave) c sl = recordedAll s c sl := by
    rw [copyRecs_modBlock, recordedAll_modBlock, rolled, copyRecs_modBlock, recordedAll_modBlock]
    exact ⟨copies, entries⟩
  have mem : (modBlock (rollback s c sl) c sl Block.toSave).mem = s.mem := by
    rw [rolled]
    exact unwinds.mem
  have iod : (modBlock (rollback s c sl) c sl Block.toSave).iod = s.iod := by
    rw [rolled]
    exact unwinds.iod
  exact ⟨r, _, rfl, back, mem, iod, savedBack_saveSize idle.1 idle.2 grow model⟩

/-- PREEMPTION_DEADLINE of a block whose sealed region has not ended. -/
theorem preemptionDeadline_stops (hb : blockOf s c sl = some b) (want : b.want.preempt = true) (phase : b.phase = .running)
    (sealed : isSealed s b = true) (hp : partOf s b.part = some p) (late : b.want.since + usCycles p.preempt < s.cycle) (snap : b.mem.snap = some n)
    (room : p.savePool.alloc (saveSize s c sl b false) = some (a, pool)) (hsl : sl < 8) (still : Still s c) (pins : b.stage.regionPins = [])
    (grow : b.exec.grow = none) (model : b.exec.model ≠ .spatial) (fabric : ∀ e ∈ s.cores, e.2.fabricOf ≠ some (c, sl)) :
    ∃ t b', exec (.preemptionDeadline c sl) s = .next t ∧ blockOf t c sl = some b' ∧ t.mem = s.mem ∧ (∃ i, b'.phase = .stopped 1 i []) ∧
      b'.want.saveAtEp = true ∧ b'.stage.window = [] ∧ b'.svarg = BitVec.ofNat 57 a ∧ (coreOf t c).svevt.getLsbD (4 * sl + 1) = true ∧
      ∀ l x, n.resume.find? (·.1 == l) = some x → (if b.exec.model = .threaded then l < b.nthr ∧ l < b.exec.threads.length else l = 0) →
        (b'.at l).1 = x.2 := by
  have run : exec (.preemptionDeadline c sl) s = .next (rollbackSave s c sl) := by
    have e : exec (.preemptionDeadline c sl) s = execPreemptionDeadline c sl s := rfl
    rw [e]
    simp [execPreemptionDeadline, hb, want, phase, sealed, hp, saveRoom, room, Nat.not_le.mpr late]
  obtain ⟨r, u, begins, block, mem, iod, size⟩ := rollback_toSave hb still model pins snap grow fabric
  have part := (savedBack_sizes r n b).1
  obtain ⟨-, window, atEp, stops⟩ := savedBack_back r n b
  have parts : partOf u (b.savedBack r n).part = some p := by
    rw [part, ← hp, partOf, iod]
    rfl
  have pc := fun l x hx hl => savedBack_pc (s := r) (n := n) (b := b) (l := l) (x := x) hx hl
  rw [begins] at run
  rw [← size] at room
  clear size begins
  generalize b.savedBack r n = w at *
  obtain ⟨mem', stopped⟩ := beginSave_stops block parts room hsl
  rw [if_pos stops] at stopped
  obtain ⟨stopped, event, -⟩ := stopped
  have kept : w.sameButExec (w.captureFor w.streams) := (captureFor_capt w w.streams).1
  refine ⟨_, _, run, stopped, mem'.trans mem, ⟨_, rfl⟩, ?_, ?_, rfl, event, fun l x hx hl => ?_⟩
  · rw [kept]; exact atEp
  · rw [kept]; exact window
  · have same := captureFor_at w w.streams l
    exact (congrArg Prod.fst same).trans (pc l x hx hl)

end Sys2Proof.Machine
end

/-! ## Placement, deadlines and pre-emption together -/
section
namespace Sys2Proof.Machine

variable {s : State} {n c sl : Nat} {la : Launch} {o : KObj} {p : Partition} {b : Block} {v : VSec}

/-- A placed block's registers and memories are those of a new one. -/
theorem Block.IsPlaced.fields {nb : Block} (h : b.IsPlaced nb) : b.launch = nb.launch ∧ b.part = nb.part ∧ b.asid = nb.asid ∧ b.phase = nb.phase ∧
    b.exec.model = nb.exec.model ∧ b.regs = nb.regs ∧ b.mem.rows = nb.mem.rows ∧ b.mem.preds = nb.mem.preds ∧ b.mem.loc = nb.mem.loc ∧
    b.mem.budget = nb.mem.budget ∧ b.exec.ctl = nb.exec.ctl ∧ b.exec.threads = nb.exec.threads := by
  obtain ⟨m, g, z, rfl⟩ := h
  exact ⟨rfl, rfl, rfl, rfl, rfl, rfl, rfl, rfl, rfl, rfl, rfl, rfl⟩

/-- The streams of a placed block stand at the entry of its version, a threaded block's all live. -/
theorem Block.IsPlaced.atEntry {bidx : Nat} (h : b.IsPlaced (newBlock s n la o bidx)) (hv : o.vsec (startModel o la.lpb) = some v) :
    (b.exec.model = .threaded → b.exec.threads.length = la.lpb.nthr.toNat ∧ ∀ l < la.lpb.nthr.toNat, (threadOf b l).live = true ∧ (b.at l).1 = v.entry) ∧
    (b.exec.model ≠ .threaded → (b.at 0).1 = v.entry) := by
  obtain ⟨-, -, -, -, model, -, -, -, -, -, ctl, threads⟩ := h.fields
  have start : (newBlock s n la o bidx).exec.model = startModel o la.lpb := rfl
  rw [start] at model
  refine ⟨fun m => ?_, fun m => ?_⟩
  · rw [newBlock_threads hv (model.symm.trans m)] at threads
    refine ⟨by simp [threads], fun l hl => ?_⟩
    have thread : threadOf b l = { pc := v.entry, live := true, freeAt := s.cycle } := by simp [threadOf, threads, hl]
    exact ⟨by rw [thread], by simp [Block.at, m, thread]⟩
  · have pc : b.exec.ctl.pc = v.entry := by rw [ctl, newBlock_pc hv (fun e => m (model.trans e))]
    simp [Block.at, m, pc]

end Sys2Proof.Machine

open Sys2Proof Sys2Proof.Machine Sys2Proof.Claims in
/-- Settles O52: a block placed is a new block seated, one asked to leave heads the order of R345, one that leaves has begun to stop. -/
theorem placement : Obligations.Placement := by
  refine ⟨?_, ?_, ?_, ?_, ?_, ?_⟩
  · intro s n c sl la o p v w resume running hv h hsl free clean
    obtain ⟨t, b, run, beside, block, placed, next, reserved⟩ := blockPlacement_places w resume running h hsl free clean
    obtain ⟨launch, part, asid, phase, model, regs, rows, preds, loc, budget, ctl, -⟩ := placed.fields
    obtain ⟨threaded, control⟩ := placed.atEntry hv
    have sregs : b.exec.ctl.sregs = [] := by rw [ctl, newBlock_sregs]
    refine ⟨t, b, run, block, beside.mem, next, launch, part, asid, phase, model, ?_, by rw [regs]; rfl, by rw [regs]; rfl, by rw [regs]; rfl,
      by rw [regs]; rfl, by rw [regs]; rfl, by rw [regs]; rfl, ?_, rows, preds, loc, budget, sregs, threaded, control,
      fun x low high => reserved x (mem_upFrom.mpr ⟨low, high⟩), beside.others⟩
    · rw [regs]
      exact BitVec.toNat_ofNat la.next 24
    · rw [regs]
      exact BitVec.toNat_ofNat (min la.lpb.nthr.toNat 256) 9
  · intro s part c sl p r hp hr page coop twin det owner running top fits hsl free
    exact restorePlacement_seats hp hr page coop twin det owner running top fits hsl free
  · intro s n c sl la o p b w full late hb l first fresh_ coop twin
    exact placementDeadline_asks w full late hb first fresh_ coop twin
  · intro s part c sl p r la b hp hr page mates late full hla cgb hb coop twin l first fresh_
    exact resumeDeadline_asks hp hr page mates late full hla cgb hb coop twin first fresh_
  · intro s c sl a b p pool hb want phase open_ hp room hsl
    exact preemption_stops hb want phase open_ hp room hsl
  · intro s c sl a b p pool n hb want phase sealed hp late snap room hsl still pins grow model fabric
    exact preemptionDeadline_stops hb want phase sealed hp late snap room hsl still pins grow model fabric
end

/-! ## SHRINK in a block whose bundles share a number (R50, R256)

The clause of O44 on GROW and SHRINK does not ask that a bundle's number is its own, nor that its members live. In the block
below the dead thread 3 is alone in two bundles. When thread 0 completes, the first of them moves on to where thread 3
stands, and so does thread 2's second bundle, which has the same number; then thread 3 leaves both of its own. When
thread 1 completes, thread 2 does not stand where its second bundle now does, and leaves its bundles before it has
completed SHRINK itself: it no longer stands in the line, so that it goes on at the next parcel, which the line's mask
says is no instruction. -/
section
namespace Sys2Proof.ShrinkInSharedBundles

open Sys2Proof.Machine Sys2Proof.Claims

/-- `SHRINK 8`. -/
def op : KOp := ⟨⟨0, false, 0, 0, 0⟩, 8⟩
/-- A line whose only instruction is SHRINK 8, in parcels 2 and 3. -/
def line : List W32 := [0x00000001, 0, 0xF4000000, 0x01000008] ++ List.replicate 28 0
/-- Threads 0 to 2 stand at the SHRINK; thread 3 is dead. -/
def block : Block :=
  { launch := 1, obj := 0, part := 0, asid := 1, prio := 0, vpref := 0, det := 0, coop := false, claim := {}
    regs := { nthr := 4, nblk := 1 }
    exec :=
      { threads := List.replicate 3 { pc := 8, live := true } ++ [{ pc := 0x200 }]
        bundles :=
          [{ id := 1, members := [0, 1, 2], pc := 8, line := some line }, { id := 2, members := [3], pc := 0x208 },
           { id := 2, members := [2], pc := 8, line := some line }, { id := 3, members := [3], pc := 8 }] }
    mem := { budget := 16, locb := 4096, rowBytes := 4096 } }
def state : State := { cores := [(0, { slots := [(0, block)] })], cur := .bundle 0 0 1 }
def cx : Cx := { id := .blk 0 0, kind := .T, acts := [0, 1, 2], pc := 8, line := some line }

theorem enters : Enters state cx (budgetDec op) [(0, []), (1, []), (2, [])] where
  here := by decide +kernel
  legal := by decide +kernel
  reads := by decide +kernel
  latches := fun h => by cases h
  goes := by decide +kernel

theorem stand : ∀ l ∈ block.streams, l ∈ cx.acts ∧ lineOf block l = cx.line ∧ standsAt block l = (0xF4, 2 ^ 24 + op.param.toNat) := by
  decide +kernel

theorem bundles : ∀ u ∈ block.exec.bundles, (∃ l ∈ u.members, l ∈ cx.acts) → u.pc = cx.pc := by decide +kernel

theorem empty (l m : Nat) : block.mem.g l m = 0 := rfl

/-- Where thread 2 stands after the SHRINK, as the model computes it. -/
def pcAfter : Host.Outcome State Fault Refusal → Option VAddr
  | .next t => (blockOf t 0 0).map fun b => b.pcOf 2
  | _ => none

theorem pcAfter_shrink : pcAfter (exec (.shrink op) state) = some 16 := by decide +kernel

theorem next : cx.next (budgetDec op) = 136 := by decide +kernel

end Sys2Proof.ShrinkInSharedBundles

open Sys2Proof Sys2Proof.Machine Sys2Proof.ShrinkInSharedBundles in
/-- Refutes O44: its clause on GROW and SHRINK allows two bundles of one number, through which a thread leaves its line before
it has completed the instruction, so that it goes on elsewhere than the clause says. -/
theorem not_stopsAndBudgets : ¬ Obligations.StopsAndBudgets := by
  unfold Obligations.StopsAndBudgets
  rintro ⟨-, -, -, budget, -⟩
  obtain ⟨t, b', run, here, -, -, stands, -⟩ := budget false op state cx [(0, []), (1, []), (2, [])] 0 0 block enters rfl rfl rfl rfl
    (by decide +kernel) stand bundles (fun l m _ _ => empty l m) (by decide)
  have computed := pcAfter_shrink
  have claimed := (stands 2 (by decide +kernel)).1
  have step : exec (.shrink op) state = .next t := run
  rw [step] at computed
  simp [pcAfter, here, claimed, next] at computed
end

/-! ## States whose home slices and owners agree (R273, R285, R286)

Whether a line is served depends on tags, Pond entries, bytes and the frames that cores hold other than CLEAN. A state that
agrees in these agrees in what is served, whatever its streams do. -/
section
namespace Sys2Proof.Machine

/-- The frames of a core that its lines' home slices wait for: those that are not CLEAN. -/
def Core.held (k : Core) : List L1Frame := k.l1.filter fun f => f.state != .clean

/-- `t` has the home slices, the bytes and the owned frames of `s`. -/
structure SameHomes (s t : State) : Prop where
  slices : t.slices = s.slices
  mem : t.mem = s.mem
  memPoison : t.memPoison = s.memPoison
  cycle : t.cycle = s.cycle
  held : ∀ c, (coreOf t c).held = (coreOf s c).held

namespace SameHomes

theorem refl (s : State) : SameHomes s s := ⟨rfl, rfl, rfl, rfl, fun _ => rfl⟩

variable {s t u : State}

theorem symm (h : SameHomes s t) : SameHomes t s :=
  ⟨h.slices.symm, h.mem.symm, h.memPoison.symm, h.cycle.symm, fun c => (h.held c).symm⟩

theorem trans (h : SameHomes s t) (k : SameHomes t u) : SameHomes s u :=
  ⟨k.slices.trans h.slices, k.mem.trans h.mem, k.memPoison.trans h.memPoison, k.cycle.trans h.cycle, fun c => (k.held c).trans (h.held c)⟩

theorem foldl {α : Type} (f : State → α → State) (hf : ∀ s x, SameHomes s (f s x)) (l : List α) (s : State) : SameHomes s (l.foldl f s) := by
  induction l generalizing s with
  | nil => exact refl s
  | cons x r ih => exact (hf s x).trans (ih _)

/-! ### Changes that touch no home slice and no owned frame -/

theorem modCore (s : State) (c : Nat) (f : Core → Core) (hf : ∀ k, (f k).held = k.held) : SameHomes s (Machine.modCore s c f) := by
  refine ⟨rfl, rfl, rfl, rfl, fun d => ?_⟩
  by_cases h : c = d
  · subst h; simp [hf]
  · rw [coreOf_modCore_ne s f h]

theorem modBlock (s : State) (c sl : Nat) (f : Block → Block) : SameHomes s (Machine.modBlock s c sl f) :=
  modCore s c _ fun _ => rfl

theorem modCtl (s : State) (id : CtxId) (f : Ctl → Ctl) : SameHomes s (Machine.modCtl s id f) := by
  cases id with
  | blk c sl => exact modBlock s c sl _
  | sup c => exact modCore s c (fun k => { k with sup := f k.sup }) fun _ => rfl
  | sys n => exact ⟨rfl, rfl, rfl, rfl, fun _ => rfl⟩

theorem pushPath (s : State) (id : CtxId) (who : Nat) (asid : W16) (part pa size va : Nat) (kind : PathKind) (release : Bool) (scope : Nat)
    (na acq : Bool) (hi page : Option Nat) :
    SameHomes s (Machine.pushPath s id who asid part pa size va kind release scope na acq hi page) :=
  ⟨rfl, rfl, rfl, rfl, fun _ => rfl⟩

/-- Dropping CLEAN copies keeps the owned frames. -/
theorem held_dropClean (l : List L1Frame) (p : L1Frame → Bool) :
    (l.filter fun f => f.state != .clean || p f).filter (fun f => f.state != .clean) = l.filter fun f => f.state != .clean := by
  rw [List.filter_filter]
  refine List.filter_congr fun f _ => ?_
  cases f.state != .clean <;> rfl

theorem wakeNow (s : State) (c : Nat) (m : Monitor) : SameHomes s (Machine.wakeNow s c m) := by
  have dropped := modCore s c (fun k =>
    { k with monitors := k.monitors.filter fun x => x != m
             l1 := k.l1.filter fun f => f.state != .clean || !((m.order % 2 == 1 && m.scope ≥ 1) || f.line == m.line) })
    fun k => held_dropClean k.l1 _
  unfold Machine.wakeNow
  extract_lets bad v s' entry
  refine dropped.trans ?_
  split
  · exact modBlock s' _ _ _
  · exact modCtl s' _ _

theorem wakeOne (s : State) (c : Nat) (m : Monitor) : SameHomes s (Machine.wakeOne s c m) := by
  unfold Machine.wakeOne
  split
  · exact wakeNow s c m
  · refine (modCore s c (fun k => { k with monitors := k.monitors.map fun x => if x == m then { x with woken := true } else x })
      fun _ => rfl).trans ?_
    split
    · exact modBlock _ _ _ _
    · exact modCtl _ _ _

theorem wakeLine (s : State) (line : Nat) : SameHomes s (Machine.wakeLine s line) :=
  foldl (fun s (e : Nat × Core) => (e.2.monitors.filter fun (m : Monitor) => m.line == line && !m.woken).foldl (fun s m => Machine.wakeOne s e.1 m) s)
    (fun s e => foldl _ (fun s m => wakeOne s e.1 m) _ s) _ s

theorem noteWritten (s : State) (line : Nat) : SameHomes s (Machine.noteWritten s line) :=
  (foldl _ (fun _ _ => pushPath ..) _ s).trans (wakeLine _ line)

/-! ### What reads and changes of the home slices make of states that agree -/

theorem sliceOf_eq (h : SameHomes s t) (n : Nat) : sliceOf t n = sliceOf s n := by simp only [sliceOf, h.slices]
theorem tagOf_eq (h : SameHomes s t) (line : Nat) : tagOf t line = tagOf s line := by simp only [tagOf, h.sliceOf_eq]
theorem linePoisoned_eq (h : SameHomes s t) (line : Nat) : linePoisoned t line = linePoisoned s line := by
  simp only [linePoisoned, h.tagOf_eq, h.memPoison]

theorem modSlice (h : SameHomes s t) (n : Nat) (f : Slice → Slice) : SameHomes (Machine.modSlice s n f) (Machine.modSlice t n f) :=
  ⟨by simp only [Machine.modSlice, h.sliceOf_eq, h.slices], h.mem, h.memPoison, h.cycle, h.held⟩

theorem modTag (h : SameHomes s t) (line : Nat) (f : Tag → Tag) : SameHomes (Machine.modTag s line f) (Machine.modTag t line f) :=
  h.modSlice _ _

theorem dropRdc (h : SameHomes s t) (line : Nat) : SameHomes (Machine.dropRdc s line) (Machine.dropRdc t line) :=
  ⟨h.slices, h.mem, h.memPoison, h.cycle, h.held⟩

/-- The owner gives a line up in both. -/
theorem release (h : SameHomes s t) (c line : Nat) :
    SameHomes (Machine.modCore s c fun k => { k with l1 := k.l1.filter fun f => f.line != line })
      (Machine.modCore t c fun k => { k with l1 := k.l1.filter fun f => f.line != line }) := by
  refine ⟨h.slices, h.mem, h.memPoison, h.cycle, fun d => ?_⟩
  by_cases e : c = d
  · subst e
    have held := congrArg (List.filter fun f => f.line != line) (h.held c)
    simp only [Core.held, List.filter_filter] at held
    simp only [coreOf_modCore_self, Core.held, List.filter_filter]
    simpa only [Bool.and_comm] using held
  · simpa only [coreOf_modCore_ne _ _ e] using h.held d

theorem owesBytes_eq (h : SameHomes s t) (line : Nat) (by_ : Option Nat) : owesBytes t line by_ = owesBytes s line by_ := by
  have owed : ∀ k : Core, (k.l1.any fun f => f.line == line && f.state != .clean && !f.dirty.isEmpty) =
      k.held.any fun f => f.line == line && !f.dirty.isEmpty := fun k => by
    simp only [Core.held, List.any_filter]
    congr 1; funext f
    cases f.state != .clean <;> simp
  simp only [owesBytes, h.tagOf_eq, owed, h.held]

theorem writeBack (h : SameHomes s t) (c line : Nat) (f : L1Frame) : SameHomes (Machine.writeBack s c line f) (Machine.writeBack t c line f) := by
  have written : SameHomes { s with mem := f.dirty.foldl (fun m i => Store.set m (line * 128 + i) (f.data.extractLsb' (8 * i) 8)) s.mem }
      { t with mem := f.dirty.foldl (fun m i => Store.set m (line * 128 + i) (f.data.extractLsb' (8 * i) 8)) t.mem } :=
    ⟨h.slices, by simp only [h.mem], h.memPoison, h.cycle, h.held⟩
  have tagged := (written.dropRdc line).modTag line fun g =>
    { g with dirty := true, set8 := true, shv := 0#4, writtenAt := s.cycle, psn := (g.psn && f.dirty.length < 128) || !f.poison.isEmpty }
  unfold Machine.writeBack
  simp only [Machine.dropRdc, h.cycle] at tagged ⊢
  cases f.owner with
  | none => exact tagged
  | some sl => exact (modBlock _ c sl _).symm.trans (tagged.trans (modBlock _ c sl _))

theorem rawRecall (h : SameHomes s t) (line : Nat) (by_ : Option Nat) : SameHomes (Machine.rawRecall s line by_) (Machine.rawRecall t line by_) := by
  have found : ∀ k : Core, (k.l1.find? fun f => f.line == line && f.state != .clean) = k.held.find? fun f => f.line == line := fun k => by
    simp only [Core.held, List.find?_filter, Bool.decide_and, Bool.decide_eq_true, Bool.and_comm]
  unfold Machine.rawRecall
  rw [h.tagOf_eq]
  split
  · exact h
  · rename_i c _
    simp only [found, h.held]
    split
    · exact h
    · have given := (h.release c line).modTag line fun g => { g with own := none }
      split
      · split
        · exact given
        · exact given.writeBack c line _
      · exact given

theorem toChannel (h : SameHomes s t) (line : Nat) : SameHomes (Machine.toChannel s line) (Machine.toChannel t line) := by
  unfold Machine.toChannel
  rw [h.tagOf_eq]
  split
  · split
    · exact ⟨h.slices, h.mem, by simp only [h.memPoison], h.cycle, h.held⟩
    · exact h
  · exact h

theorem evictTag (h : SameHomes s t) (line : Nat) : SameHomes (Machine.evictTag s line) (Machine.evictTag t line) := by
  have recalled := h.rawRecall line none
  have noted : SameHomes (if owesBytes s line none then Machine.noteWritten (Machine.rawRecall s line none) line else Machine.rawRecall s line none)
      (if owesBytes t line none then Machine.noteWritten (Machine.rawRecall t line none) line else Machine.rawRecall t line none) := by
    rw [h.owesBytes_eq]
    split
    · exact (SameHomes.noteWritten _ line).symm.trans (recalled.trans (SameHomes.noteWritten _ line))
    · exact recalled
  unfold Machine.evictTag
  exact ((noted.toChannel line).dropRdc line).modSlice _ _

/-- Evictions that go on until the slice has a free entry. -/
theorem evictions (h : SameHomes s t) (n : Nat) (l : List Nat) :
    SameHomes (l.foldl (fun s v => if (sliceOf s n).freeEntry.isSome then s else Machine.evictTag s v) s)
      (l.foldl (fun s v => if (sliceOf s n).freeEntry.isSome then s else Machine.evictTag s v) t) := by
  induction l generalizing s t with
  | nil => exact h
  | cons v r ih =>
    refine ih ?_
    simp only [h.sliceOf_eq]
    split
    · exact h
    · exact h.evictTag v

theorem takeEntry_isSome (h : SameHomes s t) (line : Nat) : (takeEntry t line).isSome = (takeEntry s line).isSome := by
  unfold takeEntry
  simp only [h.sliceOf_eq]
  split
  · rfl
  · simp only [Option.isSome_map, (h.evictions _ _).sliceOf_eq]

theorem unshare_isSome (h : SameHomes s t) (line : Nat) (psn : Bool) : (unshare t line psn).isSome = (unshare s line psn).isSome := by
  unfold unshare
  simp only [h.tagOf_eq, h.sliceOf_eq]
  split <;> split
  all_goals simp_all [h.takeEntry_isSome]

theorem recallLine_isSome (h : SameHomes s t) (line : Nat) (by_ : Option Nat) : (recallLine t line by_).isSome = (recallLine s line by_).isSome := by
  have recalled := h.rawRecall line by_
  simp only [recallLine, h.owesBytes_eq, recalled.linePoisoned_eq]
  split
  · exact recalled.unshare_isSome line _
  · rfl

/-- What is served in one is served in the other. -/
theorem unserved_eq (h : SameHomes s t) (pa : Nat) (by_ : Option Nat) : unserved t pa by_ = unserved s pa by_ := by
  simp only [unserved, h.sliceOf_eq, ← Option.not_isSome, h.recallLine_isSome]

end SameHomes

/-- An instruction that leaves caches and units alone leaves the homes alone. -/
theorem Cx.Keeps.sameHomes {cx : Cx} {s t : State} (h : cx.Keeps s t) : SameHomes s t where
  slices := by have e := congrArg State.slices h.package; exact e
  mem := h.mem_eq
  memPoison := by have e := congrArg State.memPoison h.package; exact e
  cycle := by have e := congrArg State.cycle h.package; exact e
  held c := by have e := congrArg Core.held (h.cores c); exact e

end Sys2Proof.Machine
end

/-! ## What an issue leaves alone (R51, R63, R264)

Counting an issue and completing threads whose guard is false leave an access as it was found: its checks, where it lies, what
serves it, and whether the stream obeys a sealed region's rules. -/
section
namespace Sys2Proof.Machine

/-! ### Handler states -/

/-- The threads in handler state are the same. -/
def Block.SameHandlers (b b' : Block) : Prop := ∀ l, (threadOf b' l).handler = (threadOf b l).handler

namespace Block.SameHandlers

theorem of_threads {b b' : Block} (h : b'.exec.threads = b.exec.threads) : b.SameHandlers b' := fun l => by simp only [threadOf, h]

theorem trans {a b c : Block} (h : a.SameHandlers b) (k : b.SameHandlers c) : a.SameHandlers c := fun l => (k l).trans (h l)

theorem modThreads (b : Block) (ts : List Nat) (f : Nat → Thread → Thread) (hf : ∀ l x, (f l x).handler = x.handler) :
    b.SameHandlers (b.modThreads ts f) := fun l => by
  rw [threadOf_modThreads]
  split
  · exact hf _ _
  · rfl

theorem leave (b : Block) (ts : List Nat) (n : Nat) : b.SameHandlers (b.leave ts n) :=
  modThreads b ts (fun _ t => { t with freeAt := n, latches := [], line := none }) fun _ _ => rfl

theorem settleBundle (b : Block) (id n : Nat) : b.SameHandlers (b.settleBundle id n) := by
  simp only [Block.settleBundle]
  split
  · exact of_threads rfl
  · split
    · exact of_threads rfl
    · split
      · exact of_threads rfl
      · split
        · exact of_threads rfl
        · exact leave b _ n

theorem foldl {α : Type} (f : Block → α → Block) (hf : ∀ (b : Block) x, b.SameHandlers (f b x)) (l : List α) (b : Block) : b.SameHandlers (l.foldl f b) := by
  induction l generalizing b with
  | nil => exact of_threads rfl
  | cons x r ih => exact (hf b x).trans (ih _)

theorem completeThreads (b : Block) (who : List Nat) (tr : Bool) (e : Nat → Latch) (nx : VAddr) (n : Nat) :
    b.SameHandlers ((who.foldl (fun b t => b.completeThread t tr (e t) nx) b).settleAll n) :=
  (foldl _ (fun b t => modThreads b [t] (fun _ x => x.complete tr (e t) nx) fun _ _ => rfl) who b).trans
    (foldl (fun (b : Block) (u : Bundle) => b.settleBundle u.id n) (fun b u => settleBundle b u.id n) _ _)

end Block.SameHandlers

/-! ### The stream's block -/

variable {s t u : State} {cx : Cx} {c sl : Nat} {b b' : Block}

theorem Cx.blk_place (h : cx.blk s = some b) : ∃ c sl, cx.id = .blk c sl ∧ blockOf s c sl = some b := by
  unfold Cx.blk at h
  split at h
  · exact ⟨_, _, ‹_›, h⟩
  · cases h

theorem Cx.Keeps.blk_some (h : cx.Keeps s t) (hb : cx.blk s = some b) : ∃ b', cx.blk t = some b' := by
  have own := h.ownBlk
  rw [hb] at own
  cases ht : cx.blk t with
  | none => simp [ht] at own
  | some b' => exact ⟨b', rfl⟩

/-- A stream obeys a sealed region's rules as long as its handler state stays. -/
theorem Cx.Keeps.sealed_eq (h : cx.Keeps s t) (hb : cx.blk s = some b) (hb' : cx.blk t = some b') (threads : cx.isT = true → b.SameHandlers b') :
    cx.sealed t = cx.sealed s := by
  obtain ⟨c, sl, hid, here⟩ := Cx.blk_place hb
  have here' : blockOf t c sl = some b' := by simpa [Cx.blk, hid] using hb'
  have control : b'.exec.ctl.handler = b.exec.ctl.handler := by simpa [Cx.ctl, hid, ctlOf, here, here'] using h.ownHandler
  simp only [Cx.sealed, hb, hb', h.isSealed_eq hb hb', control]
  split
  · simp only [threads ‹_› _]
  · rfl

/-- From `s` to `t` the instruction at `cx` has been counted and threads have completed: registers and everything outside the
stream's place are as before, and so is whether the stream obeys the rules of a sealed region. -/
structure Cx.Issued (cx : Cx) (s t : State) : Prop where
  regs : cx.RegsSame s t
  keeps : cx.Keeps s t
  sealed : cx.sealed t = cx.sealed s

theorem Cx.Issued.trans (h : cx.Issued s t) (k : cx.Issued t u) : cx.Issued s u :=
  ⟨h.regs.trans k.regs, h.keeps.trans k.keeps, k.sealed.trans h.sealed⟩

theorem Cx.counted_issued (hb : cx.blk s = some b) (d : Dec) (n : Nat) : cx.Issued s (cx.counted s d n) := by
  obtain ⟨regs, keeps⟩ := cx.counted_keeps s d n
  obtain ⟨b', hb', e⟩ := cx.counted_exec s d n hb
  exact ⟨regs, keeps, keeps.sealed_eq hb hb' fun _ => .of_threads (by rw [e])⟩

/-- A change of the block that is about neither its registers nor its streams. -/
theorem Cx.Issued.modBlock (hid : cx.id = .blk c sl) (hb : cx.blk s = some b) (f : Block → Block) (hp : ∀ b, Block.Progress cx b (f b))
    (hm : ∀ b, (f b).mem = b.mem) (hr : ∀ b, (f b).regs = b.regs) (ht : ∀ b, (f b).exec.threads = b.exec.threads)
    (hc : ∀ b, (f b).exec.ctl = b.exec.ctl) : cx.Issued s (Machine.modBlock s c sl f) := by
  have here : blockOf s c sl = some b := by simpa [Cx.blk, hid] using hb
  have keeps : cx.Keeps s (Machine.modBlock s c sl f) := .modBlock hid s f hp
  exact ⟨.modBlock cx s c sl f hm hr fun _ b => by rw [hc]; exact ⟨rfl, rfl⟩, keeps,
    keeps.sealed_eq hb (b' := f b) (by simp [Cx.blk, hid, here]) fun _ => .of_threads (ht b)⟩

theorem Cx.finish_issued (hb : cx.blk s = some b) (d : Dec) (who : List Nat) (e : Nat → Latch)
    (goes : (fallNext cx.line cx.pc d.len).2 = false) : cx.Issued s (cx.finish s d who e) := by
  obtain ⟨regs, keeps⟩ := cx.finish_keeps s d who e goes
  obtain ⟨c, sl, hid, here⟩ := Cx.blk_place hb
  obtain ⟨b', hb'⟩ := keeps.blk_some hb
  refine ⟨regs, keeps, keeps.sealed_eq hb hb' fun hT => ?_⟩
  by_cases hw : who.isEmpty
  · rw [Cx.finish, if_pos hw, hb] at hb'
    exact .of_threads (by rw [Option.some.inj hb'])
  · have hr : cx.retire s = s := by simp [Cx.retire, hid]
    simp only [Cx.finish, hw, goes, hid, hT, hr, Bool.false_eq_true, if_false, if_true] at hb'
    simp only [Cx.blk, hid, blockOf_modBlock_self, here, Option.map_some, Option.some.injEq] at hb'
    exact hb' ▸ .completeThreads b who _ _ _ _

theorem Enters.stands {d : Dec} {rs : List (Nat × List Nat)} (h : Enters s cx d rs) : Stands s cx d rs :=
  ⟨h.here, h.legal, h.reads, h.latches, .inl h.goes⟩

/-- An instruction that enters goes to its effect with the issue counted and the threads completed whose guard is false; a
control stream whose own guard is false completes it. -/
theorem Cx.start_issued {d : Dec} {rs : List (Nat × List Nat)} (h : Enters s cx d rs) (hb : cx.blk s = some b)
    (k : State → List (Nat × List Nat) → State) :
    ∃ s', (cx.start s d k = k s' rs ∨ (rs = [] ∧ cx.start s d k = s')) ∧ cx.Issued s s' := by
  have counted := cx.counted_issued hb d rs.length
  obtain ⟨b1, hb1⟩ := counted.keeps.blk_some hb
  rw [Cx.start_stands h.stands]
  split
  · exact ⟨_, .inl rfl, counted.trans (Cx.finish_issued hb1 d _ _ h.goes)⟩
  · split
    · rename_i none_
      exact ⟨_, .inr ⟨by simp_all, rfl⟩, counted.trans (Cx.finish_issued hb1 d _ _ h.goes)⟩
    · exact ⟨_, .inl rfl, counted⟩

/-! ### An access found again -/

namespace Cx.Issued

theorem path (h : cx.Issued s t) : t.path = s.path := by have e := congrArg State.path h.keeps.package; exact e
theorem outside (h : cx.Issued s t) : t.outside = s.outside := by have e := congrArg State.outside h.keeps.package; exact e
theorem walks (h : cx.Issued s t) : t.walks = s.walks := by have e := congrArg State.walks h.keeps.package; exact e
theorem dieTlb (h : cx.Issued s t) : t.dieTlb = s.dieTlb := by have e := congrArg State.dieTlb h.keeps.package; exact e
theorem tlb (h : cx.Issued s t) (c : Nat) : (coreOf t c).tlb = (coreOf s c).tlb := by have e := congrArg Core.tlb (h.keeps.cores c); exact e
theorem mq (h : cx.Issued s t) (c : Nat) : (coreOf t c).mq = (coreOf s c).mq := by have e := congrArg Core.mq (h.keeps.cores c); exact e

theorem outsideRead_eq (h : cx.Issued s t) (id : CtxId) : outsideRead t id = outsideRead s id := by simp only [outsideRead, h.outside, h.path]
theorem atomUnsent_eq (h : cx.Issued s t) (n : Nat) : cx.atomUnsent t n = cx.atomUnsent s n := by simp only [Cx.atomUnsent, h.path]
theorem rowOwed_eq (h : cx.Issued s t) (wid kind : Nat) (a : Acc) : cx.rowOwed t wid kind a = cx.rowOwed s wid kind a := by
  simp only [Cx.rowOwed, mqOf, h.mq]

/-- What a block is placed with stays. -/
theorem block_map {α : Type} (h : cx.Issued s t) (f : Block → α)
    (hf : ∀ b, f b = f { b with exec := {}, mem := {}, regs := {}, charges := {}, meters := [] }) : (cx.blk t).map f = (cx.blk s).map f := by
  have e : f = f ∘ fun b => { b with exec := {}, mem := {}, regs := {}, charges := {}, meters := [] } := funext hf
  rw [e, ← Option.map_map, h.keeps.ownBlk, Option.map_map]

theorem spaceOf_eq (h : cx.Issued s t) (hid : cx.id = .blk c sl) : spaceOf t cx.id = spaceOf s cx.id := by
  have e := h.block_map (fun b => (b.asid, b.part)) fun _ => rfl
  simp only [Cx.blk, hid] at e
  simp only [spaceOf, hid, e]

theorem translate_eq (h : cx.Issued s t) (asid : W16) (part va kind : Nat) : translate t cx.id asid part va kind = translate s cx.id asid part va kind := by
  simp only [translate, lookupTlb, tlbsOf, h.tlb, h.dieTlb, h.walks]

theorem translateAcc_eq (h : cx.Issued s t) (hid : cx.id = .blk c sl) (wid kind : Nat) (a : Acc) :
    cx.translateAcc t wid kind a = cx.translateAcc s wid kind a := by
  simp only [Cx.translateAcc, h.spaceOf_eq hid, h.regs.regs, h.translate_eq]

theorem placed_eq (h : cx.Issued s t) (hid : cx.id = .blk c sl) (wid kind : Nat) (a : Acc) : cx.placed t wid kind a = cx.placed s wid kind a := by
  simp only [Cx.placed, h.translateAcc_eq hid]

theorem checkAcc_eq (h : cx.Issued s t) (hid : cx.id = .blk c sl) (wid kind : Nat) (a : Acc) :
    cx.checkAcc t wid kind a = cx.checkAcc s wid kind a := by
  have region : cx.region t = cx.region s := by
    have same : regionOf t = regionOf s := funext fun b => by simp only [regionOf, objOf, h.keeps.objects_eq]
    simp only [Cx.region, same, h.block_map (regionOf s) fun _ => rfl]
  have bytes : (cx.localBlk t).map (·.mem.locb) = (cx.localBlk s).map (·.mem.locb) := by
    have own : ∀ x : State, cx.localBlk x = cx.blk x := fun x => by simp [Cx.localBlk, Cx.localSite, Cx.blk, hid]
    rw [own, own]
    cases hs : cx.blk s with
    | none =>
      have gone := h.block_map (fun _ => ()) fun _ => rfl
      rw [hs] at gone
      rw [Option.map_eq_none_iff.mp gone]
    | some b =>
      obtain ⟨b', hb'⟩ := h.keeps.blk_some hs
      have mem : b'.mem = b.mem := by simpa [Cx.mem, hs, hb'] using h.regs.mem
      simp [hb', mem]
  simp only [Cx.checkAcc, region, bytes, h.regs.regs, h.sealed]

/-- Accesses that pass their checks before the issue pass them after it. -/
theorem passes (h : cx.Issued s t) (hid : cx.id = .blk c sl) {wid kind : Nat} {accs : List Acc} (p : cx.Passes s wid kind accs) :
    cx.Passes t wid kind accs where
  checks a ha := (h.checkAcc_eq hid wid kind a).trans (p.checks a ha)
  lies a ha := by rw [h.translateAcc_eq hid, h.placed_eq hid]; exact p.lies a ha
  serves a ha hl q hq := by
    rw [h.placed_eq hid] at hq
    rw [h.keeps.sameHomes.unserved_eq]
    exact p.serves a ha hl q hq
  free := (h.outsideRead_eq _).trans p.free
  rows a ha := (h.rowOwed_eq wid kind a).trans (p.rows a ha)

end Cx.Issued

/-- Accesses that pass every check go to their effect. -/
theorem Cx.access_passes {wid kind : Nat} {accs : List Acc} (p : cx.Passes s wid kind accs) (d : Dec)
    (k : State → List (Acc × List Piece) → State) :
    cx.access s d wid kind accs k = k s (accs.map fun a => (a, cx.placed s wid kind a)) := by
  have owed : accs.any (cx.rowOwed s wid kind) = false := List.any_eq_false.mpr fun a ha => by simp [p.rows a ha]
  unfold Cx.access
  rw [if_neg (by simp [p.free, owed])]
  extract_lets rs faults good misses faults'
  have judged : rs = accs.map fun a => (a, AccTr.ok (cx.placed s wid kind a)) :=
    List.map_congr_left fun a ha => by simp only [p.checks a ha, ← p.lies a ha]
  have noFault : faults = [] := by simp [faults, judged]
  have noMiss : misses = [] := by simp [misses, judged]
  have all : good = accs.map fun a => (a, cx.placed s wid kind a) := by simp [good, judged, List.filterMap_map]
  have served : (good.any fun g => g.1.sp != .loc && g.2.any fun q => unserved s q.pa (coreOfCtx cx.id)) = false := by
    simp only [all, List.any_map, List.any_eq_false, Function.comp_apply, Bool.and_eq_true, bne_iff_ne, ne_eq, List.any_eq_true, not_and,
      not_exists]
    intro a ha hl q hq
    simp [p.serves a ha hl q hq]
  have noFault' : faults' = [] := by simp [faults', noFault]
  simp only [noFault', noMiss, served, List.isEmpty_nil, Bool.not_true, Bool.false_and, Bool.false_eq_true, if_false, if_true]
  rw [all]

end Sys2Proof.Machine
end

/-! ## Records (R64) -/
section
namespace Sys2Proof.Machine

open Sys2Proof Sys2Proof.Claims

/-- A record lies within an aligned word of 8 bytes. -/
theorem chunks8_aligned (f a : Nat) (bs : List Byte) : ∀ c ∈ chunks8 f a bs, c.1 / 8 = (c.1 + c.2.length - 1) / 8 := by
  induction f generalizing a bs with
  | zero => simp [chunks8]
  | succ f ih =>
    intro c hc
    cases bs with
    | nil => simp [chunks8] at hc
    | cons x r =>
      simp only [chunks8, List.isEmpty_cons, Bool.false_eq_true, if_false, List.mem_cons] at hc
      obtain rfl | hc := hc
      · simp only [List.length_take, List.length_cons]
        omega
      · exact ih _ _ c hc

/-- The bytes of a number, one by one. -/
theorem valBytes_eq_byteOf (n v : Nat) : valBytes n v = (List.range n).map (byteOf v) := by
  induction n generalizing v with
  | zero => rfl
  | succ n ih =>
    rw [List.range_succ_eq_map, List.map_cons, List.map_map, valBytes, ih]
    simp [byteOf, Function.comp_def, Nat.pow_succ', Nat.div_div_eq_div_mul]

theorem map_mapIdx_of_forall {α β γ : Type} {f : β → γ} {g : Nat → α → β} {h : α → γ} (hg : ∀ i x, f (g i x) = h x) (l : List α) :
    (l.mapIdx g).map f = l.map h := by
  induction l generalizing g with
  | nil => rfl
  | cons x r ih => rw [List.mapIdx_cons, List.map_cons, List.map_cons, hg, ih fun i y => hg (i + 1) y]

/-- Who stores what where, of a record. -/
def Staged.what (r : Staged) : Nat × Nat × List Byte := (r.who, r.pa, r.bytes)

theorem stagedOf_what (wid : Nat) (a : Acc) (qs : List Piece) :
    (stagedOf a.lane 0 (valBytes wid (dataVal a.data)) qs).map Staged.what =
      qs.flatMap fun q => (chunks8 3 q.pa (piece wid a q)).map fun c => (a.lane, c.1, c.2) := by
  unfold stagedOf
  extract_lets cs
  refine (map_mapIdx_of_forall (h := fun c => (a.lane, c.1, c.2.2)) ?_ cs).trans ?_
  · exact fun _ _ => rfl
  simp only [cs, valBytes_eq_byteOf, List.map_flatMap, List.map_map]
  rfl

/-! ### Records join a window or an allotment -/

/-- The stage once records have joined the sealed window, or the allotment of the ticket unit. -/
def Stage.joined (g : Stage) (window : Bool) (l : List Staged) : Stage :=
  if window then { g with window := g.window ++ l, seq := g.seq + l.length } else { g with staged := g.staged ++ l, seq := g.seq + l.length }

theorem Stage.joined_nil (g : Stage) (window : Bool) : g.joined window [] = g := by cases window <;> simp [Stage.joined]

/-- From `s` to `t` the records `l` have joined the stage of the stream's block; no register, nothing on the path, no byte and
no other place has changed. -/
structure Cx.Stages (cx : Cx) (s t : State) (window : Bool) (l : List Staged) : Prop where
  regs : cx.RegsSame s t
  only : cx.Only s t
  path : t.path = s.path
  mem : t.mem = s.mem
  stage : (cx.blk t).map (·.stage) = (cx.blk s).map fun b => b.stage.joined window l

variable {s t u : State} {cx : Cx} {c sl : Nat} {b : Block} {window : Bool} {l : List Staged}

theorem Cx.Issued.stage_eq {b' : Block} (h : cx.Issued s t) (hb : cx.blk s = some b) (hb' : cx.blk t = some b') : b'.stage = b.stage := by
  have e := congrArg Block.stage (h.keeps.block hb hb')
  exact e
theorem Cx.Issued.det_eq {b' : Block} (h : cx.Issued s t) (hb : cx.blk s = some b) (hb' : cx.blk t = some b') : b'.det = b.det := by
  have e := congrArg Block.det (h.keeps.block hb hb')
  exact e

theorem Cx.Issued.stages (h : cx.Issued s t) (window : Bool) : cx.Stages s t window [] :=
  ⟨h.regs, h.keeps.only, h.path, h.keeps.mem_eq, by simpa only [Stage.joined_nil] using h.block_map (·.stage) fun _ => rfl⟩

theorem Cx.Issued.andStages (h : cx.Issued s t) (k : cx.Stages t u window l) : cx.Stages s u window l :=
  ⟨h.regs.trans k.regs, h.keeps.only.trans k.only, k.path.trans h.path, k.mem.trans h.keeps.mem_eq,
    k.stage.trans (h.block_map (fun b => b.stage.joined window l) fun _ => rfl)⟩

theorem Cx.Stages.andIssued (k : cx.Stages s t window l) (h : cx.Issued t u) : cx.Stages s u window l :=
  ⟨k.regs.trans h.regs, k.only.trans h.keeps.only, h.path.trans k.path, h.keeps.mem_eq.trans k.mem,
    (h.block_map (·.stage) fun _ => rfl).trans k.stage⟩

theorem Cx.Stages.blk_some (k : cx.Stages s t window l) (hb : cx.blk s = some b) :
    ∃ b', cx.blk t = some b' ∧ b'.stage = b.stage.joined window l := by
  have e := k.stage
  rw [hb] at e
  obtain ⟨b', hb', e⟩ := Option.map_eq_some_iff.mp e
  exact ⟨b', hb', e⟩

/-- Records join the stage with their places in program order and their pages filled in. -/
theorem Cx.stageRecs_stages (hid : cx.id = .blk c sl) (hb : cx.blk s = some b) (window : Bool) (recs : List Staged) :
    ∃ l, cx.Stages s (cx.stageRecs s window recs) window l ∧ l.map Staged.what = recs.map Staged.what := by
  have here : blockOf s c sl = some b := by simpa [Cx.blk, hid] using hb
  refine ⟨recs.map fun r => { r with seq := r.seq + b.stage.seq, page := pageSize s cx.id (spaceOf s cx.id).1 (spaceOf s cx.id).2 r.va }, ?_, ?_⟩
  · unfold Cx.stageRecs
    simp only [Cx.modBlk, hid]
    refine ⟨.modBlock cx s c sl _ (fun _ => rfl) (fun _ => rfl) fun _ _ => ⟨rfl, rfl⟩, .modBlock hid s _, rfl, rfl, ?_⟩
    simp only [Cx.blk, hid, blockOf_modBlock_self, here, Option.map_some]
    cases window <;> rfl
  · simp [Staged.what, Function.comp_def]

/-- A ticket given up is none of the stream's registers. -/
theorem Cx.dropTicket_issued (hid : cx.id = .blk c sl) (hb : cx.blk s = some b) : cx.Issued s (cx.dropTicket s) := by
  simp only [Cx.dropTicket, Cx.modBlk, hid]
  exact .modBlock hid hb _ (fun _ => ⟨rfl, rfl, rfl, rfl, rfl⟩) (fun _ => rfl) (fun _ => rfl) (fun _ => rfl) fun _ => rfl

theorem Cx.accessEnergy_issued (hid : cx.id = .blk c sl) (hb : cx.blk s = some b) (sp : Space) (good : List (Acc × List Piece)) (wid : Nat) :
    cx.Issued s (cx.accessEnergy s sp good wid) := by
  have energy : ∀ entry n, cx.Issued s (energyBlock s c sl entry n) := fun _ _ =>
    .modBlock hid hb _ (fun _ => ⟨rfl, rfl, rfl, rfl, rfl⟩) (fun _ => rfl) (fun _ => rfl) (fun _ => rfl) fun _ => rfl
  simp only [Cx.accessEnergy, hid]
  split
  · exact energy _ _
  · exact energy _ _

/-- Where a store's records go, and that they find room there (R64, R350). -/
def Block.RoomFor (b : Block) (window : Bool) (n : Nat) : Prop :=
  if window then b.stage.window.length + n ≤ 4096 else b.stage.staged.length + n ≤ 16384

/-- Records that find room are staged, and the instruction goes on. -/
theorem Cx.staging_room (hid : cx.id = .blk c sl) (hb : cx.blk s = some b) {recs : List Staged} (room : b.RoomFor (cx.sealed s) recs.length)
    (d : Dec) (lanes : List Nat) (k : State → State) :
    ∃ t l, cx.staging s d lanes recs k = k t ∧ cx.Stages s t (cx.sealed s) l ∧ l.map Staged.what = recs.map Staged.what := by
  unfold Cx.staging
  simp only [hb, Option.map_some, Option.getD_some]
  cases hsealed : cx.sealed s with
  | true =>
    have fits : ¬(b.stage.window.length + recs.length > 4096) := by simpa [Block.RoomFor, hsealed] using room
    obtain ⟨l, stages, what⟩ := Cx.stageRecs_stages hid hb true recs
    exact ⟨_, l, by simp [fits], stages, what⟩
  | false =>
    have fits : ¬(b.stage.staged.length + recs.length > 16384) := by simpa [Block.RoomFor, hsealed] using room
    have dropped := Cx.dropTicket_issued hid hb
    obtain ⟨b', hb'⟩ := dropped.keeps.blk_some hb
    obtain ⟨l, stages, what⟩ := Cx.stageRecs_stages hid hb' false recs
    exact ⟨_, l, by simp [fits], dropped.andStages stages, what⟩

/-- Who stores what where, by a store of `wid` bytes. -/
def recordsOf (wid : Nat) (good : List (Acc × List Piece)) : List (Nat × Nat × List Byte) :=
  good.flatMap fun g => g.2.flatMap fun q => (chunks8 3 q.pa (piece wid g.1 q)).map fun c => (g.1.lane, c.1, c.2)

/-- A store of ST, STS or STP in a sealed region or an ordered launch stages its records (R64, R350). -/
theorem Cx.store_stages (hid : cx.id = .blk c sl) (hb : cx.blk s = some b) {o : MOp} {sp : Space} {m : MemPlan} {good : List (Acc × List Piece)}
    (hsp : sp ≠ .loc) (goes : (fallNext cx.line cx.pc m.d.len).2 = false) (staged : cx.sealed s = true ∨ b.det ≠ 0)
    (room : b.RoomFor (cx.sealed s) (recordsOf (mWid o) good).length) :
    ∃ l, cx.Stages s (cx.store s o sp m good) (cx.sealed s) l ∧ l.map Staged.what = recordsOf (mWid o) good := by
  unfold Cx.store
  split
  · rename_i idle
    have none_ : good = [] := by simp_all
    exact ⟨[], ⟨.refl cx s, .refl cx s, rfl, rfl, by simp [Stage.joined_nil]⟩, by simp [recordsOf, none_]⟩
  extract_lets wid s0 s1 lanes done bytes recs
  have energy : cx.Issued s s1 := Cx.accessEnergy_issued hid hb sp good wid
  obtain ⟨b1, hb1⟩ := energy.keeps.blk_some hb
  have stage := energy.stage_eq hb hb1
  have det := energy.det_eq hb hb1
  have what : (recs.mapIdx fun i r => { r with seq := i }).map Staged.what = recordsOf (mWid o) good := by
    refine (map_mapIdx_of_forall (h := Staged.what) ?_ recs).trans ?_
    · exact fun _ _ => rfl
    simp only [recs, bytes, List.map_flatMap, stagedOf_what, recordsOf]
    rfl
  have count : (recs.mapIdx fun i r => ({ r with seq := i } : Staged)).length = (recordsOf (mWid o) good).length := by
    rw [← what, List.length_map]
  have room1 : b1.RoomFor (cx.sealed s1) (recs.mapIdx fun i r => ({ r with seq := i } : Staged)).length := by
    simpa only [Block.RoomFor, stage, energy.sealed, count] using room
  obtain ⟨t, l, run, stages, what'⟩ := Cx.staging_room hid hb1 room1 m.d lanes done
  obtain ⟨b2, hb2, -⟩ := stages.blk_some hb1
  have finished : cx.Issued t (done t) := Cx.finish_issued hb2 m.d lanes _ goes
  have goesThere : (cx.sealed s1 || cx.det s1 != 0) = true := by
    simpa [energy.sealed, Cx.det, hb1, det] using staged
  rw [if_neg (by simpa using hsp), if_pos goesThere, run]
  rw [energy.sealed] at stages
  exact ⟨l, energy.andStages (stages.andIssued finished), what'.trans what⟩

/-! ### The course of a store -/

/-- Before a release at .blk that has no atomic to wait for nothing happens (R324). -/
theorem Cx.ownRelease_clear (h : cx.atomUnsent s 0 = false) : cx.ownRelease s = some s := by simp [Cx.ownRelease, h]

/-- The instruction of a store is its course. -/
theorem exec_store {f : Access} (hf : f ∈ allStores) (o : MOp) (h : cxOf s = some cx) :
    exec (f.instr o) s = .next (cx.storeInstr s o f.valid f.sp f.far f.vbase) := by
  simp only [allStores, globalStores, List.cons_append, List.nil_append, List.mem_cons, List.not_mem_nil, or_false] at hf
  obtain rfl | rfl | rfl := hf
  · simp only [show exec (.st o) s = execSt o s from rfl, execSt, withCx, h]
  · simp only [show exec (.sts o) s = execSts o s from rfl, execSts, withCx, h]; rfl
  · simp only [show exec (.stp o) s = execStp o s from rfl, execStp, withCx, h]; rfl

theorem allStores_notLocal {f : Access} (hf : f ∈ allStores) : f.sp ≠ .loc := by
  simp only [allStores, globalStores, List.cons_append, List.nil_append, List.mem_cons, List.not_mem_nil, or_false] at hf
  obtain rfl | rfl | rfl := hf <;> decide

/-- The course of a store that passes every check and whose records find room. -/
theorem Cx.storeInstr_stages {f : Access} {o : MOp} {rs : List (Nat × List Nat)} (hf : f.sp ≠ .loc) (hb : cx.blk s = some b)
    (enters : Enters s cx (f.store cx s o).d rs) (passes : cx.Passes s (mWid o) 1 (cx.memAccs s o f.sp (f.store cx s o) rs)) (clear : cx.Clear s o)
    (legal : cx.sealed s = true → mRel o = false ∨ mWide o = false) (staged : cx.sealed s = true ∨ b.det ≠ 0)
    (room : b.RoomFor (cx.sealed s)
      (recordsOf (mWid o) ((cx.memAccs s o f.sp (f.store cx s o) rs).map fun a => (a, cx.placed s (mWid o) 1 a))).length) :
    ∃ l, cx.Stages s (cx.storeInstr s o f.valid f.sp f.far f.vbase) (cx.sealed s) l ∧
      l.map Staged.what = recordsOf (mWid o) ((cx.memAccs s o f.sp (f.store cx s o) rs).map fun a => (a, cx.placed s (mWid o) 1 a)) := by
  obtain ⟨c, sl, hid, -⟩ := Cx.blk_place hb
  unfold Cx.storeInstr
  rw [show cx.memPlan s o f.valid (storeOk o f.sp) f.sp f.far f.vbase true = f.store cx s o from rfl]
  extract_lets m accs
  obtain ⟨s1, run | ⟨none_, run⟩, issued⟩ := Cx.start_issued enters hb fun s rs =>
    if cx.sealed s && mRel o && mWide o then cx.raise s m.d.srcs { cause := 17 } (if cx.isT then rs.map (·.1) else [0])
    else cx.access s m.d (mWid o) 1 (accs rs) fun s good =>
      ((if mRel o && !mWide o then cx.ownRelease s else some s).map fun s => cx.store s o f.sp m good).getD (cx.wait s cx.acts 1)
  · have allowed : (cx.sealed s1 && mRel o && mWide o) = false := by
      rw [issued.sealed]
      cases hs : cx.sealed s with
      | false => rfl
      | true => obtain h | h := legal hs <;> simp [h]
    have released : (if mRel o && !mWide o then cx.ownRelease s1 else some s1) = some s1 := by
      split
      · rename_i own
        simp only [Bool.and_eq_true, Bool.not_eq_true'] at own
        exact Cx.ownRelease_clear ((issued.atomUnsent_eq 0).trans (clear own.1 own.2))
      · rfl
    obtain ⟨b1, hb1⟩ := issued.keeps.blk_some hb
    have stage := issued.stage_eq hb hb1
    have det := issued.det_eq hb hb1
    have found : ((accs rs).map fun a => (a, cx.placed s1 (mWid o) 1 a)) = (accs rs).map fun a => (a, cx.placed s (mWid o) 1 a) := by
      simp only [issued.placed_eq hid]
    obtain ⟨l, stages, what⟩ := Cx.store_stages (o := o) (m := m) hid hb1 hf enters.goes
      (by rw [issued.sealed, det]; exact staged) (good := (accs rs).map fun a => (a, cx.placed s (mWid o) 1 a))
      (by simpa only [Block.RoomFor, stage, issued.sealed] using room)
    rw [run]
    have passes1 : cx.Passes s1 (mWid o) 1 (accs rs) := issued.passes hid passes
    rw [if_neg (by simp [allowed]), Cx.access_passes passes1, released, found, Option.map_some, Option.getD_some]
    rw [issued.sealed] at stages
    exact ⟨l, issued.andStages stages, what⟩
  · rw [run]
    subst none_
    exact ⟨[], issued.stages _, rfl⟩

end Sys2Proof.Machine

open Sys2Proof Sys2Proof.Machine Sys2Proof.Claims in
/-- Settles O20: a store that passes its checks and finds room joins its records to the window or the allotment (`storeInstr_stages`). -/
theorem stagedStores : Obligations.StagedStores := by
  intro f hf o s cx rs b m accs recs enters hb passes clear place
  have records : recordsOf (mWid o) (accs.map fun a => (a, cx.placed s (mWid o) 1 a)) = recs := by
    simp only [recordsOf, List.flatMap_map, recs]
  obtain ⟨l, stages, what⟩ := Cx.storeInstr_stages (f := f) (o := o) (rs := rs) (allStores_notLocal hf) hb enters passes clear
    (fun h => by
      obtain ⟨-, legal, -⟩ | ⟨open_, -⟩ := place
      · exact legal
      · simp [h] at open_)
    (place.imp (·.1) (·.2.1))
    (by
      rw [records]
      obtain ⟨h, -, room⟩ | ⟨h, -, room⟩ := place <;> simpa [Block.RoomFor, h] using room)
  have what' : l.map (fun r => (r.who, r.pa, r.bytes)) = recs := what.trans records
  obtain ⟨b', hb', stage⟩ := stages.blk_some hb
  refine ⟨_, b', exec_store hf o enters.here, hb', ?_, ?_, stages.path, stages.mem, stages.regs.same, stages.only⟩
  · cases hs : cx.sealed s with
    | true => simpa [stage, Stage.joined, hs] using what'
    | false => simpa [stage, Stage.joined, hs] using what'
  · intro r hr
    obtain ⟨a, -, hr⟩ := List.mem_flatMap.mp hr
    obtain ⟨q, -, hr⟩ := List.mem_flatMap.mp hr
    obtain ⟨w, hw, rfl⟩ := List.mem_map.mp hr
    exact chunks8_aligned _ _ _ w hw
end

/-! ## Encoding and decoding (R92 to R100, R107 to R114) -/
section
namespace Sys2Proof

/-! ### Fields of a parcel -/

theorem decodeP0_encP0 (opc : Nat) (p : P0) : decodeP0 (encP0 opc p) = p := by
  have nwb : (encP0 opc p).getLsbD 17 = p.nwb := by
    simp only [encP0, BitVec.getLsbD_append]
    simp
  rw [decodeP0, nwb]
  simp (disch := omega) only [encP0, BitVec.extractLsb'_append_eq_of_add_le, BitVec.extractLsb'_append_eq_of_le, Nat.reduceSub,
    BitVec.extractLsb'_eq_self]

/-- The X parcel is its fields put together (R99); so are the M and the K parcel (R93, R100) below. -/
theorem decodeX_encX (a : W32) (o : XOp) (h : decodeP0 a = o.p) :
    decodeX a (o.srcC ++ o.rm ++ BitVec.ofBool o.sat ++ o.type ++ o.fn4 ++ o.z) = o := by
  have sat : BitVec.getLsbD (o.srcC ++ o.rm ++ BitVec.ofBool o.sat ++ o.type ++ o.fn4 ++ o.z) 21 = o.sat := by
    simp only [BitVec.getLsbD_append]
    simp
  simp (disch := omega) only [decodeX, h, sat, BitVec.extractLsb'_append_eq_of_add_le, BitVec.extractLsb'_append_eq_of_le, Nat.reduceSub,
    BitVec.extractLsb'_eq_self]

theorem decodeM_encM (a : W32) (o : MOp) (h : decodeP0 a = o.p) :
    decodeM a (o.scope ++ o.order ++ o.cpol ++ o.wid ++ o.ofs) = o := by
  simp (disch := omega) only [decodeM, h, BitVec.extractLsb'_append_eq_of_add_le, BitVec.extractLsb'_append_eq_of_le, Nat.reduceSub,
    BitVec.extractLsb'_eq_self]

theorem decodeK_encK (a : W32) (sub : Nat) (o : KOp) (h : decodeP0 a = o.p) :
    decodeK a (BitVec.ofNat 8 sub ++ o.param) = o := by
  simp (disch := omega) only [decodeK, h, BitVec.extractLsb'_append_eq_of_add_le, BitVec.extractLsb'_eq_self]

theorem sub_encK {sub : Nat} (o : KOp) (h : sub < 256) : bits (BitVec.ofNat 8 sub ++ o.param).toNat 31 24 = sub := by
  have top : (BitVec.ofNat 8 sub ++ o.param).extractLsb' 24 8 = BitVec.ofNat 8 sub := by
    simp (disch := omega) only [BitVec.extractLsb'_append_eq_of_le, Nat.reduceSub, BitVec.extractLsb'_eq_self]
  have := congrArg BitVec.toNat top
  simp only [BitVec.extractLsb'_toNat, BitVec.toNat_ofNat, Nat.shiftRight_eq_div_pow] at this
  unfold bits
  omega


/-! ### Parcels and bytes -/

theorem takeParcel_parcelBytes (a : W32) (rest : List Byte) : takeParcel (parcelBytes a ++ rest) = some (a, rest) := by
  have whole : a.extractLsb' 24 8 ++ a.extractLsb' 16 8 ++ a.extractLsb' 8 8 ++ a.extractLsb' 0 8 = a := by
    rw [BitVec.extractLsb'_append_extractLsb'_eq_extractLsb' (by decide), BitVec.extractLsb'_append_extractLsb'_eq_extractLsb' (by decide),
      BitVec.extractLsb'_append_extractLsb'_eq_extractLsb' (by decide)]
    exact BitVec.extractLsb'_eq_self
  simp only [parcelBytes, List.cons_append, List.nil_append, takeParcel, whole]

theorem parcels_cons (a : W32) (l : List W32) (rest : List Byte) :
    Claims.parcels (a :: l) ++ rest = parcelBytes a ++ (Claims.parcels l ++ rest) := by
  simp [Claims.parcels]

theorem decode_one {a : W32} (h : formLength a = 1) (rest : List Byte) :
    decode (Claims.parcels [a] ++ rest) = .ok (decodeParcels a 0#32 0#32, rest) := by
  simp only [parcels_cons, decode, takeParcel_parcelBytes, h]
  rfl

theorem decode_two {a : W32} (h : formLength a = 2) (b : W32) (rest : List Byte) :
    decode (Claims.parcels [a, b] ++ rest) = .ok (decodeParcels a b 0#32, rest) := by
  simp only [parcels_cons, decode, takeParcel_parcelBytes, h]
  rfl

theorem decode_three {a : W32} (h : formLength a = 3) (b c : W32) (rest : List Byte) :
    decode (Claims.parcels [a, b, c] ++ rest) = .ok (decodeParcels a b c, rest) := by
  simp only [parcels_cons, decode, takeParcel_parcelBytes, h]
  rfl

/-! ### The opcode byte -/

theorem Cls.code_lt (c : Cls) : c.code < 3 := by cases c <;> decide
theorem Cls.ofCode_code (c : Cls) : Cls.ofCode c.code = c := by cases c <;> rfl

/-- FormLength of the parcel 0 made for an opcode (R93, R94). -/
theorem formLength_encP0 {opc : Nat} (h : opc < 256) (p : P0) :
    formLength (encP0 opc p) = match formOf opc with
      | some .R => if p.srcA = 127#7 ∨ p.srcB = 127#7 then 2 else 1
      | some .W => 3
      | some _ => 2
      | none => 1 := by
  have srcA : (encP0 opc p).extractLsb' 10 7 = p.srcA := congrArg P0.srcA (decodeP0_encP0 opc p)
  have srcB : (encP0 opc p).extractLsb' 3 7 = p.srcB := congrArg P0.srcB (decodeP0_encP0 opc p)
  simp only [formLength, Laws.Opcode.encP0_opcode p h, srcA, srcB] <;> rfl

/-- The form of an ALU opcode is that of its function code, whatever the class (R107, R108). -/
theorem formOf_alu (c : Cls) {f : Nat} (hf : f < 64) : formOf (c.code * 64 + f) = formOf f := by
  have := c.code_lt
  have low : (c.code * 64 + f) % 64 = f := by omega
  have alu : c.code * 64 + f < 0xC0 := by omega
  simp only [formOf, low, alu, show f < 0xC0 by omega, Nat.mod_eq_of_lt hf, if_true]

/-- Parcels whose opcode is that of an ALU function (R107). -/
theorem decodeParcels_alu (c : Cls) {f : Nat} (hf : f < 64) (p : P0) (b z : W32) :
    decodeParcels (encP0 (c.code * 64 + f) p) b z =
      (decodeAlu f c (decodeR (encP0 (c.code * 64 + f) p) b) (decodeX (encP0 (c.code * 64 + f) p) b)).getD
        (.unassignedOpcode (encP0 (c.code * 64 + f) p) 0#32) := by
  have := c.code_lt
  have low : (c.code * 64 + f) % 64 = f := by omega
  have high : (c.code * 64 + f) / 64 = c.code := by omega
  simp only [decodeParcels, Laws.Opcode.encP0_opcode p (show c.code * 64 + f < 256 by omega), low, high, c.ofCode_code,
    show c.code * 64 + f < 0xC0 by omega, if_true]

/-- Parcels whose opcode is a group primary (R111). -/
theorem decodeParcels_group {opc : Nat} (h : opc < 256) (hp : 0xC0 ≤ opc) (form : formOf opc = some .K) (p : P0) (b z : W32) :
    decodeParcels (encP0 opc p) b z =
      (decodeGroup opc (bits b.toNat 31 24) (decodeK (encP0 opc p) b)).getD (.unassignedOpcode (encP0 opc p) b) := by
  simp only [decodeParcels, Laws.Opcode.encP0_opcode p h, form, show ¬opc < 0xC0 by omega, if_false]

/-- Parcels of class 11 whose opcode is no group primary (R110). -/
theorem decodeParcels_primary {opc : Nat} (h : opc < 256) (hp : 0xC0 ≤ opc) (form : formOf opc ≠ some .K) (p : P0) (b z : W32) :
    decodeParcels (encP0 opc p) b z =
      (decodePrimary opc (decodeR (encP0 opc p) b) (decodeM (encP0 opc p) b) { p, param := b } { p, imm := z ++ b }).getD
        (.unassignedOpcode (encP0 opc p) 0#32) := by
  simp only [decodeParcels, Laws.Opcode.encP0_opcode p h, show ¬opc < 0xC0 by omega, if_false, decodeP0_encP0]

/-! ### The forms -/

/-- Decoding an instruction's parcels gives it back, and FormLength counts them. -/
def RoundTrips (i : Instr) : Prop :=
  ∀ l rest, encode i = some l → decode (Claims.parcels l ++ rest) = .ok (i, rest) ∧ l ≠ [] ∧ l.length = formLength (l.headD 0)

variable {i : Instr} {opc : Nat}

theorem RoundTrips.one {a : W32} (enc : encode i = some [a]) (len : formLength a = 1) (dec : decodeParcels a 0#32 0#32 = i) : RoundTrips i := by
  intro l rest h
  obtain rfl := Option.some.inj (enc.symm.trans h)
  exact ⟨by rw [decode_one len, dec], by simp, by simp [len]⟩

theorem RoundTrips.two {a b : W32} (enc : encode i = some [a, b]) (len : formLength a = 2) (dec : decodeParcels a b 0#32 = i) : RoundTrips i := by
  intro l rest h
  obtain rfl := Option.some.inj (enc.symm.trans h)
  exact ⟨by rw [decode_two len, dec], by simp, by simp [len]⟩

theorem RoundTrips.three {a b c : W32} (enc : encode i = some [a, b, c]) (len : formLength a = 3) (dec : decodeParcels a b c = i) : RoundTrips i := by
  intro l rest h
  obtain rfl := Option.some.inj (enc.symm.trans h)
  exact ⟨by rw [decode_three len, dec], by simp, by simp [len]⟩

/-- The parcel after parcel 0 of an R-form instruction is its immediate where a specifier is 127, and not looked at elsewhere (R93). -/
theorem decodeR_encP0 (opc : Nat) (o : ROp) (b : W32) (hb : (if o.p.srcA = 127#7 ∨ o.p.srcB = 127#7 then b else 0#32) = o.imm) :
    decodeR (encP0 opc o.p) b = o := by
  have srcA : (encP0 opc o.p).extractLsb' 10 7 = o.p.srcA := congrArg P0.srcA (decodeP0_encP0 opc o.p)
  have srcB : (encP0 opc o.p).extractLsb' 3 7 = o.p.srcB := congrArg P0.srcB (decodeP0_encP0 opc o.p)
  rw [decodeR, srcA, srcB, hb, decodeP0_encP0]

theorem RoundTrips.R {o : ROp} (enc : encode i = some (encR opc o)) (h : opc < 256) (form : formOf opc = some .R) (wf : o.wf = true)
    (dec : ∀ b, decodeR (encP0 opc o.p) b = o → decodeParcels (encP0 opc o.p) b 0#32 = i) : RoundTrips i := by
  have len := formLength_encP0 h o.p
  simp only [form] at len
  by_cases imm : o.p.srcA = 127#7 ∨ o.p.srcB = 127#7
  · rw [encR, if_pos imm] at enc
    rw [if_pos imm] at len
    exact .two enc len (dec _ (decodeR_encP0 opc o _ (if_pos imm)))
  · have zero : o.imm = 0#32 := by simpa [ROp.wf, not_or.mp imm] using wf
    rw [encR, if_neg imm] at enc
    rw [if_neg imm] at len
    exact .one enc len (dec _ (decodeR_encP0 opc o _ (by rw [if_neg imm, zero])))

theorem RoundTrips.aluR {c : Cls} {f : Nat} {o : ROp} (enc : encode i = some (encR (c.code * 64 + f) o)) (hf : f < 64) (form : formOf f = some .R)
    (wf : o.wf = true) (row : ∀ x, decodeAlu f c o x = some i) : RoundTrips i := by
  have := c.code_lt
  refine .R enc (by omega) ((formOf_alu c hf).trans form) wf fun b same => ?_
  rw [decodeParcels_alu c hf, same, row, Option.getD_some]

theorem RoundTrips.aluX {c : Cls} {f : Nat} {o : XOp} (enc : encode i = some (encX (c.code * 64 + f) o)) (hf : f < 64) (form : formOf f = some .X)
    (row : ∀ r, decodeAlu f c r o = some i) : RoundTrips i := by
  have := c.code_lt
  refine .two enc ?_ ?_
  · rw [formLength_encP0 (by omega), formOf_alu c hf, form]
  · rw [decodeParcels_alu c hf, decodeX_encX _ o (decodeP0_encP0 _ _), row, Option.getD_some]

theorem RoundTrips.primaryR {o : ROp} (enc : encode i = some (encR opc o)) (h : opc < 256) (hp : 0xC0 ≤ opc) (form : formOf opc = some .R)
    (wf : o.wf = true) (row : ∀ m p w, decodePrimary opc o m p w = some i) : RoundTrips i := by
  refine .R enc h form wf fun b same => ?_
  rw [decodeParcels_primary h hp (by simp [form]), same, row, Option.getD_some]

theorem RoundTrips.primaryM {o : MOp} (enc : encode i = some (encM opc o)) (h : opc < 256) (hp : 0xC0 ≤ opc) (form : formOf opc = some .M)
    (row : ∀ r p w, decodePrimary opc r o p w = some i) : RoundTrips i := by
  refine .two enc (by rw [formLength_encP0 h, form]) ?_
  rw [decodeParcels_primary h hp (by simp [form]), decodeM_encM _ o (decodeP0_encP0 _ _), row, Option.getD_some]

theorem RoundTrips.primaryP {o : POp} (enc : encode i = some (encP opc o)) (h : opc < 256) (hp : 0xC0 ≤ opc) (form : formOf opc = some .P)
    (row : ∀ r m w, decodePrimary opc r m o w = some i) : RoundTrips i := by
  refine .two enc (by rw [formLength_encP0 h, form]) ?_
  rw [decodeParcels_primary h hp (by simp [form]), row, Option.getD_some]

theorem RoundTrips.primaryW {o : WOp} (enc : encode i = some (encW opc o)) (h : opc < 256) (hp : 0xC0 ≤ opc) (form : formOf opc = some .W)
    (row : ∀ r m p, decodePrimary opc r m p o = some i) : RoundTrips i := by
  have halves : o.imm.extractLsb' 32 32 ++ o.imm.extractLsb' 0 32 = o.imm :=
    (BitVec.extractLsb'_append_extractLsb'_eq_extractLsb' (by decide)).trans BitVec.extractLsb'_eq_self
  refine .three enc (by rw [formLength_encP0 h, form]) ?_
  rw [decodeParcels_primary h hp (by simp [form]), halves, row, Option.getD_some]

theorem RoundTrips.group {sub : Nat} {o : KOp} (enc : encode i = some (encK opc sub o)) (h : opc < 256) (hp : 0xC0 ≤ opc)
    (form : formOf opc = some .K) (hs : sub < 256) (row : decodeGroup opc sub o = some i) : RoundTrips i := by
  refine .two enc (by rw [formLength_encP0 h, form]) ?_
  rw [decodeParcels_group h hp form, sub_encK o hs, decodeK_encK _ _ o (decodeP0_encP0 _ _), row, Option.getD_some]

/-! ### What no constructor but one spells -/

/-- An unassigned SUB of a group (R114). -/
theorem decodeGroup_unassigned {n sub : Nat} (h : groupSize opc = some n) (hn : n ≤ sub) (k : KOp) :
    0xC0 ≤ opc ∧ formOf opc = some .K ∧ decodeGroup opc sub k = none := by
  unfold groupSize at h
  split at h
  all_goals cases h
  all_goals
    refine ⟨by decide, by decide, ?_⟩
    unfold decodeGroup
    split
    any_goals omega
    rfl

/-- An unassigned opcode (R107, R110). -/
theorem decodeAlu_unassigned {f : Nat} (h : 0x25 ≤ f ∧ f ≤ 0x27 ∨ 0x34 ≤ f ∧ f ≤ 0x37) (c : Cls) (r : ROp) (x : XOp) :
    formOf f = none ∧ decodeAlu f c r x = none := by
  have : f = 0x25 ∨ f = 0x26 ∨ f = 0x27 ∨ f = 0x34 ∨ f = 0x35 ∨ f = 0x36 ∨ f = 0x37 := by omega
  rcases this with rfl | rfl | rfl | rfl | rfl | rfl | rfl <;> exact ⟨by decide, rfl⟩


theorem RoundTrips.unassigned {a b : W32} (wf : unassignedPair a.toNat b.toNat = true) : RoundTrips (.unassignedOpcode a b) := by
  unfold unassignedPair at wf
  split at wf
  next n size =>
    obtain ⟨hp, form, row⟩ := decodeGroup_unassigned size (of_decide_eq_true wf) (decodeK a b)
    have len : formLength a = 2 := by rw [formLength, form]
    refine .two (a := a) (b := b) (by simp [encode, encUnassigned, len]) len ?_
    simp only [decodeParcels, form, row, show ¬bits a.toNat 31 24 < 0xC0 by omega, if_false, Option.getD_none]
  next =>
    obtain ⟨opc, zero⟩ := Bool.and_eq_true_iff.mp wf
    obtain rfl : b = 0#32 := by simpa [← BitVec.toNat_inj] using zero
    have unlisted : formOf (bits a.toNat 31 24) = none ∧ decodeParcels a 0#32 0#32 = .unassignedOpcode a 0#32 := by
      simp only [decodeParcels]
      generalize bits a.toNat 31 24 = x at opc
      by_cases alu : x < 0xC0
      · have f : 0x25 ≤ x % 64 ∧ x % 64 ≤ 0x27 ∨ 0x34 ≤ x % 64 ∧ x % 64 ≤ 0x37 := by simpa [unassignedOpc, alu] using opc
        obtain ⟨form, row⟩ := decodeAlu_unassigned f (Cls.ofCode (x / 64)) (decodeR a 0#32) (decodeX a 0#32)
        have same : formOf x = formOf (x % 64) := by simp [formOf, alu, show x % 64 < 0xC0 by omega]
        exact ⟨same.trans form, by rw [if_pos alu, row, Option.getD_none]⟩
      · obtain rfl : x = 0xFE := by simpa [unassignedOpc, alu] using opc
        exact ⟨by decide, rfl⟩
    have len : formLength a = 1 := by rw [formLength, unlisted.1]
    exact .one (by simp [encode, encUnassigned, len]) len unlisted.2

/-- MTS that no other constructor spells (R420, R421, R427, R440). -/
theorem decodeMts_plain {o : KOp} (h : o.plainMts = true) : decodeMts o = .mts o := by
  simp only [KOp.plainMts, KOp.num, Bool.not_eq_true', Bool.or_eq_false_iff, Bool.and_eq_false_iff, beq_eq_false_iff_ne] at h
  unfold decodeMts
  split
  · split <;> simp_all
  all_goals simp_all

/-- VFCTL whose OP is no other constructor's (R463). -/
theorem decodeVfctl_quiesce {o : KOp} (h : (!(o.op == 1 || o.op == 2 || o.op == 3)) = true) : decodeVfctl o = .vfctlQuiesce o := by
  simp only [KOp.op, Bool.not_eq_true', Bool.or_eq_false_iff, beq_eq_false_iff_ne] at h
  unfold decodeVfctl
  split <;> simp_all

/-! ### All instructions -/

/-- Each row of the encoder's table is a row of the decoder's. -/
theorem Instr.roundTrips (i : Instr) (h : i.wellFormed = true) : RoundTrips i := by
  cases i with
  | add c o | sub c o | mul c o | mulh c o | mulhu c o | div c o | divu c o | rem c o | remu c o | neg c o | abs c o | min c o | max c o
  | minu c o | maxu c o | addsat c o | subsat c o | and c o | or c o | xor c o | andn c o | not c o | shl c o | shr c o | sar c o | rol c o
  | clz c o | popc c o | brev c o | mov c o => exact .aluR rfl (by decide) (by decide) h fun _ => rfl
  | mad c o | bfx c o | bfi c o | sel c o | cmp c o | lea c o | plog c o | fadd c o | fsub c o | fmul c o | fma c o | fmin c o | fmax c o
  | fabs c o | fneg c o | fcmp c o | fclass c o | fcvt c o | icvt c o | frcp c o | frsq c o | fsqrt c o | fexp2 c o | flog2 c o | fsin c o
  | fcos c o | ftanh c o => exact .aluX rfl (by decide) (by decide) fun _ => rfl
  | movw o => exact .primaryW rfl (by decide) (by decide) (by decide) fun _ _ _ => rfl
  | ld o | st o | ldl o | stl o | ldp o | stp o | ldg o | sts o | pref o | atom o | red o | fence o | waita o | cflush o =>
    exact .primaryM rfl (by decide) (by decide) (by decide) fun _ _ _ => rfl
  | cpkick o | cpwait o | cpdrain o | bari o | bara o | barw o | barl o | cvset o | cvsign o | agset o | agget o | exit o | yield o
  | wdog o | grow o | shrink o | mfs o | tlbinv o | cntr o | cntc o | ctxsv o | ctxld o | dirtyrd o | halt o | wfi o | sev o =>
    exact .group rfl (by decide) (by decide) (by decide) (by decide) rfl
  | ticket o | trel o | azero o | setvl o | shfl o | vperm o | vcmprs o | vexpnd o | vslide o | vid o | vbcast o | ret o | rejoin o | nop o
  | hop o | rett o | bkpt o | launch o | arm o | send o | cfg o | splice o =>
    exact .primaryR rfl (by decide) (by decide) (by decide) h fun _ _ _ => rfl
  | mma o | mmas o | ald o | ast o | drn o | vred o | vscan o | qnt o | dqnt o | br o | jmp o | call o | ep o | trap o | strm o | sbar o
  | fwait o => exact .primaryP rfl (by decide) (by decide) (by decide) fun _ _ _ => rfl
  | tfetch o | tfetchM o | tfetchR o =>
    refine .primaryP rfl (by decide) (by decide) (by decide) fun _ _ _ => congrArg some ?_
    simp_all [Instr.wellFormed, decodeTfetch]
  | drainf o | drainfSlice o =>
    obtain ⟨wf, mode⟩ := Bool.and_eq_true_iff.mp h
    refine .primaryR rfl (by decide) (by decide) (by decide) wf fun _ _ _ => congrArg some ?_
    simpa [decodeDrainf] using mode
  | mts o => exact .group rfl (by decide) (by decide) (by decide) (by decide) (congrArg some (decodeMts_plain h))
  | svrunResume o | svrunAbort o | svrunDeliver o =>
    obtain ⟨num, src⟩ := Bool.and_eq_true_iff.mp h
    refine .group rfl (by decide) (by decide) (by decide) (by decide) (congrArg some ?_)
    simp only [decodeMts, show bits o.param.toNat 11 0 = 0x185 from beq_iff_eq.mp num, beq_iff_eq.mp src]
  | svinit o | hostint o | ringack o =>
    refine .group rfl (by decide) (by decide) (by decide) (by decide) (congrArg some ?_)
    simp only [decodeMts, show bits o.param.toNat 11 0 = _ from beq_iff_eq.mp h]
  | vfctlQuiesce o => exact .group rfl (by decide) (by decide) (by decide) (by decide) (congrArg some (decodeVfctl_quiesce h))
  | vfctlResume o | vfctlRdq o | vfctlWrq o =>
    refine .group rfl (by decide) (by decide) (by decide) (by decide) (congrArg some ?_)
    simp only [decodeVfctl, show bits o.param.toNat 23 20 = _ from beq_iff_eq.mp h]
  | unassignedOpcode a b => exact .unassigned h
  | _ => exact fun _ _ enc => nomatch enc

/-- The instructions with an opcode are those with an encoding. -/
theorem encode_isNone (i : Instr) : (encode i).isNone = (opcodeOf i).isNone := by cases i <;> rfl

end Sys2Proof

/-- Settles O58: every form's parcels decode to the fields they were made of, and each row of the decoder's tables is the encoder's
(`Instr.roundTrips`). -/
theorem decodeEncode : Obligations.DecodeEncode := by
  intro i wf
  exact ⟨i.roundTrips wf, by rw [← Option.isNone_iff_eq_none, Sys2Proof.encode_isNone, Option.isNone_iff_eq_none]⟩
end

/-- Settles O57: each word decodes by running the decoder. -/
theorem decodeWords : Obligations.DecodeWords := by
  unfold Obligations.DecodeWords
  decide

/-! ## What the integer functions compute (R132, R136, R138, R140)

The model's functions work on numbers; each agrees with its row of the table on W-bit values. -/
section
namespace Sys2Proof.Machine

/-! ### Numbers and words -/

theorem signed_toNat {w : Nat} (x : BitVec w) : signed w x.toNat = x.toInt := by
  have halves : 2 * x.toNat < 2 ^ w ↔ x.toNat < 2 ^ (w - 1) := by
    cases w with
    | zero => have := x.isLt; omega
    | succ n => rw [Nat.add_sub_cancel, Nat.pow_succ]; omega
  simp only [signed, BitVec.toInt, Nat.mod_eq_of_lt x.isLt, halves]

theorem wrapNat_eq (w : Nat) (y : Int) : wrapNat w y = (BitVec.ofInt w y).toNat := (BitVec.toNat_ofInt y).symm

theorem bit_eq_testBit (x n : Nat) : bit x n = x.testBit n := by
  rw [bit, Nat.testBit_eq_decide_div_mod_eq]
  rfl

theorem bit_toNat {w : Nat} (x : BitVec w) (n : Nat) : bit x.toNat n = x.getLsbD n := by
  rw [bit_eq_testBit, BitVec.testBit_toNat]

/-- A number below `2 ^ w` is the sum of its bits. -/
theorem sum_bits (x w : Nat) : ((List.range w).map fun i => if bit x i then 2 ^ i else 0).sum = x % 2 ^ w := by
  induction w with
  | zero => simp [Nat.mod_one]
  | succ n ih =>
    rw [List.range_succ, List.map_append, List.sum_append, ih, Nat.mod_pow_succ]
    obtain even | odd := Nat.mod_two_eq_zero_or_one (x / 2 ^ n)
    · simp [bit, even]
    · simp [bit, odd]

/-! ### The functions -/

variable {w : Nat} {l : List Nat} {a b : BitVec w}

theorem addF_val (ha : aOf l = a.toNat) (hb : bOf l = b.toNat) : addF w l = (a + b).toNat := by
  rw [addF, ha, hb, BitVec.toNat_add]
theorem subF_val (ha : aOf l = a.toNat) (hb : bOf l = b.toNat) : subF w l = (a - b).toNat := by
  have := b.isLt
  have turn : ((2 ^ w - b.toNat + a.toNat : Nat) : Int) = a.toNat - b.toNat + (2 ^ w : Nat) := by omega
  rw [subF, ha, hb, wrapNat, BitVec.toNat_sub, ← Int.add_emod_right, ← turn, ← Int.natCast_emod, Int.toNat_natCast]
theorem mulF_val (ha : aOf l = a.toNat) (hb : bOf l = b.toNat) : mulF w l = (a * b).toNat := by
  rw [mulF, ha, hb, BitVec.toNat_mul]
theorem mulhF_val (ha : aOf l = a.toNat) (hb : bOf l = b.toNat) :
    mulhF w l = (BitVec.ofInt w (a.toInt * b.toInt / (2 ^ w : Nat))).toNat := by
  rw [mulhF, ha, hb, signed_toNat, signed_toNat, wrapNat_eq]
theorem mulhuF_val (ha : aOf l = a.toNat) (hb : bOf l = b.toNat) : mulhuF w l = (BitVec.ofNat w (a.toNat * b.toNat / 2 ^ w)).toNat := by
  have high : a.toNat * b.toNat / 2 ^ w < 2 ^ w := Nat.div_lt_of_lt_mul (Nat.mul_lt_mul'' a.isLt b.isLt)
  rw [mulhuF, ha, hb, BitVec.toNat_ofNat, Nat.mod_eq_of_lt high]
theorem negF_val (ha : aOf l = a.toNat) : negF w l = (-a).toNat := by
  rw [negF, ha, signed_toNat, wrapNat_eq, BitVec.ofInt_neg, BitVec.ofInt_toInt]
theorem absF_val (ha : aOf l = a.toNat) : absF w l = a.abs.toNat := by
  rw [absF, ha, signed_toNat, BitVec.toNat_abs, BitVec.toInt_eq_msb_cond]
  have := a.isLt
  split
  next negative =>
    have positive : 0 < a.toNat := by
      refine Nat.pos_of_ne_zero fun zero => ?_
      simp [BitVec.eq_of_toNat_eq (y := 0#w) (by simpa using zero)] at negative
    rw [show ((a.toNat : Int) - (2 ^ w : Nat)).natAbs = 2 ^ w - a.toNat by omega, Nat.mod_eq_of_lt (by omega)]
  next => rw [Int.natAbs_natCast, Nat.mod_eq_of_lt this]
theorem minF_val (ha : aOf l = a.toNat) (hb : bOf l = b.toNat) : minF w l = (if a.toInt ≤ b.toInt then a else b).toNat := by
  rw [minF, ha, hb, signed_toNat, signed_toNat, apply_ite BitVec.toNat]
theorem maxF_val (ha : aOf l = a.toNat) (hb : bOf l = b.toNat) : maxF w l = (if a.toInt ≥ b.toInt then a else b).toNat := by
  rw [maxF, ha, hb, signed_toNat, signed_toNat, apply_ite BitVec.toNat]
theorem minuF_val (ha : aOf l = a.toNat) (hb : bOf l = b.toNat) : minuF l = (if a ≤ b then a else b).toNat := by
  rw [minuF, ha, hb, apply_ite BitVec.toNat]
  rfl
theorem maxuF_val (ha : aOf l = a.toNat) (hb : bOf l = b.toNat) : maxuF l = (if b ≤ a then a else b).toNat := by
  rw [maxuF, ha, hb, apply_ite BitVec.toNat]
  rfl
theorem addsatF_val (ha : aOf l = a.toNat) (hb : bOf l = b.toNat) : addsatF w l = (Claims.sat w (a.toInt + b.toInt)).toNat := by
  rw [addsatF, ha, hb, signed_toNat, signed_toNat, satS, wrapNat_eq, Claims.sat]
theorem subsatF_val (ha : aOf l = a.toNat) (hb : bOf l = b.toNat) : subsatF w l = (Claims.sat w (a.toInt - b.toInt)).toNat := by
  rw [subsatF, ha, hb, signed_toNat, signed_toNat, satS, wrapNat_eq, Claims.sat]
theorem andF_val (ha : aOf l = a.toNat) (hb : bOf l = b.toNat) : andF l = (a &&& b).toNat := by rw [andF, ha, hb, BitVec.toNat_and]
theorem orF_val (ha : aOf l = a.toNat) (hb : bOf l = b.toNat) : orF l = (a ||| b).toNat := by rw [orF, ha, hb, BitVec.toNat_or]
theorem xorF_val (ha : aOf l = a.toNat) (hb : bOf l = b.toNat) : xorF l = (a ^^^ b).toNat := by rw [xorF, ha, hb, BitVec.toNat_xor]
theorem notN_toNat (x : BitVec w) : notN w x.toNat = (~~~x).toNat := by
  rw [notN, Nat.mod_eq_of_lt x.isLt, BitVec.toNat_not]
theorem andnF_val (ha : aOf l = a.toNat) (hb : bOf l = b.toNat) : andnF w l = (a &&& ~~~b).toNat := by
  rw [andnF, ha, hb, notN_toNat, BitVec.toNat_and]
theorem notF_val (ha : aOf l = a.toNat) : notF w l = (~~~a).toNat := by rw [notF, ha, notN_toNat]
theorem shlF_val (ha : aOf l = a.toNat) (hb : bOf l = b.toNat) : shlF w l = (if w ≤ b.toNat then 0 else a <<< b.toNat).toNat := by
  rw [shlF, ha, hb, apply_ite BitVec.toNat, BitVec.toNat_shiftLeft, Nat.shiftLeft_eq]
  rfl
theorem shrF_val (ha : aOf l = a.toNat) (hb : bOf l = b.toNat) : shrF w l = (if w ≤ b.toNat then 0 else a >>> b.toNat).toNat := by
  rw [shrF, ha, hb, apply_ite BitVec.toNat, BitVec.toNat_ushiftRight, Nat.shiftRight_eq_div_pow]
  rfl
theorem sarF_val (ha : aOf l = a.toNat) (hb : bOf l = b.toNat) : sarF w l = (a.sshiftRight (min b.toNat (w - 1))).toNat := by
  rw [sarF, ha, hb, signed_toNat, wrapNat_eq, BitVec.sshiftRight, Int.shiftRight_eq_div_pow]
theorem rolF_val (ha : aOf l = a.toNat) (hb : bOf l = b.toNat) : rolF w l = (a.rotateLeft b.toNat).toNat := by
  rw [rolF, ha, hb, BitVec.toNat_rotateLeft, Nat.shiftLeft_eq, Nat.shiftRight_eq_div_pow]
/-- The leading zeros of a nonzero number stand above its highest bit. -/
theorem clzF_val (ha : aOf l = a.toNat) : clzF w l = a.clz.toNat := by
  rw [clzF, ha]
  obtain rfl | nonzero := eq_or_ne a 0#w
  · simp [BitVec.clz_eq_iff_eq_zero.mpr rfl, Nat.mod_eq_of_lt Nat.lt_two_pow_self]
  · have positive : a.toNat ≠ 0 := fun zero => nonzero (BitVec.eq_of_toNat_eq (by simpa using zero))
    have width : 0 < w := Nat.pos_of_ne_zero (by rintro rfl; exact nonzero (BitVec.eq_nil _ |>.trans (BitVec.eq_nil _).symm))
    have above : a.toNat < 2 ^ (w - a.clz.toNat) := BitVec.toNat_lt_two_pow_sub_clz
    have below : 2 ^ (w - 1 - a.clz.toNat) ≤ a.toNat := BitVec.two_pow_sub_clz_le_toNat_of_ne_zero width nonzero
    have top : w - 1 - a.clz.toNat ≤ Nat.log2 a.toNat := (Nat.le_log2 positive).mpr below
    have top' : Nat.log2 a.toNat < w - a.clz.toNat := (Nat.log2_lt positive).mpr above
    rw [if_neg positive]
    omega
theorem popcF_val (ha : aOf l = a.toNat) : popcF w l = (BitVec.ofNat w ((List.range w).countP fun i => a.getLsbD i)).toNat := by
  have few : (List.range w).countP (fun i => a.getLsbD i) < 2 ^ w :=
    Nat.lt_of_le_of_lt (by simpa using List.countP_le_length (l := List.range w)) Nat.lt_two_pow_self
  simp only [popcF, popCount, ha, bit_toNat, ← List.countP_eq_length_filter, BitVec.toNat_ofNat, Nat.mod_eq_of_lt few]
theorem brevF_val (ha : aOf l = a.toNat) : brevF w l = a.reverse.toNat := by
  rw [← Nat.mod_eq_of_lt a.reverse.isLt, ← sum_bits, brevF, ha]
  refine congrArg List.sum (List.map_congr_left fun i hi => ?_)
  have hi : i < w := List.mem_range.mp hi
  simp only [bit_toNat, BitVec.getLsbD_reverse, BitVec.getMsbD, hi, decide_true, Bool.true_and]


/-! ### The rows of the table -/

/-- `F` is what the model computes for a row of the table: of the shared course of an ALU function, and equal to the row's value on
W-bit operands. -/
structure Computes (f : Claims.IntFn) (F : Nat → List Nat → Nat) : Prop where
  run : ∀ c o s, exec (f.instr c o) s = withCx s fun cx => cx.alu s (rAlu o c f.two (noFlags (F (widthOf c))) f.payload)
  val : ∀ {w : Nat} {l : List Nat} (a b : BitVec w), aOf l = a.toNat → bOf l = b.toNat → F w l = (f.val w a b).toNat

theorem integerFns_computes : ∀ f ∈ Claims.integerFns, ∃ F, Computes f F := by
  simp only [Claims.integerFns, List.forall_mem_cons, List.not_mem_nil, false_imp_iff, implies_true, and_true]
  exact ⟨⟨addF, fun _ _ _ => rfl, fun _ _ => addF_val⟩, ⟨subF, fun _ _ _ => rfl, fun _ _ => subF_val⟩,
    ⟨mulF, fun _ _ _ => rfl, fun _ _ => mulF_val⟩, ⟨mulhF, fun _ _ _ => rfl, fun _ _ => mulhF_val⟩,
    ⟨mulhuF, fun _ _ _ => rfl, fun _ _ => mulhuF_val⟩, ⟨negF, fun _ _ _ => rfl, fun _ _ ha _ => negF_val ha⟩,
    ⟨absF, fun _ _ _ => rfl, fun _ _ ha _ => absF_val ha⟩, ⟨minF, fun _ _ _ => rfl, fun _ _ => minF_val⟩,
    ⟨maxF, fun _ _ _ => rfl, fun _ _ => maxF_val⟩, ⟨fun _ => minuF, fun _ _ _ => rfl, fun _ _ => minuF_val⟩,
    ⟨fun _ => maxuF, fun _ _ _ => rfl, fun _ _ => maxuF_val⟩, ⟨addsatF, fun _ _ _ => rfl, fun _ _ => addsatF_val⟩,
    ⟨subsatF, fun _ _ _ => rfl, fun _ _ => subsatF_val⟩, ⟨fun _ => andF, fun _ _ _ => rfl, fun _ _ => andF_val⟩,
    ⟨fun _ => orF, fun _ _ _ => rfl, fun _ _ => orF_val⟩, ⟨fun _ => xorF, fun _ _ _ => rfl, fun _ _ => xorF_val⟩,
    ⟨andnF, fun _ _ _ => rfl, fun _ _ => andnF_val⟩, ⟨notF, fun _ _ _ => rfl, fun _ _ ha _ => notF_val ha⟩,
    ⟨shlF, fun _ _ _ => rfl, fun _ _ => shlF_val⟩, ⟨shrF, fun _ _ _ => rfl, fun _ _ => shrF_val⟩,
    ⟨sarF, fun _ _ _ => rfl, fun _ _ => sarF_val⟩, ⟨rolF, fun _ _ _ => rfl, fun _ _ => rolF_val⟩,
    ⟨clzF, fun _ _ _ => rfl, fun _ _ ha _ => clzF_val ha⟩, ⟨popcF, fun _ _ _ => rfl, fun _ _ ha _ => popcF_val ha⟩,
    ⟨brevF, fun _ _ _ => rfl, fun _ _ ha _ => brevF_val ha⟩, ⟨fun _ => aOf, fun _ _ _ => rfl, fun _ _ ha _ => ha⟩⟩

end Sys2Proof.Machine
end

/-! ## What an operand can be (R96 to R103, R132) -/
section
namespace Sys2Proof.Machine

variable {s : State} {cx : Cx} {imm : Option W32} {i lane n : Nat} {x : Src} {v : Nat} {bad : Bool}

/-- The bound of what an operand reads as: 64 bits where it is wide, else 32. -/
def Src.limit (x : Src) : Nat := if x.wide then 2 ^ 64 else 2 ^ 32

theorem Src.word_le (x : Src) : 2 ^ 32 ≤ x.limit := by unfold Src.limit; split <;> decide

theorem readLVal_lt {poison : List Nat} {e : LVal} (read : readLVal x lane poison e = .val v bad) : v < x.limit := by
  have word := x.word_le
  cases e with
  | bad => cases read
  | w32 y =>
    simp only [readLVal] at read
    split at read
    · cases read
    · obtain ⟨rfl, -⟩ := Rd.val.inj read
      exact Nat.lt_of_lt_of_le y.isLt word
  | w64 y =>
    obtain ⟨rfl, -⟩ := Rd.val.inj read
    unfold Src.limit
    split
    · exact y.isLt
    · exact Nat.mod_lt _ (Nat.two_pow_pos _)
  | vec wide e =>
    simp only [readLVal] at read
    split at read
    · cases read
    · obtain ⟨rfl, -⟩ := Rd.val.inj read
      exact Nat.mod_lt _ (Nat.lt_of_lt_of_le (by decide) word)

theorem Src.limit_eq (x : Src) : x.limit = 2 ^ (32 * if x.wide then 2 else 1) := by
  unfold Src.limit
  split <;> rfl

/-- Words put together, the lowest first. -/
theorem words_lt (f : Nat → W32) (ks : List Nat) : (ks.mapIdx fun i k => (f k).toNat * 2 ^ (32 * i)).sum < 2 ^ (32 * ks.length) := by
  induction ks using List.reverseRecOn with
  | nil => simp
  | append_singleton ks k ih =>
    rw [List.mapIdx_concat, List.sum_append, List.length_append, List.sum_singleton, List.length_singleton, Nat.mul_add, Nat.pow_add]
    calc _ < 2 ^ (32 * ks.length) + (f k).toNat * 2 ^ (32 * ks.length) := Nat.add_lt_add_right ih _
      _ = ((f k).toNat + 1) * 2 ^ (32 * ks.length) := by rw [Nat.add_mul, Nat.one_mul, Nat.add_comm]
      _ ≤ 2 ^ (32 * 1) * 2 ^ (32 * ks.length) := Nat.mul_le_mul_right _ (f k).isLt
      _ = _ := Nat.mul_comm _ _

theorem Cx.read_lt (integer : x.flt = none) (single : x.rc ≠ .d) (ok : cx.srcOk s imm x = true)
    (read : cx.read s imm i lane x = .val v bad) : v < x.limit := by
  have word := x.word_le
  by_cases register : x.n < 64
  · cases rc : x.rc with
    | d => exact absurd rc single
    | g =>
      simp only [Cx.read, register, rc, if_true] at read
      split at read
      · cases read
      · obtain ⟨rfl, -⟩ := Rd.val.inj read
        exact Nat.lt_of_lt_of_le (words_lt _ [gKey lane x.n]) word
    | v =>
      simp only [Cx.read, register, rc, if_true] at read
      generalize keys : (if x.wide then [vKey x.n lane, vKey (x.n + 1) lane] else [vKey x.n lane]) = ks at read
      have count : ks.length = if x.wide then 2 else 1 := by rw [← keys, apply_ite List.length]; rfl
      split at read
      · cases read
      · obtain ⟨rfl, -⟩ := Rd.val.inj read
        rw [Src.limit_eq, ← count]
        exact words_lt _ ks
    | s =>
      simp only [Cx.read, register, rc, if_true] at read
      split at read
      · cases read
      · obtain ⟨rfl, -⟩ := Rd.val.inj read
        unfold Src.limit
        split <;> exact Nat.mod_lt _ (Nat.two_pow_pos _)
    | p =>
      simp only [Cx.read, register, rc, if_true] at read
      obtain ⟨rfl, -⟩ := Rd.val.inj read
      split <;> omega
  · by_cases latch : x.n < 72
    · simp only [Cx.read, register, latch, if_true, if_false] at read
      split at read
      · exact readLVal_lt read
      · split at read
        · split at read
          · cases read
          · exact readLVal_lt read
        · cases read
    · by_cases constant : x.n < 104
      · simp only [Cx.read, register, latch, constant, integer, if_true, if_false] at read
        obtain ⟨rfl, -⟩ := Rd.val.inj read
        omega
      · have immediate : ¬x.n < 112 := by
          intro h
          simp [Cx.srcOk, register, constant, h, integer] at ok
        cases imm with
        | none => simp [Cx.read, register, latch, constant, immediate] at read
        | some y =>
          simp only [Cx.read, register, latch, constant, immediate, if_false] at read
          obtain ⟨rfl, -⟩ := Rd.val.inj read
          unfold Src.limit
          split
          · rw [wrapNat_eq]; exact BitVec.isLt _
          · exact y.isLt

/-- What a lane's operands read as stays below a bound that each of them keeps. -/
theorem Cx.readLane_lt {srcs : List Src} {l : List Nat} (read : cx.readLane s imm srcs lane = .vals l) (positive : 0 < n)
    (bound : ∀ i x v bad, srcs[i]? = some x → cx.read s imm i lane x = .val v bad → v < n) : ∀ v ∈ l, v < n := by
  simp only [Cx.readLane] at read
  split at read
  · cases read
  · split at read
    · cases read
    · split at read
      · cases read
      · obtain rfl := LaneRd.vals.inj read
        intro v hv
        obtain ⟨r, hr, rfl⟩ := List.mem_map.mp hv
        obtain ⟨i, hi, rfl⟩ := List.mem_mapIdx.mp hr
        split
        next v' _ val => exact bound i _ v' _ (List.getElem?_eq_getElem hi) val
        next => exact positive

theorem operand_lt {l : List Nat} (positive : 0 < n) (h : ∀ v ∈ l, v < n) (i : Nat) : (l[i]?).getD 0 < n := by
  cases e : l[i]? with
  | none => exact positive
  | some v => exact h v (List.mem_of_getElem? e)

/-- The operands of an integer function of form R fit its class (R132). -/
theorem Enters.rDec_lt {c : Cls} {o : ROp} {two payload : Bool} {rs : List (Nat × List Nat)} (h : Enters s cx (rDec o c two payload) rs)
    {r : Nat × List Nat} (hr : r ∈ rs) : ∀ v ∈ r.2, v < 2 ^ widthOf c := by
  have legal := (Cx.decodeTrap_none h.legal).2.2.2
  obtain ⟨-, -, read⟩ := h.lane_of hr
  refine Cx.readLane_lt read (Nat.two_pow_pos _) fun i x v bad hx hv => ?_
  have mem : x ∈ (rDec o c two payload).srcs := List.mem_of_getElem? hx
  have ok : cx.srcOk s (rDec o c two payload).imm x = true := List.all_eq_true.mp legal x mem
  have shape : x.rc = rcOf c ∧ x.wide = (c == .s) ∧ x.flt = none := by
    simp only [rDec, rAlu] at mem
    split at mem <;> simp at mem
    · obtain rfl | rfl := mem <;> exact ⟨rfl, rfl, rfl⟩
    · subst mem; exact ⟨rfl, rfl, rfl⟩
  obtain ⟨rc, wide, integer⟩ := shape
  have bound := Cx.read_lt integer (by rw [rc]; cases c <;> decide) ok hv
  rw [Src.limit, wide] at bound
  cases c <;> exact bound

end Sys2Proof.Machine
end

/-! ## The latch chain of a control stream (R101, R102) -/
section
namespace Sys2Proof.Machine

variable {s t u : State} {cx : Cx}

/-- The stream's control context stands at the same address with the same latches. -/
def Cx.SameChain (cx : Cx) (s t : State) : Prop :=
  (ctlOf t cx.id).map (fun c => (c.pc, c.latches)) = (ctlOf s cx.id).map fun c => (c.pc, c.latches)

namespace Cx.SameChain

theorem refl (cx : Cx) (s : State) : cx.SameChain s s := rfl
theorem trans (h : cx.SameChain s t) (k : cx.SameChain t u) : cx.SameChain s u := Eq.trans k h

theorem modBlock {c sl : Nat} (hid : cx.id = .blk c sl) (s : State) (f : Block → Block) (hf : ∀ b, (f b).exec.ctl = b.exec.ctl) :
    cx.SameChain s (Machine.modBlock s c sl f) := by
  rw [SameChain, hid, ctlOf_modBlock_blk]
  simp only [ctlOf, Option.map_map, Function.comp_def, hf]

theorem energyBlock {c sl : Nat} (hid : cx.id = .blk c sl) (s : State) (e n : Nat) : cx.SameChain s (Machine.energyBlock s c sl e n) :=
  modBlock hid s _ fun _ => rfl

theorem modCtl (cx : Cx) (s : State) (f : Ctl → Ctl) (hf : ∀ c, (f c).pc = c.pc ∧ (f c).latches = c.latches) :
    cx.SameChain s (Machine.modCtl s cx.id f) := by
  rw [SameChain, ctlOf_modCtl_self, Option.map_map]
  simp only [Function.comp_def, hf]

end Cx.SameChain

theorem Cx.counted_sameChain (cx : Cx) (s : State) (d : Dec) (n : Nat) : cx.SameChain s (cx.counted s d n) := by
  unfold Cx.counted
  split
  · exact .refl cx s
  · split
    · unfold Cx.countMma
      split
      next hid =>
        refine .trans (.modBlock hid _ _ ?_) (.energyBlock hid _ _ _)
        exact fun _ => rfl
      next => exact .refl cx s
    · unfold Cx.count
      split
      next hid =>
        refine .trans (.trans (.modBlock hid _ _ ?_) (.energyBlock hid _ _ _)) (.energyBlock hid _ _ _)
        exact fun _ => rfl
      next => exact .refl cx s

theorem Cx.orFlags_sameChain (cx : Cx) (s : State) (n : Nat) : cx.SameChain s (cx.orFlags s n) := by
  unfold Cx.orFlags Cx.modBlk
  split
  next hid => exact .modBlock hid s _ fun _ => rfl
  next => exact .refl cx s

theorem Cx.killKeys_sameChain (cx : Cx) (s : State) (id : CtxId) (ks : List Nat) : cx.SameChain s (killKeys s id ks) := by
  unfold Cx.SameChain
  cases cx.id <;> rfl

theorem Ctl.foldl_setS_chain (rs : List (Nat × Nat)) (n : Nat) (bad : Bool) (c : Ctl) :
    (rs.foldl (fun c r => c.setS n (BitVec.ofNat 64 r.2) bad) c).pc = c.pc ∧
      (rs.foldl (fun c r => c.setS n (BitVec.ofNat 64 r.2) bad) c).latches = c.latches := by
  induction rs generalizing c with
  | nil => exact ⟨rfl, rfl⟩
  | cons r q ih => exact ih _

/-- A result of class s leaves the latches to the completion (R101). -/
theorem Cx.put_sameChain (cx : Cx) (s : State) {f : LoadForm} (hf : f.cls = .s) (rs : List (Nat × Nat)) (bad : Bool) :
    cx.SameChain s (cx.put s f rs bad) := by
  have killed := cx.killKeys_sameChain s cx.id (rs.flatMap fun r => f.keysOf r.1)
  simp only [Cx.put, hf]
  split
  · exact killed
  · refine Cx.SameChain.trans killed (.modCtl cx _ _ ?_)
    exact fun c => Ctl.foldl_setS_chain rs f.dreg bad c

/-- A control stream stands where its control context does. -/
theorem cxOf_ctl (h : cxOf s = some cx) (hT : cx.isT = false) : ∃ c, ctlOf s cx.id = some c ∧ c.pc = cx.pc := by
  unfold cxOf at h
  split at h
  next c sl n _ =>
    obtain ⟨b, -, h⟩ := Option.bind_eq_some_iff.mp h
    split at h
    · cases h
    · obtain ⟨u, -, rfl⟩ := Option.map_eq_some_iff.mp h
      cases hT
  next c sl _ =>
    obtain ⟨b, hb, h⟩ := Option.bind_eq_some_iff.mp h
    split at h
    · cases h
    · cases h
      exact ⟨b.exec.ctl, by simp [ctlOf, hb], rfl⟩
  next => cases h; exact ⟨_, rfl, rfl⟩
  next => cases h; exact ⟨_, rfl, rfl⟩

/-- A control stream completes: its PC goes on and its chain shifts (R87, R101). -/
theorem Cx.finish_ctl {d : Dec} {who : List Nat} {e : Nat → Latch} {c : Ctl} (hT : cx.isT = false) (hw : who ≠ [])
    (goes : (fallNext cx.line cx.pc d.len).2 = false) (here : ctlOf s cx.id = some c) :
    cx.ctl (cx.finish s d who e) = c.complete d.transparent (e 0) (cx.next d) := by
  have some_ : who.isEmpty = false := by simpa using hw
  obtain ⟨id, kind, acts, pc, line⟩ := cx
  simp only at here goes
  have go : ∀ {v : State}, ctlOf v id = some c →
      (ctlOf (modCtl v id fun c => c.complete d.transparent (e 0) (fallNext line pc d.len).1) id).getD {} =
        c.complete d.transparent (e 0) (fallNext line pc d.len).1 := fun h => by rw [ctlOf_modCtl_self, h]; rfl
  simp only [Cx.finish, some_, goes, hT, Cx.ctl, Cx.next, Bool.false_eq_true, if_false]
  cases id with
  | blk c sl => exact go here
  | sup c => exact go here
  | sys n =>
    refine go ?_
    simpa [Cx.retire, ctlOf] using here

/-- A result of class s is written and pushed on the chain. -/
theorem Cx.result_s (cx : Cx) (s : State) (d : Dec) (v : Nat) :
    ∃ f e, f.cls = .s ∧ e 0 = Latch.ofDouble (BitVec.ofNat 64 v) ∧
      cx.result s d .s true [(0, v)] = cx.finish (cx.put s f [(0, v)]) d [0] e := ⟨_, _, rfl, rfl, rfl⟩

/-- An integer function of class s pushes its result on the chain (R101, R102). -/
theorem Cx.alu_latches {a : Alu} {l : List Nat} {v : Nat} (enters : Enters s cx a.d [(0, l)]) (sound : a.Sound) (hs : a.cls = .s)
    (hsfu : a.sfu = false) (transparent : a.d.transparent = true) (val : a.f l = (v, 0))
    (line : cx.pc.toNat / 128 = (cx.next a.d).toNat / 128) :
    (cx.ctl (cx.alu s a)).latches = (Latch.ofDouble (BitVec.ofNat 64 v) :: (cx.ctl s).latches).take 8 ∧
      (cx.ctl (cx.alu s a)).pc = cx.next a.d := by
  have kind : cx.kind.has .s = true := hs ▸ sound.valid _ (Cx.decodeTrap_none enters.legal).1
  have hT : cx.kind ≠ .T := by rintro e; rw [e] at kind; cases kind
  have notT : cx.isT = false := by simpa [Cx.isT] using hT
  obtain ⟨c, here, stands⟩ := cxOf_ctl enters.here notT
  have run : cx.alu s a = cx.flagged (cx.counted s a.d 1) a.d [(0, v, 0)] fun s rs => cx.result s a.d .s true rs := by
    simp [Cx.alu, hsfu, hs, val, Cx.start_stands_ctl enters.stands hT (List.cons_ne_nil _ _)]
  rw [run, Cx.flagged_none cx _ _ _ _ (by simp [enabled])]
  generalize hflags : cx.orFlags (cx.counted s a.d 1) (orAll ([(0, v, 0)].map (·.2.2))) = s1
  have before : cx.SameChain s s1 := hflags ▸ (cx.counted_sameChain s a.d 1).trans (cx.orFlags_sameChain _ _)
  obtain ⟨f, e, hf, entry, result⟩ := cx.result_s s1 a.d v
  have written := before.trans (cx.put_sameChain s1 hf [(0, v)] false)
  rw [Cx.SameChain, here] at written
  obtain ⟨c2, here2, same⟩ := Option.map_eq_some_iff.mp written
  obtain ⟨pc, latches⟩ := Prod.mk.inj same
  simp only [List.map_cons, List.map_nil, result, Cx.finish_ctl notT (List.cons_ne_nil _ _) enters.goes here2]
  refine ⟨?_, rfl⟩
  rw [Ctl.complete_latches _ _ _ _ (by rw [pc, stands, line]), latches, transparent, entry, Cx.ctl, here]
  rfl

end Sys2Proof.Machine

open Sys2Proof Sys2Proof.Machine Sys2Proof.Claims in
/-- Settles O4: the entry that completes is the model's value of the row (`Computes.val`), and completing shifts the chain
(`Cx.alu_latches`). -/
theorem latchChainShifts : Obligations.LatchChainShifts := by
  intro f hf o s cx l enters line
  obtain ⟨F, computes⟩ := integerFns_computes f hf
  have fits : ∀ v ∈ l, v < 2 ^ 64 := enters.rDec_lt (r := (0, l)) (List.mem_singleton_self _)
  have operand : ∀ i, (BitVec.ofNat 64 ((l[i]?).getD 0)).toNat = (l[i]?).getD 0 := fun i =>
    (BitVec.toNat_ofNat ..).trans (Nat.mod_eq_of_lt (operand_lt (Nat.two_pow_pos _) fits i))
  have val : F 64 l = (f.val 64 (BitVec.ofNat 64 (aOf l)) (BitVec.ofNat 64 (bOf l))).toNat :=
    computes.val _ _ (operand 0).symm (operand 1).symm
  obtain ⟨latches, pc⟩ := Cx.alu_latches (a := rAlu o .s f.two (noFlags (F 64)) f.payload) (v := F 64 l) enters (rAlu_sound ..) rfl rfl rfl rfl line
  refine ⟨_, by simp only [computes.run, withCx, enters.here]; rfl, ?_, pc⟩
  refine latches.trans ?_
  rw [val, BitVec.ofNat_toNat, BitVec.setWidth_eq]
end

/-! ## Results that return (R101, R123, R198) -/
section
namespace Sys2Proof.Machine

variable {s t u : State} {cx : Cx} {f : LoadForm}

/-! ### What a place's registers read, FSTAT apart -/

/-- The registers and predicates of the stream's place are held as before. -/
structure Cx.SameFile (cx : Cx) (s t : State) : Prop where
  mem : cx.mem t = cx.mem s
  sregs : cx.kind ≠ .T → (cx.ctl t).sregs = (cx.ctl s).sregs
  preds : cx.kind ≠ .T → (cx.ctl t).preds = (cx.ctl s).preds

theorem Cx.SameFile.reg (h : cx.SameFile s t) {c : Cls} (hc : cx.kind.has c = true) (m l : Nat) : cx.reg t c m l = cx.reg s c m l := by
  cases c with
  | g => simp only [Cx.reg, h.mem]
  | v => simp only [Cx.reg, h.mem]
  | s => simp only [Cx.reg, Ctl.s, h.sregs (by rintro e; rw [e] at hc; cases hc)]

theorem Cx.SameFile.pbit (h : cx.SameFile s t) (m i : Nat) : cx.pbit t m i = cx.pbit s m i := by
  unfold Cx.pbit
  split
  next k => rw [h.preds (by simp [k])]
  next k => rw [h.preds (by simp [k])]
  next => rw [h.mem]

/-- A register's write is seen alike where the registers are held alike. -/
theorem Cx.Writes.sameFile {c : Cls} {n : Nat} {nwb : Bool} {vals : List (Nat × Nat)} (h : cx.Writes s t c n nwb vals) (hc : cx.kind.has c = true)
    (same : cx.SameFile t u) : cx.Writes s u c n nwb vals where
  written hn r hr := (same.reg hc n r.1).trans (h.written hn r hr)
  others c m l hk hm hl ho := (same.reg hk m l).trans (h.others c m l hk hm hl ho)
  preds m i := (same.pbit m i).trans (h.preds m i)

/-- Of a value no more is written than the register's W bits (R132). -/
theorem Cx.Writes.of_mod {c : Cls} {n : Nat} {nwb : Bool} {vals : List (Nat × Nat)} {k : Nat} (h : cx.Writes s t c n nwb (vals.map fun r => (r.1, r.2 % k)))
    (hk : 2 ^ widthOf c ∣ k) : cx.Writes s t c n nwb vals where
  written hn r hr := by
    have := h.written hn (r.1, r.2 % k) (List.mem_map_of_mem (f := fun r : Nat × Nat => (r.1, r.2 % k)) hr)
    rwa [Nat.mod_mod_of_dvd _ hk] at this
  others c' m l hk' hm hl ho := h.others c' m l hk' hm hl fun e => by
    simpa only [List.forall_mem_map] using ho e
  preds := h.preds

/-! ### What happens beside the registers -/

/-- From `s` to `t` the registers of the stream's place, memory and every other block stay. -/
structure Cx.Aside (cx : Cx) (s t : State) : Prop where
  regs : cx.RegsSame s t
  mem : t.mem = s.mem
  blocks : ∀ d sm, cx.id ≠ .blk d sm → blockOf t d sm = blockOf s d sm
  placed : cx.Placed s → cx.Placed t

namespace Cx.Aside

theorem refl (cx : Cx) (s : State) : cx.Aside s s := ⟨.refl cx s, rfl, fun _ _ _ => rfl, fun p => p⟩
theorem trans (h : cx.Aside s t) (k : cx.Aside t u) : cx.Aside s u :=
  ⟨h.regs.trans k.regs, k.mem.trans h.mem, fun d sm hd => (k.blocks d sm hd).trans (h.blocks d sm hd), fun p => k.placed (h.placed p)⟩
theorem of_keeps (h : cx.RegsSame s t ∧ cx.Keeps s t) : cx.Aside s t := ⟨h.1, h.2.mem_eq, h.2.blocks, fun p => p.keep h.2⟩

/-- What is in flight and the next free number are no part of a place. -/
theorem inFlight (cx : Cx) (s : State) (l : List Pending) (n : Nat) : cx.Aside s { s with pending := l, nextId := n } := by
  refine ⟨?_, rfl, fun _ _ _ => rfl, fun p => ⟨p.block, p.sup, p.sys⟩⟩
  obtain ⟨id, kind, acts, pc, line⟩ := cx
  cases id <;> exact ⟨rfl, rfl, fun _ => rfl, fun _ => rfl⟩

/-- A change of the stream's own block that is about neither its registers nor its control stream's. -/
theorem modBlock {c sl : Nat} (hid : cx.id = .blk c sl) (s : State) (f : Block → Block) (hm : ∀ b, (f b).mem = b.mem) (hr : ∀ b, (f b).regs = b.regs)
    (hc : ∀ b, (f b).exec.ctl = b.exec.ctl) : cx.Aside s (Machine.modBlock s c sl f) where
  regs := .modBlock cx s c sl f hm hr fun _ b => by rw [hc]; exact ⟨rfl, rfl⟩
  mem := rfl
  blocks d sm hd := blockOf_modBlock_ne s f fun h => hd (by rw [hid, h.1, h.2])
  placed p := by
    refine ⟨fun k => ?_, p.sup, p.sys⟩
    obtain ⟨c', sl', b, hid', hb⟩ := p.block k
    obtain ⟨rfl, rfl⟩ := CtxId.blk.inj (hid.symm.trans hid')
    exact ⟨c, sl, f b, hid, by simp [hb]⟩

end Cx.Aside

theorem shareResult_aside {p : Pending} (hp : p.ctx = cx.id) (s : State) (elts : List (Nat × List Byte × Bool)) :
    cx.Aside s (shareResult s p elts) := by
  unfold shareResult
  split
  next c b own =>
    split
    · split
      · exact .modBlock (hp.symm.trans own) s _ (fun _ => rfl) (fun _ => rfl) fun _ => rfl
      · exact .refl cx s
    · exact .refl cx s
  next => exact .refl cx s

/-! ### The bytes of a result -/

theorem bytesVal_valBytes (n x : Nat) : bytesVal (valBytes n x) = x % 256 ^ n := by
  induction n generalizing x with
  | zero => simp [valBytes, bytesVal, Nat.mod_one]
  | succ n ih =>
    rw [valBytes, bytesVal, ih, BitVec.toNat_ofNat, Nat.pow_succ' (n := n)]
    exact Nat.mod_mul.symm

theorem LoadForm.value_valBytes (hx : f.sext = false) (x : Nat) : f.value (valBytes f.wid x) = x % 256 ^ f.wid := by
  simp [LoadForm.value, hx, bytesVal_valBytes]

/-- The elements of a result of the SFU, as it waits: every value there, none poisoned. -/
def sfuElts (f : LoadForm) (vals : List (Nat × Nat)) : List (Nat × List Byte × Bool) := vals.map fun r => (r.1, valBytes f.wid r.2, false)

theorem foldl_putWords {live : List Nat} (f : LoadForm) (hx : f.sext = false) (vals : List (Nat × Nat))
    (hlive : ∀ r ∈ vals, ∀ k ∈ f.keysOf r.1, k ∈ live) (m : BlkMem) :
    (sfuElts f vals).foldl (fun m (e, bs, bad) => putWords m live (f.keysOf e) (f.value bs) bad) m =
      putLanes m f (vals.map fun r => (r.1, r.2 % 256 ^ f.wid)) false := by
  unfold sfuElts putLanes
  induction vals generalizing m with
  | nil => rfl
  | cons r q ih =>
    have first : putWords m live (f.keysOf r.1) (f.value (valBytes f.wid r.2)) false =
        ((f.keysOf r.1).mapIdx fun i k => (i, k)).foldl (fun m e => m.setRow e.2 (BitVec.ofNat 32 (r.2 % 256 ^ f.wid / 2 ^ (32 * e.1))) false) m := by
      rw [LoadForm.value_valBytes hx]
      refine List.foldl_ext _ _ m fun m e he => ?_
      obtain ⟨i, hi, rfl⟩ := List.mem_mapIdx.mp he
      simp [hlive r (List.mem_cons_self ..) _ (List.getElem_mem hi)]
    simp only [List.map_cons, List.foldl_cons, first]
    exact ih (fun r' hr' => hlive r' (List.mem_cons_of_mem _ hr')) _

/-! ### The return -/

/-- A result of the SFU that waits for its return: of one word, nothing later written to its registers. -/
structure Cx.Awaits (cx : Cx) (p : Pending) (vals : List (Nat × Nat)) : Prop where
  ctx : p.ctx = cx.id
  sext : p.form.sext = false
  elts : p.elts = vals.map fun r => (r.1, some (valBytes p.form.wid r.2), false)
  live : ∀ r ∈ vals, ∀ k ∈ p.form.keysOf r.1, k ∈ p.keys
  empty : vals = [] → p.flags = 0

/-- Values as a result's bytes hold them. -/
def LoadForm.held (f : LoadForm) (vals : List (Nat × Nat)) : List (Nat × Nat) := vals.map fun r => (r.1, r.2 % 256 ^ f.wid)

/-- From `t` to `u` a result has come back to its place. -/
structure Cx.Returned (cx : Cx) (t u : State) (f : LoadForm) (vals : List (Nat × Nat)) (flags : W32) : Prop where
  file : cx.SameFile (cx.put t f (f.held vals)) u
  fstat : (cx.blk t).isSome → (cx.regs u).fstat = (cx.regs t).fstat ||| flags
  mem : u.mem = t.mem
  blocks : ∀ d sm, cx.id ≠ .blk d sm → blockOf u d sm = blockOf t d sm

/-- A result written to a block's rows. -/
theorem Cx.put_rows {c sl : Nat} {b : Block} (hid : cx.id = .blk c sl) (hb : blockOf t c sl = some b) (hf : f.cls ≠ .s) (vals : List (Nat × Nat)) :
    blockOf (cx.put t f vals) c sl = some (b.modMem fun m => putLanes m f vals false) := by
  have hb' : blockOf (killKeys t cx.id (vals.flatMap fun r => f.keysOf r.1)) c sl = some b := hb
  unfold Cx.put
  split
  next h => exact absurd h hf
  next => simp only [Cx.modBlk, hid, blockOf_modBlock_self] at hb' ⊢; rw [hb']; rfl

/-- A change of the stream's own block that writes the rows as `putLanes` does and joins flags to FSTAT. -/
theorem Cx.Returned.modBlock {c sl : Nat} {b : Block} (hid : cx.id = .blk c sl) (hb : blockOf t c sl = some b) (hf : f.cls ≠ .s) {vals : List (Nat × Nat)}
    {flags : W32} {k : Block → Block} (hm : (k b).mem = putLanes b.mem f (f.held vals) false)
    (hr : (k b).regs = { b.regs with fstat := b.regs.fstat ||| flags })
    (hc : (k b).exec.ctl.sregs = b.exec.ctl.sregs ∧ (k b).exec.ctl.preds = b.exec.ctl.preds) : cx.Returned t (Machine.modBlock t c sl k) f vals flags := by
  have after : blockOf (Machine.modBlock t c sl k) c sl = some (k b) := by simp [hb]
  have put := Cx.put_rows hid hb hf (f.held vals)
  refine ⟨⟨?_, fun _ => ?_, fun _ => ?_⟩, fun _ => ?_, rfl, fun d sm hd => blockOf_modBlock_ne t k fun h => hd (by rw [hid, h.1, h.2])⟩
  · simp [Cx.mem, Cx.blk, hid, after, put, hm]
  · simpa [Cx.ctl, ctlOf, hid, after, put] using hc.1
  · simpa [Cx.ctl, ctlOf, hid, after, put] using hc.2
  · simp [Cx.regs, Cx.blk, hid, after, hb, hr]

theorem foldl_threads_rows {live : List Nat} {f : LoadForm} (g : Nat × List Byte × Bool → Nat → Thread → Thread)
    (elts : List (Nat × List Byte × Bool)) (k : Block) :
    let k' := elts.foldl (fun k e => (k.modMem fun m => putWords m live (f.keysOf e.1) (f.value e.2.1) e.2.2).modThreads [e.1] (g e)) k
    k'.mem = elts.foldl (fun m e => putWords m live (f.keysOf e.1) (f.value e.2.1) e.2.2) k.mem ∧ k'.regs = k.regs ∧ k'.exec.ctl = k.exec.ctl := by
  induction elts generalizing k with
  | nil => exact ⟨rfl, rfl, rfl⟩
  | cons e q ih => exact ih _

theorem Cx.Placed.ctl_some (h : cx.Placed t) : ∃ c, ctlOf t cx.id = some c := by
  cases kind : cx.kind with
  | K => obtain ⟨c, hid⟩ := h.sup kind; exact ⟨_, by rw [hid]; rfl⟩
  | Y => obtain ⟨n, hid⟩ := h.sys kind; exact ⟨_, by rw [hid]; rfl⟩
  | T | V | S =>
    obtain ⟨c, sl, b, hid, hb⟩ := h.block (by simp [kind])
    exact ⟨_, by rw [hid, ctlOf, hb]; rfl⟩

/-- A change of the stream's control context is seen in it alone. -/
theorem Cx.modCtl_seen {c : Ctl} (here : ctlOf t cx.id = some c) (g : Ctl → Ctl) :
    cx.mem (modCtl t cx.id g) = cx.mem t ∧ cx.regs (modCtl t cx.id g) = cx.regs t ∧ cx.ctl (modCtl t cx.id g) = g c := by
  refine ⟨?_, ?_, by rw [Cx.ctl, ctlOf_modCtl_self, here]; rfl⟩
  all_goals
    cases hid : cx.id with
    | blk c sl =>
      simp only [Cx.mem, Cx.regs, Cx.blk, hid, modCtl, blockOf_modBlock_self]
      cases blockOf t c sl <;> rfl
    | sup c => simp [Cx.mem, Cx.regs, Cx.blk, hid]
    | sys n => simp [Cx.mem, Cx.regs, Cx.blk, hid]

/-- A result of class s is written to the control context. -/
theorem Cx.put_s {c : Ctl} (here : ctlOf t cx.id = some c) (hf : f.cls = .s) (vals : List (Nat × Nat)) :
    cx.mem (cx.put t f vals) = cx.mem t ∧
      cx.ctl (cx.put t f vals) = if f.nwb then c else vals.foldl (fun c r => c.setS f.dreg (BitVec.ofNat 64 r.2) false) c := by
  have mem := (cx.killKeys_keeps t cx.id (vals.flatMap fun r => f.keysOf r.1)).1.mem
  have here' : ctlOf (killKeys t cx.id (vals.flatMap fun r => f.keysOf r.1)) cx.id = some c := by
    rw [← here]; cases cx.id <;> rfl
  simp only [Cx.put, hf]
  split
  · exact ⟨mem, by rw [Cx.ctl, here']; rfl⟩
  · obtain ⟨mem', -, ctl⟩ := Cx.modCtl_seen here' fun c => vals.foldl (fun c r => c.setS f.dreg (BitVec.ofNat 64 r.2) false) c
    exact ⟨mem'.trans mem, ctl⟩

/-- Flags joined to FSTAT of the stream's block, if it has one, are seen there alone. -/
theorem Cx.modRegs_seen (cx : Cx) (t : State) (g : BlkRegs → BlkRegs) :
    cx.SameFile t (cx.modBlk t fun b => b.modRegs g) ∧ ((cx.blk t).isSome → cx.regs (cx.modBlk t fun b => b.modRegs g) = g (cx.regs t)) ∧
      (cx.modBlk t fun b => b.modRegs g).mem = t.mem ∧
      ∀ d sm, cx.id ≠ .blk d sm → blockOf (cx.modBlk t fun b => b.modRegs g) d sm = blockOf t d sm := by
  unfold Cx.modBlk
  cases hid : cx.id with
  | blk c sl =>
    refine ⟨⟨?_, fun _ => ?_, fun _ => ?_⟩, fun hb => ?_, rfl, fun d sm hd => blockOf_modBlock_ne t _ fun h => hd (by rw [h.1, h.2])⟩
    all_goals cases hb : blockOf t c sl <;> simp_all [Cx.mem, Cx.ctl, Cx.regs, Cx.blk, ctlOf]
  | sup c => exact ⟨⟨rfl, fun _ => rfl, fun _ => rfl⟩, fun hb => by simp [Cx.blk, hid] at hb, rfl, fun _ _ _ => rfl⟩
  | sys n => exact ⟨⟨rfl, fun _ => rfl, fun _ => rfl⟩, fun hb => by simp [Cx.blk, hid] at hb, rfl, fun _ _ _ => rfl⟩

theorem foldl_setS_live {live : List Nat} (hf : f.cls = .s) (wid : f.wid = 8) (h : ∀ k ∈ f.keysOf 0, k ∈ live) (v : Nat) (c : Ctl) :
    ((f.keysOf 0).mapIdx fun i k => (i, k)).foldl
        (fun (c : Ctl) (i, k) => if live.contains k then c.setS (k - sKey 0) (BitVec.ofNat 64 (v / 2 ^ (64 * i))) false else c) c =
      if f.nwb then c else c.setS f.dreg (BitVec.ofNat 64 v) false := by
  have keys : f.keysOf 0 = if f.nwb then [] else [sKey f.dreg] := by simp [LoadForm.keysOf, hf, wid]
  have number : sKey f.dreg - sKey 0 = f.dreg := Nat.add_sub_cancel_left ..
  rw [keys] at h ⊢
  split
  next => rfl
  next nwb => simp [show sKey f.dreg ∈ live from h _ (by simp [nwb]), number]

/-- The return of one value of class s. -/
theorem Cx.Returned.one {r : Nat × Nat} {flags : W32} {k : Ctl → Ctl} (placed : cx.Placed t) (hf : f.cls = .s)
    (regs : ∀ c, (k c).sregs = (if f.nwb then c else c.setS f.dreg (BitVec.ofNat 64 (r.2 % 256 ^ f.wid)) false).sregs)
    (rest : ∀ c, (k c).preds = c.preds ∧ (k c).intr = c.intr ∧ (k c).handler = c.handler) :
    cx.Returned t (cx.modBlk (modCtl t cx.id k) fun b => b.modRegs fun r => { r with fstat := r.fstat ||| flags }) f [r] flags := by
  obtain ⟨c, here⟩ := placed.ctl_some
  obtain ⟨putMem, putCtl⟩ := Cx.put_s here hf (f.held [r])
  obtain ⟨mem, own, ctl⟩ := Cx.modCtl_seen here k
  have keeps := Cx.Keeps.modCtl cx t k (fun c => (rest c).2.1) fun c => (rest c).2.2
  obtain ⟨file, fstat, memory, blocks⟩ := cx.modRegs_seen (modCtl t cx.id k) fun r => { r with fstat := r.fstat ||| flags }
  refine ⟨⟨?_, fun hT => ?_, fun hT => ?_⟩, fun hb => ?_, memory.trans (modCtl_mem ..), fun d sm hd => (blocks d sm hd).trans (keeps.blocks d sm hd)⟩
  · rw [file.mem, mem, putMem]
  · rw [file.sregs hT, ctl, putCtl, regs]; rfl
  · rw [file.preds hT, ctl, putCtl, (rest c).1]; split <;> rfl
  · obtain ⟨b, hb⟩ := Option.isSome_iff_exists.mp hb
    obtain ⟨b', hb'⟩ := keeps.blk_some hb
    rw [fstat (by rw [hb']; rfl), own]

/-- What is left of a return once the result has left the queue. -/
theorem returnResult_returned {p : Pending} {vals : List (Nat × Nat)} (h : cx.Awaits p vals) (placed : cx.Placed t)
    (has : cx.kind.has p.form.cls = true) (hs : p.form.cls = .s → p.form.wid = 8 ∧ vals.length ≤ 1) :
    ∃ t', cx.Aside t t' ∧ cx.Returned t' (returnResult t p) p.form vals (BitVec.ofNat 32 p.flags) := by
  have elts : (p.elts.filterMap fun (e, bs, bad) => bs.map fun b => (e, b, bad)) = sfuElts p.form vals := by
    rw [h.elts, sfuElts, List.filterMap_map]
    exact List.filterMap_eq_map ▸ rfl
  simp only [returnResult, elts]
  generalize ht : shareResult { t with pending := t.pending.filter fun q => q.id != p.id } p (sfuElts p.form vals) = t'
  have aside : cx.Aside t t' := ht ▸ (Cx.Aside.inFlight cx t _ t.nextId).trans (shareResult_aside h.ctx _ _)
  refine ⟨t', aside, ?_⟩
  replace placed := aside.placed placed
  have rows := foldl_putWords p.form h.sext vals h.live
  cases cls : p.form.cls with
  | g =>
    have kind : cx.kind = .T := by rw [cls] at has; cases e : cx.kind <;> rw [e] at has <;> first | rfl | cases has
    obtain ⟨c, sl, b, hid, hb⟩ := placed.block (.inl kind)
    obtain ⟨mem, regs, ctl⟩ := foldl_threads_rows (live := p.keys) (f := p.form)
      (fun e _ x => { x with latches := fillLatches x.latches p.id (p.form.entry e.2.1 e.2.2) }) (sfuElts p.form vals) b
    simp only [h.ctx, hid]
    refine .modBlock hid hb (by rw [cls]; decide) (mem.trans (rows _)) ?_ ?_
    · exact congrArg (fun r : BlkRegs => { r with fstat := r.fstat ||| BitVec.ofNat 32 p.flags }) regs
    · exact ⟨congrArg Ctl.sregs ctl, congrArg Ctl.preds ctl⟩
  | v =>
    have kind : cx.kind = .V := by rw [cls] at has; cases e : cx.kind <;> rw [e] at has <;> first | rfl | cases has
    obtain ⟨c, sl, b, hid, hb⟩ := placed.block (.inr (.inl kind))
    simp only [h.ctx, hid]
    refine .modBlock hid hb (by rw [cls]; decide) ?_ rfl ⟨rfl, rfl⟩
    exact rows _
  | s =>
    obtain ⟨wid, few⟩ := hs cls
    have hT : cx.kind ≠ .T := by rintro e; rw [e, cls] at has; cases has
    simp only [h.ctx]
    rcases vals with _ | ⟨r, _ | ⟨r', q⟩⟩
    · obtain ⟨c, here⟩ := placed.ctl_some
      obtain ⟨putMem, putCtl⟩ := Cx.put_s here cls []
      have ctl : cx.ctl t' = cx.ctl (cx.put t' p.form []) := by rw [putCtl, Cx.ctl, here]; split <;> rfl
      simp only [sfuElts, List.map_nil, List.foldl_nil]
      exact ⟨⟨putMem.symm, fun _ => congrArg Ctl.sregs ctl, fun _ => congrArg Ctl.preds ctl⟩, fun _ => by simp [h.empty rfl], rfl, fun _ _ _ => rfl⟩
    · have live : ∀ k ∈ p.form.keysOf 0, k ∈ p.keys := by
        simpa [LoadForm.keysOf, cls] using h.live r (List.mem_singleton_self _)
      have regs := foldl_setS_live cls wid live (p.form.value (valBytes p.form.wid r.2))
      simp only [LoadForm.value_valBytes h.sext] at regs
      simp only [sfuElts, List.map_cons, List.map_nil, List.foldl_cons, List.foldl_nil, LoadForm.value_valBytes h.sext, regs]
      refine .one placed cls (fun _ => rfl) fun c => ?_
      split <;> exact ⟨rfl, rfl, rfl⟩
    · simp at few

/-! ### The queue -/

/-- What a result of the SFU is written to. -/
def sfuForm (d : Dec) (c : Cls) : LoadForm := { cls := c, wid := if c == .s then 8 else 4, sext := false, dreg := d.p.dreg.toNat, nwb := d.p.nwb }

theorem sfuForm_keysOf (d : Dec) (c : Cls) (l : Nat) : (sfuForm d c).keysOf l = if d.p.nwb then [] else [regKey c d.p.dreg.toNat l] := by
  cases c <;> simp [LoadForm.keysOf, sfuForm, regKey]

theorem sfuForm_wide (d : Dec) (c : Cls) : 2 ^ widthOf c ∣ 256 ^ (sfuForm d c).wid := by
  cases c <;> simp [sfuForm, widthOf]

/-- A register that a result in flight is to be written to is waited for (R101). -/
theorem Cx.read_pend {p : Pending} (hp : p ∈ t.pending) (ctx : p.ctx = cx.id) {c : Cls} {n l : Nat} (hn : n < 64) (key : regKey c n l ∈ p.keys) :
    cx.read t none 0 l { n, rc := rcOf c } = .pend := by
  have waits : keyPending t cx.id (regKey c n l) = true := List.any_eq_true.mpr ⟨p, hp, by simp [ctx, key]⟩
  cases c <;> simp only [regKey] at waits <;> simp [Cx.read, hn, rcOf, waits]

theorem Cx.counted_pending (cx : Cx) (s : State) (d : Dec) (n : Nat) : (cx.counted s d n).pending = s.pending := by
  unfold Cx.counted Cx.countMma Cx.count
  split
  · rfl
  · split <;> split <;> rfl

theorem Cx.finish_pending {d : Dec} (goes : (fallNext cx.line cx.pc d.len).2 = false) (who : List Nat) (e : Nat → Latch) :
    (cx.finish s d who e).pending = s.pending := by
  have retire : (cx.retire s).pending = s.pending := by unfold Cx.retire; split <;> rfl
  simp only [Cx.finish, goes, Bool.false_eq_true, if_false]
  split
  · rfl
  · split
    · split
      · exact retire
      · exact (modCtl_pending ..).trans retire
    · exact (modCtl_pending ..).trans retire

/-- Up to its effect an instruction that enters touches nothing but its stream's progress and its block's meters. -/
theorem Cx.start_aside {d : Dec} {rs : List (Nat × List Nat)} (h : Enters s cx d rs) (k : State → List (Nat × List Nat) → State) :
    ∃ s', (cx.start s d k = k s' rs ∨ (rs = [] ∧ cx.start s d k = s')) ∧ cx.Aside s s' ∧ s'.pending = s.pending := by
  have counted : cx.Aside s (cx.counted s d rs.length) := .of_keeps (cx.counted_keeps ..)
  have finish : ∀ who e, cx.Aside s (cx.finish (cx.counted s d rs.length) d who e) := fun who e =>
    counted.trans (.of_keeps (cx.finish_keeps _ d who e h.goes))
  have pending : ∀ who e, (cx.finish (cx.counted s d rs.length) d who e).pending = s.pending := fun who e =>
    (Cx.finish_pending h.goes who e).trans (cx.counted_pending ..)
  rw [Cx.start_stands h.stands]
  split
  · exact ⟨_, .inl rfl, finish _ _, pending _ _⟩
  · split
    next none_ => exact ⟨_, .inr ⟨by simp_all, rfl⟩, finish _ _, pending _ _⟩
    next => exact ⟨_, .inl rfl, counted, cx.counted_pending ..⟩

/-- What waits for SFU_RESULT_RETURN (R198). -/
def sfuPending (cx : Cx) (s : State) (d : Dec) (c : Cls) (rs : List (Nat × Nat × Nat)) : Pending where
  id := s.nextId
  ctx := cx.id
  sfu := true
  form := sfuForm d c
  keys := rs.flatMap fun r => (sfuForm d c).keysOf r.1
  flags := orAll (rs.map (·.2.2))
  elts := rs.map fun r => (r.1, some (valBytes (sfuForm d c).wid r.2.1), false)

/-- Results that find room in the queue of the SFU wait there, first of their place (R198). -/
theorem Cx.sfuQueue_awaits {d : Dec} {c : Cls} {rs : List (Nat × Nat × Nat)} (idle : ∀ p ∈ s.pending, p.ctx = cx.id → p.sfu = false)
    (room : rs.length ≤ 512) (goes : (fallNext cx.line cx.pc d.len).2 = false) :
    ∃ p, cx.Awaits p (rs.map fun r => (r.1, r.2.1)) ∧ p.form = sfuForm d c ∧ p.flags = orAll (rs.map (·.2.2)) ∧
      p ∈ (cx.sfuQueue s d c rs).pending ∧ (cx.sfuQueue s d c rs).pending.find? (fun p => p.ctx == cx.id && p.sfu) = some p ∧
      cx.Aside s (cx.sfuQueue s d c rs) := by
  have empty : sfuQueued s cx.id = 0 := by
    have : (s.pending.filter fun p => p.ctx == cx.id && p.sfu) = [] := List.filter_eq_nil_iff.mpr fun p hp => by
      simpa using idle p hp
    simp [sfuQueued, this]
  let p := sfuPending cx s d c rs
  let killed := (killKeys s cx.id p.keys).pending
  have queue : ∃ s', cx.sfuQueue s d c rs = cx.finish s' d (if c == .v then [0] else rs.map (·.1)) (fun _ => { val := .bad, pend := some s.nextId }) ∧
      cx.Aside { s with pending := killed ++ [p], nextId := s.nextId + 1 } s' ∧ s'.pending = killed ++ [p] := by
    unfold Cx.sfuQueue
    rw [if_neg (by omega)]
    refine ⟨_, rfl, ?_⟩
    split
    next hid => exact ⟨.modBlock hid _ _ (fun _ => rfl) (fun _ => rfl) fun _ => rfl, rfl⟩
    next => exact ⟨.refl cx _, rfl⟩
  obtain ⟨s', run, aside, pending⟩ := queue
  have inQueue : (cx.sfuQueue s d c rs).pending = killed ++ [p] := by rw [run, Cx.finish_pending goes, pending]
  refine ⟨p, ⟨rfl, rfl, ?_, ?_, ?_⟩, rfl, rfl, by simp [inQueue], ?_, ?_⟩
  · simp [p, sfuPending]
  · intro r hr k hk
    obtain ⟨q, hq, rfl⟩ := List.mem_map.mp hr
    exact List.mem_flatMap.mpr ⟨q, hq, hk⟩
  · intro none_
    simp [p, sfuPending, List.map_eq_nil_iff.mp none_, orAll]
  · have none_ : killed.find? (fun p => p.ctx == cx.id && p.sfu) = none := by
      simp only [killed, killKeys, List.find?_eq_none, List.forall_mem_map]
      intro q hq
      have := idle q hq
      split <;> simpa using this
    rw [inQueue, List.find?_append, none_]
    simp [p, sfuPending]
  · rw [run]
    exact ((Cx.Aside.inFlight cx s _ _).trans aside).trans (.of_keeps (cx.finish_keeps s' d _ _ goes))

/-! ### The SFU functions -/

/-- Values by lane of an instruction that enters are where their class can be written. -/
theorem Enters.lanes_of_class {a : Alu} {rs : List (Nat × List Nat)} (h : Enters s cx a.d rs) (sound : a.Sound) :
    (a.cls = .s → rs.length ≤ 1) ∧ (a.cls = .v → ∀ r ∈ rs, r.1 < 256) := by
  have has := sound.valid _ (Cx.decodeTrap_none h.legal).1
  have notT : a.cls ≠ .g → cx.isT = false := fun hc => by
    cases kind : cx.kind <;> cases cls : a.cls <;> simp_all [Kind.has, Cx.isT]
  refine ⟨fun hs => ?_, fun hv => h.lane_lt (notT (by simp [hv])) (by rw [sound.elem, hv]; rfl)⟩
  have stream : cx.lanes s a.d = [0] := by simp [Cx.lanes, notT (by simp [hs]), sound.elem, hs]
  calc rs.length = ((cx.lanes s a.d).filter fun l => cx.pbit s a.d.p.grd.toNat l).length := by
        simpa using (congrArg List.length h.reads).symm
    _ ≤ [0].length := stream ▸ List.length_filter_le ..

/-- A place with a block's name has the block. -/
theorem Cx.Placed.blk_isSome (h : cx.Placed t) {c sl : Nat} (hid : cx.id = .blk c sl) : (cx.blk t).isSome := by
  obtain ⟨x, here⟩ := h.ctl_some
  cases hb : blockOf t c sl <;> simp_all [ctlOf, Cx.blk]

theorem eq_of_length_le_one {α : Type} {l : List α} (h : l.length ≤ 1) {x y : α} (hx : x ∈ l) (hy : y ∈ l) : x = y := by
  match l with
  | [] => cases hx
  | [z] => exact (List.mem_singleton.mp hx).trans (List.mem_singleton.mp hy).symm
  | _ :: _ :: _ => simp at h

/-- The course of an SFU function with no trap enabled and its queue empty, to the return of its results (R101, R197, R198). -/
theorem Cx.alu_sfu {a : Alu} {rs : List (Nat × List Nat)} (h : Enters s cx a.d rs) (sound : a.Sound) (sfu : a.sfu = true)
    (fen : cx.fen s % 32 = 0) (idle : ∀ p ∈ s.pending, p.ctx = cx.id → p.sfu = false) (room : rs.length ≤ 512) :
    ∃ u, exec (.sfuResultReturn cx.id) (cx.alu s a) = .next u ∧
      (a.d.p.nwb = false → ∀ r ∈ rs, cx.read (cx.alu s a) none 0 r.1 { n := a.d.p.dreg.toNat, rc := rcOf a.cls } = .pend) ∧
      cx.Writes s u a.cls a.d.p.dreg.toNat a.d.p.nwb (rs.map fun r => (r.1, (a.f r.2).1)) ∧
      ((cx.blk s).isSome → (cx.regs u).fstat = (cx.regs s).fstat ||| BitVec.ofNat 32 (orAll (rs.map fun r => (a.f r.2).2))) ∧
      u.mem = s.mem ∧ ∀ d sm, cx.id ≠ .blk d sm → blockOf u d sm = blockOf s d sm := by
  have has := sound.valid _ (Cx.decodeTrap_none h.legal).1
  have placed := cxOf_placed h.here
  obtain ⟨s', run | ⟨rfl, run⟩, before, pending⟩ := Cx.start_aside h fun s rs =>
    if a.sfu && cx.fen s % 32 == 0 then cx.sfuQueue s a.d a.cls (rs.map fun r => (r.1, a.f r.2))
    else cx.flagged s a.d (rs.map fun r => (r.1, a.f r.2)) fun s rs => cx.result s a.d a.cls (a.cls == .s) rs
  · have fen' : cx.fen s' % 32 = 0 := by rw [Cx.fen, before.regs.regs]; exact fen
    obtain ⟨p, awaits, form, flags, inQueue, first, queued⟩ := Cx.sfuQueue_awaits (s := s') (cx := cx) (d := a.d) (c := a.cls)
      (rs := rs.map fun r => (r.1, a.f r.2)) (by rw [pending]; exact idle) (by simpa using room) h.goes
    have result : cx.alu s a = cx.sfuQueue s' a.d a.cls (rs.map fun r => (r.1, a.f r.2)) := by
      rw [Cx.alu, run, sfu, fen']; rfl
    rw [← result] at inQueue first queued
    simp only [List.map_map, Function.comp_def] at awaits flags
    have t := before.trans queued
    have cls : p.form.cls = a.cls := by rw [form]; rfl
    obtain ⟨few, elements⟩ := h.lanes_of_class sound
    obtain ⟨t', aside, returned⟩ := returnResult_returned awaits (t.placed placed) (by rw [cls]; exact has) fun hs => by
      have hs : a.cls = .s := cls.symm.trans hs
      exact ⟨by rw [form, sfuForm, hs]; rfl, by simpa using few hs⟩
    have all := t.trans aside
    rw [form] at returned
    have held : (sfuForm a.d a.cls).held (rs.map fun r => (r.1, (a.f r.2).1)) = rs.map fun r => (r.1, (a.f r.2).1 % 256 ^ (sfuForm a.d a.cls).wid) := by
      simp only [LoadForm.held, List.map_map, Function.comp_def]
    obtain ⟨put, -, -⟩ := Cx.put_writes (all.placed placed) has (sfuForm a.d a.cls) rfl rfl a.d.p.dreg.isLt
      ((sfuForm a.d a.cls).held (rs.map fun r => (r.1, (a.f r.2).1)))
      (held ▸ h.single_map fun l => (a.f l).1 % 256 ^ (sfuForm a.d a.cls).wid)
      (fun hs _ hx _ hy => eq_of_length_le_one (by simpa [held] using few hs) hx hy)
      (fun hv r hr => by
        rw [held] at hr
        obtain ⟨q, hq, rfl⟩ := List.mem_map.mp hr
        exact elements hv q hq)
    have written := ((put.sameFile has returned.file).of_mod (sfuForm_wide a.d a.cls)).mono has all.regs (.refl cx _)
    refine ⟨returnResult (cx.alu s a) p, by simp only [exec, execSfuResultReturn, first], fun nwb r hr => ?_, written, fun hb => ?_,
      returned.mem.trans all.mem, fun d sm hd => (returned.blocks d sm hd).trans (all.blocks d sm hd)⟩
    · refine Cx.read_pend inQueue awaits.ctx a.d.p.dreg.isLt
        (awaits.live (r.1, (a.f r.2).1) (List.mem_map_of_mem (f := fun r : Nat × List Nat => (r.1, (a.f r.2).1)) hr) _ ?_)
      simp [form, sfuForm_keysOf, nwb]
    · obtain ⟨b, hb⟩ := Option.isSome_iff_exists.mp hb
      obtain ⟨c, sl, hid, -⟩ := Cx.blk_place hb
      rw [returned.fstat ((all.placed placed).blk_isSome hid), all.regs.regs, flags]
  · have result : cx.alu s a = s' := run
    have none_ : s'.pending.find? (fun p => p.ctx == cx.id && p.sfu) = none := by
      simpa [pending] using idle
    rw [result]
    refine ⟨s', by simp only [exec, execSfuResultReturn, none_], by simp, ?_, fun _ => ?_, before.mem, before.blocks⟩
    · exact ⟨by simp, fun c m l hc _ _ _ => before.regs.reg hc m l, before.regs.pbit⟩
    · simp [before.regs.regs, orAll]

end Sys2Proof.Machine

open Sys2Proof Sys2Proof.Machine Sys2Proof.Claims in
/-- Settles O10: the results wait in the queue of the SFU and their return writes them (`Cx.alu_sfu`). -/
theorem sfuResultsReturn : Obligations.SfuResultsReturn := by
  intro f hf c o s cx rs val enters fen idle room
  have run : exec (f.1 c o) s = .next (cx.alu s (xSfu o c f.2)) := by
    have course : exec (f.1 c o) s = withCx s fun cx => cx.alu s (xSfu o c f.2) := by
      simp only [sfuFns, List.mem_cons, List.not_mem_nil, or_false] at hf
      obtain rfl | rfl | rfl | rfl | rfl | rfl | rfl | rfl := hf <;> rfl
    rw [course, withCx, enters.here]
  have rules : (xFloatType o && xRmOk o && o.fn4 == 0) = roundingForm o := by
    simp only [xFloatType, xRmOk, roundingForm]
    ac_rfl
  have dec : (xSfu o c f.2).d = xDec o c 1 (some o.type.toNat) (roundingForm o) true true := by rw [xSfu, rules]; rfl
  obtain ⟨u, back, waits, writes, fstat, mem, blocks⟩ := Cx.alu_sfu (a := xSfu o c f.2) (dec ▸ enters) (xAlu_sound ..) rfl fen idle room
  exact ⟨_, u, run, back, waits, writes, fstat, mem, blocks⟩
end

/-! ## What MFS reads of a block (R124, R420)

Counting an issue and completing streams leave every system register of the block as it reads. -/
section
namespace Sys2Proof.Machine

/-! ### A field of the threads that no completion touches -/

/-- What `g` tells of a thread is for every thread as before. -/
def Block.ThreadsSame {α : Type} (g : Thread → α) (b b' : Block) : Prop := ∀ l, g (threadOf b' l) = g (threadOf b l)

namespace Block.ThreadsSame

variable {α : Type} {g : Thread → α} {a b c : Block}

theorem of_threads (h : b.exec.threads = a.exec.threads) : a.ThreadsSame g b := fun l => by simp only [threadOf, h]

theorem trans (h : a.ThreadsSame g b) (k : b.ThreadsSame g c) : a.ThreadsSame g c := fun l => (k l).trans (h l)

theorem modThreads (b : Block) (ts : List Nat) (f : Nat → Thread → Thread) (hf : ∀ l x, g (f l x) = g x) : b.ThreadsSame g (b.modThreads ts f) := fun l => by
  rw [threadOf_modThreads]
  split
  · exact hf _ _
  · rfl

theorem foldl {β : Type} (f : Block → β → Block) (hf : ∀ (b : Block) x, b.ThreadsSame g (f b x)) (l : List β) (b : Block) :
    b.ThreadsSame g (l.foldl f b) := by
  induction l generalizing b with
  | nil => exact of_threads rfl
  | cons x r ih => exact (hf b x).trans (ih _)

theorem settleBundle (hl : ∀ (x : Thread) n, g { x with freeAt := n, latches := [], line := none } = g x) (b : Block) (id n : Nat) :
    b.ThreadsSame g (b.settleBundle id n) := by
  have left : ∀ ts, b.ThreadsSame g (b.leave ts n) := fun ts =>
    modThreads b ts (fun _ t => { t with freeAt := n, latches := [], line := none }) fun _ x => hl x n
  simp only [Block.settleBundle]
  split
  · exact of_threads rfl
  · split
    · exact of_threads rfl
    · split
      · exact of_threads rfl
      · split
        · exact of_threads rfl
        · exact left _

theorem completeThreads (hl : ∀ (x : Thread) n, g { x with freeAt := n, latches := [], line := none } = g x)
    (hc : ∀ (x : Thread) tr e nx, g (x.complete tr e nx) = g x) (b : Block) (who : List Nat) (tr : Bool) (e : Nat → Latch) (nx : VAddr) (n : Nat) :
    b.ThreadsSame g ((who.foldl (fun b t => b.completeThread t tr (e t) nx) b).settleAll n) :=
  (foldl _ (fun b t => modThreads b [t] (fun _ x => x.complete tr (e t) nx) fun _ x => hc x tr (e t) nx) who b).trans
    (foldl (fun (b : Block) (u : Bundle) => b.settleBundle u.id n) (fun b u => settleBundle hl b u.id n) _ _)

end Block.ThreadsSame

/-! ### System registers -/

/-- TRAPPC and TRAPAUX of a thread. -/
def Thread.resume (x : Thread) : VAddr × W64 := (x.trapPc, x.trapAux)
/-- TRAPPC and TRAPAUX of a control stream. -/
def Ctl.resume (x : Ctl) : VAddr × W64 := (x.trapPc, x.trapAux)

/-- From `b` to `b'` streams may have gone on and meters and charges have been counted; registers, data and as many threads are
there as before. -/
structure Block.SameSys (b b' : Block) : Prop where
  regs : b'.regs = b.regs
  asid : b'.asid = b.asid
  vpref : b'.vpref = b.vpref
  mem : b'.mem = b.mem
  model : b'.exec.model = b.exec.model
  count : b'.exec.threads.length = b.exec.threads.length
  live : b.ThreadsSame Thread.live b'
  threads : b.ThreadsSame Thread.resume b'
  ctl : b'.exec.ctl.resume = b.exec.ctl.resume

namespace Block.SameSys

variable {a b c : Block}

theorem refl (b : Block) : b.SameSys b := ⟨rfl, rfl, rfl, rfl, rfl, rfl, fun _ => rfl, fun _ => rfl, rfl⟩

theorem trans (h : a.SameSys b) (k : b.SameSys c) : a.SameSys c where
  regs := k.regs.trans h.regs
  asid := k.asid.trans h.asid
  vpref := k.vpref.trans h.vpref
  mem := k.mem.trans h.mem
  model := k.model.trans h.model
  count := k.count.trans h.count
  live := h.live.trans k.live
  threads := h.threads.trans k.threads
  ctl := k.ctl.trans h.ctl

/-- Threads that complete. -/
theorem completeThreads (b : Block) (who : List Nat) (tr : Bool) (e : Nat → Latch) (nx : VAddr) (n : Nat) :
    b.SameSys ((who.foldl (fun b t => b.completeThread t tr (e t) nx) b).settleAll n) := by
  have rest := b.completeThreads_sameButExec who tr e nx n
  have onward := Block.Onward.completeThreads b who tr e nx n
  refine ⟨rest.regs_eq, by rw [rest], by rw [rest], rest.mem_eq, onward.model, onward.count, onward.live,
    .completeThreads (fun _ _ => rfl) (fun _ _ _ _ => rfl) b who tr e nx n, ?_⟩
  rw [b.completeThreads_ctl]

/-- A control stream that completes. -/
theorem completeCtl (b : Block) (tr : Bool) (e : Latch) (nx : VAddr) : b.SameSys (b.modCtl fun c => c.complete tr e nx) :=
  ⟨rfl, rfl, rfl, rfl, rfl, rfl, fun _ => rfl, fun _ => rfl, rfl⟩

theorem trapPcOf_eq (h : b.SameSys c) (t : Nat) : trapPcOf c t = trapPcOf b t := by
  have thread := congrArg Prod.fst (h.threads t)
  have ctl := congrArg Prod.fst h.ctl
  simp only [Thread.resume, Ctl.resume] at thread ctl
  simp only [trapPcOf, h.model, thread, ctl]

theorem trapAuxOf_eq (h : b.SameSys c) (t : Nat) : trapAuxOf c t = trapAuxOf b t := by
  have thread := congrArg Prod.snd (h.threads t)
  have ctl := congrArg Prod.snd h.ctl
  simp only [Thread.resume, Ctl.resume] at thread ctl
  simp only [trapAuxOf, h.model, thread, ctl]

/-- Every register reads as before. -/
theorem blockReg_eq (h : b.SameSys c) (t n : Nat) : blockReg c t n = blockReg b t n := by
  unfold blockReg
  rw [h.regs, h.asid, h.trapPcOf_eq, h.trapAuxOf_eq]

theorem blockRegBad_eq (h : b.SameSys c) (n v : Nat) : blockRegBad c n v = blockRegBad b n v := by rw [blockRegBad, h.regs]; rfl

end Block.SameSys

/-! ### The stream's own block through an issue and a completion -/

variable {s : State} {cx : Cx} {d : Dec} {b : Block}

theorem Cx.counted_sameSys (hb : cx.blk s = some b) (d : Dec) (n : Nat) : ∃ b', cx.blk (cx.counted s d n) = some b' ∧ b.SameSys b' := by
  obtain ⟨regs, keeps⟩ := cx.counted_keeps s d n
  obtain ⟨b', hb', exec⟩ := cx.counted_exec s d n hb
  have placed := keeps.block hb hb'
  have own : b'.regs = b.regs := by simpa [Cx.regs, hb, hb'] using regs.regs
  have data : b'.mem = b.mem := by simpa [Cx.mem, hb, hb'] using regs.mem
  have asid := congrArg Block.asid placed
  have vpref := congrArg Block.vpref placed
  exact ⟨b', hb', own, asid, vpref, data, by rw [exec], by rw [exec], .of_threads (by rw [exec]), .of_threads (by rw [exec]), by rw [exec]⟩

theorem Cx.finish_sameSys (hb : cx.blk s = some b) (who : List Nat) (e : Nat → Latch) (goes : (fallNext cx.line cx.pc d.len).2 = false) :
    ∃ b', cx.blk (cx.finish s d who e) = some b' ∧ b.SameSys b' := by
  obtain ⟨c, sl, hid, here⟩ := Cx.blk_place hb
  have hr : cx.retire s = s := by simp [Cx.retire, hid]
  have changed : ∀ f, cx.blk (Machine.modBlock s c sl f) = some (f b) := fun f => by
    simp only [Cx.blk, hid, blockOf_modBlock_self, here, Option.map_some]
  by_cases hw : who.isEmpty
  · exact ⟨b, by rw [Cx.finish, if_pos hw, hb], .refl b⟩
  · simp only [Cx.finish, hw, goes, hid, hr, Bool.false_eq_true, if_false]
    split
    · exact ⟨_, changed _, .completeThreads b who _ _ _ _⟩
    · exact ⟨_, changed _, .completeCtl b _ _ _⟩

/-- A place that is no block counts no issue. -/
theorem Cx.counted_noBlock (h : ∀ c sl, cx.id ≠ .blk c sl) (d : Dec) (n : Nat) : cx.counted s d n = s := by
  obtain ⟨id, kind, acts, pc, line⟩ := cx
  cases id with
  | blk c sl => exact absurd rfl (h c sl)
  | sup c => unfold Cx.counted; split <;> simp [Cx.countMma, Cx.count]
  | sys n => unfold Cx.counted; split <;> simp [Cx.countMma, Cx.count]

/-- Up to its effect an instruction leaves the system registers of its place as they read, and a place that is no block as it
was. -/
structure Cx.SameSys (cx : Cx) (s t : State) : Prop where
  regs : cx.RegsSame s t
  keeps : cx.Keeps s t
  pending : t.pending = s.pending
  block : ∀ b, cx.blk s = some b → ∃ b', cx.blk t = some b' ∧ b.SameSys b'
  noBlock : (∀ c sl, cx.id ≠ .blk c sl) → t = s

/-- An instruction that enters with a lane that acts goes to its effect. -/
theorem Cx.start_sameSys {rs : List (Nat × List Nat)} (h : Enters s cx d rs) (acting : rs ≠ []) :
    ∃ s', (∀ k, cx.start s d k = k s' rs) ∧ cx.SameSys s s' := by
  have counted : cx.SameSys s (cx.counted s d rs.length) :=
    ⟨(cx.counted_keeps ..).1, (cx.counted_keeps ..).2, cx.counted_pending .., fun b hb => Cx.counted_sameSys hb d _, fun hn => Cx.counted_noBlock hn d _⟩
  cases hT : cx.isT with
  | true =>
    obtain ⟨c, sl, hid⟩ := cxOf_T h.here (by simpa [Cx.isT] using hT)
    refine ⟨_, fun k => by rw [Cx.start_stands h.stands, if_pos hT], ?_⟩
    generalize cx.acts.filter _ = others
    obtain ⟨regs, keeps⟩ := cx.finish_keeps (cx.counted s d rs.length) d others (fun _ => {}) h.goes
    refine ⟨counted.regs.trans regs, counted.keeps.trans keeps, (Cx.finish_pending h.goes ..).trans counted.pending, fun b hb => ?_,
      fun hn => absurd hid (hn c sl)⟩
    obtain ⟨b1, hb1, same1⟩ := counted.block b hb
    obtain ⟨b2, hb2, same2⟩ := Cx.finish_sameSys hb1 others (fun _ => {}) h.goes
    exact ⟨b2, hb2, same1.trans same2⟩
  | false => exact ⟨_, fun k => Cx.start_stands_ctl h.stands (by simpa [Cx.isT] using hT) acting k, counted⟩

end Sys2Proof.Machine
end

/-! ## A scalar result of one or two words (R117, R293) -/
section
namespace Sys2Proof.Machine

variable {s t t' : State} {cx : Cx} {f : LoadForm}

/-- Registers that stay keep a `Loaded`. -/
theorem Cx.Loaded.mono {vals : List (Nat × Nat)} (h : cx.Loaded s t f vals) (has : cx.kind.has f.cls = true) (same : cx.RegsSame t t') :
    cx.Loaded s t' f vals where
  written r hr i k hk := by
    have cell : cx.cell t' f.cls k = cx.cell t f.cls k := by
      cases cls : f.cls with
      | s => simp only [Cx.cell, Ctl.s, same.sregs (by rintro e; rw [e, cls] at has; cases has)]
      | g => simp only [Cx.cell, same.mem]
      | v => simp only [Cx.cell, same.mem]
    exact cell.trans (h.written r hr i k hk)
  others c m l hc hm hl ho := (same.reg hc m l).trans (h.others c m l hc hm hl ho)
  preds m i := (same.pbit m i).trans (h.preds m i)

theorem Cx.Loaded.after {vals : List (Nat × Nat)} (h : cx.Loaded t t' f vals) (same : cx.RegsSame s t) : cx.Loaded s t' f vals where
  written := h.written
  others c m l hc hm hl ho := (h.others c m l hc hm hl ho).trans (same.reg hc m l)
  preds m i := (h.preds m i).trans (same.pbit m i)

/-- The first g register a result of class g is written to. -/
def LoadForm.firstG (f : LoadForm) : Nat := if f.wid ≤ 4 then f.dreg else 2 * f.dreg

/-- A result of class g lies in the g registers: one word, or a pair. -/
def LoadForm.FitsG (f : LoadForm) : Prop := f.cls = .g ∧ (f.wid = 4 ∧ f.dreg < 64 ∨ f.wid = 8 ∧ f.dreg < 32)

/-- The words of a result of class g lie in successive registers of its lane. -/
theorem LoadForm.FitsG.keysOf (fits : f.FitsG) {e i k : Nat} (hk : (f.keysOf e)[i]? = some k) : k = gKey e (f.firstG + i) ∧ f.firstG + i < 64 := by
  obtain ⟨cls, ⟨wid, dreg⟩ | ⟨wid, dreg⟩⟩ := fits
  · simp only [LoadForm.keysOf, cls, wid] at hk
    simp only [LoadForm.firstG, wid]
    split at hk
    · simp at hk
    · obtain _ | i := i
      · simp at hk; exact ⟨hk.symm, by simpa using dreg⟩
      · simp at hk
  · simp only [LoadForm.keysOf, cls, wid] at hk
    simp only [LoadForm.firstG, wid]
    split at hk
    · simp at hk
    · obtain _ | _ | i := i
      · simp [upFrom] at hk; exact ⟨by simp [hk], by simp; omega⟩
      · simp [upFrom] at hk; exact ⟨by simp [hk], by simp; omega⟩
      · simp [upFrom] at hk

/-- Each word of a lane's value is read where it was written. -/
theorem putLanes_word (m : BlkMem) (fits : f.FitsG) {vals : List (Nat × Nat)} (bad : Bool) (single : Single vals) {r : Nat × Nat} (hr : r ∈ vals) {i k : Nat}
    (hk : (f.keysOf r.1)[i]? = some k) : Store.get (putLanes m f vals bad).rows k = BitVec.ofNat 32 (r.2 / 2 ^ (32 * i)) := by
  obtain ⟨key, bound⟩ := fits.keysOf hk
  rw [putLanes_eq, foldl_setRow_get]
  have same : ∀ w ∈ (f.words vals).filter (fun w => w.1 == k), w.2 = BitVec.ofNat 32 (r.2 / 2 ^ (32 * i)) := fun w hw => by
    obtain ⟨hw, at_⟩ := List.mem_filter.mp hw
    obtain ⟨q, hq, hw⟩ := List.mem_flatMap.mp hw
    obtain ⟨j, hj, rfl⟩ := List.mem_mapIdx.mp hw
    obtain ⟨key', bound'⟩ := fits.keysOf (List.getElem?_eq_getElem hj)
    obtain ⟨lane, reg⟩ := gKey_inj bound' bound (key'.symm.trans ((by simpa using at_ : (f.keysOf q.1)[j] = k).trans key))
    obtain rfl : j = i := by omega
    simp only [single q hq r hr lane]
  have written : (f.words vals).filter (fun w => w.1 == k) ≠ [] := by
    obtain ⟨hi, hk⟩ := List.getElem?_eq_some_iff.mp hk
    refine List.ne_nil_of_mem (List.mem_filter.mpr ⟨List.mem_flatMap.mpr ⟨r, hr, List.mem_mapIdx.mpr ⟨i, hi, rfl⟩⟩, ?_⟩)
    simp [hk]
  rw [List.getLast?_eq_some_getLast written]
  exact same _ (List.getLast_mem written)

/-- Results of class g are written to the threads' registers, and nothing else of the threads' place changes. -/
theorem Cx.put_loaded_g (placed : cx.Placed s) (hT : cx.kind = .T) (fits : f.FitsG) {vals : List (Nat × Nat)} (single : Single vals) :
    cx.Loaded s (cx.put s f vals) f vals ∧ cx.regs (cx.put s f vals) = cx.regs s := by
  obtain ⟨c, sl, b, hid, hb⟩ := placed.block (.inl hT)
  have put := Cx.put_rows hid hb (by rw [fits.1]; decide) vals
  have mem : cx.mem (cx.put s f vals) = putLanes (cx.mem s) f vals false := by simp [Cx.mem, Cx.blk, hid, put, hb]
  refine ⟨⟨fun r hr i k hk => ?_, fun cls m l hc hm hl ho => ?_, fun m i => ?_⟩, by simp [Cx.regs, Cx.blk, hid, put, hb]⟩
  · simp only [fits.1, Cx.cell, mem, putLanes_word _ fits false single hr hk]
    simp [widthOf]
  · have hg : cls = .g := by rw [hT] at hc; cases cls <;> first | rfl | cases hc
    subst hg
    have kept := putLanes_other (cx.mem s) f vals false (gKey l m) (ho fits.1.symm)
    simp only [Cx.reg, mem, BlkMem.g, kept]
  · simp only [Cx.pbit, hT, mem, BlkMem.p, putLanes_preds]

/-- Where a result is put, no byte of memory and no other place changes. -/
theorem Cx.put_only (cx : Cx) (s : State) (f : LoadForm) (vals : List (Nat × Nat)) : cx.Only s (cx.put s f vals) ∧ (cx.put s f vals).mem = s.mem := by
  have killed := (cx.killKeys_keeps s cx.id (vals.flatMap fun r => f.keysOf r.1)).2
  unfold Cx.put
  split
  · split
    · exact ⟨killed.only, killed.mem_eq⟩
    · exact ⟨killed.only.trans (.modCtl ..), (modCtl_mem ..).trans killed.mem_eq⟩
  · unfold Cx.modBlk
    split
    next hid => exact ⟨killed.only.trans (.modBlock hid _ _), killed.mem_eq⟩
    next => exact ⟨killed.only, killed.mem_eq⟩

/-- A write of class s as its words say. -/
theorem Cx.Writes.loaded_s {vals : List (Nat × Nat)} (h : cx.Writes s t .s f.dreg f.nwb vals) (cls : f.cls = .s) (wid : f.wid = 8)
    (some_ : vals ≠ []) : cx.Loaded s t f vals := by
  have keys : ∀ l, f.keysOf l = if f.nwb then [] else [sKey f.dreg] := fun l => by simp [LoadForm.keysOf, cls, wid]
  refine ⟨fun r hr i k hk => ?_, fun c m l hc hm hl ho => h.others c m l hc hm hl fun e => ?_, h.preds⟩
  · rw [keys] at hk
    cases nwb : f.nwb with
    | true => simp [nwb] at hk
    | false =>
      obtain ⟨rfl, rfl⟩ : i = 0 ∧ sKey f.dreg = k := by simpa [nwb, List.getElem?_singleton] using hk
      have number : sKey f.dreg - sKey 0 = f.dreg := Nat.add_sub_cancel_left ..
      simpa [cls, Cx.cell, Cx.reg, number] using h.written nwb r hr
  · subst e
    obtain ⟨r, hr⟩ := List.exists_mem_of_ne_nil vals some_
    cases nwb : f.nwb with
    | true => exact .inl rfl
    | false => exact .inr (.inl fun same => ho cls.symm r hr (by simp [keys, nwb, regKey, same]))

/-- What MFS writes: a word or a pair of a thread, an s register elsewhere. -/
def Cx.scalarForm (cx : Cx) (d : Dec) (wide : Bool) : LoadForm :=
  { cls := cx.scalarCls, wid := if wide then 8 else 4, sext := false, dreg := d.p.dreg.toNat, nwb := d.p.nwb }

/-- A scalar result whose destination decoding has allowed is written, its streams go on, and nothing else changes. -/
theorem Cx.result_loaded {d : Dec} {wide : Bool} {vals : List (Nat × Nat)} (placed : cx.Placed s) (goes : (fallNext cx.line cx.pc d.len).2 = false)
    (dreg : (if d.p.nwb then d.p.dreg.toNat == 0 else cx.regOk s (cx.rcScalar wide) d.p.dreg.toNat) = true) (long : cx.isT = false → wide = true)
    (single : Single vals) (one : cx.isT = false → ∀ a ∈ vals, ∀ b ∈ vals, a = b) (some_ : vals ≠ []) :
    cx.Loaded s (cx.result s d cx.scalarCls wide vals) (cx.scalarForm d wide) vals ∧
      cx.regs (cx.result s d cx.scalarCls wide vals) = cx.regs s ∧ cx.Only s (cx.result s d cx.scalarCls wide vals) ∧
      (cx.result s d cx.scalarCls wide vals).mem = s.mem := by
  have small : d.p.dreg.toNat < 64 := d.p.dreg.isLt
  cases hT : cx.isT with
  | true =>
    have kind : cx.kind = .T := by simpa [Cx.isT] using hT
    have fits : (cx.scalarForm d wide).FitsG := by
      refine ⟨by simp [Cx.scalarForm, Cx.scalarCls, hT], ?_⟩
      cases wide with
      | false => exact .inl ⟨rfl, small⟩
      | true =>
        refine .inr ⟨rfl, ?_⟩
        simp only [Cx.rcScalar, hT, Cx.regOk, if_true] at dreg
        change d.p.dreg.toNat < 32
        split at dreg <;> simp at dreg <;> omega
    obtain ⟨loaded, regs⟩ := Cx.put_loaded_g placed kind fits single
    obtain ⟨only, mem⟩ := cx.put_only s (cx.scalarForm d wide) vals
    obtain ⟨e, run⟩ : ∃ e, cx.result s d cx.scalarCls wide vals = cx.finish (cx.put s (cx.scalarForm d wide) vals) d (vals.map (·.1)) e :=
      ⟨_, by simp only [Cx.result, Cx.scalarForm, Cx.scalarCls, hT]; rfl⟩
    obtain ⟨same, keeps⟩ := cx.finish_keeps (cx.put s (cx.scalarForm d wide) vals) d (vals.map (·.1)) e goes
    rw [run]
    exact ⟨loaded.mono (by rw [fits.1, kind]; rfl) same, same.regs.trans regs, only.trans keeps.only, keeps.mem_eq.trans mem⟩
  | false =>
    have cls : cx.scalarCls = .s := by simp [Cx.scalarCls, hT]
    have has : cx.kind.has .s = true := by cases kind : cx.kind <;> simp_all [Cx.isT, Kind.has]
    have low : d.p.dreg.toNat < 32 := by
      simp only [Cx.rcScalar, hT, Cx.regOk, Bool.false_eq_true, if_false] at dreg
      split at dreg <;> simp at dreg <;> omega
    obtain rfl := long hT
    obtain ⟨writes, keeps, regs⟩ := Cx.result_writes (cls := .s) placed has goes (fun _ => low) single (fun _ => one hT) (fun h => nomatch h)
    rw [cls]
    exact ⟨Cx.Writes.loaded_s (f := cx.scalarForm d true) writes cls rfl some_, regs, keeps.only, keeps.mem_eq⟩

end Sys2Proof.Machine
end

/-! ## MFS, and rights (R124, R258, R493) -/
section
namespace Sys2Proof.Machine

variable {s t : State} {cx : Cx} {n : Nat} {site : Option (Nat × Nat × Option Nat)}

/-! ### The place a register is found at -/

theorem regInfo_lt (assigned : (regInfo n).isSome = true) : n < 0x192 := by
  by_contra high
  have none_ : regInfo n = none := by
    unfold regInfo
    rw [if_neg (by simp; omega)]
    split <;> first | rfl | omega
  rw [none_] at assigned
  cases assigned

/-- Where a register is found: a block's in the block itself or in the one of SVTGT, any other in its place. -/
theorem Cx.regSite_cases (h : cx.regSite s n = .ok site) :
    (∃ c sl, cx.id = .blk c sl ∧ site = if isBlockReg n then some (c, sl, none) else none) ∨
    (∃ c, cx.id = .sup c ∧ isBlockReg n = false ∧ site = none) ∨
    (∃ c b x, cx.id = .sup c ∧ isBlockReg n = true ∧ blockOf s c (coreOf s c).svtgt.toNat = some b ∧ site = some (c, (coreOf s c).svtgt.toNat, some x)) ∨
    ∃ y, cx.id = .sys y ∧ site = none := by
  unfold Cx.regSite at h
  split at h
  next c sl hid => exact .inl ⟨c, sl, hid, (Except.ok.inj h).symm⟩
  next c hid =>
    split at h
    next own => exact .inr (.inl ⟨c, hid, by simpa using own, (Except.ok.inj h).symm⟩)
    next own =>
      replace own : isBlockReg n = true := by simpa using own
      simp only at h
      split at h
      next => cases h
      next b hb =>
        split at h
        · split at h
          next => cases h
          next x _ => exact .inr (.inr (.inl ⟨c, b, x, hid, own, hb, (Except.ok.inj h).symm⟩))
        · exact .inr (.inr (.inl ⟨c, b, 0, hid, own, hb, (Except.ok.inj h).symm⟩))
  next y hid =>
    split at h
    next => cases h
    next => exact .inr (.inr (.inr ⟨y, hid, (Except.ok.inj h).symm⟩))

/-- A register that is found is of a slot that holds a block, where it is a block's. -/
theorem Cx.slotHeld_of_regSite (h : cx.regSite s n = .ok site) {write : Bool} (run : write = true → n ≠ 0x185) : cx.slotHeld s n write = true := by
  obtain ⟨c, sl, hid, -⟩ | ⟨c, hid, own, -⟩ | ⟨c, b, x, hid, own, hb, -⟩ | ⟨y, hid, -⟩ := Cx.regSite_cases h
  · simp [Cx.slotHeld, hid]
  · cases write <;> simp_all [Cx.slotHeld]
  · simp [Cx.slotHeld, hid, hb]
  · simp [Cx.slotHeld, hid]

/-- An issue leaves the place of a register. -/
theorem Cx.SameSys.regSite_eq (h : cx.SameSys s t) (n : Nat) : cx.regSite t n = cx.regSite s n := by
  cases hid : cx.id with
  | blk c sl => simp only [Cx.regSite, hid]
  | sup c => rw [h.noBlock (by simp [hid])]
  | sys y => rw [h.noBlock (by simp [hid])]

/-- What a register found at `site` reads for a lane. -/
def Cx.siteReg (cx : Cx) (s : State) (site : Option (Nat × Nat × Option Nat)) (n lane : Nat) : Nat :=
  match site with
  | some (c, sl, t) => ((blockOf s c sl).map fun b => blockReg b (t.getD lane) n).getD 0
  | none => placeReg s cx.id n

/-- Of the registers that are no block's a user reads LOCID alone. -/
theorem eq_locid_of_user_reads {k : Kind} (user : k ≠ .K ∧ k ≠ .Y) (assigned : (regInfo n).isSome = true) (right : regTrap n false k = none)
    (own : isBlockReg n = false) : n = 0 := by
  have table : ∀ n < 0x192, (regInfo n).isSome = true → isBlockReg n = false → ∀ k ∈ [Kind.T, .V, .S], regTrap n false k = none → n = 0 := by
    decide +kernel
  exact table n (regInfo_lt assigned) assigned own k (by cases k <;> simp_all) right

/-- The kind of a block's stream. -/
theorem Cx.Placed.user (h : cx.Placed s) {c sl : Nat} (hid : cx.id = .blk c sl) : cx.kind ≠ .K ∧ cx.kind ≠ .Y := by
  constructor
  · intro k; obtain ⟨d, e⟩ := h.sup k; rw [hid] at e; cases e
  · intro k; obtain ⟨d, e⟩ := h.sys k; rw [hid] at e; cases e

/-- What MFS reads is as before the issue. -/
theorem Cx.SameSys.siteReg_eq (h : cx.SameSys s t) (placed : cx.Placed s) (found : cx.regSite s n = .ok site) (assigned : (regInfo n).isSome = true)
    (right : regTrap n false cx.kind = none) (lane : Nat) : cx.siteReg t site n lane = cx.siteReg s site n lane := by
  cases hid : cx.id with
  | sup c => rw [h.noBlock (by simp [hid])]
  | sys y => rw [h.noBlock (by simp [hid])]
  | blk c sl =>
    simp only [Cx.regSite, hid, Except.ok.injEq] at found
    subst found
    cases own : isBlockReg n with
    | false =>
      obtain rfl := eq_locid_of_user_reads (placed.user hid) assigned right own
      simp only [Cx.siteReg, Bool.false_eq_true, if_false, hid]
      rfl
    | true =>
      obtain ⟨b, hb⟩ := Option.isSome_iff_exists.mp (placed.blk_isSome hid)
      obtain ⟨b', hb', same⟩ := h.block b hb
      simp only [Cx.blk, hid] at hb hb'
      simp only [Cx.siteReg, if_true, hb, hb', Option.map_some, Option.getD_some, same.blockReg_eq]

/-! ### MFS -/

/-- A result or matrix entry still to come owes FSTAT its flags (R259). -/
def Cx.owesFstat (cx : Cx) (s : State) (site : Option (Nat × Nat × Option Nat)) : Bool :=
  s.pending.any (fun p => p.ctx == cx.id && p.sfu) || match site with
    | some (c, sl, _) => (settleEngines.spanOf s c sl).any fun x => !(mqOf s x sl).isEmpty
    | none => false

theorem Cx.owesFstat_settled (pending : s.pending = []) (entries : ∀ c, (coreOf s c).mq = []) : cx.owesFstat s site = false := by
  cases site <;> simp [Cx.owesFstat, pending, mqOf, entries]

theorem Cx.RegsSame.regOk_eq (h : cx.RegsSame s t) (rc : RC) (n : Nat) : cx.regOk t rc n = cx.regOk s rc n := by
  cases rc <;> simp only [Cx.regOk, h.mem]

/-- A control stream's scalars are s registers, always long. -/
theorem Cx.rcScalar_long (cx : Cx) (wide : Bool) : cx.rcScalar (cx.isT && wide || !cx.isT) = cx.rcScalar (cx.isT && wide) := by
  cases hT : cx.isT <;> simp [Cx.rcScalar, hT]

/-- What MFS gives a lane: the low word only, where its destination is a g register. -/
def Cx.mfsValue (cx : Cx) (s : State) (site : Option (Nat × Nat × Option Nat)) (o : KOp) (lane : Nat) : Nat :=
  if cx.isT && !(cx.isT && regWide o) then cx.siteReg s site (regNum o) lane % 2 ^ 32 else cx.siteReg s site (regNum o) lane

/-- MFS gives all bits of a register to a control context, and to a thread where the register is longer than a word. -/
theorem Cx.mfsValue_wide (cx : Cx) {site : Option (Nat × Nat × Option Nat)} {o : KOp} {l : Nat} (wide : cx.isT = false ∨ regWide o = true) :
    cx.mfsValue s site o l = cx.siteReg s site (regNum o) l := by
  obtain h | h := wide <;> simp [Cx.mfsValue, h]

theorem Cx.mfsValue_narrow (cx : Cx) {site : Option (Nat × Nat × Option Nat)} {o : KOp} {l : Nat} (narrow : ¬(cx.isT = false ∨ regWide o = true)) :
    cx.mfsValue s site o l = cx.siteReg s site (regNum o) l % 2 ^ 32 := by
  have thread : cx.isT = true := by simpa using fun h => narrow (.inl h)
  have short : regWide o = false := by simpa using fun h => narrow (.inr h)
  simp [Cx.mfsValue, thread, short]

/-- MFS gives what the register reads (R258). -/
theorem mfs_loads {o : KOp} {rs : List (Nat × List Nat)} (h : Enters s cx (Claims.mfsDec cx o) rs) (acting : rs ≠ []) (found : cx.regSite s (regNum o) = .ok site)
    (settled : regNum o = 0x014 → s.pending = [] ∧ ∀ c, (coreOf s c).mq = []) :
    ∃ t, exec (.mfs o) s = .next t ∧
      cx.Loaded s t (cx.scalarForm (Claims.mfsDec cx o) (cx.isT && regWide o || !cx.isT)) (rs.map fun r => (r.1, cx.mfsValue s site o r.1)) ∧
      cx.regs t = cx.regs s ∧ cx.Only s t ∧ t.mem = s.mem := by
  obtain ⟨right, ok, dreg, -⟩ := Cx.decodeTrap_none h.legal
  have assigned : (regInfo (regNum o)).isSome = true := by
    simp only [Claims.mfsDec, Cx.regOkFields, Bool.and_eq_true] at ok
    exact ok.1.1.1.2
  have placed := cxOf_placed h.here
  obtain ⟨u, run, same⟩ := Cx.start_sameSys h acting
  have notOwed : (regNum o == 0x014 && cx.owesFstat u site) = false := by
    by_cases fstat : regNum o = 0x014
    · obtain ⟨idle, empty⟩ := settled fstat
      have entries : ∀ c, (coreOf u c).mq = [] := fun c => by
        have e := congrArg Core.mq (same.keeps.cores c)
        exact Eq.trans e (empty c)
      rw [Cx.owesFstat_settled (same.pending.trans idle) entries, Bool.and_false]
    · simp [fstat]
  have values : ∀ lane, cx.mfsValue u site o lane = cx.mfsValue s site o lane := fun lane => by
    simp only [Cx.mfsValue, same.siteReg_eq placed found assigned right]
  generalize hvals : (rs.map fun r => (r.1, cx.mfsValue s site o r.1)) = vals
  have read : exec (.mfs o) s = .next (cx.result u (Claims.mfsDec cx o) cx.scalarCls (cx.isT && regWide o || !cx.isT) vals) := by
    simp only [exec, execMfs, withCx, h.here, Cx.slotHeld_of_regSite (write := false) found (by simp), Bool.and_true]
    refine congrArg Host.Outcome.next ((run _).trans ?_)
    simp only [List.isEmpty_eq_false_iff.mpr acting, (same.regSite_eq _).trans found, Bool.false_eq_true, if_false]
    refine (if_neg (ne_of_eq_of_ne notOwed Bool.false_ne_true)).trans ?_
    simp only [← hvals, ← values]
    rfl
  have alone : cx.isT = false → ∀ a ∈ vals, a.1 = 0 := fun hT a ha => by
    rw [← hvals] at ha
    obtain ⟨r, hr, rfl⟩ := List.mem_map.mp ha
    exact h.lane_zero hT rfl r hr
  have single : Single vals := fun a ha b hb e => by
    rw [← hvals] at ha hb
    obtain ⟨r, -, rfl⟩ := List.mem_map.mp ha
    obtain ⟨q, -, rfl⟩ := List.mem_map.mp hb
    exact congrArg (cx.mfsValue s site o) e
  obtain ⟨loaded, regs, only, mem⟩ := Cx.result_loaded (d := Claims.mfsDec cx o) (wide := cx.isT && regWide o || !cx.isT) (vals := vals)
    (placed.keep same.keeps) h.goes (by rw [Cx.rcScalar_long, same.regs.regOk_eq]; exact dreg) (fun hT => by simp [hT]) single
    (fun hT a ha b hb => by
      have lane := (alone hT a ha).trans (alone hT b hb).symm
      exact Prod.ext lane (single a ha b hb lane)) (by simpa [← hvals] using acting)
  exact ⟨_, read, loaded.after same.regs, regs.trans same.regs.regs, same.keeps.only.trans only, mem.trans same.keeps.mem_eq⟩

/-! ### Rights -/

/-- An instruction that its context may not execute raises the trap before anything else (R115). -/
theorem Cx.start_invalid {d : Dec} {c : Nat} (h : d.valid cx.kind = some c) (k : State → List (Nat × List Nat) → State) :
    cx.start s d k = cx.raise s d.srcs { cause := c } cx.acts := by simp only [Cx.start, Cx.decodeTrap, h]

theorem exec_mts (here : cxOf s = some cx) (o : KOp) : exec (.mts o) s = .next (cx.mts s o) := by simp only [exec, execMts, withCx, here]

theorem mfs_without_right {o : KOp} {c : Nat} (here : cxOf s = some cx) (right : regTrap (regNum o) false cx.kind = some c) :
    exec (.mfs o) s = .next (cx.raise s [] { cause := c } cx.acts) := by
  simp only [exec, execMfs, withCx, here]
  rw [Cx.start_invalid right]

theorem mts_without_right {o : KOp} {c : Nat} (here : cxOf s = some cx) (right : regTrap (regNum o) true cx.kind = some c) :
    exec (.mts o) s = .next (cx.raise s (Claims.mtsDec cx o).srcs { cause := c } cx.acts) := by
  rw [exec_mts here, Cx.mts, Cx.start_invalid right]
  rfl

end Sys2Proof.Machine
end

/-! ## MTS of a block's register (R124, R126, R412, R419, R420) -/
section
namespace Sys2Proof.Machine

variable {b : Block} {n t v : Nat}

/-! ### Words and their masks -/

theorem toNat_ofNat_and {w : Nat} (m : BitVec w) (v : Nat) : (BitVec.ofNat w v &&& m).toNat = v &&& m.toNat := by
  rw [BitVec.toNat_and, BitVec.toNat_ofNat]
  refine Nat.eq_of_testBit_eq fun i => ?_
  by_cases low : i < w
  · simp [Nat.testBit_and, Nat.testBit_mod_two_pow, low]
  · simp [Nat.testBit_and, BitVec.testBit_toNat, BitVec.getLsbD_of_ge m i (Nat.le_of_not_lt low)]

theorem toNat_ofNat_mask (w v : Nat) : (BitVec.ofNat w v).toNat = v &&& (2 ^ w - 1) := by
  rw [BitVec.toNat_ofNat, Nat.and_two_pow_sub_one_eq_mod]

/-- A field above `j` zero bits. -/
theorem toNat_ofNat_aligned {j w : Nat} (h : j ≤ w) (v : Nat) : (BitVec.ofNat w (v / 2 ^ j * 2 ^ j)).toNat = v &&& (2 ^ w - 2 ^ j) := by
  have mask : 2 ^ w - 2 ^ j = 2 ^ j * (2 ^ (w - j) - 1) := by rw [Nat.mul_sub, ← Nat.pow_add, Nat.add_sub_cancel' h, Nat.mul_one]
  rw [BitVec.toNat_ofNat, mask, Nat.mul_comm _ (2 ^ j)]
  refine Nat.eq_of_testBit_eq fun i => ?_
  simp only [Nat.testBit_mod_two_pow, Nat.testBit_and, Nat.testBit_two_pow_mul, Nat.testBit_two_pow_sub_one, Nat.testBit_div_two_pow]
  by_cases low : j ≤ i
  · have within : i - j < w - j ↔ i < w := by omega
    simp [low, within, Bool.and_comm]
  · simp [low]

/-- A mask by parts. -/
theorem and_split (v m k : Nat) : v &&& m = (v / 2 ^ k &&& m / 2 ^ k) * 2 ^ k + (v % 2 ^ k &&& m % 2 ^ k) := by
  rw [← Nat.and_div_two_pow, ← Nat.and_mod_two_pow, Nat.div_add_mod']

/-- HOPCTL's EN, FRC and FTGT in place (R80). -/
theorem hopctl_fields (v : Nat) (en : Bool) :
    (if en then bits v 31 31 else 0) * 2 ^ 31 + bits v 23 16 * 2 ^ 16 + bits v 7 0 = v &&& if en then 0x80FF00FF else 0x00FF00FF := by
  have byte : ∀ x : Nat, x &&& 0xFF = x % 2 ^ 8 := fun x => Nat.and_two_pow_sub_one_eq_mod x 8
  have top : ∀ x : Nat, x &&& 0x80 = x / 2 ^ 7 % 2 * 2 ^ 7 := fun x => by
    rw [← Nat.toNat_testBit]; exact Nat.and_two_pow x 7
  cases en with
  | true =>
    have split : v &&& 0x80FF00FF = ((v / 2 ^ 16 / 2 ^ 8 &&& 0x80) * 2 ^ 8 + (v / 2 ^ 16 % 2 ^ 8 &&& 0xFF)) * 2 ^ 16 + (v % 2 ^ 16 &&& 0xFF) := by
      rw [and_split v _ 16, and_split (v / 2 ^ 16) _ 8]
      rfl
    simp only [if_true, split, byte, top, bits]
    omega
  | false =>
    have split : v &&& 0x00FF00FF = (v / 2 ^ 16 &&& 0xFF) * 2 ^ 16 + (v % 2 ^ 16 &&& 0xFF) := and_split v _ 16
    simp only [Bool.false_eq_true, if_false, split, byte, bits]
    omega

/-! ### What is written -/

/-- The registers of a block that MTS can write and that all its streams share. -/
def sharedRegs : List Nat := [0x010, 0x011, 0x012, 0x014, 0x015, 0x020, 0x021, 0x022, 0x023, 0x024, 0x160, 0x161, 0x162, 0x163, 0x187, 0x18A]

/-- The registers of a block that MTS can write: those and the stream's resume point, TRAPPC and TRAPAUX. -/
def settable : List Nat := 0x188 :: 0x189 :: sharedRegs

theorem settable_cases (hn : n ∈ settable) : n = 0x188 ∨ n = 0x189 ∨ n ∈ sharedRegs := by simpa [settable] using hn

theorem mem_settable {k : Kind} (block : k ≠ .Y) (assigned : (regInfo n).isSome = true) (right : regTrap n true k = none) (own : isBlockReg n = true) :
    n ∈ settable := by
  have table : ∀ n < 0x192, (regInfo n).isSome = true → isBlockReg n = true → ∀ k ∈ [Kind.T, .V, .S, .K], regTrap n true k = none → n ∈ settable := by
    decide +kernel
  exact table n (regInfo_lt assigned) assigned own k (by cases k <;> simp_all) right

/-- The bits of a register that a write keeps: HOPCTL's read-only ones (R80). -/
def keptBits (n : Nat) : Nat := if n = 0x010 then 0x70000000 else 0

/-- HOPCTL takes its writable bits and keeps the others. -/
theorem hopctl_written (b : Block) (t v : Nat) :
    blockReg (setBlockReg b t 0x010 v) t 0x010 = (blockReg b t 0x010 &&& keptBits 0x010) ||| (v &&& Claims.blockMask b 0x010) := by
  have mask : Claims.blockMask b 0x010 = if !b.vpref.getLsbD 2 then 0x80FF00FF else 0x00FF00FF := by
    cases pref : b.vpref.getLsbD 2 <;> simp only [Claims.blockMask, pref] <;> rfl
  have en : (if b.vpref.getLsbD 2 then 0 else bits v 31 31) = if !b.vpref.getLsbD 2 then bits v 31 31 else 0 := by
    cases b.vpref.getLsbD 2 <;> rfl
  have written : blockReg (setBlockReg b t 0x010 v) t 0x010 = ((b.regs.hopctl &&& 0x70000000#32) |||
      BitVec.ofNat 32 ((if b.vpref.getLsbD 2 then 0 else bits v 31 31) * 2 ^ 31 + bits v 23 16 * 2 ^ 16 + bits v 7 0)).toNat := rfl
  rw [written, en, hopctl_fields, ← mask, BitVec.toNat_or, BitVec.toNat_and]
  have small : (v &&& Claims.blockMask b 0x010) < 2 ^ 32 := Nat.and_lt_two_pow _ (by rw [mask]; split <;> decide)
  rw [BitVec.toNat_ofNat (v &&& Claims.blockMask b 0x010), Nat.mod_eq_of_lt small]
  rfl

/-! ### The resume points (R420) -/

/-- A thread's TRAPPC written; captured operands go unless it is the same (R104). -/
def Thread.toTrapPc (pc : VAddr) (x : Thread) : Thread := { x with trapPc := pc, capt := if x.handler && x.trapPc != pc then [] else x.capt }
/-- A control stream's TRAPPC written. -/
def Ctl.toTrapPc (pc : VAddr) (x : Ctl) : Ctl := { x with trapPc := pc, capt := if x.handler && x.trapPc != pc then [] else x.capt }

theorem setBlockReg_trapPc (b : Block) (t v : Nat) : setBlockReg b t 0x188 v =
    if b.exec.model == .threaded then b.modThreads [t] fun _ => Thread.toTrapPc (BitVec.ofNat 57 v) else b.modCtl (Ctl.toTrapPc (BitVec.ofNat 57 v)) := rfl
theorem setBlockReg_trapAux (b : Block) (t v : Nat) : setBlockReg b t 0x189 v =
    if b.exec.model == .threaded then b.modThreads [t] fun _ x => { x with trapAux := BitVec.ofNat 64 v }
      else b.modCtl fun x => { x with trapAux := BitVec.ofNat 64 v } := rfl

theorem trapPc_written (thread : b.exec.model = .threaded → t < b.exec.threads.length) : blockReg (setBlockReg b t 0x188 v) t 0x188 = v &&& (2 ^ 57 - 1) := by
  rw [← toNat_ofNat_mask, setBlockReg_trapPc]
  by_cases threaded : b.exec.model = .threaded
  · have written := threadOf_modThreads b [t] (fun _ => Thread.toTrapPc (BitVec.ofNat 57 v)) t
    rw [if_pos ⟨List.mem_singleton_self t, thread threaded⟩] at written
    simp only [blockReg, trapPcOf, threaded, beq_self_eq_true, if_true, Block.modThreads_exec, written, Thread.toTrapPc]
  · simp [blockReg, trapPcOf, threaded, Ctl.toTrapPc]

theorem trapAux_written (thread : b.exec.model = .threaded → t < b.exec.threads.length) : blockReg (setBlockReg b t 0x189 v) t 0x189 = v &&& (2 ^ 64 - 1) := by
  rw [← toNat_ofNat_mask, setBlockReg_trapAux]
  by_cases threaded : b.exec.model = .threaded
  · have written := threadOf_modThreads b [t] (fun _ x => { x with trapAux := BitVec.ofNat 64 v }) t
    rw [if_pos ⟨List.mem_singleton_self t, thread threaded⟩] at written
    simp only [blockReg, trapAuxOf, threaded, beq_self_eq_true, if_true, Block.modThreads_exec, written]
  · simp [blockReg, trapAuxOf, threaded]

/-! ### All registers -/

/-- A write is to a register or to a resume point, never to data; no thread comes or goes. -/
structure Block.Set (b b' : Block) : Prop where
  mem : b'.mem = b.mem
  model : b'.exec.model = b.exec.model
  count : b'.exec.threads.length = b.exec.threads.length

/-- A write to a register that the streams share is a write to the block's registers. -/
theorem setBlockReg_regs (hn : n ∈ sharedRegs) (b : Block) (t v : Nat) : setBlockReg b t n v = { b with regs := (setBlockReg b t n v).regs } := by
  simp only [sharedRegs, List.mem_cons, List.not_mem_nil, or_false] at hn
  rcases hn with rfl | rfl | rfl | rfl | rfl | rfl | rfl | rfl | rfl | rfl | rfl | rfl | rfl | rfl | rfl | rfl
  all_goals rfl

theorem setBlockReg_set (hn : n ∈ settable) (b : Block) (t v : Nat) : b.Set (setBlockReg b t n v) := by
  obtain rfl | rfl | shared := settable_cases hn
  · rw [setBlockReg_trapPc]
    split
    · exact ⟨rfl, rfl, Block.modThreads_length ..⟩
    · exact ⟨rfl, rfl, rfl⟩
  · rw [setBlockReg_trapAux]
    split
    · exact ⟨rfl, rfl, Block.modThreads_length ..⟩
    · exact ⟨rfl, rfl, rfl⟩
  · rw [setBlockReg_regs shared]
    exact ⟨rfl, rfl, rfl⟩

/-- Of every shared register but HOPCTL a write sets all the bits that hold anything. -/
theorem shared_written (hn : n ∈ sharedRegs) (other : n ≠ 0x010) : blockReg (setBlockReg b t n v) t n = v &&& Claims.blockMask b n := by
  simp only [sharedRegs, List.mem_cons, List.not_mem_nil, or_false] at hn
  rcases hn with rfl | rfl | rfl | rfl | rfl | rfl | rfl | rfl | rfl | rfl | rfl | rfl | rfl | rfl | rfl | rfl
  · exact absurd rfl other
  · exact toNat_ofNat_mask 16 v
  · exact toNat_ofNat_mask 57 v
  · exact (Nat.mod_eq_of_lt (by omega)).trans (Nat.and_two_pow_sub_one_eq_mod v 7).symm
  · exact (toNat_ofNat_and 0x5F#32 (v % 128)).trans (toNat_ofNat_and 0x5F#7 v)
  · exact toNat_ofNat_mask 57 v
  · exact toNat_ofNat_and 0xFFF0FFFF#32 v
  · exact toNat_ofNat_mask 57 v
  · exact toNat_ofNat_mask 32 v
  · exact toNat_ofNat_mask 32 v
  · exact toNat_ofNat_and 0xC0FFFFFF#32 v
  · exact toNat_ofNat_aligned (j := 6) (w := 57) (by decide) v
  · exact toNat_ofNat_mask 20 v
  · exact toNat_ofNat_mask 20 v
  · exact toNat_ofNat_mask 64 v
  · exact toNat_ofNat_mask 3 v

theorem written_bits (hn : n ∈ settable) (other : n ≠ 0x010) (thread : b.exec.model = .threaded → n = 0x188 ∨ n = 0x189 → t < b.exec.threads.length) :
    blockReg (setBlockReg b t n v) t n = v &&& Claims.blockMask b n := by
  obtain rfl | rfl | shared := settable_cases hn
  · exact trapPc_written fun threaded => thread threaded (.inl rfl)
  · exact trapAux_written fun threaded => thread threaded (.inr rfl)
  · exact shared_written shared other

/-- A write to a resume point leaves the shared registers. -/
theorem setBlockReg_resume (hn : n = 0x188 ∨ n = 0x189) (b : Block) (t v : Nat) :
    (setBlockReg b t n v).regs = b.regs ∧ (setBlockReg b t n v).asid = b.asid := by
  obtain rfl | rfl := hn
  · rw [setBlockReg_trapPc]; split <;> exact ⟨rfl, rfl⟩
  · rw [setBlockReg_trapAux]; split <;> exact ⟨rfl, rfl⟩

theorem trapAuxOf_setBlockReg_trapPc (b : Block) (t v x : Nat) : trapAuxOf (setBlockReg b t 0x188 v) x = trapAuxOf b x := by
  rw [setBlockReg_trapPc]
  split
  · have same := Block.ThreadsSame.modThreads (g := Thread.trapAux) b [t] (fun _ => Thread.toTrapPc (BitVec.ofNat 57 v)) (fun _ _ => rfl) x
    simp only [trapAuxOf, same]; rfl
  · rfl

theorem trapPcOf_setBlockReg_trapAux (b : Block) (t v x : Nat) : trapPcOf (setBlockReg b t 0x189 v) x = trapPcOf b x := by
  rw [setBlockReg_trapAux]
  split
  · have same := Block.ThreadsSame.modThreads (g := Thread.trapPc) b [t] (fun _ x => { x with trapAux := BitVec.ofNat 64 v }) (fun _ _ => rfl) x
    simp only [trapPcOf, same]; rfl
  · rfl

/-- MTS changes no other register of the block. -/
theorem blockReg_setBlockReg_ne (hn : n ∈ settable) {m : Nat} (other : m ≠ n) (x : Nat) : blockReg (setBlockReg b t n v) x m = blockReg b x m := by
  obtain rfl | rfl | shared := settable_cases hn
  · obtain ⟨regs, asid⟩ := setBlockReg_resume (.inl rfl) b t v
    unfold blockReg
    rw [regs, asid, trapAuxOf_setBlockReg_trapPc]
    split <;> first | rfl | exact absurd rfl other
  · obtain ⟨regs, asid⟩ := setBlockReg_resume (.inr rfl) b t v
    unfold blockReg
    rw [regs, asid, trapPcOf_setBlockReg_trapAux]
    split <;> first | rfl | exact absurd rfl other
  · simp only [sharedRegs, List.mem_cons, List.not_mem_nil, or_false] at shared
    rcases shared with rfl | rfl | rfl | rfl | rfl | rfl | rfl | rfl | rfl | rfl | rfl | rfl | rfl | rfl | rfl | rfl
    all_goals
      unfold blockReg
      split <;> first | rfl | exact absurd rfl other

end Sys2Proof.Machine
end

/-! ### MTS of a block's register, from entering to going on (R258, R259) -/
section
namespace Sys2Proof.Machine

variable {s t : State} {cx : Cx} {d : Dec} {b : Block} {c sl l n : Nat} {who : List Nat} {e : Nat → Latch}

/-! ### Where the streams stand -/

/-- Threads that complete stand at the next instruction. -/
theorem Block.completeThreads_pc (b : Block) (who : List Nat) (tr : Bool) (e : Nat → Latch) (nx : VAddr) (cycle : Nat) (hl : l ∈ who)
    (there : l < b.exec.threads.length) : (threadOf ((who.foldl (fun b t => b.completeThread t tr (e t) nx) b).settleAll cycle) l).pc = nx := by
  rw [(Block.Onward.settleAll (acts := []) _ cycle).pc l (by simp)]
  induction who generalizing b with
  | nil => cases hl
  | cons t r ih =>
    by_cases later : l ∈ r
    · exact ih _ later (lt_of_lt_of_eq there (Block.modThreads_length ..).symm)
    · obtain rfl : l = t := (List.mem_cons.mp hl).resolve_right later
      have rest := Block.Onward.foldl (acts := r) (fun (b : Block) (t : Nat) => b.completeThread t tr (e t) nx) r
        (fun b t ht => .modThreads b [t] (fun _ x => x.complete tr (e t) nx) (fun _ _ => rfl) (fun _ _ => .inr rfl) fun j hj hn =>
          absurd (List.mem_singleton.mp hj ▸ ht) hn) (b.completeThread l tr (e l) nx)
      have completed : (threadOf (b.completeThread l tr (e l) nx) l).pc = nx := by
        refine (congrArg Thread.pc (threadOf_modThreads b [l] (fun _ x => x.complete tr (e l) nx) l)).trans ?_
        rw [if_pos ⟨List.mem_singleton_self l, there⟩]
        rfl
      exact (rest.pc l later).trans completed

/-- A stream's block is threaded when the stream is a bundle of it. -/
theorem cxOf_model (h : cxOf s = some cx) (hb : cx.blk s = some b) : (b.exec.model == .threaded) = cx.isT := by
  obtain ⟨c, sl, n, b0, u, -, hb0, threaded, -, rfl⟩ | ⟨c, sl, b0, -, hb0, other, rfl⟩ | ⟨c, -, rfl⟩ | ⟨n, -, rfl⟩ := cxOf_cases h
  · obtain rfl := Option.some.inj (hb0.symm.trans hb)
    simp [threaded, Cx.isT]
  · obtain rfl := Option.some.inj (hb0.symm.trans hb)
    cases model : b0.exec.model <;> simp_all [Cx.isT, Model.kind]
  · cases hb
  · cases hb

/-- A thread that acts is one of its block's. -/
theorem Enters.thread_lt {rs : List (Nat × List Nat)} (h : Enters s cx d rs) (hT : cx.isT = true) (hb : cx.blk s = some b) {r : Nat × List Nat}
    (hr : r ∈ rs) : r.1 < b.exec.threads.length := by
  have lane := (h.lane_of hr).1
  simp only [Cx.lanes, hT, if_true] at lane
  obtain ⟨c, sl, n, b0, u, -, hb0, -, -, rfl⟩ | ⟨c, sl, b0, -, -, other, rfl⟩ | ⟨c, -, rfl⟩ | ⟨n, -, rfl⟩ := cxOf_cases h.here
  · obtain rfl := Option.some.inj (hb0.symm.trans hb)
    have live := (List.mem_filter.mp (mem_sortBy.mp lane)).2
    by_contra outside
    simp [threadOf, List.getElem?_eq_none (Nat.le_of_not_lt outside)] at live
  · cases model : b0.exec.model <;> simp_all [Cx.isT, Model.kind]
  · cases hT
  · cases hT

/-- Streams that complete stand at the next instruction. -/
theorem Cx.finish_pcOf (goes : (fallNext cx.line cx.pc d.len).2 = false) (placed : cx.Placed s)
    (model : ∀ b, cx.blk s = some b → (b.exec.model == .threaded) = cx.isT) (there : cx.isT = true → ∀ b, cx.blk s = some b → l < b.exec.threads.length)
    (hl : l ∈ who) : cx.pcOf (cx.finish s d who e) l = cx.next d := by
  have some_ : who ≠ [] := List.ne_nil_of_mem hl
  cases hT : cx.isT with
  | true =>
    obtain ⟨c, sl, b, hid, hb⟩ := placed.block (.inl (by simpa [Cx.isT] using hT))
    have own : cx.blk s = some b := by simpa [Cx.blk, hid] using hb
    have hr : cx.retire s = s := by simp [Cx.retire, hid]
    have run : cx.finish s d who e = modBlock s c sl fun b =>
        (who.foldl (fun b t => b.completeThread t d.transparent (e t) (cx.next d)) b).settleAll s.cycle := by
      simp only [Cx.finish, List.isEmpty_eq_false_iff.mpr some_, goes, hid, hT, hr, Bool.false_eq_true, if_false, if_true]
      rfl
    have threaded := (Block.SameSys.completeThreads b who d.transparent e (cx.next d) s.cycle).model
    simp only [Cx.pcOf, hid, run, blockOf_modBlock_self, hb, Option.map_some, Option.getD_some, Block.pcOf, threaded, model b own, hT, if_true]
    exact b.completeThreads_pc who _ e _ _ hl (there hT b own)
  | false =>
    obtain ⟨k, here⟩ := placed.ctl_some
    have ctl := Cx.finish_ctl (e := e) hT some_ goes here
    have pc : (cx.ctl (cx.finish s d who e)).pc = cx.next d := by rw [ctl]; rfl
    obtain ⟨k', here'⟩ := (placed.keep (cx.finish_keeps s d who e goes).2).ctl_some
    rw [Cx.ctl, here'] at pc
    cases hid : cx.id with
    | blk c sl =>
      obtain ⟨b, hb⟩ := Option.isSome_iff_exists.mp (placed.blk_isSome hid)
      obtain ⟨b', hb', same⟩ := Cx.finish_sameSys hb who e goes
      simp only [Cx.blk, hid] at hb'
      rw [hid, ctlOf, hb'] at here'
      cases here'
      have control : (b'.exec.model == .threaded) = false := by rw [same.model, model b hb, hT]
      simpa only [Cx.pcOf, hid, hb', Block.pcOf, control, Option.map_some, Option.getD_some, Bool.false_eq_true, if_false] using pc
    | sup c => rw [hid] at here'; simpa [Cx.pcOf, hid, here'] using pc
    | sys y => rw [hid] at here'; simpa [Cx.pcOf, hid, here'] using pc

/-! ### Any block, the stream's own or another -/

/-- A block after the issue. -/
theorem Cx.SameSys.blockOf (h : cx.SameSys s t) (hb : blockOf s c sl = some b) : ∃ b', Machine.blockOf t c sl = some b' ∧ b.SameSys b' := by
  by_cases own : cx.id = .blk c sl
  · obtain ⟨b', hb', same⟩ := h.block b (by simpa [Cx.blk, own] using hb)
    exact ⟨b', by simpa [Cx.blk, own] using hb', same⟩
  · exact ⟨b, (h.keeps.blocks c sl own).trans hb, .refl b⟩

/-- A block after the completion. -/
theorem Cx.finish_block (hb : blockOf s c sl = some b) (who : List Nat) (e : Nat → Latch) (goes : (fallNext cx.line cx.pc d.len).2 = false) :
    ∃ b', blockOf (cx.finish s d who e) c sl = some b' ∧ b.SameSys b' := by
  by_cases own : cx.id = .blk c sl
  · obtain ⟨b', hb', same⟩ := Cx.finish_sameSys (by simpa [Cx.blk, own] using hb) who e goes
    exact ⟨b', by simpa [Cx.blk, own] using hb', same⟩
  · exact ⟨b, ((cx.finish_keeps s d who e goes).2.blocks c sl own).trans hb, .refl b⟩

/-! ### The write -/

/-- What decoding says of an MTS. -/
theorem mtsDec_legal {o : KOp} (h : cx.decodeTrap s (Claims.mtsDec cx o) = none) :
    regTrap (regNum o) true cx.kind = none ∧ (regInfo (regNum o)).isSome = true := by
  obtain ⟨right, ok, -, -⟩ := Cx.decodeTrap_none h
  simp only [Claims.mtsDec, Cx.regOkFields, Bool.and_eq_true] at ok
  exact ⟨right, ok.1.1.1.2⟩

/-- The block of a register is the stream's own or SVTGT's, and the register is a block's. -/
theorem Cx.regSite_block {tt : Option Nat} (placed : cx.Placed s) (found : cx.regSite s n = .ok (some (c, sl, tt))) :
    isBlockReg n = true ∧ cx.kind ≠ .Y ∧ ∀ d sm, cx.id = .blk d sm → (d, sm) = (c, sl) := by
  obtain ⟨d, sm, hid, site⟩ | ⟨d, hid, -, site⟩ | ⟨d, b, x, hid, own, -, -⟩ | ⟨y, hid, site⟩ := Cx.regSite_cases found
  · cases own : isBlockReg n with
    | false => simp [own] at site
    | true =>
      simp only [own, if_true, Option.some.injEq, Prod.mk.injEq] at site
      refine ⟨rfl, (placed.user hid).2, fun d' sm' hid' => ?_⟩
      rw [hid] at hid'
      cases hid'
      rw [site.1, site.2.1]
  · cases site
  · refine ⟨own, fun kind => ?_, fun d' sm' hid' => ?_⟩
    · obtain ⟨y, e⟩ := placed.sys kind
      rw [hid] at e
      cases e
    · rw [hid] at hid'
      cases hid'
  · cases site

theorem Cx.Placed.modBlock (h : cx.Placed s) (c sl : Nat) (f : Block → Block) : cx.Placed (Machine.modBlock s c sl f) := by
  refine ⟨fun kind => ?_, h.sup, h.sys⟩
  obtain ⟨d, sm, b, hid, hb⟩ := h.block kind
  by_cases here : c = d ∧ sl = sm
  · obtain ⟨rfl, rfl⟩ := here
    exact ⟨c, sl, f b, hid, by simp [hb]⟩
  · exact ⟨d, sm, b, hid, (blockOf_modBlock_ne s f here).trans hb⟩

/-- What an MTS to a block's register does to it. -/
structure MtsBlock (cx : Cx) (o : KOp) (s t : State) (c sl lane v : Nat) (b b' : Block) : Prop where
  block : blockOf t c sl = some b'
  mem : t.mem = s.mem
  data : b'.mem = b.mem
  written : blockReg b' lane (regNum o) = (blockReg b lane (regNum o) &&& keptBits (regNum o)) ||| (v &&& Claims.blockMask b (regNum o))
  others : ∀ m x, m ≠ regNum o → blockReg b' x m = blockReg b x m
  blocks : ∀ d sm, (d, sm) ≠ (c, sl) → blockOf t d sm = blockOf s d sm

theorem setBlockReg_written (hn : n ∈ settable) (thread : b.exec.model = .threaded → n = 0x188 ∨ n = 0x189 → l < b.exec.threads.length) (v : Nat) :
    blockReg (setBlockReg b l n v) l n = (blockReg b l n &&& keptBits n) ||| (v &&& Claims.blockMask b n) := by
  by_cases hop : n = 0x010
  · subst hop; exact hopctl_written b l v
  · rw [written_bits hn hop thread, keptBits, if_neg hop, Nat.and_zero, Nat.zero_or]

/-- MTS of a block's register, from every stream that reaches it. -/
theorem mts_block {o : KOp} {r : Nat × List Nat} {rest : List (Nat × List Nat)} {tt : Option Nat} (h : Enters s cx (Claims.mtsDec cx o) (r :: rest))
    (found : cx.regSite s (regNum o) = .ok (some (c, sl, tt))) (hb : blockOf s c sl = some b)
    (good : ∀ x ∈ r :: rest, blockRegBad b (regNum o) (aOf x.2) = false)
    (thread : b.exec.model = .threaded → regNum o = 0x188 ∨ regNum o = 0x189 → tt.getD r.1 < b.exec.threads.length) :
    ∃ t b', exec (.mts o) s = .next t ∧ MtsBlock cx o s t c sl (tt.getD r.1) (aOf r.2) b b' ∧
      ∀ x ∈ r :: rest, cx.pcOf t x.1 = cx.next (Claims.mtsDec cx o) := by
  obtain ⟨right, assigned⟩ := mtsDec_legal h.legal
  have placed := cxOf_placed h.here
  obtain ⟨own, block, only⟩ := Cx.regSite_block placed found
  have hn := mem_settable block assigned right own
  obtain ⟨u, run, same⟩ := Cx.start_sameSys h (List.cons_ne_nil r rest)
  obtain ⟨b1, hb1, same1⟩ := same.blockOf hb
  generalize hw : modBlock u c sl (fun b => setBlockReg b (tt.getD r.1) (regNum o) (aOf r.2)) = w
  have run : exec (.mts o) s = .next (cx.finish w (Claims.mtsDec cx o) (cx.whoOf ((r :: rest).map (·.1))) fun _ => {}) := by
    have noneBad : (r :: rest).filter (fun r => blockRegBad b1 (regNum o) (aOf r.2)) = [] :=
      List.filter_eq_nil_iff.mpr fun x hx => by simp [same1.blockRegBad_eq, good x hx]
    have allGood : (r :: rest).filter (fun r => !([] : List Nat).contains r.1) = r :: rest :=
      List.filter_eq_self.mpr fun _ _ => rfl
    have noRun : regNum o ≠ 0x185 := fun e => by rw [e] at hn; exact absurd hn (by decide)
    rw [exec_mts h.here]
    simp only [Cx.mts, Cx.slotHeld_of_regSite (write := true) found fun _ => noRun, Bool.and_true]
    refine congrArg Host.Outcome.next ((run _).trans ?_)
    simp only [(same.regSite_eq _).trans found, hb1, noneBad, allGood, List.map_nil, List.isEmpty_nil, if_true, hw]
    rfl
  have hbw : blockOf w c sl = some (setBlockReg b1 (tt.getD r.1) (regNum o) (aOf r.2)) := by simp [← hw, hb1]
  have set_ := setBlockReg_set hn b1 (tt.getD r.1) (aOf r.2)
  obtain ⟨b2, hb2, same2⟩ := Cx.finish_block hbw (cx.whoOf ((r :: rest).map (·.1))) (fun _ => {}) h.goes
  have keeps := (cx.finish_keeps w (Claims.mtsDec cx o) (cx.whoOf ((r :: rest).map (·.1))) (fun _ => {}) h.goes).2
  refine ⟨_, b2, run, ⟨hb2, ?_, ?_, ?_, fun m x hm => ?_, fun d sm hd => ?_⟩, fun x hx => ?_⟩
  · rw [keeps.mem_eq, ← hw, modBlock_mem, same.keeps.mem_eq]
  · rw [same2.mem, set_.mem, same1.mem]
  · have mask : Claims.blockMask b1 (regNum o) = Claims.blockMask b (regNum o) := by unfold Claims.blockMask; rw [same1.vpref]
    rw [same2.blockReg_eq, setBlockReg_written hn (by rw [same1.model, same1.count]; exact thread), same1.blockReg_eq, mask]
  · rw [same2.blockReg_eq, blockReg_setBlockReg_ne hn hm, same1.blockReg_eq]
  · have here : ¬(c = d ∧ sl = sm) := fun e => hd (by rw [e.1, e.2])
    have notOwn : cx.id ≠ .blk d sm := fun e => hd (only d sm e)
    rw [keeps.blocks d sm notOwn, ← hw, blockOf_modBlock_ne _ _ here, same.keeps.blocks d sm notOwn]
  · have model : ∀ b', cx.blk w = some b' → (b'.exec.model == .threaded) = cx.isT ∧
        ∃ b0, cx.blk s = some b0 ∧ b'.exec.threads.length = b0.exec.threads.length :=
      fun b' hb' => by
        obtain ⟨d, sm, hid, here⟩ := Cx.blk_place hb'
        obtain ⟨rfl, rfl⟩ := Prod.mk.inj (only d sm hid)
        obtain rfl := Option.some.inj (hbw.symm.trans here)
        have own : cx.blk s = some b := by simpa [Cx.blk, hid] using hb
        exact ⟨by rw [set_.model, same1.model, cxOf_model h.here own], b, own, by rw [set_.count, same1.count]⟩
    refine Cx.finish_pcOf h.goes (hw ▸ (placed.keep same.keeps).modBlock c sl _) (fun b' hb' => (model b' hb').1) (fun hT b' hb' => ?_) ?_
    · obtain ⟨-, b0, hb0, count⟩ := model b' hb'
      rw [count]
      exact h.thread_lt hT hb0 hx
    · cases hT : cx.isT with
      | true => simpa only [Cx.whoOf, hT, if_true] using List.mem_map_of_mem (f := (·.1)) hx
      | false => simpa [Cx.whoOf, hT] using h.lane_zero hT rfl x hx

end Sys2Proof.Machine
end

/-! ## MTS of a register of a core or a system core (R124, R259, R401, R411, R415, R420, R421) -/
section
namespace Sys2Proof.Machine

/-! ### What a place's registers are read from -/

/-- What the registers that are no block's are read from at a place. -/
structure PlaceView where
  ewt : Nat → Nat
  svtgt : BitVec 3
  svevt : BitVec 32
  svarg : Nat
  asidtb : BitVec 52
  asid : W16
  intr : Intr
  dtsel : BitVec 7
  svsel : BitVec 8
  rplctl : W32
  rplbase : BitVec 52
  rplsize : BitVec 24
  rplptr : BitVec 24
  func : Func

/-- The system core of a place; none is as an idle one. -/
def sysAt (s : State) : CtxId → SysCore
  | .sys y => sysOf s y
  | _ => {}

/-- The core of a place; a system core sees core 0. -/
def coreAt (s : State) (id : CtxId) : Core := coreOf s ((coreOfCtx id).getD 0)

/-- What a state shows of these at a place. -/
def viewOf (s : State) (id : CtxId) : PlaceView where
  ewt := ewtOf s
  svtgt := (coreAt s id).svtgt
  svevt := (coreAt s id).svevt
  svarg := ((blockOf s ((coreOfCtx id).getD 0) (coreAt s id).svtgt.toNat).map fun b => b.svarg.toNat).getD 0
  asidtb := s.iod.asidtb
  asid := ((ctlOf s id).getD {}).asid
  intr := ((ctlOf s id).getD {}).intr
  dtsel := (sysAt s id).dtsel
  svsel := (sysAt s id).svsel
  rplctl := (sysAt s id).rplctl
  rplbase := (sysAt s id).rplbase
  rplsize := (sysAt s id).rplsize
  rplptr := (sysAt s id).rplptr
  func := funcOf s (sysAt s id).dtsel.toNat

/-- A register by its number. -/
def PlaceView.reg (p : PlaceView) (id : CtxId) (n : Nat) : Nat :=
  if 0x140 ≤ n && n < 0x160 then p.ewt (n - 0x140) else
  match n with
  | 0x000 => match id with
    | .sys m => locidOfSys m
    | _ => locidOfCore ((coreOfCtx id).getD 0)
  | 0x030 => p.svtgt.toNat
  | 0x100 => p.asidtb.toNat
  | 0x101 => p.asid.toNat
  | 0x110 => p.dtsel.toNat
  | 0x111 => p.func.dtbase.toNat
  | 0x112 => p.func.dtpfn.toNat
  | 0x113 => p.func.dtcnt.toNat
  | 0x114 => if p.func.dten then 1 else 0
  | 0x170 => p.rplctl.toNat
  | 0x171 => p.rplbase.toNat
  | 0x172 => p.rplsize.toNat
  | 0x173 => p.rplptr.toNat
  | 0x180 => p.intr.intvec.toNat
  | 0x181 => p.intr.inten.toNat
  | 0x182 => p.intr.intpend.toNat
  | 0x183 => p.intr.intpc.toNat
  | 0x184 => p.intr.intcause.toNat
  | 0x186 => p.svarg
  | 0x18B => p.svevt.toNat
  | 0x190 => p.svsel.toNat
  | _ => 0

theorem placeReg_eq (s : State) (id : CtxId) (n : Nat) : placeReg s id n = (viewOf s id).reg id n := by
  cases id <;> rfl

/-! ### Plain registers: a write to each changes one field -/

/-- The registers of a core or a system core whose write changes nothing else that is read. -/
def plainRegs : List Nat :=
  [0x100, 0x101, 0x111, 0x112, 0x113, 0x170, 0x171, 0x172, 0x173, 0x180, 0x181, 0x182, 0x183, 0x184, 0x190]

/-- A plain register written. -/
def PlaceView.set (p : PlaceView) (n v : Nat) : PlaceView :=
  match n with
  | 0x100 => { p with asidtb := BitVec.ofNat 52 v }
  | 0x101 => { p with asid := BitVec.ofNat 16 v }
  | 0x111 => { p with func := { p.func with dtbase := BitVec.ofNat 52 (v / 8 * 8) } }
  | 0x112 => { p with func := { p.func with dtpfn := BitVec.ofNat 36 v } }
  | 0x113 => { p with func := { p.func with dtcnt := BitVec.ofNat 21 v } }
  | 0x170 => { p with rplctl := BitVec.ofNat 32 v &&& 0xF0000000#32 }
  | 0x171 => { p with rplbase := BitVec.ofNat 52 (v / 32 * 32) }
  | 0x172 => { p with rplsize := BitVec.ofNat 24 v }
  | 0x173 => { p with rplptr := BitVec.ofNat 24 v }
  | 0x180 => { p with intr := { p.intr with intvec := BitVec.ofNat 57 v } }
  | 0x181 => { p with intr := { p.intr with inten := BitVec.ofNat 16 v } }
  | 0x182 => { p with intr := { p.intr with intpend := p.intr.intpend &&& ~~~(BitVec.ofNat 16 v &&& 0x0010#16) } }
  | 0x183 => { p with intr := { p.intr with intpc := BitVec.ofNat 57 v } }
  | 0x184 => { p with intr := { p.intr with intcause := BitVec.ofNat 32 v &&& 0xFFF0FFFF#32 } }
  | 0x190 => { p with svsel := BitVec.ofNat 8 v }
  | _ => p

variable {s t : State} {id : CtxId} {cx : Cx} {n v y c : Nat}

theorem PlaceView.reg_set_ne (p : PlaceView) (hn : n ∈ plainRegs) {m : Nat} (other : m ≠ n) : (p.set n v).reg id m = p.reg id m := by
  simp only [plainRegs, List.mem_cons, List.not_mem_nil, or_false] at hn
  unfold reg
  rcases hn with rfl | rfl | rfl | rfl | rfl | rfl | rfl | rfl | rfl | rfl | rfl | rfl | rfl | rfl | rfl
  all_goals
    split
    · rfl
    · split <;> first | rfl | exact absurd rfl other

theorem PlaceView.reg_set (p : PlaceView) (hn : n ∈ plainRegs) {mask : Nat} (hm : Claims.placeMask n = some mask) :
    (p.set n v).reg id n = v &&& mask := by
  simp only [plainRegs, List.mem_cons, List.not_mem_nil, or_false] at hn
  rcases hn with rfl | rfl | rfl | rfl | rfl | rfl | rfl | rfl | rfl | rfl | rfl | rfl | rfl | rfl | rfl
  all_goals cases hm
  · exact toNat_ofNat_mask 52 v
  · exact toNat_ofNat_mask 16 v
  · exact toNat_ofNat_aligned (j := 3) (w := 52) (by decide) v
  · exact toNat_ofNat_mask 36 v
  · exact toNat_ofNat_mask 21 v
  · exact toNat_ofNat_and 0xF0000000#32 v
  · exact toNat_ofNat_aligned (j := 5) (w := 52) (by decide) v
  · exact toNat_ofNat_mask 24 v
  · exact toNat_ofNat_mask 24 v
  · exact toNat_ofNat_mask 57 v
  · exact toNat_ofNat_mask 16 v
  · exact toNat_ofNat_mask 57 v
  · exact toNat_ofNat_and 0xFFF0FFFF#32 v
  · exact toNat_ofNat_mask 8 v

/-- INTPEND loses the software interrupt where the operand's bit 4 is set (R420). -/
theorem PlaceView.reg_set_intpend (p : PlaceView) : (p.set 0x182 v).reg id 0x182 = p.reg id 0x182 &&& (0xFFFF ^^^ (v &&& 0x10)) := by
  have clear : (~~~(BitVec.ofNat 16 v &&& 0x0010#16)).toNat = 0xFFFF ^^^ (v &&& 0x10) := by
    rw [BitVec.not_def, BitVec.toNat_xor, toNat_ofNat_and]; rfl
  exact (BitVec.toNat_and ..).trans (by rw [clear]; rfl)

end Sys2Proof.Machine
end

/-! ### The view of a place under the operations of the state -/
section
namespace Sys2Proof.Machine

variable {s t : State} {id : CtxId} {cx : Cx} {d : Dec} {n v y c : Nat}

/-- A change of the control context of supervisor code or of a system core. -/
theorem viewOf_modCtl (control : ∀ c sl, id ≠ .blk c sl) (f : Ctl → Ctl) :
    viewOf (modCtl s id f) id = { viewOf s id with asid := (f ((ctlOf s id).getD {})).asid, intr := (f ((ctlOf s id).getD {})).intr } := by
  cases id with
  | blk c sl => exact absurd rfl (control c sl)
  | sup c => simp [viewOf, coreAt, sysAt, coreOfCtx, ctlOf, modCtl, blockOf, funcOf]; rfl
  | sys y => simp [viewOf, coreAt, sysAt, ctlOf, modCtl, funcOf]; rfl

/-- A change of a system core's own registers. -/
theorem viewOf_modSys (f : SysCore → SysCore) (ctl : (f (sysOf s y)).ctl = (sysOf s y).ctl) :
    viewOf (modSys s y f) (.sys y) = { viewOf s (.sys y) with
      dtsel := (f (sysOf s y)).dtsel, svsel := (f (sysOf s y)).svsel, rplctl := (f (sysOf s y)).rplctl, rplbase := (f (sysOf s y)).rplbase,
      rplsize := (f (sysOf s y)).rplsize, rplptr := (f (sysOf s y)).rplptr, func := funcOf s (f (sysOf s y)).dtsel.toNat } := by
  simp [viewOf, coreAt, sysAt, ctlOf, funcOf, ctl]; rfl

theorem funcOf_modFunc_self (f : Nat) (g : Func → Func) : funcOf (modFunc s f g) f = g (funcOf s f) := by
  simp [funcOf, modFunc, modIod]

/-- A change of the virtual function that DTSEL names. -/
theorem viewOf_modFunc (g : Func → Func) : viewOf (modFunc s (sysOf s y).dtsel.toNat g) (.sys y) =
    { viewOf s (.sys y) with func := g (funcOf s (sysOf s y).dtsel.toNat) } :=
  congrArg (fun u => { viewOf s (.sys y) with func := u }) (funcOf_modFunc_self _ g)

/-- The completion of an instruction of supervisor code or of a system core. -/
theorem Cx.finish_view (control : ∀ c sl, cx.id ≠ .blk c sl) (who : List Nat) (e : Nat → Latch) (goes : (fallNext cx.line cx.pc d.len).2 = false) :
    viewOf (cx.finish s d who e) cx.id = viewOf s cx.id := by
  by_cases none : who = []
  · simp [Cx.finish, none]
  · simp only [Cx.finish, List.isEmpty_eq_false_iff.mpr none, goes, Bool.false_eq_true, if_false]
    cases hid : cx.id with
    | blk c sl => exact absurd hid (control c sl)
    | sup c =>
      rw [Cx.retire, hid]
      exact viewOf_modCtl (by simp) _
    | sys y =>
      rw [Cx.retire, hid]
      exact (viewOf_modCtl (by simp) _).trans (by rw [viewOf_modSys _ rfl]; simp [ctlOf]; rfl)

end Sys2Proof.Machine
end

/-! ### Writes to the registers of a place -/
section
namespace Sys2Proof.Machine

variable {s t : State} {id : CtxId} {cx : Cx} {d : Dec} {n v y c : Nat}

/-! ### What a write does -/

/-- What a write to a register of a place does: the register takes the writable bits, or loses what is cleared, and no other changes that is
not read through it. -/
structure PlaceSet (s : State) (id : CtxId) (n v : Nat) (t : State) : Prop where
  run : setPlaceReg s id n v = (s, .ok t)
  mem : t.mem = s.mem
  written : ∀ m, Claims.placeMask n = some m → placeReg t id n = v &&& m
  cleared : n = 0x182 → placeReg t id n = placeReg s id n &&& (0xFFFF ^^^ (v &&& 0x10))
  others : ∀ m, m ≠ n → ¬(n = 0x110 ∧ 0x111 ≤ m ∧ m ≤ 0x114) → ¬(n = 0x030 ∧ m = 0x186) → placeReg t id m = placeReg s id m

theorem PlaceSet.plain (hn : n ∈ plainRegs) (run : setPlaceReg s id n v = (s, .ok t)) (mem : t.mem = s.mem)
    (view : viewOf t id = (viewOf s id).set n v) : PlaceSet s id n v t := by
  refine ⟨run, mem, fun m hm => ?_, fun e => ?_, fun m hm _ _ => ?_⟩ <;> simp only [placeReg_eq, view]
  · exact PlaceView.reg_set _ hn hm
  · subst e; exact PlaceView.reg_set_intpend _
  · exact PlaceView.reg_set_ne _ hn hm

/-- The control context of a place with an interrupt register written. -/
def Ctl.written (n v : Nat) (x : Ctl) : Ctl :=
  match n with
  | 0x180 => { x with intr := { x.intr with intvec := BitVec.ofNat 57 v } }
  | 0x181 => { x with intr := { x.intr with inten := BitVec.ofNat 16 v } }
  | 0x182 => { x with intr := { x.intr with intpend := x.intr.intpend &&& ~~~(BitVec.ofNat 16 v &&& 0x0010#16) } }
  | 0x183 => { x with intr := { x.intr with intpc := BitVec.ofNat 57 v }, capt := if x.handler && x.intr.intpc != BitVec.ofNat 57 v then [] else x.capt }
  | 0x184 => { x with intr := { x.intr with intcause := BitVec.ofNat 32 v &&& 0xFFF0FFFF#32 } }
  | _ => x

/-- The interrupt registers, of supervisor code and of a system core. -/
theorem setPlaceReg_interrupt (control : ∀ c sl, id ≠ .blk c sl) (hn : n ∈ [0x180, 0x181, 0x182, 0x183, 0x184])
    (vec : n = 0x180 → v % 2 ^ 57 = 0 ∨ v % 128 = 8) : ∃ t, PlaceSet s id n v t := by
  have fits : n = 0x180 → (v % 2 ^ 57 != 0 && v % 128 != 8) = false := fun e => by
    simpa [or_iff_not_imp_left] using vec e
  have plain : n ∈ plainRegs := (by decide : ∀ k ∈ [0x180, 0x181, 0x182, 0x183, 0x184], k ∈ plainRegs) n hn
  have run : setPlaceReg s id n v = (s, .ok (modCtl s id (Ctl.written n v))) := by
    simp only [List.mem_cons, List.not_mem_nil, or_false] at hn
    cases id with
    | blk c sl => exact absurd rfl (control c sl)
    | sup c =>
      obtain rfl | rfl | rfl | rfl | rfl := hn
      · simp only [setPlaceReg, fits rfl]; rfl
      all_goals rfl
    | sys y =>
      obtain rfl | rfl | rfl | rfl | rfl := hn
      · simp only [setPlaceReg, fits rfl]; rfl
      all_goals rfl
  refine ⟨_, .plain plain run (modCtl_mem ..) ((viewOf_modCtl control _).trans ?_)⟩
  simp only [List.mem_cons, List.not_mem_nil, or_false] at hn
  obtain rfl | rfl | rfl | rfl | rfl := hn <;> rfl

/-- The plain registers of a system core. -/
theorem setPlaceReg_plain (hn : n ∈ plainRegs) (vec : n = 0x180 → v % 2 ^ 57 = 0 ∨ v % 128 = 8) (ctl : n = 0x170 → bits v 31 30 ≠ 3)
    (off : 0x111 ≤ n ∧ n ≤ 0x113 → (funcOf s (sysOf s y).dtsel.toNat).dten = false) : ∃ t, PlaceSet s (.sys y) n v t := by
  by_cases interrupt : n ∈ [0x180, 0x181, 0x182, 0x183, 0x184]
  · exact setPlaceReg_interrupt (by simp) interrupt vec
  · have rows : n ∈ [0x100, 0x101, 0x111, 0x112, 0x113, 0x170, 0x171, 0x172, 0x173, 0x190] := by
      simp only [plainRegs, List.mem_cons, List.not_mem_nil, or_false] at hn interrupt ⊢; omega
    simp only [List.mem_cons, List.not_mem_nil, or_false] at rows
    obtain rfl | rfl | rfl | rfl | rfl | rfl | rfl | rfl | rfl | rfl := rows
    · exact ⟨_, .plain hn rfl rfl rfl⟩
    · exact ⟨_, .plain hn rfl (modCtl_mem ..) ((viewOf_modCtl (by simp) _).trans rfl)⟩
    · exact ⟨_, .plain hn (by simp only [setPlaceReg, setDt, off (by omega)]; rfl) (modFunc_mem ..) (viewOf_modFunc _)⟩
    · exact ⟨_, .plain hn (by simp only [setPlaceReg, setDt, off (by omega)]; rfl) (modFunc_mem ..) (viewOf_modFunc _)⟩
    · exact ⟨_, .plain hn (by simp only [setPlaceReg, setDt, off (by omega)]; rfl) (modFunc_mem ..) (viewOf_modFunc _)⟩
    · have fits : (bits v 31 30 == 3) = false := by simp [ctl rfl]
      exact ⟨_, .plain hn (by simp only [setPlaceReg, fits]; rfl) (modSys_mem ..) (viewOf_modSys _ rfl)⟩
    · exact ⟨_, .plain hn rfl (modSys_mem ..) (viewOf_modSys _ rfl)⟩
    · exact ⟨_, .plain hn rfl (modSys_mem ..) (viewOf_modSys _ rfl)⟩
    · exact ⟨_, .plain hn rfl (modSys_mem ..) (viewOf_modSys _ rfl)⟩
    · exact ⟨_, .plain hn rfl (modSys_mem ..) (viewOf_modSys _ rfl)⟩

end Sys2Proof.Machine
end

/-! ### Writes that change more than one register that is read -/
section
namespace Sys2Proof.Machine

variable {s t u : State} {id : CtxId} {cx : Cx} {d : Dec} {n v y c sl i : Nat}

/-! ### SVTGT and DTSEL, through which others are read -/

/-- SVTGT selects the slot whose SVARG is read (R427). -/
theorem setPlaceReg_svtgt : ∃ t, PlaceSet s (.sup c) 0x030 v t := by
  have view : viewOf (modCore s c fun k => { k with svtgt := BitVec.ofNat 3 v }) (.sup c) = { viewOf s (.sup c) with
      svtgt := BitVec.ofNat 3 v, svarg := ((blockOf s c (BitVec.ofNat 3 v).toNat).map fun b => b.svarg.toNat).getD 0 } := by
    simp [viewOf, coreAt, sysAt, coreOfCtx, ctlOf, blockOf, funcOf]; rfl
  refine ⟨_, rfl, modCore_mem .., fun m hm => ?_, nofun, fun m hm _ arg => ?_⟩ <;> rw [placeReg_eq, view]
  · cases hm; exact toNat_ofNat_mask 3 v
  · rw [placeReg_eq]
    unfold PlaceView.reg
    split
    · rfl
    · split <;> first | rfl | exact absurd rfl hm | exact absurd ⟨rfl, rfl⟩ arg

/-- DTSEL selects the virtual function whose registers are read (R415). -/
theorem setPlaceReg_dtsel : ∃ t, PlaceSet s (.sys y) 0x110 v t := by
  refine ⟨_, rfl, modSys_mem .., fun m hm => ?_, nofun, fun m hm dirty _ => ?_⟩ <;> rw [placeReg_eq, viewOf_modSys _ rfl]
  · cases hm; exact toNat_ofNat_mask 7 v
  · rw [placeReg_eq]
    unfold PlaceView.reg
    split
    · rfl
    · split <;> first | rfl | exact absurd rfl hm | exact absurd ⟨rfl, by decide, by decide⟩ dirty

/-! ### The energy weights: a write flushes every block's energy -/

/-- What a flush leaves as it is. -/
structure FlushKeeps (s t : State) : Prop where
  mem : t.mem = s.mem
  view : ∀ y, viewOf t (.sys y) = viewOf s (.sys y)

theorem FlushKeeps.refl (s : State) : FlushKeeps s s := ⟨rfl, fun _ => rfl⟩

theorem FlushKeeps.trans (h : FlushKeeps s t) (h' : FlushKeeps t u) : FlushKeeps s u :=
  ⟨h'.mem.trans h.mem, fun y => (h'.view y).trans (h.view y)⟩

theorem FlushKeeps.foldl {α : Type} {f : State → α → State} (step : ∀ s x, FlushKeeps s (f s x)) (l : List α) (s : State) :
    FlushKeeps s (l.foldl f s) := by
  induction l generalizing s with
  | nil => exact .refl s
  | cons x l ih => exact (step s x).trans (ih _)

theorem FlushKeeps.modBlock (s : State) (c sl : Nat) {f : Block → Block} (svarg : ∀ b, (f b).svarg = b.svarg) :
    FlushKeeps s (modBlock s c sl f) := by
  have core : (coreOf (Machine.modBlock s c sl f) 0).svtgt = (coreOf s 0).svtgt ∧ (coreOf (Machine.modBlock s c sl f) 0).svevt = (coreOf s 0).svevt := by
    by_cases h : c = 0
    · subst h; simp
    · rw [coreOf_modBlock_ne s sl f h]; exact ⟨rfl, rfl⟩
  have arg : ∀ k, (blockOf (Machine.modBlock s c sl f) 0 k).map (fun b => b.svarg.toNat) = (blockOf s 0 k).map fun b => b.svarg.toNat := fun k => by
    by_cases h : c = 0 ∧ sl = k
    · obtain ⟨rfl, rfl⟩ := h
      simp [Function.comp_def, svarg]
    · rw [blockOf_modBlock_ne _ _ h]
  refine ⟨rfl, fun y => ?_⟩
  simp only [viewOf, coreAt, coreOfCtx, Option.getD_none, core, arg]
  rfl

theorem FlushKeeps.modIod (s : State) {f : Iod → Iod} (ewt : (f s.iod).ewt = s.iod.ewt) (asidtb : (f s.iod).asidtb = s.iod.asidtb)
    (funcs : (f s.iod).funcs = s.iod.funcs) : FlushKeeps s (modIod s f) := by
  have weights : ewtOf (Machine.modIod s f) = ewtOf s := funext fun i => by simp [ewtOf, Machine.modIod, ewt]
  have func : ∀ i, funcOf (Machine.modIod s f) i = funcOf s i := fun i => by simp [funcOf, Machine.modIod, funcs]
  refine ⟨rfl, fun y => ?_⟩
  simp only [viewOf, weights, func, show (Machine.modIod s f).iod.asidtb = s.iod.asidtb from asidtb]
  rfl

theorem flushBlock_keeps (s : State) (c sl : Nat) : FlushKeeps s (flushBlock s c sl) := by
  unfold flushBlock
  split
  · exact .refl s
  · refine .trans ?_ (.modBlock _ c sl fun _ => rfl)
    refine .trans ?_ (.modIod _ rfl rfl rfl)
    refine .trans ?_ (.modIod _ rfl rfl rfl)
    refine .trans ?_ (.modIod _ rfl rfl rfl)
    exact .foldl (fun s x => .modIod s rfl rfl rfl) _ s

/-- A weight written. -/
theorem viewOf_setEwt (known : i < 14) :
    viewOf (setEwt s i v) (.sys y) = { viewOf s (.sys y) with ewt := Function.update (ewtOf s) i (BitVec.ofNat 32 v).toNat } := by
  have flush := FlushKeeps.foldl (fun s (e : Nat × Core) => .foldl (fun s (x : Nat × Block) => flushBlock_keeps s e.1 x.1) e.2.slots s) s.cores s
  generalize hf : s.cores.foldl (fun s e => e.2.slots.foldl (fun s x => flushBlock s e.1 x.1) s) s = f at flush
  have weights : ewtOf f = ewtOf s := congrArg PlaceView.ewt (flush.view y)
  have set_ : ewtOf (setEwt s i v) = Function.update (ewtOf f) i (BitVec.ofNat 32 v).toNat := funext fun j => by
    simp only [setEwt, Nat.not_le.mpr known, if_false, hf]
    by_cases hj : j = i
    · subst hj; simp [ewtOf, modIod]
    · simp [ewtOf, modIod, Table.get?_set_ne _ _ (Ne.symm hj), hj]
  rw [← flush.view y, ← weights, ← set_]
  simp only [setEwt, Nat.not_le.mpr known, if_false, hf]
  rfl

theorem setEwt_mem (s : State) (i v : Nat) : (setEwt s i v).mem = s.mem := by
  unfold setEwt
  split
  · rfl
  · exact (FlushKeeps.foldl (fun s (e : Nat × Core) => .foldl (fun s (x : Nat × Block) => flushBlock_keeps s e.1 x.1) e.2.slots s) s.cores s).mem

/-- A weight of a system core (R411). -/
theorem setPlaceReg_weight (low : 0x140 ≤ n) (high : n < 0x14E) : ∃ t, PlaceSet s (.sys y) n v t := by
  have row : (0x140 ≤ n && n < 0x160) = true := by simp; omega
  have known : n - 0x140 < 14 := by omega
  refine ⟨setEwt s (n - 0x140) v, by simp only [setPlaceReg, row, if_true], setEwt_mem .., fun m hm => ?_, by omega, fun m hm _ _ => ?_⟩ <;>
    rw [placeReg_eq, viewOf_setEwt known]
  · obtain rfl : 2 ^ 32 - 1 = m := by simpa [Claims.placeMask, low, high] using hm
    simp only [PlaceView.reg, row, if_true, Function.update_self]
    exact toNat_ofNat_mask 32 v
  · rw [placeReg_eq]
    unfold PlaceView.reg
    split
    next other =>
      have ne : m - 0x140 ≠ n - 0x140 := by simp at other; omega
      dsimp only
      rw [Function.update_of_ne ne]; rfl
    · rfl

end Sys2Proof.Machine
end

/-! ### MTS of a register that is no block's, from entering to going on (R258, R259) -/
section
namespace Sys2Proof.Machine

variable {s t : State} {cx : Cx} {n v y c : Nat}

/-! ### Which registers each stream writes -/

/-- A register that is no block's and whose written value is pinned. -/
def pinnedReg (n : Nat) : Bool := n == 0x182 || (Claims.placeMask n).isSome

theorem block_of_user_writes {k : Kind} (user : k ≠ .K ∧ k ≠ .Y) (assigned : (regInfo n).isSome = true) (right : regTrap n true k = none) :
    isBlockReg n = true := by
  have table : ∀ n < 0x192, (regInfo n).isSome = true → ∀ k ∈ [Kind.T, .V, .S], regTrap n true k = none → isBlockReg n = true := by decide +kernel
  exact table n (regInfo_lt assigned) assigned k (by cases k <;> simp_all) right

/-- Whether a stream of a kind may write a register and its written value is pinned. -/
def mayPin (k : Kind) (n : Nat) : Bool := (regInfo n).isSome && (regTrap n true k).isNone && pinnedReg n

theorem mayPin_of_right {k : Kind} (assigned : (regInfo n).isSome = true) (right : regTrap n true k = none) (pinned : pinnedReg n = true) :
    mayPin k n = true := by
  simp [mayPin, assigned, right, pinned]

theorem mayPin_lt {k : Kind} (h : mayPin k n = true) : n < 0x192 := by
  simp only [mayPin, Bool.and_eq_true] at h
  exact regInfo_lt h.1.1

theorem supervisor_writes (may : mayPin .K n = true) (other : isBlockReg n = false) : n = 0x030 ∨ n ∈ [0x180, 0x181, 0x182, 0x183, 0x184] := by
  have table : ∀ n < 0x192, mayPin .K n = true → isBlockReg n = false → n = 0x030 ∨ n ∈ [0x180, 0x181, 0x182, 0x183, 0x184] := by decide +kernel
  exact table n (mayPin_lt may) may other

theorem system_writes (may : mayPin .Y n = true) : n ∈ plainRegs ∨ n = 0x110 ∨ 0x140 ≤ n ∧ n < 0x14E := by
  have table : ∀ n < 0x192, mayPin .Y n = true → n ∈ plainRegs ∨ n = 0x110 ∨ 0x140 ≤ n ∧ n < 0x14E := by decide +kernel
  exact table n (mayPin_lt may) may

theorem Cx.Placed.kind_sup (h : cx.Placed s) (hid : cx.id = .sup c) : cx.kind = .K := by
  cases kind : cx.kind with
  | K => rfl
  | Y => obtain ⟨y, e⟩ := h.sys kind; simp [hid] at e
  | _ => obtain ⟨d, sm, b, e, -⟩ := h.block (by simp [kind]); simp [hid] at e

theorem Cx.Placed.kind_sys (h : cx.Placed s) (hid : cx.id = .sys y) : cx.kind = .Y := by
  cases kind : cx.kind with
  | Y => rfl
  | K => obtain ⟨d, e⟩ := h.sup kind; simp [hid] at e
  | _ => obtain ⟨d, sm, b, e, -⟩ := h.block (by simp [kind]); simp [hid] at e

/-- A stream that may write a register that is no block's is supervisor code or a system core, and its write takes place. -/
theorem setPlaceReg_set (placed : cx.Placed s) (found : cx.regSite s n = .ok none) (assigned : (regInfo n).isSome = true)
    (right : regTrap n true cx.kind = none) (pinned : pinnedReg n = true) (vec : n = 0x180 → v % 2 ^ 57 = 0 ∨ v % 128 = 8)
    (ctl : n = 0x170 → bits v 31 30 ≠ 3)
    (off : 0x111 ≤ n ∧ n ≤ 0x113 → ∀ y, cx.id = .sys y → (funcOf s (sysOf s y).dtsel.toNat).dten = false) :
    (∀ c sl, cx.id ≠ .blk c sl) ∧ ∃ t, PlaceSet s cx.id n v t := by
  obtain ⟨c, sl, hid, site⟩ | ⟨c, hid, other, -⟩ | ⟨c, b, x, -, -, -, site⟩ | ⟨y, hid, -⟩ := Cx.regSite_cases found
  · simp [block_of_user_writes (placed.user hid) assigned right] at site
  · rw [placed.kind_sup hid] at right
    rw [hid]
    refine ⟨by simp, ?_⟩
    obtain rfl | interrupt := supervisor_writes (mayPin_of_right assigned right pinned) other
    · exact setPlaceReg_svtgt
    · exact setPlaceReg_interrupt (by simp) interrupt vec
  · cases site
  · rw [placed.kind_sys hid] at right
    replace off := fun h => off h y hid
    rw [hid]
    refine ⟨by simp, ?_⟩
    obtain plain | rfl | ⟨low, high⟩ := system_writes (mayPin_of_right assigned right pinned)
    · exact setPlaceReg_plain plain vec ctl off
    · exact setPlaceReg_dtsel
    · exact setPlaceReg_weight low high

/-! ### The instruction -/

/-- The completion of an instruction of supervisor code or of a system core leaves every register that a place shows. -/
theorem Cx.finish_placeReg {d : Dec} (control : ∀ c sl, cx.id ≠ .blk c sl) (who : List Nat) (e : Nat → Latch)
    (goes : (fallNext cx.line cx.pc d.len).2 = false) (m : Nat) : placeReg (cx.finish s d who e) cx.id m = placeReg s cx.id m := by
  rw [placeReg_eq, placeReg_eq, Cx.finish_view control who e goes]

theorem Cx.blk_none (control : ∀ c sl, cx.id ≠ .blk c sl) : cx.blk s = none := by
  unfold Cx.blk
  split
  next c sl hid => exact absurd hid (control c sl)
  next => rfl

/-- MTS of a register that is no block's. -/
theorem mts_place {o : KOp} {r : Nat × List Nat} (h : Enters s cx (Claims.mtsDec cx o) [r]) (found : cx.regSite s (regNum o) = .ok none)
    (vec : regNum o = 0x180 → aOf r.2 % 2 ^ 57 = 0 ∨ aOf r.2 % 128 = 8) (ctl : regNum o = 0x170 → bits (aOf r.2) 31 30 ≠ 3)
    (off : 0x111 ≤ regNum o ∧ regNum o ≤ 0x113 → ∀ y, cx.id = .sys y → (funcOf s (sysOf s y).dtsel.toNat).dten = false)
    (pinned : pinnedReg (regNum o) = true) :
    ∃ w t, PlaceSet s cx.id (regNum o) (aOf r.2) w ∧ exec (.mts o) s = .next t ∧ t.mem = w.mem ∧ cx.pcOf t 0 = cx.next (Claims.mtsDec cx o) ∧
      ∀ m, placeReg t cx.id m = placeReg w cx.id m := by
  obtain ⟨right, assigned⟩ := mtsDec_legal h.legal
  have placed := cxOf_placed h.here
  obtain ⟨control, w, set_⟩ := setPlaceReg_set placed found assigned right pinned vec ctl off
  have noRun : regNum o ≠ 0x185 := fun e => by rw [e] at pinned; exact absurd pinned (by decide)
  obtain ⟨u, run, same⟩ := Cx.start_sameSys h (List.cons_ne_nil r [])
  obtain rfl := same.noBlock control
  have run : exec (.mts o) u = .next (cx.finish w (Claims.mtsDec cx o) [0] fun _ => {}) := by
    rw [exec_mts h.here]
    simp only [Cx.mts, Cx.slotHeld_of_regSite (write := true) found fun _ => noRun, Bool.and_true]
    refine congrArg Host.Outcome.next ((run _).trans ?_)
    simp only [found, set_.run]
    rfl
  refine ⟨w, _, set_, run, (cx.finish_keeps w _ [0] _ h.goes).2.mem_eq, ?_, fun m => Cx.finish_placeReg control [0] _ h.goes m⟩
  refine Cx.finish_pcOf h.goes ?_ (fun b hb => ?_) (fun hT => ?_) (List.mem_singleton_self 0)
  · exact ⟨fun kind => absurd (placed.block kind) fun ⟨c, sl, _, hid, _⟩ => control c sl hid, placed.sup, placed.sys⟩
  · rw [Cx.blk_none control] at hb; cases hb
  · obtain ⟨c, sl, hid⟩ := cxOf_T h.here (by simpa [Cx.isT] using hT)
    exact absurd hid (control c sl)

end Sys2Proof.Machine

open Sys2Proof Sys2Proof.Machine Sys2Proof.Claims in
/-- Settles O50: what MFS gives (`mfs_loads`), the rights (`mfs_without_right`, `mts_without_right`), and MTS of a block's register
(`mts_block`) and of one of a core or a system core (`mts_place`). -/
theorem systemRegisters : Obligations.SystemRegisters := by
  unfold Obligations.SystemRegisters
  refine ⟨?_, ?_, ?_, ?_⟩
  · intro o s cx rs site n long f val enters acting found settled
    obtain ⟨t, run, loaded, regs, only, mem⟩ := mfs_loads enters acting found settled
    refine ⟨t, run, ?_, regs, only, mem⟩
    have form : f = cx.scalarForm (mfsDec cx o) (cx.isT && regWide o || !cx.isT) := by
      cases narrow : cx.isT <;> cases short : regWide o <;> simp [f, long, Cx.scalarForm, mfsDec, narrow, short]
    have value : ∀ l, (if long then val l else val l % 2 ^ 32) = cx.mfsValue s site o l := fun l => by
      split
      next wide => exact (cx.mfsValue_wide wide).symm
      next narrow => exact (cx.mfsValue_narrow narrow).symm
    rw [form]
    simpa only [value] using loaded
  · intro write o s cx c here right
    cases write with
    | true => exact mts_without_right here right
    | false => exact mfs_without_right here right
  · intro o s cx r rest c sl tt b n kept enters found hb good thread
    obtain ⟨t, b', run, set_, goes⟩ := mts_block enters found hb good thread
    exact ⟨t, b', run, set_.block, set_.mem, congrArg _ set_.data, congrArg _ set_.data, congrArg _ set_.data, set_.written, set_.others, set_.blocks, goes⟩
  · intro o s cx r n v enters found vec ctl off pinned
    obtain ⟨w, t, set_, run, mem, goes, same⟩ := mts_place enters found vec ctl off (by simpa [pinnedReg] using pinned)
    refine ⟨t, run, mem.trans set_.mem, goes, fun m hm => (same _).trans (set_.written m hm), fun e => (same _).trans (set_.cleared e), ?_⟩
    exact fun m hm dirty arg => (same m).trans (set_.others m hm dirty arg)
end

/-! ## The integer, logic, move, select and address functions (R133 to R136, R138 to R140) -/
section
namespace Sys2Proof.Machine

/-! ### The functions of three operands -/

section
variable {w : Nat} {l : List Nat} {a b c : BitVec w}

theorem madF_val (sat : Bool) (ha : aOf l = a.toNat) (hb : bOf l = b.toNat) (hc : cOf l = c.toNat) :
    madF w sat l = (if sat then Claims.sat w (a.toInt * b.toInt + c.toInt) else a * b + c).toNat := by
  rw [madF, ha, hb, hc, apply_ite BitVec.toNat]
  congr 1
  · rw [signed_toNat, signed_toNat, signed_toNat, satS, wrapNat_eq, Claims.sat]
  · rw [BitVec.toNat_add, BitVec.toNat_mul, Nat.mod_add_mod]

theorem bfxF_val (ha : aOf l = a.toNat) (hb : bOf l = b.toNat) (hc : cOf l = c.toNat) :
    bfxF w l = (if c = 0 ∨ w ≤ b.toNat then 0 else BitVec.ofNat w (a.toNat / 2 ^ b.toNat % 2 ^ min c.toNat (w - b.toNat))).toNat := by
  have zero : c = 0 ↔ c.toNat = 0 := BitVec.toNat_inj.symm
  simp only [bfxF, ha, hb, hc, zero, Bool.or_eq_true, decide_eq_true_eq, ge_iff_le]
  split
  · rfl
  · have field : a.toNat / 2 ^ b.toNat % 2 ^ min c.toNat (w - b.toNat) < 2 ^ w :=
      Nat.lt_of_le_of_lt (Nat.mod_le ..) (Nat.lt_of_le_of_lt (Nat.div_le_self ..) a.isLt)
    rw [BitVec.toNat_ofNat, Nat.mod_eq_of_lt field]

/-- A mask of W bits sees only the low W bits of a number. -/
theorem mod_and_of_lt {m : Nat} (x : Nat) (h : m < 2 ^ w) : x % 2 ^ w &&& m = x &&& m := by
  rw [← Nat.and_two_pow_sub_one_eq_mod x w, Nat.and_assoc, Nat.and_comm (2 ^ w - 1), Nat.and_two_pow_sub_one_of_lt_two_pow h]

/-- A field that begins below W and is cut at W is a mask of W bits. -/
theorem fieldMask_lt {pos : Nat} (len : Nat) (h : pos < w) : (2 ^ min len (w - pos) - 1) * 2 ^ pos < 2 ^ w :=
  calc (2 ^ min len (w - pos) - 1) * 2 ^ pos < 2 ^ min len (w - pos) * 2 ^ pos :=
        Nat.mul_lt_mul_of_pos_right (Nat.sub_lt (Nat.two_pow_pos _) Nat.one_pos) (Nat.two_pow_pos _)
    _ = 2 ^ (min len (w - pos) + pos) := (Nat.pow_add ..).symm
    _ ≤ 2 ^ w := Nat.pow_le_pow_right Nat.two_pos (by omega)

theorem bfiF_val (ha : aOf l = a.toNat) (hb : bOf l = b.toNat) (hc : cOf l = c.toNat) :
    bfiF w l = (let pos := c.toNat % 256
      let len := c.toNat / 256 % 256
      if len = 0 ∨ w ≤ pos then a else
        let m := BitVec.ofNat w ((2 ^ min len (w - pos) - 1) * 2 ^ pos)
        (a &&& ~~~m) ||| (b <<< pos &&& m)).toNat := by
  have pos : bits c.toNat 7 0 = c.toNat % 256 := by simp [bits]
  have len : bits c.toNat 15 8 = c.toNat / 256 % 256 := rfl
  simp only [bfiF, ha, hb, hc, pos, len, Bool.or_eq_true, decide_eq_true_eq, ge_iff_le]
  split
  · rfl
  next inside =>
    have mask := fieldMask_lt (w := w) (c.toNat / 256 % 256) (Nat.lt_of_not_le (not_or.mp inside).2)
    generalize (2 ^ min (c.toNat / 256 % 256) (w - c.toNat % 256) - 1) * 2 ^ (c.toNat % 256) = m at mask
    have word : (BitVec.ofNat w m).toNat = m := (BitVec.toNat_ofNat ..).trans (Nat.mod_eq_of_lt mask)
    rw [BitVec.toNat_or, BitVec.toNat_and, BitVec.toNat_and, ← notN_toNat, BitVec.toNat_shiftLeft, Nat.shiftLeft_eq, word, mod_and_of_lt _ mask]

theorem selF_val (ha : aOf l = a.toNat) (hb : bOf l = b.toNat) (hc : cOf l = c.toNat) : selF l = (if c ≠ 0 then a else b).toNat := by
  have zero : c = 0 ↔ c.toNat = 0 := BitVec.toNat_inj.symm
  rw [selF, ha, hb, hc, apply_ite BitVec.toNat]
  simp only [ne_eq, zero]

theorem leaF_val (ha : aOf l = a.toNat) (hb : bOf l = b.toNat) (hc : cOf l = c.toNat) : leaF w l = (a + b <<< (c.toNat % 8)).toNat := by
  rw [leaF, ha, hb, hc, BitVec.toNat_add, BitVec.toNat_shiftLeft, Nat.shiftLeft_eq, Nat.add_mod_mod]

end

/-- `F` is what the model computes for a row of three operands (compare `Computes`). -/
structure Computes3 (f : Claims.IntFn3) (F : Bool → Nat → List Nat → Nat) : Prop where
  run : ∀ c o s, exec (f.instr c o) s =
    withCx s fun cx => cx.alu s (xAlu o c 3 none (xIntOk o f.sat false) (noFlags (F o.sat (widthOf c))) f.payload)
  val : ∀ {w : Nat} {l : List Nat} (sat : Bool) (a b c : BitVec w), aOf l = a.toNat → bOf l = b.toNat → cOf l = c.toNat →
    F sat w l = (f.val sat w a b c).toNat

theorem integerFns3_computes : ∀ f ∈ Claims.integerFns3, ∃ F, Computes3 f F := by
  simp only [Claims.integerFns3, List.forall_mem_cons, List.not_mem_nil, false_imp_iff, implies_true, and_true]
  exact ⟨⟨fun sat w => madF w sat, fun _ _ _ => rfl, fun sat _ _ _ => madF_val sat⟩, ⟨fun _ => bfxF, fun _ _ _ => rfl, fun _ _ _ _ => bfxF_val⟩,
    ⟨fun _ => bfiF, fun _ _ _ => rfl, fun _ _ _ _ => bfiF_val⟩, ⟨fun _ _ => selF, fun _ _ _ => rfl, fun _ _ _ _ => selF_val⟩,
    ⟨fun _ => leaF, fun _ _ _ => rfl, fun _ _ _ _ => leaF_val⟩⟩

/-! ### Operands and flags -/

section
variable {s t : State} {cx : Cx} {rs : List (Nat × List Nat)}

/-- Integer operands of a class fit it (R132). -/
theorem Enters.operands_lt {d : Dec} {c : Cls} (h : Enters s cx d rs) (shape : ∀ x ∈ d.srcs, x.rc = rcOf c ∧ x.wide = (c == .s) ∧ x.flt = none)
    {r : Nat × List Nat} (hr : r ∈ rs) : ∀ v ∈ r.2, v < 2 ^ widthOf c := by
  obtain ⟨-, -, read⟩ := h.lane_of hr
  refine Cx.readLane_lt read (Nat.two_pow_pos _) fun i x v bad hx hv => ?_
  have mem : x ∈ d.srcs := List.mem_of_getElem? hx
  obtain ⟨rc, wide, integer⟩ := shape x mem
  have ok : cx.srcOk s d.imm x = true := List.all_eq_true.mp (Cx.decodeTrap_none h.legal).2.2.2 x mem
  have bound := Cx.read_lt integer (by rw [rc]; cases c <;> decide) ok hv
  rw [Src.limit, wide] at bound
  cases c <;> exact bound

/-- The operands of an integer function of form X fit its class. -/
theorem Enters.xDec_lt {c : Cls} {o : XOp} {n : Nat} {ok payload sfu : Bool} {dst : Dst} (h : Enters s cx (xDec o c n none ok payload sfu dst) rs)
    {r : Nat × List Nat} (hr : r ∈ rs) : ∀ v ∈ r.2, v < 2 ^ widthOf c := by
  refine h.operands_lt (fun x hx => ?_) hr
  obtain ⟨k, -, rfl⟩ := List.mem_map.mp hx
  exact ⟨rfl, by simp, rfl⟩

/-- An operand that fits its class is the number of its W-bit value. -/
theorem opnd_toNat {c : Cls} {l : List Nat} (fits : ∀ v ∈ l, v < 2 ^ widthOf c) (i : Nat) :
    (l[i]?).getD 0 = (Claims.opnd c ((l[i]?).getD 0)).toNat :=
  ((BitVec.toNat_ofNat ..).trans (Nat.mod_eq_of_lt (operand_lt (Nat.two_pow_pos _) fits i))).symm

theorem orAll_cons (a : Nat) (l : List Nat) : orAll (a :: l) = a ||| orAll l := by
  rw [orAll, List.foldl_cons, Nat.or_comm, List.foldl_assoc, orAll]

theorem orAll_eq_zero {l : List Nat} (h : ∀ x ∈ l, x = 0) : orAll l = 0 := by
  induction l with
  | nil => rfl
  | cons a r ih =>
    obtain ⟨ha, hr⟩ := List.forall_mem_cons.mp h
    rw [orAll_cons, ih hr, ha, Nat.zero_or]

/-- Flags of which each is none or the one that some lane raises. -/
theorem orAll_eq_of_mem {l : List Nat} {n : Nat} (one : ∀ x ∈ l, x = 0 ∨ x = n) (mem : n ∈ l) : orAll l = n := by
  induction l with
  | nil => cases mem
  | cons a r ih =>
    obtain ⟨ha, hr⟩ := List.forall_mem_cons.mp one
    by_cases later : n ∈ r
    · rw [orAll_cons, ih hr later]
      obtain rfl | rfl := ha
      · exact Nat.zero_or n
      · exact Nat.or_self _
    · have first : n = a := (List.mem_cons.mp mem).resolve_right later
      rw [orAll_cons, orAll_eq_zero fun x hx => (hr x hx).resolve_right fun e => later (e ▸ hx), ← first, Nat.or_zero]

theorem orAll_lt {l : List Nat} {n : Nat} (h : ∀ x ∈ l, x < 2 ^ n) : orAll l < 2 ^ n := by
  induction l with
  | nil => exact Nat.two_pow_pos n
  | cons a r ih =>
    obtain ⟨ha, hr⟩ := List.forall_mem_cons.mp h
    rw [orAll_cons]
    exact Nat.or_lt_two_pow ha (ih hr)

/-- A place without a block has no FSTAT to change (R126). -/
theorem Cx.Keeps.regs_noBlock (h : cx.Keeps s t) (none_ : cx.blk s = none) : cx.regs t = cx.regs s := by
  have own := h.ownBlk
  rw [none_, Option.map_none, Option.map_eq_none_iff] at own
  rw [Cx.regs, Cx.regs, none_, own]

/-- The course of an ALU function without flags. -/
theorem Cx.alu_noFlags (a : Alu) {F : List Nat → Nat} (h : Enters s cx a.d rs) (sound : a.Sound) (sfu : a.sfu = false) (pure_ : a.f = noFlags F) :
    cx.Writes s (cx.alu s a) a.cls a.d.p.dreg.toNat a.d.p.nwb (rs.map fun r => (r.1, F r.2)) ∧
      cx.Keeps s (cx.alu s a) ∧ (cx.regs (cx.alu s a)).fstat = (cx.regs s).fstat := by
  obtain ⟨writes, keeps, flags⟩ := Cx.alu_writes a h sound sfu fun r _ => by simp [pure_, noFlags, enabled]
  have none_ : orAll (rs.map fun r => (a.f r.2).2) = 0 := orAll_eq_zero (by simp [pure_, noFlags])
  refine ⟨by simpa only [pure_, noFlags] using writes, keeps, ?_⟩
  cases hb : cx.blk s with
  | none => rw [keeps.regs_noBlock hb]
  | some b => rw [flags (by simp [hb]), none_]; simp

end

end Sys2Proof.Machine

open Sys2Proof Sys2Proof.Machine Sys2Proof.Claims in
/-- Settles O1: every row is computed by a function without flags (`Computes`, `Computes3`), whose course `Cx.alu_noFlags` says. -/
theorem integerFunctionResults : Obligations.IntegerFunctionResults := by
  refine ⟨fun f hf c o s cx rs enters => ?_, fun f hf c o s cx rs enters => ?_⟩
  · obtain ⟨F, computes⟩ := integerFns_computes f hf
    obtain ⟨writes, rest⟩ := Cx.alu_noFlags (rAlu o c f.two (noFlags (F (widthOf c))) f.payload) enters (rAlu_sound ..) rfl rfl
    refine ⟨_, by rw [computes.run, withCx, enters.here], ?_, rest⟩
    have val : (rs.map fun r => (r.1, F (widthOf c) r.2)) =
        rs.map fun r => (r.1, (f.val (widthOf c) (opnd c (aOf r.2)) (opnd c (bOf r.2))).toNat) := List.map_congr_left fun r hr => by
      have fits := opnd_toNat (enters.rDec_lt hr)
      rw [computes.val _ _ (fits 0) (fits 1)]; rfl
    exact val ▸ writes
  · obtain ⟨F, computes⟩ := integerFns3_computes f hf
    obtain ⟨writes, rest⟩ := Cx.alu_noFlags (xAlu o c 3 none (xIntOk o f.sat false) (noFlags (F o.sat (widthOf c))) f.payload) enters (xAlu_sound ..)
      rfl rfl
    refine ⟨_, by rw [computes.run, withCx, enters.here], ?_, rest⟩
    have val : (rs.map fun r => (r.1, F o.sat (widthOf c) r.2)) =
        rs.map fun r => (r.1, (f.val o.sat (widthOf c) (opnd c (aOf r.2)) (opnd c (bOf r.2)) (opnd c (cOf r.2))).toNat) :=
      List.map_congr_left fun r hr => by
        have fits := opnd_toNat (enters.xDec_lt hr)
        rw [computes.val _ _ _ _ (fits 0) (fits 1) (fits 2)]; rfl
    exact val ▸ writes
end

/-! ## Division (R126, R137) -/
section
namespace Sys2Proof.Machine

/-! ### Quotients and remainders -/

theorem divS_val {w : Nat} (a b : BitVec w) : divS w a.toNat b.toNat = (a.sdiv b).toNat := by
  rw [divS, signed_toNat, signed_toNat, wrapNat_eq]
  congr 1
  apply BitVec.eq_of_toInt_eq
  rw [BitVec.toInt_ofInt, BitVec.toInt_sdiv]

theorem remS_val {w : Nat} (a b : BitVec w) : remS w a.toNat b.toNat = (a.srem b).toNat := by
  have remainder : a.toInt - a.toInt.tdiv b.toInt * b.toInt = (a.srem b).toInt := by rw [BitVec.toInt_srem, Int.tmod_def, Int.mul_comm]
  rw [remS, signed_toNat, signed_toNat, wrapNat_eq, remainder, BitVec.ofInt_toInt]

/-- `G` is what the model computes for a row of the division family. -/
structure Divides (f : (Cls → ROp → Instr) × ((w : Nat) → BitVec w → BitVec w → BitVec w)) (G : Nat → Nat → Nat → Nat) : Prop where
  run : ∀ c o s, exec (f.1 c o) s = withCx s fun cx => cx.alu s (rAlu o c true (divF (widthOf c) (G (widthOf c))))
  val : ∀ {w : Nat} (a b : BitVec w), G w a.toNat b.toNat = (f.2 w a b).toNat

theorem divisionFns_divides : ∀ f ∈ Claims.divisionFns, ∃ G, Divides f G := by
  simp only [Claims.divisionFns, List.forall_mem_cons, List.not_mem_nil, false_imp_iff, implies_true, and_true]
  exact ⟨⟨divS, fun _ _ _ => rfl, divS_val⟩, ⟨fun _ a b => a / b, fun _ _ _ => rfl, fun _ _ => BitVec.toNat_udiv.symm⟩,
    ⟨remS, fun _ _ _ => rfl, remS_val⟩, ⟨fun _ a b => a % b, fun _ _ _ => rfl, fun _ _ => BitVec.toNat_umod.symm⟩⟩

/-- A zero divisor raises IDZ and nothing else does. -/
theorem divF_flags (w : Nat) (G : Nat → Nat → Nat) (l : List Nat) : (divF w G l).2 = if bOf l = 0 then 64 else 0 := by
  unfold divF
  split <;> rfl

/-- The bit of a mask at IDZ. -/
theorem idz_and (fen : Nat) (clear : bit fen 6 = false) : 64 &&& fen = 0 := by
  rw [bit_eq_testBit] at clear
  rw [Nat.and_comm, show (64 : Nat) = 2 ^ 6 from rfl, Nat.and_two_pow, clear]
  rfl

end Sys2Proof.Machine

open Sys2Proof Sys2Proof.Machine Sys2Proof.Claims in
/-- Settles O2: each row is `divF` of its quotient or remainder (`Divides`), whose one flag is that of a zero divisor. -/
theorem divisionResults : Obligations.DivisionResults := by
  intro f hf c o s cx rs enters noTrap
  obtain ⟨G, divides⟩ := divisionFns_divides f hf
  have flag := divF_flags (widthOf c) (G (widthOf c))
  obtain ⟨writes, keeps, fstat⟩ := Cx.alu_writes (rAlu o c true (divF (widthOf c) (G (widthOf c)))) enters (rAlu_sound ..) rfl fun r hr => by
    change (divF (widthOf c) (G (widthOf c)) r.2).2 &&& cx.fen s &&& 0x5F = 0
    rw [flag]
    split
    next zero => rw [idz_and _ (noTrap.resolve_left fun h => h r hr zero), Nat.zero_and]
    next => rw [Nat.zero_and, Nat.zero_and]
  refine ⟨_, by rw [divides.run, withCx, enters.here], ?_, keeps, fun hb => ?_⟩
  · have val : (rs.map fun r => (r.1, (divF (widthOf c) (G (widthOf c)) r.2).1)) = rs.map fun r => (r.1,
        if bOf r.2 = 0 then 2 ^ widthOf c - 1 else (f.2 (widthOf c) (opnd c (aOf r.2)) (opnd c (bOf r.2))).toNat) :=
      List.map_congr_left fun r hr => by
        have fits := opnd_toNat (enters.rDec_lt hr)
        have quotient : G (widthOf c) (aOf r.2) (bOf r.2) = (f.2 (widthOf c) (opnd c (aOf r.2)) (opnd c (bOf r.2))).toNat := by
          rw [← divides.val]
          exact congrArg₂ (G (widthOf c)) (fits 0) (fits 1)
        rw [divF, apply_ite Prod.fst, quotient]
    exact val ▸ writes
  · refine (fstat hb).trans (congrArg _ ?_)
    change BitVec.ofNat 32 (orAll (rs.map fun r => (divF (widthOf c) (G (widthOf c)) r.2).2) % 128) = _
    simp only [flag]
    split
    next some_ =>
      obtain ⟨r, hr, zero⟩ := some_
      rw [orAll_eq_of_mem (n := 64) (fun x hx => ?_) (List.mem_map.mpr ⟨r, hr, if_pos zero⟩)]
      obtain ⟨q, -, rfl⟩ := List.mem_map.mp hx
      split <;> simp
    next none_ =>
      rw [orAll_eq_zero fun x hx => ?_]
      obtain ⟨q, hq, rfl⟩ := List.mem_map.mp hx
      exact if_neg fun zero => none_ ⟨q, hq, zero⟩
end

/-! ## MOVW (R97, R145) -/
section
namespace Sys2Proof.Machine

variable {s t : State} {cx : Cx} {f : LoadForm} {d : Dec}

/-! ### What a result leaves alone -/

/-- Writing a result touches nothing but the registers of the stream's place and what still was to return to them. -/
theorem Cx.put_keeps (cx : Cx) (s : State) (f : LoadForm) (vals : List (Nat × Nat)) : cx.Keeps s (cx.put s f vals) := by
  have killed := (cx.killKeys_keeps s cx.id (vals.flatMap fun r => f.keysOf r.1)).2
  have rows : ∀ b : Block, Block.Progress cx b (b.modMem fun m => putLanes m f vals false) := fun b =>
    ⟨rfl, congrArg (fun m : BlkMem => ({ m with preds := [] } : BlkMem)) (putLanes_rest b.mem f vals false), rfl, rfl, rfl⟩
  unfold Cx.put
  split
  · split
    · exact killed
    · refine killed.trans (.modCtl cx _ _ (fun c => ?_) fun c => ?_)
      · exact (Ctl.foldl_setS vals c f.dreg false).1
      · exact (Ctl.foldl_setS vals c f.dreg false).2.1
  · unfold Cx.modBlk
    split
    next hid => exact killed.trans (.modBlock hid _ _ rows)
    next => exact killed

/-- A result is put to its registers and completes. -/
theorem Cx.result_eq (cx : Cx) (s : State) (d : Dec) (cls : Cls) (wide : Bool) (vals : List (Nat × Nat)) :
    ∃ f who e, cx.result s d cls wide vals = cx.finish (cx.put s f vals) d who e := by
  cases cls <;> exact ⟨_, _, _, rfl⟩

theorem Cx.result_keeps (goes : (fallNext cx.line cx.pc d.len).2 = false) (cls : Cls) (wide : Bool) (vals : List (Nat × Nat)) :
    cx.Keeps s (cx.result s d cls wide vals) := by
  obtain ⟨f, who, e, run⟩ := cx.result_eq s d cls wide vals
  rw [run]
  exact (cx.put_keeps s f vals).trans (cx.finish_keeps _ d who e goes).2

theorem Cx.put_nil (cx : Cx) (s : State) (f : LoadForm) : cx.RegsSame s (cx.put s f []) := by
  have killed := (cx.killKeys_keeps s cx.id []).1
  unfold Cx.put
  split
  · split
    · exact killed
    · exact killed.trans (.modCtl cx _ _ (fun _ => rfl) fun _ => rfl)
  · unfold Cx.modBlk
    split
    next hid => exact killed.trans (.modBlock cx _ _ _ _ (fun _ => rfl) (fun _ => rfl) fun _ _ => ⟨rfl, rfl⟩)
    next => exact killed

/-- A result of no lane changes no register. -/
theorem Cx.result_nil (goes : (fallNext cx.line cx.pc d.len).2 = false) (cls : Cls) (wide : Bool) : cx.RegsSame s (cx.result s d cls wide []) := by
  obtain ⟨f, who, e, run⟩ := cx.result_eq s d cls wide []
  rw [run]
  exact (cx.put_nil s f).trans (cx.finish_keeps _ d who e goes).1

/-! ### A result of 64 bits in a pair of registers -/

theorem LoadForm.keysOf_pair (cls : f.cls = .g) (wid : f.wid = 8) (nwb : f.nwb = false) (l : Nat) :
    f.keysOf l = [gKey l (2 * f.dreg), gKey l (2 * f.dreg + 1)] := by
  simp [LoadForm.keysOf, cls, wid, nwb, upFrom]

/-- The pair takes the value, low half first (R97). -/
theorem Cx.Loaded.pair {vals : List (Nat × Nat)} (h : cx.Loaded s t f vals) (cls : f.cls = .g) (wid : f.wid = 8) (nwb : f.nwb = false)
    {r : Nat × Nat} (hr : r ∈ vals) :
    cx.reg t .g (2 * f.dreg) r.1 = r.2 % 2 ^ 32 ∧ cx.reg t .g (2 * f.dreg + 1) r.1 = r.2 / 2 ^ 32 % 2 ^ 32 := by
  have keys := f.keysOf_pair cls wid nwb r.1
  have low := h.written r hr 0 (gKey r.1 (2 * f.dreg)) (by rw [keys]; rfl)
  have high := h.written r hr 1 (gKey r.1 (2 * f.dreg + 1)) (by rw [keys]; rfl)
  rw [cls] at low high
  exact ⟨by rwa [Nat.mul_zero, Nat.pow_zero, Nat.div_one] at low, high⟩

theorem Cx.Loaded.single {vals : List (Nat × Nat)} (h : cx.Loaded s t f vals) (cls : f.cls = .s) (wid : f.wid = 8) (nwb : f.nwb = false)
    {r : Nat × Nat} (hr : r ∈ vals) : cx.reg t .s f.dreg r.1 = r.2 % 2 ^ 64 := by
  have word := h.written r hr 0 (sKey f.dreg) (by simp [LoadForm.keysOf, cls, wid, nwb])
  have number : sKey f.dreg - sKey 0 = f.dreg := Nat.add_sub_cancel_left ..
  simpa [cls, Cx.cell, Cx.reg, number, widthOf] using word

/-- Outside the pair of a lane, and outside the register of a control stream, nothing is written. -/
theorem LoadForm.notMem_keysOf {c : Cls} {m l e : Nat} (same : c = f.cls) (wid : f.wid = 8) (hm : m < 64) (hd : f.cls = .g → f.dreg < 32)
    (h : f.nwb = true ∨ (c = .g ∧ (m / 2 ≠ f.dreg ∨ l ≠ e)) ∨ (c = .s ∧ m ≠ f.dreg)) : regKey c m l ∉ f.keysOf e := by
  cases nwb : f.nwb with
  | true => simp [LoadForm.keysOf, nwb]
  | false =>
    obtain h | ⟨rfl, h⟩ | ⟨rfl, h⟩ := h
    · rw [nwb] at h; cases h
    · have low := hd same.symm
      rw [f.keysOf_pair same.symm wid nwb]
      simp only [regKey, gKey, List.mem_cons, List.not_mem_nil, or_false]
      omega
    · have key : f.keysOf e = [sKey f.dreg] := by simp [LoadForm.keysOf, ← same, wid, nwb]
      rw [key]
      simp only [regKey, sKey, List.mem_singleton]
      omega

end Sys2Proof.Machine

open Sys2Proof Sys2Proof.Machine Sys2Proof.Claims in
/-- Settles O3: the immediate is a scalar result of 64 bits in every acting lane (`Cx.result_loaded`), and no result where no lane acts. -/
theorem movwResult : Obligations.MovwResult := by
  intro o s cx rs enters
  obtain ⟨t, run, s', same, keeps, course⟩ : ∃ t, exec (.movw o) s = .next t ∧ ∃ s', cx.RegsSame s s' ∧ cx.Keeps s s' ∧
      (t = cx.result s' (movwDec o cx) cx.scalarCls true (rs.map fun r => (r.1, o.imm.toNat)) ∨ (rs = [] ∧ t = s')) := by
    obtain ⟨s', course, same, keeps⟩ := Cx.start_enters enters fun s rs =>
      cx.result s (movwDec o cx) cx.scalarCls true (rs.map fun r => (r.1, o.imm.toNat))
    exact ⟨_, by simp only [exec, execMovw, withCx, enters.here]; rfl, s', same, keeps, course⟩
  refine ⟨t, run, ?_⟩
  obtain rfl | acting := eq_or_ne rs []
  · have rest : cx.RegsSame s t ∧ cx.Keeps s t := by
      obtain rfl | ⟨-, rfl⟩ := course
      · exact ⟨same.trans (Cx.result_nil enters.goes ..), keeps.trans (Cx.result_keeps enters.goes ..)⟩
      · exact ⟨same, keeps⟩
    exact ⟨rest.2, by rw [rest.1.regs], rest.1.pbit, by simp, fun c m l has _ _ _ => rest.1.reg has m l⟩
  · obtain rfl := course.resolve_right fun h => acting h.1
    have dst := (Cx.decodeTrap_none enters.legal).2.2.1
    obtain ⟨loaded, regs, -, -⟩ := Cx.result_loaded (wide := true) ((cxOf_placed enters.here).keep keeps) enters.goes
      (by rw [same.regOk_eq]; exact dst) (fun _ => rfl) (enters.single_map fun _ => o.imm.toNat)
      (fun hT a ha b hb => by
        obtain ⟨x, hx, rfl⟩ := List.mem_map.mp ha
        obtain ⟨y, hy, rfl⟩ := List.mem_map.mp hb
        rw [enters.lane_zero hT rfl x hx, enters.lane_zero hT rfl y hy])
      (by simpa using acting)
    replace loaded := loaded.after same
    refine ⟨keeps.trans (Cx.result_keeps enters.goes ..), by rw [regs, same.regs], loaded.preds, fun nwb r hr => ?_, fun c m l has hm hl away => ?_⟩
    · have hr' := List.mem_map_of_mem (f := fun r : Nat × List Nat => (r.1, o.imm.toNat)) hr
      split
      next hT =>
        obtain ⟨low, high⟩ := loaded.pair (by simp [Cx.scalarForm, Cx.scalarCls, hT]) rfl nwb hr'
        exact ⟨low.trans (by simp [BitVec.extractLsb'_toNat]), high.trans (by simp [BitVec.extractLsb'_toNat, Nat.shiftRight_eq_div_pow])⟩
      next hT =>
        have word := loaded.single (by simp [Cx.scalarForm, Cx.scalarCls, hT]) rfl nwb hr'
        exact word.trans (Nat.mod_eq_of_lt o.imm.isLt)
    · refine loaded.others c m l has hm hl fun hc r hr => ?_
      obtain ⟨q, hq, rfl⟩ := List.mem_map.mp hr
      have notV : c ≠ .v := by
        simp only [hc, Cx.scalarForm, Cx.scalarCls]
        split <;> simp
      refine LoadForm.notMem_keysOf hc rfl hm (fun hg => ?_) ?_
      · have thread : cx.isT = true := by simpa [Cx.scalarForm, Cx.scalarCls] using hg
        simp only [movwDec, Cx.rcScalar, thread, Cx.regOk, if_true] at dst
        change o.p.dreg.toNat < 32
        split at dst <;> simp at dst <;> omega
      · obtain nwb | v | ⟨g, reg | lane⟩ | ⟨cs, reg | none_⟩ := away
        · exact .inl nwb
        · exact absurd v notV
        · exact .inr (.inl ⟨g, .inl reg⟩)
        · exact .inr (.inl ⟨g, .inr fun e => lane (e ▸ List.mem_map_of_mem hq)⟩)
        · exact .inr (.inr ⟨cs, reg⟩)
        · exact absurd none_ acting
end

/-! ## A thread without a predicate bit (R16, R142)

A predicate has 2,048 bits, one for each thread that a core can hold (R16). O9 speaks of every state, also of one whose bundle
holds a thread 2048: the bit that CMP is to write for it is not there, and reads as false whatever the condition is. -/
section
namespace Sys2Proof.ThreadWithoutPredicateBit

open Sys2Proof.Machine Sys2Proof.Claims

/-- `CMP.EQ` of class g into p1, of the constant 0 with itself. -/
def op : XOp := ⟨⟨1, false, 72, 72, 0⟩, 0, 0, false, 0, 0, 0⟩
/-- A threaded block of 2,049 threads, of which the last is live and stands at address 8. -/
def block : Block :=
  { launch := 1, obj := 0, part := 0, asid := 1, prio := 0, vpref := 0, det := 0, coop := false, claim := {}
    regs := { nthr := 2049, nblk := 1 }
    exec := { threads := List.replicate 2048 {} ++ [{ pc := 8, live := true }], bundles := [{ id := 1, members := [2048], pc := 8 }] }
    mem := { budget := 16, vcount := 16, locb := 4096, rowBytes := 16384 } }
def state : State := { cores := [(0, { slots := [(0, block)] })], cur := .bundle 0 0 1 }
def cx : Cx := { id := .blk 0 0, kind := .T, acts := [2048], pc := 8, line := none }

theorem enters : Enters state cx (xDec op .g 2 none (xIntOk op false true && op.fn4.toNat ≤ 11) false false .pred) [(2048, [0, 0])] where
  here := by decide +kernel
  legal := by decide +kernel
  reads := by decide +kernel
  latches := by simp [cx, Cx.isT]
  goes := rfl

/-- The condition that thread 2048 meets. -/
theorem holds : condition op.fn4.toNat (opnd .g (aOf [0, 0])) (opnd .g (bOf [0, 0])) = true := by decide

/-- Its bit of p1 is beyond the predicate, in every state. -/
theorem pbit_false (t : State) : cx.pbit t 1 2048 = false := by
  simp [Cx.pbit, cx, BlkMem.p]

end Sys2Proof.ThreadWithoutPredicateBit

open Sys2Proof.ThreadWithoutPredicateBit in
/-- Refutes O9: its clause on CMP allows a thread 2048, whose condition holds and whose predicate bit does not exist. -/
theorem not_predicateResults : ¬ Obligations.PredicateResults := by
  rintro ⟨compare, -, -⟩
  obtain ⟨t, -, written, -, -⟩ := compare .g op state cx [(2048, [0, 0])] enters
  have bit := written.written (2048, _) (List.mem_singleton_self _) 2048 rfl
  rw [holds] at bit
  exact absurd ((pbit_false t).symm.trans bit) (by decide)
end

/-! ## SETVL and the movements (R146 to R150) -/
section
namespace Sys2Proof.Machine

variable {s t u : State} {cx : Cx} {d : Dec} {rd : Nat → Nat → Nat}

/-! ### Entering a vector-only instruction -/

theorem withCx_here (h : cxOf s = some cx) (f : Cx → State) : withCx s f = .next (f cx) := by rw [withCx, h]

theorem EntersVec.vector (h : EntersVec s cx d rd) (valid : d.valid = vecValid) : cx.kind = .V := by
  have ok := (Cx.decodeTrap_none h.legal).1
  rw [valid] at ok
  cases kind : cx.kind <;> simp_all [vecValid, validIn]

theorem Cx.vl_le (cx : Cx) (s : State) : cx.vl s ≤ 256 := Nat.min_le_right ..

theorem Cx.RegsSame.vl_eq (h : cx.RegsSame s t) : cx.vl t = cx.vl s := by rw [Cx.vl, Cx.vl, h.regs]

theorem Cx.RegsSame.activeElems_eq (h : cx.RegsSame s t) (grd : Nat) : cx.activeElems t grd = Claims.acting cx s grd := by
  simp only [Cx.activeElems, Claims.acting, h.vl_eq, h.pbit]

theorem acting_lt {grd e : Nat} (h : e ∈ Claims.acting cx s grd) : e < cx.vl s := List.mem_range.mp (List.mem_filter.mp h).1

/-- What operand `i` reads as at element `e`, and the value in it. -/
def Cx.operand (cx : Cx) (s : State) (d : Dec) (i e : Nat) : Rd :=
  match d.srcs[i]? with
  | some x => cx.read s d.imm i e x
  | none => .val 0 false
def Rd.value : Rd → Nat
  | .val v _ => v
  | _ => 0

/-- `val` gives the operands of `d` as `rd` does. -/
def Reads (d : Dec) (rd val : Nat → Nat → Nat) : Prop := ∀ i < d.srcs.length, ∀ e < 256, val i e = rd i e

theorem EntersVec.operand (h : EntersVec s cx d rd) {i e : Nat} (he : e < 256) : ∃ v, cx.operand s d i e = .val v false := by
  unfold Cx.operand
  cases hx : d.srcs[i]? with
  | none => exact ⟨0, rfl⟩
  | some x => exact ⟨_, h.reads i x hx e he⟩

theorem EntersVec.value (h : EntersVec s cx d rd) : Reads d rd fun i e => (cx.operand s d i e).value := fun i hi e he => by
  have hx := List.getElem?_eq_getElem hi
  simp only [Cx.operand, hx, h.reads i _ hx e he, Rd.value]

/-- A vector-only instruction whose operands are there goes to its effect, and up to there no register and nothing outside its place
has changed. -/
theorem Cx.startVec_enters (h : EntersVec s cx d rd) {uses : (Nat → Nat → Nat) → List (Nat × Nat)}
    (within : ∀ val, Reads d rd val → ∀ u ∈ uses val, u.2 < 256) (k : State → (Nat → Nat → Nat) → State) :
    ∃ s' val, cx.startVec s d uses k = k s' val ∧ cx.RegsSame s s' ∧ cx.Keeps s s' ∧ Reads d rd val := by
  have run : cx.startVec s d uses k = k (if cx.begun s then s else
      cx.count s d.payload (cx.beats s d) ((cx.lanes s d).filter fun e => cx.pbit s d.p.grd.toNat e).length)
      fun i e => (cx.operand s d i e).value := by
    have reads : ∀ r ∈ (uses fun i e => (cx.operand s d i e).value).map fun u => cx.operand s d u.1 u.2, ∃ v, r = .val v false := fun r hr => by
      obtain ⟨u, hu, rfl⟩ := List.mem_map.mp hr
      exact h.operand (within _ h.value u hu)
    simp only [Cx.startVec, h.legal]
    rw [if_neg, if_neg, if_neg]
    · rfl
    · intro marked
      obtain ⟨r, hr, bad⟩ := List.any_eq_true.mp marked
      obtain ⟨v, rfl⟩ := reads r hr
      cases bad
    · intro waits
      obtain ⟨r, hr, pend⟩ := List.any_eq_true.mp waits
      obtain ⟨v, rfl⟩ := reads r hr
      cases pend
    · intro invalid
      obtain ⟨i, -, bad⟩ := List.any_eq_true.mp invalid
      obtain ⟨v, val⟩ := h.operand (i := i) (e := 0) (by decide)
      have none_ : (cx.operand s d i 0 == .inval) = false := by rw [val]; rfl
      exact absurd (Bool.and_eq_true_iff.mp bad).2 (by rw [Bool.not_eq_true]; exact none_)
  refine ⟨_, _, run, ?_, ?_, h.value⟩ <;> split
  · exact .refl cx s
  · exact (cx.count_keeps s _ _ _).1
  · exact .refl cx s
  · exact (cx.count_keeps s _ _ _).2

/-! ### A vector written -/

/-- From `s` to `t` the destination vector takes the values; FSTAT and everything else stays. -/
def Cx.Takes (cx : Cx) (s t : State) (p : P0) (vals : List (Nat × Nat)) : Prop :=
  cx.Writes s t .v p.dreg.toNat p.nwb vals ∧ cx.Keeps s t ∧ (cx.regs t).fstat = (cx.regs s).fstat

theorem single_map (l : List Nat) (g : Nat → Nat) : Single (l.map fun e => (e, g e)) := by
  intro a ha b hb e
  obtain ⟨x, -, rfl⟩ := List.mem_map.mp ha
  obtain ⟨y, -, rfl⟩ := List.mem_map.mp hb
  exact congrArg g e

/-- An instruction whose effect is to write a vector writes it. -/
theorem Cx.startVec_takes (h : EntersVec s cx d rd) (valid : d.valid = vecValid) {uses : (Nat → Nat → Nat) → List (Nat × Nat)}
    (within : ∀ val, Reads d rd val → ∀ u ∈ uses val, u.2 < 256) {k : State → (Nat → Nat → Nat) → State} {l : List Nat} {g : Nat → Nat}
    (elems : ∀ e ∈ l, e < 256)
    (effect : ∀ s' val, cx.RegsSame s s' → Reads d rd val → k s' val = cx.vecResult s' d (l.map fun e => (e, g e))) :
    cx.Takes s (cx.startVec s d uses k) d.p (l.map fun e => (e, g e)) := by
  have kind := h.vector valid
  obtain ⟨s', val, run, same, keeps, reads⟩ := Cx.startVec_enters h within k
  rw [run, effect s' val same reads]
  have has : cx.kind.has .v = true := by rw [kind]; rfl
  obtain ⟨writes, kept, regs⟩ := Cx.result_writes (cls := .v) (d := d) ((cxOf_placed h.here).keep keeps) has h.goes (fun e => nomatch e)
    (single_map l g) (fun e => nomatch e) (fun _ r hr => by
      obtain ⟨e, he, rfl⟩ := List.mem_map.mp hr
      exact elems e he)
  exact ⟨writes.mono has same (.refl cx _), keeps.trans kept, by rw [← same.regs]; exact congrArg BlkRegs.fstat regs⟩

/-! ### The movements -/

/-- Src(i) of R146 needs no element beyond the last. -/
theorem srcAt_eq {val : Nat → Nat → Nat} (reads : Reads d rd val) (some_ : 0 < d.srcs.length) {vl : Nat} (hvl : vl ≤ 256) (i : Int) :
    srcAt vl val i = Claims.srcOf vl rd i := by
  simp only [srcAt, Claims.srcOf, Bool.and_eq_true, decide_eq_true_eq]
  split
  next inside => exact reads 0 some_ _ (by omega)
  next => rfl

/-- A movement gives each acting element its source element (R149). -/
theorem Cx.vecMove_takes (h : EntersVec s cx d rd) (valid : d.valid = vecValid) (some_ : 0 < d.srcs.length) (bOwn : Bool)
    {f : (Nat → Nat → Nat) → Nat → Int} (from_ : ∀ val, Reads d rd val → ∀ e < 256, f val e = f rd e) :
    cx.Takes s (cx.vecMove s d bOwn f) d.p ((Claims.acting cx s d.p.grd.toNat).map fun e => (e, Claims.srcOf (cx.vl s) rd (f rd e))) := by
  have vl := cx.vl_le s
  have elems : ∀ e ∈ Claims.acting cx s d.p.grd.toNat, e < 256 := fun e he => Nat.lt_of_lt_of_le (acting_lt he) vl
  simp only [Cx.vecMove]
  refine Cx.startVec_takes h valid (fun val _ u hu => ?_) elems fun s' val _ reads => ?_
  · obtain own | source := List.mem_append.mp hu
    · split at own
      · obtain ⟨e, he, rfl⟩ := List.mem_map.mp own
        exact elems e he
      · rw [List.mem_singleton.mp own]
        decide
    · obtain ⟨e, -, he⟩ := List.mem_filterMap.mp source
      split at he
      next inside =>
        obtain rfl := Option.some.inj he
        simp at inside
        omega
      next => cases he
  · refine congrArg (cx.vecResult s' d) (List.map_congr_left fun e he => ?_)
    rw [from_ val reads e (elems e he), srcAt_eq reads some_ vl]

/-- VID and VBCAST give each acting element a value of their one scalar operand. -/
theorem Cx.scalarMove_takes (h : EntersVec s cx d rd) (valid : d.valid = vecValid) (some_ : 0 < d.srcs.length) (g : Nat → Nat → Nat) :
    cx.Takes s (cx.startVec s d (fun _ => [(0, 0)]) fun s rd => cx.vecResult s d ((cx.activeElems s d.p.grd.toNat).map fun e => (e, g (rd 0 0) e)))
      d.p ((Claims.acting cx s d.p.grd.toNat).map fun e => (e, g (rd 0 0) e)) := by
  refine Cx.startVec_takes h valid (by simp) (fun e he => Nat.lt_of_lt_of_le (acting_lt he) (cx.vl_le s)) fun s' val same reads => ?_
  rw [same.activeElems_eq, reads 0 some_ 0 (by decide)]

theorem signed_ofNat (w x : Nat) : signed w x = (BitVec.ofNat w x).toInt := by
  rw [← signed_toNat, BitVec.toNat_ofNat]
  simp only [signed, Nat.mod_mod]

theorem movements_take : ∀ f ∈ Claims.movements, ∀ (o : ROp) (s : State) (cx : Cx) (rd : Nat → Nat → Nat),
    EntersVec s cx (vecDec o (!f.noB || o.p.srcB == 0) (f.srcs o) (.reg .v)) rd →
    ∃ t, exec (f.instr o) s = .next t ∧
      cx.Takes s t o.p ((Claims.acting cx s o.p.grd.toNat).map fun e => (e, f.val (cx.vl s) rd e)) := by
  simp only [Claims.movements, List.forall_mem_cons, List.not_mem_nil, false_imp_iff, implies_true, and_true]
  refine ⟨?shfl, ?vperm, ?vslide, ?vid, ?vbcast⟩ <;> intro o s cx rd enters
  case shfl =>
    refine ⟨_, withCx_here enters.here _, Cx.vecMove_takes enters rfl Nat.two_pos _ fun val reads e _ => ?_⟩
    rw [reads 1 Nat.one_lt_two 0 (by decide)]
  case vperm =>
    refine ⟨_, withCx_here enters.here _, Cx.vecMove_takes enters rfl Nat.two_pos _ fun val reads e he => ?_⟩
    rw [reads 1 Nat.one_lt_two e he]
  case vslide =>
    refine ⟨_, withCx_here enters.here _, ?_⟩
    simp only [← signed_ofNat]
    refine Cx.vecMove_takes enters rfl Nat.two_pos _ fun val reads e _ => ?_
    rw [reads 1 Nat.one_lt_two 0 (by decide)]
  case vid =>
    refine ⟨_, withCx_here enters.here _, ?_⟩
    have sum : ∀ x e : Nat, (BitVec.ofNat 32 x + BitVec.ofNat 32 e).toNat = (x + e) % 2 ^ 32 := fun x e => by simp
    simp only [sum]
    exact Cx.scalarMove_takes enters rfl Nat.one_pos fun x e => (x + e) % 2 ^ 32
  case vbcast =>
    refine ⟨_, withCx_here enters.here _, ?_⟩
    exact Cx.scalarMove_takes enters rfl Nat.one_pos fun x _ => x % 2 ^ 32

/-- VCMPRS packs the selected elements (R150). -/
theorem vcmprs_takes {o : ROp} (h : EntersVec s cx (vecDec o (o.p.grd == 0) [vSrc o.p.srcA, pSrc o.p.srcB] (.reg .v)) rd) :
    ∃ t, exec (.vcmprs o) s = .next t ∧ cx.Takes s t o.p ((List.range (cx.vl s)).map fun e =>
      (e, if h : e < (Claims.acting cx s o.p.srcB.toNat).length then rd 0 (Claims.acting cx s o.p.srcB.toNat)[e] else 0)) := by
  have vl := cx.vl_le s
  refine ⟨_, withCx_here h.here _, Cx.startVec_takes h rfl (fun val _ u hu => ?_) (fun e he => ?_) fun s' val same reads => ?_⟩
  · obtain ⟨e, he, rfl⟩ := List.mem_map.mp hu
    exact Nat.lt_of_lt_of_le (acting_lt he) vl
  · exact Nat.lt_of_lt_of_le (List.mem_range.mp he) vl
  · rw [same.vl_eq]
    refine congrArg (cx.vecResult s' _) (List.map_congr_left fun e _ => congrArg (Prod.mk e) ?_)
    change ((Claims.acting cx s o.p.srcB.toNat)[e]?.map (val 0)).getD 0 = _
    split
    next inside =>
      rw [List.getElem?_eq_getElem inside]
      exact reads 0 Nat.two_pos _ (Nat.lt_of_lt_of_le (acting_lt (List.getElem_mem inside)) vl)
    next outside => rw [List.getElem?_eq_none (Nat.le_of_not_lt outside)]; rfl

/-- The place of an element among the selected ones is the number of those before it. -/
theorem idxOf?_filter_range (p : Nat → Bool) {n e : Nat} (he : e < n) :
    ((List.range n).filter p).idxOf? e = if p e then some ((List.range e).filter p).length else none := by
  split
  next selected =>
    obtain ⟨m, rfl⟩ : ∃ m, n = e + (m + 1) := ⟨n - e - 1, by omega⟩
    have before : ((List.range e).filter p).findIdx? (· == e) = none := List.findIdx?_eq_none_iff.mpr fun x hx => by
      have := List.mem_range.mp (List.mem_filter.mp hx).1
      simp only [beq_eq_false_iff_ne]
      omega
    rw [List.idxOf?, List.range_add, List.filter_append, List.findIdx?_append, before, List.range_succ_eq_map]
    simp [selected, List.findIdx?_cons]
  next unselected =>
    rw [List.idxOf?_eq_none_iff]
    exact fun mem => unselected (List.mem_filter.mp mem).2

/-- VEXPND spreads the elements over the selected places (R150). -/
theorem vexpnd_takes {o : ROp} (h : EntersVec s cx (vecDec o (o.p.grd == 0) [vSrc o.p.srcA, pSrc o.p.srcB] (.reg .v)) rd) :
    ∃ t, exec (.vexpnd o) s = .next t ∧ cx.Takes s t o.p ((List.range (cx.vl s)).map fun e =>
      (e, if cx.pbit s o.p.srcB.toNat e then rd 0 ((List.range e).filter fun i => cx.pbit s o.p.srcB.toNat i).length else 0)) := by
  have vl := cx.vl_le s
  refine ⟨_, withCx_here h.here _, Cx.startVec_takes h rfl (fun val _ u hu => ?_) (fun e he => ?_) fun s' val same reads => ?_⟩
  · obtain ⟨e, he, rfl⟩ := List.mem_map.mp hu
    have few := List.length_filter_le (fun e => cx.pbit s o.p.srcB.toNat e) (List.range (cx.vl s))
    have := List.mem_range.mp he
    rw [List.length_range] at few
    exact Nat.lt_of_lt_of_le (Nat.lt_of_lt_of_le this few) vl
  · exact Nat.lt_of_lt_of_le (List.mem_range.mp he) vl
  · rw [same.vl_eq]
    refine congrArg (cx.vecResult s' _) (List.map_congr_left fun e he => congrArg (Prod.mk e) ?_)
    have below : e < 256 := Nat.lt_of_lt_of_le (List.mem_range.mp he) vl
    have few := List.length_filter_le (fun i => cx.pbit s o.p.srcB.toNat i) (List.range e)
    rw [List.length_range] at few
    simp only [idxOf?_filter_range _ (List.mem_range.mp he)]
    by_cases selected : cx.pbit s o.p.srcB.toNat e = true
    · simp only [selected, if_true]
      exact reads 0 Nat.two_pos _ (Nat.lt_of_le_of_lt few below)
    · simp only [selected]
      rfl

/-! ### SETVL -/

/-- A control stream has one lane at most. -/
theorem Enters.length_le_one {rs : List (Nat × List Nat)} (h : Enters s cx d rs) (hT : cx.isT = false) (stream : d.perElem = false) : rs.length ≤ 1 := by
  have lanes : cx.lanes s d = [0] := by simp [Cx.lanes, hT, stream]
  calc rs.length = ((cx.lanes s d).filter fun l => cx.pbit s d.p.grd.toNat l).length := by
        simpa using (congrArg List.length h.reads).symm
    _ ≤ [0].length := lanes ▸ List.length_filter_le ..

/-- A destination of class s is one of 32 registers (R97). -/
theorem Cx.dreg_lt_of_s {p : P0} (dst : (if p.nwb then p.dreg.toNat == 0 else cx.regOk s .s p.dreg.toNat) = true) : p.dreg.toNat < 32 := by
  split at dst
  · rw [eq_of_beq dst]
    decide
  · simpa [Cx.regOk] using dst

theorem Cx.Writes.after {c : Cls} {n : Nat} {nwb : Bool} {vals : List (Nat × Nat)} (h : cx.Writes t u c n nwb vals) (same : cx.SameFile s t) :
    cx.Writes s u c n nwb vals where
  written := h.written
  others c' m l has hm hl ho := (h.others c' m l has hm hl ho).trans (same.reg has m l)
  preds m i := (h.preds m i).trans (same.pbit m i)

theorem Cx.RegsSame.sameFile (h : cx.RegsSame s t) : cx.SameFile s t := ⟨h.mem, h.sregs, h.preds⟩

/-- No instruction that writes registers only writes local memory. -/
theorem Cx.Keeps.loc_eq (h : cx.Keeps s t) : (cx.mem t).loc = (cx.mem s).loc := by
  have own := congrArg BlkMem.loc h.ownMem
  exact own

/-- What SETVL makes of the block's registers, for an operand `a` (R148). -/
def setVl (a : Nat) (g : BlkRegs) : BlkRegs := { g with vlen := BitVec.ofNat 9 (min (max a 1) 256) }

/-- What SETVL does in an acting stream. -/
def Cx.setvl (cx : Cx) (d : Dec) (s : State) (r : Nat × List Nat) : State :=
  cx.result (cx.modBlk s fun b => b.modRegs (setVl (aOf r.2))) d .s true [(0, min (aOf r.2) 256)]

theorem Cx.setvl_sets {r : Nat × List Nat} (kind : cx.kind = .V) (placed : cx.Placed s) (goes : (fallNext cx.line cx.pc d.len).2 = false)
    (low : d.p.dreg.toNat < 32) :
    cx.Writes s (cx.setvl d s r) .s d.p.dreg.toNat d.p.nwb [(0, min (aOf r.2) 256)] ∧ cx.regs (cx.setvl d s r) = setVl (aOf r.2) (cx.regs s) ∧
      (cx.setvl d s r).mem = s.mem ∧ (cx.mem (cx.setvl d s r)).loc = (cx.mem s).loc := by
  obtain ⟨c, sl, b, hid, hb⟩ := placed.block (.inr (.inl kind))
  obtain ⟨file, regs, mem, -⟩ := cx.modRegs_seen s (setVl (aOf r.2))
  have placed' : cx.Placed (cx.modBlk s fun b => b.modRegs (setVl (aOf r.2))) := by
    simp only [Cx.modBlk, hid]
    exact placed.modBlock c sl _
  obtain ⟨writes, keeps, same⟩ := Cx.result_writes (cls := .s) (d := d) (vals := [(0, min (aOf r.2) 256)]) placed' (by rw [kind]; rfl) goes (fun _ => low)
    (by simp [Single]) (by simp) (fun e => nomatch e)
  exact ⟨writes.after file, same.trans (regs (placed.blk_isSome hid)), keeps.mem_eq.trans mem, keeps.loc_eq.trans (by rw [file.mem])⟩

/-- SETVL acts once where its guard holds, and else does nothing. -/
theorem exec_setvl {o : ROp} {rs : List (Nat × List Nat)} (h : Enters s cx (vecDec o (o.p.srcB == 0) [sSrc o.p.srcA] (.reg .s)) rs) :
    ∃ s', exec (.setvl o) s = .next (rs.foldl (cx.setvl (vecDec o (o.p.srcB == 0) [sSrc o.p.srcA] (.reg .s))) s') ∧ cx.RegsSame s s' ∧ cx.Keeps s s' := by
  obtain ⟨s', course, same, keeps⟩ := Cx.start_enters h fun s rs => rs.foldl (cx.setvl (vecDec o (o.p.srcB == 0) [sSrc o.p.srcA] (.reg .s))) s
  refine ⟨s', (withCx_here h.here _).trans (congrArg _ ?_), same, keeps⟩
  obtain course | ⟨rfl, course⟩ := course <;> exact course

end Sys2Proof.Machine

open Sys2Proof Sys2Proof.Machine Sys2Proof.Claims in
/-- Settles O11: SETVL by its one lane (`Cx.setvl_sets`), the others by the vector they write (`Cx.startVec_takes`). -/
theorem vectorMovements : Obligations.VectorMovements := by
  refine ⟨fun o s cx rs enters => ?_, movements_take, fun o s cx rd enters => ⟨vcmprs_takes enters, vexpnd_takes enters⟩⟩
  obtain ⟨ok, -, dst, -⟩ := Cx.decodeTrap_none enters.legal
  have kind : cx.kind = .V := by cases kind : cx.kind <;> simp_all [vecDec, vecValid, validIn]
  have notT : cx.isT = false := by rw [Cx.isT, kind]; rfl
  obtain ⟨s', run, same, keeps⟩ := exec_setvl enters
  refine ⟨_, run, ?_⟩
  match rs, enters, enters.length_le_one notT rfl with
  | [], _, _ =>
    exact ⟨⟨by simp, fun c m l has _ _ _ => same.reg has m l, same.pbit⟩, fun _ => same.regs, by simp, keeps.mem_eq, keeps.loc_eq⟩
  | [r], enters, _ =>
    obtain ⟨writes, regs, mem, loc⟩ := Cx.setvl_sets (r := r) kind ((cxOf_placed enters.here).keep keeps) enters.goes (Cx.dreg_lt_of_s dst)
    have lane := enters.lane_zero notT rfl r (List.mem_singleton_self r)
    refine ⟨?_, by simp, fun q hq => ?_, mem.trans keeps.mem_eq, loc.trans keeps.loc_eq⟩
    · rw [List.map_singleton, lane]
      exact writes.after same.sameFile
    · rw [List.mem_singleton.mp hq, ← same.regs]
      exact regs
end

/-! ## VRED and VSCAN (R151 to R154) -/
section
namespace Sys2Proof.Machine

/-! ### The flags of the float steps (R166, R190, R191) -/

theorem invalid_lt (p : Bool) : (if p then fInvalid else 0) < 128 := by cases p <;> decide

theorem Fmt.round_flags_lt (f : Fmt) (rm : Nat) (neg : Bool) (m : Nat) (e : Int) (sticky : Bool) : (f.round rm neg m e sticky).2 < 128 := by
  simp only [Fmt.round]
  split
  · exact (by decide : fOverflow ||| fInexact < 128)
  · refine Nat.or_lt_two_pow (n := 7) ?_ ?_ <;> split <;> decide

theorem Fmt.ofValue_flags_lt (f : Fmt) (rm : Nat) (v : FVal) : (f.ofValue rm v).2 < 128 := by
  cases v with
  | nan s => exact invalid_lt s
  | inf neg => exact Nat.two_pow_pos 7
  | fin neg m e =>
    simp only [Fmt.ofValue, Fmt.ofFin]
    split
    · exact Nat.two_pow_pos 7
    · exact f.round_flags_lt ..

theorem addVal_flags_lt (rm : Nat) (x y : FVal) : (addVal rm x y).2 < 128 := by
  unfold addVal
  split
  case h_1 => exact invalid_lt _
  case h_2 => exact invalid_lt _
  case h_3 => exact invalid_lt _
  case h_4 =>
    split
    · exact Nat.two_pow_pos 7
    · exact (by decide : fInvalid < 128)
  case h_5 => exact Nat.two_pow_pos 7
  case h_6 => exact Nat.two_pow_pos 7
  case h_7 =>
    split
    · exact Nat.two_pow_pos 7
    · simp only
      split <;> exact Nat.two_pow_pos 7

theorem Fmt.add_flags_lt (f : Fmt) (rm a b : Nat) : (f.add rm a b).2 < 128 :=
  Nat.or_lt_two_pow (n := 7) (f.ofValue_flags_lt rm _) (addVal_flags_lt rm _ _)

theorem Fmt.minmax_flags_lt (f : Fmt) (max_ : Bool) (a b : Nat) : (f.minmax max_ a b).2 < 128 := by
  simp only [Fmt.minmax]
  split
  · exact invalid_lt _
  · split
    · exact invalid_lt _
    · split <;> exact invalid_lt _

/-! ### One step -/

/-- The model's step is the table's, on words where it is one of words (R152). -/
theorem ropStep_eq {rop a b : Nat} (rm : Nat) (words : rop < 8 → a < 2 ^ 32 ∧ b < 2 ^ 32) : ropStep rop rm a b = Claims.redOp rop rm a b := by
  have wa : rop < 8 → aOf [a, b] = (BitVec.ofNat 32 a).toNat := fun word => ((BitVec.toNat_ofNat ..).trans (Nat.mod_eq_of_lt (words word).1)).symm
  have wb : rop < 8 → bOf [a, b] = (BitVec.ofNat 32 b).toNat := fun word => ((BitVec.toNat_ofNat ..).trans (Nat.mod_eq_of_lt (words word).2)).symm
  match rop with
  | 0 => exact congrArg (·, 0) (addF_val (wa (by decide)) (wb (by decide)))
  | 1 => exact congrArg (·, 0) ((minF_val (wa (by decide)) (wb (by decide))).trans (apply_ite ..))
  | 2 => exact congrArg (·, 0) ((maxF_val (wa (by decide)) (wb (by decide))).trans (apply_ite ..))
  | 3 => exact congrArg (·, 0) (by rw [minuF, wa (by decide), wb (by decide), Nat.min_def])
  | 4 => exact congrArg (·, 0) (by rw [maxuF, wa (by decide), wb (by decide), Nat.max_comm, Nat.max_def])
  | 5 => exact congrArg (·, 0) (andF_val (wa (by decide)) (wb (by decide)))
  | 6 => exact congrArg (·, 0) (orF_val (wa (by decide)) (wb (by decide)))
  | 7 => exact congrArg (·, 0) (xorF_val (wa (by decide)) (wb (by decide)))
  | 8 | 9 | _ + 10 => rfl

/-- A step of words gives a word. -/
theorem redOp_lt {rop : Nat} (word : rop < 8) (rm x y : Nat) : (Claims.redOp rop rm x y).1 < 2 ^ 32 := by
  have a := (BitVec.ofNat 32 x).isLt
  have b := (BitVec.ofNat 32 y).isLt
  match rop, word with
  | 0, _ | 5, _ | 6, _ | 7, _ => exact BitVec.isLt _
  | 1, _ | 2, _ => simp only [Claims.redOp]; split <;> assumption
  | 3, _ => exact Nat.lt_of_le_of_lt (Nat.min_le_left ..) a
  | 4, _ => exact Nat.max_lt.mpr ⟨a, b⟩

theorem redOp_flags_lt (rop rm x y : Nat) : (Claims.redOp rop rm x y).2 < 128 := by
  unfold Claims.redOp
  split
  case h_9 => exact (fmtOf 0).add_flags_lt rm x y
  case h_10 => exact (fmtOf 0).minmax_flags_lt false x y
  case h_11 => exact (fmtOf 0).minmax_flags_lt true x y
  all_goals exact Nat.two_pow_pos 7

/-! ### Partial results -/

/-- A partial result of words is a word, and its flags are flags. -/
structure Red.Ok (rop : Nat) (r : Red) : Prop where
  word : rop < 8 → ∀ v, r.1 = some v → v < 2 ^ 32
  flags : r.2 < 128

theorem Red.Ok.of_value {rop : Nat} {v : Option Nat} (word : rop < 8 → ∀ x, v = some x → x < 2 ^ 32) : Red.Ok rop (v, 0) :=
  ⟨word, Nat.two_pow_pos 7⟩

variable {rop rm : Nat} {s : State} {cx : Cx}

theorem redBoth_ok {x y : Red} (hx : x.Ok rop) (hy : y.Ok rop) : Red.Ok rop (Claims.redBoth rop rm x y) := by
  have both : x.2 ||| y.2 < 128 := Nat.or_lt_two_pow (n := 7) hx.flags hy.flags
  obtain ⟨_ | a, f⟩ := x
  · exact ⟨hy.word, both⟩
  · obtain ⟨_ | b, g⟩ := y
    · exact ⟨hx.word, both⟩
    · refine ⟨fun word v h => ?_, Nat.or_lt_two_pow (n := 7) both (redOp_flags_lt ..)⟩
      rw [← Option.some.inj h]
      exact redOp_lt word ..

theorem redJoin_eq {x y : Red} (hx : x.Ok rop) (hy : y.Ok rop) : redJoin rop rm x y = Claims.redBoth rop rm x y := by
  obtain ⟨_ | a, f⟩ := x
  · rfl
  · obtain ⟨_ | b, g⟩ := y
    · rfl
    · simp only [redJoin, Claims.redBoth, ropStep_eq rm fun word => ⟨hx.word word a rfl, hy.word word b rfl⟩]

/-! ### In ascending order -/

/-- Elements that do not act are passed over. -/
theorem foldl_redJoin {act : List Nat} {val : Nat → Nat} (words : rop < 8 → ∀ e ∈ act, val e < 2 ^ 32) (l : List Nat) {r : Red} (ok : r.Ok rop) :
    l.foldl (fun r e => redJoin rop rm r (if act.contains e then some (val e) else none, 0)) r =
        (l.filter fun e => act.contains e).foldl (fun r e => Claims.redBoth rop rm r (some (val e), 0)) r ∧
      Red.Ok rop ((l.filter fun e => act.contains e).foldl (fun r e => Claims.redBoth rop rm r (some (val e), 0)) r) := by
  induction l generalizing r with
  | nil => exact ⟨rfl, ok⟩
  | cons e l ih =>
    by_cases acts : act.contains e = true
    · have leaf : Red.Ok rop (some (val e), 0) :=
        .of_value fun word v h => Option.some.inj h ▸ words word e (List.contains_iff_mem.mp acts)
      simp only [List.foldl_cons, List.filter_cons, acts, if_true, redJoin_eq ok leaf]
      exact ih (redBoth_ok ok leaf)
    · have pass : redJoin rop rm r (none, 0) = r := by
        obtain ⟨_ | a, f⟩ := r <;> simp [redJoin]
      simp only [List.foldl_cons, List.filter_cons, acts, Bool.false_eq_true, if_false, pass]
      exact ih ok

/-! ### As the tree -/

theorem redTree_ok {leaf : Nat → Option Nat} (words : rop < 8 → ∀ e v, leaf e = some v → v < 2 ^ 32) (k i : Nat) :
    Red.Ok rop (Claims.redTree rop rm leaf k i) := by
  induction k generalizing i with
  | zero => exact .of_value fun word => words word i
  | succ k ih => exact redBoth_ok (ih i) (ih (i + 2 ^ k))

/-- A level of the tree joins neighbours. -/
theorem pairUp_range (F : Nat → Red) (m : Nat) :
    pairUp rop rm ((List.range (2 * m)).map F) = (List.range m).map fun i => redJoin rop rm (F (2 * i)) (F (2 * i + 1)) := by
  induction m generalizing F with
  | zero => rfl
  | succ m ih =>
    rw [show 2 * (m + 1) = 2 * m + 1 + 1 by omega, List.range_succ_eq_map, List.range_succ_eq_map, List.range_succ_eq_map]
    have rest := ih fun i => F (i + 2)
    simp only [List.map_cons, List.map_map, Function.comp_def, pairUp] at rest ⊢
    exact congrArg (List.cons _) rest

/-- The levels above level `k` of the tree. -/
theorem treeRed_range {leaf : Nat → Option Nat} (words : rop < 8 → ∀ e v, leaf e = some v → v < 2 ^ 32) (n k : Nat) :
    treeRed rop rm n ((List.range (2 ^ n)).map fun i => Claims.redTree rop rm leaf k (i * 2 ^ k)) = [Claims.redTree rop rm leaf (k + n) 0] := by
  induction n generalizing k with
  | zero => simp [treeRed]
  | succ n ih =>
    rw [treeRed, Nat.pow_succ', pairUp_range, Nat.add_comm n 1, ← Nat.add_assoc, ← ih (k + 1)]
    refine congrArg (treeRed rop rm n) (List.map_congr_left fun i _ => ?_)
    rw [redJoin_eq (redTree_ok words ..) (redTree_ok words ..), Claims.redTree, show 2 * i * 2 ^ k = i * 2 ^ (k + 1) by ring,
      show (2 * i + 1) * 2 ^ k = i * 2 ^ (k + 1) + 2 ^ k by ring]

theorem treeRed_leaves {leaf : Nat → Option Nat} (words : rop < 8 → ∀ e v, leaf e = some v → v < 2 ^ 32) (n : Nat) :
    treeRed rop rm n ((List.range (2 ^ n)).map fun e => (leaf e, 0)) = [Claims.redTree rop rm leaf n 0] := by
  have leaves : ∀ e, Claims.redTree rop rm leaf 0 e = (leaf e, 0) := fun _ => rfl
  simpa only [Nat.pow_zero, Nat.mul_one, Nat.zero_add, leaves] using treeRed_range (rm := rm) words n 0

/-! ### Reduce -/

/-- Reduce of the model is Reduce of R152, for elements of which those that act are words where the steps are steps of words. -/
theorem reduce_eq (any : Bool) {n : Nat} {act : List Nat} {val : Nat → Nat} (words : rop < 8 → ∀ e ∈ act, val e < 2 ^ 32)
    (below : act.filter (· < n) = (List.range n).filter fun e => act.contains e) :
    reduce any rop rm n (fun e => if act.contains e then some (val e) else none) = Claims.reduction any rop rm n act val ∧
      Red.Ok rop (Claims.reduction any rop rm n act val) := by
  cases any with
  | false =>
    simp only [reduce, Claims.reduction, below, Bool.false_eq_true, if_false]
    exact foldl_redJoin words _ (.of_value fun _ _ h => nomatch h)
  | true =>
    have leaves : ∀ e, (if e < n then if act.contains e then some (val e) else none else none) = if e < n ∧ e ∈ act then some (val e) else none := by
      intro e
      by_cases low : e < n <;> simp [low]
    have wordLeaves : rop < 8 → ∀ e v, (if e < n ∧ e ∈ act then some (val e) else none) = some v → v < 2 ^ 32 := by
      intro word e v h
      split at h
      next acts => exact Option.some.inj h ▸ words word e acts.2
      next => cases h
    have tree := treeRed_leaves (rm := rm) wordLeaves 8
    rw [show 2 ^ 8 = 256 from rfl] at tree
    simp only [reduce, Claims.reduction, if_true, leaves, tree]
    exact ⟨rfl, redTree_ok wordLeaves 8 0⟩

/-- The acting elements below `n`, in ascending order. -/
theorem acting_below {grd n : Nat} (hn : n ≤ cx.vl s) :
    (Claims.acting cx s grd).filter (· < n) = (List.range n).filter fun e => (Claims.acting cx s grd).contains e := by
  obtain ⟨m, hm⟩ := Nat.exists_eq_add_of_le hn
  have low : (List.range n).filter (fun e => decide (e < n) && cx.pbit s grd e) = (List.range n).filter fun e => (Claims.acting cx s grd).contains e :=
    List.filter_congr fun e he => by
      have below := List.mem_range.mp he
      simp [Claims.acting, below, Nat.lt_of_lt_of_le below hn]
  have high : ((List.range m).map (n + ·)).filter (fun e => decide (e < n) && cx.pbit s grd e) = [] :=
    List.filter_eq_nil_iff.mpr fun e he => by
      obtain ⟨i, -, rfl⟩ := List.mem_map.mp he
      simp
  conv_lhs => rw [Claims.acting, List.filter_filter, hm, List.range_add, List.filter_append, high, List.append_nil]
  exact low

/-! ### The operand of a reduction -/

variable {o : POp} {rd : Nat → Nat → Nat} {scan : Bool}

/-- The operand of steps of words reads as words (R96, R151). -/
theorem EntersVec.redDec_lt (h : EntersVec s cx (redDec o scan) rd) (word : bits o.param.toNat 31 28 < 8) {e : Nat} (he : e < 256) : rd 0 e < 2 ^ 32 := by
  have integer : ¬bits o.param.toNat 31 28 ≥ 8 := by omega
  obtain ⟨x, hx, shape⟩ : ∃ x, (redDec o scan).srcs[0]? = some x ∧ x.flt = none ∧ x.rc = .v ∧ x.wide = false :=
    ⟨_, rfl, if_neg integer, rfl, rfl⟩
  obtain ⟨flt, rc, wide⟩ := shape
  have ok := List.all_eq_true.mp (Cx.decodeTrap_none h.legal).2.2.2 x (List.mem_of_getElem? hx)
  have bound := Cx.read_lt flt (by rw [rc]; decide) ok (h.reads 0 x hx e he)
  rwa [Src.limit, wide] at bound

/-- Reduce over the acting elements below `n`, as VRED and VSCAN compute it. -/
theorem EntersVec.reduce_eq (h : EntersVec s cx (redDec o scan) rd) {val : Nat → Nat → Nat} (reads : Reads (redDec o scan) rd val) {grd n : Nat} (hn : n ≤ cx.vl s) :
    let p := o.param.toNat
    let red := Claims.reduction (bit p 27) (bits p 31 28) (bits p 26 24) n (Claims.acting cx s grd) (rd 0)
    reduce (bit p 27) (bits p 31 28) (bits p 26 24) n (fun e => if (Claims.acting cx s grd).contains e then some (val 0 e) else none) = red ∧ red.2 < 128 := by
  have elems : ∀ e ∈ Claims.acting cx s grd, e < 256 := fun e he => Nat.lt_of_lt_of_le (acting_lt he) (cx.vl_le s)
  have same : (fun e => if (Claims.acting cx s grd).contains e then some (val 0 e) else none) =
      fun e => if (Claims.acting cx s grd).contains e then some (rd 0 e) else none := funext fun e => by
    by_cases acts : e ∈ Claims.acting cx s grd
    · rw [reads 0 Nat.one_pos e (elems e acts)]
    · simp [acts]
  obtain ⟨eq, ok⟩ := Machine.reduce_eq (rm := bits o.param.toNat 26 24) (bit o.param.toNat 27) (val := rd 0)
    (fun word e he => h.redDec_lt word (elems e he)) (acting_below (grd := grd) hn)
  exact ⟨same ▸ eq, ok.flags⟩

/-! ### The course of a result with flags -/

/-- Results that meet no enabled condition are written, their flags join FSTAT, and nothing else changes (R126, R189). -/
theorem Cx.flagged_writes {d : Dec} {cls : Cls} (placed : cx.Placed s) (has : cx.kind.has cls = true) (goes : (fallNext cx.line cx.pc d.len).2 = false)
    (dreg : cls = .s → d.p.dreg.toNat < 32) {fs : List (Nat × Nat × Nat)} (quiet : ∀ r ∈ fs, enabled (cx.fen s) r.2.2 = 0)
    (single : Single (fs.map fun r => (r.1, r.2.1))) (one : cls = .s → fs.length ≤ 1) (elems : cls = .v → ∀ r ∈ fs, r.1 < 256) :
    let t := cx.flagged s d fs fun s rs => cx.result s d cls (cls == .s) rs
    cx.Writes s t cls d.p.dreg.toNat d.p.nwb (fs.map fun r => (r.1, r.2.1)) ∧ cx.Keeps s t ∧
      ((cx.blk s).isSome → (cx.regs t).fstat = (cx.regs s).fstat ||| BitVec.ofNat 32 (orAll (fs.map (·.2.2)) % 128)) := by
  obtain ⟨reg, pbit, keeps, regs⟩ := cx.orFlags_keeps s (orAll (fs.map (·.2.2)))
  obtain ⟨writes, kept, same⟩ := Cx.result_writes (d := d) (placed.keep keeps) has goes dreg single
    (fun hs a ha b hb => eq_of_length_le_one (by simpa using one hs) ha hb) (fun hv r hr => by
      obtain ⟨q, hq, rfl⟩ := List.mem_map.mp hr
      exact elems hv q hq)
  simp only [Cx.flagged_none cx s d fs _ quiet]
  refine ⟨⟨writes.written, fun c m l hc hm hl ho => (writes.others c m l hc hm hl ho).trans (reg c m l hc), fun m i => (writes.preds m i).trans (pbit m i)⟩,
    keeps.trans kept, fun hb => ?_⟩
  rw [same, regs, if_pos hb]

/-- From `s` to `t` the destination takes the values of the lanes and FSTAT their flags; everything else stays. -/
def Cx.Joins (cx : Cx) (s t : State) (cls : Cls) (p : P0) (fs : List (Nat × Nat × Nat)) : Prop :=
  cx.Writes s t cls p.dreg.toNat p.nwb (fs.map fun r => (r.1, r.2.1)) ∧ cx.Keeps s t ∧
    (cx.regs t).fstat = (cx.regs s).fstat ||| BitVec.ofNat 32 (orAll (fs.map (·.2.2)))

/-- A vector-only instruction whose effect is a result with flags, of which none is enabled. -/
theorem Cx.startVec_flagged {d : Dec} {cls : Cls} (h : EntersVec s cx d rd) (valid : d.valid = vecValid) (dst : d.dst = .reg (rcOf cls)) (vector : cls ≠ .g)
    {uses : (Nat → Nat → Nat) → List (Nat × Nat)} (within : ∀ val, Reads d rd val → ∀ u ∈ uses val, u.2 < 256)
    {k : State → (Nat → Nat → Nat) → State} {fs : List (Nat × Nat × Nat)}
    (effect : ∀ s' val, cx.RegsSame s s' → Reads d rd val → k s' val = cx.flagged s' d fs fun s rs => cx.result s d cls (cls == .s) rs)
    (quiet : ∀ r ∈ fs, enabled (cx.fen s) r.2.2 = 0) (flags : ∀ r ∈ fs, r.2.2 < 128)
    (single : Single (fs.map fun r => (r.1, r.2.1))) (one : cls = .s → fs.length ≤ 1) (elems : cls = .v → ∀ r ∈ fs, r.1 < 256) :
    cx.Joins s (cx.startVec s d uses k) cls d.p fs := by
  have kind := h.vector valid
  have has : cx.kind.has cls = true := by
    rw [kind]
    match cls, vector with
    | .s, _ | .v, _ => rfl
  have low : cls = .s → d.p.dreg.toNat < 32 := by
    rintro rfl
    have ok := (Cx.decodeTrap_none h.legal).2.2.1
    rw [dst] at ok
    exact Cx.dreg_lt_of_s ok
  obtain ⟨s', val, run, same, keeps, reads⟩ := Cx.startVec_enters h within k
  have placed := (cxOf_placed h.here).keep keeps
  have fen : cx.fen s' = cx.fen s := by rw [Cx.fen, Cx.fen, same.regs]
  obtain ⟨writes, kept, fstat⟩ := Cx.flagged_writes placed has h.goes low (by rw [fen]; exact quiet) single one elems
  obtain ⟨c, sl, b, hid, -⟩ := placed.block (.inr (.inl kind))
  have joined : orAll (fs.map (·.2.2)) < 128 := orAll_lt (n := 7) (List.forall_mem_map.mpr flags)
  rw [run, effect s' val same reads]
  refine ⟨writes.mono has same (.refl cx _), keeps.trans kept, ?_⟩
  rw [fstat (placed.blk_isSome hid), same.regs, Nat.mod_eq_of_lt joined]

theorem redExtend_eq (rop v : Nat) : redExtend rop v = if rop ≤ 2 then ((BitVec.ofNat 32 v).signExtend 64).toNat else v := by
  rw [redExtend, wrapNat_eq, signed_ofNat, BitVec.signExtend]

/-- The acting elements of the operand are all there to be read. -/
theorem acting_within {grd : Nat} (u : Nat × Nat) (hu : u ∈ (Claims.acting cx s grd).map fun e => (0, e)) : u.2 < 256 := by
  obtain ⟨e, he, rfl⟩ := List.mem_map.mp hu
  exact Nat.lt_of_lt_of_le (acting_lt he) (cx.vl_le s)

/-- What VRED writes, as one result with flags (R153). -/
theorem vred_joins (h : EntersVec s cx (redDec o false) rd) :
    let p := o.param.toNat
    let red := Claims.reduction (bit p 27) (bits p 31 28) (bits p 26 24) (cx.vl s) (Claims.acting cx s o.p.grd.toNat) (rd 0)
    red.2 &&& cx.fen s &&& 0x5F = 0 → ∃ t, exec (.vred o) s = .next t ∧
      cx.Joins s t .s o.p [(0, redExtend (bits p 31 28) (red.1.getD (ropIdentity (bits p 31 28))), red.2)] := by
  intro p red quiet
  have flags := (h.reduce_eq (fun _ _ _ _ => rfl) (grd := o.p.grd.toNat) le_rfl).2
  refine ⟨_, withCx_here h.here _, Cx.startVec_flagged h rfl rfl (by decide) (fun _ _ => acting_within) (fun s' val same reads => ?_)
    (List.forall_mem_singleton.mpr quiet) (List.forall_mem_singleton.mpr flags) (by simp [Single]) (by simp) fun e => nomatch e⟩
  have eq := (h.reduce_eq reads (grd := o.p.grd.toNat) le_rfl).1
  rw [same.vl_eq]
  exact congrArg (fun r : Red => cx.flagged s' (redDec o false) [(0, redExtend (bits p 31 28) (r.1.getD (ropIdentity (bits p 31 28))), r.2)]
    fun s rs => cx.result s (redDec o false) .s true rs) eq

/-- What VSCAN writes, as a result with flags for each acting element (R154). -/
theorem vscan_joins (h : EntersVec s cx (redDec o true) rd) :
    let p := o.param.toNat
    let act := Claims.acting cx s o.p.grd.toNat
    let upTo := fun (e : Nat) => Claims.reduction (bit p 27) (bits p 31 28) (bits p 26 24) (if bit p 19 then e else e + 1) act (rd 0)
    (∀ e ∈ act, (upTo e).2 &&& cx.fen s &&& 0x5F = 0) → ∃ t, exec (.vscan o) s = .next t ∧
      cx.Joins s t .v o.p (act.map fun e => (e, (upTo e).1.getD (ropIdentity (bits p 31 28)), (upTo e).2)) := by
  intro p act upTo quiet
  have inside : ∀ e ∈ act, (if bit p 19 then e else e + 1) ≤ cx.vl s := fun e he => by
    have := acting_lt he
    split <;> omega
  have flags : ∀ e ∈ act, (upTo e).2 < 128 := fun e he => (h.reduce_eq (fun _ _ _ _ => rfl) (inside e he)).2
  have single : Single ((act.map fun e => (e, (upTo e).1.getD (ropIdentity (bits p 31 28)), (upTo e).2)).map fun r => (r.1, r.2.1)) := by
    rw [List.map_map]
    exact single_map act _
  refine ⟨_, withCx_here h.here _, Cx.startVec_flagged h rfl rfl (by decide) (fun _ _ => acting_within) (fun s' val _ reads => ?_)
    (List.forall_mem_map.mpr quiet) (List.forall_mem_map.mpr flags) single (fun e => nomatch e)
    fun _ => List.forall_mem_map.mpr fun e he => Nat.lt_of_lt_of_le (acting_lt he) (cx.vl_le s)⟩
  refine congrArg (fun rs => cx.flagged s' (redDec o true) rs fun s rs => cx.result s (redDec o true) .v false rs) (List.map_congr_left fun e he => ?_)
  exact congrArg (fun r : Red => (e, r.1.getD (ropIdentity (bits p 31 28)), r.2)) (h.reduce_eq reads (inside e he)).1

end Sys2Proof.Machine

open Sys2Proof Sys2Proof.Machine Sys2Proof.Claims in
/-- Settles O12: Reduce of the model is Reduce of R152 (`reduce_eq`), and its results with their flags are written (`Cx.startVec_flagged`). -/
theorem vectorReductions : Obligations.VectorReductions := by
  intro o s cx rd p rop act red
  refine ⟨fun enters quiet => ?_, fun enters quiet => ?_⟩
  · obtain ⟨t, run, writes, keeps, fstat⟩ := vred_joins enters quiet
    refine ⟨t, run, ?_, keeps, ?_⟩
    · simp only [← redExtend_eq]
      exact writes
    · exact fstat.trans (congrArg (fun flags => (cx.regs s).fstat ||| BitVec.ofNat 32 flags) (Nat.zero_or _))
  · obtain ⟨t, run, writes, keeps, fstat⟩ := vscan_joins enters quiet
    rw [List.map_map] at writes fstat
    exact ⟨t, run, writes, keeps, fstat⟩
end

/-! ## Rounding on a grid (R162)

What the modes mean on any rising row of magnitudes, and that RoundAt of the model picks so on the integers. -/
section
namespace Sys2Proof.Machine

/-! ### Rounding on a grid (R162) -/

/-- Which of `k` and `k + 1` a magnitude `x` between the two is rounded to, on the rising grid `g` (R162). -/
def pick (rm : Nat) (neg : Bool) (g : Nat → Rat) (x : Rat) (k : Nat) : Nat :=
  if roundsUp rm neg k (compare (2 * x) (g k + g (k + 1))) (decide (g k ≠ x)) then k + 1 else k

theorem roundsUp_exact (rm : Nat) (neg : Bool) (n : Nat) : roundsUp rm neg n .lt false = false := by
  match rm with
  | 0 | 1 => rfl
  | 2 => exact Bool.and_false neg
  | _ + 3 => exact Bool.and_false _

variable {g : Nat → Rat} {x : Rat} {k : Nat} {rm : Nat} {neg : Bool}

theorem pick_self (rise : g k < g (k + 1)) (exact_ : g k = x) : pick rm neg g x k = k := by
  have below : compare (2 * x) (g k + g (k + 1)) = .lt := compare_lt_iff_lt.mpr (by linarith)
  rw [pick, below, decide_eq_false (by simpa using exact_), roundsUp_exact]
  rfl

/-! ### RoundAt on the integers -/

/-- What is left of a unit compares with one half as `x` does with the middle of the two integers about it. -/
theorem compare_half {n r j : Nat} (split_ : x = n + r / 2 ^ (j + 1)) :
    (if r = 2 ^ j then Ordering.eq else if r < 2 ^ j then .lt else .gt) = compare (2 * x) (n + (n + 1 : Nat)) := by
  have unit_ : (0 : Rat) < 2 ^ j := by positivity
  have twice : 2 * x = n + n + r / 2 ^ j := by
    rw [split_, pow_succ]
    field_simp
    ring
  rw [twice, eq_comm]
  split
  next eq =>
    rw [eq, Nat.cast_pow, Nat.cast_ofNat, div_self unit_.ne']
    exact compare_eq_iff_eq.mpr (by push_cast; ring)
  next ne =>
    split
    next lt =>
      have : (r : Rat) / 2 ^ j < 1 := (div_lt_one unit_).mpr (by exact_mod_cast lt)
      exact compare_lt_iff_lt.mpr (by push_cast; linarith)
    next ge =>
      have : 1 < (r : Rat) / 2 ^ j := (one_lt_div unit_).mpr (by exact_mod_cast (by omega : 2 ^ j < r))
      exact compare_gt_iff_gt.mpr (by push_cast; linarith)

/-- RoundAt of a magnitude that is known exactly picks one of the two multiples about it. -/
theorem roundAt_eq (rm : Nat) (neg : Bool) (m : Nat) (e q : Int) :
    let x : Rat := m * (2 : Rat) ^ (e - q)
    roundAt rm neg m e false q = (pick rm neg Nat.cast x ⌊x⌋₊, decide ((⌊x⌋₊ : Rat) ≠ x)) := by
  intro x
  by_cases fine : q ≤ e
  · obtain ⟨j, hj⟩ := Int.le.dest fine
    have whole : x = (m * 2 ^ j : Nat) := by
      simp only [x, show e - q = (j : Int) by omega, zpow_natCast]
      norm_num
    rw [roundAt, if_pos fine, show (e - q).toNat = j by omega, whole, Nat.floor_natCast, pick_self (by simp) rfl]
    simp
  · obtain ⟨j, hj⟩ := Int.le.dest (Int.not_le.mp fine)
    have scaled : x = m / (2 ^ (j + 1) : Nat) := by
      simp only [x, show e - q = -((j + 1 : Nat) : Int) by omega, zpow_neg, zpow_natCast, div_eq_mul_inv]
      norm_num
    have floor_ : ⌊x⌋₊ = m / 2 ^ (j + 1) := by rw [scaled, Nat.floor_div_eq_div]
    have split_ : x = (m / 2 ^ (j + 1) : Nat) + (m % 2 ^ (j + 1) : Nat) / 2 ^ (j + 1) := by
      conv_lhs => rw [scaled, ← Nat.div_add_mod m (2 ^ (j + 1))]
      push_cast
      field_simp
    have rest : (m % 2 ^ (j + 1) != 0) = decide (((m / 2 ^ (j + 1) : Nat) : Rat) ≠ x) := by
      rw [split_, Bool.eq_iff_iff]
      simp
    rw [floor_, pick, ← compare_half split_, ← rest, roundAt, if_neg fine, show (q - e).toNat = j + 1 by omega]
    simp

/-! ### What is picked -/

/-- Index `k` is the last of the rising grid `g` at or below `x`; the first at or above it; the closest, on a tie the even one. -/
def IsFloor (g : Nat → Rat) (x : Rat) (k : Nat) : Prop := g k ≤ x ∧ ∀ i, g i ≤ x → i ≤ k
def IsCeil (g : Nat → Rat) (x : Rat) (k : Nat) : Prop := x ≤ g k ∧ ∀ i, x ≤ g i → k ≤ i
def IsNearest (g : Nat → Rat) (x : Rat) (k : Nat) : Prop :=
  ∀ i, |x - g k| ≤ |x - g i| ∧ (i ≠ k → |x - g k| = |x - g i| → k % 2 = 0)

/-- The magnitude `x` of a number of the sign is rounded under RM to index `k`. -/
def IsRounded (g : Nat → Rat) (rm : Nat) (neg : Bool) (x : Rat) (k : Nat) : Prop :=
  match rm with
  | 0 => IsNearest g x k
  | 1 => IsFloor g x k
  | 2 => if neg then IsCeil g x k else IsFloor g x k
  | _ => if neg then IsFloor g x k else IsCeil g x k

section
variable (mono : StrictMono g) (low : g k ≤ x) (high : x < g (k + 1))
include mono low high

theorem isFloor_of_between : IsFloor g x k :=
  ⟨low, fun _ hi => Nat.lt_succ_iff.mp (mono.lt_iff_lt.mp (hi.trans_lt high))⟩

theorem isCeil_of_between : IsCeil g x (if g k ≠ x then k + 1 else k) := by
  split
  next ne => exact ⟨high.le, fun i hi => mono.lt_iff_lt.mp ((lt_of_le_of_ne low ne).trans_le hi)⟩
  next eq => exact ⟨(not_not.mp eq).ge, fun i hi => mono.le_iff_le.mp (low.trans hi)⟩

theorem isNearest_low (near : 2 * x ≤ g k + g (k + 1)) (even : 2 * x = g k + g (k + 1) → k % 2 = 0) : IsNearest g x k := by
  intro i
  rw [abs_of_nonneg (sub_nonneg.mpr low)]
  obtain below | rfl | above := lt_trichotomy i k
  · have less := mono below
    rw [abs_of_nonneg (by linarith)]
    exact ⟨by linarith, fun _ tie => absurd tie (by linarith)⟩
  · exact ⟨le_abs_self _, fun ne => absurd rfl ne⟩
  · have more : g (k + 1) ≤ g i := mono.monotone above
    rw [abs_of_nonpos (by linarith)]
    exact ⟨by linarith, fun _ tie => even (by linarith)⟩

omit low in
theorem isNearest_high (near : g k + g (k + 1) ≤ 2 * x) (even : 2 * x = g k + g (k + 1) → (k + 1) % 2 = 0) : IsNearest g x (k + 1) := by
  intro i
  rw [abs_of_neg (sub_neg.mpr high)]
  obtain above | rfl | below := lt_trichotomy (k + 1) i
  · have more := mono above
    rw [abs_of_neg (by linarith)]
    exact ⟨by linarith, fun _ tie => absurd tie (by linarith)⟩
  · exact ⟨neg_le_abs _, fun ne => absurd rfl ne⟩
  · have less : g i ≤ g k := mono.monotone (Nat.lt_succ_iff.mp below)
    rw [abs_of_nonneg (by linarith)]
    exact ⟨by linarith, fun _ tie => even (by linarith)⟩

theorem isNearest_pick : IsNearest g x (pick 0 neg g x k) := by
  rw [pick]
  cases half : compare (2 * x) (g k + g (k + 1)) with
  | lt =>
    have near := compare_lt_iff_lt.mp half
    exact isNearest_low mono low high near.le fun tie => absurd tie near.ne
  | gt =>
    have near := compare_gt_iff_gt.mp half
    exact isNearest_high mono high near.le fun tie => absurd tie near.ne'
  | eq =>
    have tie := compare_eq_iff_eq.mp half
    simp only [roundsUp, beq_iff_eq]
    split
    next odd => exact isNearest_high mono high tie.ge fun _ => by omega
    next even => exact isNearest_low mono low high tie.le fun _ => by omega

/-- What is picked is the magnitude rounded as the mode says (R162). -/
theorem isRounded_pick : IsRounded g rm neg x (pick rm neg g x k) := by
  have floor_ := isFloor_of_between mono low high
  have ceil_ := isCeil_of_between mono low high
  match rm, neg with
  | 0, _ => exact isNearest_pick mono low high
  | 1, _ | 2, false | _ + 3, true => exact floor_
  | 2, true | _ + 3, false => simpa [IsRounded, pick, roundsUp] using ceil_

omit low in
/-- What is picked is the magnitude itself exactly when the lower of the two is. -/
theorem pick_exact : g (pick rm neg g x k) = x ↔ g k = x := by
  constructor
  · rw [pick]
    split
    · exact fun eq => absurd eq high.ne'
    · exact id
  · exact fun eq => (congrArg g (pick_self (mono k.lt_succ_self) eq)).trans eq
end

theorem IsRounded.lt_of_lt (h : IsRounded g rm neg x k) (mono : StrictMono g) {i : Nat} (hi : i < k) : g i < x := by
  have floor_ : IsFloor g x k → g i < x := fun h => (mono hi).trans_le h.1
  have ceil_ : IsCeil g x k → g i < x := fun h => not_le.mp fun le => absurd (h.2 i le) (Nat.not_le.mpr hi)
  match rm, neg with
  | 0, _ =>
    by_contra above
    have rise := mono hi
    have near := (h i).1
    rw [abs_of_nonpos (by linarith), abs_of_nonpos (by linarith)] at near
    linarith
  | 1, _ | 2, false | _ + 3, true => exact floor_ h
  | 2, true | _ + 3, false => exact ceil_ h

end Sys2Proof.Machine
end

/-! ## The magnitudes of a float format (R157, R158)

The codes of one sign are the indices of a rising row of magnitudes, in blocks of equal units, with infinity at the end. -/
section
namespace Sys2Proof.Machine

open Sys2Proof.Claims (real finite negative)

variable {f : Fmt} {x : Rat} {k : Nat} {rm : Nat} {neg : Bool}

/-! ### The magnitudes of a format (R157, R158) -/

/-- The exponent of a format's least unit. -/
def Fmt.low (f : Fmt) : Int := 1 - f.bias - f.p

/-- The magnitude whose exponent and fraction fields are the number `k`; beyond those of the format the row goes on. -/
def Fmt.grid (f : Fmt) (k : Nat) : Rat :=
  (if k / 2 ^ f.p = 0 then k % 2 ^ f.p else 2 ^ f.p + k % 2 ^ f.p : Nat) * (2 : Rat) ^ (f.low + (k / 2 ^ f.p - 1 : Nat))

/-- Multiples of a unit that begin in the exponent's row are magnitudes of the format, up to the first of the next row. -/
theorem Fmt.grid_block (f : Fmt) {j n : Nat} (row : j = 0 ∨ 2 ^ f.p ≤ n) (le : n ≤ 2 ^ (f.p + 1)) :
    f.grid (j * 2 ^ f.p + n) = n * (2 : Rat) ^ (f.low + j) := by
  have pos := Nat.two_pow_pos f.p
  rw [Nat.pow_succ] at le
  obtain least | ⟨r, i, rfl, rfl⟩ : (j = 0 ∧ n < 2 ^ f.p) ∨ ∃ r i, n = 2 ^ f.p + r ∧ i = j + 1 := by
    by_cases h : n < 2 ^ f.p
    · exact .inl ⟨by omega, h⟩
    · exact .inr ⟨n - 2 ^ f.p, j + 1, by omega, rfl⟩
  · obtain ⟨rfl, lt⟩ := least
    simp [Fmt.grid, Nat.div_eq_of_lt lt, Nat.mod_eq_of_lt lt]
  · rw [show j * 2 ^ f.p + (2 ^ f.p + r) = r + 2 ^ f.p * (j + 1) by ring]
    obtain inside | rfl := Nat.lt_or_eq_of_le (Nat.le_of_add_le_add_left (by omega : 2 ^ f.p + r ≤ 2 ^ f.p + 2 ^ f.p))
    · simp [Fmt.grid, Nat.add_mul_div_left _ _ pos, Nat.div_eq_of_lt inside, Nat.mod_eq_of_lt inside]
    · rw [show 2 ^ f.p + 2 ^ f.p * (j + 1) = 2 ^ f.p * (j + 2) by ring]
      have doubled : (2 : Rat) ^ (f.low + (j + 1 : Nat)) = (2 : Rat) ^ (f.low + j) * 2 := by
        rw [Nat.cast_succ, ← add_assoc, zpow_add_one₀ two_ne_zero]
      simp only [Fmt.grid, Nat.mul_div_cancel_left _ pos, Nat.mul_mod_right, if_neg (Nat.succ_ne_zero _),
        show j + 2 - 1 = j + 1 from rfl, doubled]
      push_cast
      ring

/-- Every magnitude stands in a row. -/
theorem Fmt.exists_block (f : Fmt) (k : Nat) : ∃ j n, k = j * 2 ^ f.p + n ∧ (j = 0 ∨ 2 ^ f.p ≤ n) ∧ n < 2 ^ (f.p + 1) := by
  have parts := Nat.div_add_mod k (2 ^ f.p)
  have small := Nat.mod_lt k (Nat.two_pow_pos f.p)
  rw [Nat.pow_succ]
  cases row : k / 2 ^ f.p with
  | zero => exact ⟨0, k % 2 ^ f.p, by rw [row] at parts; omega, .inl rfl, by omega⟩
  | succ j => exact ⟨j, 2 ^ f.p + k % 2 ^ f.p, by rw [row, Nat.mul_succ] at parts; rw [Nat.mul_comm]; omega, .inr (by omega), by omega⟩

theorem Fmt.grid_strictMono (f : Fmt) : StrictMono f.grid := strictMono_nat_of_lt_succ fun k => by
  obtain ⟨j, n, rfl, row, lt⟩ := f.exists_block k
  rw [f.grid_block row lt.le, Nat.add_assoc, f.grid_block (row.imp_right Nat.le_succ_of_le) lt]
  exact mul_lt_mul_of_pos_right (by simp) (by positivity)

theorem Fmt.grid_zero (f : Fmt) : f.grid 0 = 0 := by simp [Fmt.grid]

theorem Fmt.grid_nonneg (f : Fmt) (k : Nat) : 0 ≤ f.grid k := f.grid_zero ▸ f.grid_strictMono.monotone k.zero_le

/-- In a row the index is picked as the multiple of the row's unit is. -/
theorem Fmt.pick_block {j n : Nat} (fraction : 0 < f.p) (row : j = 0 ∨ 2 ^ f.p ≤ n) (lt : n < 2 ^ (f.p + 1)) (a : Rat) :
    pick rm neg f.grid (a * (2 : Rat) ^ (f.low + j)) (j * 2 ^ f.p + n) = j * 2 ^ f.p + pick rm neg Nat.cast a n := by
  have unit_ : (0 : Rat) < (2 : Rat) ^ (f.low + j) := by positivity
  have parity : (j * 2 ^ f.p + n) % 2 = n % 2 := by
    obtain ⟨i, hi⟩ := Nat.exists_eq_succ_of_ne_zero fraction.ne'
    rw [hi, Nat.pow_succ, ← Nat.mul_assoc]
    omega
  have half : Ord.compare (2 * (a * (2 : Rat) ^ (f.low + j))) ((n : Rat) * (2 : Rat) ^ (f.low + j) + (n + 1 : Nat) * (2 : Rat) ^ (f.low + j)) =
      Ord.compare (2 * a) (n + (n + 1 : Nat)) := by
    rw [← mul_assoc, ← add_mul]
    rw [← cmp_eq_compare, cmp_mul_pos_right unit_, cmp_eq_compare]
  have ups : ∀ half rest, roundsUp rm neg (j * 2 ^ f.p + n) half rest = roundsUp rm neg n half rest := fun half rest => by
    simp only [roundsUp, parity]
  rw [pick, f.grid_block row lt.le, Nat.add_assoc, f.grid_block (row.imp_right Nat.le_succ_of_le) lt, half, ups, pick]
  simp only [ne_eq, mul_left_inj' unit_.ne']
  split <;> rfl

/-! ### The codes of a format -/

/-- What R157 says of every float format: the exponent field has the bits that the bias asks for. -/
structure Fmt.Ieee (f : Fmt) : Prop where
  fraction : 0 < f.p
  fields : f.p + 1 ≤ f.w
  exponents : 2 ^ (f.w - 1 - f.p) = 2 * f.bias + 2
  biased : 0 < f.bias

theorem fmtOf_ieee (code : Nat) : (fmtOf code).Ieee := by
  unfold fmtOf
  split_ifs <;> constructor <;> decide

/-- The index of infinity. -/
def Fmt.top (f : Fmt) : Nat := f.emax * 2 ^ f.p

/-- The sign as a factor (R158). -/
def sgn (neg : Bool) : Rat := if neg then -1 else 1

theorem Fmt.top_pos (f : Fmt) : 0 < f.top := Nat.mul_pos (Nat.succ_pos _) (Nat.two_pow_pos _)

theorem Fmt.inf_eq (f : Fmt) (neg : Bool) : f.inf neg = f.zero neg + f.top := rfl

namespace Fmt.Ieee

variable (h : f.Ieee)
include h

theorem half_eq : 2 ^ (f.w - 1) = (f.emax + 1) * 2 ^ f.p := by
  rw [Fmt.emax, ← h.exponents, ← Nat.pow_add]
  congr 1
  have := h.fields
  omega

theorem top_lt : f.top < 2 ^ (f.w - 1) := by
  rw [h.half_eq, Nat.succ_mul]
  exact Nat.lt_add_of_pos_right (Nat.two_pow_pos _)

theorem exponent_lt (k_lt : k < 2 ^ (f.w - 1)) : k / 2 ^ f.p < 2 ^ (f.w - 1 - f.p) :=
  Nat.div_lt_of_lt_mul (by rw [h.exponents, Nat.mul_comm]; exact h.half_eq ▸ k_lt)

theorem zero_eq (neg : Bool) : f.zero neg = 2 ^ f.p * if neg then 2 ^ (f.w - 1 - f.p) else 0 := by
  cases neg with
  | false => rfl
  | true =>
    rw [Fmt.zero, if_pos rfl, if_pos rfl, h.half_eq, h.exponents, Nat.mul_comm]
    rfl

omit h in
theorem negative_code (k_lt : k < 2 ^ (f.w - 1)) : negative f (f.zero neg + k) = neg := by
  cases neg <;> simp [negative, bit, Fmt.zero, Nat.div_eq_of_lt k_lt]

/-- The fields of a code are those of its magnitude, and its sign (R157). -/
theorem value_code (k_lt : k < 2 ^ (f.w - 1)) : f.value (f.zero neg + k) =
    if k / 2 ^ f.p = f.emax then (if k % 2 ^ f.p = 0 then .inf neg else .nan (!bit (k % 2 ^ f.p) (f.p - 1)))
    else if k / 2 ^ f.p = 0 then .fin neg (k % 2 ^ f.p) (1 - f.bias - f.p)
    else .fin neg (2 ^ f.p + k % 2 ^ f.p) ((k / 2 ^ f.p : Nat) - f.bias - f.p) := by
  have sign : bit (f.zero neg + k) (f.w - 1) = neg := negative_code k_lt
  have fraction_ : (f.zero neg + k) % 2 ^ f.p = k % 2 ^ f.p := by rw [h.zero_eq, Nat.mul_add_mod]
  have exponent : (f.zero neg + k) / 2 ^ f.p % 2 ^ (f.w - 1 - f.p) = k / 2 ^ f.p := by
    rw [h.zero_eq, Nat.mul_add_div (Nat.two_pow_pos _)]
    cases neg <;> simp [Nat.mod_eq_of_lt (h.exponent_lt k_lt)]
  simp only [Fmt.value, sign, fraction_, exponent]

/-- A code below infinity is the magnitude of its index under its sign (R158). -/
theorem real_code (k_lt : k < f.top) : real (f.value (f.zero neg + k)) = some (sgn neg * f.grid k) := by
  have finite_ : k / 2 ^ f.p ≠ f.emax := (Nat.div_lt_of_lt_mul (Nat.mul_comm _ _ ▸ k_lt)).ne
  rw [h.value_code (k_lt.trans h.top_lt), if_neg finite_]
  split
  next least => simp [real, sgn, Fmt.grid, Fmt.low, least]
  next row =>
    have exponent : f.low + (k / 2 ^ f.p - 1 : Nat) = (k / 2 ^ f.p : Nat) - f.bias - f.p := by
      rw [Fmt.low, Nat.cast_sub (Nat.one_le_iff_ne_zero.mpr row)]
      omega
    simp only [real, sgn, Fmt.grid, if_neg row, exponent, mul_assoc]

theorem value_inf (neg : Bool) : f.value (f.inf neg) = .inf neg := by
  have pos := Nat.two_pow_pos f.p
  rw [Fmt.inf_eq, h.value_code h.top_lt, Fmt.top, Nat.mul_div_cancel _ pos, if_pos rfl, Nat.mul_mod_left, if_pos rfl]

theorem code_lt (k_lt : k < 2 ^ (f.w - 1)) : f.zero neg + k < 2 ^ f.w := by
  obtain ⟨n, hn⟩ := Nat.exists_eq_add_of_lt h.fields
  rw [show f.w = f.w - 1 + 1 by omega, Nat.pow_succ]
  cases neg <;> simp [Fmt.zero] <;> omega

theorem finite_code (k_lt : k < f.top) : finite f (f.zero neg + k) (sgn neg * f.grid k) :=
  ⟨h.code_lt (k_lt.trans h.top_lt), h.real_code k_lt⟩

/-- Every finite value is the magnitude of an index below infinity under a sign. -/
theorem of_finite {c : Nat} {z : Rat} (fin : finite f c z) : ∃ neg, ∃ k < f.top, z = sgn neg * f.grid k := by
  obtain ⟨c_lt, is⟩ := fin
  have width := h.fields
  obtain ⟨neg, k, k_lt, rfl⟩ : ∃ neg k, k < 2 ^ (f.w - 1) ∧ c = f.zero neg + k := by
    rw [show f.w = f.w - 1 + 1 by omega, Nat.pow_succ] at c_lt
    by_cases sign : c < 2 ^ (f.w - 1)
    · exact ⟨false, c, sign, (Nat.zero_add c).symm⟩
    · exact ⟨true, c - 2 ^ (f.w - 1), by omega, by simp only [Fmt.zero, if_true]; omega⟩
  have below : k < f.top := by
    by_contra above
    have special : k / 2 ^ f.p = f.emax := by
      refine Nat.le_antisymm (Nat.lt_succ_iff.mp ?_) ((Nat.le_div_iff_mul_le (Nat.two_pow_pos _)).mpr (Nat.not_lt.mp above))
      have := h.exponent_lt k_lt
      rwa [h.exponents] at this
    rw [h.value_code k_lt, if_pos special] at is
    split at is <;> cases is
  rw [h.real_code below] at is
  exact ⟨neg, k, below, (Option.some.inj is).symm⟩

/-! ### The largest value -/

theorem top_odd : (f.top - 1) % 2 = 1 := by
  obtain ⟨i, hi⟩ := Nat.exists_eq_succ_of_ne_zero h.fraction.ne'
  have := f.top_pos
  rw [Fmt.top, hi, Nat.pow_succ, ← Nat.mul_assoc] at this ⊢
  omega

theorem grid_top : f.grid f.top = 2 ^ (f.p + 1) * (2 : Rat) ^ ((f.bias : Int) - f.p) := by
  have biased := h.biased
  have place : f.top = (2 * f.bias - 1) * 2 ^ f.p + 2 ^ (f.p + 1) := by
    rw [Fmt.top, Fmt.emax, Nat.pow_succ, Nat.mul_comm (2 ^ f.p), ← Nat.add_mul]
    congr 1
    omega
  rw [place, f.grid_block (.inr (Nat.pow_le_pow_right Nat.two_pos (Nat.le_succ _))) le_rfl, Fmt.low]
  rw [show (1 : Int) - f.bias - f.p + (2 * f.bias - 1 : Nat) = f.bias - f.p by omega]
  norm_num

theorem grid_last : f.grid (f.top - 1) = (2 ^ (f.p + 1) - 1) * (2 : Rat) ^ ((f.bias : Int) - f.p) := by
  have biased := h.biased
  have pos := Nat.two_pow_pos f.p
  have place : f.top - 1 = (2 * f.bias - 1) * 2 ^ f.p + (2 ^ (f.p + 1) - 1) := by
    rw [Fmt.top, Fmt.emax, Nat.pow_succ, show 2 * f.bias + 1 = 2 * f.bias - 1 + 2 by omega, Nat.add_mul]
    omega
  rw [place, f.grid_block (.inr (by rw [Nat.pow_succ]; omega)) (Nat.sub_le _ _), Fmt.low]
  rw [show (1 : Int) - f.bias - f.p + (2 * f.bias - 1 : Nat) = f.bias - f.p by omega, Nat.cast_sub Nat.one_le_two_pow]
  norm_num

theorem largest_eq : Claims.largest f = f.grid (f.top - 1) := by
  rw [h.grid_last, Claims.largest, zpow_sub₀ two_ne_zero, zpow_neg, zpow_natCast, zpow_natCast, pow_succ]
  field_simp

/-- Half a unit beyond the largest value is the middle between it and the index of infinity. -/
theorem edge_eq : 2 * (Claims.largest f + (2 : Rat) ^ ((f.bias : Int) - f.p - 1)) = f.grid (f.top - 1) + f.grid f.top := by
  rw [h.largest_eq, h.grid_last, h.grid_top, zpow_sub_one₀ two_ne_zero]
  ring

end Fmt.Ieee
end Sys2Proof.Machine
end

/-! ## A number rounded to a format (R162, R163, R165) -/
section
namespace Sys2Proof.Machine

open Sys2Proof.Claims (real finite negative Rounded)

variable {f : Fmt} {x : Rat} {k : Nat} {rm : Nat} {neg : Bool}

/-! ### The modes (R162, R163) -/

/-- What `Rounded` says of each direction: the largest value not above `x`, the smallest not below, the closest one. -/
def RoundsDown (f : Fmt) (x : Rat) (v : Nat) : Prop :=
  (v = f.inf true ∧ x < -Claims.largest f) ∨ ∃ y, finite f v y ∧ y ≤ x ∧ ∀ c z, finite f c z → z ≤ x → z ≤ y
def RoundsUp (f : Fmt) (x : Rat) (v : Nat) : Prop :=
  (v = f.inf false ∧ Claims.largest f < x) ∨ ∃ y, finite f v y ∧ x ≤ y ∧ ∀ c z, finite f c z → x ≤ z → y ≤ z
def RoundsNear (f : Fmt) (x : Rat) (v : Nat) : Prop :=
  let edge := Claims.largest f + (2 : Rat) ^ ((f.bias : Int) - f.p - 1)
  if x ≥ edge then v = f.inf false else if x ≤ -edge then v = f.inf true else
  ∃ y, finite f v y ∧ ∀ c z, finite f c z → |x - y| ≤ |x - z| ∧ (z ≠ y → |x - y| = |x - z| → v % 2 = 0)

theorem rounded_iff (f : Fmt) (rm : Nat) (x : Rat) (v : Nat) : Rounded f rm x v ↔
    (real (f.value v) = some 0 → negative f v = decide (x < 0)) ∧
      match rm with
      | 0 => RoundsNear f x v
      | 1 => if x < 0 then RoundsUp f x v else RoundsDown f x v
      | 2 => RoundsDown f x v
      | _ => RoundsUp f x v := .rfl

/-- Whether a mode takes numbers of the sign toward zero. -/
def truncates (rm : Nat) (neg : Bool) : Bool :=
  match rm with
  | 0 => false
  | 1 => true
  | 2 => !neg
  | _ => neg

/-- The index of the format for the index `k` of the grid: beyond the largest value the mode holds there or goes to infinity. -/
def Fmt.clamp (f : Fmt) (rm : Nat) (neg : Bool) (k : Nat) : Nat := min k (if truncates rm neg then f.top - 1 else f.top)

theorem Fmt.clamp_le_top (f : Fmt) (rm : Nat) (neg : Bool) (k : Nat) : f.clamp rm neg k ≤ f.top := by
  rw [Fmt.clamp]
  split <;> omega

theorem Fmt.clamp_below (lt : k < f.top) : f.clamp rm neg k = k := by
  rw [Fmt.clamp]
  split <;> omega

theorem Fmt.clamp_beyond (le : f.top ≤ k) : f.clamp rm neg k = if truncates rm neg then f.top - 1 else f.top := by
  rw [Fmt.clamp]
  split <;> omega

theorem sgn_mul_sgn_mul (neg : Bool) (a : Rat) : sgn neg * (sgn neg * a) = a := by cases neg <;> simp [sgn]

theorem abs_sgn_mul_sub (neg : Bool) (a b : Rat) : |sgn neg * a - b| = |a - sgn neg * b| := by
  cases neg
  · simp [sgn]
  · rw [abs_sub_comm]
    simp [sgn, add_comm]

theorem IsFloor.clamped (floor_ : IsFloor f.grid x k) :
    f.grid (min k (f.top - 1)) ≤ x ∧ ∀ i < f.top, f.grid i ≤ x → f.grid i ≤ f.grid (min k (f.top - 1)) :=
  ⟨(f.grid_strictMono.monotone (Nat.min_le_left ..)).trans floor_.1,
    fun i lt le => f.grid_strictMono.monotone (Nat.le_min.mpr ⟨floor_.2 i le, Nat.le_sub_one_of_lt lt⟩)⟩

namespace Fmt.Ieee

variable (h : f.Ieee)
include h

theorem largest_nonneg : 0 ≤ Claims.largest f := h.largest_eq ▸ f.grid_nonneg _

/-- Seen from either sign, a finite value is a magnitude of the format on the one side of zero or the other. -/
theorem of_finite_sgn (neg : Bool) {c : Nat} {z : Rat} (fin : finite f c z) :
    ∃ i < f.top, sgn neg * z = f.grid i ∨ sgn neg * z = -f.grid i := by
  obtain ⟨neg', i, lt, rfl⟩ := h.of_finite fin
  refine ⟨i, lt, ?_⟩
  cases neg <;> cases neg' <;> simp [sgn]

/-! ### Toward zero -/

/-- The index held below infinity is the last of the values up to `x` on its side of zero. -/
theorem trunc_best (floor_ : IsFloor f.grid x k) {c : Nat} {z : Rat} (fin : finite f c z) (le : sgn neg * z ≤ x) :
    sgn neg * z ≤ f.grid (min k (f.top - 1)) := by
  obtain ⟨i, lt, eq | eq⟩ := h.of_finite_sgn neg fin <;> rw [eq] at le ⊢
  · exact floor_.clamped.2 i lt le
  · have := f.grid_nonneg i
    have := f.grid_nonneg (min k (f.top - 1))
    linarith

theorem finite_trunc (neg : Bool) (k : Nat) : finite f (f.zero neg + min k (f.top - 1)) (sgn neg * f.grid (min k (f.top - 1))) :=
  h.finite_code (Nat.lt_of_le_of_lt (Nat.min_le_right ..) (Nat.sub_one_lt f.top_pos.ne'))

theorem roundsDown_trunc (floor_ : IsFloor f.grid x k) : RoundsDown f x (f.zero false + min k (f.top - 1)) :=
  .inr ⟨_, h.finite_trunc false k, by simpa [sgn] using floor_.clamped.1, fun c z fin le => by
    simpa [sgn] using h.trunc_best (neg := false) floor_ fin (by simpa [sgn] using le)⟩

theorem roundsUp_trunc (floor_ : IsFloor f.grid x k) : RoundsUp f (-x) (f.zero true + min k (f.top - 1)) :=
  .inr ⟨_, h.finite_trunc true k, by simpa [sgn] using floor_.clamped.1, fun c z fin le => by
    have := h.trunc_best (neg := true) floor_ fin (by simp only [sgn, if_true]; linarith)
    simp only [sgn, if_true] at this ⊢
    linarith⟩

/-! ### Away from zero -/

theorem ceil_best (pos : 0 < x) (ceil_ : IsCeil f.grid x k) {c : Nat} {z : Rat} (fin : finite f c z) (le : x ≤ sgn neg * z) :
    f.grid k ≤ sgn neg * z := by
  obtain ⟨i, -, eq | eq⟩ := h.of_finite_sgn neg fin <;> rw [eq] at le ⊢
  · exact f.grid_strictMono.monotone (ceil_.2 i le)
  · have := f.grid_nonneg i
    linarith

theorem largest_lt_of_ceil (ceil_ : IsCeil f.grid x k) (beyond : ¬k < f.top) : Claims.largest f < x := by
  rw [h.largest_eq]
  have := f.top_pos
  exact not_le.mp fun low => absurd (ceil_.2 _ low) (by omega)

theorem roundsUp_ceil (pos : 0 < x) (ceil_ : IsCeil f.grid x k) : RoundsUp f x (f.zero false + min k f.top) := by
  by_cases lt : k < f.top
  · rw [Nat.min_eq_left lt.le]
    refine .inr ⟨_, h.finite_code lt, by simpa [sgn] using ceil_.1, fun c z fin le => ?_⟩
    simpa [sgn] using h.ceil_best (neg := false) pos ceil_ fin (by simpa [sgn] using le)
  · rw [Nat.min_eq_right (Nat.not_lt.mp lt)]
    exact .inl ⟨rfl, h.largest_lt_of_ceil ceil_ lt⟩

theorem roundsDown_ceil (pos : 0 < x) (ceil_ : IsCeil f.grid x k) : RoundsDown f (-x) (f.zero true + min k f.top) := by
  by_cases lt : k < f.top
  · rw [Nat.min_eq_left lt.le]
    refine .inr ⟨_, h.finite_code lt, by simpa [sgn] using ceil_.1, fun c z fin le => ?_⟩
    have := h.ceil_best (neg := true) pos ceil_ fin (by simp only [sgn, if_true]; linarith)
    simp only [sgn, if_true] at this ⊢
    linarith
  · rw [Nat.min_eq_right (Nat.not_lt.mp lt)]
    exact .inl ⟨rfl, neg_lt_neg (h.largest_lt_of_ceil ceil_ lt)⟩

/-! ### To nearest -/

/-- The closest index is that of infinity or beyond from half a unit beyond the largest value. -/
theorem top_le_iff (near : IsNearest f.grid x k) : f.top ≤ k ↔ Claims.largest f + (2 : Rat) ^ ((f.bias : Int) - f.p - 1) ≤ x := by
  have middle := h.edge_eq
  have last := f.grid_strictMono (Nat.sub_one_lt f.top_pos.ne')
  constructor
  · intro le
    have beyond := f.grid_strictMono.monotone le
    have closer := (near (f.top - 1)).1
    by_contra below
    rw [abs_of_nonpos (by linarith)] at closer
    obtain ⟨eq, -⟩ | ⟨eq, -⟩ := abs_cases (x - f.grid (f.top - 1)) <;> linarith
  · intro le
    by_contra lt
    have within : k ≤ f.top - 1 := by omega
    have below := f.grid_strictMono.monotone within
    obtain ⟨closer, tie⟩ := near f.top
    rw [abs_of_nonneg (by linarith)] at closer tie
    obtain ⟨eq, -⟩ | ⟨eq, -⟩ := abs_cases (x - f.grid f.top) <;> rw [eq] at closer tie
    · linarith
    · have same : k = f.top - 1 := f.grid_strictMono.injective (by linarith)
      have even := tie (by omega) (by linarith)
      have odd := h.top_odd
      omega

theorem even_zero : f.zero neg % 2 = 0 := by
  have := h.fields
  have := h.fraction
  cases neg with
  | false => rfl
  | true =>
    obtain ⟨i, hi⟩ : ∃ i, f.w - 1 = i + 1 := ⟨f.w - 2, by omega⟩
    simp [Fmt.zero, hi, Nat.pow_succ]

/-- The closest index is the closest value of the format, on the other side of zero too. -/
theorem nearest_best (pos : 0 < x) (near : IsNearest f.grid x k) {c : Nat} {z : Rat} (fin : finite f c z) :
    |x - f.grid k| ≤ |x - sgn neg * z| ∧ (sgn neg * z ≠ f.grid k → |x - f.grid k| = |x - sgn neg * z| → k % 2 = 0) := by
  obtain ⟨i, -, eq | eq⟩ := h.of_finite_sgn neg fin <;> rw [eq]
  · exact ⟨(near i).1, fun ne => (near i).2 fun same => ne (by rw [same])⟩
  · have nonneg := f.grid_nonneg i
    obtain ⟨closer, tie⟩ := near 0
    rw [f.grid_zero, sub_zero, abs_of_pos pos] at closer tie
    rw [sub_neg_eq_add, abs_of_nonneg (add_nonneg pos.le nonneg)]
    refine ⟨by linarith, fun ne same => tie (fun origin => ne ?_) (by linarith)⟩
    rw [← origin, f.grid_zero]
    linarith

theorem roundsNear_nearest (pos : 0 < x) (near : IsNearest f.grid x k) : RoundsNear f (sgn neg * x) (f.zero neg + min k f.top) := by
  have top_le := h.top_le_iff near
  have edge_pos : 0 < Claims.largest f + (2 : Rat) ^ ((f.bias : Int) - f.p - 1) := add_pos_of_nonneg_of_pos h.largest_nonneg (by positivity)
  simp only [RoundsNear]
  generalize Claims.largest f + (2 : Rat) ^ ((f.bias : Int) - f.p - 1) = edge at *
  by_cases beyond : edge ≤ x
  · rw [Nat.min_eq_right (top_le.mpr beyond)]
    cases neg with
    | false => rw [if_pos (by simpa [sgn] using beyond)]; rfl
    | true => rw [if_neg (by simp only [sgn, if_true]; linarith), if_pos (by simpa [sgn] using beyond)]; rfl
  · have lt : k < f.top := Nat.not_le.mp (beyond ∘ top_le.mp)
    have within : ¬sgn neg * x ≥ edge ∧ ¬sgn neg * x ≤ -edge := by
      cases neg <;> simp only [sgn, if_true, Bool.false_eq_true, if_false] <;> constructor <;> linarith
    rw [if_neg within.1, if_neg within.2, Nat.min_eq_left lt.le]
    refine ⟨_, h.finite_code lt, fun c z fin => ?_⟩
    obtain ⟨closer, tie⟩ := h.nearest_best (neg := neg) pos near fin
    rw [abs_sgn_mul_sub, abs_sgn_mul_sub, sgn_mul_sgn_mul, Nat.add_mod, h.even_zero, Nat.zero_add, Nat.mod_mod]
    exact ⟨closer, fun ne => tie fun same => ne (by rw [← same, sgn_mul_sgn_mul])⟩

/-! ### Every mode -/

/-- A magnitude rounded on the grid and held within the format is the number of the sign rounded to the format. -/
theorem rounded_clamp (pos : 0 < x) (hk : IsRounded f.grid rm neg x k) : Rounded f rm (sgn neg * x) (f.zero neg + f.clamp rm neg k) := by
  have sign : negative f (f.zero neg + f.clamp rm neg k) = decide (sgn neg * x < 0) := by
    rw [negative_code ((f.clamp_le_top ..).trans_lt h.top_lt)]
    cases neg <;> simp [sgn, pos, pos.le]
  refine (rounded_iff ..).mpr ⟨fun _ => sign, ?_⟩
  have positive : sgn false * x = x := one_mul x
  have negated : sgn true * x = -x := neg_one_mul x
  match rm, neg with
  | 0, _ => exact h.roundsNear_nearest pos hk
  | 1, false =>
    rw [positive, if_neg pos.not_gt]
    exact h.roundsDown_trunc hk
  | 1, true =>
    rw [negated, if_pos (neg_lt_zero.mpr pos)]
    exact h.roundsUp_trunc hk
  | 2, false =>
    rw [positive]
    exact h.roundsDown_trunc hk
  | 2, true =>
    rw [negated]
    exact h.roundsDown_ceil pos hk
  | _ + 3, false =>
    rw [positive]
    exact h.roundsUp_ceil pos hk
  | _ + 3, true =>
    rw [negated]
    exact h.roundsUp_trunc hk

end Fmt.Ieee
end Sys2Proof.Machine
end

/-! ## Round (R162 to R166) -/
section
namespace Sys2Proof.Machine

open Sys2Proof.Claims (real finite negative Rounded)

variable {f : Fmt} {k : Nat} {rm : Nat} {neg : Bool} {m : Nat} {e : Int}

/-! ### Round (R162 to R164) -/

/-- A positive number lies in the binade of its leading bit. -/
theorem binade (hm : 0 < m) (e : Int) :
    (2 : Rat) ^ (e + (Nat.log2 m : Nat)) ≤ m * (2 : Rat) ^ e ∧ m * (2 : Rat) ^ e < (2 : Rat) ^ (e + (Nat.log2 m : Nat) + 1) := by
  have unit_ : (0 : Rat) < (2 : Rat) ^ e := by positivity
  have least : ((2 ^ Nat.log2 m : Nat) : Rat) ≤ m := by exact_mod_cast Nat.log2_self_le hm.ne'
  have most : (m : Rat) < (2 ^ (Nat.log2 m + 1) : Nat) := by exact_mod_cast Nat.lt_log2_self
  constructor
  · rw [add_comm, zpow_add₀ two_ne_zero, zpow_natCast]
    exact mul_le_mul_of_nonneg_right (by exact_mod_cast least) unit_.le
  · rw [show e + (Nat.log2 m : Nat) + 1 = ((Nat.log2 m + 1 : Nat) : Int) + e by push_cast; ring, zpow_add₀ two_ne_zero, zpow_natCast]
    exact mul_lt_mul_of_pos_right (by exact_mod_cast most) unit_

/-- The exponent of the unit that a magnitude is rounded to. -/
def Fmt.unit (f : Fmt) (m : Nat) (e : Int) : Int := max (e + (Nat.log2 m : Nat) - f.p) f.low

/-- The magnitude in that unit begins in the unit's row. -/
theorem Fmt.unit_block (f : Fmt) (hm : 0 < m) (e : Int) :
    let n := ⌊(m : Rat) * (2 : Rat) ^ (e - f.unit m e)⌋₊
    ((f.unit m e - f.low).toNat = 0 ∨ 2 ^ f.p ≤ n) ∧ n < 2 ^ (f.p + 1) ∧ f.low + (f.unit m e - f.low).toNat = f.unit m e := by
  intro n
  obtain ⟨least, most⟩ := binade hm (e - f.unit m e)
  have nonneg : (0 : Rat) ≤ m * (2 : Rat) ^ (e - f.unit m e) := by positivity
  refine ⟨?_, ?_, by unfold Fmt.unit; omega⟩
  · by_cases row : f.unit m e = f.low
    · exact .inl (by omega)
    · refine .inr (Nat.le_floor (le_trans ?_ least))
      rw [show e - f.unit m e + (Nat.log2 m : Nat) = (f.p : Int) by unfold Fmt.unit at *; omega, zpow_natCast]
      norm_num
  · refine (Nat.floor_lt nonneg).mpr (most.trans_le ?_)
    rw [Nat.cast_pow, ← zpow_natCast]
    exact zpow_le_zpow_right₀ one_le_two (by unfold Fmt.unit; omega)

/-- The result where the exact magnitude does not fit (R163). -/
theorem Fmt.overflow_code (f : Fmt) (le : f.top ≤ k) (rm : Nat) (neg : Bool) : (match rm with
    | 0 => f.inf neg
    | 1 => f.largest neg
    | 2 => if neg then f.inf neg else f.largest neg
    | _ => if neg then f.largest neg else f.inf neg) = f.zero neg + f.clamp rm neg k := by
  have largest_ : f.largest neg = f.zero neg + (f.top - 1) := Nat.add_sub_assoc f.top_pos _
  rw [f.clamp_beyond le]
  match rm, neg with
  | 0, _ | 2, true | _ + 3, false => rfl
  | 1, _ | 2, false | _ + 3, true => exact largest_

/-- Between which two indices of the grid a magnitude lies, and that Round picks one of them. -/
theorem Fmt.between (f : Fmt) (hm : 0 < m) (e : Int) :
    let a : Rat := m * (2 : Rat) ^ (e - f.unit m e)
    let j := (f.unit m e - f.low).toNat
    let x : Rat := m * (2 : Rat) ^ e
    x = a * (2 : Rat) ^ (f.low + j) ∧ f.grid (j * 2 ^ f.p + ⌊a⌋₊) = ⌊a⌋₊ * (2 : Rat) ^ (f.low + j) ∧
      f.grid (j * 2 ^ f.p + ⌊a⌋₊) ≤ x ∧ x < f.grid (j * 2 ^ f.p + ⌊a⌋₊ + 1) := by
  intro a j x
  obtain ⟨row, lt, place⟩ := f.unit_block hm e
  have unit_ : (0 : Rat) < (2 : Rat) ^ (f.low + j) := by positivity
  have scaled : x = a * (2 : Rat) ^ (f.low + j) := by
    rw [place, mul_assoc, ← zpow_add₀ two_ne_zero, sub_add_cancel]
  have lower := f.grid_block row lt.le
  have upper := f.grid_block (row.imp_right Nat.le_succ_of_le) lt
  refine ⟨scaled, lower, ?_, ?_⟩
  · rw [lower, scaled]
    exact mul_le_mul_of_nonneg_right (Nat.floor_le (by positivity)) unit_.le
  · rw [Nat.add_assoc, upper, scaled]
    exact mul_lt_mul_of_pos_right (by exact_mod_cast Nat.lt_floor_add_one a) unit_

/-- Whether the magnitude is tiny after rounding: below the least normal one with the exponent unbounded (R164). -/
def Fmt.tiny (f : Fmt) (rm : Nat) (neg : Bool) (m : Nat) (e : Int) : Bool :=
  decide (e + (Nat.log2 m : Nat) < 1 - f.bias) &&
    !(e + (Nat.log2 m : Nat) == -f.bias && (roundAt rm neg m e false (e + (Nat.log2 m : Nat) - f.p)).1 == 2 ^ (f.p + 1))

theorem Fmt.lt_of_tiny (hm : 0 < m) (h : f.tiny rm neg m e = true) : m * (2 : Rat) ^ e < (2 : Rat) ^ (1 - (f.bias : Int)) := by
  have small := of_decide_eq_true (Bool.and_eq_true_iff.mp h).1
  exact (binade hm e).2.trans_le (zpow_le_zpow_right₀ one_le_two (by omega))

/-- Round by the multiple of the unit that RoundAt gives. -/
theorem Fmt.round_unit (f : Fmt) (rm : Nat) (neg : Bool) (m : Nat) (e : Int) :
    let r := roundAt rm neg m e false (f.unit m e)
    let k := (f.unit m e - f.low).toNat * 2 ^ f.p + r.1
    f.round rm neg m e = (f.zero neg + f.clamp rm neg k,
      if f.top ≤ k then 20 else if r.2 then (if f.tiny rm neg m e then 24 else 16) else 0) := by
  intro r k
  by_cases beyond : f.top ≤ k
  · rw [if_pos beyond, ← f.overflow_code beyond]
    exact if_pos beyond
  · rw [if_neg beyond, f.clamp_below (Nat.not_le.mp beyond)]
    refine (if_neg beyond).trans (congrArg (Prod.mk (f.zero neg + k)) ?_)
    change (if r.2 then fInexact else 0) ||| (if f.tiny rm neg m e && r.2 then fUnderflow else 0) = _
    cases r.2 <;> cases f.tiny rm neg m e <;> rfl

/-- What Round gives: the magnitude's index within the format under the sign, and the flags (R163, R164). -/
theorem Fmt.Ieee.round_eq (h : f.Ieee) (hm : 0 < m) (rm : Nat) (neg : Bool) (e : Int) : ∃ k,
    IsRounded f.grid rm neg (m * (2 : Rat) ^ e) k ∧ f.round rm neg m e = (f.zero neg + f.clamp rm neg k,
      if f.top ≤ k then 20 else if f.grid k ≠ m * (2 : Rat) ^ e then (if f.tiny rm neg m e then 24 else 16) else 0) := by
  obtain ⟨row, lt, -⟩ := f.unit_block hm e
  obtain ⟨scaled, lower, low, high⟩ := f.between hm e
  have round_ := f.round_unit rm neg m e
  rw [roundAt_eq] at round_
  simp only [decide_eq_true_eq] at round_
  generalize (m : Rat) * (2 : Rat) ^ (e - f.unit m e) = a at *
  generalize (f.unit m e - f.low).toNat = j at *
  have unit_ : (0 : Rat) < (2 : Rat) ^ (f.low + j) := by positivity
  have index : pick rm neg f.grid (m * (2 : Rat) ^ e) (j * 2 ^ f.p + ⌊a⌋₊) = j * 2 ^ f.p + pick rm neg Nat.cast a ⌊a⌋₊ :=
    scaled ▸ f.pick_block h.fraction row lt a
  have exact_ := pick_exact (rm := rm) (neg := neg) f.grid_strictMono high
  rw [index, lower, scaled, mul_left_inj' unit_.ne', ← scaled] at exact_
  refine ⟨_, isRounded_pick f.grid_strictMono low high, ?_⟩
  simp only [ne_eq, exact_, index, round_]

theorem sgn_mul_inj {a b : Rat} : some (sgn neg * a) = some (sgn neg * b) ↔ a = b := by cases neg <;> simp [sgn]

theorem IsRounded.largest_lt {x : Rat} (hk : IsRounded f.grid rm neg x k) (h : f.Ieee) (beyond : f.top ≤ k) : Claims.largest f < x := by
  have := f.top_pos
  exact h.largest_eq ▸ hk.lt_of_lt f.grid_strictMono (by omega)

/-- The value of a result is the number that was rounded exactly when its index is within the format and is its own. -/
theorem Fmt.Ieee.real_clamp (h : f.Ieee) {x : Rat} (hk : IsRounded f.grid rm neg x k) :
    real (f.value (f.zero neg + f.clamp rm neg k)) = some (sgn neg * x) ↔ ¬f.top ≤ k ∧ f.grid k = x := by
  by_cases beyond : f.top ≤ k
  · have larger := hk.largest_lt h beyond
    rw [h.largest_eq] at larger
    rw [f.clamp_beyond beyond]
    split
    · have := f.top_pos
      rw [h.real_code (by omega), sgn_mul_inj]
      simp [larger.ne, beyond]
    · simp [← f.inf_eq, h.value_inf, real, beyond]
  · rw [f.clamp_below (Nat.not_le.mp beyond), h.real_code (Nat.not_le.mp beyond), sgn_mul_inj]
    simp [beyond]

end Sys2Proof.Machine

open Sys2Proof Sys2Proof.Machine Sys2Proof.Claims in
/-- Settles O5: the magnitude is rounded on the rising grid of magnitudes (`Fmt.Ieee.round_eq`), and that index within the format is the
number rounded in every mode (`Fmt.Ieee.rounded_clamp`); the flags are read off. -/
theorem roundingIsCorrect : Obligations.RoundingIsCorrect := by
  intro code _ rm _ neg m e hm f x r
  have h : f.Ieee := fmtOf_ieee code
  obtain ⟨k, hk, eq⟩ := h.round_eq hm rm neg e
  have pos : 0 < m * (2 : Rat) ^ e := by positivity
  have signed_ : x = sgn neg * (m * (2 : Rat) ^ e) := mul_assoc ..
  have magnitude : |x| = m * (2 : Rat) ^ e := by
    rw [signed_, abs_mul, abs_of_pos pos]
    cases neg <;> simp [sgn]
  have result : r = _ := eq
  have beyond := hk.largest_lt h
  have under := f.lt_of_tiny (rm := rm) (neg := neg) (e := e) hm
  rw [magnitude, result, signed_]
  refine ⟨h.rounded_clamp pos hk, ?_⟩
  simp only [ne_eq, h.real_clamp hk]
  split_ifs with overflow whole tiny
  · exact ⟨by simp [overflow, bit], fun _ => ⟨beyond overflow, by decide⟩, fun on => absurd on (by decide), by decide⟩
  · exact ⟨by simp [Nat.not_le.mp overflow, whole, bit], fun on => absurd on (by decide), fun on => absurd on (by decide), by decide⟩
  · exact ⟨by simp [whole, bit], fun on => absurd on (by decide), fun _ => ⟨by decide, under tiny⟩, by decide⟩
  · exact ⟨by simp [whole, bit], fun on => absurd on (by decide), fun on => absurd on (by decide), by decide⟩
end

/-! ## RQ8 codes (R170 to R175) -/
section
namespace Sys2Proof.Machine

open Sys2Proof.Claims (Rounded)

variable {y : Rat} {n k e m : Nat} {neg : Bool} {x : Int} {rm : Nat}

/-! ### The nearest integer -/

theorem IsNearest.abs_le_half (near : IsNearest Nat.cast y n) (nonneg : 0 ≤ y) : |y - n| ≤ 1 / 2 := by
  have above := (near (n + 1)).1
  push_cast at above
  rw [abs_le]
  constructor
  · cases n with
    | zero => push_cast; linarith
    | succ i =>
      have below := (near i).1
      push_cast at below ⊢
      by_contra far
      rw [abs_of_nonpos (by linarith)] at below
      obtain ⟨eq, -⟩ | ⟨eq, -⟩ := abs_cases (y - i) <;> linarith
  · by_contra far
    rw [abs_of_nonneg (by linarith)] at above
    obtain ⟨eq, -⟩ | ⟨eq, -⟩ := abs_cases (y - (n + 1)) <;> linarith

theorem IsNearest.even_of_tie (near : IsNearest Nat.cast y n) (tie : |y - n| = 1 / 2) : n % 2 = 0 := by
  obtain ⟨eq, -⟩ | ⟨eq, -⟩ := abs_cases (y - n)
  · refine (near (n + 1)).2 (by omega) ?_
    rw [tie, abs_of_nonpos] <;> push_cast <;> linarith
  · cases n with
    | zero => rfl
    | succ i =>
      refine (near i).2 (by omega) ?_
      push_cast at eq tie ⊢
      rw [tie, abs_of_nonneg] <;> linarith

/-! ### The codes (R170, R171) -/

/-- Chinese remaindering of the three digits gives the magnitude back. -/
theorem rq8Of_encodeRq8 (neg : Bool) (hk : k ≤ 59) : rq8Of (encodeRq8 neg k) = .real neg k ∧ encodeRq8 neg k < 256 := by
  have all : ∀ neg, ∀ k < 60, rq8Of (encodeRq8 neg k) = .real neg k ∧ encodeRq8 neg k < 256 := by decide
  exact all neg k (Nat.lt_succ_iff.mpr hk)

/-- ToRq8 of a finite value (R174): the code of the nearest magnitude, or of the greatest one. -/
theorem toRq8_fin (e : Nat) (neg : Bool) (m : Nat) (x : Int) :
    let y : Rat := m * (2 : Rat) ^ (x + 127 - (e : Int))
    ∃ k inexact, IsNearest Nat.cast y k ∧ (inexact = false ↔ y = k) ∧
      toRq8 e (.fin neg m x) = if k > 59 then (encodeRq8 neg 59, fSatq) else (encodeRq8 neg k, if inexact then fInexact else 0) := by
  intro y
  have low : ((⌊y⌋₊ : Nat) : Rat) ≤ y := Nat.floor_le (by positivity)
  have high : y < ((⌊y⌋₊ + 1 : Nat) : Rat) := by exact_mod_cast Nat.lt_floor_add_one y
  refine ⟨pick 0 false Nat.cast y ⌊y⌋₊, decide ((⌊y⌋₊ : Rat) ≠ y), isNearest_pick Nat.strictMono_cast low high, ?_, ?_⟩
  · rw [decide_eq_false_iff_not, not_not, eq_comm (a := y), pick_exact Nat.strictMono_cast high]
  · simp only [toRq8, roundAt_eq, sub_zero]
    rfl

/-- The magnitude is the nearest up to 59, ties to even, and 59 with SATQ beyond (R174). -/
theorem toRq8_nearest (e : Nat) (neg : Bool) (m : Nat) (x : Int) :
    let y : Rat := m * (2 : Rat) ^ (x + 127 - (e : Int))
    let c := toRq8 e (.fin neg m x)
    ∃ k ≤ 59, c.1 = encodeRq8 neg k ∧
      ((y ≤ 59 + 1 / 2 ∧ |y - k| ≤ 1 / 2 ∧ (|y - k| = 1 / 2 → k < 59 → k % 2 = 0) ∧ (c.2 = 16 ∨ c.2 = 0) ∧ (c.2 = 0 ↔ y = k)) ∨
        (59 + 1 / 2 ≤ y ∧ k = 59 ∧ c.2 = 32)) := by
  intro y c
  obtain ⟨n, inexact, near, whole, code⟩ := toRq8_fin e neg m x
  have eq : c = _ := code
  have half := near.abs_le_half (by positivity)
  by_cases beyond : n > 59
  · rw [if_pos beyond] at eq
    have far : (60 : Rat) ≤ n := by exact_mod_cast beyond
    refine ⟨59, le_rfl, by rw [eq], .inr ⟨?_, rfl, by rw [eq]; rfl⟩⟩
    linarith [(abs_le.mp half).1]
  · rw [if_neg beyond] at eq
    have within : (n : Rat) ≤ 59 := by exact_mod_cast Nat.not_lt.mp beyond
    refine ⟨n, Nat.not_lt.mp beyond, by rw [eq], .inl ⟨?_, half, fun tie _ => near.even_of_tie tie, ?_⟩⟩
    · linarith [(abs_le.mp half).2]
    · rw [eq, ← whole]
      cases inexact <;> simp [fInexact]

/-- A code under a scale, back in a float format (R175). -/
theorem ofRq8_encodeRq8 (f : Fmt) (rm : Nat) (he : e < 255) (pos : 0 < k) (hk : k ≤ 59) :
    ofRq8 f rm e (encodeRq8 neg k) = f.round rm neg k ((e : Int) - 127) := by
  rw [ofRq8, if_neg he.ne, (rq8Of_encodeRq8 neg hk).1]
  exact if_neg pos.ne'

end Sys2Proof.Machine

open Sys2Proof Sys2Proof.Machine Sys2Proof.Claims in
/-- Settles O14: the code is that of the nearest integer (`toRq8_nearest`), and Round of the magnitude back is correct (O5). -/
theorem scaledCodes : Obligations.ScaledCodes := by
  intro e neg m x he y c
  obtain ⟨k, hk, code, nearest⟩ := toRq8_nearest e neg m x
  obtain ⟨is, small⟩ := rq8Of_encodeRq8 neg hk
  have eq : c.1 = encodeRq8 neg k := code
  rw [eq]
  refine ⟨k, hk, is, small, nearest, fun code le rm lt pos => ?_⟩
  rw [ofRq8_encodeRq8 _ rm he pos hk]
  exact (roundingIsCorrect code le rm lt neg k _ pos).1
end

/-! ## Residue sums (R178 to R181)

A triple stands for one number below M, and contributions add to it. -/
section
namespace Sys2Proof.Machine

/-! ### Triples (R178, R179) -/

/-- The triple `t` holds the residues of `z`. -/
structure Residue (t : Nat) (z : Int) : Prop where
  a : (bits t 15 0 : Int) = z % 65535
  b : (bits t 31 16 : Int) = z % 65536
  c : (bits t 48 32 : Int) = z % 65537

variable {t : Nat} {z : Int}

theorem crt_residues {a b c : Nat} (ha : a < 65535) (hb : b < 65536) (hc : c < 65537) :
    let ya := (a + 65535 * 2 - b) % 65535
    let yc := (b + 65537 * 2 - c) % 65537
    let x := b + 65536 * (ya + 65535 * (((yc + 65537 * 2 - ya) * 32768) % 65537))
    x % 65535 = a ∧ x % 65536 = b ∧ x % 65537 = c ∧ x < 2 ^ 48 - 2 ^ 16 := by
  intro ya yc x
  refine ⟨by omega, by omega, ?_, by omega⟩
  omega

/-- Crt has the residues of a triple that is not NAR, and is the only such number below M (R179). -/
theorem residueCrt_residues (ha : bits t 15 0 < 65535) (hc : bits t 48 32 < 65537) : Residue t (residueCrt t) ∧ residueCrt t < residueM := by
  have hb : bits t 31 16 < 65536 := Nat.mod_lt _ (by decide)
  obtain ⟨a, b, c, lt⟩ := crt_residues ha hb hc
  exact ⟨⟨by exact_mod_cast a.symm, by exact_mod_cast b.symm, by exact_mod_cast c.symm⟩, lt⟩

/-- Two numbers with the residues of one triple differ by a multiple of M. -/
theorem Residue.emod_eq {y : Int} (hy : Residue t y) (hz : Residue t z) : y % (2 ^ 48 - 2 ^ 16) = z % (2 ^ 48 - 2 ^ 16) := by
  have ab : y ≡ z [ZMOD 65535 * 65536] := (Int.modEq_and_modEq_iff_modEq_mul (by decide)).mp ⟨hy.a.symm.trans hz.a, hy.b.symm.trans hz.b⟩
  exact (Int.modEq_and_modEq_iff_modEq_mul (by decide)).mp ⟨ab, hy.c.symm.trans hz.c⟩

theorem Residue.crt_eq (h : Residue t z) : (residueCrt t : Int) = z % (2 ^ 48 - 2 ^ 16) := by
  obtain ⟨own, lt⟩ := residueCrt_residues (t := t) (by have := h.a; omega) (by have := h.c; omega)
  rw [← own.emod_eq h, residueM] at *
  omega

/-! ### ResidueAdd (R180) -/

theorem residueAdd_lt (t : Nat) (z : Int) : residueAdd t (some z) < 2 ^ 49 := by
  simp only [residueAdd]
  split
  · decide
  · omega

/-- A triple of its three digits, and that of a number. -/
def packed (a b c : Nat) : Nat := a + 2 ^ 16 * b + 2 ^ 32 * c
def triple (z : Int) : Nat := packed (z % 65535).toNat (z % 65536).toNat (z % 65537).toNat

theorem bits_packed {a b c : Nat} (ha : a < 65536) (hb : b < 65536) (hc : c < 131072) :
    bits (packed a b c) 15 0 = a ∧ bits (packed a b c) 31 16 = b ∧ bits (packed a b c) 48 32 = c := by
  simp only [bits, packed]
  omega

theorem residue_triple (z : Int) : Residue (triple z) z := by
  obtain ⟨a, b, c⟩ := bits_packed (a := (z % 65535).toNat) (b := (z % 65536).toNat) (c := (z % 65537).toNat) (by omega) (by omega) (by omega)
  constructor
  · rw [triple, a, Int.toNat_of_nonneg (Int.emod_nonneg z (by decide))]
  · rw [triple, b, Int.toNat_of_nonneg (Int.emod_nonneg z (by decide))]
  · rw [triple, c, Int.toNat_of_nonneg (Int.emod_nonneg z (by decide))]

theorem Residue.isNar_eq (h : Residue t z) : isNar t = false := by
  have a := h.a
  have c := h.c
  simp only [isNar, Bool.or_eq_false_iff, beq_eq_false_iff_ne, decide_eq_false_iff_not]
  omega

/-- Adding to a triple adds to what it stands for. -/
theorem Residue.add (h : Residue t z) (y : Int) : Residue (residueAdd t (some y)) (z + y) := by
  have eq : residueAdd t (some y) = triple (z + y) := by
    simp only [residueAdd, h.isNar_eq, Bool.false_eq_true, if_false, h.a, h.b, h.c, triple]
    norm_num [packed]
  exact eq ▸ residue_triple (z + y)

/-! ### An element with its contributions entered (R181, R182) -/

theorem accVal_entered (n : Nat) (y : Int) : accVal (n * 2 ^ 49 + residueAdd t (some y)) = residueAdd t (some y) := by
  rw [accVal, Nat.mul_comm, Nat.mul_add_mod, Nat.mod_eq_of_lt (residueAdd_lt t y)]

/-- Contributions none of which is NAR add their sum to the element. -/
theorem rq8Element_residue {v : Nat} (h : Residue (accVal v) z) {cs : List Contrib} {ys : List Int} (real_ : cs.map (·.c) = ys.map some) :
    Residue (accVal (rq8Element v cs).1) (z + ys.sum) := by
  rw [rq8Element]
  generalize 0 = fl
  induction cs generalizing v fl z ys with
  | nil =>
    obtain rfl : ys = [] := by simpa using real_.symm
    simpa using h
  | cons c cs ih =>
    obtain _ | ⟨y, ys⟩ := ys
    · cases real_
    · obtain ⟨head, tail⟩ := List.cons.inj real_
      rw [List.foldl_cons, List.sum_cons, ← add_assoc]
      refine ih ?_ tail _
      simp only [head, accVal_entered]
      exact h.add y

/-- The element's number after it, modulo M (R179). -/
theorem rq8Element_crt {v : Nat} (ha : accVal v % 2 ^ 16 < 65535) (hc : accVal v / 2 ^ 32 < 65537) {cs : List Contrib} {ys : List Int}
    (real_ : cs.map (·.c) = ys.map some) :
    (residueCrt (accVal (rq8Element v cs).1) : Int) = (residueCrt (accVal v) + ys.sum) % (2 ^ 48 - 2 ^ 16) := by
  have own : Residue (accVal v) (residueCrt (accVal v)) := by
    refine (residueCrt_residues ?_ ?_).1 <;> simp only [bits] <;> omega
  exact (rq8Element_residue own real_).crt_eq

/-! ### Contributions (R181) -/

/-- The sums of the positive products of a K-block and of the magnitudes of its negative ones. -/
def plusSum (l : List Int) : Nat := (l.filter fun z => 0 ≤ z).sum.toNat
def minusSum (l : List Int) : Nat := (-(l.filter fun z => z < 0).sum).toNat

/-- One more product joins the one sum or the other. -/
theorem plusSum_cons (z : Int) (l : List Int) : plusSum (z :: l) = (if z ≥ 0 then z.toNat else 0) + plusSum l := by
  have rest : 0 ≤ (l.filter fun z => 0 ≤ z).sum := List.sum_nonneg fun z hz => by simpa using (List.mem_filter.mp hz).2
  by_cases sign : 0 ≤ z <;> simp [plusSum, sign]
  omega

theorem sum_negatives (l : List Int) : (l.filter fun z => z < 0).sum ≤ 0 := by
  induction l with
  | nil => rfl
  | cons z l ih =>
    rw [List.filter_cons]
    split
    next sign =>
      rw [List.sum_cons]
      exact add_nonpos (of_decide_eq_true sign).le ih
    next => exact ih

theorem minusSum_cons (z : Int) (l : List Int) : minusSum (z :: l) = (if z ≥ 0 then 0 else (-z).toNat) + minusSum l := by
  have rest := sum_negatives l
  by_cases sign : 0 ≤ z
  · simp [minusSum, sign, Int.not_lt.mpr sign]
  · simp [minusSum, sign, Int.not_le.mp sign]
    omega

/-- One pair of elements of a K-block. -/
def joinPair (r : Option (Nat × Nat)) (p : Option Int × Option Int) : Option (Nat × Nat) :=
  match r, p.1, p.2 with
  | some (p, n), some x, some y => let z := x * y; some (if z ≥ 0 then (p + z.toNat, n) else (p, n + (-z).toNat))
  | _, _, _ => none

theorem splitSums_real (x y : List Int) : splitSums (x.map some) (y.map some) = some (plusSum (x.zipWith (· * ·) y), minusSum (x.zipWith (· * ·) y)) := by
  have from_ : ∀ p n, ((x.map some).zip (y.map some)).foldl joinPair (some (p, n)) =
      some (p + plusSum (x.zipWith (· * ·) y), n + minusSum (x.zipWith (· * ·) y)) := by
    induction x generalizing y with
    | nil => intro p n; simp [plusSum, minusSum]
    | cons a x ih =>
      intro p n
      obtain _ | ⟨b, y⟩ := y
      · simp [plusSum, minusSum]
      · simp only [List.map_cons, List.zip_cons_cons, List.foldl_cons, List.zipWith_cons_cons, plusSum_cons, minusSum_cons, joinPair]
        split <;> simp [ih, Nat.add_assoc]
  have all := from_ 0 0
  rw [Nat.zero_add, Nat.zero_add] at all
  exact all

/-- A sum scaled by no negative shift to within 32 bits is exact and sets no flag (R181). -/
theorem scaleSum_exact {v j : Nat} (small : v * 2 ^ j < 2 ^ 32) : scaleSum v j = (v * 2 ^ j, 0) := by
  simp only [scaleSum]
  rw [if_pos (Int.natCast_nonneg j), Int.toNat_natCast]
  exact if_neg (by simp only; omega)

/-- The contributions of a K-block without NAR whose sums need no rounding. -/
theorem rq8Contrib_exact {split : Bool} {ref ea eb : Nat} {x y : List Int} (least : ref ≤ ea + eb) :
    let plus := plusSum (x.zipWith (· * ·) y) * 2 ^ (ea + eb - ref)
    let minus := minusSum (x.zipWith (· * ·) y) * 2 ^ (ea + eb - ref)
    plus < 2 ^ 32 → minus < 2 ^ 32 →
    (rq8Contrib split ref (ea, x.map some) (eb, y.map some)).map (·.c) =
      if split then [some (plus : Int), some (minus : Int)] else [some ((plus : Int) - minus)] := by
  intro plus minus hp hm
  have shift : (ea : Int) + eb - ref = (ea + eb - ref : Nat) := by omega
  simp only [rq8Contrib, splitSums_real, shift, scaleSum_exact hp, scaleSum_exact hm]
  cases split <;> rfl

end Sys2Proof.Machine
end

/-! ## Words after an operation (R180 to R183, R206) -/
section
namespace Sys2Proof.Machine

variable {split : Bool} {fw p1 ref i j : Nat} {a b : Store 8}

theorem upFrom_eq (start n : Nat) : upFrom start n = (List.range n).map (start + ·) :=
  List.ext_getElem (by simp) fun i _ _ => by simp [upFrom_getElem]

/-- What an operation leaves in the half `h` of its destination (R223). -/
def mmaWord (split : Bool) (fw p1 ref : Nat) (a b : Store 8) (i j : Nat) (old : List Nat) (h : Nat) : W64 :=
  BitVec.ofNat 64 ((mmaElement split fw p1 ref a b i j old)[h]?.getD (0, 0, 0)).1

/-! ### INT8 (R183, R206) -/

theorem int8Row_products (a b : Store 8) (i j kh : Nat) : (int8Row a i kh).zipWith (· * ·) (int8Row b j kh) =
    (List.range 64).map fun x => (Store.get a (128 * i + 64 * kh + x)).toInt * (Store.get b (128 * j + 64 * kh + x)).toInt := by
  simp only [int8Row, Store.bytes_eq, upFrom_eq, List.map_map, List.zipWith_map, List.zipWith_self]
  rfl

theorem signed_accVal_emod (v : Nat) : signed 32 (accVal v) % 2 ^ 32 = (v : Int) % 2 ^ 32 := by
  rw [signed, accVal]
  by_cases half : v % 2 ^ 49 % 2 ^ 32 < 2 ^ (32 - 1)
  · rw [if_pos half]; omega
  · rw [if_neg half]; omega

/-- The element after an INT8 operation, modulo 2^32. -/
theorem mmaWord_int8 (fmt : fw % 16 = 4) (v : Nat) : ((mmaWord false fw p1 ref a b i j [v] 0).toNat : Int) % 2 ^ 32 =
    (v + ((int8Row a i (mmaKh p1)).zipWith (· * ·) (int8Row b j (mmaKh p1))).sum) % 2 ^ 32 := by
  have four : bits fw 3 0 = 4 := by simpa [bits] using fmt
  have word : ∀ n z, (((BitVec.ofNat 64 (n * 2 ^ 49 + wrapNat 32 z)).toNat : Nat) : Int) % 2 ^ 32 = z % 2 ^ 32 := fun n z => by
    rw [BitVec.toNat_ofNat, wrapNat]
    omega
  simp only [mmaWord, mmaElement, four]
  refine (word _ _).trans ?_
  rw [← Int.emod_add_emod, signed_accVal_emod, Int.emod_add_emod]

/-! ### RQ8 (R179 to R181) -/

theorem accVal_word (w : Nat) : accVal (BitVec.ofNat 64 w).toNat = accVal w := by
  rw [BitVec.toNat_ofNat, accVal, accVal]
  omega

/-- The number of an element after an RQ8 operation whose contributions to its half are `ys`. -/
theorem mmaWord_rq8 (fmt : fw % 16 = 5) {old : List Nat} {h v : Nat} (own : old[h]? = some v)
    (ha : accVal v % 2 ^ 16 < 65535) (hc : accVal v / 2 ^ 32 < 65537) {ys : Nat → Int}
    (real_ : ∀ q < 4, ((rq8Contrib split ref (rq8Row a i q) (rq8Row b j q)).map (·.c))[h]? = some (some (ys q))) :
    (residueCrt (accVal (mmaWord split fw p1 ref a b i j old h).toNat) : Int) =
      (residueCrt (accVal v) + ((List.range 4).map ys).sum) % (2 ^ 48 - 2 ^ 16) := by
  have five : bits fw 3 0 = 5 := by simpa [bits] using fmt
  rw [mmaWord, accVal_word, mmaElement]
  simp only [five, BEq.rfl, if_true, List.getElem?_mapIdx, own, Option.map_some, Option.getD_some]
  refine rq8Element_crt ha hc ?_
  rw [List.map_filterMap, List.filterMap_map, List.map_map, ← List.filterMap_eq_map]
  refine List.filterMap_congr fun q hq => ?_
  have := real_ q (List.mem_range.mp hq)
  rw [List.getElem?_map] at this
  exact this

end Sys2Proof.Machine
end

/-! ## MMA_ENTRY_EXECUTE (R223) -/
section
namespace Sys2Proof.Machine

variable {s t u : State} {c sl : Nat} {A : Store 64} {split : Bool} {p1 fw : Nat} {e : Mq}

/-! ### Accumulator words -/

theorem Store.get_setAll_range {w : Nat} (m : Store w) (base n : Nat) (v : Nat → BitVec w) (a : Nat) :
    Store.get (Store.setAll m ((List.range n).map fun x => (base + x, v x))) a = if base ≤ a ∧ a < base + n then v (a - base) else Store.get m a := by
  induction n with
  | zero => simp [Store.setAll]
  | succ n ih =>
    have last : Store.setAll m ((List.range (n + 1)).map fun x => (base + x, v x)) =
        Store.set (Store.setAll m ((List.range n).map fun x => (base + x, v x))) (base + n) (v n) := by
      simp [Store.setAll, List.range_succ]
    rw [last, Store.get_set, ih]
    by_cases here : base + n = a
    · subst here
      simp
    · rw [if_neg here]
      congr 1
      exact propext (by omega)

/-- A slot's words after one slot is written. -/
theorem get_setSlot (m : Store 64) (j i : Nat) (v : Nat → W64) {x : Nat} (hx : x < 1024) :
    Store.get (Store.setAll m ((List.range 1024).map fun x => (j * 1024 + x, v x))) (i * 1024 + x) = if j = i then v x else Store.get m (i * 1024 + x) := by
  rw [Store.get_setAll_range]
  by_cases same : j = i
  · subst same
    simp [hx]
  · rw [if_neg same, if_neg (by omega)]

/-- The word that an operation leaves at place `x` of the half `h` of its destination, of accumulators `acc`, REF and tile rows. -/
def newWord (acc : Store 64) (ref : Nat) (a b : Store 8) (split : Bool) (p1 fw h x : Nat) : W64 :=
  mmaWord split fw p1 ref a b (x / 32) (x % 32) ((dstSlots split p1).map fun j => (Store.get acc (j * 1024 + x)).toNat) h

/-- The accumulators after the operation. -/
def mmaAcc (acc : Store 64) (ref : Nat) (a b : Store 8) (split : Bool) (p1 fw : Nat) : Store 64 :=
  ((dstSlots split p1).mapIdx fun h j => (h, j)).foldl (fun new (h, j) =>
    Store.setAll new ((List.range 1024).map fun x => (j * 1024 + x, newWord acc ref a b split p1 fw h x))) acc

section
variable {acc : Store 64} {ref j x : Nat} {a b : Store 8} (hx : x < 1024)
include hx

theorem mmaAcc_other (other : j ∉ dstSlots split p1) : Store.get (mmaAcc acc ref a b split p1 fw) (j * 1024 + x) = Store.get acc (j * 1024 + x) := by
  cases split with
  | false =>
    have ne : bits p1 27 25 ≠ j := fun eq => other (by simp [dstSlots, eq])
    simp [mmaAcc, dstSlots, get_setSlot, hx, ne]
  | true =>
    have ne : 2 * bits p1 27 25 ≠ j ∧ 2 * bits p1 27 25 + 1 ≠ j := ⟨fun eq => other (by simp [dstSlots, eq]), fun eq => other (by simp [dstSlots, eq])⟩
    simp [mmaAcc, dstSlots, get_setSlot, hx, ne]

theorem mmaAcc_dst {h : Nat} (dst : (dstSlots split p1)[h]? = some j) :
    Store.get (mmaAcc acc ref a b split p1 fw) (j * 1024 + x) = newWord acc ref a b split p1 fw h x := by
  match split, h, dst with
  | false, 0, dst | true, 0, dst | true, 1, dst =>
    obtain rfl := Option.some.inj dst
    simp [mmaAcc, dstSlots, get_setSlot, hx]
end

/-! ### What an operation leaves alone -/

/-- From `s` to `t` the accumulators of the core have become `acc`; no byte, convergence register or local byte has changed, and an
empty queue of the block has stayed so. -/
structure AccStep (c sl : Nat) (s t : State) (acc : Store 64) : Prop where
  mem : t.mem = s.mem
  acc : (coreOf t c).acc = acc
  cvs : (coreOf t c).cvs = (coreOf s c).cvs
  loc : (blockOf t c sl).map (·.mem.loc) = (blockOf s c sl).map (·.mem.loc)
  idle : mqOf s c sl = [] → mqOf t c sl = []

/-- So that the accumulators stay too. -/
abbrev Spares (c sl : Nat) (s t : State) : Prop := AccStep c sl s t (coreOf s c).acc

theorem AccStep.andThen (h : AccStep c sl s t A) (k : Spares c sl t u) : AccStep c sl s u A :=
  ⟨k.mem.trans h.mem, k.acc.trans h.acc, k.cvs.trans h.cvs, k.loc.trans h.loc, k.idle ∘ h.idle⟩

namespace Spares

theorem refl (c sl : Nat) (s : State) : Spares c sl s s := ⟨rfl, rfl, rfl, rfl, id⟩

theorem foldl {α : Type} {f : State → α → State} (hf : ∀ s x, Spares c sl s (f s x)) (l : List α) (s : State) : Spares c sl s (l.foldl f s) := by
  induction l generalizing s with
  | nil => exact refl c sl s
  | cons x r ih => exact (hf s x).andThen (ih _)

theorem ite {p : Prop} [Decidable p] (h : Spares c sl s t) : Spares c sl s (if p then t else s) := by
  split
  · exact h
  · exact refl c sl s

theorem modCore (s : State) (d : Nat) (f : Core → Core) (hs : ∀ k, (f k).slots = k.slots) (ha : ∀ k, (f k).acc = k.acc)
    (hc : ∀ k, (f k).cvs = k.cvs) (hq : ∀ k, (f k).mq = k.mq) : Spares c sl s (Machine.modCore s d f) := by
  by_cases same : d = c
  · subst same
    constructor <;> simp [hs, ha, hc, hq, blockOf, mqOf]
  · constructor <;> simp [coreOf_modCore_ne s f same, blockOf, mqOf]

theorem modBlock (s : State) (d sm : Nat) (f : Block → Block) (hf : ∀ b, (f b).mem = b.mem) : Spares c sl s (Machine.modBlock s d sm f) := by
  have loc : (blockOf (Machine.modBlock s d sm f) c sl).map (·.mem.loc) = (blockOf s c sl).map (·.mem.loc) := by
    by_cases same : d = c ∧ sm = sl
    · obtain ⟨rfl, rfl⟩ := same
      simp [hf, Function.comp_def]
    · rw [blockOf_modBlock_ne s f same]
  refine ⟨rfl, modBlock_core (·.acc) (fun _ _ => rfl) s d sm f c, modBlock_core (·.cvs) (fun _ _ => rfl) s d sm f c, loc, fun empty => ?_⟩
  rw [mqOf, modBlock_core (·.mq) (fun _ _ => rfl) s d sm f c]
  exact empty

theorem unpinLine (s : State) (line : Nat) (entry : Option Nat) : Spares c sl s (Machine.unpinLine s line entry) := ⟨rfl, rfl, rfl, rfl, id⟩

theorem releasePins (s : State) (d k : Nat) : Spares c sl s (Machine.releasePins s d k) := by
  unfold Machine.releasePins
  extract_lets x u
  have pins : Spares c sl s u := foldl (f := fun s (p : Nat × Option Nat) => Machine.unpinLine s p.1 p.2) (fun s p => unpinLine s p.1 p.2) x.pins s
  exact pins.andThen (modCore u d _ (fun _ => rfl) (fun _ => rfl) (fun _ => rfl) fun _ => rfl)

theorem letPinsGo (s : State) (d sm k on : Nat) : Spares c sl s (Machine.letPinsGo s d sm k on) := by
  unfold Machine.letPinsGo
  split
  · split
    · exact modBlock s d sm _ fun _ => rfl
    · exact releasePins s on k
  · exact releasePins s on k

theorem orAg (s : State) (d k flags : Nat) : Spares c sl s (Machine.orAg s d k flags) :=
  modCore s d _ (fun _ => rfl) (fun _ => rfl) (fun _ => rfl) fun _ => rfl

theorem orFstat (s : State) (d sm flags : Nat) : Spares c sl s (Machine.orFstat s d sm flags) := modBlock s d sm _ fun _ => rfl

theorem chargeBlock (s : State) (d sm ctr n units : Nat) : Spares c sl s (Machine.chargeBlock s d sm ctr n units) := modBlock s d sm _ fun _ => rfl

end Spares

/-! ### The queue (R209, R216) -/

/-- An entry that counts among the block's. -/
def Mq.counts (sl : Nat) (e : Mq) : Bool := e.slot == sl && !e.op.isTrel

theorem runTrels_go_counts (sl : Nat) (before l : List Mq) : (runTrels.go sl before l).2.filter (·.counts sl) = l.filter (·.counts sl) := by
  induction l generalizing before with
  | nil => rfl
  | cons e r ih =>
    simp only [runTrels.go]
    split
    next k goes =>
      have released : e.counts sl = false := by
        cases op : e.op <;> simp [op] at goes
        simp [Mq.counts, op, MqOp.isTrel]
      simp [released, ih]
    next => simp [List.filter_cons, ih]

theorem drop1_counts (sl : Nat) (l : List Mq) : (popMq.drop1 sl l).filter (·.counts sl) = (l.filter (·.counts sl)).tail := by
  induction l with
  | nil => rfl
  | cons e r ih =>
    rw [popMq.drop1, List.filter_cons]
    by_cases own : e.counts sl = true
    · rw [if_pos own, List.tail_cons]
      exact congrArg (List.filter _) (if_pos own)
    · rw [if_neg own, ← ih]
      refine (congrArg (List.filter _) (if_neg own)).trans ?_
      rw [List.filter_cons, if_neg own]

theorem mqOf_modCore (s : State) (c sl : Nat) (f : Core → Core) : mqOf (modCore s c f) c sl = (f (coreOf s c)).mq.filter (·.counts sl) := by
  rw [mqOf, coreOf_modCore_self]
  rfl

theorem Spares.runTrels (s : State) (c sl : Nat) : Spares c sl s (Machine.runTrels s c sl) := by
  have released (l : List Nat) : Spares c sl s (l.foldl (fun s k => Machine.releasePins s c k) s) := foldl (fun s k => releasePins s c k) l s
  unfold Machine.runTrels
  have queue := runTrels_go_counts sl [] (coreOf s c).mq
  generalize runTrels.go sl [] (coreOf s c).mq = r at *
  obtain ⟨ready, mq⟩ := r
  simp only
  split
  · exact released ready
  · refine ⟨(released ready).mem, ?_, ?_, ?_, fun empty => ?_⟩
    · simpa using (released ready).acc
    · simpa using (released ready).cvs
    · simpa [blockOf] using (released ready).loc
    · rw [mqOf_modCore]
      exact queue.trans empty

theorem startFetches_started (h : Claims.noneHeld s c) : startFetches s c = s := by
  have all : ∀ l : List TileFetch, (∀ x ∈ l, x.started = true) → ∀ busy, startFetches.go c s busy l = s := by
    intro l
    induction l with
    | nil => exact fun _ _ => rfl
    | cons f r ih =>
      intro started busy
      rw [startFetches.go, if_pos (started f (by simp))]
      exact ih (fun x hx => started x (by simp [hx])) _
  exact all _ h []

/-- The block's one entry leaves the queue: nothing else changes but how many entries the fetches count before them. -/
theorem popMq_alone (h : Claims.noneHeld s c) (alone : mqOf s c sl = [e]) :
    Spares c sl s (popMq s c sl) ∧ mqOf (popMq s c sl) c sl = [] ∧ (coreOf (popMq s c sl) c).ag = (coreOf s c).ag ∧
      (coreOf (popMq s c sl) c).accPoison = (coreOf s c).accPoison := by
  have none_ : Claims.noneHeld (modCore s c fun k =>
      { k with mq := popMq.drop1 sl k.mq, tfq := k.tfq.map fun t => if t.slot == sl then { t with mqBefore := t.mqBefore - 1 } else t }) c := by
    intro x hx
    rw [coreOf_modCore_self] at hx
    obtain ⟨y, hy, rfl⟩ := List.mem_map.mp hx
    have := h y hy
    split <;> exact this
  have queue : (popMq.drop1 sl (coreOf s c).mq).filter (·.counts sl) = [] := by
    rw [drop1_counts]
    exact congrArg List.tail alone
  rw [popMq, startFetches_started none_]
  refine ⟨⟨rfl, ?_, ?_, ?_, fun empty => ?_⟩, ?_, ?_, ?_⟩
  · simp
  · simp
  · simp [blockOf]
  · rw [mqOf_modCore]; exact queue
  · rw [mqOf_modCore]; exact queue
  · simp
  · simp

/-! ### The operation at the head of the queue (R223) -/

theorem tilePoison_ready {t : Tile} (h : Claims.tileReady t) (rq8 : Bool) : tilePoison t rq8 = none := by
  obtain ⟨ready, clean⟩ := h
  simp [tilePoison, ready, clean]

/-- The accumulators after the operation `p1`, `fw` on core `c`. -/
def multiplied (s : State) (c : Nat) (split : Bool) (p1 fw : Nat) : Store 64 :=
  mmaAcc (coreOf s c).acc (agRef (Store.get (coreOf s c).ag (pairOf split p1)).toNat) (tileOf s c (mmaTa p1)).rows (tileOf s c (mmaTb p1)).rows split p1 fw

theorem tileRows_ready {t : Tile} (h : Claims.tileReady t) : tileRows t = t.rows := by simp [tileRows, h.1]

theorem runMma_alone (ra : Claims.tileReady (tileOf s c (mmaTa p1))) (rb : Claims.tileReady (tileOf s c (mmaTb p1)))
    (clean : (coreOf s c).accPoison = []) (h : Claims.noneHeld s c) (alone : mqOf s c sl = [e]) :
    ∃ t, runMma s c e split p1 fw = some t ∧ AccStep c sl s t (multiplied s c split p1 fw) ∧ mqOf t c sl = [] := by
  obtain ⟨popped, empty, ag, poison⟩ := popMq_alone h alone
  have own : e.slot = sl := by
    have mem : e ∈ mqOf s c sl := alone ▸ List.mem_singleton_self e
    exact eq_of_beq (Bool.and_eq_true_iff.mp (List.mem_filter.mp mem).2).1
  have unmarked : (dstSlots split p1).any (slotMarked (popMq s c sl) c) = false := by simp [slotMarked, poison, clean]
  have entered : AccStep c sl s (modCore (popMq s c sl) c fun k => { k with acc := multiplied s c split p1 fw }) (multiplied s c split p1 fw) := by
    refine ⟨popped.mem, by simp, by simpa using popped.cvs, by simpa [blockOf] using popped.loc, fun idle => ?_⟩
    rw [alone] at idle
    cases idle
  unfold runMma
  simp only [tilePoison_ready ra, tilePoison_ready rb, tileRows_ready ra, tileRows_ready rb, own, unmarked, ra.1, rb.1, popped.acc, ag, List.map_map,
    Function.comp_def]
  refine ⟨_, rfl, ?_⟩
  have waiting : mqOf (modCore (popMq s c sl) c fun k => { k with acc := multiplied s c split p1 fw }) c sl = [] := by
    rw [mqOf_modCore]
    exact empty
  have finish : ∀ {t}, Spares c sl (modCore (popMq s c sl) c fun k => { k with acc := multiplied s c split p1 fw }) t →
      AccStep c sl s t (multiplied s c split p1 fw) ∧ mqOf t c sl = [] := fun later => ⟨entered.andThen later, later.idle waiting⟩
  refine finish (.andThen ?_ (Spares.chargeBlock ..))
  refine .andThen ?_ (Spares.ite (Spares.letPinsGo ..))
  refine .andThen ?_ (Spares.ite (Spares.letPinsGo ..))
  exact .andThen (Spares.orAg ..) (Spares.orFstat ..)

/-- Whether an entry is an operation of the matrix unit proper. -/
def MqOp.isMma : MqOp → Bool
  | .mma _ _ _ => true
  | _ => false

theorem exec_mmaEntryExecute (c sl : Nat) (s : State) : exec (.mmaEntryExecute c sl) s = .next (runIf s c sl MqOp.isMma) := rfl

/-- MMA_ENTRY_EXECUTE of the block's one entry does the operation and nothing else (R223). -/
theorem mmaEntryExecute_alone {p1 fw : W32} (alone : mqOf s c sl = [e]) (unsigned : ∀ n, (cvOf s c n).signs = []) (op : e.op = .mma split p1 fw)
    (ra : Claims.tileReady (tileOf s c (mmaTa p1.toNat))) (rb : Claims.tileReady (tileOf s c (mmaTb p1.toNat)))
    (clean : (coreOf s c).accPoison = []) (h : Claims.noneHeld s c) :
    ∃ t, exec (.mmaEntryExecute c sl) s = .next t ∧ AccStep c sl s t (multiplied s c split p1.toNat fw.toNat) := by
  obtain ⟨u, run, step, idle⟩ := runMma_alone (split := split) (fw := fw.toNat) ra rb clean h alone
  have head : (runHead s c sl).getD s = runTrels u c sl := by
    simp only [runHead, alone, op, run, Option.map_some, Option.getD_some]
  have still : mqOf (runTrels u c sl) c sl = [] := (Spares.runTrels u c sl).idle idle
  have quick : settleQuick (runTrels u c sl) c sl = runTrels (runTrels u c sl) c sl := by
    rw [settleQuick, runQuick, still]
  have after : AccStep c sl s (runTrels (runTrels u c sl) c sl) (multiplied s c split p1.toNat fw.toNat) :=
    (step.andThen (.runTrels ..)).andThen (.runTrels ..)
  have rounds : ∀ slot, endRounds (runTrels (runTrels u c sl) c sl) c slot = runTrels (runTrels u c sl) c sl := fun slot =>
    endRounds_unsigned (fun n => by rw [cvOf, after.cvs]; exact unsigned n) slot
  rw [exec_mmaEntryExecute]
  simp only [runIf, alone, op, MqOp.isMma, head, quick, if_true]
  generalize runTrels (runTrels u c sl) c sl = v at *
  have all : ∀ l : Table Block, l.foldl (fun s x => endRounds s c x.1) v = v := fun l => by
    induction l with
    | nil => rfl
    | cons x r ih => rw [List.foldl_cons, rounds, ih]
  exact ⟨v, by rw [all], after⟩

/-! ### The words of the destination -/

theorem accKey_eq (j i k : Nat) : accKey j i k = j * 1024 + (i * 32 + k) := Nat.add_assoc ..

section
variable {i j k : Nat} (step : AccStep c sl s t (multiplied s c split p1 fw)) (hi : i < 32) (hk : k < 32)
include step hi hk

theorem AccStep.accAt_other (other : j ∉ dstSlots split p1) : Claims.accAt t c j i k = Claims.accAt s c j i k := by
  rw [Claims.accAt, Claims.accAt, step.acc, accKey_eq, multiplied, mmaAcc_other (by omega) other]

theorem AccStep.accAt_dst {h : Nat} (dst : (dstSlots split p1)[h]? = some j) : Claims.accAt t c j i k =
    (mmaWord split fw p1 (agRef (Claims.agAt s c (pairOf split p1))) (tileOf s c (mmaTa p1)).rows (tileOf s c (mmaTb p1)).rows i k
      ((dstSlots split p1).map fun j => Claims.accAt s c j i k) h).toNat := by
  rw [Claims.accAt, step.acc, accKey_eq, multiplied, mmaAcc_dst (by omega) dst, newWord, show (i * 32 + k) / 32 = i by omega,
    show (i * 32 + k) % 32 = k by omega]
  simp only [Claims.accAt, accKey_eq, Claims.agAt]

/-- An INT8 operation adds the products, modulo 2^32. -/
theorem AccStep.int8 (unsplit : split = false) (fmt : fw % 16 = 4) (dst : j ∈ dstSlots split p1) :
    (Claims.accAt t c j i k : Int) % 2 ^ 32 = (Claims.accAt s c j i k + ((List.range 64).map fun x =>
      (Store.get (tileOf s c (mmaTa p1)).rows (128 * i + 64 * mmaKh p1 + x)).toInt *
        (Store.get (tileOf s c (mmaTb p1)).rows (128 * k + 64 * mmaKh p1 + x)).toInt).sum) % 2 ^ 32 := by
  subst unsplit
  obtain rfl : j = bits p1 27 25 := List.mem_singleton.mp dst
  rw [step.accAt_dst hi hk (h := 0) rfl, ← int8Row_products]
  exact mmaWord_int8 fmt _

/-- An RQ8 operation adds to the number of an element what its contributions to the element's half add up to. -/
theorem AccStep.rq8 (fmt : fw % 16 = 5) {h : Nat} (dst : (dstSlots split p1)[h]? = some j)
    (real_ : accVal (Claims.accAt s c j i k) % 2 ^ 16 < 65535 ∧ accVal (Claims.accAt s c j i k) / 2 ^ 32 < 65537) {ys : Nat → Int}
    (exact_ : ∀ q < 4, ((rq8Contrib split (agRef (Claims.agAt s c (pairOf split p1))) (rq8Row (tileOf s c (mmaTa p1)).rows i q)
      (rq8Row (tileOf s c (mmaTb p1)).rows k q)).map (·.c))[h]? = some (some (ys q))) :
    (residueCrt (accVal (Claims.accAt t c j i k)) : Int) =
      (residueCrt (accVal (Claims.accAt s c j i k)) + ((List.range 4).map ys).sum) % (2 ^ 48 - 2 ^ 16) := by
  rw [step.accAt_dst hi hk dst]
  refine mmaWord_rq8 fmt ?_ real_.1 real_.2 exact_
  rw [List.getElem?_map, dst, Option.map_some]
end

/-- Contributions that are no negative numbers add up as natural numbers. -/
theorem crt_natCast {a b : Nat} {ys : Nat → Nat}
    (h : (a : Int) = (b + ((List.range 4).map fun q => (ys q : Int)).sum) % (2 ^ 48 - 2 ^ 16)) :
    a = (b + ((List.range 4).map ys).sum) % (2 ^ 48 - 2 ^ 16) := by
  have sum : ((List.range 4).map fun q => (ys q : Int)).sum = ((List.range 4).map ys).sum := by
    rw [Nat.cast_list_sum, List.map_map]
    rfl
  rw [sum] at h
  omega

end Sys2Proof.Machine

open Sys2Proof Sys2Proof.Machine Sys2Proof.Claims in
/-- Settles O35: the operation leaves its words in the accumulators and nothing else (`mmaEntryExecute_alone`), and those words are the exact sums
(`AccStep.int8`, `AccStep.rq8`). -/
theorem multipliesAreExact : Obligations.MultipliesAreExact := by
  intro s c sl e split p1 fw b ta tb kh dst alone unsigned op _ _ ra rb clean none_
  obtain ⟨t, run, step⟩ := mmaEntryExecute_alone alone unsigned op ra rb clean none_
  refine ⟨t, run, step.mem, fun j _ other i hi k hk => step.accAt_other hi hk other, fun x => ?_,
    fun fmt unsplit j mem i hi k hk => step.int8 hi hk unsplit fmt mem, ?_⟩
  · have loc := congrArg (Option.map fun l => Store.get l x) step.loc
    rw [Option.map_map, Option.map_map] at loc
    exact congrArg (Option.getD · 0) loc
  · intro fmt i hi k hk x y ea eb ref products plus minus rows old real_
    have exact_ : ∀ q < 4, (rq8Contrib split ref (rq8Row ta.rows i q) (rq8Row tb.rows k q)).map (·.c) =
        if split then [some (plus q : Int), some (minus q : Int)] else [some ((plus q : Int) - minus q)] := fun q hq => by
      obtain ⟨rowA, rowB, least, hp, hm⟩ := rows q hq
      rw [rowA, rowB]
      exact rq8Contrib_exact least hp hm
    have own : ∀ {h j}, dst[h]? = some j → old j % 2 ^ 16 < 65535 ∧ old j / 2 ^ 32 < 65537 := fun at_ => real_ _ (List.mem_of_getElem? at_)
    cases split with
    | true =>
      intro j0 j1 pair
      have first : dst[0]? = some j0 := by rw [pair]; rfl
      have second : dst[1]? = some j1 := by rw [pair]; rfl
      exact ⟨crt_natCast (step.rq8 hi hk fmt first (own first) fun q hq => by rw [exact_ q hq]; rfl),
        crt_natCast (step.rq8 hi hk fmt second (own second) fun q hq => by rw [exact_ q hq]; rfl)⟩
    | false =>
      intro j mem
      have only : dst[0]? = some j := by rw [List.mem_singleton.mp mem]; rfl
      exact step.rq8 hi hk fmt only (own only) fun q hq => by rw [exact_ q hq]; rfl
end

/-! ## FADD, FSUB, FMUL and FMA on finite operands (R162, R165, R190)

The exact sum or product of two finite values is a finite value, and what the instruction gives is that value rounded. -/
section
namespace Sys2Proof.Machine

open Sys2Proof.Claims (real Rounded)

variable {u v w : FVal} {x y : Rat} {rm : Nat}

/-! ### Exact values -/

theorem real_fin (neg : Bool) (m : Nat) (e : Int) : real (.fin neg m e) = some (sgn neg * (m * (2 : Rat) ^ e)) :=
  congrArg some (mul_assoc ..)

theorem eq_fin_of_real (h : real v = some x) : ∃ neg m e, v = .fin neg m e ∧ x = sgn neg * (m * (2 : Rat) ^ e) := by
  cases v with
  | nan s => cases h
  | inf neg => cases h
  | fin neg m e => exact ⟨neg, m, e, rfl, (Option.some.inj ((real_fin neg m e).symm.trans h)).symm⟩

theorem sgn_not (neg : Bool) : sgn (!neg) = -sgn neg := by cases neg <;> simp [sgn]

theorem sgn_bne (a b : Bool) : sgn (a != b) = sgn a * sgn b := by cases a <;> cases b <;> simp [sgn]

theorem real_negVal (h : real v = some x) : real (negVal v) = some (-x) := by
  obtain ⟨neg, m, e, rfl, rfl⟩ := eq_fin_of_real h
  rw [negVal, real_fin, sgn_not, neg_mul]

/-- A magnitude on a lower exponent is the same number. -/
theorem shifted_mul_zpow (m : Nat) {e d : Int} (le : d ≤ e) : ((m * 2 ^ (e - d).toNat : Nat) : Rat) * (2 : Rat) ^ d = m * (2 : Rat) ^ e := by
  obtain ⟨k, rfl⟩ := Int.le.dest le
  rw [show (d + (k : Int) - d).toNat = k by omega, add_comm d, zpow_add₀ two_ne_zero, zpow_natCast]
  push_cast
  ring

theorem sumFin_exact (n₁ : Bool) (m₁ : Nat) (e₁ : Int) (n₂ : Bool) (m₂ : Nat) (e₂ : Int) :
    let r := sumFin n₁ m₁ e₁ n₂ m₂ e₂
    (r.1 : Rat) * (2 : Rat) ^ r.2 = sgn n₁ * (m₁ * (2 : Rat) ^ e₁) + sgn n₂ * (m₂ * (2 : Rat) ^ e₂) := by
  have signed_ : ∀ (n : Bool) (a : Int), ((if n then -a else a : Int) : Rat) = sgn n * a := fun n a => by cases n <;> simp [sgn]
  rw [← shifted_mul_zpow m₁ (min_le_left e₁ e₂), ← shifted_mul_zpow m₂ (min_le_right e₁ e₂)]
  simp only [sumFin, Int.cast_add, signed_, Int.cast_natCast]
  ring

/-- An integer is its magnitude under its sign. -/
theorem real_ofInt (n : Int) (e : Int) : real (.fin (decide (n < 0)) n.natAbs e) = some ((n : Rat) * (2 : Rat) ^ e) := by
  have signed_ : sgn (decide (n < 0)) * (n.natAbs : Rat) = n := by
    rw [Nat.cast_natAbs]
    by_cases negative_ : n < 0
    · simp [sgn, negative_, abs_of_neg negative_]
    · simp [sgn, negative_, abs_of_nonneg (Int.not_lt.mp negative_)]
  rw [real_fin, ← mul_assoc, signed_]

/-- A sum of finite values is exact; of a zero sum of nonzero values the mode gives the sign (R165). -/
theorem addVal_exact (rm : Nat) (hv : real v = some x) (hw : real w = some y) :
    ∃ u, addVal rm v w = (u, 0) ∧ real u = some (x + y) ∧ (x ≠ 0 → x + y = 0 → u = .fin (rm == 2) 0 0) := by
  obtain ⟨n₁, m₁, e₁, rfl, rfl⟩ := eq_fin_of_real hv
  obtain ⟨n₂, m₂, e₂, rfl, rfl⟩ := eq_fin_of_real hw
  have sum := sumFin_exact n₁ m₁ e₁ n₂ m₂ e₂
  simp only [addVal, Bool.and_eq_true, decide_eq_true_eq]
  split
  next zeros =>
    obtain ⟨rfl, rfl⟩ := zeros
    exact ⟨_, rfl, by simp [real], fun nonzero => absurd (by simp) nonzero⟩
  next =>
    split
    next zero =>
      refine ⟨_, rfl, ?_, fun _ _ => rfl⟩
      rw [← sum, zero]
      simp [real]
    next nonzero =>
      refine ⟨_, rfl, (real_ofInt ..).trans (congrArg some sum), fun _ cancel => absurd (sum.trans cancel) ?_⟩
      exact mul_ne_zero (Int.cast_ne_zero.mpr nonzero) (zpow_ne_zero _ two_ne_zero)

/-- A product of finite values is exact, under the XOR of their signs. -/
theorem mulVal_exact (hv : real v = some x) (hw : real w = some y) :
    ∃ u, mulVal v w = (u, 0) ∧ real u = some (x * y) ∧ isNeg u = (isNeg v != isNeg w) := by
  obtain ⟨n₁, m₁, e₁, rfl, rfl⟩ := eq_fin_of_real hv
  obtain ⟨n₂, m₂, e₂, rfl, rfl⟩ := eq_fin_of_real hw
  refine ⟨_, rfl, ?_, rfl⟩
  rw [real_fin, sgn_bne, zpow_add₀ two_ne_zero]
  push_cast
  exact congrArg some (by ring)

/-- The sign of a finite value is the code's first bit (R158). -/
theorem Fmt.isNeg_value {f : Fmt} {a : Nat} (h : real (f.value a) = some x) : isNeg (f.value a) = bit a (f.w - 1) := by
  simp only [Fmt.value] at h ⊢
  split_ifs at h ⊢
  · cases h
  · cases h
  · rfl
  · rfl

/-! ### Rounded once -/

/-- A nonzero exact value is rounded once. -/
theorem finish_rounded {code : Nat} (hc : code ≤ 2) (hrm : rm < 4) (hu : real u = some x) (nonzero : x ≠ 0) :
    Rounded (fmtOf code) rm x ((fmtOf code).finish rm (u, 0)).1 := by
  obtain ⟨neg, m, e, rfl, rfl⟩ := eq_fin_of_real hu
  have positive : 0 < m := Nat.pos_of_ne_zero fun zero => nonzero (by simp [zero])
  have round_ : ((fmtOf code).finish rm (.fin neg m e, 0)).1 = ((fmtOf code).round rm neg m e).1 := by
    simp only [Fmt.finish, Fmt.ofValue, Fmt.ofFin, if_neg positive.ne']
  rw [round_, ← mul_assoc]
  exact (roundingIsCorrect code hc rm hrm neg m e positive).1

/-- An exact zero keeps its sign and raises nothing (R165). -/
theorem finish_zero (f : Fmt) (rm : Nat) (hu : real u = some 0) : f.finish rm (u, 0) = (f.zero (isNeg u), 0) := by
  obtain ⟨neg, m, e, rfl, zero⟩ := eq_fin_of_real hu
  have none_ : m = 0 := by
    have unit_ : (2 : Rat) ^ e ≠ 0 := zpow_ne_zero _ two_ne_zero
    have factors := zero.symm
    cases neg <;> simpa [sgn, unit_] using factors
  simp [Fmt.finish, Fmt.ofValue, Fmt.ofFin, none_, isNeg]

end Sys2Proof.Machine

open Sys2Proof Sys2Proof.Machine Sys2Proof.Claims in
/-- Settles O6: the sum and the product of finite values are exact (`addVal_exact`, `mulVal_exact`), and they are rounded once
(`finish_rounded`) or keep the sign of their zero (`finish_zero`). -/
theorem arithmeticRoundsExactly : Obligations.ArithmeticRoundsExactly := by
  intro code hc rm hrm a b c x y z f ha hb hz
  obtain ⟨sum, add, sumReal, sumZero⟩ := addVal_exact rm ha hb
  obtain ⟨diff, sub, diffReal, -⟩ := addVal_exact rm ha (real_negVal hb)
  obtain ⟨prod, mul, prodReal, prodSign⟩ := mulVal_exact ha hb
  obtain ⟨fused, fma, fusedReal, fusedZero⟩ := addVal_exact rm prodReal hz
  have added : f.add rm a b = f.finish rm (sum, 0) := by rw [Fmt.add, add]
  have subtracted : f.sub rm a b = f.finish rm (diff, 0) := by rw [Fmt.sub, sub]
  have multiplied : f.mul rm a b = f.finish rm (prod, 0) := by rw [Fmt.mul, mul]
  have both : f.fma rm a b c = f.finish rm (fused, 0) := by simp only [Fmt.fma, mul, fma]; rfl
  rw [added, subtracted, multiplied, both]
  refine ⟨finish_rounded hc hrm sumReal, finish_rounded hc hrm (sub_eq_add_neg x y ▸ diffReal), finish_rounded hc hrm prodReal,
    finish_rounded hc hrm fusedReal, fun nonzero cancel => ?_, fun nonzero cancel => ?_, fun zero => ?_⟩
  · rw [finish_zero f rm (cancel ▸ sumReal), sumZero nonzero cancel, isNeg]
  · rw [finish_zero f rm (cancel ▸ fusedReal), fusedZero nonzero cancel, isNeg]
  · rw [finish_zero f rm (zero ▸ prodReal), prodSign, Fmt.isNeg_value ha, Fmt.isNeg_value hb]
end

/-! ## The float and conversion functions (R187 to R196)

Every row of the table is an ALU function with the table's own result, and the flags it can raise are the five conditions of R166. -/
section
namespace Sys2Proof.Machine

open Sys2Proof.Claims (floatFns flagsOf)

/-! ### The rows of the table -/

theorem intResult_eq (c : Cls) (v : Int) : intResult c v = (BitVec.ofInt (widthOf c) v).toNat := wrapNat_eq ..

/-- Adding the weight of a word's sign flips the sign. -/
theorem add_half_mod {w : Nat} (a : Nat) (pos : 0 < w) : (a % 2 ^ w + 2 ^ (w - 1)) % 2 ^ w = a % 2 ^ w ^^^ 2 ^ (w - 1) := by
  refine Nat.eq_of_testBit_eq fun i => ?_
  rw [Nat.add_comm, Nat.testBit_mod_two_pow, Nat.testBit_xor, Nat.testBit_two_pow]
  obtain below | rfl | above := Nat.lt_trichotomy i (w - 1)
  · rw [Nat.testBit_two_pow_add_gt below]
    simp [below.ne', Nat.lt_of_lt_of_le below (Nat.sub_le ..)]
  · rw [Nat.testBit_two_pow_add_eq]
    simp [pos]
  · have beyond : ¬i < w := by omega
    simp [beyond, above.ne]

theorem fcvtF_eq (c : Cls) (o : XOp) (l : List Nat) : fcvtF c o l =
    if o.type.toNat ≤ 2 then (fmtOf o.type.toNat).ofValue o.rm.toNat ((fmtOf o.fn4.toNat).value (aOf l))
    else let r := toInt (if o.type.toNat = 3 then 32 else 8) o.rm.toNat ((fmtOf o.fn4.toNat).value (aOf l))
      ((BitVec.ofInt (widthOf c) r.1).toNat, r.2) := by
  simp only [fcvtF, intResult_eq]

theorem icvtF_eq (c : Cls) (o : XOp) (l : List Nat) : icvtF c o l =
    let v : Int := if o.fn4 = 3 then (BitVec.ofNat 32 (aOf l)).toInt else (BitVec.ofNat 8 (aOf l)).toInt
    if o.type.toNat ≤ 2 then (fmtOf o.type.toNat).ofFin o.rm.toNat (decide (v < 0)) v.natAbs 0
    else if o.type = 4 ∧ o.fn4 = 3 then
      ((BitVec.ofInt (widthOf c) (if o.sat then max (-128) (min v 127) else (BitVec.ofNat 8 (aOf l)).toInt)).toNat, 0)
    else ((BitVec.ofInt (widthOf c) v).toNat, 0) := by
  have source : o.fn4.toNat = 3 ↔ o.fn4 = 3 := BitVec.toNat_inj (y := 3)
  have target : o.type.toNat = 4 ↔ o.type = 4 := BitVec.toNat_inj (y := 4)
  simp only [icvtF, intResult_eq, signed_ofNat, source, target, Bool.and_eq_true, decide_eq_true_eq]
  split
  · rfl
  · split
    next narrow =>
      have clamp : ∀ v : Int, min (max v (-128)) 127 = max (-128) (min v 127) := fun v => by omega
      simp only [narrow.2, if_true, clamp]
    next => rfl

/-- The course of a row: the ALU function of its operands, rules and result. -/
def floatAlu (f : Claims.FloatFn) (c : Cls) (o : XOp) : Alu := xAlu o c f.args (some (f.from_ o)) (f.ok o) (f.val c o) true

theorem xAlu_congr {o : XOp} {c : Cls} {n : Nat} {flt : Option Nat} {ok ok' payload : Bool} {F G : List Nat → Nat × Nat} (rules : ok = ok')
    (val : ∀ l, F l = G l) : xAlu o c n flt ok F payload = xAlu o c n flt ok' G payload := by
  rw [rules, funext val]

/-- The rules of R188 in the table's order. -/
theorem arith_rules (o : XOp) : (xFloatType o && xRmOk o && o.fn4 == 0) = Claims.roundingForm o := by
  simp only [xFloatType, xRmOk, Claims.roundingForm]
  ac_rfl
theorem plain_rules (o : XOp) : (xFloatType o && o.rm == 0 && o.fn4 == 0) = Claims.plainForm o := by
  simp only [xFloatType, Claims.plainForm]
  ac_rfl

/-- A field of four bits by its number. -/
theorem toNat_beq (x k : BitVec 4) : (x.toNat == k.toNat) = (x == k) := decide_eq_decide.mpr BitVec.toNat_inj

theorem icvt_rules (o : XOp) :
    (o.type.toNat ≤ 4 && xRmOk o && (o.fn4.toNat == 3 || o.fn4.toNat == 4) && (!o.sat || (o.fn4.toNat == 3 && o.type.toNat == 4))) =
      (o.type.toNat ≤ 4 && o.rm.toNat < 4 && (o.fn4 == 3 || o.fn4 == 4) && (!o.sat || (o.fn4 == 3 && o.type == 4))) := by
  rw [← toNat_beq o.fn4 3, ← toNat_beq o.fn4 4, ← toNat_beq o.type 4]
  rfl

theorem withCx_alu {a b : Alu} (s : State) (h : a = b) : (withCx s fun cx => cx.alu s a) = withCx s fun cx => cx.alu s b := by rw [h]

theorem floatFns_run : ∀ f ∈ floatFns, ∀ c o s, exec (f.instr c o) s = withCx s fun cx => cx.alu s (floatAlu f c o) := by
  have arith : ∀ {c o n} {F : List Nat → Nat × Nat} s,
      (withCx s fun cx => cx.alu s (xAlu o c n (some o.type.toNat) (xFloatType o && xRmOk o && o.fn4 == 0) F true)) =
        withCx s fun cx => cx.alu s (xAlu o c n (some o.type.toNat) (Claims.roundingForm o) F true) := fun s =>
    withCx_alu s (xAlu_congr (arith_rules _) fun _ => rfl)
  have plain : ∀ {c o n} {F G : List Nat → Nat × Nat} s, (∀ l, F l = G l) →
      (withCx s fun cx => cx.alu s (xAlu o c n (some o.type.toNat) (xFloatType o && o.rm == 0 && o.fn4 == 0) F true)) =
        withCx s fun cx => cx.alu s (xAlu o c n (some o.type.toNat) (Claims.plainForm o) G true) := fun s val =>
    withCx_alu s (xAlu_congr (plain_rules _) val)
  have flip : ∀ (o : XOp) (l : List Nat), (aOf l % 2 ^ (fmtOf o.type.toNat).w + 2 ^ ((fmtOf o.type.toNat).w - 1)) % 2 ^ (fmtOf o.type.toNat).w =
      aOf l % 2 ^ (fmtOf o.type.toNat).w ^^^ 2 ^ ((fmtOf o.type.toNat).w - 1) := fun o l =>
    add_half_mod _ (Nat.lt_of_lt_of_le (Nat.succ_pos _) (fmtOf_ieee _).fields)
  simp only [floatFns, List.forall_mem_cons, List.not_mem_nil, false_imp_iff, implies_true, and_true]
  exact ⟨fun _ _ => arith, fun _ _ => arith, fun _ _ => arith, fun _ _ => arith,
    fun _ _ s => plain s fun _ => rfl, fun _ _ s => plain s fun _ => rfl, fun _ _ s => plain s fun _ => rfl,
    fun _ o s => plain s fun l => congrArg (·, 0) (flip o l), fun _ _ s => plain s fun _ => rfl,
    fun c o s => withCx_alu s (xAlu_congr rfl (fcvtF_eq c o)), fun c o s => withCx_alu s (xAlu_congr (icvt_rules o) (icvtF_eq c o))⟩

/-! ### The conditions of R166 -/

theorem invalid_lt_32 (p : Bool) : (if p then fInvalid else 0) < 2 ^ 5 := by cases p <;> decide

theorem Fmt.round_flags_lt_32 (f : Fmt) (rm : Nat) (neg : Bool) (m : Nat) (e : Int) : (f.round rm neg m e).2 < 2 ^ 5 := by
  rw [f.round_unit]
  simp only
  split_ifs <;> decide

theorem Fmt.ofFin_flags_lt_32 (f : Fmt) (rm : Nat) (neg : Bool) (m : Nat) (e : Int) : (f.ofFin rm neg m e).2 < 2 ^ 5 := by
  unfold Fmt.ofFin
  split
  · exact Nat.two_pow_pos 5
  · exact f.round_flags_lt_32 ..

theorem Fmt.ofValue_flags_lt_32 (f : Fmt) (rm : Nat) (v : FVal) : (f.ofValue rm v).2 < 2 ^ 5 := by
  cases v with
  | nan s => exact invalid_lt_32 s
  | inf neg => exact Nat.two_pow_pos 5
  | fin neg m e => exact f.ofFin_flags_lt_32 ..

theorem toInt_flags_lt_32 (w rm : Nat) (v : FVal) : (toInt w rm v).2 < 2 ^ 5 := by
  cases v with
  | nan s => exact invalid_lt_32 true
  | inf neg => exact invalid_lt_32 true
  | fin neg m e =>
    simp only [toInt, apply_ite Prod.snd]
    split_ifs <;> decide

/-- A sum raises INVALID or nothing. -/
theorem addVal_flags (rm : Nat) (x y : FVal) : ∃ p : Bool, (addVal rm x y).2 = if p then fInvalid else 0 := by
  cases x with
  | nan a => cases y <;> exact ⟨_, rfl⟩
  | inf a =>
    cases y with
    | nan b => exact ⟨b, rfl⟩
    | inf b => exact ⟨a != b, by cases a <;> cases b <;> rfl⟩
    | fin => exact ⟨false, rfl⟩
  | fin =>
    cases y with
    | nan b => exact ⟨b, rfl⟩
    | inf b => exact ⟨false, rfl⟩
    | fin =>
      refine ⟨false, ?_⟩
      simp only [addVal, apply_ite Prod.snd, ite_self]
      rfl

/-- A product raises INVALID or nothing. -/
theorem mulVal_flags (x y : FVal) : ∃ p : Bool, (mulVal x y).2 = if p then fInvalid else 0 := by
  cases x with
  | nan a => cases y <;> exact ⟨_, rfl⟩
  | inf a =>
    cases y with
    | nan b => exact ⟨b, rfl⟩
    | inf b => exact ⟨false, rfl⟩
    | fin b m e => exact ⟨m = 0, by simp only [mulVal, decide_eq_true_eq]; split <;> rfl⟩
  | fin a m e =>
    cases y with
    | nan b => exact ⟨b, rfl⟩
    | inf b => exact ⟨m = 0, by simp only [mulVal, decide_eq_true_eq]; split <;> rfl⟩
    | fin => exact ⟨false, rfl⟩

theorem addVal_flags_lt_32 (rm : Nat) (x y : FVal) : (addVal rm x y).2 < 2 ^ 5 := by
  obtain ⟨p, flags⟩ := addVal_flags rm x y
  exact flags ▸ invalid_lt_32 p

theorem mulVal_flags_lt_32 (x y : FVal) : (mulVal x y).2 < 2 ^ 5 := by
  obtain ⟨p, flags⟩ := mulVal_flags x y
  exact flags ▸ invalid_lt_32 p

theorem Fmt.finish_flags_lt_32 (f : Fmt) (rm : Nat) {r : FVal × Nat} (h : r.2 < 2 ^ 5) : (f.finish rm r).2 < 2 ^ 5 :=
  Nat.or_lt_two_pow (f.ofValue_flags_lt_32 rm r.1) h

theorem Fmt.minmax_flags_lt_32 (f : Fmt) (max_ : Bool) (a b : Nat) : (f.minmax max_ a b).2 < 2 ^ 5 := by
  simp only [Fmt.minmax, apply_ite Prod.snd, ite_self]
  exact invalid_lt_32 _

/-- No row raises SATQ or IDZ. -/
theorem floatFns_flags_lt_32 : ∀ f ∈ floatFns, ∀ c o l, (f.val c o l).2 < 2 ^ 5 := by
  simp only [floatFns, List.forall_mem_cons, List.not_mem_nil, false_imp_iff, implies_true, and_true, apply_ite Prod.snd, ite_self]
  have none_ : 0 < 2 ^ 5 := Nat.two_pow_pos 5
  refine ⟨fun c o l => ?_, fun c o l => ?_, fun c o l => ?_, fun c o l => ?_, fun c o l => ?_, fun c o l => ?_, fun _ _ _ => none_, fun _ _ _ => none_,
    fun _ _ _ => none_, fun c o l => ?_, fun c o l => ?_⟩
  case refine_1 => exact Fmt.finish_flags_lt_32 _ _ (addVal_flags_lt_32 ..)
  case refine_2 => exact Fmt.finish_flags_lt_32 _ _ (addVal_flags_lt_32 ..)
  case refine_3 => exact Fmt.finish_flags_lt_32 _ _ (mulVal_flags_lt_32 ..)
  case refine_4 => exact Fmt.finish_flags_lt_32 _ _ (Nat.or_lt_two_pow (mulVal_flags_lt_32 ..) (addVal_flags_lt_32 ..))
  case refine_5 => exact Fmt.minmax_flags_lt_32 ..
  case refine_6 => exact Fmt.minmax_flags_lt_32 ..
  case refine_7 =>
    split
    · exact Fmt.ofValue_flags_lt_32 ..
    · exact toInt_flags_lt_32 ..
  case refine_8 =>
    split
    · exact Fmt.ofFin_flags_lt_32 ..
    · exact none_

/-! ### A lane with an enabled condition (R126, R189) -/

variable {s : State} {cx : Cx}

theorem flagsOf_eq (l : List Nat) : flagsOf l = orAll l := rfl

/-- Terms that are nothing add nothing. -/
theorem orAll_filter {α : Type} (g : α → Nat) (l : List α) : orAll ((l.filter fun x => g x != 0).map g) = orAll (l.map g) := by
  induction l with
  | nil => rfl
  | cons x r ih =>
    by_cases zero : g x = 0
    · simp [zero, ih, orAll_cons]
    · simp [zero, ih, orAll_cons]

/-- In a context without threads one lane with an enabled condition traps the instruction whole, before it writes. -/
theorem Cx.flagged_traps {d : Dec} {k : State → List (Nat × Nat) → State} {fs : List (Nat × Nat × Nat)} (hT : cx.isT = false)
    (met : ∃ r ∈ fs, enabled (cx.fen s) r.2.2 ≠ 0) :
    cx.flagged s d fs k = cx.raise s d.srcs (flagTrap (orAll (fs.map fun r => enabled (cx.fen s) r.2.2)) []) [0] := by
  have some_ : (fs.filter fun r => enabled (cx.fen s) r.2.2 != 0).isEmpty = false := by
    obtain ⟨r, hr, bad⟩ := met
    rw [List.isEmpty_eq_false_iff_exists_mem]
    exact ⟨r, List.mem_filter.mpr ⟨hr, by simpa using bad⟩⟩
  simp only [Cx.flagged, hT, some_, Bool.false_eq_true, if_false]
  rw [orAll_filter fun r : Nat × Nat × Nat => enabled (cx.fen s) r.2.2]

theorem enabled_lt {fen flags n : Nat} (h : flags < 2 ^ n) : enabled fen flags < 2 ^ n :=
  Nat.lt_of_le_of_lt (Nat.and_le_left.trans Nat.and_le_left) h

/-- Without IDZ the trap is FP, its detail the conditions (R419). -/
theorem flagTrap_fp {e : Nat} (h : e < 2 ^ 5) : flagTrap e [] = { cause := 20, detail := e } := by
  have clear : bit e 6 = false := by
    rw [bit_eq_testBit]
    exact Nat.testBit_lt_two_pow (Nat.lt_trans h (by decide))
  simp [flagTrap, clear]

/-- An ALU function of a context without threads of which a lane meets an enabled condition (R189). -/
theorem Cx.alu_traps {a : Alu} {rs : List (Nat × List Nat)} (h : Enters s cx a.d rs) (sfu : a.sfu = false) (hT : cx.isT = false)
    (fp : ∀ r ∈ rs, (a.f r.2).2 < 2 ^ 5) (met : ∃ r ∈ rs, enabled (cx.fen s) (a.f r.2).2 ≠ 0) :
    ∃ s1, cx.alu s a = cx.raise s1 a.d.srcs { cause := 20, detail := orAll (rs.map fun r => enabled (cx.fen s) (a.f r.2).2) } [0] ∧
      cx.RegsSame s s1 ∧ cx.Keeps s s1 := by
  obtain ⟨s1, course, same, keeps⟩ := Cx.start_enters h fun s rs =>
    cx.flagged s a.d (rs.map fun r => (r.1, a.f r.2)) fun s rs => cx.result s a.d a.cls (a.cls == .s) rs
  obtain ⟨r, hr, bad⟩ := met
  have effect := course.resolve_right fun none_ => List.not_mem_nil (none_.1 ▸ hr)
  have fen : cx.fen s1 = cx.fen s := by rw [Cx.fen, Cx.fen, same.regs]
  have conditions : orAll (rs.map fun r => enabled (cx.fen s) (a.f r.2).2) < 2 ^ 5 :=
    orAll_lt (List.forall_mem_map.mpr fun r hr => enabled_lt (fp r hr))
  have traps := Cx.flagged_traps (s := s1) (d := a.d) (k := fun s rs => cx.result s a.d a.cls (a.cls == .s) rs)
    (fs := rs.map fun r => (r.1, a.f r.2)) hT ⟨_, List.mem_map_of_mem hr, by rw [fen]; exact bad⟩
  rw [fen, List.map_map] at traps
  refine ⟨s1, ?_, same, keeps⟩
  simp only [Cx.alu, sfu, Bool.false_and, Bool.false_eq_true, if_false]
  rw [effect, traps]
  exact congrArg (fun t => cx.raise s1 a.d.srcs t [0]) (flagTrap_fp conditions)

end Sys2Proof.Machine

open Sys2Proof Sys2Proof.Machine Sys2Proof.Claims in
/-- Settles O7: every row is the ALU function of the table's result (`floatFns_run`), whose course `Cx.alu_writes` says. -/
theorem floatFunctionResults : Obligations.FloatFunctionResults := by
  intro f hf c o s cx rs enters quiet
  obtain ⟨writes, keeps, fstat⟩ := Cx.alu_writes (floatAlu f c o) enters (xAlu_sound ..) rfl quiet
  refine ⟨_, (floatFns_run f hf c o s).trans (withCx_here enters.here _), writes, keeps, fun hb => ?_⟩
  have flags : orAll (rs.map fun r => (f.val c o r.2).2) < 2 ^ 5 :=
    orAll_lt (List.forall_mem_map.mpr fun r _ => floatFns_flags_lt_32 f hf c o r.2)
  rw [flagsOf_eq, ← Nat.mod_eq_of_lt (Nat.lt_trans flags (by decide : 2 ^ 5 < 128))]
  exact fstat hb

open Sys2Proof Sys2Proof.Machine Sys2Proof.Claims in
/-- Settles O8: no row raises IDZ, so the enabled conditions of the lanes are the detail of an FP trap (`Cx.alu_traps`). -/
theorem enabledFlagTraps : Obligations.EnabledFlagTraps := by
  intro f hf c o s cx rs core slot enters _ hT met
  obtain ⟨s1, traps, same, keeps⟩ := Cx.alu_traps (a := floatAlu f c o) enters rfl hT (fun r _ => floatFns_flags_lt_32 f hf c o r.2) met
  refine ⟨s1, ?_, keeps, same.regs, fun k m l has => same.reg has m l⟩
  rw [floatFns_run f hf, withCx_here enters.here, traps]
  rfl
end

/-! ## QNT and DQNT (R187, R201, R202, R204) -/
section
namespace Sys2Proof.Machine

open Sys2Proof.Claims (flagsOf)

variable {s t u : State} {cx : Cx} {o : POp} {ok : Bool} {rs : List (Nat × List Nat)}

/-! ### Flags -/

theorem butterfly_flags_lt {j : Nat} {x : List (FVal × Nat)} (h : ∀ v ∈ x, v.2 < 2 ^ 7) : ∀ v ∈ butterfly j x, v.2 < 2 ^ 7 := by
  have elem : ∀ i : Nat, ((x[i]?).getD (FVal.fin false 0 0, 0)).2 < 2 ^ 7 := fun i => by
    cases hi : x[i]? with
    | none => exact Nat.two_pow_pos 7
    | some v => exact h v (List.mem_of_getElem? hi)
  have sum : ∀ v w, (addVal 0 v w).2 < 2 ^ 7 := fun v w => Nat.lt_trans (addVal_flags_lt_32 0 v w) (by decide)
  refine List.forall_mem_map.mpr fun i _ => ?_
  split
  · exact Nat.or_lt_two_pow (Nat.or_lt_two_pow (sum ..) (elem _)) (elem _)
  · exact Nat.or_lt_two_pow (Nat.or_lt_two_pow (sum ..) (elem _)) (elem _)

theorem toRq8_flags_lt (e : Nat) (v : FVal) : (toRq8 e v).2 < 2 ^ 7 := by
  cases v with
  | nan s => exact Nat.two_pow_pos 7
  | inf neg => exact (by decide : fSatq < 2 ^ 7)
  | fin neg m x =>
    simp only [toRq8, apply_ite Prod.snd]
    split_ifs <;> decide

theorem ofRq8_flags_lt (f : Fmt) (rm e c : Nat) : (ofRq8 f rm e c).2 < 2 ^ 7 := by
  unfold ofRq8
  split
  · exact Nat.two_pow_pos 7
  · split
    · exact Nat.lt_trans (f.ofFin_flags_lt_32 ..) (by decide)
    · exact Nat.two_pow_pos 7
    · exact Nat.two_pow_pos 7

/-- The elements after the butterfly stages, each with its flags (R201). -/
def transformed (f : Fmt) (stages : Nat) (words : List Nat) : List (FVal × Nat) :=
  (List.range stages).foldl (fun x j => butterfly j x) (words.map fun w => (f.value w, if isSnan (f.value w) then fInvalid else 0))

theorem transformed_flags_lt (f : Fmt) (stages : Nat) (words : List Nat) : ∀ v ∈ transformed f stages words, v.2 < 2 ^ 7 := by
  unfold transformed
  refine List.foldlRecOn (motive := fun x : List (FVal × Nat) => ∀ v ∈ x, v.2 < 2 ^ 7) _ _ ?_ fun x h j _ => butterfly_flags_lt h
  exact List.forall_mem_map.mpr fun w _ => Nat.lt_trans (invalid_lt_32 _) (by decide)

theorem transformed_length (f : Fmt) (stages : Nat) {words : List Nat} (h : words.length = 32) : (transformed f stages words).length = 32 := by
  unfold transformed
  exact List.foldlRecOn (motive := fun x : List (FVal × Nat) => x.length = 32) _ _ (by simpa using h) fun x _ j _ => by simp [butterfly]

theorem quantize_flags_lt (f : Fmt) (stages : Nat) (words : List Nat) : (quantize f stages words).2.2 < 2 ^ 7 := by
  refine orAll_lt fun v hv => ?_
  obtain element | code := List.mem_append.mp hv
  · obtain ⟨x, hx, rfl⟩ := List.mem_map.mp element
    exact transformed_flags_lt f stages words x hx
  · obtain ⟨x, hx, rfl⟩ := List.mem_map.mp code
    obtain ⟨y, -, rfl⟩ := List.mem_map.mp hx
    exact toRq8_flags_lt ..

theorem quantize_length (f : Fmt) (stages : Nat) {words : List Nat} (h : words.length = 32) : (quantize f stages words).1.length = 32 := by
  simp only [quantize, List.length_map]
  exact transformed_length f stages h

/-! ### The registers of the stream's place as they read -/

/-- Every register and predicate of the stream's place reads as before. -/
structure Cx.SameReads (cx : Cx) (s t : State) : Prop where
  reg : ∀ c m l, cx.kind.has c = true → cx.reg t c m l = cx.reg s c m l
  pbit : ∀ m i, cx.pbit t m i = cx.pbit s m i

theorem Cx.SameReads.trans (h : cx.SameReads s t) (k : cx.SameReads t u) : cx.SameReads s u :=
  ⟨fun c m l has => (k.reg c m l has).trans (h.reg c m l has), fun m i => (k.pbit m i).trans (h.pbit m i)⟩

theorem Cx.RegsSame.sameReads (h : cx.RegsSame s t) : cx.SameReads s t := ⟨fun _ m l has => h.reg has m l, h.pbit⟩

theorem Cx.orFlags_sameReads (cx : Cx) (s : State) (n : Nat) : cx.SameReads s (cx.orFlags s n) ∧ cx.Keeps s (cx.orFlags s n) := by
  obtain ⟨reg, pbit, keeps, -⟩ := cx.orFlags_keeps s n
  exact ⟨⟨reg, pbit⟩, keeps⟩

theorem Cx.Writes.of_reads {c : Cls} {n : Nat} {nwb : Bool} {vals : List (Nat × Nat)} (h : cx.Writes t u c n nwb vals) (same : cx.SameReads s t) :
    cx.Writes s u c n nwb vals where
  written := h.written
  others c' m l has hm hl ho := (h.others c' m l has hm hl ho).trans (same.reg c' m l has)
  preds m i := (h.preds m i).trans (same.pbit m i)

theorem Cx.SameReads.writes_nil (h : cx.SameReads s t) (c : Cls) (n : Nat) (nwb : Bool) : cx.Writes s t c n nwb [] :=
  ⟨fun _ _ hr => (nomatch hr), fun c' m l has _ _ _ => h.reg c' m l has, h.pbit⟩

/-! ### Where QNT and DQNT stand -/

theorem Enters.quant_kind (h : Enters s cx (quantDec o cx ok) rs) : cx.kind = .T ∨ cx.kind = .V ∨ cx.kind = .S := by
  have valid : validIn [.T, .V, .S] [] cx.kind = none := (Cx.decodeTrap_none h.legal).1
  cases kind : cx.kind <;> simp_all [validIn]

/-- The format is FP32, FP16 or BF16 (R201, R204). -/
theorem Enters.quant_format (h : Enters s cx (quantDec o cx ok) rs) : bits o.param.toNat 31 28 ≤ 2 := by
  have rules : (_ && _) = true := (Cx.decodeTrap_none h.legal).2.1
  simp only [Bool.and_eq_true, decide_eq_true_eq] at rules
  obtain ⟨⟨⟨⟨format, -⟩, -⟩, -⟩, -⟩ := rules
  exact format

theorem Enters.quant_block (h : Enters s cx (quantDec o cx ok) rs) : ∃ c sl b, cx.id = .blk c sl ∧ cx.blk s = some b := by
  obtain ⟨c, sl, b, hid, hb⟩ := (cxOf_placed h.here).block h.quant_kind
  exact ⟨c, sl, b, hid, by simpa only [Cx.blk, hid] using hb⟩

/-- The scale and the value go to a register of the place's own class, which is written (R187). -/
theorem Enters.quant_result (h : Enters s cx (quantDec o cx ok) rs) (reads : cx.SameReads s u) (placed : cx.Placed u) (F : List Nat → Nat) :
    let vals := rs.map fun r => (r.1, F r.2)
    let t := cx.result u (quantDec o cx ok) cx.cls (cx.cls == .s) vals
    cx.Writes s t cx.cls o.p.dreg.toNat o.p.nwb vals ∧ cx.Keeps u t ∧ cx.regs t = cx.regs u := by
  have kind := h.quant_kind
  have has : cx.kind.has cx.cls = true := by obtain e | e | e := kind <;> rw [Cx.cls, e] <;> rfl
  have dst : (if o.p.nwb then o.p.dreg.toNat == 0 else cx.regOk s (rcOf cx.cls) o.p.dreg.toNat) = true := (Cx.decodeTrap_none h.legal).2.2.1
  have notT : cx.cls ≠ .g → cx.isT = false := fun other => by
    obtain e | e | e := kind
    · exact absurd (by rw [Cx.cls, e]) other
    · rw [Cx.isT, e]; rfl
    · rw [Cx.isT, e]; rfl
  have perElem : (quantDec o cx ok).perElem = (cx.cls == .v) := by
    show (cx.kind == .V) = (cx.cls == .v)
    obtain e | e | e := kind <;> rw [Cx.cls, e] <;> rfl
  have low : cx.cls = .s → o.p.dreg.toNat < 32 := fun scalar => Cx.dreg_lt_of_s (by rwa [scalar] at dst)
  have one : cx.cls = .s → rs.length ≤ 1 := fun scalar => h.length_le_one (notT (by rw [scalar]; decide)) (by rw [perElem, scalar]; rfl)
  have elems : cx.cls = .v → ∀ r ∈ rs, r.1 < 256 := fun vector => h.lane_lt (notT (by rw [vector]; decide)) (by rw [perElem, vector]; rfl)
  obtain ⟨writes, kept, same⟩ := Cx.result_writes (d := quantDec o cx ok) placed has h.goes low (h.single_map F)
    (fun scalar a ha b hb => eq_of_length_le_one (by rw [List.length_map]; exact one scalar) ha hb)
    fun vector => List.forall_mem_map.mpr (elems vector)
  exact ⟨writes.of_reads reads, kept, same⟩

/-! ### Flags of a block's stream -/

/-- Flags joined into FSTAT of the stream's block (R126). -/
theorem Cx.orFlags_fstat {b : Block} (hb : cx.blk s = some b) {n : Nat} (h : n < 2 ^ 7) :
    (cx.regs (cx.orFlags s n)).fstat = (cx.regs s).fstat ||| BitVec.ofNat 32 n := by
  obtain ⟨-, -, -, regs⟩ := cx.orFlags_keeps s n
  rw [hb] at regs
  rw [regs]
  exact congrArg (fun k => (cx.regs s).fstat ||| BitVec.ofNat 32 k) (Nat.mod_eq_of_lt h)

/-! ### DQNT -/

/-- DQNT's value and flags for a lane's operands (R204). -/
def dqntOf (o : POp) (l : List Nat) : Nat × Nat :=
  ofRq8 (fmtOf (bits o.param.toNat 31 28)) (bits o.param.toNat 27 25) (bOf l % 256) (aOf l % 256)

theorem dqnt_joins (h : Enters s cx (quantDec o cx (bits o.param.toNat 27 25 < 4)) rs) (quiet : ∀ r ∈ rs, enabled (cx.fen s) (dqntOf o r.2).2 = 0) :
    ∃ t, exec (.dqnt o) s = .next t ∧ cx.Joins s t cx.cls o.p (rs.map fun r => (r.1, dqntOf o r.2)) := by
  obtain ⟨c, sl, b, hid, hb⟩ := h.quant_block
  obtain ⟨s', course, same, keeps⟩ := Cx.start_enters h fun s rs =>
    cx.flagged s (quantDec o cx (bits o.param.toNat 27 25 < 4)) (rs.map fun r => (r.1, dqntOf o r.2)) fun s done =>
      cx.result s (quantDec o cx (bits o.param.toNat 27 25 < 4)) cx.cls (cx.cls == .s) done
  obtain course | ⟨rfl, course⟩ := course
  · obtain ⟨b', hb'⟩ := keeps.blk_some hb
    have quiet' : ∀ r ∈ rs.map fun r => (r.1, dqntOf o r.2), enabled (cx.fen s') r.2.2 = 0 :=
      List.forall_mem_map.mpr fun r hr => by rw [Cx.fen, same.regs]; exact quiet r hr
    have flags : orAll (rs.map fun r => (dqntOf o r.2).2) < 2 ^ 7 := orAll_lt (List.forall_mem_map.mpr fun r _ => ofRq8_flags_lt ..)
    have fstat := Cx.orFlags_fstat hb' flags
    obtain ⟨reads, joined⟩ := cx.orFlags_sameReads s' (orAll (rs.map fun r => (dqntOf o r.2).2))
    obtain ⟨writes, kept, regs⟩ := h.quant_result (same.sameReads.trans reads) ((cxOf_placed h.here).keep (keeps.trans joined))
      fun l => (dqntOf o l).1
    rw [Cx.flagged_none cx s' _ _ _ quiet'] at course
    simp only [List.map_map, Function.comp_def] at course
    refine ⟨_, (withCx_here h.here _).trans (congrArg _ course), ?_⟩
    simp only [Cx.Joins, List.map_map, Function.comp_def]
    exact ⟨writes, keeps.trans (joined.trans kept), by rw [regs, fstat, same.regs]⟩
  · refine ⟨_, (withCx_here h.here _).trans (congrArg _ course), ?_⟩
    exact ⟨same.sameReads.writes_nil .., keeps, by simp [same.regs, orAll]⟩

/-! ### The words and the codes of QNT in local memory -/

/-- The 32 words of a lane's block (R201). -/
def qntWords (f : Fmt) (m : BlkMem) (a : Nat) : List Nat := (List.range 32).map fun i => bytesVal (m.loadLoc (a + f.w / 8 * i) (f.w / 8)).1

/-- A lane's codes, scale and flags. -/
def qntOf (o : POp) (m : BlkMem) (l : List Nat) : List Nat × Nat × Nat :=
  quantize (fmtOf (bits o.param.toNat 31 28)) (bits o.param.toNat 27 25) (qntWords (fmtOf (bits o.param.toNat 31 28)) m (aOf l))

theorem field_bytes (m : Store 8) {a n k j : Nat} (h : k + j ≤ n) : field (Store.bytes m a n) k j = bytesVal (Store.bytes m (a + k) j) := by
  refine congrArg bytesVal (List.ext_getElem ?_ fun i _ _ => ?_)
  · simp only [Store.bytes_eq, List.length_take, List.length_drop, List.length_map, upFrom_length]
    omega
  · simp only [Store.bytes_eq, List.getElem_take, List.getElem_drop, List.getElem_map, upFrom_getElem, Nat.add_assoc]

/-- The words of the block read at once are those read one by one. -/
theorem wordsOf_loadLoc (f : Fmt) (m : BlkMem) (a : Nat) : wordsOf (f.w / 8) (m.loadLoc a (32 * (f.w / 8))).1 32 = qntWords f m a :=
  List.map_congr_left fun i hi => field_bytes m.loc (by
    have := Nat.mul_le_mul_left (f.w / 8) (Nat.succ_le_of_lt (List.mem_range.mp hi))
    rw [Nat.mul_succ] at this
    omega)

theorem qntOf_length (o : POp) (m : BlkMem) (l : List Nat) : (qntOf o m l).1.length = 32 := quantize_length _ _ (by simp [qntWords])

/-- The codes of the lanes written to local memory, in lane order. -/
def storeCodes (o : POp) (old : BlkMem) (rs : List (Nat × List Nat)) (m : BlkMem) : BlkMem :=
  rs.foldl (fun m r => m.storeLoc (bOf r.2) ((qntOf o old r.2).1.map fun c => BitVec.ofNat 8 c) false) m

theorem storeCodes_rest (o : POp) (old : BlkMem) (rs : List (Nat × List Nat)) (m : BlkMem) :
    (storeCodes o old rs m).rows = m.rows ∧ (storeCodes o old rs m).preds = m.preds := by
  unfold storeCodes
  exact List.foldlRecOn (motive := fun x : BlkMem => x.rows = m.rows ∧ x.preds = m.preds) _ _ ⟨rfl, rfl⟩ fun _ h _ _ => h

/-- Where every lane has its result every lane's codes are stored. -/
theorem storeCodes_all (o : POp) (old : BlkMem) (rs : List (Nat × List Nat)) (m : BlkMem) (F : List Nat → Nat) :
    (rs.map fun r => (r.1, bOf r.2, qntOf o old r.2)).foldl (fun m q =>
      if (rs.map fun r => (r.1, F r.2)).any fun r => r.1 == q.1 then m.storeLoc q.2.1 (q.2.2.1.map fun c => BitVec.ofNat 8 c) false else m) m =
        storeCodes o old rs m := by
  rw [List.foldl_map]
  exact List.foldl_ext _ _ _ fun m r hr => if_pos (List.any_eq_true.mpr ⟨(r.1, F r.2), List.mem_map.mpr ⟨r, hr, rfl⟩, beq_self_eq_true r.1⟩)

theorem BlkMem.storeLoc_loc (m : BlkMem) (a : Nat) (bs : List Byte) (bad : Bool) : (m.storeLoc a bs bad).loc = Store.setBytes m.loc a bs := rfl

/-- Of the codes that lie over a byte the last lane's stands (R202). -/
theorem storeCodes_get (o : POp) (old : BlkMem) (rs : List (Nat × List Nat)) (m : BlkMem) (x : Nat) :
    Store.get (storeCodes o old rs m).loc x = rs.foldl (fun v r => if bOf r.2 ≤ x ∧ x < bOf r.2 + 32
      then BitVec.ofNat 8 (((qntOf o old r.2).1[x - bOf r.2]?).getD 0) else v) (Store.get m.loc x) := by
  induction rs generalizing m with
  | nil => rfl
  | cons r rs ih =>
    have codes : ((qntOf o old r.2).1.map fun c => BitVec.ofNat 8 c).length = 32 := by rw [List.length_map, qntOf_length]
    refine (ih _).trans (congrArg (fun v => rs.foldl _ v) ?_)
    rw [BlkMem.storeLoc_loc, Store.get_setBytes]
    simp only [codes]
    split
    next inside =>
      have below : x - bOf r.2 < (qntOf o old r.2).1.length := by rw [qntOf_length]; omega
      rw [List.getElem_map, List.getElem?_eq_getElem below, Option.getD_some]
    next => rfl

/-- A change of the block's memory beside its registers and predicates. -/
theorem Cx.modMem_seen {b : Block} (hb : cx.blk s = some b) (g : BlkMem → BlkMem) (rest : ∀ m, (g m).rows = m.rows ∧ (g m).preds = m.preds) :
    let t := cx.modBlk s fun b => b.modMem g
    cx.SameReads s t ∧ cx.regs t = cx.regs s ∧ cx.mem t = g (cx.mem s) ∧ t.mem = s.mem := by
  obtain ⟨c, sl, hid, here⟩ := Cx.blk_place hb
  have mem : cx.mem (cx.modBlk s fun b => b.modMem g) = g (cx.mem s) := by simp [Cx.modBlk, Cx.mem, Cx.blk, hid, here]
  have ctl : cx.ctl (cx.modBlk s fun b => b.modMem g) = cx.ctl s := by simp [Cx.modBlk, Cx.ctl, ctlOf, hid, here]
  obtain ⟨rows, preds⟩ := rest (cx.mem s)
  refine ⟨⟨fun k m l _ => ?_, fun m i => ?_⟩, by simp [Cx.modBlk, Cx.regs, Cx.blk, hid, here], mem, by simp [Cx.modBlk, hid]⟩
  · cases k <;> simp only [Cx.reg, mem, ctl, BlkMem.g, BlkMem.v, rows]
  · simp only [Cx.pbit, mem, ctl, BlkMem.p, preds]

/-! ### The course of QNT -/

/-- A lane's addresses pass every check of R202: nothing owed lies there, the block is aligned, both places are in local memory, in a
sealed region the codes are within LWSET, and no word of the block is poisoned. -/
structure QntPasses (cx : Cx) (s : State) (z : Nat) (r : Nat × List Nat) : Prop where
  owesBlock : cx.rowOwed s (32 * z) 0 { sp := .loc, lane := r.1, ea := (aOf r.2 : Nat) } = false
  owesCodes : cx.rowOwed s 32 1 { sp := .loc, lane := r.1, ea := (bOf r.2 : Nat) } = false
  aligned : aOf r.2 % z = 0
  block : aOf r.2 + 32 * z ≤ (cx.mem s).locb
  codes : bOf r.2 + 32 ≤ (cx.mem s).locb
  lwset : cx.sealed s = true → inLwset (cx.region s) (bOf r.2) 32 = true
  clean : ((cx.mem s).loadLoc (aOf r.2) (32 * z)).2 = false

theorem Cx.Issued.region_eq (h : cx.Issued s t) : cx.region t = cx.region s := by
  have same : regionOf t = regionOf s := funext fun b => by simp only [regionOf, objOf, h.keeps.objects_eq]
  simp only [Cx.region, same, h.block_map (regionOf s) fun _ => rfl]

/-- Addresses that pass before the issue pass after it. -/
theorem QntPasses.issued {z : Nat} {r : Nat × List Nat} (h : QntPasses cx s z r) (i : cx.Issued s t) : QntPasses cx t z r where
  owesBlock := (i.rowOwed_eq ..).trans h.owesBlock
  owesCodes := (i.rowOwed_eq ..).trans h.owesCodes
  aligned := h.aligned
  block := by rw [i.regs.mem]; exact h.block
  codes := by rw [i.regs.mem]; exact h.codes
  lwset := by rw [i.sealed, i.region_eq]; exact h.lwset
  clean := by rw [i.regs.mem]; exact h.clean

theorem localFault_none {locb a n : Nat} (h : a + n ≤ locb) : localFault locb a n = none := by
  have inside : ¬((a : Int) < 0 ∨ (a : Int) + n > locb) := by omega
  simpa [localFault] using inside

theorem QntPasses.noFault {z : Nat} {r : Nat × List Nat} (h : QntPasses cx s z r) :
    firstFault [alignFault (aOf r.2) z 0, localFault (cx.mem s).locb (aOf r.2) (32 * z), localFault (cx.mem s).locb (bOf r.2) 32,
      lwsetFault (cx.sealed s) (cx.region s) (bOf r.2) 32] = none := by
  have aligned : ((aOf r.2 : Int) % z != 0) = false := bne_eq_false_iff_eq.mpr (by exact_mod_cast h.aligned)
  have within : (cx.sealed s && !inLwset (cx.region s) (bOf r.2 : Int).toNat 32) = false := by
    cases sealed_ : cx.sealed s with
    | false => rfl
    | true => simp [h.lwset sealed_]
  rw [alignFault, aligned, localFault_none h.block, localFault_none h.codes, lwsetFault, within]
  rfl

/-- The state in which QNT's codes are stored and its flags joined, before the scales are written. -/
def qntStored (cx : Cx) (o : POp) (rs : List (Nat × List Nat)) (s : State) : State :=
  cx.modBlk (cx.orFlags s (orAll (rs.map fun r => (qntOf o (cx.mem s) r.2).2.2))) fun b => b.modMem (storeCodes o (cx.mem s) rs)

/-- The codes and the flags are there and nothing else has changed. -/
theorem qntStored_seen {b : Block} (hb : cx.blk s = some b) (placed : cx.Placed s) :
    let u := qntStored cx o rs s
    cx.SameReads s u ∧ cx.Placed u ∧ (cx.regs u).fstat = (cx.regs s).fstat ||| BitVec.ofNat 32 (orAll (rs.map fun r => (qntOf o (cx.mem s) r.2).2.2)) ∧
      (∀ x, Store.get (cx.mem u).loc x = Store.get (storeCodes o (cx.mem s) rs (cx.mem s)).loc x) ∧ u.mem = s.mem := by
  obtain ⟨c, sl, hid, -⟩ := Cx.blk_place hb
  have flags : orAll (rs.map fun r => (qntOf o (cx.mem s) r.2).2.2) < 2 ^ 7 := orAll_lt (List.forall_mem_map.mpr fun r _ => quantize_flags_lt ..)
  have fstat := Cx.orFlags_fstat hb flags
  obtain ⟨before, joined⟩ := cx.orFlags_sameReads s (orAll (rs.map fun r => (qntOf o (cx.mem s) r.2).2.2))
  obtain ⟨b', hb'⟩ := joined.blk_some hb
  obtain ⟨reads, regs, mem, package⟩ := Cx.modMem_seen hb' (storeCodes o (cx.mem s) rs) (storeCodes_rest o (cx.mem s) rs)
  refine ⟨before.trans reads, ?_, (congrArg _ regs).trans fstat, fun x => ?_, package.trans joined.mem_eq⟩
  · simp only [qntStored, Cx.modBlk, hid]
    exact (placed.keep joined).modBlock c sl _
  · rw [qntStored, mem, storeCodes_get, storeCodes_get, joined.loc_eq]

/-- QNT's effect where every lane passes its checks and none meets an enabled condition (R202). -/
theorem qnt_effect (h : Enters s cx (quantDec o cx (bits o.param.toNat 27 25 ≤ 5)) rs) (free : outsideRead s cx.id = false)
    (passes : ∀ r ∈ rs, QntPasses cx s ((fmtOf (bits o.param.toNat 31 28)).w / 8) r)
    (quiet : ∀ r ∈ rs, enabled (cx.fen s) (qntOf o (cx.mem s) r.2).2.2 = 0) :
    ∃ s' t, exec (.qnt o) s = .next t ∧ cx.Issued s s' ∧
      (t = cx.result (qntStored cx o rs s') (quantDec o cx (bits o.param.toNat 27 25 ≤ 5)) cx.cls (cx.cls == .s)
          (rs.map fun r => (r.1, (qntOf o (cx.mem s) r.2).2.1)) ∨ (rs = [] ∧ t = s')) := by
  obtain ⟨c, sl, b, hid, hb⟩ := h.quant_block
  have width : (if bits o.param.toNat 31 28 == 0 then 4 else 2) = (fmtOf (bits o.param.toNat 31 28)).w / 8 := by
    have format := h.quant_format
    generalize bits o.param.toNat 31 28 = code at format
    interval_cases code <;> rfl
  refine Exists.imp (fun s' start => ⟨_, withCx_here h.here _, start.2, start.1.imp_left fun acts => acts.trans ?_⟩) (Cx.start_issued h hb _)
  obtain ⟨-, issued⟩ := start
  replace passes := fun r hr => (passes r hr).issued issued
  rw [← issued.outsideRead_eq] at free
  rw [← issued.regs.mem, Cx.fen, ← issued.regs.regs] at quiet
  rw [← issued.regs.mem]
  simp only [width, wordsOf_loadLoc]
  refine (if_neg ?wait).trans ((if_neg ?faults).trans ((if_neg ?poisoned).trans ?effect))
  case wait =>
    have rows : (rs.any fun r => cx.rowOwed s' (32 * ((fmtOf (bits o.param.toNat 31 28)).w / 8)) 0 { sp := .loc, lane := r.1, ea := (aOf r.2 : Nat) } ||
        cx.rowOwed s' 32 1 { sp := .loc, lane := r.1, ea := (bOf r.2 : Nat) }) = false :=
      List.any_eq_false.mpr fun r hr => by rw [(passes r hr).owesBlock, (passes r hr).owesCodes]; decide
    rw [free, rows]
    decide
  case faults =>
    rw [List.filterMap_eq_nil_iff.mpr fun r hr => by rw [(passes r hr).noFault]; rfl]
    decide
  case poisoned =>
    rw [List.filter_eq_nil_iff.mpr fun r hr => by rw [(passes r hr).clean]; decide]
    decide
  case effect =>
    rw [Cx.flagged_none _ _ _ _ _ (by rw [List.map_map]; exact List.forall_mem_map.mpr quiet)]
    simp only [List.map_map, Function.comp_def]
    exact congrArg (fun g => cx.result (cx.modBlk (cx.orFlags s' _) fun b => b.modMem g) _ cx.cls (cx.cls == .s) _)
      (funext fun m => storeCodes_all o (cx.mem s') rs m fun l => (qntOf o (cx.mem s') l).2.1)

end Sys2Proof.Machine

open Sys2Proof Sys2Proof.Machine Sys2Proof.Claims in
/-- Settles O13: QNT's effect stores the codes and writes the scales (`qnt_effect`, `storeCodes_get`); DQNT's is a result with flags
(`dqnt_joins`). -/
theorem quantisingResults : Obligations.QuantisingResults := by
  constructor
  · intro o s cx rs f z block q enters free owed lanes
    have passes : ∀ r ∈ rs, QntPasses cx s z r ∧ enabled (cx.fen s) (qntOf o (cx.mem s) r.2).2.2 = 0 := fun r hr => by
      obtain ⟨owesBlock, owesCodes⟩ := owed r hr
      obtain ⟨aligned, source, codes, lwset, clean, quiet⟩ := lanes r hr
      exact ⟨⟨owesBlock, owesCodes, aligned, source, codes, lwset, clean⟩, quiet⟩
    obtain ⟨c, sl, b, -, hb⟩ := enters.quant_block
    obtain ⟨s', t, run, issued, effect⟩ := qnt_effect enters free (fun r hr => (passes r hr).1) fun r hr => (passes r hr).2
    refine ⟨t, run, ?_⟩
    obtain rfl | ⟨rfl, rfl⟩ := effect
    · obtain ⟨b', hb'⟩ := issued.keeps.blk_some hb
      obtain ⟨reads, placed, fstat, codes, mem⟩ := qntStored_seen (o := o) (rs := rs) hb' ((cxOf_placed enters.here).keep issued.keeps)
      obtain ⟨writes, kept, regs⟩ := enters.quant_result (issued.regs.sameReads.trans reads) placed fun l => (qntOf o (cx.mem s) l).2.1
      refine ⟨writes, fun x => ?_, kept.mem_eq.trans (mem.trans issued.keeps.mem_eq), ?_⟩
      · rw [kept.loc_eq, codes, issued.regs.mem]
        exact storeCodes_get o (cx.mem s) rs (cx.mem s) x
      · rw [regs, fstat, issued.regs.regs, issued.regs.mem]
        rfl
    · exact ⟨issued.regs.sameReads.writes_nil .., fun x => by rw [issued.keeps.loc_eq]; rfl, issued.keeps.mem_eq, by simp [issued.regs.regs, flagsOf]⟩
  · intro o s cx rs v enters quiet
    obtain ⟨t, run, writes, keeps, fstat⟩ := dqnt_joins enters quiet
    rw [List.map_map] at writes fstat
    exact ⟨t, run, writes, keeps, fstat⟩
end

/-! ## CVSIGN in a block whose bundles share a number (R218, R221)

The clause of O37 on the signature that ends a round asks where the bundles stand that have a member among the acting
threads, and not that a bundle's number is its own, nor that its members live. In the block below the dead thread 3 is
alone in two bundles, as in `ShrinkInSharedBundles`: when thread 0 completes, the first of them moves on to where thread 3
stands, and so does thread 2's second bundle, which has the same number; then thread 3 leaves both of its own. When thread 1
completes, thread 2 does not stand where its second bundle now does, and leaves its bundles before its own CVSIGN completes:
it no longer stands in the line, so that it goes on at the next parcel, which the line's mask says is no instruction. -/
section
namespace Sys2Proof.CvsignInSharedBundles

open Sys2Proof.Machine Sys2Proof.Claims

/-- `CVSIGN 15, g1`. -/
def op : KOp := ⟨⟨15, false, 1, 0, 0⟩, 0⟩
/-- A line whose only instruction is CVSIGN, in parcels 2 and 3. -/
def line : List W32 := [0x00000001, 0, 0xD4000000, 0x01000000] ++ List.replicate 28 0
/-- Threads 0 to 2 stand at the CVSIGN, each with a format word in g1; thread 3 is dead. -/
def block : Block :=
  { launch := 1, obj := 0, part := 0, asid := 1, prio := 0, vpref := 0, det := 0, coop := false, claim := { cv := 0x8000 }
    regs := { nthr := 4, nblk := 1 }
    exec :=
      { threads := List.replicate 3 { pc := 8, live := true } ++ [{ pc := 0x200 }]
        bundles :=
          [{ id := 1, members := [0, 1, 2], pc := 8, line := some line }, { id := 2, members := [3], pc := 0x208 },
           { id := 2, members := [2], pc := 8, line := some line }, { id := 3, members := [3], pc := 8 }] }
    mem := { budget := 16, locb := 4096, rowBytes := 4096, rows := [(1, 0x344), (65, 0x344), (129, 0x344)] } }
/-- An operation is posted on register 15, whose gang is all four threads. -/
def state : State :=
  { cores := [(0, { slots := [(0, block)], cvs := [(15, { gangs := 1, desc := some (false, 0x08080000, 1) })] })], cur := .bundle 0 0 1 }
def cx : Cx := { id := .blk 0 0, kind := .T, acts := [0, 1, 2], pc := 8, line := some line }
/-- The acting threads' operands. -/
def operands : List (Nat × List Nat) := [(0, [0x344]), (1, [0x344]), (2, [0x344])]

theorem enters : Enters state cx (cvsignDec op) operands where
  here := by decide +kernel
  legal := by decide +kernel
  reads := by decide +kernel
  latches := fun h => by cases h
  goes := by decide +kernel

theorem bundles : ∀ u ∈ block.exec.bundles, (∃ l ∈ u.members, l ∈ cx.acts) → u.line = cx.line ∧ u.pc = cx.pc := by decide +kernel

/-- Where thread 2 stands after the CVSIGN, as the model computes it. -/
def pcAfter : Host.Outcome State Fault Refusal → Option VAddr
  | .next t => some (cx.pcOf t 2)
  | _ => none

theorem pcAfter_cvsign : pcAfter (exec (.cvsign op) state) = some 16 := by decide +kernel

theorem next : cx.next (cvsignDec op) = 136 := by decide +kernel

end Sys2Proof.CvsignInSharedBundles

open Sys2Proof Sys2Proof.Machine Sys2Proof.CvsignInSharedBundles in
/-- Refutes O37: its clause on the signature that ends the round allows two bundles of one number, through which a thread
leaves its line before it has completed the instruction, so that it goes on elsewhere than the clause says. -/
theorem not_convergence : ¬ Obligations.Convergence := by
  unfold Obligations.Convergence
  rintro ⟨-, -, sign⟩
  have signed := (sign op state cx operands block enters (by decide +kernel) (by decide) rfl (by decide +kernel)).2
  obtain ⟨t, run, -, -, stands, -⟩ := signed false 0x08080000 1 0x344 rfl rfl (by decide +kernel) (by decide) (by decide)
    (by decide +kernel) rfl (by decide) bundles
  have computed := pcAfter_cvsign
  have claimed := (stands (2, [0x344]) (by decide)).2
  rw [run] at computed
  simp [pcAfter, claimed, next] at computed
end

/-! ## Rows of ALD, AST and DRN (R226, R230) -/
section
namespace Sys2Proof.Machine

open Sys2Proof.Claims (blockByte accAt agAt noneHeld number)

variable {s t u : State} {c sl j addr row : Nat} {e : Mq} {b : Block} {A : Store 64} {L : Store 8}

/-! ### Blocks of bytes of one length -/

theorem flatMap_block {α β : Type} {g : α → List β} {z : Nat} (len : ∀ x, (g x).length = z) {l : List α} {k : Nat} {x : α} (at_ : l[k]? = some x) :
    ((l.flatMap g).drop (z * k)).take z = g x := by
  induction l generalizing k with
  | nil => simp at at_
  | cons y r ih =>
    cases k with
    | zero =>
      obtain rfl : y = x := by simpa using at_
      simp [← len y]
    | succ k =>
      rw [List.flatMap_cons, show z * (k + 1) = (g y).length + z * k by rw [len]; ring, List.drop_length_add_append]
      exact ih (by simpa using at_)

theorem getElem?_flatMap_block {α β : Type} {g : α → List β} {z : Nat} (len : ∀ x, (g x).length = z) {l : List α} {k i : Nat} {x : α}
    (at_ : l[k]? = some x) (hi : i < z) : (l.flatMap g)[z * k + i]? = (g x)[i]? := by
  rw [← flatMap_block len at_, List.getElem?_take_of_lt hi, List.getElem?_drop]

theorem length_flatMap_block {α β : Type} {g : α → List β} {z : Nat} (len : ∀ x, (g x).length = z) (l : List α) : (l.flatMap g).length = z * l.length := by
  induction l with
  | nil => rfl
  | cons y r ih => rw [List.flatMap_cons, List.length_append, len, ih, List.length_cons]; ring

theorem bytesVal_eq_number (l : List Byte) : bytesVal l = number l := by
  induction l with
  | nil => rfl
  | cons b r ih => rw [bytesVal, ih]; rfl

/-- The bytes that a row of numbers fills. -/
theorem get_setBytes_valBytes (m : Store 8) (a z : Nat) {l : List Nat} {k v : Nat} (at_ : l[k]? = some v) :
    number ((upFrom (a + z * k) z).map (Store.get (Store.setBytes m a (l.flatMap (valBytes z))))) = v % 256 ^ z := by
  have below : k < l.length := (List.getElem?_eq_some_iff.mp at_).1
  have room : z * k + z ≤ (l.flatMap (valBytes z)).length := by
    rw [length_flatMap_block (valBytes_length z)]
    exact Nat.mul_le_mul_left z below
  rw [Store.get_setBytes_run _ _ _ _ _ room, flatMap_block (valBytes_length z) at_, number_valBytes]

/-! ### What the block's one entry leaves -/

theorem Spares.energyBlock (s : State) (d sm entry n : Nat) : Spares c sl s (Machine.energyBlock s d sm entry n) := modBlock s d sm _ fun _ => rfl

/-- From `s` to `t` the core's accumulators have become `A` and the block's local bytes `L`; no byte of memory and no convergence
register has changed, and the block's queue is empty. -/
structure RowStep (c sl : Nat) (s t : State) (A : Store 64) (L : Store 8) : Prop where
  mem : t.mem = s.mem
  acc : (coreOf t c).acc = A
  cvs : (coreOf t c).cvs = (coreOf s c).cvs
  loc : (blockOf t c sl).map (·.mem.loc) = some L
  idle : mqOf t c sl = []

namespace RowStep

theorem andThen (h : RowStep c sl s u A L) (k : Spares c sl u t) : RowStep c sl s t A L :=
  ⟨k.mem.trans h.mem, k.acc.trans h.acc, k.cvs.trans h.cvs, k.loc.trans h.loc, k.idle h.idle⟩

theorem of_acc {A' : Store 64} (h : RowStep c sl s t A' L) (eq : A' = A) : RowStep c sl s t A L := eq ▸ h

theorem accAt_eq (h : RowStep c sl s t A L) (j i k : Nat) : accAt t c j i k = (Store.get A (accKey j i k)).toNat := by rw [accAt, h.acc]

theorem blockByte_eq (h : RowStep c sl s t A L) (x : Nat) : blockByte t c sl x = Store.get L x := by
  have at_ := congrArg (fun o => (o.map fun l => Store.get l x).getD 0) h.loc
  simpa [blockByte, Function.comp_def] using at_

theorem writeLocal (h : RowStep c sl s u A L) (a : Nat) (bs : List Byte) : RowStep c sl s (Machine.writeLocal u c sl a bs) A (Store.setBytes L a bs) := by
  refine RowStep.andThen (u := Machine.modBlock u c sl fun b => b.modMem fun m => m.storeLoc a bs false) ⟨h.mem, ?_, ?_, ?_, ?_⟩
    (Spares.modBlock _ c sl _ fun _ => rfl)
  · exact (modBlock_core (·.acc) (fun _ _ => rfl) u c sl _ c).trans h.acc
  · exact (modBlock_core (·.cvs) (fun _ _ => rfl) u c sl _ c).trans h.cvs
  · obtain ⟨b, hb, loc⟩ := Option.map_eq_some_iff.mp h.loc
    simp [hb, Block.modMem, BlkMem.storeLoc_loc, ← loc]
  · rw [mqOf, modBlock_core (·.mq) (fun _ _ => rfl) u c sl _ c]
    exact h.idle

theorem modAcc (h : RowStep c sl s u A L) (f : Core → Core) (hs : ∀ k, (f k).slots = k.slots) (hc : ∀ k, (f k).cvs = k.cvs)
    (hq : ∀ k, (f k).mq = k.mq) : RowStep c sl s (modCore u c f) (f (coreOf u c)).acc L := by
  refine ⟨h.mem, by simp, by simpa [hc] using h.cvs, by simpa [blockOf, hs] using h.loc, ?_⟩
  rw [mqOf_modCore, hq]
  exact h.idle

end RowStep

theorem blockByte_of_block (hb : blockOf s c sl = some b) (x : Nat) : blockByte s c sl x = Store.get b.mem.loc x := by simp [blockByte, hb]

theorem slot_of_alone (alone : mqOf s c sl = [e]) : e.slot = sl := by
  have mem : e ∈ mqOf s c sl := alone ▸ List.mem_singleton_self e
  exact eq_of_beq (Bool.and_eq_true_iff.mp (List.mem_filter.mp mem).2).1

theorem RowStep.popMq (h : noneHeld s c) (alone : mqOf s c sl = [e]) (hb : blockOf s c sl = some b) :
    RowStep c sl s (Machine.popMq s c sl) (coreOf s c).acc b.mem.loc := by
  obtain ⟨popped, empty, -, -⟩ := popMq_alone h alone
  exact ⟨popped.mem, popped.acc, popped.cvs, by rw [popped.loc, hb]; rfl, empty⟩

/-- The event that executes the block's one entry does what the entry does, and nothing after it (R209, R220). -/
theorem runIf_alone {p : MqOp → Bool} (alone : mqOf s c sl = [e]) (own : p e.op = true) (unsigned : ∀ n, (cvOf s c n).signs = [])
    (head : runHead s c sl = some u) (step : RowStep c sl s u A L) : RowStep c sl s (runIf s c sl p) A L := by
  have quick : settleQuick u c sl = runTrels u c sl := by rw [settleQuick, runQuick, step.idle]
  have after : RowStep c sl s (runTrels u c sl) A L := step.andThen (.runTrels ..)
  have rounds : ∀ slot, endRounds (runTrels u c sl) c slot = runTrels u c sl := fun slot =>
    endRounds_unsigned (fun n => by rw [cvOf, after.cvs]; exact unsigned n) slot
  have all : ∀ l : Table Block, l.foldl (fun s x => endRounds s c x.1) (runTrels u c sl) = runTrels u c sl := fun l => by
    induction l with
    | nil => rfl
    | cons x r ih => rw [List.foldl_cons, rounds, ih]
  simp only [runIf, alone, own, head, quick, if_true, Option.getD_some, all]
  exact after

/-! ### ALD and AST (R226) -/

/-- Whether an entry moves an accumulator row. -/
def MqOp.isRow : MqOp → Bool
  | .ald _ _ _ => true
  | .ast _ _ _ => true
  | _ => false

theorem exec_accRowTransfer (c sl : Nat) (s : State) : exec (.accRowTransfer c sl) s = .next (runIf s c sl MqOp.isRow) := rfl

/-- The accumulators once a row's words are loaded. -/
def loadedRow (A : Store 64) (L : Store 8) (j addr row : Nat) : Store 64 :=
  Store.setAll A ((List.range 32).map fun k => (accKey j row 0 + k, BitVec.ofNat 64 (bytesVal (Store.bytes L (addr + 8 * k) 8))))

/-- The numbers of a row. -/
def rowNumbers (A : Store 64) (j row : Nat) : List Nat := (List.range 32).map fun k => (Store.get A (accKey j row k)).toNat

theorem accRow_eq (j row : Nat) : accRow j row = (List.range 32).map (accKey j row 0 + ·) := upFrom_eq ..

theorem accMarked_clean {ks : List Nat} (clean : (coreOf s c).accPoison = []) : accMarked s c ks = false := by simp [accMarked, clean]

theorem runRow_loads (alone : mqOf s c sl = [e]) (h : noneHeld s c) (hb : blockOf s c sl = some b) (j addr row : Nat) :
    RowStep c sl s (runRow s c e j addr row false) (loadedRow (coreOf s c).acc b.mem.loc j addr row) b.mem.loc := by
  obtain rfl := slot_of_alone alone
  have popped := RowStep.popMq h alone hb
  obtain ⟨b', hb', loc⟩ := Option.map_eq_some_iff.mp popped.loc
  simp only [runRow, Bool.false_eq_true, if_false, hb']
  have charged := popped.andThen (Spares.energyBlock (popMq s c e.slot) c e.slot 12 64)
  refine RowStep.of_acc (RowStep.modAcc charged _ (fun _ => rfl) (fun _ => rfl) fun _ => rfl) ?_
  dsimp only
  rw [charged.acc, loadedRow, accRow_eq, List.zip_map', List.map_map, ← loc]
  exact congrArg (Store.setAll _) (List.map_congr_left fun _ _ => rfl)

theorem runRow_stores (alone : mqOf s c sl = [e]) (h : noneHeld s c) (hb : blockOf s c sl = some b) (clean : (coreOf s c).accPoison = []) (j addr row : Nat) :
    RowStep c sl s (runRow s c e j addr row true) (coreOf s c).acc (Store.setBytes b.mem.loc addr ((rowNumbers (coreOf s c).acc j row).flatMap (valBytes 8))) := by
  obtain rfl := slot_of_alone alone
  obtain ⟨-, -, -, poison⟩ := popMq_alone h alone
  have popped := RowStep.popMq h alone hb
  have bytes : (rowNumbers (coreOf s c).acc j row).flatMap (valBytes 8) = (accRow j row).flatMap fun k => valBytes 8 (Store.get (coreOf s c).acc k).toNat := by
    rw [rowNumbers, accRow_eq, List.flatMap_map, List.flatMap_map]
    simp only [accKey, Nat.add_zero]
  simp only [runRow, if_true, accMarked_clean (poison.trans clean), Bool.false_eq_true, if_false, popped.acc, bytes]
  exact popped.writeLocal ..

/-- The accumulator words after a row is loaded. -/
theorem loadedRow_get (A : Store 64) (L : Store 8) {j' i k : Nat} (hrow : row < 32) (hi : i < 32) (hk : k < 32) :
    Store.get (loadedRow A L j addr row) (accKey j' i k) = if j' = j ∧ i = row then BitVec.ofNat 64 (bytesVal (Store.bytes L (addr + 8 * k) 8))
      else Store.get A (accKey j' i k) := by
  rw [loadedRow, Store.get_setAll_range]
  by_cases own : j' = j ∧ i = row
  · obtain ⟨rfl, rfl⟩ := own
    rw [if_pos (by simp only [accKey]; omega), if_pos ⟨rfl, rfl⟩, show accKey j' i k - accKey j' i 0 = k by simp only [accKey]; omega]
  · rw [if_neg (by simp only [accKey]; omega), if_neg own]

theorem bytesVal_lt (l : List Byte) : bytesVal l < 256 ^ l.length := by
  induction l with
  | nil => simp [bytesVal]
  | cons b r ih =>
    have := b.isLt
    rw [bytesVal, List.length_cons, Nat.pow_succ]
    omega

/-- ACC_ROW_TRANSFER of an ALD (R226). -/
theorem ald_loads (alone : mqOf s c sl = [e]) (unsigned : ∀ n, (cvOf s c n).signs = []) (h : noneHeld s c) (hb : blockOf s c sl = some b)
    (hrow : row < 32) (op : e.op = .ald j addr row) :
    ∃ t, exec (.accRowTransfer c sl) s = .next t ∧ t.mem = s.mem ∧ (∀ x, blockByte t c sl x = blockByte s c sl x) ∧
      ∀ j' < 8, ∀ i < 32, ∀ k < 32, accAt t c j' i k = if j' = j ∧ i = row then number ((upFrom (addr + 8 * k) 8).map (blockByte s c sl))
        else accAt s c j' i k := by
  have head : runHead s c sl = some (runRow s c e j addr row false) := by simp only [runHead, alone, op]
  have step := runIf_alone (p := MqOp.isRow) alone (by rw [op]; rfl) unsigned head (runRow_loads alone h hb j addr row)
  refine ⟨_, exec_accRowTransfer c sl s, step.mem, fun x => by rw [step.blockByte_eq, blockByte_of_block hb], fun j' _ i hi k hk => ?_⟩
  rw [step.accAt_eq, loadedRow_get _ _ hrow hi hk, funext (blockByte_of_block hb), ← bytesVal_eq_number, ← Store.bytes_eq]
  split
  · exact Nat.mod_eq_of_lt ((bytesVal_lt _).trans_eq (by simp [Store.bytes_eq]))
  · rfl

/-- ACC_ROW_TRANSFER of an AST (R226). -/
theorem ast_stores (alone : mqOf s c sl = [e]) (unsigned : ∀ n, (cvOf s c n).signs = []) (h : noneHeld s c) (hb : blockOf s c sl = some b)
    (clean : (coreOf s c).accPoison = []) (op : e.op = .ast j addr row) :
    ∃ t, exec (.accRowTransfer c sl) s = .next t ∧ t.mem = s.mem ∧ (∀ j' < 8, ∀ i < 32, ∀ k < 32, accAt t c j' i k = accAt s c j' i k) ∧
      ∀ x, blockByte t c sl x = if addr ≤ x ∧ x < addr + 256 then Claims.byteOf (accAt s c j row ((x - addr) / 8)) ((x - addr) % 8)
        else blockByte s c sl x := by
  have head : runHead s c sl = some (runRow s c e j addr row true) := by simp only [runHead, alone, op]
  have step := runIf_alone (p := MqOp.isRow) alone (by rw [op]; rfl) unsigned head (runRow_stores alone h hb clean j addr row)
  refine ⟨_, exec_accRowTransfer c sl s, step.mem, fun j' _ i _ k _ => by rw [step.accAt_eq]; rfl, fun x => ?_⟩
  have len : ((rowNumbers (coreOf s c).acc j row).flatMap (valBytes 8)).length = 256 := by
    rw [length_flatMap_block (valBytes_length 8)]
    simp [rowNumbers]
  rw [step.blockByte_eq, blockByte_of_block hb, Store.get_setBytes]
  simp only [len]
  split
  next inside =>
    have numbered : (rowNumbers (coreOf s c).acc j row)[(x - addr) / 8]? = some (accAt s c j row ((x - addr) / 8)) := by
      rw [rowNumbers, List.getElem?_map, List.getElem?_range (by omega)]
      rfl
    have byte := getElem?_flatMap_block (valBytes_length 8) numbered (Nat.mod_lt (x - addr) (by decide : 0 < 8))
    rw [Nat.div_add_mod, valBytes_eq_byteOf, List.getElem?_map, List.getElem?_range (Nat.mod_lt _ (by decide))] at byte
    exact (List.getElem?_eq_some_iff.mp byte).2
  next => rfl

/-! ### A drain's outputs (R179, R230) -/

/-- Whether an entry drains a row. -/
def MqOp.isDrn : MqOp → Bool
  | .drn _ _ _ => true
  | _ => false

theorem exec_drnRowExecute (c sl : Nat) (s : State) : exec (.drnRowExecute c sl) s = .next (runIf s c sl MqOp.isDrn) := rfl

/-- The bytes of an output. -/
def drnWidth (ofmt : Nat) : Nat := if ofmt = 0 ∨ ofmt = 3 then 4 else 2

/-- The agreement register of a drain. -/
def drnPair (p1 : Nat) : Nat := if bits p1 31 29 = 0 then bits p1 28 26 / 2 else bits p1 28 26

/-- The numbers that a drain row stores. -/
def drnNumbers (s : State) (c p1 row : Nat) : List Nat :=
  (drnRow (coreOf s c).acc (bits p1 31 29) (bits p1 28 26) (bits p1 25 22) (bits p1 21 18) (bits p1 17 15) row (agAt s c (drnPair p1))).map (·.1)

theorem runDrn_stores (alone : mqOf s c sl = [e]) (h : noneHeld s c) (hb : blockOf s c sl = some b) (clean : (coreOf s c).accPoison = []) (p1 addr row : Nat) :
    RowStep c sl s (runDrn s c e p1 addr row) (coreOf s c).acc
      (Store.setBytes b.mem.loc addr ((drnNumbers s c p1 row).flatMap (valBytes (drnWidth (bits p1 21 18))))) := by
  obtain rfl := slot_of_alone alone
  obtain ⟨-, -, ag, poison⟩ := popMq_alone h alone
  have popped := RowStep.popMq h alone hb
  have width : (if bits p1 21 18 == 0 || bits p1 21 18 == 3 then 4 else 2) = drnWidth (bits p1 21 18) := by simp [drnWidth]
  have pair : (if bits p1 31 29 == 0 then bits p1 28 26 / 2 else bits p1 28 26) = drnPair p1 := by simp [drnPair]
  simp only [runDrn, accMarked_clean (poison.trans clean), ite_self, Bool.false_eq_true, if_false, popped.acc, ag, width, pair, drnNumbers, agAt,
    List.flatMap_map]
  refine RowStep.andThen (RowStep.andThen (popped.writeLocal ..) (Spares.modCore _ _ _ ?_ ?_ ?_ ?_)) (Spares.orFstat ..)
  all_goals exact fun _ => rfl

/-- A rounded number is a code of the format. -/
theorem Fmt.Ieee.round_lt {f : Fmt} (h : f.Ieee) {m : Nat} (hm : 0 < m) (neg : Bool) (k : Int) : (f.round 0 neg m k).1 < 2 ^ f.w := by
  obtain ⟨i, -, eq⟩ := h.round_eq hm 0 neg k
  rw [eq]
  exact h.code_lt ((f.clamp_le_top ..).trans_lt h.top_lt)

theorem drnWidth_fmtOf {ofmt : Nat} (float : ofmt ≤ 2) : 256 ^ drnWidth ofmt = 2 ^ (fmtOf ofmt).w := by
  interval_cases ofmt <;> rfl

/-- An element that is not NAR is drained as its signed value, or as it is. -/
theorem drnValue_residue {v : Nat} (real_ : isNar (accVal v) = false) (sign : Bool) :
    drnValue 5 v sign = if sign && 2 * residueCrt (accVal v) ≥ residueM then .fin true (residueM - residueCrt (accVal v)) 0
      else .fin false (residueCrt (accVal v)) 0 := by
  simp [drnValue, real_]

theorem residueCrt_lt {t : Nat} (real_ : isNar t = false) : residueCrt t < residueM := by
  have first : bits t 15 0 < 65536 := Nat.mod_lt _ (by decide)
  simp only [isNar, Bool.or_eq_false_iff, beq_eq_false_iff_ne, decide_eq_false_iff_not] at real_
  exact (residueCrt_residues (by omega) (by omega)).2

/-- The output of mode VAL of a finite value for a float format. -/
theorem drnOutput_val {ofmt : Nat} (float : ofmt ≤ 2) (k : Int) (thr : Nat) (neg : Bool) (m : Nat) :
    (drnOutput 0 ofmt k thr [.fin neg m 0]).1 = if m = 0 then 0 else ((fmtOf ofmt).round 0 neg m k).1 := by
  have inexact : ofmt ≠ 3 := by omega
  by_cases zero : m = 0 <;> simp [drnOutput, drnRound, isNan, inexact, zero]

/-- The output of mode VAL of an INT32 element. -/
theorem drnOutput_int32 (k : Int) (thr v : Nat) : (drnOutput 0 3 k thr [drnValue 3 v true]).1 = v % 2 ^ 32 := by
  have signed_ : (if signed 32 v < 0 then -|signed 32 v| else |signed 32 v|) = signed 32 v := by
    split
    · rw [abs_of_neg ‹_›, neg_neg]
    · exact abs_of_nonneg (by omega)
  have drained : (drnOutput 0 3 k thr [drnValue 3 v true]).1 = wrapNat 32 (signed 32 v) := by
    simp [drnOutput, drnRound, drnValue, isNan, signed_]
  rw [drained, wrapNat, signed_ofNat]
  have := BitVec.toInt_eq_toNat_cond (BitVec.ofNat 32 v)
  simp only [BitVec.toNat_ofNat] at this
  split at this <;> omega

/-- The output of mode AGREE where the halves agree too little. -/
theorem drnOutput_agree {ofmt p n thr : Nat} (k : Int) (little : |(p : Int) - n| * 65536 < thr * ((p : Int) + n)) :
    (drnOutput 5 ofmt k thr [.fin false p 0, .fin false n 0]).1 = 0 := by
  have nonneg : ¬(p : Int) < 0 ∧ ¬(n : Int) < 0 := by omega
  have sum : sumFin false p 0 false n 0 = ((p : Int) + n, 0) := by simp [sumFin]
  have dif : sumFin false p 0 true n 0 = ((p : Int) - n, 0) := by simp [sumFin, sub_eq_add_neg]
  by_cases zero : (p : Int) + n = 0
  · simp [drnOutput, isNan, finParts, nonneg, sum, zero]
  · simp [drnOutput, isNan, finParts, nonneg, sum, dif, zero, little]

/-! ### DRN_ROW_EXECUTE (R230) -/

/-- The power of two that a drain of residues multiplies by. -/
def drnScale (s : State) (c p1 : Nat) : Int := if bits p1 25 22 = 5 then (agRef (agAt s c (drnPair p1)) : Int) - 254 - bits p1 17 15 else 0

section
variable {p1 k : Nat} (hk : k < 32)
include hk

/-- Mode VAL reads one element. -/
theorem drnNumbers_val (val : bits p1 31 29 = 0) : (drnNumbers s c p1 row)[k]? = some (drnOutput 0 (bits p1 21 18) (drnScale s c p1)
    (agThr (agAt s c (drnPair p1))) [drnValue (bits p1 25 22) (accAt s c (bits p1 28 26) row k) true]).1 := by
  rw [drnNumbers, drnRow, List.map_map, List.getElem?_map, List.getElem?_range hk]
  simp [val, drnScale, accAt]

/-- Mode AGREE reads both halves. -/
theorem drnNumbers_agree (agree : bits p1 31 29 = 5) : (drnNumbers s c p1 row)[k]? = some (drnOutput 5 (bits p1 21 18) (drnScale s c p1)
    (agThr (agAt s c (drnPair p1))) [drnValue (bits p1 25 22) (accAt s c (2 * bits p1 28 26) row k) false,
      drnValue (bits p1 25 22) (accAt s c (2 * bits p1 28 26 + 1) row k) false]).1 := by
  rw [drnNumbers, drnRow, List.map_map, List.getElem?_map, List.getElem?_range hk]
  simp [agree, drnScale, accAt]
end

/-- DRN_ROW_EXECUTE stores the row's outputs and changes nothing else. -/
theorem drn_stores {p1 : W32} (alone : mqOf s c sl = [e]) (unsigned : ∀ n, (cvOf s c n).signs = []) (op : e.op = .drn p1 addr row) (h : noneHeld s c)
    (hb : blockOf s c sl = some b) (clean : (coreOf s c).accPoison = []) :
    ∃ t, exec (.drnRowExecute c sl) s = .next t ∧ RowStep c sl s t (coreOf s c).acc
      (Store.setBytes b.mem.loc addr ((drnNumbers s c p1.toNat row).flatMap (valBytes (drnWidth (bits p1.toNat 21 18))))) := by
  have head : runHead s c sl = some (runDrn s c e p1.toNat addr row) := by simp only [runHead, alone, op]
  exact ⟨_, exec_drnRowExecute c sl s, runIf_alone alone (by rw [op]; rfl) unsigned head (runDrn_stores alone h hb clean ..)⟩

/-- What a legal drain says of its formats. -/
theorem drnOk_formats {p1 : Nat} (ok : drnOk p1 = true) : (bits p1 21 18 = 3 → bits p1 25 22 = 3) ∧ (bits p1 25 22 = 5 → bits p1 21 18 ≤ 2) := by
  simp only [drnOk, Bool.and_eq_true, Bool.or_eq_true, beq_iff_eq, decide_eq_true_eq] at ok
  omega

end Sys2Proof.Machine

open Sys2Proof Sys2Proof.Machine Sys2Proof.Claims in
/-- Settles O36: the event leaves what the block's one entry leaves (`ald_loads`, `ast_stores`, `drn_stores`), and a drain's output for each mode
and format is read off (`drnOutput_int32`, `drnOutput_val`, `drnOutput_agree`). -/
theorem rowsMove : Obligations.RowsMove := by
  refine ⟨fun s c sl j addr row e b alone unsigned held hb _ hrow clean => ⟨ald_loads alone unsigned held hb hrow, ast_stores alone unsigned held hb clean⟩, ?_⟩
  intro s c sl addr row p1 e b mode slot afmt ofmt z f alone unsigned op held hb _ ok clean
  obtain ⟨int32, float⟩ := drnOk_formats ok
  obtain ⟨t, run, step⟩ := drn_stores alone unsigned op held hb clean
  have stored : ∀ k v, (drnNumbers s c p1.toNat row)[k]? = some v →
      number ((upFrom (addr + z * k) z).map (blockByte t c sl)) = v % 256 ^ z := fun k v at_ => by
    rw [funext step.blockByte_eq]
    exact get_setBytes_valBytes _ _ z at_
  have length : ((drnNumbers s c p1.toNat row).flatMap (valBytes (drnWidth ofmt))).length = 32 * z := by
    rw [length_flatMap_block (valBytes_length _), drnNumbers, drnRow, List.length_map, List.length_map, List.length_range, Nat.mul_comm]
    rfl
  refine ⟨t, run, step.mem, fun j _ i _ k _ => by rw [step.accAt_eq]; rfl, fun x outside => ?_, ?_, ?_, ?_⟩
  · rw [step.blockByte_eq, blockByte_of_block hb, Store.get_setBytes, dif_neg]
    rw [length]
    omega
  · intro val drained k hk
    refine (stored k _ (drnNumbers_val hk val)).trans ?_
    rw [show bits p1.toNat 21 18 = 3 from drained, int32 drained, drnOutput_int32, show z = 4 from if_pos (.inr drained)]
    exact Nat.mod_eq_of_lt (Nat.mod_lt _ (by decide))
  · intro val rq8 k hk real_ v scale
    have lt : v < residueM := residueCrt_lt real_
    have factor : drnScale s c p1.toNat = scale := by rw [drnScale, if_pos rq8, drnPair, if_pos val]
    have width : 256 ^ z = 2 ^ f.w := drnWidth_fmtOf (float rq8)
    have out := stored k _ (drnNumbers_val hk val)
    rw [show bits p1.toNat 25 22 = 5 from rq8, factor, drnValue_residue real_, width] at out
    have kept : ∀ neg m, (drnOutput 0 ofmt scale (agThr (agAt s c (drnPair p1.toNat))) [.fin neg m 0]).1 % 2 ^ f.w =
        if m = 0 then 0 else (f.round 0 neg m scale).1 := fun neg m => by
      rw [drnOutput_val (float rq8)]
      split
      · exact Nat.zero_mod _
      · exact Nat.mod_eq_of_lt ((fmtOf_ieee ofmt).round_lt (by omega) neg scale)
    refine ⟨fun zero => ?_, fun pos small => ?_, fun large => ?_⟩
    · rw [if_neg (by simp [show residueCrt _ = 0 from zero, residueM])] at out
      exact out.trans ((kept false v).trans (if_pos zero))
    · rw [if_neg (by simpa [residueM] using small)] at out
      exact out.trans ((kept false v).trans (if_neg (by omega)))
    · rw [if_pos (by simpa [residueM] using large)] at out
      exact out.trans ((kept true (residueM - v)).trans (if_neg (by omega)))
  · intro agree rq8 k hk realP realN p n little
    refine (stored k _ (drnNumbers_agree hk agree)).trans ?_
    rw [show bits p1.toNat 25 22 = 5 from rq8, drnValue_residue realP, drnValue_residue realN, drnPair, if_neg (by omega)]
    simp only [Bool.false_and, Bool.false_eq_true, if_false]
    rw [drnOutput_agree _ little, Nat.zero_mod]
end

/-! ## The course of a matrix instruction (R51, R63, R210)

A matrix instruction counts its issue, completes streams and changes what its core holds beside its blocks: the queues, the
accumulators, the tiles. None of it reaches a register, a byte of memory or another place. -/
section
namespace Sys2Proof.Machine

variable {s t u : State} {cx : Cx} {d : Dec} {b : Block} {c sl : Nat} {rs : List (Nat × List Nat)}

/-- Blocks, supervisor contexts, system cores and memory stay. -/
structure SameSeats (s t : State) : Prop where
  blocks : ∀ c sl, blockOf t c sl = blockOf s c sl
  sups : ∀ c, (coreOf t c).sup = (coreOf s c).sup
  syss : ∀ n, sysOf t n = sysOf s n
  mem : t.mem = s.mem

namespace SameSeats

theorem refl (s : State) : SameSeats s s := ⟨fun _ _ => rfl, fun _ => rfl, fun _ => rfl, rfl⟩
theorem trans (h : SameSeats s t) (k : SameSeats t u) : SameSeats s u :=
  ⟨fun c sl => (k.blocks c sl).trans (h.blocks c sl), fun c => (k.sups c).trans (h.sups c), fun n => (k.syss n).trans (h.syss n), k.mem.trans h.mem⟩

theorem modCore (s : State) (c : Nat) (f : Core → Core) (hs : ∀ k, (f k).slots = k.slots) (hp : ∀ k, (f k).sup = k.sup) :
    SameSeats s (Machine.modCore s c f) := by
  have own : ∀ d, (coreOf (Machine.modCore s c f) d).slots = (coreOf s d).slots ∧ (coreOf (Machine.modCore s c f) d).sup = (coreOf s d).sup := fun d => by
    by_cases same : c = d
    · subst same
      simp [hs, hp]
    · simp [coreOf_modCore_ne s f same]
  exact ⟨fun d sm => by rw [blockOf, blockOf, (own d).1], fun d => (own d).2, fun _ => rfl, rfl⟩

theorem ctlOf_eq (h : SameSeats s t) (id : CtxId) : ctlOf t id = ctlOf s id := by
  cases id with
  | blk c sl => simp only [ctlOf, h.blocks]
  | sup c => simp only [ctlOf, h.sups]
  | sys n => simp only [ctlOf, h.syss]

theorem blk_eq (h : SameSeats s t) (cx : Cx) : cx.blk t = cx.blk s := by
  unfold Cx.blk
  split
  · exact h.blocks ..
  · rfl

end SameSeats

/-- From `s` to `t` the stream's place keeps its registers and its shape; memory and all other places stay. -/
structure Cx.Course (cx : Cx) (s t : State) : Prop where
  aside : cx.Aside s t
  only : cx.Only s t
  shape : ∀ b, cx.blk s = some b → ∃ b', cx.blk t = some b' ∧ b'.exec.model = b.exec.model ∧ b'.exec.threads.length = b.exec.threads.length

namespace Cx.Course

theorem refl (cx : Cx) (s : State) : cx.Course s s := ⟨.refl cx s, .refl cx s, fun b hb => ⟨b, hb, rfl, rfl⟩⟩

theorem trans (h : cx.Course s t) (k : cx.Course t u) : cx.Course s u := by
  refine ⟨h.aside.trans k.aside, h.only.trans k.only, fun b hb => ?_⟩
  obtain ⟨b1, hb1, model1, count1⟩ := h.shape b hb
  obtain ⟨b2, hb2, model2, count2⟩ := k.shape b1 hb1
  exact ⟨b2, hb2, model2.trans model1, count2.trans count1⟩

theorem of_seats (cx : Cx) (h : SameSeats s t) : cx.Course s t := by
  have own := h.blk_eq cx
  have control : cx.ctl t = cx.ctl s := by rw [Cx.ctl, Cx.ctl, h.ctlOf_eq]
  refine ⟨⟨⟨?_, ?_, fun _ => by rw [control], fun _ => by rw [control]⟩, h.mem, fun d sm _ => h.blocks d sm, fun p => ?_⟩,
    ⟨fun d sm _ => h.blocks d sm, fun d _ => h.sups d, fun n _ => by rw [h.syss]⟩, fun b hb => ⟨b, by rw [own, hb], rfl, rfl⟩⟩
  · rw [Cx.mem, Cx.mem, own]
  · rw [Cx.regs, Cx.regs, own]
  · exact ⟨fun k => by simp only [h.blocks]; exact p.block k, p.sup, p.sys⟩

theorem of_sameSys (regs : cx.RegsSame s t) (keeps : cx.Keeps s t) (h : ∀ b, cx.blk s = some b → ∃ b', cx.blk t = some b' ∧ b.SameSys b') : cx.Course s t :=
  ⟨.of_keeps ⟨regs, keeps⟩, keeps.only, fun b hb => by
    obtain ⟨b', hb', same⟩ := h b hb
    exact ⟨b', hb', same.model, same.count⟩⟩

/-- A change of the stream's own block that is about neither its registers nor its streams. -/
theorem modBlock (hid : cx.id = .blk c sl) (s : State) (f : Block → Block) (hm : ∀ b, (f b).mem = b.mem) (hr : ∀ b, (f b).regs = b.regs)
    (hc : ∀ b, (f b).exec.ctl = b.exec.ctl) (hk : ∀ b, (f b).exec.model = b.exec.model) (ht : ∀ b, (f b).exec.threads = b.exec.threads) :
    cx.Course s (Machine.modBlock s c sl f) := by
  refine ⟨.modBlock hid s f hm hr hc, .modBlock hid s f, fun b hb => ⟨f b, ?_, hk b, by rw [ht]⟩⟩
  simp only [Cx.blk, hid] at hb ⊢
  simp [hb]

theorem finish (goes : (fallNext cx.line cx.pc d.len).2 = false) (s : State) (who : List Nat) (e : Nat → Latch) :
    cx.Course s (cx.finish s d who e) :=
  have keeps := cx.finish_keeps s d who e goes
  of_sameSys keeps.1 keeps.2 fun _ hb => Cx.finish_sameSys hb who e goes

theorem sameRegs (h : cx.Course s t) : cx.SameRegs s t := h.aside.regs.same
theorem mem_eq (h : cx.Course s t) : t.mem = s.mem := h.aside.mem

end Cx.Course

/-! ### The place of a stream in a block -/

/-- A matrix instruction enters in a block. -/
theorem Enters.tvs_block (h : Enters s cx d rs) (valid : d.valid cx.kind = none → cx.kind = .T ∨ cx.kind = .V ∨ cx.kind = .S) :
    ∃ c sl b, cx.id = .blk c sl ∧ cx.blk s = some b ∧ cx.core = c ∧ cx.place = (c, sl) := by
  obtain ⟨c, sl, b, hid, hb⟩ := (cxOf_placed h.here).block (valid (Cx.decodeTrap_none h.legal).1)
  exact ⟨c, sl, b, hid, by simpa [Cx.blk, hid] using hb, by simp [Cx.core, hid, coreOfCtx], by simp [Cx.place, hid]⟩

theorem tvs_none {k : Kind} (h : tvs k = none) : k = .T ∨ k = .V ∨ k = .S := by cases k <;> simp_all [tvs, validIn]

/-! ### The issue -/

/-- What is settled when the effect of an instruction begins. -/
structure Cx.Begun (cx : Cx) (s t : State) : Prop where
  issued : cx.Issued s t
  course : cx.Course s t
  pending : t.pending = s.pending
  waiting : cx.isT = false → cx.placedHere t = cx.placedHere s

/-- An instruction that enters with a lane that acts goes to its effect. -/
theorem Cx.start_begun (h : Enters s cx d rs) (acting : rs ≠ []) (hb : cx.blk s = some b) :
    ∃ s', (∀ k, cx.start s d k = k s' rs) ∧ cx.Begun s s' := by
  obtain ⟨s', run, same⟩ := Cx.start_sameSys h acting
  obtain ⟨s'', alike, issued⟩ := Cx.start_issued h hb fun s _ => s
  obtain rfl : s' = s'' := by
    rw [run] at alike
    exact alike.elim (fun same => same) (·.2)
  refine ⟨s', run, issued, .of_sameSys same.regs same.keeps same.block, same.pending, fun control => ?_⟩
  have counted := Cx.start_stands_ctl h.stands (by simpa [Cx.isT] using control) acting fun s _ => s
  obtain ⟨b', hb', exec⟩ := cx.counted_exec s d rs.length hb
  rw [run] at counted
  rw [counted, Cx.placedHere, Cx.placedHere, hb, hb']
  simp [exec]

/-- A core, its blocks and its supervisor apart, through issue and completion. -/
theorem Cx.Keeps.core {α : Type} (h : cx.Keeps s t) (c : Nat) (f : Core → α) (hf : ∀ k slots sup, f { k with slots, sup } = f k) :
    f (coreOf t c) = f (coreOf s c) := by
  have e := congrArg f (h.cores c)
  rwa [hf] at e

namespace Cx.Issued

theorem maskOk_eq (h : cx.Issued s t) (mask : Region → Nat) (slots : List Nat) : cx.maskOk t mask slots = cx.maskOk s mask slots := by
  simp only [Cx.maskOk, h.sealed, h.region_eq]

theorem pairOk_eq (h : cx.Issued s t) (k : Nat) : cx.pairOk t k = cx.pairOk s k := by
  simp only [Cx.pairOk, h.sealed, h.region_eq]

end Cx.Issued

end Sys2Proof.Machine
end

/-! ## Entries placed in the matrix queue (R209) -/
section
namespace Sys2Proof.Machine

open Sys2Proof.Claims (noneHeld)

variable {s t u : State} {cx : Cx} {d : Dec} {b : Block} {c sl l : Nat} {e : Mq} {es : List Mq} {ls who : List Nat} {I : List Mq → Core → Prop}

/-! ### Where streams stand in their block -/

/-- The stream's block is of its kind and has the threads `ls`. -/
structure Cx.Hosts (cx : Cx) (s : State) (ls : List Nat) : Prop where
  placed : cx.Placed s
  block : ∃ b, cx.blk s = some b ∧ (b.exec.model == .threaded) = cx.isT ∧ (cx.isT = true → ∀ l ∈ ls, l < b.exec.threads.length)

theorem Cx.Course.hosts (h : cx.Course s t) (k : cx.Hosts s ls) : cx.Hosts t ls := by
  obtain ⟨b, hb, model, there⟩ := k.block
  obtain ⟨b', hb', same, count⟩ := h.shape b hb
  exact ⟨h.aside.placed k.placed, b', hb', by rw [same, model], by rwa [count]⟩

theorem Enters.hosts {rs : List (Nat × List Nat)} (h : Enters s cx d rs) (hb : cx.blk s = some b) : cx.Hosts s (rs.map (·.1)) :=
  ⟨cxOf_placed h.here, b, hb, cxOf_model h.here hb, fun hT => List.forall_mem_map.mpr fun _ hr => h.thread_lt hT hb hr⟩

theorem SameSeats.pcOf_eq (h : SameSeats s t) (cx : Cx) (l : Nat) : cx.pcOf t l = cx.pcOf s l := by
  unfold Cx.pcOf
  split
  · rw [h.blocks]
  · rw [h.ctlOf_eq]

section
variable (goes : (fallNext cx.line cx.pc d.len).2 = false)
include goes

/-- Streams that complete stand at the next instruction. -/
theorem Cx.Hosts.finish_pcOf (h : cx.Hosts s ls) (hl : cx.isT = true → l ∈ ls) (own : l ∈ who) (entry : Nat → Latch) :
    cx.pcOf (cx.finish s d who entry) l = cx.next d := by
  obtain ⟨b, hb, model, there⟩ := h.block
  have only : ∀ b', cx.blk s = some b' → b' = b := fun b' hb' => Option.some.inj (hb'.symm.trans hb)
  exact Cx.finish_pcOf goes h.placed (fun b' hb' => by rw [only b' hb', model]) (fun hT b' hb' => by rw [only b' hb']; exact there hT l (hl hT)) own

/-- A thread that does not complete stays where it stands. -/
theorem Cx.finish_pcOf_other (hT : cx.isT = true) (hid : cx.id = .blk c sl) (hb : cx.blk s = some b) (threaded : (b.exec.model == .threaded) = true)
    (other : l ∉ who) (entry : Nat → Latch) : cx.pcOf (cx.finish s d who entry) l = cx.pcOf s l := by
  obtain ⟨b', hb', onward⟩ := Cx.finish_onward (who := who) (e := entry) (by simpa [Cx.isT] using hT) hid goes hb
  simp only [Cx.blk, hid] at hb hb'
  simp only [Cx.pcOf, hid, hb, hb', Option.map_some, Option.getD_some, Block.pcOf, onward.model, threaded, if_true, onward.pc l other]

/-- Once a thread stands at the next instruction it does so after another's completion. -/
theorem Cx.Hosts.finish_pcOf_cons (hT : cx.isT = true) (h : cx.Hosts s ls) {x : Nat} (hx : x ∈ ls) {done : List Nat}
    (stand : ∀ l ∈ done, cx.pcOf s l = cx.next d) (entry : Nat → Latch) : ∀ l ∈ done ++ [x], cx.pcOf (cx.finish s d [x] entry) l = cx.next d := by
  intro l hl
  by_cases own : l = x
  · exact h.finish_pcOf goes (fun _ => own ▸ hx) (own ▸ List.mem_singleton_self x) entry
  · obtain ⟨b, hb, model, -⟩ := h.block
    obtain ⟨c, sl, hid, -⟩ := Cx.blk_place hb
    rw [Cx.finish_pcOf_other goes hT hid hb (model.trans hT) (by simpa using own)]
    exact stand l (by simpa [own] using hl)
end

/-! ### The queue's own steps -/

/-- An entry that only an event of its own executes. -/
def MqOp.waits : MqOp → Bool
  | .mma _ _ _ => true
  | .drn _ _ _ => true
  | .ald _ _ _ => true
  | .ast _ _ _ => true
  | _ => false

/-- An entry that is executed as soon as it is its block's first. -/
def MqOp.quick : MqOp → Bool
  | .azero _ => true
  | .agset _ _ _ => true
  | .agget _ _ _ => true
  | _ => false

theorem runTrels_go_none {l : List Mq} (h : ∀ x ∈ l, x.op.isTrel = false) (sl : Nat) (before : List Mq) : runTrels.go sl before l = ([], l) := by
  induction l generalizing before with
  | nil => rfl
  | cons x r ih =>
    have own := h x (by simp)
    simp only [runTrels.go, ih fun y hy => h y (by simp [hy])]
    cases op : x.op <;> simp_all [MqOp.isTrel]

/-- With no TREL in the queue none is released. -/
theorem runTrels_none (h : ∀ x ∈ (coreOf s c).mq, x.op.isTrel = false) (sl : Nat) : runTrels s c sl = s := by
  simp [runTrels, runTrels_go_none h]

theorem MqOp.waits_isTrel {op : MqOp} (h : op.waits = true) : op.isTrel = false := by cases op <;> simp_all [MqOp.waits, MqOp.isTrel]
theorem MqOp.quick_isTrel {op : MqOp} (h : op.quick = true) : op.isTrel = false := by cases op <;> simp_all [MqOp.quick, MqOp.isTrel]

theorem runQuick_waits (h : ∀ x ∈ (coreOf s c).mq, x.op.waits = true) (sl n : Nat) : runQuick s c sl n = s := by
  cases n with
  | zero => rfl
  | succ n =>
    rw [runQuick]
    cases queue : mqOf s c sl with
    | nil => rfl
    | cons x r =>
      have mem : x ∈ mqOf s c sl := queue ▸ List.mem_cons_self
      have waits := h x (List.mem_filter.mp mem).1
      cases op : x.op <;> simp_all [MqOp.waits]

/-- Of a queue whose entries all wait for their events nothing runs by itself. -/
theorem settleQuick_waits (h : ∀ x ∈ (coreOf s c).mq, x.op.waits = true) (sl : Nat) : settleQuick s c sl = s := by
  rw [settleQuick, runQuick_waits h, runTrels_none fun x hx => MqOp.waits_isTrel (h x hx)]

/-- An entry joins a queue. -/
def appendMq (s : State) (c : Nat) (e : Mq) : State := modCore s c fun k => { k with mq := k.mq ++ [e] }

theorem appendMq_seats (s : State) (c : Nat) (e : Mq) : SameSeats s (appendMq s c e) := .modCore s c _ (fun _ => rfl) fun _ => rfl

/-- An entry that waits for its event is placed behind such entries. -/
theorem placeEntry_waits (h : ∀ x ∈ (coreOf s c).mq, x.op.waits = true) (own : e.op.waits = true) : placeEntry s c e = appendMq s c e := by
  refine settleQuick_waits (fun x hx => ?_) e.slot
  rw [coreOf_modCore_self] at hx
  obtain hx | hx := List.mem_append.mp hx
  · exact h x hx
  · rwa [List.mem_singleton.mp hx]

/-- A quick entry runs at once in an empty queue. -/
theorem placeEntry_quick (idle : (coreOf s c).mq = []) (own : e.op.quick = true) (run : runHead (appendMq s c e) c e.slot = some u)
    (after : (coreOf u c).mq = []) : placeEntry s c e = u := by
  have alone : mqOf (appendMq s c e) c e.slot = [e] := by simp [appendMq, mqOf, idle, MqOp.quick_isTrel own]
  have empty : mqOf u c e.slot = [] := by simp [mqOf, after]
  have quick : runQuick (appendMq s c e) c e.slot 17 = u := by
    rw [runQuick]
    simp only [alone, run, Option.getD_some]
    cases op : e.op <;> simp_all [MqOp.quick, runQuick]
  show settleQuick (appendMq s c e) c e.slot = u
  rw [settleQuick, quick, runTrels_none (by simp [after])]

/-- The only entry leaves the queue. -/
theorem popMq_only (held : noneHeld s c) (only : (coreOf s c).mq = [e]) (counts : e.op.isTrel = false) :
    SameSeats s (popMq s c e.slot) ∧ noneHeld (popMq s c e.slot) c ∧
      ({ coreOf (popMq s c e.slot) c with tfq := (coreOf s c).tfq } : Core) = { coreOf s c with mq := [] } ∧
      (popMq s c e.slot).pending = s.pending ∧ (popMq s c e.slot).nextId = s.nextId := by
  have none_ : noneHeld (modCore s c fun k =>
      { k with mq := popMq.drop1 e.slot k.mq, tfq := k.tfq.map fun t => if t.slot == e.slot then { t with mqBefore := t.mqBefore - 1 } else t }) c := by
    intro x hx
    rw [coreOf_modCore_self] at hx
    obtain ⟨y, hy, rfl⟩ := List.mem_map.mp hx
    have := held y hy
    split <;> exact this
  rw [popMq, startFetches_started none_]
  refine ⟨.modCore s c _ (fun _ => rfl) fun _ => rfl, none_, ?_, rfl, rfl⟩
  have gone : popMq.drop1 e.slot [e] = [] := by simp [popMq.drop1, counts]
  simp [only, gone]

/-! ### Placing in order -/

/-- Each of the entries finds room when its turn comes, and leaves the core as `I` says of those placed. -/
structure Placing (c : Nat) (es : List Mq) (I : List Mq → Core → Prop) : Prop where
  frame : ∀ done k slots sup, I done k → I done { k with slots, sup }
  room : ∀ done k, I done k → done.length < es.length → (k.mq.filter fun e => !e.op.isTrel).length < 16
  place : ∀ done e rest s, done ++ e :: rest = es → I done (coreOf s c) → SameSeats s (placeEntry s c e) ∧ I (done ++ [e]) (coreOf (placeEntry s c e) c)

namespace Placing

variable (p : Placing c es I)
include p

theorem keeps (k : cx.Keeps s t) {done : List Mq} (h : I done (coreOf s c)) : I done (coreOf t c) := by
  have same := p.frame done _ (coreOf t c).slots (coreOf t c).sup ((k.cores c).symm ▸ p.frame done _ (coreOf s c).slots (coreOf s c).sup h)
  exact same

theorem hasRoom {done rest : List Mq} (split : done ++ e :: rest = es) (h : I done (coreOf s c)) : ¬queueLen s c ≥ 16 := by
  have := p.room done _ h (by rw [← split]; simp)
  simpa [queueLen] using this

theorem placeMany_all {rest done : List Mq} (split : done ++ rest = es) (h : I done (coreOf s c)) :
    (placeMany s c rest).2 = [] ∧ SameSeats s (placeMany s c rest).1 ∧ I es (coreOf (placeMany s c rest).1 c) := by
  induction rest generalizing s done with
  | nil =>
    rw [List.append_nil] at split
    exact ⟨rfl, .refl s, split ▸ h⟩
  | cons e r ih =>
    obtain ⟨seats, placed⟩ := p.place done e r s split h
    obtain ⟨none_, later, all⟩ := ih (s := placeEntry s c e) (by rw [← split]; simp) placed
    simp only [placeMany, p.hasRoom split h, if_false]
    exact ⟨none_, seats.trans later, all⟩

/-- In the threaded model each thread completes and its entry is placed. -/
theorem fold_threads (hT : cx.isT = true) (goes : (fallNext cx.line cx.pc d.len).2 = false) {rest done : List Mq} (split : done ++ rest = es)
    (h : I done (coreOf s c)) (hosts : cx.Hosts s (es.map (·.who))) (stand : ∀ l ∈ done.map (·.who), cx.pcOf s l = cx.next d) :
    let t := rest.foldl (fun s e => if queueLen s c ≥ 16 then cx.wait s [e.who] 10 else placeEntry (cx.finish s d [e.who] fun _ => {}) c e) s
    cx.Course s t ∧ I es (coreOf t c) ∧ ∀ l ∈ es.map (·.who), cx.pcOf t l = cx.next d := by
  induction rest generalizing s done with
  | nil =>
    rw [List.append_nil] at split
    exact ⟨.refl cx s, split ▸ h, split ▸ stand⟩
  | cons e r ih =>
    have finished := cx.finish_keeps s d [e.who] (fun _ => {}) goes
    have course := Cx.Course.finish goes s [e.who] fun _ => {}
    obtain ⟨seats, placed⟩ := p.place done e r _ split (p.keeps finished.2 h)
    have member : e.who ∈ es.map (·.who) := by rw [← split]; simp
    have course' := course.trans (.of_seats cx seats)
    obtain ⟨later, all, stands⟩ := ih (s := placeEntry (cx.finish s d [e.who] fun _ => {}) c e) (by rw [← split]; simp) placed (course'.hosts hosts)
      fun l hl => by
        rw [seats.pcOf_eq]
        exact hosts.finish_pcOf_cons goes hT member stand _ l (by simpa using hl)
    rw [List.foldl_cons, if_neg (p.hasRoom split h)]
    exact ⟨course'.trans later, all, stands⟩

/-- An instruction whose entries all find room places them in order and completes (R209). -/
theorem enqueue_all (goes : (fallNext cx.line cx.pc d.len).2 = false) (hid : cx.id = .blk c sl) (h : I [] (coreOf s c))
    (hosts : cx.Hosts s (es.map (·.who))) (waiting : cx.isT = false → cx.placedHere s = 0) :
    cx.Course s (cx.enqueue s d es) ∧ I es (coreOf (cx.enqueue s d es) c) ∧
      ∀ e ∈ es, cx.pcOf (cx.enqueue s d es) (if cx.isT then e.who else 0) = cx.next d := by
  have place : cx.place = (c, sl) := by simp [Cx.place, hid]
  cases hT : cx.isT with
  | true =>
    have run := p.fold_threads hT goes (rest := es) (done := []) rfl h hosts (by simp)
    simp only [Cx.enqueue, place, hT, if_true]
    exact ⟨run.1, run.2.1, fun e he => run.2.2 _ (List.mem_map_of_mem he)⟩
  | false =>
    obtain ⟨all, seats, placed⟩ := p.placeMany_all (rest := es) (done := []) rfl h
    simp only [Cx.enqueue, place, hT, waiting hT, List.drop_zero, Bool.false_eq_true, if_false]
    generalize placeMany s c es = r at *
    obtain ⟨s1, left⟩ := r
    obtain rfl : left = [] := all
    simp only [List.isEmpty_nil, if_true]
    have set_ : cx.Course s1 (cx.setPlaced s1 0) := by
      simp only [Cx.setPlaced, Cx.modBlk, hid]
      exact .modBlock hid s1 _ (fun _ => rfl) (fun _ => rfl) (fun _ => rfl) (fun _ => rfl) fun _ => rfl
    have kept : I es (coreOf (cx.setPlaced s1 0) c) := by
      simp only [Cx.setPlaced, Cx.modBlk, hid, coreOf_modBlock_self]
      exact p.frame _ _ _ _ placed
    have until_ := (Cx.Course.of_seats cx seats).trans set_
    have finished := cx.finish_keeps (cx.setPlaced s1 0) d [0] (fun _ => {}) goes
    exact ⟨until_.trans (.finish goes _ _ _), p.keeps finished.2 kept, fun _ _ =>
      (until_.hosts hosts).finish_pcOf goes (fun h => by simp [hT] at h) (by simp) _⟩

end Placing
end Sys2Proof.Machine
end

/-! ## Rows, multiplies, AZERO and AGSET at an empty queue (R222, R225 to R228) -/
section
namespace Sys2Proof.Machine

open Sys2Proof.Claims (noneHeld accAt agAt rowFits)

variable {s t u : State} {cx : Cx} {d : Dec} {b : Block} {c sl : Nat} {e : Mq} {es : List Mq} {rs : List (Nat × List Nat)} {A : Store 64}

/-! ### Entries that wait for their events -/

theorem placing_waits (waits : ∀ e ∈ es, e.op.waits = true) (few : es.length ≤ 16) (A : Store 64) :
    Placing c es fun done k => k.mq = done ∧ k.acc = A where
  frame _ _ _ _ h := h
  room done k h short := by
    rw [h.1]
    exact (List.length_filter_le ..).trans_lt (short.trans_le few)
  place done e rest s split h := by
    have all : ∀ x ∈ done ++ [e], x.op.waits = true := fun x hx => waits x (by rw [← split]; simp only [List.mem_append, List.mem_cons, List.not_mem_nil, or_false] at hx ⊢; tauto)
    rw [placeEntry_waits (fun x hx => all x (by rw [h.1] at hx; simp [hx])) (all e (by simp))]
    exact ⟨appendMq_seats s c e, by simp [appendMq, h.1, h.2]⟩

/-- What an instruction that places entries leaves. -/
structure Cx.Places (cx : Cx) (s t : State) (d : Dec) (es : List (Nat × MqOp)) : Prop where
  queue : (coreOf t cx.core).mq.map (fun e => (e.slot, e.who, e.op)) = es.map fun x => (cx.place.2, x.1, x.2)
  stands : ∀ x ∈ es, cx.pcOf t (if cx.isT then x.1 else 0) = cx.next d
  acc : (coreOf t cx.core).acc = (coreOf s cx.core).acc
  course : cx.Course s t

/-- Entries of an instruction that wait for their events are placed in order in an empty queue. -/
theorem Cx.Begun.enqueue_waits {ops : List (Nat × MqOp)} (h : cx.Begun s t) (goes : (fallNext cx.line cx.pc d.len).2 = false) (hid : cx.id = .blk c sl)
    (hosts : cx.Hosts s (ops.map (·.1))) (idle : (coreOf s c).mq = []) (waiting : cx.placedHere s = 0) (waits : ∀ x ∈ ops, x.2.waits = true)
    (few : ops.length ≤ 16) : cx.Places s (cx.enqueue t d (ops.map fun x => cx.entry t x.1 x.2)) d ops := by
  have core : cx.core = c := by simp [Cx.core, hid, coreOfCtx]
  have placing : Placing c (ops.map fun x => cx.entry t x.1 x.2) fun done k => k.mq = done ∧ k.acc = (coreOf s c).acc :=
    placing_waits (List.forall_mem_map.mpr waits) (by simpa using few) _
  have acc := h.issued.keeps.core c (·.acc) fun _ _ _ => rfl
  have begins : (coreOf t c).mq = [] := (h.issued.mq c).trans idle
  obtain ⟨course, ⟨queue, same⟩, stands⟩ := placing.enqueue_all goes hid ⟨begins, acc⟩ (by simpa [Cx.entry, Function.comp_def] using h.course.hosts hosts)
    fun control => (h.waiting control).trans waiting
  rw [← core] at queue same
  exact ⟨by rw [queue, List.map_map]; rfl, fun x hx => stands _ (List.mem_map_of_mem hx), by rw [same, core], h.course.trans course⟩

/-! ### ALD, AST and DRN -/

/-- A row that fits passes every check. -/
theorem rowFits_noFault {al n a : Nat} {store good : Bool} (fits : rowFits cx s al n store a) (ok : good = true) :
    firstFault [alignFault a al (if store then 1 else 0), localFault (cx.mem s).locb a n, if good then none else some { rank := 2, cause := 17, addr := 0 },
      if store then lwsetFault (cx.sealed s) (cx.region s) a n else none] = none := by
  obtain ⟨aligned, inside, within⟩ := fits
  have aligned' : ((a : Int) % al != 0) = false := bne_eq_false_iff_eq.mpr (by exact_mod_cast aligned)
  have lwset : (if store then lwsetFault (cx.sealed s) (cx.region s) a n else none) = none := by
    cases store with
    | false => rfl
    | true =>
      cases sealed_ : cx.sealed s with
      | false => rfl
      | true => simp [lwsetFault, within rfl sealed_]
  rw [alignFault, aligned', localFault_none inside, lwset, ok]
  rfl

theorem rowFits_issued {al n a : Nat} {store : Bool} (h : cx.Issued s t) (fits : rowFits cx s al n store a) : rowFits cx t al n store a := by
  simpa only [rowFits, h.regs.mem, h.sealed, h.region_eq] using fits

/-- Rows that pass their checks are placed in lane order. -/
theorem Cx.rows_places {al n : Nat} {store : Bool} {maskGood : State → Bool} {op : Nat → Nat → MqOp} (h : Enters s cx d rs) (valid : d.valid = tvs)
    (acting : rs ≠ []) (few : rs.length ≤ 16) (idle : (coreOf s cx.core).mq = []) (waiting : cx.placedHere s = 0)
    (fits : ∀ r ∈ rs, rowFits cx s al n store (aOf r.2)) (mask : ∀ t, cx.Begun s t → maskGood t = true) (waits : ∀ a r, (op a r).waits = true) :
    cx.Places s (cx.rows s d al n store maskGood op) d (rs.map fun r => (r.1, op (aOf r.2) (bOf r.2 % 32))) := by
  obtain ⟨c, sl, b, hid, hb, core, -⟩ := h.tvs_block fun v => tvs_none (valid ▸ v)
  obtain ⟨s', run, begun⟩ := Cx.start_begun h acting hb
  have noFault : (rs.filterMap fun r => (firstFault [alignFault (aOf r.2) al (if store then 1 else 0), localFault (cx.mem s').locb (aOf r.2) n,
      if maskGood s' then none else some { rank := 2, cause := 17, addr := 0 },
      if store then lwsetFault (cx.sealed s') (cx.region s') (aOf r.2) n else none]).map fun f => (r.1, f)) = [] :=
    List.filterMap_eq_nil_iff.mpr fun r hr => by
      rw [rowFits_noFault (rowFits_issued begun.issued (fits r hr)) (mask s' begun)]
      rfl
  have all : (rs.filter fun _ => true) = rs := List.filter_true rs
  rw [Cx.rows, run]
  simp only [noFault, List.isEmpty_nil, Bool.not_true, Bool.false_and, Bool.false_eq_true, if_false, if_true, List.any_nil, Bool.not_false, all,
    List.isEmpty_eq_false_iff.mpr acting]
  have placed := begun.enqueue_waits (ops := rs.map fun r => (r.1, op (aOf r.2) (bOf r.2 % 32))) h.goes hid (by simpa [Function.comp_def] using h.hosts hb)
    (core ▸ idle) waiting (List.forall_mem_map.mpr fun r _ => waits ..) (by simpa using few)
  rwa [List.map_map] at placed

/-! ### MMA and MMAS of the vector model -/

/-- A valid operation is placed with its format word (R208, R222). -/
theorem Cx.mma_places {o : POp} {split : Bool} {r : Nat × List Nat} (h : Enters s cx (mmaDec cx o split) [r]) (vector : cx.kind = .V)
    (idle : (coreOf s cx.core).mq = []) (waiting : cx.placedHere s = 0) (mask : cx.maskOk s (·.amask) (dstSlots split o.param.toNat) = true)
    (word : aOf r.2 < 2 ^ 32) (ok : formatOk (aOf r.2) o.param.toNat split (some (agRef (agAt s cx.core (pairOf split o.param.toNat)))) = true) :
    cx.Places s (cx.mma s o split) (mmaDec cx o split) [(0, .mma split o.param (BitVec.ofNat 32 (aOf r.2)))] := by
  obtain ⟨c, sl, b, hid, hb, core, -⟩ := h.tvs_block fun _ => .inr (.inl vector)
  obtain ⟨s', run, begun⟩ := Cx.start_begun h (List.cons_ne_nil _ _) hb
  have control : cx.isT = false := by simp [Cx.isT, vector]
  have ag := begun.issued.keeps.core cx.core (·.ag) fun _ _ _ => rfl
  have small : aOf r.2 / 2 ^ 32 = 0 := Nat.div_eq_of_lt word
  have valid : formatOk (aOf r.2) (p1Of o) split (some (agRef (Store.get (coreOf s' cx.core).ag (pairOf split (p1Of o))).toNat)) = true := by
    rw [ag]
    exact ok
  have start : cx.mma s o split = cx.enqueue s' (mmaDec cx o split) [cx.entry s' 0 (.mma split o.param (BitVec.ofNat 32 (aOf r.2)))] := by
    unfold Cx.mma
    extract_lets form
    rw [show form = mmaDec cx o split from rfl, run]
    simp only [begun.issued.maskOk_eq, p1Of] at valid ⊢
    simp only [mask, control, small, valid, List.isEmpty_cons, Bool.not_true, Bool.and_false, Bool.false_eq_true, if_false, bne_self_eq_false, Bool.or_self]
  rw [start]
  have hosts : cx.Hosts s [0] := by
    obtain ⟨placed, b, hb, model, -⟩ := h.hosts hb
    exact ⟨placed, b, hb, model, fun hT => by simp [control] at hT⟩
  exact begun.enqueue_waits (ops := [(0, .mma split o.param (BitVec.ofNat 32 (aOf r.2)))]) h.goes hid hosts (core ▸ idle) waiting (by simp [MqOp.waits])
    (by simp)

end Sys2Proof.Machine
end

/-! ## AZERO and AGSET at an empty queue (R225, R227) -/
section
namespace Sys2Proof.Machine

open Sys2Proof.Claims (noneHeld accAt agAt)

variable {s t u : State} {cx : Cx} {d : Dec} {b : Block} {c sl n thr ref pair : Nat} {slots : List Nat} {e : Mq} {es : List Mq}
  {rs : List (Nat × List Nat)} {R : Store 64 × Store 64 → Store 64 × Store 64 → Prop} {A : Store 64 × Store 64} {k k' : Core}

/-! ### Entries that run at once -/

/-- Accumulators and agreement registers of a core. -/
def Core.sums (k : Core) : Store 64 × Store 64 := (k.acc, k.ag)

/-- From `s` to `t` an entry has run at once in the core's empty queue and done `R` to accumulators and agreement registers. -/
structure Quick (c : Nat) (R : Store 64 × Store 64 → Store 64 × Store 64 → Prop) (s t : State) : Prop where
  seats : SameSeats s t
  idle : (coreOf t c).mq = []
  held : noneHeld t c
  sums : R (coreOf s c).sums (coreOf t c).sums

/-- The only entry has left and the core is changed by `f`. -/
theorem quick_popped (idle : (coreOf s c).mq = []) (held : noneHeld s c) (own : e.op.quick = true) (f : Core → Core) (hs : ∀ k, (f k).slots = k.slots)
    (hp : ∀ k, (f k).sup = k.sup) (hq : ∀ k, (f k).mq = k.mq) (ht : ∀ k, (f k).tfq = k.tfq) (sums : ∀ k, R k.sums (f k).sums) :
    Quick c R s (modCore (popMq (appendMq s c e) c e.slot) c f) := by
  have only : (coreOf (appendMq s c e) c).mq = [e] := by simp [appendMq, idle]
  have held' : noneHeld (appendMq s c e) c := by simpa [noneHeld, appendMq] using held
  obtain ⟨seats, still, core, -, -⟩ := popMq_only held' only (MqOp.quick_isTrel own)
  have empty := congrArg Core.mq core
  have same := congrArg Core.sums core
  refine ⟨((appendMq_seats s c e).trans seats).trans (.modCore _ c f hs hp), by simpa [hq] using empty, ?_, ?_⟩
  · intro x hx
    rw [coreOf_modCore_self, ht] at hx
    exact still x hx
  · have before : (coreOf (popMq (appendMq s c e) c e.slot) c).sums = (coreOf s c).sums := by simpa [Core.sums, appendMq] using same
    rw [coreOf_modCore_self, ← before]
    exact sums _

theorem runHead_append (idle : (coreOf s c).mq = []) (own : e.op.quick = true) : mqOf (appendMq s c e) c e.slot = [e] := by
  simp [appendMq, mqOf, idle, MqOp.quick_isTrel own]

/-- Entries that run at once, and whose effect is that of the last alone. -/
theorem placing_quick (run : ∀ e ∈ es, ∀ s, (coreOf s c).mq = [] → noneHeld s c → Quick c R s (placeEntry s c e))
    (again : ∀ x y, R A x → R x y → R A y) :
    Placing c es fun done k => k.mq = [] ∧ (∀ x ∈ k.tfq, x.started = true) ∧ if done = [] then k.sums = A else R A k.sums where
  frame _ _ _ _ h := h
  room _ k h _ := by simp [h.1]
  place done e rest s split h := by
    obtain ⟨idle, held, sums⟩ := h
    have quick := run e (by rw [← split]; simp) s idle held
    refine ⟨quick.seats, quick.idle, quick.held, ?_⟩
    rw [if_neg (by simp)]
    split at sums
    · exact sums ▸ quick.sums
    · exact again _ _ sums quick.sums

/-- An instruction of such entries, for the lanes `ls`. -/
theorem Cx.Begun.enqueue_quick {op : MqOp} (h : cx.Begun s t) (goes : (fallNext cx.line cx.pc d.len).2 = false) (hid : cx.id = .blk c sl)
    (acting : rs ≠ []) (hosts : cx.Hosts s (rs.map (·.1))) (idle : (coreOf s c).mq = []) (held : noneHeld s c) (waiting : cx.placedHere s = 0)
    (run : ∀ e : Mq, e.op = op → ∀ s, (coreOf s c).mq = [] → noneHeld s c → Quick c R s (placeEntry s c e))
    (again : ∀ x y, R (coreOf s c).sums x → R x y → R (coreOf s c).sums y) :
    let u := cx.enqueue t d (rs.map fun r => cx.entry t r.1 op)
    cx.Course s u ∧ R (coreOf s c).sums (coreOf u c).sums := by
  have placing := placing_quick (c := c) (es := rs.map fun r => cx.entry t r.1 op) (List.forall_mem_map.mpr fun r _ => run _ rfl) again
  have sums := h.issued.keeps.core c Core.sums fun _ _ _ => rfl
  have fetches := h.issued.keeps.core c (·.tfq) fun _ _ _ => rfl
  obtain ⟨course, ⟨-, -, done⟩, -⟩ := placing.enqueue_all goes hid ⟨(h.issued.mq c).trans idle, by rw [fetches]; exact held, by rwa [if_pos rfl]⟩
    (by simpa [Cx.entry, Function.comp_def] using h.course.hosts hosts) fun control => (h.waiting control).trans waiting
  rw [if_neg (by simpa using acting)] at done
  exact ⟨h.course.trans course, done⟩

/-! ### AZERO (R225) -/

/-- What AZERO keeps of an agreement register: THR and REF. -/
def agKept : W64 := 0x000000FF0000FFFF#64

/-- The elements of the slots are zero, and of the pair's register THR and REF are left. -/
def Zeroed (slots : List Nat) (pair : Nat) (x y : Store 64 × Store 64) : Prop :=
  (∀ i, Store.get y.1 i = if i / 1024 ∈ slots then 0 else Store.get x.1 i) ∧
    ∀ n, Store.get y.2 n = if n = pair then Store.get x.2 n &&& agKept else Store.get x.2 n

theorem Zeroed.again {x y z : Store 64 × Store 64} (h : Zeroed slots pair x y) (k : Zeroed slots pair y z) : Zeroed slots pair x z := by
  refine ⟨fun i => ?_, fun n => ?_⟩
  · rw [k.1, h.1]
    split <;> rfl
  · rw [k.2, h.2]
    split
    · rw [BitVec.and_assoc, BitVec.and_self]
    · rfl

/-- The slots of an AZERO. -/
def zeroSlots (n : Nat) : List Nat := if n < 8 then [n] else [2 * (n - 8), 2 * (n - 8) + 1]
/-- The agreement register of an AZERO. -/
def zeroPair (n : Nat) : Nat := if n < 8 then n / 2 else n - 8

theorem azero_quick (op : e.op = .azero n) (idle : (coreOf s c).mq = []) (held : noneHeld s c) :
    Quick c (Zeroed (zeroSlots n) (zeroPair n)) s (placeEntry s c e) := by
  have own : e.op.quick = true := by rw [op]; rfl
  have quick : Quick c (Zeroed (zeroSlots n) (zeroPair n)) s (runAzero (appendMq s c e) c e n) := by
    unfold runAzero
    refine quick_popped idle held own _ (fun _ => rfl) (fun _ => rfl) (fun _ => rfl) (fun _ => rfl) fun k => ⟨fun i => ?_, fun m => ?_⟩
    · refine (Store.get_filter k.acc (fun i => !(zeroSlots n).contains (i / 1024)) i).trans ?_
      by_cases zeroed : i / 1024 ∈ zeroSlots n <;> simp [zeroed, Core.sums]
    · refine (Store.get_set k.ag (zeroPair n) m _).trans ?_
      by_cases same : zeroPair n = m
      · subst same
        simp [agKept, Core.sums, zeroPair]
      · rw [if_neg same, if_neg (Ne.symm same)]
        rfl
  have run : runHead (appendMq s c e) c e.slot = some (runAzero (appendMq s c e) c e n) := by simp only [runHead, runHead_append idle own, op]
  rwa [placeEntry_quick idle own run quick.idle]

/-! ### AGSET (R227) -/

/-- The register holds THR and REF, and its other bits as before. -/
def agWith (a : W64) (thr ref : Nat) : W64 := a &&& ~~~agKept ||| BitVec.ofNat 64 (ref * 2 ^ 32 + thr)

/-- Of one register THR and REF are written. -/
def Written (n thr ref : Nat) (x y : Store 64 × Store 64) : Prop :=
  y.1 = x.1 ∧ ∀ m, Store.get y.2 m = if m = n then agWith (Store.get x.2 m) thr ref else Store.get x.2 m

/-- Where THR and REF lie (R122). -/
theorem agKept_getLsbD {i : Nat} (hi : i < 64) : agKept.getLsbD i = (decide (i < 16) || (decide (32 ≤ i) && decide (i < 40))) := by
  have all : ∀ i < 64, agKept.getLsbD i = (decide (i < 16) || (decide (32 ≤ i) && decide (i < 40))) := by decide
  exact all i hi

/-- Bits of a register after THR and REF are written. -/
theorem agWith_testBit (a : W64) (ht : thr < 2 ^ 16) (hr : ref < 2 ^ 8) (i : Nat) : (agWith a thr ref).toNat.testBit i =
    if i < 16 then thr.testBit i else if 32 ≤ i ∧ i < 40 then ref.testBit (i - 32) else a.toNat.testBit i := by
  have field : (ref * 2 ^ 32 + thr).testBit i = if i < 32 then thr.testBit i else ref.testBit (i - 32) := by
    rw [Nat.mul_comm, Nat.testBit_two_pow_mul_add ref (by omega : thr < 2 ^ 32)]
  have thrHigh : 16 ≤ i → thr.testBit i = false := fun high => Nat.testBit_lt_two_pow (ht.trans_le (Nat.pow_le_pow_right (by decide) high))
  have refHigh : 40 ≤ i → ref.testBit (i - 32) = false := fun high => Nat.testBit_lt_two_pow (hr.trans_le (Nat.pow_le_pow_right (by decide) (by omega)))
  by_cases hi : i < 64
  · rw [← BitVec.getLsbD, agWith, BitVec.getLsbD_or, BitVec.getLsbD_and, BitVec.getLsbD_not, BitVec.getLsbD_ofNat, field, agKept_getLsbD hi, ← BitVec.getLsbD]
    by_cases low : i < 16
    · simp [low, hi, (by omega : i < 32)]
    · by_cases inRef : 32 ≤ i ∧ i < 40
      · simp [low, hi, inRef]
      · rw [if_neg low, if_neg inRef]
        by_cases below : i < 32
        · simp [low, hi, below, thrHigh (by omega)]
        · simp [low, hi, below, refHigh (by omega), (by omega : 40 ≤ i)]
  · have beyond : ∀ x : W64, x.toNat.testBit i = false := fun x => BitVec.getLsbD_of_ge x i (by omega)
    rw [beyond, if_neg (by omega), if_neg (by omega), beyond]

theorem Written.again {x y z : Store 64 × Store 64} (ht : thr < 2 ^ 16) (hr : ref < 2 ^ 8) (h : Written n thr ref x y) (k : Written n thr ref y z) :
    Written n thr ref x z := by
  refine ⟨k.1.trans h.1, fun m => ?_⟩
  rw [k.2, h.2]
  split
  · refine BitVec.eq_of_toNat_eq (Nat.eq_of_testBit_eq fun i => ?_)
    simp only [agWith_testBit _ ht hr]
    split_ifs <;> rfl
  · rfl

theorem agset_quick (op : e.op = .agset n thr ref) (idle : (coreOf s c).mq = []) (held : noneHeld s c) :
    Quick c (Written n thr ref) s (placeEntry s c e) := by
  have own : e.op.quick = true := by rw [op]; rfl
  have quick : Quick c (Written n thr ref) s (runAgset (appendMq s c e) c e n thr ref) :=
    quick_popped idle held own _ (fun _ => rfl) (fun _ => rfl) (fun _ => rfl) (fun _ => rfl) fun k => by
      refine ⟨rfl, fun m => (Store.get_set k.ag n m _).trans ?_⟩
      by_cases same : n = m
      · subst same
        simp [agWith, agKept, Core.sums]
      · rw [if_neg same, if_neg (Ne.symm same)]
        rfl
  have run : runHead (appendMq s c e) c e.slot = some (runAgset (appendMq s c e) c e n thr ref) := by simp only [runHead, runHead_append idle own, op]
  rwa [placeEntry_quick idle own run quick.idle]

/-- What an agreement register says after THR and REF are written (R122). -/
theorem agWith_fields (a : W64) (ht : thr < 2 ^ 16) (hr : ref < 2 ^ 8) :
    agThr (agWith a thr ref).toNat = thr ∧ agRef (agWith a thr ref).toNat = ref ∧ agZcnt (agWith a thr ref).toNat = agZcnt a.toNat ∧
      (agWith a thr ref).toNat / 2 ^ 40 = a.toNat / 2 ^ 40 := by
  have part : ∀ x m l : Nat, ∀ i, (x / 2 ^ l % 2 ^ m).testBit i = (decide (i < m) && x.testBit (l + i)) := fun x m l i => by
    rw [Nat.testBit_mod_two_pow, Nat.testBit_div_two_pow, Nat.add_comm]
  refine ⟨Nat.eq_of_testBit_eq fun i => ?_, Nat.eq_of_testBit_eq fun i => ?_, Nat.eq_of_testBit_eq fun i => ?_, Nat.eq_of_testBit_eq fun i => ?_⟩
  · rw [agThr, bits, part, agWith_testBit a ht hr]
    by_cases inside : i < 16
    · simp [inside]
    · simp [inside, Nat.testBit_lt_two_pow (ht.trans_le (Nat.pow_le_pow_right (by decide) (by omega : 16 ≤ i)))]
  · rw [agRef, bits, part, agWith_testBit a ht hr]
    by_cases inside : i < 8
    · rw [if_neg (by omega), if_pos (by omega)]
      simp [inside]
    · simp [inside, Nat.testBit_lt_two_pow (hr.trans_le (Nat.pow_le_pow_right (by decide) (by omega : 8 ≤ i)))]
  · rw [agZcnt, agZcnt, bits, bits, part, part, agWith_testBit a ht hr]
    by_cases inside : i < 16
    · rw [if_neg (by omega), if_neg (by omega)]
    · simp [inside]
  · rw [Nat.testBit_div_two_pow, Nat.testBit_div_two_pow, agWith_testBit a ht hr, if_neg (by omega), if_neg (by omega)]

/-- What an agreement register holds after AZERO, bit by bit. -/
theorem and_agKept_bit (a : W64) {i : Nat} (hi : i < 64) :
    bit (a &&& agKept).toNat i = (bit a.toNat i && (decide (i < 16) || (decide (32 ≤ i) && decide (i < 40)))) := by
  rw [bit_toNat, bit_toNat, BitVec.getLsbD_and, agKept_getLsbD hi]

/-! ### The instructions -/

/-- AZERO at an empty queue clears its slots and keeps THR and REF of its pair. -/
theorem azero_zeroes {o : ROp} (h : Enters s cx (azeroDec o) rs) (acting : rs ≠ []) (idle : (coreOf s cx.core).mq = []) (waiting : cx.placedHere s = 0)
    (held : noneHeld s cx.core) (mask : cx.maskOk s (·.amask) (zeroSlots o.p.dreg.toNat) = true) :
    ∃ t, exec (.azero o) s = .next t ∧ cx.Course s t ∧
      Zeroed (zeroSlots o.p.dreg.toNat) (zeroPair o.p.dreg.toNat) (coreOf s cx.core).sums (coreOf t cx.core).sums := by
  obtain ⟨c, sl, b, hid, hb, rfl, -⟩ := h.tvs_block tvs_none
  obtain ⟨s', run, begun⟩ := Cx.start_begun h acting hb
  obtain ⟨course, zeroed⟩ := begun.enqueue_quick h.goes hid acting (h.hosts hb) idle held waiting (fun e op s i k => azero_quick (s := s) op i k) fun _ _ => .again
  refine ⟨_, (withCx_here h.here _).trans (congrArg _ (run _)), ?_⟩
  have open_ : cx.maskOk s' (·.amask) (if o.p.dreg.toNat < 8 then [o.p.dreg.toNat] else [2 * (o.p.dreg.toNat - 8), 2 * (o.p.dreg.toNat - 8) + 1]) = true :=
    (begun.issued.maskOk_eq ..).trans mask
  simp only [List.isEmpty_eq_false_iff.mpr acting, open_, Bool.not_true, Bool.false_eq_true, if_false]
  exact ⟨course, zeroed⟩

/-- AGSET at an empty queue writes THR and REF of its register. -/
theorem agset_writes {o : KOp} (h : Enters s cx (agsetDec o) rs) (acting : rs ≠ []) (idle : (coreOf s cx.core).mq = []) (waiting : cx.placedHere s = 0)
    (held : noneHeld s cx.core) (pair : cx.pairOk s o.p.dreg.toNat = true) :
    ∃ t, exec (.agset o) s = .next t ∧ cx.Course s t ∧
      Written o.p.dreg.toNat (bits o.param.toNat 15 0) (bits o.param.toNat 23 16) (coreOf s cx.core).sums (coreOf t cx.core).sums := by
  obtain ⟨c, sl, b, hid, hb, rfl, -⟩ := h.tvs_block tvs_none
  obtain ⟨s', run, begun⟩ := Cx.start_begun h acting hb
  obtain ⟨course, written⟩ := begun.enqueue_quick h.goes hid acting (h.hosts hb) idle held waiting (fun e op s i k => agset_quick (s := s) op i k)
    fun _ _ => .again (Nat.mod_lt _ (by decide)) (Nat.mod_lt _ (by decide))
  refine ⟨_, (withCx_here h.here _).trans (congrArg _ (run _)), ?_⟩
  simp only [List.isEmpty_eq_false_iff.mpr acting, begun.issued.pairOk_eq, pair, Bool.not_true, Bool.false_eq_true, if_false]
  exact ⟨course, written⟩

end Sys2Proof.Machine
end

/-! ## AGGET at an empty queue (R123, R227) -/
section
namespace Sys2Proof.Machine

open Sys2Proof.Claims (noneHeld agAt)

variable {s t u : State} {cx : Cx} {d : Dec} {b : Block} {c sl l n v : Nat} {e : Mq} {f : LoadForm} {p : Pending}

/-! ### A result's return is seen in its block -/

/-- Only what blocks hold changes. -/
structure InBlocks (s t : State) : Prop where
  rest : { t with cores := s.cores } = s
  cores : ∀ d, { coreOf t d with slots := (coreOf s d).slots } = coreOf s d
  seats : ∀ d sm, (blockOf t d sm).isSome = (blockOf s d sm).isSome

namespace InBlocks

theorem refl (s : State) : InBlocks s s := ⟨rfl, fun _ => rfl, fun _ _ => rfl⟩

theorem trans (h : InBlocks s t) (k : InBlocks t u) : InBlocks s u where
  rest := by
    have e : ({ u with cores := s.cores } : State) = { ({ u with cores := t.cores } : State) with cores := s.cores } := rfl
    rw [e, k.rest, h.rest]
  cores d := by
    have e : ({ coreOf u d with slots := (coreOf s d).slots } : Core) =
        { ({ coreOf u d with slots := (coreOf t d).slots } : Core) with slots := (coreOf s d).slots } := rfl
    rw [e, k.cores, h.cores]
  seats d sm := (k.seats d sm).trans (h.seats d sm)

theorem placed (h : InBlocks s t) (p : cx.Placed s) : cx.Placed t := by
  refine ⟨fun kind => ?_, p.sup, p.sys⟩
  obtain ⟨c, sl, b, hid, hb⟩ := p.block kind
  have there := h.seats c sl
  rw [hb] at there
  obtain ⟨b', hb'⟩ := Option.isSome_iff_exists.mp there
  exact ⟨c, sl, b', hid, hb'⟩

theorem modBlock (s : State) (c sl : Nat) (f : Block → Block) : InBlocks s (Machine.modBlock s c sl f) := by
  refine ⟨rfl, fun d => ?_, fun d sm => ?_⟩
  · by_cases same : c = d
    · subst same
      simp
    · simp [coreOf_modBlock_ne s sl f same]
  · by_cases same : c = d ∧ sl = sm
    · obtain ⟨rfl, rfl⟩ := same
      simp
    · rw [blockOf_modBlock_ne s f same]

theorem foldl {α : Type} {g : State → α → State} (hg : ∀ s x, InBlocks s (g s x)) (l : List α) (s : State) : InBlocks s (l.foldl g s) := by
  induction l generalizing s with
  | nil => exact refl s
  | cons x r ih => exact (hg s x).trans (ih _)

theorem core {α : Type} (h : InBlocks s t) (c : Nat) (g : Core → α) (hg : ∀ k slots, g { k with slots } = g k) : g (coreOf t c) = g (coreOf s c) := by
  have e := congrArg g (h.cores c)
  rwa [hg] at e

theorem pending (h : InBlocks s t) : t.pending = s.pending := by
  have e := congrArg State.pending h.rest
  exact e
theorem nextId (h : InBlocks s t) : t.nextId = s.nextId := by
  have e := congrArg State.nextId h.rest
  exact e
theorem sys (h : InBlocks s t) : t.sys = s.sys := by
  have e := congrArg State.sys h.rest
  exact e

end InBlocks

/-- A block's result leaves what is in flight and reaches blocks alone. -/
theorem returnResult_inBlocks (hp : p.ctx = .blk c sl) (s : State) :
    InBlocks { s with pending := s.pending.filter fun q => q.id != p.id } (returnResult s p) := by
  have shared : ∀ u elts, InBlocks u (shareResult u p elts) := fun u elts => by
    unfold shareResult
    split
    · split
      · split
        · exact .modBlock ..
        · exact .refl u
      · exact .refl u
    · exact .refl u
  unfold returnResult
  simp only [hp]
  cases p.form.cls with
  | s => exact (shared _ _).trans (.foldl (fun u x => .trans (show InBlocks u (modCtl u (.blk c sl) _) from .modBlock ..) (.modBlock ..)) _ _)
  | g => exact (shared _ _).trans (.modBlock ..)
  | v => exact (shared _ _).trans (.modBlock ..)

/-! ### Loaded words -/

/-- Registers held alike keep a `Loaded`. -/
theorem Cx.Loaded.sameFile {vals : List (Nat × Nat)} (h : cx.Loaded s t f vals) (has : cx.kind.has f.cls = true) (same : cx.SameFile t u) :
    cx.Loaded s u f vals where
  written r hr i k hk := by
    have cell : cx.cell u f.cls k = cx.cell t f.cls k := by
      cases cls : f.cls with
      | s => simp only [Cx.cell, Ctl.s, same.sregs (by rintro e; rw [e, cls] at has; cases has)]
      | g => simp only [Cx.cell, same.mem]
      | v => simp only [Cx.cell, same.mem]
    exact cell.trans (h.written r hr i k hk)
  others c m l hc hm hl ho := (same.reg hc m l).trans (h.others c m l hc hm hl ho)
  preds m i := (same.pbit m i).trans (h.preds m i)

/-- A word that is none of a thread's result is that of a register. -/
theorem LoadForm.FitsG.cell_other (fits : f.FitsG) (h : cx.Loaded t u f [(l, v)]) (has : cx.kind.has .g = true) {x i k : Nat} (other : x ≠ l)
    (hk : (f.keysOf x)[i]? = some k) : cx.cell u .g k = cx.cell t .g k := by
  obtain ⟨key, bound⟩ := fits.keysOf hk
  have apart : regKey .g (f.firstG + i) x ∉ f.keysOf l := fun mem => by
    obtain ⟨j, hj, at_⟩ := List.getElem_of_mem mem
    obtain ⟨key', bound'⟩ := fits.keysOf (List.getElem?_eq_getElem hj)
    exact other (gKey_inj bound bound' (at_.symm.trans key')).1
  have same := h.others .g (f.firstG + i) x has bound (fun e => nomatch e) fun _ r hr => by rwa [List.mem_singleton.mp hr]
  rw [key]
  exact same

/-- One value for several threads, written one after the other. -/
theorem Cx.Loaded.append {lanes : List Nat} (h : cx.Loaded s t f (lanes.map fun l => (l, v))) (k : cx.Loaded t u f [(l, v)]) (fits : f.FitsG)
    (has : cx.kind.has .g = true) : cx.Loaded s u f ((lanes ++ [l]).map fun l => (l, v)) where
  written r hr i key at_ := by
    obtain ⟨x, hx, rfl⟩ := List.mem_map.mp hr
    by_cases own : x = l
    · subst own
      exact k.written _ (List.mem_singleton_self _) i key at_
    · have earlier : x ∈ lanes := by simpa [own] using hx
      rw [fits.1, fits.cell_other k has own at_, ← fits.1]
      exact h.written _ (List.mem_map_of_mem earlier) i key at_
  others c m x hc hm hx ho := by
    have apart : ∀ y ∈ lanes ++ [l], c = f.cls → regKey c m x ∉ f.keysOf y := fun y hy e => ho e (y, v) (List.mem_map_of_mem hy)
    refine (k.others c m x hc hm hx fun e r hr => ?_).trans (h.others c m x hc hm hx fun e r hr => ?_)
    · rw [List.mem_singleton.mp hr]
      exact apart l (by simp) e
    · obtain ⟨y, hy, rfl⟩ := List.mem_map.mp hr
      exact apart y (by simp [hy]) e
  preds m i := (k.preds m i).trans (h.preds m i)

theorem Cx.Loaded.first {vals : List (Nat × Nat)} (h : cx.Loaded s t f []) (k : cx.Loaded t u f vals) : cx.Loaded s u f vals :=
  ⟨k.written, fun c m l hc hm hl ho => (k.others c m l hc hm hl ho).trans (h.others c m l hc hm hl fun _ _ hr => nomatch hr),
    fun m i => (k.preds m i).trans (h.preds m i)⟩

theorem Cx.RegsSame.loaded_nil (h : cx.RegsSame s t) (f : LoadForm) : cx.Loaded s t f [] :=
  ⟨(fun _ hr => nomatch hr), fun _ m l hc _ _ _ => h.reg hc m l, h.pbit⟩

/-! ### One thread's or the control stream's AGGET -/

/-- The result that is to return, as it waits. -/
def aggetPending (cx : Cx) (s : State) (f : LoadForm) (l : Nat) (elt : Option (List Byte)) : Pending :=
  { id := s.nextId, ctx := cx.id, form := f, elts := [(l, elt, false)], keys := f.keysOf l }

/-- The state once the result waits. -/
def aggetAwaited (cx : Cx) (s : State) (f : LoadForm) (l : Nat) : State :=
  { s with pending := (killKeys s cx.id (f.keysOf l)).pending ++ [aggetPending cx s f l none], nextId := s.nextId + 1 }

theorem pendResult_agget (hv : f.cls ≠ .v) : cx.pendResult s d f [(l, none, false)] =
    (cx.finish (aggetAwaited cx s f l) d [l] fun _ => { val := .bad, pend := some s.nextId }, s.nextId) := by
  have class_ : (f.cls == .v) = false := by simpa using hv
  simp only [Cx.pendResult, fresh, class_, Bool.false_eq_true, if_false, List.flatMap_cons, List.flatMap_nil, List.append_nil, List.map_cons, List.map_nil]
  rfl

/-- What is in flight keeps the numbers below the next one. -/
theorem aggetAwaited_find (numbered : Numbered s) (cx : Cx) (f : LoadForm) (l : Nat) :
    (aggetAwaited cx s f l).pending.find? (·.id == s.nextId) = some (aggetPending cx s f l none) := by
  have none_ : (killKeys s cx.id (f.keysOf l)).pending.find? (·.id == s.nextId) = none := by
    simp only [killKeys, List.find?_eq_none, List.forall_mem_map]
    intro q hq
    have := numbered q hq
    split <;> simp <;> omega
  simp [aggetAwaited, List.find?_append, none_, aggetPending]

theorem aggetAwaited_numbered (numbered : Numbered s) (cx : Cx) (f : LoadForm) (l : Nat) : Numbered (aggetAwaited cx s f l) := by
  intro q hq
  obtain hq | hq := List.mem_append.mp hq
  · obtain ⟨p, hp, rfl⟩ := List.mem_map.mp hq
    have := numbered p hp
    simp only [aggetAwaited]
    split <;> simp <;> omega
  · rw [List.mem_singleton.mp hq]
    simp [aggetPending, aggetAwaited]

/-- A form that AGGET's decoding has allowed: a pair of a thread's registers, or a control stream's s register. -/
structure Cx.AggetForm (cx : Cx) (f : LoadForm) : Prop where
  wid : f.wid = 8
  sext : f.sext = false
  has : cx.kind.has f.cls = true
  cls : f.cls = cx.scalarCls
  low : f.dreg < 32

namespace Cx.AggetForm

variable (h : cx.AggetForm f)
include h

theorem fits (hT : cx.isT = true) : f.FitsG := ⟨by simp [h.cls, Cx.scalarCls, hT], .inr ⟨h.wid, h.low⟩⟩

theorem not_v : f.cls ≠ .v := by
  rw [h.cls, Cx.scalarCls]
  split <;> decide

/-- A value of 64 bits is put where the form says. -/
theorem put_loaded (placed : cx.Placed s) (a : W64) : cx.Loaded s (cx.put s f (f.held [(l, a.toNat)])) f [(l, a.toNat)] := by
  have whole : f.held [(l, a.toNat)] = [(l, a.toNat)] := by
    simp only [LoadForm.held, h.wid, List.map_cons, List.map_nil]
    rw [Nat.mod_eq_of_lt (a.isLt.trans_le (by norm_num))]
  have single : Single [(l, a.toNat)] := fun x hx y hy _ => by rw [List.mem_singleton.mp hx, List.mem_singleton.mp hy]
  rw [whole]
  cases hT : cx.isT with
  | true => exact (Cx.put_loaded_g placed (by simpa [Cx.isT] using hT) (h.fits hT) single).1
  | false =>
    have cls : f.cls = .s := by simp [h.cls, Cx.scalarCls, hT]
    have writes := (Cx.put_writes placed (cls ▸ h.has) f cls (by simp [h.wid]) (h.low.trans (by decide)) [(l, a.toNat)] single
      (fun _ x hx y hy => by rw [List.mem_singleton.mp hx, List.mem_singleton.mp hy]) (fun e => nomatch e)).1
    exact writes.loaded_s cls h.wid (List.cons_ne_nil _ _)

end Cx.AggetForm

/-- What a core is ready for: its queue is empty, no fetch is held, results are numbered below the next. -/
structure Cx.Ready (cx : Cx) (s : State) (c : Nat) : Prop where
  placed : cx.Placed s
  idle : (coreOf s c).mq = []
  held : noneHeld s c
  numbered : Numbered s

theorem Cx.Ready.sums_popped (own : e.op.quick = true) (idle : (coreOf s c).mq = []) (held : noneHeld s c) :
    let t := popMq (appendMq s c e) c e.slot
    SameSeats s t ∧ noneHeld t c ∧ (coreOf t c).mq = [] ∧ (coreOf t c).sums = (coreOf s c).sums ∧ t.pending = s.pending ∧ t.nextId = s.nextId := by
  have only : (coreOf (appendMq s c e) c).mq = [e] := by simp [appendMq, idle]
  obtain ⟨seats, still, core, pending, next⟩ := popMq_only (by simpa [noneHeld, appendMq] using held) only (MqOp.quick_isTrel own)
  have sums := congrArg Core.sums core
  exact ⟨(appendMq_seats s c e).trans seats, still, congrArg Core.mq core, by simpa [Core.sums, appendMq] using sums, pending, next⟩

/-- The entry of an AGGET is reached at once: all that is left is the return of its result. -/
theorem agget_reached (form : cx.AggetForm f) (hid : cx.id = .blk c sl) (goes : (fallNext cx.line cx.pc d.len).2 = false) (ready : cx.Ready s c)
    {k : Nat} (op : e.op = .agget k s.nextId n) :
    ∃ t, placeEntry (cx.pendResult s d f [(l, none, false)]).1 c e = returnResult t (aggetPending cx s f l (some (valBytes 8 (agAt s c k)))) ∧
      cx.Course s t ∧ (coreOf t c).sums = (coreOf s c).sums ∧ cx.Ready t c := by
  obtain ⟨placed, idle, held, numbered⟩ := ready
  rw [pendResult_agget form.not_v]
  have awaited : SameSeats s (aggetAwaited cx s f l) := ⟨fun _ _ => rfl, fun _ => rfl, fun _ => rfl, rfl⟩
  have numbered1 := aggetAwaited_numbered numbered cx f l
  have found := aggetAwaited_find numbered cx f l
  have core1 : coreOf (aggetAwaited cx s f l) c = coreOf s c := rfl
  generalize aggetAwaited cx s f l = t1 at *
  have keeps := (cx.finish_keeps t1 d [l] (fun _ => { val := .bad, pend := some s.nextId }) goes).2
  have course1 := (Cx.Course.of_seats cx awaited).trans (.finish goes t1 [l] fun _ => { val := .bad, pend := some s.nextId })
  have pending2 := Cx.finish_pending (s := t1) goes [l] fun _ => { val := .bad, pend := some s.nextId }
  generalize cx.finish t1 d [l] (fun _ => { val := .bad, pend := some s.nextId }) = t2 at *
  have next2 : t2.nextId = t1.nextId := by have eq := congrArg State.nextId keeps.package; exact eq
  have idle2 : (coreOf t2 c).mq = [] := (keeps.core c (·.mq) fun _ _ _ => rfl).trans (core1 ▸ idle)
  have held2 : noneHeld t2 c := by rw [noneHeld, keeps.core c (·.tfq) fun _ _ _ => rfl, core1]; exact held
  have sums2 : (coreOf t2 c).sums = (coreOf s c).sums := (keeps.core c Core.sums fun _ _ _ => rfl).trans (by rw [core1])
  have own : e.op.quick = true := by rw [op]; rfl
  obtain ⟨seats, held3, idle3, sums3, pending3, next3⟩ := Cx.Ready.sums_popped own idle2 held2
  have run : runHead (appendMq t2 c e) c e.slot = some (runAgget (appendMq t2 c e) c e k s.nextId) := by simp only [runHead, runHead_append idle2 own, op]
  have back : runAgget (appendMq t2 c e) c e k s.nextId =
      returnResult (popMq (appendMq t2 c e) c e.slot) (aggetPending cx s f l (some (valBytes 8 (agAt s c k)))) := by
    have value := congrArg (fun x => Store.get x.2 k) (sums3.trans sums2)
    simp only [Core.sums] at value
    simp only [runAgget, pending3, pending2, found, value]
    rfl
  have after := returnResult_inBlocks (p := aggetPending cx s f l (some (valBytes 8 (agAt s c k)))) hid (popMq (appendMq t2 c e) c e.slot)
  refine ⟨popMq (appendMq t2 c e) c e.slot, ?_, course1.trans (.of_seats cx seats), sums3.trans sums2,
    (course1.trans (.of_seats cx seats)).aside.placed placed, idle3, held3, ?_⟩
  · rw [← back] at after ⊢
    exact placeEntry_quick idle2 own run ((after.core c (·.mq) fun _ _ => rfl).trans idle3)
  · rw [Numbered, pending3, next3, pending2, next2]
    exact numbered1

/-- An AGGET placed in an empty queue: its result has returned (R227). -/
theorem agget_returns (form : cx.AggetForm f) (hid : cx.id = .blk c sl) (goes : (fallNext cx.line cx.pc d.len).2 = false) (ready : cx.Ready s c)
    {k : Nat} (op : e.op = .agget k s.nextId n) :
    let t := placeEntry (cx.pendResult s d f [(l, none, false)]).1 c e
    cx.Loaded s t f [(l, agAt s c k)] ∧ cx.Only s t ∧ t.mem = s.mem ∧ (coreOf t c).sums = (coreOf s c).sums ∧ cx.Ready t c := by
  intro u
  obtain ⟨t, run, course, sums, placed, idle, held, numbered⟩ := agget_reached (l := l) form hid goes ready op
  have awaits : cx.Awaits (aggetPending cx s f l (some (valBytes 8 (agAt s c k)))) [(l, agAt s c k)] :=
    ⟨rfl, form.sext, by simp [aggetPending, form.wid], fun r hr key hk => by rwa [List.mem_singleton.mp hr] at hk, fun h => nomatch h⟩
  obtain ⟨t', aside, returned⟩ := returnResult_returned awaits placed form.has fun _ => ⟨form.wid, by simp⟩
  have blocks := returnResult_inBlocks (p := aggetPending cx s f l (some (valBytes 8 (agAt s c k)))) hid t
  rw [← run] at returned blocks
  have loaded := ((form.put_loaded (l := l) (aside.placed placed) (Store.get (coreOf s c).ag k)).sameFile form.has returned.file).after
    (course.aside.regs.trans aside.regs)
  have only : cx.Only t u := ⟨fun d sm other => (returned.blocks d sm other).trans (aside.blocks d sm other),
    fun d _ => blocks.core d (·.sup) fun _ _ => rfl, fun n _ => congrArg (fun y => (Table.getD y n {} : SysCore).ctl) blocks.sys⟩
  refine ⟨loaded, course.only.trans only, returned.mem.trans (aside.mem.trans course.mem_eq), (blocks.core c Core.sums fun _ _ => rfl).trans sums, ?_,
    (blocks.core c (·.mq) fun _ _ => rfl).trans idle, ?_, ?_⟩
  · exact blocks.placed ⟨placed.block, placed.sup, placed.sys⟩
  · intro x hx
    rw [show (coreOf u c).tfq = (coreOf t c).tfq from blocks.core c (·.tfq) fun _ _ => rfl] at hx
    exact held x hx
  · intro q hq
    rw [show u.pending = _ from blocks.pending] at hq
    rw [show u.nextId = t.nextId from blocks.nextId]
    exact numbered q (List.mem_filter.mp hq).1

/-- AGGETs of one register, each in an empty queue. -/
theorem aggets_return (form : cx.AggetForm f) (hid : cx.id = .blk c sl) (goes : (fallNext cx.line cx.pc d.len).2 = false) {k : Nat} {lanes done : List Nat}
    (single : cx.isT = false → (done ++ lanes).length ≤ 1) (ready : cx.Ready t c) (sums : (coreOf t c).sums = (coreOf s c).sums)
    (loaded : cx.Loaded s t f (done.map fun l => (l, agAt s c k))) (only : cx.Only s t) (mem : t.mem = s.mem) :
    let u := lanes.foldl (fun t l => if queueLen t c ≥ 16 then cx.wait t (cx.whoOf [l]) 10 else
      let e := cx.entry t l
      let r := cx.pendResult t d f [(l, none, false)]
      placeEntry r.1 c (e (.agget k r.2 n))) t
    cx.Loaded s u f ((done ++ lanes).map fun l => (l, agAt s c k)) ∧ cx.Only s u ∧ u.mem = s.mem ∧ (coreOf u c).sums = (coreOf s c).sums := by
  induction lanes generalizing t done with
  | nil => exact ⟨by simpa using loaded, only, mem, sums⟩
  | cons l r ih =>
    have room : ¬queueLen t c ≥ 16 := by simp [queueLen, ready.idle]
    obtain ⟨loaded', only', mem', sums', ready'⟩ := agget_returns (l := l) (e := cx.entry t l (.agget k t.nextId n)) form hid goes ready rfl
    have same : agAt t c k = agAt s c k := congrArg (fun x : Store 64 × Store 64 => (Store.get x.2 k).toNat) sums
    rw [same] at loaded'
    have number : (cx.pendResult t d f [(l, none, false)]).2 = t.nextId := by rw [pendResult_agget form.not_v]
    rw [List.foldl_cons, if_neg room]
    simp only [number]
    have next : cx.Loaded s (placeEntry (cx.pendResult t d f [(l, none, false)]).1 c (cx.entry t l (.agget k t.nextId n))) f
        ((done ++ [l]).map fun l => (l, agAt s c k)) := by
      cases hT : cx.isT with
      | true =>
        have fits := form.fits hT
        exact loaded.append loaded' fits (fits.1 ▸ form.has)
      | false =>
        obtain rfl : done = [] := List.eq_nil_iff_length_eq_zero.mpr (by have := single hT; simp at this; omega)
        exact loaded.first loaded'
    have all := ih (done := done ++ [l]) (by simpa using single) ready' (sums'.trans sums) next (only.trans only') (mem'.trans mem)
    simpa using all

/-- AGGET at an empty queue returns its register to each lane and leaves accumulators and agreement registers alone. -/
theorem agget_loads {o : KOp} {rs : List (Nat × List Nat)} (h : Enters s cx (aggetDec cx o) rs) (acting : rs ≠ []) (numbered : Numbered s)
    (idle : (coreOf s cx.core).mq = []) (held : noneHeld s cx.core) :
    let f : LoadForm := { cls := cx.scalarCls, wid := 8, sext := false, dreg := o.p.dreg.toNat, nwb := o.p.nwb }
    ∃ t, exec (.agget o) s = .next t ∧ cx.Loaded s t f (rs.map fun r => (r.1, agAt s cx.core o.p.srcA.toNat)) ∧ cx.Only s t ∧ t.mem = s.mem ∧
      (coreOf t cx.core).sums = (coreOf s cx.core).sums := by
  intro f
  obtain ⟨c, sl, b, hid, hb, rfl, place⟩ := h.tvs_block tvs_none
  obtain ⟨s', run, begun⟩ := Cx.start_begun h acting hb
  obtain ⟨valid, -, dreg, -⟩ := Cx.decodeTrap_none h.legal
  have low : o.p.dreg.toNat < 32 := by
    simp only [aggetDec, Cx.rcScalar] at dreg
    cases hT : cx.isT <;> simp only [hT, Cx.regOk, Bool.false_eq_true, if_false, if_true] at dreg <;> split at dreg <;> simp at dreg <;> omega
  have form : cx.AggetForm f := ⟨rfl, rfl, by obtain e | e | e := tvs_none valid <;> simp [f, Cx.scalarCls, Cx.isT, e, Kind.has], rfl, low⟩
  have keeps := begun.issued.keeps
  have ready : cx.Ready s' cx.core := by
    refine ⟨begun.course.aside.placed (cxOf_placed h.here), (begun.issued.mq _).trans idle, ?_, ?_⟩
    · rw [noneHeld, keeps.core cx.core (·.tfq) fun _ _ _ => rfl]
      exact held
    · rw [Numbered, begun.pending, show s'.nextId = s.nextId by have eq := congrArg State.nextId keeps.package; exact eq]
      exact numbered
  have single : cx.isT = false → ([] ++ rs.map Prod.fst).length ≤ 1 := fun control => by
    have lanes := congrArg List.length h.reads
    simp only [List.length_map, Cx.lanes, control, aggetDec, Bool.false_eq_true, if_false] at lanes
    have := List.length_filter_le (fun l => cx.pbit s o.p.grd.toNat l) [0]
    simp only [List.nil_append, List.length_map]
    simp at this
    omega
  obtain ⟨loaded, only, mem, sums⟩ := aggets_return (n := o.p.dreg.toNat) (k := o.p.srcA.toNat) (s := s) (done := []) form hid h.goes single ready
    (keeps.core _ Core.sums fun _ _ _ => rfl) (begun.issued.regs.loaded_nil f) begun.course.only begun.course.mem_eq
  refine ⟨_, (withCx_here h.here _).trans (congrArg _ (run _)), ?_⟩
  rw [List.foldl_map] at loaded only mem sums
  simp only [place]
  simp only [List.nil_append, List.map_map] at loaded
  exact ⟨loaded, only, mem, sums⟩

end Sys2Proof.Machine
end

section
namespace Sys2Proof.Machine

open Sys2Proof.Claims (localByte rowFits)

variable {s t : State} {cx : Cx} {d : Dec} {rs : List (Nat × List Nat)}

/-- A course leaves the local bytes alone. -/
theorem Cx.Course.localByte_eq (h : cx.Course s t) {c sl : Nat} {b : Block} (hid : cx.id = .blk c sl) (hb : cx.blk s = some b) (x : Nat) :
    localByte cx t x = localByte cx s x := by
  have own : ∀ u : State, cx.localBlk u = cx.blk u := fun u => by simp [Cx.localBlk, Cx.localSite, Cx.blk, hid]
  obtain ⟨b', hb', -, -⟩ := h.shape b hb
  have mem : b'.mem = b.mem := by simpa [Cx.mem, hb, hb'] using h.aside.regs.mem
  simp [localByte, own, hb, hb', mem]

/-- What an instruction whose rows are placed does (R209, R226, R228). -/
theorem rows_settled {instr : Instr} {al n : Nat} {store : Bool} {maskGood : State → Bool} {op : Nat → Nat → MqOp}
    (enters : Enters s cx d rs) (run : exec instr s = .next (cx.rows s d al n store maskGood op)) (valid : d.valid = tvs) (acting : rs ≠ [])
    (few : rs.length ≤ 16) (idle : (coreOf s cx.core).mq = []) (waiting : cx.placedHere s = 0) (fits : ∀ r ∈ rs, rowFits cx s al n store (aOf r.2))
    (mask : ∀ t, cx.Begun s t → maskGood t = true) (waits : ∀ a r, (op a r).waits = true) :
    ∃ t, exec instr s = .next t ∧
      (coreOf t cx.core).mq.map (fun e => (e.slot, e.who, e.op)) = rs.map (fun r => (cx.place.2, r.1, op (aOf r.2) (bOf r.2 % 32))) ∧
      (∀ r ∈ rs, cx.pcOf t (if cx.isT then r.1 else 0) = cx.next d) ∧ (coreOf t cx.core).acc = (coreOf s cx.core).acc ∧
      cx.SameRegs s t ∧ cx.Only s t ∧ t.mem = s.mem ∧ ∀ x, localByte cx t x = localByte cx s x := by
  obtain ⟨queue, stands, acc, course⟩ := Cx.rows_places enters valid acting few idle waiting fits mask waits
  obtain ⟨c, sl, b, hid, hb, -, -⟩ := enters.tvs_block fun v => tvs_none (valid ▸ v)
  rw [List.map_map] at queue
  exact ⟨_, run, queue, fun r hr => stands _ (List.mem_map_of_mem hr), acc, course.sameRegs, course.only, course.mem_eq, course.localByte_eq hid hb⟩

/-- DRN places its rows with the width of an element of its format (R228). -/
theorem drn_run {o : POp} (h : cxOf s = some cx) :
    exec (.drn o) s = .next (cx.rows s (drnDec cx o) (if bits (p1Of o) 21 18 = 0 ∨ bits (p1Of o) 21 18 = 3 then 4 else 2)
      (if bits (p1Of o) 21 18 = 0 ∨ bits (p1Of o) 21 18 = 3 then 128 else 64) true
      (fun u => decide (bits (p1Of o) 31 29 < 4) || cx.pairOk u (bits (p1Of o) 28 26)) fun a r => .drn o.param a r) := by
  have width : (if bits (p1Of o) 21 18 == 0 || bits (p1Of o) 21 18 == 3 then 4 else 2) = if bits (p1Of o) 21 18 = 0 ∨ bits (p1Of o) 21 18 = 3 then 4 else 2 := by
    simp
  have bytes : 32 * (if bits (p1Of o) 21 18 = 0 ∨ bits (p1Of o) 21 18 = 3 then 4 else 2) =
      if bits (p1Of o) 21 18 = 0 ∨ bits (p1Of o) 21 18 = 3 then 128 else 64 := by
    split <;> rfl
  rw [← bytes, ← width]
  exact withCx_here h _

end Sys2Proof.Machine

open Sys2Proof Sys2Proof.Machine Sys2Proof.Claims in
/-- Settles O34: AZERO, AGSET and AGGET run at once in an empty queue (`azero_zeroes`, `agset_writes`, `agget_loads`); rows and operations are placed
there in order (`Cx.rows_places`, `Cx.mma_places`). -/
theorem matrixQueue : Obligations.MatrixQueue := by
  refine ⟨?_, ?_, ?_, ?_, ?_⟩
  · intro o s cx rs n slots pair enters acting idle waiting held mask
    obtain ⟨t, run, course, acc, ag⟩ := azero_zeroes enters acting idle waiting held mask
    refine ⟨t, run, fun j _ i hi k hk => ?_, fun m other => ?_, fun i hi => ?_, course.sameRegs, course.only, course.mem_eq⟩
    · have slot : accKey j i k / 1024 = j := by rw [accKey]; omega
      refine (congrArg BitVec.toNat (acc (accKey j i k))).trans ?_
      rw [slot]
      exact apply_ite BitVec.toNat ..
    · exact congrArg BitVec.toNat ((ag m).trans (if_neg other))
    · refine (congrArg (fun x : W64 => bit x.toNat i) ((ag pair).trans (if_pos rfl))).trans ?_
      exact and_agKept_bit _ hi
  · intro o s cx rs n enters acting idle waiting held pair
    obtain ⟨t, run, course, acc, ag⟩ := agset_writes enters acting idle waiting held pair
    have written : agAt t cx.core n = (agWith (Store.get (coreOf s cx.core).ag n) (bits o.param.toNat 15 0) (bits o.param.toNat 23 16)).toNat :=
      congrArg BitVec.toNat ((ag n).trans (if_pos rfl))
    obtain ⟨thr, ref, zcnt, flags⟩ := agWith_fields (Store.get (coreOf s cx.core).ag n) (thr := bits o.param.toNat 15 0) (ref := bits o.param.toNat 23 16)
      (Nat.mod_lt _ (by decide)) (Nat.mod_lt _ (by decide))
    rw [← written] at thr ref zcnt flags
    refine ⟨t, run, thr.trans (by simp [bits]), ref, zcnt, flags, fun m other => congrArg BitVec.toNat ((ag m).trans (if_neg other)), acc, course.sameRegs, course.only,
      course.mem_eq⟩
  · intro o s cx rs f enters acting numbered idle held
    obtain ⟨t, run, loaded, only, mem, sums⟩ := agget_loads enters acting numbered idle held
    exact ⟨t, run, loaded, congrArg Prod.snd sums, congrArg Prod.fst sums, only, mem⟩
  · intro kind o s cx rs
    match kind with
    | 0 =>
      intro p1 enters acting few idle waiting fits mask _
      exact rows_settled (op := fun a r => .ald (bits p1 31 29) a r) enters (withCx_here enters.here _) rfl acting few idle waiting fits
        (fun t begun => (begun.issued.maskOk_eq ..).trans (mask rfl)) fun _ _ => rfl
    | 1 =>
      intro p1 enters acting few idle waiting fits _ _
      exact rows_settled (op := fun a r => .ast (bits p1 31 29) a r) enters (withCx_here enters.here _) rfl acting few idle waiting fits
        (fun _ _ => rfl) fun _ _ => rfl
    | 2 =>
      intro p1 enters acting few idle waiting fits _ pair
      refine rows_settled (store := true) (op := fun a r => .drn o.param a r) enters (drn_run enters.here) rfl acting few idle waiting (fun r hr => ?_)
        (fun t begun => ?_) fun _ _ => rfl
      · exact fits r hr
      · have paired : 4 ≤ bits p1 31 29 → cx.pairOk t (bits p1 28 26) = true := fun high => (begun.issued.pairOk_eq ..).trans (pair rfl high)
        rw [Bool.or_eq_true, decide_eq_true_eq]
        exact (Nat.lt_or_ge (bits p1 31 29) 4).imp_right paired
  · intro split o s cx r p1 enters vector idle waiting mask word ok
    obtain ⟨queue, stands, acc, course⟩ := Cx.mma_places enters vector idle waiting mask word ok
    refine ⟨cx.mma s o split, ?_, ?_, ?_, acc, course.sameRegs, course.only, course.mem_eq⟩
    · cases split <;> exact withCx_here enters.here _
    · have both := congrArg (List.map fun x : Nat × Nat × MqOp => (x.1, x.2.2)) queue
      simpa [Function.comp_def] using both
    · simpa using stands _ (List.mem_singleton_self _)
end

/-! ## Tile slots and tile fetches (R211 to R216) -/
section
namespace Sys2Proof.Machine

variable {s t u : State} {cx : Cx} {c sl l k : Nat} {o : POp} {f : TileFetch}

/-! ### A slot's pins (R216, R283) -/

/-- The slices alone change. -/
theorem SameSeats.slices (s : State) (x : Table Slice) : SameSeats s { s with slices := x } := ⟨fun _ _ => rfl, fun _ => rfl, fun _ => rfl, rfl⟩

theorem unpinLines_eq (pins : List (Nat × Option Nat)) (s : State) : ∃ x, pins.foldl (fun s p => unpinLine s p.1 p.2) s = { s with slices := x } := by
  induction pins generalizing s with
  | nil => exact ⟨s.slices, rfl⟩
  | cons p r ih => exact ih (unpinLine s p.1 p.2)

/-- The pins of a slot are given up: in the slices, and in the slot. -/
theorem releasePins_eq (s : State) (c k : Nat) : ∃ x, releasePins s c k = modTile { s with slices := x } c k fun t => { t with pins := [] } := by
  obtain ⟨x, eq⟩ := unpinLines_eq (tileOf s c k).pins s
  refine ⟨x, ?_⟩
  unfold releasePins
  extract_lets t u
  have same : u = { s with slices := x } := eq
  rw [same]
  rfl

theorem modTile_seats (s : State) (c k : Nat) (f : Tile → Tile) : SameSeats s (modTile s c k f) := .modCore s c _ (fun _ => rfl) fun _ => rfl

theorem releasePins_seats (s : State) (c k : Nat) : SameSeats s (releasePins s c k) := by
  obtain ⟨x, eq⟩ := releasePins_eq s c k
  rw [eq]
  exact (SameSeats.slices s x).trans (modTile_seats ..)

@[simp] theorem tileOf_modTile_self (s : State) (c k : Nat) (f : Tile → Tile) : tileOf (modTile s c k f) c k = f (tileOf s c k) := by
  simp [tileOf, modTile]

theorem tileOf_modTile_ne (s : State) (c : Nat) (f : Tile → Tile) {k j : Nat} (h : k ≠ j) : tileOf (modTile s c k f) c j = tileOf s c j := by
  simp [tileOf, modTile, Table.getD_set_ne _ _ _ h]

theorem tileOf_modBlock (s : State) (d sm : Nat) (f : Block → Block) (c k : Nat) : tileOf (modBlock s d sm f) c k = tileOf s c k := by
  rw [tileOf, modBlock_core (·.tiles) (fun _ _ => rfl) s d sm f c]
  rfl

theorem tileOf_releasePins (s : State) (c k j : Nat) :
    tileOf (releasePins s c k) c j = if j = k then { tileOf s c k with pins := [] } else tileOf s c j := by
  obtain ⟨x, eq⟩ := releasePins_eq s c k
  rw [eq]
  by_cases same : j = k
  · subst same
    rw [if_pos rfl, tileOf_modTile_self]
    rfl
  · rw [if_neg same, tileOf_modTile_ne _ _ _ (Ne.symm same)]
    rfl

theorem modTile_tfq (s : State) (c k : Nat) (f : Tile → Tile) : (coreOf (modTile s c k f) c).tfq = (coreOf s c).tfq := by simp [modTile]
theorem modTile_mq (s : State) (c k : Nat) (f : Tile → Tile) : (coreOf (modTile s c k f) c).mq = (coreOf s c).mq := by simp [modTile]
theorem releasePins_tfq (s : State) (c k : Nat) : (coreOf (releasePins s c k) c).tfq = (coreOf s c).tfq := by
  obtain ⟨x, eq⟩ := releasePins_eq s c k
  rw [eq, modTile_tfq]
  rfl
theorem releasePins_mq (s : State) (c k : Nat) : (coreOf (releasePins s c k) c).mq = (coreOf s c).mq := by
  obtain ⟨x, eq⟩ := releasePins_eq s c k
  rw [eq, modTile_mq]
  rfl

/-! ### The unit starts fetches (R212) -/

/-- What a queued fetch has been asked for. -/
def TileFetch.asked (f : TileFetch) : Nat × Nat × List Nat × Option Nat × Option (BitVec 6) :=
  (f.who, f.k, f.lines.map (·.1), f.scale.map (·.1), f.mask)

/-- The fetches that wait to be started are the block's own. -/
def OwnWaiting (c sl : Nat) (s : State) : Prop := ∀ x ∈ (coreOf s c).tfq, x.started = false → x.slot = sl

/-- From `s` to `t` fetches of the stream's block have been started: what each was asked for stays, and where the streams stand. -/
structure Cx.Starts (cx : Cx) (c sl : Nat) (s t : State) : Prop where
  course : cx.Course s t
  stands : ∀ l, cx.pcOf t l = cx.pcOf s l
  asked : (coreOf t c).tfq.map (·.asked) = (coreOf s c).tfq.map (·.asked)
  own : OwnWaiting c sl s → OwnWaiting c sl t

namespace Cx.Starts

theorem refl (cx : Cx) (c sl : Nat) (s : State) : cx.Starts c sl s s := ⟨.refl cx s, fun _ => rfl, rfl, fun own => own⟩
theorem trans (h : cx.Starts c sl s t) (k : cx.Starts c sl t u) : cx.Starts c sl s u :=
  ⟨h.course.trans k.course, fun l => (k.stands l).trans (h.stands l), k.asked.trans h.asked, fun own => k.own (h.own own)⟩

/-- Blocks and fetches stay as they are. -/
theorem of_seats (h : SameSeats s t) (tfq : (coreOf t c).tfq = (coreOf s c).tfq) : cx.Starts c sl s t :=
  ⟨.of_seats cx h, h.pcOf_eq cx, by rw [tfq], fun own => by rwa [OwnWaiting, tfq]⟩

end Cx.Starts

/-- What a block has staged shows nowhere in its streams. -/
theorem Cx.Course.modStage (hid : cx.id = .blk c sl) (s : State) (f : Stage → Stage) : cx.Course s (Machine.modBlock s c sl fun b => b.modStage f) :=
  Cx.Course.modBlock hid s _ (fun _ => rfl) (fun _ => rfl) (fun _ => rfl) (fun _ => rfl) fun _ => rfl

theorem Cx.pcOf_modStage (hid : cx.id = .blk c sl) (s : State) (f : Stage → Stage) (l : Nat) :
    cx.pcOf (modBlock s c sl fun b => b.modStage f) l = cx.pcOf s l := by
  simp only [Cx.pcOf, hid, blockOf_modBlock_self, Option.map_map]
  rfl

theorem Cx.Starts.modStage (hid : cx.id = .blk c sl) (s : State) (f : Stage → Stage) : cx.Starts c sl s (modBlock s c sl fun b => b.modStage f) := by
  have tfq := modBlock_core (·.tfq) (fun _ _ => rfl) s c sl (fun b => b.modStage f) c
  exact ⟨Cx.Course.modStage hid s f, Cx.pcOf_modStage hid s f, by rw [tfq], fun own => by rwa [OwnWaiting, tfq]⟩

/-- A fetch of the queue is marked as started. -/
theorem markStarted_starts {g : TileFetch} (same : g.asked = f.asked) (started : g.started = true) (s : State) :
    cx.Starts c sl s (modCore s c fun k => { k with tfq := k.tfq.map fun x => if x == f then g else x }) := by
  have seats := SameSeats.modCore s c (fun k => { k with tfq := k.tfq.map fun x => if x == f then g else x }) (fun _ => rfl) fun _ => rfl
  refine ⟨.of_seats cx seats, seats.pcOf_eq cx, ?_, fun waiting x hx idle => ?_⟩
  · rw [coreOf_modCore_self, List.map_map]
    refine List.map_congr_left fun x _ => ?_
    by_cases own : x = f <;> simp [own, same]
  · rw [coreOf_modCore_self] at hx
    obtain ⟨y, hy, rfl⟩ := List.mem_map.mp hx
    by_cases own : y = f
    · simp [own, started] at idle
    · simp only [beq_iff_eq, own, if_false] at idle ⊢
      exact waiting y hy idle

/-- A fetch of the block is started. -/
theorem startFetch_starts (hid : cx.id = .blk c sl) (s : State) (own : f.slot = sl) : cx.Starts c sl s (startFetch s c f) := by
  subst own
  have released : cx.Starts c f.slot s (modTile (releasePins s c f.k) c f.k fun t => { t with fill := .filling }) :=
    .of_seats ((releasePins_seats s c f.k).trans (modTile_seats ..)) (by rw [modTile_tfq, releasePins_tfq])
  exact (released.trans (.modStage hid _ _)).trans (markStarted_starts (f := f) (g := f.begin s c) rfl rfl _)

theorem startFetches_starts (hid : cx.id = .blk c sl) (s : State) (own : OwnWaiting c sl s) : cx.Starts c sl s (startFetches s c) := by
  have go : ∀ (l : List TileFetch), (∀ x ∈ l, x.started = false → x.slot = sl) → ∀ s busy, cx.Starts c sl s (startFetches.go c s busy l) := by
    intro l
    induction l with
    | nil => exact fun _ s _ => .refl cx c sl s
    | cons f r ih =>
      intro waiting s busy
      have later := ih fun x hx => waiting x (List.mem_cons_of_mem _ hx)
      rw [startFetches.go]
      split
      · exact later ..
      next idle =>
        split
        · exact .refl cx c sl s
        · exact (startFetch_starts hid s (waiting f (by simp) (by simpa using idle))).trans (later ..)
  exact go _ own s []

/-! ### A fetch joins the queue (R212) -/

/-- What TFETCH asks for a lane, by its lines. -/
def tfAsked (o : POp) (lane : Nat) (lines : List (Nat × Nat)) : Nat × Nat × List Nat × Option Nat × Option (BitVec 6) :=
  (lane, tfSlot o, (lines.take 32).map (·.1), ((lines.drop 32).head?).map (·.1), if tfMc o then some (BitVec.ofNat 6 (tfMask o)) else none)

/-- From `s` to `t` fetches have joined the queue, and some of the block's been started. -/
structure Cx.Asks (cx : Cx) (c sl : Nat) (s t : State) (new : List (Nat × Nat × List Nat × Option Nat × Option (BitVec 6))) : Prop where
  course : cx.Course s t
  asked : (coreOf t c).tfq.map (·.asked) = (coreOf s c).tfq.map (·.asked) ++ new
  own : OwnWaiting c sl t

/-- The queue takes up a fetch while it holds fewer than four. -/
theorem queueFetch_room (hid : cx.id = .blk c sl) (room : (coreOf s c).tfq.length < 4) (o : POp) (l : Nat) (lines : List (Nat × Nat)) :
    ∃ u f, cx.queueFetch s o l lines = some (startFetches u c) ∧ SameSeats s u ∧ (coreOf u c).tfq = (coreOf s c).tfq ++ [f] ∧
      f.asked = tfAsked o l lines ∧ f.slot = sl := by
  have place : cx.place = (c, sl) := by simp [Cx.place, hid]
  have numbered : SameSeats s (fresh s).2 := ⟨fun _ _ => rfl, fun _ => rfl, fun _ => rfl, rfl⟩
  unfold Cx.queueFetch
  simp only [place]
  rw [if_neg (by omega)]
  exact ⟨_, _, rfl, numbered.trans (.modCore _ c _ (fun _ => rfl) fun _ => rfl), congrArg Core.tfq (coreOf_modCore_self ..), rfl, rfl⟩

theorem queueFetch_asks (hid : cx.id = .blk c sl) (own : OwnWaiting c sl s) (room : (coreOf s c).tfq.length < 4) (o : POp) (l : Nat)
    (lines : List (Nat × Nat)) :
    ∃ t, cx.queueFetch s o l lines = some t ∧ cx.Asks c sl s t [tfAsked o l lines] ∧ ∀ x, cx.pcOf t x = cx.pcOf s x := by
  obtain ⟨u, f, run, seats, tfq, asked, slot⟩ := queueFetch_room hid room o l lines
  have waiting : OwnWaiting c sl u := by
    intro x hx idle
    rw [tfq] at hx
    obtain hx | hx := List.mem_append.mp hx
    · exact own x hx idle
    · rwa [List.mem_singleton.mp hx]
  have starts := startFetches_starts hid u waiting
  refine ⟨_, run, ⟨(Cx.Course.of_seats cx seats).trans starts.course, ?_, starts.own waiting⟩, fun x => (starts.stands x).trans (seats.pcOf_eq cx x)⟩
  rw [starts.asked, tfq, List.map_append, ← asked]
  rfl

/-! ### The lines of a fetch (R212) -/

/-- The virtual addresses of the lines of a fetch. -/
def fetchVas (o : POp) (a : Nat) (x : Option Nat) : List Int :=
  ((List.range 32).map fun r => (a : Int) + (r : Nat) * (signed 16 (p1Of o) * 128)) ++ (x.map fun v => (v : Int)).toList

/-- A list of lines is for the addresses in their order. -/
theorem foldl_ok_fst {step : FetchTr → Int → FetchTr} (bad : ∀ r v l, step r v = .ok l → ∃ l0 pa, r = .ok l0 ∧ l = l0 ++ [(v.toNat, pa)])
    (vas : List Int) : ∀ {r : FetchTr} {l : List (Nat × Nat)}, vas.foldl step r = .ok l →
      ∃ l0, r = .ok l0 ∧ l.map (·.1) = l0.map (·.1) ++ vas.map Int.toNat := by
  induction vas with
  | nil => exact fun h => ⟨_, h, by simp⟩
  | cons v vs ih =>
    intro r l h
    obtain ⟨l1, mid, eq⟩ := ih h
    obtain ⟨l0, pa, rfl, rfl⟩ := bad r v l1 mid
    exact ⟨l0, rfl, by simp [eq]⟩

/-- The lines that pass lie a stride apart, the sideband last. -/
theorem fetchLines_vas {lines : List (Nat × Nat)} {a : Nat} {x : Option Nat} (h : cx.fetchLines s o a x = .ok lines) :
    lines.map (·.1) = (fetchVas o a x).map Int.toNat := by
  unfold Cx.fetchLines at h
  extract_lets stride vas span own sealOk checks at h
  split at h
  · cases h
  · obtain ⟨l0, nil, eq⟩ := foldl_ok_fst (fun r v l e => by
      cases r with
      | ok l0 =>
        simp only at e
        split at e
        · exact ⟨l0, _, rfl, (FetchTr.ok.inj e).symm⟩
        · cases e
        · cases e
      | bad f => cases e
      | miss va => cases e) vas h
    obtain rfl := FetchTr.ok.inj nil
    exact eq

theorem tfAsked_eq {lines : List (Nat × Nat)} {a : Nat} {x : Option Nat} (h : cx.fetchLines s o a x = .ok lines) (l : Nat) :
    tfAsked o l lines = (l, tfSlot o, (List.range 32).map fun i => ((a : Int) + i * (signed 16 (p1Of o) * 128)).toNat, x,
      if tfMc o then some (BitVec.ofNat 6 (tfMask o)) else none) := by
  have vas := fetchLines_vas h
  have rows : (lines.take 32).map (·.1) = (List.range 32).map fun i => ((a : Int) + i * (signed 16 (p1Of o) * 128)).toNat := by
    rw [List.map_take, vas, fetchVas, List.map_append, List.take_left' (by simp), List.map_map]
    rfl
  have scale : ((lines.drop 32).head?).map (·.1) = x := by
    rw [← List.head?_map, List.map_drop, vas, fetchVas, List.map_append, List.drop_left' (by simp)]
    cases x <;> simp
  rw [tfAsked, rows, scale]

/-- The issue changes nothing that the lines depend on. -/
theorem Cx.Issued.fetchLines_eq (h : cx.Issued s t) (hid : cx.id = .blk c sl) (o : POp) (a : Nat) (x : Option Nat) :
    cx.fetchLines t o a x = cx.fetchLines s o a x := by
  have span := h.block_map (·.fab.span) fun _ => rfl
  simp only [Cx.fetchLines, h.maskOk_eq, h.sealed, span, h.spaceOf_eq hid, h.translate_eq]

end Sys2Proof.Machine
end

/-! ## TFETCH (R211 to R213) -/
section
namespace Sys2Proof.Machine

open Sys2Proof.Claims (noneHeld)

variable {s t u : State} {cx : Cx} {d : Dec} {b : Block} {c sl l k : Nat} {o : POp} {f : TileFetch} {ls who : List Nat} {rs : List (Nat × List Nat)}
  {new more : List (Nat × Nat × List Nat × Option Nat × Option (BitVec 6))}

/-! ### The lanes' fetches in order -/

/-- A control stream stands where it stands, whichever lane is asked. -/
theorem Cx.Hosts.pcOf_control (h : cx.Hosts s ls) (control : cx.isT = false) (l m : Nat) : cx.pcOf s l = cx.pcOf s m := by
  obtain ⟨b, hb, model, -⟩ := h.block
  obtain ⟨c, sl, hid, here⟩ := Cx.blk_place hb
  have unthreaded : (b.exec.model == .threaded) = false := model.trans control
  simp only [Cx.pcOf, hid, here, Option.map_some, Block.pcOf, unthreaded, Bool.false_eq_true, if_false]

/-- A lane completes: it stands at the next instruction as those before it do. -/
theorem Cx.Hosts.finish_pcOf_lane (h : cx.Hosts s ls) (goes : (fallNext cx.line cx.pc d.len).2 = false) {x : Nat} (hx : x ∈ ls) {done : List Nat}
    (stand : ∀ l ∈ done, cx.pcOf s l = cx.next d) (entry : Nat → Latch) :
    ∀ l ∈ done ++ [x], cx.pcOf (cx.finish s d (cx.whoOf [x]) entry) l = cx.next d := by
  cases hT : cx.isT with
  | true => simpa [Cx.whoOf, hT] using h.finish_pcOf_cons goes hT hx stand entry
  | false =>
    intro l _
    have after := (Cx.Course.finish goes s (cx.whoOf [x]) entry).hosts h
    rw [after.pcOf_control hT l 0]
    exact h.finish_pcOf goes (fun threaded => by simp [hT] at threaded) (by simp [Cx.whoOf, hT]) entry

namespace Cx.Asks

theorem refl (own : OwnWaiting c sl s) : cx.Asks c sl s s [] := ⟨.refl cx s, by simp, own⟩

theorem trans (h : cx.Asks c sl s t new) (k : cx.Asks c sl t u more) : cx.Asks c sl s u (new ++ more) :=
  ⟨h.course.trans k.course, by rw [k.asked, h.asked, List.append_assoc], k.own⟩

theorem finish (h : cx.Asks c sl s t new) (goes : (fallNext cx.line cx.pc d.len).2 = false) (who : List Nat) (entry : Nat → Latch) :
    cx.Asks c sl s (cx.finish t d who entry) new := by
  have tfq := (cx.finish_keeps t d who entry goes).2.core c (·.tfq) fun _ _ _ => rfl
  exact ⟨h.course.trans (.finish goes t who entry), by rw [tfq, h.asked], by rw [OwnWaiting, tfq]; exact h.own⟩

theorem length (h : cx.Asks c sl s t new) : (coreOf t c).tfq.length = (coreOf s c).tfq.length + new.length := by
  simpa using congrArg List.length h.asked

end Cx.Asks

/-- The lanes' fetches join the queue in order and each lane completes, as long as there is room for all (R210, R212). -/
theorem foldl_asks {step : State × Option Nat → Nat × FetchTr → State × Option Nat} {lines : Nat → List (Nat × Nat)}
    (one : ∀ s l t, cx.queueFetch s o l (lines l) = some t →
      step (s, none) (l, .ok (lines l)) = (cx.finish t d (cx.whoOf [l]) fun _ => {}, none))
    (goes : (fallNext cx.line cx.pc d.len).2 = false) (hid : cx.id = .blk c sl) (lanes : List Nat) {done : List Nat} {u : State}
    (own : OwnWaiting c sl u) (room : (coreOf u c).tfq.length + lanes.length ≤ 4) (hosts : cx.Hosts u ls) (among : ∀ l ∈ lanes, l ∈ ls)
    (stand : ∀ l ∈ done, cx.pcOf u l = cx.next d) :
    ∃ t, (lanes.map fun l => (l, FetchTr.ok (lines l))).foldl step (u, none) = (t, none) ∧
      cx.Asks c sl u t (lanes.map fun l => tfAsked o l (lines l)) ∧ ∀ l ∈ done ++ lanes, cx.pcOf t l = cx.next d := by
  induction lanes generalizing u done with
  | nil => exact ⟨u, rfl, .refl own, by simpa using stand⟩
  | cons l r ih =>
    rw [List.length_cons] at room
    obtain ⟨v, run, asks, stays⟩ := queueFetch_asks hid own (by omega) o l (lines l)
    have finished := asks.finish goes (cx.whoOf [l]) fun _ => {}
    have stands := (asks.course.hosts hosts).finish_pcOf_lane goes (among l (by simp)) (done := done)
      (fun m hm => (stays m).trans (stand m hm)) fun _ => {}
    have longer := finished.length
    rw [List.length_singleton] at longer
    obtain ⟨t, rest, later, all⟩ := ih finished.own (by omega) (finished.course.hosts hosts)
      (fun m hm => among m (List.mem_cons_of_mem _ hm)) stands
    refine ⟨t, ?_, finished.trans later, by simpa using all⟩
    rw [List.map_cons, List.foldl_cons, one u l v run, rest]

/-- An instruction that enters with no lane that acts is counted and completes. -/
theorem Cx.start_idle (h : Enters s cx d []) (hb : cx.blk s = some b) :
    ∃ s', (∀ k, cx.start s d k = k s' [] ∨ cx.start s d k = s') ∧ cx.Issued s s' := by
  obtain ⟨s', run, issued⟩ := Cx.start_issued h hb fun s _ => s
  refine ⟨s', fun k => ?_, issued⟩
  have same : cx.start s d (fun s _ => s) = s' := run.elim (fun e => e) (·.2)
  rw [Cx.start_stands h.stands] at same ⊢
  subst same
  split
  · exact .inl rfl
  · split
    · exact .inr rfl
    · exact .inl rfl

/-- What TFETCH has done: a fetch for each acting lane is queued, and each completes. -/
structure Cx.Fetched (cx : Cx) (s t : State) (o : POp) (rs : List (Nat × List Nat)) (lines : Nat → List (Nat × Nat)) : Prop where
  asked : (coreOf t cx.core).tfq.map (·.asked) = (coreOf s cx.core).tfq.map (·.asked) ++ rs.map fun r => tfAsked o r.1 (lines r.1)
  stands : ∀ r ∈ rs, cx.pcOf t r.1 = cx.next (cx.tfDec o)
  regs : cx.SameRegs s t
  only : cx.Only s t
  mem : t.mem = s.mem

variable {lines : Nat → List (Nat × Nat)}

/-- TFETCH with no acting lane queues nothing. -/
theorem tfetch_idle (h : Enters s cx (cx.tfDec o) []) (hb : cx.blk s = some b) (sends : tfRcv o = false) : cx.Fetched s (cx.tfetch s o) o [] lines := by
  obtain ⟨s', run, issued⟩ := Cx.start_idle h hb
  have nothing : cx.tfetch s o = s' := by
    unfold Cx.tfetch
    extract_lets d
    refine (run _).elim (fun e => e.trans ?_) fun e => e
    simp [sends]
  rw [nothing]
  have tfq := issued.keeps.core cx.core (·.tfq) fun _ _ _ => rfl
  exact ⟨by simp [tfq], by simp, issued.regs.same, issued.keeps.only, issued.keeps.mem_eq⟩

/-- The lanes' fetches, once the issue is counted. -/
theorem Cx.Begun.foldl_fetched {step : State × Option Nat → Nat × FetchTr → State × Option Nat} (begun : cx.Begun s t)
    (h : Enters s cx (cx.tfDec o) rs) (hid : cx.id = .blk cx.core sl) (hb : cx.blk s = some b) (held : noneHeld s cx.core)
    (room : (coreOf s cx.core).tfq.length + rs.length ≤ 4)
    (one : ∀ s l t, cx.queueFetch s o l (lines l) = some t →
      step (s, none) (l, .ok (lines l)) = (cx.finish t (cx.tfDec o) (cx.whoOf [l]) fun _ => {}, none)) :
    cx.Fetched s (((rs.map (·.1)).map fun l => (l, FetchTr.ok (lines l))).foldl step (t, none)).1 o rs lines := by
  have tfq := begun.issued.keeps.core cx.core (·.tfq) fun _ _ _ => rfl
  have own : OwnWaiting cx.core sl t := fun x hx idle => by
    rw [tfq] at hx
    simp [held x hx] at idle
  obtain ⟨u, fold, asks, stands⟩ := foldl_asks one h.goes hid (rs.map (·.1)) (done := []) own (by simpa [tfq] using room)
    (begun.course.hosts (h.hosts hb)) (fun _ hl => hl) (by simp)
  have course := begun.course.trans asks.course
  rw [fold]
  exact ⟨by simpa [tfq, Function.comp_def] using asks.asked, fun r hr => stands _ (List.mem_map_of_mem hr), course.sameRegs, course.only, course.mem_eq⟩

/-- TFETCH queues a fetch for each acting lane, and each completes. -/
theorem tfetch_fetched (h : Enters s cx (cx.tfDec o) rs) (sends : tfRcv o = false) (held : noneHeld s cx.core)
    (room : (coreOf s cx.core).tfq.length + rs.length ≤ 4)
    (fetched : ∀ r ∈ rs, cx.fetchLines s o (aOf r.2) (if tfSc o then some (bOf r.2) else none) = .ok (lines r.1)) :
    cx.Fetched s (cx.tfetch s o) o rs lines := by
  obtain ⟨c, sl, b, hid, hb, rfl, -⟩ := h.tvs_block tvs_none
  by_cases acting : rs = []
  · subst acting
    exact tfetch_idle h hb sends
  obtain ⟨s', run, begun⟩ := Cx.start_begun h acting hb
  have trs : (rs.map fun r => (r.1, cx.fetchLines s' o (aOf r.2) (if tfSc o then some (bOf r.2) else none))) =
      (rs.map (·.1)).map fun l => (l, FetchTr.ok (lines l)) := by
    rw [List.map_map]
    exact List.map_congr_left fun r hr => by
      rw [begun.issued.fetchLines_eq hid, fetched r hr]
      rfl
  have noFault : rs.filterMap (fun _ => (none : Option (Nat × AFault))) = [] := List.filterMap_eq_nil_iff.mpr fun _ _ => rfl
  unfold Cx.tfetch
  extract_lets d
  rw [run]
  simp only [sends, trs, Bool.false_eq_true, if_false]
  simp only [List.filterMap_map, Function.comp_def, noFault, List.isEmpty_nil, Bool.not_true, Bool.false_and, Bool.false_eq_true, if_false, if_true]
  exact begun.foldl_fetched h hid hb held room fun s l t run => by simp only [run]; rfl

end Sys2Proof.Machine
end

/-! ## TFETCH.R and TREL (R213, R216) -/
section
namespace Sys2Proof.Machine

variable {s t u : State} {cx : Cx} {d : Dec} {b : Block} {c sl k : Nat} {o : POp} {e : Mq} {own pre : List Mq} {rs : List (Nat × List Nat)}

theorem Cx.Keeps.tileOf_eq (h : cx.Keeps s t) (c k : Nat) : tileOf t c k = tileOf s c k :=
  congrArg (fun x => Table.getD x k ({} : Tile)) (h.core c (·.tiles) fun _ _ _ => rfl)

/-! ### A slot is armed (R213) -/

theorem armTile_course (hid : cx.id = .blk c sl) (s : State) (k : Nat) : cx.Course s (armTile s c sl k) := by
  unfold armTile
  exact (Cx.Course.modStage hid s _).trans (.of_seats cx ((releasePins_seats ..).trans (modTile_seats ..)))

theorem tileOf_armTile (s : State) (c sl k j : Nat) :
    tileOf (armTile s c sl k) c j = if j = k then { tileOf s c k with fill := .awaiting, pins := [] } else tileOf s c j := by
  unfold armTile
  by_cases own : j = k
  · subst own
    rw [if_pos rfl, tileOf_modTile_self, tileOf_releasePins, if_pos rfl, tileOf_modBlock]
  · rw [if_neg own, tileOf_modTile_ne _ _ _ (Ne.symm own), tileOf_releasePins, if_neg own, tileOf_modBlock]

/-- TFETCH.R arms its slot and gives up the slot's pins. -/
theorem tfetch_arms (h : Enters s cx (cx.tfDec o) rs) (acting : rs ≠ []) (receives : tfRcv o = true) :
    cx.Course s (cx.tfetch s o) ∧ ∀ k, tileOf (cx.tfetch s o) cx.core k =
      if k = tfSlot o then { tileOf s cx.core (tfSlot o) with fill := .awaiting, pins := [] } else tileOf s cx.core k := by
  obtain ⟨c, sl, b, hid, hb, rfl, place⟩ := h.tvs_block tvs_none
  obtain ⟨s', run, begun⟩ := Cx.start_begun h acting hb
  have effect : cx.tfetch s o = cx.finish (armTile s' cx.core sl (tfSlot o)) (cx.tfDec o) (cx.whoOf (rs.map (·.1))) fun _ => {} := by
    unfold Cx.tfetch
    extract_lets d
    rw [run]
    simp [receives, acting, place, d]
  rw [effect]
  refine ⟨(begun.course.trans (armTile_course hid s' _)).trans (.finish h.goes _ _ _), fun k => ?_⟩
  rw [(cx.finish_keeps _ _ _ _ h.goes).2.tileOf_eq, tileOf_armTile, begun.issued.keeps.tileOf_eq, begun.issued.keeps.tileOf_eq]

/-! ### Releases (R216) -/

/-- Releases of a slot at the end of a queue, before which the block has nothing in it, are ready. -/
theorem runTrels_go_own (trels : ∀ e ∈ own, e.slot = sl ∧ e.op = .trel k) {before : List Mq} (idle : ∀ x ∈ before, x.slot = sl → x.op.isTrel = true) :
    runTrels.go sl before own = (own.map fun _ => k, []) := by
  induction own generalizing before with
  | nil => rfl
  | cons e r ih =>
    obtain ⟨slot, op⟩ := trels e (by simp)
    have rest := ih (fun x hx => trels x (by simp [hx])) (before := before ++ [e]) fun x hx own => by
      obtain hx | hx := List.mem_append.mp hx
      · exact idle x hx own
      · rw [List.mem_singleton.mp hx, op]
        rfl
    have unread : (before.any fun x => x.slot == sl && x.op.reads k) = false := by
      refine List.any_eq_false.mpr fun x hx => ?_
      by_cases own : x.slot = sl
      · have trel := idle x hx own
        cases op : x.op <;> simp_all [MqOp.isTrel, MqOp.reads]
      · simp [own]
    simp [runTrels.go, rest, op, slot, unread]

theorem runTrels_go_append (others : ∀ e ∈ pre, e.slot ≠ sl) (before own : List Mq) :
    runTrels.go sl before (pre ++ own) = ((runTrels.go sl (before ++ pre) own).1, pre ++ (runTrels.go sl (before ++ pre) own).2) := by
  induction pre generalizing before with
  | nil => simp
  | cons e r ih =>
    have other : e.slot ≠ sl := others e (by simp)
    have rest := ih (fun x hx => others x (by simp [hx])) (before ++ [e])
    rw [List.append_assoc, List.singleton_append] at rest
    rw [List.cons_append, runTrels.go, rest]
    cases e.op <;> simp [other]

/-- With nothing of the block in the queue nothing happens. -/
theorem runTrels_others (others : ∀ e ∈ (coreOf s c).mq, e.slot ≠ sl) : runTrels s c sl = s := by
  have none_ := runTrels_go_append others [] []
  simp only [List.append_nil, runTrels.go] at none_
  simp [runTrels, none_]

/-- With no entry of the block that counts none runs. -/
theorem runQuick_idle (idle : mqOf s c sl = []) (n : Nat) : runQuick s c sl n = s := by
  cases n with
  | zero => rfl
  | succ n => simp only [runQuick, idle]

theorem settleQuick_others (others : ∀ e ∈ (coreOf s c).mq, e.slot ≠ sl) : settleQuick s c sl = s := by
  have idle : mqOf s c sl = [] := by
    refine List.filter_eq_nil_iff.mpr fun e he => ?_
    simp [others e he]
  rw [settleQuick, runQuick_idle idle, runTrels_others others]

/-- Giving a slot's pins up more than once is giving them up. -/
theorem foldl_releasePins {l : List Nat} (all : ∀ x ∈ l, x = k) (some_ : l ≠ []) (s : State) :
    SameSeats s (l.foldl (fun s k => releasePins s c k) s) ∧
      tileOf (l.foldl (fun s k => releasePins s c k) s) c k = { tileOf s c k with pins := [] } := by
  have again : ∀ l : List Nat, (∀ x ∈ l, x = k) → ∀ s, (tileOf s c k).pins = [] → SameSeats s (l.foldl (fun s k => releasePins s c k) s) ∧
      tileOf (l.foldl (fun s k => releasePins s c k) s) c k = tileOf s c k := by
    intro l
    induction l with
    | nil => exact fun _ s _ => ⟨.refl s, rfl⟩
    | cons x r ih =>
      intro all s free
      obtain rfl := all x (by simp)
      have own : tileOf (releasePins s c x) c x = tileOf s c x := by
        rw [tileOf_releasePins, if_pos rfl, ← free]
      obtain ⟨seats, tile⟩ := ih (fun y hy => all y (by simp [hy])) (releasePins s c x) (by rw [own]; exact free)
      exact ⟨(releasePins_seats ..).trans seats, tile.trans own⟩
  match l with
  | [] => exact absurd rfl some_
  | x :: r =>
    obtain rfl := all x (by simp)
    have own : tileOf (releasePins s c x) c x = { tileOf s c x with pins := [] } := by rw [tileOf_releasePins, if_pos rfl]
    obtain ⟨seats, tile⟩ := again r (fun y hy => all y (by simp [hy])) (releasePins s c x) (by rw [own])
    exact ⟨(releasePins_seats ..).trans seats, tile.trans own⟩

/-- The releases of a slot that no entry of the block reads take place. -/
theorem settleQuick_trels (queue : (coreOf s c).mq = pre ++ own) (others : ∀ e ∈ pre, e.slot ≠ sl) (trels : ∀ e ∈ own, e.slot = sl ∧ e.op = .trel k)
    (some_ : own ≠ []) : SameSeats s (settleQuick s c sl) ∧ tileOf (settleQuick s c sl) c k = { tileOf s c k with pins := [] } := by
  have idle : mqOf s c sl = [] := by
    refine List.filter_eq_nil_iff.mpr fun e he => ?_
    rw [queue] at he
    obtain he | he := List.mem_append.mp he
    · simp [others e he]
    · simp [(trels e he).2, MqOp.isTrel]
  have ready : runTrels.go sl [] (coreOf s c).mq = (own.map fun _ => k, pre) := by
    rw [queue, runTrels_go_append others, runTrels_go_own trels fun x hx own => absurd own (others x (by simpa using hx))]
    simp
  obtain ⟨seats, tile⟩ := foldl_releasePins (c := c) (k := k) (l := own.map fun _ => k) (by simp) (by simpa using some_) s
  rw [settleQuick, runQuick_idle idle, runTrels]
  simp only [ready]
  rw [if_neg (by simpa using some_)]
  refine ⟨seats.trans (.modCore _ c _ (fun _ => rfl) fun _ => rfl), ?_⟩
  rw [← tile]
  simp [tileOf]

/-- What TREL has done: the slot's pins are given up, or in a sealed region noted for the commit (R67). -/
structure Cx.Released (cx : Cx) (s t : State) (k : Nat) (b : Block) : Prop where
  course : cx.Course s t
  open_ : cx.sealed s = false → tileOf t cx.core k = { tileOf s cx.core k with pins := [] }
  sealed : cx.sealed s = true → tileOf t cx.core k = tileOf s cx.core k ∧
    ∃ b', cx.blk t = some b' ∧ b'.stage.deferred = b.stage.deferred ++ [(cx.core, k)]

/-- In an open region TREL joins the queue and its releases are ready. -/
theorem trel_open (goes : (fallNext cx.line cx.pc d.len).2 = false) (others : ∀ e ∈ (coreOf s c).mq, e.slot ≠ sl)
    (trels : ∀ e ∈ own, e.slot = sl ∧ e.op = .trel k) (some_ : own ≠ []) (who : List Nat) :
    let t := settleQuick (cx.finish (modCore s c fun x => { x with mq := x.mq ++ own }) d who fun _ => {}) c sl
    cx.Course s t ∧ tileOf t c k = { tileOf s c k with pins := [] } := by
  intro t
  have queued : SameSeats s (modCore s c fun x => { x with mq := x.mq ++ own }) := .modCore s c _ (fun _ => rfl) fun _ => rfl
  have finished := (cx.finish_keeps (modCore s c fun x => { x with mq := x.mq ++ own }) d who (fun _ => {}) goes).2
  have queue := finished.core c (·.mq) fun _ _ _ => rfl
  rw [coreOf_modCore_self] at queue
  obtain ⟨seats, tile⟩ := settleQuick_trels queue others trels some_
  refine ⟨((Cx.Course.of_seats cx queued).trans (.finish goes _ who _)).trans (.of_seats cx seats), tile.trans ?_⟩
  rw [finished.tileOf_eq]
  simp [tileOf]

/-- In a sealed region TREL's release is noted for the commit. -/
theorem trel_sealed (hid : cx.id = .blk c sl) (goes : (fallNext cx.line cx.pc d.len).2 = false) (others : ∀ e ∈ (coreOf s c).mq, e.slot ≠ sl)
    (hb : cx.blk s = some b) (sealed : isSealed s b = true) (who : List Nat) :
    let t := settleQuick (cx.finish (letPinsGo s c sl k) d who fun _ => {}) c sl
    cx.Course s t ∧ tileOf t c k = tileOf s c k ∧ ∃ b', cx.blk t = some b' ∧ b'.stage.deferred = b.stage.deferred ++ [(c, k)] := by
  intro t
  have here : blockOf s c sl = some b := by simpa [Cx.blk, hid] using hb
  have noted : letPinsGo s c sl k = modBlock s c sl fun b => b.modStage fun g => { g with deferred := g.deferred ++ [(c, k)] } := by
    simp [letPinsGo, here, sealed]
  have own : cx.blk (letPinsGo s c sl k) = some (b.modStage fun g => { g with deferred := g.deferred ++ [(c, k)] }) := by
    rw [noted]
    simp [Cx.blk, hid, here]
  have finished := Cx.finish_issued own d who (fun _ => {}) goes
  have queue : (coreOf (cx.finish (letPinsGo s c sl k) d who fun _ => {}) c).mq = (coreOf s c).mq := by
    rw [finished.mq, noted]
    exact modBlock_core (·.mq) (fun _ _ => rfl) ..
  have still : t = cx.finish (letPinsGo s c sl k) d who fun _ => {} := settleQuick_others (by rw [queue]; exact others)
  rw [still]
  refine ⟨?_, ?_, ?_⟩
  · rw [noted]
    exact (Cx.Course.modStage hid s _).trans (.finish goes _ who _)
  · rw [finished.keeps.tileOf_eq, noted, tileOf_modBlock]
  · obtain ⟨b', hb'⟩ := finished.keeps.blk_some own
    exact ⟨b', hb', by rw [finished.stage_eq own hb']; rfl⟩

/-- TREL with nothing of its block in the queue. -/
theorem trel_released {o : ROp} (h : Enters s cx (trelDec o) rs) (acting : rs ≠ []) (hb : cx.blk s = some b)
    (others : ∀ e ∈ (coreOf s cx.core).mq, e.slot ≠ cx.place.2) : ∃ t, exec (.trel o) s = .next t ∧ cx.Released s t o.p.srcA.toNat b := by
  obtain ⟨c, sl, -, hid, -, rfl, place⟩ := h.tvs_block tvs_none
  obtain ⟨s', run, begun⟩ := Cx.start_begun h acting hb
  obtain ⟨b1, hb1⟩ := begun.issued.keeps.blk_some hb
  have apart : ∀ e ∈ (coreOf s' cx.core).mq, e.slot ≠ sl := by
    rw [begun.issued.mq]
    simpa [place] using others
  have tile := begun.issued.keeps.tileOf_eq cx.core o.p.srcA.toNat
  refine ⟨_, (withCx_here h.here _).trans (congrArg _ (run _)), ?_⟩
  cases region : cx.sealed s with
  | false =>
    simp only [List.isEmpty_eq_false_iff.mpr acting, place, begun.issued.sealed, region, Bool.false_eq_true, if_false]
    obtain ⟨course, released⟩ := trel_open (own := rs.map fun r => cx.entry s' r.1 (.trel o.p.srcA.toNat)) (k := o.p.srcA.toNat)
      (d := trelDec o) h.goes apart (List.forall_mem_map.mpr fun r _ => ⟨congrArg Prod.snd place, rfl⟩) (by simpa using acting) (cx.whoOf (rs.map (·.1)))
    exact ⟨begun.course.trans course, fun _ => released.trans (by rw [tile]), fun sealed => by simp [region] at sealed⟩
  | true =>
    simp only [List.isEmpty_eq_false_iff.mpr acting, begun.issued.sealed, region, Bool.false_eq_true, if_false, if_true]
    rw [place]
    have inside : isSealed s' b1 = true := by
      have obeys := begun.issued.sealed.trans region
      simp only [Cx.sealed, hb1, Bool.and_eq_true] at obeys
      exact obeys.1
    obtain ⟨course, same, b', hb', deferred⟩ := trel_sealed (k := o.p.srcA.toNat) (d := trelDec o) hid h.goes apart hb1 inside (cx.whoOf (rs.map (·.1)))
    exact ⟨begun.course.trans course, fun open_ => by simp [region] at open_, fun _ =>
      ⟨same.trans tile, b', hb', by rw [deferred, begun.issued.stage_eq hb hb1]⟩⟩

end Sys2Proof.Machine
end

/-! ## Pins of many lines (R280, R283, R285)

A slot's pins take up the lines of a fetch one after the other. Among slices that hold nothing else every line finds a way, unless
the fetch itself has filled its set. -/
section
namespace Sys2Proof.Machine

variable {s t u : State} {line n : Nat} {k k' k'' : Slice} {ps : List (Nat × Option Nat)}

/-! ### Tags of a slice -/

theorem Table.erase_set {α : Type} (t : Table α) (k : Nat) (v : α) : Table.erase (Table.set t k v) k = Table.erase t k := by
  rw [Table.set, Table.erase, filter_place (by simp), Table.erase, List.filter_filter]
  simp

theorem Table.set_set {α : Type} (t : Table α) (k : Nat) (v w : α) : Table.set (Table.set t k v) k w = Table.set t k w := by
  rw [Table.set, Table.erase_set, ← Table.set]

/-- Of a slice at most the line's tag is set. -/
def Slice.Retags (line : Nat) (k k' : Slice) : Prop := k'.tags = k.tags ∨ ∃ t, k'.tags = Table.set k.tags line t

namespace Slice.Retags

theorem refl (line : Nat) (k : Slice) : Slice.Retags line k k := .inl rfl

theorem trans (h : Slice.Retags line k k') (g : Slice.Retags line k' k'') : Slice.Retags line k k'' := by
  obtain same | ⟨v, set_⟩ := g
  · rwa [Slice.Retags, same]
  · obtain before | ⟨w, before⟩ := h
    · exact .inr ⟨v, by rw [set_, before]⟩
    · exact .inr ⟨v, by rw [set_, before, Table.set_set]⟩

theorem freeIf (k : Slice) (e : Nat) : (k.freeIf e).tags = k.tags := by
  unfold Slice.freeIf
  split
  · split
    · rw [Slice.Fills.unindex_eq]
    · rfl
  · rfl

theorem point (k : Slice) (e : Option Nat) : Slice.Retags line k (k.point line e) := by
  unfold Slice.point
  split
  · exact refl line k
  · rename_i t _
    split
    · exact refl line k
    · extract_lets k1 k2
      have tags1 : k1.tags = k.tags := by cases e <;> rfl
      have tags2 : k2.tags = Table.set k.tags line { t with ent := e } := by rw [← tags1]
      clear_value k2
      cases t.ent with
      | none => exact .inr ⟨_, tags2⟩
      | some o => exact .inr ⟨_, (freeIf _ o).trans tags2⟩

/-- Of each kind there is one entry more at most, and no more where the line is of another. -/
theorem count_le (h : Slice.Retags line k k') (g : Nat → Nat) (x : Nat) : (k'.tags.filter fun e => g e.1 == x).length ≤
    (k.tags.filter fun e => g e.1 == x).length + if g line = x then 1 else 0 := by
  obtain same | ⟨v, set_⟩ := h
  · rw [same]
    exact Nat.le_add_right ..
  · rw [set_]
    by_cases own : g line = x
    · have placed : ∀ l : Table Tag, ((Store.place l line v).filter fun e => g e.1 == x).length = (l.filter fun e => g e.1 == x).length + 1 := by
        intro l
        induction l with
        | nil => simp [Store.place, own]
        | cons e r ih =>
          rw [Store.place]
          split
          · simp [List.filter_cons, own]
          · rw [List.filter_cons, List.filter_cons]
            split <;> simp [ih]
      have fewer : ((Table.erase k.tags line).filter fun e => g e.1 == x).length ≤ (k.tags.filter fun e => g e.1 == x).length :=
        (List.Sublist.filter _ List.filter_sublist).length_le
      rw [Table.set, placed, if_pos own]
      exact Nat.succ_le_succ fewer
    · rw [filter_tableSet (g := fun e => g e.1 == x) (k := line) fun _ => by simpa using own]
      exact Nat.le_add_right ..

end Slice.Retags

/-- Of the tags at most that of the line is set, in its home slice. -/
structure Retags (line : Nat) (s t : State) : Prop where
  home : Slice.Retags line (sliceOf s (sliceOfLine line)) (sliceOf t (sliceOfLine line))
  others : ∀ n, n ≠ sliceOfLine line → (sliceOf t n).tags = (sliceOf s n).tags

namespace Retags

theorem refl (line : Nat) (s : State) : Retags line s s := ⟨.refl line _, fun _ _ => rfl⟩
theorem trans (h : Retags line s t) (g : Retags line t u) : Retags line s u :=
  ⟨h.home.trans g.home, fun n hn => (g.others n hn).trans (h.others n hn)⟩

theorem modSlice (s : State) (f : Slice → Slice) (hf : ∀ k, Slice.Retags line k (f k)) : Retags line s (Machine.modSlice s (sliceOfLine line) f) :=
  ⟨by rw [sliceOf_modSlice_self]; exact hf _, fun n hn => by simp [sliceOf, Machine.modSlice, Table.getD_set_ne _ _ _ (Ne.symm hn)]⟩

theorem modTag (s : State) (f : Tag → Tag) : Retags line s (Machine.modTag s line f) := by
  refine modSlice s _ fun k => ?_
  rw [Slice.Retags, Table.modify]
  split
  · exact .inr ⟨_, rfl⟩
  · exact .inl rfl

/-- Placing data where entries are free sets no other tag (R282). -/
theorem placeLine {sh : Bool} (h : Machine.placeLine s line = some (t, sh)) (light : (sliceOf s (sliceOfLine line)).pond.length < 16384) :
    Retags line s t := by
  have change : ∀ (f : Slice → Slice) (x : Bool), some (Machine.modSlice s (sliceOfLine line) f, x) = some (t, sh) →
      (∀ k, Slice.Retags line k (f k)) → Retags line s t := fun f x e hf => by
    have same : Machine.modSlice s (sliceOfLine line) f = t := congrArg Prod.fst (Option.some.inj e)
    exact same ▸ modSlice s f hf
  obtain ⟨e, free⟩ := takeEntry_light light
  unfold Machine.placeLine at h
  split at h
  · have same : s = t := congrArg Prod.fst (Option.some.inj h)
    exact same ▸ refl line s
  · extract_lets n d x own at h
    split at h
    · exact change _ _ h fun k => .point k none
    · split at h
      · exact change _ _ h fun k => .point k _
      · by_cases ha : own = true
        · rw [if_pos ha] at h
          refine change _ _ h fun k => ?_
          split
          · rw [Slice.Fills.unindex_eq]
            split <;> exact .inl rfl
          · exact .refl line k
        · rw [if_neg ha, free] at h
          refine change _ _ h fun k => ?_
          have pointed := fun k1 (same : k1.tags = k.tags) => (show Slice.Retags line k k1 from .inl same).trans (.point k1 (some e))
          split
          · exact pointed _ rfl
          · exact pointed _ rfl

end Retags

/-! ### A fill finds a way (R285) -/

/-- A line without a tag takes one where its set has a way left. -/
theorem fillLine_way (light : (sliceOf s (sliceOfLine line)).pond.length < 16000)
    (way : ((sliceOf s (sliceOfLine line)).tags.filter fun e => setOfLine e.1 == setOfLine line).length < 12) (ht : tagOf s line = none)
    (clean : s.memPoison.contains line = false) :
    ∃ t sh, fillLine s line = some (t, sh) ∧ t.mem = s.mem ∧ Takes line 2 3 s t ∧ Retags line s t := by
  have evict : ∀ l : List Nat, l.foldl (fun s v =>
      if decide (((sliceOf s (sliceOfLine line)).tags.filter fun e => setOfLine e.1 == setOfLine line).length ≥ 12) then evictTag s v else s) s = s :=
    fun l => foldl_fixed _ _ _ fun v _ => if_neg (by simpa using way)
  have full : decide (((sliceOf s (sliceOfLine line)).tags.filter fun e => setOfLine e.1 == setOfLine line).length ≥ 12) = false := by
    simpa using way
  have tagged : Takes line 1 0 s (modSlice s (sliceOfLine line) fun k =>
      { k with tags := Table.set k.tags line { dom := domainOf s line, psn := s.memPoison.contains line, used := s.cycle } }) :=
    .modSlice s _ _ (.setTag _ _ rfl)
  have retagged : Retags line s (modSlice s (sliceOfLine line) fun k =>
      { k with tags := Table.set k.tags line { dom := domainOf s line, psn := s.memPoison.contains line, used := s.cycle } }) :=
    .modSlice s _ fun k => .inr ⟨_, rfl⟩
  simp only [fillLine, ht, evict, full]
  generalize hu : modSlice s (sliceOfLine line) _ = u at *
  have mem : u.mem = s.mem := by rw [← hu]; rfl
  have slice := tagged.slices (sliceOfLine line)
  have lightU : (sliceOf u (sliceOfLine line)).pond.length < 16384 := by
    have := slice.pond
    omega
  obtain ⟨v, sh, placed, memV, -, takes⟩ := placeLine_light (s := u) (line := line) lightU
    (slice.own fun t h => by rw [tagOf] at ht; rw [ht] at h; cases h)
  have counted : Takes line 0 0 v { v with moved := v.moved + 1, shares := v.shares + if sh then 1 else 0 } := ⟨rfl, fun n => .refl line _⟩
  simp only [placed, clean]
  exact ⟨_, _, rfl, memV.trans mem, (tagged.trans (takes.trans counted)).mono (by omega) (by omega),
    retagged.trans ((Retags.placeLine placed lightU).trans ⟨.refl line _, fun _ _ => rfl⟩)⟩

/-- A Pond entry is held once more. -/
def Slice.hold (e : Option Nat) (k : Slice) : Slice :=
  match e with
  | some e => { k with pond := Table.modify k.pond e fun p => { p with hold := p.hold + 1 } }
  | none => k

theorem Slice.Fills.hold (k : Slice) (e : Option Nat) : Slice.Fills line 0 1 k (k.hold e) := by
  cases e with
  | none => exact (Slice.Fills.refl line k).mono (Nat.zero_le _) (Nat.zero_le _)
  | some e => exact .modPond k e _

theorem Slice.Retags.hold (k : Slice) (e : Option Nat) : Slice.Retags line k (k.hold e) := by cases e <;> exact .inl rfl

/-! ### The pins of a fetch (R283) -/

/-- From `s`, whose slices hold nothing, to `t` the lines of `ps` have been pinned, and nothing else is tagged. -/
structure Pinned (s t : State) (ps : List (Nat × Option Nat)) : Prop where
  cores : t.cores = s.cores
  memPoison : t.memPoison = s.memPoison
  mem : t.mem = s.mem
  serves : ∀ n, (sliceOf t n).stopped = false
  pond : ∀ n, (sliceOf t n).pond.length ≤ 4 * ps.length
  ways : ∀ n x, ((sliceOf t n).tags.filter fun e => setOfLine e.1 == x).length ≤
    (ps.filter fun p => sliceOfLine p.1 == n && setOfLine p.1 == x).length
  fresh : ∀ l, l ∉ ps.map (·.1) → tagOf t l = none

theorem Pinned.bare (h : ∀ n, sliceOf s n = {}) : Pinned s s [] := by
  refine ⟨rfl, rfl, rfl, fun n => ?_, fun n => ?_, fun n x => ?_, fun l _ => tagOf_bare h l⟩ <;> simp [h]

/-- A line that is pinned for the first time, in a set that the fetch has not filled. -/
theorem Pinned.pinLine (h : Pinned s t ps) (new : line ∉ ps.map (·.1)) (few : ps.length < 4000) (room : pinsFillSet ps line = false)
    (clean : s.memPoison.contains line = false) : ∃ u e, Machine.pinLine t line = some (u, e) ∧ Pinned s u (ps ++ [(line, e)]) := by
  have untagged := h.fresh line new
  have way : ((sliceOf t (sliceOfLine line)).tags.filter fun e => setOfLine e.1 == setOfLine line).length < 12 := by
    have bound := h.ways (sliceOfLine line) (setOfLine line)
    have left : (ps.filter fun p => sliceOfLine p.1 == sliceOfLine line && setOfLine p.1 == setOfLine line).length < 12 := by
      simpa [pinsFillSet] using room
    omega
  have light := h.pond (sliceOfLine line)
  obtain ⟨v, sh, filled, memV, takes, retags⟩ := fillLine_way (by omega) way untagged (h.memPoison ▸ clean)
  have run : Machine.pinLine t line = some (modSlice (modTag v line fun t => { t with pcnt := t.pcnt + 1 }) (sliceOfLine line)
      (Slice.hold ((tagOf v line).bind (·.ent))), (tagOf v line).bind (·.ent)) := by
    simp only [Machine.pinLine, h.serves, Bool.false_eq_true, if_false, recallOwner_unowned (s := t) (line := line) (by rw [untagged]; rfl),
      Option.bind_some, filled]
    rfl
  generalize (tagOf v line).bind (·.ent) = e at run
  have takes' := takes.trans ((Takes.modTag v (fun t => { t with pcnt := t.pcnt + 1 }) fun _ => rfl).trans (.modSlice _ (sliceOfLine line) _ (.hold _ e)))
  have retags' := retags.trans ((Retags.modTag v fun t => { t with pcnt := t.pcnt + 1 }).trans (.modSlice _ _ fun k => .hold k e))
  refine ⟨_, e, run, ?_⟩
  refine ⟨Eq.trans ?_ h.cores, Eq.trans ?_ h.memPoison, memV.trans h.mem, fun n => ((takes'.slices n).stopped).trans (h.serves n), fun n => ?_, fun n x => ?_, fun l hl => ?_⟩
  · have e := congrArg State.cores takes'.elsewhere
    exact e
  · have e := congrArg State.memPoison takes'.elsewhere
    exact e
  · have := (takes'.slices n).pond
    have := h.pond n
    rw [List.length_append, List.length_singleton]
    omega
  · have before := h.ways n x
    rw [List.filter_append, List.length_append]
    by_cases home : n = sliceOfLine line
    · subst home
      have grown := retags'.home.count_le setOfLine x
      by_cases set_ : setOfLine line = x
      · simp [set_] at grown ⊢
        omega
      · simp [set_] at grown ⊢
        omega
    · rw [retags'.others n home]
      omega
  · have apart : l ∉ ps.map (·.1) ∧ l ≠ line := by simpa using hl
    rw [tagOf, (takes'.slices _).others l apart.2]
    exact h.fresh l apart.1

/-- The pins of distinct lines, as far as their sets have ways left. -/
theorem pinAll_pinned {step : Option (State × List (Nat × Option Nat)) → Nat → Option (State × List (Nat × Option Nat))} {pas : List Nat}
    (full : ∀ s ps pa, pinsFillSet ps (pa / 128) = true → step (some (s, ps)) pa = some (s, ps))
    (pins : ∀ s ps pa u e, pinsFillSet ps (pa / 128) = false → pinLine s (pa / 128) = some (u, e) →
      step (some (s, ps)) pa = some (u, ps ++ [(pa / 128, e)]))
    (clean : ∀ l, s.memPoison.contains l = false) (h : Pinned s t ps) (few : ps.length + pas.length < 4000)
    (distinct : (pas.map (· / 128)).Nodup) (apart : ∀ pa ∈ pas, pa / 128 ∉ ps.map (·.1)) :
    ∃ u qs, pas.foldl step (some (t, ps)) = some (u, qs) ∧ Pinned s u qs := by
  induction pas generalizing t ps with
  | nil => exact ⟨t, ps, rfl, h⟩
  | cons pa r ih =>
    rw [List.map_cons, List.nodup_cons] at distinct
    rw [List.length_cons] at few
    have later := fun x hx => apart x (List.mem_cons_of_mem pa hx)
    rw [List.foldl_cons]
    cases room : pinsFillSet ps (pa / 128) with
    | true =>
      rw [full t ps pa room]
      exact ih h (by omega) distinct.2 later
    | false =>
      obtain ⟨u, e, run, pinned⟩ := h.pinLine (apart pa (by simp)) (by omega) room (clean _)
      rw [pins t ps pa u e room run]
      refine ih pinned (by simp; omega) distinct.2 fun x hx => ?_
      have other : x / 128 ≠ pa / 128 := fun same => distinct.1 (same ▸ List.mem_map_of_mem (f := (· / 128)) hx)
      simpa [other] using later x hx

end Sys2Proof.Machine
end

/-! ## A fetch is delivered (R212, R213, R215) -/
section
namespace Sys2Proof.Machine

variable {s t u : State} {c k : Nat} {f : TileFetch} {B : Nat → Nat → Byte}

/-! ### The distinct lines of a fetch -/

theorem eraseDups_distinct (n : Nat) : ∀ l : List Nat, l.length ≤ n → l.eraseDups.Nodup ∧ l.eraseDups.length ≤ l.length := by
  induction n with
  | zero =>
    intro l short
    rw [List.length_eq_zero_iff.mp (Nat.le_zero.mp short)]
    simp
  | succ n ih =>
    intro l short
    cases l with
    | nil => simp
    | cons x r =>
      have fewer : (r.filter fun y => !y == x).length ≤ r.length := List.length_filter_le ..
      obtain ⟨distinct, len⟩ := ih (r.filter fun y => !y == x) (by simp at short; omega)
      rw [List.eraseDups_cons, List.nodup_cons, List.length_cons, List.length_cons]
      exact ⟨⟨by simp [List.mem_eraseDups], distinct⟩, by omega⟩

/-- The home addresses that a fetch reads, each once. -/
def TileFetch.pas (f : TileFetch) : List Nat := (f.all.map (·.2)).eraseDups

theorem TileFetch.mem_pas {pa : Nat} : pa ∈ f.pas ↔ ∃ x ∈ f.all, x.2 = pa := by simp [TileFetch.pas, List.mem_eraseDups]

theorem TileFetch.pas_nodup (f : TileFetch) : f.pas.Nodup := (eraseDups_distinct _ _ (Nat.le_refl _)).1

theorem TileFetch.pas_length (h : f.lines.length = 32) : f.pas.length ≤ 33 := by
  have all : f.all.length ≤ 33 := by
    have scale : f.scale.toList.length ≤ 1 := by cases f.scale <;> simp
    rw [TileFetch.all, List.length_append, h]
    omega
  have fewer := (eraseDups_distinct _ (f.all.map (·.2)) (Nat.le_refl _)).2
  rw [List.length_map] at fewer
  exact fewer.trans all

/-- Every line of the fetch lies in package memory at a line's start. -/
def TileFetch.Home (f : TileFetch) : Prop := ∀ x ∈ f.all, isPackage x.2 = true ∧ x.2 % 128 = 0

theorem TileFetch.Home.pas (h : f.Home) {pa : Nat} (hp : pa ∈ f.pas) : isPackage pa = true ∧ pa % 128 = 0 := by
  obtain ⟨x, hx, rfl⟩ := TileFetch.mem_pas.mp hp
  exact h x hx

theorem TileFetch.Home.lines_nodup (h : f.Home) : (f.pas.map (· / 128)).Nodup := by
  refine List.Nodup.map_on (fun x hx y hy same => ?_) f.pas_nodup
  have := (h.pas hx).2
  have := (h.pas hy).2
  omega

/-! ### The rows of a slot (R214) -/

/-- A step of a delivery puts the bytes of a line of `all` in its row. -/
def PutsRows (all : List (Nat × Nat)) (B : Nat → Nat → Byte) (step : Tile → Nat × Nat × Nat → Tile) : Prop :=
  ∀ t i, ∀ l ∈ all, ∀ a, Store.get (step t (i, l)).rows a = if 128 * i ≤ a ∧ a < 128 * i + 128 then B l.2 (a - 128 * i) else Store.get t.rows a

section
variable {all : List (Nat × Nat)} {step : Tile → Nat × Nat × Nat → Tile} (puts : PutsRows all B step)
include puts

/-- Rows put one after the other, from row `i` on, leave the others. -/
theorem foldl_put_other {lines : List (Nat × Nat)} (among : ∀ l ∈ lines, l ∈ all) (i : Nat) (t : Tile) {a : Nat}
    (out : a < 128 * i ∨ 128 * (i + lines.length) ≤ a) :
    Store.get ((lines.mapIdx fun j l => (i + j, l)).foldl step t).rows a = Store.get t.rows a := by
  induction lines generalizing i t with
  | nil => rfl
  | cons l r ih =>
    have shift : (fun j (l : Nat × Nat) => (i + (j + 1), l)) = fun j l => (i + 1 + j, l) := by
      funext j l
      rw [Nat.add_comm j, Nat.add_assoc]
    rw [List.length_cons] at out
    rw [List.mapIdx_cons, List.foldl_cons, shift, ih (fun l hl => among l (by simp [hl])) (i + 1) _ (by omega), puts _ _ l (among l (by simp)),
      if_neg (by omega)]

theorem foldl_put {lines : List (Nat × Nat)} (among : ∀ l ∈ lines, l ∈ all) (i : Nat) (t : Tile) {r : Nat} {l : Nat × Nat}
    (at_ : lines[r]? = some l) {j : Nat} (hj : j < 128) :
    Store.get ((lines.mapIdx fun j l => (i + j, l)).foldl step t).rows (128 * (i + r) + j) = B l.2 j := by
  induction lines generalizing i t r with
  | nil => simp at at_
  | cons x rest ih =>
    have later : ∀ l ∈ rest, l ∈ all := fun l hl => among l (by simp [hl])
    have shift : (fun j (l : Nat × Nat) => (i + (j + 1), l)) = fun j l => (i + 1 + j, l) := by
      funext j l
      rw [Nat.add_comm j, Nat.add_assoc]
    rw [List.mapIdx_cons, List.foldl_cons, shift]
    cases r with
    | zero =>
      obtain rfl : x = l := by simpa using at_
      rw [foldl_put_other puts later (i + 1) _ (by omega), puts _ _ x (among x (by simp)), if_pos (by omega)]
      congr 1
      omega
    | succ r =>
      rw [← ih later (i + 1) _ (by simpa using at_)]
      congr 2
      omega

end

/-- What a slot has received: the lines in its rows, the sideband's in the row behind them. -/
structure Tile.Holds (t : Tile) (f : TileFetch) (B : Nat → Nat → Byte) : Prop where
  ready : t.fill = .ready
  rows : ∀ r l, f.lines[r]? = some l → ∀ i < 128, Store.get t.rows (128 * r + i) = B l.2 i
  scale : ∀ l, f.scale = some l → ∀ i < 128, Store.get t.rows (4096 + i) = B l.2 i

/-- A row of a slot receives a line (R214). -/
def Tile.receive (bytes : Table (List Byte × Bool)) (t : Tile) (x : Nat × Nat × Nat) : Tile :=
  let (bs, bad) := Table.getD bytes x.2.2 (List.replicate 128 0#8, false)
  { t with rows := Store.setBytes t.rows (128 * x.1) bs
           poison := if bad then t.poison ||| (1#33 <<< x.1) else t.poison &&& ~~~(1#33 <<< x.1)
           poisonAddr := if bad then Table.set t.poisonAddr x.1 x.2.1 else Table.erase t.poisonAddr x.1 }

/-- The rows of a slot that has received every line. -/
theorem Tile.holds_received {step : Tile → Nat × Nat × Nat → Tile} (puts : PutsRows f.all B step) (len : f.lines.length = 32) {t t' : Tile}
    (ready : t'.fill = .ready)
    (rows : t'.rows = ((f.scale.toList.map fun l => (32, l)).foldl step ((f.lines.mapIdx fun i l => (i, l)).foldl step t)).rows) : t'.Holds f B := by
  have among : ∀ l ∈ f.lines, l ∈ f.all := fun l hl => List.mem_append_left _ hl
  have index : (fun (i : Nat) (l : Nat × Nat) => (i, l)) = fun i l => (0 + i, l) := by simp
  refine ⟨ready, fun r l at_ i hi => ?_, fun l at_ i hi => ?_⟩
  · have row : Store.get ((f.lines.mapIdx fun i l => (i, l)).foldl step t).rows (128 * r + i) = B l.2 i := by
      have put := foldl_put puts among 0 t at_ hi
      rwa [← index, Nat.zero_add] at put
    have low : r < 32 := len ▸ (List.getElem?_eq_some_iff.mp at_).1
    rw [rows, ← row]
    cases hs : f.scale with
    | none => rfl
    | some x =>
      refine (puts _ 32 x (by simp [TileFetch.all, hs]) _).trans (if_neg ?_)
      omega
  · rw [rows, at_]
    refine (puts _ 32 l (by simp [TileFetch.all, at_]) _).trans ((if_pos ?_).trans (congrArg (B l.2) ?_)) <;> omega

/-- Lines whose bytes have been read are put whole. -/
theorem receive_puts {bytes : Table (List Byte × Bool)}
    (got : ∀ pa ∈ f.pas, ∃ bad, ∀ d, Table.getD bytes pa d = ((List.range 128).map (B pa), bad)) : PutsRows f.all B (Tile.receive bytes) := by
  intro t i l hl a
  obtain ⟨bad, read⟩ := got l.2 (TileFetch.mem_pas.mpr ⟨l, hl, rfl⟩)
  have rows : (Tile.receive bytes t (i, l)).rows = Store.setBytes t.rows (128 * i) ((List.range 128).map (B l.2)) := by
    simp only [Tile.receive, read]
  rw [rows, Store.get_setBytes]
  simp

/-- A slot of the core receives the lines: its pins find their ways, its rows the bytes, and nothing else of memory or of the
core's slots changes. -/
theorem receiveTile_holds {bytes : Table (List Byte × Bool)} (bare : ∀ n, sliceOf s n = {}) (clean : ∀ l, s.memPoison.contains l = false)
    (home : f.Home) (len : f.lines.length = 32) (got : ∀ pa ∈ f.pas, ∃ bad, ∀ d, Table.getD bytes pa d = ((List.range 128).map (B pa), bad)) :
    ∃ u, receiveTile s c f bytes = some u ∧ u.mem = s.mem ∧ (coreOf u c).tfq = (coreOf s c).tfq ∧ (tileOf u c f.k).Holds f B ∧
      ∀ k, k ≠ f.k → tileOf u c k = tileOf s c k := by
  have filtered : (f.all.map (·.2)).eraseDups.filter isPackage = f.pas := List.filter_eq_self.mpr fun pa hp => (home.pas hp).1
  unfold receiveTile
  extract_lets pas r
  obtain ⟨v, qs, pinned, took⟩ : ∃ v qs, r = some (v, qs) ∧ Pinned s v qs := by
    refine pinAll_pinned ?_ ?_ clean (.bare bare) ?_ ?_ (by simp)
    · intro s ps pa full
      simp only [Option.bind_some, full, if_true]
    · intro s ps pa u e room run
      simp only [Option.bind_some, room, run, Bool.false_eq_true, if_false, Option.map_some]
    · have := f.pas_length len
      simp only [pas, filtered, List.length_nil]
      omega
    · simp only [pas, filtered]
      exact home.lines_nodup
  have core : coreOf v c = coreOf s c := by rw [coreOf, took.cores]; rfl
  rw [pinned, Option.map_some]
  refine ⟨_, rfl, took.mem, ?_, ?_, fun k other => ?_⟩
  · rw [modTile_tfq, core]
  · rw [tileOf_modTile_self]
    exact Tile.holds_received (step := Tile.receive bytes) (receive_puts got) len rfl (by cases f.scale <;> rfl)
  · rw [tileOf_modTile_ne _ _ _ (Ne.symm other), tileOf, core]
    rfl

end Sys2Proof.Machine
end

/-! ## TILE_FETCH_PERFORM (R212, R213) -/
section
namespace Sys2Proof.Machine

open Sys2Proof.Claims (noneHeld)

variable {s t u : State} {c sl : Nat} {f : TileFetch} {b : Block}

/-- From `s` to `t` lines have been read for a fetch of core `c`: the slices, memory, the path and the core's slots and queue stay. -/
structure FetchReads (c : Nat) (s t : State) : Prop where
  slices : t.slices = s.slices
  memPoison : t.memPoison = s.memPoison
  mem : t.mem = s.mem
  tiles : ∀ k, tileOf t c k = tileOf s c k
  tfq : (coreOf t c).tfq = (coreOf s c).tfq

namespace FetchReads

theorem refl (c : Nat) (s : State) : FetchReads c s s := ⟨rfl, rfl, rfl, fun _ => rfl, rfl⟩
theorem trans (h : FetchReads c s t) (k : FetchReads c t u) : FetchReads c s u :=
  ⟨k.slices.trans h.slices, k.memPoison.trans h.memPoison, k.mem.trans h.mem, fun x => (k.tiles x).trans (h.tiles x), k.tfq.trans h.tfq⟩

theorem modBlock (c : Nat) (s : State) (d sm : Nat) (g : Block → Block) : FetchReads c s (Machine.modBlock s d sm g) :=
  ⟨rfl, rfl, rfl, tileOf_modBlock s d sm g c, modBlock_core (·.tfq) (fun _ _ => rfl) s d sm g c⟩

end FetchReads

theorem sliceOf_bare (h : s.slices = []) (n : Nat) : sliceOf s n = {} := by simp [sliceOf, h, Table.getD, Table.get?]

theorem unserved_bare (h : s.slices = []) (pa : Nat) : unserved s pa = false := by
  have unowned : (tagOf s (pa / 128)).bind (·.own) = none := by rw [tagOf_bare (sliceOf_bare h)]; rfl
  simp [unserved, recallLine_unowned unowned, sliceOf_bare h]

/-- A line is read whole. -/
theorem readHome_fetch (c : Nat) (bare : s.slices = []) (pa : Nat) :
    ∃ t bad, readHome s pa 128 none = (t, Store.bytes s.mem pa 128, bad) ∧ FetchReads c s t := by
  have untagged : tagOf s (pa / 128) = none := tagOf_bare (sliceOf_bare bare) _
  have unowned : (tagOf s (pa / 128)).bind (·.own) = none := by rw [untagged]; rfl
  simp only [readHome, recallOwner_unowned unowned, untagged, Bool.false_eq_true, if_false]
  refine ⟨_, _, rfl, ?_⟩
  split
  · exact .refl c s
  · exact ⟨rfl, rfl, rfl, fun _ => rfl, rfl⟩

/-- The lines are read one after the other. -/
theorem foldl_reads {step : State × Table (List Byte × Bool) → Nat → State × Table (List Byte × Bool)} {pas : List Nat} (sl : Nat)
    (reads : ∀ s tbl, ∀ pa ∈ pas, ∀ t bs bad, readHome s pa 128 none = (t, bs, bad) →
      step (s, tbl) pa = (charge t (.blk c sl) 6 128 (ewtOf t 9), Table.set tbl pa (bs, bad)))
    (bare : s.slices = []) (distinct : pas.Nodup) (tbl : Table (List Byte × Bool)) :
    ∃ u out, pas.foldl step (s, tbl) = (u, out) ∧ FetchReads c s u ∧
      (∀ pa ∈ pas, ∃ bad, ∀ d, Table.getD out pa d = (Store.bytes s.mem pa 128, bad)) ∧ ∀ pa, pa ∉ pas → ∀ d, Table.getD out pa d = Table.getD tbl pa d := by
  induction pas generalizing s tbl with
  | nil => exact ⟨s, tbl, rfl, .refl c s, by simp, fun _ _ _ => rfl⟩
  | cons pa r ih =>
    rw [List.nodup_cons] at distinct
    obtain ⟨t, bad, run, quiet⟩ := readHome_fetch c bare pa
    have quiet' : FetchReads c s (charge t (.blk c sl) 6 128 (ewtOf t 9)) := quiet.trans (.modBlock c t c sl _)
    obtain ⟨u, out, rest, later, all, others⟩ := ih (fun s tbl x hx => reads s tbl x (by simp [hx])) (quiet'.slices.trans bare) distinct.2
      (Table.set tbl pa (Store.bytes s.mem pa 128, bad))
    rw [quiet'.mem] at all
    refine ⟨u, out, ?_, quiet'.trans later, fun x hx => ?_, fun x hx d => ?_⟩
    · rw [List.foldl_cons, reads s tbl pa (by simp) t _ bad run, rest]
    · obtain rfl | hx := List.mem_cons.mp hx
      · exact ⟨bad, fun d => by rw [others x distinct.1, Table.getD_set_self]⟩
      · exact all x hx
    · rw [List.mem_cons, not_or] at hx
      rw [others x hx.2, Table.getD_set_ne _ _ _ (Ne.symm hx.1)]

/-- A delivered fetch: the slot holds the lines, memory and the core's other slots are as before and the queue is empty. -/
structure Delivered (c : Nat) (f : TileFetch) (s t : State) : Prop where
  holds : (tileOf t c f.k).Holds f fun pa i => Store.get s.mem (pa + i)
  mem : t.mem = s.mem
  others : ∀ k, k ≠ f.k → tileOf t c k = tileOf s c k
  tfq : (coreOf t c).tfq = []

/-- The fetch leaves the queue once its slot has received the lines. -/
theorem Delivered.leave {v w : State} (quiet : FetchReads c v w) (holds : (tileOf v c f.k).Holds f fun pa i => Store.get s.mem (pa + i))
    (mem : v.mem = s.mem) (others : ∀ k, k ≠ f.k → tileOf v c k = tileOf s c k) (only : (coreOf v c).tfq = [f]) :
    Delivered c f s (startFetches (modCore w c fun k => { k with tfq := k.tfq.erase f }) c) := by
  have gone : (coreOf (modCore w c fun k => { k with tfq := k.tfq.erase f }) c).tfq = [] := by simp [quiet.tfq, only]
  have tiles : ∀ k, tileOf (modCore w c fun k => { k with tfq := k.tfq.erase f }) c k = tileOf v c k := fun k => by
    rw [← quiet.tiles k]
    simp [tileOf]
  have started : noneHeld (modCore w c fun k => { k with tfq := k.tfq.erase f }) c := fun x hx => by
    rw [gone] at hx
    cases hx
  rw [startFetches_started started]
  exact ⟨by rw [tiles]; exact holds, quiet.mem.trans mem, fun k other => (tiles k).trans (others k other), gone⟩

/-- The only fetch of a queue is delivered to its own core. -/
theorem deliverTile_delivered (only : (coreOf s c).tfq = [f]) (home : f.Home) (len : f.lines.length = 32) (path : s.path = [])
    (bare : s.slices = []) (clean : ∀ l, s.memPoison.contains l = false) : ∃ t, deliverTile s c f [] = some t ∧ Delivered c f s t := by
  have drained : drainLines s (.blk c f.slot) (f.pas.map (· / 128)) f.id = s := by simp [drainLines, path]
  have served : f.pas.any (unserved s ·) = false := List.any_eq_false.mpr fun pa _ => by simp [unserved_bare bare pa]
  unfold deliverTile
  extract_lets id pas lines s1
  have same : s1 = s := drained
  clear_value s1
  subst same
  rw [if_neg (by simp [path, pas]; simpa [TileFetch.pas] using served)]
  generalize read : List.foldl _ (s1, []) pas = r
  obtain ⟨u, out, rfl, reads, got, -⟩ : ∃ u out, r = (u, out) ∧ FetchReads c s1 u ∧
      (∀ pa ∈ f.pas, ∃ bad, ∀ d, Table.getD out pa d = (Store.bytes s1.mem pa 128, bad)) ∧ ∀ pa, pa ∉ f.pas → ∀ d, Table.getD out pa d = Table.getD [] pa d := by
    rw [← read]
    refine foldl_reads f.slot (fun s tbl pa hp t bs bad run => ?_) bare f.pas_nodup []
    simp only [(home.pas hp).1, run, if_true]
  have bytes : ∀ pa ∈ f.pas, ∃ bad, ∀ d, Table.getD out pa d = ((List.range 128).map (fun i => Store.get s1.mem (pa + i)), bad) := fun pa hp => by
    obtain ⟨bad, at_⟩ := got pa hp
    exact ⟨bad, fun d => by rw [at_, Store.bytes_eq, upFrom_eq, List.map_map]; rfl⟩
  obtain ⟨v, received, memV, tfqV, holds, others⟩ := receiveTile_holds (c := c) (B := fun pa i => Store.get s1.mem (pa + i))
    (sliceOf_bare (reads.slices.trans bare)) (reads.memPoison ▸ clean) home len bytes
  simp only [List.foldl_cons, List.foldl_nil, Option.bind_some, received, Option.map_some]
  refine ⟨_, rfl, .leave (v := v) ?_ holds (memV.trans reads.mem) (fun k other => (others k other).trans (reads.tiles k))
    (by rw [tfqV, reads.tfq, only])⟩
  split
  · exact .modBlock ..
  · exact .refl c v

/-- The queue's only fetch, started and of no other core, performs. -/
theorem fetchStep_delivered (only : (coreOf s c).tfq = [f]) (mask : f.mask = none) (started : f.started = true) (home : f.Home)
    (len : f.lines.length = 32) (path : s.path = []) (bare : s.slices = []) (clean : ∀ l, s.memPoison.contains l = false) :
    Delivered c f s (fetchStep s c) := by
  obtain ⟨t, run, delivered⟩ := deliverTile_delivered only home len path bare clean
  have none_ : fetchTargets s c f false = [] := by simp [fetchTargets, mask]
  have done : runFetch s c f false = .done t := by simp [runFetch, started, none_, run]
  have still : startFetches s c = s := startFetches_started (by simp [noneHeld, only, started])
  simp only [fetchStep, still, only, done]
  exact delivered

end Sys2Proof.Machine
end

section
open Sys2Proof Sys2Proof.Machine Sys2Proof.Claims

/-- Settles O33: fetches join the queue in the lanes' order (`tfetch_fetched`), .R arms its slot (`tfetch_arms`), a fetch pins and fills its slot
(`fetchStep_delivered`, `receiveTile_holds`), and TREL gives pins up or notes it (`trel_released`). -/
theorem tileFetches : Obligations.TileFetches := by
  refine ⟨?_, ?_, ?_, ?_⟩
  · intro f hf o s cx rs lines enters sends held room fetched
    have run : exec (f o) s = .next (cx.tfetch s o) := by
      simp only [List.mem_cons, List.not_mem_nil, or_false] at hf
      obtain rfl | rfl := hf <;> exact withCx_here enters.here _
    have done := tfetch_fetched enters sends held room fetched
    refine ⟨_, run, ?_, done.stands, done.regs, done.only, done.mem⟩
    have new := congrArg (List.drop (coreOf s cx.core).tfq.length) done.asked
    rw [List.drop_left' (by simp), ← List.map_drop] at new
    exact new.trans (List.map_congr_left fun r hr => tfAsked_eq (fetched r hr) r.1)
  · intro o s cx rs enters acting receives
    obtain ⟨course, tiles⟩ := tfetch_arms enters acting receives
    exact ⟨_, withCx_here enters.here _, (tiles _).trans (if_pos rfl), fun k other => (tiles k).trans (if_neg other), course.sameRegs, course.only, course.mem_eq⟩
  · intro s c f b only mask started len _ calm path bare home
    have slices := sliceOf_bare bare
    have done := fetchStep_delivered only mask started home len path bare fun l => (linePoisoned_bare slices l).symm.trans (calm.poison l)
    refine ⟨fetchStep s c, rfl, done.holds.ready, done.tfq, done.mem, fun r l at_ i hi => ?_, fun l at_ i hi => ?_, done.others⟩
    · exact (done.holds.rows r l at_ i hi).trans (byteAt_bare slices _).symm
    · exact (done.holds.scale l at_ i hi).trans (byteAt_bare slices _).symm
  · intro o s cx rs b k enters acting hb others
    obtain ⟨t, run, done⟩ := trel_released enters acting hb others
    exact ⟨t, run, done.open_, done.sealed, done.course.sameRegs, done.course.only, done.course.mem_eq⟩
end
